-- ==== Sys2Proof/Word.lean ====
section
/-! DEFINITION. The word type of the model's memory and the containers its units share. Registers and their fields are natural numbers below a power of two (the register file
truncates what it stores); bytes of memory are bit vectors; physical addresses, device time and counts are natural numbers. -/

namespace Sys2Proof

/-- One byte of SRAM, DRAM or code flash. -/
abbrev Byte := BitVec 8

/-- Four like things, one per actuator A0 to A3, per program slot P0 to P3 or per flow core F0 to F3 (Table 00.4). -/
structure Four (α : Type) where
  i0 : α
  i1 : α
  i2 : α
  i3 : α
deriving DecidableEq, Repr

/-- Item `i` of four. -/
def Four.get {α : Type} (f : Four α) (i : Fin 4) : α :=
  if i.val = 0 then f.i0 else if i.val = 1 then f.i1 else if i.val = 2 then f.i2 else f.i3

/-- Four items with item `i` replaced. -/
def Four.set {α : Type} (f : Four α) (i : Fin 4) (a : α) : Four α :=
  if i.val = 0 then { f with i0 := a } else if i.val = 1 then { f with i1 := a }
  else if i.val = 2 then { f with i2 := a } else { f with i3 := a }

/-- Four items with item `i` changed by `g`. -/
def Four.upd {α : Type} (f : Four α) (i : Fin 4) (g : α → α) : Four α := f.set i (g (f.get i))

/-- Four equal items. -/
def Four.all {α : Type} (a : α) : Four α := ⟨a, a, a, a⟩

/-- Four items as a list, item 0 first. -/
def Four.toList {α : Type} (f : Four α) : List α := [f.i0, f.i1, f.i2, f.i3]

/-- Four items changed alike. -/
def Four.map {α β : Type} (g : α → β) (f : Four α) : Four β := ⟨g f.i0, g f.i1, g f.i2, g f.i3⟩

end Sys2Proof
end

