-- ==== Sys2Proof/Operand.lean ====
section
/-! DEFINITION. The operand types of the commands: units of the watch hierarchy, requesters, and what the environment observes and
hands to the block (decode outcomes, preamplifier responses, demodulated words). -/

namespace Sys2Proof

/-- Who makes a register access: a core, a Reach engine, Sluice, a Confluence peer, or a unit's own manager (R29, R588, R509). -/
inductive Requester where
  | flow (k : Fin 4)
  | watch
  | reach (n : Fin 4)
  | sluice
  | peer
  | manager
deriving DecidableEq, Repr

/-- The functional units of Table 01.4 (R27). -/
inductive UnitRef where
  | hostPort (p : Fin 2)
  | confluence
  | intake
  | flowCore (k : Fin 4)
  | weir
  | irt
  | stage
  | mem
  | sluice
  | backwater
  | flash
  | trust
  | hsk
  | evr
  | zone (n : Fin 4)
  | reach (n : Fin 4)
  | channel (n : Fin 4)
  | deep
  | armLink (n : Fin 4)
  | servo (n : Fin 4)
  | cal
  | head (n : Fin 4) (h : Fin 8)
  | spindle
deriving DecidableEq, Repr

/-- The five domains of the watch hierarchy, numbered as SLOT_ID.DOMAIN (Table 01.5, R25). -/
inductive Domain where
  | motion | media | memory | host | platform
deriving DecidableEq, Repr

/-- The crossing buffers of R20 and R22: the sample and write crossings of an actuator, and any other island's. -/
inductive Crossing where
  /-- The sample crossing of an actuator overflows over so many sectors, the one being sampled and those sampled before it. -/
  | sample (n : Fin 4) (sectors : Nat)
  /-- The write crossing of an actuator underflows, before or after the sector's first bit. -/
  | write (n : Fin 4) (afterFirstBit : Bool)
  /-- Any other crossing: the requester of a transfer, as Table 11.2 numbers it, is stalled. -/
  | other (r : Fin 64)
deriving DecidableEq, Repr

/-- Operand 2 of an arithmetic instruction, format A of Table 03.23: a register or a signed 17-bit immediate. -/
inductive Op2 where
  | reg (b : Fin 16)
  | imm (i : BitVec 17)
deriving DecidableEq, Repr

/-- The operand of OFFSET, HEAD and SKIPTO, format RI of Table 03.23: a register or an 11-bit immediate. -/
inductive Op11 where
  | reg (a : Fin 16)
  | imm (i : BitVec 11)
deriving DecidableEq, Repr

/-- The Weir traffic classes (Table 13.1). -/
inductive WeirClass where
  | q | d | c | m
deriving DecidableEq, Repr

/-- The hop of a Weir packet: the Stage input, a link to a peer with the kind of slot there (0 class Q, 1 class D, 2 a heartbeat's, 3 an ABORT's, 4 a
token message's), or this member as a relay for a pair of members (R407, R574). -/
inductive Hop where
  | stage
  | link (p : Fin 4) (kind : Fin 5)
  | relay (src dst : Fin 4)
deriving DecidableEq, Repr

/-- What clears BLK (R144). -/
inductive BlkCause where
  | phase | amplitude | headChange | regionChange | disabled
deriving DecidableEq, Repr

/-- What the data readers of a head deliver to the front ends over one slot, by bit times counted from 64 bits before the slot's first bit
(R134, R137). RB's signal of a bit comes RBDLY bit times after RA's (R136). -/
structure Signal where
  ra : List Int
  rb : List Int
deriving DecidableEq, Repr

/-- What a decode attempt, an averaging pass or the deep decoder ends with (R150, R156): whether it converged, whether the CRC over
the decoded bytes matches (R71), and the syndrome weight. -/
structure Decoded where
  converged : Bool
  crcOk : Bool
  weight : Nat
deriving DecidableEq, Repr

/-- What the read-behind of a sector observes (Table 05.4): no stop or underflow (whole), no slip to one bank word past the end
(aligned), the mark's distance from bit 64 and its score, the syndrome weight and the longest asperity span on RB in bits. -/
structure ReadBehind where
  whole : Bool
  aligned : Bool
  markDev : Nat
  score : Nat
  weight : Nat
  span : Nat
deriving DecidableEq, Repr

/-- A response frame of the arm link as it arrives (R197): the status byte, the words read and the CRC. -/
structure ArmFrame where
  status : BitVec 8
  words : List (BitVec 16)
  crc : BitVec 8
deriving DecidableEq, Repr

/-- What a servo period finds of the primary and of the standby (R236, R239): nothing wrong, absent commands or a check error of the
primary, a difference between the two VCM commands, or a check error or absent commands of the standby. -/
inductive ServoFault where
  | none
  | absent
  | check
  | diverge (diff : Nat)
  | standby
deriving DecidableEq, Repr

/-- What a listen window finds (R473): the motor at rest, turning forward or backward at a speed in 0.1 rpm, or unresolved. -/
inductive Motor where
  | rest
  | turning (forward : Bool) (rpm10 : BitVec 17)
  | unresolved
deriving DecidableEq, Repr

/-- What a verified ComPacket does to the trust unit's session (R604, R607): nothing, opens one under the Admin authority of the Admin SP,
opens one under an authority that the Locking SP permits for the ranges of a mask, or closes it. -/
inductive Session where
  | keep
  | openAdmin
  | openLocking (ranges : BitVec 65)
  | close
deriving DecidableEq, Repr

/-- The body of a journal log record as a zone unit issues it (Table 09.7): TYPE, SUB, ZONE, A and B. -/
structure JBody where
  type : Nat
  sub : Nat
  zone : Nat
  a : Nat
  b : Nat
deriving DecidableEq, Repr

/-- A submission queue entry as sixteen 32-bit words, word 0 first (Table 10.4). -/
abbrev Sqe := List (BitVec 32)

end Sys2Proof
end

