-- ==== Sys2Proof/Syntax.lean ====
section
/-! DEFINITION. The commands of the block: one constructor per row of the table of operations and events, in the table's order. Each
docstring begins with its row's name and cites the rule the row is laid down in. An operand is what the sender chooses (an actuator, a
program slot, a value) or what the environment observes (a sample, a decode outcome, a link's width). -/

namespace Sys2Proof

/-- One command: a row of the table of operations and events, with its operands. -/
inductive Instr where
  /-- REGISTER_WRITE: a requester writes `v`, `size` bytes wide, at an offset of a register window (R8, R581). -/
  | registerWrite (r : Requester) (w : Fin 64) (off : Fin 65536) (size : Fin 9) (v : BitVec 64)
  /-- SLOT_QUIESCE: a write of SLOT_CTL.QUIESCE (R264, Table 01.8). -/
  | slotQuiesce (r : Requester) (u : UnitRef) (v : Bool)
  /-- SLOT_RESET: a write of 1 to SLOT_CTL.RESET (R32). -/
  | slotReset (r : Requester) (u : UnitRef)
  /-- SLOT_DEGRADE: a write of SLOT_CTL.DEGRADE (R652). -/
  | slotDegrade (r : Requester) (u : UnitRef) (v : Bool)
  /-- UNIT_RESET_END: a unit reset ends (R490). -/
  | unitResetEnd (u : UnitRef)
  /-- RESET_ACCESS_TIMEOUT: an access held while its unit is resetting ends with a bus error after 2 ms (R31). -/
  | resetAccessTimeout (u : UnitRef)
  /-- CROSSING_BUFFER_FAULT: a crossing buffer overflows or underflows (R22). -/
  | crossingBufferFault (x : Crossing)
  /-- INDEX_FIELD: an index field is detected, `dev` bits away from the bit count (R52). -/
  | indexField (n : Fin 4) (dev : Nat)
  /-- INDEX_FIELD_MISSED: a predicted index field is not detected (R52). -/
  | indexFieldMissed (n : Fin 4)
  /-- BANK_WORD: the `w`-th word place of the revolution is demodulated, its MARK `dev` bits away from the bit count (R54, R56, R173). -/
  | bankWord (n : Fin 4) (w : Nat) (mark : BitVec 4) (gray : BitVec 20) (chk : BitVec 4) (dev : Nat)
  /-- REGION_LOAD: a write of 1 to a bit of RCH.REGION.LOAD (R63, R82). -/
  | regionLoad (n : Fin 4) (h : Fin 8)
  /-- REGION_TABLE_STORE: a firmware store of 8 bytes into the region tables of working memory (R82). -/
  | regionTableStore (n : Fin 4) (dw : Fin 8192) (v : BitVec 64)
  /-- HALT (R95). -/
  | halt (n k : Fin 4)
  /-- B (R102). -/
  | b (n k : Fin 4) (cond : Fin 16) (off : BitVec 22)
  /-- BR (R102). -/
  | br (n k : Fin 4) (cond a : Fin 16)
  /-- CALL (R102). -/
  | call (n k : Fin 4) (off : BitVec 26)
  /-- RET (R102). -/
  | ret (n k : Fin 4)
  /-- WAIT (R107). -/
  | wait (n k : Fin 4) (cond : Fin 16) (unit : Fin 4) (count : BitVec 20)
  /-- WAIT_TIMEOUT: the timeout of a WAIT or JOIN expires (R107). -/
  | waitTimeout (n k : Fin 4)
  /-- TRAP (R102). -/
  | trap (n k : Fin 4) (code : BitVec 16)
  /-- ADD (R106). -/
  | add (n k : Fin 4) (d a : Fin 16) (o : Op2)
  /-- SUB (R106). -/
  | sub (n k : Fin 4) (d a : Fin 16) (o : Op2)
  /-- AND (R106). -/
  | and (n k : Fin 4) (d a : Fin 16) (o : Op2)
  /-- OR (R106). -/
  | or (n k : Fin 4) (d a : Fin 16) (o : Op2)
  /-- XOR (R106). -/
  | xor (n k : Fin 4) (d a : Fin 16) (o : Op2)
  /-- SHL (R106). -/
  | shl (n k : Fin 4) (d a : Fin 16) (o : Op2)
  /-- SHR (R106). -/
  | shr (n k : Fin 4) (d a : Fin 16) (o : Op2)
  /-- CMP (R106). -/
  | cmp (n k : Fin 4) (a : Fin 16) (o : Op2)
  /-- MOV (R104). -/
  | mov (n k : Fin 4) (dst src : Fin 32)
  /-- LDI (R102). -/
  | ldi (n k : Fin 4) (d : Fin 16) (i : BitVec 22)
  /-- LDH (R102). -/
  | ldh (n k : Fin 4) (d : Fin 16) (hw : Fin 4) (i : BitVec 16)
  /-- LD (R80). -/
  | ld (n k : Fin 4) (d a : Fin 16) (off : BitVec 18)
  /-- ST (R80, R248). -/
  | st (n k : Fin 4) (r a : Fin 16) (off : BitVec 18)
  /-- SEEK (R109). -/
  | seek (n k : Fin 4) (a : Fin 16)
  /-- FOLLOW (R109). -/
  | follow (n k : Fin 4) (disp : BitVec 8)
  /-- OFFSET (R110). -/
  | offset (n k : Fin 4) (o : Op11)
  /-- SETTLE (R111). -/
  | settle (n k : Fin 4) (set : Fin 4) (timeout : BitVec 20)
  /-- HEAD (R112). -/
  | head (n k : Fin 4) (o : Op11)
  /-- RDS (R116). -/
  | rds (n k : Fin 4) (eqs : Fin 8) (wgt : Fin 4) (avg : Fin 8) (deep tpr nox cont : Bool)
  /-- WRS (R120). -/
  | wrs (n k : Fin 4)
  /-- VFY (R119). -/
  | vfy (n k : Fin 4) (cmpb : Bool) (wth : BitVec 8)
  /-- SKIPTO (R124). -/
  | skipto (n k : Fin 4) (o : Op11)
  /-- SCAN (R125). -/
  | scan (n k : Fin 4) (a : Fin 16) (stop : Fin 4)
  /-- RAW (R126). -/
  | raw (n k : Fin 4) (a : Fin 16) (ch : Fin 32)
  /-- ASP (R180). -/
  | asp (n k : Fin 4) (a : Fin 16)
  /-- HTR (R185). -/
  | htr (n k : Fin 4) (a : Fin 16)
  /-- BUF (R128). -/
  | buf (n k : Fin 4) (a : Fin 16) (clr : Bool)
  /-- SLU (R129). -/
  | slu (n k : Fin 4) (a : Fin 16) (ch : Fin 32)
  /-- FENCE (R130). -/
  | fence (n k : Fin 4) (media data arm : Bool)
  /-- POST (R131). -/
  | post (n k : Fin 4) (a : Fin 16)
  /-- SIG (R132). -/
  | sig (n k : Fin 4) (tgt : Fin 5) (s : Fin 8)
  /-- JOIN (R108). -/
  | join (n k : Fin 4) (mask : BitVec 8) (unit : Fin 4) (count : BitVec 16)
  /-- CKPT (R133). -/
  | ckpt (n k : Fin 4)
  /-- ILLEGAL_INSTRUCTION: the slot fetches a word that is no instruction (R102). -/
  | illegalInstruction (n k : Fin 4) (word : BitVec 32)
  /-- SLOT_WAKE: the condition of a yielding slot is met (R92). -/
  | slotWake (n k : Fin 4)
  /-- SLOT_DISPLACED: the running slot gives up the engine at its preemption point (R93). -/
  | slotDisplaced (n : Fin 4)
  /-- MOTION_LIMIT_EXPIRY: a motion or implicit positioning reaches RCH.LIMIT.MOTION_MS (R109). -/
  | motionLimitExpiry (n : Fin 4)
  /-- SECTOR_START: a media instruction decides to start its next sector at its slot (R114); of a slot to be read, what the readers deliver
  over it, where that is known. -/
  | sectorStart (n : Fin 4) (raw : Option Signal)
  /-- READ_BEHIND_DECIDED: the read-behind check of the oldest sector written is decided (R190); with RB's codes over the sector, where they
  are known, the check is computed from them. -/
  | readBehindDecided (n : Fin 4) (o : ReadBehind) (raw : Option (List Int))
  /-- SLOT_START (R95). -/
  | slotStart (n k : Fin 4)
  /-- SLOT_RESUME (R97). -/
  | slotResume (n k : Fin 4)
  /-- SLOT_STOP (R93). -/
  | slotStop (n k : Fin 4)
  /-- SLOT_RESTART (R94). -/
  | slotRestart (n k : Fin 4)
  /-- SLOT_KILL (R94). -/
  | slotKill (n k : Fin 4)
  /-- SLOT_RESTART_DONE: an interrupted slot reloads its record (R97). -/
  | slotRestartDone (n k : Fin 4)
  /-- SLOT_APPEND: a write of a chain entry to RCH.SLOT_APPENDn (R101). -/
  | slotAppend (n k : Fin 4) (entry : BitVec 64)
  /-- RCH_ENABLE: a write of RCH.CTL.EN (R100). -/
  | rchEnable (n : Fin 4) (v : Bool)
  /-- SIGNALS_SET: a firmware write of RCH.SIGNALS.SET (R100). -/
  | signalsSet (n : Fin 4) (mask : BitVec 8)
  /-- MACHINE_CHECK: a control-store word is read for execution at a microaddress, its bits spoilt as `err` says; `ack` where the word asks a unit that
  acknowledges. Parity, an illegal word or an element timeout is a machine check, and any other word acts (R269, R272, R279, R280). -/
  | machineCheck (n : Fin 4) (uaddr : BitVec 13) (err : BitVec 32) (ack : Bool)
  /-- SLICE_WINDOW_END: a monitor window of a slice ends, its mean and RMS this far from the other slices' average (R140). -/
  | sliceWindowEnd (n : Fin 4) (rb : Bool) (slice : Fin 9) (ofs gain : Nat)
  /-- BLK_LOCK: the lock conditions of R143 have held for the lock count. -/
  | blkLock (n : Fin 4)
  /-- BLK_LOSS (R144). -/
  | blkLoss (n : Fin 4) (c : BlkCause)
  /-- HOP_HOLD_EXPIRY (R145, R224). -/
  | hopHoldExpiry (n : Fin 4)
  /-- TA_DETECT: the asperity detector of RB, or of RA, looks at the codes of a stretch that begins at bit `first` of the oldest sector being
  read (R158). -/
  | taDetect (n : Fin 4) (rb : Bool) (codes : List Int) (first : Int)
  /-- DECODE_ATTEMPT_DONE: the attempt of one of the two pairs ends; `scores` are the 25 scores of its sync window, earliest position first
  (R148, R150, R154). With the samples of this pass, where they are known, scores and outcome are computed from them. -/
  | decodeAttemptDone (n : Fin 4) (pair : Fin 2) (scores : List Nat) (o : Decoded) (raw : Option Signal)
  /-- INLINE_DEADLINE: the attempt under way on the oldest undecided sector is abandoned; the scores of its sync window (R154). -/
  | inlineDeadline (n : Fin 4) (scores : List Nat)
  /-- UNSAMPLED_SECTOR: the oldest undecided sector, or the averaging pass under way, was unsampled (R147). -/
  | unsampledSector (n : Fin 4) (avg : Bool)
  /-- BLK_NOT_REGAINED: BLK is not set within 200 µs (R112, R147). -/
  | blkNotRegained (n : Fin 4)
  /-- AVERAGING_PASS: a further pass of the oldest pending sector is framed, added to its SUM and decoded (R162). -/
  | averagingPass (n : Fin 4) (scores : List Nat) (o : Decoded) (raw : Option Signal)
  /-- DEEP_REQUEST_TAKE (R163). -/
  | deepRequestTake
  /-- DEEP_DECODE_DONE (R164). -/
  | deepDecodeDone (o : Decoded)
  /-- TRACK_PARITY_RECONSTRUCT: the group of the first failed sector has been decoded whole; `crcOk` is the CRC check of the
  reconstructed payload (R165). -/
  | trackParityReconstruct (n : Fin 4) (crcOk : Bool)
  /-- WMODE_ARM: the WMODE write with WARM 1 is sent; how many of its responses fail, and whether its valid acknowledgement arrives after the first
  bit (R177, R178, R203). -/
  | wmodeArm (n : Fin 4) (late : Bool) (fails : Fin 3)
  /-- RUN_END_IDLE (R179). -/
  | runEndIdle (n : Fin 4)
  /-- ASSIST_TAIL_END (R179). -/
  | assistTailEnd (n : Fin 4)
  /-- ALOOP_WINDOW_END (R182). -/
  | aloopWindowEnd (n : Fin 4)
  /-- TOUCHDOWN_SAMPLE: a reading of the contact sensor (R187). -/
  | touchdownSample (n : Fin 4) (ecs : BitVec 16)
  /-- ARM_PERIOD (R200). -/
  | armPeriod (n : Fin 4)
  /-- ARM_TD: the preamplifier receives the TD frame sent, with the bits of `err` in error (R199). -/
  | armTd (n : Fin 4) (err : BitVec 32)
  /-- ARM_RD: the preamplifier receives the frame of the read under way, with the bits of `err` in error (R196). -/
  | armRd (n : Fin 4) (err : BitVec 24)
  /-- ARM_WR: the preamplifier receives the frame of the write under way, with the bits of `err` in error (R196). -/
  | armWr (n : Fin 4) (err : BitVec 88)
  /-- ARM_RESPONSE: the response to the transaction under way arrives (R203). -/
  | armResponse (n : Fin 4) (f : ArmFrame)
  /-- PREAMP_TD_TIMEOUT (R199). -/
  | preampTdTimeout (n : Fin 4)
  /-- PREAMP_ATTENTION: the preamplifier finds these faults, as bits of FAULT, present (R205). -/
  | preampAttention (n : Fin 4) (faults : BitVec 9)
  /-- ARM_REQ_GO (R204). -/
  | armReqGo (n : Fin 4)
  /-- ARM_LINK_RESET (R204). -/
  | armLinkReset (n : Fin 4)
  /-- PES_SAMPLE: the position demodulator delivers a sample and its carrier amplitude (R210). -/
  | pesSample (n : Fin 4) (pes : BitVec 10) (amp : BitVec 8)
  /-- SERVO_PERIOD: a servo period opens (R219). -/
  | servoPeriod (n : Fin 4) (f : ServoFault)
  /-- HOP_COMPLETE: the sample that follows a hop's hold, with its amplitude (R222). -/
  | hopComplete (n : Fin 4) (pes : BitVec 10) (amp : BitVec 8)
  /-- BANK_CROSSING (R226). -/
  | bankCrossing (n : Fin 4)
  /-- SEEK_TRAVEL_END (R225). -/
  | seekTravelEnd (n : Fin 4)
  /-- SEEK_CAPTURE_TIMEOUT (R227). -/
  | seekCaptureTimeout (n : Fin 4)
  /-- PRIMARY_RESUME (R236). -/
  | primaryResume (n : Fin 4)
  /-- STBY_RST: a write of 1 to SRV.STBY.RST of a pivot (R239). -/
  | stbyRst (p : Fin 2)
  /-- CSWAP (R221). -/
  | cswap (n : Fin 4)
  /-- FF_SWAP (R233). -/
  | ffSwap (n : Fin 4)
  /-- SHOCK_INPUT: a shock input goes to a level and has held it for a number of samples (R240). -/
  | shockInput (i : Fin 2) (level : Bool) (samples : Nat)
  /-- SHOCK_HOLD_END (R240). -/
  | shockHoldEnd (n : Fin 4)
  /-- LOAD (R241). -/
  | load (n : Fin 4)
  /-- LOAD_TIMEOUT (R241). -/
  | loadTimeout (n : Fin 4)
  /-- UNLOAD (R242). -/
  | unload (n : Fin 4)
  /-- ERET (R245). -/
  | eret (n : Fin 4)
  /-- RAMP_DETECT (R243). -/
  | rampDetect (n : Fin 4)
  /-- PARK_COMPLETE (R243). -/
  | parkComplete (n : Fin 4)
  /-- ZONE_LOAD: a write of 1 to RCH.ZCTL.LOAD (R297). -/
  | zoneLoad (n : Fin 4)
  /-- ZONE_RECOV_WRITE: a write of RCH.ZCTL.RECOV (R326). -/
  | zoneRecovWrite (n : Fin 4) (v : Bool)
  /-- ZONE_QUERY: a write of a zone ID to RCH.ZQRY (R329). -/
  | zoneQuery (n : Fin 4) (z : BitVec 20)
  /-- ZFLAG_CLRVFY: a write of RCH.ZFLAGOP with CLRVFY (R313). -/
  | zflagClrvfy (n : Fin 4) (z : BitVec 20)
  /-- ZFLAG_SETRZR: a write of RCH.ZFLAGOP with SETRZR (R313). -/
  | zflagSetrzr (n : Fin 4) (z : BitVec 20)
  /-- JOURNAL_ENABLE: a write of RCH.JCTL.EN (R322). -/
  | journalEnable (v : Bool)
  /-- JOURNAL_RECORD_ISSUE: a zone unit issues a log record (R322). -/
  | journalRecordIssue (r : JBody)
  /-- JOURNAL_RECORD_DURABLE: the oldest sequenced record becomes durable (R322). -/
  | journalRecordDurable
  /-- JOURNAL_FOLD: the records of the oldest log sector are folded into the table pages and the sector is erased (R323). -/
  | journalFold
  /-- ZONE_APPEND_PLACE: the data of the Zone Append of a context is complete in DRAM and it is placed (R303). -/
  | zoneAppendPlace (c : Fin 65536)
  /-- PLACEMENT_WITHDRAW: a write or append of a zone has ended without success (R304). -/
  | placementWithdraw (z : BitVec 20)
  /-- ZONE_ACTION_EFFECT: the Zone Management action of a context takes effect (R307). -/
  | zoneActionEffect (c : Fin 65536)
  /-- SQ_DOORBELL: a host write of a submission queue's tail doorbell (R341). -/
  | sqDoorbell (ctl : Fin 2) (sq : Fin 129) (tail : BitVec 16)
  /-- SQ_FETCH: an arbitration grant fetches one submission entry into a context (R340). -/
  | sqFetch (ctl : Fin 2) (sq : Fin 129) (e : Sqe)
  /-- CONTEXT_ADMIT (R409). -/
  | contextAdmit (c : Fin 65536)
  /-- CONTEXT_BIND: the media scheduler binds the context to an engine (R344). -/
  | contextBind (c : Fin 65536) (n : Fin 4)
  /-- CLASS_LIMIT_EXPIRY (R342). -/
  | classLimitExpiry (c : Fin 65536)
  /-- COMPLETION_POST (R346). -/
  | completionPost (c : Fin 65536)
  /-- NSREADY_WRITE: a write of INT.NSREADY (R335). -/
  | nsreadyWrite (v : BitVec 5)
  /-- INTAKE_ENABLE: a write of INT.CTL.EN (R614). -/
  | intakeEnable (v : Bool)
  /-- READ: the intake carries out the NVMe Read of a context (R38). -/
  | read (c : Fin 65536)
  /-- WRITE: the NVMe Write of a context, its protection information checked on arrival: 0 passes, 1 Guard, 2 Application Tag,
  3 Reference Tag fails (R37, R361). -/
  | write (c : Fin 65536) (pi : Fin 4)
  /-- WRITE_ZEROES (R337). -/
  | writeZeroes (c : Fin 65536)
  /-- VERIFY (R337). -/
  | verify (c : Fin 65536)
  /-- FLUSH (R347). -/
  | flush (c : Fin 65536)
  /-- ZONE_APPEND, with the protection check on arrival as for WRITE (R303, R362). -/
  | zoneAppend (c : Fin 65536) (pi : Fin 4)
  /-- ZONE_OPEN (R306). -/
  | zoneOpen (c : Fin 65536)
  /-- ZONE_CLOSE (R306). -/
  | zoneClose (c : Fin 65536)
  /-- ZONE_FINISH (R306). -/
  | zoneFinish (c : Fin 65536)
  /-- ZONE_RESET (R310). -/
  | zoneReset (c : Fin 65536)
  /-- ZONE_OFFLINE (R306). -/
  | zoneOffline (c : Fin 65536)
  /-- REPORT_ZONES (R312). -/
  | reportZones (c : Fin 65536)
  /-- ORDERING_FENCE (R348). -/
  | orderingFence (c : Fin 65536)
  /-- CREATE_IO_SQ (R341). -/
  | createIoSq (c : Fin 65536)
  /-- CREATE_IO_CQ (R337). -/
  | createIoCq (c : Fin 65536)
  /-- DELETE_IO_SQ (R356). -/
  | deleteIoSq (c : Fin 65536)
  /-- DELETE_IO_CQ (R337). -/
  | deleteIoCq (c : Fin 65536)
  /-- GET_LOG_PAGE (R366). -/
  | getLogPage (c : Fin 65536)
  /-- IDENTIFY (R365). -/
  | identify (c : Fin 65536)
  /-- ABORT (R352). -/
  | abort (c : Fin 65536)
  /-- SET_FEATURES (R364). -/
  | setFeatures (c : Fin 65536)
  /-- GET_FEATURES (R364). -/
  | getFeatures (c : Fin 65536)
  /-- ASYNC_EVENT_REQUEST (R337). -/
  | asyncEventRequest (c : Fin 65536)
  /-- FIRMWARE_IMAGE_DOWNLOAD: part of an image arrives (R337). -/
  | firmwareImageDownload (c : Fin 65536) (data : List (BitVec 8))
  /-- FIRMWARE_COMMIT: the image's signature and rollback check pass or not (R358, R599). -/
  | firmwareCommit (c : Fin 65536) (valid : Bool)
  /-- FIRMWARE_ACTIVATE: commit action 0x3 (R359). -/
  | firmwareActivate (c : Fin 65536)
  /-- ACTIVATION_END (R359). -/
  | activationEnd
  /-- FORMAT_NVM (R338). -/
  | formatNvm (c : Fin 65536)
  /-- SANITIZE (R338). -/
  | sanitize (c : Fin 65536)
  /-- SECURITY_SEND: a ComPacket reaches the trust unit, and what becomes of its session (R604). -/
  | securitySend (c : Fin 65536) (data : List (BitVec 8)) (o : Session)
  /-- SECURITY_RECEIVE (R604). -/
  | securityReceive (c : Fin 65536)
  /-- CC_EN_SET: CC.EN is written to 1 (R614). -/
  | ccEnSet (ctl : Fin 2)
  /-- CONTROLLER_RESET: CC.EN cleared, a conventional or function-level reset (`both` false), or an NVM Subsystem Reset (R355). -/
  | controllerReset (ctl : Fin 2) (both : Bool)
  /-- SHUTDOWN_NORMAL (R357). -/
  | shutdownNormal (ctl : Fin 2)
  /-- SHUTDOWN_ABRUPT (R357). -/
  | shutdownAbrupt (ctl : Fin 2)
  /-- PORT_LINK_DOWN (R360). -/
  | portLinkDown (p : Fin 2)
  /-- PORT_LINK_UP: the link trains at a speed code and width (R331, R360). -/
  | portLinkUp (p : Fin 2) (speed : Fin 8) (width : Fin 8)
  /-- LINK_HOLD_EXPIRY (R360). -/
  | linkHoldExpiry (p : Fin 2)
  /-- PERST_ASSERT (R629). -/
  | perstAssert (p : Fin 2)
  /-- APST_TRANSITION: the package power state changes (R363). -/
  | apstTransition (ctl : Fin 2) (ps : Fin 5)
  /-- STAGE_REQUEST: requester `r` of Table 11.2 loads `len` bytes at a DRAM address, or stores the bytes of `st` there, each only where
  its bit of `be` is 1 (R368, R369, R373). -/
  | stageRequest (r : Fin 64) (a : BitVec 40) (len : Fin 257) (st : Option (List (BitVec 8))) (be : BitVec 256)
  /-- STAGE_FILL_DONE: the fetch of the unit of 256 or 128 bytes at a DRAM address completes (R375). -/
  | stageFillDone (a : BitVec 40)
  /-- WRITEBACK_ISSUE: the write-back buffer issues its oldest dirty unit; `bad` names a word of it found uncorrectable (R379, R382). -/
  | writebackIssue (bad : Option (Fin 32))
  /-- STAGE_DISABLE: STG.CTL.EN written to 0 (R385). -/
  | stageDisable
  /-- STAGE_DRAINED: no dirty unit remains (R385). -/
  | stageDrained
  /-- STAGE_ENABLE: STG.CTL.EN written to 1 (R387). -/
  | stageEnable
  /-- MEM_WRITE: the memory controller writes the word at byte address 8 w by its byte enables (R394). -/
  | memWrite (w : BitVec 37) (v : BitVec 64) (be : BitVec 8)
  /-- MEM_READ: requester `r` reads `len` bytes; `flip` is the error that has struck the codeword of the first word (R395, R396). -/
  | memRead (r : Fin 64) (a : BitVec 40) (len : Fin 257) (flip : BitVec 80)
  /-- BUCKET_LEAK: a window boundary of bucket 0 (SRAM) or 1 (DRAM) (R399). -/
  | bucketLeak (m : Fin 2)
  /-- SCRUB_STEP: the scrubber reads the next word of SRAM or DRAM; `flip` is the error that has struck its codeword (R402). -/
  | scrubStep (dram : Bool) (flip : BitVec 80)
  /-- MEMORY_FILL: the fill of P3, with the first DRAM channel that failed training where one did (R404, R405). -/
  | memoryFill (failed : Option (Fin 5))
  /-- MEM_INJ_ARM: a write of MEM.INJ (R406). -/
  | memInjArm (r : Requester) (v : BitVec 64)
  /-- WEIR_PACKET: requester `r` sends a packet of a class to the Stage input on a credit (`send`), `write` marking the header or the data of a write;
  or the Stage input passes its next packet on and the credit returns (R407, R411). At another hop the message or packet is one over a link, or one
  that this member relays (R574). -/
  | weirPacket (hop : Hop) (send : Bool) (r : Fin 64) (cls : WeirClass) (write : Bool)
  /-- WEIR_STALL: a sender has waited for a credit longer than its element timeout (R414). -/
  | weirStall (r : Fin 48) (cls : WeirClass)
  /-- WEIR_SYNC: a write of a requester mask to WEIR.SYNCk (R416). -/
  | weirSync (r : Requester) (k : Fin 5) (mask : BitVec 48)
  /-- WEIR_SYNC_DONE: every covered write has arrived (R415). -/
  | weirSyncDone (k : Fin 5)
  /-- SLUICE_GO: a write of GO (R427). -/
  | sluiceGo (c : Fin 32)
  /-- SLUICE_STOP: a write of STOP (R429). -/
  | sluiceStop (c : Fin 32)
  /-- SLUICE_RESUME: a write of RESUME (R427). -/
  | sluiceResume (c : Fin 32)
  /-- SLUICE_DESC_FETCH: a channel fetches its next descriptor (R419). -/
  | sluiceDescFetch (c : Fin 32)
  /-- SLUICE_ACCESS: a channel issues its next access (R421, R422). -/
  | sluiceAccess (c : Fin 32)
  /-- SLUICE_DESC_DONE: the last write of a descriptor has left Sluice (R428). -/
  | sluiceDescDone (c : Fin 32)
  /-- SLUICE_SECTOR_XFER: a sector transfer of an engine, to its write buffer or from its decoder (R425, R426). -/
  | sluiceSectorXfer (n : Fin 4) (write : Bool)
  /-- BKW_PUSH: an 8-byte store to PUSHq (R432). -/
  | bkwPush (q : Fin 256) (w : BitVec 64)
  /-- BKW_PUSHL: an 8-byte store to PUSHLq (R432). -/
  | bkwPushl (q : Fin 256) (w : BitVec 64)
  /-- BKW_POP: a read of POPq, the word leaving its window failing its parity check or not (R434, R435). -/
  | bkwPop (q : Fin 256) (bad : Bool)
  /-- BKW_FLUSH: a write of 1 to QCTLq.FLUSH (R436). -/
  | bkwFlush (q : Fin 256)
  /-- BKW_SPILL: the 8 oldest tail words move to the middle; bit i of `bad`: word i fails its parity check (R433, R435). -/
  | bkwSpill (q : Fin 256) (bad : BitVec 8)
  /-- BKW_REFILL: middle words arrive in the head window (R433). -/
  | bkwRefill (q : Fin 256)
  /-- CFL_READ: a read of the word at array offset 8 w, by an instruction fetch or not; the array finds no error (0), one bit (1), or an
  uncorrectable word (2) (R443, R445, R446). -/
  | cflRead (w : BitVec 23) (fetch : Bool) (err : Fin 3)
  /-- CFL_PROGRAM: CMDb.GO with OP 1 (R450). -/
  | cflProgram (b : Fin 2)
  /-- CFL_ERASE: CMDb.GO with OP 2 (R450). -/
  | cflErase (b : Fin 2)
  /-- CFL_OP_DONE: the firmware operation of a bank ends after at most `pulses` pulses; `bad`: the word of the program, or the erase,
  that fails its verify (R454 to R457). -/
  | cflOpDone (b : Fin 2) (pulses : Fin 17) (bad : Option (Fin 8))
  /-- CFL_RETIRE_COPY: the oldest background copy of a bank completes (R455). -/
  | cflRetireCopy (b : Fin 2)
  /-- CFL_SUSPEND: a read of a busy bank suspends its operation (R452). -/
  | cflSuspend (b : Fin 2)
  /-- CFL_RESUME: the suspended operation resumes (R452). -/
  | cflResume (b : Fin 2)
  /-- CFL_LOCK_WRITE: a write to CFL.LOCK (R460). -/
  | cflLockWrite (v : BitVec 32)
  /-- SPIN_DMD_PERIOD: a period of SPIN_DMD and its high time, in ns (R466). -/
  | spinDmdPeriod (period high : BitVec 32)
  /-- SPIN_DMD_TIMEOUT: no edge for 2 ms, the pin high or low (R466). -/
  | spinDmdTimeout (level : Bool)
  /-- CURVE_APPLY: a write of 1 to SPN.CTL.CURVE (R468). -/
  | curveApply
  /-- TARGET_CHANGE: the target of R469 differs from the one in force (R470). -/
  | targetChange
  /-- HELD_TARGET_RELEASE: every fitted actuator is parked (R470). -/
  | heldTargetRelease
  /-- ATSPD_RISE (R471). -/
  | atspdRise
  /-- ATSPD_LOSS (R471). -/
  | atspdLoss
  /-- SPIN_START: a start begins (R472). -/
  | spinStart
  /-- LISTEN_END: the listen window ends: the motor is at rest, turning at a speed in 0.1 rpm, or unresolved (R473). -/
  | listenEnd (m : Motor)
  /-- CATCH: the bridge is enabled on the back-EMF vector (R476). -/
  | catchMotor
  /-- WARMUP_END: TX reads 0 °C or more, or WARM_S has passed (R474). -/
  | warmupEnd
  /-- TOKEN_GRANT: the spin-up token is granted (R472). -/
  | tokenGrant
  /-- ALIGN_END: the align time ends (R475). -/
  | alignEnd
  /-- OBSERVER_HANDOVER: four agreeing periods at or above 360 rpm, or 450 rpm without (R475). -/
  | observerHandover (ok : Bool)
  /-- SPINUP_TIMEOUT: SPINUP_S has passed without ATSPD (R477). -/
  | spinupTimeout
  /-- LOSS_OF_SYNC: a test of Table 15.4: 0 speed step, 1 amplitude, 2 residual (R478). -/
  | lossOfSync (test : Fin 3)
  /-- BRAKE_REST: rest is reached (R480). -/
  | brakeRest
  /-- BRAKE_TIMEOUT: rest is not reached within 60 s (R480). -/
  | brakeTimeout
  /-- VMOT_THRESHOLD: VMOT, in mV, crosses a threshold of Table 15.5 (R481). -/
  | vmotThreshold (mv : BitVec 16)
  /-- OVP_RELEASE: VMOT has stayed at 14.0 V or less for 10 ms (R481). -/
  | ovpRelease
  /-- PWM_PERIOD: a PWM period samples the phase currents, each where its leg was low for 2 µs or more, and the observer gives the
  electrical angle and the speed in 0.1 rpm (R461 to R463, R471). -/
  | pwmPeriod (u v w : Option (BitVec 16)) (angle : BitVec 16) (rpm10 : BitVec 17)
  /-- SPN_CLEAR: a write of 1 to SPN.CTL.CLEAR (R484). -/
  | spnClear
  /-- SPINDLE_RESET_TAKEOVER: the restarted unit takes commutation over, or has not by 5 ms (R483). -/
  | spindleResetTakeover (inTime : Bool)
  /-- ELEMENT_EXPIRY: a handshake of a unit exceeds ELEM_US (R486). -/
  | elementExpiry (u : UnitRef) (element : BitVec 16)
  /-- UNIT_EXPIRY: a unit makes no progress (0), overruns its reset (1) or misses a heartbeat (2) (R486). -/
  | unitExpiry (u : UnitRef) (cause : Fin 3)
  /-- DOMAIN_EXPIRY: a domain manager misses its heartbeat or overruns a restart (R486). -/
  | domainExpiry (d : Domain)
  /-- WATCHDOG_EXPIRY (R486). -/
  | watchdogExpiry
  /-- LOCKSTEP_MISMATCH (R486). -/
  | lockstepMismatch
  /-- DOMAIN_RESTART_END (R490). -/
  | domainRestartEnd (d : Domain)
  /-- WATCH_RESTART_END (R493). -/
  | watchRestartEnd
  /-- WDOG_KICK: a write of 1 to IRT.WDOG.KICK (R509). -/
  | wdogKick (r : Requester)
  /-- DOMAIN_RESTART_REQ: a write of 1 to IRT.DCTLd.RESTART (R509). -/
  | domainRestartReq (r : Requester) (d : Domain)
  /-- CONTROLLER_RESTART (R497). -/
  | controllerRestart
  /-- EXPIRY_WINDOW: a 10 s window boundary (R494). -/
  | expiryWindow
  /-- CAL_GO: a write of 1 to CAL.CTL.GO (R518). -/
  | calGo
  /-- CAL_PASS_START: a calibration pass starts (R511). -/
  | calPassStart
  /-- CAL_ITEM_DONE: a unit of the item under way is measured: its coefficients, the first of them that lies outside its window, and the deviations of
  REFV, REFR and REFCLK from their values in parts per million (R510, R519). -/
  | calItemDone (coeffs : List (BitVec 32)) (bad : Option (Fin 32)) (refv refr refclk : Int)
  /-- CAL_SWAP: an item's unit reaches its swap point (R515). -/
  | calSwap (item : Fin 7) (n : Fin 4)
  /-- CAL_PASS_END: the pass ends (R522). -/
  | calPassEnd
  /-- CAL_CLAIM: an item-5 claim of a channel starts (R513). -/
  | calClaim (n : Fin 4)
  /-- HSK_ROUND: a housekeeping round begins (R524). -/
  | hskRound
  /-- HSK_ROUND_PUBLISH: the round's results, channels 0 to 23 in the units of Table 17.4, and whether the THERM divider reads below 2% or
  above 98% of its span (R524 to R530). -/
  | hskRoundPublish (results : List (BitVec 16)) (thermBad : Bool)
  /-- SENSCLR: a write to HSK.SENSCLR (R529). -/
  | sensclr (mask : BitVec 10)
  /-- REFCLK_LOSS (R534). -/
  | refclkLoss
  /-- REFCLK_RETURN (R534). -/
  | refclkReturn
  /-- EVR_RECORD: the recorder takes the oldest raised record (R537 to R545). -/
  | evrRecord
  /-- EVR_RAISE: a write of word 0 of RAISEk (R548). -/
  | evrRaise (r : Requester) (k : Fin 5) (v : BitVec 32)
  /-- EVF: a write of 1 to EVFk.GO (R549). -/
  | evf (r : Requester) (k : Fin 5)
  /-- EVF_DONE: every earlier record has been sequenced or discarded (R549). -/
  | evfDone (k : Fin 5)
  /-- RATE_WINDOW_CLOSE: a 1 s window closes (R543). -/
  | rateWindowClose
  /-- EVR_FLASH_APPEND: the oldest record not yet durable is programmed into the ring, or code flash refuses it (R550). -/
  | evrFlashAppend (refused : Bool)
  /-- EVR_REBUILD (R551). -/
  | evrRebuild
  /-- EVR_CLEAR: a write of 1 to EVR.CLR.GO, under the TCG Admin authority (false) or an integrator token (true) (R553). -/
  | evrClear
  /-- EVR_AUTH_TIMEOUT (R553). -/
  | evrAuthTimeout
  /-- CFX_LINK_TRAIN: a link trains and its far end shows a group, size and position (R558). -/
  | cfxLinkTrain (port : Fin 3) (gid : Fin 16) (size pos : Fin 4)
  /-- HB_SEND (R572). -/
  | hbSend
  /-- HB: a heartbeat of a peer: its VERSION, role, phase, NSREADY and the members it reaches (R572). -/
  | hb (p : Fin 4) (version : BitVec 64) (role : Fin 4) (phase nsready : BitVec 8) (reached : BitVec 4)
  /-- PEER_LOST: a peer has not been heard for 5 ms (R572). -/
  | peerLost (p : Fin 4)
  /-- PEER_HEARD_AGAIN (R573). -/
  | peerHeardAgain (p : Fin 4)
  /-- FWD: a forwarded submission entry arrives from a mouth, with the mouth's context, its read buffer and the class of its queue
  (R566). -/
  | fwd (p : Fin 4) (tag : BitVec 16) (buf : BitVec 64) (cls : Fin 5) (e : Sqe)
  /-- WDATA: write data arrives at the owner's context (R566). -/
  | wdata (p : Fin 4) (c : Fin 65536) (off : BitVec 32) (data : List (BitVec 8))
  /-- RDATA: read data arrives at the mouth's context (R566). -/
  | rdata (p : Fin 4) (c : Fin 65536) (off : BitVec 32) (data : List (BitVec 8))
  /-- CPL: the completion of a forwarded command arrives at the mouth's context (R567). -/
  | cpl (p : Fin 4) (c : Fin 65536) (dw0 dw1 : BitVec 32) (status : BitVec 16)
  /-- CFX_ABORT_MSG: an ABORT arrives for the mouth's context `tag`: an abort, or a release (R569). -/
  | cfxAbortMsg (p : Fin 4) (tag : BitVec 16) (release : Bool)
  /-- ARES: the result of a forwarded Abort arrives at the mouth's context of the Abort (R569). -/
  | ares (p : Fin 4) (c : Fin 65536) (notAborted : Bool)
  /-- ADM: an admin-state image with its VERSION arrives (R563). -/
  | adm (p : Fin 4) (version : BitVec 64) (image : List (Nat × Nat))
  /-- AACK: a member has applied a VERSION (R563). -/
  | aack (p : Fin 4) (version : BitVec 64)
  /-- CFX_FENCE_MSG: a FENCE arrives, and every earlier message of its sender has taken effect (R571). -/
  | cfxFenceMsg (p : Fin 4) (num : BitVec 64)
  /-- FACK: a fence acknowledgement arrives (R571). -/
  | fack (p : Fin 4) (num : BitVec 64)
  /-- TREQ: a token request arrives at the lead (R575). -/
  | treq (p : Fin 4)
  /-- TGNT: this member receives its token (R575). -/
  | tgnt
  /-- TREL: a token returns to the lead (R575). -/
  | trel (p : Fin 4)
  /-- SOLO_TOKEN (R575). -/
  | soloToken
  /-- CFX_FENCE_GO: a write of CFX.FENCE with GO (R571). -/
  | cfxFenceGo (mask : BitVec 4)
  /-- BAD_MESSAGE_TYPE: a message of a TYPE that Table 19.4 does not list arrives (R560). -/
  | badMessageType (p : Fin 4) (type : BitVec 8)
  /-- CLAIM_READ: a read of IRT.CLAIMt (R587). -/
  | claimRead (r : Requester) (t : Fin 5)
  /-- CLAIM_COMPLETE: a write of a source number to IRT.CLAIMt (R587). -/
  | claimComplete (r : Requester) (t : Fin 5) (v : BitVec 9)
  /-- IRQ_RAISE: the router settles the external interrupt of a target (R586). -/
  | irqRaise (t : Fin 5)
  /-- TIMER_INTERRUPT: MTIME reaches MTIMECMPk (R589). -/
  | timerInterrupt (k : Fin 5)
  /-- MSIP_WRITE (R589). -/
  | msipWrite (r : Requester) (k : Fin 5) (v : Bool)
  /-- FBOOT_RUN: a write of IRT.FBOOTk.RUN (R584). -/
  | fbootRun (r : Requester) (k : Fin 4) (v : Bool)
  /-- ACCESS_FAULT: a fetch (0), load (1) or store (2) of a core ends in a bus error at an address (R582). -/
  | accessFault (k : Fin 5) (kind : Fin 3) (a : BitVec 64)
  /-- VLOOP_ENABLE: HSK.VCTL.EN goes to 1; VOUT_MODE as read, or no acknowledgement (R591). -/
  | vloopEnable (mode : Option (BitVec 8))
  /-- VOLTAGE_UPDATE: some crossing buffer above three quarters, every one at or below half, since the last update; the regulator
  acknowledges or not, and VOUT_MODE as it would be read (R591, R592). -/
  | voltageUpdate (high half ack : Bool) (mode : BitVec 8)
  /-- IROOT_COMMIT: a write of 1 to TRU.IRCOMMIT.COMMIT (R594). -/
  | irootCommit (r : Requester)
  /-- ARB_ADVANCE_FW (R596). -/
  | arbAdvanceFw (r : Requester)
  /-- ARB_ADVANCE_UC (R596). -/
  | arbAdvanceUc (r : Requester)
  /-- GENKEY: a write of 1 to RANGEr.GENKEY (R606). -/
  | genkey (i : Fin 65)
  /-- RANGE_LOCK_WRITE: a write of RLCK and WLCK of a range (R603, R604). -/
  | rangeLockWrite (i : Fin 65) (rlck wlck : Bool)
  /-- RANGE_GEOMETRY_WRITE: a write of DEFINED, NS, START and LEN of a range (R601, R603). -/
  | rangeGeometryWrite (i : Fin 65) (defined : Bool) (ns : Fin 8) (start len : BitVec 64)
  /-- AUTHREQ: a write of GO with KIND; for a token, whether its signature over the nonce verifies under the integrator root (R607). -/
  | authreq (kind ok : Bool)
  /-- NONCE_READ: a read of TRU.NONCE0 (R607). -/
  | nonceRead
  /-- NONCE_EXPIRY (R607). -/
  | nonceExpiry
  /-- BOOT_ROM_STAGE: per image slot, the first of checks 2, 3 and 5 of R598 that its cryptography fails (0: none); per patch slot, the
  first failed check of Table 08.9 (0: none); whether the factory row's CRC passes (R598, R459). -/
  | bootRomStage (imageA imageB patchA patchB : Fin 8) (rowOk : Bool)
  /-- POWER_ON: every monitored rail has been in range for 2 ms (R610). -/
  | powerOn
  /-- RAIL_OUT_OF_RANGE: a monitored rail, by its channel of Table 17.4, leaves its range (R610). -/
  | railOutOfRange (ch : Fin 24)
  /-- SYS_RST_LOW (R611). -/
  | sysRstLow
  /-- SYS_RST_RELEASE (R611). -/
  | sysRstRelease
  /-- P1_SAMPLE: the straps (R612). -/
  | p1Sample (x4 dramsz isen : Bool) (gid : Fin 16) (size pos : Fin 4) (mouth : Bool)
  /-- P2_LOCK (R612). -/
  | p2Lock
  /-- VMOT_ARMED (R623). -/
  | vmotArmed
  /-- POWER_LOSS_DECLARE: the cause, 0 VMOT, 1 SYS_RST_N, 2 a monitored rail and its channel; the voltage in mV that VMOT has stayed at for 2 µs,
  and the actuators whose sector is cut inside its pad (R324, R623, R624). -/
  | powerLossDeclare (cause : Fin 3) (mv : BitVec 16) (ch : Fin 24) (pad : BitVec 4)
  /-- DIP_RESTART (R626). -/
  | dipRestart
  /-- PERST_RELEASE (R613). -/
  | perstRelease (p : Fin 2)
  /-- CFX_LINK_DOWN (R559). -/
  | cfxLinkDown (port : Fin 3)
  /-- SHOCK_INPUT_RELEASE: a shock input goes to a level (R240). -/
  | shockInputRelease (i : Fin 2) (level : Bool)
  /-- SETTLE_TIMEOUT (R111). -/
  | settleTimeout (n : Fin 4)
  /-- HOP_HOLD_RELEASE (R145). -/
  | hopHoldRelease (n : Fin 4)
  /-- CAL_CLAIM_END (R513). -/
  | calClaimEnd (n : Fin 4)
  /-- REGISTER_READ_CLEAR: a requester reads a register, and its RC fields clear (R8). -/
  | registerReadClear (r : Requester) (w : Fin 64) (off : Fin 65536) (size : Fin 9)
deriving DecidableEq, Repr

end Sys2Proof
end

