-- ==== Sys2Proof/Decode.lean ====
section
/-! DEFINITION. The command that a word of the table of operations spells. The table gives its rows no bits: a command reaches the block as a
register access, a packet, a pin or an event, and none of the 321 rows has an encoding of its own. -/

namespace Sys2Proof

/-- The command that the `nbits` bits `w` of a row spell: none, since no row has bits. -/
def decodeTableWord (_nbits _w : Nat) : Option Instr := none

end Sys2Proof
end

