-- ==== Sys2Proof/Config.lean ====
section
/-! DEFINITION. What the spec leaves open, as constants without a body: nothing in Lean can evaluate them, so every statement holds for
every value of them. -/

namespace Sys2Proof

/-- A free value, by the number of free values taken before it (`State.free`): what a command leaves undefined. -/
opaque Config.freeValue : Nat → Nat

/-- What the Q80 decoder makes of an error that touches three or more symbols, which is neither corrected nor detected with certainty
(R390): nothing where it reports the word as uncorrectable, else the error pattern that its correction leaves in the word. -/
opaque Config.q80Wide : Nat → Option Nat

/-- The media cipher on one data unit of 4,096 bytes, by key range, generation of the range's key and data-unit number (R424, R425): its
keys are never readable (R605), so what it makes of a unit is open, but for being undone by its inverse. -/
opaque Config.mediaCipher : Nat → Nat → Nat → Equiv.Perm (BitVec 32768)

/-- The bytes of the boot ROM (Table 20.2), which the spec does not list. -/
opaque Config.bootRom : Nat → BitVec 8

/-- The bytes of the factory calibration row (R459), written at the vendor's test. -/
opaque Config.factoryRow : Nat → BitVec 8

/-- The microwords of the control store's ROM, which the spec does not list (R268). -/
opaque Config.ucodeRom : Nat → BitVec 30

/-- The slots of class Q, 0, and class D, 1, that a member gives each peer over a link, beyond the first: their number is open (R574). -/
opaque Config.linkSlots : Nat → Nat

/-- The slots of a class that a relaying member keeps for one relayed pair, beyond the first: 0 for Q, 1 for D, 2 for C (R574). -/
opaque Config.relaySlots : Nat → Nat

/-- ID of the preamplifier that the integrator fits to an arm (R206). -/
opaque Config.preampId : Nat → BitVec 16

/-- CAPS of the preamplifier that the integrator fits to an arm (R206). -/
opaque Config.preampCaps : Nat → BitVec 16

/-- The circulant shift of a block row and block column of the LDPC code's parity-check matrix, none for a block of zeros: the vendor stores
them in the factory calibration row (R66). -/
opaque Config.ldpcShift : Nat → Nat → Option Nat

/-- The codes of one ADC, before they are held to 8 bits, from what the reader delivers over a stretch of bits, by BOOST and the gain code: how the
continuous-time equalizer and the gain stage answer is open (R137). -/
opaque Config.frontEnd : Nat → Nat → List Int → List Int

/-- The running mean of a reader's codes, one for each of them (R158), whose length the spec leaves open. -/
opaque Config.runningMean : List Int → List Int

/-- The log-likelihood ratios of the 16-state soft-output detector, one per bit, above 0 for a 0: from the target coefficients T1 to T4, the
equalized samples, and what the decoder knows of each bit so far (R155). -/
opaque Config.detect : List Int → List Int → List Int → List Int

/-- The amplitude in LSB at which a target coefficient of 1.0 stands for an equalized sample (R152, R157). -/
opaque Config.eqUnit : Int

end Sys2Proof
end

