-- ==== Sys2Proof/Machine/Bits.lean ====
section
/-! DEFINITION. The bit-field, sign, byte-order and sparse-table helpers of the model: everything here is a plain function over natural
numbers, integers and lists, so that a repair can mend it in one place. -/

namespace Sys2Proof.Machine

/-- Bits `lo` to `lo + w - 1` of `v` (R12). -/
def bits (v lo w : Nat) : Nat := v / 2 ^ lo % 2 ^ w

/-- Bit `i` of `v`. -/
def bit (v i : Nat) : Bool := v / 2 ^ i % 2 == 1

/-- 1 for true, 0 for false. -/
def b2n (b : Bool) : Nat := if b then 1 else 0

/-- `v` with bit `i` set to 1. -/
def setBit (v i : Nat) : Nat := if bit v i then v else v + 2 ^ i

/-- `v` with bit `i` set to 0. -/
def clrBit (v i : Nat) : Nat := if bit v i then v ^^^ 2 ^ i else v

/-- `v` with bit `i` set to `b`. -/
def putBit (v i : Nat) (b : Bool) : Nat := if b then setBit v i else clrBit v i

/-- The signed value of a `w`-bit field, two's complement. -/
def sgn (w v : Nat) : Int := if 2 ^ (w - 1) ≤ v % 2 ^ w then (v % 2 ^ w : Int) - 2 ^ w else (v % 2 ^ w : Int)

/-- The `w`-bit field that holds an integer, two's complement. -/
def unsgn (w : Nat) (i : Int) : Nat := (i % 2 ^ w).toNat

/-- `v + n`, stopping at `top` (the saturating counters of the register maps). -/
def satAdd (top v n : Nat) : Nat := min top (v + n)

/-- An integer held between two bounds. -/
def clampInt (lo hi i : Int) : Int := max lo (min hi i)

/-- Integer division rounding to nearest, halves away from zero. -/
def roundDiv (a : Int) (b : Nat) : Int :=
  if 0 ≤ a then (2 * a + b) / (2 * b : Int) else -((2 * (-a) + b) / (2 * b : Int))

/-- The `n` little-endian bytes of a value, lowest first (R12). -/
def leBytes : Nat → Nat → List Nat
  | 0, _ => []
  | n + 1, v => v % 256 :: leBytes n (v / 256)

/-- The value of little-endian bytes. -/
def leValue : List Nat → Nat
  | [] => 0
  | b :: bs => b % 256 + 256 * leValue bs

/-- The entry at key `k` of a table sorted by key, `d` where none is listed. -/
def tget {α : Type} (d : α) : List (Nat × α) → Nat → α
  | [], _ => d
  | (j, a) :: t, k => if j = k then a else tget d t k

/-- A table without an entry at key `k`. -/
def terase {α : Type} (t : List (Nat × α)) (k : Nat) : List (Nat × α) := t.filter fun p => p.1 != k

/-- A table with `a` at key `k`, kept sorted. -/
def tinsert {α : Type} : List (Nat × α) → Nat → α → List (Nat × α)
  | [], k, a => [(k, a)]
  | (j, b) :: t, k, a => if j = k then (k, a) :: t else if k < j then (k, a) :: (j, b) :: t else (j, b) :: tinsert t k a

/-- A table with the value at key `k` made `a`, in canonical form: an entry equal to the default `d` is not listed. -/
def tset {α : Type} [DecidableEq α] (d : α) (t : List (Nat × α)) (k : Nat) (a : α) : List (Nat × α) :=
  if a = d then terase t k else tinsert t k a

/-- Whether every key of a table is above `k`. -/
def tabove {α : Type} (k : Nat) : List (Nat × α) → Bool
  | [] => true
  | (j, _) :: _ => k < j

/-- The canonical form of a table: keys strictly rising and no entry equal to the default. -/
def twf {α : Type} [DecidableEq α] (d : α) : List (Nat × α) → Bool
  | [] => true
  | (j, a) :: t => a ≠ d && tabove j t && twf d t

end Sys2Proof.Machine
end

