-- ==== Sys2Proof/Machine/Fields.lean ====
section
/-! DEFINITION. The field descriptors of the register maps: one definition per field of every register table of the spec
(name, window, offset, bit range and reset value, R6, R7, R28, R581 Table 20.3). A field of a unit that exists once per actuator
takes the actuator first, and an indexed register its indices next. -/

namespace Sys2Proof.Machine

/-- A field of a register: its key in the register file (window, offset and lowest bit), its width in bits and its value after reset. -/
structure Fld where
  key : Nat
  width : Nat
  reset : Nat
deriving DecidableEq, Repr

/-- The field at bit `lo` of the register at an offset of a window (Table 20.3). -/
def fld (window offset lo width reset : Nat) : Fld := ⟨window * 16777216 + offset * 256 + lo, width, reset⟩

/-- RCH.CTL.EN [0] RW: 1: slots execute. 0: every slot stops at the point Table 03.8 gives, with its state kept (03_reach_instruction_set.md R100 Table 03.12). -/
def Fd.RCH_CTL_EN (u : Nat) : Fld := fld (16 + u) 0x0000 0 1 0x0
/-- RCH.CTL.SSTEP [1] RW: 1: the running slot stops after each instruction, and at each data-sector commit inside a media instruction (03_reach_instruction_set.md R100 Table 03.12). -/
def Fd.RCH_CTL_SSTEP (u : Nat) : Fld := fld (16 + u) 0x0000 1 1 0x0
/-- RCH.STATUS.RUNSLOT [1:0] RO: Slot executing; valid while RUNNING is 1 (03_reach_instruction_set.md R100 Table 03.13). -/
def Fd.RCH_STATUS_RUNSLOT (u : Nat) : Fld := fld (16 + u) 0x0008 0 2 0x0
/-- RCH.STATUS.RUNNING [2] RO: 1: a slot is executing (03_reach_instruction_set.md R100 Table 03.13). -/
def Fd.RCH_STATUS_RUNNING (u : Nat) : Fld := fld (16 + u) 0x0008 2 1 0x0
/-- RCH.STATUS.OWNED [3] RO: 1: a motion or media instruction owns the actuator (03_reach_instruction_set.md R100 Table 03.13). -/
def Fd.RCH_STATUS_OWNED (u : Nat) : Fld := fld (16 + u) 0x0008 3 1 0x0
/-- RCH.STATUS.MCHK [15:8] RO: Machine checks since the last unit reset, saturating at 0xFF (03_reach_instruction_set.md R100 Table 03.13). -/
def Fd.RCH_STATUS_MCHK (u : Nat) : Fld := fld (16 + u) 0x0008 8 8 0x0
/-- RCH.SIGNALS.SIG [7:0] W1C: Bit s is set by a SIG to this engine with signal s, and cleared by JOIN or by firmware (03_reach_instruction_set.md R100 Table 03.14). -/
def Fd.RCH_SIGNALS_SIG (u : Nat) : Fld := fld (16 + u) 0x0010 0 8 0x0
/-- RCH.SIGNALS.SET [15:8] WO: Writing 1 to bit 8 + s sets SIG bit s (03_reach_instruction_set.md R100 Table 03.14). -/
def Fd.RCH_SIGNALS_SET (u : Nat) : Fld := fld (16 + u) 0x0010 8 8 0x0
/-- RCH.FWSIG.SIG [7:0] W1C: Bit s is set by a SIG of this engine to firmware with signal s (03_reach_instruction_set.md R100 Table 03.15). -/
def Fd.RCH_FWSIG_SIG (u : Nat) : Fld := fld (16 + u) 0x0018 0 8 0x0
/-- RCH.INT.HALT [3:0] W1C: Bit n set when slot Pn executes HALT (03_reach_instruction_set.md R100 Table 03.16). -/
def Fd.RCH_INT_HALT (u : Nat) : Fld := fld (16 + u) 0x0020 0 4 0x0
/-- RCH.INT.TRAP [7:4] W1C: Bit 4 + n set when slot Pn traps (03_reach_instruction_set.md R100 Table 03.16). -/
def Fd.RCH_INT_TRAP (u : Nat) : Fld := fld (16 + u) 0x0020 4 4 0x0
/-- RCH.INT.FAULT [11:8] W1C: Bit 8 + n set when slot Pn enters the faulted state (03_reach_instruction_set.md R100 Table 03.16). -/
def Fd.RCH_INT_FAULT (u : Nat) : Fld := fld (16 + u) 0x0020 8 4 0x0
/-- RCH.INT.MCHK [12] W1C: Set at each machine check of the engine (03_reach_instruction_set.md R100 Table 03.16). -/
def Fd.RCH_INT_MCHK (u : Nat) : Fld := fld (16 + u) 0x0020 12 1 0x0
/-- RCH.INT.SIGF [13] W1C: Set when any RCH.FWSIG bit is set (03_reach_instruction_set.md R100 Table 03.16). -/
def Fd.RCH_INT_SIGF (u : Nat) : Fld := fld (16 + u) 0x0020 13 1 0x0
/-- RCH.INT.APPREF [14] W1C: Set when RCH.SLOT_APPENDn of any slot is refused (03_reach_instruction_set.md R100 Table 03.16). -/
def Fd.RCH_INT_APPREF (u : Nat) : Fld := fld (16 + u) 0x0020 14 1 0x0
/-- RCH.INTEN.EN [14:0] RW: bit i enables bit i of the matching interrupt register (03_reach_instruction_set.md R100 Table 03.11). -/
def Fd.RCH_INTEN_EN (u : Nat) : Fld := fld (16 + u) 0x0028 0 15 0x0
/-- RCH.LIMIT.MOTION_MS [15:0] RW: Limit on each motion instruction and each implicit positioning, 1 to 65,535 ms; a write of 0 stores 0x32 (03_reach_instruction_set.md R100 Table 03.17). -/
def Fd.RCH_LIMIT_MOTION_MS (u : Nat) : Fld := fld (16 + u) 0x0030 0 16 0x32
/-- RCH.REGION.LOAD [7:0] WO: Writing 1 to bit h validates head Hh's region table per R63; the result appears within 100 µs (03_reach_instruction_set.md R100 Table 03.18). -/
def Fd.RCH_REGION_LOAD (u : Nat) : Fld := fld (16 + u) 0x0038 0 8 0x0
/-- RCH.REGION.VALID [15:8] RO: Bit 8 + h is 1 while head Hh's table is valid (03_reach_instruction_set.md R100 Table 03.18). -/
def Fd.RCH_REGION_VALID (u : Nat) : Fld := fld (16 + u) 0x0038 8 8 0x0
/-- RCH.REGION.FAIL [23:16] RO: Bit 16 + h is 1 when the last load of head Hh failed (03_reach_instruction_set.md R100 Table 03.18). -/
def Fd.RCH_REGION_FAIL (u : Nat) : Fld := fld (16 + u) 0x0038 16 8 0x0
/-- RCH.SLOT_CTL.START [0] WO: In state idle, halted or faulted: clears the slot state, the chain and the failure list, records the first commit point, and makes the slot ready at RCH.SLOT_ENTRYn. Ignored in every other state (03_reach_instruction_set.md R100 Table 03.19). -/
def Fd.RCH_SLOT_CTL_START (u : Nat) (n : Nat) : Fld := fld (16 + u) (0x0100 + 0x40 * n) 0 1 0x0
/-- RCH.SLOT_CTL.RESUME [1] WO: In state stopped, halted or trapped: the slot becomes ready at its PC. Ignored otherwise (03_reach_instruction_set.md R100 Table 03.19). -/
def Fd.RCH_SLOT_CTL_RESUME (u : Nat) (n : Nat) : Fld := fld (16 + u) (0x0100 + 0x40 * n) 1 1 0x0
/-- RCH.SLOT_CTL.STOP [2] WO: In state ready, running or yielding: the slot stops at the point Table 03.8 gives (03_reach_instruction_set.md R100 Table 03.19). -/
def Fd.RCH_SLOT_CTL_STOP (u : Nat) (n : Nat) : Fld := fld (16 + u) (0x0100 + 0x40 * n) 2 1 0x0
/-- RCH.SLOT_CTL.RESTART [3] WO: In any state but idle: an interrupt of the slot per R94; the slot restarts per R97 and is ready (03_reach_instruction_set.md R100 Table 03.19). -/
def Fd.RCH_SLOT_CTL_RESTART (u : Nat) (n : Nat) : Fld := fld (16 + u) (0x0100 + 0x40 * n) 3 1 0x0
/-- RCH.SLOT_CTL.KILL [4] WO: An interrupt of the slot per R94; the slot becomes idle and its records are discarded. Committed sectors stay committed (03_reach_instruction_set.md R100 Table 03.19). -/
def Fd.RCH_SLOT_CTL_KILL (u : Nat) (n : Nat) : Fld := fld (16 + u) (0x0100 + 0x40 * n) 4 1 0x0
/-- RCH.SLOT_STATE.STATE [2:0] RO: 0 idle, 1 ready, 2 running, 3 yielding, 4 stopped, 5 halted, 6 trapped, 7 faulted (03_reach_instruction_set.md R100 Table 03.20). -/
def Fd.RCH_SLOT_STATE_STATE (u : Nat) (n : Nat) : Fld := fld (16 + u) (0x0104 + 0x40 * n) 0 3 0x0
/-- RCH.SLOT_STATE.TRAPCODE [31:16] RO: Code of the last trap of the slot, Table 03.25 (03_reach_instruction_set.md R100 Table 03.20). -/
def Fd.RCH_SLOT_STATE_TRAPCODE (u : Nat) (n : Nat) : Fld := fld (16 + u) (0x0104 + 0x40 * n) 16 16 0x0
/-- RCH.SLOT_ENTRY.ENTRY [20:2] RW: Word address at which START begins; an entry below 0x01_4000 traps with 0xFF07 at the first fetch (03_reach_instruction_set.md R100 Table 03.21). -/
def Fd.RCH_SLOT_ENTRY_ENTRY (u : Nat) (n : Nat) : Fld := fld (16 + u) (0x0108 + 0x40 * n) 2 19 0x0
/-- RCH.SLOT_PC.PC [20:0] RO: The slot's PC (03_reach_instruction_set.md R100 Table 03.21). -/
def Fd.RCH_SLOT_PC_PC (u : Nat) (n : Nat) : Fld := fld (16 + u) (0x0110 + 0x40 * n) 0 21 0x0
/-- RCH.SLOT_ST.ST [63:0] RO: read-only copy of the slot ST register (03_reach_instruction_set.md R100 Table 03.11). -/
def Fd.RCH_SLOT_ST_ST (u : Nat) (n : Nat) : Fld := fld (16 + u) (0x0118 + 0x40 * n) 0 64 0x0
/-- RCH.SLOT_APPEND.ENTRY [63:0] WO: write-only chain entry (03_reach_instruction_set.md R100 Table 03.11). -/
def Fd.RCH_SLOT_APPEND_ENTRY (u : Nat) (n : Nat) : Fld := fld (16 + u) (0x0120 + 0x40 * n) 0 64 0x0
/-- RCH.SLOT_APPST.RESULT [1:0] RO: Last append: 0 none, 1 accepted, 2 refused because the chain was full, 3 refused as too late (03_reach_instruction_set.md R100 Table 03.22). -/
def Fd.RCH_SLOT_APPST_RESULT (u : Nat) (n : Nat) : Fld := fld (16 + u) (0x0128 + 0x40 * n) 0 2 0x0
/-- RCH.UCODE.LOCK [0] RO: 1: patch load closed, per R290 (08_microcode.md R292 Table 08.10). -/
def Fd.RCH_UCODE_LOCK (u : Nat) : Fld := fld (16 + u) 0x0040 0 1 0x0
/-- RCH.UCODE.ENTRIES [7:1] RO: Match entries loaded, 0 to 64 (08_microcode.md R292 Table 08.10). -/
def Fd.RCH_UCODE_ENTRIES (u : Nat) : Fld := fld (16 + u) 0x0040 1 7 0x0
/-- RCH.UCODE.WORDS [19:8] RO: Patch RAM words loaded, 0 to 2,048 (08_microcode.md R292 Table 08.10). -/
def Fd.RCH_UCODE_WORDS (u : Nat) : Fld := fld (16 + u) 0x0040 8 12 0x0
/-- RCH.UCODE.DEGR [20] RO: 1: degraded or failed, per R282 and R283 (08_microcode.md R292 Table 08.10). -/
def Fd.RCH_UCODE_DEGR (u : Nat) : Fld := fld (16 + u) 0x0040 20 1 0x0
/-- RCH.ULEVEL.LEVEL [31:0] RO: LEVEL of the loaded package; 0x0 for ROM alone (08_microcode.md R292 Table 08.10). -/
def Fd.RCH_ULEVEL_LEVEL (u : Nat) : Fld := fld (16 + u) 0x0044 0 32 0x0
/-- RCH.MCINFO.UADDR [12:0] RO: Microaddress of the last machine check (08_microcode.md R292 Table 08.10). -/
def Fd.RCH_MCINFO_UADDR (u : Nat) : Fld := fld (16 + u) 0x0048 0 13 0x0
/-- RCH.MCINFO.CAUSE [14:13] RO: 1 parity, 2 illegal microword, 3 element timeout; 0 none (08_microcode.md R292 Table 08.10). -/
def Fd.RCH_MCINFO_CAUSE (u : Nat) : Fld := fld (16 + u) 0x0048 13 2 0x0
/-- RCH.MCINFO.SLOT [16:15] RO: Slot running at the check (08_microcode.md R292 Table 08.10). -/
def Fd.RCH_MCINFO_SLOT (u : Nat) : Fld := fld (16 + u) 0x0048 15 2 0x0
/-- RCH.MCINFO.LO [17] RO: 1: bits [14:0] failed parity; 0 after a check of cause 2 or 3, per R280 (08_microcode.md R292 Table 08.10). -/
def Fd.RCH_MCINFO_LO (u : Nat) : Fld := fld (16 + u) 0x0048 17 1 0x0
/-- RCH.MCINFO.HI [18] RO: 1: bits [29:15] failed parity; 0 after a check of cause 2 or 3, per R280 (08_microcode.md R292 Table 08.10). -/
def Fd.RCH_MCINFO_HI (u : Nat) : Fld := fld (16 + u) 0x0048 18 1 0x0
/-- RCH.MCSTRIKE.UADDR [12:0] RO: Microaddress that made the engine degraded (08_microcode.md R292 Table 08.10). -/
def Fd.RCH_MCSTRIKE_UADDR (u : Nat) : Fld := fld (16 + u) 0x004C 0 13 0x0
/-- RCH.MCSTRIKE.VALID [13] RO: 1: UADDR holds such an address (08_microcode.md R292 Table 08.10). -/
def Fd.RCH_MCSTRIKE_VALID (u : Nat) : Fld := fld (16 + u) 0x004C 13 1 0x0
/-- RCH.MATCH.ENTRY [31:0] RO: Match entry e, 0 to 63, Table 08.7 (08_microcode.md R292 Table 08.10). -/
def Fd.RCH_MATCH_ENTRY (u : Nat) (e : Nat) : Fld := fld (16 + u) (0x0800 + 4 * e) 0 32 0x0
/-- RCH.ZCTL.EN [0] RW: 1: the unit accepts sectors and checks commands; 0: every zone command of the actuator waits (09_zones.md R329 Table 09.11). -/
def Fd.RCH_ZCTL_EN (u : Nat) : Fld := fld (16 + u) 0x8000 0 1 0x0
/-- RCH.ZCTL.LOAD [1] WO: Writing 1 validates the store per R297 (09_zones.md R329 Table 09.11). -/
def Fd.RCH_ZCTL_LOAD (u : Nat) : Fld := fld (16 + u) 0x8000 1 1 0x0
/-- RCH.ZCTL.RECOV [2] RW: 1: recovery in progress per R326 (09_zones.md R329 Table 09.11). -/
def Fd.RCH_ZCTL_RECOV (u : Nat) : Fld := fld (16 + u) 0x8000 2 1 0x0
/-- RCH.ZSTAT.OPEN [7:0] RO: Open zones of the controller, 0 to 128 (09_zones.md R329 Table 09.11). -/
def Fd.RCH_ZSTAT_OPEN (u : Nat) : Fld := fld (16 + u) 0x8008 0 8 0x0
/-- RCH.ZSTAT.ACTIVE [16:8] RO: Active zones of the controller, 0 to 256 (09_zones.md R329 Table 09.11). -/
def Fd.RCH_ZSTAT_ACTIVE (u : Nat) : Fld := fld (16 + u) 0x8008 8 9 0x0
/-- RCH.ZSTAT.RUNS [19:17] RO: Runs in progress on this actuator, 0 to 4 (09_zones.md R329 Table 09.11). -/
def Fd.RCH_ZSTAT_RUNS (u : Nat) : Fld := fld (16 + u) 0x8008 17 3 0x0
/-- RCH.ZSTAT.LOADED [20] RO: 1: the last LOAD passed (09_zones.md R329 Table 09.11). -/
def Fd.RCH_ZSTAT_LOADED (u : Nat) : Fld := fld (16 + u) 0x8008 20 1 0x0
/-- RCH.ZSTAT.LOADFAIL [21] RO: 1: the last LOAD failed (09_zones.md R329 Table 09.11). -/
def Fd.RCH_ZSTAT_LOADFAIL (u : Nat) : Fld := fld (16 + u) 0x8008 21 1 0x0
/-- RCH.ZBASE.BASE [39:25] RW: Bits [39:25] of the store's DRAM address (09_zones.md R329 Table 09.11). -/
def Fd.RCH_ZBASE_BASE (u : Nat) : Fld := fld (16 + u) 0x8010 25 15 0x0
/-- RCH.ZCOUNT.COUNT [19:0] RW: ZCOUNT, at most 0x7_FC00; a larger value stores 0x7_FC00 (09_zones.md R329 Table 09.11). -/
def Fd.RCH_ZCOUNT_COUNT (u : Nat) : Fld := fld (16 + u) 0x8018 0 20 0x0
/-- RCH.ZQRY.ZONE [19:0] RW: Writing a zone ID starts a query; ZQRES is valid within 1 µs. For a zone ID at or above RCH.ZCOUNT, VALID reads 1 and every other ZQRES field reads 0; STATE 0x0 then names no zone (09_zones.md R329 Table 09.11). -/
def Fd.RCH_ZQRY_ZONE (u : Nat) : Fld := fld (16 + u) 0x8020 0 20 0x0
/-- RCH.ZQRES.STATE [3:0] RO: Zone state at the ordering point (09_zones.md R329 Table 09.11). -/
def Fd.RCH_ZQRES_STATE (u : Nat) : Fld := fld (16 + u) 0x8028 0 4 0x0
/-- RCH.ZQRES.FLAGS [7:4] RO: FLAGS [3:0] of Table 09.1 (09_zones.md R329 Table 09.11). -/
def Fd.RCH_ZQRES_FLAGS (u : Nat) : Fld := fld (16 + u) 0x8028 4 4 0x0
/-- RCH.ZQRES.VALID [8] RO: 1: result ready; cleared by a write to ZQRY (09_zones.md R329 Table 09.11). -/
def Fd.RCH_ZQRES_VALID (u : Nat) : Fld := fld (16 + u) 0x8028 8 1 0x0
/-- RCH.ZQRES.OWNED [9] RO: 1: the zone belongs to this unit's actuator (09_zones.md R329 Table 09.11). -/
def Fd.RCH_ZQRES_OWNED (u : Nat) : Fld := fld (16 + u) 0x8028 9 1 0x0
/-- RCH.ZQRES.WP [32:16] RO: WP at the ordering point (09_zones.md R329 Table 09.11). -/
def Fd.RCH_ZQRES_WP (u : Nat) : Fld := fld (16 + u) 0x8028 16 17 0x0
/-- RCH.ZQRES.PP [49:33] RO: PP at the ordering point (09_zones.md R329 Table 09.11). -/
def Fd.RCH_ZQRES_PP (u : Nat) : Fld := fld (16 + u) 0x8028 33 17 0x0
/-- RCH.ZINT.VERIFY [0] W1C: Set per R313 (09_zones.md R329 Table 09.11). -/
def Fd.RCH_ZINT_VERIFY (u : Nat) : Fld := fld (16 + u) 0x8030 0 1 0x0
/-- RCH.ZINT.RDONLY [1] W1C: Set per R309 (09_zones.md R329 Table 09.11). -/
def Fd.RCH_ZINT_RDONLY (u : Nat) : Fld := fld (16 + u) 0x8030 1 1 0x0
/-- RCH.ZINT.JFULL [2] W1C: Set per R323 (09_zones.md R329 Table 09.11). -/
def Fd.RCH_ZINT_JFULL (u : Nat) : Fld := fld (16 + u) 0x8030 2 1 0x0
/-- RCH.ZINT.LOADFAIL [3] W1C: Set when LOAD fails (09_zones.md R329 Table 09.11). -/
def Fd.RCH_ZINT_LOADFAIL (u : Nat) : Fld := fld (16 + u) 0x8030 3 1 0x0
/-- RCH.ZFLAGOP.ZONE [19:0] RW: Zone the operation applies to (09_zones.md R329 Table 09.11). -/
def Fd.RCH_ZFLAGOP_ZONE (u : Nat) : Fld := fld (16 + u) 0x8038 0 20 0x0
/-- RCH.ZFLAGOP.CLRVFY [20] WO: Writing 1 clears VERIFY and issues a FLAG record (09_zones.md R329 Table 09.11). -/
def Fd.RCH_ZFLAGOP_CLRVFY (u : Nat) : Fld := fld (16 + u) 0x8038 20 1 0x0
/-- RCH.ZFLAGOP.SETRZR [21] WO: Writing 1 sets RZR and issues a FLAG record (09_zones.md R329 Table 09.11). -/
def Fd.RCH_ZFLAGOP_SETRZR (u : Nat) : Fld := fld (16 + u) 0x8038 21 1 0x0
/-- RCH.ZINTEN.EN [3:0] RW: bit i enables bit i of the matching interrupt register (09_zones.md R329). -/
def Fd.RCH_ZINTEN_EN (u : Nat) : Fld := fld (16 + u) 0x8034 0 4 0x0
/-- RCH.JCTL.EN [0] RW: 1: the journal writer runs; firmware sets it after step 2 of R326 (09_zones.md R329 Table 09.12). -/
def Fd.RCH_JCTL_EN (u : Nat) : Fld := fld (16 + u) 0x8040 0 1 0x0
/-- RCH.JSTAT.FREE [11:0] RO: Erased log sectors ahead of the head, 0 to 2,048 (09_zones.md R329 Table 09.12). -/
def Fd.RCH_JSTAT_FREE (u : Nat) : Fld := fld (16 + u) 0x8048 0 12 0x0
/-- RCH.JSTAT.BUSY [12] RO: 1: a record or fold is being programmed (09_zones.md R329 Table 09.12). -/
def Fd.RCH_JSTAT_BUSY (u : Nat) : Fld := fld (16 + u) 0x8048 12 1 0x0
/-- RCH.JSTAT.ERR [13] RSH: 1: code flash refused a journal program; sticky until unit reset (09_zones.md R329 Table 09.12). -/
def Fd.RCH_JSTAT_ERR (u : Nat) : Fld := fld (16 + u) 0x8048 13 1 0x0
/-- RCH.JSEQ.NEXT [63:0] RW: JSEQ of the next record; firmware writes the highest JSEQ found plus 1 before it sets EN; writes are ignored while EN is 1 (09_zones.md R329 Table 09.12). -/
def Fd.RCH_JSEQ_NEXT (u : Nat) : Fld := fld (16 + u) 0x8050 0 64 0x0
/-- RCH.CEXT.WORD [31:0] RW: word i of conventional extent e (09_zones.md R329 Table 09.4). -/
def Fd.RCH_CEXT_WORD (u : Nat) (e : Nat) (i : Nat) : Fld := fld (16 + u) (0x9000 + 0x10 * e + 4 * i) 0 32 0x0
/-- CHN.CTL.EN [0] RW: 1: the channel frames, samples and decodes. 0: it is idle and BLK is 0 (04_read_path.md R169 Table 04.7). -/
def Fd.CHN_CTL_EN (u : Nat) : Fld := fld (20 + u) 0x0000 0 1 0x0
/-- CHN.CTL.ADAPT [1] RW: 1: equalizer set 0 adapts per R157 (04_read_path.md R169 Table 04.7). -/
def Fd.CHN_CTL_ADAPT (u : Nat) : Fld := fld (20 + u) 0x0000 1 1 0x1
/-- CHN.CTL.TAEN [2] RW: 1: thermal-asperity detection per R158 (04_read_path.md R169 Table 04.7). -/
def Fd.CHN_CTL_TAEN (u : Nat) : Fld := fld (20 + u) 0x0000 2 1 0x1
/-- CHN.CTL.ALT [3] RW: 1: attempts 2 and 3 of Table 04.1 are made (04_read_path.md R169 Table 04.7). -/
def Fd.CHN_CTL_ALT (u : Nat) : Fld := fld (20 + u) 0x0000 3 1 0x1
/-- CHN.CTL.FLY [4] RW: 1: flywheel attempts are made (04_read_path.md R169 Table 04.7). -/
def Fd.CHN_CTL_FLY (u : Nat) : Fld := fld (20 + u) 0x0000 4 1 0x1
/-- CHN.CTL.STORE_EN [5] RW: 1: the sample store at CHN.STORE is in use (04_read_path.md R169 Table 04.7). -/
def Fd.CHN_CTL_STORE_EN (u : Nat) : Fld := fld (20 + u) 0x0000 5 1 0x0
/-- CHN.STATUS.BLK [0] RO: Bank clock locked on the selected head (04_read_path.md R169 Table 04.8). -/
def Fd.CHN_STATUS_BLK (u : Nat) : Fld := fld (20 + u) 0x0008 0 1 0x0
/-- CHN.STATUS.HEAD [3:1] RO: Selected head (04_read_path.md R169 Table 04.8). -/
def Fd.CHN_STATUS_HEAD (u : Nat) : Fld := fld (20 + u) 0x0008 1 3 0x0
/-- CHN.STATUS.ACQ [4] RO: 1: clock acquisition in progress (04_read_path.md R169 Table 04.8). -/
def Fd.CHN_STATUS_ACQ (u : Nat) : Fld := fld (20 + u) 0x0008 4 1 0x0
/-- CHN.STATUS.FAILED [5] RO: 1: channel failed per R141; cleared by unit reset (04_read_path.md R169 Table 04.8). -/
def Fd.CHN_STATUS_FAILED (u : Nat) : Fld := fld (20 + u) 0x0008 5 1 0x0
/-- CHN.STATUS.SPA [8] RO: 1: S8 of RA's ADC converts in place of slice SPA_FOR (04_read_path.md R169 Table 04.8). -/
def Fd.CHN_STATUS_SPA (u : Nat) : Fld := fld (20 + u) 0x0008 8 1 0x0
/-- CHN.STATUS.SPA_FOR [11:9] RO: Slice replaced in RA's ADC (04_read_path.md R169 Table 04.8). -/
def Fd.CHN_STATUS_SPA_FOR (u : Nat) : Fld := fld (20 + u) 0x0008 9 3 0x0
/-- CHN.STATUS.SPA_PERM [12] RO: 1: replacement for a fault; 0: stand-in for calibration (04_read_path.md R169 Table 04.8). -/
def Fd.CHN_STATUS_SPA_PERM (u : Nat) : Fld := fld (20 + u) 0x0008 12 1 0x0
/-- CHN.STATUS.SPB [13] RO: As SPA, for RB's ADC (04_read_path.md R169 Table 04.8). -/
def Fd.CHN_STATUS_SPB (u : Nat) : Fld := fld (20 + u) 0x0008 13 1 0x0
/-- CHN.STATUS.SPB_FOR [16:14] RO: Slice replaced in RB's ADC (04_read_path.md R169 Table 04.8). -/
def Fd.CHN_STATUS_SPB_FOR (u : Nat) : Fld := fld (20 + u) 0x0008 14 3 0x0
/-- CHN.STATUS.SPB_PERM [17] RO: As SPA_PERM, for RB's ADC (04_read_path.md R169 Table 04.8). -/
def Fd.CHN_STATUS_SPB_PERM (u : Nat) : Fld := fld (20 + u) 0x0008 17 1 0x0
/-- CHN.STATUS.STORED [31:24] RO: Sample-store entries pending, 0 to 64 (04_read_path.md R169 Table 04.8). -/
def Fd.CHN_STATUS_STORED (u : Nat) : Fld := fld (20 + u) 0x0008 24 8 0x0
/-- CHN.CLK.LOCK_CYC [7:0] RW: Lock count in units of 16 tone cycles, 1 to 255; a write of 0 stores 0x10 (04_read_path.md R169 Table 04.9). -/
def Fd.CHN_CLK_LOCK_CYC (u : Nat) : Fld := fld (20 + u) 0x0010 0 8 0x10
/-- CHN.CLK.LOSS_CYC [15:8] RW: Cycles beyond ±4 bits that clear BLK, 1 to 255; a write of 0 stores 0x10 (04_read_path.md R169 Table 04.9). -/
def Fd.CHN_CLK_LOSS_CYC (u : Nat) : Fld := fld (20 + u) 0x0010 8 8 0x10
/-- CHN.CLK.AMIN [23:16] RW: Minimum tone amplitude in 1/256 of nominal (04_read_path.md R169 Table 04.9). -/
def Fd.CHN_CLK_AMIN (u : Nat) : Fld := fld (20 + u) 0x0010 16 8 0x40
/-- CHN.CLK.HOLD_US [27:24] RW: Hop hold limit in µs, 1 to 15; a write of 0 stores 0x2 (04_read_path.md R169 Table 04.9). -/
def Fd.CHN_CLK_HOLD_US (u : Nat) : Fld := fld (20 + u) 0x0010 24 4 0x2
/-- CHN.RATE.MBPS [12:0] RO: Channel bit rate in Mb/s while BLK is 1, 7,200 = 0x1C20 at most; 0x0 while BLK is 0 (04_read_path.md R169 Table 04.9). -/
def Fd.CHN_RATE_MBPS (u : Nat) : Fld := fld (20 + u) 0x0018 0 13 0x0
/-- CHN.AFE.AGC [0] RW: 1: automatic gain per R138 (04_read_path.md R169 Table 04.9). -/
def Fd.CHN_AFE_AGC (u : Nat) : Fld := fld (20 + u) 0x0020 0 1 0x1
/-- CHN.AFE.AGC_TC [3:1] RW: Averaging length 2^(AGC_TC + 6) bits (04_read_path.md R169 Table 04.9). -/
def Fd.CHN_AFE_AGC_TC (u : Nat) : Fld := fld (20 + u) 0x0020 1 3 0x3
/-- CHN.AFE.VGA_MAN [15:8] RW: Gain code used while AGC is 0, 0.1 dB per step (04_read_path.md R169 Table 04.9). -/
def Fd.CHN_AFE_VGA_MAN (u : Nat) : Fld := fld (20 + u) 0x0020 8 8 0x80
/-- CHN.AFE.VGA_NOW [23:16] RO: Gain code in use on RA (04_read_path.md R169 Table 04.9). -/
def Fd.CHN_AFE_VGA_NOW (u : Nat) : Fld := fld (20 + u) 0x0020 16 8 0x0
/-- CHN.AFE.VGB_NOW [31:24] RO: Gain code in use on RB (04_read_path.md R169 Table 04.9). -/
def Fd.CHN_AFE_VGB_NOW (u : Nat) : Fld := fld (20 + u) 0x0020 24 8 0x0
/-- CHN.SLICE.FAULT_A [8:0] RSH: Bit k set when slice Sk of RA's ADC is found faulty, S8 included; sticky until unit reset of the channel (04_read_path.md R169 Table 04.10). -/
def Fd.CHN_SLICE_FAULT_A (u : Nat) : Fld := fld (20 + u) 0x0028 0 9 0x0
/-- CHN.SLICE.FAULT_B [17:9] RSH: As FAULT_A, for RB's ADC (04_read_path.md R169 Table 04.10). -/
def Fd.CHN_SLICE_FAULT_B (u : Nat) : Fld := fld (20 + u) 0x0028 9 9 0x0
/-- CHN.SLMON.OFS_LIM [7:0] RW: Mean-code limit of R140, in LSB (04_read_path.md R169 Table 04.10). -/
def Fd.CHN_SLMON_OFS_LIM (u : Nat) : Fld := fld (20 + u) 0x002C 0 8 0x08
/-- CHN.SLMON.GAIN_LIM [15:8] RW: RMS limit of R140, in 1/64 (04_read_path.md R169 Table 04.10). -/
def Fd.CHN_SLMON_GAIN_LIM (u : Nat) : Fld := fld (20 + u) 0x002C 8 8 0x08
/-- CHN.SYNC.THRESH [5:0] RW: Found-mark score, 24 to 48; a write outside is clamped to that range (04_read_path.md R169 Table 04.10). -/
def Fd.CHN_SYNC_THRESH (u : Nat) : Fld := fld (20 + u) 0x0030 0 6 0x28
/-- CHN.SYNC.THRESH2 [13:8] RW: Candidate score, 16 to THRESH; a write outside is clamped (04_read_path.md R169 Table 04.10). -/
def Fd.CHN_SYNC_THRESH2 (u : Nat) : Fld := fld (20 + u) 0x0030 8 6 0x22
/-- CHN.DEC.GLOBAL [2:0] RW: Detector passes per inline attempt, 1 to 4; other values store 0x4 (04_read_path.md R169 Table 04.10). -/
def Fd.CHN_DEC_GLOBAL (u : Nat) : Fld := fld (20 + u) 0x0038 0 3 0x4
/-- CHN.DEC.TOTAL [12:8] RW: Decoder iterations per inline attempt, GLOBAL to 20; other values store 0x14 (04_read_path.md R169 Table 04.10). -/
def Fd.CHN_DEC_TOTAL (u : Nat) : Fld := fld (20 + u) 0x0038 8 5 0x14
/-- CHN.DEC.SWTH [27:16] RW: VFY syndrome-weight threshold used when WTH is 0 (04_read_path.md R169 Table 04.10). -/
def Fd.CHN_DEC_SWTH (u : Nat) : Fld := fld (20 + u) 0x0038 16 12 0x180
/-- CHN.TA.LEVEL [7:0] RW: Detection level in LSB above the running mean (04_read_path.md R169 Table 04.10). -/
def Fd.CHN_TA_LEVEL (u : Nat) : Fld := fld (20 + u) 0x0040 0 8 0x30
/-- CHN.TA.RUN [11:8] RW: Consecutive samples above LEVEL, 1 to 15; a write of 0 stores 0x4 (04_read_path.md R169 Table 04.10). -/
def Fd.CHN_TA_RUN (u : Nat) : Fld := fld (20 + u) 0x0040 8 4 0x4
/-- CHN.TA.PRE [23:16] RW: Bits erased before the first sample above LEVEL (04_read_path.md R169 Table 04.10). -/
def Fd.CHN_TA_PRE (u : Nat) : Fld := fld (20 + u) 0x0040 16 8 0x20
/-- CHN.TA.POST_X16 [31:24] RW: Bits erased after the last sample above LEVEL / 2, in units of 16 (04_read_path.md R169 Table 04.10). -/
def Fd.CHN_TA_POST_X16 (u : Nat) : Fld := fld (20 + u) 0x0040 24 8 0x10
/-- CHN.EQBOUND.TAPDEV [11:0] RW: Adaptation bound per tap, in tap LSB (04_read_path.md R169 Table 04.10). -/
def Fd.CHN_EQBOUND_TAPDEV (u : Nat) : Fld := fld (20 + u) 0x0048 0 12 0x100
/-- CHN.EQBOUND.MU [15:12] RW: Adaptation step 2^−(MU + 8) (04_read_path.md R169 Table 04.10). -/
def Fd.CHN_EQBOUND_MU (u : Nat) : Fld := fld (20 + u) 0x0048 12 4 0x6
/-- CHN.INT.BLKLOSS [0] W1C: Set per R144 (04_read_path.md R169 Table 04.12). -/
def Fd.CHN_INT_BLKLOSS (u : Nat) : Fld := fld (20 + u) 0x0050 0 1 0x0
/-- CHN.INT.SLICEF [1] W1C: Set per R140 (04_read_path.md R169 Table 04.12). -/
def Fd.CHN_INT_SLICEF (u : Nat) : Fld := fld (20 + u) 0x0050 1 1 0x0
/-- CHN.INT.CHFAIL [2] W1C: Set per R141 (04_read_path.md R169 Table 04.12). -/
def Fd.CHN_INT_CHFAIL (u : Nat) : Fld := fld (20 + u) 0x0050 2 1 0x0
/-- CHN.INT.PINNED [3] W1C: Set per R157 (04_read_path.md R169 Table 04.12). -/
def Fd.CHN_INT_PINNED (u : Nat) : Fld := fld (20 + u) 0x0050 3 1 0x0
/-- CHN.INT.CNTSAT [4] W1C: Set per R168 (04_read_path.md R169 Table 04.12). -/
def Fd.CHN_INT_CNTSAT (u : Nat) : Fld := fld (20 + u) 0x0050 4 1 0x0
/-- CHN.INT.STOREFULL [5] W1C: Set per R161 (04_read_path.md R169 Table 04.12). -/
def Fd.CHN_INT_STOREFULL (u : Nat) : Fld := fld (20 + u) 0x0050 5 1 0x0
/-- CHN.STORE.BASE [39:24] RW: Bits [39:24] of the store's DRAM address (04_read_path.md R169 Table 04.12). -/
def Fd.CHN_STORE_BASE (u : Nat) : Fld := fld (20 + u) 0x0060 24 16 0x0
/-- CHN.WGT.RA_W [7:0] RW: RA weight, 0x80 = 1.0 (04_read_path.md R169 Table 04.12). -/
def Fd.CHN_WGT_RA_W (u : Nat) (w : Nat) : Fld := fld (20 + u) (0x0080 + 4 * w) 0 8 (if w = 2 then 0 else 0x80)
/-- CHN.WGT.RB_W [15:8] RW: RB weight, 0x80 = 1.0 (04_read_path.md R169 Table 04.12). -/
def Fd.CHN_WGT_RB_W (u : Nat) (w : Nat) : Fld := fld (20 + u) (0x0080 + 4 * w) 8 8 (if w = 1 then 0 else if w = 3 then 0x40 else 0x80)
/-- CHN.HCFG.RBDLY [11:0] RW: RB trailing distance in bit times, per R136 (04_read_path.md R169 Table 04.12). -/
def Fd.CHN_HCFG_RBDLY (u : Nat) (h : Nat) : Fld := fld (20 + u) (0x0100 + 0x20 * h) 0 12 0x0
/-- CHN.HCFG.BOOST [20:16] RW: Continuous-time equalizer boost, 0.5 dB per step (04_read_path.md R169 Table 04.12). -/
def Fd.CHN_HCFG_BOOST (u : Nat) (h : Nat) : Fld := fld (20 + u) (0x0100 + 0x20 * h) 16 5 0x0C
/-- CHN.HCFG.PIN [24] W1C: Set when set 0 of head Hh is pinned at a bound (04_read_path.md R169 Table 04.12). -/
def Fd.CHN_HCFG_PIN (u : Nat) (h : Nat) : Fld := fld (20 + u) (0x0100 + 0x20 * h) 24 1 0x0
/-- CHN.HCNT0.SYNC_MISS [15:0] RC: Table 04.5 (04_read_path.md R169 Table 04.12). -/
def Fd.CHN_HCNT0_SYNC_MISS (u : Nat) (h : Nat) : Fld := fld (20 + u) (0x0108 + 0x20 * h) 0 16 0x0
/-- CHN.HCNT0.FLY_OK [31:16] RC: Table 04.5 (04_read_path.md R169 Table 04.12). -/
def Fd.CHN_HCNT0_FLY_OK (u : Nat) (h : Nat) : Fld := fld (20 + u) (0x0108 + 0x20 * h) 16 16 0x0
/-- CHN.HCNT1.ALT_OK [15:0] RC: Table 04.5 (04_read_path.md R169 Table 04.12). -/
def Fd.CHN_HCNT1_ALT_OK (u : Nat) (h : Nat) : Fld := fld (20 + u) (0x010C + 0x20 * h) 0 16 0x0
/-- CHN.HCNT1.TA [31:16] RC: Table 04.5 (04_read_path.md R169 Table 04.12). -/
def Fd.CHN_HCNT1_TA (u : Nat) (h : Nat) : Fld := fld (20 + u) (0x010C + 0x20 * h) 16 16 0x0
/-- CHN.HCNT2.INLINE_FAIL [15:0] RC: Table 04.5 (04_read_path.md R169 Table 04.12). -/
def Fd.CHN_HCNT2_INLINE_FAIL (u : Nat) (h : Nat) : Fld := fld (20 + u) (0x0110 + 0x20 * h) 0 16 0x0
/-- CHN.HCNT2.UNSAMPLED [31:16] RC: Table 04.5 (04_read_path.md R169 Table 04.12). -/
def Fd.CHN_HCNT2_UNSAMPLED (u : Nat) (h : Nat) : Fld := fld (20 + u) (0x0110 + 0x20 * h) 16 16 0x0
/-- CHN.HCNT3.BLK_LOSS [15:0] RC: Table 04.5 (04_read_path.md R169 Table 04.12). -/
def Fd.CHN_HCNT3_BLK_LOSS (u : Nat) (h : Nat) : Fld := fld (20 + u) (0x0114 + 0x20 * h) 0 16 0x0
/-- CHN.HCNT3.DEEP_OK [31:16] RC: Table 04.5 (04_read_path.md R169 Table 04.12). -/
def Fd.CHN_HCNT3_DEEP_OK (u : Nat) (h : Nat) : Fld := fld (20 + u) (0x0114 + 0x20 * h) 16 16 0x0
/-- CHN.INTEN.EN [5:0] RW: bit i enables bit i of the matching interrupt register (04_read_path.md R169 Table 04.6). -/
def Fd.CHN_INTEN_EN (u : Nat) : Fld := fld (20 + u) 0x0058 0 6 0x0
/-- CHN.EQ.WORD [31:0] RW: word i of equalizer set e of head h, s = 8h + e (04_read_path.md R169 Table 04.11). -/
def Fd.CHN_EQ_WORD (u : Nat) (s : Nat) (i : Nat) : Fld := fld (20 + u) (0x1000 + 0x80 * s + 4 * i) 0 32 0x0
/-- DEEP.DCTL.EN [0] RW: 1: requests are served. 0: requests wait in the queue (04_read_path.md R169 Table 04.13). -/
def Fd.DEEP_DCTL_EN : Fld := fld 24 0x0000 0 1 0x1
/-- DEEP.DCTL.GLOBAL [7:4] RW: Detector passes per request, 1 to 8; other values store 0x8 (04_read_path.md R169 Table 04.13). -/
def Fd.DEEP_DCTL_GLOBAL : Fld := fld 24 0x0000 4 4 0x8
/-- DEEP.DCTL.ITER [13:8] RW: Decoder iterations per request, GLOBAL to 60; other values store 0x3C (04_read_path.md R169 Table 04.13). -/
def Fd.DEEP_DCTL_ITER : Fld := fld 24 0x0000 8 6 0x3C
/-- DEEP.DSTATUS.WAIT0 [3:0] RO: Requests waiting from A0 to A3, 0 to 8 each (04_read_path.md R169 Table 04.13). -/
def Fd.DEEP_DSTATUS_WAIT0 : Fld := fld 24 0x0008 0 4 0x0
/-- DEEP.DSTATUS.WAIT1 [7:4] RO: Requests waiting from A0 to A3, 0 to 8 each (04_read_path.md R169 Table 04.13). -/
def Fd.DEEP_DSTATUS_WAIT1 : Fld := fld 24 0x0008 4 4 0x0
/-- DEEP.DSTATUS.WAIT2 [11:8] RO: Requests waiting from A0 to A3, 0 to 8 each (04_read_path.md R169 Table 04.13). -/
def Fd.DEEP_DSTATUS_WAIT2 : Fld := fld 24 0x0008 8 4 0x0
/-- DEEP.DSTATUS.WAIT3 [15:12] RO: Requests waiting from A0 to A3, 0 to 8 each (04_read_path.md R169 Table 04.13). -/
def Fd.DEEP_DSTATUS_WAIT3 : Fld := fld 24 0x0008 12 4 0x0
/-- DEEP.DSTATUS.DEPTH [20:16] RO: Requests in the queue, 0 to 16 (04_read_path.md R169 Table 04.13). -/
def Fd.DEEP_DSTATUS_DEPTH : Fld := fld 24 0x0008 16 5 0x0
/-- DEEP.DSTATUS.BUSY [24] RO: 1: a request is being decoded (04_read_path.md R169 Table 04.13). -/
def Fd.DEEP_DSTATUS_BUSY : Fld := fld 24 0x0008 24 1 0x0
/-- DEEP.DDONE.COUNT [31:0] RO: Requests finished since unit reset; wraps at 0xFFFF_FFFF (04_read_path.md R169 Table 04.13). -/
def Fd.DEEP_DDONE_COUNT : Fld := fld 24 0x0010 0 32 0x0
/-- CHN.WCTL.ALOOP_EN [0] RW: 1: assist loop per R182 (05_write_assist_arm_link.md R207 Table 05.10). -/
def Fd.CHN_WCTL_ALOOP_EN (u : Nat) : Fld := fld (20 + u) 0x0200 0 1 0x1
/-- CHN.WCTL.XTC_EN [1] RW: 1: write crosstalk canceller per R188 (05_write_assist_arm_link.md R207 Table 05.10). -/
def Fd.CHN_WCTL_XTC_EN (u : Nat) : Fld := fld (20 + u) 0x0200 1 1 0x1
/-- CHN.WSTAT.ARMED [0] RO: 1: preamplifier armed (05_write_assist_arm_link.md R207 Table 05.10). -/
def Fd.CHN_WSTAT_ARMED (u : Nat) : Fld := fld (20 + u) 0x0204 0 1 0x0
/-- CHN.WSTAT.WRITING [1] RO: 1: pair active (05_write_assist_arm_link.md R207 Table 05.10). -/
def Fd.CHN_WSTAT_WRITING (u : Nat) : Fld := fld (20 + u) 0x0204 1 1 0x0
/-- CHN.WSTAT.CAUSE [11:8] RO: Last stop cause, Table 05.5 (05_write_assist_arm_link.md R207 Table 05.10). -/
def Fd.CHN_WSTAT_CAUSE (u : Nat) : Fld := fld (20 + u) 0x0204 8 4 0x0
/-- CHN.WINH.OT_LIM [7:0] RW: Off-track limit in p / 1,024, 1 to 0x7B, per R193 (05_write_assist_arm_link.md R207 Table 05.10). -/
def Fd.CHN_WINH_OT_LIM (u : Nat) : Fld := fld (20 + u) 0x0208 0 8 0x7B
/-- CHN.RBCHK.SWMAX [11:0] RW: Read-behind syndrome-weight limit (05_write_assist_arm_link.md R207 Table 05.10). -/
def Fd.CHN_RBCHK_SWMAX (u : Nat) : Fld := fld (20 + u) 0x020C 0 12 0x100
/-- CHN.RBCHK.MARKTOL [15:12] RW: Mark tolerance in bits, 0 to 2; larger values store 0x2 (05_write_assist_arm_link.md R207 Table 05.10). -/
def Fd.CHN_RBCHK_MARKTOL (u : Nat) : Fld := fld (20 + u) 0x020C 12 4 0x1
/-- CHN.RBCHK.TAMAX [23:16] RW: Longest RB asperity span, in units of 16 bits (05_write_assist_arm_link.md R207 Table 05.10). -/
def Fd.CHN_RBCHK_TAMAX (u : Nat) : Fld := fld (20 + u) 0x020C 16 8 0x10
/-- CHN.ALOOP.LEVEL [15:0] RO: Write level in force (05_write_assist_arm_link.md R207 Table 05.10). -/
def Fd.CHN_ALOOP_LEVEL (u : Nat) : Fld := fld (20 + u) 0x0210 0 16 0x0
/-- CHN.ALOOP.PIN_HI [16] W1C: Set per R183 at WR_MAX (05_write_assist_arm_link.md R207 Table 05.10). -/
def Fd.CHN_ALOOP_PIN_HI (u : Nat) : Fld := fld (20 + u) 0x0210 16 1 0x0
/-- CHN.ALOOP.PIN_LO [17] W1C: Set per R183 at WR_MIN (05_write_assist_arm_link.md R207 Table 05.10). -/
def Fd.CHN_ALOOP_PIN_LO (u : Nat) : Fld := fld (20 + u) 0x0210 17 1 0x0
/-- CHN.ABND.WR_MIN [15:0] RO: Latched per R181 (05_write_assist_arm_link.md R207 Table 05.10). -/
def Fd.CHN_ABND_WR_MIN (u : Nat) : Fld := fld (20 + u) 0x0214 0 16 0x0
/-- CHN.ABND.WR_MAX [31:16] RO: Latched per R181 (05_write_assist_arm_link.md R207 Table 05.10). -/
def Fd.CHN_ABND_WR_MAX (u : Nat) : Fld := fld (20 + u) 0x0214 16 16 0x0
/-- CHN.ATGT.SW_TGT [11:0] RO: Latched per R181 (05_write_assist_arm_link.md R207 Table 05.10). -/
def Fd.CHN_ATGT_SW_TGT (u : Nat) : Fld := fld (20 + u) 0x0218 0 12 0x0
/-- CHN.ATGT.STEP [23:16] RO: Latched per R181 (05_write_assist_arm_link.md R207 Table 05.10). -/
def Fd.CHN_ATGT_STEP (u : Nat) : Fld := fld (20 + u) 0x0218 16 8 0x0
/-- CHN.TDCTL.EN [0] RW: 1: touchdown detection per R187; cleared at detection (05_write_assist_arm_link.md R207 Table 05.10). -/
def Fd.CHN_TDCTL_EN (u : Nat) : Fld := fld (20 + u) 0x021C 0 1 0x0
/-- CHN.TDCTL.TDK [7:4] RW: Variance ratio 1 + TDK / 4 (05_write_assist_arm_link.md R207 Table 05.10). -/
def Fd.CHN_TDCTL_TDK (u : Nat) : Fld := fld (20 + u) 0x021C 4 4 0x4
/-- CHN.TDCTL.PESLIM [15:8] RW: PES RMS limit in p / 1,024 (05_write_assist_arm_link.md R207 Table 05.10). -/
def Fd.CHN_TDCTL_PESLIM (u : Nat) : Fld := fld (20 + u) 0x021C 8 8 0x20
/-- CHN.TDSTAT.LVL [15:0] RO: Heater read level at detection (05_write_assist_arm_link.md R207 Table 05.10). -/
def Fd.CHN_TDSTAT_LVL (u : Nat) : Fld := fld (20 + u) 0x0220 0 16 0x0
/-- CHN.TDSTAT.DET [16] RO: 1: touchdown detected; cleared when EN is written 1 (05_write_assist_arm_link.md R207 Table 05.10). -/
def Fd.CHN_TDSTAT_DET (u : Nat) : Fld := fld (20 + u) 0x0220 16 1 0x0
/-- CHN.TDSTAT.SRC [17] RO: 0 contact sensor, 1 PES (05_write_assist_arm_link.md R207 Table 05.10). -/
def Fd.CHN_TDSTAT_SRC (u : Nat) : Fld := fld (20 + u) 0x0220 17 1 0x0
/-- CHN.WINT.RBFAIL [0] W1C: Set per R190 on a failure (05_write_assist_arm_link.md R207 Table 05.10). -/
def Fd.CHN_WINT_RBFAIL (u : Nat) : Fld := fld (20 + u) 0x0224 0 1 0x0
/-- CHN.WINT.STOP [1] W1C: Set at every other cause of Table 05.5 (05_write_assist_arm_link.md R207 Table 05.10). -/
def Fd.CHN_WINT_STOP (u : Nat) : Fld := fld (20 + u) 0x0224 1 1 0x0
/-- CHN.WINT.APIN [2] W1C: Set per R183 (05_write_assist_arm_link.md R207 Table 05.10). -/
def Fd.CHN_WINT_APIN (u : Nat) : Fld := fld (20 + u) 0x0224 2 1 0x0
/-- CHN.WINT.TOUCH [3] W1C: Set per R187 (05_write_assist_arm_link.md R207 Table 05.10). -/
def Fd.CHN_WINT_TOUCH (u : Nat) : Fld := fld (20 + u) 0x0224 3 1 0x0
/-- CHN.WINTEN.EN [3:0] RW: bit i enables bit i of the matching interrupt register (05_write_assist_arm_link.md R207). -/
def Fd.CHN_WINTEN_EN (u : Nat) : Fld := fld (20 + u) 0x0228 0 4 0x0
/-- CHN.WCFG.WOFS [17:0] RW: Signed write offset in 1/64 bit, per R171 (05_write_assist_arm_link.md R207 Table 05.11). -/
def Fd.CHN_WCFG_WOFS (u : Nat) (h : Nat) : Fld := fld (20 + u) (0x0400 + 0x20 * h) 0 18 0x0
/-- CHN.WCFG.RBSET [20:18] RW: Equalizer set for read-behind, per R188 (05_write_assist_arm_link.md R207 Table 05.11). -/
def Fd.CHN_WCFG_RBSET (u : Nat) (h : Nat) : Fld := fld (20 + u) (0x0400 + 0x20 * h) 18 3 0x7
/-- CHN.WCFG.AKIND [22:21] RW: 0 none, 1 laser, 2 oscillator, 3 reserved; WRS ends with code 0x08 while 0 (05_write_assist_arm_link.md R207 Table 05.11). -/
def Fd.CHN_WCFG_AKIND (u : Nat) (h : Nat) : Fld := fld (20 + u) (0x0400 + 0x20 * h) 21 2 0x0
/-- CHN.WPC.PC_A [4:0] RW: Table 05.1; other bits reserved (05_write_assist_arm_link.md R207 Table 05.11). -/
def Fd.CHN_WPC_PC_A (u : Nat) (h : Nat) : Fld := fld (20 + u) (0x0404 + 0x20 * h) 0 5 0x0
/-- CHN.WPC.PC_B [12:8] RW: Table 05.1; other bits reserved (05_write_assist_arm_link.md R207 Table 05.11). -/
def Fd.CHN_WPC_PC_B (u : Nat) (h : Nat) : Fld := fld (20 + u) (0x0404 + 0x20 * h) 8 5 0x0
/-- CHN.WPC.PC_C [20:16] RW: Table 05.1; other bits reserved (05_write_assist_arm_link.md R207 Table 05.11). -/
def Fd.CHN_WPC_PC_C (u : Nat) (h : Nat) : Fld := fld (20 + u) (0x0404 + 0x20 * h) 16 5 0x0
/-- CHN.XT.WORD [31:0] RW: Signed canceller taps 4i to 4i + 3, per R188 (05_write_assist_arm_link.md R207 Table 05.11). -/
def Fd.CHN_XT_WORD (u : Nat) (h : Nat) (i : Nat) : Fld := fld (20 + u) (0x0408 + 0x20 * h + 4 * i) 0 32 0x0
/-- CHN.HWCNT0.RBFAIL [15:0] RC: Read-behind failures; other stops; saturating at 0xFFFF (05_write_assist_arm_link.md R207 Table 05.11). -/
def Fd.CHN_HWCNT0_RBFAIL (u : Nat) (h : Nat) : Fld := fld (20 + u) (0x0500 + 8 * h) 0 16 0x0
/-- CHN.HWCNT0.STOPS [31:16] RC: Read-behind failures; other stops; saturating at 0xFFFF (05_write_assist_arm_link.md R207 Table 05.11). -/
def Fd.CHN_HWCNT0_STOPS (u : Nat) (h : Nat) : Fld := fld (20 + u) (0x0500 + 8 * h) 16 16 0x0
/-- CHN.HWCNT1.ATTN [15:0] RC: Preamplifier attentions; pinned events; saturating at 0xFFFF (05_write_assist_arm_link.md R207 Table 05.11). -/
def Fd.CHN_HWCNT1_ATTN (u : Nat) (h : Nat) : Fld := fld (20 + u) (0x0504 + 8 * h) 0 16 0x0
/-- CHN.HWCNT1.PINS [31:16] RC: Preamplifier attentions; pinned events; saturating at 0xFFFF (05_write_assist_arm_link.md R207 Table 05.11). -/
def Fd.CHN_HWCNT1_PINS (u : Nat) (h : Nat) : Fld := fld (20 + u) (0x0504 + 8 * h) 16 16 0x0
/-- ARM.CTL.EN [0] RW: 1: clock runs and frames are sent (05_write_assist_arm_link.md R208 Table 05.12). -/
def Fd.ARM_CTL_EN (u : Nat) : Fld := fld (25 + u) 0x0000 0 1 0x0
/-- ARM.CTL.LRST [1] WO: Writing 1 resets the link per R204 (05_write_assist_arm_link.md R208 Table 05.12). -/
def Fd.ARM_CTL_LRST (u : Nat) : Fld := fld (25 + u) 0x0000 1 1 0x0
/-- ARM.CTL.DISKEW [4:2] RW: DI sample delay in ns (05_write_assist_arm_link.md R208 Table 05.12). -/
def Fd.ARM_CTL_DISKEW (u : Nat) : Fld := fld (25 + u) 0x0000 2 3 0x2
/-- ARM.STATUS.BUSY [0] RO: 1: firmware request in progress (05_write_assist_arm_link.md R208 Table 05.12). -/
def Fd.ARM_STATUS_BUSY (u : Nat) : Fld := fld (25 + u) 0x0008 0 1 0x0
/-- ARM.STATUS.RESULT [2:1] RO: Last firmware request: 0 done, 1 ADRE, 2 failed after repeat, 3 refused (05_write_assist_arm_link.md R208 Table 05.12). -/
def Fd.ARM_STATUS_RESULT (u : Nat) : Fld := fld (25 + u) 0x0008 1 2 0x0
/-- ARM.STATUS.ATTN [3] RO: 1: DI held low for attention now (05_write_assist_arm_link.md R208 Table 05.12). -/
def Fd.ARM_STATUS_ATTN (u : Nat) : Fld := fld (25 + u) 0x0008 3 1 0x0
/-- ARM.STATUS.WARM [4] RO: Last WARM value acknowledged (05_write_assist_arm_link.md R208 Table 05.12). -/
def Fd.ARM_STATUS_WARM (u : Nat) : Fld := fld (25 + u) 0x0008 4 1 0x0
/-- ARM.STATUS.LASTSTAT [15:8] RO: Status byte of the last valid response (05_write_assist_arm_link.md R208 Table 05.12). -/
def Fd.ARM_STATUS_LASTSTAT (u : Nat) : Fld := fld (25 + u) 0x0008 8 8 0x0
/-- ARM.REQ.ADDR [8:0] RW: First preamplifier register (05_write_assist_arm_link.md R208 Table 05.12). -/
def Fd.ARM_REQ_ADDR (u : Nat) : Fld := fld (25 + u) 0x0010 0 9 0x0
/-- ARM.REQ.LEN [11:10] RW: Words − 1 (05_write_assist_arm_link.md R208 Table 05.12). -/
def Fd.ARM_REQ_LEN (u : Nat) : Fld := fld (25 + u) 0x0010 10 2 0x0
/-- ARM.REQ.RD [12] RW: 1 read, 0 write (05_write_assist_arm_link.md R208 Table 05.12). -/
def Fd.ARM_REQ_RD (u : Nat) : Fld := fld (25 + u) 0x0010 12 1 0x0
/-- ARM.REQ.GO [13] WO: Writing 1 starts the request; ignored while BUSY (05_write_assist_arm_link.md R208 Table 05.12). -/
def Fd.ARM_REQ_GO (u : Nat) : Fld := fld (25 + u) 0x0010 13 1 0x0
/-- ARM.DATA.DATA [15:0] RW: Word i of the burst, i = 0 to 3; read data lands here (05_write_assist_arm_link.md R208 Table 05.12). -/
def Fd.ARM_DATA_DATA (u : Nat) (i : Nat) : Fld := fld (25 + u) (0x0018 + 4 * i) 0 16 0x0
/-- ARM.INT.DONE [0] W1C: Firmware request ended (05_write_assist_arm_link.md R208 Table 05.12). -/
def Fd.ARM_INT_DONE (u : Nat) : Fld := fld (25 + u) 0x0030 0 1 0x0
/-- ARM.INT.LINKERR [1] W1C: Set per R203, after a failed repeat and on ADRE (05_write_assist_arm_link.md R208 Table 05.12). -/
def Fd.ARM_INT_LINKERR (u : Nat) : Fld := fld (25 + u) 0x0030 1 1 0x0
/-- ARM.INT.ATTN [2] W1C: Set per R205 (05_write_assist_arm_link.md R208 Table 05.12). -/
def Fd.ARM_INT_ATTN (u : Nat) : Fld := fld (25 + u) 0x0030 2 1 0x0
/-- ARM.INT.TDE [3] W1C: A response carried TDE (05_write_assist_arm_link.md R208 Table 05.12). -/
def Fd.ARM_INT_TDE (u : Nat) : Fld := fld (25 + u) 0x0030 3 1 0x0
/-- ARM.ERRCNT.RETRY [15:0] RC: Repeated transactions, saturating at 0xFFFF (05_write_assist_arm_link.md R208 Table 05.12). -/
def Fd.ARM_ERRCNT_RETRY (u : Nat) : Fld := fld (25 + u) 0x0038 0 16 0x0
/-- ARM.ERRCNT.TDERR [31:16] RC: Responses carrying TDE, saturating at 0xFFFF (05_write_assist_arm_link.md R208 Table 05.12). -/
def Fd.ARM_ERRCNT_TDERR (u : Nat) : Fld := fld (25 + u) 0x0038 16 16 0x0
/-- ARM.FAULT.FAULT [15:0] RO: Preamplifier FAULT as last read under R205 (05_write_assist_arm_link.md R208 Table 05.12). -/
def Fd.ARM_FAULT_FAULT (u : Nat) : Fld := fld (25 + u) 0x0040 0 16 0x0
/-- ARM.INTEN.EN [3:0] RW: bit i enables bit i of the matching interrupt register (05_write_assist_arm_link.md R208). -/
def Fd.ARM_INTEN_EN (u : Nat) : Fld := fld (25 + u) 0x0034 0 4 0x0
/-- SRV.CTL.FITTED [0] RW: 1: actuator present, per R209 (06_servo_actuators.md R246 Table 06.11). -/
def Fd.SRV_CTL_FITTED (u : Nat) : Fld := fld (29 + u) 0x0000 0 1 0x0
/-- SRV.CTL.LOAD [1] WO: Writing 1 loads per R241 (06_servo_actuators.md R246 Table 06.11). -/
def Fd.SRV_CTL_LOAD (u : Nat) : Fld := fld (29 + u) 0x0000 1 1 0x0
/-- SRV.CTL.UNLOAD [2] WO: Writing 1 unloads per R242 (06_servo_actuators.md R246 Table 06.11). -/
def Fd.SRV_CTL_UNLOAD (u : Nat) : Fld := fld (29 + u) 0x0000 2 1 0x0
/-- SRV.CTL.ERET [3] WO: Writing 1 retracts per R245 (06_servo_actuators.md R246 Table 06.11). -/
def Fd.SRV_CTL_ERET (u : Nat) : Fld := fld (29 + u) 0x0000 3 1 0x0
/-- SRV.CTL.CSWAP [4] WO: Writing 1 swaps compensator banks per R221 (06_servo_actuators.md R246 Table 06.11). -/
def Fd.SRV_CTL_CSWAP (u : Nat) : Fld := fld (29 + u) 0x0000 4 1 0x0
/-- SRV.STATUS.MODE [2:0] RO: 0 parked, 1 loading, 2 tracking, 3 in-lock move, 4 crossing seek, 5 unloading, 6 retracting, 7 reserved (06_servo_actuators.md R246 Table 06.11). -/
def Fd.SRV_STATUS_MODE (u : Nat) : Fld := fld (29 + u) 0x0008 0 3 0x0
/-- SRV.STATUS.ONT [3] RO: ONT per R231 (06_servo_actuators.md R246 Table 06.11). -/
def Fd.SRV_STATUS_ONT (u : Nat) : Fld := fld (29 + u) 0x0008 3 1 0x0
/-- SRV.STATUS.SET [5:4] RO: Active criterion set (06_servo_actuators.md R246 Table 06.11). -/
def Fd.SRV_STATUS_SET (u : Nat) : Fld := fld (29 + u) 0x0008 4 2 0x0
/-- SRV.STATUS.CBANK [6] RO: Active compensator bank (06_servo_actuators.md R246 Table 06.11). -/
def Fd.SRV_STATUS_CBANK (u : Nat) : Fld := fld (29 + u) 0x0008 6 1 0x0
/-- SRV.STATUS.FFBANK [7] RO: Active feedforward bank (06_servo_actuators.md R246 Table 06.11). -/
def Fd.SRV_STATUS_FFBANK (u : Nat) : Fld := fld (29 + u) 0x0008 7 1 0x0
/-- SRV.STATUS.COVERED [8] RO: 1: commands come from the standby (06_servo_actuators.md R246 Table 06.11). -/
def Fd.SRV_STATUS_COVERED (u : Nat) : Fld := fld (29 + u) 0x0008 8 1 0x0
/-- SRV.STATUS.DEGR [9] RO: 1: degraded per R237; cleared by unit reset (06_servo_actuators.md R246 Table 06.11). -/
def Fd.SRV_STATUS_DEGR (u : Nat) : Fld := fld (29 + u) 0x0008 9 1 0x0
/-- SRV.STATUS.SHKINH [10] RO: 1: shock inhibit or hold in force (06_servo_actuators.md R246 Table 06.11). -/
def Fd.SRV_STATUS_SHKINH (u : Nat) : Fld := fld (29 + u) 0x0008 10 1 0x0
/-- SRV.STATUS.HOP [11] RO: 1: hop in progress (06_servo_actuators.md R246 Table 06.11). -/
def Fd.SRV_STATUS_HOP (u : Nat) : Fld := fld (29 + u) 0x0008 11 1 0x0
/-- SRV.STATUS.TPIN [23:16] RO: Bit 16 + h: head Hh's tether gain pinned, per R218 (06_servo_actuators.md R246 Table 06.11). -/
def Fd.SRV_STATUS_TPIN (u : Nat) : Fld := fld (29 + u) 0x0008 16 8 0x0
/-- SRV.PES.POS [9:0] RO: Latest sample, signed, p / 1,024 (06_servo_actuators.md R246 Table 06.12). -/
def Fd.SRV_PES_POS (u : Nat) : Fld := fld (29 + u) 0x0010 0 10 0x0
/-- SRV.PES.AMP [23:16] RO: Carrier amplitude in 1/128 of nominal, saturating at 0xFF (06_servo_actuators.md R246 Table 06.12). -/
def Fd.SRV_PES_AMP (u : Nat) : Fld := fld (29 + u) 0x0010 16 8 0x0
/-- SRV.PES.VALID [24] RO: Sample valid per R211 (06_servo_actuators.md R246 Table 06.12). -/
def Fd.SRV_PES_VALID (u : Nat) : Fld := fld (29 + u) 0x0010 24 1 0x0
/-- SRV.PES.HOP [25] RO: Sample taken during a hop hold (06_servo_actuators.md R246 Table 06.12). -/
def Fd.SRV_PES_HOP (u : Nat) : Fld := fld (29 + u) 0x0010 25 1 0x0
/-- SRV.POS.BANK [19:0] RO: Current bank (06_servo_actuators.md R246 Table 06.12). -/
def Fd.SRV_POS_BANK (u : Nat) : Fld := fld (29 + u) 0x0018 0 20 0x0
/-- SRV.POS.DIST [47:24] RO: X_d − X(BANK), signed grid units (06_servo_actuators.md R246 Table 06.12). -/
def Fd.SRV_POS_DIST (u : Nat) : Fld := fld (29 + u) 0x0018 24 24 0x0
/-- SRV.INT.TPIN [0] W1C: Set per R218 (06_servo_actuators.md R246 Table 06.13). -/
def Fd.SRV_INT_TPIN (u : Nat) : Fld := fld (29 + u) 0x0020 0 1 0x0
/-- SRV.INT.SEEKCORR [1] W1C: Set per R227 (06_servo_actuators.md R246 Table 06.13). -/
def Fd.SRV_INT_SEEKCORR (u : Nat) : Fld := fld (29 + u) 0x0020 1 1 0x0
/-- SRV.INT.SEEKFAIL [2] W1C: Set per R227 (06_servo_actuators.md R246 Table 06.13). -/
def Fd.SRV_INT_SEEKFAIL (u : Nat) : Fld := fld (29 + u) 0x0020 2 1 0x0
/-- SRV.INT.HOPFAIL [3] W1C: Set per R224 (06_servo_actuators.md R246 Table 06.13). -/
def Fd.SRV_INT_HOPFAIL (u : Nat) : Fld := fld (29 + u) 0x0020 3 1 0x0
/-- SRV.INT.TAKEOVER [4] W1C: Set per R236 (06_servo_actuators.md R246 Table 06.13). -/
def Fd.SRV_INT_TAKEOVER (u : Nat) : Fld := fld (29 + u) 0x0020 4 1 0x0
/-- SRV.INT.STBYFAIL [5] W1C: Set per R239 (06_servo_actuators.md R246 Table 06.13). -/
def Fd.SRV_INT_STBYFAIL (u : Nat) : Fld := fld (29 + u) 0x0020 5 1 0x0
/-- SRV.INT.SHOCK [6] W1C: Set per R240 (06_servo_actuators.md R246 Table 06.13). -/
def Fd.SRV_INT_SHOCK (u : Nat) : Fld := fld (29 + u) 0x0020 6 1 0x0
/-- SRV.INT.BANKERR [7] W1C: Set per R221 and R233 (06_servo_actuators.md R246 Table 06.13). -/
def Fd.SRV_INT_BANKERR (u : Nat) : Fld := fld (29 + u) 0x0020 7 1 0x0
/-- SRV.INT.LOADED [8] W1C: Set per R241 (06_servo_actuators.md R246 Table 06.13). -/
def Fd.SRV_INT_LOADED (u : Nat) : Fld := fld (29 + u) 0x0020 8 1 0x0
/-- SRV.INT.LOADERR [9] W1C: Set per R241 (06_servo_actuators.md R246 Table 06.13). -/
def Fd.SRV_INT_LOADERR (u : Nat) : Fld := fld (29 + u) 0x0020 9 1 0x0
/-- SRV.INT.PARKED [10] W1C: Set per R242 and R245 (06_servo_actuators.md R246 Table 06.13). -/
def Fd.SRV_INT_PARKED (u : Nat) : Fld := fld (29 + u) 0x0020 10 1 0x0
/-- SRV.INT.DEGR [11] W1C: Set per R237 (06_servo_actuators.md R246 Table 06.13). -/
def Fd.SRV_INT_DEGR (u : Nat) : Fld := fld (29 + u) 0x0020 11 1 0x0
/-- SRV.TETH.HYS [2:0] RW: Hop hysteresis in pitches, 0 to 4; larger values store 0x4 (06_servo_actuators.md R246 Table 06.13). -/
def Fd.SRV_TETH_HYS (u : Nat) : Fld := fld (29 + u) 0x0030 0 3 0x1
/-- SRV.TETH.GTC [7:4] RW: Gain tracking 2^−GTC; 0 disables tracking (06_servo_actuators.md R246 Table 06.13). -/
def Fd.SRV_TETH_GTC (u : Nat) : Fld := fld (29 + u) 0x0030 4 4 0x4
/-- SRV.TETH.GDEV [15:8] RW: Gain bound in 1/1,024 of G_fw (06_servo_actuators.md R246 Table 06.13). -/
def Fd.SRV_TETH_GDEV (u : Nat) : Fld := fld (29 + u) 0x0030 8 8 0x40
/-- SRV.TETH.PAMIN [23:16] RW: Carrier validity limit in 1/128 of nominal (06_servo_actuators.md R246 Table 06.13). -/
def Fd.SRV_TETH_PAMIN (u : Nat) : Fld := fld (29 + u) 0x0030 16 8 0x40
/-- SRV.SEEK.VMAX [15:0] RW: Speed limit in 1/16 p/µs; a write of 0 stores 0x01C0 (06_servo_actuators.md R246 Table 06.13). -/
def Fd.SRV_SEEK_VMAX (u : Nat) : Fld := fld (29 + u) 0x0038 0 16 0x01C0
/-- SRV.SEEK.ACC [27:16] RW: Acceleration in 2^−12 p/µs²; a write of 0 stores 0x070 (06_servo_actuators.md R246 Table 06.13). -/
def Fd.SRV_SEEK_ACC (u : Nat) : Fld := fld (29 + u) 0x0038 16 12 0x070
/-- SRV.SEEK.CORR [31:28] RW: Largest correctable bank error, per R227 (06_servo_actuators.md R246 Table 06.13). -/
def Fd.SRV_SEEK_CORR (u : Nat) : Fld := fld (29 + u) 0x0038 28 4 0x4
/-- SRV.SETTLE.WIN [7:0] RW: Settle window, grid units (06_servo_actuators.md R246 Table 06.13). -/
def Fd.SRV_SETTLE_WIN (u : Nat) (s : Nat) : Fld := fld (29 + u) (0x0040 + 4 * s) 0 8 (if s = 1 then 0x33 else if s = 3 then 0x1A else 0x50)
/-- SRV.SETTLE.OUT [15:8] RW: Exit limit; a value below WIN stores WIN (06_servo_actuators.md R246 Table 06.13). -/
def Fd.SRV_SETTLE_OUT (u : Nat) (s : Nat) : Fld := fld (29 + u) (0x0040 + 4 * s) 8 8 (if s = 1 then 0x66 else if s = 3 then 0x33 else 0x80)
/-- SRV.SETTLE.CNT [23:16] RW: Periods, 1 to 255; a write of 0 stores 0x1 (06_servo_actuators.md R246 Table 06.13). -/
def Fd.SRV_SETTLE_CNT (u : Nat) (s : Nat) : Fld := fld (29 + u) (0x0040 + 4 * s) 16 8 (if s = 1 then 0x10 else if s = 3 then 0x20 else 0x08)
/-- SRV.LIM.IMAX [15:0] RW: VCM full scale in mA; LOAD sets LOADERR while 0 (06_servo_actuators.md R246 Table 06.13). -/
def Fd.SRV_LIM_IMAX (u : Nat) : Fld := fld (29 + u) 0x0050 0 16 0x0
/-- SRV.LIM.PZMAX [23:16] RW: Piezo full scale in 0.25 V (06_servo_actuators.md R246 Table 06.13). -/
def Fd.SRV_LIM_PZMAX (u : Nat) : Fld := fld (29 + u) 0x0050 16 8 0x0
/-- SRV.INTEN.EN [11:0] RW: bit i enables bit i of the matching interrupt register (06_servo_actuators.md R246). -/
def Fd.SRV_INTEN_EN (u : Nat) : Fld := fld (29 + u) 0x0028 0 12 0x0
/-- SRV.SHK.MASK [1:0] RW: Bit k: SHKk applies to this actuator (06_servo_actuators.md R246 Table 06.14). -/
def Fd.SRV_SHK_MASK (u : Nat) : Fld := fld (29 + u) 0x0058 0 2 0x3
/-- SRV.SHK.POL [3:2] RW: Bit 2 + k: 0 SHKk active high, 1 active low (06_servo_actuators.md R246 Table 06.14). -/
def Fd.SRV_SHK_POL (u : Nat) : Fld := fld (29 + u) 0x0058 2 2 0x0
/-- SRV.SHK.FILT [7:4] RW: Filter length FILT + 1 samples of 20 ns (06_servo_actuators.md R246 Table 06.14). -/
def Fd.SRV_SHK_FILT (u : Nat) : Fld := fld (29 + u) 0x0058 4 4 0x4
/-- SRV.SHK.HOLD_US [19:8] RW: Hold after the last input in µs (06_servo_actuators.md R246 Table 06.14). -/
def Fd.SRV_SHK_HOLD_US (u : Nat) : Fld := fld (29 + u) 0x0058 8 12 0x064
/-- SRV.FFCTL.EN [0] RW: 1: feedforward into this actuator (06_servo_actuators.md R246 Table 06.14). -/
def Fd.SRV_FFCTL_EN (u : Nat) : Fld := fld (29 + u) 0x0060 0 1 0x0
/-- SRV.FFCTL.SWAP [1] WO: Writing 1 swaps feedforward banks per R233 (06_servo_actuators.md R246 Table 06.14). -/
def Fd.SRV_FFCTL_SWAP (u : Nat) : Fld := fld (29 + u) 0x0060 1 1 0x0
/-- SRV.STBY.EN [0] RW: 1: standby shadows and may take over (06_servo_actuators.md R246 Table 06.14). -/
def Fd.SRV_STBY_EN (u : Nat) : Fld := fld (29 + u) 0x0068 0 1 0x1
/-- SRV.STBY.RST [1] WO: Writing 1 reloads the standby per R239 (06_servo_actuators.md R246 Table 06.14). -/
def Fd.SRV_STBY_RST (u : Nat) : Fld := fld (29 + u) 0x0068 1 1 0x0
/-- SRV.STBY.COVER [3:2] RO: 0 none, 1 upper actuator covered, 2 lower; 3 reserved (06_servo_actuators.md R246 Table 06.14). -/
def Fd.SRV_STBY_COVER (u : Nat) : Fld := fld (29 + u) 0x0068 2 2 0x0
/-- SRV.STBY.FAILED [4] RO: 1: standby failed, per R239 (06_servo_actuators.md R246 Table 06.14). -/
def Fd.SRV_STBY_FAILED (u : Nat) : Fld := fld (29 + u) 0x0068 4 1 0x0
/-- SRV.STBY.DIVLIM [15:8] RW: Divergence limit in 16 effort units (06_servo_actuators.md R246 Table 06.14). -/
def Fd.SRV_STBY_DIVLIM (u : Nat) : Fld := fld (29 + u) 0x0068 8 8 0x10
/-- SRV.RET.VTH [7:0] RW: Power-loss threshold in 0.05 V (9.0 V) (06_servo_actuators.md R246 Table 06.14). -/
def Fd.SRV_RET_VTH (u : Nat) : Fld := fld (29 + u) 0x0070 0 8 0xB4
/-- SRV.RET.RVEL [15:8] RW: Retract back-EMF in 4 mV (400 mV) (06_servo_actuators.md R246 Table 06.14). -/
def Fd.SRV_RET_RVEL (u : Nat) : Fld := fld (29 + u) 0x0070 8 8 0x64
/-- SRV.RET.LVEL [23:16] RW: Load back-EMF in 4 mV (200 mV) (06_servo_actuators.md R246 Table 06.14). -/
def Fd.SRV_RET_LVEL (u : Nat) : Fld := fld (29 + u) 0x0070 16 8 0x32
/-- SRV.RET.PARK [31:24] RW: Park current in 10 mA (200 mA) (06_servo_actuators.md R246 Table 06.14). -/
def Fd.SRV_RET_PARK (u : Nat) : Fld := fld (29 + u) 0x0070 24 8 0x14
/-- SRV.CNT0.SEEKS [15:0] RC: Seeks; crossing seeks (06_servo_actuators.md R246 Table 06.14). -/
def Fd.SRV_CNT0_SEEKS (u : Nat) : Fld := fld (29 + u) 0x0080 0 16 0x0
/-- SRV.CNT0.XSEEKS [31:16] RC: Seeks; crossing seeks (06_servo_actuators.md R246 Table 06.14). -/
def Fd.SRV_CNT0_XSEEKS (u : Nat) : Fld := fld (29 + u) 0x0080 16 16 0x0
/-- SRV.CNT1.HOPS [15:0] RC: Hops; failed hops (06_servo_actuators.md R246 Table 06.14). -/
def Fd.SRV_CNT1_HOPS (u : Nat) : Fld := fld (29 + u) 0x0084 0 16 0x0
/-- SRV.CNT1.HOPFAIL [31:16] RC: Hops; failed hops (06_servo_actuators.md R246 Table 06.14). -/
def Fd.SRV_CNT1_HOPFAIL (u : Nat) : Fld := fld (29 + u) 0x0084 16 16 0x0
/-- SRV.CNT2.CORR [15:0] RC: Corrected seeks; seeks ended with code 0x10 (06_servo_actuators.md R246 Table 06.14). -/
def Fd.SRV_CNT2_CORR (u : Nat) : Fld := fld (29 + u) 0x0088 0 16 0x0
/-- SRV.CNT2.SEEKERR [31:16] RC: Corrected seeks; seeks ended with code 0x10 (06_servo_actuators.md R246 Table 06.14). -/
def Fd.SRV_CNT2_SEEKERR (u : Nat) : Fld := fld (29 + u) 0x0088 16 16 0x0
/-- SRV.CNT3.SHOCKS [15:0] RC: Shock edges; takeovers (06_servo_actuators.md R246 Table 06.14). -/
def Fd.SRV_CNT3_SHOCKS (u : Nat) : Fld := fld (29 + u) 0x008C 0 16 0x0
/-- SRV.CNT3.TAKEOVERS [31:16] RC: Shock edges; takeovers (06_servo_actuators.md R246 Table 06.14). -/
def Fd.SRV_CNT3_TAKEOVERS (u : Nat) : Fld := fld (29 + u) 0x008C 16 16 0x0
/-- SRV.FF.WORD [31:0] RW: word m of feedforward bank b (06_servo_actuators.md R246 Table 06.16). -/
def Fd.SRV_FF_WORD (u : Nat) (b : Nat) (m : Nat) : Fld := fld (29 + u) (0x1000 + 0x100 * b + 4 * m) 0 32 0x0
/-- SRV.GEO_TOFS.WORD [31:0] RW: tether offset of zone z, head h, signed (06_servo_actuators.md R246 Table 06.15). -/
def Fd.SRV_GEO_TOFS_WORD (u : Nat) (h : Nat) (z : Nat) : Fld := fld (29 + u) (0x2000 + 0x200 * h + 0x10 * z) 0 32 0x0
/-- SRV.GEO_G.WORD [15:0] RW: tether gain of zone z, head h, signed (06_servo_actuators.md R246 Table 06.15). -/
def Fd.SRV_GEO_G_WORD (u : Nat) (h : Nat) (z : Nat) : Fld := fld (29 + u) (0x2004 + 0x200 * h + 0x10 * z) 0 16 0x0
/-- SRV.GEO_RWOFS.WORD [31:0] RW: writer offset of zone z, head h, signed (06_servo_actuators.md R246 Table 06.15). -/
def Fd.SRV_GEO_RWOFS_WORD (u : Nat) (h : Nat) (z : Nat) : Fld := fld (29 + u) (0x2008 + 0x200 * h + 0x10 * z) 0 32 0x0
/-- SRV.GEO_MODEL.WORD [31:0] RW: word m of tether model sections 0 and 1 (06_servo_actuators.md R246 Table 06.15). -/
def Fd.SRV_GEO_MODEL_WORD (u : Nat) (h : Nat) (m : Nat) : Fld := fld (29 + u) (0x2100 + 0x200 * h + 4 * m) 0 32 0x0
/-- SRV.GEO_SHG.WORD [15:0] RW: shingle shift, head h (06_servo_actuators.md R246 Table 06.15). -/
def Fd.SRV_GEO_SHG_WORD (u : Nat) (h : Nat) : Fld := fld (29 + u) (0x2128 + 0x200 * h) 0 16 0x0
/-- SRV.COMP.WORD [31:0] RW: word m of compensator bank b (06_servo_actuators.md R246 Table 06.16). -/
def Fd.SRV_COMP_WORD (u : Nat) (b : Nat) (m : Nat) : Fld := fld (29 + u) (0x4000 + 0x400 * b + 4 * m) 0 32 0x0
/-- INT.CTL.EN [0] RW: 1: the intake fetches; firmware sets it at the end of P4, with CSTS.RDY following (10_host_nvme.md R367 Table 10.11). -/
def Fd.INT_CTL_EN : Fld := fld 2 0x0000 0 1 0x0
/-- INT.CTL.X4 [1] RO: 1: one ×4 port; loaded from the strap at P1 (10_host_nvme.md R367 Table 10.11). -/
def Fd.INT_CTL_X4 : Fld := fld 2 0x0000 1 1 0x0
/-- INT.STATUS.CTXUSED [16:0] RO: Contexts not free, 0 to 65,536 (10_host_nvme.md R367 Table 10.11). -/
def Fd.INT_STATUS_CTXUSED : Fld := fld 2 0x0008 0 17 0x0
/-- INT.STATUS.PAUSED [17] RO: 1: activation under R359 in progress (10_host_nvme.md R367 Table 10.11). -/
def Fd.INT_STATUS_PAUSED : Fld := fld 2 0x0008 17 1 0x0
/-- INT.LIMIT.READ [7:0] RW: Read and Verify-free read limit in 100 ms, 1 to 255 (7.0 s); a write of 0 stores 0x46 (10_host_nvme.md R367 Table 10.11). -/
def Fd.INT_LIMIT_READ : Fld := fld 2 0x0010 0 8 0x46
/-- INT.LIMIT.WRITE [15:8] RW: Write limit in 100 ms (7.0 s); a write of 0 stores 0x46 (10_host_nvme.md R367 Table 10.11). -/
def Fd.INT_LIMIT_WRITE : Fld := fld 2 0x0010 8 8 0x46
/-- INT.LIMIT.VERIFY [23:16] RW: Verify limit in 100 ms (15.0 s); a write of 0 stores 0x96 (10_host_nvme.md R367 Table 10.11). -/
def Fd.INT_LIMIT_VERIFY : Fld := fld 2 0x0010 16 8 0x96
/-- INT.LIMIT.ZMGMT [31:24] RW: Zone Management Send limit in 100 ms (7.0 s); a write of 0 stores 0x46 (10_host_nvme.md R367 Table 10.11). -/
def Fd.INT_LIMIT_ZMGMT : Fld := fld 2 0x0010 24 8 0x46
/-- INT.SCHED.AGE_MS [15:0] RW: Ageing limit of R344 in ms; a write of 0 stores 0x01F4 (10_host_nvme.md R367 Table 10.11). -/
def Fd.INT_SCHED_AGE_MS : Fld := fld 2 0x0018 0 16 0x01F4
/-- INT.SCHED.RESERVE [23:16] RW: Contexts reserved per SQ, 4 to 64; other values store 0x10; takes effect at the next queue creation (10_host_nvme.md R367 Table 10.11). -/
def Fd.INT_SCHED_RESERVE : Fld := fld 2 0x0018 16 8 0x10
/-- INT.NSREADY.READY [4:0] RW: Bit j − 1: local namespace j released under R335 (10_host_nvme.md R367 Table 10.11). -/
def Fd.INT_NSREADY_READY : Fld := fld 2 0x0020 0 5 0x0
/-- INT.INT.CTXLOW [0] W1C: Set when pooled contexts fall below 1,024 (10_host_nvme.md R367 Table 10.11). -/
def Fd.INT_INT_CTXLOW : Fld := fld 2 0x0028 0 1 0x0
/-- INT.INT.LIMIT [1] W1C: Set when a command reaches its class limit (10_host_nvme.md R367 Table 10.11). -/
def Fd.INT_INT_LIMIT : Fld := fld 2 0x0028 1 1 0x0
/-- INT.INT.LINKDN0 [2] W1C: Set when port 0's link goes down (10_host_nvme.md R367 Table 10.11). -/
def Fd.INT_INT_LINKDN0 : Fld := fld 2 0x0028 2 1 0x0
/-- INT.INT.LINKDN1 [3] W1C: Set when port 1's link goes down (10_host_nvme.md R367 Table 10.11). -/
def Fd.INT_INT_LINKDN1 : Fld := fld 2 0x0028 3 1 0x0
/-- INT.INT.RELEASED [4] W1C: Set when contexts are released without completion (10_host_nvme.md R367 Table 10.11). -/
def Fd.INT_INT_RELEASED : Fld := fld 2 0x0028 4 1 0x0
/-- INT.NSCFG.VALID [0] RW: 1: the namespace exists (10_host_nvme.md R367 Table 10.11). -/
def Fd.INT_NSCFG_VALID (j : Nat) : Fld := fld 2 (0x0040 + 0x10 * j) 0 1 0x0
/-- INT.NSCFG.ZONED [1] RW: 1: zoned; must be 0 for j = 1 and 1 for j = 2 to 5, or VALID stores 0 (10_host_nvme.md R367 Table 10.11). -/
def Fd.INT_NSCFG_ZONED (j : Nat) : Fld := fld 2 (0x0040 + 0x10 * j) 1 1 0x0
/-- INT.NSCFG.LBAF [3:2] RW: LBA format in force, 0 to 2 (10_host_nvme.md R367 Table 10.11). -/
def Fd.INT_NSCFG_LBAF (j : Nat) : Fld := fld 2 (0x0040 + 0x10 * j) 2 2 0x0
/-- INT.NSCFG.PIT [5:4] RW: Protection type 0 to 3 (10_host_nvme.md R367 Table 10.11). -/
def Fd.INT_NSCFG_PIT (j : Nat) : Fld := fld 2 (0x0040 + 0x10 * j) 4 2 0x0
/-- INT.NSFIRST.FIRSTZONE [19:0] RW: First zone ID of a zoned namespace (10_host_nvme.md R367 Table 10.11). -/
def Fd.INT_NSFIRST_FIRSTZONE (j : Nat) : Fld := fld 2 (0x0044 + 0x10 * j) 0 20 0x0
/-- INT.NSZONES.ZONES [19:0] RW: Zones in the namespace; ignored for j = 1 (10_host_nvme.md R367 Table 10.11). -/
def Fd.INT_NSZONES_ZONES (j : Nat) : Fld := fld 2 (0x0048 + 0x10 * j) 0 20 0x0
/-- PORT.PCTL.EN [0] RW: 1: the port's link trains and its function is visible (10_host_nvme.md R367 Table 10.11). -/
def Fd.PORT_PCTL_EN (u : Nat) : Fld := fld (0 + u) 0x0000 0 1 0x0
/-- PORT.PCTL.HOLD_S [15:8] RW: Link-loss hold of R360 in s, 0 to 255; 0 applies R355 at once (10_host_nvme.md R367 Table 10.11). -/
def Fd.PORT_PCTL_HOLD_S (u : Nat) : Fld := fld (0 + u) 0x0000 8 8 0x05
/-- PORT.PCTL.SPEED [18:16] RO: 1 to 5 for 2.5 to 32.0 GT/s; 0 link down (10_host_nvme.md R367 Table 10.11). -/
def Fd.PORT_PCTL_SPEED (u : Nat) : Fld := fld (0 + u) 0x0000 16 3 0x0
/-- PORT.PCTL.WIDTH [21:19] RO: Lanes in use: 1, 2 or 4; 0 link down (10_host_nvme.md R367 Table 10.11). -/
def Fd.PORT_PCTL_WIDTH (u : Nat) : Fld := fld (0 + u) 0x0000 19 3 0x0
/-- PORT.PCTL.LINKUP [22] RO: 1: data link up (10_host_nvme.md R367 Table 10.11). -/
def Fd.PORT_PCTL_LINKUP (u : Nat) : Fld := fld (0 + u) 0x0000 22 1 0x0
/-- INT.INTEN.EN [4:0] RW: bit i enables bit i of the matching interrupt register (10_host_nvme.md R367). -/
def Fd.INT_INTEN_EN : Fld := fld 2 0x002C 0 5 0x0
/-- STG.CTL.EN [0] RW: 1: the Stage caches, per R387. 0: it disables, per R385 (11_stage_cache.md R388 Table 11.6). -/
def Fd.STG_CTL_EN : Fld := fld 6 0x0000 0 1 0x0
/-- STG.CTL.MODE [1] RW: 0 native, 1 KX2 placement; written only while STATE reads off, per R371 (11_stage_cache.md R388 Table 11.6). -/
def Fd.STG_CTL_MODE : Fld := fld 6 0x0000 1 1 0x0
/-- STG.CTL.STATE [3:2] RO: 0 off, 1 on, 2 disabling; 3 reserved (11_stage_cache.md R388 Table 11.6). -/
def Fd.STG_CTL_STATE : Fld := fld 6 0x0000 2 2 0x0
/-- STG.STREAM.EN [0] RW: 1: stream detector per R376 (11_stage_cache.md R388 Table 11.6). -/
def Fd.STG_STREAM_EN : Fld := fld 6 0x0008 0 1 0x1
/-- STG.STREAM.RUN [15:8] RW: Stores in a run before streaming, 2 to 255; a write below 2 stores 0x10 (11_stage_cache.md R388 Table 11.6). -/
def Fd.STG_STREAM_RUN : Fld := fld 6 0x0008 8 8 0x10
/-- STG.STREAM.NSEQ [19:16] RW: Consecutive non-sequential stores that end streaming, 1 to 15; a write of 0 stores 0x4 (11_stage_cache.md R388 Table 11.6). -/
def Fd.STG_STREAM_NSEQ : Fld := fld 6 0x0008 16 4 0x4
/-- STG.ALLOC0.ALLOC [31:0] RW: Bit i: requester i of Table 11.2 allocates on a miss; bits 14 and 15 are ignored (11_stage_cache.md R388 Table 11.6). -/
def Fd.STG_ALLOC0_ALLOC : Fld := fld 6 0x0010 0 32 0xFFFFFFFF
/-- STG.ALLOC1.ALLOC [15:0] RW: Bit i: requester 0x20 + i allocates on a miss (11_stage_cache.md R388 Table 11.6). -/
def Fd.STG_ALLOC1_ALLOC : Fld := fld 6 0x0014 0 16 0xFFFF
/-- STG.STRM0.FLAG [31:0] RO: Bit i: streaming flag of requester i (11_stage_cache.md R388 Table 11.6). -/
def Fd.STG_STRM0_FLAG : Fld := fld 6 0x0018 0 32 0x0
/-- STG.STRM1.FLAG [15:0] RO: Bit i: streaming flag of requester 0x20 + i (11_stage_cache.md R388 Table 11.6). -/
def Fd.STG_STRM1_FLAG : Fld := fld 6 0x001C 0 16 0x0
/-- STG.INT.DRAINED [0] W1C: Set when STATE goes from disabling to off (11_stage_cache.md R388 Table 11.6). -/
def Fd.STG_INT_DRAINED : Fld := fld 6 0x0020 0 1 0x0
/-- STG.INT.MODEREF [1] W1C: Set per R371 (11_stage_cache.md R388 Table 11.6). -/
def Fd.STG_INT_MODEREF : Fld := fld 6 0x0020 1 1 0x0
/-- STG.INT.UNCOR [2] W1C: Set per R382 (11_stage_cache.md R388 Table 11.6). -/
def Fd.STG_INT_UNCOR : Fld := fld 6 0x0020 2 1 0x0
/-- STG.DRAIN.LEFT [19:0] RO: Dirty units in the array, Eddy and the write-back buffer: 256 B sub-blocks in native mode, 128 B lines in KX2 mode (11_stage_cache.md R388 Table 11.6). -/
def Fd.STG_DRAIN_LEFT : Fld := fld 6 0x0028 0 20 0x0
/-- STG.WBSTAT.WB [5:0] RO: Lines in the write-back buffer, 0 to 32 (11_stage_cache.md R388 Table 11.6). -/
def Fd.STG_WBSTAT_WB : Fld := fld 6 0x002C 0 6 0x0
/-- STG.WBSTAT.EDDY [14:8] RO: Lines in Eddy, 0 to 64 (11_stage_cache.md R388 Table 11.6). -/
def Fd.STG_WBSTAT_EDDY : Fld := fld 6 0x002C 8 7 0x0
/-- STG.CNT0.HITS [31:0] RC: Requests served as hits, recalls included; saturating at 0xFFFF_FFFF (11_stage_cache.md R388 Table 11.6). -/
def Fd.STG_CNT0_HITS : Fld := fld 6 0x0030 0 32 0x0
/-- STG.CNT1.MISSES [31:0] RC: Requests that needed a DRAM fetch or went to DRAM; saturating at 0xFFFF_FFFF (11_stage_cache.md R388 Table 11.6). -/
def Fd.STG_CNT1_MISSES : Fld := fld 6 0x0034 0 32 0x0
/-- STG.CNT2.RECALLS [31:0] RC: Lines recalled from Eddy or the write-back buffer; saturating at 0xFFFF_FFFF (11_stage_cache.md R388 Table 11.6). -/
def Fd.STG_CNT2_RECALLS : Fld := fld 6 0x0038 0 32 0x0
/-- STG.CNT3.NOALLOC [31:0] RC: Missing stores not allocated because of a streaming flag; saturating at 0xFFFF_FFFF (11_stage_cache.md R388 Table 11.6). -/
def Fd.STG_CNT3_NOALLOC : Fld := fld 6 0x003C 0 32 0x0
/-- STG.INTEN.EN [2:0] RW: bit i enables bit i of the matching interrupt register (11_stage_cache.md R388). -/
def Fd.STG_INTEN_EN : Fld := fld 6 0x0024 0 3 0x0
/-- MEM.CTL.SCRUB_S [0] RW: 1: SRAM scrub per R401 (12_memory_protection.md R406 Table 12.4). -/
def Fd.MEM_CTL_SCRUB_S : Fld := fld 7 0x0000 0 1 0x1
/-- MEM.CTL.SCRUB_D [1] RW: 1: DRAM scrub per R401 (12_memory_protection.md R406 Table 12.4). -/
def Fd.MEM_CTL_SCRUB_D : Fld := fld 7 0x0000 1 1 0x1
/-- MEM.CTL.CORR_WB [2] RW: 1: corrected words written back per R395 (12_memory_protection.md R406 Table 12.4). -/
def Fd.MEM_CTL_CORR_WB : Fld := fld 7 0x0000 2 1 0x1
/-- MEM.STATUS.FILLED_S [0] RO: 1: SRAM fill complete (12_memory_protection.md R406 Table 12.4). -/
def Fd.MEM_STATUS_FILLED_S : Fld := fld 7 0x0008 0 1 0x0
/-- MEM.STATUS.FILLED_D [1] RO: 1: DRAM fill complete (12_memory_protection.md R406 Table 12.4). -/
def Fd.MEM_STATUS_FILLED_D : Fld := fld 7 0x0008 1 1 0x0
/-- MEM.STATUS.DFAIL [2] RO: 1: DRAM training failed, per R405 (12_memory_protection.md R406 Table 12.4). -/
def Fd.MEM_STATUS_DFAIL : Fld := fld 7 0x0008 2 1 0x0
/-- MEM.STATUS.DSIZE [3] RO: 0: 8 GiB, 1: 16 GiB; loaded from DRAMSZ at P1 (12_memory_protection.md R406 Table 12.4). -/
def Fd.MEM_STATUS_DSIZE : Fld := fld 7 0x0008 3 1 0x0
/-- MEM.STATUS.PASS_S [23:16] RO: Complete SRAM passes, wrapping at 0xFF (12_memory_protection.md R406 Table 12.4). -/
def Fd.MEM_STATUS_PASS_S : Fld := fld 7 0x0008 16 8 0x0
/-- MEM.STATUS.PASS_D [31:24] RO: Complete DRAM passes, wrapping at 0xFF (12_memory_protection.md R406 Table 12.4). -/
def Fd.MEM_STATUS_PASS_D : Fld := fld 7 0x0008 24 8 0x0
/-- MEM.SCRUB.SPER_S [11:0] RW: SRAM pass period in s, 1 to 4,095; a write of 0 stores 0x03C (12_memory_protection.md R406 Table 12.4). -/
def Fd.MEM_SCRUB_SPER_S : Fld := fld 7 0x0010 0 12 0x03C
/-- MEM.SCRUB.SPER_D [23:16] RW: DRAM pass period in h, 1 to 255; a write of 0 stores 0x18 (12_memory_protection.md R406 Table 12.4). -/
def Fd.MEM_SCRUB_SPER_D : Fld := fld 7 0x0010 16 8 0x18
/-- MEM.BKT.CAP [7:0] RW: Bucket capacity, 1 to 255; a write of 0 stores 0x10 (12_memory_protection.md R406 Table 12.4). -/
def Fd.MEM_BKT_CAP (m : Nat) : Fld := fld 7 (0x0018 + 4 * m) 0 8 0x10
/-- MEM.BKT.LEAK_S [15:8] RW: Leak window in s, 1 to 255; a write of 0 stores 0x0A; applies from the next boundary (12_memory_protection.md R406 Table 12.4). -/
def Fd.MEM_BKT_LEAK_S (m : Nat) : Fld := fld 7 (0x0018 + 4 * m) 8 8 0x0A
/-- MEM.BKT.LEVEL [23:16] RO: Present level (12_memory_protection.md R406 Table 12.4). -/
def Fd.MEM_BKT_LEVEL (m : Nat) : Fld := fld 7 (0x0018 + 4 * m) 16 8 0x0
/-- MEM.BKT.OVF [31:24] RC: Overflows per R400, saturating at 0xFF (12_memory_protection.md R406 Table 12.4). -/
def Fd.MEM_BKT_OVF (m : Nat) : Fld := fld 7 (0x0018 + 4 * m) 24 8 0x0
/-- MEM.INT.CEOVF_S [0] W1C: Set per R400, bucket 0 (12_memory_protection.md R406 Table 12.4). -/
def Fd.MEM_INT_CEOVF_S : Fld := fld 7 0x0020 0 1 0x0
/-- MEM.INT.CEOVF_D [1] W1C: Set per R400, bucket 1 (12_memory_protection.md R406 Table 12.4). -/
def Fd.MEM_INT_CEOVF_D : Fld := fld 7 0x0020 1 1 0x0
/-- MEM.INT.UE_S [2] W1C: Set per R396, SRAM (12_memory_protection.md R406 Table 12.4). -/
def Fd.MEM_INT_UE_S : Fld := fld 7 0x0020 2 1 0x0
/-- MEM.INT.UE_D [3] W1C: Set per R396, DRAM (12_memory_protection.md R406 Table 12.4). -/
def Fd.MEM_INT_UE_D : Fld := fld 7 0x0020 3 1 0x0
/-- MEM.INT.DFAIL [4] W1C: Set per R405 (12_memory_protection.md R406 Table 12.4). -/
def Fd.MEM_INT_DFAIL : Fld := fld 7 0x0020 4 1 0x0
/-- MEM.INT.INJDONE [5] W1C: Set when an injection takes place (12_memory_protection.md R406 Table 12.4). -/
def Fd.MEM_INT_INJDONE : Fld := fld 7 0x0020 5 1 0x0
/-- MEM.CNT0.CE_S [31:0] RC: SRAM corrections, saturating at 0xFFFF_FFFF (12_memory_protection.md R406 Table 12.4). -/
def Fd.MEM_CNT0_CE_S : Fld := fld 7 0x0028 0 32 0x0
/-- MEM.CNT1.CE_D [31:0] RC: DRAM corrections, saturating at 0xFFFF_FFFF (12_memory_protection.md R406 Table 12.4). -/
def Fd.MEM_CNT1_CE_D : Fld := fld 7 0x002C 0 32 0x0
/-- MEM.CNT2.UE_S [15:0] RC: Uncorrectable reads of SRAM and of DRAM, poisoned included, saturating at 0xFFFF (12_memory_protection.md R406 Table 12.4). -/
def Fd.MEM_CNT2_UE_S : Fld := fld 7 0x0030 0 16 0x0
/-- MEM.CNT2.UE_D [31:16] RC: Uncorrectable reads of SRAM and of DRAM, poisoned included, saturating at 0xFFFF (12_memory_protection.md R406 Table 12.4). -/
def Fd.MEM_CNT2_UE_D : Fld := fld 7 0x0030 16 16 0x0
/-- MEM.CELAST.ADDR [39:3] RO: Word address of the last correction (12_memory_protection.md R406 Table 12.4). -/
def Fd.MEM_CELAST_ADDR : Fld := fld 7 0x0040 3 37 0x0
/-- MEM.CELAST.SYM [44:40] RO: Lowest symbol in error, 0 to 19 (12_memory_protection.md R406 Table 12.4). -/
def Fd.MEM_CELAST_SYM : Fld := fld 7 0x0040 40 5 0x0
/-- MEM.CELAST.TWOBIT [45] RO: 1: corrected as two bits in different symbols (12_memory_protection.md R406 Table 12.4). -/
def Fd.MEM_CELAST_TWOBIT : Fld := fld 7 0x0040 45 1 0x0
/-- MEM.CELAST.SCRUB [46] RO: 1: found by the scrubber (12_memory_protection.md R406 Table 12.4). -/
def Fd.MEM_CELAST_SCRUB : Fld := fld 7 0x0040 46 1 0x0
/-- MEM.UELAST.ADDR [39:3] RO: Word address of the last uncorrectable read (12_memory_protection.md R406 Table 12.4). -/
def Fd.MEM_UELAST_ADDR : Fld := fld 7 0x0048 3 37 0x0
/-- MEM.UELAST.POISON [40] RO: 1: the word was poisoned (12_memory_protection.md R406 Table 12.4). -/
def Fd.MEM_UELAST_POISON : Fld := fld 7 0x0048 40 1 0x0
/-- MEM.UELAST.REQ [47:42] RO: Requester of Table 11.2; 0x3F for the scrubber (12_memory_protection.md R406 Table 12.4). -/
def Fd.MEM_UELAST_REQ : Fld := fld 7 0x0048 42 6 0x0
/-- MEM.INJ.ARM [0] RW: 1: the next write to ADDR stores its codeword with the bits of INJMASK and CHKFLIP inverted; cleared at the injection (12_memory_protection.md R406 Table 12.4). -/
def Fd.MEM_INJ_ARM : Fld := fld 7 0x0050 0 1 0x0
/-- MEM.INJ.ADDR [39:3] RW: Word address, in SRAM or DRAM (12_memory_protection.md R406 Table 12.4). -/
def Fd.MEM_INJ_ADDR : Fld := fld 7 0x0050 3 37 0x0
/-- MEM.INJ.CHKFLIP [55:40] RW: Check bits [79:64] to invert (12_memory_protection.md R406 Table 12.4). -/
def Fd.MEM_INJ_CHKFLIP : Fld := fld 7 0x0050 40 16 0x0
/-- MEM.INJMASK.FLIP [63:0] RW: Data bits to invert (12_memory_protection.md R406 Table 12.4). -/
def Fd.MEM_INJMASK_FLIP : Fld := fld 7 0x0058 0 64 0x0
/-- MEM.INTEN.EN [5:0] RW: bit i enables bit i of the matching interrupt register (12_memory_protection.md R406). -/
def Fd.MEM_INTEN_EN : Fld := fld 7 0x0024 0 6 0x0
/-- SLC.CTL.EN [0] RW: 1: channels run; 0: every channel stops per R429 (13_sluice_backwater_weir.md R438 Table 13.6). -/
def Fd.SLC_CTL_EN : Fld := fld 8 0x0000 0 1 0x0
/-- SLC.DONE.DONE [31:0] W1C: Bit c set per R428 (13_sluice_backwater_weir.md R438 Table 13.6). -/
def Fd.SLC_DONE_DONE : Fld := fld 8 0x0008 0 32 0x0
/-- SLC.ERR.ERR [31:0] W1C: Bit c set per R430 (13_sluice_backwater_weir.md R438 Table 13.6). -/
def Fd.SLC_ERR_ERR : Fld := fld 8 0x000C 0 32 0x0
/-- SLC.DONEEN.EN [31:0] RW: Bit c enables DONE bit c to the interrupt router (13_sluice_backwater_weir.md R438 Table 13.6). -/
def Fd.SLC_DONEEN_EN : Fld := fld 8 0x0010 0 32 0x0
/-- SLC.ERREN.EN [31:0] RW: Bit c enables ERR bit c to the interrupt router (13_sluice_backwater_weir.md R438 Table 13.6). -/
def Fd.SLC_ERREN_EN : Fld := fld 8 0x0014 0 32 0x0
/-- SLC.CHCTL.GO [0] WO: Per R427 (13_sluice_backwater_weir.md R438 Table 13.6). -/
def Fd.SLC_CHCTL_GO (c : Nat) : Fld := fld 8 (0x1000 + 0x40 * c) 0 1 0x0
/-- SLC.CHCTL.STOP [1] WO: Per R429 (13_sluice_backwater_weir.md R438 Table 13.6). -/
def Fd.SLC_CHCTL_STOP (c : Nat) : Fld := fld 8 (0x1000 + 0x40 * c) 1 1 0x0
/-- SLC.CHCTL.RESUME [2] WO: Per R427 (13_sluice_backwater_weir.md R438 Table 13.6). -/
def Fd.SLC_CHCTL_RESUME (c : Nat) : Fld := fld 8 (0x1000 + 0x40 * c) 2 1 0x0
/-- SLC.CHSTAT.STATE [2:0] RO: 0 idle, 1 running, 2 stopping, 3 stopped, 4 error; others reserved (13_sluice_backwater_weir.md R438 Table 13.6). -/
def Fd.SLC_CHSTAT_STATE (c : Nat) : Fld := fld 8 (0x1004 + 0x40 * c) 0 3 0x0
/-- SLC.CHSTAT.REFUSED [3] W1C: Set per R427 (13_sluice_backwater_weir.md R438 Table 13.6). -/
def Fd.SLC_CHSTAT_REFUSED (c : Nat) : Fld := fld 8 (0x1004 + 0x40 * c) 3 1 0x0
/-- SLC.CHSTAT.SECT [4] RO: 1: a sector transfer holds the channel (13_sluice_backwater_weir.md R438 Table 13.6). -/
def Fd.SLC_CHSTAT_SECT (c : Nat) : Fld := fld 8 (0x1004 + 0x40 * c) 4 1 0x0
/-- SLC.CHSTAT.ERRC [11:8] RO: Table 13.5 (13_sluice_backwater_weir.md R438 Table 13.6). -/
def Fd.SLC_CHSTAT_ERRC (c : Nat) : Fld := fld 8 (0x1004 + 0x40 * c) 8 4 0x0
/-- SLC.CHHEAD.ADDR [39:5] RW: First descriptor of the chain (13_sluice_backwater_weir.md R438 Table 13.6). -/
def Fd.SLC_CHHEAD_ADDR (c : Nat) : Fld := fld 8 (0x1008 + 0x40 * c) 5 35 0x0
/-- SLC.CHCUR.ADDR [39:5] RO: Descriptor in progress or next to run (13_sluice_backwater_weir.md R438 Table 13.6). -/
def Fd.SLC_CHCUR_ADDR (c : Nat) : Fld := fld 8 (0x1010 + 0x40 * c) 5 35 0x0
/-- SLC.CHREM.REM [23:0] RO: Bytes of CHCUR not yet issued (13_sluice_backwater_weir.md R438 Table 13.6). -/
def Fd.SLC_CHREM_REM (c : Nat) : Fld := fld 8 (0x1018 + 0x40 * c) 0 24 0x0
/-- SLC.CHTAG.TAG [15:0] RO: TAG of the last descriptor that set DONE (13_sluice_backwater_weir.md R438 Table 13.6). -/
def Fd.SLC_CHTAG_TAG (c : Nat) : Fld := fld 8 (0x101C + 0x40 * c) 0 16 0x0
/-- BKW.PUSH.WORD [63:0] WO: Per R432; 8-byte stores only (13_sluice_backwater_weir.md R439 Table 13.7). -/
def Fd.BKW_PUSH_WORD (q : Nat) (l : Nat) : Fld := fld 9 (0x0000 + 0x10 * q + 8 * l) 0 64 0x0
/-- BKW.POP.WORD [63:0] RO: A read pops, per R434 (13_sluice_backwater_weir.md R439 Table 13.7). -/
def Fd.BKW_POP_WORD (q : Nat) : Fld := fld 9 (0x8000 + 0x20 * q) 0 64 0x0
/-- BKW.QSTAT.WORDS [17:0] RO: Words held, 0 to 131,104; a marker counts (13_sluice_backwater_weir.md R439 Table 13.7). -/
def Fd.BKW_QSTAT_WORDS (q : Nat) : Fld := fld 9 (0x8008 + 0x20 * q) 0 18 0x0
/-- BKW.QSTAT.TAG [28:24] RO: Last pop: FIRST, LAST, POISON, FLUSH, EMPTY from bit 24 (13_sluice_backwater_weir.md R439 Table 13.7). -/
def Fd.BKW_QSTAT_TAG (q : Nat) : Fld := fld 9 (0x8008 + 0x20 * q) 24 5 0x0
/-- BKW.QCTL.FLUSH [0] WO: Per R436 (13_sluice_backwater_weir.md R439 Table 13.7). -/
def Fd.BKW_QCTL_FLUSH (q : Nat) : Fld := fld 9 (0x800C + 0x20 * q) 0 1 0x0
/-- BKW.QDROP.DROPS [15:0] RC: Items dropped, saturating at 0xFFFF (13_sluice_backwater_weir.md R439 Table 13.7). -/
def Fd.BKW_QDROP_DROPS (q : Nat) : Fld := fld 9 (0x8010 + 0x20 * q) 0 16 0x0
/-- BKW.CTL.EN [0] RW: 1: queues accept pushes; firmware sets it once BASE is written (13_sluice_backwater_weir.md R439 Table 13.7). -/
def Fd.BKW_CTL_EN : Fld := fld 9 0xA000 0 1 0x0
/-- BKW.BASE.BASE [39:28] RW: 256 MiB-aligned DRAM region of the middles (13_sluice_backwater_weir.md R439 Table 13.7). -/
def Fd.BKW_BASE_BASE : Fld := fld 9 0xA008 28 12 0x0
/-- BKW.INT.DROP [0] W1C: Set per R432 (13_sluice_backwater_weir.md R439 Table 13.7). -/
def Fd.BKW_INT_DROP : Fld := fld 9 0xA010 0 1 0x0
/-- BKW.INT.PARITY [1] W1C: Set per R435 (13_sluice_backwater_weir.md R439 Table 13.7). -/
def Fd.BKW_INT_PARITY : Fld := fld 9 0xA010 1 1 0x0
/-- BKW.INTEN.EN [1:0] RW: Bit i enables INT bit i to the interrupt router (13_sluice_backwater_weir.md R439 Table 13.7). -/
def Fd.BKW_INTEN_EN : Fld := fld 9 0xA014 0 2 0x0
/-- WEIR.POOL.QUSED [15:0] RO: Q slots in use at the Stage input, 0 to 2,048 (13_sluice_backwater_weir.md R440 Table 13.8). -/
def Fd.WEIR_POOL_QUSED : Fld := fld 4 0x0000 0 16 0x0
/-- WEIR.POOL.DUSED [31:16] RO: D slots in use at the Stage input, 0 to 1,024 (13_sluice_backwater_weir.md R440 Table 13.8). -/
def Fd.WEIR_POOL_DUSED : Fld := fld 4 0x0000 16 16 0x0
/-- WEIR.RESV.CTX [16:0] RO: Contexts holding end-slot reservations (13_sluice_backwater_weir.md R440 Table 13.8). -/
def Fd.WEIR_RESV_CTX : Fld := fld 4 0x0008 0 17 0x0
/-- WEIR.SPRES.SPQ [7:0] RW: Q slots reserved for spill and refill, 2 to 64; other values store 0x08 (13_sluice_backwater_weir.md R440 Table 13.8). -/
def Fd.WEIR_SPRES_SPQ : Fld := fld 4 0x0010 0 8 0x08
/-- WEIR.SPRES.SPD [15:8] RW: D slots reserved for spill and refill, 2 to 64; other values store 0x08 (13_sluice_backwater_weir.md R440 Table 13.8). -/
def Fd.WEIR_SPRES_SPD : Fld := fld 4 0x0010 8 8 0x08
/-- WEIR.SYNC.MASK [47:0] RW: Bit i names requester i of Table 11.2; a write starts a SYNC per R416 (13_sluice_backwater_weir.md R440 Table 13.8). -/
def Fd.WEIR_SYNC_MASK (k : Nat) : Fld := fld 4 (0x0020 + 8 * k) 0 48 0x0
/-- WEIR.SYNC.DONE [63] RO: 1: no SYNC of core k outstanding (13_sluice_backwater_weir.md R440 Table 13.8). -/
def Fd.WEIR_SYNC_DONE (k : Nat) : Fld := fld 4 (0x0020 + 8 * k) 63 1 0x1
/-- WEIR.INT.STALL [0] W1C: Set per R414 (13_sluice_backwater_weir.md R440 Table 13.8). -/
def Fd.WEIR_INT_STALL : Fld := fld 4 0x0050 0 1 0x0
/-- WEIR.INT.FULL [1] W1C: Set when every Q and D slot at the Stage input is in use at once (13_sluice_backwater_weir.md R440 Table 13.8). -/
def Fd.WEIR_INT_FULL : Fld := fld 4 0x0050 1 1 0x0
/-- WEIR.INTEN.EN [1:0] RW: Bit i enables INT bit i to the interrupt router (13_sluice_backwater_weir.md R440 Table 13.8). -/
def Fd.WEIR_INTEN_EN : Fld := fld 4 0x0054 0 2 0x0
/-- WEIR.CNT.STALLS [15:0] RC: Events of INT bits 0 and 1, saturating at 0xFFFF (13_sluice_backwater_weir.md R440 Table 13.8). -/
def Fd.WEIR_CNT_STALLS : Fld := fld 4 0x0058 0 16 0x0
/-- WEIR.CNT.FULLS [31:16] RC: Events of INT bits 0 and 1, saturating at 0xFFFF (13_sluice_backwater_weir.md R440 Table 13.8). -/
def Fd.WEIR_CNT_FULLS : Fld := fld 4 0x0058 16 16 0x0
/-- CFL.CTL.PFEN [0] RW: 1: prefetch buffer in use (14_code_flash.md R460 Table 14.5). -/
def Fd.CFL_CTL_PFEN : Fld := fld 10 0x0000 0 1 0x1
/-- CFL.CTL.BCEN [1] RW: 1: branch cache in use (14_code_flash.md R460 Table 14.5). -/
def Fd.CFL_CTL_BCEN : Fld := fld 10 0x0000 1 1 0x1
/-- CFL.STATUS.BUSY0 [0] RO: 1: an operation is under way in bank 0 or bank 1 (14_code_flash.md R460 Table 14.5). -/
def Fd.CFL_STATUS_BUSY0 : Fld := fld 10 0x0008 0 1 0x0
/-- CFL.STATUS.BUSY1 [1] RO: 1: an operation is under way in bank 0 or bank 1 (14_code_flash.md R460 Table 14.5). -/
def Fd.CFL_STATUS_BUSY1 : Fld := fld 10 0x0008 1 1 0x0
/-- CFL.STATUS.SUSP0 [2] RO: 1: that operation is suspended (14_code_flash.md R460 Table 14.5). -/
def Fd.CFL_STATUS_SUSP0 : Fld := fld 10 0x0008 2 1 0x0
/-- CFL.STATUS.SUSP1 [3] RO: 1: that operation is suspended (14_code_flash.md R460 Table 14.5). -/
def Fd.CFL_STATUS_SUSP1 : Fld := fld 10 0x0008 3 1 0x0
/-- CFL.STATUS.COPY0 [4] RO: 1: a retirement copy is in progress in the bank (14_code_flash.md R460 Table 14.5). -/
def Fd.CFL_STATUS_COPY0 : Fld := fld 10 0x0008 4 1 0x0
/-- CFL.STATUS.COPY1 [5] RO: 1: a retirement copy is in progress in the bank (14_code_flash.md R460 Table 14.5). -/
def Fd.CFL_STATUS_COPY1 : Fld := fld 10 0x0008 5 1 0x0
/-- CFL.STATUS.SPARE0 [15:8] RO: Spare sectors left in bank 0; loaded from the remap row in P2 (14_code_flash.md R460 Table 14.5). -/
def Fd.CFL_STATUS_SPARE0 : Fld := fld 10 0x0008 8 8 0x80
/-- CFL.STATUS.SPARE1 [23:16] RO: Spare sectors left in bank 1; loaded from the remap row in P2 (14_code_flash.md R460 Table 14.5). -/
def Fd.CFL_STATUS_SPARE1 : Fld := fld 10 0x0008 16 8 0x80
/-- CFL.LOCK.LOCK [5:0] RW: Bit k locks the k-th firmware region of Table 14.1 in table order; a write of 0 to a set bit is ignored; cleared only by a start that passes through P4 (14_code_flash.md R460 Table 14.5). -/
def Fd.CFL_LOCK_LOCK : Fld := fld 10 0x0010 0 6 0x0
/-- CFL.INT.DONE0 [0] W1C: A firmware operation of the bank completed (14_code_flash.md R460 Table 14.5). -/
def Fd.CFL_INT_DONE0 : Fld := fld 10 0x0030 0 1 0x0
/-- CFL.INT.DONE1 [1] W1C: A firmware operation of the bank completed (14_code_flash.md R460 Table 14.5). -/
def Fd.CFL_INT_DONE1 : Fld := fld 10 0x0030 1 1 0x0
/-- CFL.INT.WEAK [2] W1C: Set per R454 (14_code_flash.md R460 Table 14.5). -/
def Fd.CFL_INT_WEAK : Fld := fld 10 0x0030 2 1 0x0
/-- CFL.INT.RETIRED [3] W1C: Set per R455 and R456 (14_code_flash.md R460 Table 14.5). -/
def Fd.CFL_INT_RETIRED : Fld := fld 10 0x0030 3 1 0x0
/-- CFL.INT.NOSPARE [4] W1C: Set per R457 (14_code_flash.md R460 Table 14.5). -/
def Fd.CFL_INT_NOSPARE : Fld := fld 10 0x0030 4 1 0x0
/-- CFL.INT.UE [5] W1C: Set per R443 (14_code_flash.md R460 Table 14.5). -/
def Fd.CFL_INT_UE : Fld := fld 10 0x0030 5 1 0x0
/-- CFL.INT.ROW [6] W1C: Set per R459 (14_code_flash.md R460 Table 14.5). -/
def Fd.CFL_INT_ROW : Fld := fld 10 0x0030 6 1 0x0
/-- CFL.CNT0.CE [15:0] RC: Corrected and uncorrectable reads, saturating at 0xFFFF (14_code_flash.md R460 Table 14.5). -/
def Fd.CFL_CNT0_CE : Fld := fld 10 0x0038 0 16 0x0
/-- CFL.CNT0.UE [31:16] RC: Corrected and uncorrectable reads, saturating at 0xFFFF (14_code_flash.md R460 Table 14.5). -/
def Fd.CFL_CNT0_UE : Fld := fld 10 0x0038 16 16 0x0
/-- CFL.CNT1.WEAK [15:0] RC: Weak programs; suspensions; saturating at 0xFFFF (14_code_flash.md R460 Table 14.5). -/
def Fd.CFL_CNT1_WEAK : Fld := fld 10 0x003C 0 16 0x0
/-- CFL.CNT1.SUSP [31:16] RC: Weak programs; suspensions; saturating at 0xFFFF (14_code_flash.md R460 Table 14.5). -/
def Fd.CFL_CNT1_SUSP : Fld := fld 10 0x003C 16 16 0x0
/-- CFL.WEAKLAST.SECTOR [13:0] RO: Sector of the last weak program (14_code_flash.md R460 Table 14.5). -/
def Fd.CFL_WEAKLAST_SECTOR : Fld := fld 10 0x0040 0 14 0x0
/-- CFL.WEAKLAST.PULSES [19:16] RO: Highest pulse count in it, 8 to 15; 0x0 for 16 (14_code_flash.md R460 Table 14.5). -/
def Fd.CFL_WEAKLAST_PULSES : Fld := fld 10 0x0040 16 4 0x0
/-- CFL.CMD.OP [1:0] RW: 1 program, 2 erase; 0 and 3 refused with RESULT 1 (14_code_flash.md R460 Table 14.5). -/
def Fd.CFL_CMD_OP (b : Nat) : Fld := fld 10 (0x1000 + 0x400 * b) 0 2 0x0
/-- CFL.CMD.WORDS [4:2] RW: Words to program, less 1 (14_code_flash.md R460 Table 14.5). -/
def Fd.CFL_CMD_WORDS (b : Nat) : Fld := fld 10 (0x1000 + 0x400 * b) 2 3 0x0
/-- CFL.CMD.GO [8] WO: Writing 1 issues the operation, per R450 (14_code_flash.md R460 Table 14.5). -/
def Fd.CFL_CMD_GO (b : Nat) : Fld := fld 10 (0x1000 + 0x400 * b) 8 1 0x0
/-- CFL.ADDR.WORD [25:3] RW: Offset of the first word; an erase uses bits [25:12] only (14_code_flash.md R460 Table 14.5). -/
def Fd.CFL_ADDR_WORD (b : Nat) : Fld := fld 10 (0x1008 + 0x400 * b) 3 23 0x0
/-- CFL.RES.BUSY [0] RO: 1: the firmware operation has not completed (14_code_flash.md R460 Table 14.5). -/
def Fd.CFL_RES_BUSY (b : Nat) : Fld := fld 10 (0x1010 + 0x400 * b) 0 1 0x0
/-- CFL.RES.RESULT [2:1] RO: 0 done, 1 refused, 2 word not erased, 3 no spare (14_code_flash.md R460 Table 14.5). -/
def Fd.CFL_RES_RESULT (b : Nat) : Fld := fld 10 (0x1010 + 0x400 * b) 1 2 0x0
/-- CFL.RES.PULSES [12:8] RO: Highest pulse count of the last program, 1 to 16 (14_code_flash.md R460 Table 14.5). -/
def Fd.CFL_RES_PULSES (b : Nat) : Fld := fld 10 (0x1010 + 0x400 * b) 8 5 0x0
/-- CFL.WBUF.DATA [63:0] RW: Data of word i of the program (14_code_flash.md R460 Table 14.5). -/
def Fd.CFL_WBUF_DATA (b : Nat) (i : Nat) : Fld := fld 10 (0x1100 + 0x400 * b + 8 * i) 0 64 0x0
/-- CFL.INTEN.EN [6:0] RW: bit i enables bit i of the matching interrupt register (14_code_flash.md R460). -/
def Fd.CFL_INTEN_EN : Fld := fld 10 0x0034 0 7 0x0
/-- SPN.CTL.EN [0] RW: 1: the spindle may start, per R472. 0: stop as for target 0 (15_spindle.md R485 Table 15.7). -/
def Fd.SPN_CTL_EN : Fld := fld 15 0x0000 0 1 0x0
/-- SPN.CTL.SRC [1] RW: 0 SPIN_DMD, 1 DMD.REG (15_spindle.md R485 Table 15.7). -/
def Fd.SPN_CTL_SRC : Fld := fld 15 0x0000 1 1 0x0
/-- SPN.CTL.CLEAR [2] WO: Writing 1 ends cold hold or lockout, per R474 and R477 (15_spindle.md R485 Table 15.7). -/
def Fd.SPN_CTL_CLEAR : Fld := fld 15 0x0000 2 1 0x0
/-- SPN.CTL.CURVE [3] WO: Writing 1 applies the shadow curve, per R468 (15_spindle.md R485 Table 15.7). -/
def Fd.SPN_CTL_CURVE : Fld := fld 15 0x0000 3 1 0x0
/-- SPN.STATUS.STATE [3:0] RO: 0 off, 1 listen, 2 warm-up, 3 token wait, 4 align, 5 ramp, 6 run, 7 braking, 8 coasting, 9 cold hold, 10 lockout; others reserved (15_spindle.md R485 Table 15.7). -/
def Fd.SPN_STATUS_STATE : Fld := fld 15 0x0008 0 4 0x0
/-- SPN.STATUS.ATSPD [4] RO: Per R471 (15_spindle.md R485 Table 15.7). -/
def Fd.SPN_STATUS_ATSPD : Fld := fld 15 0x0008 4 1 0x0
/-- SPN.STATUS.ON [5] RO: Per R467 (15_spindle.md R485 Table 15.7). -/
def Fd.SPN_STATUS_ON : Fld := fld 15 0x0008 5 1 0x0
/-- SPN.STATUS.PEND [6] RO: Per R470 (15_spindle.md R485 Table 15.7). -/
def Fd.SPN_STATUS_PEND : Fld := fld 15 0x0008 6 1 0x0
/-- SPN.STATUS.TOKEN [7] RO: 1: spin-up token held (15_spindle.md R485 Table 15.7). -/
def Fd.SPN_STATUS_TOKEN : Fld := fld 15 0x0008 7 1 0x0
/-- SPN.STATUS.CHOPF [8] RSH: Per Table 15.5; sticky until unit reset of the spindle (15_spindle.md R485 Table 15.7). -/
def Fd.SPN_STATUS_CHOPF : Fld := fld 15 0x0008 8 1 0x0
/-- SPN.STATUS.ISEN [9] RO: Strap ISEN, loaded at P1, per R462 (15_spindle.md R485 Table 15.7). -/
def Fd.SPN_STATUS_ISEN : Fld := fld 15 0x0008 9 1 0x0
/-- SPN.STATUS.SPARE [10] RO: 1: CS4 converts in place of amplifier SPFOR (15_spindle.md R485 Table 15.7). -/
def Fd.SPN_STATUS_SPARE : Fld := fld 15 0x0008 10 1 0x0
/-- SPN.STATUS.SPFOR [12:11] RO: Amplifier replaced, CS0 to CS3 (15_spindle.md R485 Table 15.7). -/
def Fd.SPN_STATUS_SPFOR : Fld := fld 15 0x0008 11 2 0x0
/-- SPN.DMD.REG [7:0] RW: Demand used while SRC is 1 (15_spindle.md R485 Table 15.7). -/
def Fd.SPN_DMD_REG : Fld := fld 15 0x0010 0 8 0x00
/-- SPN.DMD.PIN [15:8] RO: Latest pin demand, per R466 (15_spindle.md R485 Table 15.7). -/
def Fd.SPN_DMD_PIN : Fld := fld 15 0x0010 8 8 0x00
/-- SPN.DMD.NOW [23:16] RO: Demand in force (15_spindle.md R485 Table 15.7). -/
def Fd.SPN_DMD_NOW : Fld := fld 15 0x0010 16 8 0x00
/-- SPN.HYST.ON [7:0] RW: Turn-on demand, per R467 (15_spindle.md R485 Table 15.7). -/
def Fd.SPN_HYST_ON : Fld := fld 15 0x0014 0 8 0x40
/-- SPN.HYST.OFF [15:8] RW: Turn-off demand (15_spindle.md R485 Table 15.7). -/
def Fd.SPN_HYST_OFF : Fld := fld 15 0x0014 8 8 0x28
/-- SPN.CEIL.RPM [12:0] RW: Firmware ceiling, per R469 (15_spindle.md R485 Table 15.7). -/
def Fd.SPN_CEIL_RPM : Fld := fld 15 0x0018 0 13 0x1C20
/-- SPN.TARGET.RPM [12:0] RO: Target in force (15_spindle.md R485 Table 15.7). -/
def Fd.SPN_TARGET_RPM : Fld := fld 15 0x001C 0 13 0x0
/-- SPN.SPEED.RPM10 [16:0] RO: Observed speed in 0.1 rpm; 0x0 when not known (15_spindle.md R485 Table 15.7). -/
def Fd.SPN_SPEED_RPM10 : Fld := fld 15 0x0020 0 17 0x0
/-- SPN.SPEED.REV [17] RO: 1: last listen found the motor turning backward (15_spindle.md R485 Table 15.7). -/
def Fd.SPN_SPEED_REV : Fld := fld 15 0x0020 17 1 0x0
/-- SPN.ACCEL.ACC [15:0] RW: Speed change rate in rpm/s; a write of 0 stores 0x03E8 (15_spindle.md R485 Table 15.7). -/
def Fd.SPN_ACCEL_ACC : Fld := fld 15 0x0024 0 16 0x03E8
/-- SPN.PWM.FREQ [6:0] RW: PWM frequency in kHz, 20 to 80; other values store 0x28 (15_spindle.md R485 Table 15.7). -/
def Fd.SPN_PWM_FREQ : Fld := fld 15 0x0028 0 7 0x28
/-- SPN.MOTOR.POLES [3:0] RW: Pole pairs, 1 to 8; 0 blocks starts (15_spindle.md R485 Table 15.7). -/
def Fd.SPN_MOTOR_POLES : Fld := fld 15 0x002C 0 4 0x0
/-- SPN.MOTOR.KE [19:4] RW: Line back-EMF peak in µV per rpm; 0 blocks starts (15_spindle.md R485 Table 15.7). -/
def Fd.SPN_MOTOR_KE : Fld := fld 15 0x002C 4 16 0x0
/-- SPN.ILIM.RUN_MA [11:0] RW: Run current limit in 10 mA; 0 blocks starts (15_spindle.md R485 Table 15.7). -/
def Fd.SPN_ILIM_RUN_MA : Fld := fld 15 0x0030 0 12 0x0
/-- SPN.ILIM.BRK_MA [23:12] RW: Zero-vector braking limit in 10 mA; 0 makes braking coast (15_spindle.md R485 Table 15.7). -/
def Fd.SPN_ILIM_BRK_MA : Fld := fld 15 0x0030 12 12 0x0
/-- SPN.START.ALIGN_MS [11:0] RW: Align time in ms (15_spindle.md R485 Table 15.7). -/
def Fd.SPN_START_ALIGN_MS : Fld := fld 15 0x0034 0 12 0x190
/-- SPN.START.RAMP [23:12] RW: Blind-ramp rate in rpm/s; a write of 0 stores 0x258 (15_spindle.md R485 Table 15.7). -/
def Fd.SPN_START_RAMP : Fld := fld 15 0x0034 12 12 0x258
/-- SPN.START.SPINUP_S [31:24] RW: Spin-up bound in s, per R477; a write of 0 stores 0x14 (15_spindle.md R485 Table 15.7). -/
def Fd.SPN_START_SPINUP_S : Fld := fld 15 0x0034 24 8 0x14
/-- SPN.ISTART.ALIGN_MA [11:0] RW: Align current in 10 mA (15_spindle.md R485 Table 15.7). -/
def Fd.SPN_ISTART_ALIGN_MA : Fld := fld 15 0x0038 0 12 0x0
/-- SPN.ISTART.RAMP_MA [23:12] RW: Ramp current in 10 mA (15_spindle.md R485 Table 15.7). -/
def Fd.SPN_ISTART_RAMP_MA : Fld := fld 15 0x0038 12 12 0x0
/-- SPN.LISTEN.VMIN [7:0] RW: Rest threshold in mV of line back-EMF peak (15_spindle.md R485 Table 15.7). -/
def Fd.SPN_LISTEN_VMIN : Fld := fld 15 0x003C 0 8 0x14
/-- SPN.LOS.STEP [7:0] RW: Speed-step limit in 1/1,000 of target (15_spindle.md R485 Table 15.7). -/
def Fd.SPN_LOS_STEP : Fld := fld 15 0x0040 0 8 0x14
/-- SPN.LOS.AMIS [15:8] RW: Amplitude mismatch limit in % (15_spindle.md R485 Table 15.7). -/
def Fd.SPN_LOS_AMIS : Fld := fld 15 0x0040 8 8 0x19
/-- SPN.LOS.RES [23:16] RW: Residual limit in mV (15_spindle.md R485 Table 15.7). -/
def Fd.SPN_LOS_RES : Fld := fld 15 0x0040 16 8 0x40
/-- SPN.LOS.NREV [27:24] RW: Electrical periods, 1 to 15; a write of 0 stores 0x4 (15_spindle.md R485 Table 15.7). -/
def Fd.SPN_LOS_NREV : Fld := fld 15 0x0040 24 4 0x4
/-- SPN.LOSCNT.WIN [1:0] RO: Losses in the present 60 s window (15_spindle.md R485 Table 15.7). -/
def Fd.SPN_LOSCNT_WIN : Fld := fld 15 0x0044 0 2 0x0
/-- SPN.LOSCNT.TOTAL [31:16] RC: Losses, saturating at 0xFFFF (15_spindle.md R485 Table 15.7). -/
def Fd.SPN_LOSCNT_TOTAL : Fld := fld 15 0x0044 16 16 0x0
/-- SPN.BRK.MODE [1:0] RW: 0 regenerative, 1 zero-vector, 2 coast; 3 stores 0x0 (15_spindle.md R485 Table 15.7). -/
def Fd.SPN_BRK_MODE : Fld := fld 15 0x0048 0 2 0x0
/-- SPN.WARM.WARM_MA [11:0] RW: Warm-up current in 10 mA; 0 skips warm-up, as if warm-up had ended at once (15_spindle.md R485 Table 15.7). -/
def Fd.SPN_WARM_WARM_MA : Fld := fld 15 0x004C 0 12 0x0
/-- SPN.WARM.WARM_S [23:12] RW: Warm-up limit in s (15_spindle.md R485 Table 15.7). -/
def Fd.SPN_WARM_WARM_S : Fld := fld 15 0x004C 12 12 0x078
/-- SPN.INT.ATSPD [0] W1C: Set per R471 (15_spindle.md R485 Table 15.7). -/
def Fd.SPN_INT_ATSPD : Fld := fld 15 0x0050 0 1 0x0
/-- SPN.INT.LOS [1] W1C: Set per R479 (15_spindle.md R485 Table 15.7). -/
def Fd.SPN_INT_LOS : Fld := fld 15 0x0050 1 1 0x0
/-- SPN.INT.LOSSTOP [2] W1C: Set per R479 (15_spindle.md R485 Table 15.7). -/
def Fd.SPN_INT_LOSSTOP : Fld := fld 15 0x0050 2 1 0x0
/-- SPN.INT.SPINFAIL [3] W1C: Set per R477 and R480 (15_spindle.md R485 Table 15.7). -/
def Fd.SPN_INT_SPINFAIL : Fld := fld 15 0x0050 3 1 0x0
/-- SPN.INT.CHOPF [4] W1C: Set per Table 15.5 (15_spindle.md R485 Table 15.7). -/
def Fd.SPN_INT_CHOPF : Fld := fld 15 0x0050 4 1 0x0
/-- SPN.INT.OVP [5] W1C: Set per Table 15.5 (15_spindle.md R485 Table 15.7). -/
def Fd.SPN_INT_OVP : Fld := fld 15 0x0050 5 1 0x0
/-- SPN.INT.COLD [6] W1C: Set per R474 (15_spindle.md R485 Table 15.7). -/
def Fd.SPN_INT_COLD : Fld := fld 15 0x0050 6 1 0x0
/-- SPN.INT.PARKREQ [7] W1C: Set per R470 (15_spindle.md R485 Table 15.7). -/
def Fd.SPN_INT_PARKREQ : Fld := fld 15 0x0050 7 1 0x0
/-- SPN.INT.DMDERR [8] W1C: Set per R466 (15_spindle.md R485 Table 15.7). -/
def Fd.SPN_INT_DMDERR : Fld := fld 15 0x0050 8 1 0x0
/-- SPN.INT.CURVEERR [9] W1C: Set per R468 (15_spindle.md R485 Table 15.7). -/
def Fd.SPN_INT_CURVEERR : Fld := fld 15 0x0050 9 1 0x0
/-- SPN.INT.STARTERR [10] W1C: Set per R461 (15_spindle.md R485 Table 15.7). -/
def Fd.SPN_INT_STARTERR : Fld := fld 15 0x0050 10 1 0x0
/-- SPN.INTEN.EN [10:0] RW: Bit i enables INT bit i (15_spindle.md R485 Table 15.7). -/
def Fd.SPN_INTEN_EN : Fld := fld 15 0x0054 0 11 0x0
/-- SPN.CNT0.STARTS [15:0] RC: Starts from rest; catches; saturating at 0xFFFF (15_spindle.md R485 Table 15.7). -/
def Fd.SPN_CNT0_STARTS : Fld := fld 15 0x0058 0 16 0x0
/-- SPN.CNT0.CATCHES [31:16] RC: Starts from rest; catches; saturating at 0xFFFF (15_spindle.md R485 Table 15.7). -/
def Fd.SPN_CNT0_CATCHES : Fld := fld 15 0x0058 16 16 0x0
/-- SPN.CNT1.BRAKES [15:0] RC: Stops under R480; warm-ups; saturating at 0xFFFF (15_spindle.md R485 Table 15.7). -/
def Fd.SPN_CNT1_BRAKES : Fld := fld 15 0x005C 0 16 0x0
/-- SPN.CNT1.WARMS [31:16] RC: Stops under R480; warm-ups; saturating at 0xFFFF (15_spindle.md R485 Table 15.7). -/
def Fd.SPN_CNT1_WARMS : Fld := fld 15 0x005C 16 16 0x0
/-- SPN.CURVE.D [7:0] RW: Shadow demand of point k, k = 0 to 15 (15_spindle.md R485 Table 15.7). -/
def Fd.SPN_CURVE_D (k : Nat) : Fld := fld 15 (0x0100 + 4 * k) 0 8 (0x11 * k)
/-- SPN.CURVE.RPM [20:8] RW: Shadow speed of point k; a write below 3,600 stores 0x0E10, and above 7,200 stores 0x1C20 (15_spindle.md R485 Table 15.7). -/
def Fd.SPN_CURVE_RPM (k : Nat) : Fld := fld 15 (0x0100 + 4 * k) 8 13 (0x0E10 + 0x12C * (k - 3))
/-- IRT.DSTAT.STATE [2:0] RO: 0 serving, 1 restarting, 2 held under R493; others reserved (16_watch_hierarchy.md R509 Table 16.8). -/
def Fd.IRT_DSTAT_STATE (d : Nat) : Fld := fld 5 (0x8000 + 0x10 * d) 0 3 0x0
/-- IRT.DSTAT.EXPIRES [11:8] RO: Domain expiries in the current 10 s window, saturating at 0xF (16_watch_hierarchy.md R509 Table 16.8). -/
def Fd.IRT_DSTAT_EXPIRES (d : Nat) : Fld := fld 5 (0x8000 + 0x10 * d) 8 4 0x0
/-- IRT.DSTAT.GEN [31:16] RO: Increments by 1 at the end of each domain restart; wraps at 0xFFFF (16_watch_hierarchy.md R509 Table 16.8). -/
def Fd.IRT_DSTAT_GEN (d : Nat) : Fld := fld 5 (0x8000 + 0x10 * d) 16 16 0x0
/-- IRT.DCTL.RESTART [0] WO: Writing 1 starts a domain restart; not counted as an expiry (16_watch_hierarchy.md R509 Table 16.8). -/
def Fd.IRT_DCTL_RESTART (d : Nat) : Fld := fld 5 (0x8004 + 0x10 * d) 0 1 0x0
/-- IRT.DCTL.LIMIT_MS [12:8] RW: Domain timeout in ms, 1 to 25; a write of 0 or above 0x19 stores 0x19 (16_watch_hierarchy.md R509 Table 16.8). -/
def Fd.IRT_DCTL_LIMIT_MS (d : Nat) : Fld := fld 5 (0x8004 + 0x10 * d) 8 5 0x19
/-- IRT.DLAST.INST [7:0] RO: SLOT_ID.INST of the unit of the domain that last took a unit expiry (16_watch_hierarchy.md R509 Table 16.8). -/
def Fd.IRT_DLAST_INST (d : Nat) : Fld := fld 5 (0x8008 + 0x10 * d) 0 8 0x0
/-- IRT.DLAST.TYPE [15:8] RO: Its unit type, Table 01.4 (16_watch_hierarchy.md R509 Table 16.8). -/
def Fd.IRT_DLAST_TYPE (d : Nat) : Fld := fld 5 (0x8008 + 0x10 * d) 8 8 0x0
/-- IRT.DLAST.CODE [31:16] RO: Event code of that expiry (16_watch_hierarchy.md R509 Table 16.8). -/
def Fd.IRT_DLAST_CODE (d : Nat) : Fld := fld 5 (0x8008 + 0x10 * d) 16 16 0x0
/-- IRT.WDOG.KICK [0] WO: Writing 1 restarts the supervisor watchdog's count (16_watch_hierarchy.md R509 Table 16.8). -/
def Fd.IRT_WDOG_KICK : Fld := fld 5 0x8100 0 1 0x0
/-- IRT.WDOG.LIMIT [15:8] RW: Watchdog timeout in ms, 10 to 250; a write outside that range stores 0xFA (16_watch_hierarchy.md R509 Table 16.8). -/
def Fd.IRT_WDOG_LIMIT : Fld := fld 5 0x8100 8 8 0xFA
/-- IRT.WSTAT.SUPEXP [1:0] RO: Supervisor expiries in the current 10 s window, 0 to 2 (16_watch_hierarchy.md R509 Table 16.8). -/
def Fd.IRT_WSTAT_SUPEXP : Fld := fld 5 0x8104 0 2 0x0
/-- IRT.WSTAT.LOCKSTEP [2] RO: 1: the last watch restart followed a lockstep mismatch (16_watch_hierarchy.md R509 Table 16.8). -/
def Fd.IRT_WSTAT_LOCKSTEP : Fld := fld 5 0x8104 2 1 0x0
/-- IRT.WSTAT.CRESTART [3] RSH: 1: the last start was a controller restart, per R497; cleared by power-on reset (16_watch_hierarchy.md R509 Table 16.8). -/
def Fd.IRT_WSTAT_CRESTART : Fld := fld 5 0x8104 3 1 0x0
/-- IRT.WINT.DOMEXP [4:0] W1C: Bit d set at each domain expiry of domain d (16_watch_hierarchy.md R509 Table 16.8). -/
def Fd.IRT_WINT_DOMEXP : Fld := fld 5 0x8108 0 5 0x0
/-- IRT.WINT.SUPEXP [5] W1C: Set at the end of each watch restart (16_watch_hierarchy.md R509 Table 16.8). -/
def Fd.IRT_WINT_SUPEXP : Fld := fld 5 0x8108 5 1 0x0
/-- IRT.WINT.UNITEXP [6] W1C: Set at each unit expiry in any domain (16_watch_hierarchy.md R509 Table 16.8). -/
def Fd.IRT_WINT_UNITEXP : Fld := fld 5 0x8108 6 1 0x0
/-- IRT.WINTEN.EN [6:0] RW: Bit i enables WINT bit i (16_watch_hierarchy.md R509 Table 16.8). -/
def Fd.IRT_WINTEN_EN : Fld := fld 5 0x810C 0 7 0x0
/-- CAL.CTL.SCOPE [6:0] RW: Bit i: item i of Table 17.2 runs in requested passes (17_calibration_thermal.md R535 Table 17.8). -/
def Fd.CAL_CTL_SCOPE : Fld := fld 14 0x0000 0 7 0x7F
/-- CAL.CTL.ACT [11:8] RW: Bit 8 + n: actuator An takes part in requested passes (17_calibration_thermal.md R535 Table 17.8). -/
def Fd.CAL_CTL_ACT : Fld := fld 14 0x0000 8 4 0xF
/-- CAL.CTL.GO [12] WO: Writing 1 requests a pass, per R518 (17_calibration_thermal.md R535 Table 17.8). -/
def Fd.CAL_CTL_GO : Fld := fld 14 0x0000 12 1 0x0
/-- CAL.STATUS.BUSY [0] RO: 1: a pass runs (17_calibration_thermal.md R535 Table 17.8). -/
def Fd.CAL_STATUS_BUSY : Fld := fld 14 0x0008 0 1 0x0
/-- CAL.STATUS.PEND [1] RO: 1: a pass is due, per R517 and R518 (17_calibration_thermal.md R535 Table 17.8). -/
def Fd.CAL_STATUS_PEND : Fld := fld 14 0x0008 1 1 0x0
/-- CAL.STATUS.ITEM [4:2] RO: Item under way, valid while BUSY is 1 (17_calibration_thermal.md R535 Table 17.8). -/
def Fd.CAL_STATUS_ITEM : Fld := fld 14 0x0008 2 3 0x0
/-- CAL.STATUS.ACTNOW [6:5] RO: Actuator under way (17_calibration_thermal.md R535 Table 17.8). -/
def Fd.CAL_STATUS_ACTNOW : Fld := fld 14 0x0008 5 2 0x0
/-- CAL.COUNT.PASSES [31:0] RO: Passes ended since the start, per R522 (17_calibration_thermal.md R535 Table 17.8). -/
def Fd.CAL_COUNT_PASSES : Fld := fld 14 0x0010 0 32 0x0
/-- CAL.LAST.TIME [47:0] RO: Device time in µs at the end of the last counted pass (17_calibration_thermal.md R535 Table 17.8). -/
def Fd.CAL_LAST_TIME : Fld := fld 14 0x0018 0 48 0x0
/-- CAL.INT.DONE [0] W1C: Set per R522 (17_calibration_thermal.md R535 Table 17.8). -/
def Fd.CAL_INT_DONE : Fld := fld 14 0x0020 0 1 0x0
/-- CAL.INT.FAIL [1] W1C: Set per R519 (17_calibration_thermal.md R535 Table 17.8). -/
def Fd.CAL_INT_FAIL : Fld := fld 14 0x0020 1 1 0x0
/-- CAL.INT.SKIP [2] W1C: Set when a pass skips an item (17_calibration_thermal.md R535 Table 17.8). -/
def Fd.CAL_INT_SKIP : Fld := fld 14 0x0020 2 1 0x0
/-- CAL.INT.FAULT [3] W1C: Set per R520 (17_calibration_thermal.md R535 Table 17.8). -/
def Fd.CAL_INT_FAULT : Fld := fld 14 0x0020 3 1 0x0
/-- CAL.INTEN.EN [3:0] RW: Bit i enables INT bit i (17_calibration_thermal.md R535 Table 17.8). -/
def Fd.CAL_INTEN_EN : Fld := fld 14 0x0024 0 4 0x0
/-- CAL.FAIL.ITEMS [6:0] RO: Bit i: item i failed in the last pass (17_calibration_thermal.md R535 Table 17.8). -/
def Fd.CAL_FAIL_ITEMS : Fld := fld 14 0x0028 0 7 0x0
/-- CAL.SKIPPED.ITEMS [15:0] RC: Items skipped, saturating at 0xFFFF (17_calibration_thermal.md R535 Table 17.8). -/
def Fd.CAL_SKIPPED_ITEMS : Fld := fld 14 0x002C 0 16 0x0
/-- CAL.RCOIL.RCOIL_MA [11:0] RW: Coil-measurement current in mA, per R521 (17_calibration_thermal.md R535 Table 17.8). -/
def Fd.CAL_RCOIL_RCOIL_MA : Fld := fld 14 0x0030 0 12 0x0C8
/-- CAL.RCOILA.MOHM [15:0] RO: Coil resistance of An in mΩ, per R521 (17_calibration_thermal.md R535 Table 17.8). -/
def Fd.CAL_RCOILA_MOHM (n : Nat) : Fld := fld 14 (0x0040 + 4 * n) 0 16 0x0
/-- HSK.ROUND.COUNT [31:0] RO: Rounds published since P2, per R524; wraps at 0xFFFF_FFFF (17_calibration_thermal.md R535 Table 17.9). -/
def Fd.HSK_ROUND_COUNT : Fld := fld 12 0x0000 0 32 0x0
/-- HSK.TSTAT.COND [5:0] RO: Bit i: condition i of Table 17.6, in table order, is set (17_calibration_thermal.md R535 Table 17.9). -/
def Fd.HSK_TSTAT_COND : Fld := fld 12 0x0008 0 6 0x0
/-- HSK.TSTAT.RESTR [6] RO: 1: thermal restriction of R531 in force (17_calibration_thermal.md R535 Table 17.9). -/
def Fd.HSK_TSTAT_RESTR : Fld := fld 12 0x0008 6 1 0x0
/-- HSK.RANGE.OUT [8:0] RO: Bit c − 10: channel c out of range, per R525 (17_calibration_thermal.md R535 Table 17.9). -/
def Fd.HSK_RANGE_OUT : Fld := fld 12 0x000C 0 9 0x0
/-- HSK.INT.TEMP [0] W1C: Set per R530 (17_calibration_thermal.md R535 Table 17.9). -/
def Fd.HSK_INT_TEMP : Fld := fld 12 0x0010 0 1 0x0
/-- HSK.INT.SENSOR [1] W1C: Set per R527 and R528 (17_calibration_thermal.md R535 Table 17.9). -/
def Fd.HSK_INT_SENSOR : Fld := fld 12 0x0010 1 1 0x0
/-- HSK.INT.RANGE [2] W1C: Set per R525 (17_calibration_thermal.md R535 Table 17.9). -/
def Fd.HSK_INT_RANGE : Fld := fld 12 0x0010 2 1 0x0
/-- HSK.INT.REFLOSS [3] W1C: Set per R534 (17_calibration_thermal.md R535 Table 17.9). -/
def Fd.HSK_INT_REFLOSS : Fld := fld 12 0x0010 3 1 0x0
/-- HSK.INTEN.EN [3:0] RW: Bit i enables INT bit i (17_calibration_thermal.md R535 Table 17.9). -/
def Fd.HSK_INTEN_EN : Fld := fld 12 0x0014 0 4 0x0
/-- HSK.SENSCLR.CLR [9:0] WO: Writing 1 to bit s clears sensor s, per R529 (17_calibration_thermal.md R535 Table 17.9). -/
def Fd.HSK_SENSCLR_CLR : Fld := fld 12 0x0018 0 10 0x0
/-- HSK.TXOFS.OFS [15:0] RW: Substitution offset of R528 in 0.1 °C, signed (17_calibration_thermal.md R535 Table 17.9). -/
def Fd.HSK_TXOFS_OFS : Fld := fld 12 0x001C 0 16 0x00C8
/-- HSK.TEMP.VALUE [15:0] RO: Reported value of sensor s, channel s of Table 17.4, signed, 0.1 °C (17_calibration_thermal.md R535 Table 17.9). -/
def Fd.HSK_TEMP_VALUE (s : Nat) : Fld := fld 12 (0x0100 + 4 * s) 0 16 0x0
/-- HSK.TEMP.BROKEN [16] RSH: Per R526 and R528; cleared by SENSCLR or power-on reset (17_calibration_thermal.md R535 Table 17.9). -/
def Fd.HSK_TEMP_BROKEN (s : Nat) : Fld := fld 12 (0x0100 + 4 * s) 16 1 0x0
/-- HSK.TEMP.SUBST [17] RO: 1: VALUE is a substitute (17_calibration_thermal.md R535 Table 17.9). -/
def Fd.HSK_TEMP_SUBST (s : Nat) : Fld := fld 12 (0x0100 + 4 * s) 17 1 0x0
/-- HSK.TEMP.COUNT [19:18] RO: Consecutive deviating rounds, 0 to 3 (17_calibration_thermal.md R535 Table 17.9). -/
def Fd.HSK_TEMP_COUNT (s : Nat) : Fld := fld 12 (0x0100 + 4 * s) 18 2 0x0
/-- HSK.CHAN.VALUE [15:0] RO: Result of channel c, 10 to 23, in the unit of Table 17.4 (17_calibration_thermal.md R535 Table 17.9). -/
def Fd.HSK_CHAN_VALUE (c : Nat) : Fld := fld 12 (0x0200 + 4 * c) 0 16 0x0
/-- HSK.LOW.LIM [15:0] RW: Low limit of channel c, 10 to 18 (17_calibration_thermal.md R535 Table 17.9). -/
def Fd.HSK_LOW_LIM (c : Nat) : Fld := fld 12 (0x0300 + 8 * c) 0 16 0x0
/-- HSK.HIGH.LIM [15:0] RW: High limit of channel c, 10 to 18 (17_calibration_thermal.md R535 Table 17.9). -/
def Fd.HSK_HIGH_LIM (c : Nat) : Fld := fld 12 (0x0304 + 8 * c) 0 16 0xFFFF
/-- HSK.VCTL.EN [0] RW: 1: loop runs, per R591 (20_firmware_cores_map.md R592 Table 20.7). -/
def Fd.HSK_VCTL_EN : Fld := fld 12 0x0800 0 1 0x0
/-- HSK.VCTL.ADDR [7:1] RW: Regulator PMBus address (20_firmware_cores_map.md R592 Table 20.7). -/
def Fd.HSK_VCTL_ADDR : Fld := fld 12 0x0800 1 7 0x40
/-- HSK.VBND.LO_MV [9:0] RW: Lower bound in mV; writes clamp to 600 to 900 (20_firmware_cores_map.md R592 Table 20.7). -/
def Fd.HSK_VBND_LO_MV : Fld := fld 12 0x0804 0 10 0x320
/-- HSK.VBND.HI_MV [25:16] RW: Upper bound in mV, clamped as LO_MV; a write leaving LO_MV above HI_MV stores LO_MV = HI_MV (20_firmware_cores_map.md R592 Table 20.7). -/
def Fd.HSK_VBND_HI_MV : Fld := fld 12 0x0804 16 10 0x384
/-- HSK.VCFG.VPER [7:0] RW: Update interval in 10 µs; a write below 0x0A stores 0x0A (20_firmware_cores_map.md R592 Table 20.7). -/
def Fd.HSK_VCFG_VPER : Fld := fld 12 0x0808 0 8 0x0A
/-- HSK.VCFG.UP_MV [11:8] RW: Step up in mV; a write of 0 stores 0xA (20_firmware_cores_map.md R592 Table 20.7). -/
def Fd.HSK_VCFG_UP_MV : Fld := fld 12 0x0808 8 4 0xA
/-- HSK.VCFG.DN_MV [15:12] RW: Step down in mV; a write of 0 stores 0x5 (20_firmware_cores_map.md R592 Table 20.7). -/
def Fd.HSK_VCFG_DN_MV : Fld := fld 12 0x0808 12 4 0x5
/-- HSK.VCFG.DOWNN [23:16] RW: Quiet updates before a step down; a write of 0 stores 0x0A (20_firmware_cores_map.md R592 Table 20.7). -/
def Fd.HSK_VCFG_DOWNN : Fld := fld 12 0x0808 16 8 0x0A
/-- HSK.VSET.MV [9:0] WO: New loop value, clamped to the bounds at the next update (20_firmware_cores_map.md R592 Table 20.7). -/
def Fd.HSK_VSET_MV : Fld := fld 12 0x080C 0 10 0x0
/-- HSK.VSTAT.NOW_MV [9:0] RO: Last commanded value (20_firmware_cores_map.md R592 Table 20.7). -/
def Fd.HSK_VSTAT_NOW_MV : Fld := fld 12 0x0810 0 10 0x0
/-- HSK.VSTAT.PIN_HI [10] W1C: Set while pinned at the upper bound, per R506 (20_firmware_cores_map.md R592 Table 20.7). -/
def Fd.HSK_VSTAT_PIN_HI : Fld := fld 12 0x0810 10 1 0x0
/-- HSK.VSTAT.PIN_LO [11] W1C: Set while pinned at the lower bound (20_firmware_cores_map.md R592 Table 20.7). -/
def Fd.HSK_VSTAT_PIN_LO : Fld := fld 12 0x0810 11 1 0x0
/-- HSK.VSTAT.REGERR [12] RSH: Per R592; sticky until unit reset of housekeeping (20_firmware_cores_map.md R592 Table 20.7). -/
def Fd.HSK_VSTAT_REGERR : Fld := fld 12 0x0810 12 1 0x0
/-- HSK.VSTAT.CAP [13] RO: 1: 0.80 V cap in force (20_firmware_cores_map.md R592 Table 20.7). -/
def Fd.HSK_VSTAT_CAP : Fld := fld 12 0x0810 13 1 0x0
/-- HSK.VSTAT.VOUT [31:16] RO: Last VOUT_COMMAND sent (20_firmware_cores_map.md R592 Table 20.7). -/
def Fd.HSK_VSTAT_VOUT : Fld := fld 12 0x0810 16 16 0x0
/-- HSK.VMODE.MODE [7:0] RO: VOUT_MODE as read (20_firmware_cores_map.md R592 Table 20.7). -/
def Fd.HSK_VMODE_MODE : Fld := fld 12 0x0814 0 8 0x0
/-- HSK.VINT.PIN [0] W1C: Set at each pinned event (20_firmware_cores_map.md R592 Table 20.7). -/
def Fd.HSK_VINT_PIN : Fld := fld 12 0x0818 0 1 0x0
/-- HSK.VINT.REGERR [1] W1C: Set per R592 (20_firmware_cores_map.md R592 Table 20.7). -/
def Fd.HSK_VINT_REGERR : Fld := fld 12 0x0818 1 1 0x0
/-- HSK.VINTEN.EN [1:0] RW: Bit i enables VINT bit i (20_firmware_cores_map.md R592 Table 20.7). -/
def Fd.HSK_VINTEN_EN : Fld := fld 12 0x081C 0 2 0x0
/-- HSK.VPINS.COUNT [31:0] RO: Pinned events since the start, saturating; log page 0xC7 bytes 88 to 95 accumulate it (20_firmware_cores_map.md R592 Table 20.7). -/
def Fd.HSK_VPINS_COUNT : Fld := fld 12 0x0820 0 32 0x0
/-- HSK.START.PHASE [3:0] RW: Controller phase. At the beginning of every start, hardware sets PHASE to the first phase that the start runs: 1 for kinds 0 and 2, and 4 for kind 1. It then writes each later phase up to 5 as that phase begins, and firmware writes 6 at SPN.CTL.EN. Within a start, a write lower than the value held, or above 6, is ignored (22_startup_hotplug.md R631 Table 22.6). -/
def Fd.HSK_START_PHASE : Fld := fld 12 0x0900 0 4 0x1
/-- HSK.START.KIND [5:4] RO: Kind of the present start, Table 22.1; written at the start's beginning (22_startup_hotplug.md R631 Table 22.6). -/
def Fd.HSK_START_KIND : Fld := fld 12 0x0900 4 2 0x0
/-- HSK.START.PH0 [11:8] RW: Phase of A0 to A3: 0 not begun, 7 in P7, 8 in P8, 0xF out of service or absent. Other values are ignored; reset to 0x0 at every start (22_startup_hotplug.md R631 Table 22.6). -/
def Fd.HSK_START_PH0 : Fld := fld 12 0x0900 8 4 0x0
/-- HSK.START.PH1 [15:12] RW: Phase of A0 to A3: 0 not begun, 7 in P7, 8 in P8, 0xF out of service or absent. Other values are ignored; reset to 0x0 at every start (22_startup_hotplug.md R631 Table 22.6). -/
def Fd.HSK_START_PH1 : Fld := fld 12 0x0900 12 4 0x0
/-- HSK.START.PH2 [19:16] RW: Phase of A0 to A3: 0 not begun, 7 in P7, 8 in P8, 0xF out of service or absent. Other values are ignored; reset to 0x0 at every start (22_startup_hotplug.md R631 Table 22.6). -/
def Fd.HSK_START_PH2 : Fld := fld 12 0x0900 16 4 0x0
/-- HSK.START.PH3 [23:20] RW: Phase of A0 to A3: 0 not begun, 7 in P7, 8 in P8, 0xF out of service or absent. Other values are ignored; reset to 0x0 at every start (22_startup_hotplug.md R631 Table 22.6). -/
def Fd.HSK_START_PH3 : Fld := fld 12 0x0900 20 4 0x0
/-- HSK.START.DIP [24] RSH: 1: the present start followed a VMOT dip, per R626; cleared at P1 (22_startup_hotplug.md R631 Table 22.6). -/
def Fd.HSK_START_DIP : Fld := fld 12 0x0900 24 1 0x0
/-- HSK.PLCFG.DIPREC [0] RW: 1: restart after a dip, per R626 (22_startup_hotplug.md R631 Table 22.6). -/
def Fd.HSK_PLCFG_DIPREC : Fld := fld 12 0x0904 0 1 0x1
/-- HSK.PLCFG.DIP_MS [15:8] RW: Time VMOT stands above the threshold plus 0.5 V, in ms, 1 to 255; a write of 0 stores 0x64 (22_startup_hotplug.md R631 Table 22.6). -/
def Fd.HSK_PLCFG_DIP_MS : Fld := fld 12 0x0904 8 8 0x64
/-- HSK.PLSTAT.DECL [0] RO: 1: power loss declared and no start has followed (22_startup_hotplug.md R631 Table 22.6). -/
def Fd.HSK_PLSTAT_DECL : Fld := fld 12 0x0908 0 1 0x0
/-- HSK.PLSTAT.ARMED [1] RO: 1: declaration armed, per R623 (22_startup_hotplug.md R631 Table 22.6). -/
def Fd.HSK_PLSTAT_ARMED : Fld := fld 12 0x0908 1 1 0x0
/-- HSK.PLSTAT.VOIDS [2] RO: 1: every VOID of the declaration is durable (22_startup_hotplug.md R631 Table 22.6). -/
def Fd.HSK_PLSTAT_VOIDS : Fld := fld 12 0x0908 2 1 0x0
/-- HSK.PLSTAT.PARKED [3] RO: 1: every actuator parked after the declaration (22_startup_hotplug.md R631 Table 22.6). -/
def Fd.HSK_PLSTAT_PARKED : Fld := fld 12 0x0908 3 1 0x0
/-- HSK.PLSTAT.VMOT_MIN [31:16] RO: Lowest VMOT result of housekeeping channel 10 since P1, in mV (22_startup_hotplug.md R631 Table 22.6). -/
def Fd.HSK_PLSTAT_VMOT_MIN : Fld := fld 12 0x0908 16 16 0xFFFF
/-- IRT.SRC.PRIO [2:0] RW: Priority of source s, per R586 (20_firmware_cores_map.md R589 Table 20.6). -/
def Fd.IRT_SRC_PRIO (s : Nat) : Fld := fld 5 (0x0000 + 4 * s) 0 3 0x0
/-- IRT.SRC.TARGET [6:4] RW: Target, per R588; fixed at 0x4 for s = 0x00D (20_firmware_cores_map.md R589 Table 20.6). -/
def Fd.IRT_SRC_TARGET (s : Nat) : Fld := fld 5 (0x0000 + 4 * s) 4 3 (if s = 13 then 4 else 0)
/-- IRT.SRC.PEND [8] RO: 1: pending (20_firmware_cores_map.md R589 Table 20.6). -/
def Fd.IRT_SRC_PEND (s : Nat) : Fld := fld 5 (0x0000 + 4 * s) 8 1 0x0
/-- IRT.SRC.ACTIVE [9] RO: 1: claimed and not completed (20_firmware_cores_map.md R589 Table 20.6). -/
def Fd.IRT_SRC_ACTIVE (s : Nat) : Fld := fld 5 (0x0000 + 4 * s) 9 1 0x0
/-- IRT.CLAIM.SOURCE [8:0] RW: Read claims and write completes, per R587 (20_firmware_cores_map.md R589 Table 20.6). -/
def Fd.IRT_CLAIM_SOURCE (t : Nat) : Fld := fld 5 (0x1000 + 0x10 * t) 0 9 0x0
/-- IRT.CLAIM.NONE [15] RO: 1: the read claimed nothing (20_firmware_cores_map.md R589 Table 20.6). -/
def Fd.IRT_CLAIM_NONE (t : Nat) : Fld := fld 5 (0x1000 + 0x10 * t) 15 1 0x1
/-- IRT.THRESH.THRESH [2:0] RW: Priority threshold of target t (20_firmware_cores_map.md R589 Table 20.6). -/
def Fd.IRT_THRESH_THRESH (t : Nat) : Fld := fld 5 (0x1004 + 0x10 * t) 0 3 0x0
/-- IRT.MTIME.TIME [63:0] RO: Device time, µs (20_firmware_cores_map.md R589 Table 20.6). -/
def Fd.IRT_MTIME_TIME : Fld := fld 5 0x2000 0 64 0x0
/-- IRT.MTIMECMP.CMP [63:0] RW: Timer compare of core k, 0 to 4 (20_firmware_cores_map.md R589 Table 20.6). -/
def Fd.IRT_MTIMECMP_CMP (k : Nat) : Fld := fld 5 (0x2008 + 8 * k) 0 64 0xFFFFFFFFFFFFFFFF
/-- IRT.MSIP.MSIP [0] RW: Software interrupt of core k (20_firmware_cores_map.md R589 Table 20.6). -/
def Fd.IRT_MSIP_MSIP (k : Nat) : Fld := fld 5 (0x2040 + 4 * k) 0 1 0x0
/-- IRT.FBOOT.RUN [0] RW: Per R584; written by the watch core only (20_firmware_cores_map.md R589 Table 20.6). -/
def Fd.IRT_FBOOT_RUN (k : Nat) : Fld := fld 5 (0x2080 + 8 * k) 0 1 0x0
/-- IRT.FBOOT.ENTRY [39:2] RW: Word address of core k's start; written by the watch core only (20_firmware_cores_map.md R589 Table 20.6). -/
def Fd.IRT_FBOOT_ENTRY (k : Nat) : Fld := fld 5 (0x2080 + 8 * k) 2 38 0x0
/-- EVR.CTL.PHASE [1:0] RW: 0 service, 1 start-up, 2 test; 3 stores 0x1; per R541 (18_event_recorder.md R555 Table 18.6). -/
def Fd.EVR_CTL_PHASE : Fld := fld 13 0x0000 0 2 0x1
/-- EVR.CTL.MINSEV [4:2] RW: Per R538 (18_event_recorder.md R555 Table 18.6). -/
def Fd.EVR_CTL_MINSEV : Fld := fld 13 0x0000 2 3 0x0
/-- EVR.CTL.INTSEV [7:5] RW: EVR.INT.SEV is set by each record at this severity or above (18_event_recorder.md R555 Table 18.6). -/
def Fd.EVR_CTL_INTSEV : Fld := fld 13 0x0000 5 3 0x6
/-- EVR.STATUS.COUNT [13:0] RO: Ordinary records present (18_event_recorder.md R555 Table 18.6). -/
def Fd.EVR_STATUS_COUNT : Fld := fld 13 0x0008 0 14 0x0
/-- EVR.STATUS.FULL [14] RO: 1: the log is full (18_event_recorder.md R555 Table 18.6). -/
def Fd.EVR_STATUS_FULL : Fld := fld 13 0x0008 14 1 0x0
/-- EVR.STATUS.RESTORE [15] RO: 1: the rebuild of R551 is under way (18_event_recorder.md R555 Table 18.6). -/
def Fd.EVR_STATUS_RESTORE : Fld := fld 13 0x0008 15 1 0x1
/-- EVR.SEQ.NEXT [31:0] RO: SEQ to be assigned next (18_event_recorder.md R555 Table 18.6). -/
def Fd.EVR_SEQ_NEXT : Fld := fld 13 0x000C 0 32 0x1
/-- EVR.RATE.LIMIT [7:0] RW: Records per code per window, 1 to 255; a write of 0 stores 0x08 (18_event_recorder.md R555 Table 18.6). -/
def Fd.EVR_RATE_LIMIT : Fld := fld 13 0x0010 0 8 0x08
/-- EVR.RING.ADDR [39:0] RO: Address of slot 0 in platform memory; set at P1 (18_event_recorder.md R555 Table 18.6). -/
def Fd.EVR_RING_ADDR : Fld := fld 13 0x0018 0 40 0x0
/-- EVR.CLR.GO [0] WO: Per R553 (18_event_recorder.md R555 Table 18.6). -/
def Fd.EVR_CLR_GO : Fld := fld 13 0x0020 0 1 0x0
/-- EVR.CLR.AUTH [1] RO: Set by the trust unit only (18_event_recorder.md R555 Table 18.6). -/
def Fd.EVR_CLR_AUTH : Fld := fld 13 0x0020 1 1 0x0
/-- EVR.INT.FULL [0] W1C: Set when the FULL record is first written (18_event_recorder.md R555 Table 18.6). -/
def Fd.EVR_INT_FULL : Fld := fld 13 0x0028 0 1 0x0
/-- EVR.INT.SEV [1] W1C: Per CTL.INTSEV (18_event_recorder.md R555 Table 18.6). -/
def Fd.EVR_INT_SEV : Fld := fld 13 0x0028 1 1 0x0
/-- EVR.INT.CLEARED [2] W1C: Per R554 (18_event_recorder.md R555 Table 18.6). -/
def Fd.EVR_INT_CLEARED : Fld := fld 13 0x0028 2 1 0x0
/-- EVR.INT.CLRREF [3] W1C: Per R553 (18_event_recorder.md R555 Table 18.6). -/
def Fd.EVR_INT_CLRREF : Fld := fld 13 0x0028 3 1 0x0
/-- EVR.INT.FLASHERR [4] W1C: Per R550 (18_event_recorder.md R555 Table 18.6). -/
def Fd.EVR_INT_FLASHERR : Fld := fld 13 0x0028 4 1 0x0
/-- EVR.INT.RAISEREF [5] W1C: Per R548 (18_event_recorder.md R555 Table 18.6). -/
def Fd.EVR_INT_RAISEREF : Fld := fld 13 0x0028 5 1 0x0
/-- EVR.INTEN.EN [5:0] RW: Bit i enables INT bit i (18_event_recorder.md R555 Table 18.6). -/
def Fd.EVR_INTEN_EN : Fld := fld 13 0x002C 0 6 0x0
/-- EVR.EVF.GO [0] WO: Per R549; writes from any requester but core k are ignored (18_event_recorder.md R555 Table 18.6). -/
def Fd.EVR_EVF_GO (k : Nat) : Fld := fld 13 (0x0040 + 4 * k) 0 1 0x0
/-- EVR.EVF.DONE [1] RO: Per R549 (18_event_recorder.md R555 Table 18.6). -/
def Fd.EVR_EVF_DONE (k : Nat) : Fld := fld 13 (0x0040 + 4 * k) 1 1 0x1
/-- EVR.RAISE.CODE [15:0] WO: Per R548 (18_event_recorder.md R555 Table 18.6). -/
def Fd.EVR_RAISE_CODE (k : Nat) : Fld := fld 13 (0x0100 + 0x10 * k) 0 16 0x0
/-- EVR.RAISE.SEV [18:16] WO: Severity of the record (18_event_recorder.md R555 Table 18.6). -/
def Fd.EVR_RAISE_SEV (k : Nat) : Fld := fld 13 (0x0100 + 0x10 * k) 16 3 0x0
/-- EVR.RAISE.GO [19] WO: Writing 1 raises the record (18_event_recorder.md R555 Table 18.6). -/
def Fd.EVR_RAISE_GO (k : Nat) : Fld := fld 13 (0x0100 + 0x10 * k) 19 1 0x0
/-- EVR.RAISE.BUSY [20] RO: 1: the last raise is not yet accepted (18_event_recorder.md R555 Table 18.6). -/
def Fd.EVR_RAISE_BUSY (k : Nat) : Fld := fld 13 (0x0100 + 0x10 * k) 20 1 0x0
/-- EVR.RAISEP.PARAM [31:0] RW: PARAM bytes 0 to 11 (18_event_recorder.md R555 Table 18.6). -/
def Fd.EVR_RAISEP_PARAM (k : Nat) (i : Nat) : Fld := fld 13 (0x0104 + 0x10 * k + 4 * i) 0 32 0x0
/-- CFX.CTL.EN [0] RW: 1: the ports train and serve (19_confluence.md R577 Table 19.7). -/
def Fd.CFX_CTL_EN : Fld := fld 3 0x0000 0 1 0x0
/-- CFX.CTL.RELAY [1] RW: 1: this member relays under R559 (19_confluence.md R577 Table 19.7). -/
def Fd.CFX_CTL_RELAY : Fld := fld 3 0x0000 1 1 0x1
/-- CFX.STATUS.POS [1:0] RO: CFX_POS; loaded at P1 (19_confluence.md R577 Table 19.7). -/
def Fd.CFX_STATUS_POS : Fld := fld 3 0x0008 0 2 0x0
/-- CFX.STATUS.SIZE [3:2] RO: CFX_SIZE; loaded at P1 (19_confluence.md R577 Table 19.7). -/
def Fd.CFX_STATUS_SIZE : Fld := fld 3 0x0008 2 2 0x0
/-- CFX.STATUS.GID [7:4] RO: CFX_GID; loaded at P1 (19_confluence.md R577 Table 19.7). -/
def Fd.CFX_STATUS_GID : Fld := fld 3 0x0008 4 4 0x0
/-- CFX.STATUS.MOUTH [8] RO: CFX_MOUTH; loaded at P1 (19_confluence.md R577 Table 19.7). -/
def Fd.CFX_STATUS_MOUTH : Fld := fld 3 0x0008 8 1 0x0
/-- CFX.STATUS.LEAD [10:9] RO: Lead position, valid while HASLEAD is 1 (19_confluence.md R577 Table 19.7). -/
def Fd.CFX_STATUS_LEAD : Fld := fld 3 0x0008 9 2 0x0
/-- CFX.STATUS.HASLEAD [11] RO: 1: a lead is reached (19_confluence.md R577 Table 19.7). -/
def Fd.CFX_STATUS_HASLEAD : Fld := fld 3 0x0008 11 1 0x0
/-- CFX.STATUS.ISLEAD [12] RO: 1: this member is lead (19_confluence.md R577 Table 19.7). -/
def Fd.CFX_STATUS_ISLEAD : Fld := fld 3 0x0008 12 1 0x0
/-- CFX.STATUS.CUTOFF [13] RO: 1: cut off under R561 (19_confluence.md R577 Table 19.7). -/
def Fd.CFX_STATUS_CUTOFF : Fld := fld 3 0x0008 13 1 0x0
/-- CFX.PEERS.PRESENT [3:0] RO: Bit p: p heard within 5 ms (19_confluence.md R577 Table 19.7). -/
def Fd.CFX_PEERS_PRESENT : Fld := fld 3 0x0010 0 4 0x0
/-- CFX.PEERS.LOST [7:4] RO: Bit 4 + p: p lost (19_confluence.md R577 Table 19.7). -/
def Fd.CFX_PEERS_LOST : Fld := fld 3 0x0010 4 4 0x0
/-- CFX.PEERS.RELAYED [11:8] RO: Bit 8 + p: p reached through a relay (19_confluence.md R577 Table 19.7). -/
def Fd.CFX_PEERS_RELAYED : Fld := fld 3 0x0010 8 4 0x0
/-- CFX.LINK.UP [0] RO: 1: port k's link is up (19_confluence.md R577 Table 19.7). -/
def Fd.CFX_LINK_UP (k : Nat) : Fld := fld 3 (0x0018 + 4 * k) 0 1 0x0
/-- CFX.LINK.PEER [2:1] RO: Position at the far end (19_confluence.md R577 Table 19.7). -/
def Fd.CFX_LINK_PEER (k : Nat) : Fld := fld 3 (0x0018 + 4 * k) 1 2 0x0
/-- CFX.LINK.MISMATCH [3] RO: 1: refused under R558 (19_confluence.md R577 Table 19.7). -/
def Fd.CFX_LINK_MISMATCH (k : Nat) : Fld := fld 3 (0x0018 + 4 * k) 3 1 0x0
/-- CFX.VERSION.VER [63:0] RO: VERSION of the admin state held (19_confluence.md R577 Table 19.7). -/
def Fd.CFX_VERSION_VER : Fld := fld 3 0x0028 0 64 0x0
/-- CFX.FENCE.MASK [3:0] WO: Peers named, bit p (19_confluence.md R577 Table 19.7). -/
def Fd.CFX_FENCE_MASK : Fld := fld 3 0x0030 0 4 0x0
/-- CFX.FENCE.GO [4] WO: Writing 1 issues the fence, per R571; ignored while DONE is 0 (19_confluence.md R577 Table 19.7). -/
def Fd.CFX_FENCE_GO : Fld := fld 3 0x0030 4 1 0x0
/-- CFX.FENCE.DONE [5] RO: Per R571 (19_confluence.md R577 Table 19.7). -/
def Fd.CFX_FENCE_DONE : Fld := fld 3 0x0030 5 1 0x1
/-- CFX.FENCE.FAILED [6] RO: Per R571; cleared by GO (19_confluence.md R577 Table 19.7). -/
def Fd.CFX_FENCE_FAILED : Fld := fld 3 0x0030 6 1 0x0
/-- CFX.TOKEN.COUNT [1:0] RW: Tokens granted by the lead, 1 or 2; other values store 0x1 (19_confluence.md R577 Table 19.7). -/
def Fd.CFX_TOKEN_COUNT : Fld := fld 3 0x0034 0 2 0x1
/-- CFX.TOKEN.WAIT_S [7:2] RW: Solo stagger of R575 in s (19_confluence.md R577 Table 19.7). -/
def Fd.CFX_TOKEN_WAIT_S : Fld := fld 3 0x0034 2 6 0x06
/-- CFX.TOKEN.HELD [8] RO: 1: this member holds a token (19_confluence.md R577 Table 19.7). -/
def Fd.CFX_TOKEN_HELD : Fld := fld 3 0x0034 8 1 0x0
/-- CFX.TOKEN.SOLO [9] RO: 1: the token was taken under R575 without a lead (19_confluence.md R577 Table 19.7). -/
def Fd.CFX_TOKEN_SOLO : Fld := fld 3 0x0034 9 1 0x0
/-- CFX.FWDRES.CTX [14:0] RW: Contexts reserved per peer, 256 to 16,384; other values store 0x1000 (19_confluence.md R577 Table 19.7). -/
def Fd.CFX_FWDRES_CTX : Fld := fld 3 0x0038 0 15 0x1000
/-- CFX.INT.PEERLOST [0] W1C: Set per R572 (19_confluence.md R577 Table 19.7). -/
def Fd.CFX_INT_PEERLOST : Fld := fld 3 0x0040 0 1 0x0
/-- CFX.INT.PEERBACK [1] W1C: Set per R573 (19_confluence.md R577 Table 19.7). -/
def Fd.CFX_INT_PEERBACK : Fld := fld 3 0x0040 1 1 0x0
/-- CFX.INT.LINKDN [2] W1C: Set when any link goes down (19_confluence.md R577 Table 19.7). -/
def Fd.CFX_INT_LINKDN : Fld := fld 3 0x0040 2 1 0x0
/-- CFX.INT.MISMATCH [3] W1C: Set per R558 (19_confluence.md R577 Table 19.7). -/
def Fd.CFX_INT_MISMATCH : Fld := fld 3 0x0040 3 1 0x0
/-- CFX.INT.LEADCHG [4] W1C: Set when the lead position changes (19_confluence.md R577 Table 19.7). -/
def Fd.CFX_INT_LEADCHG : Fld := fld 3 0x0040 4 1 0x0
/-- CFX.INT.CUTOFF [5] W1C: Set when STATUS.CUTOFF rises (19_confluence.md R577 Table 19.7). -/
def Fd.CFX_INT_CUTOFF : Fld := fld 3 0x0040 5 1 0x0
/-- CFX.INTEN.EN [5:0] RW: Bit i enables INT bit i (19_confluence.md R577 Table 19.7). -/
def Fd.CFX_INTEN_EN : Fld := fld 3 0x0044 0 6 0x0
/-- CFX.CNT0.LOSSES [15:0] RC: Peers lost; messages discarded under Table 19.4; saturating at 0xFFFF (19_confluence.md R577 Table 19.7). -/
def Fd.CFX_CNT0_LOSSES : Fld := fld 3 0x0048 0 16 0x0
/-- CFX.CNT0.BADTYPE [31:16] RC: Peers lost; messages discarded under Table 19.4; saturating at 0xFFFF (19_confluence.md R577 Table 19.7). -/
def Fd.CFX_CNT0_BADTYPE : Fld := fld 3 0x0048 16 16 0x0
/-- CFX.CNT1.FWD [31:0] RC: FWDs sent, saturating at 0xFFFF_FFFF (19_confluence.md R577 Table 19.7). -/
def Fd.CFX_CNT1_FWD : Fld := fld 3 0x004C 0 32 0x0
/-- TRU.STATUS.IRFUSED [0] RO: 1: integrator root fused; loaded at P1 (21_trust.md R608 Table 21.4). -/
def Fd.TRU_STATUS_IRFUSED : Fld := fld 11 0x0000 0 1 0x0
/-- TRU.STATUS.SESSION [1] RO: 1: an authenticated session is open, per R604 (21_trust.md R608 Table 21.4). -/
def Fd.TRU_STATUS_SESSION : Fld := fld 11 0x0000 1 1 0x0
/-- TRU.STATUS.TAMPER [2] RSH: Per R595 (21_trust.md R608 Table 21.4). -/
def Fd.TRU_STATUS_TAMPER : Fld := fld 11 0x0000 2 1 0x0
/-- TRU.STATUS.GKCUT [3] RO: Per R606; cleared by the next GENKEY (21_trust.md R608 Table 21.4). -/
def Fd.TRU_STATUS_GKCUT : Fld := fld 11 0x0000 3 1 0x0
/-- TRU.IROOT.HASH [31:0] RW: Word i of 12 of the integrator root; writable once, per R594 (21_trust.md R608 Table 21.4). -/
def Fd.TRU_IROOT_HASH (i : Nat) : Fld := fld 11 (0x0010 + 4 * i) 0 32 0x0
/-- TRU.IRCOMMIT.COMMIT [0] WO: Writing 1 fuses IROOT0 to IROOT11 (21_trust.md R608 Table 21.4). -/
def Fd.TRU_IRCOMMIT_COMMIT : Fld := fld 11 0x0040 0 1 0x0
/-- TRU.NONCE.NONCE [63:0] RO: Nonce bytes 0 to 7 and 8 to 15; a read of NONCE0 makes a new nonce, per R607 (21_trust.md R608 Table 21.4). -/
def Fd.TRU_NONCE_NONCE (i : Nat) : Fld := fld 11 (0x0048 + 8 * i) 0 64 0x0
/-- TRU.AUTHREQ.GO [0] WO: Writing 1 starts a request (21_trust.md R608 Table 21.4). -/
def Fd.TRU_AUTHREQ_GO : Fld := fld 11 0x0058 0 1 0x0
/-- TRU.AUTHREQ.KIND [1] RW: 0 Admin session, 1 token (21_trust.md R608 Table 21.4). -/
def Fd.TRU_AUTHREQ_KIND : Fld := fld 11 0x0058 1 1 0x0
/-- TRU.AUTHREQ.DONE [2] RO: 1: no request outstanding (21_trust.md R608 Table 21.4). -/
def Fd.TRU_AUTHREQ_DONE : Fld := fld 11 0x0058 2 1 0x1
/-- TRU.AUTHREQ.OK [3] RO: 1: the last request set EVR.CLR.AUTH (21_trust.md R608 Table 21.4). -/
def Fd.TRU_AUTHREQ_OK : Fld := fld 11 0x0058 3 1 0x0
/-- TRU.ARB.ADVFW [0] WO: Per R596 (21_trust.md R608 Table 21.4). -/
def Fd.TRU_ARB_ADVFW : Fld := fld 11 0x0060 0 1 0x0
/-- TRU.ARB.ADVUC [1] WO: Per R596 (21_trust.md R608 Table 21.4). -/
def Fd.TRU_ARB_ADVUC : Fld := fld 11 0x0060 1 1 0x0
/-- TRU.ARB.FWUSED [15:8] RO: Firmware fuses blown, 0 to 128 (21_trust.md R608 Table 21.4). -/
def Fd.TRU_ARB_FWUSED : Fld := fld 11 0x0060 8 8 0x0
/-- TRU.ARB.UCUSED [23:16] RO: Microcode fuses blown, 0 to 128 (21_trust.md R608 Table 21.4). -/
def Fd.TRU_ARB_UCUSED : Fld := fld 11 0x0060 16 8 0x0
/-- TRU.ARBV.VALUE [63:0] RO: Counters, per R595 (21_trust.md R608 Table 21.4). -/
def Fd.TRU_ARBV_VALUE (i : Nat) : Fld := fld 11 (0x0068 + 8 * i) 0 64 0x0
/-- TRU.BOOTSEL.SLOT [0] RW: Slot tried first at the next start: 0 A, 1 B; kept in the counter ring (21_trust.md R608 Table 21.4). -/
def Fd.TRU_BOOTSEL_SLOT : Fld := fld 11 0x0078 0 1 0x0
/-- TRU.BOOTSEL.RUNNING [1] RO: Slot accepted at this start (21_trust.md R608 Table 21.4). -/
def Fd.TRU_BOOTSEL_RUNNING : Fld := fld 11 0x0078 1 1 0x0
/-- TRU.BOOTSEL.FALLBACK [2] RO: Per R598 (21_trust.md R608 Table 21.4). -/
def Fd.TRU_BOOTSEL_FALLBACK : Fld := fld 11 0x0078 2 1 0x0
/-- TRU.INT.DENY [0] W1C: Per R594, R601 and R604 (21_trust.md R608 Table 21.4). -/
def Fd.TRU_INT_DENY : Fld := fld 11 0x0080 0 1 0x0
/-- TRU.INT.ARBFULL [1] W1C: Per R596 (21_trust.md R608 Table 21.4). -/
def Fd.TRU_INT_ARBFULL : Fld := fld 11 0x0080 1 1 0x0
/-- TRU.INT.GENKEY [2] W1C: Per R606 (21_trust.md R608 Table 21.4). -/
def Fd.TRU_INT_GENKEY : Fld := fld 11 0x0080 2 1 0x0
/-- TRU.INTEN.EN [2:0] RW: Bit i enables INT bit i (21_trust.md R608 Table 21.4). -/
def Fd.TRU_INTEN_EN : Fld := fld 11 0x0084 0 3 0x0
/-- TRU.TOKEN.SIG [31:0] WO: Word i of 49 of the token: bytes 0 to 95 the signature, bytes 96 to 192 the public key, bytes 193 to 195 zero (21_trust.md R608 Table 21.4). -/
def Fd.TRU_TOKEN_SIG (i : Nat) : Fld := fld 11 (0x0100 + 4 * i) 0 32 0x0
/-- TRU.RANGE_CFG.DEFINED [0] RW: 1: range r, 1 to 64, is defined; fixed at 1 for r = 0 (21_trust.md R608 Table 21.4). -/
def Fd.TRU_RANGE_CFG_DEFINED (r : Nat) : Fld := fld 11 (0x1000 + 0x20 * r) 0 1 0x0
/-- TRU.RANGE_CFG.RLCK [1] RW: Read locked, per R603 and R604 (21_trust.md R608 Table 21.4). -/
def Fd.TRU_RANGE_CFG_RLCK (r : Nat) : Fld := fld 11 (0x1000 + 0x20 * r) 1 1 0x0
/-- TRU.RANGE_CFG.WLCK [2] RW: Write locked (21_trust.md R608 Table 21.4). -/
def Fd.TRU_RANGE_CFG_WLCK (r : Nat) : Fld := fld 11 (0x1000 + 0x20 * r) 2 1 0x0
/-- TRU.RANGE_CFG.KEYOK [3] RO: 1: key loaded in the cipher (21_trust.md R608 Table 21.4). -/
def Fd.TRU_RANGE_CFG_KEYOK (r : Nat) : Fld := fld 11 (0x1000 + 0x20 * r) 3 1 0x0
/-- TRU.RANGE_CFG.NS [6:4] RW: Local namespace 1 to 5; ignored for r = 0 (21_trust.md R608 Table 21.4). -/
def Fd.TRU_RANGE_CFG_NS (r : Nat) : Fld := fld 11 (0x1000 + 0x20 * r) 4 3 0x0
/-- TRU.RANGE_CFG.GENKEY [8] WO: Per R606 (21_trust.md R608 Table 21.4). -/
def Fd.TRU_RANGE_CFG_GENKEY (r : Nat) : Fld := fld 11 (0x1000 + 0x20 * r) 8 1 0x0
/-- TRU.RANGE_START.LBA [63:0] RW: First block; ignored for r = 0 (21_trust.md R608 Table 21.4). -/
def Fd.TRU_RANGE_START_LBA (r : Nat) : Fld := fld 11 (0x1008 + 0x20 * r) 0 64 0x0
/-- TRU.RANGE_LEN.BLOCKS [63:0] RW: Blocks; ignored for r = 0 (21_trust.md R608 Table 21.4). -/
def Fd.TRU_RANGE_LEN_BLOCKS (r : Nat) : Fld := fld 11 (0x1010 + 0x20 * r) 0 64 0x0
/-- TRU.RANGE_GEN.GEN [31:0] RO: GEN of the current key record (21_trust.md R608 Table 21.4). -/
def Fd.TRU_RANGE_GEN_GEN (r : Nat) : Fld := fld 11 (0x1018 + 0x20 * r) 0 32 0x0
/-- SLOT_ID.INST [7:0] RO of management slot k of window w: Instance number within the type: actuator, port, core or head index; the head field counts A0·H0 as 0x00 through A3·H7 as 0x1F. The value is loaded from a hardwired constant at P1 (01_two_hierarchies.md R28 Table 01.5). -/
def Fd.SLOT_ID_INST (w k : Nat) : Fld := fld w (0xFFE0 - 0x20 * k) 0 8 0x0
/-- SLOT_ID.LEVEL [10:8] RO of management slot k of window w: Flow level: 0 Port, 1 Intake, 2 Stage, 3 Zone, 4 Reach, 5 Channel, 6 Head; loaded at P1 (01_two_hierarchies.md R28 Table 01.5). -/
def Fd.SLOT_ID_LEVEL (w k : Nat) : Fld := fld w (0xFFE0 - 0x20 * k) 8 3 0x0
/-- SLOT_ID.DOMAIN [14:12] RO of management slot k of window w: Watch domain: 0 Motion, 1 Media, 2 Memory, 3 Host, 4 Platform; loaded at P1 (01_two_hierarchies.md R28 Table 01.5). -/
def Fd.SLOT_ID_DOMAIN (w k : Nat) : Fld := fld w (0xFFE0 - 0x20 * k) 12 3 0x0
/-- SLOT_ID.TYPE [23:16] RO of management slot k of window w: Unit type code from Table 01.4; loaded at P1 (01_two_hierarchies.md R28 Table 01.5). -/
def Fd.SLOT_ID_TYPE (w k : Nat) : Fld := fld w (0xFFE0 - 0x20 * k) 16 8 0x0
/-- SLOT_STATE.STATE [2:0] RO of management slot k of window w: 0 off, 1 starting, 2 serving, 3 quiescing, 4 quiet, 5 resetting, 6 degraded, 7 failed (01_two_hierarchies.md R28 Table 01.6). -/
def Fd.SLOT_STATE_STATE (w k : Nat) : Fld := fld w (0xFFE0 - 0x20 * k + 0x4) 0 3 0x1
/-- SLOT_STATE.EXPIRES [11:8] RO of management slot k of window w: Number of unit-timeout expiries in the current 10 s window, saturating at 0xF (01_two_hierarchies.md R28 Table 01.6). -/
def Fd.SLOT_STATE_EXPIRES (w k : Nat) : Fld := fld w (0xFFE0 - 0x20 * k + 0x4) 8 4 0x0
/-- SLOT_STATE.GEN [31:16] RO of management slot k of window w: Reset generation; increments by 1 at the end of each unit reset and wraps at 0xFFFF (01_two_hierarchies.md R28 Table 01.6). -/
def Fd.SLOT_STATE_GEN (w k : Nat) : Fld := fld w (0xFFE0 - 0x20 * k + 0x4) 16 16 0x0
/-- SLOT_LIMIT.ELEM_US [7:0] RW of management slot k of window w: Element timeout in µs, from 1 to 50; a write of 0 or above 0x32 stores 0x32 (01_two_hierarchies.md R28 Table 01.7). -/
def Fd.SLOT_LIMIT_ELEM_US (w k : Nat) : Fld := fld w (0xFFE0 - 0x20 * k + 0x8) 0 8 0x32
/-- SLOT_LIMIT.UNIT_10US [27:16] RW of management slot k of window w: Unit timeout in units of 10 µs, from 1 to 200; a write of 0 or above 0xC8 stores 0xC8 (01_two_hierarchies.md R28 Table 01.7). -/
def Fd.SLOT_LIMIT_UNIT_10US (w k : Nat) : Fld := fld w (0xFFE0 - 0x20 * k + 0x8) 16 12 0xC8
/-- SLOT_CTL.QUIESCE [0] RW of management slot k of window w: 1: the unit accepts no new work and drains to its next commit point, then STATE reads quiet. 0: the unit resumes serving (01_two_hierarchies.md R28 Table 01.8). -/
def Fd.SLOT_CTL_QUIESCE (w k : Nat) : Fld := fld w (0xFFE0 - 0x20 * k + 0xc) 0 1 0x0
/-- SLOT_CTL.RESET [1] WO of management slot k of window w: Writing 1 resets the unit and restarts it from its last commit point (01_two_hierarchies.md R28 Table 01.8). -/
def Fd.SLOT_CTL_RESET (w k : Nat) : Fld := fld w (0xFFE0 - 0x20 * k + 0xc) 1 1 0x0
/-- SLOT_CTL.DEGRADE [2] RW of management slot k of window w: 1: the unit runs in its degraded service, as its own chapter defines it, and STATE reads degraded, per R652. 0: the unit returns to serving, unless its own chapter holds it degraded (01_two_hierarchies.md R28 Table 01.8). -/
def Fd.SLOT_CTL_DEGRADE (w k : Nat) : Fld := fld w (0xFFE0 - 0x20 * k + 0xc) 2 1 0x0
/-- SLOT_FAULT.FAULT [0] W1C of management slot k of window w: Set by hardware when the unit reports a fault or an element timeout expires (01_two_hierarchies.md R28 Table 01.9). -/
def Fd.SLOT_FAULT_FAULT (w k : Nat) : Fld := fld w (0xFFE0 - 0x20 * k + 0x10) 0 1 0x0
/-- SLOT_FAULT.CODE [31:16] RO of management slot k of window w: Event code of the most recent fault; keeps its value when FAULT is cleared (01_two_hierarchies.md R28 Table 01.9). -/
def Fd.SLOT_FAULT_CODE (w k : Nat) : Fld := fld w (0xFFE0 - 0x20 * k + 0x10) 16 16 0x0
/-- SLOT_PROGRESS.COUNT [31:0] RO of management slot k of window w: Completed handshakes at the unit's boundary; wraps at 0xFFFF_FFFF. The unit manager treats a count that does not change across a unit timeout, while work is queued, as an expiry (01_two_hierarchies.md R28 Table 01.10). -/
def Fd.SLOT_PROGRESS_COUNT (w k : Nat) : Fld := fld w (0xFFE0 - 0x20 * k + 0x14) 0 32 0x0

end Sys2Proof.Machine
end

