-- ==== Sys2Proof/Machine/State.lean ====
section
/-! DEFINITION. The state of the block as plain data: the register file, memory, the medium and everything the spec gives a unit beside its
registers, the queue of waiting commands, the reasons a step can stop, and the state after reset. -/

namespace Sys2Proof.Machine

/-- What an access was answered with: a bus error or not, and the value read (0 for a write). -/
structure Answer where
  busError : Bool
  value : Nat
deriving DecidableEq, Repr

/-! ### Reach engines (03, 07, 08) -/

/-- One entry of a buffer chain (Table 03.4), as it was appended; ADDCN is no part of it. -/
structure ChainEntry where
  ctx : Nat
  sect : Nat
  count : Nat
  ap : Bool
deriving DecidableEq, Repr

/-- The state of a program slot (Table 03.2): PC, registers, track position, count, status code, syndrome weight, entries in its failure
list, flags, return stack (newest first), buffer chain (head first), BP's SECT and REM, and reader offset (R83 to R89). -/
structure Arch where
  pc : Nat
  w : Vector (BitVec 64) 16
  tp : BitVec 64
  cn : BitVec 64
  code : Nat
  sw : Nat
  nfails : Nat
  z : Bool
  n : Bool
  c : Bool
  syn : Bool
  dec : Bool
  rbk : Bool
  fen : Bool
  idx : Bool
  stack : List Nat
  chain : List ChainEntry
  bpSect : Nat
  bpRem : Nat
  offset : BitVec 11
deriving DecidableEq, Repr

/-- The state of a slot that START has just cleared. -/
def Arch.fresh : Arch :=
  ⟨0, Vector.replicate 16 0, 0, 0, 0, 0, 0, false, false, false, false, false, false, false, false, [], [], 0, 0, 0⟩

/-- RCH.SLOT_STATEn.STATE (Table 03.20). -/
inductive SlotSt where
  | idle | ready | running | yielding | stopped | halted | trapped | faulted
deriving DecidableEq, Repr

/-- The media instructions of R113. -/
inductive MediaKind where
  | rds | wrs | vfy | scan | raw
deriving DecidableEq, Repr

/-- A media instruction in progress: its operands, the area it stores to, the position of the next slot to start, the slots it has still
to start, the index of the next SCAN or RAW slot, the reference zone of SCAN, whether it stands on its target, the code it is stopping
with, whether the one extra pass of R121 is spent, the passes on which the next slot was unsampled, whether it has made a
failure-list entry, its first slot, and under TPR the sectors decoded, each with its success, and the slots of their groups that lie beyond
its range and are still to be decoded (R165). -/
structure Media where
  kind : MediaKind
  eqs : Nat
  wgt : Nat
  avg : Nat
  deep : Bool
  tpr : Bool
  nox : Bool
  cont : Bool
  cmpb : Bool
  wth : Nat
  stop : Nat
  base : Nat
  next : Nat
  left : Nat
  k : Nat
  ref : Option Nat
  positioned : Bool
  ending : Option Nat
  waited : Bool
  passes : Nat
  failed : Bool
  first : Nat
  seen : List (Nat × Bool)
  extra : List Nat
deriving DecidableEq, Repr

/-- The timeout of a WAIT or JOIN (R103): its unit, its count, what has been counted of it, and the device time at which it began. -/
structure Timeout where
  unit : Fin 4
  count : Nat
  done : Nat
  since : Nat
deriving DecidableEq, Repr

/-- The instruction a slot is inside of: a wait of R92, a motion (R109 to R112), an arm-link write, SKIPTO or a media instruction. -/
inductive Op where
  | wait (cond : Fin 16) (t : Timeout)
  | join (mask : BitVec 8) (t : Timeout)
  | fence (media data arm : Bool)
  | post (w : BitVec 64)
  | seek
  | follow
  | settle (set : Fin 4)
  | head
  | arm
  | skipto
  | media (m : Media)
deriving DecidableEq, Repr

/-- The microroutine that a slot is in (08): the microaddress it executes next, none where the engine would enter it by decode; the PC it belongs to;
IR; those of the temporaries U0 to U7 that it has written, by number; the micro flags; and the device time since which the word at its
microaddress has held, or waited for its unit (R271, R272, R277). -/
structure Micro where
  next : Option Nat
  pc : Nat
  ir : Nat
  temps : List (Nat × BitVec 64)
  uz : Bool
  un : Bool
  uc : Bool
  since : Option Nat
deriving DecidableEq, Repr

/-- No microroutine under way. -/
def Micro.idle : Micro := ⟨none, 0, 0, [], false, false, false, none⟩

/-- A program slot: its state, STATE, the code of its last trap, the instruction in progress, a STOP that waits for the preemption point,
an interrupt that waits for its restart, the Sluice channels it has started and not fenced, its sector transfers
outstanding, whether one of those or an arm-link write failed (R130), whether the chain's head entry, now and in the last record, has had an entry made in
the failure list (R254), a kill that follows its stop (R262, R263), whether the media instruction at its PC has made an entry in the failure
list, an interrupt in between notwithstanding (R97, R116), the Weir writes that a FENCE waits for, once its SYNC has been issued (R130,
R416), and the microroutine it is in. -/
structure Slot where
  arch : Arch
  st : SlotSt
  trap : Nat
  op : Option Op
  stopReq : Bool
  intr : Bool
  sluChans : List Nat
  xfers : Nat
  sluFail : Bool
  armFail : Bool
  headFail : Bool
  recFail : Bool
  killReq : Bool
  madeEntry : Bool
  sync : Option (List Nat)
  micro : Micro
deriving DecidableEq, Repr

/-- A slot after power-on reset: idle (R267). -/
def Slot.reset : Slot :=
  ⟨Arch.fresh, .idle, 0, none, false, false, [], 0, false, false, false, false, false, false, none, Micro.idle⟩

/-- One physical sector as written: user data and metadata as recorded, the trailer of Table 02.7, whether it is a parity sector, whether
its codeword is whole (a sector cut by a stop is not), whether it has committed (R96), and the trailer's FORMAT byte. -/
structure Sector where
  data : Nat
  md : Nat
  zone : Nat
  seq : Nat
  keyrange : Nat
  conv : Bool
  parity : Bool
  whole : Bool
  committed : Bool
  format : Nat
deriving DecidableEq, Repr

/-- An arm's medium (02): the sectors recorded, by TP bits [37:0], and the shingled bands that a write has left unreadable in part, each by
the track position of its first slot with the first track of the band that no longer reads where nothing has been recorded since (R60). -/
structure Medium where
  sectors : List (Nat × Sector)
  cut : List (Nat × Nat)
deriving DecidableEq, Repr

/-- A span that a thermal asperity erases on a reader, RB or RA, in bits of the slot: its first bit and the bit after its last (R158). -/
structure TaSpan where
  rb : Bool
  lo : Int
  hi : Int
deriving DecidableEq, Repr

/-- How far the reading of a sector has come: inline attempts, averaging in the sample store, the deep decoder, track-parity
reconstruction, or a final result: read, by the deep decoder or not, or failed with WHY (R116, R150). -/
inductive ReadPhase where
  | inline | averaging | deep | parity | good (deep : Bool) | bad (why : Nat)
deriving DecidableEq, Repr

/-- A sector begun by a media instruction and not yet committed: the slot of the engine, its TP bits [37:0], the instruction, parity or
data, its zone (none for a conventional or parity sector), the sector itself, whether its writing has ended, how far its reading has
come, the inline attempts made, whether an attempt converged and failed R71, whether its mark was found, the framing of its first pass,
its syndrome weight, passes on which it was unsampled, the spans erased in it, the fresh decodes left to it for want of a store entry (R161), the
position of TP after its commit (R85), whether its last decode failed the CRC or FORMAT checks (R125), whether it is decoded for the sake
of its group alone (R165), and what the readers delivered over it on this pass. -/
structure Begun where
  slot : Fin 4
  tp : Nat
  kind : MediaKind
  parity : Bool
  zone : Option Nat
  sector : Sector
  written : Bool
  phase : ReadPhase
  attempts : Nat
  badR71 : Bool
  found : Bool
  frame : Int
  weight : Nat
  passes : Nat
  spans : List TaSpan
  again : Nat
  nx : Nat
  crcBad : Bool
  extra : Bool
  raw : Option Signal
deriving DecidableEq, Repr

/-- A Reach engine: its four slots, the sectors begun, the microcode patch words, the strike counts of R282 with the hour window they
belong to, whether a quiesce is under way (R264), what its private ports were last given, by 1,024 times the unit and the register, and the
request that each handshake microword last made of its unit, by OP (R272). -/
structure Reach where
  slots : Four Slot
  begun : List Begun
  patch : List Nat
  strikes : List (Nat × Nat)
  strikeWin : Nat
  quiesce : Bool
  ports : List (Nat × BitVec 64)
  asked : List (Nat × BitVec 64)
deriving DecidableEq, Repr

/-- An engine after power-on reset. -/
def Reach.reset : Reach := ⟨Four.all Slot.reset, [], [], [], 0, false, [], []⟩

/-! ### The channel, the write path and the arm link (02, 04, 05) -/

/-- A pending entry of the sample store (Table 04.3): its number, the slot that reads it, TP, passes summed, framing offset of the first
pass, lowest syndrome weight, and whether its SUM is that of samples the model was given. -/
structure StoreEntry where
  e : Nat
  slot : Fin 4
  tp : Nat
  reads : Nat
  frame : Int
  sw : Nat
  known : Bool
deriving DecidableEq, Repr

/-- One sector in the channel's write buffer: context, sector buffer index, data and metadata (R121). -/
structure WBuf where
  ctx : Nat
  sect : Nat
  data : Nat
  md : Nat
deriving DecidableEq, Repr

/-- What the assist element of the armed head does (Table 05.2). -/
inductive Assist where
  | off | preheat | write | tail
deriving DecidableEq, Repr

/-- What the write pair carries for a sector: where it begins and where its mark does, in bits from angular position 0, the write offset in 1/64
bit, its 37,000 NRZ bits, and each transition with how much earlier it is written, in 1/64 bit (R58, R72, R171, R174, R175). -/
structure Laid where
  start : Nat
  mark : Nat
  ofs : Int
  bits : List Bool
  shifts : List (Nat × Nat)
deriving DecidableEq, Repr

/-- What started an arm-link transaction (R200): HEAD, ASP or HTR of a program slot, the assist loop, touchdown, a reading of the contact sensor,
the FAULT read, WARM = 0, or firmware. The WMODE write has a command of its own. -/
inductive ArmSrc where
  | fault
  | touchdown
  | head (k : Fin 4)
  | asp (k : Fin 4) (last : Bool)
  | htr (k : Fin 4)
  | loop
  | ecs
  | warmOff
  | firmware
deriving DecidableEq, Repr

/-- An arm-link transaction: source, read or write, address, length less 1, words to write, and whether it has been repeated. -/
structure ArmTx where
  src : ArmSrc
  rd : Bool
  addr : Nat
  len : Nat
  words : List Nat
  retried : Bool
deriving DecidableEq, Repr

/-- A channel beside its registers: the index and bank-word checks of R52, R56 and R173, the slice monitor, the sample store, the write
buffer, the assist element and loop with the zone of the last sector it counted, the touchdown detector, the arm link's waiting and running
transactions, its TD sequence and the TD frame sent and not yet received, the servo periods since the contact sensor was last read, the assist
profile as ASP last sent it, as it was last acknowledged whole, and its times in force since the last arming, whether the WMODE write for the run
to come has been acknowledged (R177, R178), whether the next slot's first bits have underflowed (R22), what the pair carries, the gain codes
that automatic gain has come to (R138), the equaliser words that wait for the sector boundary (R153), the sectors whose attempts the two
detector-decoder pairs run (R154), and the equaliser's reference: what firmware last wrote to each set-0 tap (R157). -/
structure Chan where
  slipInh : Bool
  resync : Bool
  agree : Nat
  missed : Nat
  wrongRun : Nat
  bankInh : Bool
  sliceHits : List (Bool × Nat)
  s8badA : Bool
  s8badB : Bool
  store : List StoreEntry
  wbuf : List WBuf
  assist : Assist
  preNs : Nat
  tailNs : Nat
  wmodeFailed : Bool
  armOk : Bool
  underflow : Bool
  laid : Option Laid
  loopOn : Bool
  loopN : Nat
  loopSum : Nat
  loopZone : Option Nat
  profSent : List Nat
  profAcked : List Nat
  ecs : List Nat
  ecsBase : Option Nat
  ecsHits : Nat
  pesHist : List Int
  txq : List ArmTx
  tx : Option ArmTx
  tdSeq : Nat
  tdSent : Option Nat
  ecsTick : Nat
  gainA : Nat
  gainB : Nat
  eqPend : List (Nat × Nat)
  pairs : List (Option (Fin 4 × Nat))
  eqRef : List (Nat × Nat)
deriving DecidableEq, Repr

/-- A channel after reset. -/
def Chan.reset : Chan :=
  { slipInh := false, resync := false, agree := 0, missed := 0, wrongRun := 0, bankInh := false, sliceHits := [], s8badA := false, s8badB := false
    store := [], wbuf := [], assist := .off, preNs := 0, tailNs := 0, wmodeFailed := false, armOk := false, underflow := false, laid := none
    loopOn := false, loopN := 0, loopSum := 0, loopZone := none, profSent := [], profAcked := [], ecs := [], ecsBase := none, ecsHits := 0
    pesHist := [], txq := [], tx := none, tdSeq := 0, tdSent := none, ecsTick := 0, gainA := 0, gainB := 0, eqPend := [], pairs := [none, none]
    eqRef := [] }

/-- The preamplifier of one arm (R199, R206): its 16-bit registers (Table 05.9), the drive it applies, the SEQ of the last valid TD
frame, whether a TD frame failed since the last response, servo periods without a valid TD frame, the faults present, the heater level it
applies (R179), and the eight words of the assist profile in force (R181). -/
structure Preamp where
  regs : List (Nat × Nat)
  drive : Int
  seq : Nat
  tde : Bool
  missed : Nat
  present : Nat
  heater : Nat
  profile : List Nat
deriving DecidableEq, Repr

/-- A preamplifier after its own power-on reset (R206). -/
def Preamp.reset : Preamp := ⟨[], 0, 0, false, 0, 0, 0, List.replicate 8 0⟩

/-- A request of the deep-recovery decoder (R163): actuator, program slot and TP of the pending store entry. -/
structure DeepReq where
  n : Fin 4
  slot : Fin 4
  tp : Nat
deriving DecidableEq, Repr

/-! ### The servo (06) -/

/-- The target of a motion: TP bits [37:0], read or write target, and the reader offset (R215). -/
structure Target where
  tp : Nat
  write : Bool
  offset : Int
deriving DecidableEq, Repr

/-- What the servo is about once a bank is confirmed: nothing, the seek of its target, to move to its target from the bank that a newly
selected head finds (R112), or to track the bank it finds (R109, R224, R227, R241). -/
inductive Goal where
  | none | seek | find | track
deriving DecidableEq, Repr

/-- The phase of a motion (R225, Table 06.6). -/
inductive SeekPhase where
  | none | inlock | release | travel | capture | confirm | arrive
deriving DecidableEq, Repr

/-- One second-order section of a compensator path: its last two inputs and outputs (R220). -/
structure Section2 where
  x1 : Int
  x2 : Int
  y1 : Int
  y2 : Int
deriving DecidableEq, Repr

/-- The states of the compensator's twenty sections and of the two tether-model sections (Table 06.4, R218). -/
structure CompState where
  data : List Section2
  vcm : List Section2
  piezo : List Section2
  tether : List Section2
  model : List Section2
deriving DecidableEq, Repr

/-- The compensator states after reset. -/
def CompState.reset : CompState :=
  ⟨List.replicate 8 ⟨0, 0, 0, 0⟩, List.replicate 4 ⟨0, 0, 0, 0⟩, List.replicate 4 ⟨0, 0, 0, 0⟩, List.replicate 4 ⟨0, 0, 0, 0⟩,
    List.replicate 2 ⟨0, 0, 0, 0⟩⟩

/-- Where a load, an unload or a retract stands (R241 to R245). -/
inductive LoadPhase where
  | none | offRamp | confirm | seekB0 | outward | park | ramp
deriving DecidableEq, Repr

/-- A servo beside its registers: the three estimated positions and the error of the followed element (R214, R215), the tether displacement,
the drive computed for the next period and the one that this period's TD frame carries, the output of the tether model and whether it has been
run in this period (R218, R219), the current and capture banks, the target, phase and aim of the motion, where and in which period its profile
began, where it ends, and what counted crossings have corrected (R225, R226), whether it is a crossing seek that has not arrived (R228), the
last bank word of a confirm phase and whether the instruction's one correction is spent, the bank left by a hop under way with the last X_b and
model output before it, the samples of the period, whether the sample under way is spoilt (R211), the ONT counters of R231, a criterion set that
takes effect at the next opening, the compensator with its commands, and the section states of the standby (R235), the last VCM commands,
newest first, bank swaps that wait for the next opening, divergence counts, shock inputs, the load or retract phase with the target of the
back-EMF loop in mV, inward positive, and the park current in mA (R241 to R243), whether the primary is being reset, the tether gains
that firmware last wrote and those it wrote in this period, whether the phase detector is held for a hop, the number of periods run, the bank
words demodulated in a confirm phase, whether R237 holds the servo degraded, and the drive die's copy of SRV.RET (R243). -/
structure Servo where
  xb : Int
  xd : Int
  xw : Int
  err : Int
  tau : Int
  drive : Int
  send : Int
  drivePrev : Int
  modelRun : Bool
  bank : Nat
  cap : Nat
  target : Option Target
  phase : SeekPhase
  goal : Goal
  dirIn : Bool
  fromX : Int
  goalX : Int
  since : Nat
  corr : Int
  crossing : Bool
  word : Option Nat
  corrected : Bool
  hop : Option Nat
  hopXb : Int
  hopM : Int
  pesSum : Int
  pesN : Nat
  errSum : Int
  errMax : Nat
  spoilt : Bool
  noSample : Nat
  clean : Nat
  pendSet : Option (Fin 4)
  comp : CompState
  stby : CompState
  vcm : Int
  piezo : Int
  tether : Int
  bias : Int
  uhist : List Int
  pendCswap : Bool
  pendFf : Bool
  divRun : Nat
  divWin : Nat
  divTakes : Nat
  shock : Nat
  shockHold : Bool
  load : LoadPhase
  emf : Int
  parkMa : Nat
  primaryDown : Bool
  gfw : List (Nat × Nat)
  gNew : List Nat
  held : Bool
  periods : Nat
  words : Nat
  degr : Bool
  dieRet : Nat
deriving DecidableEq, Repr

/-- A servo after reset: parked, no motion; the drive die holds the reset value of SRV.RET (Table 06.14). -/
def Servo.reset : Servo :=
  { xb := 0, xd := 0, xw := 0, err := 0, tau := 0, drive := 0, send := 0, drivePrev := 0, modelRun := false, bank := 0, cap := 0, target := none
    phase := .none, goal := .none, dirIn := false, fromX := 0, goalX := 0, since := 0, corr := 0, crossing := false, word := none
    corrected := false, hop := none, hopXb := 0, hopM := 0, pesSum := 0, pesN := 0, errSum := 0, errMax := 0, spoilt := false, noSample := 0
    clean := 0, pendSet := none, comp := CompState.reset, stby := CompState.reset, vcm := 0, piezo := 0, tether := 0, bias := 0, uhist := []
    pendCswap := false, pendFf := false, divRun := 0, divWin := 0, divTakes := 0, shock := 0, shockHold := false, load := .none, emf := 0
    parkMa := 0, primaryDown := false, gfw := [], gNew := [], held := false, periods := 0, words := 0, degr := false, dieRet := 0x143264B4 }

/-! ### Zones and the journal (09) -/

/-- The zone states of Table 09.1. -/
inductive ZState where
  | empty | implicit | explicit | closed | readOnly | full | offline
deriving DecidableEq, Repr

/-- A zone record (Table 09.1) as the zone-state cache holds it: STATE, the flags VERIFY, RZR and SCANDUE, LOC, the bands, ZCAP, WP, PP,
NEXTSEQ, PINWP, FIRSTTRACK and the JSEQ of its last journal record; beside it the WP at which runs last ended with code 0x04 and how
many in a row (R309), the running parity of its open group while it is held, as the remainder at each byte position (R77), and when it last
accepted a sector (R305). -/
structure Zone where
  st : ZState
  verify : Bool
  rzr : Bool
  scandue : Bool
  act : Fin 4
  head : Fin 8
  firstBank : Nat
  nbands : Nat
  zcap : Nat
  wp : Nat
  pp : Nat
  nextSeq : Nat
  pinwp : Nat
  firstTrack : Nat
  jseq : Nat
  failWp : Nat
  failRuns : Nat
  parity : Option (List (Nat × Nat))
  stamp : Nat
deriving DecidableEq, Repr

/-- A run in progress (R317): engine, slot, zone, whether its BEGIN record is durable, the data index of the next sector it may accept
(R301), and whether a first sector was refused once for a BEGIN not yet durable (R318). -/
structure ZRun where
  n : Fin 4
  slot : Fin 4
  zone : Nat
  durable : Bool
  next : Nat
  refused : Bool
deriving DecidableEq, Repr

/-- A sequenced log record (Table 09.7): JSEQ and body. -/
structure JRec where
  jseq : Nat
  body : JBody
deriving DecidableEq, Repr

/-- The zone units' shared state: the zone records by zone ID, the runs in progress, the records queued while JCTL.EN is 0, the records
sequenced and not yet durable, the log ring's next and oldest record positions, the BEGIN records held for want of erased log sectors, a
count that orders accepted sectors, the zones that close when their run ends (a controller reset, R325), and the zones whose placements are
still to be withdrawn after a release (R304). The ring and the table pages themselves are code-flash bytes. -/
structure ZoneUnit where
  zones : List (Nat × Zone)
  runs : List ZRun
  queue : List JBody
  issued : List JRec
  head : Nat
  tail : Nat
  held : List JBody
  stamp : Nat
  closing : List Nat
  due : List Nat
deriving DecidableEq, Repr

/-- The zone units after reset. -/
def ZoneUnit.reset : ZoneUnit := ⟨[], [], [], [], 0, 0, [], 0, [], []⟩
/-! ### Host ports, queues and contexts (10) -/

/-- STATE of a context (Table 10.4); a context that is not listed is free. -/
inductive CtxSt where
  | held | admitted | bound | completing | posted
deriving DecidableEq, Repr

/-- The class of a context (Table 10.4). -/
inductive CtxClass where
  | admin | urgent | high | medium | low
deriving DecidableEq, Repr

/-- How a context of a killed slot ends (R263): released without completion, completed with a status, or placed and bound again. -/
inductive Ending where
  | release
  | complete (sct sc : Nat)
  | again
deriving DecidableEq, Repr

/-- A context (Table 10.4): submission entry, queue, state, class, link, status code type and code, whether a sector has begun, result
dwords, times of fetch and class limit, DRAM buffer; and beside it what the intake keeps of the command's progress: the engine it is
bound to, its sectors that have committed, by buffer index, of how many, its placement (zone, data index, blocks), whether its data is complete, whether it has been
handed to completion, whether the intake has carried the command out, the blocks a read resolved as unwritten (R302), the mouth and
context it was forwarded from, the member it is forwarded to (R565), the journal records its completion waits for (R307, R311), its first
block, its place in fetch order, how it ends once its slot has been killed, the data index of a placement withdrawn (R304), and when it was
released (R344). -/
structure Ctx where
  sqe : Sqe
  sq : Nat
  ctl : Fin 2
  st : CtxSt
  cls : CtxClass
  link : Option Nat
  sct : Nat
  sc : Nat
  begun : Bool
  res0 : Nat
  res1 : Nat
  fetched : Nat
  deadline : Nat
  buf : Nat
  bound : Option (Fin 4)
  done : List Nat
  total : Nat
  place : Option (Nat × Nat × Nat)
  dataIn : Bool
  handed : Bool
  run : Bool
  zeros : List Nat
  origin : Option (Nat × Nat)
  fwdTo : Option Nat
  jwait : List JBody
  lba : Nat
  ord : Nat
  ending : Option Ending
  again : Option Nat
  released : Nat
deriving DecidableEq, Repr

/-- A submission queue (R339, R341): its completion queue, size, priority class, tail and head as the doorbell and the fetch leave
them, and its context reserve. -/
structure Sq where
  cq : Nat
  size : Nat
  cls : CtxClass
  tail : Nat
  head : Nat
  reserve : Nat
deriving DecidableEq, Repr

/-- A completion queue: size, entries posted, interrupt vector and whether it interrupts. -/
structure Cq where
  size : Nat
  posted : Nat
  vector : Nat
  ien : Bool
deriving DecidableEq, Repr

/-- A completion entry as posted (R346). -/
structure Cqe where
  sq : Nat
  cid : Nat
  sqHead : Nat
  dw0 : Nat
  dw1 : Nat
  sct : Nat
  sc : Nat
  dnr : Bool
  more : Bool
deriving DecidableEq, Repr

/-- An NVMe controller (R332): CC.EN, CSTS.RDY, CFS, SHST and PP, whether a shutdown or a link loss has stopped it, its queues by queue
ID, the entries it has posted newest first, outstanding asynchronous event requests, notices waiting for one, the error log newest
first, features by identifier, and Aborts outstanding. -/
structure Ctrl where
  en : Bool
  rdy : Bool
  cfs : Bool
  shst : Nat
  pp : Bool
  stopped : Bool
  linkHeld : Bool
  sqs : List (Nat × Sq)
  cqs : List (Nat × Cq)
  posted : List Cqe
  aers : List Nat
  notices : List Nat
  errlog : List (Nat × Nat × Nat)
  features : List (Nat × Nat)
  nqueues : Nat
  aborts : Nat
deriving DecidableEq, Repr

/-- A controller after reset: only its admin queue pair exists, entries 0 of both tables (R339). -/
def Ctrl.reset : Ctrl :=
  ⟨false, false, false, 0, false, false, false, [], [], [], [], [], [], [], 0, 0⟩

/-- A firmware slot of the subsystem: the bytes downloaded into it, whether it holds a staged image. -/
structure FwSlot where
  image : List (BitVec 8)
  staged : Bool
deriving DecidableEq, Repr

/-- Where arbitration stands (R343, R344): the controller last granted, the grant that is open with the entries it may still fetch, the SQ last granted
by 8 times the controller and the class, and what is left of the weights of the high, medium and low classes, in entries by controller, and in
contexts by twice the actuator and the controller. -/
structure Arb where
  last : Fin 2
  cur : Option (Fin 2 × Nat × Nat)
  turn : List (Nat × Nat)
  creds : List (Nat × List Nat)
  binds : List (Nat × List Nat)
deriving DecidableEq, Repr

/-- The intake and both controllers: contexts by number, controllers of port 0 and port 1, subsystem-wide features, the firmware buffer
and slots, an activation under way, with the context of its commit, or at a controller reset without one, and the time it began; whether a
Sanitize operation runs, the context whose effect it still waits for, the journal records it waits for, whether a power loss has cut it, and
whether one has ended; the changed-namespace and changed-zone lists, the requested power states with the state in force and the last
operational one (R363), the µs spent in each, how many entries have been fetched, the data last returned to the host, and where arbitration stands. -/
structure HostSide where
  ctxs : List (Nat × Ctx)
  c0 : Ctrl
  c1 : Ctrl
  features : List (Nat × Nat)
  fwBuf : List (BitVec 8)
  fwA : FwSlot
  fwB : FwSlot
  activation : Option (Option Nat × Nat)
  sanitize : Bool
  sanWait : Option Nat
  sanRecs : List JBody
  sanAgain : Bool
  sanitizeDone : Bool
  changedNs : List Nat
  changedZones : List Nat
  ps0 : Nat
  ps1 : Nat
  psNow : Nat
  psOper : Nat
  psTime : List (Nat × Nat)
  fetches : Nat
  data : List Nat
  arb : Arb
deriving DecidableEq, Repr

/-- The host side after reset. -/
def HostSide.reset : HostSide :=
  ⟨[], Ctrl.reset, Ctrl.reset, [], [], ⟨[], false⟩, ⟨[], false⟩, none, false, none, [], false, false, [], [], 0, 0, 0, 0, [], 0, [],
    ⟨1, none, [], [], []⟩⟩
/-! ### The Stage and the memory controller (11, 12) -/

/-- A line of the Stage: its number (DRAM offset over the line size), and the valid, dirty and being-fetched bits of its units of 256 or
128 bytes (R370). The bytes themselves stand in `State.mem`, which holds what a request to the address sees (R368). -/
structure StgLine where
  num : Nat
  valid : Nat
  dirty : Nat
  filling : Nat
deriving DecidableEq, Repr

/-- A set of the Stage: its sixteen ways, way 0 first, and the fifteen nodes of its pseudo-LRU tree (R374). -/
structure StgSet where
  ways : List (Option StgLine)
  plru : Nat
deriving DecidableEq, Repr

/-- A set with every way invalid. -/
def StgSet.empty : StgSet := ⟨List.replicate 16 none, 0⟩

/-- A request that waits in the Stage: requester, address, length, the bytes and enables of a store, whether its requester
allocates, whether a streaming flag forbade it to, and whether it has been counted. -/
structure StgReq where
  r : Nat
  a : Nat
  len : Nat
  st : Option (List Nat)
  be : Nat
  alloc : Bool
  strm : Bool
  missed : Bool
deriving DecidableEq, Repr

/-- The stream detector's last granule, run count and non-sequential count of one requester (R376); its flag is STG.STRM. -/
structure Strm where
  g : Option Nat
  run : Nat
  nseq : Nat
deriving DecidableEq, Repr

/-- The Stage beside its registers: sets by index, Eddy oldest first, the write-back buffer oldest first (`valid` unused), waiting
requests in acceptance order, the detector's state by requester, a write of 1 to EN held while disabling (R387), and the sector buffers
marked invalid, each a context and an index (R116, R255). -/
structure StageUnit where
  sets : List (Nat × StgSet)
  eddy : List StgLine
  wb : List StgLine
  waiting : List StgReq
  strm : List (Nat × Strm)
  enHeld : Bool
  invalid : List (Nat × Nat)
deriving DecidableEq, Repr

/-- The Stage after reset. -/
def StageUnit.reset : StageUnit := ⟨[], [], [], [], [], false, []⟩

/-- The memory controller beside its registers: the error pattern of each codeword, by word number (0 where none is listed), and the word
at which each scrub pass stands, for SRAM and for DRAM (R389, R401), whether an overflow of each bucket has been recorded since its
level was last below CAP (R400), and the device time up to which each bucket has leaked (R399). -/
structure MemUnit where
  errs : List (Nat × Nat)
  posS : Nat
  posD : Nat
  overS : Bool
  overD : Bool
  leakS : Nat
  leakD : Nat
deriving DecidableEq, Repr

/-- The memory controller after reset. -/
def MemUnit.reset : MemUnit := ⟨[], 0, 0, false, false, 0, 0⟩

/-! ### Weir, Sluice and Backwater (13) -/

/-- A packet at the Stage input: requester, class, and whether it belongs to a write. -/
structure Packet where
  r : Nat
  cls : WeirClass
  write : Bool
deriving DecidableEq, Repr

/-- Weir beside its registers: packets at the Stage input, oldest first; whether the last of D and Q granted was a D; writes issued and not
arrived, each a number and a requester; the next write's number; per core with a SYNC outstanding the writes it covers; and the requesters
from which a crossing buffer withholds the next credit (R22). -/
structure WeirUnit where
  packets : List Packet
  lastD : Bool
  writes : List (Nat × Nat)
  nextId : Nat
  syncs : List (Nat × List Nat)
  withheld : List Nat
deriving DecidableEq, Repr

/-- Weir after reset. -/
def WeirUnit.reset : WeirUnit := ⟨[], false, [], 0, [], []⟩

/-- A Sluice channel beside its registers: its descriptor in progress and the next one fetched, as four words each; bytes read and written of
the one in progress; bytes read and not yet through the cipher, and bytes that wait to be written; overlapped source bytes as they were
before the transfer (R423); and the program slot whose SLU started the chain. -/
structure SluChan where
  cur : Option (List Nat)
  nxt : Option (List Nat)
  rpos : Nat
  wpos : Nat
  inb : List Nat
  outb : List Nat
  orig : List (Nat × Nat)
  owner : Option (Fin 4 × Fin 4)
deriving DecidableEq, Repr

/-- A channel after reset. -/
def SluChan.reset : SluChan := ⟨none, none, 0, 0, [], [], [], none⟩

/-- A sector transfer from a decoder to DRAM that waits for its channel: engine, program slot, context, sector buffer index, the sector's
data and metadata as recorded, its key range and data-unit number (R425). -/
structure SecXfer where
  n : Fin 4
  slot : Fin 4
  ctx : Nat
  sect : Nat
  data : Nat
  md : Nat
  range : Nat
  dun : Nat
deriving DecidableEq, Repr

/-- Sluice: its channels by number and the sector transfers that wait, oldest first. -/
structure SluiceUnit where
  chans : List (Nat × SluChan)
  xfers : List SecXfer
deriving DecidableEq, Repr

/-- Sluice after reset. -/
def SluiceUnit.reset : SluiceUnit := ⟨[], []⟩

/-- A word of a Backwater window with its tag (R434). -/
structure BWord where
  v : Nat
  first : Bool
  last : Bool
  poison : Bool
  flush : Bool
deriving DecidableEq, Repr

/-- A Backwater queue (R431, R432): the assembly buffer, the head window oldest first, the tags of the middle's words oldest first with the
ring place of the oldest, whose data stands in DRAM, and the tail window oldest first. -/
structure BQueue where
  asm : List Nat
  head : List BWord
  mid : List BWord
  mid0 : Nat
  tail : List BWord
deriving DecidableEq, Repr

/-- An empty queue. -/
def BQueue.empty : BQueue := ⟨[], [], [], 0, []⟩

/-! ### Code flash (14) -/

/-- A firmware operation under way in a bank: an erase or a program, the array offset of its first word, and the words to program. -/
structure FlashOp where
  erase : Bool
  off : Nat
  words : List Nat
deriving DecidableEq, Repr

/-- A remap entry: the retired sector and its done mark (R455). -/
structure Remap where
  sector : Nat
  done : Bool
deriving DecidableEq, Repr

/-- The code flash beside its registers: the operation under way in each bank; remap entries oldest first; words that read as uncorrectable
and sectors whose erase was abandoned (R457, R458); the prefetch lines and branch-cache lines, least recently used first, and the line of
the last instruction fetch (R445, R446). -/
structure FlashUnit where
  op0 : Option FlashOp
  op1 : Option FlashOp
  remap : List Remap
  badWords : List Nat
  abandoned : List Nat
  prefetch : List Nat
  branch : List Nat
  lastFetch : Option Nat
deriving DecidableEq, Repr

/-- The code flash as made: nothing remapped. -/
def FlashUnit.reset : FlashUnit := ⟨none, none, [], [], [], [], [], none⟩

/-! ### Spindle (15) -/

/-- What follows once the spindle has come to rest (R473, R477, R480). -/
inductive AfterRest where
  | off | listen | lockout
deriving DecidableEq, Repr

/-- The spindle unit beside its registers: the consecutive ignored SPIN_DMD periods and the demands of the last four valid ones, newest
first (R466); the active curve, point 0 first (R468); a held target (R470); whether the start under way catches a turning motor; what
follows rest; whether braking waits for the actuators to park; the 60 s window that LOSCNT.WIN counts in; the chopper output BRK_G, an
overvoltage not yet released; the phase currents in 10 mA, the electrical angle applied and the commanded speed in µrpm; the running
vector that a unit reset has left turning (R483); whether the back-EMF is being braked to rest with zero vectors; and the PWM periods for which
the current has stood at its limit with the speed off target (Table 16.6). -/
structure SpinUnit where
  ignored : Nat
  recent : List Nat
  curve : List (Nat × Nat)
  held : Option Nat
  catching : Bool
  after : AfterRest
  waitPark : Bool
  lossWin : Nat
  chopper : Bool
  ovp : Bool
  iu : Int
  iv : Int
  iw : Int
  angle : Nat
  cmd : Nat
  turning : Bool
  zeroVec : Bool
  atLimit : Nat
deriving DecidableEq, Repr

/-- The spindle unit after reset, its active curve the reset curve: 3,600 rpm up to demand 51, then 300 rpm more for every 17 (R468). -/
def SpinUnit.reset : SpinUnit :=
  ⟨0, [], (List.range 16).map (fun k => (17 * k, if k ≤ 3 then 3600 else 3600 + 300 * (k - 3))), none, false, .off, false, 0, false,
    false, 0, 0, 0, 0, 0, false, false, 0⟩

/-! ### The watch hierarchy (16) -/

/-- A register access held while its unit is resetting (R31): requester, window, offset, size in bytes, value of a write, and whether it reads. -/
structure HeldAccess where
  r : Requester
  w : Nat
  off : Nat
  size : Nat
  v : Nat
  read : Bool
deriving DecidableEq, Repr

/-- The watch hierarchy beside its registers: the expiries of the present window, exact, per unit for its elements and for the unit (R494),
per domain and of the supervisor; whether a watch restart runs; the domains whose escalation is held (R493), oldest first; the cause of
each domain restart under way; the place of a Motion restart in its order, 0 to 3 the servos and 4 the spindle (R491); a controller
restart that is due, with its cause; the time of the last KICK; register accesses that wait for the end of a unit reset, oldest first (R31); and
the number of the 10 s window that the expiries were counted in (R15, R494). -/
structure WatchUnit where
  elems : List (Nat × Nat)
  units : List (Nat × Nat)
  doms : List (Nat × Nat)
  sup : Nat
  restarting : Bool
  held : List Nat
  causes : List (Nat × Nat)
  motion : Option Nat
  due : Option Nat
  kick : Nat
  accesses : List HeldAccess
  window : Nat
deriving DecidableEq, Repr

/-- The watch hierarchy after reset. -/
def WatchUnit.reset : WatchUnit := ⟨[], [], [], 0, false, [], [], none, none, 0, [], 0⟩

/-! ### Calibration, housekeeping and the voltage loop (17, 20) -/

/-- The calibration unit beside its registers: the items and actuators of the pass under way; whether the pass under way has ended all its
items; the unit of the item under way, and the current-sense amplifier that CS4 replaces for good (R520); coefficient banks, active and
written but not yet swapped, by item, actuator and unit; per actuator the coil resistance measured in mΩ
and TX at that moment in 0.1 °C; the claimed channel; units whose spare is unusable; passes abandoned and items skipped since the start; whether
a full pass is due (R511), and the passes counted over the drive's life, which code flash keeps (R522). -/
structure CalUnit where
  scope : Nat
  acts : Nat
  ended : Bool
  unit : Nat
  csFor : Option Nat
  active : List (Nat × List Nat)
  inactive : List (Nat × List Nat)
  coil : List (Nat × (Int × Int))
  claim : Option (Fin 4)
  badSpare : List Nat
  abandoned : Nat
  skipped : Nat
  full : Bool
  life : Nat
deriving DecidableEq, Repr

/-- The calibration unit after reset. -/
def CalUnit.reset : CalUnit := ⟨0, 0, false, 0, none, [], [], [], none, [], 0, 0, false, 0⟩

/-- Housekeeping beside its registers: whether a round is being sampled; the highest reported value of each sensor since the start;
whether REFCLK is present and whether the time base is locked to it; the corrections of R533 (oscillator, then the mixed-signal,
drive and core band-gaps); whether the SMART temperature bit stands (R532); the voltage loop's quiet updates, its consecutive failures of
the bus, whether it has stopped, whether a pinned stretch at the upper or lower bound has been reported, a VSET value
that waits, and whether VOUT_MODE is still to be read or a write to be repeated. -/
structure HskUnit where
  sampling : Bool
  tmax : List Int
  refclk : Bool
  locked : Bool
  corr : List Int
  smartTemp : Bool
  quiet : Nat
  fails : Nat
  vstop : Bool
  pinHi : Bool
  pinLo : Bool
  vset : Option Nat
  needMode : Bool
  resend : Bool
deriving DecidableEq, Repr

/-- Housekeeping after reset. -/
def HskUnit.reset : HskUnit := ⟨false, [], true, false, [0, 0, 0, 0], false, 0, 0, false, false, false, none, false, false⟩

/-! ### Confluence (19) -/

/-- A message sent over Confluence: TYPE of Table 19.4, destination, TAG, ARG and payload. -/
structure CMsg where
  type : Nat
  dst : Nat
  tag : Nat
  arg : Nat
  load : List Nat
deriving DecidableEq, Repr

/-- What this member knows of a peer: when it was last heard, its VERSION, role, phase, NSREADY and the members it reaches; whether it has
received the admin state; losses, and commands forwarded to and from it (Table 19.6). -/
structure Peer where
  heard : Nat
  version : Nat
  role : Nat
  phase : Nat
  nsready : Nat
  reached : Nat
  synced : Bool
  losses : Nat
  fwdTo : Nat
  fwdFrom : Nat
deriving DecidableEq, Repr

/-- A peer of which nothing has been heard. -/
def Peer.reset : Peer := ⟨0, 0, 0, 0, 0, 0, false, 0, 0, 0⟩

/-- An admin change that waits for acknowledgements at the lead (R563): its VERSION, the context of the command, the members that hold it. -/
structure AdmWait where
  version : Nat
  ctx : Option Nat
  acks : Nat
deriving DecidableEq, Repr

/-- The Confluence unit beside its registers: peers by position; messages sent, oldest first; admin changes that wait; the number of the
fence outstanding and the peers it waits for; token requests at the lead in order, and the members that hold a token; whether this
member's own request is outstanding; whether a lead has been known since the unit's reset; the slots that messages sent hold at peers, each a
peer and a kind of Table 19.4, and the messages that wait for one; and the relay slots in use, by source, destination and class (R574). -/
structure CfxUnit where
  peers : List (Nat × Peer)
  sent : List CMsg
  adm : List AdmWait
  fenceNum : Nat
  fenceWait : Nat
  treqs : List Nat
  holders : List Nat
  asked : Bool
  formed : Bool
  flight : List (Nat × Nat)
  held : List CMsg
  relays : List (Nat × Nat × Nat)
deriving DecidableEq, Repr

/-- The Confluence unit after reset. -/
def CfxUnit.reset : CfxUnit := ⟨[], [], [], 0, 0, [], [], false, false, [], [], []⟩

/-! ### Cores and the interrupt router (20) -/

/-- A core as the block shows it: whether it runs, the address it started at, the external, timer and software interrupt raised to it, and
cause and address of its last access fault (R582, R584, R586, R589). -/
structure CoreUnit where
  run : Bool
  entry : Nat
  ext : Bool
  timer : Bool
  soft : Bool
  mcause : Nat
  mtval : Nat
deriving DecidableEq, Repr

/-- A core held in reset. -/
def CoreUnit.reset : CoreUnit := ⟨false, 0, false, false, false, 0, 0⟩

/-- The cores F0 to F3, the watch core, its CSR 0x7D0 (R583), and writes of IRT.SRCs that wait for the completion of an active source
(R588). -/
structure CoresUnit where
  flow : Four CoreUnit
  watch : CoreUnit
  csr7d0 : Nat
  deferred : List (Nat × (Nat × Nat))
deriving DecidableEq, Repr

/-- The cores after reset. -/
def CoresUnit.reset : CoresUnit := ⟨Four.all CoreUnit.reset, CoreUnit.reset, 0x100, []⟩

/-! ### Trust (21) -/

/-- A record of the counter ring (Table 21.3): counter 0 firmware or 1 microcode, UPDATE and VALUE. -/
structure CounterRec where
  kind : Nat
  update : Nat
  value : Nat
deriving DecidableEq, Repr

/-- A record of the key ring: range and GEN; the key itself is never readable (R593, R605). -/
structure KeyRec where
  range : Nat
  gen : Nat
deriving DecidableEq, Repr

/-- A change of a range that waits for the commands admitted before it (R603, R606): a lock change, a new geometry, or a new key. -/
inductive RangeChange where
  | lock (rlck wlck : Bool)
  | geometry (defined : Bool) (ns start len : Nat)
  | genkey
deriving DecidableEq, Repr

/-- The trust unit beside its registers: the integrator root once fused; the counter and key
rings; the ranges whose key is loaded; the session; the nonce in force; range changes that wait, each with its range and the contexts it
waits for; whether a GENKEY has been cut; and ROLLBACK of the running image and of the loaded patch package (R596). -/
structure TrustUnit where
  iroot : Option (List Nat)
  counters : List CounterRec
  keys : List KeyRec
  loaded : List Nat
  session : Session
  nonce : Option Nat
  waits : List (Nat × RangeChange × List Nat)
  cut : Bool
  fwRoll : Nat
  ucRoll : Nat
deriving DecidableEq, Repr

/-- The trust unit as made: nothing fused, no key made. -/
def TrustUnit.reset : TrustUnit := ⟨none, [], [], [], .close, none, [], false, 0, 0⟩

/-! ### Start and power (22) -/

/-- Power and start beside HSK.START and PLSTAT: whether the controller stands in P0, whether it holds with CSTS.CFS at 1 after a dip,
whether the boot core is released and stands before its stage, and which port's PERST_N is low. -/
structure PowerUnit where
  p0 : Bool
  rails : Bool
  rstLow : Bool
  dipHold : Bool
  released : Bool
  perst0 : Bool
  perst1 : Bool
deriving DecidableEq, Repr

/-- Power before the first start: in P0, no rail in range. -/
def PowerUnit.reset : PowerUnit := ⟨true, false, false, false, false, false, false⟩

/-! ### The event recorder (18) -/

/-- A record raised and not yet taken by the recorder: the fields its source gives it (Table 18.1), and the core whose RAISE register
holds BUSY for it (R548), and whether it reports an action of the watch hierarchy, with phase recovery (R486). -/
structure Raised where
  time : Nat
  code : Nat
  sev : Nat
  inst : Nat
  typ : Nat
  param : List Nat
  core : Option Nat
  recov : Bool
deriving DecidableEq, Repr

/-- A record of the log (Table 18.1); GEN stands beside the slots. -/
structure LogRec where
  seq : Nat
  time : Nat
  code : Nat
  sev : Nat
  phase : Nat
  calv : Bool
  repeats : Nat
  inst : Nat
  typ : Nat
  node : Nat
  param : List Nat
deriving DecidableEq, Repr

/-- What one code has used of its rate window: records accepted, records suppressed and the highest severity suppressed (R543). -/
structure RateUse where
  used : Nat
  supp : Nat
  hi : Nat
deriving DecidableEq, Repr

/-- The event recorder beside its registers: records raised and not yet taken, oldest first; the log's slots and their GEN bytes; records
dropped, overwritten and the highest severity lost; the rate windows by code and the window under way in s; the rebuild buffer's losses
and their highest severity; records written and not yet durable, oldest first; the durable ring, oldest first; CHANGES and the clears
over life; the calendar offset of this start; whether firmware has written PHASE in this start; the event fences waiting, each a core
and the records ahead of it; whether an integrator token set AUTH; and the ring's next entry place. -/
structure Recorder where
  raised : List Raised
  slots : List (Nat × LogRec)
  gens : List (Nat × Nat)
  dropped : Nat
  overw : Nat
  hiLost : Nat
  rate : List (Nat × RateUse)
  window : Nat
  lost : Nat
  lostHi : Nat
  undurable : List LogRec
  ring : List LogRec
  changes : Nat
  clears : Nat
  calendar : Option Nat
  phaseSet : Bool
  fences : List (Nat × Nat)
  authTok : Bool
  head : Nat
deriving DecidableEq, Repr

/-- The recorder after power-on reset. -/
def Recorder.reset : Recorder := ⟨[], [], [], 0, 0, 0, [], 0, 0, 0, [], [], 0, 0, none, false, [], false, 0⟩

/-- Why the block stops with a fault. No command of this model stops so: what the spec lays down for a fault of the part is an effect. -/
inductive Fault where
  /-- Kept for a command whose effect the spec leaves wholly open; no meaning raises it. Safe: the machine would stop. -/
  | openEffect
deriving DecidableEq, Repr

/-- Why a command is refused. -/
inductive Refusal where
  /-- The arm of a command that has no meaning yet. Safe: the machine stops. -/
  | notModelled (mnemonic : String)
deriving DecidableEq, Repr

/-- The state of the block.
  `pending`: commands that wait, first in, first out.
  `time`: device time in µs, modulo 2^48 (R14).
  `answer`: what the last accesses answered; the model's own.
  `free`: how many free values have been taken; the model's own.
  `regs`: the register file: per field key, its value combined by exclusive or with its reset value, none listed where it is 0.
  `acc`: per counter field, by its key, the events counted since the last start through P4, as firmware accumulates them (R366).
  `mem`: SRAM and DRAM bytes by physical address, 0 where none is listed (R404).
  `reach`: the Reach engines (03).
  `chan`: the channels (02, 04, 05).
  `preamp`: the preamplifiers (05).
  `deep`: the queue of the deep-recovery decoder, oldest first (R163).
  `servo`: the servos (06).
  `medium`: the sectors recorded on the medium, by TP bits [37:0] (02).
  `zone`: the zone units and the journal (09).
  `host`: host ports, contexts and controllers (10).
  `stage`: the Stage (11).
  `memc`: the memory controller (12).
  `evr`: the event recorder (18).
  `weir`: Weir (13).
  `sluice`: Sluice (13).
  `bkw`: the Backwater queues by number (13).
  `flash`: code-flash array bytes by array offset, 0xFF where none is listed (14).
  `cfl`: the code flash beside its array (14).
  `spin`: the spindle (15).
  `watch`: the watch hierarchy (16).
  `cal`: calibration (17).
  `hsk`: housekeeping and the voltage loop (17, 20).
  `cfx`: Confluence (19).
  `cores`: the cores and the interrupt router (20).
  `trust`: the trust unit (21).
  `power`: power and start (22).
-/
structure State where
  pending : List Instr
  time : Nat
  answer : List Answer
  free : Nat
  regs : List (Nat × Nat)
  acc : List (Nat × Nat)
  mem : List Host.Cell
  reach : Four Reach
  chan : Four Chan
  preamp : Four Preamp
  deep : List DeepReq
  servo : Four Servo
  medium : Four Medium
  zone : ZoneUnit
  host : HostSide
  stage : StageUnit
  memc : MemUnit
  evr : Recorder
  weir : WeirUnit
  sluice : SluiceUnit
  bkw : List (Nat × BQueue)
  flash : List Host.Cell
  cfl : FlashUnit
  spin : SpinUnit
  watch : WatchUnit
  cal : CalUnit
  hsk : HskUnit
  cfx : CfxUnit
  cores : CoresUnit
  trust : TrustUnit
  power : PowerUnit
deriving DecidableEq, Repr

/-- The block right after power-on reset: every register at the reset value of its table, nothing listed in memory, nothing waiting. -/
def State.reset : State :=
  { pending := [],
    time := 0,
    answer := [],
    free := 0,
    regs := [],
    acc := [],
    mem := [],
    reach := Four.all Reach.reset,
    chan := Four.all Chan.reset,
    preamp := Four.all Preamp.reset,
    deep := [],
    servo := Four.all Servo.reset,
    medium := Four.all ⟨[], []⟩,
    zone := ZoneUnit.reset,
    host := HostSide.reset,
    stage := StageUnit.reset,
    memc := MemUnit.reset,
    evr := Recorder.reset,
    weir := WeirUnit.reset,
    sluice := SluiceUnit.reset,
    bkw := [],
    flash := [],
    cfl := FlashUnit.reset,
    spin := SpinUnit.reset,
    watch := WatchUnit.reset,
    cal := CalUnit.reset,
    hsk := HskUnit.reset,
    cfx := CfxUnit.reset,
    cores := CoresUnit.reset,
    trust := TrustUnit.reset,
    power := PowerUnit.reset }

end Sys2Proof.Machine
end

