-- ==== Sys2Proof/Machine/Ops.lean ====
section
/-! DEFINITION. The named operations over the state that every unit shares: the register file, counters, events, free values, the units of
Table 01.4 and their management slots, and the physical address map. -/

namespace Sys2Proof.Machine

/-! ### Registers -/

/-- The value of a register field. -/
def State.rd (s : State) (f : Fld) : Nat := tget 0 s.regs f.key ^^^ f.reset

/-- A register field made `v`, truncated to its width. -/
def State.wr (s : State) (f : Fld) (v : Nat) : State :=
  { s with regs := tset 0 s.regs f.key ((v % 2 ^ f.width) ^^^ f.reset) }

/-- Whether a field is not 0. -/
def State.on (s : State) (f : Fld) : Bool := s.rd f != 0

/-- Whether bit `i` of a field is 1. -/
def State.rdBit (s : State) (f : Fld) (i : Nat) : Bool := bit (s.rd f) i

/-- Fields written in order. -/
def State.wrs (s : State) : List (Fld × Nat) → State
  | [] => s
  | (f, v) :: l => (s.wr f v).wrs l

/-- A field with the bits of a mask set. -/
def State.setBits (s : State) (f : Fld) (m : Nat) : State := s.wr f (s.rd f ||| m)

/-- A field with one bit set. -/
def State.setB (s : State) (f : Fld) (i : Nat) : State := s.wr f (setBit (s.rd f) i)

/-- A field with one bit cleared. -/
def State.clrB (s : State) (f : Fld) (i : Nat) : State := s.wr f (clrBit (s.rd f) i)

/-- A saturating counter raised by `n`; firmware's accumulator of its events does not saturate (R366). -/
def State.count (s : State) (f : Fld) (n : Nat) : State :=
  { s.wr f (satAdd (2 ^ f.width - 1) (s.rd f) n) with acc := tset 0 s.acc f.key (tget 0 s.acc f.key + n) }

/-- The events that a counter has counted since the last start through P4. -/
def State.counted (s : State) (f : Fld) : Nat := tget 0 s.acc f.key

/-- A wrapping counter raised by 1. -/
def State.bump (s : State) (f : Fld) : State := s.wr f (s.rd f + 1)

/-! ### Free values -/

/-- The next free value. -/
def State.freeVal (s : State) : Nat := Config.freeValue s.free

/-- The state once a free value has been taken. -/
def State.tookFree (s : State) : State := { s with free := s.free + 1 }

/-! ### Units (Table 01.4) -/

end Sys2Proof.Machine

namespace Sys2Proof

/-- The register window of a unit (Tables 01.4 and 20.3). -/
def UnitRef.win : UnitRef → Nat
  | .hostPort p => p.val
  | .intake => 2
  | .flowCore _ => 2
  | .confluence => 3
  | .weir => 4
  | .irt => 5
  | .stage => 6
  | .mem => 7
  | .sluice => 8
  | .backwater => 9
  | .flash => 10
  | .trust => 11
  | .hsk => 12
  | .evr => 13
  | .cal => 14
  | .spindle => 15
  | .zone n => 16 + n.val
  | .reach n => 16 + n.val
  | .channel n => 20 + n.val
  | .head n _ => 20 + n.val
  | .deep => 24
  | .armLink n => 25 + n.val
  | .servo n => 29 + n.val

/-- The management slot k of a unit in its window (Table 01.4). -/
def UnitRef.slot : UnitRef → Nat
  | .flowCore k => 1 + k.val
  | .zone _ => 1
  | .head _ h => 2 + h.val
  | _ => 0

/-- SLOT_ID.TYPE of a unit (Table 01.4). -/
def UnitRef.type : UnitRef → Nat
  | .hostPort _ => 0x01 | .confluence => 0x02 | .intake => 0x03 | .flowCore _ => 0x04 | .weir => 0x05 | .irt => 0x06
  | .stage => 0x07 | .mem => 0x08 | .sluice => 0x09 | .backwater => 0x0A | .flash => 0x0B | .trust => 0x0C | .hsk => 0x0D
  | .evr => 0x0E | .zone _ => 0x0F | .reach _ => 0x10 | .channel _ => 0x11 | .deep => 0x12 | .armLink _ => 0x13
  | .servo _ => 0x14 | .cal => 0x15 | .head _ _ => 0x16 | .spindle => 0x17

/-- SLOT_ID.INST of a unit (Table 01.5). -/
def UnitRef.inst : UnitRef → Nat
  | .hostPort p => p.val
  | .flowCore k => k.val
  | .zone n => n.val
  | .reach n => n.val
  | .channel n => n.val
  | .armLink n => n.val
  | .servo n => n.val
  | .head n h => 8 * n.val + h.val
  | _ => 0

/-- SLOT_ID.LEVEL of a unit (Table 01.4). -/
def UnitRef.level : UnitRef → Nat
  | .hostPort _ => 0 | .confluence => 0
  | .intake => 1 | .flowCore _ => 1 | .weir => 1 | .irt => 1
  | .stage => 2 | .mem => 2 | .sluice => 2 | .backwater => 2 | .flash => 2 | .trust => 2 | .hsk => 2 | .evr => 2
  | .zone _ => 3
  | .reach _ => 4
  | .channel _ => 5 | .deep => 5 | .armLink _ => 5 | .servo _ => 5 | .cal => 5
  | .head _ _ => 6 | .spindle => 6

/-- The domain of a unit (Table 01.4). -/
def UnitRef.domain : UnitRef → Domain
  | .servo _ => .motion | .spindle => .motion
  | .zone _ => .media | .reach _ => .media | .channel _ => .media | .deep => .media | .armLink _ => .media | .head _ _ => .media
  | .stage => .memory | .mem => .memory | .sluice => .memory | .backwater => .memory | .flash => .memory
  | .hostPort _ => .host | .confluence => .host | .intake => .host | .flowCore _ => .host | .weir => .host
  | .irt => .platform | .trust => .platform | .hsk => .platform | .evr => .platform | .cal => .platform

/-- SLOT_ID.DOMAIN of a domain (Table 01.5). -/
def Domain.num : Domain → Nat
  | .motion => 0 | .media => 1 | .memory => 2 | .host => 3 | .platform => 4

/-- The four actuators, slots or cores. -/
def four : List (Fin 4) := [0, 1, 2, 3]

/-- The eight heads of an arm. -/
def eight : List (Fin 8) := [0, 1, 2, 3, 4, 5, 6, 7]

/-- The common code 0x__F0 to 0x__F5 of a unit (R539). -/
def UnitRef.common (u : UnitRef) (c : Nat) : Nat := u.type * 256 + 0xF0 + c

/-- Every unit of Table 01.4, in the table's order. -/
def UnitRef.every : List UnitRef :=
  List.flatten [[UnitRef.hostPort 0, UnitRef.hostPort 1, UnitRef.confluence, UnitRef.intake], four.map UnitRef.flowCore,
    [UnitRef.weir, UnitRef.irt, UnitRef.stage, UnitRef.mem, UnitRef.sluice, UnitRef.backwater, UnitRef.flash, UnitRef.trust,
    UnitRef.hsk, UnitRef.evr], four.map UnitRef.zone, four.map UnitRef.reach, four.map UnitRef.channel, [UnitRef.deep],
    four.map UnitRef.armLink, four.map UnitRef.servo, [UnitRef.cal], four.flatMap fun n => eight.map fun h => UnitRef.head n h,
    [UnitRef.spindle]]

/-- The units of a domain. -/
def Domain.units (d : Domain) : List UnitRef := UnitRef.every.filter fun u => u.domain = d

end Sys2Proof

namespace Sys2Proof.Machine

/-- SLOT_STATE.STATE of a unit (Table 01.6). -/
def State.unit (s : State) (u : UnitRef) : Nat := s.rd (Fd.SLOT_STATE_STATE u.win u.slot)

/-- A unit's SLOT_STATE.STATE written. -/
def State.setUnit (s : State) (u : UnitRef) (st : Nat) : State := s.wr (Fd.SLOT_STATE_STATE u.win u.slot) st

/-- A unit that works: serving or degraded (Table 01.6). -/
def State.serving (s : State) (u : UnitRef) : Bool := s.unit u == 2 || s.unit u == 6

/-- Whether a unit takes new work: not while it quiesces, is quiet or resets (Tables 01.6 and 01.8). -/
def State.takesWork (s : State) (u : UnitRef) : Bool := !([3, 4, 5].contains (s.unit u))

/-! ### Events (R536, R539) -/

/-- The twelve PARAM bytes of a record: the listed bytes, then zeros (R539). -/
def paramBytes (l : List Nat) : List Nat := (l ++ List.replicate 12 0).take 12

/-- A record raised by the unit of type `typ`, instance `inst`, at the present device time. -/
def State.raiseAs (s : State) (typ inst code sev : Nat) (param : List Nat) : State :=
  { s with evr := { s.evr with raised := s.evr.raised ++ [⟨s.time, code, sev, inst, typ, paramBytes param, none, false⟩] } }

/-- A record raised by a unit. -/
def State.raise (s : State) (u : UnitRef) (code sev : Nat) (param : List Nat) : State := s.raiseAs u.type u.inst code sev param

/-- A unit reports a fault: SLOT_FAULT names the code, and the record is raised (Table 01.9, R539). -/
def State.fault (s : State) (u : UnitRef) (code sev : Nat) (param : List Nat) : State :=
  ((s.wr (Fd.SLOT_FAULT_FAULT u.win u.slot) 1).wr (Fd.SLOT_FAULT_CODE u.win u.slot) code).raise u code sev param

/-- The newest raised record reports an action of the watch hierarchy: its phase is recovery (R486). -/
def State.recovery (s : State) : State :=
  { s with evr := { s.evr with raised := s.evr.raised.dropLast ++ (s.evr.raised.getLast?.map fun x => { x with recov := true }).toList } }

/-! ### Answers -/

/-- The last access answered with a value. -/
def State.reply (s : State) (v : Nat) : State := { s with answer := [⟨false, v⟩] }

/-- The last access answered with a bus error. -/
def State.busError (s : State) : State := { s with answer := [⟨true, 0⟩] }

/-! ### The physical address map (Table 20.2) -/

/-- How far a 40-bit address stands above a base, modulo the address space. -/
def above (base a : Nat) : Nat := (2 ^ 40 - base + a) % 2 ^ 40

/-- An uncached alias taken back to the address it is an alias of (R579, R580). -/
def unalias (a : Nat) : Nat :=
  if 0x4100000000 ≤ a ∧ a < 0x4105800000 then above 0x4000000000 a else if 0xC000000000 ≤ a ∧ a < 0xC400000000 then above 0x4000000000 a else a

/-- The regions of addressed SRAM, base and size, in ascending order: core-local memory, the context store, supervisor memory, the
event log and the units' own windows, and the Reach working memories (Table 20.2). -/
def sramRegions : List (Nat × Nat) :=
  [(0x0010000000, 0x400000), (0x0100000000, 0x1000000), (0x0104000000, 0x400000), (0x0105000000, 0x800000)]

/-- Whether an address is SRAM. -/
def inSram (a : Nat) : Bool := sramRegions.any fun r => r.1 ≤ a && a < r.1 + r.2

/-- The lowest DRAM address. -/
def dramBase : Nat := 0x8000000000

/-- The bytes of mapped DRAM: 8 or 16 GiB, none after a failed training (R393, R405). -/
def State.dramSize (s : State) : Nat :=
  if s.on Fd.MEM_STATUS_DFAIL then 0 else if s.on Fd.MEM_STATUS_DSIZE then 0x400000000 else 0x200000000

/-- Whether an address is mapped DRAM. -/
def State.inDram (s : State) (a : Nat) : Bool := dramBase ≤ a && a < dramBase + s.dramSize

/-- Whether `n` bytes at an address are SRAM or mapped DRAM. -/
def State.isMem (s : State) (a n : Nat) : Bool :=
  (inSram a && inSram (a + n - 1)) || (s.inDram a && s.inDram (a + n - 1))

/-- The working memory of engine `n` (R79). -/
def wmem (n : Fin 4) : Nat := 0x0105000000 + 0x200000 * n.val

end Sys2Proof.Machine
end

