-- ==== Sys2Proof/Machine/Link.lean ====
section
/-! DEFINITION. What every unit shares of Confluence: this member's place, sending a message, and the spin-up tokens (19). -/

namespace Sys2Proof.Machine

/-- This member's position (R556). -/
def State.pos (s : State) : Nat := s.rd Fd.CFX_STATUS_POS

/-- The members of the group. -/
def State.members (s : State) : Nat := s.rd Fd.CFX_STATUS_SIZE + 1

/-- The Confluence unit changed. -/
def State.cfxUpd (s : State) (g : CfxUnit → CfxUnit) : State := { s with cfx := g s.cfx }

/-! ### Credits (R574) -/

/-- The kind of slot that a message needs at its receiver: 0 class Q, 1 class D of write data, 2 a heartbeat's, 3 an ABORT's, 4 a token message's;
none for one that lands in a slot reserved for it, which never waits (Table 19.4). -/
def slotKind (type : Nat) : Option Nat :=
  if type = 0x02 ∨ type = 0x08 ∨ type = 0x0A then some 0
  else if type = 0x03 then some 1
  else if type = 0x01 then some 2
  else if type = 0x06 then some 3
  else if type = 0x0C then some 4
  else none

/-- The slots of a kind that a receiver keeps for each sender: two of each reserved type. -/
def slotsKept (kind : Nat) : Nat := if 2 ≤ kind then 2 else 1 + Config.linkSlots kind

/-- Whether this member holds a credit for a slot of a kind at a peer. -/
def State.linkCredit (s : State) (p kind : Nat) : Bool := s.cfx.flight.count (p, kind) < slotsKept kind

/-- Whether a message waits for a slot of a kind at a peer. -/
def CMsg.waitsFor (m : CMsg) (p kind : Nat) : Bool := m.dst == p && slotKind m.type == some kind

/-- A message sent (R560), on a credit where its kind needs one; without one it waits, behind those of its kind that wait already (R574). -/
def State.send (s : State) (m : CMsg) : State :=
  s.cfxUpd fun c =>
    match slotKind m.type with
    | none => { c with sent := c.sent ++ [m] }
    | some k =>
      if s.linkCredit m.dst k && !c.held.any (fun h => h.waitsFor m.dst k) then { c with sent := c.sent ++ [m], flight := (m.dst, k) :: c.flight }
      else { c with held := c.held ++ [m] }

/-- The oldest message that waits for a slot of a kind at a peer goes, where a credit is there for it. -/
def State.sendHeld (s : State) (p kind : Nat) : State :=
  match s.cfx.held.find? fun m => m.waitsFor p kind with
  | none => s
  | some m =>
    if s.linkCredit p kind then s.cfxUpd fun c => { c with sent := c.sent ++ [m], flight := (p, kind) :: c.flight, held := c.held.erase m } else s

/-- A peer passes on, or consumes, a message of a kind: its credit returns (R407, R574). -/
def State.slotBack (s : State) (p kind : Nat) : State := (s.cfxUpd fun c => { c with flight := c.flight.erase (p, kind) }).sendHeld p kind

/-- A peer is lost: no credit stays with it, and nothing waits for it. DESIGN CHOICE: the rules do not say what becomes of credits at a loss; a link that
trains again begins with all of them. -/
def State.dropCredits (s : State) (p : Nat) : State :=
  s.cfxUpd fun c => { c with flight := c.flight.filter fun q => q.1 != p, held := c.held.filter fun m => m.dst != p }

/-- A packet that this member relays for a pair of members: it takes a slot that only relayed traffic of its class and pair uses, or leaves it (R559,
R574). -/
def State.relay (s : State) (src dst cls : Nat) (take : Bool) : State :=
  let x := (src, dst, cls)
  if src = dst ∨ s.pos = src ∨ s.pos = dst ∨ s.members ≤ src ∨ s.members ≤ dst ∨ 2 < cls then s
  else if take then (if s.cfx.relays.count x < 1 + Config.relaySlots cls then s.cfxUpd fun c => { c with relays := x :: c.relays } else s)
  else s.cfxUpd fun c => { c with relays := c.relays.erase x }

/-- A token message: request 0, grant 1 or release 2 (Table 19.4). -/
def tokenMsg (dst arg : Nat) : CMsg := ⟨0x0C, dst, 0, arg, []⟩

/-- What is known of a peer. -/
def State.peer (s : State) (p : Nat) : Peer := ((s.cfx.peers.find? fun q => q.1 == p).map Prod.snd).getD Peer.reset

/-- A peer's entry changed. -/
def State.updPeer (s : State) (p : Nat) (g : Peer → Peer) : State :=
  s.cfxUpd fun c => { c with peers := (p, g (s.peer p)) :: c.peers.filter fun q => q.1 != p }

/-- The peers, by position. -/
def State.peerList (s : State) : List Nat := (List.range s.members).filter (· != s.pos)

/-- Whether a peer is heard. -/
def State.hears (s : State) (p : Nat) : Bool := s.rdBit Fd.CFX_PEERS_PRESENT p

/-- Whether a peer's namespaces read anything but Inaccessible: it is heard and, at the lead, has received the admin state (R564, R622). -/
def State.serves (s : State) (p : Nat) : Bool := s.hears p && (!s.on Fd.CFX_STATUS_ISLEAD || (s.peer p).synced)

/-- The lead hands a free token to the oldest request; a token for itself is received at once (R575). -/
def State.grantTokens (s : State) : List Nat → State
  | [] => s
  | p :: l =>
    if s.cfx.holders.length < s.rd Fd.CFX_TOKEN_COUNT then
      let s1 := s.cfxUpd fun c => { c with treqs := l, holders := c.holders ++ [p] }
      (if p = s.pos then (s1.wr Fd.CFX_TOKEN_HELD 1).cfxUpd fun c => { c with asked := false } else s1.send (tokenMsg p 1)).grantTokens l
    else s

/-- A request that reaches the lead (R575). -/
def State.tokenRequest (s : State) (p : Nat) : State :=
  if s.cfx.treqs.contains p || s.cfx.holders.contains p then s
  else
    let s1 := s.cfxUpd fun c => { c with treqs := c.treqs ++ [p] }
    s1.grantTokens s1.cfx.treqs

/-- A token, or a request for one, that returns to the lead (R575). -/
def State.tokenReturn (s : State) (p : Nat) : State :=
  let s1 := s.cfxUpd fun c => { c with treqs := c.treqs.filter (· != p), holders := c.holders.filter (· != p) }
  s1.grantTokens s1.cfx.treqs

/-- This member asks for its token at R472's token step: of the lead, where there is one (R575). -/
def State.tokenAsk (s : State) : State :=
  if s.members = 1 ∨ s.on Fd.CFX_TOKEN_HELD ∨ s.cfx.asked then s
  else
    let s1 := s.cfxUpd fun c => { c with asked := true }
    if s.on Fd.CFX_STATUS_ISLEAD then s1.tokenRequest s.pos
    else if s.on Fd.CFX_STATUS_HASLEAD then s1.send (tokenMsg (s.rd Fd.CFX_STATUS_LEAD) 0) else s1

/-- This member's token, or its request, given up (R472, R575). -/
def State.tokenGive (s : State) : State :=
  let had := s.on Fd.CFX_TOKEN_HELD || s.cfx.asked
  let solo := s.on Fd.CFX_TOKEN_SOLO
  let s1 := ((s.wr Fd.CFX_TOKEN_HELD 0).wr Fd.CFX_TOKEN_SOLO 0).cfxUpd fun c => { c with asked := false }
  if !had || solo then s1
  else if s.on Fd.CFX_STATUS_ISLEAD then s1.tokenReturn s.pos
  else if s.on Fd.CFX_STATUS_HASLEAD then s1.send (tokenMsg (s.rd Fd.CFX_STATUS_LEAD) 2) else s1

end Sys2Proof.Machine
end

