-- ==== Sys2Proof/Machine/Memory.lean ====
section
/-! DEFINITION. The memory controller (12): the Q80 decoder on error patterns, word writes and reads with their counting, buckets, the
scrubber and error injection. Q80 is linear, so what the decoder does depends on the error pattern of a codeword alone; the state holds
the word's own data and, beside it, that pattern. -/

namespace Sys2Proof.Machine

/-! ### The Q80 code (R389 to R391) -/

/-- How many of `n` symbols, from symbol `k` up, an 80-bit error pattern touches. -/
def symCount (e : Nat) : Nat → Nat → Nat
  | _, 0 => 0
  | k, n + 1 => (if bits e (4 * k) 4 = 0 then 0 else 1) + symCount e (k + 1) n

/-- The number of 1 bits among `n` bits from bit `k` up. -/
def popCount (e : Nat) : Nat → Nat → Nat
  | _, 0 => 0
  | k, n + 1 => b2n (bit e k) + popCount e (k + 1) n

/-- The lowest symbol that a pattern touches. -/
def lowSym (e : Nat) : Nat → Nat → Nat
  | k, 0 => k
  | k, n + 1 => if bits e (4 * k) 4 = 0 then lowSym e (k + 1) n else k

/-- The pattern of a poisoned word: every check bit inverted (R391). -/
def poisonPattern : Nat := 0xFFFF * 2 ^ 64

/-- What the decoder makes of a codeword: it delivers the word with the error pattern `left` still in it (0 where it corrects), or it
reports the word as uncorrectable, or as poisoned. -/
inductive Q80 where
  | ok (left : Nat)
  | bad
  | poison
deriving DecidableEq, Repr

/-- The Q80 decoder on an error pattern (R390, R391, R402). -/
def q80 (e : Nat) : Q80 :=
  if symCount e 0 20 ≤ 1 ∨ popCount e 0 80 ≤ 2 then .ok 0
  else if e = poisonPattern then .poison
  else if bits e 64 16 = 0xFFFF then .bad
  else if symCount e 0 20 = 2 then .bad
  else match Config.q80Wide e with
    | none => .bad
    | some l => .ok l

/-! ### Words -/

/-- `n` bytes of memory at an address. -/
def State.bytes (s : State) (a : Nat) : Nat → List Nat
  | 0 => []
  | n + 1 => (tget (0 : Byte) s.mem a).toNat :: s.bytes (a + 1) n

/-- The bytes of memory at an address replaced. -/
def memPutBytes (m : List Host.Cell) (a : Nat) : List Nat → List Host.Cell
  | [] => m
  | b :: l => memPutBytes (tset (0 : Byte) m a (BitVec.ofNat 8 b)) (a + 1) l

/-- The word at byte address 8 w. -/
def State.word (s : State) (w : Nat) : Nat := leValue (s.bytes (8 * w) 8)

/-- The word at byte address 8 w replaced. -/
def State.putWord (s : State) (w v : Nat) : State := { s with mem := memPutBytes s.mem (8 * w) (leBytes 8 v) }

/-- The error pattern of a codeword. -/
def State.err (s : State) (w : Nat) : Nat := tget 0 s.memc.errs w

/-- The error pattern of a codeword made `e`. -/
def State.setErr (s : State) (w e : Nat) : State := { s with memc := { s.memc with errs := tset 0 s.memc.errs w (e % 2 ^ 80) } }

/-- A word with the bytes that `be` enables taken from another. -/
def mergeWord (old new be : Nat) : Nat → Nat
  | 0 => 0
  | n + 1 => mergeWord old new be n + 2 ^ (8 * n) * bits (if bit be n then new else old) (8 * n) 8

/-! ### Buckets and counting (R395, R396, R399, R400) -/

/-- Whether a word stands in DRAM. -/
def wordDram (w : Nat) : Bool := dramBase ≤ 8 * w

/-- Device time up to which a bucket has leaked. -/
def MemUnit.leakAt (u : MemUnit) (m : Nat) : Nat := if m = 0 then u.leakS else u.leakD

/-- The boundaries of bucket `m`'s windows that device time has reached since the bucket last leaked: the windows are half-open, so that a
boundary just reached is past (R15, R399). -/
def State.leaksDue (s : State) (m : Nat) : Nat :=
  let w := 1000000 * s.rd (Fd.MEM_BKT_LEAK_S m)
  s.time / w - s.memc.leakAt m / w

/-- A bucket leaks one credit for each boundary that has passed, never below 0 (R399); below CAP, its next overflow is recorded again
(R400). -/
def State.leak (s : State) (m : Nat) : State :=
  if s.leaksDue m = 0 then s
  else
    let lv := s.rd (Fd.MEM_BKT_LEVEL m) - s.leaksDue m
    let s1 := s.wr (Fd.MEM_BKT_LEVEL m) lv
    { s1 with memc :=
      if m = 0 then { s1.memc with leakS := s.time, overS := s.memc.overS && s.rd (Fd.MEM_BKT_CAP 0) ≤ lv }
      else { s1.memc with leakD := s.time, overD := s.memc.overD && s.rd (Fd.MEM_BKT_CAP 1) ≤ lv } }

/-- BUCKET_CREDIT: a correction of word `w` adds a credit to its memory's bucket, which may overflow (R399, R400). -/
def State.addCredit (s : State) (w : Nat) : State :=
  let m := b2n (wordDram w)
  if s.rd (Fd.MEM_BKT_LEVEL m) < s.rd (Fd.MEM_BKT_CAP m) then s.bump (Fd.MEM_BKT_LEVEL m)
  else
    let s1 := (s.count (Fd.MEM_BKT_OVF m) 1).wr (if m = 0 then Fd.MEM_INT_CEOVF_S else Fd.MEM_INT_CEOVF_D) 1
    if (if m = 0 then s.memc.overS else s.memc.overD) then s1
    else
      let s2 := s1.raise .mem 0x0801 4 (m :: leBytes 5 (8 * w) ++ [s.rd (Fd.MEM_BKT_CAP m)])
      { s2 with memc := if m = 0 then { s2.memc with overS := true } else { s2.memc with overD := true } }

/-- A correction's credit, after the leaks of the boundaries that device time has reached (R399). -/
def State.credit (s : State) (w : Nat) : State := (s.leak (b2n (wordDram w))).addCredit w

/-- A correction by pattern `c` in word `w`, on a request or by the scrubber: counted, located, credited (R395). -/
def State.corrected (s : State) (w c : Nat) (scrub : Bool) : State :=
  (((((s.count (if wordDram w then Fd.MEM_CNT1_CE_D else Fd.MEM_CNT0_CE_S) 1).wr Fd.MEM_CELAST_ADDR w).wr
    Fd.MEM_CELAST_SYM (lowSym c 0 19)).wr Fd.MEM_CELAST_TWOBIT (b2n (symCount c 0 20 ≥ 2))).wr Fd.MEM_CELAST_SCRUB (b2n scrub)).credit w

/-- An uncorrectable word found by requester `r`: counted, located, flagged, and recorded unless it was poisoned (R396). -/
def State.uncorrectable (s : State) (r w : Nat) (poisoned : Bool) : State :=
  let d := wordDram w
  let s1 := ((((s.count (if d then Fd.MEM_CNT2_UE_D else Fd.MEM_CNT2_UE_S) 1).wr Fd.MEM_UELAST_ADDR w).wr
    Fd.MEM_UELAST_POISON (b2n poisoned)).wr Fd.MEM_UELAST_REQ r).wr (if d then Fd.MEM_INT_UE_D else Fd.MEM_INT_UE_S) 1
  if poisoned then s1 else s1.raise .mem 0x0802 6 (leBytes 5 (8 * w) ++ [r, b2n d])

/-! ### Writes (R394) -/

/-- An armed injection at word `w` strikes the codeword just written (Table 12.4). -/
def State.inject (s : State) (w : Nat) : State :=
  if s.on Fd.MEM_INJ_ARM && s.rd Fd.MEM_INJ_ADDR == w then
    (((s.setErr w (s.err w ^^^ (s.rd Fd.MEM_INJMASK_FLIP + 2 ^ 64 * s.rd Fd.MEM_INJ_CHKFLIP))).wr Fd.MEM_INJ_ARM 0).wr
      Fd.MEM_INT_INJDONE 1)
  else s

/-- The memory controller writes a word by its byte enables: whole with a fresh check, masked, or read, corrected and merged, and poisoned
where the read finds the word uncorrectable (R394). -/
def State.memPut (s : State) (w v be : Nat) : State :=
  let be := be % 256
  if be = 0 then s
  else if be = 255 then ((s.putWord w v).setErr w 0).inject w
  else
    let e := s.err w
    match q80 e with
    | .ok l =>
      let s1 := if e ^^^ l = 0 then s else s.corrected w (e ^^^ l) false
      ((s1.putWord w (mergeWord (s.word w ^^^ l % 2 ^ 64) v be 8)).setErr w 0).inject w
    | _ => ((s.putWord w (mergeWord (s.word w) v be 8)).setErr w poisonPattern).inject w

/-- The words, values and enables of `l`, one byte after another from address `a`, each byte written where its bit of `be` is 1. -/
def wordParts (a be : Nat) (l : List Nat) : List (Nat × Nat × Nat) :=
  (List.range ((a + l.length + 7) / 8 - a / 8)).map fun i =>
    let w := a / 8 + i
    let at_ := fun j => 8 * w + j
    (w, leValue ((List.range 8).map fun j => if a ≤ at_ j then l.getD (at_ j - a) 0 else 0),
      ((List.range 8).map fun j => if a ≤ at_ j && at_ j < a + l.length && bit be (at_ j - a) then 2 ^ j else 0).sum)

/-- Bytes written at an address by their enables, word by word. -/
def State.memStore (s : State) (a be : Nat) (l : List Nat) : State :=
  (wordParts a be l).foldl (fun t p => t.memPut p.1 p.2.1 p.2.2) s

/-- Every byte of a store enabled. -/
def allBytes (n : Nat) : Nat := 2 ^ n - 1

/-! ### Reads (R395, R396) -/

/-- One word read for requester `r`: corrected, counted and written back, or reported; the word, or nothing where it is uncorrectable. -/
def State.memGet (s : State) (r w : Nat) : State × Option Nat :=
  let e := s.err w
  match q80 e with
  | .ok l =>
    let v := s.word w ^^^ l % 2 ^ 64
    if e ^^^ l = 0 then (s, some v)
    else
      let s1 := s.corrected w (e ^^^ l) false
      (if s.on Fd.MEM_CTL_CORR_WB then (s1.putWord w v).setErr w 0 else s1, some v)
  | .bad => (s.uncorrectable r w false, none)
  | .poison => (s.uncorrectable r w true, none)

/-- `n` words read in ascending order; nothing is delivered where one of them is uncorrectable. -/
def State.memGets (s : State) (r w : Nat) : Nat → State × Option (List Nat)
  | 0 => (s, some [])
  | n + 1 =>
    let (s1, v) := s.memGet r w
    let (s2, l) := s1.memGets r (w + 1) n
    (s2, match v, l with
      | some v, some l => some (leBytes 8 v ++ l)
      | _, _ => none)

/-- `n` bytes read at an address by requester `r` (R395, R396). -/
def State.memLoad (s : State) (r a n : Nat) : State × Option (List Nat) :=
  let (s1, l) := s.memGets r (a / 8) ((a + n + 7) / 8 - a / 8)
  (s1, l.map fun l => (l.drop (a % 8)).take n)

/-- The answer to a load: its value, little-endian, or a bus error. -/
def State.answerLoad (s : State) (l : Option (List Nat)) : State :=
  { s with answer := s.answer ++ [match l with | some l => ⟨false, leValue l⟩ | none => ⟨true, 0⟩] }

/-! ### The rows -/

/-- Whether a word stands in the factory calibration row (R459, Table 20.2). -/
def inFactoryRow (w : Nat) : Bool := 0x0410000000 ≤ 8 * w && 8 * w < 0x0410002000

/-- MEM_READ (R390, R395 to R400): the error that has struck the first word's codeword joins its pattern, and the read corrects or
reports. -/
def execMemRead (r : Fin 64) (a : BitVec 40) (len : Fin 257) (flip : BitVec 80) (s : State) : Host.Outcome State Fault Refusal :=
  if len.val ≠ 0 ∧ s.isMem a.toNat len.val then
    let s1 := s.setErr (a.toNat / 8) (s.err (a.toNat / 8) ^^^ flip.toNat)
    let p := s1.memLoad r.val a.toNat len.val
    .next (State.answerLoad { p.1 with answer := [] } p.2)
  else .next s.busError

/-- BUCKET_LEAK: the bucket leaks at the boundaries of its windows that device time has reached, once each (R399). -/
def execBucketLeak (m : Fin 2) (s : State) : Host.Outcome State Fault Refusal := .next (s.leak m.val)

/-- The number of words of addressed SRAM. -/
def sramWords : Nat := (sramRegions.map fun r => r.2 / 8).sum

/-- Word `i` of addressed SRAM, in ascending order of addresses. -/
def sramWord (i : Nat) : List (Nat × Nat) → Nat
  | [] => 0
  | (b, n) :: l => if i < n / 8 then b / 8 + i else sramWord (i - n / 8) l

/-- One word read, checked and written back by the scrubber (R402). -/
def State.scrub (s : State) (w : Nat) : State :=
  let e := s.err w
  match q80 e with
  | .ok l => if e ^^^ l = 0 then s else ((s.corrected w (e ^^^ l) true).putWord w (s.word w ^^^ l % 2 ^ 64)).setErr w 0
  | .bad => (((s.putWord w (s.word w ^^^ e % 2 ^ 64)).setErr w poisonPattern).uncorrectable 0x3F w false)
  | .poison => s

/-- The scrubber's next step in SRAM: its pass moves on and, at the last word, ends (R401). -/
def State.scrubSram (s : State) (flip : Nat) : State :=
  let w := sramWord s.memc.posS sramRegions
  let s1 := (s.setErr w (s.err w ^^^ flip)).scrub w
  let s2 := { s1 with memc := { s1.memc with posS := (s.memc.posS + 1) % sramWords } }
  if s.memc.posS + 1 < sramWords then s2 else s2.bump Fd.MEM_STATUS_PASS_S

/-- The scrubber's next step in mapped DRAM. -/
def State.scrubDram (s : State) (flip : Nat) : State :=
  let w := dramBase / 8 + s.memc.posD
  let s1 := (s.setErr w (s.err w ^^^ flip)).scrub w
  let s2 := { s1 with memc := { s1.memc with posD := (s.memc.posD + 1) % (s.dramSize / 8) } }
  if s.memc.posD + 1 < s.dramSize / 8 then s2 else s2.bump Fd.MEM_STATUS_PASS_D

/-- SCRUB_STEP (R401 to R403): the DRAM scrub pauses in PS4. -/
def execScrubStep (dram : Bool) (flip : BitVec 80) (s : State) : Host.Outcome State Fault Refusal :=
  if dram then
    if s.on Fd.MEM_CTL_SCRUB_D ∧ s.dramSize ≠ 0 ∧ s.host.psNow ≠ 4 then .next (s.scrubDram flip.toNat) else .next s
  else if s.on Fd.MEM_CTL_SCRUB_S then .next (s.scrubSram flip.toNat) else .next s

/-- MEM_INJ_ARM: a write of MEM.INJ, accepted from the watch core alone (R406). -/
def execMemInjArm (r : Requester) (v : BitVec 64) (s : State) : Host.Outcome State Fault Refusal :=
  if r = .watch then
    .next (((s.wr Fd.MEM_INJ_ARM (bits v.toNat 0 1)).wr Fd.MEM_INJ_ADDR (bits v.toNat 3 37)).wr Fd.MEM_INJ_CHKFLIP (bits v.toNat 40 16))
  else .next s

end Sys2Proof.Machine
end

