-- ==== Sys2Proof/Machine/Geometry.lean ====
section
/-! DEFINITION. The recorded surface (02): CRC-32C, region tables, bands, tracks and slots, parity groups, track positions, and the radial
coordinate of the servo (06). -/

namespace Sys2Proof.Machine

/-! ### CRC-32C (R70) -/

/-- One byte taken into a reflected CRC-32C register, `k` bits of it. -/
def crcBits (c : Nat) : Nat → Nat
  | 0 => c
  | k + 1 => crcBits (if c % 2 = 1 then c / 2 ^^^ 0x82F63B78 else c / 2) k

/-- A CRC-32C register through bytes; its cases on the register are one, and keep an evaluation byte by byte. -/
def crcBytes : List Nat → Nat → Nat
  | [], c => c
  | b :: l, 0 => crcBytes l (crcBits (b % 256) 8)
  | b :: l, c + 1 => crcBytes l (crcBits ((c + 1) ^^^ b % 256) 8)

/-- CRC-32C of bytes (R70). -/
def crc32c (l : List Nat) : Nat := crcBytes l 0xFFFFFFFF ^^^ 0xFFFFFFFF

/-! ### Track positions (Table 03.3) -/

/-- SLOT of a track position. -/
def tpSlot (tp : Nat) : Nat := bits tp 0 11

/-- TRACK of a track position. -/
def tpTrack (tp : Nat) : Nat := bits tp 11 24

/-- HEAD of a track position. -/
def tpHead (tp : Nat) : Nat := bits tp 35 3

/-- The track position of a slot of a track of a head. -/
def mkTp (head track slot : Nat) : Nat := 2 ^ 35 * (head % 8) + 2 ^ 11 * (track % 2 ^ 24) + slot % 2 ^ 11

/-! ### Region tables (R62, R63, Table 02.4) -/

/-- A format region as its descriptor gives it. -/
structure Region where
  firstBank : Nat
  firstTrack : Nat
  bands : Nat
  tone : Nat
  slots : Nat
  skew : Nat
  cmr : Bool
  spacing : Nat
  guard : Nat
deriving DecidableEq, Repr

/-- Word `i` of little-endian bytes. -/
def leWord (l : List Nat) (i : Nat) : Nat := leValue ((l.drop (4 * i)).take 4)

/-- The spacing that a SPACING code names (R46). DESIGN CHOICE: R46 gives no spacing to the reserved code 3, and R63 needs one to tell whether
condition 3 or 6 fails before condition 5 does: 64 is taken. -/
def spacingOf (c : Nat) : Nat := if c = 0 then 16 else if c = 1 then 32 else 64

/-- The region of a descriptor's 32 bytes. DESIGN CHOICE: R46 gives no tracks per band to the reserved TYPE codes 2 and 3, which conditions 3
and 6 of R63 reckon with before condition 5 refuses them: they are taken as SMR. -/
def Region.parse (l : List Nat) : Region :=
  ⟨bits (leWord l 0) 0 20, bits (leWord l 1) 0 24, bits (leWord l 2) 0 20, bits (leWord l 3) 0 24, bits (leWord l 4) 0 11,
    bits (leWord l 4) 16 6, bits (leWord l 5) 0 2 == 1, spacingOf (bits (leWord l 5) 2 2), bits (leWord l 5) 16 10⟩

/-- Tracks per band (R46). -/
def Region.tracks (r : Region) : Nat := if r.cmr then r.spacing / 2 else r.spacing

/-- Slots of one band. -/
def Region.bandSlots (r : Region) : Nat := r.tracks * r.slots

/-- The address of the table of head `h` of engine `n` (R82). -/
def tableAddr (n : Fin 4) (h : Nat) : Nat := wmem n + 0x2000 * h

/-- Descriptors from number `i` on, up to the first that is all zero or the 256th (R82). -/
def State.descsFrom (s : State) (n : Fin 4) (h i : Nat) : Nat → List (List Nat)
  | 0 => []
  | k + 1 =>
    let d := s.bytes (tableAddr n h + 32 * i) 32
    if d.all fun b => b == 0 then [] else d :: s.descsFrom n h (i + 1) k

/-- The descriptors of a head. -/
def State.descs (s : State) (n : Fin 4) (h : Nat) : List (List Nat) := s.descsFrom n h 0 256

/-- The regions of a head. -/
def State.regions (s : State) (n : Fin 4) (h : Nat) : List Region := (s.descs n h).map Region.parse

/-- The index of the first item of a list, counted from `i`, that fails a test. -/
def firstBad {α : Type} (p : α → Bool) (i : Nat) : List α → Option Nat
  | [] => none
  | a :: l => if p a then firstBad p (i + 1) l else some i

/-- Whether a descriptor's CRC matches (condition 0). -/
def descCrc (l : List Nat) : Bool := leWord l 7 == crc32c (l.take 28)

/-- Whether a descriptor uses no reserved value and keeps every range of Table 02.4 (condition 5). -/
def descRange (l : List Nat) : Bool :=
  bits (leWord l 0) 20 12 == 0 && bits (leWord l 1) 24 8 == 0 && bits (leWord l 2) 20 12 == 0 && bits (leWord l 3) 24 8 == 0 &&
  bits (leWord l 4) 11 5 == 0 && bits (leWord l 4) 22 10 == 0 && bits (leWord l 5) 4 12 == 0 && bits (leWord l 5) 26 6 == 0 &&
  leWord l 6 == 0 && bits (leWord l 2) 0 20 != 0 && 0x10000 ≤ bits (leWord l 3) 0 24 && bits (leWord l 5) 0 2 ≤ 1 &&
  bits (leWord l 5) 2 2 ≤ 2 && bits (leWord l 5) 16 10 ≤ (if bits (leWord l 5) 0 2 == 1 then 0 else 512)

/-- The slots of a track, floor((16 × N_tone − 4,096) / 37,000): below 0 for a tone that leaves no gap (R57). -/
def slotsFor (tone : Nat) : Int := ((16 * tone : Nat) - 4096 : Int) / 37000

/-- Whether each region starts where the one before it ends: banks (condition 2) or tracks (condition 3). -/
def firstGap (next : Region → Nat) (start : Region → Nat) (i : Nat) : List Region → Option Nat
  | a :: b :: l => if start b = next a then firstGap next start (i + 1) (b :: l) else some (i + 1)
  | _ => none

/-- The lowest-numbered condition of R63 that a table fails, and the first descriptor that fails it. -/
def tableFault (ds : List (List Nat)) : Option (Nat × Nat) :=
  let rs := ds.map Region.parse
  let c0 := (firstBad descCrc 0 ds).map fun i => (0, i)
  let c1 := match rs with
    | [] => some (1, 0)
    | r :: _ => if r.firstBank = 0 ∧ r.firstTrack = 0 then none else some (1, 0)
  let c2 := (firstGap (fun r => r.firstBank + r.bands) Region.firstBank 0 rs).map fun i => (2, i)
  let c3 := (firstGap (fun r => r.firstTrack + r.bands * r.tracks) Region.firstTrack 0 rs).map fun i => (3, i)
  let c4 := (firstBad (fun r : Region => (r.slots : Int) == slotsFor r.tone) 0 rs).map fun i => (4, i)
  let c5 := (firstBad descRange 0 ds).map fun i => (5, i)
  let c6 := (firstBad (fun r : Region => r.firstTrack + r.bands * r.tracks ≤ 16777216 && r.firstBank + r.bands ≤ 1048575) 0 rs).map
    fun i => (6, i)
  c0 <|> c1 <|> c2 <|> c3 <|> c4 <|> c5 <|> c6

/-- Whether a head is served: its table is valid (Table 03.18), and it is not out of service (R208). -/
def State.headOk (s : State) (n : Fin 4) (h : Nat) : Bool :=
  s.rdBit (Fd.RCH_REGION_VALID n) h && !(h < 8 && s.unit (.head n (Fin.ofNat 8 h)) == 7)

/-- The region that holds a track. -/
def regionAt (rs : List Region) (track : Nat) : Option Region :=
  rs.find? fun r => r.firstTrack ≤ track && track < r.firstTrack + r.bands * r.tracks

/-- The region that holds the band on the inner side of a bank. -/
def regionOfBank (rs : List Region) (bank : Nat) : Option Region :=
  rs.find? fun r => r.firstBank ≤ bank && bank < r.firstBank + r.bands

/-! ### Slots within a band (R73, R74) -/

/-- The slots that a band's last, incomplete group leaves (R74). -/
def Region.rem (r : Region) : Nat := r.bandSlots % 64

/-- What the slot at a band slot index is. -/
inductive SlotKind where
  | data | parity | unused
deriving DecidableEq, Repr

/-- The kind of the slot at band slot index `b` (R61, R73, R74). -/
def Region.kind (r : Region) (b : Nat) : SlotKind :=
  if r.cmr then .data
  else if b / 64 < r.bandSlots / 64 then (if b % 64 < 62 then .data else .parity)
  else if r.rem < 3 then .unused
  else if b % 64 < r.rem - 2 then .data else .parity

/-- The data slots of one band. -/
def Region.bandData (r : Region) : Nat :=
  if r.cmr then r.bandSlots else r.bandSlots / 64 * 62 + (r.rem - 2)

/-- The data index within the band of the data slot at band slot index `b`. -/
def Region.toData (r : Region) (b : Nat) : Nat := if r.cmr then b else b / 64 * 62 + b % 64

/-- The band slot index of data index `d` within the band. -/
def Region.ofData (r : Region) (d : Nat) : Nat := if r.cmr then d else d / 62 * 64 + d % 62

/-- The data slots of the group of band slot index `b`. -/
def Region.groupData (r : Region) (b : Nat) : Nat := if b / 64 < r.bandSlots / 64 then 62 else r.rem - 2

/-! ### Places -/

/-- Where a track position lies: its region, the band in the region, the track in the band and the slot. -/
structure Place where
  r : Region
  band : Nat
  i : Nat
  slot : Nat
deriving DecidableEq, Repr

/-- The place of a track position in a region. -/
def Region.placeOf (r : Region) (tp : Nat) : Place :=
  ⟨r, (tpTrack tp - r.firstTrack) / r.tracks, (tpTrack tp - r.firstTrack) % r.tracks, tpSlot tp⟩

/-- The band slot index of a place (R73). -/
def Place.index (p : Place) : Nat := p.i * p.r.slots + p.slot

/-- The bank on the outer side of a place's band. -/
def Place.bank (p : Place) : Nat := p.r.firstBank + p.band

/-- The first track of a place's band. -/
def Place.bandTrack (p : Place) : Nat := p.r.firstTrack + p.band * p.r.tracks

/-- Where a place's slot begins, in bits from angular position 0 (R58). -/
def Place.angle (p : Place) : Nat := (p.i * p.r.skew * 37000 + p.slot * 37000) % (16 * p.r.tone)

/-- The kind of a place's slot. -/
def Place.kind (p : Place) : SlotKind := p.r.kind p.index

/-- The track position of band slot index `b` of a place's band, on head `h`. -/
def Place.tpAt (p : Place) (h b : Nat) : Nat := mkTp h (p.bandTrack + b / p.r.slots) (b % p.r.slots)

/-- The place a track position names, where its head's table is valid and holds it (R84). -/
def State.place (s : State) (n : Fin 4) (tp : Nat) : Option Place :=
  if 2 ^ 38 ≤ tp then none
  else if !s.headOk n (tpHead tp) then none
  else
    match regionAt (s.regions n (tpHead tp)) (tpTrack tp) with
    | none => none
    | some r => if tpSlot tp < r.slots then some (r.placeOf tp) else none

/-- The first band slot index at or after `b` whose slot is wanted, among `k`. -/
def Region.seekKind (r : Region) (parity : Bool) (b : Nat) : Nat → Option Nat
  | 0 => none
  | k + 1 =>
    if r.bandSlots ≤ b then none
    else match r.kind b with
      | .data => some b
      | .parity => if parity then some b else r.seekKind parity (b + 1) k
      | .unused => r.seekKind parity (b + 1) k

/-- The next slot after a track position in the order of R85: the next data slot, or with `parity` the next data or parity slot; past the
band's last, slot 0 of the next band's first track; none beyond the surface's last track. -/
def State.nextSlot (s : State) (n : Fin 4) (parity : Bool) (tp : Nat) : Option Nat :=
  let rs := s.regions n (tpHead tp)
  match regionAt rs (tpTrack tp) with
  | none => none
  | some r =>
    let p := r.placeOf tp
    match r.seekKind parity (p.index + 1) 66 with
    | some b => some (p.tpAt (tpHead tp) b)
    | none =>
      let t := p.bandTrack + r.tracks
      if (regionAt rs t).isSome then some (mkTp (tpHead tp) t 0) else none

/-- The next slot in track order (R126). -/
def State.nextRaw (s : State) (n : Fin 4) (tp : Nat) : Option Nat :=
  let rs := s.regions n (tpHead tp)
  match regionAt rs (tpTrack tp) with
  | none => none
  | some r =>
    if tpSlot tp + 1 < r.slots then some (tp + 1)
    else if (regionAt rs (tpTrack tp + 1)).isSome then some (mkTp (tpHead tp) (tpTrack tp + 1) 0) else none

/-! ### The radial coordinate (R213) -/

/-- X of the start of each region, from `x` on (R213). -/
def bankX (x : Int) (bank : Nat) : List Region → Int
  | [] => x
  | r :: l =>
    let per : Int := 1024 * (r.spacing + 2)
    if bank < r.firstBank + r.bands ∨ l = [] then x + ((bank : Int) - r.firstBank) * per else bankX (x + r.bands * per) bank l

/-- X of the position-half centre of a bank on a head (R213). -/
def State.xBank (s : State) (n : Fin 4) (h bank : Nat) : Int := bankX 512 bank (s.regions n h)

/-- X of the centre of a place's track (R213). -/
def State.xTrack (s : State) (n : Fin 4) (h : Nat) (p : Place) : Int :=
  s.xBank n h p.bank + (if p.r.cmr then 1024 * (2 * p.i + 2) + 512 else 1024 * (p.i + 2))

/-- The bank of a head nearest X, the outer of two equally near (R216, R225): the whole bank periods are counted region by region. -/
def nearBank (x : Int) (x0 : Int) : List Region → Nat
  | [] => 0
  | r :: l =>
    let per : Int := 1024 * (r.spacing + 2)
    if x < x0 + r.bands * per ∨ l = [] then
      r.firstBank + min r.bands (((x - x0 + (per - 1) / 2) / per).toNat)
    else nearBank x (x0 + r.bands * per) l

/-- The bank of a head nearest X. -/
def State.bankNear (s : State) (n : Fin 4) (h : Nat) (x : Int) : Nat := nearBank x 512 (s.regions n h)

/-- The region whose bank period holds around a bank: that of the band on its inner side, or the last one. -/
def State.bankRegion (s : State) (n : Fin 4) (h bank : Nat) : Option Region :=
  match regionOfBank (s.regions n h) bank with
  | some r => some r
  | none => (s.regions n h).getLast?

end Sys2Proof.Machine
end

