-- ==== Sys2Proof/Machine/Space.lean ====
section
/-! DEFINITION. Where blocks lie: the slots of a zone, the conventional extents, local namespaces, and the key ranges over them (02, 09, 10,
21). -/

namespace Sys2Proof.Machine

/-! ### Zones on a surface (R293, R294) -/

/-- The zone record of a zone ID, as the cache holds it. -/
def zlookup (z : Nat) : List (Nat × Zone) → Option Zone
  | [] => none
  | (j, a) :: t => if j = z then some a else zlookup z t

/-- The zone record of a zone ID. -/
def State.zone? (s : State) (z : Nat) : Option Zone := zlookup z s.zone.zones

/-- The track position of slot number `k` among the data slots of consecutive bands from `bank` on (`all`: every slot counts). -/
def slotAt (rs : List Region) (h : Nat) (all : Bool) (bank k : Nat) : Nat → Option Nat
  | 0 => none
  | fuel + 1 =>
    match regionOfBank rs bank with
    | none => none
    | some r =>
      let size := if all then r.bandSlots else r.bandData
      if k < size then
        let b := if all then k else r.ofData k
        some (mkTp h (r.firstTrack + (bank - r.firstBank) * r.tracks + b / r.slots) (b % r.slots))
      else slotAt rs h all (bank + 1) (k - size) fuel

/-- How many such slots the bands before `bank` hold, from `first` on. -/
def slotsBefore (rs : List Region) (all : Bool) (first : Nat) : Nat → Nat
  | 0 => 0
  | k + 1 =>
    slotsBefore rs all first k + (match regionOfBank rs (first + k) with
      | none => 0
      | some r => if all then r.bandSlots else r.bandData)

/-- The track position of data index `d` of a zone (R294). -/
def State.zoneTp (s : State) (z : Zone) (d : Nat) : Option Nat :=
  slotAt (s.regions z.act z.head.val) z.head.val false z.firstBank d z.nbands

/-- The zone whose bands hold a bank of a head. -/
def zoneOfBank (n : Fin 4) (h bank : Nat) (l : List (Nat × Zone)) : Option (Nat × Zone) :=
  l.find? fun p => p.2.act == n && p.2.head.val == h && p.2.firstBank ≤ bank && bank < p.2.firstBank + p.2.nbands

/-- The zone that a slot belongs to, and its data index where it is a data slot. -/
def State.zoneAt (s : State) (n : Fin 4) (tp : Nat) : Option (Nat × Zone × Nat) :=
  match s.place n tp with
  | none => none
  | some p =>
    match zoneOfBank n (tpHead tp) p.bank s.zone.zones with
    | none => none
    | some (id, z) =>
      some (id, z, slotsBefore (s.regions n (tpHead tp)) false z.firstBank (p.bank - z.firstBank) + p.r.toData p.index)

/-! ### Conventional extents (R314, Table 09.4) -/

/-- A conventional extent. -/
structure Extent where
  bank : Nat
  head : Nat
  bands : Nat
  lba : Nat
  blocks : Nat
deriving DecidableEq, Repr

/-- Extent `e` of an actuator, where it is in use. -/
def State.extent (s : State) (n : Fin 4) (e : Nat) : Option Extent :=
  let w := fun i => s.rd (Fd.RCH_CEXT_WORD n e i)
  if bit (w 0) 23 then some ⟨bits (w 0) 0 20, bits (w 0) 20 3, bits (w 1) 0 20, bits (w 2) 0 25, bits (w 3) 0 25⟩ else none

/-- The extents in use of an actuator, in order. -/
def State.extents (s : State) (n : Fin 4) : List Extent := (List.range 64).filterMap (s.extent n)

/-- The conventional block that a slot holds: only a slot of a CMR band holds one (R61, R314). -/
def State.convAt (s : State) (n : Fin 4) (tp : Nat) : Option Nat :=
  match s.place n tp with
  | none => none
  | some p =>
    if !p.r.cmr then none
    else match (s.extents n).find? fun x => x.head == tpHead tp && x.bank ≤ p.bank && p.bank < x.bank + x.bands with
    | none => none
    | some x =>
      let k := slotsBefore (s.regions n (tpHead tp)) true x.bank (p.bank - x.bank) + p.index
      if k < x.blocks then some (x.lba + k) else none

/-- Where a conventional block is stored; an extent's slots in other than CMR bands hold none (R61). -/
def State.convTp (s : State) (lba : Nat) : Option (Fin 4 × Nat) :=
  (four.flatMap fun n => (s.extents n).map fun x => (n, x)).findSome? fun p =>
    if p.2.lba ≤ lba ∧ lba < p.2.lba + p.2.blocks then
      ((slotAt (s.regions p.1 p.2.head) p.2.head true p.2.bank (lba - p.2.lba) p.2.bands).filter fun tp =>
        (s.convAt p.1 tp).isSome).map fun tp => (p.1, tp)
    else none

/-! ### Local namespaces (R333) -/

/-- Whether local namespace `j` exists. -/
def State.nsValid (s : State) (j : Nat) : Bool := 1 ≤ j && j ≤ 5 && s.on (Fd.INT_NSCFG_VALID j)

/-- Whether a namespace is zoned. -/
def State.nsZoned (s : State) (j : Nat) : Bool := s.on (Fd.INT_NSCFG_ZONED j)

/-- The first zone ID of a zoned namespace. -/
def State.nsFirst (s : State) (j : Nat) : Nat := s.rd (Fd.INT_NSFIRST_FIRSTZONE j)

/-- The zones of a zoned namespace. -/
def State.nsZones (s : State) (j : Nat) : Nat := s.rd (Fd.INT_NSZONES_ZONES j)

/-- NSZE of a local namespace (R333); the conventional one has at most 16,777,216 sectors (R61). -/
def State.nsSize (s : State) (j : Nat) : Nat :=
  if s.nsZoned j then 65536 * s.nsZones j else min 16777216 ((four.flatMap s.extents).map Extent.blocks).sum

/-- The zoned namespace that holds a zone. -/
def State.nsOfZone (s : State) (z : Nat) : Option Nat :=
  [2, 3, 4, 5].find? fun j => s.nsValid j && s.nsFirst j ≤ z && z < s.nsFirst j + s.nsZones j

/-- The local namespace that an NSID names at this member (R333). -/
def State.nsLocal (s : State) (nsid : Nat) : Option Nat :=
  let q := s.rd Fd.CFX_STATUS_POS
  if 8 * q < nsid ∧ nsid - 8 * q ≤ 5 ∧ s.nsValid (nsid - 8 * q) then some (nsid - 8 * q) else none

/-- The NSID of a local namespace (R333). -/
def State.nsid (s : State) (j : Nat) : Nat := 8 * s.rd Fd.CFX_STATUS_POS + j

/-! ### Key ranges (R601) -/

/-- Whether locking range `r` holds a block. -/
def State.rangeHolds (s : State) (r j lba : Nat) : Bool :=
  s.on (Fd.TRU_RANGE_CFG_DEFINED r) && s.rd (Fd.TRU_RANGE_CFG_NS r) == j && s.rd (Fd.TRU_RANGE_START_LBA r) ≤ lba &&
    lba < s.rd (Fd.TRU_RANGE_START_LBA r) + s.rd (Fd.TRU_RANGE_LEN_BLOCKS r)

/-- The key range of a block: the locking range that holds it, else the global range (R601). -/
def State.keyRange (s : State) (j lba : Nat) : Nat := (((List.range 64).map (· + 1)).find? fun r => s.rangeHolds r j lba).getD 0

/-- The key range of data index `d` of a zone. -/
def State.zoneRange (s : State) (z d : Nat) : Nat :=
  match s.nsOfZone z with
  | none => 0
  | some j => s.keyRange j (65536 * (z - s.nsFirst j) + d)

/-! ### Parts out of service (Table 10.2) -/

/-- HSK.START.PHn of an actuator (Table 22.6). -/
def phFld (n : Fin 4) : Fld :=
  if n.val = 0 then Fd.HSK_START_PH0 else if n.val = 1 then Fd.HSK_START_PH1 else if n.val = 2 then Fd.HSK_START_PH2 else Fd.HSK_START_PH3

/-- Whether a head is out of service (Table 10.2). -/
def State.headOut (s : State) (n : Fin 4) (h : Nat) : Bool :=
  s.rd (phFld n) == 0xF || s.rdBit (Fd.RCH_REGION_FAIL n) h || s.on (Fd.CHN_STATUS_FAILED n) || s.unit (.reach n) == 7

/-- Whether a head serves reads only (Table 10.2). -/
def State.readsOnly (s : State) (n : Fin 4) (h : Nat) : Bool :=
  s.on (Fd.RCH_UCODE_DEGR n) || s.on (Fd.SRV_STATUS_DEGR n) || s.unit (.reach n) == 6 || s.unit (.servo n) == 6 || (s.rd (phFld n) == 8 && s.rd (Fd.CHN_WCFG_AKIND n h) == 0)

end Sys2Proof.Machine
end

