-- ==== Sys2Proof/Machine/Keys.lean ====
section
/-! DEFINITION. Changes of key ranges and media keys, and the contexts they wait for (21). -/

namespace Sys2Proof.Machine

/-- The trust unit changed. -/
def State.truPut (s : State) (g : TrustUnit → TrustUnit) : State := { s with trust := g s.trust }

/-- A range's key loaded into the cipher, or removed from it (R604). -/
def State.setKey (s : State) (r : Nat) (b : Bool) : State :=
  (s.wr (Fd.TRU_RANGE_CFG_KEYOK r) (b2n b)).truPut fun t =>
    { t with loaded := if b then (if t.loaded.contains r then t.loaded else t.loaded ++ [r]) else t.loaded.filter (· != r) }

/-- GEN of a range's current key: that of its record with the highest GEN, none where it has no record (R606). -/
def State.genOf (s : State) (r : Nat) : Option Nat :=
  (s.trust.keys.filter fun k => k.range == r).foldl (fun m k => some (max (m.getD 0) k.gen)) none

/-- The key of a range loaded where the range has one and a lock bit is 0, else removed (R604). -/
def State.fitKey (s : State) (r : Nat) : State :=
  s.setKey r ((s.genOf r).isSome && !(s.on (Fd.TRU_RANGE_CFG_RLCK r) && s.on (Fd.TRU_RANGE_CFG_WLCK r)))

/-- The key of a range with a record of the next GEN, the older records erased (steps 2 to 5 of R606). -/
def State.newKey (s : State) (r : Nat) : State :=
  let g := ((s.genOf r).getD 0 + 1) % 2 ^ 32
  let s1 := (s.truPut fun t => { t with keys := t.keys.filter (fun k => k.range != r) ++ [⟨r, g⟩] }).fitKey r
  ((s1.wr (Fd.TRU_RANGE_GEN_GEN r) g).wr Fd.TRU_INT_GENKEY 1).wr Fd.TRU_STATUS_GKCUT 0

/-- A change of a range completes (R603, R604, R606). -/
def State.applyChange (s : State) (r : Nat) : RangeChange → State
  | .lock rl wl => ((s.wr (Fd.TRU_RANGE_CFG_RLCK r) (b2n rl)).wr (Fd.TRU_RANGE_CFG_WLCK r) (b2n wl)).fitKey r
  | .geometry d ns start len =>
    s.wrs [(Fd.TRU_RANGE_CFG_DEFINED r, b2n d), (Fd.TRU_RANGE_CFG_NS r, ns), (Fd.TRU_RANGE_START_LBA r, start), (Fd.TRU_RANGE_LEN_BLOCKS r, len)]
  | .genkey => s.newKey r

/-- The changes of a list that wait for nothing any more complete, in order. -/
def State.applyChanges (s : State) : List (Nat × RangeChange × List Nat) → State
  | [] => s
  | w :: l => (if w.2.2 = [] then s.applyChange w.1 w.2.1 else s).applyChanges l

/-- The Sanitize operation ends once its records are durable and its keys are made (R338). -/
def State.settleSanitize (s : State) : State :=
  let h := s.host
  if h.sanitize && h.sanWait.isNone && h.sanRecs == [] && !h.sanAgain && s.trust.waits.all (fun w => w.2.1 != .genkey) then
    { s with host := { h with sanitize := false, sanitizeDone := true } }
  else s

/-- A context gone: no change waits for it any longer, and what waited for it alone completes (R603). -/
def State.settleRanges (s : State) (c : Nat) : State :=
  let ws := s.trust.waits.map fun w => (w.1, w.2.1, w.2.2.filter (· != c))
  ((s.truPut fun t => { t with waits := ws.filter fun w => w.2.2 != [] }).applyChanges ws).settleSanitize

end Sys2Proof.Machine
end

