-- ==== Sys2Proof/Machine/Ctx.lean ====
section
/-! DEFINITION. Contexts of the intake: reading and changing one, its links, and handing it to completion (10, 07). -/

namespace Sys2Proof.Machine

/-- The context of a number in a list. -/
def ctxLookup (c : Nat) : List (Nat × Ctx) → Option Ctx
  | [] => none
  | (j, x) :: t => if j = c then some x else ctxLookup c t

/-- A context that is not free (Table 10.4). -/
def State.ctx? (s : State) (c : Nat) : Option Ctx := ctxLookup c s.host.ctxs

/-- The host side replaced. -/
def State.hput (s : State) (g : HostSide → HostSide) : State := { s with host := g s.host }

/-- STATE of a context as Table 10.4 numbers it. -/
def CtxSt.num : CtxSt → Nat
  | .held => 1 | .admitted => 2 | .bound => 3 | .completing => 4 | .posted => 5

/-- CLASS of a context as Table 10.4 numbers it. -/
def CtxClass.num : CtxClass → Nat
  | .admin => 0 | .urgent => 1 | .high => 2 | .medium => 3 | .low => 4

/-- Bytes 0 to 103 of a context in the context store (Table 10.4). -/
def Ctx.bytes (x : Ctx) : List Nat :=
  (List.range 16).flatMap (fun i => leBytes 4 (x.sqe.getD i 0).toNat) ++ [x.sq, x.ctl.val, x.st.num, x.cls.num] ++
    leBytes 4 (match x.link with | none => 0 | some d => d + 0x10000) ++
    leBytes 4 (2 * x.sc + 512 * x.sct + 0x10000 * b2n x.begun) ++ leBytes 4 x.res0 ++ leBytes 4 x.res1 ++ leBytes 6 x.fetched ++
    leBytes 6 x.deadline ++ leBytes 8 x.buf

/-- The address of a context in the context store (R340, Table 20.2). -/
def ctxAddr (c : Nat) : Nat := 0x0100000000 + 256 * c

/-- The bytes of a context brought up to date in the context store. -/
def State.ctxSync (s : State) (c : Nat) : State :=
  { s with mem := memPutBytes s.mem (ctxAddr c) (match s.ctx? c with
    | some x => x.bytes
    | none => List.replicate 104 0) }

/-- A context replaced, where it is not free. -/
def State.ctxUpd (s : State) (c : Nat) (g : Ctx → Ctx) : State :=
  (s.hput fun h => { h with ctxs := h.ctxs.map fun p => if p.1 = c then (p.1, g p.2) else p }).ctxSync c

/-- A free context taken. -/
def State.ctxNew (s : State) (c : Nat) (x : Ctx) : State :=
  ((s.hput fun h => { h with ctxs := tinsert h.ctxs c x }).wr Fd.INT_STATUS_CTXUSED (s.host.ctxs.length + 1)).ctxSync c

/-- A context freed, its buffers no longer marked (Table 10.4); range changes no longer wait for it (R603). -/
def State.ctxFree (s : State) (c : Nat) : State :=
  let s1 := s.hput fun h => { h with ctxs := h.ctxs.filter fun p => p.1 != c }
  let s2 := { s1 with stage := { s1.stage with invalid := s1.stage.invalid.filter fun p => p.1 != c } }
  ((s2.wr Fd.INT_STATUS_CTXUSED s2.host.ctxs.length).ctxSync c).settleRanges c

/-- The opcode of a submission entry. -/
def Ctx.opcode (x : Ctx) : Nat := bits (x.sqe.getD 0 0).toNat 0 8

/-- Dword `i` of a submission entry. -/
def Ctx.dw (x : Ctx) (i : Nat) : Nat := (x.sqe.getD i 0).toNat

/-- The command identifier. -/
def Ctx.cid (x : Ctx) : Nat := bits (x.dw 0) 16 16

/-- The namespace of a submission entry. -/
def Ctx.nsid (x : Ctx) : Nat := x.dw 1

/-- The starting LBA of an I/O command. -/
def Ctx.slba (x : Ctx) : Nat := x.dw 10 + 2 ^ 32 * x.dw 11

/-- The number of blocks of an I/O command, from its 0-based field. -/
def Ctx.nlb (x : Ctx) : Nat := bits (x.dw 12) 0 16 + 1

/-- Whether the context is of the admin queue. -/
def Ctx.admin (x : Ctx) : Bool := x.sq == 0

/-- Whether an I/O command writes blocks: Write, Write Zeroes, Zone Append. -/
def Ctx.writes (x : Ctx) : Bool := !x.admin && (x.opcode == 0x01 || x.opcode == 0x08 || x.opcode == 0x7D)

/-- Whether an I/O command reads blocks: Read and Verify. -/
def Ctx.reads (x : Ctx) : Bool := !x.admin && (x.opcode == 0x02 || x.opcode == 0x0C)

/-- Whether a context has been handed to completion and not been posted, or has been posted. -/
def Ctx.done? (x : Ctx) : Bool := x.handed

/-- Whether a context is live and bound to engine `n` (R128). -/
def State.boundTo (s : State) (n : Fin 4) (c : Nat) : Bool :=
  match s.ctx? c with
  | some x => x.bound == some n && !x.handed
  | none => false

/-- A context handed to completion with a status (R131, R253); a status that a transfer has given it stands before success (R603). -/
def State.handOver (s : State) (c sct sc : Nat) : State :=
  let ok := sct = 0 ∧ sc = 0
  s.ctxUpd c fun x =>
    { x with handed := true, st := .completing, sct := if ok then x.sct else sct, sc := if ok then x.sc else sc, deadline := 0 }

/-- The contexts of one command, from context `c` on along LINK (R252, R340). -/
def State.linked (s : State) (c : Nat) : Nat → List Nat
  | 0 => []
  | k + 1 =>
    match s.ctx? c with
    | none => []
    | some x => c :: (match x.link with
      | none => []
      | some d => s.linked d k)

end Sys2Proof.Machine
end

