-- ==== Sys2Proof/Machine/Recorder.lean ====
section
/-! DEFINITION. The event recorder (18): sequencing, collapsing, rate limits, the full log, the persistent ring, clearing, and event
fences. -/

namespace Sys2Proof.Machine

/-- The number of ordinary slots; the slot after them is kept for the FULL record (R544). -/
def ordinarySlots : Nat := 16383

/-- The recorder replaced. -/
def State.evrPut (s : State) (g : Recorder → Recorder) : State := { s with evr := g s.evr }

/-- PHASE in force: recovery, start-up, or EVR.CTL.PHASE (R541). -/
def State.evPhase (s : State) : Nat :=
  if ((List.range 5).any fun d => s.on (Fd.IRT_DSTAT_STATE d)) || s.watch.restarting || s.watch.due.isSome || (List.range 4).any fun n => s.on (Fd.RCH_ZCTL_RECOV n)
  then 3
  else if s.evr.phaseSet then s.rd Fd.EVR_CTL_PHASE else 1

/-- The code of one of the recorder's own records (Table 18.2). -/
def ownCode (c : Nat) : Bool := 1 ≤ c && c ≤ 6

/-- The ordinary records, in slot order. -/
def Recorder.ordinary (e : Recorder) : List (Nat × LogRec) := e.slots.filter fun p => p.1 < ordinarySlots

/-- Whether the log is full (R544). -/
def Recorder.isFull (e : Recorder) : Bool := ordinarySlots ≤ e.ordinary.length

/-- The record with the highest SEQ, and its slot. -/
def highest : List (Nat × LogRec) → Option (Nat × LogRec)
  | [] => none
  | p :: l =>
    match highest l with
    | none => some p
    | some q => if q.2.seq < p.2.seq then some p else some q

/-- The record of the lowest SEQ among those of severity below `sev`, and its slot (R545). -/
def lowestBelow (sev : Nat) : List (Nat × LogRec) → Option (Nat × LogRec)
  | [] => none
  | p :: l =>
    match lowestBelow sev l with
    | none => if p.2.sev < sev then some p else none
    | some q => if p.2.sev < sev ∧ p.2.seq < q.2.seq then some p else some q

/-- The lowest free ordinary slot: the slots listed rise from `i` without a gap, or the gap is free. -/
def freeSlot (i : Nat) : List (Nat × LogRec) → Nat
  | [] => i
  | p :: l => if p.1 = i then freeSlot (i + 1) l else i

/-- A record written into a slot: GEN counts twice, CHANGES once, and the entry waits to be made durable (R546, R550). -/
def Recorder.write (e : Recorder) (i : Nat) (r : LogRec) : Recorder :=
  { e with slots := tinsert e.slots i r, gens := tset 0 e.gens i ((tget 0 e.gens i + 2) % 256), changes := e.changes + 1,
           undurable := e.undurable ++ [r] }

/-- SEQ for the next record: NEXT, which moves on and passes over 0 (R537). -/
def State.takeSeq (s : State) : State × Nat :=
  let n := s.rd Fd.EVR_SEQ_NEXT
  (s.wr Fd.EVR_SEQ_NEXT (if n = 0xFFFFFFFF then 1 else n + 1), n)

/-- The PARAM of the FULL record (Table 18.2). -/
def fullParam (e : Recorder) : List Nat := paramBytes (leBytes 4 e.dropped ++ leBytes 4 e.overw ++ [e.hiLost])

/-- A loss while the log is full: the FULL record is written, with its own SEQ and the TIME of the loss, or its counts are updated
(R544). -/
def State.noteLoss (s : State) (time sev : Nat) (dropped : Bool) : State :=
  let e0 := s.evr
  let e1 := { e0 with dropped := if dropped then e0.dropped + 1 else e0.dropped, overw := if dropped then e0.overw else e0.overw + 1,
                      hiLost := max e0.hiLost sev }
  match e1.slots.find? fun p => p.1 == ordinarySlots with
  | some (_, r) => { s with evr := e1.write ordinarySlots { r with param := fullParam e1 } }
  | none =>
    let (s1, n) := s.takeSeq
    let r : LogRec := ⟨n, time, 0x0001, 4, s.evPhase, e1.calendar.isSome, 0, 0, 0, s.rd Fd.CFX_STATUS_POS, fullParam e1⟩
    { s1.wr Fd.EVR_INT_FULL 1 with evr := e1.write ordinarySlots r }

/-- A record placed in the log with the next SEQ, displacing one of lower severity or dropped where the log is full (R544, R545). -/
def State.placeRec (s : State) (r : LogRec) : State :=
  if s.evr.isFull then
    match (if r.phase = 0 then none else lowestBelow r.sev s.evr.ordinary) with
    | none => s.noteLoss r.time r.sev true
    | some (i, old) =>
      let (s1, n) := s.takeSeq
      let s2 := { s1 with evr := s1.evr.write i { r with seq := n } }
      let s3 := if s.rd Fd.EVR_CTL_INTSEV ≤ r.sev then s2.wr Fd.EVR_INT_SEV 1 else s2
      s3.noteLoss r.time old.sev false
  else
    let (s1, n) := s.takeSeq
    let s2 := { s1 with evr := s1.evr.write (freeSlot 0 s1.evr.ordinary) { r with seq := n } }
    if s.rd Fd.EVR_CTL_INTSEV ≤ r.sev then s2.wr Fd.EVR_INT_SEV 1 else s2

/-- Whether two records agree in all that R542 compares. -/
def LogRec.same (a b : LogRec) : Bool :=
  a.code == b.code && a.sev == b.sev && a.phase == b.phase && a.typ == b.typ && a.inst == b.inst && a.param == b.param

/-- A record collapsed into the one with the highest SEQ, or placed (R542). -/
def State.sequence (s : State) (r : LogRec) : State :=
  match highest s.evr.slots with
  | some (i, h) =>
    if h.same r && h.repeats < 0xFFFF then { s with evr := s.evr.write i { h with repeats := h.repeats + 1 } } else s.placeRec r
  | none => s.placeRec r

/-- The recorder's own record, at the present time. -/
def State.ownRec (s : State) (code sev : Nat) (param : List Nat) : LogRec :=
  ⟨0, s.time, code, sev, s.evPhase, s.evr.calendar.isSome, 0, 0, 0, s.rd Fd.CFX_STATUS_POS, paramBytes param⟩

/-- The SUPPRESSED records of a window that closes, by code (R543). -/
def State.suppressed (s : State) (win : Nat) : List (Nat × RateUse) → State
  | [] => s
  | (c, u) :: l =>
    if u.supp = 0 then s.suppressed win l
    else (s.sequence (s.ownRec 0x0002 u.hi (leBytes 2 c ++ [0, 0] ++ leBytes 4 u.supp ++ leBytes 4 win))).suppressed win l

/-- The rate window closes, and window `win` is under way (R543). -/
def State.closeRate (s : State) (win : Nat) : State :=
  (s.suppressed s.evr.window s.evr.rate).evrPut fun e => { e with rate := [], window := win }

/-- Whether a record of a code may pass its rate window (R543): in a group, and not a SUPPRESSED or LOST record. -/
def State.limited (s : State) (code : Nat) : Bool :=
  s.on Fd.CFX_STATUS_SIZE && code != 0x0002 && code != 0x0006

/-- The calendar offset in ms that a TIMESET record gives: calendar time less the device time of the record (R540). -/
def calOffset (r : LogRec) : Nat := (leValue (r.param.take 6) + (2 ^ 48 - r.time / 1000)) % 2 ^ 48

/-- A raised record accepted: discarded below MINSEV, collapsed, suppressed, placed or dropped (R538, R542, R543, R545). -/
def State.accept (s : State) (x : Raised) : State :=
  let s := if s.evr.window < x.time / 1000000 then s.closeRate (x.time / 1000000) else s
  let r : LogRec := ⟨0, x.time, x.code, x.sev, if x.recov then 3 else s.evPhase, s.evr.calendar.isSome, 0, x.inst, x.typ, s.rd Fd.CFX_STATUS_POS, x.param⟩
  if x.sev < s.rd Fd.EVR_CTL_MINSEV && !ownCode x.code then s
  else
    let s := if x.code = 0x0004 then s.evrPut fun e => { e with calendar := some (calOffset r) } else s
    let again := (highest s.evr.slots).any fun p => p.2.same r && p.2.repeats < 0xFFFF
    let u := tget ⟨0, 0, 0⟩ s.evr.rate x.code
    if again || !s.limited x.code then s.sequence r
    else if u.used < s.rd Fd.EVR_RATE_LIMIT then
      (s.sequence r).evrPut fun e => { e with rate := tset ⟨0, 0, 0⟩ e.rate x.code { u with used := u.used + 1 } }
    else s.evrPut fun e => { e with rate := tset ⟨0, 0, 0⟩ e.rate x.code ⟨u.used, u.supp + 1, max u.hi x.sev⟩ }

/-- The 32 bytes of a record (Table 18.1), with a GEN. -/
def LogRec.toBytes (r : LogRec) (gen : Nat) : List Nat :=
  leBytes 4 r.seq ++ leBytes 6 r.time ++ leBytes 2 r.code ++ [r.sev + 8 * r.phase + 32 * b2n r.calv, gen] ++ leBytes 2 r.repeats ++
    [r.inst, r.typ, r.node, 0] ++ r.param

/-- The 32 bytes of a slot of the log: its record with its GEN, or zeros and GEN where it is empty (Table 18.1, R546). -/
def Recorder.slotBytes (e : Recorder) (i : Nat) : List Nat :=
  match e.slots.find? fun p => p.1 == i with
  | some p => p.2.toBytes (tget 0 e.gens i)
  | none => List.replicate 13 0 ++ [tget 0 e.gens i] ++ List.replicate 18 0

/-- The slots that differ between two states of the recorder. -/
def Recorder.changed (e old : Recorder) : List Nat :=
  ((e.slots.filter fun p => !old.slots.contains p).map Prod.fst) ++
    ((old.slots.filter fun p => !(e.slots.any fun q => q.1 == p.1)).map Prod.fst)

/-- The log as memory shows it, after a step of the recorder (Table 20.2). -/
def State.syncLog (s : State) (old : Recorder) : State :=
  { s with mem := (s.evr.changed old).foldl (fun m i => memPutBytes m (0x0104080000 + 32 * i) (s.evr.slotBytes i)) s.mem }

/-- EVR_RECORD: the oldest raised record is taken, unless the rebuild holds it (R537 to R545, R551). -/
def execEvrRecord (s : State) : Host.Outcome State Fault Refusal :=
  match s.evr.raised with
  | [] => .next s
  | x :: l =>
    if s.on Fd.EVR_STATUS_RESTORE then .next s
    else
      .next (((s.evrPut fun e => { e with raised := l }).accept x |>.evrPut fun e =>
        { e with fences := e.fences.map fun f => (f.1, f.2 - 1) }).syncLog s.evr)

/-- A core of the requester: 0 to 3 for F0 to F3, 4 for the watch core. -/
def Requester.core? : Sys2Proof.Requester → Option Nat
  | .flow k => some k.val
  | .watch => some 4
  | _ => none

/-- EVR_RAISE: a write of word 0 of RAISEk by core k (R548). -/
def execEvrRaise (r : Sys2Proof.Requester) (k : Fin 5) (v : BitVec 32) (s : State) : Host.Outcome State Fault Refusal :=
  if Requester.core? r = some k.val ∧ bit v.toNat 19 then
    if s.evr.raised.any fun x => x.core == some k.val then .next (s.wr Fd.EVR_INT_RAISEREF 1)
    else
      let code := bits v.toNat 0 16
      let param := (List.range 3).flatMap fun i => leBytes 4 (s.rd (Fd.EVR_RAISEP_PARAM k.val i))
      .next (s.evrPut fun e => { e with raised := e.raised ++
        [⟨s.time, if k.val < 4 ∧ code < 0x8000 then 0x8000 else code, bits v.toNat 16 3, if k.val < 4 then k.val else 1,
          if k.val < 4 then 0x04 else 0x00, param, some k.val, false⟩] })
  else .next s

/-- EVF: an event fence of core k over the records raised before it (R549). -/
def execEvf (r : Sys2Proof.Requester) (k : Fin 5) (s : State) : Host.Outcome State Fault Refusal :=
  if Requester.core? r = some k.val then
    .next ((s.wr (Fd.EVR_EVF_DONE k.val) 0).evrPut fun e =>
      { e with fences := (e.fences.filter fun f => f.1 != k.val) ++ [(k.val, e.raised.length)] })
  else .next s

/-- EVF_DONE (R549). -/
def execEvfDone (k : Fin 5) (s : State) : Host.Outcome State Fault Refusal :=
  if s.evr.fences.any fun f => f.1 == k.val && f.2 == 0 then
    .next ((s.wr (Fd.EVR_EVF_DONE k.val) 1).evrPut fun e => { e with fences := e.fences.filter fun f => f.1 != k.val })
  else .next s

/-- RATE_WINDOW_CLOSE: the window after the present one begins (R543). -/
def execRateWindowClose (s : State) : Host.Outcome State Fault Refusal := .next ((s.closeRate (s.evr.window + 1)).syncLog s.evr)

/-! ### The persistent ring (R550, R551) -/

/-- Code-flash bytes at an array offset replaced. -/
def flashPut (m : List Host.Cell) (a : Nat) : List Nat → List Host.Cell
  | [] => m
  | b :: l => flashPut (tset (0xFF : Byte) m a (BitVec.ofNat 8 b)) (a + 1) l

/-- The entries of the ring, and those kept erased ahead of its head: 2,048 sectors of 128, 16 of them erased. -/
def ringEntries : Nat := 2048 * 128

/-- Whether the log still holds a record as this entry gives it. -/
def Recorder.holds (e : Recorder) (r : LogRec) : Bool := e.slots.any fun p => p.2 == r

/-- The oldest sector erased once the erased margin is used up, its entries that are the newest copy of a record still in the log copied
to the head first (R550). -/
def Recorder.trim (e : Recorder) : Recorder :=
  if ringEntries - 16 * 128 < e.ring.length then
    { e with ring := e.ring.drop 128 ++ (e.ring.take 128).filter fun r => e.holds r && !(e.ring.drop 128).contains r }
  else e

/-- The entry that is programmed next: the oldest; after a declaration of power loss only its record, once every VOID is durable (R550, R625). -/
def State.nextEntry (s : State) : Option LogRec :=
  if s.on Fd.HSK_PLSTAT_DECL then
    (if s.on Fd.HSK_PLSTAT_VOIDS then s.evr.undurable.find? fun r => r.code == 0x0D01 else none)
  else s.evr.undurable.head?

/-- EVR_FLASH_APPEND (R550): the entry becomes durable, and with the CLEAR record a clear is complete (R554); where code flash refuses the
program, FLASHERR is set and the log keeps serving. -/
def execEvrFlashAppend (refused : Bool) (s : State) : Host.Outcome State Fault Refusal :=
  match s.nextEntry with
  | none => .next s
  | some r =>
    let l := s.evr.undurable.erase r
    if refused then .next ((s.wr Fd.EVR_INT_FLASHERR 1).evrPut fun e => { e with undurable := l })
    else
      let s1 := if r.code = 0x0005 then s.wr Fd.EVR_INT_CLEARED 1 else s
      let a := 0x3800000 + 32 * (s.evr.head % ringEntries)
      .next { s1 with
        flash := flashPut s1.flash a (r.toBytes 0),
        evr := Recorder.trim { s1.evr with undurable := l, ring := s1.evr.ring ++ [r], head := s1.evr.head + 1 } }

/-- The entries from the newest CLEAR on. -/
def fromClear (l : List LogRec) : List LogRec :=
  l.foldl (fun acc r => if r.code = 0x0005 then [r] else acc ++ [r]) []

/-- The newest copy of each SEQ, in SEQ order. -/
def newestBySeq (l : List LogRec) : List LogRec := (l.foldl (fun t r => tinsert t r.seq r) []).map Prod.snd

/-- A restored record placed as R551 says: the FULL record in its slot with its counts, another in a free slot or under the displacement
rule for the PHASE it carries. -/
def Recorder.restore (e : Recorder) (r : LogRec) : Recorder :=
  if r.code = 0x0001 then
    { e with slots := tinsert e.slots ordinarySlots r, dropped := leValue (r.param.take 4), overw := leValue ((r.param.drop 4).take 4),
             hiLost := r.param.getD 8 0 }
  else if e.isFull then
    match (if r.phase = 0 then none else lowestBelow r.sev e.ordinary) with
    | none => e
    | some (i, _) => { e with slots := tinsert e.slots i r }
  else { e with slots := tinsert e.slots (freeSlot 0 e.ordinary) r }

/-- The buffered records with the START record first (R551). -/
def startFirst (l : List Raised) : List Raised := (l.filter fun x => x.code == 0x0003) ++ l.filter fun x => x.code != 0x0003

/-- The rebuild from the ring, and from the entries of a controller restart that SRAM keeps until they are durable; records beyond the buffer of 64 are lost, and a LOST record counts them (R551). -/
def State.rebuild (s : State) : State :=
  let l := newestBySeq (fromClear (s.evr.ring ++ s.evr.undurable))
  let e := l.foldl Recorder.restore { s.evr with slots := [], dropped := 0, overw := 0, hiLost := 0 }
  let gone := s.evr.raised.drop 64
  let hi := gone.foldl (fun m x => max m x.sev) 0
  let kept := startFirst (s.evr.raised.take 64)
  let lost : List Raised := if gone = [] then [] else
    [⟨s.time, 0x0006, max 4 hi, 0, 0, paramBytes (leBytes 4 gone.length ++ [hi]), none, false⟩]
  let top := l.foldl (fun m r => max m r.seq) 0
  { (s.wr Fd.EVR_SEQ_NEXT (if top = 0xFFFFFFFF then 1 else top + 1)).wr Fd.EVR_STATUS_RESTORE 0 with
    evr := { e with raised := kept ++ lost } }

/-- EVR_REBUILD (R551): once the remap copies of P2 are done. -/
def execEvrRebuild (s : State) : Host.Outcome State Fault Refusal :=
  if s.on Fd.EVR_STATUS_RESTORE ∧ 3 ≤ s.rd Fd.HSK_START_PHASE then .next (s.rebuild.syncLog s.evr) else .next s

/-- EVR_CLEAR (R553, R554): under AUTH the log is emptied in one step and the CLEAR record follows. -/
def execEvrClear (s : State) : Host.Outcome State Fault Refusal :=
  if s.on Fd.EVR_CLR_AUTH then
    let n := s.evr.slots.length
    let last := (highest s.evr.slots).map fun p => p.2.seq
    let s1 := (s.wr Fd.EVR_CLR_AUTH 0).evrPut fun e =>
      { e with slots := [], dropped := 0, overw := 0, hiLost := 0, undurable := [], changes := 0, clears := e.clears + 1 }
    .next ((s1.placeRec (s1.ownRec 0x0005 5 ([b2n s.evr.authTok, 0, 0, 0] ++ leBytes 4 (last.getD 0) ++ leBytes 4 n))).syncLog s.evr)
  else .next (s.wr Fd.EVR_INT_CLRREF 1)

/-- EVR_AUTH_TIMEOUT (R553). -/
def execEvrAuthTimeout (s : State) : Host.Outcome State Fault Refusal := .next (s.wr Fd.EVR_CLR_AUTH 0)

end Sys2Proof.Machine
end

