-- ==== Sys2Proof/Machine/Flash.lean ====
section
/-! DEFINITION. The code flash (14): reads through the prefetch buffer and the branch cache, firmware programs and erases, weak programs,
retirement to spares, suspension and the lock register. -/

namespace Sys2Proof.Machine

/-- The part of the code flash outside its array replaced. -/
def State.cflPut (s : State) (g : FlashUnit → FlashUnit) : State := { s with cfl := g s.cfl }

/-- The firmware operation of a bank. -/
def State.flashOp (s : State) (b : Nat) : Option FlashOp := if b = 0 then s.cfl.op0 else s.cfl.op1

/-- The firmware operation of a bank replaced. -/
def State.setFlashOp (s : State) (b : Nat) (o : Option FlashOp) : State :=
  s.cflPut fun c => if b = 0 then { c with op0 := o } else { c with op1 := o }

/-- CFL.STATUS.BUSY of a bank. -/
def cflBusy (b : Nat) : Fld := if b = 0 then Fd.CFL_STATUS_BUSY0 else Fd.CFL_STATUS_BUSY1

/-- CFL.STATUS.SUSP of a bank. -/
def cflSusp (b : Nat) : Fld := if b = 0 then Fd.CFL_STATUS_SUSP0 else Fd.CFL_STATUS_SUSP1

/-- CFL.STATUS.COPY of a bank. -/
def cflCopy (b : Nat) : Fld := if b = 0 then Fd.CFL_STATUS_COPY0 else Fd.CFL_STATUS_COPY1

/-- CFL.STATUS.SPARE of a bank. -/
def cflSpare (b : Nat) : Fld := if b = 0 then Fd.CFL_STATUS_SPARE0 else Fd.CFL_STATUS_SPARE1

/-- CFL.INT.DONE of a bank. -/
def cflDone (b : Nat) : Fld := if b = 0 then Fd.CFL_INT_DONE0 else Fd.CFL_INT_DONE1

/-- The bank of an array offset (R441). -/
def flashBank (off : Nat) : Nat := off / 0x2000000

/-- `n` bytes of the array at an offset. -/
def State.flashBytes (s : State) (a : Nat) : Nat → List Nat
  | 0 => []
  | n + 1 => (tget (0xFF : Byte) s.flash a).toNat :: s.flashBytes (a + 1) n

/-- The word at array offset 8 w. -/
def State.flashWord (s : State) (w : Nat) : Nat := leValue (s.flashBytes (8 * w) 8)

/-- An erased word (R442). -/
def erasedWord : Nat := 2 ^ 64 - 1

/-- The firmware regions of Table 14.1 in table order, first and last offset; their order is that of the LOCK bits. -/
def firmwareRegions : List (Nat × Nat) :=
  [(0x0000000, 0x07FFFFF), (0x0800000, 0x08FFFFF), (0x0900000, 0x18FFFFF), (0x1900000, 0x19FFFFF), (0x1A10000, 0x1FFFFFF),
    (0x2000000, 0x27FFFFF)]

/-- The number of the firmware region that holds an offset, counting from `k` (R444). -/
def regionOf (off k : Nat) : List (Nat × Nat) → Option Nat
  | [] => none
  | r :: l => if r.1 ≤ off ∧ off ≤ r.2 then some k else regionOf off (k + 1) l

/-! ### Reading (R443, R445 to R447) -/

/-- A line made the most recently used of a buffer of `n`. -/
def lruUse (n x : Nat) (l : List Nat) : List Nat :=
  let l1 := l.filter fun y => y != x
  (if n ≤ l1.length then l1.drop 1 else l1) ++ [x]

/-- The word of sector `n` is being erased: every read of it is a bus error (R447). -/
def State.erasing (s : State) (sector : Nat) : Bool :=
  [s.cfl.op0, s.cfl.op1].any fun o => o.any fun x => x.erase && x.off / 4096 == sector

/-- A read of line `l` fills it and the next (R445); an instruction fetch away from the last line and the one after it fills the branch
cache (R446). -/
def State.fillLines (s : State) (l : Nat) (fetch : Bool) : State :=
  s.cflPut fun c =>
    let away := fetch && !(c.lastFetch == some l || c.lastFetch.any fun x => x + 1 == l)
    { c with
      prefetch := if s.on Fd.CFL_CTL_PFEN then
          (if c.prefetch.contains (l + 1) then lruUse 4 l c.prefetch else lruUse 4 (l + 1) (lruUse 4 l c.prefetch)) else c.prefetch,
      branch := if away && s.on Fd.CFL_CTL_BCEN then lruUse 32 l c.branch else c.branch,
      lastFetch := if fetch then some l else c.lastFetch }

/-- Whether a read of a line is served without the array. -/
def State.lineHit (s : State) (l : Nat) (fetch : Bool) : Bool :=
  (s.on Fd.CFL_CTL_PFEN && s.cfl.prefetch.contains l) || (fetch && s.on Fd.CFL_CTL_BCEN && s.cfl.branch.contains l)

/-- CFL_READ (R443, R445 to R448): served from a buffer, or by the array with the error it finds; a word of a sector being erased and an
uncorrectable word end in a bus error, and a word of an abandoned erase is open (R458). -/
def execCflRead (w : BitVec 23) (fetch : Bool) (err : Fin 3) (s : State) : Host.Outcome State Fault Refusal :=
  let w := w.toNat
  let l := w / 8
  if s.erasing (w / 512) then .next s.busError
  else if s.cfl.abandoned.contains (w / 512) then
    .next (((s.fillLines l fetch).reply (s.freeVal % 2 ^ 64)).tookFree)
  else if s.lineHit l fetch then .next ((s.fillLines l fetch).reply (s.flashWord w))
  else if err.val = 2 ∨ s.cfl.badWords.contains w then
    .next ((((s.count Fd.CFL_CNT0_UE 1).wr Fd.CFL_INT_UE 1).raise .flash 0x0B01 6 (leBytes 4 (8 * w))).busError)
  else
    let s1 := if err.val = 1 then s.count Fd.CFL_CNT0_CE 1 else s
    .next ((s1.fillLines l fetch).reply (s.flashWord w))

/-! ### Programs and erases (R449, R450) -/

/-- Prefetch lines and branch-cache entries that overlap a range of bytes are invalid (R447). -/
def State.invalidate (s : State) (off n : Nat) : State :=
  s.cflPut fun c =>
    let keep := fun l : Nat => 64 * l + 64 ≤ off || off + n ≤ 64 * l
    { c with prefetch := c.prefetch.filter keep, branch := c.branch.filter keep }

/-- Whether firmware may not issue an operation over `n` bytes at an offset through bank `b` (R450). -/
def State.refuses (s : State) (b off n : Nat) : Bool :=
  match regionOf off 0 firmwareRegions with
  | none => true
  | some k => s.rdBit Fd.CFL_LOCK_LOCK k || off / 4096 != (off + n - 1) / 4096 || (s.flashOp b).isSome || flashBank off != b

/-- A firmware operation issued, or refused with RESULT 1 and nothing changed (R450). -/
def State.issue (s : State) (b : Nat) (o : FlashOp) (n : Nat) : State :=
  if s.refuses b o.off n then s.wr (Fd.CFL_RES_RESULT b) 1
  else ((((s.setFlashOp b (some o)).wr (Fd.CFL_RES_BUSY b) 1).wr (Fd.CFL_RES_RESULT b) 0).wr (cflBusy b) 1).invalidate o.off n

/-- Whether the code flash starts operations of firmware: not while it takes no work, nor once power loss is declared (R624). -/
def State.flashTakes (s : State) : Bool := s.takesWork .flash && !s.on Fd.HSK_PLSTAT_DECL

/-- CFL_PROGRAM (R449, R450). -/
def execCflProgram (b : Fin 2) (s : State) : Host.Outcome State Fault Refusal :=
  let n := s.rd (Fd.CFL_CMD_WORDS b.val) + 1
  let ws := (List.range n).map fun i => s.rd (Fd.CFL_WBUF_DATA b.val i)
  .next (if s.flashTakes then s.issue b.val ⟨false, 8 * s.rd (Fd.CFL_ADDR_WORD b.val), ws⟩ (8 * n) else s)

/-- CFL_ERASE (R449, R450): the sector of ADDRb [25:12]. -/
def execCflErase (b : Fin 2) (s : State) : Host.Outcome State Fault Refusal :=
  .next (if s.flashTakes then s.issue b.val ⟨true, 4096 * (8 * s.rd (Fd.CFL_ADDR_WORD b.val) / 4096), []⟩ 4096 else s)

/-- A sector retired to a spare of its bank: the mapping, INT.RETIRED and the record; `done` marks it copied at once (R455, R456). -/
def State.retire (s : State) (b sector : Nat) (erase : Bool) : State :=
  let left := s.rd (cflSpare b) - 1
  let s1 := (s.wr (cflSpare b) left).wr Fd.CFL_INT_RETIRED 1
  let s2 := s1.cflPut fun c => { c with remap := (c.remap.filter fun r => r.sector != sector) ++ [⟨sector, erase⟩] }
  (if erase then s2 else s2.wr (cflCopy b) 1).raise .flash 0x0B03 4 (leBytes 2 sector ++ [b, b2n erase, left])

/-- Words of the array programmed one after another. -/
def flashProgram (m : List Host.Cell) (a : Nat) : List Nat → List Host.Cell
  | [] => m
  | w :: l => flashProgram (flashPut m a (leBytes 8 w)) (a + 8) l

/-- A weak program counted, located and recorded (R454). -/
def State.weak (s : State) (sector pulses : Nat) : State :=
  (((((s.count Fd.CFL_CNT1_WEAK 1).wr Fd.CFL_WEAKLAST_SECTOR sector).wr Fd.CFL_WEAKLAST_PULSES pulses).wr Fd.CFL_INT_WEAK 1).raise .flash
    0x0B02 3 (leBytes 2 sector ++ [pulses]))

/-- No spare is left: RESULT 3, INT.NOSPARE and the record; the sector stays in service (R457). -/
def State.noSpare (s : State) (b sector : Nat) : State :=
  ((s.wr (Fd.CFL_RES_RESULT b) 3).wr Fd.CFL_INT_NOSPARE 1).raise .flash 0x0B04 6 (leBytes 2 sector ++ [b])

/-- An operation ends: the bank is free, INT.DONE is set. -/
def State.opEnds (s : State) (b : Nat) : State :=
  (((s.setFlashOp b none).wr (Fd.CFL_RES_BUSY b) 0).wr (cflBusy b) 0).wr (cflDone b) 1

/-- A program's end (R450, R454, R455, R457): RESULT 2 and nothing programmed where a target is not erased; the failing word goes to a
spare, and without a spare it may read as uncorrectable. -/
def State.programEnds (s : State) (b : Nat) (o : FlashOp) (pulses : Nat) (bad : Option Nat) : State :=
  let sector := o.off / 4096
  if (List.range o.words.length).any fun i => s.flashWord (o.off / 8 + i) != erasedWord then s.wr (Fd.CFL_RES_RESULT b) 2
  else
    let s1 := { s with flash := flashProgram s.flash o.off o.words }
    let s2 := s1.wr (Fd.CFL_RES_PULSES b) pulses
    let s3 := if 8 ≤ pulses then s2.weak sector pulses else s2
    match bad with
    | none => s3
    | some i =>
      if s.rd (cflSpare b) = 0 then
        (if s.freeVal % 2 = 1 then s3.cflPut fun c => { c with badWords := (o.off / 8 + i) :: c.badWords } else s3).tookFree.noSpare b sector
      else s3.retire b sector false

/-- An erase's end (R456, R457): every word of the sector reads erased; a copy under way of a retired sector ends with it. -/
def State.eraseEnds (s : State) (b : Nat) (o : FlashOp) (bad : Bool) : State :=
  let sector := o.off / 4096
  let keep := fun p : Host.Cell => p.1 < o.off || o.off + 4096 ≤ p.1
  let s1 := { s with flash := s.flash.filter keep }
  let s2 := s1.cflPut fun c => { c with
    badWords := c.badWords.filter fun w => w / 512 != sector,
    abandoned := c.abandoned.filter fun n => n != sector,
    remap := c.remap.map fun r => if r.sector = sector then { r with done := true } else r }
  let s3 := if s2.cfl.remap.any fun r => !r.done && flashBank (4096 * r.sector) == b then s2 else s2.wr (cflCopy b) 0
  if bad then (if s.rd (cflSpare b) = 0 then s3.noSpare b sector else s3.retire b sector true) else s3

/-- CFL_OP_DONE (R447, R449 to R451, R454 to R457). -/
def execCflOpDone (b : Fin 2) (pulses : Fin 17) (bad : Option (Fin 8)) (s : State) : Host.Outcome State Fault Refusal :=
  match s.flashOp b.val with
  | none => .next s
  | some o =>
    if s.on (cflSusp b.val) then .next s
    else
      let s1 := if o.erase then s.eraseEnds b.val o bad.isSome else s.programEnds b.val o pulses.val (bad.map Fin.val)
      .next ((s1.opEnds b.val).invalidate o.off (if o.erase then 4096 else 8 * o.words.length))

/-- CFL_RETIRE_COPY: the oldest copy of the bank is done (R455). -/
def execCflRetireCopy (b : Fin 2) (s : State) : Host.Outcome State Fault Refusal :=
  match s.cfl.remap.find? fun r => !r.done && flashBank (4096 * r.sector) == b.val with
  | none => .next s
  | some x =>
    let s1 := s.cflPut fun c => { c with remap := c.remap.map fun r => if r = x then { r with done := true } else r }
    .next (if s1.cfl.remap.any fun r => !r.done && flashBank (4096 * r.sector) == b.val then s1 else s1.wr (cflCopy b.val) 0)

/-- The operation of a bank suspended (R452, R453). -/
def State.suspend (s : State) (b : Nat) : State := (s.wr (cflSusp b) 1).count Fd.CFL_CNT1_SUSP 1

/-- CFL_SUSPEND (R452). -/
def execCflSuspend (b : Fin 2) (s : State) : Host.Outcome State Fault Refusal :=
  if (s.flashOp b.val).isSome ∧ ¬ s.on (cflSusp b.val) then .next (s.suspend b.val) else .next s

/-- CFL_RESUME (R452). -/
def execCflResume (b : Fin 2) (s : State) : Host.Outcome State Fault Refusal := .next (s.wr (cflSusp b.val) 0)

/-- A bank at a power loss or a unit reset: a program under way completes, its pulses not stated; an erase is abandoned; firmware's next
operation is its own to issue again (R458). -/
def State.cflCut (s : State) (b : Nat) : State :=
  let s1 := match s.flashOp b with
    | none => s
    | some o =>
      if o.erase then
        ((s.cflPut fun c => { c with abandoned := o.off / 4096 :: c.abandoned.filter (· != o.off / 4096) }).setFlashOp b none).wr (Fd.CFL_RES_BUSY b) 0
      else (s.tookFree.programEnds b o (s.freeVal % 17) none).opEnds b
  (s1.wr (cflBusy b) 0).wr (cflSusp b) 0

/-- CFL_LOCK_WRITE: bits are set and never cleared by a write (Table 14.5). -/
def execCflLockWrite (v : BitVec 32) (s : State) : Host.Outcome State Fault Refusal :=
  .next (s.setBits Fd.CFL_LOCK_LOCK (v.toNat % 64))

end Sys2Proof.Machine
end

