-- ==== Sys2Proof/Machine/Stage.lean ====
section
/-! DEFINITION. The Stage cache, Eddy and the write-back buffer (11), and the coherent loads and stores that other units make inside
their own commands. A byte that the Stage holds dirty stands in `State.mem` already: what DRAM still holds of it can be read by nobody
(R368), and its codeword's error pattern stays until the write-back replaces it (R382). -/

namespace Sys2Proof.Machine

/-- STG.CTL.STATE (Table 11.6). -/
def State.stgState (s : State) : Nat := s.rd Fd.STG_CTL_STATE

/-- The size of a line: 4 KiB native, 128 B in KX2 mode (Table 11.1). -/
def State.lineSize (s : State) : Nat := if s.on Fd.STG_CTL_MODE then 128 else 4096

/-- The size of a unit with valid and dirty bits of its own: a sub-block of 256 B, or a line of 128 B (Table 11.1). -/
def State.unitSize (s : State) : Nat := if s.on Fd.STG_CTL_MODE then 128 else 256

/-- The set of a line: A[21:12], or A[21:7] XOR A[36:22] in KX2 mode (Table 11.1). -/
def State.setOf (s : State) (num : Nat) : Nat :=
  if s.on Fd.STG_CTL_MODE then (num % 32768) ^^^ (num / 32768 % 32768) else num % 1024

/-- The number of the line of a DRAM address. -/
def State.lineOf (s : State) (a : Nat) : Nat := above dramBase a / s.lineSize

/-- The unit of a DRAM address within its line. -/
def State.unitOf (s : State) (a : Nat) : Nat := above dramBase a % s.lineSize / s.unitSize

/-! ### Sets and the pseudo-LRU tree (R374) -/

/-- The way that holds a line, counting from `w`. -/
def findWay (num : Nat) : List (Option StgLine) → Nat → Option Nat
  | [], _ => none
  | o :: l, w => if o.any (fun x => x.num == num) then some w else findWay num l (w + 1)

/-- The lowest invalid way, counting from `w`. -/
def freeWay : List (Option StgLine) → Nat → Option Nat
  | [], _ => none
  | o :: l, w => if o.isNone then some w else freeWay l (w + 1)

/-- The tree's nodes on the path to way `w`, each made to point away from it; `node` starts at 1 and the path has `n` levels left. -/
def plruTouch (t w node : Nat) : Nat → Nat
  | 0 => t
  | n + 1 => let b := bit w n; plruTouch (putBit t node (!b)) w (2 * node + b2n b) n

/-- The way that the tree names. -/
def plruWay (t node : Nat) : Nat → Nat
  | 0 => node - 16
  | n + 1 => plruWay t (2 * node + b2n (bit t node)) n

/-- The first way at or after `w`, in cyclic order, whose fill is not in progress. -/
def notFilling (ways : List (Option StgLine)) (w : Nat) : Nat → Option Nat
  | 0 => none
  | n + 1 =>
    if (ways.getD (w % 16) none).all (fun x => x.filling == 0) then some (w % 16) else notFilling ways (w + 1) n

/-- The victim of a set: the lowest invalid way, else the way of the tree; none while every way is filling (R374). -/
def StgSet.victim (t : StgSet) : Option Nat :=
  match freeWay t.ways 0 with
  | some w => some w
  | none => notFilling t.ways (plruWay t.plru 1 4) 16

/-- A set by its index. -/
def State.stgSet (s : State) (i : Nat) : StgSet := tget StgSet.empty s.stage.sets i

/-- A set replaced. -/
def State.putSet (s : State) (i : Nat) (t : StgSet) : State :=
  { s with stage := { s.stage with sets := tset StgSet.empty s.stage.sets i t } }

/-- Way `w` of a set made `o`, and the tree updated. -/
def StgSet.put (t : StgSet) (w : Nat) (o : Option StgLine) : StgSet := ⟨t.ways.set w o, plruTouch t.plru w 1 4⟩

/-- The line that the array holds, and its way. -/
def State.inArray (s : State) (num : Nat) : Option (Nat × StgLine) :=
  let t := s.stgSet (s.setOf num)
  match findWay num t.ways 0 with
  | some w => (t.ways.getD w none).map fun l => (w, l)
  | none => none

/-- The line that Eddy or the write-back buffer holds. -/
def State.behind (s : State) (num : Nat) : Option StgLine :=
  match s.stage.eddy.find? (fun l => l.num == num) with
  | some l => some l
  | none => s.stage.wb.find? (fun l => l.num == num)

/-- The line wherever it stands (R368). -/
def State.stgLine (s : State) (num : Nat) : Option StgLine :=
  match s.inArray num with
  | some p => some p.2
  | none => s.behind num

/-- Whether the Stage holds the unit of an address. -/
def State.present (s : State) (a : Nat) : Bool := (s.stgLine (s.lineOf a)).any fun l => bit l.valid (s.unitOf a)

/-- The line changed by `g` wherever it stands. -/
def State.updLine (s : State) (num : Nat) (g : StgLine → StgLine) : State :=
  match s.inArray num with
  | some (w, l) =>
    let i := s.setOf num
    let t := s.stgSet i
    s.putSet i { t with ways := t.ways.set w (some (g l)) }
  | none => { s with stage := { s.stage with
      eddy := s.stage.eddy.map (fun l => if l.num = num then g l else l),
      wb := s.stage.wb.map (fun l => if l.num = num then g l else l) } }

/-! ### Eddy and the write-back buffer (R378 to R380) -/

/-- EDDY_EVICT: a line enters Eddy; from a full Eddy the oldest entry is dropped or moves its dirty units to the write-back buffer. None
where that buffer is full and the departure waits (R379). -/
def State.pushEddy (s : State) (l : StgLine) : Option State :=
  if s.stage.eddy.length < 64 then some { s with stage := { s.stage with eddy := s.stage.eddy ++ [l] } }
  else match s.stage.eddy with
    | [] => none
    | o :: rest =>
      if o.dirty = 0 then some { s with stage := { s.stage with eddy := rest ++ [l] } }
      else if s.stage.wb.length < 32 then
        some { s with stage := { s.stage with eddy := rest ++ [l], wb := s.stage.wb ++ [{ o with valid := o.dirty }] } }
      else none

/-- A line placed in its set: the victim enters Eddy in the same step. None where the request must wait (R374, R379). -/
def State.placeLine (s : State) (l : StgLine) : Option State :=
  let i := s.setOf l.num
  let t := s.stgSet i
  match t.victim with
  | none => none
  | some w =>
    match t.ways.getD w none with
    | none => some (s.putSet i (t.put w (some l)))
    | some v => (s.pushEddy v).map fun s1 => s1.putSet i (t.put w (some l))

/-- A line recalled from Eddy or the write-back buffer into its set (R380). -/
def State.recall (s : State) (l : StgLine) : Option State :=
  let out := fun x : List StgLine => x.filter fun y => y.num != l.num
  (State.placeLine { s with stage := { s.stage with eddy := out s.stage.eddy, wb := out s.stage.wb } } l).map
    fun s1 => s1.count Fd.STG_CNT2_RECALLS 1

/-! ### Serving one request (R373) -/

/-- The bytes of a store placed where the Stage holds them. -/
def putEnabled (m : List Host.Cell) (a be : Nat) : List Nat → List Host.Cell
  | [] => m
  | b :: l => putEnabled (if bit be 0 then tset (0 : Byte) m a (BitVec.ofNat 8 b) else m) (a + 1) (be / 2) l

/-- A request served from the unit the Stage holds: a load returns its bytes, a store is merged and the unit is dirty. -/
def State.hit (s : State) (q : StgReq) : State :=
  match q.st with
  | none => s.answerLoad (some (s.bytes q.a q.len))
  | some l =>
    let s1 := State.updLine { s with mem := putEnabled s.mem q.a q.be l } (s.lineOf q.a)
      fun x => { x with dirty := setBit x.dirty (s.unitOf q.a) }
    { s1 with answer := s1.answer ++ [⟨false, 0⟩] }

/-- A request served by DRAM: a load through the decoder, a store with byte enables. -/
def State.toDram (s : State) (q : StgReq) : State :=
  match q.st with
  | none =>
    let (s1, d) := s.memLoad q.r q.a q.len
    s1.answerLoad d
  | some l =>
    let s1 := s.memStore q.a q.be l
    { s1 with answer := s1.answer ++ [⟨false, 0⟩] }

/-- A request touches way `w` of the set of its line, which the tree notes (R374). -/
def State.touchWay (s : State) (num w : Nat) : State :=
  let i := s.setOf num
  let t := s.stgSet i
  s.putSet i { t with plru := plruTouch t.plru w 1 4 }

/-- Whether a store writes its whole unit. -/
def State.fullStore (s : State) (q : StgReq) : Bool :=
  q.st.isSome && q.len == s.unitSize && q.be % 2 ^ q.len == 2 ^ q.len - 1

/-- A fetch of the unit of a request starts, or the one under way is waited for; the request waits (R375). -/
def State.fetch (s : State) (q : StgReq) : State × Option StgReq :=
  let s1 := s.updLine (s.lineOf q.a) fun x => { x with filling := setBit x.filling (s.unitOf q.a) }
  (if q.missed then s1 else s1.count Fd.STG_CNT1_MISSES 1, some { q with missed := true })

/-- A request whose line is in the array, in way `w` (Table 11.3). -/
def State.inLine (s : State) (q : StgReq) (w : Nat) (l : StgLine) : State × Option StgReq :=
  let s0 := s.touchWay l.num w
  let u := s.unitOf q.a
  if bit l.valid u then ((if q.missed then s0 else s0.count Fd.STG_CNT0_HITS 1).hit q, none)
  else if bit l.filling u then (s0, some q)
  else if s.fullStore q then
    ((State.updLine (s0.count Fd.STG_CNT0_HITS 1) l.num fun x => { x with valid := setBit x.valid u }).hit q, none)
  else s0.fetch q

/-- One request served or made to wait, with STATE on (Table 11.3). -/
def State.serveOn (s : State) (q : StgReq) : State × Option StgReq :=
  let num := s.lineOf q.a
  match s.inArray num with
  | some (w, l) => s.inLine q w l
  | none =>
    match s.behind num with
    | some l =>
      match s.recall l with
      | none => (s, some q)
      | some s1 =>
        match s1.inArray num with
        | some (w, l1) => s1.inLine q w l1
        | none => (s1, some q)
    | none =>
      if q.alloc && !q.strm then
        match s.placeLine ⟨num, 0, 0, 0⟩ with
        | none => (s, some q)
        | some s1 =>
          if s.fullStore q then
            ((s1.updLine num fun x => { x with valid := setBit x.valid (s.unitOf q.a) }).hit q, none)
          else s1.fetch q
      else
        let s1 := if q.missed then s else s.count Fd.STG_CNT1_MISSES 1
        ((if q.st.isSome && q.alloc && q.strm then s1.count Fd.STG_CNT3_NOALLOC 1 else s1).toDram q, none)

/-- One request served with STATE disabling (R385). -/
def State.serveDisabling (s : State) (q : StgReq) : State × Option StgReq :=
  match s.stgLine (s.lineOf q.a) with
  | some l =>
    let u := s.unitOf q.a
    if bit l.valid u && (q.st.isNone || bit l.dirty u) then ((s.count Fd.STG_CNT0_HITS 1).hit q, none)
    else if bit l.filling u then (s, some q)
    else ((s.count Fd.STG_CNT1_MISSES 1).toDram q, none)
  | none => ((s.count Fd.STG_CNT1_MISSES 1).toDram q, none)

/-- One request served or made to wait (R373, R385). -/
def State.serve (s : State) (q : StgReq) : State × Option StgReq :=
  if s.stgState = 1 then s.serveOn q
  else if s.stgState = 2 then s.serveDisabling q
  else ((s.count Fd.STG_CNT1_MISSES 1).toDram q, none)

/-- The waiting requests taken again in order; one behind a request of its own line that still waits stays (R375). `back` holds those
that still wait, newest first. -/
def State.retry (s : State) (back : List StgReq) : List StgReq → State
  | [] => { s with stage := { s.stage with waiting := back.reverse } }
  | q :: l =>
    if back.any (fun b => s.lineOf b.a == s.lineOf q.a) then s.retry (q :: back) l
    else
      match s.serve q with
      | (s1, some q1) => s1.retry (q1 :: back) l
      | (s1, none) => s1.retry back l

/-! ### The stream detector (R376, R377) -/

/-- The streaming flag of a requester. -/
def State.strmFlag (s : State) (r : Nat) : Bool :=
  if r < 32 then s.rdBit Fd.STG_STRM0_FLAG r else s.rdBit Fd.STG_STRM1_FLAG (r - 32)

/-- The streaming flag of a requester written. -/
def State.setStrm (s : State) (r : Nat) (b : Bool) : State :=
  if r < 32 then s.wr Fd.STG_STRM0_FLAG (putBit (s.rd Fd.STG_STRM0_FLAG) r b)
  else s.wr Fd.STG_STRM1_FLAG (putBit (s.rd Fd.STG_STRM1_FLAG) (r - 32) b)

/-- The detector on one store of requester `r` to granule `g`: the state after it, and whether the store is served with the flag at 1. -/
def State.detect (s : State) (r g : Nat) : State × Bool :=
  if s.on Fd.STG_STREAM_EN then
    let d := tget ⟨none, 0, 0⟩ s.stage.strm r
    let put := fun (t : State) (x : Strm) => { t with stage := { t.stage with strm := tset ⟨none, 0, 0⟩ t.stage.strm r x } }
    let f := s.strmFlag r
    if d.g = some g then (s, f)
    else if d.g.any (fun x => g == x + 1) then
      let s1 := put s ⟨some g, d.run + 1, 0⟩
      (if !f && d.run + 1 == s.rd Fd.STG_STREAM_RUN then s1.setStrm r true else s1, f)
    else if f && d.nseq + 1 == s.rd Fd.STG_STREAM_NSEQ then ((put s ⟨some g, 1, 0⟩).setStrm r false, false)
    else (put s ⟨some g, 1, if f then d.nseq + 1 else d.nseq⟩, f)
  else (s, s.strmFlag r)

/-- Whether a requester allocates on a miss: its bit of STG.ALLOC (R372); identities 0x0E and 0x0F are reserved. -/
def State.allocates (s : State) (r : Nat) : Bool :=
  if r = 14 ∨ r = 15 then false
  else if r < 32 then s.rdBit Fd.STG_ALLOC0_ALLOC r else if r < 48 then s.rdBit Fd.STG_ALLOC1_ALLOC (r - 32) else false

/-- A request split at unit boundaries, each part looked up on its own (R370). -/
def State.parts (s : State) (q : StgReq) : List StgReq :=
  let n := s.unitSize - above dramBase q.a % s.unitSize
  if q.len ≤ n then [q]
  else [{ q with len := n, st := q.st.map (List.take n) },
    { q with a := q.a + n, len := q.len - n, st := q.st.map (List.drop n), be := q.be / 2 ^ n }]

/-- A request lies within one 256-byte granule and is 1 to 256 bytes long (R369). -/
def granuleOk (a len : Nat) : Bool := 1 ≤ len && a % 256 + len ≤ 256

/-- STAGE_REQUEST (R368 to R380, R385): the request joins those that wait, and all that can be served are, in order. -/
def execStageRequest (r : Fin 64) (a : BitVec 40) (len : Fin 257) (st : Option (List (BitVec 8))) (be : BitVec 256) (s : State) :
    Host.Outcome State Fault Refusal :=
  let a := unalias a.toNat
  if granuleOk a len.val && s.inDram a then
    let p := if st.isSome then s.detect r.val (a / 256) else (s, false)
    let bs := st.map fun l => ((l.map BitVec.toNat) ++ List.replicate 256 0).take len.val
    let q : StgReq := ⟨r.val, a, len.val, bs, be.toNat % 2 ^ len.val, s.allocates r.val, p.2, false⟩
    .next (State.retry { p.1 with answer := [] } [] (s.stage.waiting ++ s.parts q))
  else .next s.busError

/-- The unit of an address is no longer being fetched; `ok` makes it valid, else a line left with nothing in it becomes invalid. -/
def State.filled (s : State) (num u : Nat) (ok : Bool) : State :=
  match s.inArray num with
  | none => s
  | some (w, l) =>
    let l1 := { l with filling := clrBit l.filling u, valid := if ok then setBit l.valid u else l.valid }
    let i := s.setOf num
    let t := s.stgSet i
    s.putSet i (t.put w (if l1.valid = 0 ∧ l1.filling = 0 then none else some l1))

/-- The first waiting request for a unit. -/
def State.firstFor (s : State) (num u : Nat) : Option StgReq :=
  s.stage.waiting.find? fun q => s.lineOf q.a == num && s.unitOf q.a == u

/-- A fill that an uncorrectable read ends: the unit stays invalid, the load that caused it has a bus error, a partial store goes to
DRAM, and the other waiting requests are served in order (R375, R397). -/
def State.fillFailed (s : State) (num u : Nat) : Option StgReq → List StgReq → State
  | none, l => (s.filled num u false).retry [] l
  | some q, l =>
    let s1 := s.filled num u false
    State.retry (match q.st with
      | none => s1.answerLoad none
      | some _ => s1.toDram q) [] (l.erase q)

/-- STAGE_FILL_DONE (R375, R397): the unit is read from DRAM and becomes valid, and the waiting requests are served in order; after an
uncorrectable read it stays invalid, the load that caused the fill has a bus error and a partial store goes to DRAM. -/
def execStageFillDone (a : BitVec 40) (s : State) : Host.Outcome State Fault Refusal :=
  let a := unalias a.toNat
  let num := s.lineOf a
  let u := s.unitOf a
  if s.inDram a && (s.inArray num).any fun p => bit p.2.filling u then
    let q := s.firstFor num u
    let (s1, d) := State.memLoad { s with answer := [] } ((q.map StgReq.r).getD 0) (dramBase + num * s.lineSize + u * s.unitSize) s.unitSize
    .next (if d.isSome then (s1.filled num u true).retry [] s.stage.waiting else s1.fillFailed num u q s.stage.waiting)
  else .next s

/-! ### Write-back, disabling and enabling (R379, R382, R385 to R387) -/

/-- The lowest dirty unit of a line, of `n` from unit `k` up. -/
def lowDirty (d k : Nat) : Nat → Option Nat
  | 0 => none
  | n + 1 => if bit d k then some k else lowDirty d (k + 1) n

/-- Every line of the array in ascending order of sets and ways. -/
def State.arrayLines (s : State) : List StgLine := s.stage.sets.flatMap fun p => p.2.ways.filterMap id

/-- While disabling, the walk moves the next line's dirty units, sets in ascending order and then Eddy oldest first, into the write-back
buffer, which leaves them clean (R385). -/
def State.walk (s : State) : State :=
  if s.stgState = 2 ∧ s.stage.wb.length < 32 then
    match (s.arrayLines ++ s.stage.eddy).find? (fun l => l.dirty != 0) with
    | none => s
    | some l =>
      let s1 := s.updLine l.num fun x => { x with dirty := 0 }
      { s1 with stage := { s1.stage with wb := s1.stage.wb ++ [{ l with valid := l.dirty }] } }
  else s

/-- A unit of memory written back word by word with fresh checks, the word that `bad` names with a check that the decoder reports as
uncorrectable (R382). -/
def State.writeUnit (s : State) (w : Nat) (bad : Option Nat) : Nat → Nat → State
  | _, 0 => s
  | i, n + 1 =>
    let s1 := s.memPut (w + i) (s.word (w + i)) 255
    let s2 := if bad = some i then
        ((s1.setErr (w + i) poisonPattern).wr Fd.STG_INT_UNCOR 1).raise .stage 0x0701 6 (leBytes 5 (8 * (w + i)))
      else s1
    s2.writeUnit w bad (i + 1) n

/-- WRITEBACK_ISSUE (R379 to R382, R384): the oldest entry's lowest dirty unit goes to DRAM, the entry leaves with its last one, and the
requests that waited for room are taken again. -/
def execWritebackIssue (bad : Option (Fin 32)) (s : State) : Host.Outcome State Fault Refusal :=
  let s := s.walk
  match s.stage.wb with
  | [] => .next s
  | l :: rest =>
    match lowDirty l.dirty 0 16 with
    | none => .next (State.retry { s with stage := { s.stage with wb := rest }, answer := [] } [] s.stage.waiting)
    | some u =>
      let s1 := s.writeUnit ((dramBase + l.num * s.lineSize + u * s.unitSize) / 8) (bad.map Fin.val) 0 (s.unitSize / 8)
      let d := clrBit l.dirty u
      let s2 := { s1 with stage := { s1.stage with wb := if d = 0 then rest else { l with dirty := d } :: rest }, answer := [] }
      .next (s2.retry [] s.stage.waiting)

/-- STAGE_DISABLE (R385, R387): a write of 0 to EN. -/
def execStageDisable (s : State) : Host.Outcome State Fault Refusal :=
  if s.stgState = 1 then .next ((s.wr Fd.STG_CTL_EN 0).wr Fd.STG_CTL_STATE 2)
  else if s.stgState = 2 then .next { s.wr Fd.STG_CTL_EN 0 with stage := { s.stage with enHeld := false } }
  else .next s

/-- Whether anything of the Stage is dirty (R385). -/
def State.anyDirty (s : State) : Bool := (s.arrayLines ++ s.stage.eddy ++ s.stage.wb).any fun l => l.dirty != 0

/-- STAGE_DRAINED (R385 to R387): every line is invalidated in one step; a held write of 1 then takes STATE from off to on. -/
def execStageDrained (s : State) : Host.Outcome State Fault Refusal :=
  if s.stgState = 2 ∧ ¬ s.anyDirty then
    let s1 := (s.wr Fd.STG_CTL_STATE 0).wr Fd.STG_INT_DRAINED 1
    let s2 := State.retry { s1 with stage := { s1.stage with sets := [], eddy := [], wb := [], enHeld := false }, answer := [] } []
      s.stage.waiting
    .next (if s.stage.enHeld then (s2.wr Fd.STG_CTL_STATE 1).wr Fd.STG_CTL_EN 1 else s2)
  else .next s

/-- STAGE_ENABLE (R387): a write of 1 to EN, held while STATE reads disabling. -/
def execStageEnable (s : State) : Host.Outcome State Fault Refusal :=
  if s.stgState = 0 then
    .next { (s.wr Fd.STG_CTL_EN 1).wr Fd.STG_CTL_STATE 1 with stage := { s.stage with sets := [], eddy := [], wb := [] } }
  else if s.stgState = 2 then .next { s.wr Fd.STG_CTL_EN 1 with stage := { s.stage with enHeld := true } }
  else .next s

/-! ### Coherent loads and stores of other units -/

/-- `n` words loaded for requester `r`: a word of a unit that the Stage holds is taken as it stands, another through the decoder. -/
def State.loadWords (s : State) (r w : Nat) : Nat → State × Option (List Nat)
  | 0 => (s, some [])
  | n + 1 =>
    let (s1, v) := if wordDram w && s.present (8 * w) then (s, some (s.word w)) else s.memGet r w
    let (s2, l) := s1.loadWords r (w + 1) n
    (s2, match v, l with
      | some v, some l => some (leBytes 8 v ++ l)
      | _, _ => none)

/-- `n` bytes loaded by requester `r`: nothing where the access ends in a bus error (R393, R396, R580). -/
def State.load (s : State) (r a n : Nat) : State × Option (List Nat) :=
  let a := unalias a
  if n = 0 then (s, some [])
  else if s.isMem a n then
    let p := s.loadWords r (a / 8) ((a + n + 7) / 8 - a / 8)
    (p.1, p.2.map fun l => (l.drop (a % 8)).take n)
  else (s, none)

/-- One word stored: into the unit that the Stage holds, which is dirty from then, or by the memory controller. -/
def State.storeWord (s : State) (w v be : Nat) : State :=
  let u := s.unitOf (8 * w)
  if wordDram w && (s.stgLine (s.lineOf (8 * w))).any fun l => bit l.valid u && (s.stgState == 1 || bit l.dirty u) then
    (s.putWord w (mergeWord (s.word w) v be 8)).updLine (s.lineOf (8 * w)) fun x => { x with dirty := setBit x.dirty u }
  else s.memPut w v be

/-- Bytes stored at an address; false where the access ends in a bus error. -/
def State.store (s : State) (a : Nat) (l : List Nat) : State × Bool :=
  let a := unalias a
  if l = [] then (s, true)
  else if s.isMem a l.length then ((wordParts a (allBytes l.length) l).foldl (fun t p => t.storeWord p.1 p.2.1 p.2.2) s, true)
  else (s, false)

/-- The machine a store leaves. -/
def State.stored (s : State) (a : Nat) (l : List Nat) : State := (s.store a l).1

end Sys2Proof.Machine
end

