-- ==== Sys2Proof/Machine/Zones.lean ====
section
/-! DEFINITION. Zones (09): the zone-state store, the ordering point, zone states, sequence numbers and runs, and the journal. -/

namespace Sys2Proof.Machine

/-! ### Zone states and records (Table 09.1) -/

/-- The code of a zone state. -/
def ZState.code : ZState → Nat
  | .empty => 1 | .implicit => 2 | .explicit => 3 | .closed => 4 | .readOnly => 0xD | .full => 0xE | .offline => 0xF

/-- The zone state of a code. -/
def ZState.ofCode (c : Nat) : Option ZState :=
  [ZState.empty, ZState.implicit, ZState.explicit, ZState.closed, ZState.readOnly, ZState.full, ZState.offline].find? fun z => z.code == c

/-- Whether a zone is open (R305). -/
def Zone.isOpen (z : Zone) : Bool := z.st == .implicit || z.st == .explicit

/-- Whether a zone is active (R305). -/
def Zone.isActive (z : Zone) : Bool := z.isOpen || z.st == .closed

/-- The zone units replaced. -/
def State.zput (s : State) (g : ZoneUnit → ZoneUnit) : State := { s with zone := g s.zone }

/-- Whether a zone has a run in progress. -/
def State.hasRun (s : State) (id : Nat) : Bool := s.zone.runs.any fun r => r.zone == id

/-- Open zones of the controller (R305). -/
def State.openCount (s : State) : Nat := s.zone.zones.countP fun p => p.2.isOpen

/-- Active zones of the controller (R305). -/
def State.activeCount (s : State) : Nat := s.zone.zones.countP fun p => p.2.isActive

/-- FLAGS of a zone record. -/
def Zone.flags (z : Zone) (run : Bool) : Nat := b2n z.verify + 2 * b2n z.rzr + 4 * b2n run + 8 * b2n z.scandue

/-- The 64 bytes of a zone record (Table 09.1). -/
def Zone.bytes (z : Zone) (run : Bool) : List Nat :=
  let l := [z.st.code, z.flags run, z.act.val + 4 * z.head.val, 0] ++ leBytes 4 z.firstBank ++ leBytes 2 z.nbands ++ [0, 0] ++
    leBytes 4 z.zcap ++ leBytes 4 z.wp ++ leBytes 4 z.pp ++ leBytes 4 z.nextSeq ++ leBytes 4 z.pinwp ++ leBytes 4 z.firstTrack ++
    leBytes 4 0 ++ leBytes 8 z.jseq ++ List.replicate 12 0
  l ++ leBytes 4 (crc32c l)

/-- The address of a zone's record, by the ZBASE of unit `n` (R296). -/
def State.zaddr (s : State) (n : Fin 4) (id : Nat) : Nat := 2 ^ 25 * s.rd (Fd.RCH_ZBASE_BASE n) + 64 * id

/-- A zone's record written back to DRAM (R296). -/
def State.writeBack (s : State) (id : Nat) : State :=
  match s.zone? id with
  | none => s
  | some z => s.stored (s.zaddr z.act id) (z.bytes (s.hasRun id))

/-- A zone's record replaced in the cache and written back (R296). -/
def State.setZone (s : State) (id : Nat) (z : Zone) : State := (s.zput fun u => { u with zones := tinsert u.zones id z }).writeBack id

/-- A zone's record changed, where the zone exists. -/
def State.updZone (s : State) (id : Nat) (g : Zone → Zone) : State :=
  match s.zone? id with
  | none => s
  | some z => s.setZone id (g z)

/-! ### The journal (R321 to R323) -/

/-- The record positions of the log ring: 2,048 flash sectors of 128 (Table 09.5). -/
def jPositions : Nat := 262144

/-- The array offset of the zone-journal region (Table 14.1). -/
def jRegion : Nat := 0x2800000

/-- The offset of a record position in the region (Table 09.5). -/
def jOffset (pos : Nat) : Nat := 0x800000 + 32 * (pos % jPositions)

/-- The 32 bytes of a log record (Table 09.7). -/
def JRec.bytes (r : JRec) : List Nat :=
  let l := [r.body.type % 256, r.body.sub % 256, 0, 0] ++ leBytes 4 r.body.zone ++ leBytes 8 r.jseq ++ leBytes 4 r.body.a ++
    leBytes 4 r.body.b ++ leBytes 4 0
  l ++ leBytes 4 (crc32c l)

/-- The log record of 32 bytes; none where its CRC fails (R322). -/
def JRec.parse (l : List Nat) : Option JRec :=
  if leWord l 7 = crc32c (l.take 28) then
    some ⟨leValue ((l.drop 8).take 8), ⟨l.getD 0 0, l.getD 1 0, leWord l 1, leWord l 4, leWord l 5⟩⟩
  else none

/-- The record at a position of the log ring. -/
def State.jRecord (s : State) (pos : Nat) : Option JRec := JRec.parse (s.flashBytes (jRegion + jOffset pos) 32)

/-- Whether the journal writer runs. -/
def State.jOn (s : State) : Bool := s.on (Fd.RCH_JCTL_EN 0)

/-- Erased log sectors ahead of the head (JSTAT.FREE): those that hold no record from the oldest to the newest. -/
def ZoneUnit.free (u : ZoneUnit) : Nat := 2048 - ((u.head + 127) / 128 - u.tail / 128)

/-- A record sequenced: it takes JSEQ and is programmed in that order; an erase under way in bank 1 is suspended (R322, R453). -/
def State.jSequence (s : State) (b : JBody) : State :=
  let q := s.rd (Fd.RCH_JSEQ_NEXT 0)
  let s1 := ((s.wr (Fd.RCH_JSEQ_NEXT 0) (q + 1)).wr (Fd.RCH_JSTAT_BUSY 0) 1).zput fun u => { u with issued := u.issued ++ [⟨q, b⟩] }
  let s2 := if b.type = 0x07 ∨ b.type = 0x08 then s1 else s1.updZone b.zone fun z => { z with jseq := q }
  match s2.cfl.op1 with
  | some o => if o.erase && !s2.on (cflSusp 1) then s2.suspend 1 else s2
  | none => s2

/-- A zone unit issues a record: sequenced, queued while the writer is off, or held where it is a BEGIN and the erased margin is lost; after a
declaration of power loss none but VOID (R322, R323, R624). -/
def State.jIssue (s : State) (b : JBody) : State :=
  if s.on Fd.HSK_PLSTAT_DECL && b.type != 0x04 then s
  else if !s.jOn then s.zput fun u => { u with queue := u.queue ++ [b] }
  else if b.type = 0x01 ∧ s.rd (Fd.RCH_JSTAT_FREE 0) < 64 then s.zput fun u => { u with held := u.held ++ [b] }
  else s.jSequence b

/-- Records issued in order. -/
def State.jIssues (s : State) : List JBody → State
  | [] => s
  | b :: l => (s.jIssue b).jIssues l

/-- FREE brought up to date; with the margin lost JFULL is set and recorded, with it kept the held BEGIN records are issued (R323). -/
def State.jMargin (s : State) : State :=
  let f := s.zone.free
  let was := s.rd (Fd.RCH_JSTAT_FREE 0)
  let s1 := s.wr (Fd.RCH_JSTAT_FREE 0) f
  if f < 64 then
    if was < 64 then s1
    else ((four.foldl (fun t n => t.wr (Fd.RCH_ZINT_JFULL n) 1) s1)).raise (.zone 0) 0x0F03 4 (leBytes 2 f)
  else (s1.zput fun u => { u with held := [] }).jIssues s.zone.held

/-! ### Zone state changes (Table 09.2) -/

/-- A zone closed: Closed, or Empty where WP is 0. -/
def Zone.close (z : Zone) : Zone := { z with st := if z.wp = 0 then .empty else .closed }

/-- A zone reset (R310): nothing for an Empty zone with WP 0; else a new generation of sequence numbers, or Offline. -/
def Zone.reset (z : Zone) : Zone :=
  if z.st = .empty ∧ z.wp = 0 then z
  else if 0xFFFE0000 < z.nextSeq + 64 then { z with st := .offline, nextSeq := z.nextSeq + 64, wp := 0, pp := 0, parity := none }
  else { z with st := .empty, nextSeq := z.nextSeq + 64, wp := 0, pp := 0, parity := none }

/-- Whether Table 09.2 lets a zone be reset. -/
def Zone.resettable (z : Zone) : Bool := z.st == .empty || z.isActive || z.st == .full

/-- The effect of a RESETRANGE record on one zone (R311). -/
def Zone.rangeReset (z : Zone) (sub : Nat) : Zone :=
  if sub = 0 then (if z.resettable then z.reset else z)
  else if z.st = .offline then z else { z.reset with verify := false, rzr := false }

/-- A STATE record of a zone as it stands (Table 09.8). -/
def Zone.stateRec (z : Zone) (id : Nat) : JBody := ⟨0x05, z.st.code, id, z.wp, z.nextSeq⟩

/-- The effect of a RESETRANGE on `k` zones from `id` on. -/
def State.rangeReset (s : State) (sub id : Nat) : Nat → State
  | 0 => s
  | k + 1 => (s.updZone id fun z => z.rangeReset sub).rangeReset sub (id + 1) k

/-- A context that waited for a record no longer waits; with none left it is handed to completion. A Sanitize operation waits alike. -/
def State.jRelease (s : State) (b : JBody) : State :=
  if s.host.sanRecs.contains b then (s.hput fun h => { h with sanRecs := h.sanRecs.erase b }).settleSanitize
  else match s.host.ctxs.find? fun p => p.2.jwait.contains b with
  | none => s
  | some (c, x) =>
    let s1 := s.ctxUpd c fun y => { y with jwait := y.jwait.erase b }
    if x.jwait.erase b = [] then s1.handOver c 0 0 else s1

/-- What a durable record releases: the run's first sector, a RESETRANGE's effect, a Zone Management command (R307, R311, R318). -/
def State.jEffect (s : State) (b : JBody) : State :=
  let s1 := if b.type = 0x01 then
      s.zput fun u => { u with runs := u.runs.map fun r => if r.zone = b.zone then { r with durable := true } else r }
    else if b.type = 0x08 then s.rangeReset b.sub b.zone b.a else s
  s1.jRelease b

/-! ### The ordering point (R298 to R305, R308) -/

/-- The oldest Implicitly Opened zone without a run, which makes room (R305). -/
def State.toClose (s : State) : Option (Nat × Zone) :=
  (s.zone.zones.filter fun p => p.2.st == .implicit && !s.hasRun p.1).foldl
    (fun b p => match b with
      | none => some p
      | some q => if p.2.stamp < q.2.stamp then some p else some q) none

/-- ZONE_IMPLICIT_CLOSE: room made for one more open zone, where there is any (R305). -/
def State.makeRoom (s : State) : Option State :=
  if s.openCount < 128 then some s
  else match s.toClose with
    | none => none
    | some (id, z) => some (s.setZone id z.close)

/-- A write or append of `nlb` blocks checked by Table 09.3; `start` is its first data index where the command is a write, and the status
code of the first row that applies. The limits are checked by `State.openFor`. -/
def Zone.check (z : Zone) (append : Bool) (start nlb : Nat) : Option Nat :=
  if z.st = .offline then some 0xBB
  else if z.st = .readOnly then some 0xBA
  else if z.st = .full then some 0xB9
  else if (if append then start ≠ 0 else start ≠ z.pp) then some 0xBC
  else if z.zcap < z.pp + nlb then some 0xB8
  else none

/-- A zone made Implicitly Opened (or Explicitly, with `expl`) where it is not open, within the limits of R305; else 0xBD or 0xBE. -/
def State.openFor (s : State) (id : Nat) (z : Zone) (expl : Bool) : Except Nat State :=
  if z.isOpen then .ok (if expl then s.setZone id { z with st := .explicit } else s)
  else if z.st = .empty ∧ 256 ≤ s.activeCount then .error 0xBD
  else match s.makeRoom with
    | none => .error 0xBE
    | some s1 => .ok (s1.setZone id { z with st := if expl then .explicit else .implicit })

/-- A placed write or append: PP moves on by its blocks (R299, R303). -/
def State.advancePP (s : State) (id n : Nat) : State := s.updZone id fun z => { z with pp := z.pp + n }

/-! ### Runs and sectors (R120, R301, R315 to R320) -/

/-- What the zone unit answers to a data slot: the trailer fields, not on this pass, or no. -/
inductive Accept where
  | yes (zone : Option Nat) (seq keyrange : Nat)
  | wait
  | no
deriving DecidableEq, Repr

/-- Whether the unit of an actuator accepts sectors of zones at all (R297, R326, Table 09.11). -/
def State.zoneServes (s : State) (n : Fin 4) : Bool :=
  s.on (Fd.RCH_ZCTL_EN n) && s.on (Fd.RCH_ZSTAT_LOADED n) && !s.on (Fd.RCH_ZCTL_RECOV n)

/-- A run begins: its BEGIN record is issued (R317, R318). -/
def State.runBegin (s : State) (n k : Fin 4) (id : Nat) (z : Zone) : State :=
  if s.hasRun id then s
  else
    ((s.zput fun u => { u with runs := u.runs ++ [⟨n, k, id, false, z.wp, false⟩] }).writeBack id).jIssue ⟨0x01, 0, id, z.wp, z.nextSeq⟩

/-- The run that a slot of an engine writes to a zone. -/
def State.runOf (s : State) (n k : Fin 4) (id : Nat) : Option ZRun :=
  s.zone.runs.find? fun r => r.n == n && r.slot == k && r.zone == id

/-- A run changed. -/
def State.updRun (s : State) (n k : Fin 4) (id : Nat) (g : ZRun → ZRun) : State :=
  s.zput fun u => { u with runs := u.runs.map fun r => if r.n = n ∧ r.slot = k ∧ r.zone = id then g r else r }

/-- A first sector refused once because its BEGIN is not durable, or refused for good (R318). -/
def State.refuseFirst (s : State) (n k : Fin 4) (id : Nat) (r : ZRun) : State × Accept :=
  if r.refused then (s, .no) else (s.updRun n k id fun r => { r with refused := true }, .wait)

/-- ZONE_SECTOR_ACCEPT: the data slot of a zone at data index `d` (R120, R301, R308, R316). -/
def State.acceptZone (s : State) (n k : Fin 4) (id : Nat) (z : Zone) (d : Nat) : State × Accept :=
  if !s.zoneServes n then (s, .no)
  else match s.runOf n k id with
    | none =>
      if s.hasRun id then (s, .no)
      else if d = z.wp then ((s.runBegin n k id z).updRun n k id fun r => { r with refused := true }, .wait) else (s, .no)
    | some r =>
      if !r.durable then s.refuseFirst n k id r
      else if d ≠ r.next then (s, .no)
      else if z.st = .offline ∨ z.st = .readOnly ∨ z.st = .full ∨ z.zcap ≤ d then (s, .no)
      else match s.openFor id z false with
        | .error _ => (s, .no)
        | .ok s1 =>
          let s2 := s1.updZone id fun z => { z with nextSeq := z.nextSeq + 1, pp := max z.pp (d + 1), stamp := s1.zone.stamp + 1 }
          let s3 := (s2.zput fun u => { u with stamp := u.stamp + 1 }).updRun n k id fun r => { r with next := d + 1 }
          (s3, .yes (some id) z.nextSeq (s.zoneRange id d))

/-- The zone unit's answer for the data slot at a track position (R120, R315). -/
def State.acceptSector (s : State) (n k : Fin 4) (tp : Nat) : State × Accept :=
  match s.zoneAt n tp with
  | some (id, z, d) => s.acceptZone n k id z d
  | none =>
    match s.convAt n tp with
    | some lba => if s.on (Fd.RCH_ZCTL_EN n) && !s.on (Fd.RCH_ZCTL_RECOV n) then (s, .yes none lba (s.keyRange 1 lba)) else (s, .no)
    | none => (s, .no)

/-- WRITE_POINTER_ADVANCE: a data sector of a zone commits; a multiple of 4,096 issues a CKPT record (R301, R320, Table 09.2). -/
def State.zoneCommit (s : State) (id seq : Nat) : State :=
  match s.zone? id with
  | none => s
  | some z =>
    let w := z.wp + 1
    let s1 := s.setZone id { z with wp := w, pp := max z.pp w, st := if w = z.zcap ∧ z.isOpen then .full else z.st }
    if w % 4096 = 0 then s1.jIssue ⟨0x03, 0, id, w, seq + 1⟩ else s1

/-- Runs that end at the same WP with code 0x04 counted; the third makes the zone Read Only (R309). -/
def State.runFailed (s : State) (n : Fin 4) (id code : Nat) : State :=
  match s.zone? id with
  | none => s
  | some z =>
    if code ≠ 0x04 then s.setZone id { z with failRuns := 0 }
    else
      let k := if z.failWp = z.wp then z.failRuns + 1 else 1
      if 3 ≤ k ∧ z.isActive then
        let y := { z with st := .readOnly, failRuns := 0, failWp := z.wp }
        (((s.setZone id y).wr (Fd.RCH_ZINT_RDONLY n) 1).raise (.zone n) 0x0F01 5 (leBytes 4 id ++ leBytes 4 z.wp)).jIssue (y.stateRec id)
      else s.setZone id { z with failRuns := k, failWp := z.wp }

/-- A zone that a controller reset closes closes, where it is open (Table 09.2). -/
def State.closeIf (s : State) (id : Nat) : State :=
  (s.updZone id fun z => if z.isOpen then z.close else z).zput fun u => { u with closing := u.closing.filter (· != id) }

/-- RUN_END: a run ends; its END record is issued, and a STATE record where it took WP to ZCAP (R319). -/
def State.runEnd1 (s : State) (r : ZRun) (code : Nat) : State :=
  let s1 := (s.zput fun u => { u with runs := u.runs.erase r, held := u.held.filter fun b => b.zone != r.zone })
  match s1.zone? r.zone with
  | none => s1
  | some z =>
    let s2 := s1.jIssue ⟨0x02, code, r.zone, z.wp, z.nextSeq⟩
    let s3 := if z.st = .full ∧ z.wp = z.zcap then s2.jIssue (z.stateRec r.zone) else s2
    let s4 := s3.runFailed r.n r.zone code
    let s5 := if s4.zone.closing.contains r.zone then s4.closeIf r.zone else s4
    s5.writeBack r.zone

/-- The runs of a list end. -/
def State.runsEnd (s : State) (code : Nat) : List ZRun → State
  | [] => s
  | r :: l => (s.runEnd1 r code).runsEnd code l

/-- Every run of a slot ends with a code, 0xFF for none (R317, R319); a run that a power loss cuts stays (R624, R627). -/
def State.runEnd (s : State) (n k : Fin 4) (code : Nat) : State :=
  if s.on Fd.HSK_PLSTAT_DECL then s else s.runsEnd code (s.zone.runs.filter fun r => r.n == n && r.slot == k)

/-! ### Events of the zone unit -/

/-- The zone record that 64 bytes give, its STATE code not yet judged. -/
def Zone.parse (l : List Nat) (st : ZState) : Zone :=
  ⟨st, bit (l.getD 1 0) 0, bit (l.getD 1 0) 1, bit (l.getD 1 0) 3, Fin.ofNat 4 (l.getD 2 0), Fin.ofNat 8 (l.getD 2 0 / 4),
    bits (leWord l 1) 0 20, leValue ((l.drop 8).take 2), leWord l 3, leWord l 4, leWord l 5, leWord l 6, leWord l 7,
    bits (leWord l 8) 0 24, leValue ((l.drop 40).take 8), 0, 0, none, 0⟩

/-- The banks of a zone's bands. -/
def Zone.banks (z : Zone) : List Nat := (List.range z.nbands).map (z.firstBank + ·)

/-- The check that a record fails on its own: 0 CRC, 1 STATE, 2 bands, 3 FIRSTTRACK or ZCAP (R297). -/
def State.recFault (s : State) (n : Fin 4) (l : List Nat) : Option Nat :=
  if leWord l 15 ≠ crc32c (l.take 60) then some 0
  else match ZState.ofCode (l.getD 0 0) with
    | none => some 1
    | some st =>
      let z := Zone.parse l st
      let rs := s.regions n z.head.val
      if s.headOut n z.head.val then none
      else if z.nbands = 0 || !s.headOk n z.head.val || z.banks.any (fun b => (regionOfBank rs b).all Region.cmr) then some 2
      else
        let cap := slotsBefore rs false z.firstBank z.nbands
        let ft := (regionOfBank rs z.firstBank).map fun r => r.firstTrack + (z.firstBank - r.firstBank) * r.tracks
        if ft ≠ some z.firstTrack ∨ cap ≠ z.zcap ∨ 65536 < cap then some 3 else none

/-- Whether two zones share a band. -/
def Zone.overlaps (a b : Zone) : Bool :=
  a.act == b.act && a.head == b.head && a.firstBank < b.firstBank + b.nbands && b.firstBank < a.firstBank + a.nbands

/-- Whether a zone shares a band with a conventional extent of its head. -/
def State.inExtent (s : State) (z : Zone) : Bool :=
  (s.extents z.act).any fun x => x.head == z.head.val && x.bank < z.firstBank + z.nbands && z.firstBank < x.bank + x.bands

/-- The records of an actuator's zones in the store, by zone ID. -/
def State.storeRecs (s : State) (n : Fin 4) : List (Nat × List Nat) :=
  ((List.range (s.rd (Fd.RCH_ZCOUNT_COUNT n))).map fun id => (id, s.bytes (s.zaddr n id) 64)).filter fun p => p.2.getD 2 0 % 4 == n.val

/-- The zones of records that name a state. -/
def parseZones (l : List (Nat × List Nat)) : List (Nat × Zone) :=
  l.filterMap fun p => (ZState.ofCode (p.2.getD 0 0)).map fun st => (p.1, Zone.parse p.2 st)

/-- The first failing zone of a LOAD and its check (R297). -/
def State.loadFault (s : State) (n : Fin 4) (l : List (Nat × List Nat)) : Option (Nat × Nat) :=
  let own := l.findSome? fun p => (s.recFault n p.2).map fun c => (p.1, c)
  let zs := parseZones l
  let lap := (zs.find? fun p => (zs.any fun q => q.1 != p.1 && p.2.overlaps q.2) || s.inExtent p.2).map fun p => (p.1, 4)
  let all := (s.zone.zones.filter fun p => p.2.act != n) ++ zs
  let lim := if 128 < all.countP (fun p => p.2.isOpen) ∨ 256 < all.countP (fun p => p.2.isActive)
    then zs.head?.map fun p => (p.1, 5) else none
  own <|> lap <|> lim

/-- ZONE_LOAD (R297): the records of the actuator's zones become its cached records, or LOADFAIL is set. -/
def execZoneLoad (n : Fin 4) (s : State) : Host.Outcome State Fault Refusal :=
  let l := s.storeRecs n
  match s.loadFault n l with
  | some (id, c) =>
    .next ((((s.wr (Fd.RCH_ZSTAT_LOADED n) 0).wr (Fd.RCH_ZSTAT_LOADFAIL n) 1).wr (Fd.RCH_ZINT_LOADFAIL n) 1).raise (.zone n) 0x0F04 6
      (leBytes 4 id ++ [c]))
  | none =>
    let s1 := s.zput fun u => { u with zones := (parseZones l).foldl (fun t p => tinsert t p.1 p.2) (u.zones.filter fun p => p.2.act != n) }
    .next ((s1.wr (Fd.RCH_ZSTAT_LOADED n) 1).wr (Fd.RCH_ZSTAT_LOADFAIL n) 0)

/-- ZONE_RECOV_WRITE (R326). -/
def execZoneRecovWrite (n : Fin 4) (v : Bool) (s : State) : Host.Outcome State Fault Refusal :=
  .next (s.wr (Fd.RCH_ZCTL_RECOV n) (b2n v))

/-- ZONE_QUERY: the record of a zone as its ordering point has it (R298, R329). -/
def execZoneQuery (n : Fin 4) (z : BitVec 20) (s : State) : Host.Outcome State Fault Refusal :=
  let s1 := (s.wr (Fd.RCH_ZQRY_ZONE n) z.toNat).wr (Fd.RCH_ZQRES_VALID n) 1
  match (if z.toNat < s.rd (Fd.RCH_ZCOUNT_COUNT n) then s.zone? z.toNat else none) with
  | none =>
    .next (s1.wrs [(Fd.RCH_ZQRES_STATE n, 0), (Fd.RCH_ZQRES_FLAGS n, 0), (Fd.RCH_ZQRES_OWNED n, 0), (Fd.RCH_ZQRES_WP n, 0),
      (Fd.RCH_ZQRES_PP n, 0)])
  | some y =>
    .next (s1.wrs [(Fd.RCH_ZQRES_STATE n, y.st.code), (Fd.RCH_ZQRES_FLAGS n, y.flags (s.hasRun z.toNat)),
      (Fd.RCH_ZQRES_OWNED n, b2n (y.act == n)), (Fd.RCH_ZQRES_WP n, y.wp), (Fd.RCH_ZQRES_PP n, y.pp)])

/-- ZONE_VERIFY_FLAG: a zone's FLAGS changed and a FLAG record issued (R313, Table 09.8). -/
def State.setFlags (s : State) (id : Nat) (g : Zone → Zone) : State :=
  match s.zone? id with
  | none => s
  | some z => (s.setZone id (g z)).jIssue ⟨0x06, (g z).flags false % 4, id, (g z).pinwp, 0⟩

/-- The zone under write flagged for verify where the assist loop pins at its upper bound (R313). -/
def State.flagVerify (s : State) (n : Fin 4) (id : Nat) : State :=
  match s.zone? id with
  | none => s
  | some z =>
    ((s.setFlags id fun z => { z with verify := true, pinwp := z.wp }).wr (Fd.RCH_ZINT_VERIFY n) 1).raise (.zone n) 0x0F02 3
      (leBytes 4 id ++ leBytes 4 z.wp)

/-- ZFLAG_CLRVFY (R313). -/
def execZflagClrvfy (n : Fin 4) (z : BitVec 20) (s : State) : Host.Outcome State Fault Refusal :=
  .next ((s.wr (Fd.RCH_ZFLAGOP_ZONE n) z.toNat).setFlags z.toNat fun y => { y with verify := false })

/-- ZFLAG_SETRZR (R313). -/
def execZflagSetrzr (n : Fin 4) (z : BitVec 20) (s : State) : Host.Outcome State Fault Refusal :=
  .next ((s.wr (Fd.RCH_ZFLAGOP_ZONE n) z.toNat).setFlags z.toNat fun y => { y with rzr := true })

/-- JOURNAL_ENABLE (R322): the queued records take JSEQ in issue order. -/
def execJournalEnable (v : Bool) (s : State) : Host.Outcome State Fault Refusal :=
  let s1 := s.wr (Fd.RCH_JCTL_EN 0) (b2n v)
  if v then .next (((s1.wr (Fd.RCH_JSTAT_FREE 0) s.zone.free).zput fun u => { u with queue := [] }).jIssues s.zone.queue) else .next s1

/-- JOURNAL_RECORD_ISSUE (R322). -/
def execJournalRecordIssue (r : JBody) (s : State) : Host.Outcome State Fault Refusal := .next (s.jIssue r)

/-- PLSTAT.VOIDS set once no sector written whole waits for its decision and no VOID record waits to be durable (R624). -/
def State.settleVoids (s : State) : State :=
  let waits := four.any fun n => (s.reach.get n).begun.any fun b => b.kind == .wrs
  if !s.on Fd.HSK_PLSTAT_DECL || waits || s.zone.issued.any (fun r => r.body.type == 0x04) || s.zone.queue.any (fun b => b.type == 0x04) then s
  else s.wr Fd.HSK_PLSTAT_VOIDS 1

/-- JOURNAL_RECORD_DURABLE (R322): the oldest sequenced record is programmed at the head of the ring and takes its effect; code flash
refuses a program of words that are not erased (JSTAT.ERR). -/
def execJournalRecordDurable (s : State) : Host.Outcome State Fault Refusal :=
  match s.zone.issued with
  | [] => .next s
  | r :: l =>
    if !s.jOn then .next s
    else
      let off := jOffset s.zone.head
      if (List.range 4).any fun i => s.flashWord ((jRegion + off) / 8 + i) != erasedWord then
        .next ((s.wr (Fd.RCH_JSTAT_ERR 0) 1).raise (.zone 0) 0x0F05 6 (leBytes 4 off))
      else
        let s1 := { s with flash := flashPut s.flash (jRegion + off) r.bytes }
        let s2 := (s1.zput fun u => { u with issued := l, head := u.head + 1 }).wr (Fd.RCH_JSTAT_BUSY 0) (b2n (l != []))
        .next ((s2.jEffect r.body).jMargin).settleVoids

/-! ### Folding (R321, R323) -/

/-- The offset in the region of copy `c` of table page `p` (Table 09.5). -/
def pageOffset (p c : Nat) : Nat := 0x2000 * p + 0x1000 * c

/-- The newest JSEQ folded into a copy, none where its last word reads erased (R321). -/
def State.pageSeq (s : State) (p c : Nat) : Option Nat :=
  let w := s.flashWord ((jRegion + pageOffset p c + 4088) / 8)
  if w = erasedWord then none else some w

/-- The current copy of a page: the valid one with the higher JSEQ (R321). -/
def State.pageCopy (s : State) (p : Nat) : Option (Nat × Nat) :=
  match s.pageSeq p 0, s.pageSeq p 1 with
  | none, none => none
  | some a, none => some (0, a)
  | none, some b => some (1, b)
  | some a, some b => if a < b then some (1, b) else some (0, a)

/-- The entry of a zone at its page's first fold: Empty, or 0 for a zone ID at or above ZCOUNT (Table 09.6). -/
def State.entry0 (s : State) (id : Nat) : Nat := if id < s.rd (Fd.RCH_ZCOUNT_COUNT 0) then 1 else 0

/-- The entries of a page as its current copy gives them. -/
def State.pageEntries (s : State) (p : Nat) : List Nat :=
  match s.pageCopy p with
  | none => (List.range 511).map fun i => s.entry0 (511 * p + i)
  | some (c, _) => (List.range 511).map fun i => s.flashWord ((jRegion + pageOffset p c) / 8 + i)

/-- A table-page entry made of its fields (Table 09.6). -/
def pageEntry (st flags scandue wp seq : Nat) : Nat := st + 16 * flags + 64 * scandue + 256 * wp + 2 ^ 32 * seq

/-- A record folded into the entry of a zone (R323, R326). -/
def foldEntry (e : Nat) (id : Nat) (b : JBody) : Nat :=
  let st := bits e 0 4; let fl := bits e 4 2; let sd := bits e 6 1; let wp := bits e 8 17; let sq := bits e 32 32
  if b.type = 0x08 then
    if b.zone ≤ id ∧ id < b.zone + b.a then
      let reset := fun fl => if st = 1 ∧ wp = 0 then pageEntry st fl 0 wp sq
        else pageEntry (if 0xFFFE0000 < sq + 64 then 0xF else 1) fl 0 0 (sq + 64)
      if b.sub = 0 then (if st = 0xD ∨ st = 0xF then pageEntry st fl 0 wp sq else reset fl)
      else if st = 0xF then pageEntry st fl 0 wp sq else reset 0
    else e
  else if b.zone ≠ id then e
  else if b.type = 0x01 ∨ b.type = 0x03 then pageEntry (if st = 1 then 4 else st) fl 1 b.a b.b
  else if b.type = 0x02 then pageEntry (if b.a = 0 ∧ st = 4 then 1 else if st = 1 ∧ b.a ≠ 0 then 4 else st) fl 0 b.a b.b
  else if b.type = 0x05 then pageEntry b.sub fl 0 b.a b.b
  else if b.type = 0x06 then pageEntry st b.sub sd wp sq
  else e

/-- Records newer than a page folded into its entries, in order. -/
def foldPage (p seq : Nat) (es : List Nat) : List JRec → List Nat × Nat
  | [] => (es, seq)
  | r :: l =>
    if r.jseq ≤ seq then foldPage p seq es l
    else
      let es2 := (List.zip (List.range es.length) es).map fun x => foldEntry x.2 (511 * p + x.1) r.body
      foldPage p r.jseq es2 l

/-- The pages that a record names. -/
def JRec.pages (r : JRec) : List Nat :=
  if r.body.type = 0x07 then []
  else if r.body.type = 0x08 then (List.range ((r.body.zone + r.body.a - 1) / 511 - r.body.zone / 511 + 1)).map (r.body.zone / 511 + ·)
  else [r.body.zone / 511]

/-- One page folded: its invalid or older copy is erased and programmed with its present state, JSEQ last (R323). -/
def State.foldOne (s : State) (rs : List JRec) (p : Nat) : State :=
  let (es, seq) := foldPage p ((s.pageCopy p).elim 0 (fun x => x.2)) (s.pageEntries p) (rs.filter fun r => r.pages.contains p)
  let c := match s.pageCopy p with | some (0, _) => 1 | _ => 0
  { s with flash := flashPut s.flash (jRegion + pageOffset p c) (es.flatMap (leBytes 8) ++ leBytes 8 seq) }

/-- JOURNAL_FOLD (R323): the records of the oldest log sector are folded into their pages and the sector is erased; JFULL where the margin
still cannot be kept. -/
def execJournalFold (s : State) : Host.Outcome State Fault Refusal :=
  let t := s.zone.tail / 128 * 128
  if s.zone.head < t + 128 then .next s.jMargin
  else
    let rs := (List.range 128).filterMap fun i => s.jRecord (t + i)
    let s1 := (rs.flatMap JRec.pages).dedup.foldl (fun u p => u.foldOne rs p) s
    let off := jRegion + jOffset t
    let s2 := { s1 with flash := s1.flash.filter fun c => c.1 < off || off + 4096 ≤ c.1 }
    .next (s2.zput fun u => { u with tail := t + 128 }).jMargin

end Sys2Proof.Machine
end

