-- ==== Sys2Proof/Machine/Motion.lean ====
section
/-! DEFINITION. What the Reach engines, the channels, the arm links and the servos share: access to each unit's state, the arm-link queue,
the head geometry block and the start of a motion (05, 06). -/

namespace Sys2Proof.Machine

/-! ### Units of an actuator -/

/-- The servo of an actuator. -/
def State.sv (s : State) (n : Fin 4) : Servo := s.servo.get n

/-- A servo changed. -/
def State.updSv (s : State) (n : Fin 4) (g : Servo → Servo) : State := { s with servo := s.servo.upd n g }

/-- The channel of an actuator. -/
def State.ch (s : State) (n : Fin 4) : Chan := s.chan.get n

/-- A channel changed. -/
def State.updCh (s : State) (n : Fin 4) (g : Chan → Chan) : State := { s with chan := s.chan.upd n g }

/-- The preamplifier of an arm changed. -/
def State.updPreamp (s : State) (n : Fin 4) (g : Preamp → Preamp) : State := { s with preamp := s.preamp.upd n g }

/-- The Reach engine of an actuator. -/
def State.eng (s : State) (n : Fin 4) : Reach := s.reach.get n

/-- An engine changed. -/
def State.updEng (s : State) (n : Fin 4) (g : Reach → Reach) : State := { s with reach := s.reach.upd n g }

/-- A program slot. -/
def State.pslot (s : State) (n k : Fin 4) : Slot := (s.eng n).slots.get k

/-- A program slot changed. -/
def State.updSlot (s : State) (n k : Fin 4) (g : Slot → Slot) : State := s.updEng n fun r => { r with slots := r.slots.upd k g }

/-- The slot state of Table 03.2 of a program slot changed. -/
def State.updArch (s : State) (n k : Fin 4) (g : Arch → Arch) : State := s.updSlot n k fun x => { x with arch := g x.arch }

/-- The head that a channel serves (R134). -/
def State.selHead (s : State) (n : Fin 4) : Nat := s.rd (Fd.CHN_STATUS_HEAD n)

/-- SRV.STATUS.MODE (Table 06.11). -/
def State.mode (s : State) (n : Fin 4) : Nat := s.rd (Fd.SRV_STATUS_MODE n)

/-- Whether the bank clock is locked. -/
def State.blk (s : State) (n : Fin 4) : Bool := s.on (Fd.CHN_STATUS_BLK n)

/-- Whether an actuator's write pair is active. -/
def State.writing (s : State) (n : Fin 4) : Bool := s.on (Fd.CHN_WSTAT_WRITING n)

/-- A per-head event counter of Tables 04.5 and 05.11 raised by one; at 0xFFFF a channel's CNTSAT is set (R168). -/
def State.headCount (s : State) (n : Fin 4) (f : Fld) : State :=
  let s1 := s.count f 1
  if s1.rd f = 0xFFFF then s1.wr (Fd.CHN_INT_CNTSAT n) 1 else s1

/-! ### The arm link (R200) -/

/-- A transaction joins those that wait. -/
def State.armSend (s : State) (n : Fin 4) (t : ArmTx) : State := s.updCh n fun c => { c with txq := c.txq ++ [t] }

/-- Link address of a per-head preamplifier register (Table 05.9). -/
def headReg (h off : Nat) : Nat := 0x100 + 0x20 * h + off

/-- MODE of the preamplifier with a value of WARM, its other bits as they were last written (Table 05.9). -/
def State.modeWord (s : State) (n : Fin 4) (warm : Bool) : Nat :=
  putBit (tget 0 (s.preamp.get n).regs 0x009) 0 warm

/-- WARM = 0 queued (R179, R194). -/
def State.sendDisarm (s : State) (n : Fin 4) : State := s.armSend n ⟨.warmOff, false, 0x009, 0, [s.modeWord n false], false⟩

/-- WARM, as what has last been acknowledged says, with the head's heater level that follows: the write level while WARM is 1, else the read level
(R179, Table 05.9). -/
def Preamp.heated (p : Preamp) : Preamp :=
  { p with heater := tget 0 p.regs (headReg (tget 0 p.regs 0x008) (if bit (tget 0 p.regs 0x009) 0 then 4 else 3)) }

/-- The arming edge at the preamplifier: WARM is 1, the heater takes its write level, and the profile last sent to the head is in force (R177,
R179, R181). -/
def Preamp.armed (p : Preamp) : Preamp :=
  let q := { p with regs := tset 0 p.regs 0x009 (setBit (tget 0 p.regs 0x009) 0) }
  { q.heated with profile := (List.range 8).map fun i => tget 0 p.regs (headReg (tget 0 p.regs 0x008) (8 + i)) }

/-- WARM = 0 waits or is on the link. -/
def State.disarming (s : State) (n : Fin 4) : Bool :=
  let is := fun t : ArmTx => t.src == ArmSrc.warmOff
  (s.ch n).txq.any is || (s.ch n).tx.any is

/-- A transaction ended without success (R203): LINKERR and its event. -/
def State.linkErr (s : State) (n : Fin 4) (rd : Bool) (addr : Nat) (adre : Bool) : State :=
  (s.wr (Fd.ARM_INT_LINKERR n) 1).raise (.armLink n) 0x1302 4 ((if rd then 1 else 2) :: leBytes 2 addr ++ [b2n adre])

/-- A head's select write queued for a program slot (R112). -/
def State.sendSelect (s : State) (n k : Fin 4) (h : Nat) : State := s.armSend n ⟨.head k, false, 0x008, 0, [h], false⟩

/-- Whether a select write of the actuator waits or runs. -/
def State.selecting (s : State) (n : Fin 4) : Bool :=
  let is := fun t : ArmTx => match t.src with | .head _ => true | _ => false
  (s.ch n).txq.any is || (s.ch n).tx.any is

/-! ### The head geometry block (Table 06.15) -/

/-- The zone entry below a track, and how far the track lies past it: entry z applies at track z × 1,048,576 (R218). -/
def geoZone (track : Nat) : Nat × Nat := if 15728640 ≤ track then (15, 0) else (track / 1048576, track % 1048576)

/-- A signed field of the zone entries interpolated linearly in track number (R218). -/
def State.geoAt (s : State) (f : Nat → Fld) (w track : Nat) : Int :=
  let (z, d) := geoZone track
  let a := sgn w (s.rd (f z))
  if d = 0 then a else a + roundDiv ((sgn w (s.rd (f (z + 1))) - a) * d) 1048576

/-- TOFS at a track. -/
def State.tofs (s : State) (n : Fin 4) (h track : Nat) : Int := s.geoAt (Fd.SRV_GEO_TOFS_WORD n h) 32 track

/-- G at a track. -/
def State.gain (s : State) (n : Fin 4) (h track : Nat) : Int := s.geoAt (Fd.SRV_GEO_G_WORD n h) 16 track

/-- RWOFS at a track. -/
def State.rwofs (s : State) (n : Fin 4) (h track : Nat) : Int := s.geoAt (Fd.SRV_GEO_RWOFS_WORD n h) 32 track

/-! ### Targets (R215, R225) -/

/-- Where the followed element is to stand (R215). -/
def State.targetX (s : State) (n : Fin 4) (t : Target) : Option Int :=
  (s.place n t.tp).map fun p =>
    let h := tpHead t.tp
    let guard : Int := if !p.r.cmr && p.i == 0 then p.r.guard else 0
    let shg : Int := if p.r.cmr then 0 else s.rd (Fd.SRV_GEO_SHG_WORD n h)
    s.xTrack n h p + guard + (if t.write then shg else t.offset)

/-- Where the data reference point is to stand. -/
def State.targetRef (s : State) (n : Fin 4) (t : Target) : Option Int :=
  (s.targetX n t).map fun x => if t.write then x - s.rwofs n (tpHead t.tp) (tpTrack t.tp) else x

/-- The error of the followed element against the servo's target: the writer where the target is a write target, else the data reference
point; against the position half's centre where there is no target (R215). -/
def State.errNow (s : State) (n : Fin 4) : Int :=
  let v := s.sv n
  match v.target.bind fun t => (s.targetX n t).map fun x => (if t.write then v.xw else v.xd) - x with
  | some e => e
  | none => v.xb - s.xBank n (s.selHead n) v.bank

/-- ONT made false (R231). -/
def State.dropOnt (s : State) (n : Fin 4) : State := (s.wr (Fd.SRV_STATUS_ONT n) 0).updSv n fun v => { v with clean := 0 }

/-- Whether the actuator can move at all: fitted and loaded, not on its way to or from the ramp (R209, R245). -/
def State.movable (s : State) (n : Fin 4) : Bool :=
  s.on (Fd.SRV_CTL_FITTED n) && (s.mode n == 2 || s.mode n == 3 || s.mode n == 4)

/-- The track whose tether entries apply: the target's, or without one the first track of the band on the inner side of the current bank. -/
def State.nowTrack (s : State) (n : Fin 4) : Nat :=
  match (s.sv n).target with
  | some t => tpTrack t.tp
  | none =>
    match s.bankRegion n (s.selHead n) (s.sv n).bank with
    | some r => r.firstTrack + ((s.sv n).bank - r.firstBank) * r.tracks
    | none => 0

/-- The bias set for the tether displacement `τ` at the capture bank, of the static model of R218; open where the gain is 0. -/
def State.setBias (s : State) (n : Fin 4) (tau : Int) : State :=
  let h := s.selHead n
  let g := s.gain n h (s.nowTrack n)
  if g = 0 then s.tookFree.updSv n fun v => { v with bias := sgn 18 s.freeVal }
  else s.updSv n fun v => { v with bias := roundDiv ((tau - s.tofs n h (s.nowTrack n)) * 1024 * g.sign) g.natAbs }

/-- A motion starts from the bank that is held: in lock where the capture bank is the current bank or next to it, else as a crossing seek, whose
bias is set for the displacement that the target requires (R220, R225); counted as a seek (R112, R228). An unload keeps its MODE. -/
def State.beginMove (s : State) (n : Fin 4) (cap : Nat) (x : Int) : State :=
  let b := (s.sv n).bank
  let s1 := (s.dropOnt n).count (Fd.SRV_CNT0_SEEKS n) 1
  let mode := fun (t : State) (m : Nat) => if t.mode n = 5 then t else t.wr (Fd.SRV_STATUS_MODE n) m
  let go := fun (t : State) (p : SeekPhase) => t.updSv n fun v =>
    { v with cap := cap, phase := p, goal := .seek, word := none, words := 0, dirIn := v.xd < x, fromX := v.xd, goalX := x, since := v.periods,
             corr := 0, crossing := p == .release }
  if s.blk n ∧ s.mode n ≠ 4 ∧ cap ≤ b + 1 ∧ b ≤ cap + 1 then go (mode s1 3) .inlock
  else go (((mode s1 4).count (Fd.SRV_CNT0_XSEEKS n) 1).setBias n (x - s.xBank n (s.selHead n) cap)) .release

/-- An instruction that moves the actuator begins: its one correction is unspent (R227). -/
def State.freshSeek (s : State) (n : Fin 4) : State := s.updSv n fun v => { v with corrected := false }

/-- A motion to the servo's target (R225). -/
def State.startSeek (s : State) (n : Fin 4) : State :=
  match (s.sv n).target with
  | none => s
  | some t =>
    match s.targetRef n t with
    | none => s
    | some x => s.beginMove n (s.bankNear n (tpHead t.tp) x) x

/-- A motion toward a target of the selected head. -/
def State.moveTo (s : State) (n : Fin 4) (t : Target) : State :=
  let s1 := s.updSv n fun v => { v with target := some t }
  (s1.updSv n fun v => { v with err := s1.errNow n }).startSeek n

/-- The target dropped: the servo stays on the bank it holds, or captures and confirms one and tracks it where none is held (R109, R224); a bank
held in release is still held. -/
def State.dropTarget (s : State) (n : Fin 4) : State :=
  match (s.sv n).phase with
  | .none | .inlock | .arrive | .release =>
    (s.wr (Fd.SRV_STATUS_MODE n) (if s.mode n = 3 ∨ s.mode n = 4 then 2 else s.mode n)).updSv n fun v =>
      { v with target := none, phase := .none, goal := .none }
  | .confirm => s.updSv n fun v => { v with target := none, goal := .track }
  | _ => s.updSv n fun v => { v with target := none, goal := .track, phase := .capture }

/-- A criterion set named by SETTLE or by an implicit positioning: another set takes effect at the next period opening (R230, R231). -/
def State.nameSet (s : State) (n : Fin 4) (set : Fin 4) : State :=
  if s.rd (Fd.SRV_STATUS_SET n) = set.val then s.updSv n fun v => { v with pendSet := none }
  else s.updSv n fun v => { v with pendSet := some set }

/-- Whether ONT holds under a criterion set. -/
def State.ontUnder (s : State) (n : Fin 4) (set : Nat) : Bool :=
  s.on (Fd.SRV_STATUS_ONT n) && s.rd (Fd.SRV_STATUS_SET n) == set && (s.sv n).pendSet.isNone

/-! ### Bank clock (R144) -/

/-- BLK cleared, with ONT; the PES sample under way is spoilt (R144, R211, R231). -/
def State.clearBlk (s : State) (n : Fin 4) : State :=
  (((s.wr (Fd.CHN_STATUS_BLK n) 0).wr (Fd.CHN_RATE_MBPS n) 0).dropOnt n).updSv n fun v => { v with spoilt := true }

/-- A loss of BLK that neither a head nor a region change caused (R144). -/
def State.countBlkLoss (s : State) (n : Fin 4) : State :=
  ((s.wr (Fd.CHN_INT_BLKLOSS n) 1)).headCount n (Fd.CHN_HCNT3_BLK_LOSS n (s.selHead n))

end Sys2Proof.Machine
end

