-- ==== Sys2Proof/Machine/Slots.lean ====
section
/-! DEFINITION. Program slots: their records, which slot runs, how an instruction ends, and what a stop, an interrupt, a restart and a kill leave
(03, 07). -/

namespace Sys2Proof.Machine

/-! ### Words of a slot (Tables 03.4, 03.5, 03.7) -/

/-- ST (Table 03.5). -/
def Arch.stWord (a : Arch) : Nat := a.code % 256 + 256 * (a.nfails % 256) + 65536 * (min a.sw 0xFFFF)

/-- BP (Table 03.4): 0 while the chain is empty. -/
def Arch.bpWord (a : Arch) : Nat :=
  match a.chain with
  | [] => 0
  | e :: _ => a.bpSect % 2 ^ 24 + 2 ^ 24 * (a.bpRem % 2 ^ 24) + 2 ^ 48 * (e.ctx % 2 ^ 16)

/-- FL as an engine gives it now (Table 03.7). -/
def State.flWord (s : State) (n : Fin 4) (a : Arch) : Nat :=
  b2n a.z + 2 * b2n a.n + 4 * b2n a.c + 256 * b2n (s.blk n) + 512 * b2n a.syn + 1024 * b2n a.dec +
    2048 * b2n (s.on (Fd.SRV_STATUS_ONT n)) + 4096 * b2n a.rbk + 8192 * b2n a.fen + 16384 * b2n (s.on (Fd.RCH_SIGNALS_SIG n)) +
    32768 * b2n a.idx

/-- A chain entry as a word, ADDCN 0 (Table 03.4). -/
def ChainEntry.word (e : ChainEntry) : Nat :=
  e.ctx % 2 ^ 16 + 2 ^ 16 * (e.sect % 2 ^ 24) + 2 ^ 40 * (e.count % 2 ^ 22) + 2 ^ 62 * b2n e.ap

/-- The chain entry of a word. -/
def ChainEntry.ofWord (v : Nat) : ChainEntry := ⟨bits v 0 16, bits v 16 24, bits v 40 22, bit v 62⟩

/-- ST.CODE and Z written (R88). -/
def Arch.setCode (a : Arch) (code : Nat) : Arch := { a with code := code, z := code == 0 }

/-- A chain entry appended; the first one loads BP (R86). -/
def Arch.append (a : Arch) (e : ChainEntry) : Arch :=
  if a.chain = [] then { a with chain := [e], bpSect := e.sect, bpRem := e.count } else { a with chain := a.chain ++ [e] }

/-- The chain emptied. -/
def Arch.clearChain (a : Arch) : Arch := { a with chain := [], bpSect := 0, bpRem := 0 }

/-- One sector buffer used: BP moves on, and a spent entry leaves the chain (R86). -/
def Arch.useBuf (a : Arch) : Arch :=
  match a.chain with
  | [] => a
  | _ :: l =>
    if 1 < a.bpRem then { a with bpSect := a.bpSect + 1, bpRem := a.bpRem - 1 }
    else match l with
      | [] => a.clearChain
      | e :: _ => { a with chain := l, bpSect := e.sect, bpRem := e.count }

/-- The context and buffer index of the sector that is `j` sectors ahead in entries of a chain whose first has `rem` left from `sect`. -/
def bufAt (sect rem : Nat) : List ChainEntry → Nat → Option (Nat × Nat)
  | [], _ => none
  | e :: l, j =>
    if j < rem then some (e.ctx, sect + j)
    else match l with
      | [] => none
      | f :: _ => bufAt f.sect f.count l (j - rem)

/-- The context and buffer index of the sector `j` sectors ahead. -/
def Arch.buf (a : Arch) (j : Nat) : Option (Nat × Nat) := bufAt a.bpSect a.bpRem a.chain j

/-! ### Records (R95, R99, Table 03.9) -/

/-- The save area of a slot (Table 03.1). -/
def saveArea (n k : Fin 4) : Nat := wmem n + 0x10000 + 0x800 * k.val

/-- Bytes 0 to 0x1F7 of a record. -/
def State.recordBody (s : State) (n : Fin 4) (seq : Nat) (a : Arch) : List Nat :=
  List.flatten [leBytes 8 seq, leBytes 8 a.pc, a.w.toList.flatMap (fun v => leBytes 8 v.toNat), leBytes 8 a.tp.toNat,
    leBytes 8 a.bpWord, leBytes 8 a.cn.toNat, leBytes 8 a.stWord,
    leBytes 8 (s.flWord n a + 2 ^ 16 * a.offset.toNat + 2 ^ 32 * a.chain.length + 2 ^ 37 * a.stack.length),
    (List.range 8).flatMap (fun i => leBytes 8 (a.stack.reverse.getD i 0)), leBytes 8 0,
    (List.range 16).flatMap (fun i => leBytes 8 ((a.chain.map ChainEntry.word).getD i 0)), List.replicate 120 0]

/-- A record with its CHK. -/
def withChk (l : List Nat) : List Nat := l ++ leBytes 4 (crc32c l) ++ leBytes 4 0

/-- Copy `c` of a slot's record as working memory holds it, none where an error leaves it unreadable (Table 12.1). -/
def State.copyBytes (s : State) (n k : Fin 4) (c : Nat) : List Nat := s.bytes (saveArea n k + 0x200 * c) 0x200

/-- Whether the words of a copy can be read. -/
def State.copyReadable (s : State) (n k : Fin 4) (c : Nat) : Bool :=
  (List.range 64).all fun i => match q80 (s.err ((saveArea n k + 0x200 * c) / 8 + i)) with | .ok _ => true | _ => false

/-- SEQ of a copy, where its CHK matches. -/
def State.copySeq (s : State) (n k : Fin 4) (c : Nat) : Option Nat :=
  let l := s.copyBytes n k c
  if s.copyReadable n k c ∧ leValue (l.drop 0x1F8) = crc32c (l.take 0x1F8) then some (leValue (l.take 8)) else none

/-- The current copy of a slot's record and its SEQ (R99). -/
def State.current (s : State) (n k : Fin 4) : Option (Nat × Nat) :=
  match s.copySeq n k 0, s.copySeq n k 1 with
  | none, none => none
  | some a, none => some (0, a)
  | none, some b => some (1, b)
  | some a, some b => if a < b then some (1, b) else some (0, a)

/-- The slot state that a record gives (R97); the IDX latch is cleared. -/
def Arch.ofRecord (l : List Nat) : Arch :=
  let q := fun off => leValue ((l.drop off).take 8)
  let fl := q 0xB0
  let st := q 0xA8
  let ch := (List.range (min 16 (bits fl 32 5))).map fun i => ChainEntry.ofWord (q (0x100 + 8 * i))
  { pc := q 8 % 2 ^ 21, w := Vector.ofFn fun i => BitVec.ofNat 64 (q (0x10 + 8 * i.val)), tp := BitVec.ofNat 64 (q 0x90),
    cn := BitVec.ofNat 64 (q 0xA0), code := bits st 0 8, sw := bits st 16 16, nfails := bits st 8 8, z := bit fl 0, n := bit fl 1,
    c := bit fl 2, syn := bit fl 9, dec := bit fl 10, rbk := bit fl 12, fen := bit fl 13, idx := false,
    stack := ((List.range (min 8 (bits fl 37 4))).map fun i => q (0xB8 + 8 * i) % 2 ^ 21).reverse,
    chain := ch, bpSect := if ch = [] then 0 else bits (q 0x98) 0 24, bpRem := if ch = [] then 0 else bits (q 0x98) 24 24,
    offset := BitVec.ofNat 11 (bits fl 16 11) }

/-- A commit point: the record of the slot state `a` is written over the older copy (R99). -/
def State.recordAs (s : State) (n k : Fin 4) (a : Arch) : State :=
  let (c, seq) := match s.current n k with
    | none => (0, 1)
    | some (c, q) => (1 - c, q + 1)
  (s.stored (saveArea n k + 0x200 * c) (withChk (s.recordBody n seq a))).updSlot n k fun x => { x with recFail := x.headFail }

/-- The whole slot state recorded (R95). -/
def State.record (s : State) (n k : Fin 4) : State := s.recordAs n k (s.pslot n k).arch

/-- The state last recorded. -/
def State.recorded (s : State) (n k : Fin 4) : Option Arch := (s.current n k).map fun c => Arch.ofRecord (s.copyBytes n k c.1)

/-- Commit point 2 or 4 of R95: TP, BP, chain, CN and ST recorded, all else as last recorded. -/
def State.recordCommit (s : State) (n k : Fin 4) : State :=
  let a := (s.pslot n k).arch
  match s.recorded n k with
  | none => s.record n k
  | some r =>
    s.recordAs n k { r with tp := a.tp, cn := a.cn, chain := a.chain, bpSect := a.bpSect, bpRem := a.bpRem, code := a.code, sw := a.sw,
                            nfails := a.nfails, idx := a.idx }

/-! ### Which slot runs (R91, R93, R100) -/

/-- SLOT_STATEn.STATE as Table 03.20 numbers it. -/
def SlotSt.num : SlotSt → Nat
  | .idle => 0 | .ready => 1 | .running => 2 | .yielding => 3 | .stopped => 4 | .halted => 5 | .trapped => 6 | .faulted => 7

/-- Whether a slot is ready, running or yielding. -/
def Slot.active (x : Slot) : Bool := x.st == .ready || x.st == .running || x.st == .yielding

/-- Whether an engine works at all: it is neither absent, resetting nor failed (Table 01.6). -/
def State.engUp (s : State) (n : Fin 4) : Bool := !([0, 5, 7].contains (s.unit (.reach n)))

/-- Whether an engine takes up slots that are ready: with EN 0 and under a quiesce every slot stops at its point (Tables 01.8, 03.12). -/
def State.engRuns (s : State) (n : Fin 4) : Bool := s.on (Fd.RCH_CTL_EN n) && !(s.eng n).quiesce && s.engUp n

/-- The slot that has the engine: the one inside an instruction, which keeps it until its point of Table 03.8, else the lowest-numbered ready
one (R91). -/
def State.runner (s : State) (n : Fin 4) : Option (Fin 4) :=
  if !s.engUp n then none
  else match four.find? fun k => (s.pslot n k).st == .running with
    | some k => some k
    | none => if s.engRuns n then four.find? fun k => (s.pslot n k).st == .ready && !(s.pslot n k).intr else none

/-- Whether a motion or media instruction owns the actuator (RCH.STATUS.OWNED). -/
def Op.owns : Op → Bool
  | .seek | .follow | .settle _ | .head | .skipto | .media _ => true
  | _ => false

/-- RCH.STATUS.OWNED. -/
def State.owned (s : State) (n : Fin 4) : Bool :=
  four.any fun k => (s.pslot n k).st == .running && (s.pslot n k).op.any Op.owns

/-! ### Implicit positioning (R113) -/

/-- The head that a track position names. -/
def Arch.head (a : Arch) : Nat := tpHead a.tp.toNat

/-- The criterion set of a media instruction's implicit positioning. -/
def MediaKind.set : MediaKind → Fin 4
  | .wrs => 1 | .vfy => 1 | _ => 0

/-- The slot that a media instruction starts next: of its own range, and after that one that its groups still need (R165). -/
def Media.nextTp (m : Media) : Nat := if m.left = 0 then m.extra.headD m.next else m.next

/-- Where a media instruction, or SKIPTO, is to stand: its next slot as a target. -/
def Slot.aim (x : Slot) : Option (Target × Fin 4) :=
  match x.op with
  | some (.media m) => some (⟨m.nextTp, m.kind == .wrs, if m.kind == .wrs then 0 else x.arch.offset.toInt⟩, m.kind.set)
  | some .skipto => some (⟨x.arch.tp.toNat % 2 ^ 38, false, x.arch.offset.toInt⟩, 0)
  | _ => none

/-- Whether two targets ask for the same place of the data readers: head, track, element and offset. -/
def Target.same (a b : Target) : Bool := a.tp / 2048 == b.tp / 2048 && a.write == b.write && a.offset == b.offset

/-- Whether the actuator follows a target under a criterion set (R113). -/
def State.follows (s : State) (n : Fin 4) (t : Target) (set : Fin 4) : Bool :=
  s.selHead n == tpHead t.tp && s.mode n == 2 && s.ontUnder n set.val && (s.sv n).target.any fun u => u.same t

/-- The servo is to find a bank first, and then to move to a target from it (R112). -/
def State.findFirst (s : State) (n : Fin 4) (t : Target) : State :=
  s.updSv n fun v =>
    { v with target := some t, goal := .find, word := none, words := 0,
             phase := match v.phase with
               | .none | .inlock | .arrive => .capture
               | p => p }

/-- The head that the newest select write waiting or running names: the one that will be selected. -/
def State.headDue (s : State) (n : Fin 4) : Option Nat :=
  let is := fun t : ArmTx => match t.src with | .head _ => true | _ => false
  (((s.ch n).tx.toList ++ (s.ch n).txq).filter is).getLast?.map fun t => t.words.getD 0 0

/-- A motion to a target, its head selected first (R109, R112, R113). -/
def State.goTo (s : State) (n k : Fin 4) (t : Target) : State :=
  if (s.headDue n).getD (s.selHead n) ≠ tpHead t.tp then ((s.clearBlk n).sendSelect n k (tpHead t.tp)).findFirst n t
  else if s.selecting n || (s.sv n).goal == .find || !s.blk n then s.findFirst n t
  else s.moveTo n t

/-- Whether the actuator stands where a slot's media instruction, or SKIPTO, is to stand: its positioning is over. -/
def State.standing (s : State) (n k : Fin 4) : Bool := ((s.pslot n k).aim).any fun p => s.follows n p.1 p.2

/-- A media instruction noted as positioned, or as on its way (R113). -/
def State.notePlace (s : State) (n k : Fin 4) (v : Bool) : State :=
  s.updSlot n k fun x => { x with op := match x.op with
    | some (.media m) => some (.media { m with positioned := v })
    | o => o }

/-- The next step of the positioning of a slot's instruction: select the head, then seek, then settle (R113). -/
def State.position (s : State) (n k : Fin 4) : State :=
  match (s.pslot n k).aim with
  | none => s
  | some (t, set) =>
    if s.follows n t set then s.notePlace n k true
    else
      let s1 := (s.notePlace n k false).nameSet n set
      if (s1.sv n).target.any fun u => u.same t then s1 else s1.goTo n k t

/-! ### The write pair (R179, R194) -/

/-- The write pair goes idle: the assist element takes its tail (R179). A run that was armed and never started is disarmed again. -/
def State.idlePair (s : State) (n : Fin 4) : State :=
  if s.writing n then (s.wr (Fd.CHN_WSTAT_WRITING n) 0).updCh n fun c => { c with assist := .tail, armOk := false, laid := none }
  else if (s.ch n).armOk then (s.updCh n fun c => { c with assist := .off, armOk := false }).sendDisarm n
  else s

/-! ### Contexts that end with their slot (R262, R263) -/

/-- A context ends as it was marked to. -/
def State.endCtx (s : State) (c : Nat) : State :=
  match s.ctx? c with
  | none => s
  | some x =>
    match x.ending with
    | none => s
    | some .release =>
      let s1 := s.zput fun u => { u with due := match x.place with
        | some (z, _, _) => z :: u.due
        | none => u.due }
      (s1.ctxFree c).wr Fd.INT_INT_RELEASED 1
    | some (.complete sct sc) => (s.ctxUpd c fun y => { y with ending := none }).handOver c sct sc
    | some .again => s.ctxUpd c fun y => { y with ending := none, bound := none, st := .admitted, begun := false, done := [] }

/-- The contexts of a list end. -/
def State.endCtxs (s : State) : List Nat → State
  | [] => s
  | c :: l => (s.endCtx c).endCtxs l

/-- Whether a context stands in the chain of a slot other than `k`. -/
def State.heldElsewhere (s : State) (n k : Fin 4) (c : Nat) : Bool :=
  four.any fun j => j != k && (s.pslot n j).arch.chain.any fun e => e.ctx == c

/-- The contexts marked to end that slot `k` of engine `n` held, in its chain or waiting for POST. -/
def State.endingOf (s : State) (n k : Fin 4) : List Nat :=
  (s.host.ctxs.filter fun p => p.2.bound == some n && p.2.ending.isSome && !s.heldElsewhere n k p.1).map Prod.fst

/-! ### The sample store (R160 to R162, Table 04.3) -/

/-- The DRAM address of an entry of the sample store. -/
def State.storeAddr (s : State) (n : Fin 4) (e : Nat) : Nat := 2 ^ 24 * s.rd (Fd.CHN_STORE_BASE n) + 0x28000 * e

/-- STORED brought up to date. -/
def State.noteStored (s : State) (n : Fin 4) : State := s.wr (Fd.CHN_STATUS_STORED n) (s.ch n).store.length

/-- The store entries that `p` names are free: STATE of each is 0 (R161). -/
def State.freeEntries (s : State) (n : Fin 4) (p : StoreEntry → Bool) : State :=
  let s1 := ((s.ch n).store.filter p).foldl (fun t e => t.stored (s.storeAddr n e.e + 0x27FCA) [0]) s
  (s1.updCh n fun c => { c with store := c.store.filter fun e => !p e }).noteStored n

/-! ### Interrupt, restart, kill (R94, R97, Table 03.19) -/

/-- The deep-recovery requests of a slot dropped, the one being decoded with them (R94). -/
def State.dropDeep (s : State) (n k : Fin 4) : State :=
  let gone := fun d : DeepReq => d.n == n && d.slot == k
  let s1 := if s.deep.head?.any gone then s.wr Fd.DEEP_DSTATUS_BUSY 0 else s
  { s1 with deep := s.deep.filter fun d => !gone d }

/-- At the end of a WRS the servo follows the read target at its place again (R215). -/
def State.readTarget (s : State) (n k : Fin 4) : State :=
  let s1 := s.updSv n fun v => { v with target := v.target.map fun t =>
    if t.write then { t with write := false, offset := (s.pslot n k).arch.offset.toInt } else t }
  s1.updSv n fun v => { v with err := s1.errNow n }

/-- An interrupt abandons a slot's instruction: a sector being written stops, and no sector begun commits (R94); its runs end (R317). -/
def State.interrupt (s : State) (n k : Fin 4) : State :=
  let was := (s.eng n).begun.any fun b => b.slot == k && b.kind == .wrs && !b.written
  let s1 := s.updEng n fun r => { r with begun := r.begun.filter fun b => b.slot != k }
  let wrs := fun x : Slot => match x.op with | some (.media m) => m.kind == .wrs | _ => false
  let mine := wrs (s.pslot n k) && !(four.any fun j => j != k && (s.pslot n j).st == .running && wrs (s.pslot n j))
  let s2 := if was || mine then (s1.idlePair n).readTarget n k else s1
  let s3 := (s2.freeEntries n fun e => e.slot == k).updCh n fun c => { c with
    wmodeFailed := c.wmodeFailed && !wrs (s.pslot n k),
    txq := c.txq.filter fun t => match t.src with | .head j | .asp j _ | .htr j => j != k | _ => true }
  ((s3.dropDeep n k).runEnd n k 0xFF).updSlot n k fun x => { x with op := none, stopReq := false, micro := Micro.idle }

/-- The recorded head and offset established again for a slot, where no other slot has the actuator (R97). -/
def State.reestablish (s : State) (n k : Fin 4) : State :=
  let a := (s.pslot n k).arch
  let t : Target := ⟨a.tp.toNat % 2 ^ 38, false, a.offset.toInt⟩
  if (s.place n a.tp.toNat).isNone || !s.movable n || (four.any fun j => j != k && (s.pslot n j).st == .running && (s.pslot n j).op.any Op.owns) then s
  else if (s.headDue n).getD (s.selHead n) ≠ a.head ∨ (s.sv n).target.any fun u => !u.write && u.offset != t.offset then s.goTo n k t
  else s

/-- A slot restarts from its last record (R97), or is faulted (R99). -/
def State.restart (s : State) (n k : Fin 4) : State :=
  match s.recorded n k with
  | none =>
    ((s.updSlot n k fun x => { x with st := .faulted, intr := false, op := none }).setB (Fd.RCH_INT_FAULT n) k.val).raise (.reach n)
      0x1002 5 [k.val]
  | some a =>
    (s.updSlot n k fun x =>
      { x with arch := a, st := (if x.st == .stopped then SlotSt.stopped else SlotSt.ready), op := none, intr := false, stopReq := false,
               sluFail := false, armFail := false, headFail := x.recFail }).reestablish n k

/-- KILL: the slot is idle and its records are discarded; the contexts marked to end do so (R94, R263). -/
def State.kill (s : State) (n k : Fin 4) : State :=
  let s1 := s.interrupt n k
  let s2 := s1.stored (saveArea n k) (List.replicate 0x400 0)
  let ends := s2.endingOf n k
  let s3 := s2.updSlot n k fun x =>
    { x with st := .idle, intr := false, killReq := false, sluChans := [], xfers := 0, sluFail := false, armFail := false,
             headFail := false, recFail := false, madeEntry := false, sync := none, arch := x.arch.clearChain }
  s3.endCtxs ends

/-! ### The engine passes on (R91 to R93, R264) -/

/-- Slots that have stopped are killed where a kill follows their stop (R262, R263). -/
def State.killStopped (s : State) (n : Fin 4) : List (Fin 4) → State
  | [] => s
  | k :: l => (if (s.pslot n k).killReq && (s.pslot n k).st == .stopped then s.kill n k else s).killStopped n l

/-- Stopped slots recorded (commit point 6 of R95). -/
def State.recordStopped (s : State) (n : Fin 4) : List (Fin 4) → State
  | [] => s
  | k :: l => (if (s.pslot n k).st == .stopped then s.record n k else s).recordStopped n l

/-- Under a quiesce, once no slot is active: the stopped slots are recorded and the engine's STATE reads quiet (R264). -/
def State.quiesced (s : State) (n : Fin 4) : State :=
  if (s.eng n).quiesce && s.unit (.reach n) == 3 && four.all (fun k => !(s.pslot n k).active) then
    (s.recordStopped n four).setUnit (.reach n) 4
  else s

/-- The engine passes to the slot of R91; an instruction that was displaced goes on, from its positioning (R93). -/
def State.pass (s : State) (n : Fin 4) : State :=
  match s.runner n with
  | none => s
  | some k =>
    let x := s.pslot n k
    if x.st = .ready ∧ x.op.isSome then (s.updSlot n k fun x => { x with st := .running }).position n k else s

/-- What follows whenever a slot's state has changed: kills that were due, the end of a quiesce, and the choice of R91. -/
def State.dispatch (s : State) (n : Fin 4) : State := ((s.killStopped n four).quiesced n).pass n

/-! ### Ends of instructions -/

/-- The state a slot takes between instructions: stopped where it was, by a STOP that waited or by SSTEP, else ready. -/
def State.between (s : State) (n k : Fin 4) : SlotSt :=
  if (s.pslot n k).stopReq || (s.pslot n k).st == .stopped || s.on (Fd.RCH_CTL_SSTEP n) then .stopped else .ready

/-- An instruction ends with the slot state changed by `g`, PC at the next instruction. -/
def State.complete (s : State) (n k : Fin 4) (g : Arch → Arch) : State :=
  (s.updSlot n k fun x =>
    { x with op := none, st := s.between n k, stopReq := false,
             arch := let a := g x.arch; { a with pc := (a.pc + 4) % 2 ^ 21 } }).dispatch n

/-- An instruction ends as `complete` says and then records the whole slot state (R95). -/
def State.completeRecord (s : State) (n k : Fin 4) (g : Arch → Arch) : State :=
  ((s.updSlot n k fun x =>
    { x with op := none, st := s.between n k, stopReq := false,
             arch := let a := g x.arch; { a with pc := (a.pc + 4) % 2 ^ 21 } }).record n k).dispatch n

/-- A slot traps: PC stays, RCH.INT.TRAP is set (Table 03.25). -/
def State.trapSlot (s : State) (n k : Fin 4) (code : Nat) : State :=
  ((s.updSlot n k fun x => { x with st := .trapped, trap := code, op := none, stopReq := false }).setB (Fd.RCH_INT_TRAP n) k.val).dispatch n

/-- An instruction of the running slot, inside none: the fetch below the program area traps (R80), and otherwise `body` acts. -/
def State.instr (s : State) (n k : Fin 4) (body : Slot → State) : Host.Outcome State Fault Refusal :=
  let x := s.pslot n k
  if s.runner n ≠ some k ∨ x.op.isSome then .next s
  else if x.arch.pc < 0x14000 then .next (s.trapSlot n k 0xFF07)
  else .next (body x)

/-- A motion or media instruction: it waits while calibration claims the channel (R513). -/
def State.instrMove (s : State) (n k : Fin 4) (body : Slot → State) : Host.Outcome State Fault Refusal :=
  if s.cal.claim = some n then .next s else s.instr n k body

/-- The slot enters an instruction that lasts. -/
def State.enter (s : State) (n k : Fin 4) (o : Op) (st : SlotSt) : State :=
  let s1 := s.updSlot n k fun x => { x with op := some o, st := st }
  if st = .running then s1 else s1.dispatch n

/-- A word's address in working memory (R79). -/
def wmemAddr (n : Fin 4) (a : Nat) : Nat := wmem n + a

/-- Whether a slot's sectors are all decided. -/
def State.settled (s : State) (n k : Fin 4) : Bool := (s.eng n).begun.all fun b => b.slot != k

/-- A displaced or stopping instruction gives up the engine: a media instruction and SKIPTO keep their state and are positioned again
later, SKIPTO, SCAN and RAW from their beginning (Table 03.8). -/
def Op.yieldUp (a : Arch) : Op → Op
  | .media m =>
    if m.kind = MediaKind.scan ∨ m.kind = MediaKind.raw then
      .media { m with positioned := false, next := m.first, left := a.cn.toNat, k := 0, ref := none, ending := none,
                      passes := 0, failed := false }
    else .media { m with positioned := false }
  | o => o

/-- The point of Table 03.8 at which a STOP takes effect on the instruction under way: at once or at the slot boundary, or at its end; SKIPTO
ends its positioning first. -/
def Op.stopsNow : Op → Bool
  | .wait _ _ | .join _ _ | .fence _ _ _ | .post _ => true
  | .media _ => true
  | .skipto => true
  | _ => false

/-- A slot gives up the engine at its preemption point into state `st`; a wait is dropped and run again later (R93, R264). -/
def State.giveUp (s : State) (n k : Fin 4) (st : SlotSt) : State :=
  let x := s.pslot n k
  let s1 := match x.op with
    | some (.media m) =>
      if m.kind = MediaKind.scan ∨ m.kind = MediaKind.raw then s.updEng n fun r => { r with begun := r.begun.filter fun b => b.slot != k } else s
    | _ => s
  s1.updSlot n k fun y =>
    { y with st := st, stopReq := false, op := match y.op with
      | some (.media m) => some (Op.yieldUp y.arch (.media m))
      | some .skipto => some .skipto
      | some (.wait _ _) | some (.join _ _) | some (.fence _ _ _) | some (.post _) => none
      | o => o }

/-- STOP (Table 03.19): at once where the point of Table 03.8 is reached, else at the end of the instruction. A WRS frees the actuator once the
read-behind of its last sector is decided; a media instruction starts no further sector. -/
def State.stopSlot (s : State) (n k : Fin 4) : State :=
  let x := s.pslot n k
  if !x.active then s
  else match x.op with
    | none => (s.updSlot n k fun y => { y with st := .stopped }).dispatch n
    | some o =>
      if !o.stopsNow then s.updSlot n k fun y => { y with stopReq := true }
      else match o with
        | .media m =>
          if (m.kind = .wrs ∨ (s.eng n).quiesce ∨ x.killReq) ∧ !s.settled n k then s.updSlot n k fun y => { y with stopReq := true }
          else (s.giveUp n k .stopped).dispatch n
        | .skipto =>
          if x.st = .running ∧ !s.standing n k then s.updSlot n k fun y => { y with stopReq := true } else (s.giveUp n k .stopped).dispatch n
        | _ => (s.giveUp n k .stopped).dispatch n

/-- Where a slot has reached its target: SKIPTO and media instructions are positioned, and a SKIPTO that is to stop does so now (R113,
Table 03.8). -/
def State.placed (s : State) (n k : Fin 4) : State :=
  let s1 := s.notePlace n k true
  match (s1.pslot n k).op with
  | some .skipto => if (s1.pslot n k).stopReq then (s1.giveUp n k .stopped).dispatch n else s1
  | _ => s1

/-- A slot is stopped and then killed (R262, R263). -/
def State.stopKill (s : State) (n k : Fin 4) : State :=
  let s1 := s.updSlot n k fun x => { x with killReq := true }
  if (s1.pslot n k).active then s1.stopSlot n k else (s1.kill n k).dispatch n

end Sys2Proof.Machine
end

