-- ==== Sys2Proof/Machine/Host.lean ====
section
/-! DEFINITION. The intake: queues, fetch, admission, binding, limits and completion (10, 13). -/

namespace Sys2Proof.Machine

/-! ### Controllers and queues (R332, R339) -/

/-- The controller of a port. -/
def State.ctrl (s : State) (i : Fin 2) : Ctrl := if i = 0 then s.host.c0 else s.host.c1

/-- A controller changed. -/
def State.ctrlUpd (s : State) (i : Fin 2) (g : Ctrl → Ctrl) : State :=
  s.hput fun h => if i = 0 then { h with c0 := g h.c0 } else { h with c1 := g h.c1 }

/-- Whether a controller exists: the second only in ×2 mode (R332). -/
def State.ctrlHere (s : State) (i : Fin 2) : Bool := i = 0 || !s.on Fd.INT_CTL_X4

/-- A submission queue of a controller. -/
def State.sq? (s : State) (i : Fin 2) (q : Nat) : Option Sq := ((s.ctrl i).sqs.find? fun p => p.1 == q).map Prod.snd

/-- A submission queue changed. -/
def State.sqUpd (s : State) (i : Fin 2) (q : Nat) (g : Sq → Sq) : State :=
  s.ctrlUpd i fun c => { c with sqs := c.sqs.map fun p => if p.1 = q then (q, g p.2) else p }

/-- The submission queues of both controllers. -/
def State.allSqs (s : State) : List (Fin 2 × Nat × Sq) :=
  s.host.c0.sqs.map (fun p => (0, p.1, p.2)) ++ s.host.c1.sqs.map (fun p => (1, p.1, p.2))

/-- Contexts that a queue's own fetches hold. -/
def State.usedBy (s : State) (i : Fin 2) (q : Nat) : Nat := s.host.ctxs.countP fun p => p.2.ctl == i && p.2.sq == q && p.2.origin.isNone

/-- Contexts of the pool: those in no queue's reserve and kept for no peer (R341, R565). -/
def State.poolSize (s : State) : Nat :=
  65536 - (s.allSqs.map fun q => q.2.2.reserve).sum - s.rd Fd.CFX_FWDRES_CTX * (s.members - 1)

/-- Pooled contexts in use. -/
def State.poolUsed (s : State) : Nat := (s.allSqs.map fun q => s.usedBy q.1 q.2.1 - q.2.2.reserve).sum

/-- Whether a context is free for a queue, in its reserve or in the pool (R341). -/
def State.ctxFor (s : State) (i : Fin 2) (q : Nat) : Bool :=
  match s.sq? i q with
  | none => false
  | some x => s.usedBy i q < x.reserve || s.poolUsed < s.poolSize

/-- Free contexts of the pool. -/
def State.poolFree (s : State) : Nat := s.poolSize - s.poolUsed

/-- CTXLOW is set, and event 0x0303 recorded, when the free contexts of the pool, `was` before, fall below 1,024 (Table 10.11). -/
def State.notePool (s : State) (was : Nat) : State :=
  if s.poolFree < 1024 ∧ 1024 ≤ was then (s.wr Fd.INT_INT_CTXLOW 1).raise .intake 0x0303 3 (leBytes 4 s.poolFree) else s

/-- The lowest-numbered free context. -/
def freeCtx (used : List Nat) : Nat → Nat → Nat
  | c, 0 => c
  | c, f + 1 => if used.contains c then freeCtx used (c + 1) f else c

/-- The lowest-numbered free context (R340). -/
def State.nextCtx (s : State) : Nat := freeCtx (s.host.ctxs.map Prod.fst) 0 (s.host.ctxs.length + 1)

/-! ### Statuses (Table 10.6) -/

/-- DNR of a status (Table 10.6). -/
def dnrOf (sct sc : Nat) : Bool :=
  !([(0, 0), (0, 7), (0, 8), (0, 0x1D), (1, 0xBD), (1, 0xBE), (2, 0x80), (2, 0x81), (3, 2), (0, 6), (0, 0x21), (0, 0x82), (1, 0x13)] :
    List (Nat × Nat)).contains (sct, sc)

/-! ### Asynchronous events (Table 10.8) -/

/-- A feature of a controller, at its reset value where the host has not set it. -/
def featAt (fid d : Nat) (l : List (Nat × Nat)) : Nat := ((l.find? fun p => p.1 == fid).map Prod.snd).getD d

/-- A feature's value replaced. -/
def featSet (fid v : Nat) (l : List (Nat × Nat)) : List (Nat × Nat) := (fid, v) :: l.filter fun p => p.1 != fid

/-- Notices and outstanding requests meet, oldest first: a request completes with the notice in dword 0. -/
def State.meetAer (s : State) (i : Fin 2) : Nat → State
  | 0 => s
  | f + 1 =>
    match (s.ctrl i).aers, (s.ctrl i).notices with
    | c :: as, n :: ns =>
      (((s.ctrlUpd i fun x => { x with aers := as, notices := ns }).ctxUpd c fun x => { x with res0 := n }).handOver c 0 0).meetAer i f
    | _, _ => s

/-- An event of a type and information, with its log page, for a controller whose configuration enables it by bit `b`; one waits per kind. -/
def State.notice (s : State) (i : Fin 2) (b type info page : Nat) : State :=
  let v := type + 256 * info + 65536 * page
  if !bit (featAt 0x0B 0 (s.ctrl i).features) b || (s.ctrl i).notices.contains v then s
  else (s.ctrlUpd i fun x => { x with notices := x.notices ++ [v] }).meetAer i 8

/-- A notice on both controllers. -/
def State.noticeAll (s : State) (b type info page : Nat) : State := (s.notice 0 b type info page).notice 1 b type info page

/-- A namespace's zone descriptors have changed: on the Changed Zone List, with the notice (R336). -/
def State.zoneChanged (s : State) (z : Nat) : State :=
  (s.hput fun h => { h with changedZones := if h.changedZones.contains z then h.changedZones else h.changedZones ++ [z] }).noticeAll 27 2 0xEF 0xBF

/-! ### Fetch (R340, R343, R363) -/

/-- What an I/O opcode needs: whether it exists at all, by whether its namespace is zoned (Table 10.3). -/
def ioOpcode (op : Nat) : Bool := [0x00, 0x01, 0x02, 0x08, 0x0C, 0x79, 0x7A, 0x7D, 0x81].contains op

/-- The admin opcodes of Table 10.3. -/
def adminOpcode (op : Nat) : Bool :=
  [0x00, 0x01, 0x02, 0x04, 0x05, 0x06, 0x08, 0x09, 0x0A, 0x0C, 0x10, 0x11, 0x80, 0x81, 0x82, 0x84].contains op

/-- The actuator that holds a block of a local namespace. -/
def State.actOf (s : State) (j lba : Nat) : Fin 4 :=
  if s.nsZoned j then ((s.zone? (s.nsFirst j + lba / 65536)).map Zone.act).getD 0 else ((s.convTp lba).map Prod.fst).getD 0

/-- Consecutive blocks grouped by actuator. -/
def actRuns (f : Nat → Fin 4) (lba : Nat) : Nat → List (Fin 4 × Nat × Nat)
  | 0 => []
  | k + 1 =>
    match actRuns f (lba + 1) k with
    | (a, b, n) :: l => if f lba = a then (a, lba, n + 1) :: l else (f lba, lba, 1) :: (a, b, n) :: l
    | [] => [(f lba, lba, 1)]

/-- The runs of a command in actuator order, one context each (R252, R340). -/
def byActuator (l : List (Fin 4 × Nat × Nat)) : List (Fin 4 × Nat × Nat) := four.flatMap fun n => l.filter fun x => x.1 == n

/-- Whether a context carries a command over blocks: Write, Read, Write Zeroes, Verify, Zone Append. -/
def Ctx.media (x : Ctx) : Bool := x.writes || x.reads

/-- The contexts that a command splits into: first block and blocks of each. -/
def State.pieces (s : State) (x : Ctx) : List (Nat × Nat) :=
  match s.nsLocal x.nsid with
  | none => [(x.slba, x.nlb)]
  | some j =>
    if x.media && !x.writes || (x.media && !s.nsZoned j) then
      if x.slba + x.nlb ≤ s.nsSize j then (byActuator (actRuns (s.actOf j) x.slba x.nlb)).map fun p => p.2 else [(x.slba, x.nlb)]
    else [(x.slba, x.nlb)]

/-- The DRAM address that the intake reserves for a buffer: 4 KiB-aligned DRAM, which one is not stated. -/
def State.freeBuf (s : State) : Nat := dramBase + 4096 * (s.freeVal % (max 1 (s.dramSize / 4096)))

/-- A command's contexts taken, first to last, each linked to the next; the number of the first. -/
def State.takeCtxs (s : State) (x : Ctx) : List (Nat × Nat) → State × Option Nat
  | [] => (s, none)
  | (lba, n) :: l =>
    let c := s.nextCtx
    let s1 := (s.ctxNew c { x with lba := lba, total := if x.media then n else 0, buf := s.freeBuf }).tookFree
    let (s2, d) := s1.takeCtxs x l
    (s2.ctxUpd c fun y => { y with link := d }, some c)

/-- A context as a fetch leaves it: held (Table 10.4). -/
def Ctx.fresh (e : Sqe) (sq : Nat) (ctl : Fin 2) (cls : CtxClass) (now ord : Nat) (origin : Option (Nat × Nat)) : Ctx :=
  ⟨e, sq, ctl, .held, cls, none, 0, 0, false, 0, 0, now, 0, 0, none, [], 0, none, false, false, false, [], origin, none, [], 0, ord, none, none, 0⟩

/-- Every context of a command ends with a status. -/
def State.endAll (s : State) (c sct sc : Nat) : State := (s.linked c 8).foldl (fun t d => t.handOver d sct sc) s

/-- What a fetched entry fails at once: an opcode that is not of Table 10.3, a fused operation, a pointer that is no PRP, an action or
option that the table does not allow (R337, R312). -/
def Ctx.fetchFault (x : Ctx) : Option Nat :=
  let op := x.opcode
  let dw13 := x.dw 13
  if (if x.admin then !adminOpcode op else !ioOpcode op) then some 0x01
  else if bits (x.dw 0) 8 2 ≠ 0 ∨ bits (x.dw 0) 14 2 ≠ 0 then some 0x02
  else if !x.admin ∧ op = 0x79 ∧ !([1, 2, 3, 4, 5].contains (dw13 % 256)) then some 0x02
  else if !x.admin ∧ op = 0x7A ∧ (dw13 % 256 ≠ 0 ∨ 7 < bits dw13 8 8) then some 0x02
  else if !x.admin ∧ op = 0x81 ∧ (List.range 14).any (fun i => x.dw (i + 2) != 0) then some 0x02
  else none

/-- The member that owns a namespace, where it is not this one (R565). -/
def State.owner (s : State) (nsid : Nat) : Option Nat :=
  if nsid / 8 ≠ s.pos ∧ nsid / 8 < s.members ∧ 1 ≤ nsid % 8 ∧ nsid % 8 ≤ 5 then some (nsid / 8) else none

/-- Whether a command goes by its namespace: every I/O command but Flush and Ordering Fence. -/
def Ctx.byNs (x : Ctx) : Bool := !x.admin && x.opcode != 0x00 && x.opcode != 0x81

/-- Whether an admin command would change subsystem state (R561, R563): a subsystem-wide feature, a format, a sanitize. -/
def Ctx.changes (x : Ctx) : Bool :=
  x.admin && ((x.opcode == 0x09 && [0x04, 0x0C, 0x0E].contains (x.dw 10 % 256)) || x.opcode == 0x80 || x.opcode == 0x84)

/-- Where an admin command that changes subsystem state goes (R561, R563): nowhere at a cut-off mouth, a feature to the lead, a format to the
member that owns the namespace. -/
def State.adminRoute (s : State) (c : Nat) (x : Ctx) : State :=
  if s.on Fd.CFX_STATUS_CUTOFF then s.endAll c 0 0x21
  else if x.opcode = 0x09 ∧ 1 < s.members ∧ !s.on Fd.CFX_STATUS_ISLEAD ∧ s.on Fd.CFX_STATUS_HASLEAD then
    s.ctxUpd c fun y => { y with fwdTo := some (s.rd Fd.CFX_STATUS_LEAD) }
  else if x.opcode = 0x80 then
    match s.owner x.nsid with
    | none => s
    | some p => if s.serves p then s.ctxUpd c fun y => { y with fwdTo := some p } else s.endAll c 3 0x02
  else s

/-- A fetched command's first checks, and the member it is to be forwarded to (R561, R565, R572). -/
def State.route (s : State) (c : Nat) : State :=
  match s.ctx? c with
  | none => s
  | some x =>
    match x.fetchFault with
    | some sc => s.endAll c 0 sc
    | none =>
      if x.changes ∧ x.origin.isNone then s.adminRoute c x
      else if x.byNs ∧ x.origin.isNone ∧ s.on Fd.CFX_STATUS_CUTOFF then s.endAll c 3 0x02
      else if !x.byNs ∨ x.origin.isSome then s
      else match s.owner x.nsid with
        | none => s
        | some p => if s.serves p then s.ctxUpd c fun y => { y with fwdTo := some p } else s.endAll c 3 0x02

/-- SQ_DOORBELL: a new tail within the queue (R341). -/
def execSqDoorbell (ctl : Fin 2) (sq : Fin 129) (tail : BitVec 16) (s : State) : Host.Outcome State Fault Refusal :=
  match s.sq? ctl sq.val with
  | none => .next s
  | some q => if (s.ctrl ctl).en ∧ tail.toNat < q.size then .next (s.sqUpd ctl sq.val fun q => { q with tail := tail.toNat }) else .next s

/-- Whether the intake fetches for a controller (R355, R357, R359, R360, R624, Table 10.11). -/
def State.fetches (s : State) (i : Fin 2) : Bool :=
  s.on Fd.INT_CTL_EN && !s.on Fd.INT_STATUS_PAUSED && s.ctrlHere i && (s.ctrl i).rdy && !(s.ctrl i).stopped && !(s.ctrl i).linkHeld &&
    !([3, 4, 5].contains (s.unit .intake)) && !s.on Fd.HSK_PLSTAT_DECL && !s.power.p0

/-! ### Arbitration (R343) -/

/-- The Arbitration feature of a controller: AB [2:0], LPW [15:8], MPW [23:16], HPW [31:24] (Table 10.8). -/
def State.arbWord (s : State) (i : Fin 2) : Nat := featAt 0x01 0x03030307 (s.ctrl i).features

/-- The weights of the high, medium and low classes. PRESUMED from NVMe, as the places of the fields are: each counts from 0 for a weight of 1. -/
def State.weights (s : State) (i : Fin 2) : List Nat :=
  [bits (s.arbWord i) 24 8 + 1, bits (s.arbWord i) 16 8 + 1, bits (s.arbWord i) 8 8 + 1]

/-- The entries that one grant may fetch: 2 to the power AB. PRESUMED from NVMe: AB of 7 sets no limit. -/
def State.burst (s : State) (i : Fin 2) : Nat := if s.arbWord i % 8 = 7 then 65536 else 2 ^ (s.arbWord i % 8)

/-- The weighted class taken next, 0 high to 2 low, and the credits it is taken with. DESIGN CHOICE: the rule gives no order for the weights; the
highest class wanted that has credit left goes first, and once none has, all start again from their weights. -/
def wrrPick (w c : List Nat) (wants : Nat → Bool) : Option (Nat × List Nat) :=
  match (List.range 3).find? fun k => wants k && 0 < c.getD k 0 with
  | some k => some (k, c)
  | none => ((List.range 3).find? wants).map fun k => (k, w)

/-- Credits with one of a class spent. -/
def spend (c : List Nat) (k : Nat) : List Nat := c.set k (c.getD k 0 - 1)

/-- The SQs of a controller that may be fetched of: they hold an entry, and a context is free for them (R341). -/
def State.wanting (s : State) (i : Fin 2) : List (Nat × CtxClass) :=
  if s.fetches i then ((s.ctrl i).sqs.filter fun p => p.2.head != p.2.tail && s.ctxFor i p.1).map fun p => (p.1, p.2.cls) else []

/-- The next of a list of queues in round robin after the one last granted. -/
def roundRobin (last : Nat) (l : List Nat) : Option Nat :=
  match l.find? fun q => last < q with
  | some q => some q
  | none => l.head?

/-- The queues of a class that want a grant, and the next of them. -/
def State.turnOf (s : State) (i : Fin 2) (cls : CtxClass) : Option Nat :=
  roundRobin (tget 0 s.host.arb.turn (8 * i.val + cls.num)) (((s.wanting i).filter fun p => p.2 == cls).map Prod.fst)

/-- The class of a weighted index. -/
def weighted (k : Nat) : CtxClass := if k = 0 then .high else if k = 1 then .medium else .low

/-- What is left of a controller's weights. -/
def State.credits (s : State) (i : Fin 2) : List Nat := tget [0, 0, 0] s.host.arb.creds i.val

/-- The SQ that a controller's arbitration takes next: the admin SQ, then urgent SQs in round robin, then the weighted classes. -/
def State.choose (s : State) (i : Fin 2) : Option Nat :=
  if (s.wanting i).any fun p => p.1 == 0 then some 0
  else match s.turnOf i .urgent with
    | some q => some q
    | none => (wrrPick (s.weights i) (s.credits i) fun k => (s.turnOf i (weighted k)).isSome).bind fun p => s.turnOf i (weighted p.1)

/-- Whether a queue's class still has credit to go on under an open grant. -/
def State.funded (s : State) (i : Fin 2) (cls : CtxClass) : Bool :=
  match cls with
  | .admin | .urgent => true
  | _ => (List.range 3).any fun k => weighted k == cls && 0 < (s.credits i).getD k 0

/-- The SQ that the next entry is fetched from: that of the open grant while it may go on, else by the turn of the controllers. -/
def State.granted (s : State) : Option (Fin 2 × Nat × Nat) :=
  let a := s.host.arb
  let fresh := fun i : Fin 2 => (s.choose i).map fun q => (i, q, s.burst i)
  match a.cur.filter fun g => 0 < g.2.2 && (s.wanting g.1).any fun p => p.1 == g.2.1 && s.funded g.1 p.2 with
  | some g => some g
  | none => match fresh (1 - a.last) with
    | some g => some g
    | none => fresh a.last

/-- A grant noted as one entry is fetched under it: a weighted class spends one credit. -/
def State.noteGrant (s : State) (i : Fin 2) (q left : Nat) (cls : CtxClass) : State :=
  let c := (wrrPick (s.weights i) (s.credits i) fun k => weighted k == cls).map fun p => spend p.2 p.1
  s.hput fun h => { h with arb := { h.arb with
    last := i
    cur := some (i, q, left - 1)
    turn := tset 0 h.arb.turn (8 * i.val + cls.num) q
    creds := match cls, c with
      | .admin, _ | .urgent, _ | _, none => h.arb.creds
      | _, some l => tset [0, 0, 0] h.arb.creds i.val l } }

/-- SQ_FETCH (R337, R340, R343, R363): one entry of the SQ that arbitration grants; the command of another has no effect. -/
def execSqFetch (ctl : Fin 2) (sq : Fin 129) (e : Sqe) (s : State) : Host.Outcome State Fault Refusal :=
  match s.sq? ctl sq.val, s.granted with
  | some q, some (i, j, left) =>
    if i ≠ ctl ∨ j ≠ sq.val then .next s
    else
      let x := Ctx.fresh e sq.val ctl q.cls s.time s.host.fetches none
      let s1 := ((s.sqUpd ctl sq.val fun q => { q with head := (q.head + 1) % q.size }).hput fun h =>
        { h with fetches := h.fetches + 1, psNow := if sq.val ≠ 0 ∧ 2 ≤ h.psNow then h.psOper else h.psNow }).noteGrant ctl sq.val left q.cls
      match s1.takeCtxs x (s.pieces x) with
      | (s2, none) => .next s2
      | (s2, some c) => .next ((s2.notePool s.poolFree).route c)
  | _, _ => .next s

/-! ### Admission (R335, R348, R359, R409, R603) -/

/-- Whether a context is a part of a command whose first context is another. -/
def State.isPart (s : State) (c : Nat) : Bool := s.host.ctxs.any fun p => p.2.link == some c

/-- Whether an Ordering Fence ahead of a context in its queue has not been posted (R348, R349). -/
def State.fenced (s : State) (x : Ctx) : Bool :=
  s.host.ctxs.any fun p => p.2.ctl == x.ctl && p.2.sq == x.sq && p.2.origin.isNone && x.origin.isNone && !p.2.admin && p.2.opcode == 0x81 &&
    p.2.ord < x.ord

/-- Whether the range of locking range `r`, as it is or as it is to become, touches blocks of a local namespace (R601, R603). -/
def State.rangeTouches (s : State) (r j lba n : Nat) : Bool :=
  if r = 0 then ((List.range n).any fun i => s.keyRange j (lba + i) == 0)
  else
    s.on (Fd.TRU_RANGE_CFG_DEFINED r) && s.rd (Fd.TRU_RANGE_CFG_NS r) == j && s.rd (Fd.TRU_RANGE_START_LBA r) < lba + n &&
      lba < s.rd (Fd.TRU_RANGE_START_LBA r) + s.rd (Fd.TRU_RANGE_LEN_BLOCKS r)

/-- Whether a change of a range that waits touches blocks of a command (R603, R606). -/
def State.changing (s : State) (j lba n : Nat) : Bool :=
  s.trust.waits.any fun w => s.rangeTouches w.1 j lba n || (match w.2.1 with
    | .geometry d ns start len => d && ns == j && start < lba + n && lba < start + len
    | _ => false)

/-- Whether a lock bars a command (R603): RLCK for Read and Verify, WLCK for writes. -/
def State.locked (s : State) (x : Ctx) (j : Nat) : Bool :=
  (List.range x.nlb).any fun i =>
    s.on ((if x.writes then Fd.TRU_RANGE_CFG_WLCK else Fd.TRU_RANGE_CFG_RLCK) (s.keyRange j (x.slba + i)))

/-- The class limit of a command in µs; none for those that have no limit yet (R342). -/
def State.limitUs (s : State) (x : Ctx) : Option Nat :=
  if x.admin then none
  else if x.opcode = 0x02 then some (100000 * s.rd Fd.INT_LIMIT_READ)
  else if x.opcode = 0x0C then some (100000 * s.rd Fd.INT_LIMIT_VERIFY)
  else if x.writes then some (100000 * s.rd Fd.INT_LIMIT_WRITE)
  else none

/-- A command released from held: every context of it admitted, its class limit running (R342, R409). -/
def State.admitCtx (s : State) (c : Nat) (x : Ctx) : State :=
  let dl := match s.limitUs x with
    | some u => (s.time + u) % 2 ^ 48
    | none => 0
  (s.linked c 8).foldl (fun t d => t.ctxUpd d fun y => { y with st := .admitted, deadline := dl, released := s.time }) s

/-- The class of a queue as FWD carries it. -/
def fwdLoad (x : Ctx) : List Nat := (List.range 16).flatMap (fun i => leBytes 4 (x.dw i)) ++ [x.cls.num] ++ List.replicate 7 0

/-- Commands forwarded to a peer and not yet completed. -/
def State.forwarded (s : State) (p : Nat) : Nat := s.host.ctxs.countP fun q => q.2.fwdTo == some p && q.2.st != .held && !q.2.handed

/-- A command forwarded once a context of its owner is free for it (R565), and one to a peer's namespace once the peer's heartbeat carries its
NSREADY bit (R573, R622). -/
def State.forward (s : State) (c p : Nat) (x : Ctx) : State :=
  if s.rd Fd.CFX_FWDRES_CTX ≤ s.forwarded p ∨ (x.byNs ∧ !bit (s.peer p).nsready (x.nsid % 8 - 1)) then s
  else
    (((s.admitCtx c x).send ⟨0x02, p, c + 0xFFFF * 65536, x.buf, fwdLoad x⟩).count Fd.CFX_CNT1_FWD 1).updPeer p fun q =>
      { q with fwdTo := q.fwdTo + 1 }

/-- CONTEXT_ADMIT (R335, R348, R409, R410, R603): a held context is admitted, forwarded, or completes with a status of admission. -/
def execContextAdmit (c : Fin 65536) (s : State) : Host.Outcome State Fault Refusal :=
  match s.ctx? c.val with
  | none => .next s
  | some x =>
    if x.st ≠ .held ∨ x.handed ∨ s.isPart c.val ∨ s.on Fd.INT_STATUS_PAUSED ∨ s.fenced x then .next s
    else match x.fwdTo with
      | some p => .next (s.forward c.val p x)
      | none =>
        if !x.byNs then .next (s.admitCtx c.val x)
        else match s.nsLocal x.nsid with
          | none => .next (s.endAll c.val 0 0x0B)
          | some j =>
            if !s.rdBit Fd.INT_NSREADY_READY (j - 1) then .next s
            else if s.host.sanitize then .next (s.endAll c.val 0 0x1D)
            else if x.media && s.changing j x.slba x.nlb then .next s
            else if x.media && s.locked x j then .next (s.endAll c.val 2 0x86)
            else .next (s.admitCtx c.val x)

/-! ### Ending contexts early (R263, R304, R342, R352, R355, R356) -/

/-- The slots of an engine whose chain holds a context. -/
def State.holders (s : State) (n : Fin 4) (c : Nat) : List (Fin 4) :=
  four.filter fun k => (s.pslot n k).arch.chain.any fun e => e.ctx == c

/-- Slots stopped and killed, one after another. -/
def State.stopKills (s : State) (n : Fin 4) : List (Fin 4) → State
  | [] => s
  | k :: l => (s.stopKill n k).stopKills n l

/-- A context ends as `e` gives: at once where no slot holds it, else once the slots that hold it are stopped and killed (R263). -/
def State.endEarly (s : State) (c : Nat) (e : Ending) : State :=
  match s.ctx? c with
  | none => s
  | some x =>
    let s1 := s.ctxUpd c fun y => { y with ending := some e }
    match x.bound with
    | none => s1.endCtx c
    | some n => if s.holders n c = [] then s1.endCtx c else s1.stopKills n (s.holders n c)

/-- Every context of a command that has not been handed over ends early. -/
def State.endEarlyAll (s : State) (c : Nat) (e : Ending) : State :=
  (s.linked c 8).foldl (fun t d => if (t.ctx? d).any (fun x => !x.handed) then t.endEarly d e else t) s

/-- The context that opens the command a context is part of. -/
def State.headOf (s : State) (c : Nat) : Nat → Nat
  | 0 => c
  | f + 1 => match s.host.ctxs.find? fun p => p.2.link == some c with
    | some p => s.headOf p.1 f
    | none => c

/-! ### Binding (R336, R344, R346) -/

/-- The actuator of a context's blocks. -/
def State.ctxAct (s : State) (x : Ctx) : Option (Fin 4) := (s.nsLocal x.nsid).map fun j => s.actOf j x.lba

/-- The surface that holds a context's first block. -/
def State.ctxHead (s : State) (x : Ctx) : Option (Fin 4 × Nat) :=
  match s.nsLocal x.nsid with
  | none => none
  | some j =>
    if s.nsZoned j then (s.zone? (s.nsFirst j + x.lba / 65536)).map fun z => (z.act, z.head.val)
    else (s.convTp x.lba).map fun p => (p.1, tpHead p.2)

/-- The status that a part out of service gives a command to its blocks (Table 10.2). -/
def State.serviceStatus (s : State) (x : Ctx) : Option (Nat × Nat) :=
  match s.nsLocal x.nsid, s.ctxHead x with
  | some j, some (n, h) =>
    if s.headOut n h then
      if x.writes then (if s.nsZoned j then some (1, 0xBB) else some (2, 0x80)) else some (2, 0x81)
    else if x.writes && s.readsOnly n h then (if s.nsZoned j then some (1, 0xBA) else some (2, 0x80))
    else none
  | _, _ => none

/-- Whether an earlier placement of the zone of a context has yet to be bound (R300, R344). -/
def State.zoneAhead (s : State) (x : Ctx) : Bool :=
  match x.place with
  | none => false
  | some (z, d, _) => s.host.ctxs.any fun p => !p.2.handed && p.2.bound.isNone && p.2.place.any fun q => q.1 == z && q.2.1 < d

/-- Whether a context may be bound to an engine: admitted, carried out by the intake, its blocks on the actuator, and no placement of its zone
ahead of it. -/
def State.bindable (s : State) (n : Fin 4) (x : Ctx) : Bool :=
  !(x.st != .admitted || !x.run || x.handed || !x.media || x.fwdTo.isSome || s.on Fd.INT_STATUS_PAUSED || x.ending.isSome ||
    s.ctxAct x != some n || (x.opcode == 0x7D && x.place.isNone) || s.zoneAhead x)

/-- A context's age since its release, where it exceeds the ageing limit; else 0. -/
def State.aged (s : State) (x : Ctx) : Nat :=
  let a := (s.time + 2 ^ 48 - x.released) % 2 ^ 48
  if 1000 * s.rd Fd.INT_SCHED_AGE_MS < a then a else 0

/-- The contexts that may be bound to an engine. -/
def State.bindWaiting (s : State) (n : Fin 4) : List Ctx := (s.host.ctxs.map Prod.snd).filter fun x => s.bindable n x

/-- What is left of the weights of a controller's contexts at an actuator. -/
def State.bindCredits (s : State) (n : Fin 4) (i : Fin 2) : List Nat := tget [0, 0, 0] s.host.arb.binds (2 * n.val + i.val)

/-- The weighted class that binds next among a controller's contexts that wait for an actuator. -/
def State.bindPick (s : State) (n : Fin 4) (i : Fin 2) : Option (Nat × List Nat) :=
  wrrPick (s.weights i) (s.bindCredits n i) fun k => (s.bindWaiting n).any fun y => y.ctl == i && y.cls == weighted k

/-- Whether the media scheduler may choose a context (R344): the oldest beyond the ageing limit, else an urgent one, else one of the class that its
controller's weights take. DESIGN CHOICE: of the contexts that these leave, the command names the one that is reached soonest, since the servo's and
the spindle's own estimates are not in the spec; and the contexts of each controller keep their own weights. -/
def State.scheduled (s : State) (n : Fin 4) (x : Ctx) : Bool :=
  let l := s.bindWaiting n
  if l.any fun y => 0 < s.aged y then 0 < s.aged x && l.all fun y => s.aged y ≤ s.aged x
  else if l.any fun y => y.cls == .urgent then x.cls == .urgent
  else (s.bindPick n x.ctl).any fun p => x.cls == weighted p.1

/-- A context bound: its weighted class spends one credit. -/
def State.noteBind (s : State) (n : Fin 4) (x : Ctx) : State :=
  match wrrPick (s.weights x.ctl) (s.bindCredits n x.ctl) fun k => x.cls == weighted k with
  | none => s
  | some p => s.hput fun h => { h with arb := { h.arb with binds := tset [0, 0, 0] h.arb.binds (2 * n.val + x.ctl.val) (spend p.2 p.1) } }

/-- CONTEXT_BIND (R344): the context that the media scheduler chooses for the engine. -/
def execContextBind (c : Fin 65536) (n : Fin 4) (s : State) : Host.Outcome State Fault Refusal :=
  match s.ctx? c.val with
  | none => .next s
  | some x =>
    if !s.bindable n x then .next s
    else match s.serviceStatus x with
      | some (sct, sc) => .next (s.handOver c.val sct sc)
      | none =>
        if !s.scheduled n x then .next s
        else .next ((s.noteBind n x).ctxUpd c.val fun y => { y with st := .bound, bound := some n })

/-! ### Placements withdrawn (R304) -/

/-- One placement beyond WP withdrawn: an append waits to be placed again, a write completes with Zone Invalid Write. -/
def State.withdraw (s : State) (p : Nat × Ctx) : State :=
  let d := (p.2.place.map fun q => q.2.1).getD 0
  let s1 := s.ctxUpd p.1 fun x => { x with place := none, again := if x.opcode = 0x7D then some d else none }
  if p.2.opcode = 0x7D then (if p.2.bound.isSome then s1.endEarly p.1 .again else s1) else s1.endEarly p.1 (.complete 1 0xBC)

/-- PP of a zone goes back to WP and every placement beyond WP is withdrawn (R304). -/
def State.withdrawAll (s : State) (z : Nat) : State :=
  match s.zone? z with
  | none => s
  | some y =>
    let s1 := (s.setZone z { y with pp := y.wp }).hput fun h =>
      { h with ctxs := h.ctxs.map fun p => if p.2.handed ∧ p.2.place.any (fun q => q.1 == z) then (p.1, { p.2 with place := none }) else p }
    (s.host.ctxs.filter fun p => !p.2.handed && p.2.place.any fun q => q.1 == z && y.wp ≤ q.2.1).foldl (fun t p => t.withdraw p) s1

/-- The zone of a placed write or append that has ended without success. -/
def Ctx.failedZone (x : Ctx) : Option Nat := if x.handed && !(x.sct == 0 && x.sc == 0) then x.place.map Prod.fst else none

/-- PLACEMENT_WITHDRAW: a placed write or append of the zone has ended without success, or has been released (R263, R304). -/
def execPlacementWithdraw (z : BitVec 20) (s : State) : Host.Outcome State Fault Refusal :=
  if s.zone.due.contains z.toNat || s.host.ctxs.any fun p => p.2.failedZone == some z.toNat then
    .next ((s.zput fun u => { u with due := u.due.filter (· != z.toNat) }).withdrawAll z.toNat)
  else .next s

/-! ### Class limits (R342) -/

/-- CLASS_LIMIT_EXPIRY: the command is stopped and completes with its limit status (R342, Table 10.6); the limit of a command not yet bound does
not run during an activation (R359). -/
def execClassLimitExpiry (c : Fin 65536) (s : State) : Host.Outcome State Fault Refusal :=
  match s.ctx? c.val with
  | none => .next s
  | some x =>
    if x.deadline = 0 ∨ s.time < x.deadline ∨ x.handed ∨ (s.on Fd.INT_STATUS_PAUSED ∧ x.bound.isNone) then .next s
    else
      let (sct, sc) := if x.opcode = 0x79 then (0, 0x06) else if x.writes then (2, 0x80) else (2, 0x81)
      let h := s.headOf c.val 8
      let cls := if x.opcode = 0x79 then 3 else if x.opcode = 0x0C then 2 else if x.writes then 1 else 0
      let s0 := (s.wr Fd.INT_INT_LIMIT 1).raise .intake 0x0302 5 (leBytes 2 c.val ++ leBytes 2 x.cid ++ [x.sq, x.ctl.val, cls])
      let s1 := (s.linked h 8).foldl (fun t d => t.ctxUpd d fun y => { y with jwait := [] }) s0
      .next (s1.endEarlyAll h (.complete sct sc))

/-! ### Completion (R346, R356, R567) -/

/-- The first status of a command other than success, in actuator order (R252). -/
def State.finalStatus (s : State) (c : Nat) : Nat × Nat :=
  ((s.linked c 8).findSome? fun d => (s.ctx? d).bind fun x => if x.sct = 0 ∧ x.sc = 0 then none else some (x.sct, x.sc)).getD (0, 0)

/-- Whether a command is complete: each context handed over, no journal record and no sector transfer awaited. -/
def State.complete? (s : State) (c : Nat) : Bool :=
  (s.linked c 8).all fun d => (s.ctx? d).any fun x => x.handed && x.jwait == [] && !s.sluice.xfers.any fun t => t.ctx == d

/-- A Delete I/O SQ whose queue holds no context any more completes (R356). -/
def State.settleDeletes (s : State) : State :=
  (s.host.ctxs.filter fun p => p.2.admin && p.2.opcode == 0x00 && p.2.run && !p.2.handed && p.2.origin.isNone).foldl
    (fun t p => if t.host.ctxs.any fun q => q.2.ctl == p.2.ctl && q.2.sq == bits (p.2.dw 10) 0 16 && q.2.origin.isNone then t
      else (t.ctrlUpd p.2.ctl fun x => { x with sqs := x.sqs.filter fun q => q.1 != bits (p.2.dw 10) 0 16 }).handOver p.1 0 0) s

/-- The contexts of a command freed. -/
def State.freeAll (s : State) (l : List Nat) : State := l.foldl (fun t d => t.ctxFree d) s

/-- Bytes of a buffer in pieces of 256 as messages of a type, with their offsets (R566). -/
def State.dataMsgs (s : State) (type p tag : Nat) (l : List Nat) : State :=
  (List.range ((l.length + 255) / 256)).foldl (fun t i => t.send ⟨type, p, tag, 256 * i, (l.drop (256 * i)).take 256⟩) s

/-- A context's buffered data, 4,096 bytes a block. -/
def State.bufData (s : State) (x : Ctx) : List Nat := (s.load 0x3F x.buf (4096 * x.total)).2.getD []

/-- The data of a command, its contexts in ascending LBA. -/
def State.cmdData (s : State) (c : Nat) : List Nat :=
  (((s.linked c 8).filterMap fun d => s.ctx? d).mergeSort fun a b => a.lba ≤ b.lba).flatMap s.bufData

/-- The completion of a forwarded command returns to its mouth, a read's data before it (R566, R567). -/
def State.postCpl (s : State) (c : Nat) (x : Ctx) (p tag sct sc : Nat) : State :=
  let s1 := if x.opcode = 0x02 ∧ !x.admin ∧ sct = 0 ∧ sc = 0 then s.dataMsgs 0x04 p (tag + 65536 * c) (s.cmdData c) else s
  s1.send ⟨0x05, p, tag + 65536 * c, x.res0 + 2 ^ 32 * x.res1, leBytes 4 (2 * sc + 512 * sct + 0x8000 * b2n (dnrOf sct sc))⟩

/-- A completion entry posted on the controller's queue (R346): an Error Information entry for any status but success. -/
def State.postCqe (s : State) (x : Ctx) (sct sc : Nat) : State :=
  let bad := !(sct == 0 && sc == 0)
  let hd := ((s.sq? x.ctl x.sq).map Sq.head).getD 0
  let cq := ((s.sq? x.ctl x.sq).map Sq.cq).getD 0
  s.ctrlUpd x.ctl fun t =>
    { t with
      posted := ⟨x.sq, x.cid, hd, x.res0, x.res1, sct, sc, bad && dnrOf sct sc, bad⟩ :: t.posted
      cqs := t.cqs.map fun p => if p.1 = cq then (p.1, { p.2 with posted := p.2.posted + 1 }) else p
      errlog := if bad then ((x.sq, x.cid, 2 * sc + 512 * sct) :: t.errlog).take 64 else t.errlog }

/-- COMPLETION_POST (R346, R360): not while the port's link is down. -/
def execCompletionPost (c : Fin 65536) (s : State) : Host.Outcome State Fault Refusal :=
  match s.ctx? c.val with
  | none => .next s
  | some x =>
    if s.isPart c.val ∨ !s.complete? c.val ∨ (x.origin.isNone ∧ (s.ctrl x.ctl).linkHeld) then .next s
    else
      let (sct, sc) := s.finalStatus c.val
      let s1 := match x.failedZone with
        | some z => s.withdrawAll z
        | none => s
      let s2 := match x.origin with
        | some (p, tag) => s1.postCpl c.val x p tag sct sc
        | none => s1.postCqe x sct sc
      .next ((s2.freeAll (s.linked c.val 8)).settleDeletes)

end Sys2Proof.Machine
end

