-- ==== Sys2Proof/Machine/Nvm.lean ====
section
/-! DEFINITION. The I/O commands as the intake carries them out: reads, writes, Zone Append, zone actions, reports and fences (01, 09, 10). -/

namespace Sys2Proof.Machine

/-! ### The shape of a command row -/

/-- An admitted I/O command of an opcode that the intake has not yet carried out. -/
def State.io (s : State) (c op : Nat) (body : Ctx → State) : Host.Outcome State Fault Refusal :=
  match s.ctx? c with
  | none => .next s
  | some x =>
    if x.st = .admitted ∧ !x.handed ∧ !x.run ∧ !x.admin ∧ x.opcode = op ∧ !s.isPart c ∧ x.ending.isNone then .next (body x) else .next s

/-- Every context of a command changed. -/
def State.updAll (s : State) (c : Nat) (g : Ctx → Ctx) : State := (s.linked c 8).foldl (fun t d => t.ctxUpd d g) s

/-- A command completes with success. -/
def State.succeed (s : State) (c : Nat) : State := s.endAll c 0 0

/-- A command over blocks whose namespace and range are good, with the namespace and its parts' status (R337, R346, Table 10.2). -/
def State.overBlocks (s : State) (c : Nat) (x : Ctx) (size : Bool) (body : Nat → State) : State :=
  match s.nsLocal x.nsid with
  | none => s.endAll c 0 0x0B
  | some j =>
    if size ∧ 256 < x.nlb then s.endAll c 0 0x02
    else if s.nsSize j < x.slba + x.nlb then s.endAll c 0 0x80
    else if [0x79, 0x7A, 0x7D].contains x.opcode && !s.nsZoned j then s.endAll c 0 0x01
    else body j

/-! ### Reads (R38, R302, R308) -/

/-- The zone of a block of a zoned namespace, its record, and the block's data index. -/
def State.zoneOf (s : State) (j lba : Nat) : Option (Nat × Zone × Nat) :=
  (s.zone? (s.nsFirst j + lba / 65536)).map fun z => (s.nsFirst j + lba / 65536, z, lba % 65536)

/-- Whether a block holds committed content: below WP in a zone, always in the conventional namespace (R302). -/
def State.written (s : State) (j lba : Nat) : Bool := !s.nsZoned j || (s.zoneOf j lba).any fun p => p.2.2 < p.2.1.wp

/-- Whether a block lies in an Offline zone (R308). -/
def State.offlineBlock (s : State) (j lba : Nat) : Bool := s.nsZoned j && (s.zoneOf j lba).any fun p => p.2.1.st == .offline

/-- The blocks of a context that hold no committed content (R302). -/
def State.unwritten (s : State) (j : Nat) (x : Ctx) : List Nat := ((List.range x.total).map (x.lba + ·)).filter fun b => !s.written j b

/-- The buffer of one block that holds no committed content: zeros, with metadata of all 0xFF (R302). -/
def State.zeroBlock (s : State) (x : Ctx) (b : Nat) : State :=
  let i := b - x.lba
  let s1 := s.stored (x.buf + 0x1000 * i) (List.replicate 4096 0)
  s1.stored (x.buf + 0x100000 + 0x10 * i) (List.replicate 16 0xFF)

/-- The buffers of blocks that hold no committed content (R302). -/
def State.fillZeros (s : State) (x : Ctx) (l : List Nat) : State := l.foldl (fun t b => t.zeroBlock x b) s

/-- Every block of one context of a read resolved at this instant; with none to read from the medium it is complete (R38, R302). -/
def State.resolve (s : State) (j : Nat) (fill : Bool) (d : Nat) : State :=
  match s.ctx? d with
  | none => s
  | some x =>
    let zs := s.unwritten j x
    let s1 := if fill then s.fillZeros x zs else s
    match s.serviceStatus x with
    | some (sct, sc) => if zs.length = x.total then s1.handOver d 0 0 else s1.handOver d sct sc
    | none =>
      let s2 := s1.ctxUpd d fun y => { y with run := true, zeros := zs }
      if zs.length = x.total then s2.handOver d 0 0 else s2

/-- Read or Verify of namespace `j`. -/
def State.readBlocks (s : State) (c : Nat) (x : Ctx) (fill : Bool) (j : Nat) : State :=
  let bs := (List.range x.nlb).map (x.slba + ·)
  if bs.any (s.offlineBlock j) then s.endAll c 1 0xBB
  else if fill ∧ bit (featAt (0x05 + 256 * s.nsid j) 0 s.host.features) 16 ∧ bs.any (fun b => !s.written j b) then s.endAll c 2 0x87
  else (s.linked c 8).foldl (fun t d => t.resolve j fill d) s

/-- READ (R38, R302); the read of a forwarded command is its owner's (R566). -/
def execRead (c : Fin 65536) (s : State) : Host.Outcome State Fault Refusal :=
  s.io c.val 0x02 fun x => if x.fwdTo.isSome then s else s.overBlocks c.val x true (s.readBlocks c.val x true)

/-- VERIFY (R337). -/
def execVerify (c : Fin 65536) (s : State) : Host.Outcome State Fault Refusal :=
  s.io c.val 0x0C fun x => if x.fwdTo.isSome then s else s.overBlocks c.val x false (s.readBlocks c.val x false)

/-! ### Writes (R37, R299, R305, R308, R361) -/

/-- Whether a namespace's format carries protection information (R361). -/
def State.hasPi (s : State) (j : Nat) : Bool := s.on (Fd.INT_NSCFG_LBAF j) && s.on (Fd.INT_NSCFG_PIT j)

/-- A zone that a Zone Management action waits on: new writes and appends wait behind it (R307). -/
def Ctx.actsOn (x : Ctx) (first count : Nat) (z : Nat) : Bool := x.run && !x.handed && first ≤ z && z < first + count

/-- The zones that a Zone Management Send names: one, or all of its namespace. -/
def State.actionZones (s : State) (x : Ctx) : Nat × Nat :=
  match s.nsLocal x.nsid with
  | none => (0, 0)
  | some j => if bit (x.dw 13) 8 then (s.nsFirst j, s.nsZones j) else (s.nsFirst j + x.slba / 65536, 1)

/-- The zones that a Format NVM or a Sanitize resets: those of its namespace, or of every one. -/
def State.formatZones (s : State) (x : Ctx) : List (Nat × Nat) :=
  let ns := fun j => if s.nsValid j && s.nsZoned j then [(s.nsFirst j, s.nsZones j)] else []
  if x.opcode = 0x80 ∧ x.nsid ≠ 0xFFFFFFFF then
    match s.nsLocal x.nsid with
    | some j => ns j
    | none => []
  else [2, 3, 4, 5].flatMap ns

/-- Whether an action that has not yet taken effect holds a zone (R307, R311). -/
def State.zoneHeld (s : State) (z : Nat) : Bool :=
  s.host.sanWait.isSome || s.host.ctxs.any fun p =>
    if p.2.admin then p.2.opcode == 0x80 && p.2.run && !p.2.handed && p.2.jwait == [] &&
      (s.formatZones p.2).any fun r => r.1 ≤ z && z < r.1 + r.2
    else p.2.opcode == 0x79 && p.2.jwait == [] && p.2.actsOn (s.actionZones p.2).1 (s.actionZones p.2).2 z

/-- ZONE_WRITE_ACCEPT: a write to a zone is checked, opens it and is placed (R299, R308). -/
def State.acceptWrite (s : State) (c : Nat) (x : Ctx) (id : Nat) (z : Zone) : State :=
  match z.check false (x.slba % 65536) x.nlb with
  | some sc => s.endAll c 1 sc
  | none =>
    match s.openFor id z false with
    | .error sc => s.endAll c 1 sc
    | .ok s1 =>
      (s1.advancePP id x.nlb).updAll c fun y => { y with run := true, dataIn := true, place := some (id, z.pp, x.nlb) }

/-- A write whose data has passed its checks, of namespace `j` (R336, R337). -/
def State.writeBlocks (s : State) (c : Nat) (x : Ctx) (j : Nat) : State :=
  match s.serviceStatus x with
  | some (sct, sc) => s.endAll c sct sc
  | none =>
    if !s.nsZoned j then s.updAll c fun y => { y with run := true, dataIn := true }
    else match s.zoneOf j x.slba with
      | none => s.endAll c 0 0x80
      | some (id, z, _) => if s.zoneHeld id then s else s.acceptWrite c x id z

/-- The data of a forwarded write goes to its owner (R566). -/
def State.sendWrite (s : State) (c p : Nat) (x : Ctx) : State :=
  (s.dataMsgs 0x03 p (c + 0xFFFF * 65536) (s.bufData { x with total := x.nlb })).updAll c fun y => { y with run := true, dataIn := true }

/-- WRITE (R37, R299, R361): protection information is checked where the format has it; a failed check places nothing. -/
def execWrite (c : Fin 65536) (pi : Fin 4) (s : State) : Host.Outcome State Fault Refusal :=
  s.io c.val 0x01 fun x => match x.fwdTo with
    | some p => s.sendWrite c.val p x
    | none =>
      if x.origin.isSome ∧ !x.dataIn then s
      else s.overBlocks c.val x true fun j =>
        if s.hasPi j ∧ pi ≠ 0 then s.endAll c.val 2 (0x81 + pi.val) else s.writeBlocks c.val x j

/-- The buffers of a Write Zeroes: zero data (Table 10.3). -/
def State.zeroBuffers (s : State) (c : Nat) : State :=
  (s.linked c 8).foldl (fun t d => match t.ctx? d with
    | none => t
    | some y => t.stored y.buf (List.replicate (4096 * y.total) 0)) s

/-- WRITE_ZEROES: a write of zero data under the zone checks (R337). -/
def execWriteZeroes (c : Fin 65536) (s : State) : Host.Outcome State Fault Refusal :=
  s.io c.val 0x08 fun x => if x.fwdTo.isSome then s else s.overBlocks c.val x false fun j => (s.zeroBuffers c.val).writeBlocks c.val x j

/-! ### Zone Append (R303, R304, R362) -/

/-- ZONE_APPEND: checked when it reaches the ordering point; it is placed once its data is complete (R303, R308). -/
def execZoneAppend (c : Fin 65536) (pi : Fin 4) (s : State) : Host.Outcome State Fault Refusal :=
  s.io c.val 0x7D fun x => match x.fwdTo with
    | some p => s.sendWrite c.val p x
    | none => s.overBlocks c.val x true fun j =>
      if s.hasPi j ∧ pi ≠ 0 then s.endAll c.val 2 (0x81 + pi.val)
      else match s.serviceStatus x, s.zoneOf j x.slba with
        | some (sct, sc), _ => s.endAll c.val sct sc
        | none, none => s.endAll c.val 0 0x80
        | none, some (id, z, d) =>
          if s.zoneHeld id then s
          else match z.check true d x.nlb with
            | some sc => s.endAll c.val 1 sc
            | none => match s.openFor id z false with
              | .error sc => s.endAll c.val 1 sc
              | .ok s1 => s1.updAll c.val fun y => { y with run := true }

/-- Whether a withdrawn append of the zone stands before a context's (R304). -/
def State.againFirst (s : State) (id : Nat) (x : Ctx) (j : Nat) : Bool :=
  s.host.ctxs.any fun p => !p.2.handed && p.2.opcode == 0x7D && !p.2.admin && p.2.place.isNone && p.2.run && p.2.nsid == x.nsid &&
    s.nsFirst j + p.2.slba / 65536 == id && (match p.2.again, x.again with
      | some a, some b => a < b
      | some _, none => true
      | none, _ => false)

/-- ZONE_APPEND_PLACE: the data is in DRAM, and the ordering point assigns ZSLBA + PP (R303, R304, R308). -/
def execZoneAppendPlace (c : Fin 65536) (s : State) : Host.Outcome State Fault Refusal :=
  match s.ctx? c.val with
  | none => .next s
  | some x =>
    if x.admin ∨ x.opcode ≠ 0x7D ∨ !x.run ∨ x.handed ∨ x.place.isSome ∨ x.fwdTo.isSome ∨ x.bound.isSome ∨ x.ending.isSome ∨
        (x.origin.isSome ∧ !x.dataIn) then .next s
    else match s.nsLocal x.nsid with
      | none => .next s
      | some j =>
        match s.zoneOf j x.slba with
        | none => .next s
        | some (id, z, _) =>
          if s.againFirst id x j then .next s
          else if z.st = .full then .next (s.endAll c.val 1 0xB9)
          else if z.zcap < z.pp + x.nlb then .next (s.endAll c.val 1 0xB8)
          else
            let lba := 65536 * (x.slba / 65536) + z.pp
            .next ((s.advancePP id x.nlb).ctxUpd c.val fun y =>
              { y with dataIn := true, again := none, place := some (id, z.pp, x.nlb), lba := lba, res0 := lba % 2 ^ 32, res1 := lba / 2 ^ 32 })

/-! ### Flush and Ordering Fence (R347 to R350) -/

/-- FLUSH (R347): to a namespace or to all, with success at once. -/
def execFlush (c : Fin 65536) (s : State) : Host.Outcome State Fault Refusal :=
  s.io c.val 0x00 fun x =>
    if x.nsid = 0xFFFFFFFF ∨ (s.nsLocal x.nsid).isSome ∨ (s.owner x.nsid).isSome then s.succeed c.val else s.endAll c.val 0 0x0B

/-- ORDERING_FENCE (R348, R349): it completes once every earlier command of its queue has been posted. -/
def execOrderingFence (c : Fin 65536) (s : State) : Host.Outcome State Fault Refusal :=
  s.io c.val 0x81 fun x =>
    if s.host.ctxs.any fun p => p.2.ctl == x.ctl && p.2.sq == x.sq && p.2.origin.isNone && p.2.ord < x.ord then s else s.succeed c.val

/-! ### Zone Management Send (R305 to R307, R310, R311) -/

/-- A Zone Management Send of an action, its zone found: one zone at its lowest LBA, or all of its namespace. -/
def State.zoneSend (s : State) (c zsa : Nat) (body : Ctx → Nat → State) : Host.Outcome State Fault Refusal :=
  s.io c 0x79 fun x =>
    if x.dw 13 % 256 ≠ zsa ∨ x.fwdTo.isSome then s
    else match s.nsLocal x.nsid with
      | none => s.endAll c 0 0x0B
      | some j =>
        if !s.nsZoned j then s.endAll c 0 0x01
        else if bit (x.dw 13) 8 then body x j
        else if s.nsSize j ≤ x.slba then s.endAll c 0 0x80
        else if x.slba % 65536 ≠ 0 then s.endAll c 0 0x02
        else body x j

/-- The zones of a namespace in zone-ID order. -/
def State.zonesOf (s : State) (first count : Nat) : List (Nat × Zone) := s.zone.zones.filter fun p => first ≤ p.1 && p.1 < first + count

/-- Open of one zone (Table 09.2, R305). -/
def State.openZone (s : State) (id : Nat) : Except Nat State :=
  match s.zone? id with
  | none => .error 0xBF
  | some z =>
    if z.st = .readOnly ∨ z.st = .full ∨ z.st = .offline then .error 0xBF
    else s.openFor id z true

/-- Open with Select All: every Closed zone, or none (R307). -/
def State.openAll (s : State) (first count : Nat) : Except Nat State :=
  let cl := (s.zonesOf first count).filter fun p => p.2.st == .closed
  if 128 < cl.length + s.zone.zones.countP (fun p => p.2.st == .explicit) then .error 0xBE
  else .ok (cl.foldl (fun t p => match t.openZone p.1 with
    | .ok u => u
    | .error _ => t) s)

/-- ZONE_OPEN (R305 to R307): no journal record. -/
def execZoneOpen (c : Fin 65536) (s : State) : Host.Outcome State Fault Refusal :=
  s.zoneSend c.val 3 fun x j =>
    match (if bit (x.dw 13) 8 then s.openAll (s.nsFirst j) (s.nsZones j) else s.openZone (s.nsFirst j + x.slba / 65536)) with
    | .ok s1 => s1.succeed c.val
    | .error sc => s.endAll c.val 1 sc

/-- An action that waits for its zones' writes: it takes effect at ZONE_ACTION_EFFECT (R307). -/
def State.actLater (s : State) (c : Nat) : State := s.ctxUpd c fun y => { y with run := true }

/-- ZONE_CLOSE (R307). -/
def execZoneClose (c : Fin 65536) (s : State) : Host.Outcome State Fault Refusal := s.zoneSend c.val 1 fun _ _ => s.actLater c.val

/-- ZONE_FINISH (R307). -/
def execZoneFinish (c : Fin 65536) (s : State) : Host.Outcome State Fault Refusal := s.zoneSend c.val 2 fun _ _ => s.actLater c.val

/-- ZONE_RESET (R307, R310, R311). -/
def execZoneReset (c : Fin 65536) (s : State) : Host.Outcome State Fault Refusal := s.zoneSend c.val 4 fun _ _ => s.actLater c.val

/-- ZONE_OFFLINE (R307). -/
def execZoneOffline (c : Fin 65536) (s : State) : Host.Outcome State Fault Refusal := s.zoneSend c.val 5 fun _ _ => s.actLater c.val

/-- What an action makes of a zone: the zone and whether a STATE record is due, or nothing where Table 09.2 does not allow it. -/
def Zone.act? (z : Zone) (zsa : Nat) : Option (Zone × Bool) :=
  if zsa = 1 then
    if z.isOpen then some (z.close, false) else if z.st = .closed ∨ (z.st = .empty ∧ z.wp = 0) then some (z, false) else none
  else if zsa = 2 then
    if z.st = .full then some (z, false) else if z.st = .empty ∨ z.isActive then some ({ z with st := .full, pp := z.wp }, true) else none
  else if zsa = 4 then
    if z.st = .empty ∧ z.wp = 0 then some (z, false) else if z.resettable then some (z.reset, true) else none
  else if z.st = .readOnly then some ({ z with st := .offline }, true) else none

/-- One zone acted on; the record its effect is journalled by. -/
def State.actZone (s : State) (zsa id : Nat) : Option (State × List JBody) :=
  match s.zone? id with
  | none => none
  | some z => (z.act? zsa).map fun p => (s.setZone id p.1, if p.2 then [p.1.stateRec id] else [])

/-- Every zone of a list acted on where Table 09.2 allows it, in order (R307). -/
def State.actZones (s : State) (zsa : Nat) : List Nat → State × List JBody
  | [] => (s, [])
  | id :: l =>
    match s.actZone zsa id with
    | none => s.actZones zsa l
    | some (s1, r) =>
      let (s2, rs) := s1.actZones zsa l
      (s2, r ++ rs)

/-- RESETRANGE records over consecutive zones, at most 65,536 each (R311). -/
def rangeRecs (sub first : Nat) (count : Nat) : Nat → List JBody
  | 0 => []
  | f + 1 => if count = 0 then [] else ⟨0x08, sub, first, min count 65536, 0⟩ :: rangeRecs sub (first + 65536) (count - 65536) f

/-- Whether no write or append of a run of zones is under way: contexts, or runs on the medium (R307, R311). -/
def State.zonesQuiet (s : State) (first count : Nat) : Bool :=
  (s.zone.runs.all fun r => !(first ≤ r.zone && r.zone < first + count)) &&
    s.host.ctxs.all fun p => !p.2.writes || !p.2.run || p.2.fwdTo.isSome || (match s.nsLocal p.2.nsid with
      | none => true
      | some j => !s.nsZoned j || !(first ≤ s.nsFirst j + p.2.slba / 65536 && s.nsFirst j + p.2.slba / 65536 < first + count))

/-- Records issued for a context, which completes once they are durable; at once where there is none (R307). -/
def State.journalFor (s : State) (c : Nat) (rs : List JBody) : State :=
  if rs = [] then s.succeed c else (s.ctxUpd c fun y => { y with jwait := rs }).jIssues rs

/-- The action of a Zone Management Send takes effect. -/
def State.actNow (s : State) (c : Nat) (x : Ctx) : State :=
  let (first, count) := s.actionZones x
  let zsa := x.dw 13 % 256
  let s1 := s.ctxUpd c fun y => { y with deadline := (s.time + 100000 * s.rd Fd.INT_LIMIT_ZMGMT) % 2 ^ 48 }
  if bit (x.dw 13) 8 then
    if zsa = 4 then s1.journalFor c (rangeRecs 0 first count 16)
    else
      let (s2, rs) := s1.actZones zsa ((s.zonesOf first count).map Prod.fst)
      s2.journalFor c rs
  else match s1.actZone zsa first with
    | none => s1.endAll c 1 0xBF
    | some (s2, rs) => s2.journalFor c rs

/-- The records that reset every zone of a Format NVM or a Sanitize (R311). -/
def State.formatRecs (s : State) (x : Ctx) : List JBody := (s.formatZones x).flatMap fun r => rangeRecs 1 r.1 r.2 16

/-- Whether no write or append of any zone of a Format NVM or a Sanitize is under way, nor a change of key (R311, R606). -/
def State.formatQuiet (s : State) (x : Ctx) : Bool :=
  ((s.formatZones x).all fun r => s.zonesQuiet r.1 r.2) && s.trust.waits.all fun w => w.2.1 != .genkey

/-- The submission entry of a Sanitize of every namespace. -/
def sanitizeAll (c : Ctx) : Ctx := { c with sqe := [0x84] }

/-- ZONE_ACTION_EFFECT (R307, R311, R338): the action of a Zone Management Send, a Format NVM or a Sanitize, once the writes and runs of its
zones have ended. -/
def execZoneActionEffect (c : Fin 65536) (s : State) : Host.Outcome State Fault Refusal :=
  let all := sanitizeAll (Ctx.fresh [] 0 0 .admin 0 0 none)
  if s.host.sanWait = some c.val then
    if s.formatQuiet all then
      let rs := s.formatRecs all
      .next (((s.hput fun h => { h with sanWait := none, sanRecs := rs }).jIssues rs).settleSanitize)
    else .next s
  else match s.ctx? c.val with
    | none => .next s
    | some x =>
      if !x.run ∨ x.handed ∨ x.jwait ≠ [] then .next s
      else if !x.admin ∧ x.opcode = 0x79 then
        let (first, count) := s.actionZones x
        if s.zonesQuiet first count then .next (s.actNow c.val x) else .next s
      else if x.admin ∧ x.opcode = 0x80 then
        if s.formatQuiet x then .next (s.journalFor c.val (s.formatRecs x)) else .next s
      else .next s

/-! ### Zone Management Receive (R312) -/

/-- The state of a zone as it is reported (R336). -/
def State.shownState (s : State) (z : Zone) : Nat :=
  if s.headOut z.act z.head.val then 0xF
  else if s.readsOnly z.act z.head.val ∧ z.st ≠ .full ∧ z.st ≠ .readOnly ∧ z.st ≠ .offline then 0xD
  else z.st.code

/-- A zone descriptor (R312). -/
def State.zoneDesc (s : State) (j id : Nat) (z : Zone) : List Nat :=
  let st := s.shownState z
  let zslba := 65536 * (id - s.nsFirst j)
  [2, 16 * st, 4 * b2n z.rzr, 0, 0, 0, 0, 0] ++ leBytes 8 z.zcap ++ leBytes 8 zslba ++
    leBytes 8 (if st = 0xE ∨ st = 0xD ∨ st = 0xF then 2 ^ 64 - 1 else zslba + z.wp) ++ List.replicate 32 0

/-- The zones that a Reporting Option selects. -/
def optionTakes (opt st : Nat) : Bool := opt == 0 || [(1, 1), (2, 2), (3, 3), (4, 4), (5, 0xE), (6, 0xD), (7, 0xF)].contains (opt, st)

/-- A command returns data to the host, or to the mouth it came from, and completes with success (R566). -/
def State.answerData (s : State) (c : Nat) (x : Ctx) (l : List Nat) : State :=
  match x.origin with
  | some (p, tag) => (s.dataMsgs 0x04 p (tag + 65536 * c) l).succeed c
  | none => (s.hput fun h => { h with data := l }).succeed c

/-- REPORT_ZONES (R312). -/
def execReportZones (c : Fin 65536) (s : State) : Host.Outcome State Fault Refusal :=
  s.io c.val 0x7A fun x =>
    if x.fwdTo.isSome then s
    else match s.nsLocal x.nsid with
      | none => s.endAll c.val 0 0x0B
      | some j =>
        if !s.nsZoned j then s.endAll c.val 0 0x01
        else if s.nsSize j ≤ x.slba then s.endAll c.val 0 0x80
        else
          let len := 4 * (x.dw 12 + 1)
          let zs := (s.zonesOf (s.nsFirst j + x.slba / 65536) (s.nsZones j - x.slba / 65536)).filter fun p =>
            optionTakes (bits (x.dw 13) 8 8) (s.shownState p.2)
          let shown := zs.take ((len - 64) / 64)
          let n := if bit (x.dw 13) 16 then shown.length else zs.length
          let l := leBytes 8 n ++ List.replicate 56 0 ++ shown.flatMap fun p => s.zoneDesc j p.1 p.2
          s.answerData c.val x ((l ++ List.replicate len 0).take len)

end Sys2Proof.Machine
end

