-- ==== Sys2Proof/Machine/Irt.lean ====
section
/-! DEFINITION. The interrupt router, the cores as the block shows them, and the voltage loop (20). -/

namespace Sys2Proof.Machine

/-! ### Interrupt sources (R585 to R588) -/

/-- The low `n` bits of an INT register whose field at bit 0 is `f`; the fields of an INT register are all 0 at reset. -/
def State.intWord (s : State) (f : Fld) : Nat → Nat
  | 0 => 0
  | n + 1 => s.intWord f n + tget 0 s.regs (f.key + n) * 2 ^ n

/-- Whether an INT register ANDed with its INTEN is not 0. -/
def State.asserts (s : State) (int en : Fld) : Bool := s.intWord int 32 &&& s.rd en != 0

/-- The sources 0x000 to 0x00D (Table 20.5). -/
def State.unitSource (s : State) (i : Nat) : Bool :=
  match i with
  | 0x00 => s.asserts Fd.INT_INT_CTXLOW Fd.INT_INTEN_EN
  | 0x01 => s.asserts Fd.CFX_INT_PEERLOST Fd.CFX_INTEN_EN
  | 0x02 => s.asserts Fd.WEIR_INT_STALL Fd.WEIR_INTEN_EN
  | 0x03 => s.asserts Fd.STG_INT_DRAINED Fd.STG_INTEN_EN
  | 0x04 => s.asserts Fd.MEM_INT_CEOVF_S Fd.MEM_INTEN_EN
  | 0x05 => s.asserts Fd.BKW_INT_DROP Fd.BKW_INTEN_EN
  | 0x06 => s.asserts Fd.CFL_INT_DONE0 Fd.CFL_INTEN_EN
  | 0x07 => s.asserts Fd.TRU_INT_DENY Fd.TRU_INTEN_EN
  | 0x08 => s.asserts Fd.HSK_INT_TEMP Fd.HSK_INTEN_EN
  | 0x09 => s.asserts Fd.EVR_INT_FULL Fd.EVR_INTEN_EN
  | 0x0A => s.asserts Fd.CAL_INT_DONE Fd.CAL_INTEN_EN
  | 0x0B => s.asserts Fd.SPN_INT_ATSPD Fd.SPN_INTEN_EN
  | 0x0C => s.asserts Fd.HSK_VINT_PIN Fd.HSK_VINTEN_EN
  | 0x0D => s.asserts Fd.IRT_WINT_DOMEXP Fd.IRT_WINTEN_EN
  | _ => false

/-- The sources 0x010 + 8n + i of actuator An (Table 20.5). -/
def State.actSource (s : State) (n i : Nat) : Bool :=
  match i with
  | 0 => s.asserts (Fd.RCH_INT_HALT n) (Fd.RCH_INTEN_EN n)
  | 1 => s.asserts (Fd.RCH_ZINT_VERIFY n) (Fd.RCH_ZINTEN_EN n)
  | 2 => s.asserts (Fd.CHN_INT_BLKLOSS n) (Fd.CHN_INTEN_EN n)
  | 3 => s.asserts (Fd.CHN_WINT_RBFAIL n) (Fd.CHN_WINTEN_EN n)
  | 4 => s.asserts (Fd.ARM_INT_DONE n) (Fd.ARM_INTEN_EN n)
  | 5 => s.asserts (Fd.SRV_INT_TPIN n) (Fd.SRV_INTEN_EN n)
  | _ => false

/-- Whether a source is asserted (Table 20.5). -/
def State.asserted (s : State) (i : Nat) : Bool :=
  if i < 0x10 then s.unitSource i
  else if i < 0x30 then s.actSource ((i - 0x10) / 8) ((i - 0x10) % 8)
  else if 0x40 ≤ i ∧ i < 0x60 then s.rdBit Fd.SLC_DONE_DONE (i - 0x40) && s.rdBit Fd.SLC_DONEEN_EN (i - 0x40)
  else if 0x60 ≤ i ∧ i < 0x80 then s.rdBit Fd.SLC_ERR_ERR (i - 0x60) && s.rdBit Fd.SLC_ERREN_EN (i - 0x60)
  else if 0x100 ≤ i ∧ i < 0x200 then
    let q := tget BQueue.empty s.bkw (i - 0x100)
    0 < q.head.length + q.mid.length + q.tail.length
  else false

/-- Whether a source is pending: asserted, of priority above 0, and not active (R586). -/
def State.irqPending (s : State) (i : Nat) : Bool :=
  s.asserted i && s.on (Fd.IRT_SRC_PRIO i) && !s.on (Fd.IRT_SRC_ACTIVE i)

/-- Whether a source is pending for target `t` above its threshold (R586). -/
def State.irqFor (s : State) (t i : Nat) : Bool :=
  s.irqPending i && s.rd (Fd.IRT_SRC_TARGET i) == t && s.rd (Fd.IRT_THRESH_THRESH t) < s.rd (Fd.IRT_SRC_PRIO i)

/-- The source of the highest priority among those of a list, the lowest number among equals (R587). -/
def State.bestIrq (s : State) : List Nat → Option Nat
  | [] => none
  | i :: l =>
    match s.bestIrq l with
    | none => some i
    | some j => if s.rd (Fd.IRT_SRC_PRIO i) < s.rd (Fd.IRT_SRC_PRIO j) then some j else some i

/-- The source that a claim of target `t` takes. -/
def State.claimable (s : State) (t : Nat) : Option Nat := s.bestIrq ((List.range 512).filter fun i => s.irqFor t i)

/-! ### Cores -/

/-- A core: 0 to 3 the flow cores, 4 the watch core. -/
def State.core (s : State) (k : Nat) : CoreUnit :=
  match k with
  | 0 => s.cores.flow.i0
  | 1 => s.cores.flow.i1
  | 2 => s.cores.flow.i2
  | 3 => s.cores.flow.i3
  | _ => s.cores.watch

/-- A core replaced. -/
def State.setCore (s : State) (k : Nat) (c : CoreUnit) : State :=
  { s with cores :=
    match k with
    | 0 => { s.cores with flow := { s.cores.flow with i0 := c } }
    | 1 => { s.cores with flow := { s.cores.flow with i1 := c } }
    | 2 => { s.cores with flow := { s.cores.flow with i2 := c } }
    | 3 => { s.cores with flow := { s.cores.flow with i3 := c } }
    | _ => { s.cores with watch := c } }

/-- The external interrupt of a target raised while a source is pending for it above its threshold, else lowered (R586). -/
def State.settleIrq (s : State) (t : Nat) : State := s.setCore t { s.core t with ext := (s.claimable t).isSome }

/-- CLAIM_READ (R587, R588). -/
def execClaimRead (r : Sys2Proof.Requester) (t : Fin 5) (s : State) : Host.Outcome State Fault Refusal :=
  if Requester.core? r = some t.val then
    match s.claimable t.val with
    | none => .next (s.reply 0x8000)
    | some i => .next (((s.wr (Fd.IRT_SRC_ACTIVE i) 1).settleIrq t.val).reply i)
  else .next (s.reply 0x8000)

/-- A write of IRT.SRCs that waited for the completion of its source (R588). -/
def State.applyDeferred (s : State) (i : Nat) : State :=
  match s.cores.deferred.find? fun d => d.1 == i with
  | none => s
  | some (_, p, t) =>
    let s1 := (s.wr (Fd.IRT_SRC_PRIO i) p).wr (Fd.IRT_SRC_TARGET i) t
    { s1 with cores := { s1.cores with deferred := s1.cores.deferred.filter fun d => d.1 != i } }

/-- CLAIM_COMPLETE (R587, R588). -/
def execClaimComplete (r : Sys2Proof.Requester) (t : Fin 5) (v : BitVec 9) (s : State) : Host.Outcome State Fault Refusal :=
  if Requester.core? r = some t.val then
    .next (((s.wr (Fd.IRT_SRC_ACTIVE v.toNat) 0).applyDeferred v.toNat).settleIrq t.val)
  else .next s

/-- IRQ_RAISE (R586). -/
def execIrqRaise (t : Fin 5) (s : State) : Host.Outcome State Fault Refusal := .next (s.settleIrq t.val)

/-- The timer interrupt of a core is raised while MTIME is at or above its MTIMECMP (R589). -/
def State.settleTimer (s : State) (k : Nat) : State :=
  s.setCore k { s.core k with timer := s.rd (Fd.IRT_MTIMECMP_CMP k) ≤ s.time }

/-- TIMER_INTERRUPT (R589). -/
def execTimerInterrupt (k : Fin 5) (s : State) : Host.Outcome State Fault Refusal := .next (s.settleTimer k.val)

/-- MSIP_WRITE: any core may write it (R589). -/
def execMsipWrite (r : Sys2Proof.Requester) (k : Fin 5) (v : Bool) (s : State) : Host.Outcome State Fault Refusal :=
  if (Requester.core? r).isSome then
    .next ((s.wr (Fd.IRT_MSIP_MSIP k.val) (b2n v)).setCore k.val { s.core k.val with soft := v })
  else .next s

/-- A flow core released at ENTRY or held in reset at once (R584). -/
def State.boot (s : State) (k : Nat) (v : Bool) : State :=
  (s.wr (Fd.IRT_FBOOT_RUN k) (b2n v)).setCore k
    { s.core k with run := v, entry := if v then 4 * s.rd (Fd.IRT_FBOOT_ENTRY k) else (s.core k).entry }

/-- FBOOT_RUN: written by the watch core only (R584). -/
def execFbootRun (r : Sys2Proof.Requester) (k : Fin 4) (v : Bool) (s : State) : Host.Outcome State Fault Refusal :=
  if r = .watch then .next (s.boot k.val v) else .next s

/-- ACCESS_FAULT: cause 1, 5 or 7, and the faulting address in mtval (R582). -/
def execAccessFault (k : Fin 5) (kind : Fin 3) (a : BitVec 64) (s : State) : Host.Outcome State Fault Refusal :=
  .next (s.setCore k.val { s.core k.val with
    mcause := if kind.val = 0 then 1 else if kind.val = 1 then 5 else 7, mtval := a.toNat })

/-! ### The voltage loop (R590 to R592) -/

/-- Housekeeping's part of the state replaced. -/
def State.hskPut (s : State) (g : HskUnit → HskUnit) : State := { s with hsk := g s.hsk }

/-- Whether the 0.80 V cap is in force: in PS1 and under the thermal restriction (R531, R591). -/
def State.vcap (s : State) : Bool := s.host.psNow == 1 || s.on Fd.HSK_TSTAT_RESTR

/-- The effective upper bound in mV (R591). -/
def State.vhi (s : State) : Nat := if s.vcap then min (s.rd Fd.HSK_VBND_HI_MV) 800 else s.rd Fd.HSK_VBND_HI_MV

/-- VOUT_COMMAND for a value in mV: round (mV × 2^−N / 1,000), N the signed 5-bit exponent of VOUT_MODE (R591). -/
def voutCode (mode mv : Nat) : Nat :=
  let n := sgn 5 mode
  if n ≤ 0 then (2 * mv * 2 ^ (-n).toNat + 1000) / 2000 else (2 * mv + 1000 * 2 ^ n.toNat) / (2000 * 2 ^ n.toNat)

/-- A failure of the bus: repeated at the next update; a second one stops the loop (R592). `which`: 0 the read of VOUT_MODE, 1 a write. -/
def State.vfail (s : State) (which v : Nat) : State :=
  if s.hsk.fails + 1 < 2 then
    s.hskPut fun h => { h with fails := h.fails + 1, needMode := which == 0, resend := which == 1 }
  else
    (((s.hskPut fun h => { h with fails := 0, vstop := true }).wr Fd.HSK_VSTAT_REGERR 1).wr Fd.HSK_VINT_REGERR 1).raise .hsk 0x0D06 6
      (which :: leBytes 2 v)

/-- A value commanded, or not acknowledged. -/
def State.vsend (s : State) (mv : Nat) (ack : Bool) : State :=
  let code := voutCode (s.rd Fd.HSK_VMODE_MODE) mv
  let s1 := s.wr Fd.HSK_VSTAT_NOW_MV mv
  if ack then ((s1.wr Fd.HSK_VSTAT_VOUT code).hskPut fun h => { h with fails := 0, resend := false }) else s1.vfail 1 code

/-- VOUT_MODE read: the loop starts at the effective upper bound (R591). -/
def State.vmodeRead (s : State) (mode : Nat) (ack : Bool) : State :=
  ((s.wr Fd.HSK_VMODE_MODE mode).hskPut fun h => { h with needMode := false, fails := 0 }).vsend s.vhi ack

/-- VLOOP_ENABLE (R591, R592): a stopped loop starts only after a unit reset of housekeeping. -/
def execVloopEnable (mode : Option (BitVec 8)) (s : State) : Host.Outcome State Fault Refusal :=
  if s.on Fd.HSK_VCTL_EN ∨ s.hsk.vstop then .next (s.wr Fd.HSK_VCTL_EN 1)
  else
    let s1 := s.wr Fd.HSK_VCTL_EN 1
    match mode with
    | some m => .next (s1.vmodeRead m.toNat true)
    | none => .next (s1.vfail 0 0)

/-- A pinned stretch at the upper or lower bound: one event for each (R503, R506). -/
def State.vpinned (s : State) (up : Bool) (mv : Nat) : State :=
  if (if up then s.hsk.pinHi else s.hsk.pinLo) then s
  else
    let s1 := (((s.wr (if up then Fd.HSK_VSTAT_PIN_HI else Fd.HSK_VSTAT_PIN_LO) 1).wr Fd.HSK_VINT_PIN 1).count Fd.HSK_VPINS_COUNT 1).raise
      .hsk (UnitRef.hsk.common 5) 3 ([b2n up, 0xFF] ++ leBytes 4 mv ++ leBytes 4 0xFFFFFFFF)
    s1.hskPut fun h => if up then { h with pinHi := true } else { h with pinLo := true }

/-- One update of the loop (R591, R504, R505). -/
def State.vupdate (s : State) (high half ack : Bool) : State :=
  let now := s.rd Fd.HSK_VSTAT_NOW_MV
  let lo := s.rd Fd.HSK_VBND_LO_MV
  let hi := s.vhi
  let quiet := if half then s.hsk.quiet + 1 else 0
  let s0 := (s.wr Fd.HSK_VSTAT_CAP (b2n s.vcap)).hskPut fun h => { h with quiet := quiet, vset := none }
  match s.hsk.vset with
  | some v =>
    let t := min (max v lo) hi
    if t ≠ now ∨ s.hsk.resend then s0.vsend t ack else s0
  | none =>
    let want := if high then now + s.rd Fd.HSK_VCFG_UP_MV
      else if s.rd Fd.HSK_VCFG_DOWNN ≤ quiet then now - s.rd Fd.HSK_VCFG_DN_MV else now
    let t := if hi < now then hi else min (max want lo) hi
    let s1 := if hi < now then s0
      else if want = t then s0.hskPut fun h => { h with pinHi := h.pinHi && decide (hi ≤ t), pinLo := h.pinLo && decide (t ≤ lo) }
      else s0.vpinned (decide (t < want)) t
    if t ≠ now ∨ s.hsk.resend then s1.vsend t ack else s1

/-- VOLTAGE_UPDATE (R591, R592). -/
def execVoltageUpdate (high half ack : Bool) (mode : BitVec 8) (s : State) : Host.Outcome State Fault Refusal :=
  if s.on Fd.HSK_VCTL_EN ∧ ¬ s.hsk.vstop then
    if s.hsk.needMode then (if ack then .next (s.vmodeRead mode.toNat true) else .next (s.vfail 0 0))
    else .next (s.vupdate high half ack)
  else .next s

end Sys2Proof.Machine
end

