-- ==== Sys2Proof/Machine/Parity.lean ====
section
/-! DEFINITION. The sectors of the medium: payload and trailer (R66 to R70), the track-parity code of a group (R73 to R78), and what a write
leaves on the medium (R60). -/

namespace Sys2Proof.Machine

/-! ### The medium -/

/-- The sector recorded at a slot. -/
def State.sectorAt (s : State) (n : Fin 4) (tp : Nat) : Option Sector := ((s.medium.get n).sectors.find? fun p => p.1 == tp).map Prod.snd

/-- The medium of an arm changed. -/
def State.updMedium (s : State) (n : Fin 4) (g : Medium → Medium) : State := { s with medium := s.medium.upd n g }

/-- A sector laid on the medium. -/
def State.layDown (s : State) (n : Fin 4) (tp : Nat) (x : Sector) : State :=
  s.updMedium n fun u => { u with sectors := tinsert u.sectors tp x }

/-- A sector of the medium changed, where one is recorded. -/
def State.updSector (s : State) (n : Fin 4) (tp : Nat) (g : Sector → Sector) : State :=
  s.updMedium n fun u => { u with sectors := u.sectors.map fun p => if p.1 = tp then (p.1, g p.2) else p }

/-- The first track of a band, counted in the band, on which nothing reads but what has been recorded since (R60). -/
def Medium.cutAt (u : Medium) (band : Nat) : Option Nat := (u.cut.find? fun p => p.1 == band).map Prod.snd

/-- A write to track `i` of a shingled band makes every sector of the band's later tracks unreadable (R60). -/
def Medium.shingle (u : Medium) (h : Nat) (p : Place) : Medium :=
  let lo := mkTp h (p.bandTrack + p.i + 1) 0
  let hi := mkTp h p.bandTrack 0 + 2048 * p.r.tracks
  { sectors := u.sectors.filter fun q => !(lo ≤ q.1 && q.1 < hi)
    cut := tinsert u.cut (mkTp h p.bandTrack 0) (min ((u.cutAt (mkTp h p.bandTrack 0)).getD p.r.tracks) (p.i + 1)) }

/-- What a write to a slot makes unreadable: nothing in a CMR band (R60, R61). -/
def State.shingle (s : State) (n : Fin 4) (tp : Nat) (p : Place) : State :=
  if p.r.cmr then s else s.updMedium n fun u => u.shingle (tpHead tp) p

/-- Whether a slot that this model has recorded nothing in still reads: no write to an earlier track of its shingled band has overlapped it. -/
def State.readable (s : State) (n : Fin 4) (tp : Nat) : Bool :=
  match s.place n tp with
  | none => true
  | some p => p.r.cmr || ((s.medium.get n).cutAt (mkTp (tpHead tp) p.bandTrack 0)).all fun i => p.i < i

/-- The sector that a read of a slot finds: what was recorded there, or, where this model has recorded nothing, free data that the zone of the
slot or its conventional extent admits, and that no longer reads where a later write has overlapped it. -/
def State.found (s : State) (n : Fin 4) (tp : Nat) : Sector :=
  match s.sectorAt n tp with
  | some x => x
  | none =>
    let zone := match s.zoneAt n tp with | some (id, _) => id | none => 0xFFFFFFFF
    { data := bits s.freeVal 0 32768, md := bits s.freeVal 32768 128, zone := zone, seq := bits s.freeVal 32896 32, keyrange := 0
      conv := zone == 0xFFFFFFFF, parity := (s.place n tp).any (fun p => p.kind == .parity), whole := s.readable n tp, committed := true
      format := bits s.freeVal 32928 8 }

/-! ### Payload and trailer (Tables 02.6, 02.7) -/

/-- The bytes of a data sector's codeword that its CRC covers (R69). -/
def Sector.covered (x : Sector) : List Nat :=
  leBytes 4096 x.data ++ leBytes 16 x.md ++ leBytes 4 x.zone ++ leBytes 4 x.seq ++ [x.keyrange % 256, b2n x.conv, x.format % 256, 0]

/-- The sixteen trailer bytes of a data sector (Table 02.7). -/
def Sector.trailer (x : Sector) : List Nat := x.covered.drop 4112 ++ leBytes 4 (crc32c x.covered)

/-- The 4,128 payload bytes of a sector; those of a parity sector stand in the same fields, its last eight in `keyrange` (R75, R76). -/
def Sector.payload (x : Sector) : List Nat :=
  if x.parity then leBytes 4096 x.data ++ leBytes 16 x.md ++ leBytes 4 x.zone ++ leBytes 4 x.seq ++ leBytes 8 x.keyrange
  else x.covered ++ leBytes 4 (crc32c x.covered)

/-- Whether the CRC of a data sector's payload matches (R69, R71). -/
def payloadCrc (l : List Nat) : Bool := leWord l 1031 == crc32c (l.take 4124)

/-- The sector of a payload of 4,128 bytes, as a whole codeword that gave it. -/
def Sector.ofPayload (parity : Bool) (l : List Nat) : Sector :=
  { data := leValue (l.take 4096), md := leValue ((l.drop 4096).take 16), zone := leWord l 1028, seq := leWord l 1029
    keyrange := if parity then leValue ((l.drop 4120).take 8) else l.getD 4120 0
    conv := !parity && bit (l.getD 4121 0) 0, parity := parity, whole := true, committed := false
    format := if parity then 1 else l.getD 4122 0 }

/-! ### Track parity (R75) -/

/-- A byte of GF(2^8) times α. -/
def gfDouble (b : Nat) : Nat := if b < 128 then 2 * b else (2 * b) ^^^ 0x11D

/-- One data sector's byte taken into the remainder r1 x + r0 by the generator x² + (α + 1) x + α. -/
def rsByte (r1 r0 d : Nat) : Nat × Nat :=
  let f := d ^^^ r1
  (r0 ^^^ f ^^^ gfDouble f, gfDouble f)

/-- One data sector's payload taken into the remainder, byte position by byte position. -/
def rsSector (r : List (Nat × Nat)) (d : List Nat) : List (Nat × Nat) := List.zipWith (fun p b => rsByte p.1 p.2 b) r d

/-- The remainder before any sector. -/
def rsZero : List (Nat × Nat) := List.replicate 4128 (0, 0)

/-- A parity payload of a group's remainder: the first parity slot's, the coefficient of x, or the second's. -/
def rsPayload (second : Bool) (r : List (Nat × Nat)) : List Nat := r.map fun p => if second then p.2 else p.1

/-- The parity payloads of a group's data sectors, given in slot order. -/
def rsParity (second : Bool) (l : List (List Nat)) : List Nat := rsPayload second (l.foldl rsSector rsZero)

/-- α to a power, and the product of two elements of GF(2^8). -/
def gfPow : Nat → Nat
  | 0 => 1
  | k + 1 => gfDouble (gfPow k)

/-- The product of two elements of GF(2^8), over the low `k` bits of the second. -/
def gfMul (a b : Nat) : Nat → Nat
  | 0 => 0
  | k + 1 => gfDouble (gfMul a b k) ^^^ (if bit b (8 - (k + 1)) then a else 0)

/-- The inverse of an element of GF(2^8): the element whose product with it is 1. -/
def gfInv (a : Nat) : Nat := ((List.range 256).find? fun b => gfMul a b 8 == 1).getD 0

/-- The two sums of one byte position over the sectors of a group that were read, each given with its power of x: by both roots of the
generator, 1 and α, they are what the erased sectors contribute (R75). -/
def gfSums (l : List (Nat × Nat)) : Nat × Nat :=
  l.foldl (fun a p => (a.1 ^^^ p.2, a.2 ^^^ gfMul p.2 (gfPow p.1) 8)) (0, 0)

/-- A byte of the erased sector at power `i` of x, the other erased sector, where there is one, at power `j` (R75, R78). -/
def gfErased (i : Nat) (j : Option Nat) (l : List (Nat × Nat)) : Nat :=
  let a := gfSums l
  match j with
  | none => a.1
  | some j => gfMul (a.2 ^^^ gfMul a.1 (gfPow j) 8) (gfInv (gfPow i ^^^ gfPow j)) 8

/-- The payload of an erased sector of a group, from the payloads that were read, each with its power of x (R75, R165). -/
def rsErased (i : Nat) (j : Option Nat) (l : List (Nat × List Nat)) : List Nat :=
  (List.range 4128).map fun k => gfErased i j (l.map fun p => (p.1, p.2.getD k 0))

/-! ### Groups (R73, R74, R78) -/

/-- Whether two places lie in one parity group. -/
def Place.sameGroup (p q : Place) : Bool := p.bandTrack == q.bandTrack && p.index / 64 == q.index / 64

/-- The band slot index of the first slot of a place's group. -/
def Place.groupStart (p : Place) : Nat := p.index / 64 * 64

/-- The track positions of every sector of a place's group, data and parity, in slot order. -/
def Place.groupTps (p : Place) (h : Nat) : List Nat := (List.range (p.r.groupData p.index + 2)).map fun i => p.tpAt h (p.groupStart + i)

/-- The power of x whose coefficient the sector at position `i` of a place's group gives (R75). -/
def Place.power (p : Place) (i : Nat) : Nat := p.r.groupData p.index + 1 - i

/-- The remainder of a group rebuilt by reading its data sectors before a place (R77). -/
def State.rebuilt (s : State) (n : Fin 4) (h : Nat) (p : Place) : List (Nat × Nat) :=
  ((List.range (min (p.index - p.groupStart) (p.r.groupData p.index))).map fun i => (s.found n (p.tpAt h (p.groupStart + i))).payload).foldl
    rsSector rsZero

/-- The running parity of the zone of a slot held again where it was lost, rebuilt from the group's sectors before the slot (R77). -/
def State.holdParity (s : State) (n : Fin 4) (tp : Nat) : State :=
  match s.zoneAt n tp, s.place n tp with
  | some (id, z, _), some p => if z.parity.isSome then s else s.updZone id fun y => { y with parity := some (s.rebuilt n (tpHead tp) p) }
  | _, _ => s

/-- The sectors of a place's group that are begun and not yet committed, which the running parity does not hold. -/
def State.groupBegun (s : State) (n : Fin 4) (p : Place) : List Begun :=
  (s.eng n).begun.filter fun b => b.kind == .wrs && !b.parity && (s.place n b.tp).any fun q => q.sameGroup p

/-- The parity sector of a parity slot: the running parity with the group's sectors still undecided (R75, R77). -/
def State.paritySector (s : State) (n : Fin 4) (tp : Nat) (p : Place) : Sector :=
  let held := ((s.zoneAt n tp).bind fun z => z.2.1.parity).getD (s.rebuilt n (tpHead tp) p)
  let r := ((s.groupBegun n p).map fun b => b.sector.payload).foldl rsSector held
  { Sector.ofPayload true (rsPayload (p.index == p.groupStart + p.r.groupData p.index + 1) r) with whole := false }

/-- The running parity once a sector of a zone has committed: a data sector is taken in, and a parity sector leaves it for the next group. -/
def State.runParity (s : State) (n : Fin 4) (b : Begun) : State :=
  match s.zoneAt n b.tp with
  | some (id, _) => s.updZone id fun z => { z with parity := if b.parity then some rsZero else z.parity.map fun r => rsSector r b.sector.payload }
  | none => s

/-- Whether a place's group is closed: both of its parity sectors have committed (R78). -/
def State.groupClosed (s : State) (n : Fin 4) (h : Nat) (p : Place) : Bool :=
  let b := p.groupStart + p.r.groupData p.index
  !p.r.cmr && [b, b + 1].all fun i => (s.sectorAt n (p.tpAt h i)).any fun x => x.parity && x.committed

end Sys2Proof.Machine
end

