-- ==== Sys2Proof/Machine/Signal.lean ====
section
/-! DEFINITION. A sector as bits: its layout on the medium, the scrambler and the LDPC code (02), the write pair's bits (05), and the read path from
a reader's signal to decoded bytes (04): front ends, asperities, equalizer, sync search, detector, decoder and adaptation. -/

namespace Sys2Proof.Machine

/-! ### Bits on the medium (R65) -/

/-- The `w` bits of a value, most significant first (R65). -/
def msbBits : Nat → Nat → List Bool
  | 0, _ => []
  | w + 1, v => bit v w :: msbBits w v

/-- Bytes laid in ascending order, each most significant bit first (R65). -/
def byteBits (l : List Nat) : List Bool := l.flatMap (msbBits 8)

/-- The value of bits, most significant first. -/
def bitsValue (l : List Bool) : Nat := l.foldl (fun v b => 2 * v + b2n b) 0

/-- The `k` bytes that bits give. -/
def bitBytes : Nat → List Bool → List Nat
  | 0, _ => []
  | k + 1, l => bitsValue (l.take 8) :: bitBytes k (l.drop 8)

/-! ### The scrambler (R67) -/

/-- The scrambler's seed for a slot (R67). -/
def scrSeed (tp : Nat) : Nat := (tpTrack tp * 2048 + tpSlot tp) % 8388607 + 1

/-- `k` output bits of the scrambler x^23 + x^18 + 1 from a register of 23 bits. DESIGN CHOICE: the register shifts toward bit 22, its output is the
bit fed back, the sum of bits 22 and 17, and its seed stands in it as a number; R67 gives the polynomial and the seed. -/
def scrBits (r : Nat) : Nat → List Bool
  | 0 => []
  | k + 1 =>
    let o := bit r 22 != bit r 17
    o :: scrBits (2 * r % 2 ^ 23 + b2n o) k

/-- Payload bits scrambled, or descrambled, with the seed of a slot (R67). -/
def scramble (tp : Nat) (l : List Bool) : List Bool := List.zipWith (fun a b => a != b) l (scrBits (scrSeed tp) l.length)

/-! ### The LDPC code (R66) -/

/-- The codeword bits that check `c` joins: row `c % 384` of block row `c / 384`, one bit of each circulant. DESIGN CHOICE: a circulant of shift p
has the 1 of its row r in column (r + p) mod 384. -/
def checkBits (c : Nat) : List Nat :=
  (List.range 96).filterMap fun j => (Config.ldpcShift (c / 384) j).map fun p => 384 * j + (c % 384 + p) % 384

/-- Whether a check is satisfied. -/
def checkOk (v : Nat → Bool) (c : Nat) : Bool := (checkBits c).countP v % 2 == 0

/-- The number of unsatisfied checks of the 3,840 (R156). -/
def syndromeWeight (v : Nat → Bool) : Nat := (List.range 3840).countP fun c => !checkOk v c

/-- The pivots of linear equations over GF(2) in the unknowns below `k`, each with its row, the rows reduced against one another. -/
def gaussRows : Nat → List Nat → List (Nat × Nat) → List (Nat × Nat)
  | 0, _, done => done
  | k + 1, rows, done =>
    match rows.find? fun r => bit r k with
    | none => gaussRows k rows done
    | some p =>
      let clear := fun r => if bit r k then r ^^^ p else r
      gaussRows k ((rows.erase p).map clear) ((k, p) :: done.map fun d => (d.1, clear d.2))

/-- The equation of check `c` in the parity bits, its sum over the payload bits as bit 3,840. -/
def parityRow (v : Nat → Bool) (c : Nat) : Nat :=
  let l := checkBits c
  (l.filter fun b => 33024 ≤ b).foldl (fun r b => r ^^^ 2 ^ (b - 33024)) (if (l.filter fun b => b < 33024).countP v % 2 = 1 then 2 ^ 3840 else 0)

/-- The 3,840 parity bits with which payload bits satisfy every check (R66). -/
def ldpcParity (l : List Bool) : List Bool :=
  let sol := gaussRows 3840 ((List.range 3840).map (parityRow fun b => l.getD b false)) []
  (List.range 3840).map fun b => sol.any fun d => d.1 == b && bit d.2 3840

/-! ### The physical sector (Tables 02.5, 02.6) -/

/-- The sync mark. -/
def syncMark : List Bool := msbBits 48 0xB4E28D173CA5

/-- The codeword of a payload written to a slot: scrambled, then encoded (R66, R67). -/
def codeword (tp : Nat) (payload : List Nat) : List Bool :=
  let l := scramble tp (byteBits payload)
  l ++ ldpcParity l

/-- The 37,000 bits of a slot that holds a sector (Table 02.5). -/
def slotBits (tp : Nat) (x : Sector) : List Bool :=
  msbBits 64 0x3333333333333333 ++ syncMark ++ codeword tp x.payload ++ msbBits 24 0x333333

/-! ### The write pair (R58, R72, R174, R175) -/

/-- Table 05.1: how much earlier the transition at bit `i` is written, in 1/64 bit, by which bits begin with a transition. -/
def precomp (a b c : Nat) (t : Int → Bool) (i : Int) : Nat :=
  if t (i - 1) && t (i + 1) then c else if t (i - 1) then a else if t (i - 2) then b else 0

/-- The transitions of a slot's NRZ bits, written after the bits `prev` of the same run, each with its shift. -/
def shiftsOf (a b c : Nat) (prev l : List Bool) : List (Nat × Nat) :=
  let w := prev ++ l
  let t := fun i : Int =>
    let j := (i + prev.length).toNat
    0 < i + prev.length && j < w.length && w.getD j false != w.getD (j - 1) false
  ((List.range l.length).filter fun i : Nat => t i).map fun i => (i, precomp a b c t i)

/-- What the pair of an actuator carries for a sector begun at a place: from the place's angle, its mark 64 bits on, WOFS / 64
bits after the bank reader's place (R72, R171, R174, R175). -/
def State.layOut (s : State) (n : Fin 4) (tp : Nat) (p : Place) (x : Sector) : Laid :=
  let h := tpHead tp
  let l := slotBits tp x
  let prev := if s.writing n then ((s.ch n).laid.map fun y => y.bits.drop 36996).getD [] else []
  { start := p.angle, mark := (p.angle + 64) % (16 * p.r.tone), ofs := sgn 18 (s.rd (Fd.CHN_WCFG_WOFS n h)), bits := l
    shifts := shiftsOf (s.rd (Fd.CHN_WPC_PC_A n h)) (s.rd (Fd.CHN_WPC_PC_B n h)) (s.rd (Fd.CHN_WPC_PC_C n h)) prev l }

/-! ### Codes (R136 to R138) -/

/-- Item `i` of a list of samples that begins 64 bits before the slot's first bit; 0 beyond it. -/
def sampleAt (l : List Int) (i : Int) : Int := if i + 64 < 0 then 0 else l.getD (i + 64).toNat 0

/-- The 8-bit codes that one reader's ADC delivers, by the head's BOOST and the gain code in use (R137). -/
def codesOf (boost gain : Nat) (l : List Int) : List Int := (Config.frontEnd boost gain l).map (clampInt (-128) 127)

/-- The gain code in use on RA or RB: the manual one, or the one that automatic gain has come to (R138). -/
def State.gainCode (s : State) (n : Fin 4) (rb : Bool) : Nat :=
  if s.on (Fd.CHN_AFE_AGC n) then (if rb then (s.ch n).gainB else (s.ch n).gainA) else s.rd (Fd.CHN_AFE_VGA_MAN n)

/-- The codes of both readers over a slot, RA's delayed so that each pair belongs to one bit (R136, R137). -/
def State.codes (s : State) (n : Fin 4) (g : Signal) : Signal :=
  let h := s.selHead n
  let boost := s.rd (Fd.CHN_HCFG_BOOST n h)
  ⟨codesOf boost (s.gainCode n false) g.ra, (codesOf boost (s.gainCode n true) g.rb).drop (s.rd (Fd.CHN_HCFG_RBDLY n h))⟩

/-- Whether the RMS of the codes of each window of 2^k bits is 32 LSB to within 2 LSB (R138). -/
def rmsOk (k : Nat) : Nat → List Int → Bool
  | 0, _ => true
  | f + 1, l =>
    if l.length < 2 ^ k then true
    else
      let p := ((l.take (2 ^ k)).map fun x => x * x).sum
      900 * 2 ^ k ≤ p && p ≤ 1156 * 2 ^ k && rmsOk k f (l.drop (2 ^ k))

/-- Automatic gain of one reader over some codes: it stands where their RMS is right or an asperity freezes it, and else comes to an open value. -/
def State.agcReader (s : State) (n : Fin 4) (rb frozen : Bool) (l : List Int) : State :=
  if !s.on (Fd.CHN_AFE_AGC n) || frozen || rmsOk (s.rd (Fd.CHN_AFE_AGC_TC n) + 6) l.length l then s
  else
    let g := bits s.freeVal 0 8
    s.tookFree.updCh n fun c => if rb then { c with gainB := g } else { c with gainA := g }

/-! ### Thermal asperities (R158) -/

/-- The asperities of a reader's codes less their running mean, from bit `i` on, as first sample above LEVEL and last above LEVEL / 2: `up` the
samples above LEVEL in a row, `on` the asperity under way. -/
def taRuns (level run : Nat) : Int → Nat → Option (Int × Int) → List Int → List (Int × Int)
  | _, _, on, [] => on.toList
  | i, up, some (a, b), d :: l =>
    if (level : Int) < 2 * d then taRuns level run (i + 1) up (some (a, i)) l else (a, b) :: taRuns level run (i + 1) 0 none l
  | i, up, none, d :: l =>
    if (level : Int) < d then
      (if run ≤ up + 1 then taRuns level run (i + 1) 0 (some (i - up, i)) l else taRuns level run (i + 1) (up + 1) none l)
    else taRuns level run (i + 1) 0 none l

/-- The erasure spans of a reader's codes, the first code at bit `from_` of the slot (R158). -/
def State.taSpans (s : State) (n : Fin 4) (rb : Bool) (from_ : Int) (codes : List Int) : List TaSpan :=
  let d := List.zipWith (fun c m => c - m) codes (Config.runningMean codes)
  (taRuns (s.rd (Fd.CHN_TA_LEVEL n)) (s.rd (Fd.CHN_TA_RUN n)) from_ 0 none d).map fun p =>
    ⟨rb, p.1 - s.rd (Fd.CHN_TA_PRE n), p.2 + 16 * s.rd (Fd.CHN_TA_POST_X16 n) + 1⟩

/-- A span joined to spans in the order of their first bits. -/
def addSpan (p : TaSpan) : List TaSpan → List TaSpan
  | [] => [p]
  | q :: l => if p.lo ≤ q.lo then p :: q :: l else q :: addSpan p l

/-- The bits of a slot, from bit `top` on, that spans in that order cover together (R158). -/
def covered (top : Int) : List TaSpan → Nat
  | [] => 0
  | p :: l =>
    let hi := max top (min 37000 p.hi)
    (hi - max top p.lo).toNat + covered hi l

/-- Whether a span of a reader holds a bit. -/
def spanAt (l : List TaSpan) (rb : Bool) (i : Int) : Bool := l.any fun p => p.rb == rb && p.lo ≤ i && i < p.hi

/-- Whether the detector marks a bit as erased: spans of both readers hold it (R158). -/
def erasedAt (l : List TaSpan) (i : Int) : Bool := spanAt l false i && spanAt l true i

/-! ### The equalizer (R152, R153) -/

/-- Tap or target coefficient `i` of 52 of equalizer set `e` of a head: 24 RA taps, 24 RB taps, T1 to T4. -/
def State.eqSet (s : State) (n : Fin 4) (h e i : Nat) : Int := sgn 16 (bits (s.rd (Fd.CHN_EQ_WORD n (8 * h + e) (i / 2))) (16 * (i % 2)) 16)

/-- The weights in force at a bit, of an entry, or one reader alone where a span affects the other (R152, R158). -/
def weightsAt (wa wb : Nat) (l : List TaSpan) (i : Int) : Nat × Nat :=
  match spanAt l false i, spanAt l true i with
  | true, false => (0, 0x80)
  | false, true => (0x80, 0)
  | _, _ => (wa, wb)

/-- One output of the equalizer, at bit `i` (R152). -/
def eqSample (tap : Nat → Int) (w : Nat × Nat) (g : Signal) (i : Int) : Int :=
  ((List.range 24).map fun k =>
    tap k * w.1 * sampleAt g.ra (i + 12 - k) + tap (24 + k) * w.2 * sampleAt g.rb (i + 12 - k)).sum

/-- How a sector is detected: the equalizer's taps and target, the weights of its entry, the codes, and the spans erased. -/
structure Detection where
  tap : Nat → Int
  wa : Nat
  wb : Nat
  codes : Signal
  spans : List TaSpan

/-- The detection of a sector with set EQS and entry WGT. -/
def State.detection (s : State) (n : Fin 4) (h eqs wgt : Nat) (codes : Signal) (spans : List TaSpan) : Detection :=
  ⟨s.eqSet n h eqs, s.rd (Fd.CHN_WGT_RA_W n wgt), s.rd (Fd.CHN_WGT_RB_W n wgt), codes, spans⟩

/-- The equalized sample of bit `i`. -/
def Detection.y (d : Detection) (i : Int) : Int := eqSample d.tap (weightsAt d.wa d.wb d.spans i) d.codes i

/-- The ratios that one detector pass gives `k` bits from bit `lo` on, in 6 bits, 0 where the bit is erased (R155). -/
def Detection.ratios (d : Detection) (lo : Int) (k : Nat) (prior : List Int) : List Int :=
  let pos := (List.range k).map fun j => lo + (j : Int)
  List.zipWith (fun i r => if erasedAt d.spans i then 0 else clampInt (-32) 31 r) pos
    (Config.detect ((List.range 4).map fun j => d.tap (48 + j)) (pos.map d.y) prior)

/-- The hard decision of a ratio. -/
def hard (r : Int) : Bool := r < 0

/-- The scores of the 25 positions of the window, earliest first: the unerased bits of the mark that the hard decisions match (R72, R148). -/
def Detection.scores (d : Detection) : List Nat :=
  let l := (d.ratios 52 72 []).map hard
  (List.range 25).map fun w => (List.range 48).countP fun j =>
    !erasedAt d.spans (52 + w + j : Nat) && l.getD (w + j) false == syncMark.getD j false

/-! ### The decoder (R155, R156) -/

/-- A min-sum decoder: the ratio of each codeword bit, and what each check has told each of its bits. -/
structure MinSum where
  llr : Nat → Int
  msg : Nat → Nat → Int

/-- What the other bits of a check tell one of them: their signs' product at the least of their magnitudes. -/
def minSumOf (l : List Int) : Int :=
  match (l.map Int.natAbs).min? with
  | none => 0
  | some m => if l.countP hard % 2 = 1 then -(m : Int) else m

/-- One check of a layer updated. -/
def MinSum.check (m : MinSum) (c : Nat) : MinSum :=
  let l := checkBits c
  let q := fun b => m.llr b - m.msg c b
  let r := fun b => minSumOf ((l.filter fun x => x != b).map q)
  { llr := fun b => if l.contains b then q b + r b else m.llr b
    msg := fun d b => if d = c then r b else m.msg d b }

/-- One decoder iteration: the ten block rows in order, the checks of each joining no bit twice (R155). -/
def MinSum.iterate (m : MinSum) : MinSum := (List.range 3840).foldl MinSum.check m

/-- Whether every check is satisfied. -/
def MinSum.done (m : MinSum) : Bool := syndromeWeight (fun b => hard (m.llr b)) == 0

/-- At most `k` iterations, ended by the first after which every check is satisfied (R155). -/
def MinSum.run : Nat → MinSum → MinSum × Bool
  | 0, m => (m, false)
  | k + 1, m => let m1 := m.iterate; if m1.done then (m1, true) else MinSum.run k m1

/-- The iterations after each detector pass: ceil(TOTAL / GLOBAL) after each but the last, and those that remain after the last (R155). -/
def passIters (glob total : Nat) : List Nat :=
  let c := (total + glob - 1) / glob
  List.replicate (glob - 1) c ++ [total - (glob - 1) * c]

/-- Detector passes with their iterations, each pass told what the decoder has learnt, until one converges (R155). DESIGN CHOICE: the decoder keeps
its messages from pass to pass, unscaled and of any magnitude. -/
def Detection.passes (d : Detection) (lo : Int) (m : MinSum) (prior : List Int) : List Nat → MinSum × Bool
  | [] => (m, false)
  | k :: ks =>
    let c := d.ratios lo 36864 prior
    match MinSum.run k { m with llr := fun b => c.getD b 0 + prior.getD b 0 } with
    | (m1, true) => (m1, true)
    | (m1, false) => d.passes lo m1 ((List.range 36864).map fun b => m1.llr b - c.getD b 0) ks

/-- What an attempt yields: its outcome, and the payload bytes decoded. -/
structure Decode where
  o : Decoded
  payload : List Nat

/-- One attempt on a slot framed `dev` bits from nominal, with a budget of detector passes and decoder iterations, descrambled with the seed of
the slot addressed (R67, R150, R155, R156). -/
def Detection.attempt (d : Detection) (tp : Nat) (dev : Int) (glob total : Nat) : Decode :=
  let first := d.ratios (112 + dev) 36864 []
  let (m, ok) := d.passes (112 + dev) ⟨fun _ => 0, fun _ _ => 0⟩ [] (passIters glob total)
  let l := bitBytes 4128 (scramble tp ((List.range 33024).map fun b => hard (m.llr b)))
  ⟨⟨ok, payloadCrc l, syndromeWeight fun b => hard (first.getD b 0)⟩, l⟩

/-! ### Adaptation (R157) -/

/-- The bits of a slot as write data of ±1, a 1 giving +1. -/
def pm1 (l : List Bool) (i : Int) : Int := if i < 0 then 0 else match l[i.toNat]? with
  | some b => if b then 1 else -1
  | none => 0

/-- One step of the least-mean-square rule at bit `i`: the 52 coefficients, and whether each moved past its bound. -/
def lmsStep (mu : Nat) (bound : Nat → Int × Int) (codes : Signal) (w : Nat × Nat) (ref : List Bool) (a : List (Int × Bool)) (i : Int) :
    List (Int × Bool) :=
  let tap := fun k => (a.getD k (0, false)).1
  let want := 8192 * pm1 ref i + ((List.range 4).map fun k => tap (48 + k) * pm1 ref (i - 1 - k)).sum
  let err := eqSample tap w codes i - Config.eqUnit * 128 * want
  let by_ := fun k : Nat =>
    if k < 24 then -(err * sampleAt codes.ra (i + 12 - k))
    else if k < 48 then -(err * sampleAt codes.rb (i + 12 - (k - 24 : Nat)))
    else err * pm1 ref (i - 1 - (k - 48 : Nat))
  (List.range 52).map fun k =>
    let v := tap k + roundDiv (by_ k) (2 ^ (mu + 15))
    (clampInt (bound k).1 (bound k).2 v, (a.getD k (0, false)).2 || v < (bound k).1 || (bound k).2 < v)

/-- The coefficients that the rule leaves after a sector, from its decoded bits. -/
def lmsSector (mu : Nat) (bound : Nat → Int × Int) (d : Detection) (ref : List Bool) : List (Int × Bool) :=
  (List.range 37000).foldl (fun a i => lmsStep mu bound d.codes (weightsAt d.wa d.wb d.spans i) ref a i)
    ((List.range 52).map fun k => (d.tap k, false))

/-! ### Reading behind the writer (R188) -/

/-- RB's codes less the write crosstalk, while the canceller is active: Σ x[t] × d[n − t] / 16 (R188). -/
def State.cancel (s : State) (n : Fin 4) (h : Nat) (written : List Bool) (rb : List Int) : List Int :=
  if !s.on (Fd.CHN_WCTL_XTC_EN n) then rb
  else
    let x := fun t => sgn 8 (bits (s.rd (Fd.CHN_XT_WORD n h (t / 4))) (8 * (t % 4)) 8)
    (List.zip (List.range rb.length) rb).map fun p =>
      p.2 - roundDiv ((List.range 16).map fun t => x t * pm1 written ((p.1 : Int) - 64 - t)).sum 16

/-- The detection of a sector just written, from RB alone with the RB taps and target of RBSET at weights (0, 1.0) (R188). -/
def State.readBehind (s : State) (n : Fin 4) (h : Nat) (written : List Bool) (rb : List Int) (spans : List TaSpan) : Detection :=
  ⟨s.eqSet n h (s.rd (Fd.CHN_WCFG_RBSET n h)), 0, 0x80, ⟨[], s.cancel n h written rb⟩, spans⟩

end Sys2Proof.Machine
end

