-- ==== Sys2Proof/Machine/Media.lean ====
section
/-! DEFINITION. Media instructions: their state, how they end, what stops a write, and the commit of a sector (03, 04, 05, 07). -/

namespace Sys2Proof.Machine

/-! ### The instruction a slot is inside of -/

/-- The media instruction a slot is inside of. -/
def Slot.media? (x : Slot) : Option Media :=
  match x.op with
  | some (.media m) => some m
  | _ => none

/-- The media instruction of a slot changed. -/
def State.updMedia (s : State) (n k : Fin 4) (g : Media → Media) : State :=
  s.updSlot n k fun x => { x with op := match x.op with
    | some (.media m) => some (.media (g m))
    | o => o }

/-- The sectors begun by a slot, oldest first. -/
def State.begunOf (s : State) (n k : Fin 4) : List Begun := (s.eng n).begun.filter fun b => b.slot == k

/-- A sector begun changed. -/
def State.updBegun (s : State) (n : Fin 4) (b : Begun) (g : Begun → Begun) : State :=
  s.updEng n fun r => { r with begun := r.begun.map fun c => if c.slot = b.slot ∧ c.tp = b.tp then g c else c }

/-- A sector begun leaves the list. -/
def State.dropBegun (s : State) (n : Fin 4) (p : Begun → Bool) : State :=
  s.updEng n fun r => { r with begun := r.begun.filter fun b => !p b }

/-- Whether a begun sector is a sector being read. -/
def Begun.isRead (b : Begun) : Bool := b.kind != .wrs

/-- Whether the next slot of a WRS is a parity slot, which it writes whatever its count (R120). -/
def State.parityDue (s : State) (n : Fin 4) (m : Media) : Bool :=
  m.kind == .wrs && (s.place n m.next).any fun p => p.kind == .parity

/-! ### Ends of media instructions -/

/-- A media instruction ends with a code, its sectors all decided: the run of a WRS ends, store entries become free, SCAN and RAW give TP and
CN of the first slot not visited (R123, R125, R126, R161, R319). -/
def State.finishMedia (s : State) (n k : Fin 4) (code : Nat) : State :=
  match (s.pslot n k).media? with
  | none => s
  | some m =>
    let c := if code = 0 ∧ m.failed ∧ (m.kind = .rds ∨ m.kind = .vfy) then 0x0D else code
    let s1 := if m.kind = .wrs then ((((s.idlePair n).readTarget n k).updCh n fun c => { c with wmodeFailed := false }).runEnd n k c)
      else (s.freeEntries n fun e => e.slot == k).dropDeep n k
    (s1.updSlot n k fun x => { x with madeEntry := false }).completeRecord n k fun a =>
      (if m.kind = .scan ∨ m.kind = .raw then { a with tp := BitVec.ofNat 64 m.next, cn := BitVec.ofNat 64 m.left } else a).setCode c

/-- What follows once the sectors of a slot's media instruction are all decided: it ends with the code it was stopping with, in full, or
where a STOP or a displacement waits. -/
def State.settleMedia (s : State) (n k : Fin 4) : State :=
  match (s.pslot n k).media? with
  | none => s
  | some m =>
    if !s.settled n k then s
    else match m.ending with
      | some c => s.finishMedia n k c
      | none =>
        if m.left = 0 ∧ m.extra = [] ∧ !s.parityDue n m then s.finishMedia n k 0
        else if (s.pslot n k).stopReq then (s.giveUp n k .stopped).dispatch n else s

/-- A media instruction starts no further sector and will end with a code; one already given stands. -/
def State.endWith (s : State) (n k : Fin 4) (code : Nat) : State :=
  (s.updMedia n k fun m => { m with ending := some (m.ending.getD code) }).settleMedia n k

/-- The code of the first sector that fails for good stands before a code that later sectors gave; TP stands at that sector (R116, R122). -/
def State.failWith (s : State) (n k : Fin 4) (tp code : Nat) : State :=
  (((s.dropBegun n fun b => b.slot == k).updArch n k fun a => { a with tp := BitVec.ofNat 64 tp }).updMedia n k fun m =>
    { m with ending := some code, extra := [] }).settleMedia n k

/-- A motion, an implicit positioning or a wait for a slot ends with a code (R109 to R113). -/
def State.opEndsWith (s : State) (n k : Fin 4) (code : Nat) : State :=
  match (s.pslot n k).op with
  | some .seek | some .follow | some (.settle _) | some .head | some .skipto => s.complete n k fun a => a.setCode code
  | some (.media m) => if m.positioned then s else s.endWith n k code
  | _ => s

/-! ### Stopping a write (R192) -/

/-- The WRS code of a stop cause (Table 05.5). -/
def stopCode (cause : Nat) : Nat := if cause = 9 then 0x04 else if cause = 7 then 0x0F else if cause = 8 then 0x07 else 0x05

/-- A stop is counted, flagged and recorded: a read-behind failure by its own record, every other cause as a write stopped. -/
def State.noteStop (s : State) (n : Fin 4) (cause : Nat) (b : Option Begun) : State :=
  let h := s.selHead n
  let zone := ((b.bind fun x => x.zone).getD 0xFFFFFFFF)
  let tp := (b.map fun x => x.tp).getD 0
  let s1 := s.wr (Fd.CHN_WSTAT_CAUSE n) cause
  if cause = 9 then s1
  else
    ((s1.wr (Fd.CHN_WINT_STOP n) 1).headCount n (Fd.CHN_HWCNT0_STOPS n h)).raise (.channel n) 0x1104 (if cause = 4 ∨ cause = 5 then 4 else 3)
      ([h, cause] ++ leBytes 5 tp ++ leBytes 4 zone)

/-- The controller stops writing: the pair goes idle, the sector being written stays uncommitted, and WRS ends with the cause's code once
its written sectors are decided (R191, R192). -/
def State.writeStop (s : State) (n : Fin 4) (cause : Nat) : State :=
  if !s.writing n then s
  else
    let cut := (s.eng n).begun.find? fun b => !b.isRead && !b.written
    let s1 := (((s.idlePair n).noteStop n cause cut).dropBegun n fun b => !b.isRead && !b.written)
    let s2 := if cause = 7 then s1.sendDisarm n else s1
    match four.find? fun k => ((s2.pslot n k).media?.any fun m => m.kind == .wrs) && ((s2.pslot n k).st == .running || cut.any fun b => b.slot == k) with
    | none => s2
    | some k => s2.endWith n k (stopCode cause)

/-- What inhibits writing on an actuator as a sector is about to start, as its cause of Table 05.5 (R122, R218, R237, R240). -/
def State.inhibit? (s : State) (n : Fin 4) : Option Nat :=
  if (s.ch n).slipInh then some 4
  else if (s.ch n).bankInh then some 5
  else if s.on (Fd.SRV_STATUS_SHKINH n) then some 2
  else if s.rdBit Fd.HSK_TSTAT_COND 0 then some 6
  else if (s.sv n).err.natAbs ≥ s.rd (Fd.CHN_WINH_OT_LIM n) ∨ s.rdBit (Fd.SRV_STATUS_TPIN n) (s.selHead n) ∨ s.on (Fd.SRV_STATUS_DEGR n) ∨
      s.unit (.servo n) = 6 then some 1
  else none

/-! ### Commits (R85, R86, R96) -/

/-- The buffer that the next commit of a slot uses: context and buffer index. -/
def Arch.headBuf (a : Arch) : Option (Nat × Nat) := a.buf 0

/-- A data sector of a slot commits: TP moves to the next data slot as it was when the sector was started (R82), CN falls, and a buffer is used; a
spent entry with AP hands its context over unless a failure-list entry was made while it stood at the head (R85, R86, R254). A context counts
the sectors that WRS commits, each once (R131). -/
def State.commitData (s : State) (n k : Fin 4) (b : Begun) (useBuf : Bool) : State :=
  let a := (s.pslot n k).arch
  let a1 := { a with tp := BitVec.ofNat 64 b.nx, cn := a.cn - 1 }
  if !useBuf then s.updArch n k fun _ => a1
  else
    let a2 := a1.useBuf
    match a.chain with
    | [] => s.updArch n k fun _ => a1
    | e :: _ =>
      let s1 := (s.updArch n k fun _ => a2).ctxUpd e.ctx fun x =>
        { x with done := if b.kind = .wrs ∧ !x.done.contains a.bpSect then x.done ++ [a.bpSect] else x.done }
      if a2.chain.length < a.chain.length then
        let fail := (s.pslot n k).headFail
        let s2 := s1.updSlot n k fun x => { x with headFail := false }
        if e.ap && !fail then s2.handOver e.ctx 0 0 else s2
      else s1

/-- The commit recorded, and the slot stopped there where it is stepped (R95, Table 03.12). -/
def State.committed (s : State) (n k : Fin 4) : State :=
  let s1 := s.recordCommit n k
  if s1.on (Fd.RCH_CTL_SSTEP n) && (s1.pslot n k).st == .running then s1.stopSlot n k else s1

/-- A failure-list entry (Table 03.10). -/
def failEntry (tp sect why : Nat) : Nat := tp % 2 ^ 38 + 2 ^ 38 * (sect % 2 ^ 24) + 2 ^ 62 * why

/-- A failed sector entered in a slot's failure list (R116, R118, R254). -/
def State.enterFailure (s : State) (n k : Fin 4) (tp sect why : Nat) : State :=
  let f := (s.pslot n k).arch.nfails
  ((s.stored (saveArea n k + 0x400 + 8 * f) (leBytes 8 (failEntry tp sect why))).updSlot n k fun x =>
    { x with headFail := true, madeEntry := true, arch := { x.arch with nfails := f + 1 } }).updMedia n k fun m => { m with failed := true }

/-! ### Reads that have become final (R96, R116, R119, R125) -/

/-- Whether a sector that was decoded belongs where it was read (R71). -/
def State.zoneFits (s : State) (n : Fin 4) (b : Begun) : Bool :=
  !b.sector.parity && (match s.zoneAt n b.tp with
    | some (id, _) => b.sector.zone == id
    | none =>
      match s.convAt n b.tp with
      | some _ => b.sector.zone == 0xFFFFFFFF
      | none => true)

/-- GEN of a key range (Table 21.7). -/
def State.keyGen (s : State) (r : Nat) : Nat := s.rd (Fd.TRU_RANGE_GEN_GEN r)

/-- The data-unit number of a slot: actuator and TP (R425). -/
def dunOf (n : Fin 4) (tp : Nat) : Nat := 2 ^ 38 * n.val + tp % 2 ^ 38

/-- A block as the media cipher records it. -/
def State.encipher (s : State) (r dun v : Nat) : Nat := (Config.mediaCipher r (s.keyGen r) dun (BitVec.ofNat 32768 v)).toNat

/-- A recorded block as the media cipher gives it back. -/
def State.decipher (s : State) (r dun v : Nat) : Nat := ((Config.mediaCipher r (s.keyGen r) dun).symm (BitVec.ofNat 32768 v)).toNat

/-- The 4,096 bytes of a context's sector buffer (R425). -/
def State.sectBuf (s : State) (c sect : Nat) : Nat := leValue (s.bytes (((s.ctx? c).map fun x => x.buf).getD 0 + 0x1000 * sect) 4096)

/-- The syndrome-weight limit of VFY (R119). -/
def State.vfyLimit (s : State) (n : Fin 4) (m : Media) : Nat := if m.wth = 0 then s.rd (Fd.CHN_DEC_SWTH n) else 8 * m.wth

/-- WHY of a sector that is final, none where it passed (R119, R151). -/
def State.why (s : State) (n k : Fin 4) (m : Media) (b : Begun) : Option Nat :=
  match b.phase with
  | .bad w => some w
  | _ =>
    if m.kind ≠ .vfy then none
    else if s.vfyLimit n m < b.weight then some 3
    else if !m.cmpb then none
    else match (s.pslot n k).arch.headBuf with
      | some (c, i) => if s.encipher b.sector.keyrange (dunOf n b.tp) (s.sectBuf c i) = b.sector.data then none else some 3
      | none => none

/-- Whether a media instruction uses a buffer per data sector. -/
def Media.buffered (m : Media) : Bool := (m.kind == .rds && !m.nox) || (m.kind == .vfy && m.cmpb) || m.kind == .wrs

/-- A sector buffer marked invalid, or valid again (R116, R255). -/
def State.markBuf (s : State) (p : Nat × Nat) (bad : Bool) : State :=
  { s with stage := { s.stage with invalid :=
    let l := s.stage.invalid.filter fun q => q != p
    if bad then l ++ [p] else l } }

/-- Whether a slot's block holds no committed content at its zone's ordering point now: its data index is at or above WP (R302). -/
def State.unwrittenAt (s : State) (n : Fin 4) (tp : Nat) : Bool := (s.zoneAt n tp).any fun p => p.2.1.wp ≤ p.2.2

/-- A committed sector's block goes to its buffer by Sluice. DEDUCED: a block that is read from the medium resolves at this commit (R38), so that a zone
reset since the command was carried out leaves it without committed content: zeros, with metadata of all 0xFF (R302). -/
def State.deliver (s : State) (n k : Fin 4) (c i : Nat) (b : Begun) : State :=
  if s.unwrittenAt n b.tp then
    let a := ((s.ctx? c).map fun x => x.buf).getD 0
    (s.stored (a + 0x1000 * i) (List.replicate 4096 0)).stored (a + 0x100000 + 0x10 * i) (List.replicate 16 0xFF)
  else
    ({ s with sluice := { s.sluice with xfers := s.sluice.xfers ++
      [(⟨n, k, c, i, b.sector.data, b.sector.md, b.sector.keyrange, dunOf n b.tp⟩ : SecXfer)] } }).updSlot n k fun x => { x with xfers := x.xfers + 1 }

/-- A read or verified sector commits, passed or as failed. -/
def State.commitRead (s : State) (n k : Fin 4) (m : Media) (b : Begun) (w : Option Nat) : State :=
  let buf := if m.buffered then (s.pslot n k).arch.headBuf else none
  let s1 := match w with
    | some w => s.enterFailure n k b.tp ((buf.map Prod.snd).getD 0) w
    | none => if b.phase = ReadPhase.good true then s.headCount n (Fd.CHN_HCNT3_DEEP_OK n (tpHead b.tp)) else s
  let s2 := if m.kind ≠ .rds then s1 else match buf with
    | none => s1
    | some (c, i) =>
      let t := s1.markBuf (c, i) w.isSome
      if w.isSome then t else t.deliver n k c i b
  (((s2.dropBegun n fun c => c.slot == k && c.tp == b.tp).commitData n k b m.buffered).freeEntries n fun e => e.slot == k && e.tp == b.tp).committed n k

/-- Whether a slot's trailer as decoded is open: its CRC or FORMAT check failed, and its bits are not what the model has recorded there. -/
def Begun.trailerOpen (b : Begun) : Bool := b.phase == ReadPhase.bad 2 && b.crcBad

/-- The 32 bytes that SCAN stores for a slot (Table 03.27); the trailer of a sector whose CRC or FORMAT check failed is free. -/
def State.scanEntry (s : State) (b : Begun) : List Nat :=
  let (tr, st) := match b.phase with
    | .bad 2 => (if b.trailerOpen then leBytes 16 s.freeVal else b.sector.trailer, 3)
    | .bad 0 => (List.replicate 16 0, 1)
    | .bad _ => (List.replicate 16 0, 2)
    | _ => (b.sector.trailer, 0)
  tr ++ leBytes 8 b.tp ++ leBytes 2 (min b.weight 0xFFFF) ++ [st, 0, 0, 0, 0, 0]

/-- The trailer ZONE that SCAN takes or compares: of a slot that converged and whose trailer passed its CRC and FORMAT checks (R125). -/
def Begun.scanZone (b : Begun) : Option Nat :=
  match b.phase with
  | .good _ => some b.sector.zone
  | .bad 2 => if b.crcBad then none else some b.sector.zone
  | _ => none

/-- Whether SCAN stops before a slot (R125). -/
def scanStops (m : Media) (b : Begun) : Bool :=
  (bit m.stop 0 && (b.phase == ReadPhase.bad 0 || b.phase == ReadPhase.bad 1)) ||
    (bit m.stop 1 && (match m.ref, b.scanZone with
      | some r, some z => r != z
      | _, _ => false))

/-- The oldest sector of SCAN becomes final: its entry is stored, or SCAN stops before it (R125). -/
def State.scanSector (s : State) (n k : Fin 4) (m : Media) (b : Begun) : State :=
  if scanStops m b then
    ((s.dropBegun n fun c => c.slot == k).updMedia n k fun m =>
      { m with next := b.tp, left := m.left + (s.begunOf n k).length, ending := some (m.ending.getD 0) }).settleMedia n k
  else
    let s1 := (s.stored (wmem n + m.base + 32 * m.k) (s.scanEntry b)).dropBegun n fun c => c.slot == k && c.tp == b.tp
    let s2 := if b.trailerOpen then s1.tookFree else s1
    (s2.updMedia n k fun m => { m with k := m.k + 1, ref := m.ref <|> b.scanZone }).settleMedia n k

/-- The oldest sector of a slot is final (R96, R116, R118, R119). -/
def State.finalRead (s : State) (n k : Fin 4) (m : Media) (b : Begun) : State :=
  if m.kind = .scan then s.scanSector n k m b
  else match (if m.kind = .rds && !m.nox && s.unwrittenAt n b.tp then none else s.why n k m b) with
    | none => (s.commitRead n k m b none).settleMedia n k
    | some w =>
      if m.kind = .rds ∧ !m.cont then s.failWith n k b.tp 0x02
      else if 64 ≤ (s.pslot n k).arch.nfails then s.failWith n k b.tp 0x03
      else (s.commitRead n k m b (some w)).settleMedia n k

/-- Whether the reading of a sector has a final result. -/
def ReadPhase.final : ReadPhase → Bool
  | .good _ | .bad _ => true
  | _ => false

/-- Whether Sluice accepts a sector for the Stage, where its read has one to deliver: its sector-transfer channel is not stopped (R96, Table 13.6). -/
def State.accepts (s : State) (n : Fin 4) (b : Begun) : Bool :=
  s.on Fd.SLC_CTL_EN || !((s.pslot n b.slot).media?.any fun m => m.kind == .rds && !m.nox) || (match b.phase with | .bad _ => true | _ => false)

/-- A read sector whose result is final, accepted, and before which its slot has begun no other. -/
def State.ripe (s : State) (n : Fin 4) : Option Begun :=
  (four.filterMap fun k => (s.begunOf n k).head?).find? fun b => b.isRead && b.phase.final && s.accepts n b

/-- Reads commit in TP order as they become final. -/
def State.drain (s : State) (n : Fin 4) : Nat → State
  | 0 => s
  | f + 1 =>
    match s.ripe n with
    | none => s
    | some b =>
      match (s.pslot n b.slot).media? with
      | none => (s.dropBegun n fun c => c.slot == b.slot && c.tp == b.tp).drain n f
      | some m => (s.finalRead n b.slot m b).drain n f

/-- Every read of an engine that has become final commits. -/
def State.drainAll (s : State) (n : Fin 4) : State := s.drain n ((s.eng n).begun.length + 1)

end Sys2Proof.Machine
end

