-- ==== Sys2Proof/Machine/ReadPath.lean ====
section
/-! DEFINITION. The read path (04): ADC slices, the bank clock, framing and decode attempts, averaging, the deep-recovery decoder and
track-parity reconstruction. -/

namespace Sys2Proof.Machine

/-! ### ADC slices (R139 to R141) -/

/-- The fault bits, the stand-in fields and the fields of SPA or SPB of one ADC. -/
def sliceFault (rb : Bool) (n : Fin 4) : Fld := if rb then Fd.CHN_SLICE_FAULT_B n else Fd.CHN_SLICE_FAULT_A n

/-- SPA or SPB. -/
def spareOn (rb : Bool) (n : Fin 4) : Fld := if rb then Fd.CHN_STATUS_SPB n else Fd.CHN_STATUS_SPA n

/-- SPA_FOR or SPB_FOR. -/
def spareFor (rb : Bool) (n : Fin 4) : Fld := if rb then Fd.CHN_STATUS_SPB_FOR n else Fd.CHN_STATUS_SPA_FOR n

/-- SPA_PERM or SPB_PERM. -/
def sparePerm (rb : Bool) (n : Fin 4) : Fld := if rb then Fd.CHN_STATUS_SPB_PERM n else Fd.CHN_STATUS_SPA_PERM n

/-- A channel failed: the actuator is out of service (R141). -/
def State.channelFails (s : State) (n : Fin 4) (rb : Bool) (slice : Nat) : State :=
  ((((s.wr (Fd.CHN_STATUS_FAILED n) 1).wr (Fd.CHN_INT_CHFAIL n) 1).setUnit (.channel n) 7).fault (.channel n) 0x1102 6 [b2n rb, slice])

/-- SLICE_FAULT: a slice found faulty, in service, or by calibration, whose event is its own (R140, R141, R520). -/
def State.sliceFaulty (s : State) (n : Fin 4) (rb : Bool) (slice : Nat) (cal : Bool) : State :=
  let first := !s.rdBit (sliceFault rb n) slice
  let s0 := if first then (s.setB (sliceFault rb n) slice).wr (Fd.CHN_INT_SLICEF n) 1 else s
  let s1 := if first && !cal then s0.raise (.channel n) 0x1101 4 [b2n rb, slice, s.selHead n] else s0
  if slice = 8 then
    -- S8 itself is unusable; a slice that it stood in for under calibration returns to service, one that it replaced cannot.
    let s2 := s1.updCh n fun c => if rb then { c with s8badB := true } else { c with s8badA := true }
    if s.on (spareOn rb n) then
      if s.on (sparePerm rb n) then s2.channelFails n rb 8 else (s2.wr (spareOn rb n) 0).wr (spareFor rb n) 0
    else s2
  else if (if rb then (s.ch n).s8badB else (s.ch n).s8badA) then (if first then s1.channelFails n rb slice else s1)
  else if s.on (spareOn rb n) && s.on (sparePerm rb n) then
    if s.rd (spareFor rb n) = slice then s1 else s1.channelFails n rb slice
  else ((s1.wr (spareOn rb n) 1).wr (spareFor rb n) slice).wr (sparePerm rb n) 1

/-! ### Framing (R148 to R150) -/

/-- A candidate of the sync window: its score and its distance from bit 64. -/
structure Cand where
  score : Nat
  dev : Int
deriving DecidableEq, Repr

/-- Whether a candidate ranks before another: higher score, then nearer bit 64, then earlier (R148). -/
def Cand.before (a b : Cand) : Bool :=
  b.score < a.score || (a.score == b.score && (a.dev.natAbs < b.dev.natAbs || (a.dev.natAbs == b.dev.natAbs && a.dev < b.dev)))

/-- The highest-ranked of a list. -/
def bestCand (l : List Cand) : Option Cand :=
  l.foldl (fun o c => match o with
    | none => some c
    | some b => if c.before b then some c else some b) none

/-- The candidates of the 25 scores of a window. -/
def candidates (thresh2 : Nat) (scores : List Nat) : List Cand :=
  ((List.zip (List.range 25) scores).filter fun p => thresh2 ≤ p.2).map fun p => ⟨p.2, (p.1 : Int) - 12⟩

/-- The primary and the secondary candidate (R148). -/
def syncSearch (thresh2 : Nat) (scores : List Nat) : Option Cand × Option Cand :=
  let l := candidates thresh2 scores
  let p := bestCand l
  (p, p.bind fun p => bestCand (l.filter fun c => 2 ≤ (c.dev - p.dev).natAbs))

/-- How an attempt is framed: at a candidate, or at the nominal position by flywheel. -/
structure Attempt where
  dev : Int
  fly : Bool
deriving DecidableEq, Repr

/-- The attempts of Table 04.1 that a sector gets, with CHN.CTL.ALT and FLY (R150). DESIGN CHOICE: with FLY 0, a missed mark and the primary
at the nominal position, attempt 1 is made there, as the rule's exception for a primary says, and it counts as a flywheel attempt; the
rule's last sentence would leave attempt 2 of the row alone, which Table 04.1 does not have there. -/
def attempts (found alt fly : Bool) (p q : Option Cand) : List Attempt :=
  let at_ := fun (c : Option Cand) => match c with
    | some c => [(⟨c.dev, false⟩ : Attempt)]
    | none => []
  let zero := fun (c : Option Cand) => c.any fun c => c.dev == 0
  let all :=
    if found then at_ p ++ at_ q ++ (if zero p || zero q then [] else [⟨0, true⟩])
    else (⟨0, true⟩ :: (if zero p then [] else at_ p))
  let some1 := if alt then all else all.take 1
  some1.filter fun a => !a.fly || fly || (zero p && !found)

/-! ### Equalizer sets and adaptation (R153, R157) -/

/-- What firmware last wrote to a set-0 tap of a head: tap or target coefficient `i` of 52. -/
def State.eqRefTap (s : State) (n : Fin 4) (h i : Nat) : Int :=
  sgn 16 (bits (tget 0 (s.ch n).eqRef (26 * h + i / 2)) (16 * (i % 2)) 16)

/-- A firmware write of word `w` of set `e` of a head, `d` = 8 h + e, put in force; in set 0 its taps have a new reference (R153, R157). -/
def State.eqPut (s : State) (n : Fin 4) (d w v : Nat) : State :=
  let s1 := s.wr (Fd.CHN_EQ_WORD n d w) v
  if d % 8 = 0 then s1.updCh n fun c => { c with eqRef := tset 0 c.eqRef (26 * (d / 8) + w) (v % 2 ^ 32) } else s1

/-- Whether the channel is in the middle of a sector: one is being sampled. -/
def State.midSector (s : State) (n : Fin 4) : Bool :=
  (s.eng n).begun.any fun b => b.isRead && (b.phase == ReadPhase.averaging || (b.phase == ReadPhase.inline && b.attempts == 0))

/-- A firmware write to an equalizer word: it waits for the channel's next sector boundary while a sector is being sampled (R153). -/
def State.eqWrite (s : State) (n : Fin 4) (d w v : Nat) : State :=
  if s.midSector n then s.updCh n fun c => { c with eqPend := c.eqPend.filter (fun p => p.1 != 26 * d + w) ++ [(26 * d + w, v)] }
  else s.eqPut n d w v

/-- A sector boundary of the channel: the firmware writes that wait for it are put in force, over an adaptation at the same boundary (R153, R157). -/
def State.eqBoundary (s : State) (n : Fin 4) : State :=
  (s.ch n).eqPend.foldl (fun t p => t.eqPut n (p.1 / 26) (p.1 % 26) p.2) (s.updCh n fun c => { c with eqPend := [] })

/-- Samples `dev` bits later, as a framing `dev` bits from nominal takes them. -/
def shifted (dev : Int) (l : List Int) : List Int := if 0 ≤ dev then l.drop dev.toNat else List.replicate dev.natAbs 0 ++ l

/-- Both readers' samples as a framing takes them. -/
def framed (g : Signal) (dev : Int) : Signal := ⟨shifted dev g.ra, shifted dev g.rb⟩

/-- The bounds of a set-0 tap of a head (R157). -/
def State.eqBounds (s : State) (n : Fin 4) (h i : Nat) : Int × Int :=
  let dev : Int := s.rd (Fd.CHN_EQBOUND_TAPDEV n)
  (s.eqRefTap n h i - dev, s.eqRefTap n h i + dev)

/-- What the rule makes of the 52 coefficients of set 0 over a sector read, and which of them it would move past its bound: free where the model
was not given the samples (R157). -/
def State.eqMoved (s : State) (n : Fin 4) (m : Media) (b : Begun) : List (Int × Bool) :=
  let h := s.selHead n
  match b.raw with
  | some g =>
    lmsSector (s.rd (Fd.CHN_EQBOUND_MU n)) (s.eqBounds n h) (s.detection n h 0 m.wgt (framed g b.frame) b.spans) (slotBits b.tp b.sector)
  | none =>
    (List.range 52).map fun i =>
      let v := s.eqSet n h 0 i + sgn 16 (bits s.freeVal (16 * i) 16)
      let q := s.eqBounds n h i
      (clampInt q.1 q.2 v, v < q.1 || q.2 < v)

/-- The controller's adaptation of set 0 of the selected head on a sector read; a coefficient that would move past its bound stays at it and is
pinned (R157). -/
def State.eqAdapt (s : State) (n : Fin 4) (m : Media) (b : Begun) : State :=
  if !s.on (Fd.CHN_CTL_ADAPT n) then s
  else
    let h := s.selHead n
    let l := s.eqMoved n m b
    let new := fun i => unsgn 16 ((l.getD i (0, false)).1)
    let s0 := if b.raw.isNone then s.tookFree else s
    let s1 := (List.range 26).foldl (fun t w => t.wr (Fd.CHN_EQ_WORD n (8 * h) w) (new (2 * w) + 65536 * new (2 * w + 1))) s0
    match (List.range 52).find? fun i => (l.getD i (0, false)).2 with
    | none => s1
    | some i =>
      let s2 := s1.wr (Fd.CHN_INT_PINNED n) 1
      if s.on (Fd.CHN_HCFG_PIN n h) then s2
      else (s2.wr (Fd.CHN_HCFG_PIN n h) 1).raise (.channel n) 0x11F5 3
        ([b2n ((s.eqBounds n h i).2 ≤ (l.getD i (0, false)).1), h] ++ leBytes 4 (new i) ++ leBytes 4 0xFFFFFFFF)

/-! ### Sampling (R136 to R138, R158) -/

/-- Asperities found on a reader: each span not yet known is counted for the head and joins the sector's (R158). -/
def State.addSpans (s : State) (n : Fin 4) (b : Begun) (l : List TaSpan) : State :=
  (l.filter fun p => !b.spans.contains p).foldl (fun t p =>
    (t.headCount n (Fd.CHN_HCNT1_TA n (tpHead b.tp))).updBegun n b fun c => { c with spans := addSpan p c.spans }) s

/-- Automatic gain over a sector's samples, each reader's frozen while an asperity erases it; without samples what it comes to is open (R138). -/
def State.agcStep (s : State) (n : Fin 4) (b : Begun) (g : Option Signal) : State :=
  let frozen := fun rb => b.spans.any fun p => p.rb == rb
  match g with
  | some g => (s.agcReader n false (frozen false) g.ra).agcReader n true (frozen true) g.rb
  | none =>
    if !s.on (Fd.CHN_AFE_AGC n) then s
    else s.tookFree.updCh n fun c =>
      { c with gainA := if frozen false then c.gainA else bits s.freeVal 0 8, gainB := if frozen true then c.gainB else bits s.freeVal 8 8 }

/-- A pass over a sector sampled: its codes where the readers' signal is given, its asperities, and the gain after it. A sampled pass ends a
run of unsampled ones (R136 to R138, R147, R158). -/
def State.sampled (s : State) (n : Fin 4) (b : Begun) (raw : Option Signal) : State :=
  let g := raw.map (s.codes n)
  let found := if !s.on (Fd.CHN_CTL_TAEN n) then [] else match g with
    | some g => s.taSpans n false (-64) g.ra ++ s.taSpans n true (-64) g.rb
    | none => []
  let s1 := (s.updBegun n b fun c => { c with raw := g, passes := 0 }).addSpans n b found
  s1.agcStep n { b with spans := found.foldl (fun l p => addSpan p l) b.spans } g

/-- A sector begun, as it now stands. -/
def State.again (s : State) (n : Fin 4) (b : Begun) : Begun := ((s.eng n).begun.find? fun c => c.slot == b.slot && c.tp == b.tp).getD b

/-! ### Recovery after the inline attempts (R116, R161 to R165) -/

/-- WHY of a sector that failed (R151). -/
def Begun.reason (b : Begun) : Nat := if b.badR71 then 2 else if !b.found then 0 else 1

/-- The slots of a closed group that nothing has decoded, begun or put down to be decoded yet join what the instruction decodes beyond its range
(R165). -/
def State.wantGroup (s : State) (n k : Fin 4) (tp : Nat) : State :=
  match s.place n tp with
  | none => s
  | some p =>
    if !s.groupClosed n (tpHead tp) p then s
    else
      let mine := s.begunOf n k
      s.updMedia n k fun m => { m with extra := m.extra ++ (p.groupTps (tpHead tp)).filter fun t =>
        !(m.seen.any fun q => q.1 == t) && !(mine.any fun b => b.tp == t) && !m.extra.contains t }

/-- Under TPR the result of a sector's decoding is noted for its group; a sector decoded for its group alone is done with (R165). -/
def State.noteSeen (s : State) (n : Fin 4) (m : Media) (b : Begun) (good : Bool) : State :=
  if m.kind ≠ .rds ∨ !m.tpr then s
  else
    let s1 := s.updMedia n b.slot fun m => { m with seen := m.seen.filter (fun q => q.1 != b.tp) ++ [(b.tp, good)] }
    let s2 := if b.extra then s1.dropBegun n fun c => c.slot == b.slot && c.tp == b.tp else s1
    if good then s2 else s2.wantGroup n b.slot b.tp

/-- The step after averaging and deep recovery: parity reconstruction where TPR asks for it, else failure with its reason (R116, R151). -/
def State.afterDeep (s : State) (n : Fin 4) (m : Media) (b : Begun) : State :=
  ((s.updBegun n b fun c => { c with
    found := b.found, badR71 := b.badR71, crcBad := b.crcBad, weight := b.weight
    phase := if m.kind = .rds ∧ m.tpr then .parity else .bad b.reason }).eqBoundary n).noteSeen n m b false

/-- Requests of pending sectors join the deep decoder's queue where it has places: 16, and 8 per channel (R163, R164). -/
def State.pushDeep (s : State) : State :=
  four.foldl (fun t n => (t.eng n).begun.foldl (fun u b =>
    if b.phase = ReadPhase.deep ∧ !(u.deep.any fun d => d.n == n && d.slot == b.slot && d.tp == b.tp) ∧ u.deep.length < 16 ∧
        (u.deep.countP fun d => d.n == n) < 8 then
      { u with deep := u.deep ++ [⟨n, b.slot, b.tp⟩] }
    else u) t) s

/-- The step after the averaging passes: deep recovery under DEEP (R164). -/
def State.afterAverage (s : State) (n : Fin 4) (m : Media) (b : Begun) : State :=
  if m.deep then
    (s.updBegun n b fun c => { c with phase := .deep, found := b.found, badR71 := b.badR71, crcBad := b.crcBad, weight := b.weight }).pushDeep
  else s.afterDeep n m b

/-- SUM of samples: for each bit RA's and RB's sum in 16 bits (Table 04.3). -/
def sumBytes (g : Signal) : List Nat :=
  (List.range 37000).flatMap fun i : Nat => leBytes 2 (unsgn 16 (sampleAt g.ra i)) ++ leBytes 2 (unsgn 16 (sampleAt g.rb i))

/-- The samples that SUM holds, from 64 bits before the slot on, divided by the passes summed, ties away from 0 (Table 04.3, R162). -/
def sumSamples (l : List Nat) (reads : Nat) : Signal :=
  let half := fun o : Nat => List.replicate 64 (0 : Int) ++ (List.range 37000).map fun i =>
    roundDiv (sgn 16 (leValue ((l.drop (4 * i + o)).take 2))) reads
  ⟨half 0, half 2⟩

/-- A pass's samples added to SUM. -/
def sumAdd (l : List Nat) (g : Signal) : List Nat :=
  let old := sumSamples l 1
  sumBytes ⟨List.zipWith (fun a b => a + b) old.ra (g.ra ++ List.replicate 37064 0),
    List.zipWith (fun a b => a + b) old.rb (g.rb ++ List.replicate 37064 0)⟩

/-- SUM of an entry of the sample store. -/
def State.sumOf (s : State) (n : Fin 4) (e : Nat) : List Nat := s.bytes (s.storeAddr n e) 148000

/-- A sector that fails inline is written to a free store entry, its samples at the framing of its first pass; what they are is free where the
model was not given them (R161). -/
def State.storeSector (s : State) (n : Fin 4) (b : Begun) (e : Nat) : State :=
  let l := (match b.raw with
      | some g => sumBytes (framed g b.frame)
      | none => leBytes 148000 s.freeVal) ++ List.replicate 15776 0 ++ leBytes 8 b.tp ++ [1, unsgn 8 b.frame, 1, 0] ++
    leBytes 2 b.weight ++ List.replicate 50 0
  (((if b.raw.isNone then s.tookFree else s).stored (s.storeAddr n e) l).updCh n fun c =>
    { c with store := c.store ++ [⟨e, b.slot, b.tp, 1, b.frame, b.weight, b.raw.isSome⟩] }).noteStored n

/-- A free entry of the sample store, which is in use only while STORE_EN is 1 (R160). -/
def State.freeEntry (s : State) (n : Fin 4) : Option Nat :=
  if s.on (Fd.CHN_CTL_STORE_EN n) then (List.range 64).find? fun e => !((s.ch n).store.any fun x => x.e == e) else none

/-- A pair that runs an attempt on a sector abandons it, or is done with it. -/
def State.freePair (s : State) (n : Fin 4) (b : Begun) : State :=
  s.updCh n fun c => { c with pairs := c.pairs.map fun o => if o = some (b.slot, b.tp) then none else o }

/-- A sector has failed every inline attempt (R151, R161). -/
def State.inlineFail (s0 : State) (n : Fin 4) (m : Media) (b : Begun) : State :=
  let s := s0.freePair n b
  let s1 := (s.headCount n (Fd.CHN_HCNT2_INLINE_FAIL n (tpHead b.tp))).updArch n b.slot fun a => { a with dec := false, sw := min b.weight 0xFFFF }
  let fresh := fun (t : State) (k : Nat) => t.updBegun n b fun c =>
    { c with again := k, attempts := 0, badR71 := false, crcBad := false, raw := none, spans := [] }
  if m.kind ≠ .rds ∨ (m.avg = 0 ∧ !m.deep) then s1.afterDeep n m b
  else if b.again = 1 then s1.afterDeep n m b
  else if 1 < b.again then fresh s1 (b.again - 1)
  else match s.freeEntry n with
    | some e =>
      let s2 := s1.storeSector n b e
      if 0 < m.avg then s2.updBegun n b fun c => { c with phase := .averaging } else s2.afterAverage n m b
    | none =>
      let s2 := s1.wr (Fd.CHN_INT_STOREFULL n) 1
      if 0 < m.avg then fresh s2 m.avg else s2.afterDeep n m b

/-- The oldest sector of an engine that stands in a phase, with its media instruction. -/
def State.oldest (s : State) (n : Fin 4) (p : Begun → Bool) : Option (Begun × Media) :=
  match (s.eng n).begun.find? fun b => b.isRead && p b with
  | none => none
  | some b => ((s.pslot n b.slot).media?).map fun m => (b, m)

/-- Whether a decode yields the sector that was addressed: it converged on a whole codeword, and a data sector passes the CRC, FORMAT and
ZONE checks (R71, R76). DESIGN CHOICE: a conventional sector whose write did not commit is never returned to the host (R35), and the model
has RDS find it as failing those checks. -/
def State.passes (s : State) (n : Fin 4) (m : Media) (b : Begun) (o : Decoded) : Bool :=
  o.converged && b.sector.whole &&
    (if b.parity then b.sector.parity
    else o.crcOk && b.sector.format % 256 == 1 && s.zoneFits n b && (m.kind != .rds || m.nox || b.extra || b.sector.committed))

/-- A decode of a slot from samples: its outcome, and the sector with the payload decoded. -/
def Begun.decoded (b : Begun) (r : Decode) : Decoded × Begun :=
  (r.o, { b with sector := if r.o.converged then { Sector.ofPayload b.parity r.payload with committed := b.sector.committed } else b.sector })

/-- What an attempt on a sector ends with, its framing given: decided by its samples where the model has them, else as it is told (R152, R155). -/
def State.attempt (s : State) (n : Fin 4) (m : Media) (b : Begun) (dev : Int) (glob total : Nat) (o : Decoded) : Decoded × Begun :=
  match b.raw with
  | none => (o, b)
  | some g => b.decoded ((s.detection n (tpHead b.tp) m.eqs m.wgt g b.spans).attempt b.tp dev glob total)

/-- A sector read: flags, SW and adaptation (R89, R156, R157). -/
def State.sectorRead (s : State) (n : Fin 4) (m : Media) (b : Begun) (o : Decoded) (deep : Bool) : State :=
  let s1 := ((s.freePair n b).updBegun n b fun c => { c with phase := .good deep, weight := o.weight, sector := b.sector }).updArch n b.slot fun a =>
    { a with dec := true, sw := min o.weight 0xFFFF }
  ((s1.eqAdapt n m b).eqBoundary n).noteSeen n m b true

/-- A decode that did not yield the sector: whether one has converged and failed R71, and whether this one failed the CRC or FORMAT checks. -/
def Begun.failedBy (b : Begun) (o : Decoded) : Begun :=
  let conv := o.converged && b.sector.whole
  { b with badR71 := b.badR71 || conv, crcBad := if conv then !o.crcOk || b.sector.format % 256 != 1 else b.crcBad, weight := o.weight }

/-- A pass over a sector is framed: SYN, and SYNC_MISS for a missed mark (R149, R168). -/
def State.frameSector (s : State) (n : Fin 4) (b : Begun) (found : Bool) (dev : Int) : State :=
  let s1 := (s.updBegun n b fun b => { b with found := found, frame := dev }).updArch n b.slot fun a => { a with syn := found }
  if found then s1 else s1.headCount n (Fd.CHN_HCNT0_SYNC_MISS n (tpHead b.tp))

/-- The framing of a pass: its candidates, whether its mark is found, and where the first attempt frames it (R148, R149). -/
structure Framing where
  p : Option Cand
  q : Option Cand
  found : Bool
  dev : Int

/-- The framing that the 25 scores of a sync window give. -/
def State.framing (s : State) (n : Fin 4) (scores : List Nat) : Framing :=
  let pq := syncSearch (s.rd (Fd.CHN_SYNC_THRESH2 n)) scores
  let found := pq.1.any fun c => s.rd (Fd.CHN_SYNC_THRESH n) ≤ c.score
  ⟨pq.1, pq.2, found, if found then (pq.1.map Cand.dev).getD 0 else 0⟩

/-- The scores of a pass: of its samples where the model has them, else as told (R148). -/
def State.scoresOf (s : State) (n : Fin 4) (m : Media) (b : Begun) (scores : List Nat) : List Nat :=
  match b.raw with
  | none => scores
  | some g => (s.detection n (tpHead b.tp) m.eqs m.wgt g b.spans).scores

/-- The sectors of an engine on which an attempt is still to end inline, oldest first, those that other pairs run left out. -/
def State.waiting (s : State) (n : Fin 4) (pair : Nat) : List Begun :=
  (s.eng n).begun.filter fun b => b.isRead && b.phase == ReadPhase.inline &&
    !((s.ch n).pairs.eraseIdx pair).contains (some (b.slot, b.tp))

/-- The sector that a pair takes: attempt 1 of the oldest sampled sector that waits for it, else the next attempt of the oldest that has one; `all`:
the newest begun may have been sampled as well (R154). -/
def State.pairTakes (s : State) (n : Fin 4) (pair : Nat) (all : Bool) : Option Begun :=
  let l := s.waiting n pair
  let last := (s.eng n).begun.getLast?
  (l.find? fun b => b.attempts == 0 && (all || last != some b)).orElse fun _ => l.find? fun b => b.attempts != 0

/-- The sector on which a pair's attempt ends: the one it holds, else the one it takes (R154). -/
def State.pairOn (s : State) (n : Fin 4) (pair : Nat) : Option Begun :=
  match (s.ch n).pairs.getD pair none with
  | some t => ((s.eng n).begun.find? fun b => b.slot == t.1 && b.tp == t.2 && b.isRead && b.phase == ReadPhase.inline).orElse fun _ =>
      s.pairTakes n pair true
  | none => s.pairTakes n pair true

/-- A pair whose attempt has ended takes its next one at once where one waits (R154). -/
def State.pairNext (s : State) (n : Fin 4) (pair : Nat) : State :=
  let t := (s.pairTakes n pair false).map fun b => (b.slot, b.tp)
  s.updCh n fun c => { c with pairs := c.pairs.set pair t }

/-- An attempt of Table 04.1 on a sector that has been framed ends (R150, R151, R156). -/
def State.attemptEnds (s : State) (n : Fin 4) (m : Media) (b : Begun) (f : Framing) (o : Decoded) : State :=
  let l := attempts f.found (s.on (Fd.CHN_CTL_ALT n)) (s.on (Fd.CHN_CTL_FLY n)) f.p f.q
  match l[b.attempts]? with
  | none => s.inlineFail n m b
  | some a =>
    let r := s.attempt n m b a.dev (s.rd (Fd.CHN_DEC_GLOBAL n)) (s.rd (Fd.CHN_DEC_TOTAL n)) o
    let s2 := s.updBegun n b fun c => { c with attempts := c.attempts + 1, weight := r.1.weight }
    if s.passes n m r.2 r.1 then
      let h := tpHead b.tp
      let s3 := if a.fly then s2.headCount n (Fd.CHN_HCNT0_FLY_OK n h) else s2
      let s4 := if f.found ∧ 1 ≤ b.attempts then s3.headCount n (Fd.CHN_HCNT1_ALT_OK n h) else s3
      s4.sectorRead n m r.2 r.1 false
    else
      let c := r.2.failedBy r.1
      if b.attempts + 1 < l.length then
        s2.updBegun n b fun x => { x with badR71 := c.badR71, crcBad := c.crcBad, sector := if c.crcBad || c.badR71 then c.sector else x.sector }
      else s2.inlineFail n m c

/-- DECODE_ATTEMPT_DONE (R148 to R151, R154, R156): the attempt that a pair runs ends; the first on a sector finds it sampled and framed, and one
with more than 2,048 bits erased fails without any (R158). -/
def execDecodeAttemptDone (n : Fin 4) (pair : Fin 2) (scores : List Nat) (o : Decoded) (raw : Option Signal) (s : State) :
    Host.Outcome State Fault Refusal :=
  match s.pairOn n pair.val with
  | none => .next s
  | some b =>
    match (s.pslot n b.slot).media? with
    | none => .next s
    | some m =>
      let s1 := if b.attempts = 0 then s.sampled n b raw else s
      let b1 := s1.again n b
      if b.attempts = 0 ∧ 2048 < covered (-64) b1.spans then
        let y := { b1 with found := true, badR71 := false }
        .next (((s1.inlineFail n m y).pairNext n pair.val).drainAll n)
      else
        let f := s1.framing n (s1.scoresOf n m b1 scores)
        let s2 := if b.attempts = 0 then s1.frameSector n b f.found f.dev else s1
        .next (((s2.attemptEnds n m (s2.again n b) f o).pairNext n pair.val).drainAll n)

/-- INLINE_DEADLINE (R149, R154): the oldest sector still undecided fails inline; one that no attempt has ended on is framed by its scores. -/
def execInlineDeadline (n : Fin 4) (scores : List Nat) (s : State) : Host.Outcome State Fault Refusal :=
  match s.oldest n fun b => b.phase == ReadPhase.inline with
  | none => .next s
  | some (b, m) =>
    let f := s.framing n scores
    let s1 := if b.attempts = 0 then s.frameSector n b f.found f.dev else s
    .next ((s1.inlineFail n m (s1.again n b)).drainAll n)

/-- TA_DETECT (R158): a stretch of a reader's codes over the slot being sampled, the first at bit `first`; the asperities in it are counted and
erased, and spans that cover more than 2,048 bits together fail the sector inline with WHY 1, without any attempt. -/
def execTaDetect (n : Fin 4) (rb : Bool) (codes : List Int) (first : Int) (s : State) : Host.Outcome State Fault Refusal :=
  if !s.on (Fd.CHN_CTL_TAEN n) then .next s
  else
    let l := s.taSpans n rb first codes
    match (s.eng n).begun.reverse.find? fun b => b.isRead && b.phase == ReadPhase.inline && b.attempts == 0 with
    | none => .next (l.foldl (fun t _ => t.headCount n (Fd.CHN_HCNT1_TA n (s.selHead n))) s)
    | some b =>
      let s1 := s.addSpans n b l
      let y := { s1.again n b with found := true, badR71 := false }
      match (s1.pslot n b.slot).media? with
      | none => .next s1
      | some m => if covered (-64) y.spans ≤ 2048 then .next s1 else .next ((s1.inlineFail n m y).drainAll n)

/-- A sector is unsampled on one pass: it is taken on its next one, its samples and spans of this pass gone; the third in a row makes it a decode
failure with WHY 0 (R147). -/
def State.unsampled (s : State) (n : Fin 4) (m : Media) (b : Begun) : State :=
  let s1 := ((s.headCount n (Fd.CHN_HCNT2_UNSAMPLED n (tpHead b.tp))).updBegun n b fun c =>
    if b.phase = ReadPhase.inline then { c with passes := c.passes + 1, spans := [], raw := none } else { c with passes := c.passes + 1 }).eqBoundary n
  if b.passes + 1 < 3 then s1 else s1.afterDeep n m { b with found := false, badR71 := false }

/-- RAW's next slot is unsampled on one pass; the third in a row ends RAW with code 0x0A (R147). -/
def State.unsampledRaw (s : State) (n k : Fin 4) (m : Media) : State :=
  let s1 := (s.headCount n (Fd.CHN_HCNT2_UNSAMPLED n (tpHead m.next))).updMedia n k fun m => { m with passes := m.passes + 1 }
  if m.passes + 1 < 3 then s1 else s1.endWith n k 0x0A

/-- The pending sector with the fewest passes summed, the first of them (R162). -/
def State.averaged (s : State) (n : Fin 4) : Option Begun :=
  let reads := fun b : Begun => (((s.ch n).store.find? fun e => e.slot == b.slot && e.tp == b.tp).map StoreEntry.reads).getD 0
  ((s.eng n).begun.filter fun b => b.phase == ReadPhase.averaging).foldl (fun o b => match o with
    | none => some b
    | some c => if reads b < reads c then some b else some c) none

/-- UNSAMPLED_SECTOR (R147): the oldest sector that waits for its samples, the averaging pass due, or RAW's next slot, was unsampled on this
pass. -/
def execUnsampledSector (n : Fin 4) (avg : Bool) (s : State) : Host.Outcome State Fault Refusal :=
  let b := if avg then s.averaged n else (s.oldest n fun b => b.phase == ReadPhase.inline && b.attempts == 0).map Prod.fst
  match b with
  | some b =>
    match (s.pslot n b.slot).media? with
    | none => .next s
    | some m => .next ((s.unsampled n m b).drainAll n)
  | none =>
    match s.runner n with
    | none => .next s
    | some k =>
      match (s.pslot n k).media? with
      | none => .next s
      | some m => if m.kind ≠ .raw then .next s else .next (s.unsampledRaw n k m)

/-- A decode from the sample store, at the alignment its entry has, with a budget: by its samples where the model knows them, else as told
(R155, R162, R163). -/
def State.storeAttempt (s : State) (n : Fin 4) (m : Media) (b : Begun) (e : StoreEntry) (glob total : Nat) (o : Decoded) : Decoded × Begun :=
  if e.known then
    (s.attempt n m { b with raw := some (sumSamples (s.sumOf n e.e) e.reads), frame := 0 } 0 glob total o)
  else (o, { b with raw := none })

/-- AVERAGING_PASS (R162): the pending sector with the fewest passes is sampled again, framed, and decoded on its sum; with STORE_EN 0 the store is
not in use, and the sector takes no further pass (R160). -/
def execAveragingPass (n : Fin 4) (scores : List Nat) (o : Decoded) (raw : Option Signal) (s : State) : Host.Outcome State Fault Refusal :=
  match s.averaged n with
  | none => .next s
  | some b =>
    match (s.pslot n b.slot).media?, (s.ch n).store.find? fun e => e.slot == b.slot && e.tp == b.tp with
    | some m, some e =>
      if !s.on (Fd.CHN_CTL_STORE_EN n) then .next ((s.afterDeep n m b).drainAll n)
      else
        let s0 := s.sampled n b raw
        let f := s0.framing n (s0.scoresOf n m (s0.again n b) scores)
        let s1 := (s0.frameSector n b f.found f.dev).updBegun n b fun c => { c with found := b.found, frame := b.frame, raw := b.raw }
        let a := s.storeAddr n e.e
        let g := (s0.again n b).raw
        let sum := match g with
          | some g => sumAdd (s.sumOf n e.e) (framed g f.dev)
          | none => leBytes 148000 s1.freeVal
        let y := { e with reads := e.reads + 1, known := e.known && g.isSome }
        let s2 := ((if g.isNone then s1.tookFree else s1).stored a sum).stored (a + 0x27FC8) [y.reads]
        let b1 := s2.again n b
        let r := s2.storeAttempt n m b1 y (s.rd (Fd.CHN_DEC_GLOBAL n)) (s.rd (Fd.CHN_DEC_TOTAL n)) o
        let z := { y with sw := min e.sw r.1.weight }
        let s3 := (s2.stored (a + 0x27FCC) (leBytes 2 z.sw)).updCh n fun c => { c with store := c.store.map fun x => if x.e = e.e then z else x }
        if s.passes n m r.2 r.1 then .next ((s3.sectorRead n m r.2 r.1 false).drainAll n)
        else
          let c := r.2.failedBy r.1
          let s4 := ((s3.updBegun n b fun x => { x with weight := c.weight, badR71 := c.badR71, crcBad := c.crcBad, sector := c.sector }).updArch n
            b.slot fun a => { a with dec := false, sw := min r.1.weight 0xFFFF }).eqBoundary n
          if y.reads ≤ m.avg then .next s4 else .next ((s4.afterAverage n m { c with frame := b.frame, raw := b.raw }).drainAll n)
    | _, _ => .next s

/-! ### The deep-recovery decoder (R163, R164) -/

/-- DEEP_REQUEST_TAKE (R163): the oldest request is taken. -/
def execDeepRequestTake (s : State) : Host.Outcome State Fault Refusal :=
  if s.on Fd.DEEP_DCTL_EN && !s.on Fd.DEEP_DSTATUS_BUSY && s.deep != [] && s.takesWork .deep then .next (s.wr Fd.DEEP_DSTATUS_BUSY 1) else .next s

/-- DEEP_DECODE_DONE (R164): the request is finished; a channel that held requests takes the free place. -/
def execDeepDecodeDone (o : Decoded) (s : State) : Host.Outcome State Fault Refusal :=
  match s.deep with
  | [] => .next s
  | d :: l =>
    if !s.on Fd.DEEP_DSTATUS_BUSY then .next s
    else
      let s1 := ({ s with deep := l }.wr Fd.DEEP_DSTATUS_BUSY 0).bump Fd.DEEP_DDONE_COUNT
      match s.oldest d.n fun b => b.slot == d.slot && b.tp == d.tp with
      | none => .next s1.pushDeep
      | some (b, m) =>
        match (s.ch d.n).store.find? fun e => e.slot == b.slot && e.tp == b.tp with
        | none => .next (((s1.afterDeep d.n m b).drainAll d.n).pushDeep)
        | some e =>
          if !s.on (Fd.CHN_CTL_STORE_EN d.n) then .next (((s1.afterDeep d.n m b).drainAll d.n).pushDeep)
          else
            let r := s1.storeAttempt d.n m b e (s.rd Fd.DEEP_DCTL_GLOBAL) (s.rd Fd.DEEP_DCTL_ITER) o
            if s.passes d.n m r.2 r.1 then .next (((s1.sectorRead d.n m r.2 r.1 true).drainAll d.n).pushDeep)
            else
              let c := r.2.failedBy r.1
              let s2 := (s1.updBegun d.n b fun x => { x with weight := c.weight, sector := c.sector }).updArch d.n b.slot fun a =>
                { a with dec := false, sw := min r.1.weight 0xFFFF }
              .next (((s2.afterDeep d.n m c).drainAll d.n).pushDeep)

/-! ### Track-parity reconstruction (R165) -/

/-- A sector's payload as the other sectors of its group give it: computed where the model has all of them, else as found, its CRC as told
(R75, R165). -/
def State.reconstructed (s : State) (n : Fin 4) (m : Media) (b : Begun) (p : Place) (crcOk : Bool) : Bool × Sector :=
  let g := p.groupTps (tpHead b.tp)
  let pos := (List.range g.length).zip g
  let lost := pos.filter fun q => m.seen.any fun x => x.1 == q.2 && !x.2
  let kept := pos.filter fun q => !lost.contains q
  match (lost.find? fun q => q.2 == b.tp), kept.mapM fun q => (s.sectorAt n q.2).map fun x => (p.power q.1, x.payload) with
  | some i, some l =>
    let other := (lost.find? fun q => q.2 != b.tp).map fun q => p.power q.1
    let pay := rsErased (p.power i.1) other l
    (payloadCrc pay, { Sector.ofPayload false pay with committed := b.sector.committed })
  | _, _ => (crcOk, b.sector)

/-- TRACK_PARITY_RECONSTRUCT (R165): the group of the oldest failed sector. A closed one with at most two failed sectors, each sector of it
decoded or failed, yields the sector's payload; another yields nothing, and its sectors stay failed. -/
def execTrackParityReconstruct (n : Fin 4) (crcOk : Bool) (s : State) : Host.Outcome State Fault Refusal :=
  match s.oldest n fun b => b.phase == ReadPhase.parity with
  | none => .next s
  | some (b, m) =>
    match s.place n b.tp with
    | none => .next s
    | some p =>
      let g := p.groupTps (tpHead b.tp)
      let mates := (s.eng n).begun.filter fun c => c.slot == b.slot && c.phase == ReadPhase.parity && g.contains c.tp
      let failed := g.countP fun t => m.seen.any fun q => q.1 == t && !q.2
      let miss := g.filter fun t => !(m.seen.any fun q => q.1 == t)
      let fail := fun (t : State) (c : Begun) => t.updBegun n c fun x => { x with phase := .bad x.reason }
      let s0 := s.updMedia n b.slot fun m => { m with extra := m.extra.filter fun t => !g.contains t }
      if !s.groupClosed n (tpHead b.tp) p ∨ 2 < failed then .next ((mates.foldl fail s0).drainAll n)
      else if miss ≠ [] then
        if m.ending.isNone ∨ (s.begunOf n b.slot).any fun c => miss.contains c.tp then .next s else .next ((mates.foldl fail s0).drainAll n)
      else
        let r := s.reconstructed n m b p crcOk
        let c := { b with sector := { r.2 with whole := true } }
        if s.passes n m c ⟨true, r.1, b.weight⟩ then
          .next (((s0.updBegun n b fun x => { x with phase := .good false, sector := c.sector }).updArch n b.slot fun a => { a with dec := true }).drainAll n)
        else .next ((fail s0 b).drainAll n)

/-! ### The bank clock (R142 to R147) -/

/-- BLK_NOT_REGAINED (R112, R147): the instruction that needs the bank clock ends with code 0x0A. -/
def execBlkNotRegained (n : Fin 4) (s : State) : Host.Outcome State Fault Refusal :=
  if s.blk n then .next s
  else match s.runner n with
    | none => .next s
    | some k =>
      match (s.pslot n k).op with
      | some .head | some .seek | some .follow => .next (s.opEndsWith n k 0x0A)
      | some .skipto => .next (s.opEndsWith n k 0x0A)
      | some (.media _) =>
        let s1 := s.dropBegun n fun b => b.slot == k && b.isRead
        .next (s1.endWith n k 0x0A)
      | _ => .next s

end Sys2Proof.Machine
end

