-- ==== Sys2Proof/Machine/WritePath.lean ====
section
/-! DEFINITION. The start of sectors by the media instructions (R113 to R126), the write pair, arming and the read-behind check (05). -/

namespace Sys2Proof.Machine

/-! ### Starting a sector to read (R114, R116, R119, R125) -/

/-- Whether the sectors that other instructions wrote are still undecided. -/
def State.undecidedWrite (s : State) (n : Fin 4) : Bool := (s.eng n).begun.any fun b => !b.isRead

/-- Whether a sector of a slot on another track waits for a further pass, which keeps the instruction on that track (R162). -/
def State.tiedTo (s : State) (n k : Fin 4) (tp : Nat) : Bool :=
  (s.begunOf n k).any fun b => b.phase == ReadPhase.averaging && b.tp / 2048 != tp / 2048

/-- A sector as a media instruction begins it at a slot. TP moves to the next data slot when it commits (R85). DESIGN CHOICE: after the last
data slot of the surface, where no next one exists, TP stays at the sector. -/
def State.newBegun (s : State) (n k : Fin 4) (kind : MediaKind) (tp : Nat) (parity : Bool) (zone : Option Nat) (x : Sector) : Begun :=
  { slot := k, tp := tp, kind := kind, parity := parity, zone := zone, sector := x, written := kind != .wrs, phase := .inline, attempts := 0
    badR71 := false, found := false, frame := 0, weight := 0, passes := 0, spans := [], again := 0, nx := (s.nextSlot n false tp).getD tp
    crcBad := false, extra := false, raw := none }

/-- A media instruction has started its slot at `tp`, and `next` is the one it starts after it. -/
def Media.started (m : Media) (tp next : Nat) (data : Bool) : Media :=
  { m with next := next, left := if data then m.left - 1 else m.left, waited := false, passes := 0, extra := m.extra.filter (· != tp)
           positioned := m.positioned && next / 2048 == tp / 2048 }

/-- A sector begun by a media instruction at a sector boundary: FEN and the counts (R90, R114, R153). -/
def State.begin (s : State) (n k : Fin 4) (b : Begun) (next : Nat) (data : Bool) : State :=
  (((s.eqBoundary n).updEng n fun r => { r with begun := r.begun ++ [b] }).updMedia n k fun m => m.started b.tp next data).updArch n k
    fun a => { a with fen := false }

/-- Where a read stands once no slot of the surface is left to it. DESIGN CHOICE: position 2^38, which SCAN gives TP when it has scanned the last
data slot of the surface, and RAW when it has captured its last slot (R125, R126). -/
def offSurface : Nat := 2 ^ 38

/-- A read starts its next sector. -/
def State.startRead (s : State) (n k : Fin 4) (m : Media) : State :=
  if s.undecidedWrite n || s.tiedTo n k m.next then s
  else
    let buf := (s.pslot n k).arch.buf (s.begunOf n k).length
    if m.buffered && buf.isNone then s.endWith n k 0x11
    else if m.buffered && buf.any (fun p => 255 < p.2) then s.endWith n k 0x0E
    else
      let x := s.found n m.next
      let s1 := if (s.sectorAt n m.next).isNone then s.tookFree else s
      let s2 := if m.buffered then s1.ctxUpd ((buf.map Prod.fst).getD 0) fun c => { c with begun := true } else s1
      s2.begin n k (s.newBegun n k m.kind m.next false none x) ((s.nextSlot n false m.next).getD offSurface) true

/-- Under TPR a read starts a slot of a failed sector's group beyond its range, which it will not commit (R165). -/
def State.startExtra (s : State) (n k : Fin 4) (m : Media) (p : Place) : State :=
  if s.undecidedWrite n || s.tiedTo n k m.nextTp then s
  else
    let x := s.found n m.nextTp
    let s1 := if (s.sectorAt n m.nextTp).isNone then s.tookFree else s
    s1.begin n k { s.newBegun n k m.kind m.nextTp (p.kind == .parity) none x with extra := true } m.next false

/-- RAW captures its next slot, 74,000 bytes of converted codes: of the readers' signal where it is given, else free. Its Sluice channel carries
them (R126, R166, Table 13.6). -/
def State.captureRaw (s : State) (n k : Fin 4) (m : Media) (raw : Option Signal) : State :=
  if !s.on Fd.SLC_CTL_EN then s
  else
    let bytes := match raw.map (s.codes n) with
      | some g => (List.range 37000).flatMap fun i : Nat => [unsgn 8 (sampleAt g.ra i), unsgn 8 (sampleAt g.rb i)]
      | none => leBytes 74000 s.freeVal
    let (s1, ok) := ((if raw.isNone then s.tookFree else s).eqBoundary n).store (m.base + 74000 * m.k) bytes
    if !ok then s1.endWith n k 0x0E
    else
      ((s1.updMedia n k fun m =>
        { m with k := m.k + 1, left := m.left - 1, passes := 0, next := (s.nextRaw n m.next).getD offSurface }).updArch n k fun a =>
          { a with fen := false }).settleMedia n k

/-! ### Starting a sector to write (R120 to R122, R172, R177) -/

/-- The sector being written ends: the next slot of the run follows it, or the pair goes idle. -/
def State.lastBit (s : State) (n : Fin 4) : State :=
  match (s.eng n).begun.find? fun b => !b.isRead && !b.written with
  | none => s
  | some b => (s.updBegun n b fun b => { b with written := true }).updSector n b.tp fun x => { x with whole := true }

/-- The pair carries a sector: it is laid down at its slot, and later shingled tracks are lost (R60, R171 to R177). -/
def State.startSector (s : State) (n k : Fin 4) (p : Place) (m : Media) (x : Sector) (zone : Option Nat) : State :=
  let laid := s.layOut n m.next p x
  let s1 := (((s.lastBit n).shingle n m.next p).layDown n m.next x).wr (Fd.CHN_WSTAT_WRITING n) 1
  (s1.updCh n fun c => { c with assist := .write, wmodeFailed := false, armOk := false, laid := some laid }).begin n k
    (s.newBegun n k .wrs m.next x.parity zone x) ((s.nextSlot n true m.next).getD offSurface) (!x.parity)

/-- The buffer of the next data sector of a WRS: after those begun and not committed. -/
def State.nextWriteBuf (s : State) (n k : Fin 4) : Option (Nat × Nat) :=
  (s.pslot n k).arch.buf ((s.begunOf n k).countP fun b => !b.parity)

/-- A WRS starts the data sector of its next slot: its buffer, its data in the write buffer, and the zone unit's acceptance (R120, R121). -/
def State.startData (s : State) (n k : Fin 4) (p : Place) (m : Media) : State :=
  match s.nextWriteBuf n k with
  | none => s.endWith n k 0x11
  | some (c, i) =>
    if 255 < i then s.endWith n k 0x0E
    else match (s.ch n).wbuf.find? fun w => w.ctx == c && w.sect == i with
    | none => if m.waited then s.endWith n k 0x07 else s.updMedia n k fun m => { m with waited := true }
    | some w =>
      match s.acceptSector n k m.next with
      | (s1, .wait) => s1
      | (s1, .no) => s1.endWith n k 0x06
      | (s1, .yes zone seq range) =>
        (((s1.holdParity n m.next).ctxUpd c fun x => { x with begun := true }).startSector n k p m
          ⟨w.data, w.md, zone.getD 0xFFFFFFFF, seq, range, zone.isNone, false, false, false, 1⟩ zone)

/-- A WRS starts its next sector, data or parity, not inhibited, in a run or as the first of one whose WMODE write has been acknowledged; a slot
whose first bits have underflowed is left for its next pass (R22, R120, R122, R177, R178). -/
def State.startWrite (s : State) (n k : Fin 4) (p : Place) (m : Media) : State :=
  match s.inhibit? n with
  | some c => (s.wr (Fd.CHN_WSTAT_CAUSE n) c).endWith n k (stopCode c)
  | none =>
    if (s.ch n).underflow then s.updCh n fun c => { c with underflow := false }
    else if (s.eng n).begun.any (fun b => b.slot != k) || !(s.writing n || (s.ch n).armOk) then s
    else if p.kind = .parity then
      let s1 := s.holdParity n m.next
      s1.startSector n k p m (s1.paritySector n m.next p) none
    else s.startData n k p m

/-- Whether the instruction of a slot starts no further sector: a lower-numbered slot is ready, or the engine is stopping its slots (R93, Table
03.12). -/
def State.mustYield (s : State) (n k : Fin 4) : Bool :=
  !s.engRuns n || four.any fun j => j < k && (s.pslot n j).st == .ready && !(s.pslot n j).intr

/-- Whether a media instruction has a slot left to start. -/
def State.hasNext (s : State) (n : Fin 4) (m : Media) : Bool := m.left != 0 || s.parityDue n m || m.extra != []

/-- Whether the read-behind of a WRS's last sectors on the track it stands on is still to be decided before it moves to another (R115). -/
def State.trackOpen (s : State) (n k : Fin 4) (m : Media) : Bool :=
  m.kind == .wrs && (s.begunOf n k).any fun b => b.tp / 2048 != m.next / 2048

/-- A media instruction that stands on its target starts its next slot. -/
def State.startNext (s : State) (n k : Fin 4) (p : Place) (m : Media) (raw : Option Signal) : State :=
  match m.kind with
  | .wrs => s.startWrite n k p m
  | .raw => s.captureRaw n k m raw
  | _ => if m.left = 0 then s.startExtra n k m p else s.startRead n k m

/-- SECTOR_START (R113 to R115): the instruction that owns the actuator starts its next sector, positions first where it does not follow its
target, or, for SKIPTO, has reached its slot; `raw` is what the readers deliver over a slot that RAW captures, where it is known. -/
def execSectorStart (n : Fin 4) (raw : Option Signal) (s : State) : Host.Outcome State Fault Refusal :=
  match s.runner n with
  | none => .next s
  | some k =>
    let x := s.pslot n k
    match x.op, x.aim with
    | some .skipto, some (t, set) =>
      if !s.movable n then .next (s.complete n k fun a => a.setCode 0x08)
      else if s.follows n t set then .next (s.complete n k fun a => a.setCode 0) else .next (s.position n k)
    | some (.media m), some (t, set) =>
      if m.ending.isSome || x.stopReq || !s.hasNext n m || s.mustYield n k || s.trackOpen n k m then .next s
      else match s.place n m.nextTp with
        | none => if m.left = 0 then .next (s.updMedia n k fun m => { m with extra := m.extra.drop 1 }) else .next (s.endWith n k 0x08)
        | some p =>
          if !s.movable n then .next (s.endWith n k 0x08)
          else if !s.follows n t set then .next (s.position n k)
          else .next ((s.notePlace n k true).startNext n k p { m with positioned := true } raw)
    | _, _ => .next s

/-! ### The write pair (R174, R177 to R179) -/

/-- The arming edge: WARM is 1, preheat begins, and the profile acknowledged last gives the run its times (R177, R181). -/
def State.armEdge (s : State) (n : Fin 4) : State :=
  (((s.wr (Fd.CHN_WSTAT_ARMED n) 1).wr (Fd.ARM_STATUS_WARM n) 1).updCh n fun c =>
    { c with assist := .preheat, preNs := c.profAcked.getD 2 0, tailNs := c.profAcked.getD 5 0 }).updPreamp n Preamp.armed

/-- Whether a WRS of a slot may arm for its next run: it stands on its target with a sector to write, the pair is idle, and no earlier arming
stands or is being taken back (R177, R201). -/
def State.mayArm (s : State) (n k : Fin 4) (m : Media) : Bool :=
  m.kind == .wrs && m.ending.isNone && !(s.pslot n k).stopReq && s.hasNext n m && s.standing n k && !s.writing n && !(s.ch n).armOk && !s.disarming n

/-- WMODE_ARM (R177, R178, R203): the WMODE write is sent, `fails` of its two tries without a valid acknowledgement; one that comes after the
run's first bit is `late`. The run may start only with a timely one; else the pair stays idle and WARM = 0 follows, and the second failure
ends WRS with code 0x0F. -/
def execWmodeArm (n : Fin 4) (late : Bool) (fails : Fin 3) (s : State) : Host.Outcome State Fault Refusal :=
  match s.runner n with
  | none => .next s
  | some k =>
    match (s.pslot n k).media? with
    | none => .next s
    | some m =>
      if !s.mayArm n k m then .next s
      else
        let s1 := if fails.val = 0 then s else s.count (Fd.ARM_ERRCNT_RETRY n) 1
        let s2 := if fails.val < 2 then s1.armEdge n else s1.linkErr n false 0x009 false
        if fails.val < 2 ∧ !late then .next (s2.updCh n fun c => { c with armOk := true })
        else
          let s3 := (s2.updCh n fun c => { c with assist := .off }).sendDisarm n
          if (s.ch n).wmodeFailed then .next ((s3.updCh n fun c => { c with wmodeFailed := false }).endWith n k 0x0F)
          else .next (s3.updCh n fun c => { c with wmodeFailed := true })

/-- RUN_END_IDLE (R172, R179): the last pad bit of a run has been written and the pair is idle. -/
def execRunEndIdle (n : Fin 4) (s : State) : Host.Outcome State Fault Refusal :=
  if s.writing n then .next ((s.lastBit n).idlePair n) else .next s

/-- ASSIST_TAIL_END (R179): the element is off, and WARM = 0 is sent. -/
def execAssistTailEnd (n : Fin 4) (s : State) : Host.Outcome State Fault Refusal :=
  if (s.ch n).assist = .tail then .next ((s.updCh n fun c => { c with assist := .off }).sendDisarm n) else .next s

/-! ### The read-behind check (R188 to R191) -/

/-- Whether the check of a written sector passes (Table 05.4). -/
def State.readBehindOk (s : State) (n : Fin 4) (o : ReadBehind) : Bool :=
  o.whole && o.aligned && o.markDev ≤ s.rd (Fd.CHN_RBCHK_MARKTOL n) && s.rd (Fd.CHN_SYNC_THRESH n) ≤ o.score &&
    o.weight ≤ s.rd (Fd.CHN_RBCHK_SWMAX n) && o.span ≤ 16 * s.rd (Fd.CHN_RBCHK_TAMAX n)

/-- A weight joins the assist loop's window, with the zone of its sector (R182, R183). -/
def State.loopWeight (s : State) (n : Fin 4) (w : Nat) (zone : Option Nat) : State :=
  if s.on (Fd.CHN_WCTL_ALOOP_EN n) && (s.ch n).loopOn then
    s.updCh n fun c => { c with loopN := c.loopN + 1, loopSum := c.loopSum + w, loopZone := zone }
  else s

/-- A written sector passes its check and commits (R96, R190, R301). -/
def State.commitWrite (s : State) (n k : Fin 4) (b : Begun) (w : Nat) : State :=
  let s1 := ((((s.dropBegun n fun c => c.slot == k && c.tp == b.tp).updSector n b.tp fun x => { x with committed := true }).runParity n b).loopWeight n
    w ((s.zoneAt n b.tp).map Prod.fst)).updArch n k fun a => { a with rbk := true, sw := min w 0xFFFF }
  if b.parity then s1.settleMedia n k
  else
    let s2 := match b.zone with
      | none => s1
      | some id => s1.zoneCommit id b.sector.seq
    let buf := (s2.pslot n k).arch.headBuf
    let s3 := match buf with
      | none => s2
      | some (c, i) => s2.updCh n fun y => { y with wbuf := y.wbuf.filter fun x => x.ctx != c || x.sect != i }
    ((s3.commitData n k b true).committed n k).settleMedia n k

/-- The VOID record of a data sector of a run that was written whole and does not commit (R324). -/
def State.voidOf (s : State) (n : Fin 4) (b : Begun) : List JBody :=
  match b.zone, s.zoneAt n b.tp with
  | some id, some (_, _, d) => if b.parity || b.isRead then [] else [⟨0x04, 0, id, d, b.sector.seq⟩]
  | _, _ => []

/-- A written sector fails its check: writing stops, and neither it nor any later sector commits; after a
declaration of power loss each has its VOID (R122, R190, R324). -/
def State.failWrite (s : State) (n k : Fin 4) (b : Begun) (w : Nat) : State :=
  let h := tpHead b.tp
  let s1 := (((s.idlePair n).wr (Fd.CHN_WINT_RBFAIL n) 1).headCount n (Fd.CHN_HWCNT0_RBFAIL n h)).wr (Fd.CHN_WSTAT_CAUSE n) 9
  let s2 := s1.raise (.channel n) 0x1106 4 (h :: leBytes 5 b.tp ++ leBytes 2 (min w 0xFFFF) ++ leBytes 4 (b.zone.getD 0xFFFFFFFF))
  let s3 := if s.on Fd.HSK_PLSTAT_DECL then s2.jIssues ((s.begunOf n k).flatMap (s.voidOf n)) else s2
  (s3.updArch n k fun a => { a with rbk := false }).failWith n k b.tp 0x04

/-- What the check of a sector observes where RB's signal over it is given: the codes less the crosstalk, the primary candidate's distance and
score, the weight after one detector pass, and the longest asperity (R188, R189). -/
def State.observed (s : State) (n : Fin 4) (b : Begun) (rb : List Int) (o : ReadBehind) : ReadBehind :=
  let h := tpHead b.tp
  let codes := codesOf (s.rd (Fd.CHN_HCFG_BOOST n h)) (s.gainCode n true) rb
  let spans := if s.on (Fd.CHN_CTL_TAEN n) then s.taSpans n true (-64) codes else []
  let d := s.readBehind n h (slotBits b.tp b.sector) codes spans
  let c := (s.framing n d.scores).p.getD ⟨0, 0⟩
  let first := d.ratios (112 + c.dev) 36864 []
  { o with markDev := c.dev.natAbs, score := c.score, weight := syndromeWeight fun i => hard (first.getD i 0)
           span := (spans.map fun p => (p.hi - p.lo).toNat).foldl max 0 }

/-- A sector whose Aligned condition fails where a cycle slip or a wrong bank has stopped the sector after it: it stays uncommitted, and no more
(R191); after a declaration of power loss it has its VOID (R324). -/
def State.leaveUncommitted (s : State) (n k : Fin 4) (b : Begun) : State :=
  let s1 := s.dropBegun n fun c => c.slot == k && c.tp == b.tp
  (if s.on Fd.HSK_PLSTAT_DECL then s1.jIssues (s.voidOf n b) else s1).settleMedia n k

/-- Whether a slip or a wrong bank stopped the run of a sector (Table 05.5). -/
def State.slipStopped (s : State) (n k : Fin 4) : Bool :=
  !s.writing n && (s.rd (Fd.CHN_WSTAT_CAUSE n) == 4 || s.rd (Fd.CHN_WSTAT_CAUSE n) == 5) &&
    (s.pslot n k).media?.any fun m => m.ending == some 0x05

/-- READ_BEHIND_DECIDED (R188 to R191): the check of the oldest sector written is decided, by RB's signal over it where that is given. -/
def execReadBehindDecided (n : Fin 4) (o : ReadBehind) (raw : Option (List Int)) (s : State) : Host.Outcome State Fault Refusal :=
  match (s.eng n).begun.find? fun b => !b.isRead with
  | none => .next s
  | some b =>
    if !b.written then .next s
    else
      let o := match raw with
        | none => o
        | some rb => s.observed n b rb o
      if s.readBehindOk n o then .next (s.commitWrite n b.slot b o.weight).settleVoids
      else if !o.aligned && s.slipStopped n b.slot then .next (s.leaveUncommitted n b.slot b).settleVoids
      else .next (s.failWrite n b.slot b o.weight).settleVoids

/-! ### The assist loop (R182, R183) -/

/-- A pinned level of the assist loop, recorded with the zone of the window's last sector once until firmware clears the bit (R183, R313). -/
def State.loopPinned (s : State) (n : Fin 4) (hi : Bool) (lvl : Nat) : State :=
  let f := if hi then Fd.CHN_ALOOP_PIN_HI n else Fd.CHN_ALOOP_PIN_LO n
  let h := s.selHead n
  let id := (s.ch n).loopZone
  let s1 := s.wr (Fd.CHN_WINT_APIN n) 1
  let s2 := if s.on f then s1 else ((s1.wr f 1).headCount n (Fd.CHN_HWCNT1_PINS n h)).raise (.channel n) 0x11F5 3
    ([b2n hi, h] ++ leBytes 4 lvl ++ leBytes 4 (id.getD 0xFFFFFFFF))
  match id with
  | some z => if hi then s2.flagVerify n z else s2
  | none => s2

/-- ALOOP_WINDOW_END (R182, R183): the mean of 64 weights raises, lowers or keeps the write level. -/
def execAloopWindowEnd (n : Fin 4) (s : State) : Host.Outcome State Fault Refusal :=
  let c := s.ch n
  if !c.loopOn || !s.on (Fd.CHN_WCTL_ALOOP_EN n) || c.loopN < 64 then .next s
  else
    let m := c.loopSum / c.loopN
    let t := s.rd (Fd.CHN_ATGT_SW_TGT n)
    let step := s.rd (Fd.CHN_ATGT_STEP n)
    let lv := s.rd (Fd.CHN_ALOOP_LEVEL n)
    let s1 := s.updCh n fun c => { c with loopN := 0, loopSum := 0 }
    let put := fun (u : State) (v : Nat) =>
      if v = lv then u
      else (u.wr (Fd.CHN_ALOOP_LEVEL n) v).armSend n ⟨.loop, false, headReg (s.selHead n) 0x0B, 0, [v], false⟩
    if t + t / 8 < m then
      if s.rd (Fd.CHN_ABND_WR_MAX n) < lv + step then .next ((put s1 (s.rd (Fd.CHN_ABND_WR_MAX n))).loopPinned n true (s.rd (Fd.CHN_ABND_WR_MAX n)))
      else .next (put s1 (lv + step))
    else if m < t - t / 4 then
      if lv < s.rd (Fd.CHN_ABND_WR_MIN n) + step then
        .next ((put s1 (s.rd (Fd.CHN_ABND_WR_MIN n))).loopPinned n false (s.rd (Fd.CHN_ABND_WR_MIN n)))
      else .next (put s1 (lv - step))
    else .next s1

/-! ### Touchdown (R187) -/

/-- The variance of readings times the square of their number. -/
def spread (l : List Nat) : Nat := l.length * (l.map fun x => x * x).sum - l.sum * l.sum

/-- TOUCHDOWN: both heater levels go to 0, LVL is latched and EN clears (R187). -/
def State.touchdown (s : State) (n : Fin 4) (pes : Bool) : State :=
  let h := s.selHead n
  let lvl := tget 0 (s.preamp.get n).regs (headReg h 3)
  (((((((s.armSend n ⟨.touchdown, false, headReg h 3, 1, [0, 0], false⟩).wr (Fd.CHN_TDSTAT_LVL n) lvl).wr (Fd.CHN_TDSTAT_DET n) 1).wr
    (Fd.CHN_TDSTAT_SRC n) (b2n pes)).wr (Fd.CHN_WINT_TOUCH n) 1).wr (Fd.CHN_TDCTL_EN n) 0).updCh n fun c =>
      { c with ecs := [], ecsBase := none, ecsHits := 0 }).raise (.channel n) 0x1107 4 (h :: leBytes 2 lvl ++ [b2n pes])

/-- A reading of ECS taken: the first 64 give the baseline, and the variance of the last 64 above it by 1 + TDK / 4 on three consecutive readings is
touchdown (R187). -/
def State.ecsReading (s : State) (n : Fin 4) (v : Nat) : State :=
  if !s.on (Fd.CHN_TDCTL_EN n) then s
  else
    let c := s.ch n
    let l := (v :: c.ecs).take 64
    match c.ecsBase with
    | none => s.updCh n fun c => { c with ecs := l, ecsBase := if l.length = 64 then some (spread l) else none, ecsHits := 0 }
    | some v =>
      let hits := if v * (4 + s.rd (Fd.CHN_TDCTL_TDK n)) < 4 * spread l then c.ecsHits + 1 else 0
      let s1 := s.updCh n fun c => { c with ecs := l, ecsHits := hits }
      if 3 ≤ hits then s1.touchdown n false else s1

/-- TOUCHDOWN_SAMPLE (R187, R200): the reading of the contact sensor that a touchdown read brings; the read under way ends with it. -/
def execTouchdownSample (n : Fin 4) (ecs : BitVec 16) (s : State) : Host.Outcome State Fault Refusal :=
  let s1 := if (s.ch n).tx.any fun t => t.src == ArmSrc.ecs then s.updCh n fun c => { c with tx := none } else s
  .next (s1.ecsReading n ecs.toNat)

end Sys2Proof.Machine
end

