-- ==== Sys2Proof/Machine/ServoLoop.lean ====
section
/-! DEFINITION. The compensator of a servo: its sections and paths, the tether model and the cross-actuator feedforward (06). -/

namespace Sys2Proof.Machine

/-! ### Sections and paths (R220, Table 06.16) -/

/-- The coefficients b0, b1, b2, a1, a2 that five words give. -/
def coeffs (word : Nat → Nat) (q : Nat) : List Int := (List.range 5).map fun j => sgn 32 (word (5 * q + j))

/-- One step of a second-order section with coefficients in units of 2^-28, rounded to nearest, ties away from zero. -/
def Section2.run (c : List Int) (q : Section2) (x : Int) : Section2 × Int :=
  let y := roundDiv (c.getD 0 0 * x + c.getD 1 0 * q.x1 + c.getD 2 0 * q.x2 - c.getD 3 0 * q.y1 - c.getD 4 0 * q.y2) 268435456
  (⟨x, q.x1, y, q.y1⟩, y)

/-- A cascade of sections. -/
def cascade : List (List Int) → List Section2 → Int → List Section2 × Int
  | c :: cs, q :: qs, x =>
    let (q', y) := q.run c x
    let (qs', z) := cascade cs qs y
    (q' :: qs', z)
  | _, qs, x => (qs, x)

/-- A path whose output saturates at `w` signed bits: where it does, its sections keep the states of the previous period. -/
def cascadeSat (w : Nat) (cs : List (List Int)) (qs : List Section2) (x : Int) : List Section2 × Int :=
  let (qs', y) := cascade cs qs x
  let z := clampInt (-(2 ^ (w - 1))) (2 ^ (w - 1) - 1) y
  if z = y then (qs', y) else (qs, z)

/-- Coefficients of sections `q` to `q + k - 1` of the active compensator bank. -/
def State.compCoeffs (s : State) (n : Fin 4) (q k : Nat) : List (List Int) :=
  (List.range k).map fun i => coeffs (fun m => s.rd (Fd.SRV_COMP_WORD n (s.rd (Fd.SRV_STATUS_CBANK n)) m)) (q + i)

/-- Coefficients of a head's two tether-model sections. -/
def State.modelCoeffs (s : State) (n : Fin 4) (h : Nat) : List (List Int) :=
  (List.range 2).map fun i => coeffs (fun m => s.rd (Fd.SRV_GEO_MODEL_WORD n h m)) i

/-! ### The tether (R218, R220) -/

/-- Whether the standby of an actuator's pivot shadows its primaries (R235, R236, R239). -/
def State.shadows (s : State) (n : Fin 4) : Bool := s.on (Fd.SRV_STBY_EN (2 * (n.val / 2))) && !s.on (Fd.SRV_STBY_FAILED (2 * (n.val / 2)))

/-- The tether model takes the drive that the preamplifier applies, once a period, in primary and standby (R218, R219, R235). -/
def State.runModel (s : State) (n : Fin 4) : State :=
  let shadow := s.shadows n
  let (qs, m) := cascade (s.modelCoeffs n (s.selHead n)) (s.sv n).comp.model (s.preamp.get n).drive
  let (ps, _) := cascade (s.modelCoeffs n (s.selHead n)) (s.sv n).stby.model (s.preamp.get n).drive
  s.updSv n fun v =>
    { v with comp := { v.comp with model := qs }, stby := if shadow then { v.stby with model := ps } else v.stby, drivePrev := m, modelRun := true }

/-! ### The velocity profile (R225) -/

/-- The distance, of `dist` grid units, that a trapezoidal profile has covered after `k` periods of 2.5 µs: acceleration 25 × `acc` / 16 grid units per
period squared, speed at most `vel` / 16 grid units per period. DESIGN CHOICE: fractions of a grid unit and of a period are dropped. -/
def profileAt (acc vel dist k : Nat) : Nat :=
  let a := 25 * acc
  let d := 16 * dist
  let vp := min vel (Nat.sqrt (a * d))
  if a = 0 ∨ vp = 0 then 0
  else
    let ramp := vp * vp / (2 * a)
    let total := 2 * (vp / a) + (d - 2 * ramp) / vp + 1
    let j := total - k
    min dist ((if a * k ≤ vp then a * k * k / 2 else if a * j ≤ vp then d - min d (a * j * j / 2) else ramp + vp * (k - vp / a)) / 16)

/-- The speed limit of a motion in 1/16 grid units per period: VMAX, and in lock at most 0.4 p/µs. -/
def State.speedLimit (s : State) (n : Fin 4) (lock : Bool) : Nat :=
  let v := 2560 * s.rd (Fd.SRV_SEEK_VMAX n)
  if lock then min v 16384 else v

/-- Where the profile of the motion under way has the data reference point now, as counted crossings have corrected it. DEDUCED: the VCM model's
position follows the profile between crossings. -/
def State.profileX (s : State) (n : Fin 4) : Int :=
  let v := s.sv n
  let p : Int := profileAt (s.rd (Fd.SRV_SEEK_ACC n)) (s.speedLimit n (v.phase == .inlock)) (v.goalX - v.fromX).natAbs (v.periods - v.since)
  (if v.fromX ≤ v.goalX then v.fromX + p else v.fromX - p) + v.corr

/-- The tether displacement τ that the model gives now. -/
def State.tauNow (s : State) (n : Fin 4) : Int :=
  let h := s.selHead n
  s.tofs n h (s.nowTrack n) + roundDiv (s.gain n h (s.nowTrack n) * (s.sv n).drivePrev) 1024

/-! ### Feedforward (R232 to R234) -/

/-- The coefficient c[j][i][k] of the active feedforward bank of actuator `j`. -/
def State.ffCoeff (s : State) (j : Fin 4) (i k : Nat) : Int :=
  sgn 16 (bits (s.rd (Fd.SRV_FF_WORD j (s.rd (Fd.SRV_STATUS_FFBANK j)) (8 * i + k / 2))) (16 * (k % 2)) 16)

/-- The VCM command of actuator `i` that actuator `j` takes for k + 1 periods ago; the row and the column of an absent actuator carry zero (R209). -/
def State.ffInput (s : State) (j i : Fin 4) (k : Nat) : Int :=
  let pi := (s.sv i).periods
  let pj := (s.sv j).periods
  if pi + k < pj ∨ !s.on (Fd.SRV_CTL_FITTED i) ∨ !s.on (Fd.SRV_CTL_FITTED j) then 0 else (s.sv i).uhist.getD (pi + k - pj) 0

/-- The feedforward into an actuator (R232). -/
def State.feedforward (s : State) (j : Fin 4) : Int :=
  if !s.on (Fd.SRV_FFCTL_EN j) then 0
  else
    let sum := (four.map fun i => ((List.range 16).map fun k => s.ffCoeff j i.val k * s.ffInput j i k).sum).sum
    clampInt (-32768) 32767 (roundDiv sum 16384)

/-! ### Commands (R219, R220, R225) -/

/-- Whether the compensator commands the actuator: fitted, and loaded, on its way to B0 before an unload, or loading with a bank under it (R209). -/
def State.compensates (s : State) (n : Fin 4) : Bool :=
  s.on (Fd.SRV_CTL_FITTED n) && (s.mode n == 2 || s.mode n == 3 || s.mode n == 4 || (s.mode n == 5 && (s.sv n).load == .seekB0) || (s.mode n == 1 && (s.sv n).load == .confirm))

/-- What one compensator makes of a period: its new section states and its three commands. -/
structure Paths where
  comp : CompState
  vcm : Int
  piezo : Int
  tether : Int

/-- The paths of one compensator from the two inputs of a period, e and the mean PES: data path, feedforward, VCM, piezo and tether paths. -/
def State.paths (s : State) (n : Fin 4) (c : CompState) (e pes : Int) : Paths :=
  let (dq, v) := cascade (s.compCoeffs n 0 8) c.data e
  let x := v + s.feedforward n
  let (vq, u) := cascadeSat 16 (s.compCoeffs n 8 4) c.vcm x
  let (mq, z) := cascadeSat 16 (s.compCoeffs n 12 4) c.piezo x
  let (tq, t) := cascadeSat 18 (s.compCoeffs n 16 4) c.tether pes
  ⟨{ c with data := dq, vcm := vq, piezo := mq, tether := tq }, u, z, t⟩

/-- The commands of one period: of the primary, or of the standby while the primary is down; the standby computes the same from its own states
(R235, Table 06.8). -/
def State.runPaths (s : State) (n : Fin 4) (e pes : Int) : State :=
  let p := s.paths n (s.sv n).comp e pes
  let q := s.paths n (s.sv n).stby e pes
  let shadow := s.shadows n
  s.updSv n fun w =>
    let u := if w.primaryDown then q else p
    { w with comp := if w.primaryDown then w.comp else p.comp, stby := if shadow then q.comp else w.stby, vcm := u.vcm, piezo := u.piezo,
             tether := u.tether, drive := clampInt (-131072) 131071 (u.tether + w.bias) }

/-- The commands of one period: from the mean of its valid samples, in lock against the motion's profile; from the servo's own prediction where none
was valid; and from the VCM model, with the tether path held, while a crossing seek releases, travels and captures (R219, R225). -/
def State.command (s : State) (n : Fin 4) : State :=
  let v := s.sv n
  if !s.compensates n then s.updSv n fun w => { w with vcm := 0, piezo := 0 }
  else match v.phase with
    | .release | .travel | .capture =>
      s.tookFree.updSv n fun w =>
        { w with vcm := sgn 16 s.freeVal, piezo := sgn 16 (s.freeVal / 65536), drive := clampInt (-131072) 131071 (w.tether + w.bias) }
    | _ =>
      let ahead := if v.phase = .inlock then v.goalX - s.profileX n else 0
      if v.pesN = 0 then s.tookFree.runPaths n (sgn 24 s.freeVal) (sgn 10 (s.freeVal / 16777216))
      else s.runPaths n (roundDiv v.errSum v.pesN + ahead) (roundDiv v.pesSum v.pesN)

/-- The period's VCM command joins those that feedforward takes, 0 where the compensator does not command a loaded actuator (R234). -/
def State.endPeriod (s : State) (n : Fin 4) : State :=
  let u := if s.movable n then (s.sv n).vcm else 0
  s.updSv n fun v =>
    { v with uhist := (u :: v.uhist).take 17, periods := v.periods + 1, pesSum := 0, pesN := 0, errSum := 0, errMax := 0,
             modelRun := false, gNew := [] }

end Sys2Proof.Machine
end

