-- ==== Sys2Proof/Machine/Servo.lean ====
section
/-! DEFINITION. The servo's commands: samples, periods, hops, seeks, the standby, shocks, load, unload and retract (06). -/

namespace Sys2Proof.Machine

/-! ### What a motion's end does to the instruction that waits for it -/

/-- The instruction that owns the actuator, where a slot is inside one. -/
def State.ownerOp (s : State) (n : Fin 4) : Option (Fin 4 × Op) :=
  (s.runner n).bind fun k => ((s.pslot n k).op).map fun o => (k, o)

/-- SEEK and FOLLOW end at arrival (R229). -/
def State.arrived (s : State) (n : Fin 4) : State :=
  match s.ownerOp n with
  | some (k, .seek) | some (k, .follow) => s.complete n k fun a => a.setCode 0
  | _ => s

/-- SETTLE ends once ONT holds under its set, and so does an implicit positioning (R111, R113). -/
def State.ontReached (s : State) (n : Fin 4) : State :=
  match s.ownerOp n with
  | some (k, .settle set) => if s.ontUnder n set.val then s.complete n k fun a => a.setCode 0 else s
  | some (k, .skipto) | some (k, .media _) => if s.standing n k then s.placed n k else s
  | _ => s

/-- The instruction that waits for the servo ends with a code (R109, R111, R113, R227). -/
def State.ownerEnds (s : State) (n : Fin 4) (code : Nat) : State :=
  match s.ownerOp n with
  | some (k, _) => s.opEndsWith n k code
  | none => s

/-! ### Retract (R243, R245) -/

/-- The motion and media instructions of some slots end with a code: reads that cannot end any more are dropped. -/
def State.endOps (s : State) (n : Fin 4) (code : Nat) : List (Fin 4) → State
  | [] => s
  | k :: l =>
    (match (s.pslot n k).op with
      | some .seek | some .follow | some (.settle _) | some .head | some .skipto => s.complete n k fun a => a.setCode code
      | some (.media _) => ((s.dropBegun n fun b => b.slot == k && b.isRead).endWith n k code)
      | _ => s).endOps n code l

/-- The media instructions of some slots are given the code they will end with. -/
def State.markOps (s : State) (n : Fin 4) (code : Nat) : List (Fin 4) → State
  | [] => s
  | k :: l => (s.updMedia n k fun m => { m with ending := some (m.ending.getD code) }).markOps n code l

/-- The back-EMF target in mV of an outward move, by the drive die's copy of SRV.RET.RVEL (Table 06.14). -/
def Servo.outwardEmf (v : Servo) : Int := -(4 * (bits v.dieRet 8 8 : Int))

/-- An emergency retract: writing stops with cause 1, instructions in progress end with code 0x10, and the heads move outward under the back-EMF
loop (R245). -/
def State.retract (s : State) (n : Fin 4) (cause : Nat) : State :=
  if s.mode n = 0 ∨ s.mode n = 6 then s
  else
    let s1 := ((s.markOps n 0x10 four).writeStop n 1).endOps n 0x10 four
    let s2 := (s1.wr (Fd.SRV_STATUS_MODE n) 6).wr (Fd.SRV_STATUS_HOP n) 0
    (s2.updSv n fun v =>
      { v with load := .outward, emf := v.outwardEmf, phase := .none, goal := .none, target := none, hop := none, held := false }).raise (.servo n)
        0x1407 5 [cause]

/-! ### The standby (R235 to R239) -/

/-- The window that holds the standby's register of a pivot: its upper actuator's. -/
def pivotWin (n : Fin 4) : Nat := 2 * (n.val / 2)

/-- SRV.STBY.COVER of an actuator: 1 the upper, 2 the lower. -/
def coverOf (n : Fin 4) : Nat := n.val % 2 + 1

/-- Degraded service (R237). -/
def State.degradeServo (s : State) (n : Fin 4) : State :=
  (((((((s.wr (Fd.SRV_STATUS_DEGR n) 1).wr (Fd.SRV_INT_DEGR n) 1).setUnit (.servo n) 6).wr (Fd.SLOT_CTL_DEGRADE (UnitRef.servo n).win 0) 1).updSv n fun v => { v with degr := true }).raise
    (.servo n) 0x1403 6 []).writeStop n 1)

/-- The standby takes an actuator over; where it cannot, the actuator retracts (R236, R238). -/
def State.takeover (s : State) (n : Fin 4) (cause : Nat) : State :=
  let p := pivotWin n
  let c := s.rd (Fd.SRV_STBY_COVER p)
  if !s.on (Fd.SRV_STBY_EN p) then s.retract n 2
  else if c = coverOf n then s
  else if s.on (Fd.SRV_STBY_FAILED p) ∨ c ≠ 0 then s.retract n 1
  else
    (((((s.wr (Fd.SRV_STBY_COVER p) (coverOf n)).wr (Fd.SRV_STATUS_COVERED n) 1).wr (Fd.SRV_INT_TAKEOVER n) 1).count
      (Fd.SRV_CNT3_TAKEOVERS n) 1).raise (.servo n) 0x1401 5 [cause, n.val]).updSv n fun v => { v with primaryDown := true, divRun := 0 }

/-- A takeover for divergence; the second in a 1 s window puts the servo in degraded service (R237). -/
def State.divergence (s : State) (n : Fin 4) : State :=
  let win := s.time / 1000000
  let was := s.rd (Fd.SRV_STBY_COVER (pivotWin n))
  let s1 := s.takeover n 2
  if was = 0 ∧ s1.rd (Fd.SRV_STBY_COVER (pivotWin n)) = coverOf n then
    let k := if (s1.sv n).divWin = win then (s1.sv n).divTakes + 1 else 1
    let s2 := s1.updSv n fun v => { v with divWin := win, divTakes := k }
    if 2 ≤ k then s2.degradeServo n else s2
  else s1

/-- What a period finds of the primary and the standby (R236, R239). -/
def State.servoFault (s : State) (n : Fin 4) : ServoFault → State
  | .none => s.updSv n fun v => { v with divRun := 0 }
  | .absent => s.takeover n 0
  | .check => s.takeover n 1
  | .diverge d =>
    if s.on (Fd.SRV_STBY_EN (pivotWin n)) && 16 * s.rd (Fd.SRV_STBY_DIVLIM (pivotWin n)) < d then
      if 1 ≤ (s.sv n).divRun then (s.updSv n fun v => { v with divRun := 0 }).divergence n
      else s.updSv n fun v => { v with divRun := v.divRun + 1 }
    else s.updSv n fun v => { v with divRun := 0 }
  | .standby =>
    (((s.updSv n fun v => { v with divRun := 0 }).wr (Fd.SRV_STBY_FAILED (pivotWin n)) 1).wr (Fd.SRV_INT_STBYFAIL (pivotWin n)) 1).raise (.servo n) 0x1402 5 [n.val / 2]

/-! ### A servo period (R216, R219, R222, R229, R231) -/

/-- Bank swaps that waited take effect; a criterion set that waited does, and ONT is false from this opening; otherwise ONT is earned or lost by
the period that ends (R221, R230, R231, R233). -/
def State.openPeriod (s : State) (n : Fin 4) : State :=
  let v := s.sv n
  let s1 := if v.pendCswap then s.wr (Fd.SRV_STATUS_CBANK n) (1 - s.rd (Fd.SRV_STATUS_CBANK n)) else s
  let s2 := if v.pendFf then s1.wr (Fd.SRV_STATUS_FFBANK n) (1 - s1.rd (Fd.SRV_STATUS_FFBANK n)) else s1
  let s3 := s2.updSv n fun w => { w with pendCswap := false, pendFf := false }
  match v.pendSet with
  | some set => ((s3.wr (Fd.SRV_STATUS_SET n) set.val).dropOnt n).updSv n fun w => { w with pendSet := none, noSample := 0 }
  | none =>
    let set := s3.rd (Fd.SRV_STATUS_SET n)
    let miss := if 0 < v.pesN then 0 else if s3.on (Fd.SRV_STATUS_HOP n) then v.noSample else v.noSample + 1
    let clean := if s3.blk n ∧ 0 < v.pesN ∧ v.errMax ≤ s3.rd (Fd.SRV_SETTLE_WIN n set) then min 255 (v.clean + 1) else 0
    let s4 := s3.updSv n fun w => { w with noSample := miss, clean := clean }
    if 2 ≤ miss then s4.dropOnt n
    else if s3.rd (Fd.SRV_SETTLE_CNT n set) ≤ clean then (s4.wr (Fd.SRV_STATUS_ONT n) 1).ontReached n
    else s4

/-- The release of a crossing seek ends at this opening: the bank reader leaves its bank and BLK clears, which is counted (R225, R228). -/
def State.releaseEnds (s : State) (n : Fin 4) : State :=
  let s1 := if s.blk n then (s.clearBlk n).countBlkLoss n else s
  s1.updSv n fun v => { v with phase := .travel, hop := none, held := false }

/-- The motion moves on at a period opening: release ends, or the move arrives (R225, R229); an unload that has reached B0 hands the actuator
to the back-EMF loop (R242). -/
def State.motionStep (s : State) (n : Fin 4) : State :=
  let v := s.sv n
  match v.phase with
  | .release => (s.releaseEnds n).wr (Fd.SRV_STATUS_HOP n) 0
  | .inlock | .arrive =>
    if v.bank = v.cap ∧ v.err.natAbs ≤ 512 ∧ s.blk n ∧ v.hop.isNone then
      let s1 := s.updSv n fun w => { w with phase := .none, goal := .none, crossing := false }
      if s.mode n = 5 then s1.updSv n fun w => { w with load := .outward, emf := w.outwardEmf }
      else (s1.wr (Fd.SRV_STATUS_MODE n) 2).arrived n
    else s
  | _ => s

/-- A hop to bank `b` starts: the tether's bias takes the step of one bank period, inward with the negative sign (R220, R222). -/
def State.startHop (s : State) (n : Fin 4) (b : Nat) : State :=
  let v := s.sv n
  let h := s.selHead n
  let g := s.gain n h (s.nowTrack n)
  let p : Nat := ((s.bankRegion n h (min b v.bank)).map fun r => r.spacing + 2).getD 0
  let step := roundDiv (1048576 * p * g.sign) g.natAbs
  let s1 := ((s.wr (Fd.SRV_STATUS_HOP n) 1).count (Fd.SRV_CNT1_HOPS n) 1).wr (Fd.SRV_POS_BANK n) b
  let go := fun (t : State) (bias : Int) => t.updSv n fun w =>
    { w with hop := some v.bank, bank := b, held := true, spoilt := true, hopXb := v.xb, hopM := v.drivePrev, bias := bias
             send := clampInt (-131072) 131071 (w.send + (bias - w.bias)) }
  if g = 0 then go s1.tookFree (sgn 18 s.freeVal) else go s1 (if v.bank < b then v.bias - step else v.bias + step)

/-- The hop rule at a period opening: the bank is kept while the data reference point lies within DMAX + HYS of it (R216, R222). -/
def State.hopStep (s : State) (n : Fin 4) : State :=
  let v := s.sv n
  let h := s.selHead n
  if v.hop.isSome ∨ !s.blk n ∨ !s.compensates n ∨ s.mode n = 4 ∨ (v.phase ≠ .none ∧ v.phase ≠ .inlock) then s
  else match s.bankRegion n h v.bank with
    | none => s
    | some r =>
      if (v.xd - s.xBank n h v.bank).natAbs ≤ 1024 * (r.spacing / 2 + 1 + s.rd (Fd.SRV_TETH_HYS n)) then s
      else
        let b := s.bankNear n h v.xd
        if b = v.bank then s else s.startHop n b

/-- The drive computed in the period before goes into this period's TD frame (Table 06.3). -/
def State.loadDrive (s : State) (n : Fin 4) : State := s.updSv n fun v => { v with send := v.drive }

/-- SERVO_PERIOD (R212, R219): a period opens; where no TD frame reached the preamplifier in the one before, the tether model takes the drive that
still stands. -/
def execServoPeriod (n : Fin 4) (f : ServoFault) (s : State) : Host.Outcome State Fault Refusal :=
  let s1 := if (s.sv n).modelRun then s else s.runModel n
  let s2 := ((((s1.servoFault n f).openPeriod n).loadDrive n).motionStep n).hopStep n
  .next ((s2.command n).endPeriod n)

/-! ### Samples (R210, R211, R214) -/

/-- The estimates of R214 from a valid sample on the current bank, with SRV.POS. -/
def State.estimate (s : State) (n : Fin 4) (pes : Int) : State :=
  let h := s.selHead n
  let tau := s.tauNow n
  let s1 := s.updSv n fun v =>
    let xb := s.xBank n h v.bank + pes
    { v with xb := xb, tau := tau, xd := xb + tau, xw := xb + tau + s.rwofs n h (s.nowTrack n) }
  let e := s1.errNow n
  let s2 := s1.updSv n fun v =>
    { v with err := e, pesSum := v.pesSum + pes, pesN := v.pesN + 1, errSum := v.errSum + e, errMax := max v.errMax e.natAbs }
  (s2.wr (Fd.SRV_POS_BANK n) (s2.sv n).bank).wr (Fd.SRV_POS_DIST n) (unsgn 24 ((s2.sv n).xd - s.xBank n h (s2.sv n).bank))

/-- The gain of the zone entry nearest the track, as tracking moves it, and whether it is pinned (R218). -/
def State.trackGain (s : State) (n : Fin 4) (gm : Int) : Int × Bool :=
  let z := min 15 ((s.nowTrack n + 524288) / 1048576)
  let h := s.selHead n
  let fw := sgn 16 (tget 0 (s.sv n).gfw (16 * h + z))
  let g := sgn 16 (s.rd (Fd.SRV_GEO_G_WORD n h z))
  let new := g + roundDiv (gm - g) (2 ^ s.rd (Fd.SRV_TETH_GTC n))
  let dev : Int := fw.natAbs * s.rd (Fd.SRV_TETH_GDEV n) / 1024
  if fw + dev < new then (fw + dev, true) else if new < fw - dev then (fw - dev, true) else (new, false)

/-- The gain measured by a hop moves G of the nearest zone entry, unless firmware wrote it in this period; a gain at its bound is pinned (R218). -/
def State.gainStep (s : State) (n : Fin 4) (gm : Int) : State :=
  let h := s.selHead n
  let z := min 15 ((s.nowTrack n + 524288) / 1048576)
  if s.rd (Fd.SRV_TETH_GTC n) = 0 ∨ (s.sv n).gNew.contains (16 * h + z) then s
  else
    let (g, pin) := s.trackGain n gm
    let s1 := s.wr (Fd.SRV_GEO_G_WORD n h z) (unsgn 16 g)
    if pin then
      (((s1.setB (Fd.SRV_STATUS_TPIN n) h).wr (Fd.SRV_INT_TPIN n) 1).raise (.servo n) ((UnitRef.servo n).common 5) 3
        ([b2n (0 < g - sgn 16 (tget 0 (s.sv n).gfw (16 * h + z))), h] ++ leBytes 4 (unsgn 32 g) ++ leBytes 4 0xFFFFFFFF)).writeStop n 1
    else s1

/-- A hop ends with its first valid sample: the gain is measured by the bank reader's step (R218, R222). -/
def State.hopEnds (s : State) (n : Fin 4) (pes : Int) : State :=
  let v := s.sv n
  let s1 := (s.wr (Fd.SRV_STATUS_HOP n) 0).updSv n fun w => { w with hop := none, held := false }
  let dt := v.hopXb - (s.xBank n (s.selHead n) v.bank + pes)
  let dm := v.drivePrev - v.hopM
  if dm = 0 then s1 else s1.gainStep n (roundDiv (1024 * dt * dm.sign) dm.natAbs)

/-- What follows a valid sample: ONT lost beyond OUT, a write stopped beyond OT_LIM, the capture phase ended, touchdown by PES (R187, R193,
R225, R231, R241). -/
def State.afterSample (s : State) (n : Fin 4) (pes : Int) : State :=
  let e := (s.sv n).err.natAbs
  let s1 := if s.rd (Fd.SRV_SETTLE_OUT n (s.rd (Fd.SRV_STATUS_SET n))) < e then s.dropOnt n else s
  let s2 := if s1.rd (Fd.CHN_WINH_OT_LIM n) ≤ e then s1.writeStop n 1 else s1
  let s3 := if (s2.sv n).phase = .capture then
      s2.updSv n fun v => { v with phase := .confirm, word := none, words := 0, load := if v.load == .offRamp then .confirm else v.load }
    else s2
  let s4 := s3.updCh n fun c => { c with pesHist := (pes :: c.pesHist).take 256 }
  let l := (s4.ch n).pesHist
  if s4.on (Fd.CHN_TDCTL_EN n) ∧ l.length = 256 ∧ 256 * s4.rd (Fd.CHN_TDCTL_PESLIM n) ^ 2 < (l.map fun x => x.natAbs ^ 2).sum then
    s4.touchdown n true
  else s4

/-- A sample taken: one during any part of which BLK was clear or the phase detector held, or below PAMIN, is shown and not used; the first valid
one after a hop ends it (R211, R214, R222). -/
def State.sample (s : State) (n : Fin 4) (pes : BitVec 10) (amp : BitVec 8) : State :=
  let v := s.sv n
  let ok := s.blk n && !v.held && !v.spoilt && s.rd (Fd.SRV_TETH_PAMIN n) ≤ amp.toNat
  let s1 := (s.wrs [(Fd.SRV_PES_POS n, pes.toNat), (Fd.SRV_PES_AMP n, amp.toNat), (Fd.SRV_PES_VALID n, b2n ok),
    (Fd.SRV_PES_HOP n, b2n v.held)]).updSv n fun v => { v with spoilt := v.held || !s.blk n }
  if !ok then s1
  else
    let s2 := if v.hop.isSome then s1.hopEnds n pes.toInt else s1
    (s2.estimate n pes.toInt).afterSample n pes.toInt

/-- PES_SAMPLE (R210, R211, R214): a sample and its amplitude. -/
def execPesSample (n : Fin 4) (pes : BitVec 10) (amp : BitVec 8) (s : State) : Host.Outcome State Fault Refusal := .next (s.sample n pes amp)

/-! ### Hops and seeks (R222 to R227) -/

/-- HOP_COMPLETE (R218, R222): the sample that follows a hop's hold, the first on the new bank where it is valid. -/
def execHopComplete (n : Fin 4) (pes : BitVec 10) (amp : BitVec 8) (s : State) : Host.Outcome State Fault Refusal :=
  if (s.sv n).hop.isNone || !s.blk n then .next s else .next (s.sample n pes amp)

/-- HOP_HOLD_RELEASE (R145, R222): the tone is back for 16 cycles, and the phase detector is released. -/
def execHopHoldRelease (n : Fin 4) (s : State) : Host.Outcome State Fault Refusal :=
  .next (s.updSv n fun v => { v with held := false })

/-- HOP_HOLD_EXPIRY (R145, R224): BLK clears, writing stops, and the servo captures and confirms a bank. -/
def execHopHoldExpiry (n : Fin 4) (s : State) : Host.Outcome State Fault Refusal :=
  let v := s.sv n
  match v.hop with
  | none => .next s
  | some old =>
    if !v.held then .next s
    else
      let s1 := ((((s.clearBlk n).countBlkLoss n).writeStop n 3).count (Fd.SRV_CNT1_HOPFAIL n) 1).wr (Fd.SRV_INT_HOPFAIL n) 1
      let s2 := (s1.raise (.servo n) 0x1404 4 (leBytes 3 old ++ [s.selHead n])).wr (Fd.SRV_STATUS_HOP n) 0
      .next (s2.updSv n fun w =>
        { w with hop := none, held := false, phase := .capture, word := none, words := 0,
                 goal := if v.goal = .seek ∧ v.target.isSome then .find else .track })

/-- X_b as the model carries it during travel: the profile's place less the displacement that the tether is set for. -/
def State.travelXb (s : State) (n : Fin 4) : Int :=
  let v := s.sv n
  s.xBank n (s.selHead n) v.cap + s.profileX n - v.goalX

/-- The bank next in the direction of travel from a position: the first at or beyond it. -/
def State.bankAhead (s : State) (n : Fin 4) (x : Int) (inward : Bool) : Nat :=
  let h := s.selHead n
  let b := s.bankNear n h x
  if inward then (if x ≤ s.xBank n h b then b else b + 1) else (if s.xBank n h b ≤ x then b else b - 1)

/-- BANK_CROSSING (R226): a counted crossing of a travel sets X_b to the position of the bank next in the direction of travel from the model's
estimate, and corrects the estimate. -/
def execBankCrossing (n : Fin 4) (s : State) : Host.Outcome State Fault Refusal :=
  let v := s.sv n
  if v.phase ≠ .travel then .next s
  else
    let x := s.travelXb n
    let b := s.bankAhead n x v.dirIn
    let xb := s.xBank n (s.selHead n) b
    .next ((s.updSv n fun w => { w with bank := b, xb := xb, corr := w.corr + (xb - x) }).wr (Fd.SRV_POS_BANK n) b)

/-- SEEK_TRAVEL_END (R225): the profile ends at the target, and the bank reader seeks the capture bank's position half. -/
def execSeekTravelEnd (n : Fin 4) (s : State) : Host.Outcome State Fault Refusal :=
  if (s.sv n).phase ≠ .travel then .next s
  else .next ((s.updSv n fun v => { v with phase := .capture, bank := v.cap }).wr (Fd.SRV_POS_BANK n) (s.sv n).cap)

/-- A seek has failed: counted, recorded with the bank read, and its instruction ends with code 0x10 (R227). -/
def State.seekFails (s : State) (n : Fin 4) (read : Nat) : State :=
  let s1 := ((s.wr (Fd.SRV_INT_SEEKFAIL n) 1).count (Fd.SRV_CNT2_SEEKERR n) 1).raise (.servo n) 0x1405 4 (leBytes 3 (s.sv n).cap ++ leBytes 3 read)
  s1.ownerEnds n 0x10

/-- SEEK_CAPTURE_TIMEOUT (R227): no BLK with a valid sample within the bound; the servo goes on capturing, to track the bank it finds. -/
def execSeekCaptureTimeout (n : Fin 4) (s : State) : Host.Outcome State Fault Refusal :=
  let v := s.sv n
  if v.phase ≠ .capture ∨ v.goal ≠ .seek then .next s
  else .next (((s.tookFree.updSv n fun w => { w with target := none, goal := .track }).seekFails n (bits s.freeVal 0 20)))

/-- MOTION_LIMIT_EXPIRY (R109, R113): a SEEK, a FOLLOW or an implicit positioning ends with code 0x01 and the servo drops its target. -/
def execMotionLimitExpiry (n : Fin 4) (s : State) : Host.Outcome State Fault Refusal :=
  match s.ownerOp n with
  | some (k, .seek) | some (k, .follow) | some (k, .skipto) => .next ((s.dropTarget n).opEndsWith n k 0x01)
  | some (k, .media m) => if m.positioned then .next s else .next ((s.dropTarget n).endWith n k 0x01)
  | _ => .next s

/-- SETTLE_TIMEOUT (R111). -/
def execSettleTimeout (n : Fin 4) (s : State) : Host.Outcome State Fault Refusal :=
  match s.ownerOp n with
  | some (k, .settle _) => .next (s.complete n k fun a => a.setCode 0x01)
  | _ => .next s

/-! ### The confirm phase (R227, R241) -/

/-- MODE and target once a bank is confirmed that is to be tracked. -/
def State.trackBank (s : State) (n : Fin 4) (b : Nat) (keep : Bool) : State :=
  let s1 := (s.updSv n fun v =>
    { v with bank := b, phase := .none, goal := .none, crossing := false, target := if keep then v.target else none,
             emf := if s.mode n = 5 then v.outwardEmf else 0, load := if s.mode n = 5 then .outward else .none }).wr (Fd.SRV_POS_BANK n) b
  let s2 := if s.mode n = 5 then s1 else s1.wr (Fd.SRV_STATUS_MODE n) 2
  if s.mode n = 1 then s2.wr (Fd.SRV_INT_LOADED n) 1 else s2

/-- Two agreeing bank words name bank `b` (R227). -/
def State.confirmed (s : State) (n : Fin 4) (b : Nat) : State :=
  let v := s.sv n
  match v.goal with
  | .find =>
    let s1 := (s.updSv n fun w => { w with bank := b, phase := .none, goal := .none }).wr (Fd.SRV_POS_BANK n) b
    if v.target.isSome ∧ s.mode n ≠ 1 then (s1.wr (Fd.SRV_STATUS_MODE n) 2).startSeek n else s1.trackBank n b true
  | .seek =>
    let d := (b - v.cap) + (v.cap - b)
    if d = 0 then (s.updSv n fun w => { w with bank := b, phase := .arrive }).wr (Fd.SRV_POS_BANK n) b
    else if d ≤ s.rd (Fd.SRV_SEEK_CORR n) ∧ !v.corrected then
      let s1 := (((s.count (Fd.SRV_CNT2_CORR n) 1).wr (Fd.SRV_INT_SEEKCORR n) 1).updSv n fun w =>
        { w with bank := b, phase := .inlock, corrected := true, word := none, words := 0, fromX := w.xd, since := w.periods, corr := 0 }).wr (Fd.SRV_POS_BANK n) b
      if s.mode n = 5 then s1 else s1.wr (Fd.SRV_STATUS_MODE n) 3
    else (s.trackBank n b false).seekFails n b
  | _ => s.trackBank n b true

/-- A bank word of the confirm phase: two consecutive valid words that agree decide; with none after three words a seek fails (R227). -/
def State.confirmWord (s : State) (n : Fin 4) (w : Option Nat) : State :=
  let v := s.sv n
  let s1 := s.updSv n fun x => { x with word := w, words := x.words + 1 }
  if w.isSome ∧ v.word = w then s1.confirmed n (w.getD 0)
  else if 3 ≤ v.words + 1 then
    if v.goal = .seek then
      match (w <|> v.word) with
      | some b => (s1.trackBank n b false).seekFails n b
      | none => (s1.tookFree.trackBank n v.bank false).seekFails n (bits s.freeVal 0 20)
    else s1.updSv n fun x => { x with words := 0 }
  else s1

/-! ### Standby and shocks (R221, R233, R236, R239, R240) -/

/-- A primary resumes, loaded with the standby's states (Table 06.8). -/
def State.primaryBack (s : State) (n : Fin 4) : State :=
  if (s.sv n).primaryDown then
    let s1 := (s.wr (Fd.SRV_STATUS_COVERED n) 0).updSv n fun v => { v with primaryDown := false, comp := v.stby }
    if s.rd (Fd.SRV_STBY_COVER (pivotWin n)) = coverOf n then s1.wr (Fd.SRV_STBY_COVER (pivotWin n)) 0 else s1
  else s

/-- PRIMARY_RESUME (Table 06.8). -/
def execPrimaryResume (n : Fin 4) (s : State) : Host.Outcome State Fault Refusal := .next (s.primaryBack n)

/-- The standby of an actuator loaded with its primary's states. -/
def State.loadStandby (s : State) (n : Fin 4) : State := s.updSv n fun v => { v with stby := v.comp }

/-- STBY_RST (R239): the standby of a pivot is reloaded from the states of its two primaries. -/
def execStbyRst (p : Fin 2) (s : State) : Host.Outcome State Fault Refusal :=
  let s1 := if p.val = 0 then (s.loadStandby 0).loadStandby 1 else (s.loadStandby 2).loadStandby 3
  .next (s1.wr (Fd.SRV_STBY_FAILED (2 * p.val)) 0)

/-- CSWAP (R221): the other compensator bank, at the next period opening. -/
def execCswap (n : Fin 4) (s : State) : Host.Outcome State Fault Refusal := .next (s.updSv n fun v => { v with pendCswap := true })

/-- FF_SWAP (R233): the other feedforward bank, at the next period opening. -/
def execFfSwap (n : Fin 4) (s : State) : Host.Outcome State Fault Refusal := .next (s.updSv n fun v => { v with pendFf := true })

/-- Whether a level of a shock input is its active one at an actuator: POL 0 active high, 1 active low (Table 06.14). -/
def State.shockLevel (s : State) (n : Fin 4) (i : Nat) (level : Bool) : Bool := level != s.rdBit (Fd.SRV_SHK_POL n) i

/-- A shock input becomes active at one actuator, once it has stood at its active level for FILT + 1 samples (R240). -/
def State.shock (s : State) (n : Fin 4) (i : Nat) (level : Bool) (samples : Nat) : State :=
  if !s.shockLevel n i level || samples ≤ s.rd (Fd.SRV_SHK_FILT n) || !s.rdBit (Fd.SRV_SHK_MASK n) i || bit (s.sv n).shock i then s
  else
    let s1 := (s.updSv n fun v => { v with shock := setBit v.shock i, shockHold := false }).writeStop n 2
    (((s1.wr (Fd.SRV_STATUS_SHKINH n) 1).wr (Fd.SRV_INT_SHOCK n) 1).count (Fd.SRV_CNT3_SHOCKS n) 1).raise (.servo n) 0x1408 3 [(s1.sv n).shock]

/-- SHOCK_INPUT (R240): an input has stood at a level for a number of 20 ns samples; writing stops on every actuator for which it is active. -/
def execShockInput (i : Fin 2) (level : Bool) (samples : Nat) (s : State) : Host.Outcome State Fault Refusal :=
  .next ((((s.shock 0 i.val level samples).shock 1 i.val level samples).shock 2 i.val level samples).shock 3 i.val level samples)

/-- A shock input leaves its active level at one actuator: after the last one, the hold runs. -/
def State.shockOver (s : State) (n : Fin 4) (i : Nat) (level : Bool) : State :=
  if s.shockLevel n i level then s
  else s.updSv n fun v =>
    if bit v.shock i then { v with shock := clrBit v.shock i, shockHold := clrBit v.shock i == 0 } else v

/-- SHOCK_INPUT_RELEASE (R240): an input goes to a level, which ends it where that is not the active one. -/
def execShockInputRelease (i : Fin 2) (level : Bool) (s : State) : Host.Outcome State Fault Refusal :=
  .next ((((s.shockOver 0 i.val level).shockOver 1 i.val level).shockOver 2 i.val level).shockOver 3 i.val level)

/-- SHOCK_HOLD_END (R240): the inhibit ends, and ONT is false. -/
def execShockHoldEnd (n : Fin 4) (s : State) : Host.Outcome State Fault Refusal :=
  if (s.sv n).shockHold then
    .next (((s.wr (Fd.SRV_STATUS_SHKINH n) 0).dropOnt n).updSv n fun v => { v with shockHold := false })
  else .next s

/-! ### Load, unload, retract (R241 to R245) -/

/-- LOAD (R241, R531): ignored while not parked or not fitted; LOADERR while IMAX is 0 or junction critical is set. -/
def execLoad (n : Fin 4) (s : State) : Host.Outcome State Fault Refusal :=
  if s.mode n ≠ 0 ∨ !s.on (Fd.SRV_CTL_FITTED n) then .next s
  else if s.rd (Fd.SRV_LIM_IMAX n) = 0 ∨ s.rdBit Fd.HSK_TSTAT_COND 5 then .next (s.wr (Fd.SRV_INT_LOADERR n) 1)
  else
    .next ((s.wr (Fd.SRV_STATUS_MODE n) 1).updSv n fun v =>
      { v with load := .offRamp, emf := 4 * (bits v.dieRet 16 8 : Int), phase := .capture, goal := .track, target := none, word := none, words := 0, hop := none, held := false, bank := 0 })

/-- LOAD_TIMEOUT (R241): the load has not completed in 250 ms, and the heads return to the ramp. -/
def execLoadTimeout (n : Fin 4) (s : State) : Host.Outcome State Fault Refusal :=
  if s.mode n ≠ 1 then .next s
  else
    .next ((((s.wr (Fd.SRV_INT_LOADERR n) 1).raise (.servo n) 0x1406 5 [s.selHead n]).wr (Fd.SRV_STATUS_MODE n) 5).updSv n fun v =>
      { v with load := .ramp, emf := v.outwardEmf, phase := .none, goal := .none, target := none })

/-- An unload begins, where the actuator tracks and is not owned: the servo seeks B0 first (R242). -/
def State.unload (s : State) (n : Fin 4) : State :=
  if s.mode n ≠ 2 ∨ s.owned n then s
  else
    let s1 := (s.wr (Fd.SRV_STATUS_MODE n) 5).updSv n fun v => { v with target := none, load := .seekB0 }
    (s1.freshSeek n).beginMove n 0 512

/-- UNLOAD (R242): accepted while tracking and not owned. -/
def execUnload (n : Fin 4) (s : State) : Host.Outcome State Fault Refusal := .next (s.unload n)

/-- ERET (R245). -/
def execEret (n : Fin 4) (s : State) : Host.Outcome State Fault Refusal := .next (s.retract n 0)

/-- RAMP_DETECT (Table 06.9): the back-EMF has fallen with the current at its limit; the park current is applied. -/
def execRampDetect (n : Fin 4) (s : State) : Host.Outcome State Fault Refusal :=
  if (s.sv n).load = .outward then .next (s.updSv n fun v => { v with load := .park, parkMa := 10 * bits v.dieRet 24 8 }) else .next s

/-- PLSTAT.PARKED set once every actuator is parked after a declaration (R624). -/
def State.settleParked (s : State) : State :=
  if s.on Fd.HSK_PLSTAT_DECL && four.all (fun n => s.mode n == 0) then s.wr Fd.HSK_PLSTAT_PARKED 1 else s

/-- PARK_COMPLETE (Table 06.9): bridges off, the actuator parked; PARKED is set by an unload or a retract. -/
def execParkComplete (n : Fin 4) (s : State) : Host.Outcome State Fault Refusal :=
  let v := s.sv n
  if v.load ≠ .park ∧ v.load ≠ .ramp then .next s
  else
    let s1 := (s.wr (Fd.SRV_STATUS_MODE n) 0).updSv n fun w => 
      { w with load := .none, emf := 0, parkMa := 0, phase := .none, goal := .none, target := none, bank := 0 }
    .next (if v.load = .park then s1.wr (Fd.SRV_INT_PARKED n) 1 else s1).settleParked

end Sys2Proof.Machine
end

