-- ==== Sys2Proof/Machine/Channel.lean ====
section
/-! DEFINITION. The bank clock, index fields, bank words, region tables and crossing buffers (01, 02, 04). -/

namespace Sys2Proof.Machine

/-! ### Bank words (R54 to R56, Table 02.3) -/

/-- One step of CRC-4 with polynomial x^4 + x + 1, the bits taken from the highest of `n` down. -/
def crc4 (v : Nat) (c : Nat) : Nat → Nat
  | 0 => c
  | n + 1 =>
    let top := b2n (bit c 3) ^^^ b2n (bit v n)
    crc4 v ((2 * c) % 16 ^^^ (if top = 1 then 3 else 0)) n

/-- The bank number of a Gray word of `n` bits: b[19] = G[19], b[i] = b[i + 1] XOR G[i] (R55). -/
def ungray (g : Nat) : Nat → Nat → Nat
  | _, 0 => 0
  | prev, n + 1 =>
    let b := prev ^^^ b2n (bit g n)
    b * 2 ^ n + ungray g b n

/-- The bank number of a valid word: its MARK and its CHK match (R56). -/
def bankOfWord (mark gray chk : Nat) : Option Nat :=
  if mark = 0b1101 ∧ chk = crc4 gray 0 20 then some (ungray gray 0 20) else none

/-! ### The bit count (R52, R173) -/

/-- A cycle slip: writing is inhibited, the event is recorded and the agreement count starts again; `atWord`: found at a bank word. -/
def State.slip (s : State) (n : Fin 4) (atWord : Bool) : State :=
  let s1 := s.updCh n fun c => { c with slipInh := true, resync := atWord, agree := 0, missed := 0 }
  (((s1.raise (.channel n) 0x1103 4 (s.selHead n :: leBytes 4 s.freeVal ++ [b2n atWord])).tookFree).writeStop n 4)

/-- Whether the actuator follows a track with its bank clock locked, so that slots and revolutions are counted as they pass (R103). -/
def State.countsSlots (s : State) (n : Fin 4) : Bool := s.blk n && s.mode n == 2 && (s.sv n).target.isSome

/-- A timeout of index fields counts one that passes (R103). -/
def Timeout.indexed (t : Timeout) : Timeout := if t.unit.val = 2 then { t with done := t.done + 1 } else t

/-- A wait counts an index field that passes (R103). -/
def Op.indexed : Op → Op
  | .wait c t => .wait c t.indexed
  | .join m t => .join m t.indexed
  | o => o

/-- An index field at a slot: its IDX latch is set, and while the actuator counts them a wait does so (R103, R146). -/
def Slot.indexed (x : Slot) (counts : Bool) : Slot :=
  { x with arch := { x.arch with idx := true }, op := if counts then x.op.map Op.indexed else x.op }

/-- INDEX_FIELD (R52, R146, R173): the IDX latches are set; a field that agrees counts toward lifting the inhibit, one that does not resets the
count, and after a slip found at a bank word the first one does. -/
def execIndexField (n : Fin 4) (dev : Nat) (s : State) : Host.Outcome State Fault Refusal :=
  let s1 := s.updEng n fun r => { r with slots := r.slots.map fun x => x.indexed (s.countsSlots n) }
  let c := s.ch n
  if c.resync then .next (s1.updCh n fun c => { c with resync := false, agree := 0, missed := 0 })
  else if 16 ≤ dev then .next (s1.slip n false)
  else
    let lift := 2 ≤ c.agree + 1
    .next (s1.updCh n fun c => { c with agree := min 2 (c.agree + 1), missed := 0, slipInh := c.slipInh && !lift })

/-- INDEX_FIELD_MISSED (R52): the third in a row inhibits writing. -/
def execIndexFieldMissed (n : Fin 4) (s : State) : Host.Outcome State Fault Refusal :=
  let m := (s.ch n).missed + 1
  if 3 ≤ m then .next ((s.updCh n fun c => { c with missed := m, agree := 0, slipInh := true }).writeStop n 4)
  else .next (s.updCh n fun c => { c with missed := m, agree := 0 })

/-! ### The wrong-bank check (R56, R223, R228) -/

/-- A valid bank word while the servo tracks, or moves in lock: two consecutive words that disagree with the current bank inhibit writing. -/
def State.checkBank (s : State) (n : Fin 4) (b : Nat) : State :=
  let want := (s.sv n).bank
  if b = want then s.updCh n fun c => { c with wrongRun := 0, bankInh := false }
  else if (s.ch n).wrongRun + 1 = 2 then
    ((s.updCh n fun c => { c with wrongRun := 2, bankInh := true }).raise (.channel n) 0x1105 4
      (s.selHead n :: leBytes 3 want ++ leBytes 3 b)).writeStop n 5
  else s.updCh n fun c => { c with wrongRun := min 2 (c.wrongRun + 1) }

/-- The region under the bank reader: that of the bank the servo reckons with, on the selected head. -/
def State.bankRegionNow (s : State) (n : Fin 4) : Option Region := s.bankRegion n (s.selHead n) (s.sv n).bank

/-- Whether the word place `w` of the revolution is cut off by the index field: words of 6,144 bits follow one another from angular position 0, and
the last one that does not fit the track is truncated (R54). -/
def State.truncated (s : State) (n : Fin 4) (w : Nat) : Bool := (s.bankRegionNow n).any fun r => 16 * r.tone < 6144 * (w + 1)

/-- BANK_WORD (R54 to R56, R173, R227): a word of the position half; a truncated one names no bank. The wrong-bank check applies while the
servo tracks or moves in lock, and not from the release of a crossing seek until its arrival (R228). -/
def execBankWord (n : Fin 4) (w : Nat) (mark : BitVec 4) (gray : BitVec 20) (chk : BitVec 4) (dev : Nat) (s : State) :
    Host.Outcome State Fault Refusal :=
  if !s.blk n || s.truncated n w then .next s
  else
    let o := bankOfWord mark.toNat gray.toNat chk.toNat
    if (s.sv n).phase = .confirm then .next (s.confirmWord n o)
    else match o with
      | none => .next s
      | some b =>
        let s1 := if s.writing n ∧ 8 ≤ dev then s.slip n true else s
        if s.mode n = 2 ∨ (s.mode n = 3 ∧ (s.sv n).phase = .inlock ∧ !(s.sv n).crossing) then .next (s1.checkBank n b) else .next s1

/-! ### BLK (R143, R144) -/

/-- The channel rate in Mb/s, 16 × N_tone × (spindle rpm / 60) of the region under the bank reader, at the measured speed (R50). DESIGN CHOICE: the
spec does not say how RATE.MBPS is rounded; the nearest whole number is taken. -/
def State.channelRate (s : State) (n : Fin 4) : Nat :=
  (16 * ((s.bankRegionNow n).map Region.tone).getD 0 * s.rd Fd.SPN_SPEED_RPM10 + 300000000) / 600000000

/-- BLK_LOCK (R50, R142, R143): BLK is set where the rate is one that the demodulator accepts; a HEAD that waited for it ends (R112). -/
def execBlkLock (n : Fin 4) (s : State) : Host.Outcome State Fault Refusal :=
  let mbps := s.channelRate n
  if s.blk n || !s.on (Fd.CHN_CTL_EN n) || !s.headOk n (s.selHead n) || mbps < 1600 || 7200 < mbps || s.selecting n then .next s
  else
    let s1 := (s.wr (Fd.CHN_STATUS_BLK n) 1).wr (Fd.CHN_RATE_MBPS n) mbps
    match s1.ownerOp n with
    | some (k, .head) => .next (s1.complete n k fun a => a.setCode 0)
    | _ => .next s1

/-- BLK_LOSS (R144, R193): counted unless a change of head or region caused it; a write stops. -/
def execBlkLoss (n : Fin 4) (c : BlkCause) (s : State) : Host.Outcome State Fault Refusal :=
  if !s.blk n then .next s
  else
    let s1 := s.clearBlk n
    let s2 := match c with
      | .headChange | .regionChange => s1
      | .phase | .amplitude | .disabled => s1.countBlkLoss n
    .next (s2.writeStop n 3)

/-! ### Region tables (R63, R82) -/

/-- An instruction that addresses a head whose table has become invalid: it starts nothing further and ends with code 0x08, a motion or an
implicit positioning at once, the servo then tracking the bank it holds (R82). -/
def State.tableGone (s : State) (n : Fin 4) (h : Nat) : List (Fin 4) → State
  | [] => s
  | k :: l =>
    let x := s.pslot n k
    let of := (x.aim.map fun p => tpHead p.1.tp).getD x.arch.head
    let runs := x.st = .running
    (if of ≠ h then s
      else match x.op with
        | some (.media m) =>
          if m.positioned then s.endWith n k 0x08 else (if runs then s.dropTarget n else s).endWith n k 0x08
        | some .skipto | some .seek | some .follow | some (.settle _) => (if runs then s.dropTarget n else s).complete n k fun a => a.setCode 0x08
        | some .head => s.complete n k fun a => a.setCode 0x08
        | _ => s).tableGone n h l

/-- RCH.REGION.VALID of a head cleared, where it is 1. -/
def State.dropTable (s : State) (n : Fin 4) (h : Nat) : State :=
  if s.rdBit (Fd.RCH_REGION_VALID n) h then (s.clrB (Fd.RCH_REGION_VALID n) h).tableGone n h four else s

/-- REGION_LOAD (R63, R82): the table of the head is validated. -/
def execRegionLoad (n : Fin 4) (h : Fin 8) (s : State) : Host.Outcome State Fault Refusal :=
  match tableFault (s.descs n h.val) with
  | none => .next ((s.setB (Fd.RCH_REGION_VALID n) h.val).clrB (Fd.RCH_REGION_FAIL n) h.val)
  | some (c, i) => .next (((s.dropTable n h.val).setB (Fd.RCH_REGION_FAIL n) h.val).raise (.reach n) 0x1003 6 [h.val, c, i])

/-- REGION_TABLE_STORE (R82): a store into the table area of a head clears its VALID bit. -/
def execRegionTableStore (n : Fin 4) (dw : Fin 8192) (v : BitVec 64) (s : State) : Host.Outcome State Fault Refusal :=
  .next ((s.stored (wmem n + 8 * dw.val) (leBytes 8 v.toNat)).dropTable n (dw.val / 1024))

/-- The engine and head whose region table holds a byte of working memory (R82). -/
def tableOf (a : Nat) : Option (Fin 4 × Nat) :=
  (four.find? fun n => wmem n ≤ a && a < wmem n + 0x10000).map fun n => (n, (a - wmem n) / 0x2000)

/-- MEM_WRITE (R394, R398): a word outside SRAM and mapped DRAM completes with a bus error (R393); a write into the factory calibration row
is ignored and sets CFL.INT.ROW (R459); one into a head's region table clears its VALID bit (R82). DEDUCED: the row names no requester, and a
write to a table area is taken as firmware's. -/
def execMemWrite (w : BitVec 37) (v : BitVec 64) (be : BitVec 8) (s : State) : Host.Outcome State Fault Refusal :=
  if s.isMem (8 * w.toNat) 8 then
    let s1 := (s.memPut w.toNat v.toNat be.toNat).reply 0
    match tableOf (8 * w.toNat) with
    | some (n, h) => .next (s1.dropTable n h)
    | none => .next s1
  else if inFactoryRow w.toNat then .next (s.wr Fd.CFL_INT_ROW 1).busError
  else .next s.busError

end Sys2Proof.Machine
end

