-- ==== Sys2Proof/Machine/Arm.lean ====
section
/-! DEFINITION. The arm links and the preamplifiers (05). -/

namespace Sys2Proof.Machine

/-! ### Frames (R196 to R199) -/

/-- CRC-8 with polynomial x^8 + x^2 + x + 1 over the `n` low bits of `v`, highest first, from `c` on (R198). -/
def crc8 (v : Nat) (c : Nat) : Nat → Nat
  | 0 => c
  | n + 1 =>
    let top := b2n (bit c 7) ^^^ b2n (bit v n)
    crc8 v ((2 * c) % 256 ^^^ (if top = 1 then 7 else 0)) n

/-- A body of bits with its CRC-8 behind it (R198). -/
def withCrc8 (body n : Nat) : Nat := 256 * body + crc8 body 0xFF n

/-- Words behind a header, the first one first. -/
def framed16 (h : Nat) (l : List Nat) : Nat := l.foldl (fun v w => 2 ^ 16 * v + w % 2 ^ 16) h

/-- The header of a frame: CMD, LEN and ADDR (R196). -/
def armHeader (cmd len addr : Nat) : Nat := 2 ^ 12 * cmd + 2 ^ 9 * (len % 8) + addr % 2 ^ 9

/-- The frame of a read, 24 bits, or of a write, 40 + 16 LEN bits (Table 05.7). -/
def ArmTx.frame (t : ArmTx) : Nat :=
  if t.rd then withCrc8 (armHeader 1 t.len t.addr) 16
  else
    let l := (List.range (t.len + 1)).map fun i => t.words.getD i 0
    withCrc8 (framed16 (armHeader 2 t.len t.addr) l) (16 * (t.len + 2))

/-- A TD frame (Table 05.8). -/
def tdFrame (seq drive : Nat) : Nat := withCrc8 (2 ^ 20 * 0xE + 2 ^ 18 * (seq % 4) + drive % 2 ^ 18) 24

/-- Whether a TD frame is valid: its CMD and its CRC (Table 05.8). -/
def tdValid (f : Nat) : Bool := bits f 28 4 == 0xE && bits f 0 8 == crc8 (f / 256) 0xFF 24

/-- The CRC of a response: over its status and words (R197, R198). -/
def responseCrc (st : Nat) (l : List Nat) : Nat := crc8 (framed16 st l) 0xFF (8 + 16 * l.length)

/-! ### The preamplifier (R196, R197, R206, Table 05.9) -/

/-- Whether the preamplifier of an arm implements an address: its common registers, and the blocks of the heads it has. -/
def preampHas (n : Fin 4) (a : Nat) : Bool :=
  a ≤ 2 || (8 ≤ a && a ≤ 0xC) ||
    (0x100 ≤ a && a < 0x200 && (a - 0x100) / 0x20 ≤ bits (Config.preampCaps n.val).toNat 0 3 && ((a % 0x20) ≤ 4 || (8 ≤ a % 0x20 && a % 0x20 ≤ 0xF)))

/-- The value of a preamplifier register; the contact sensor's reading is open. -/
def State.preampRd (s : State) (n : Fin 4) (a : Nat) : Nat :=
  if a = 0 then (Config.preampId n.val).toNat
  else if a = 1 then (Config.preampCaps n.val).toNat
  else if a = 2 then 1
  else if a = 0xC then bits s.freeVal 0 16
  else tget 0 (s.preamp.get n).regs a

/-- The level that a register word sets at once: the heater's, and the write level of the selected head (R181, R185); WARM going to 1 is an arming,
which puts the head's profile in force. -/
def Preamp.settled (p : Preamp) (a : Nat) (arming : Bool) : Preamp :=
  if arming then p.armed
  else if a = headReg (tget 0 p.regs 0x008) 0x0B then { p.heated with profile := p.profile.set 3 (tget 0 p.regs a) } else p.heated

/-- A preamplifier register written; ID, CAPS, LINKVER, FAULT and ECS are read only. -/
def State.preampWr (s : State) (n : Fin 4) (a v : Nat) : State :=
  if a ≤ 2 ∨ a = 0xA ∨ a = 0xC then s
  else s.updPreamp n fun p =>
    let arming := a = 9 ∧ bit v 0 ∧ !bit (tget 0 p.regs 9) 0
    { p with regs := tset 0 p.regs a (if a = 8 ∨ a = 9 then v % 8 else v % 65536) }.settled a arming

/-- A burst written. -/
def State.preampWrs (s : State) (n : Fin 4) (a : Nat) : List Nat → State
  | [] => s
  | w :: l => (s.preampWr n a w).preampWrs n (a + 1) l

/-- The status byte of a response (R197). -/
def State.preampStatus (s : State) (n : Fin 4) (ok adre : Bool) : Nat :=
  (if ok && !adre then 128 else 0) + (if ok then 0 else 64) + (if tget 0 (s.preamp.get n).regs 0xA ≠ 0 then 32 else 0) +
    (if (s.preamp.get n).tde then 16 else 0) + (if ok && adre then 8 else 0)

/-- A response sent, its status, words and CRC: TDE is reported once. -/
def State.responded (s : State) (n : Fin 4) (st : Nat) (l : List Nat) : State :=
  { s.updPreamp n fun p => { p with tde := false } with answer := (st :: l ++ [responseCrc st l]).map fun v => ⟨false, v⟩ }

/-- ARM_TD (R199, R219): a valid frame whose SEQ has advanced sets the drive; any other keeps it and sets TDE. The tether model takes the drive that is
then applied. -/
def execArmTd (n : Fin 4) (err : BitVec 32) (s : State) : Host.Outcome State Fault Refusal :=
  match (s.ch n).tdSent with
  | none => .next s
  | some g =>
    let f := g ^^^ err.toNat
    let s1 := s.updCh n fun c => { c with tdSent := none }
    let s2 := if tdValid f ∧ bits f 26 2 ≠ (s.preamp.get n).seq then
        s1.updPreamp n fun p => { p with drive := sgn 18 (bits f 8 18), seq := bits f 26 2, missed := 0 }
      else s1.updPreamp n fun p => { p with tde := true }
    .next (if (s2.sv n).modelRun then s2 else s2.runModel n)

/-- The response to a read of registers as they stand; reading FAULT clears it, and a fault still present sets its bit again (R205). DESIGN CHOICE: the
spec does not say whether the status of the response that carries FAULT still shows FLT; the status is taken as it stood when the frame arrived. -/
def State.readRegs (s : State) (n : Fin 4) (st : Nat) (as : List Nat) : State :=
  let l := as.map fun a => s.preampRd n a
  let s1 := if as.contains 0xC then s.tookFree else s
  (if as.contains 0xA then s1.updPreamp n fun p => { p with regs := tset 0 p.regs 0xA p.present } else s1).responded n st l

/-- ARM_RD (R196, R206): the frame of the read under way arrives; the response is the status and, where the read is accepted, the words. A frame whose
CRC holds and whose CMD is no read of this length is answered as a reserved CMD. -/
def execArmRd (n : Fin 4) (err : BitVec 24) (s : State) : Host.Outcome State Fault Refusal :=
  match (s.ch n).tx.filter ArmTx.rd with
  | none => .next s
  | some t =>
    let f := t.frame ^^^ err.toNat
    let ok := f % 256 == crc8 (f / 256) 0xFF 16
    let as := (List.range (bits f 17 3 + 1)).map fun i => bits f 8 9 + i
    let adre := bits f 20 4 ≠ 1 || 4 ≤ bits f 17 3 || as.any fun a => !preampHas n a
    let st := s.preampStatus n ok adre
    if !ok || adre then .next (s.responded n st []) else .next (s.readRegs n st as)

/-- ARM_WR (R196, R206): the frame of the write under way arrives; the burst is written, and the response is its status. -/
def execArmWr (n : Fin 4) (err : BitVec 88) (s : State) : Host.Outcome State Fault Refusal :=
  match (s.ch n).tx.filter fun t => !t.rd with
  | none => .next s
  | some t =>
    let w := 16 * (t.len + 1)
    let f := t.frame ^^^ (err.toNat % 2 ^ (w + 24))
    let ok := f % 256 == crc8 (f / 256) 0xFF (16 + w)
    let hd := bits f (8 + w) 16
    let a := bits hd 0 9
    let adre := bits hd 12 4 ≠ 2 || bits hd 9 3 ≠ t.len || 4 ≤ bits hd 9 3 || (List.range (t.len + 1)).any fun i => !preampHas n (a + i)
    let st := s.preampStatus n ok adre
    if !ok || adre then .next (s.responded n st [])
    else .next ((s.preampWrs n a ((List.range (t.len + 1)).map fun i => bits f (8 + 16 * (t.len - i)) 16)).responded n st [])

/-- PREAMP_TD_TIMEOUT (R199): eight periods without a valid TD frame while TDEN is 1: the drive is 0 and TDRV is latched. -/
def execPreampTdTimeout (n : Fin 4) (s : State) : Host.Outcome State Fault Refusal :=
  let p := s.preamp.get n
  if bit (tget 0 p.regs 9) 1 ∧ 8 ≤ p.missed then
    .next (s.updPreamp n fun p => { p with drive := 0, missed := 0, regs := tset 0 p.regs 0xA (setBit (tget 0 p.regs 0xA) 7) })
  else .next s

/-! ### Transactions (R200, R201) -/

/-- The priority of a waiting transaction (R200). -/
def ArmSrc.prio : ArmSrc → Nat
  | .fault => 2
  | .touchdown => 3
  | .firmware => 5
  | _ => 4

/-- Whether a transaction may start: HSEL is never written while the preamplifier is armed (R206). -/
def State.mayStart (s : State) (n : Fin 4) (t : ArmTx) : Bool := t.rd || !(t.addr ≤ 8 && 8 ≤ t.addr + t.len) || !s.on (Fd.CHN_WSTAT_ARMED n)

/-- The oldest waiting transaction of a priority that may start. -/
def State.firstTx (s : State) (n : Fin 4) (p : Nat) : Option ArmTx := (s.ch n).txq.find? fun t => t.src.prio == p && s.mayStart n t

/-- The waiting transaction that starts next. -/
def State.nextTx (s : State) (n : Fin 4) : Option ArmTx :=
  s.firstTx n 2 <|> s.firstTx n 3 <|> s.firstTx n 4 <|> s.firstTx n 5

/-- The next waiting transaction starts on an idle link. -/
def State.startTx (s : State) (n : Fin 4) : State :=
  if !s.on (Fd.ARM_CTL_EN n) || (s.ch n).tx.isSome then s
  else match s.nextTx n with
    | none => s
    | some t => s.updCh n fun c => { c with tx := some t, txq := c.txq.erase t }

/-- The touchdown read of every 10 µs, four servo periods, while CHN.TDCTL.EN is 1 (R187). -/
def State.ecsTurn (s : State) (n : Fin 4) : State :=
  if !s.on (Fd.CHN_TDCTL_EN n) then s.updCh n fun c => { c with ecsTick := 0 }
  else
    let c := s.ch n
    let t : ArmTx := ⟨.ecs, true, 0x00C, 0, [], false⟩
    let waits := c.txq.any (fun u => u.src == ArmSrc.ecs) || c.tx.any fun u => u.src == ArmSrc.ecs
    let s1 := if c.ecsTick = 0 ∧ !waits then s.armSend n t else s
    s1.updCh n fun c => { c with ecsTick := (c.ecsTick + 1) % 4 }

/-- ARM_PERIOD (R200): the period's TD frame is sent with the servo's drive, and waiting transactions start. -/
def execArmPeriod (n : Fin 4) (s : State) : Host.Outcome State Fault Refusal :=
  let s1 := s.updPreamp n fun p => { p with missed := min 8 (p.missed + 1) }
  if s.on (Fd.ARM_CTL_EN n) then
    let s2 := s1.updCh n fun c =>
      { c with tdSeq := (c.tdSeq + 1) % 4, tdSent := some (tdFrame (c.tdSeq + 1) (unsgn 18 (s.sv n).send)) }
    .next ((s2.ecsTurn n).startTx n)
  else .next s1

/-! ### Attention (R205) -/

/-- Whether a FAULT read waits or runs. -/
def State.readingFault (s : State) (n : Fin 4) : Bool :=
  let is := fun t : ArmTx => t.src == ArmSrc.fault
  (s.ch n).txq.any is || (s.ch n).tx.any is

/-- A slot's waiting transactions dropped. -/
def State.dropTx (s : State) (n k : Fin 4) : State :=
  s.updCh n fun c => { c with txq := c.txq.filter fun t => match t.src with
    | .head j | .asp j _ | .htr j => j != k
    | _ => true }

/-- A HEAD, ASP or HTR in progress, or the head selection of an implicit positioning, ends with code 0x0F (R205). -/
def State.armOpFails (s : State) (n k : Fin 4) : State :=
  let s1 := s.dropTx n k
  match (s.pslot n k).op with
  | some .arm | some .head | some .seek | some .follow => s1.complete n k fun a => a.setCode 0x0F
  | some (.media m) => if m.positioned then s1 else s1.endWith n k 0x0F
  | some .skipto => s1.complete n k fun a => a.setCode 0x0F
  | _ => s1

/-- Attention, or FLT in a response: writing stops, FAULT is read unless its read waits already, and a HEAD, ASP or HTR in progress fails. -/
def State.attention (s : State) (n : Fin 4) : State :=
  let s0 := ((s.writeStop n 7).wr (Fd.ARM_INT_ATTN n) 1).headCount n (Fd.CHN_HWCNT1_ATTN n (s.selHead n))
  let s1 := if s.readingFault n then s0 else s0.armSend n ⟨.fault, true, 0x00A, 0, [], false⟩
  match s1.ownerOp n with
  | some (k, .arm) | some (k, .head) => s1.armOpFails n k
  | _ => s1

/-- PREAMP_ATTENTION (R205, R206): the faults present set their bits of FAULT; one that FMASK does not mask raises attention on DI. -/
def execPreampAttention (n : Fin 4) (faults : BitVec 9) (s : State) : Host.Outcome State Fault Refusal :=
  let v := tget 0 (s.preamp.get n).regs 0xA ||| faults.toNat
  let s1 := s.updPreamp n fun p => { p with present := faults.toNat, regs := tset 0 p.regs 0xA v }
  if v &&& tget 0 (s.preamp.get n).regs 0xB = v then .next s1 else .next ((s1.wr (Fd.ARM_STATUS_ATTN n) 1).attention n)

/-! ### Responses (R181, R203, R208) -/

/-- The assist loop starts a new window from the profile's write level (R182). -/
def State.loopRestart (s : State) (n : Fin 4) : State :=
  if (s.ch n).loopOn then
    (s.updCh n fun c => { c with loopN := 0, loopSum := 0, txq := c.txq.filter fun t => t.src != ArmSrc.loop }).wr (Fd.CHN_ALOOP_LEVEL n)
      ((s.ch n).profAcked.getD 3 0)
  else s

/-- The second burst of a profile is acknowledged: its loop bounds and targets are latched (R181, R184). -/
def State.latchProfile (s : State) (n : Fin 4) : State :=
  let w := fun i => (s.ch n).profSent.getD i 0
  ((s.wrs [(Fd.CHN_ABND_WR_MIN n, w 8), (Fd.CHN_ABND_WR_MAX n, w 9), (Fd.CHN_ATGT_SW_TGT n, w 10), (Fd.CHN_ATGT_STEP n, w 11)]).updCh n
    fun c => { c with loopOn := true, profAcked := c.profSent }).loopRestart n

/-- A firmware request ends with a RESULT. -/
def State.reqEnds (s : State) (n : Fin 4) (r : Nat) : State :=
  s.wrs [(Fd.ARM_STATUS_BUSY n, 0), (Fd.ARM_STATUS_RESULT n, r), (Fd.ARM_INT_DONE n, 1)]

/-- Words of a burst land in DATA. -/
def State.landWords (s : State) (n : Fin 4) (i : Nat) : List (BitVec 16) → State
  | [] => s
  | w :: l => (s.wr (Fd.ARM_DATA_DATA n i) w.toNat).landWords n (i + 1) l

/-- A LINKVER other than 1 read by firmware: the arm's heads are not served (R208). -/
def State.checkLinkver (s : State) (n : Fin 4) (t : ArmTx) (l : List (BitVec 16)) : State :=
  if !t.rd ∨ 2 < t.addr ∨ t.addr + t.len < 2 then s
  else
    let v := ((l.getD (2 - t.addr) 0).toNat)
    if v = 1 then s
    else
      let id := if t.addr = 0 then (l.getD 0 0).toNat else (Config.preampId n.val).toNat
      (eight.foldl (fun u h => u.setUnit (.head n h) 7) s).raise (.armLink n) 0x1303 6 (leBytes 2 v ++ leBytes 2 id)

/-- A head's selection acknowledged: a change of head starts a new window of the assist loop (R112, R182). -/
def State.headDone (s : State) (n : Fin 4) (h : Nat) : State :=
  if h = s.selHead n then s else (s.wr (Fd.CHN_STATUS_HEAD n) h).loopRestart n

/-- What an acknowledged write of firmware's changes: the selected head, and WARM as last acknowledged (R208). -/
def State.wroteRegs (s : State) (n : Fin 4) (t : ArmTx) : State :=
  let s1 := if t.addr ≤ 8 ∧ 8 ≤ t.addr + t.len then
      let h := t.words.getD (8 - t.addr) 0 % 8
      if h = s.selHead n then s else (s.clearBlk n).headDone n h
    else s
  if t.addr ≤ 9 ∧ 9 ≤ t.addr + t.len then
    let v := t.words.getD (9 - t.addr) 0 % 2
    (s1.wr (Fd.ARM_STATUS_WARM n) v).wr (Fd.CHN_WSTAT_ARMED n) v
  else s1

/-- A transaction ends with its acknowledgement. -/
def State.txDone (s : State) (n : Fin 4) (t : ArmTx) (l : List (BitVec 16)) : State :=
  let s1 := s.updCh n fun c => { c with tx := none }
  match t.src with
  | .head _ => s1.headDone n (t.words.getD 0 0)
  | .asp k last =>
    if !last then s1
    else
      let s2 := s1.latchProfile n
      if (s2.pslot n k).op = some .arm then s2.complete n k fun a => a.setCode 0 else s2
  | .htr k => if (s1.pslot n k).op = some .arm then s1.complete n k fun a => a.setCode 0 else s1
  | .warmOff => (s1.wr (Fd.ARM_STATUS_WARM n) 0).wr (Fd.CHN_WSTAT_ARMED n) 0
  | .fault =>
    let v := (l.getD 0 0).toNat
    ((s1.wr (Fd.ARM_FAULT_FAULT n) v).wr (Fd.ARM_STATUS_ATTN n) 0).raise (.armLink n) 0x1301 4 (leBytes 2 v ++ [s.selHead n])
  | .firmware =>
    let s2 := if t.rd then s1.landWords n 0 (l.take (t.len + 1)) else s1.wroteRegs n t
    (s2.checkLinkver n t l).reqEnds n 0
  | .ecs => s1.ecsReading n (l.getD 0 0).toNat
  | .loop | .touchdown => s1

/-- A transaction ends without success: after a failed repeat, or on ADRE (R203). -/
def State.txFails (s : State) (n : Fin 4) (t : ArmTx) (adre : Bool) : State :=
  let s1 := (s.updCh n fun c => { c with tx := none }).linkErr n t.rd t.addr adre
  match t.src with
  | .head k | .asp k _ | .htr k => (s1.updSlot n k fun x => { x with armFail := true }).armOpFails n k
  | .firmware => s1.reqEnds n (if adre then 1 else 2)
  | _ => s1

/-- What a response says of its link: its status, TDE and FLT (R197, R205, R208). DESIGN CHOICE: FLT in the response that brings FAULT itself raises
no second attention. -/
def State.noteStatus (s : State) (n : Fin 4) (t : ArmTx) (st : Nat) : State :=
  let s1 := s.wr (Fd.ARM_STATUS_LASTSTAT n) st
  let s2 := if bit st 4 then (s1.wr (Fd.ARM_INT_TDE n) 1).count (Fd.ARM_ERRCNT_TDERR n) 1 else s1
  if bit st 5 ∧ t.src ≠ .fault then s2.attention n else s2

/-- Whether a response to a transaction is valid: its CRC, its low bits, ACK and CRCE, and the words of an accepted read (R197). -/
def respValid (f : ArmFrame) (t : ArmTx) : Bool :=
  let st := f.status.toNat
  f.crc.toNat == responseCrc st (f.words.map BitVec.toNat) && st % 8 == 0 && !(bit st 7 && bit st 6) &&
    (!(t.rd && bit st 7) || f.words.length == t.len + 1)

/-- ARM_RESPONSE (R203, R205): a valid acknowledgement ends the transaction, ADRE and a second failure fail it, and any other response repeats it
once; what the response reports of faults comes first. -/
def execArmResponse (n : Fin 4) (f : ArmFrame) (s : State) : Host.Outcome State Fault Refusal :=
  match (s.ch n).tx with
  | none => .next s
  | some t =>
    let st := f.status.toNat
    let again := fun u : State =>
      if t.retried then u.txFails n t false
      else (u.count (Fd.ARM_ERRCNT_RETRY n) 1).updCh n fun c => { c with tx := some { t with retried := true } }
    if !respValid f t then .next ((again s).startTx n)
    else
      let s1 := s.noteStatus n t st
      .next ((if bit st 3 then s1.txFails n t true else if bit st 7 then s1.txDone n t f.words else again s1).startTx n)

/-! ### Firmware requests (R204) -/

/-- ARM_REQ_GO (R204): refused with RESULT 3 while the link is off, or for HSEL or MODE while the actuator is owned or armed. -/
def execArmReqGo (n : Fin 4) (s : State) : Host.Outcome State Fault Refusal :=
  if s.on (Fd.ARM_STATUS_BUSY n) then .next s
  else
    let a := s.rd (Fd.ARM_REQ_ADDR n)
    let len := s.rd (Fd.ARM_REQ_LEN n)
    let mode := a ≤ 9 && 8 ≤ a + len
    if !s.on (Fd.ARM_CTL_EN n) || (mode && (s.owned n || s.on (Fd.CHN_WSTAT_ARMED n))) then .next (s.reqEnds n 3)
    else
      let words := if s.on (Fd.ARM_REQ_RD n) then [] else (List.range (len + 1)).map fun i => s.rd (Fd.ARM_DATA_DATA n i)
      .next ((s.wr (Fd.ARM_STATUS_BUSY n) 1).armSend n ⟨.firmware, s.on (Fd.ARM_REQ_RD n), a, len, words, false⟩)

/-- ARM_LINK_RESET (R204): the preamplifier's link logic returns to idle, and its registers stay. -/
def execArmLinkReset (n : Fin 4) (s : State) : Host.Outcome State Fault Refusal :=
  .next (s.updPreamp n fun p => { p with tde := false })

end Sys2Proof.Machine
end

