-- ==== Sys2Proof/Machine/Sluice.lean ====
section
/-! DEFINITION. Sluice (13): channels, descriptors, round-out and funnel accesses, the media cipher and the sector transfers. -/

namespace Sys2Proof.Machine

/-! ### Channels -/

/-- A channel beside its registers. -/
def State.slu (s : State) (c : Nat) : SluChan := tget SluChan.reset s.sluice.chans c

/-- A channel changed. -/
def State.updSlu (s : State) (c : Nat) (g : SluChan → SluChan) : State :=
  { s with sluice := { s.sluice with chans := tset SluChan.reset s.sluice.chans c (g (s.slu c)) } }

/-- CHSTAT.STATE: 0 idle, 1 running, 3 stopped, 4 error. -/
def State.sluState (s : State) (c : Nat) : Nat := s.rd (Fd.SLC_CHSTAT_STATE c)

/-- Whether a channel's chain runs. -/
def State.sluRuns (s : State) (c : Nat) : Bool := s.on Fd.SLC_CTL_EN && s.sluState c == 1

/-! ### Descriptors (Table 13.3) -/

/-- SRC. -/
def descSrc (d : List Nat) : Nat := bits (d.getD 0 0) 0 40

/-- COUNT. -/
def descCount (d : List Nat) : Nat := bits (d.getD 0 0) 40 24

/-- DST. -/
def descDst (d : List Nat) : Nat := bits (d.getD 1 0) 0 40

/-- INT. -/
def descInt (d : List Nat) : Bool := bit (d.getD 1 0) 40

/-- LAST. -/
def descLast (d : List Nat) : Bool := bit (d.getD 1 0) 41

/-- MODE: funnel. -/
def descFunnel (d : List Nat) : Bool := bit (d.getD 1 0) 42

/-- CIPH. -/
def descCiph (d : List Nat) : Nat := bits (d.getD 1 0) 43 2

/-- NEXT. -/
def descNext (d : List Nat) : Nat := bits (d.getD 2 0) 0 40

/-- TAG. -/
def descTag (d : List Nat) : Nat := bits (d.getD 2 0) 48 16

/-- KEYRANGE. -/
def descKeyRange (d : List Nat) : Nat := bits (d.getD 3 0) 0 8

/-- DUN. -/
def descDun (d : List Nat) : Nat := bits (d.getD 3 0) 16 48

/-! ### Targets (R420, Table 13.4) -/

/-- What Sluice finds at an address: memory, register space, code flash or boot ROM, or nothing it reaches. -/
inductive SluTarget where
  | mem | reg | rom | none
deriving DecidableEq, Repr

/-- The target of an address (Tables 13.4 and 20.2). -/
def State.sluTarget (s : State) (a : Nat) : SluTarget :=
  if s.inDram a ∨ (0x0100000000 ≤ a ∧ a < 0x0101000000) ∨ (0x0104000000 ≤ a ∧ a < 0x0104400000) ∨ (0x0105000000 ≤ a ∧ a < 0x0105800000) then .mem
  else if 0x0200000000 ≤ a ∧ a < 0x0200400000 then
    let off := above 0x0200000000 a
    if off / 65536 = 9 ∧ (off % 65536 < 0x1000 ∨ (0x8000 ≤ off % 65536 ∧ off % 65536 < 0xA000 ∧ off % 32 < 8)) then .none else .reg
  else if a < 0x40000 ∨ (0x0400000000 ≤ a ∧ a < 0x0404000000) then .rom
  else .none

/-- Whether a key range's key is available to the cipher (R604). -/
def State.keyOk (s : State) (r : Nat) : Bool := r ≤ 64 && s.trust.loaded.contains r

/-- The error that a descriptor meets before any access, lowest code first (R421, R422, R424, Table 13.5). -/
def State.descError (s : State) (d : List Nat) : Option Nat :=
  let regs := s.sluTarget (descSrc d) == SluTarget.reg || s.sluTarget (descDst d) == SluTarget.reg
  let bad4 := fun a => s.sluTarget a == SluTarget.reg && (a % 4 != 0 || descCount d % 4 != 0)
  if descCount d = 0 ∨ bits (d.getD 1 0) 45 19 ≠ 0 ∨ bits (d.getD 2 0) 40 8 ≠ 0 ∨ (descCiph d ≠ 0 ∧ bits (d.getD 3 0) 8 8 ≠ 0) ∨ descCiph d = 3 ∨
      (!descLast d ∧ descNext d % 32 ≠ 0) then some 2
  else if s.sluTarget (descSrc d) = .none ∨ s.sluTarget (descDst d) = .none ∨ s.sluTarget (descDst d) = .rom then some 3
  else if (regs && !descFunnel d) || bad4 (descSrc d) || bad4 (descDst d) then some 4
  else if descCiph d ≠ 0 ∧
      (descCount d % 4096 ≠ 0 ∨ descSrc d % 16 ≠ 0 ∨ descDst d % 16 ≠ 0 ∨ 64 < descKeyRange d ∨ !s.keyOk (descKeyRange d)) then some 5
  else none

/-! ### Errors, starts and stops (R427 to R430) -/

/-- A chain ends for the program slot that started it. -/
def State.sluOwnerEnds (s : State) (c : Nat) (failed : Bool) : State :=
  match (s.slu c).owner with
  | none => s
  | some (n, k) =>
    if (s.pslot n k).sluChans.contains c then
      (s.updSlot n k fun x => { x with sluChans := x.sluChans.filter (· != c), sluFail := x.sluFail || failed }).updSlu c fun x =>
        { x with owner := none }
    else s

/-- An error of Table 13.5 (R430). -/
def State.sluError (s : State) (c code : Nat) : State :=
  let s1 := s.wrs [(Fd.SLC_CHSTAT_STATE c, 4), (Fd.SLC_CHSTAT_ERRC c, code)]
  ((s1.setB Fd.SLC_ERR_ERR c).raise .sluice 0x0901 5 ([c, code] ++ leBytes 5 (32 * s.rd (Fd.SLC_CHCUR_ADDR c)))).sluOwnerEnds c true

/-- A descriptor becomes current: it is checked before any access. -/
def State.sluCurrent (s : State) (c : Nat) (d : List Nat) : State :=
  let meet := descSrc d < descDst d + descCount d && descDst d < descSrc d + descCount d
  let lo := max (descSrc d) (descDst d)
  let orig := if meet && s.sluTarget (descSrc d) == SluTarget.mem then
      (List.range (min (descSrc d) (descDst d) + descCount d - lo)).map fun i => (lo + i, (s.bytes (lo + i) 1).getD 0 0)
    else []
  let s1 := (s.updSlu c fun x => { x with cur := some d, rpos := 0, wpos := 0, inb := [], outb := [], orig := orig }).wr (Fd.SLC_CHREM_REM c)
    (descCount d)
  match s.descError d with
  | some e => s1.sluError c e
  | none => s1

/-- The chain at CHHEAD starts; while SLC.CTL.EN is 0 it stands stopped at its first descriptor. -/
def State.sluStart (s : State) (c : Nat) (owner : Option (Fin 4 × Fin 4)) : State :=
  (s.wrs [(Fd.SLC_CHSTAT_STATE c, if s.on Fd.SLC_CTL_EN then 1 else 3), (Fd.SLC_CHCUR_ADDR c, s.rd (Fd.SLC_CHHEAD_ADDR c)),
    (Fd.SLC_CHREM_REM c, 0)]).updSlu c fun _ => { SluChan.reset with owner := owner }

/-- Whether firmware may not start a channel: it belongs to an engine that is enabled (R417). -/
def State.sluTaken (s : State) (c : Nat) : Bool := 24 ≤ c && s.on (Fd.RCH_CTL_EN ((c - 24) / 2))

/-- SLUICE_GO (R417, R427). -/
def execSluiceGo (c : Fin 32) (s : State) : Host.Outcome State Fault Refusal :=
  if s.sluTaken c.val || s.sluState c.val == 1 then .next (s.wr (Fd.SLC_CHSTAT_REFUSED c.val) 1)
  else .next (s.sluStart c.val none)

/-- SLUICE_RESUME (R417, R427). -/
def execSluiceResume (c : Fin 32) (s : State) : Host.Outcome State Fault Refusal :=
  if s.sluTaken c.val || s.sluState c.val != 3 then .next (s.wr (Fd.SLC_CHSTAT_REFUSED c.val) 1)
  else .next (if s.on Fd.SLC_CTL_EN then s.wr (Fd.SLC_CHSTAT_STATE c.val) 1 else s)

/-- A running channel stops (R429). -/
def State.sluStop (s : State) (c : Nat) : State := if s.sluState c = 1 then s.wr (Fd.SLC_CHSTAT_STATE c) 3 else s

/-- SLUICE_STOP (R429). -/
def execSluiceStop (c : Fin 32) (s : State) : Host.Outcome State Fault Refusal := .next (s.sluStop c.val)

/-- SLU of a program slot (R129, R427): the channel's chain starts; a channel that runs the slot's own chain is taken as started, and any other
ends SLU with code 0x0E. -/
def State.sluProgram (s : State) (n k : Fin 4) (c a : Nat) : State × Nat :=
  let h := bits a 5 35
  if s.sluState c = 1 then
    (s, if (s.slu c).owner = some (n, k) ∧ s.rd (Fd.SLC_CHHEAD_ADDR c) = h then 0 else 0x0E)
  else
    (((s.wr (Fd.SLC_CHHEAD_ADDR c) h).sluStart c (some (n, k))).updSlot n k fun x =>
      { x with sluChans := (x.sluChans.filter (· != c)) ++ [c] }, 0)

/-! ### Descriptor fetch (R418, R419) -/

/-- A descriptor as memory holds it, none on a bus error or outside cached SRAM and DRAM. -/
def State.descAt (s : State) (c a : Nat) : State × Option (List Nat) :=
  if s.sluTarget a ≠ .mem then (s, none)
  else
    let (s1, l) := s.load (0x10 + c) a 32
    (s1, l.map fun b => (List.range 4).map fun i => leValue ((b.drop (8 * i)).take 8))

/-- SLUICE_DESC_FETCH (R419): the first descriptor of the chain, or the one after the current once its first write has been issued. -/
def execSluiceDescFetch (c : Fin 32) (s : State) : Host.Outcome State Fault Refusal :=
  let x := s.slu c.val
  if !s.sluRuns c.val ∨ !s.takesWork .sluice then .next s
  else match x.cur with
    | none =>
      match s.descAt c.val (32 * s.rd (Fd.SLC_CHCUR_ADDR c.val)) with
      | (s1, some d) => .next (s1.sluCurrent c.val d)
      | (s1, none) => .next (s1.sluError c.val 1)
    | some d =>
      if x.nxt.isSome || x.wpos == 0 || descLast d then .next s
      else match s.descAt c.val (descNext d) with
        | (s1, some e) => .next (s1.updSlu c.val fun x => { x with nxt := some e })
        | (s1, none) => .next (s1.sluError c.val 1)

/-! ### Accesses (R421, R422) -/

/-- The next access of a side of a transfer, from wanted address `a` with `left` wanted bytes: where it starts, its length, and the wanted
bytes it carries. -/
def nextAccess (funnel reg : Bool) (a left : Nat) : Nat × Nat × Nat :=
  if funnel then
    let big := fun s : Nat => a % s == 0 && s ≤ left && (a % 8 == 0 || s ≤ 8 - a % 8)
    let n := if a % 8 ≠ 0 ∨ left < 8 then (if big 4 then 4 else if big 2 then 2 else 1)
      else if reg then 8
      else min ((a / 256 + 1) * 256) (a + left - left % 8) - a
    (a, n, n)
  else
    let lo := a / 8 * 8
    let stop := min ((a / 256 + 1) * 256) ((a + left + 7) / 8 * 8)
    (lo, stop - lo, min stop (a + left) - a)

/-- One 4,096-byte unit through the cipher. -/
def State.sluCipher (s : State) (d : List Nat) (i : Nat) (l : List Nat) : List Nat :=
  let v := leValue l
  leBytes 4096 (if descCiph d = 1 then s.decipher (descKeyRange d) (descDun d + i) v else s.encipher (descKeyRange d) (descDun d + i) v)

/-- Bytes read pass to those that wait to be written, through the cipher in whole units of 4,096. -/
def State.sluPass (s : State) (d : List Nat) (x : SluChan) : SluChan :=
  if descCiph d = 0 then { x with outb := x.outb ++ x.inb, inb := [] }
  else if 4096 ≤ x.inb.length then
    { x with outb := x.outb ++ s.sluCipher d ((x.rpos - x.inb.length) / 4096) (x.inb.take 4096), inb := x.inb.drop 4096 }
  else x

/-- Bytes of a source with overlapped bytes as they stood before the transfer. -/
def undo (orig : List (Nat × Nat)) (a : Nat) : List Nat → List Nat
  | [] => []
  | b :: l => (match orig.find? fun p => p.1 == a with
      | some p => p.2
      | none => b) :: undo orig (a + 1) l

/-- The next read of a channel: `rd` reads a target (R421, R422, R430). -/
def State.sluRead (rd : Nat → State → Nat → Nat → State × Option (List Nat)) (s : State) (c : Nat) (d : List Nat) : State :=
  let x := s.slu c
  let a := descSrc d + x.rpos
  let (lo, n, want) := nextAccess (descFunnel d) (s.sluTarget a == SluTarget.reg) a (descCount d - x.rpos)
  if s.sluTarget lo = .none ∨ s.sluTarget (lo + n - 1) = .none then s.sluError c 3
  else match rd c s lo n with
    | (s1, none) => s1.sluError c 6
    | (s1, some l) =>
      s1.updSlu c fun y =>
        let z := { y with inb := y.inb ++ undo y.orig a ((l.drop (a - lo)).take want), rpos := y.rpos + want }
        s1.sluPass d z

/-- The next write of a channel: `wr` writes a target, the wanted bytes only. -/
def State.sluWrite (wr : Nat → State → Nat → List Nat → State × Bool) (s : State) (c : Nat) (d : List Nat) : State :=
  let x := s.slu c
  let a := descDst d + x.wpos
  let (lo, n, want) := nextAccess (descFunnel d) (s.sluTarget a == SluTarget.reg) a (descCount d - x.wpos)
  if [SluTarget.none, SluTarget.rom].contains (s.sluTarget lo) ∨ [SluTarget.none, SluTarget.rom].contains (s.sluTarget (lo + n - 1)) then s.sluError c 3
  else match wr c s a (x.outb.take want) with
    | (s1, false) => s1.sluError c 7
    | (s1, true) =>
      (s1.updSlu c fun y => { y with outb := y.outb.drop want, wpos := y.wpos + want }).wr (Fd.SLC_CHREM_REM c) (descCount d - (x.wpos + want))

/-- One access of a channel: a write once its bytes are there, else a read. -/
def State.sluAccess (rd : Nat → State → Nat → Nat → State × Option (List Nat)) (wr : Nat → State → Nat → List Nat → State × Bool)
    (s : State) (c : Nat) : State :=
  let x := s.slu c
  match x.cur with
  | none => s
  | some d =>
    if !s.sluRuns c ∨ descCount d ≤ x.wpos then s
    else
      let (_, _, want) := nextAccess (descFunnel d) (s.sluTarget (descDst d + x.wpos) == SluTarget.reg) (descDst d + x.wpos) (descCount d - x.wpos)
      if want ≤ x.outb.length then s.sluWrite wr c d
      else if x.rpos < descCount d then s.sluRead rd c d
      else s

/-! ### Completion of a descriptor (R423, R428) -/

/-- The overlapped destination bytes of a descriptor are open (R423). -/
def State.sluOverlap (s : State) (orig : List (Nat × Nat)) : State :=
  match orig with
  | [] => s
  | (a, _) :: _ => s.tookFree.stored a (leBytes orig.length s.freeVal)

/-- SLUICE_DESC_DONE (R428). -/
def execSluiceDescDone (c : Fin 32) (s : State) : Host.Outcome State Fault Refusal :=
  let x := s.slu c.val
  match x.cur with
  | none => .next s
  | some d =>
    if s.sluState c.val ≠ 1 ∨ x.wpos < descCount d then .next s
    else
      let s1 := s.sluOverlap x.orig
      let s2 := if descInt d then (s1.setB Fd.SLC_DONE_DONE c.val).wr (Fd.SLC_CHTAG_TAG c.val) (descTag d) else s1
      if descLast d then
        .next (((s2.wr (Fd.SLC_CHSTAT_STATE c.val) 0).sluOwnerEnds c.val false).updSlu c.val fun _ => SluChan.reset)
      else
        let s3 := (s2.wr (Fd.SLC_CHCUR_ADDR c.val) (descNext d / 32)).updSlu c.val fun y => { SluChan.reset with owner := y.owner }
        match x.nxt with
        | none => .next s3
        | some e => .next (s3.sluCurrent c.val e)

/-! ### Sector transfers (R425, R426, R600) -/

/-- Where a context's sector buffer lies: user data and metadata. -/
def State.bufAddr (s : State) (c sect : Nat) : Nat × Nat :=
  let b := ((s.ctx? c).map fun x => x.buf).getD 0
  (b + 0x1000 * sect, b + 0x100000 + 0x10 * sect)

/-- The bytes of metadata that the format of a context's namespace carries: none, 8 or 16 (R68, R361). -/
def State.mdLen (s : State) (c : Nat) : Nat :=
  8 * (((s.ctx? c).bind fun x => s.nsLocal x.nsid).map fun j => s.rd (Fd.INT_NSCFG_LBAF j)).getD 0

/-- Metadata as the format carries it, its other bytes 0 (R68). -/
def State.mdOf (s : State) (c v : Nat) : Nat := v % 2 ^ (8 * s.mdLen c)

/-- The program slot of an engine inside a WRS. -/
def State.writerSlot (s : State) (n : Fin 4) : Option (Fin 4) := four.find? fun k => (s.pslot n k).media?.any fun m => m.kind == .wrs

/-- The track position of the `j`-th data sector from a position. -/
def State.aheadTp (s : State) (n : Fin 4) (tp : Nat) : Nat → Option Nat
  | 0 => some tp
  | j + 1 => match s.nextSlot n false tp with
    | none => none
    | some t => s.aheadTp n t j

/-- The key range of the data sector that a slot holds (R602). -/
def State.slotRange (s : State) (n : Fin 4) (tp : Nat) : Nat :=
  match s.zoneAt n tp with
  | some (id, _, d) => s.zoneRange id d
  | none => match s.convAt n tp with
    | some lba => s.keyRange 1 lba
    | none => 0

/-- The next sector that a WRS needs in the write buffer: its place in the order of commits, its context and its buffer. -/
def State.neededBuf (s : State) (n k : Fin 4) : Nat → Nat → Option (Nat × Nat × Nat)
  | _, 0 => none
  | j, f + 1 =>
    match (s.pslot n k).arch.buf j with
    | none => none
    | some (c, i) => if (s.ch n).wbuf.any (fun w => w.ctx == c && w.sect == i) then s.neededBuf n k (j + 1) f else some (j, c, i)

/-- A sector of a WRS enciphered from its buffer into the write buffer; a bus error leaves its data absent (Table 12.1). -/
def State.xferWrite (s : State) (n : Fin 4) : State :=
  match s.writerSlot n with
  | none => s
  | some k =>
    match s.neededBuf n k 0 64 with
    | none => s
    | some (j, c, i) =>
      if 255 < i then s.endWith n k 0x0E
      else match s.aheadTp n ((s.pslot n k).arch.tp.toNat) j with
        | none => s
        | some tp =>
          let (ua, ma) := s.bufAddr c i
          let r := s.slotRange n tp
          if !s.keyOk r then s.endWith n k 0x0E
          else match s.load (0x29 + 2 * n.val) ua 4096 with
            | (s1, none) => s1
            | (s1, some l) =>
              match s1.load (0x29 + 2 * n.val) ma 16 with
              | (s2, none) => s2
              | (s2, some m) => s2.updCh n fun y => { y with wbuf := y.wbuf ++ [⟨c, i, s2.encipher r (dunOf n tp) (leValue l), s2.mdOf c (leValue m)⟩] }

/-- A decoded sector deciphered into its buffer; without its key its context ends with Access Denied (R603). -/
def State.xferRead (s : State) (x : SecXfer) : State :=
  let s1 := ({ s with sluice := { s.sluice with xfers := s.sluice.xfers.erase x } }).updSlot x.n x.slot fun y => { y with xfers := y.xfers - 1 }
  if !s.keyOk x.range then s1.ctxUpd x.ctx fun c => if c.sct = 0 ∧ c.sc = 0 then { c with sct := 2, sc := 0x86 } else c
  else
    let (ua, ma) := s.bufAddr x.ctx x.sect
    let s2 := (s1.stored ua (leBytes 4096 (s.decipher x.range x.dun x.data))).stored ma (leBytes 16 (s.mdOf x.ctx x.md))
    if s1.isMem (unalias ua) 4096 && s1.isMem (unalias ma) 16 then s2
    else (s2.updSlot x.n x.slot fun y => { y with sluFail := true }).endWith x.n x.slot 0x0E

/-- SLUICE_SECTOR_XFER (R425, R426). -/
def execSluiceSectorXfer (n : Fin 4) (write : Bool) (s : State) : Host.Outcome State Fault Refusal :=
  if !s.on Fd.SLC_CTL_EN then .next s
  else if write then .next (s.xferWrite n)
  else match s.sluice.xfers.find? fun x => x.n == n with
    | none => .next s
    | some x => .next (s.xferRead x)

end Sys2Proof.Machine
end

