-- ==== Sys2Proof/Machine/Flags.lean ====
section
/-! DEFINITION. The flags Z, N and C of a program slot and its condition codes (03). -/

namespace Sys2Proof.Machine

/-- A slot's result with its flags: Z and N from the result, C as given (R106). -/
def Arch.setFlags (a : Arch) (r : BitVec 64) (c : Bool) : Arch := { a with z := r == 0, n := r.msb, c := c }

/-- C of ADD: the carry out of bit 63. -/
def carryAdd (a b : BitVec 64) : Bool := 2 ^ 64 ≤ a.toNat + b.toNat

/-- C of SUB and CMP: the first operand is at least the second, both unsigned. -/
def carrySub (a b : BitVec 64) : Bool := b.toNat ≤ a.toNat

/-- C of SHL: the last bit shifted out, 0 for a shift of 0. -/
def carryShl (a : BitVec 64) (k : Nat) : Bool := k != 0 && bit a.toNat (64 - k)

/-- C of SHR: the last bit shifted out, 0 for a shift of 0. -/
def carryShr (a : BitVec 64) (k : Nat) : Bool := k != 0 && bit a.toNat (k - 1)

/-- Whether a condition of Table 03.7 is true for a slot. -/
def State.cond (s : State) (n : Fin 4) (a : Arch) (c : Fin 16) : Bool :=
  match c.val with
  | 0 => true
  | 1 => a.z
  | 2 => !a.z
  | 3 => a.n
  | 4 => !a.n
  | 5 => a.c
  | 6 => !a.c
  | 7 => s.blk n
  | 8 => a.syn
  | 9 => a.dec
  | 10 => s.on (Fd.SRV_STATUS_ONT n)
  | 11 => a.rbk
  | 12 => a.fen
  | 13 => !s.on (Fd.SRV_STATUS_ONT n)
  | 14 => s.on (Fd.RCH_SIGNALS_SIG n)
  | _ => a.idx

/-- A slot that has tested a condition: one that tests IDX and finds it set clears its latch (R90). -/
def Arch.consume (a : Arch) (c : Fin 16) : Arch := if c.val = 15 then { a with idx := false } else a

end Sys2Proof.Machine
end

