-- ==== Sys2Proof/Machine/Operands.lean ====
section
/-! DEFINITION. The operand forms of the Reach instructions (03): general registers, op2, the 11-bit operands, MOV's register codes and
working-memory addresses. -/

namespace Sys2Proof.Machine

/-- W[i]. -/
def Arch.reg (a : Arch) (i : Fin 16) : BitVec 64 := a.w.get i

/-- W[i] written. -/
def Arch.setReg (a : Arch) (i : Fin 16) (v : BitVec 64) : Arch := { a with w := a.w.set i.val v i.isLt }

/-- The value of op2: a register, or imm17 sign-extended (Table 03.23). -/
def Arch.op2 (a : Arch) : Op2 → BitVec 64
  | .reg b => a.reg b
  | .imm i => i.signExtend 64

/-- The 11 bits of the operand of OFFSET, HEAD and SKIPTO (Table 03.23). -/
def Arch.op11 (a : Arch) : Op11 → BitVec 11
  | .reg b => (a.reg b).truncate 11
  | .imm i => i

/-- The value of a MOV source code (Table 03.24), none where the code traps. -/
def State.movSrc (s : State) (n : Fin 4) (a : Arch) (c : Fin 32) : Option (BitVec 64) :=
  if h : c.val < 16 then some (a.reg ⟨c.val, h⟩)
  else if c.val = 16 then some a.tp
  else if c.val = 17 then some (BitVec.ofNat 64 a.bpWord)
  else if c.val = 18 then some a.cn
  else if c.val = 19 then some (BitVec.ofNat 64 a.stWord)
  else if c.val = 20 then some (BitVec.ofNat 64 (s.flWord n a))
  else none

/-- A MOV destination code written (Table 03.24), none where the code traps. ST takes CODE with Z; its FAILS field takes only 0, which empties
the failure list. -/
def Arch.movDst (a : Arch) (c : Fin 32) (v : BitVec 64) : Option Arch :=
  if h : c.val < 16 then some (a.setReg ⟨c.val, h⟩ v)
  else if c.val = 16 then some { a with tp := v }
  else if c.val = 18 then some { a with cn := v }
  else if c.val = 19 then
    let b := a.setCode (bits v.toNat 0 8)
    some (if bits v.toNat 8 8 = 0 then { b with nfails := 0 } else b)
  else none

/-- The working-memory address of LD and ST: W[a] plus the signed byte offset. -/
def Arch.addr (a : Arch) (i : Fin 16) (off : BitVec 18) : Nat := (a.reg i + off.signExtend 64).toNat

/-- Whether a program may load 8 bytes at an address (R80, Table 03.1). -/
def mayLoad (a : Nat) : Bool := a % 8 == 0 && a + 8 ≤ 0x200000 && (a < 0x12000 || 0x14000 ≤ a)

/-- Whether a program may store 8 bytes at an address (R80, Table 03.1). -/
def mayStore (a : Nat) : Bool := a % 8 == 0 && a + 8 ≤ 0x200000 && 0x14000 ≤ a

end Sys2Proof.Machine
end

