-- ==== Sys2Proof/Machine/Reach.lean ====
section
/-! DEFINITION. Reach instructions of control, arithmetic, working memory, heads, data and synchronization (03). The command carries the
instruction that the slot has fetched; an instruction of a slot that does not have the engine, or is inside another, does nothing. -/

namespace Sys2Proof.Machine

/-! ### Faults of an engine (R32, Table 12.1) -/

/-- The ready, running and yielding slots of an engine interrupted; each waits for its restart (R94, R97). -/
def State.interruptActive (s : State) (n : Fin 4) : List (Fin 4) → State
  | [] => s
  | k :: l =>
    (if (s.pslot n k).active then (s.interrupt n k).updSlot n k fun x => { x with st := .ready, intr := true } else s).interruptActive n l

/-- A unit reset of an engine through its management slot: an interrupt of its active slots (R32, R94). -/
def State.engReset (s : State) (n : Fin 4) : State :=
  ((s.interruptActive n four).wr (Fd.RCH_STATUS_MCHK n) 0).setUnit (.reach n) 5

/-- A bus error on a fetch, an LD or a slot record: the engine reports the fault, and its manager resets it (Table 12.1). -/
def State.engFault (s : State) (n : Fin 4) (a : Nat) : State :=
  (s.fault (.reach n) ((UnitRef.reach n).common 2) 4 (leBytes 5 a)).engReset n

/-! ### Control (R102, Table 03.26) -/

/-- An instruction ends with PC at a target. -/
def State.jump (s : State) (n k : Fin 4) (target : Nat) (g : Arch → Arch) : State :=
  (s.updSlot n k fun x =>
    { x with op := none, st := s.between n k, stopReq := false, arch := let a := g x.arch; { a with pc := target } }).dispatch n

/-- A branch target relative to an instruction, in words, within the 21 bits of PC. -/
def target (pc : Nat) (off : Int) : Nat := (((pc : Int) + 4 * off) % 2097152).toNat

/-- HALT (R95): commit point 3, then halted. -/
def execHalt (n k : Fin 4) (s : State) : Host.Outcome State Fault Refusal :=
  s.instr n k fun _ =>
    (((s.updSlot n k fun x => { x with st := .halted, stopReq := false, arch := { x.arch with pc := (x.arch.pc + 4) % 2 ^ 21 } }).record n k).setB
      (Fd.RCH_INT_HALT n) k.val).dispatch n

/-- B (R90, R102). -/
def execB (n k : Fin 4) (cond : Fin 16) (off : BitVec 22) (s : State) : Host.Outcome State Fault Refusal :=
  s.instr n k fun x =>
    if !s.cond n x.arch cond then s.complete n k fun a => a
    else
      let t := target x.arch.pc off.toInt
      if t < 0x14000 then s.trapSlot n k 0xFF07 else s.jump n k t fun a => a.consume cond

/-- BR (R90, R102). -/
def execBr (n k : Fin 4) (cond a : Fin 16) (s : State) : Host.Outcome State Fault Refusal :=
  s.instr n k fun x =>
    if !s.cond n x.arch cond then s.complete n k fun a => a
    else
      let t := bits (x.arch.reg a).toNat 0 21
      if t < 0x14000 ∨ t % 4 ≠ 0 then s.trapSlot n k 0xFF07 else s.jump n k t fun a => a.consume cond

/-- CALL (R102). -/
def execCall (n k : Fin 4) (off : BitVec 26) (s : State) : Host.Outcome State Fault Refusal :=
  s.instr n k fun x =>
    let t := target x.arch.pc off.toInt
    if 8 ≤ x.arch.stack.length then s.trapSlot n k 0xFF03
    else if t < 0x14000 then s.trapSlot n k 0xFF07
    else s.jump n k t fun a => { a with stack := (a.pc + 4) % 2 ^ 21 :: a.stack }

/-- RET (R102). -/
def execRet (n k : Fin 4) (s : State) : Host.Outcome State Fault Refusal :=
  s.instr n k fun x =>
    match x.arch.stack with
    | [] => s.trapSlot n k 0xFF04
    | t :: l => s.jump n k t fun a => { a with stack := l }

/-- TRAP (R102): a code above 0xFEFF is a reserved field value. -/
def execTrap (n k : Fin 4) (code : BitVec 16) (s : State) : Host.Outcome State Fault Refusal :=
  s.instr n k fun _ => s.trapSlot n k (if 0xFEFF < code.toNat then 0xFF01 else code.toNat)

/-! ### Waits (R92, R103, R107, R108) -/

/-- Whether slots or revolutions can be predicted for a slot's track: its head's table holds the track, and the spindle turns (R103). -/
def State.predicts (s : State) (n : Fin 4) (a : Arch) : Bool :=
  s.headOk n a.head && (regionAt (s.regions n a.head) (tpTrack a.tp.toNat)).isSome && s.on Fd.SPN_SPEED_RPM10

/-- Whether a wait tests its condition once, without waiting (R103). -/
def State.testsOnce (s : State) (n : Fin 4) (a : Arch) (unit : Fin 4) (count : Nat) : Bool :=
  count == 0 || ((unit == 1 || unit == 2) && (!s.blk n || s.mode n != 2 || (s.sv n).target.isNone) && !s.predicts n a)

/-- A timeout that begins now (R103). -/
def State.timeout (s : State) (unit : Fin 4) (count : Nat) : Timeout := ⟨unit, count, 0, s.time⟩

/-- Channel bits in 600,000,000 µs that R143 predicts for the region of a slot's track, at the spindle's measured speed. -/
def State.predictedRate (s : State) (n : Fin 4) (a : Arch) : Nat :=
  16 * ((regionAt (s.regions n a.head) (tpTrack a.tp.toNat)).map Region.tone).getD 0 * s.rd Fd.SPN_SPEED_RPM10

/-- Whether a timeout's whole count has passed (R103): µs or ms of device time; index fields counted, or revolutions at the measured speed while none
are counted; slots at the predicted rate, or, while they are counted as they pass, at the earliest when the first of them followed at once. -/
def State.timedOut (s : State) (n : Fin 4) (a : Arch) (t : Timeout) : Bool :=
  let us := (s.time + 2 ^ 48 - t.since) % 2 ^ 48
  match t.unit.val with
  | 0 => t.count ≤ us
  | 1 => (if s.countsSlots n then t.count - 1 else t.count) * 37000 * 600000000 ≤ us * s.predictedRate n a
  | 2 => t.count ≤ t.done || (!s.countsSlots n && t.count * 600000000 ≤ us * s.rd Fd.SPN_SPEED_RPM10)
  | _ => 1000 * t.count ≤ us

/-- WAIT (R107): with AL the slot yields for the whole timeout. -/
def execWait (n k : Fin 4) (cond : Fin 16) (unit : Fin 4) (count : BitVec 20) (s : State) : Host.Outcome State Fault Refusal :=
  s.instr n k fun x =>
    let once := s.testsOnce n x.arch unit count.toNat
    if s.cond n x.arch cond && (cond != 0 || once) then s.complete n k fun a => (a.consume cond).setCode 0
    else if once then s.complete n k fun a => a.setCode 0x01
    else s.enter n k (.wait cond (s.timeout unit count.toNat)) .yielding

/-- Whether every bit of a mask of signals is set. -/
def State.joinMet (s : State) (n : Fin 4) (mask : Nat) : Bool := s.rd (Fd.RCH_SIGNALS_SIG n) &&& mask == mask

/-- JOIN takes its bits (R108). -/
def State.joinTake (s : State) (n k : Fin 4) (mask : Nat) : State :=
  (s.wr (Fd.RCH_SIGNALS_SIG n) (s.rd (Fd.RCH_SIGNALS_SIG n) - (s.rd (Fd.RCH_SIGNALS_SIG n) &&& mask))).complete n k fun a => a.setCode 0

/-- JOIN (R107, R108). -/
def execJoin (n k : Fin 4) (mask : BitVec 8) (unit : Fin 4) (count : BitVec 16) (s : State) : Host.Outcome State Fault Refusal :=
  s.instr n k fun x =>
    if s.joinMet n mask.toNat then s.joinTake n k mask.toNat
    else if s.testsOnce n x.arch unit count.toNat then s.complete n k fun a => a.setCode 0x01
    else s.enter n k (.join mask (s.timeout unit count.toNat)) .yielding

/-- WAIT_TIMEOUT (R92, R103, R107): the slot is ready again once the whole count has passed. DESIGN CHOICE: R107 names no result for a WAIT on AL,
which has no other end than its timeout: it has waited as it was to, and ends with Z 1 and code 0x00. -/
def execWaitTimeout (n k : Fin 4) (s : State) : Host.Outcome State Fault Refusal :=
  let x := s.pslot n k
  if x.st ≠ .yielding then .next s
  else match x.op with
    | some (.wait c t) => if s.timedOut n x.arch t then .next (s.complete n k fun a => a.setCode (if c.val = 0 then 0 else 0x01)) else .next s
    | some (.join _ t) => if s.timedOut n x.arch t then .next (s.complete n k fun a => a.setCode 0x01) else .next s
    | _ => .next s

/-! ### Arithmetic (R106) -/

/-- An arithmetic instruction: its result and C from W[a] and op2, the result kept or discarded. -/
def State.alu (s : State) (n k : Fin 4) (a : Fin 16) (o : Op2) (f : BitVec 64 → BitVec 64 → BitVec 64 × Bool) (keep : Option (Fin 16)) :
    Host.Outcome State Fault Refusal :=
  s.instr n k fun _ => s.complete n k fun r =>
    let (v, c) := f (r.reg a) (r.op2 o)
    (match keep with
      | some d => r.setReg d v
      | none => r).setFlags v c

/-- ADD. -/
def execAdd (n k : Fin 4) (d a : Fin 16) (o : Op2) (s : State) : Host.Outcome State Fault Refusal :=
  s.alu n k a o (fun x y => (x + y, carryAdd x y)) (some d)

/-- SUB. -/
def execSub (n k : Fin 4) (d a : Fin 16) (o : Op2) (s : State) : Host.Outcome State Fault Refusal :=
  s.alu n k a o (fun x y => (x - y, carrySub x y)) (some d)

/-- AND. -/
def execAnd (n k : Fin 4) (d a : Fin 16) (o : Op2) (s : State) : Host.Outcome State Fault Refusal :=
  s.alu n k a o (fun x y => (x &&& y, false)) (some d)

/-- OR. -/
def execOr (n k : Fin 4) (d a : Fin 16) (o : Op2) (s : State) : Host.Outcome State Fault Refusal :=
  s.alu n k a o (fun x y => (x ||| y, false)) (some d)

/-- XOR. -/
def execXor (n k : Fin 4) (d a : Fin 16) (o : Op2) (s : State) : Host.Outcome State Fault Refusal :=
  s.alu n k a o (fun x y => (x ^^^ y, false)) (some d)

/-- SHL: by op2[5:0]. -/
def execShl (n k : Fin 4) (d a : Fin 16) (o : Op2) (s : State) : Host.Outcome State Fault Refusal :=
  s.alu n k a o (fun x y => (x <<< (y.toNat % 64), carryShl x (y.toNat % 64))) (some d)

/-- SHR: by op2[5:0], logical. -/
def execShr (n k : Fin 4) (d a : Fin 16) (o : Op2) (s : State) : Host.Outcome State Fault Refusal :=
  s.alu n k a o (fun x y => (x >>> (y.toNat % 64), carryShr x (y.toNat % 64))) (some d)

/-- CMP: the result is discarded. -/
def execCmp (n k : Fin 4) (a : Fin 16) (o : Op2) (s : State) : Host.Outcome State Fault Refusal :=
  s.alu n k a o (fun x y => (x - y, carrySub x y)) none

/-! ### Moves and working memory (R80, R104, R248) -/

/-- MOV (R104). -/
def execMov (n k : Fin 4) (dst src : Fin 32) (s : State) : Host.Outcome State Fault Refusal :=
  s.instr n k fun x =>
    match (s.movSrc n x.arch src).bind fun v => x.arch.movDst dst v with
    | none => s.trapSlot n k 0xFF05
    | some b => s.complete n k fun _ => b

/-- LDI. -/
def execLdi (n k : Fin 4) (d : Fin 16) (i : BitVec 22) (s : State) : Host.Outcome State Fault Refusal :=
  s.instr n k fun _ => s.complete n k fun a => a.setReg d (i.signExtend 64)

/-- LDH: one halfword replaced. -/
def execLdh (n k : Fin 4) (d : Fin 16) (hw : Fin 4) (i : BitVec 16) (s : State) : Host.Outcome State Fault Refusal :=
  s.instr n k fun _ => s.complete n k fun a =>
    let sh := 16 * hw.val
    a.setReg d ((a.reg d &&& ~~~((0xFFFF#64) <<< sh)) ||| ((i.zeroExtend 64) <<< sh))

/-- LD (R80). -/
def execLd (n k : Fin 4) (d a : Fin 16) (off : BitVec 18) (s : State) : Host.Outcome State Fault Refusal :=
  s.instr n k fun x =>
    let p := x.arch.addr a off
    if !mayLoad p then s.trapSlot n k 0xFF02
    else match s.load 0x3F (wmem n + p) 8 with
      | (s1, none) => s1.engFault n (wmem n + p)
      | (s1, some l) => s1.complete n k fun r => r.setReg d (BitVec.ofNat 64 (leValue l))

/-- ST (R80, R248). -/
def execSt (n k : Fin 4) (r a : Fin 16) (off : BitVec 18) (s : State) : Host.Outcome State Fault Refusal :=
  s.instr n k fun x =>
    let p := x.arch.addr a off
    if !mayStore p then s.trapSlot n k 0xFF02
    else (s.stored (wmem n + p) (leBytes 8 (x.arch.reg r).toNat)).complete n k fun y => y

/-! ### Heads (R127, R180, R181, R184, R185) -/

/-- FEN falls as an effect is issued (R90). -/
def State.issued (s : State) (n k : Fin 4) : State := s.updArch n k fun a => { a with fen := false }

/-- Whether an assist profile may be sent to a head (R180): its sixteen 16-bit words. -/
def profileOk (kind : Nat) (w : Nat → Nat) : Bool :=
  w 0 == kind && (kind == 1 || kind == 2) && 200 ≤ w 2 && w 2 ≤ 4000 && w 5 ≤ 4000 && w 8 ≤ w 9 && w 8 ≤ w 3 && w 3 ≤ w 9 && w 10 ≤ 3840 &&
    1 ≤ w 11 && w 11 ≤ 255 && w 7 == 0 && w 12 == 0 && w 13 == 0 && w 14 == 0 && w 15 == 0

/-- ASP sends a profile in two bursts; a loop change not yet on the link is discarded (R181, R184). What the controller keeps of it is in force
once both bursts have been acknowledged. -/
def State.sendProfile (s : State) (n k : Fin 4) (w : Nat → Nat) : State :=
  let h := s.selHead n
  let burst := fun i last => (⟨.asp k last, false, headReg h (8 + i), 3, [w i, w (i + 1), w (i + 2), w (i + 3)], false⟩ : ArmTx)
  let s1 := s.updCh n fun c =>
    { c with txq := c.txq.filter (fun t => t.src != ArmSrc.loop), profSent := (List.range 12).map w }
  ((s1.armSend n (burst 0 false)).armSend n (burst 4 true)).issued n k

/-- ASP (R127, R180). -/
def execAsp (n k : Fin 4) (a : Fin 16) (s : State) : Host.Outcome State Fault Refusal :=
  s.instr n k fun x =>
    let p := (x.arch.reg a).toNat
    if p % 32 ≠ 0 ∨ p < 0x14000 ∨ 0x200000 < p + 32 then s.trapSlot n k 0xFF02
    else match s.load 0x3F (wmem n + p) 32 with
      | (s1, none) => s1.engFault n (wmem n + p)
      | (s1, some l) =>
        let w := fun i => leValue ((l.drop (2 * i)).take 2)
        if profileOk (s1.rd (Fd.CHN_WCFG_AKIND n (s1.selHead n))) w then (s1.sendProfile n k w).enter n k .arm .running
        else s1.complete n k fun y => y.setCode 0x08

/-- HTR (R127, R185). -/
def execHtr (n k : Fin 4) (a : Fin 16) (s : State) : Host.Outcome State Fault Refusal :=
  s.instr n k fun x =>
    let v := (x.arch.reg a).toNat
    ((s.armSend n ⟨.htr k, false, headReg (s.selHead n) 3, 1, [bits v 0 16, bits v 16 16], false⟩).issued n k).enter n k .arm .running

/-! ### Buffers, transfers and completion (R128 to R133) -/

/-- BUF (R128): the context, then COUNT, then, CLR applied, the room in the chain. -/
def execBuf (n k : Fin 4) (a : Fin 16) (clr : Bool) (s : State) : Host.Outcome State Fault Refusal :=
  s.instr n k fun x =>
    let e := ChainEntry.ofWord (x.arch.reg a).toNat
    let full := !clr && 16 ≤ x.arch.chain.length
    if !s.boundTo n e.ctx || e.count == 0 || full then s.complete n k fun y => y.setCode 0x0B
    else
      let s1 := if clr then s.updSlot n k fun y => { y with headFail := false } else s
      s1.complete n k fun y => ((if clr then y.clearChain else y).append e).setCode 0

/-- SLU (R129, R427). -/
def execSlu (n k : Fin 4) (a : Fin 16) (ch : Fin 32) (s : State) : Host.Outcome State Fault Refusal :=
  s.instr n k fun x =>
    if ch.val ≠ 24 + 2 * n.val ∧ ch.val ≠ 25 + 2 * n.val then s.complete n k fun y => y.setCode 0x0E
    else
      let (s1, code) := s.sluProgram n k ch.val (x.arch.reg a).toNat
      (if code = 0 then s1.issued n k else s1).complete n k fun y => y.setCode code

/-- Whether a slot's arm-link writes have all been acknowledged. -/
def State.armSettled (s : State) (n k : Fin 4) : Bool :=
  let mine := fun t : ArmTx => match t.src with
    | .head j | .asp j _ | .htr j => j == k
    | _ => false
  !((s.ch n).txq.any mine || (s.ch n).tx.any mine)

/-- The Weir writes outstanding of an engine's two Sluice channels, which its own SYNC covers (R416, Table 11.2). -/
def State.engWrites (s : State) (n : Fin 4) : List Nat :=
  (s.weir.writes.filter fun w => w.2 == 0x28 + 2 * n.val || w.2 == 0x29 + 2 * n.val).map Prod.fst

/-- Whether the transfers of a slot have all left Sluice. -/
def Slot.sent (x : Slot) : Bool := x.sluChans.isEmpty && x.xfers == 0

/-- Whether the transfers of a slot have arrived, confirmed by the SYNC that follows the last of them (R130, R416, R428). -/
def State.dataMet (s : State) (n k : Fin 4) : Bool :=
  let x := s.pslot n k
  x.sent && (match x.sync with
    | some ids => ids.all fun i => !(s.weir.writes.any fun w => w.1 == i)
    | none => (s.engWrites n).isEmpty)

/-- Whether the selected effects of a slot are complete (R130). -/
def State.fenceMet (s : State) (n k : Fin 4) (media data arm : Bool) : Bool :=
  (!media || s.settled n k) && (!data || s.dataMet n k) && (!arm || s.armSettled n k)

/-- The SYNC of a FENCE issued, once the slot's transfers have left Sluice: it covers the writes outstanding then (R415, R416). -/
def State.issueSync (s : State) (n k : Fin 4) (data : Bool) : State :=
  let x := s.pslot n k
  if data && x.sent && x.sync.isNone then s.updSlot n k fun y => { y with sync := some (s.engWrites n) } else s

/-- A FENCE, or a POST, begins with no SYNC issued. -/
def State.noSync (s : State) (n k : Fin 4) : State := s.updSlot n k fun y => { y with sync := none }

/-- FENCE completes: FEN is set, and a failed transfer or arm-link write is reported (R130). DESIGN CHOICE: where both have failed the rule
does not say which code stands, and 0x0E does. -/
def State.fenceDone (s : State) (n k : Fin 4) (data arm : Bool) : State :=
  let x := s.pslot n k
  let code := if data && x.sluFail then 0x0E else if arm && x.armFail then 0x0F else 0
  (s.updSlot n k fun y => { y with sluFail := y.sluFail && !data, armFail := y.armFail && !arm }).complete n k fun y =>
    ({ y with fen := true }).setCode code

/-- FENCE (R130): a mask of 0 selects all three kinds. -/
def execFence (n k : Fin 4) (media data arm : Bool) (s : State) : Host.Outcome State Fault Refusal :=
  s.instr n k fun _ =>
    let all := !media && !data && !arm
    let s1 := (s.noSync n k).issueSync n k (data || all)
    if s1.fenceMet n k (media || all) (data || all) (arm || all) then s1.fenceDone n k (data || all) (arm || all)
    else s1.enter n k (.fence (media || all) (data || all) (arm || all)) .yielding

/-- The hand-over of POST, one step with its record (R99, R131). -/
def State.post (s : State) (n k : Fin 4) (w : Nat) : State :=
  let c := bits w 0 16
  let sc := bits w 16 8
  let sct := bits w 24 3
  if !s.boundTo n c then s.completeRecord n k fun y => y.setCode 0x0B
  else if (s.ctx? c).any fun x => sct == 0 && sc == 0 && x.writes && (List.range x.total).any (fun i => !x.done.contains i) then s.completeRecord n k fun y => y.setCode 0x0C
  else (s.handOver c sct sc).completeRecord n k fun y => y.setCode 0

/-- POST (R131). -/
def execPost (n k : Fin 4) (a : Fin 16) (s : State) : Host.Outcome State Fault Refusal :=
  s.instr n k fun x =>
    let s1 := (s.noSync n k).issueSync n k true
    if s1.fenceMet n k true true false then s1.post n k (x.arch.reg a).toNat else s1.enter n k (.post (x.arch.reg a)) .yielding

/-- A signal set at a target: an engine, or 4 for firmware (R132). -/
def State.signal (s : State) (n : Fin 4) (tgt sg : Nat) : State :=
  if tgt = 4 then (s.setB (Fd.RCH_FWSIG_SIG n) sg).wr (Fd.RCH_INT_SIGF n) 1 else s.setB (Fd.RCH_SIGNALS_SIG tgt) sg

/-- SIG (R132). -/
def execSig (n k : Fin 4) (tgt : Fin 5) (sg : Fin 8) (s : State) : Host.Outcome State Fault Refusal :=
  s.instr n k fun _ => (s.signal n tgt.val sg.val).complete n k fun y => y

/-- CKPT (R133). -/
def execCkpt (n k : Fin 4) (s : State) : Host.Outcome State Fault Refusal := s.instr n k fun _ => s.completeRecord n k fun y => y

/-! ### Waking (R92, R108) -/

/-- Whether a lower-numbered slot of the engine joins on an overlapping mask that is complete (R108). -/
def State.lowerJoins (s : State) (n k : Fin 4) (mask : Nat) : Bool :=
  four.any fun j => j < k && (s.pslot n j).st == .yielding && (match (s.pslot n j).op with
    | some (.join m _) => m.toNat &&& mask != 0 && s.joinMet n m.toNat
    | _ => false)

/-- SLOT_WAKE (R92): the condition of a yielding slot is met, and its instruction ends. -/
def execSlotWake (n k : Fin 4) (s : State) : Host.Outcome State Fault Refusal :=
  let x := s.pslot n k
  if x.st ≠ .yielding then .next s
  else match x.op with
    | some (.wait c _) => if c.val ≠ 0 ∧ s.cond n x.arch c then .next (s.complete n k fun a => (a.consume c).setCode 0) else .next s
    | some (.join m _) => if s.joinMet n m.toNat && !s.lowerJoins n k m.toNat then .next (s.joinTake n k m.toNat) else .next s
    | some (.fence m d a) =>
      let s1 := s.issueSync n k d
      if s1.fenceMet n k m d a then .next (s1.fenceDone n k d a) else .next s1
    | some (.post w) =>
      let s1 := s.issueSync n k true
      if s1.fenceMet n k true true false then .next (s1.post n k w.toNat) else .next s1
    | _ => .next s

/-! ### Instruction words (R102, Tables 03.23, 03.26) -/

/-- Whether a 32-bit word is an instruction: an assigned opcode, no reserved bit and no reserved field value. -/
def legalWord (w : Nat) : Bool :=
  let zero := fun lo n => bits w lo n == 0
  let op := bits w 26 6
  if op = 0x00 ∨ op = 0x04 ∨ op = 0x21 ∨ op = 0x34 then zero 0 26
  else if op = 0x01 ∨ op = 0x03 ∨ op = 0x05 ∨ op = 0x11 ∨ op = 0x13 ∨ op = 0x14 ∨ op = 0x33 then true
  else if op = 0x02 then zero 0 18
  else if op = 0x06 then zero 16 10 && bits w 0 16 ≤ 0xFEFF
  else if 0x08 ≤ op ∧ op ≤ 0x0F then (bit w 17 || zero 0 13) && (op != 0x0F || zero 22 4)
  else if op = 0x10 then zero 0 16
  else if op = 0x12 then zero 16 4
  else if op = 0x18 ∨ op = 0x28 ∨ op = 0x29 ∨ op = 0x31 then zero 0 22
  else if op = 0x19 then zero 8 18
  else if op = 0x1A ∨ op = 0x1C ∨ op = 0x23 then if bit w 25 then zero 11 14 else zero 0 21
  else if op = 0x1B then zero 20 4
  else if op = 0x20 then zero 0 14
  else if op = 0x22 then zero 24 1 && zero 0 16
  else if op = 0x24 then zero 0 20
  else if op = 0x25 ∨ op = 0x2D then zero 0 17
  else if op = 0x2C then zero 0 21
  else if op = 0x30 then zero 0 23
  else if op = 0x32 then bits w 23 3 ≤ 4 && zero 0 20
  else false

/-- Operand 2 of format A: W[b], or the signed 17-bit immediate. -/
def op2Of (w : Nat) : Op2 := if bit w 17 then .imm (BitVec.ofNat 17 (bits w 0 17)) else .reg (Fin.ofNat 16 (bits w 13 4))

/-- The operand of format RI: W[a], or the 11-bit immediate. -/
def op11Of (w : Nat) : Op11 := if bit w 25 then .imm (BitVec.ofNat 11 (bits w 0 11)) else .reg (Fin.ofNat 16 (bits w 21 4))

/-- The command that the fields of a word ask of slot `k` of engine `n`, by its opcode (Table 03.23, Table 03.26). -/
def fieldsInstr (n k : Fin 4) (w : Nat) : Instr :=
  let op := bits w 26 6
  let d : Fin 16 := Fin.ofNat 16 (bits w 22 4)
  let a : Fin 16 := Fin.ofNat 16 (bits w 18 4)
  let ch : Fin 32 := Fin.ofNat 32 (bits w 17 5)
  if op = 0x00 then .halt n k
  else if op = 0x01 then .b n k d (BitVec.ofNat 22 w)
  else if op = 0x02 then .br n k d a
  else if op = 0x03 then .call n k (BitVec.ofNat 26 w)
  else if op = 0x04 then .ret n k
  else if op = 0x05 then .wait n k d (Fin.ofNat 4 (bits w 20 2)) (BitVec.ofNat 20 w)
  else if op = 0x06 then .trap n k (BitVec.ofNat 16 w)
  else if op = 0x08 then .add n k d a (op2Of w)
  else if op = 0x09 then .sub n k d a (op2Of w)
  else if op = 0x0A then .and n k d a (op2Of w)
  else if op = 0x0B then .or n k d a (op2Of w)
  else if op = 0x0C then .xor n k d a (op2Of w)
  else if op = 0x0D then .shl n k d a (op2Of w)
  else if op = 0x0E then .shr n k d a (op2Of w)
  else if op = 0x0F then .cmp n k a (op2Of w)
  else if op = 0x10 then .mov n k (Fin.ofNat 32 (bits w 21 5)) (Fin.ofNat 32 (bits w 16 5))
  else if op = 0x11 then .ldi n k d (BitVec.ofNat 22 w)
  else if op = 0x12 then .ldh n k d (Fin.ofNat 4 (bits w 20 2)) (BitVec.ofNat 16 w)
  else if op = 0x13 then .ld n k d a (BitVec.ofNat 18 w)
  else if op = 0x14 then .st n k d a (BitVec.ofNat 18 w)
  else if op = 0x18 then .seek n k d
  else if op = 0x19 then .follow n k (BitVec.ofNat 8 w)
  else if op = 0x1A then .offset n k (op11Of w)
  else if op = 0x1B then .settle n k (Fin.ofNat 4 (bits w 24 2)) (BitVec.ofNat 20 w)
  else if op = 0x1C then .head n k (op11Of w)
  else if op = 0x20 then
    .rds n k (Fin.ofNat 8 (bits w 23 3)) (Fin.ofNat 4 (bits w 21 2)) (Fin.ofNat 8 (bits w 18 3)) (bit w 17) (bit w 16) (bit w 15) (bit w 14)
  else if op = 0x21 then .wrs n k
  else if op = 0x22 then .vfy n k (bit w 25) (BitVec.ofNat 8 (bits w 16 8))
  else if op = 0x23 then .skipto n k (op11Of w)
  else if op = 0x24 then .scan n k d (Fin.ofNat 4 (bits w 20 2))
  else if op = 0x25 then .raw n k d ch
  else if op = 0x28 then .asp n k d
  else if op = 0x29 then .htr n k d
  else if op = 0x2C then .buf n k d (bit w 21)
  else if op = 0x2D then .slu n k d ch
  else if op = 0x30 then .fence n k (bit w 25) (bit w 24) (bit w 23)
  else if op = 0x31 then .post n k d
  else if op = 0x32 then .sig n k (Fin.ofNat 5 (bits w 23 3)) (Fin.ofNat 8 (bits w 20 3))
  else if op = 0x33 then .join n k (BitVec.ofNat 8 (bits w 18 8)) (Fin.ofNat 4 (bits w 16 2)) (BitVec.ofNat 16 w)
  else .ckpt n k

/-- The command that slot `k` of engine `n` carries out when it fetches a 32-bit word: that of its opcode and fields, or ILLEGAL_INSTRUCTION where
the word is no instruction (R102). -/
def fetched (n k : Fin 4) (w : BitVec 32) : Instr := if legalWord w.toNat then fieldsInstr n k w.toNat else .illegalInstruction n k w

/-- ILLEGAL_INSTRUCTION (R102): a word that is no instruction traps with 0xFF01. -/
def execIllegalInstruction (n k : Fin 4) (word : BitVec 32) (s : State) : Host.Outcome State Fault Refusal :=
  if legalWord word.toNat then .next s else s.instr n k fun _ => s.trapSlot n k 0xFF01

end Sys2Proof.Machine
end

