-- ==== Sys2Proof/Machine/ReachMedia.lean ====
section
/-! DEFINITION. Motion and media instructions as they begin, and the control of program slots by firmware and by machine checks (03, 07, 08). -/

namespace Sys2Proof.Machine

/-! ### Motion (R109 to R112) -/

/-- A motion of a slot to the place its TP names, as a read target. -/
def State.motion (s : State) (n k : Fin 4) (o : Op) : State :=
  let a := (s.pslot n k).arch
  if (s.place n a.tp.toNat).isNone || !s.movable n then s.complete n k fun y => y.setCode 0x08
  else ((s.enter n k o .running).freshSeek n).goTo n k ⟨a.tp.toNat, false, a.offset.toInt⟩

/-- SEEK (R109). -/
def execSeek (n k : Fin 4) (a : Fin 16) (s : State) : Host.Outcome State Fault Refusal :=
  s.instrMove n k fun x => (s.updArch n k fun y => { y with tp := x.arch.reg a }).motion n k .seek

/-- FOLLOW (R109): a displacement in tracks; a destination outside the surface moves nothing. -/
def execFollow (n k : Fin 4) (disp : BitVec 8) (s : State) : Host.Outcome State Fault Refusal :=
  s.instrMove n k fun x =>
    let d := disp.toInt
    let tp := x.arch.tp.toNat
    let t : Int := tpTrack tp + d
    if d < -32 ∨ 32 < d then s.trapSlot n k 0xFF06
    else if t < 0 ∨ 2 ^ 38 ≤ tp ∨ (s.place n (mkTp (tpHead tp) t.toNat (tpSlot tp))).isNone ∨ 2 ^ 24 ≤ t then s.complete n k fun y => y.setCode 0x08
    else (s.updArch n k fun y => { y with tp := BitVec.ofNat 64 (mkTp (tpHead tp) t.toNat (tpSlot tp)) }).motion n k .follow

/-- OFFSET (R110): the offset of every later positioning of the slot; a new target, so ONT falls (R231). -/
def execOffset (n k : Fin 4) (o : Op11) (s : State) : Host.Outcome State Fault Refusal :=
  s.instr n k fun x =>
    let v := x.arch.op11 o
    if v.toInt < -512 ∨ 512 < v.toInt then s.trapSlot n k 0xFF06
    else (s.dropOnt n).complete n k fun y => { y with offset := v }

/-- SETTLE (R111): ends at once where ONT holds under the set. -/
def execSettle (n k : Fin 4) (set : Fin 4) (_timeout : BitVec 20) (s : State) : Host.Outcome State Fault Refusal :=
  s.instrMove n k fun x =>
    if (s.place n x.arch.tp.toNat).isNone || !s.movable n then s.complete n k fun y => y.setCode 0x08
    else
      let s1 := s.nameSet n set
      if s1.ontUnder n set.val then s1.complete n k fun y => y.setCode 0 else s1.enter n k (.settle set) .running

/-- HEAD (R112): selects the head, clears BLK and waits for it on the new head, from which the servo moves to TP.TRACK. -/
def execHead (n k : Fin 4) (o : Op11) (s : State) : Host.Outcome State Fault Refusal :=
  s.instrMove n k fun x =>
    let h := (x.arch.op11 o).toNat % 8
    let tp := x.arch.tp.toNat % 2 ^ 35 + 2 ^ 35 * h + 2 ^ 38 * (x.arch.tp.toNat / 2 ^ 38)
    let s1 := s.updArch n k fun y => { y with tp := BitVec.ofNat 64 tp }
    if (s1.place n tp).isNone || !s1.movable n then s1.complete n k fun y => y.setCode 0x08
    else
      ((((s1.clearBlk n).enter n k .head .running).sendSelect n k h).freshSeek n).findFirst n ⟨tp, false, x.arch.offset.toInt⟩

/-! ### Media instructions as they begin (R113 to R126) -/

/-- The first data slot at or after a track position: where a media instruction but RAW begins. DESIGN CHOICE: R113 does not say where one
begins whose TP names a parity or an unused slot; the model takes the next data slot in the order of R85. -/
def State.firstData (s : State) (n : Fin 4) (tp : Nat) : Nat :=
  match s.place n tp with
  | none => tp
  | some p =>
    match p.r.seekKind false p.index 66 with
    | some b => p.tpAt (tpHead tp) b
    | none => (s.nextSlot n false tp).getD offSurface

/-- Where a WRS begins: at a parity slot that its TP names while no committed parity sector stands there, else at the first data slot (R120,
R123). -/
def State.firstWrite (s : State) (n : Fin 4) (tp : Nat) : Nat :=
  if (s.place n tp).any (fun p => p.kind == .parity) && !(s.sectorAt n tp).any fun x => x.parity && x.committed then tp else s.firstData n tp

/-- A media instruction at its start: nothing begun, its counts from CN; `failed`: it made a failure-list entry before an interrupt (R97, R116). -/
def Media.fresh (kind : MediaKind) (next cn : Nat) (failed : Bool) : Media :=
  { kind := kind, eqs := 0, wgt := 0, avg := 0, deep := false, tpr := false, nox := false, cont := false, cmpb := false, wth := 0, stop := 0
    base := 0, next := next, left := cn, k := 0, ref := none, positioned := false, ending := none, waited := false, passes := 0, failed := failed
    first := next, seen := [], extra := [] }

/-- What every media instruction checks first, in order: TP with its head and its actuator, then CN, which may be 0 (R84, R87, R113). -/
def State.mediaCheck (s : State) (n k : Fin 4) : Option Nat :=
  let a := (s.pslot n k).arch
  if (s.place n a.tp.toNat).isNone || !s.movable n || 2 ^ 24 ≤ a.cn.toNat then some 0x08
  else if a.cn = 0 then some 0
  else none

/-- A media instruction begins: commit point 1, its checks, what `pre` checks and does, and its implicit positioning (R95, R113). -/
def State.beginMedia (s : State) (n k : Fin 4) (kind : MediaKind) (pre : State → State × Option Nat) (g : Media → Media) : State :=
  let s1 := s.record n k
  let a := (s1.pslot n k).arch
  match s1.mediaCheck n k with
  | some c => s1.completeRecord n k fun y => y.setCode c
  | none =>
    match pre s1 with
    | (s2, some c) => s2.completeRecord n k fun y => y.setCode c
    | (s2, none) =>
      let next := if kind = .raw then a.tp.toNat else if kind = .wrs then s2.firstWrite n a.tp.toNat else s2.firstData n a.tp.toNat
      ((s2.enter n k (.media (g (Media.fresh kind next a.cn.toNat (s2.pslot n k).madeEntry))) .running).freshSeek n).position n k

/-- RDS (R116): averaging and the deep decoder need the sample store (R161). -/
def execRds (n k : Fin 4) (eqs : Fin 8) (wgt : Fin 4) (avg : Fin 8) (deep tpr nox cont : Bool) (s : State) : Host.Outcome State Fault Refusal :=
  s.instrMove n k fun _ => s.beginMedia n k .rds
    (fun t => (t, if (avg.val ≠ 0 ∨ deep) ∧ !t.on (Fd.CHN_CTL_STORE_EN n) then some 0x08 else none))
    fun m => { m with eqs := eqs.val, wgt := wgt.val, avg := avg.val, deep := deep, tpr := tpr, nox := nox, cont := cont }

/-- Degraded service of the servo, or a pinned tether gain of the head (R218, R237). -/
def State.servoBars (s : State) (n : Fin 4) (h : Nat) : Bool :=
  s.on (Fd.SRV_STATUS_DEGR n) || s.unit (.servo n) == 6 || s.rdBit (Fd.SRV_STATUS_TPIN n) h

/-- What WRS checks at its start: a zero offset, degraded service of the engine, then of the servo or a pinned tether gain, touchdown
detection and the assist kind (R120, R187, R218, R237, Tables 05.11 and 08.6). -/
def State.wrsCheck (s : State) (n k : Fin 4) : Option Nat :=
  let a := (s.pslot n k).arch
  if a.offset ≠ 0 then some 0x09
  else if s.on (Fd.RCH_UCODE_DEGR n) ∨ s.unit (.reach n) = 6 ∨ s.servoBars n a.head then some 0x05
  else if s.on (Fd.CHN_TDCTL_EN n) ∨ s.rd (Fd.CHN_WCFG_AKIND n a.head) = 0 then some 0x08
  else none

/-- The run that a WRS begins: its BEGIN record is issued where the zone unit serves and the first slot stands at the zone's WP (R317, R318). -/
def State.wrsRun (s : State) (n k : Fin 4) : State :=
  match s.zoneAt n (s.firstData n (s.pslot n k).arch.tp.toNat) with
  | some (id, z, d) => if s.zoneServes n && d == z.wp && z.st != .full && z.st != .readOnly && z.st != .offline then s.runBegin n k id z else s
  | none => s

/-- WRS (R120): degraded service of the servo is shown as cause 1 (R218, R237). -/
def execWrs (n k : Fin 4) (s : State) : Host.Outcome State Fault Refusal :=
  s.instrMove n k fun _ => s.beginMedia n k .wrs
    (fun t =>
      match t.wrsCheck n k with
      | some c =>
        (if c = 0x05 ∧ t.servoBars n (t.pslot n k).arch.head then t.wr (Fd.CHN_WSTAT_CAUSE n) 1 else t, some c)
      | none => (t.wrsRun n k, none))
    fun m => m

/-- VFY (R119). -/
def execVfy (n k : Fin 4) (cmpb : Bool) (wth : BitVec 8) (s : State) : Host.Outcome State Fault Refusal :=
  s.instrMove n k fun _ => s.beginMedia n k .vfy (fun t => (t, none)) fun m => { m with cmpb := cmpb, wth := wth.toNat }

/-- SKIPTO (R113, R124): the slot is checked first, and CN plays no part. -/
def execSkipto (n k : Fin 4) (o : Op11) (s : State) : Host.Outcome State Fault Refusal :=
  s.instrMove n k fun x =>
    let tp := 2 ^ 11 * (x.arch.tp.toNat / 2 ^ 11) + (x.arch.op11 o).toNat
    if (s.place n tp).isNone || !s.movable n then s.complete n k fun y => y.setCode 0x08
    else (((s.updArch n k fun y => { y with tp := BitVec.ofNat 64 tp }).enter n k .skipto .running).freshSeek n).position n k

/-- SCAN (R125): an area outside the program area, or not a multiple of 32, traps. -/
def execScan (n k : Fin 4) (a : Fin 16) (stop : Fin 4) (s : State) : Host.Outcome State Fault Refusal :=
  s.instrMove n k fun x =>
    let p := (x.arch.reg a).toNat
    match s.mediaCheck n k with
    | none =>
      if p % 32 ≠ 0 ∨ p < 0x14000 ∨ 0x200000 < p + 32 * x.arch.cn.toNat then s.trapSlot n k 0xFF02
      else s.beginMedia n k .scan (fun t => (t, none)) fun m => { m with stop := stop.val, base := p }
    | some _ => s.beginMedia n k .scan (fun t => (t, none)) fun m => m

/-- RAW (R126). DESIGN CHOICE: where `ch` is wrong and W[a] is no multiple of 64 as well, the rule does not say which code stands, and 0x0E does. -/
def execRaw (n k : Fin 4) (a : Fin 16) (ch : Fin 32) (s : State) : Host.Outcome State Fault Refusal :=
  s.instrMove n k fun x =>
    let p := (x.arch.reg a).toNat % 2 ^ 40
    s.beginMedia n k .raw
      (fun t => (t, if ch.val ≠ 24 + 2 * n.val then some 0x0E else if p % 64 ≠ 0 then some 0x08 else none)) fun m => { m with base := p }

/-! ### Slots under firmware (R93 to R101, Tables 03.14 and 03.19) -/

/-- The failure list of a slot cleared (Table 03.9). -/
def State.clearFailures (s : State) (n k : Fin 4) : State := s.stored (saveArea n k + 0x400) (List.replicate 0x200 0)

/-- SLOT_START: in state idle, halted or faulted the slot state, the chain and the failure list are cleared, commit point 5 is recorded and the
slot is ready at its entry (R95, Table 03.19). -/
def execSlotStart (n k : Fin 4) (s : State) : Host.Outcome State Fault Refusal :=
  let st := (s.pslot n k).st
  if st = .idle ∨ st = .halted ∨ st = .faulted then
    let s1 := (s.clearFailures n k).updSlot n k fun x =>
      { Slot.reset with arch := { Arch.fresh with pc := 4 * s.rd (Fd.RCH_SLOT_ENTRY_ENTRY n k.val) }, trap := x.trap, st := .ready }
    .next ((s1.record n k).dispatch n)
  else .next s

/-- SLOT_RESUME: a stopped, halted or trapped slot is ready at its PC, after a TRAP of firmware's own at the next instruction (Table 03.19,
Table 03.25). -/
def execSlotResume (n k : Fin 4) (s : State) : Host.Outcome State Fault Refusal :=
  let x := s.pslot n k
  if x.st = .stopped ∨ x.st = .halted ∨ x.st = .trapped then
    .next ((s.updSlot n k fun x => { x with
      st := .ready
      arch := if x.st = .trapped ∧ x.trap ≤ 0xFEFF then { x.arch with pc := (x.arch.pc + 4) % 2 ^ 21 } else x.arch }).dispatch n)
  else .next s

/-- SLOT_STOP (R93, Table 03.19). -/
def execSlotStop (n k : Fin 4) (s : State) : Host.Outcome State Fault Refusal := .next (s.stopSlot n k)

/-- SLOT_RESTART: an interrupt of a slot in any state but idle (R94, Table 03.19). -/
def execSlotRestart (n k : Fin 4) (s : State) : Host.Outcome State Fault Refusal :=
  if (s.pslot n k).st = .idle then .next s
  else .next (((s.interrupt n k).updSlot n k fun x => { x with st := .ready, intr := true }).dispatch n)

/-- SLOT_KILL (R94, Table 03.19). -/
def execSlotKill (n k : Fin 4) (s : State) : Host.Outcome State Fault Refusal := .next ((s.kill n k).dispatch n)

/-- SLOT_RESTART_DONE: an interrupted slot continues from its last record (R97, R99). -/
def execSlotRestartDone (n k : Fin 4) (s : State) : Host.Outcome State Fault Refusal :=
  if (s.pslot n k).intr then .next ((s.restart n k).dispatch n) else .next s

/-- Whether the engine has decided to start the last data sector that CN counts (R101, R114). -/
def Slot.lastDecided (x : Slot) : Bool := x.media?.any fun m => m.left == 0

/-- Whether a slot is inside RDS, WRS or VFY. -/
def Slot.inTransfer (x : Slot) : Bool := x.media?.any fun m => m.kind == .rds || m.kind == .wrs || m.kind == .vfy

/-- The chain entry of an append taken: the chain, CN where ADDCN asks for it, and commit point 4 (R95, R101). DESIGN CHOICE: R101 says nothing of
ADDCN while the slot is inside SCAN or RAW; COUNT is then added to CN, which the instruction itself no longer reads. -/
def State.append (s : State) (n k : Fin 4) (v : Nat) : State :=
  let e := ChainEntry.ofWord v
  let add := if bit v 63 then e.count else 0
  let s1 := s.updSlot n k fun x =>
    { x with arch := (let a := x.arch.append e; { a with cn := a.cn + BitVec.ofNat 64 add })
             op := match x.op with
               | some (.media m) => some (.media (if x.inTransfer then { m with left := m.left + add } else m))
               | o => o }
  let a := (s1.pslot n k).arch
  (match s1.recorded n k with
    | none => s1.record n k
    | some r => s1.recordAs n k { r with cn := a.cn, chain := a.chain, bpSect := a.bpSect, bpRem := a.bpRem }).wr
    (Fd.RCH_SLOT_APPST_RESULT n k.val) 1

/-- SLOT_APPEND (R101): refused where the chain is full, or too late for the CN that ADDCN would raise. -/
def execSlotAppend (n k : Fin 4) (entry : BitVec 64) (s : State) : Host.Outcome State Fault Refusal :=
  let x := s.pslot n k
  let refuse := fun r => (s.wr (Fd.RCH_SLOT_APPST_RESULT n k.val) r).wr (Fd.RCH_INT_APPREF n) 1
  if 16 ≤ x.arch.chain.length then .next (refuse 2)
  else if bit entry.toNat 63 && x.inTransfer && x.lastDecided then .next (refuse 3)
  else .next (s.append n k entry.toNat)

/-- Whether the running slot stands at its preemption point (Table 03.8). -/
def State.atPoint (s : State) (n k : Fin 4) : Bool :=
  match (s.pslot n k).op with
  | some (.media m) => m.kind != .wrs || s.settled n k
  | some .skipto => s.standing n k
  | _ => false

/-- SLOT_DISPLACED (R93): the running slot gives up the engine to a lower one that is ready, at the point of Table 03.8. -/
def execSlotDisplaced (n : Fin 4) (s : State) : Host.Outcome State Fault Refusal :=
  match s.runner n with
  | none => .next s
  | some k =>
    if s.atPoint n k && four.any (fun j => j < k && (s.pslot n j).st == .ready && !(s.pslot n j).intr) then
      .next ((s.giveUp n k .ready).dispatch n)
    else .next s

/-- Every slot of a list stopped. -/
def State.stopSlots (s : State) (n : Fin 4) : List (Fin 4) → State
  | [] => s
  | k :: l => (s.stopSlot n k).stopSlots n l

/-- RCH_ENABLE: with EN 0 every slot stops at its point with its state kept (Table 03.12). DESIGN CHOICE: a slot stopped so stays stopped when EN
becomes 1 again, until RESUME. -/
def execRchEnable (n : Fin 4) (v : Bool) (s : State) : Host.Outcome State Fault Refusal :=
  let s1 := s.wr (Fd.RCH_CTL_EN n) (b2n v)
  if v then .next (s1.dispatch n) else .next (s1.stopSlots n four)

/-- SIGNALS_SET (Table 03.14). -/
def execSignalsSet (n : Fin 4) (mask : BitVec 8) (s : State) : Host.Outcome State Fault Refusal :=
  .next (s.setBits (Fd.RCH_SIGNALS_SIG n) mask.toNat)

/-- STATE that a unit serves in: degraded while SLOT_CTL.DEGRADE stands (Table 01.8). -/
def State.workState (s : State) (u : UnitRef) : Nat := if s.on (Fd.SLOT_CTL_DEGRADE u.win u.slot) then 6 else 2

/-- The degraded service of an engine or a servo shown in its own map: it runs while STATE reads degraded, and an engine's bit stays 1 once it
has failed (R237, R652, Tables 06.14 and 08.6). -/
def State.showDegraded (s : State) (u : UnitRef) : State :=
  match u with
  | .reach n => s.wr (Fd.RCH_UCODE_DEGR n) (b2n (s.unit u == 6 || s.unit u == 7))
  | .servo n =>
    if s.unit u = 6 then (s.wr (Fd.SRV_STATUS_DEGR n) 1).wr (Fd.SRV_INT_DEGR n) 1 else s.wr (Fd.SRV_STATUS_DEGR n) 0
  | _ => s

/-- A unit reaches serving: it serves, or runs its degraded service where DEGRADE stands (R652). -/
def State.toWork (s : State) (u : UnitRef) : State := (s.setUnit u (s.workState u)).showDegraded u

/-- A quiesce of an engine begins or ends (R264, Table 01.8): its slots stop, and resume only by RESUME. -/
def State.engQuiesce (s : State) (n : Fin 4) (v : Bool) : State :=
  let u := UnitRef.reach n
  let s1 := s.wr (Fd.SLOT_CTL_QUIESCE u.win u.slot) (b2n v)
  let s2 := s1.updEng n fun r => { r with quiesce := v }
  if v then (if s.serving u then ((s2.setUnit u 3).stopSlots n four).dispatch n else s2)
  else if s.unit u = 3 ∨ s.unit u = 4 then (s2.toWork u).dispatch n else s2

/-! ### Machine checks (R279 to R283) -/

/-- RCH.MCINFO as a word (Table 08.10). -/
def State.mcinfo (s : State) (n : Fin 4) : Nat :=
  s.rd (Fd.RCH_MCINFO_UADDR n) + 2 ^ 13 * s.rd (Fd.RCH_MCINFO_CAUSE n) + 2 ^ 15 * s.rd (Fd.RCH_MCINFO_SLOT n) +
    2 ^ 17 * s.rd (Fd.RCH_MCINFO_LO n) + 2 ^ 18 * s.rd (Fd.RCH_MCINFO_HI n)

/-- Steps 2 and 3 of Table 08.5: every active slot is interrupted, and the check is latched, counted and recorded. -/
def State.latchCheck (s : State) (n : Fin 4) (cause u : Nat) (lo hi : Bool) : State :=
  let slot := ((s.runner n).map Fin.val).getD 0
  let s1 := ((s.interruptActive n four).updEng n fun r => { r with ports := [] }).wrs
    [(Fd.RCH_MCINFO_UADDR n, u), (Fd.RCH_MCINFO_CAUSE n, cause), (Fd.RCH_MCINFO_SLOT n, slot), (Fd.RCH_MCINFO_LO n, b2n (lo && cause == 1)),
     (Fd.RCH_MCINFO_HI n, b2n (hi && cause == 1)), (Fd.RCH_INT_MCHK n, 1)]
  (s1.count (Fd.RCH_STATUS_MCHK n) 1).raise (.reach n) 0x1001 5 (leBytes 4 (s1.mcinfo n))

/-- Every slot of a list killed. -/
def State.killSlots (s : State) (n : Fin 4) (l : List (Fin 4)) : State := l.foldl (fun t k => t.kill n k) s

/-- A parity check on microaddress `u` counted in its hour (R282), and what its strikes lead to (R282, R283). -/
def State.strike (s : State) (n : Fin 4) (u : Nat) : State :=
  let win := s.time / 3600000000
  let old := if (s.eng n).strikeWin = win then (s.eng n).strikes else []
  let c := ((old.find? fun p => p.1 == u).map Prod.snd).getD 0 + 1
  let known := s.on (Fd.RCH_MCSTRIKE_VALID n) && s.rd (Fd.RCH_MCSTRIKE_UADDR n) == u
  let s1 := s.updEng n fun r => { r with strikeWin := win, strikes := (u, c) :: old.filter fun p => p.1 != u }
  if known && c == 1 then
    (((s1.wr (Fd.RCH_UCODE_DEGR n) 1).setUnit (.reach n) 7).raise (.reach n) 0x1004 6 (leBytes 2 u ++ [1])).killSlots n four
  else if c = 3 then
    (((((s1.wr (Fd.RCH_UCODE_DEGR n) 1).wr (Fd.RCH_MCSTRIKE_UADDR n) u).wr (Fd.RCH_MCSTRIKE_VALID n) 1).setUnit (.reach n) 6).wr
      (Fd.SLOT_CTL_DEGRADE (UnitRef.reach n).win (UnitRef.reach n).slot) 1).raise (.reach n) 0x1004 6 (leBytes 2 u ++ [0])
  else s1

end Sys2Proof.Machine
end

