-- ==== Sys2Proof/Machine/Trust.lean ====
section
/-! DEFINITION. The trust unit: the integrator root, the anti-rollback counters, key ranges, sessions and authorizations (21). -/

namespace Sys2Proof.Machine

/-- A write that the trust unit refuses (R594, R601, R604). -/
def State.deny (s : State) : State := s.wr Fd.TRU_INT_DENY 1

/-! ### Roots and counters (R594 to R596) -/

/-- IROOT_COMMIT: the watch core fuses the root, once (R594); IRFUSED is loaded at P1. -/
def execIrootCommit (r : Sys2Proof.Requester) (s : State) : Host.Outcome State Fault Refusal :=
  if r ≠ .watch then .next s
  else if s.trust.iroot.isSome then .next s.deny
  else .next (s.truPut fun t => { t with iroot := some ((List.range 12).map fun i => s.rd (Fd.TRU_IROOT_HASH i)) })

/-- The counter of a kind advances to a value (R596): the record of the next UPDATE, the fuse, and the older records erased. -/
def State.arbAdvance (s : State) (kind v : Nat) (used : Fld) : State :=
  let n := s.rd used
  if v ≤ s.rd (Fd.TRU_ARBV_VALUE kind) then s
  else if 128 ≤ n then s.wr Fd.TRU_INT_ARBFULL 1
  else
    let s1 := s.truPut fun t => { t with counters := (t.counters ++ [CounterRec.mk kind (n + 1) v]).filter fun c => c.kind != kind || n ≤ c.update }
    (s1.wr used (n + 1)).wr (Fd.TRU_ARBV_VALUE kind) v

/-- ARB_ADVANCE_FW: to the ROLLBACK of the running image, for the watch core alone (R596). -/
def execArbAdvanceFw (r : Sys2Proof.Requester) (s : State) : Host.Outcome State Fault Refusal :=
  if r ≠ .watch then .next s else .next (s.arbAdvance 0 s.trust.fwRoll Fd.TRU_ARB_FWUSED)

/-- ARB_ADVANCE_UC: to the ROLLBACK of the loaded patch package (R596). -/
def execArbAdvanceUc (r : Sys2Proof.Requester) (s : State) : Host.Outcome State Fault Refusal :=
  if r ≠ .watch then .next s else .next (s.arbAdvance 1 s.trust.ucRoll Fd.TRU_ARB_UCUSED)

/-! ### Ranges (R601 to R606) -/

/-- Whether a change touches blocks of a local namespace: those the range holds, and those a new geometry gives it. -/
def State.changeTouches (s : State) (r : Nat) (ch : RangeChange) (j lba n : Nat) : Bool :=
  s.rangeTouches r j lba n || (match ch with
    | .geometry d ns start len => d && ns == j && start < lba + n && lba < start + len
    | _ => false)

/-- The contexts admitted earlier whose commands touch what a change concerns (R603). -/
def State.earlier (s : State) (r : Nat) (ch : RangeChange) : List Nat :=
  (s.host.ctxs.filter fun p => p.2.st != .held && p.2.media && p.2.fwdTo.isNone && (match s.nsLocal p.2.nsid with
    | none => false
    | some j => s.changeTouches r ch j p.2.slba p.2.nlb)).map Prod.fst

/-- A change of a range asked for: at once, or once every earlier command that touches it has completed (R603, R606). -/
def State.askChange (s : State) (r : Nat) (ch : RangeChange) : State :=
  let l := s.earlier r ch ++ (s.trust.waits.filter fun w => w.1 == r).flatMap fun w => w.2.2
  if l = [] then s.applyChange r ch else s.truPut fun t => { t with waits := t.waits ++ [(r, ch, l)] }

/-- GENKEY (R606). -/
def execGenkey (i : Fin 65) (s : State) : Host.Outcome State Fault Refusal := .next (s.askChange i.val .genkey)

/-- Whether the session may clear a lock bit of a range (R604). -/
def State.mayUnlock (s : State) (r : Nat) : Bool :=
  s.on Fd.TRU_STATUS_SESSION && (match s.trust.session with
    | .openLocking m => bit m.toNat r
    | _ => false)

/-- RANGE_LOCK_WRITE (R603, R604): the clearing of a lock bit needs a session. -/
def execRangeLockWrite (i : Fin 65) (rlck wlck : Bool) (s : State) : Host.Outcome State Fault Refusal :=
  let clears := (s.on (Fd.TRU_RANGE_CFG_RLCK i.val) && !rlck) || (s.on (Fd.TRU_RANGE_CFG_WLCK i.val) && !wlck)
  if clears && !s.mayUnlock i.val then .next s.deny else .next (s.askChange i.val (.lock rlck wlck))

/-- The geometries in force and asked for, of ranges other than `r`: namespace, first block and blocks. -/
def State.geometries (s : State) (r : Nat) : List (Nat × Nat × Nat) :=
  ((((List.range 64).map (· + 1)).filter fun q => q != r && s.on (Fd.TRU_RANGE_CFG_DEFINED q)).map fun q =>
      (s.rd (Fd.TRU_RANGE_CFG_NS q), s.rd (Fd.TRU_RANGE_START_LBA q), s.rd (Fd.TRU_RANGE_LEN_BLOCKS q))) ++
    s.trust.waits.filterMap fun w => match w.2.1 with
      | .geometry true ns start len => if w.1 = r then none else some (ns, start, len)
      | _ => none

/-- RANGE_GEOMETRY_WRITE (R601, R603): refused where ranges would overlap, or off the zone boundaries of a zoned namespace. -/
def execRangeGeometryWrite (i : Fin 65) (defined : Bool) (ns : Fin 8) (start len : BitVec 64) (s : State) : Host.Outcome State Fault Refusal :=
  let a := start.toNat
  let n := len.toNat
  let meets := (s.geometries i.val).any fun g => g.1 == ns.val && g.2.1 < a + n && a < g.2.1 + g.2.2
  let off := s.nsValid ns.val && s.nsZoned ns.val && (a % 65536 != 0 || n % 65536 != 0)
  if i = 0 then .next s
  else if defined && (meets || off) then .next s.deny
  else .next (s.askChange i.val (.geometry defined ns.val a n))

/-! ### Sessions and authorizations (R604, R607) -/

/-- The session opened, closed or kept as the trust unit's verification of a ComPacket decides (R604). -/
def State.setSession (s : State) : Session → State
  | .keep => s
  | .close => (s.wr Fd.TRU_STATUS_SESSION 0).truPut fun t => { t with session := .close }
  | o => (s.wr Fd.TRU_STATUS_SESSION 1).truPut fun t => { t with session := o }

/-- AUTHREQ (R607): under an Admin session (KIND 0), or a token over the nonce, which serves one request (KIND 1). -/
def execAuthreq (kind ok : Bool) (s : State) : Host.Outcome State Fault Refusal :=
  let good := if kind then ok && s.trust.iroot.isSome && s.trust.nonce.isSome
    else s.on Fd.TRU_STATUS_SESSION && s.trust.session == .openAdmin
  let s1 := (s.wrs [(Fd.TRU_AUTHREQ_KIND, b2n kind), (Fd.TRU_AUTHREQ_DONE, 1), (Fd.TRU_AUTHREQ_OK, b2n good)]).truPut fun t =>
    { t with nonce := if kind then none else t.nonce }
  .next (if good then (s1.wr Fd.EVR_CLR_AUTH 1).evrPut fun e => { e with authTok := kind } else s1)

/-- NONCE_READ (R607): a new nonce, which nobody can foretell, replaces the last. -/
def execNonceRead (s : State) : Host.Outcome State Fault Refusal :=
  let v := s.freeVal % 2 ^ 128
  .next ((((s.tookFree.wr (Fd.TRU_NONCE_NONCE 0) (v % 2 ^ 64)).wr (Fd.TRU_NONCE_NONCE 1) (v / 2 ^ 64)).truPut fun t =>
    { t with nonce := some v }).reply (v % 2 ^ 64))

/-- NONCE_EXPIRY (R607). -/
def execNonceExpiry (s : State) : Host.Outcome State Fault Refusal := .next (s.truPut fun t => { t with nonce := none })

end Sys2Proof.Machine
end

