-- ==== Sys2Proof/Machine/Admin.lean ====
section
/-! DEFINITION. The admin commands as the intake carries them out: queues, Abort, features, firmware, Format NVM, Sanitize, Security (10, 19,
21). -/

namespace Sys2Proof.Machine

/-! ### The shape of a command row -/

/-- An admitted admin command of an opcode that the intake has not yet carried out; one that another member serves does nothing here. -/
def State.adm (s : State) (c op : Nat) (body : Ctx → State) : Host.Outcome State Fault Refusal :=
  match s.ctx? c with
  | none => .next s
  | some x =>
    if x.st = .admitted ∧ !x.handed ∧ !x.run ∧ x.admin ∧ x.opcode = op ∧ x.ending.isNone ∧ x.fwdTo.isNone then .next (body x) else .next s

/-- A command completes with success and a value of dword 0. -/
def State.answerDw (s : State) (c v : Nat) : State := (s.ctxUpd c fun y => { y with res0 := v % 2 ^ 32 }).succeed c

/-- The bytes that a host sends with a command: the first of its buffer. -/
def State.sentData (s : State) (x : Ctx) (n : Nat) : List Nat := (s.load 0x3F x.buf n).2.getD []

/-! ### Queues (R337, R339, R341, R356) -/

/-- CREATE_IO_CQ: a contiguous queue of 2 to 4,096 entries on one of 130 vectors (R330, R339). -/
def execCreateIoCq (c : Fin 65536) (s : State) : Host.Outcome State Fault Refusal :=
  s.adm c.val 0x05 fun x =>
    let q := bits (x.dw 10) 0 16
    let n := bits (x.dw 10) 16 16
    let v := bits (x.dw 11) 16 16
    if q = 0 ∨ 128 < q ∨ (s.ctrl x.ctl).cqs.any (fun p => p.1 == q) ∨ n = 0 ∨ 4095 < n ∨ !bit (x.dw 11) 0 ∨ 129 < v then s.endAll c.val 0 0x02
    else (s.ctrlUpd x.ctl fun t => { t with cqs := tinsert t.cqs q ⟨n + 1, 0, v, bit (x.dw 11) 1⟩ }).succeed c.val

/-- The class of QPRIO. -/
def prioClass (p : Nat) : CtxClass := if p = 0 then .urgent else if p = 1 then .high else if p = 2 then .medium else .low

/-- CREATE_IO_SQ: refused where fewer than 1,024 contexts would stay pooled (R341). -/
def execCreateIoSq (c : Fin 65536) (s : State) : Host.Outcome State Fault Refusal :=
  s.adm c.val 0x01 fun x =>
    let q := bits (x.dw 10) 0 16
    let n := bits (x.dw 10) 16 16
    let cq := bits (x.dw 11) 16 16
    let res := s.rd Fd.INT_SCHED_RESERVE
    if q = 0 ∨ 128 < q ∨ (s.sq? x.ctl q).isSome ∨ n = 0 ∨ 4095 < n ∨ !bit (x.dw 11) 0 ∨
        !((s.ctrl x.ctl).cqs.any fun p => p.1 == cq && p.1 != 0) then s.endAll c.val 0 0x02
    else if s.poolSize < 1024 + res then s.endAll c.val 1 0x02
    else (s.ctrlUpd x.ctl fun t => { t with sqs := tinsert t.sqs q ⟨cq, n + 1, prioClass (bits (x.dw 11) 1 2), 0, 0, res⟩ }).succeed c.val

/-- A command ends early; the owner of a forwarded one releases it (R263, R569). -/
def State.endCmd (s : State) (c : Nat) (e : Ending) : State :=
  match s.ctx? c with
  | none => s
  | some x =>
    (match x.fwdTo with
      | some p => if x.st = CtxSt.held then s else s.send ⟨0x06, p, c + 0xFFFF * 65536, 1, []⟩
      | none => s).endEarlyAll c e

/-- The commands of a controller, and of one of its queues where one is named: their first contexts, in fetch order. -/
def State.cmdsOf (s : State) (i : Fin 2) (q : Option Nat) : List (Nat × Ctx) :=
  (s.host.ctxs.filter fun p => p.2.ctl == i && p.2.origin.isNone && !s.isPart p.1 && q.all fun j => p.2.sq == j).mergeSort
    fun a b => a.2.ord ≤ b.2.ord

/-- DELETE_IO_SQ: every command of the queue ends with SC 0x08, and the deletion completes after the last (R356). -/
def execDeleteIoSq (c : Fin 65536) (s : State) : Host.Outcome State Fault Refusal :=
  s.adm c.val 0x00 fun x =>
    let q := bits (x.dw 10) 0 16
    if q = 0 ∨ (s.sq? x.ctl q).isNone then s.endAll c.val 0 0x02
    else
      let s1 := (s.ctxUpd c.val fun y => { y with run := true }).sqUpd x.ctl q fun y => { y with tail := y.head }
      ((s1.cmdsOf x.ctl (some q)).foldl (fun t p => t.endCmd p.1 (.complete 0 0x08)) s1).settleDeletes

/-- DELETE_IO_CQ: of a queue that no submission queue uses. -/
def execDeleteIoCq (c : Fin 65536) (s : State) : Host.Outcome State Fault Refusal :=
  s.adm c.val 0x04 fun x =>
    let q := bits (x.dw 10) 0 16
    if q = 0 ∨ !((s.ctrl x.ctl).cqs.any fun p => p.1 == q) ∨ (s.ctrl x.ctl).sqs.any (fun p => p.2.cq == q) then s.endAll c.val 0 0x02
    else (s.ctrlUpd x.ctl fun t => { t with cqs := terase t.cqs q }).succeed c.val

/-- ASYNC_EVENT_REQUEST: up to 8 wait per controller (Table 10.3, AERL); a further one is refused. -/
def execAsyncEventRequest (c : Fin 65536) (s : State) : Host.Outcome State Fault Refusal :=
  s.adm c.val 0x0C fun x =>
    if 8 ≤ (s.ctrl x.ctl).aers.length then s.endAll c.val 1 0x05
    else (((s.ctxUpd c.val fun y => { y with run := true }).ctrlUpd x.ctl fun t => { t with aers := t.aers ++ [c.val] })).meetAer x.ctl 8

/-! ### Abort (R351 to R354, R569) -/

/-- Whether R352 lets a context be aborted: held or admitted, or bound with no sector begun, and not handed to completion. -/
def Ctx.abortable (x : Ctx) : Bool :=
  !x.handed && x.ending.isNone && (x.st == .held || x.st == .admitted || (x.st == .bound && !x.begun))

/-- Whether every context of a command may be aborted. -/
def State.abortable (s : State) (c : Nat) : Bool := (s.linked c 8).all fun d => (s.ctx? d).any Ctx.abortable

/-- ABORT (R351, R352, R354, R569). -/
def execAbort (c : Fin 65536) (s : State) : Host.Outcome State Fault Refusal :=
  s.adm c.val 0x08 fun x =>
    let q := bits (x.dw 10) 0 16
    let cid := bits (x.dw 10) 16 16
    if 8 ≤ (s.ctrl x.ctl).aborts then s.endAll c.val 1 0x03
    else match (s.cmdsOf x.ctl (some q)).find? fun p => !p.2.admin && p.2.cid == cid with
      | none => s.answerDw c.val 1
      | some (d, y) =>
        match y.fwdTo with
        | some p =>
          if y.st = CtxSt.held then (s.endEarlyAll d (.complete 0 0x07)).answerDw c.val 0
          else if y.handed then s.answerDw c.val 1
          else ((s.send ⟨0x06, p, d + 0xFFFF * 65536, 0, []⟩).ctxUpd c.val fun z => { z with run := true }).ctrlUpd x.ctl fun t =>
            { t with aborts := t.aborts + 1 }
        | none => if s.abortable d then (s.endEarlyAll d (.complete 0 0x07)).answerDw c.val 0 else s.answerDw c.val 1

/-! ### The admin state of a group (R563) -/

/-- Whether a feature of the subsystem's list is each namespace's own (Error Recovery), which no other member holds (Table 10.8). -/
def ownFeature (k : Nat) : Bool := k % 256 == 0x05

/-- Calendar time in ms from its offset, and an offset from the time: modulo 2^48, as the Timestamp feature carries it. -/
def State.calTime (s : State) (o : Nat) : Nat := (o + s.time / 1000) % 2 ^ 48

/-- The offset of a calendar time in ms. -/
def State.calOffsetOf (s : State) (ms : Nat) : Nat := (ms + (2 ^ 48 - s.time / 1000)) % 2 ^ 48

/-- The subsystem-wide state that ADM carries: the features, the calendar time as it stands. -/
def State.adminImage (s : State) : List (Nat × Nat) :=
  (s.host.features.filter fun p => !ownFeature p.1).map fun p => if p.1 = 0x0E then (0x0E, s.calTime p.2) else p

/-- An admin-state image as a message carries it. -/
def imageBytes (l : List (Nat × Nat)) : List Nat := l.flatMap fun p => leBytes 8 p.1 ++ leBytes 8 p.2

/-- The lead sends its admin state to a member. -/
def State.sendAdm (s : State) (p : Nat) : State := s.send ⟨0x08, p, 0, s.rd Fd.CFX_VERSION_VER, imageBytes s.adminImage⟩

/-- Whether a change is held by every member reached, and by at least half of the members (R563). -/
def State.admHeld (s : State) (w : AdmWait) : Bool :=
  (s.peerList.all fun p => !s.hears p || bit w.acks p) && s.members ≤ 2 * ((s.peerList.countP fun p => bit w.acks p) + 1)

/-- Commands complete whose change is held (R563). -/
def State.settleAdm (s : State) : State :=
  (s.cfx.adm.filter s.admHeld).foldl (fun t w => match w.ctx with
    | some c => t.succeed c
    | none => t) (s.cfxUpd fun u => { u with adm := u.adm.filter fun w => !s.admHeld w })

/-- A change of the subsystem's admin state by the command of a context: alone it is complete; the lead sends it to every member it reaches
(R563). -/
def State.publish (s : State) (c : Nat) : State :=
  if s.members = 1 ∨ !s.on Fd.CFX_STATUS_ISLEAD then s.succeed c
  else
    let s1 := (s.bump Fd.CFX_VERSION_VER).ctxUpd c fun y => { y with run := true }
    let s2 := s1.cfxUpd fun u => { u with adm := u.adm ++ [⟨s1.rd Fd.CFX_VERSION_VER, some c, 0⟩] }
    ((s2.peerList.filter s2.hears).foldl State.sendAdm s2).settleAdm

/-! ### Power states (R363) -/

/-- The package takes the lowest-numbered state requested; in a state that is not operational the heads park (R363, Table 10.5). -/
def State.usePs (s : State) : State :=
  let p := if s.ctrlHere 1 then min s.host.ps0 s.host.ps1 else s.host.ps0
  let s1 := s.hput fun h => { h with psNow := p, psOper := if p ≤ 1 then p else h.psOper }
  if 2 ≤ p then four.foldl (fun t n => t.unload n) s1 else s1

/-- A power state requested through a controller. -/
def State.askPs (s : State) (i : Fin 2) (p : Nat) : State :=
  (s.hput fun h => if i = 0 then { h with ps0 := p } else { h with ps1 := p }).usePs

/-- APST_TRANSITION (R363): a controller's autonomous transition to a state. -/
def execApstTransition (ctl : Fin 2) (ps : Fin 5) (s : State) : Host.Outcome State Fault Refusal :=
  if s.ctrlHere ctl then .next (s.askPs ctl ps.val) else .next s

/-! ### Features (R364, Table 10.8) -/

/-- A subsystem-wide feature replaced. -/
def State.subFeature (s : State) (fid v : Nat) : State := s.hput fun h => { h with features := featSet fid v h.features }

/-- A feature of a controller replaced. -/
def State.ctlFeature (s : State) (i : Fin 2) (fid v : Nat) : State := s.ctrlUpd i fun t => { t with features := featSet fid v t.features }

/-- The Timestamp feature set: the calendar's offset from device time, and a TIMESET record (R540). -/
def State.setTimestamp (s : State) (ms : Nat) : State :=
  (s.subFeature 0x0E (s.calOffsetOf ms)).raiseAs 0 0 0x0004 1 (leBytes 6 ms)

/-- Error Recovery of one namespace: DULBE, and the read limit that TLER mirrors (R342). -/
def State.setRecovery (s : State) (j v : Nat) : State :=
  (s.subFeature (0x05 + 256 * s.nsid j) v).wr Fd.INT_LIMIT_READ (if v % 65536 = 0 then 0x46 else v % 65536)

/-- The local namespaces that an NSID names: one, or every one. -/
def State.namedNs (s : State) (nsid : Nat) : List Nat :=
  if nsid = 0xFFFFFFFF then [1, 2, 3, 4, 5].filter s.nsValid else (s.nsLocal nsid).toList

/-- SET_FEATURES (R363, R364, R540, Table 10.8); saving is not supported. -/
def execSetFeatures (c : Fin 65536) (s : State) : Host.Outcome State Fault Refusal :=
  s.adm c.val 0x09 fun x =>
    let fid := x.dw 10 % 256
    let v := x.dw 11
    let bad := s.endAll c.val 0 0x02
    if bit (x.dw 10) 31 then bad
    else if fid = 0x01 ∨ fid = 0x08 ∨ fid = 0x0B then (s.ctlFeature x.ctl fid v).succeed c.val
    else if fid = 0x02 then (if v % 32 ≤ 4 ∧ bits v 5 3 = 0 then (s.askPs x.ctl (v % 32)).succeed c.val else bad)
    else if fid = 0x04 then
      (if (bits v 16 4 = 0 ∨ bits v 16 4 = 15) ∧ bits v 20 2 ≤ 1 then (s.subFeature (0x04 + 256 * bits v 20 2) (v % 65536)).publish c.val else bad)
    else if fid = 0x05 then
      (if 255 < v % 65536 then bad
      else if s.namedNs x.nsid = [] then s.endAll c.val 0 0x0B
      else ((s.namedNs x.nsid).foldl (fun t j => t.setRecovery j v) s).succeed c.val)
    else if fid = 0x07 then
      (if v % 65536 = 0xFFFF ∨ v / 65536 = 0xFFFF then bad
      else
        let w := min (v % 65536) 127 + 65536 * min (v / 65536) 127
        (s.ctrlUpd x.ctl fun t => { t with nqueues := w + 1 }).answerDw c.val w)
    else if fid = 0x09 then
      (if 129 < v % 65536 then bad else (s.ctlFeature x.ctl (0x09 + 256 * (v % 65536)) v).succeed c.val)
    else if fid = 0x0C then
      let d := s.sentData x 256
      ((List.range 32).foldl (fun t i => t.subFeature (0x0C + 256 * (i + 1)) (leValue ((d.drop (8 * i)).take 8)))
        (s.subFeature 0x0C (v % 2))).publish c.val
    else if fid = 0x0E then (s.setTimestamp (leValue (s.sentData x 6))).publish c.val
    else bad

/-- A feature's default value (Table 10.8). -/
def featDefault (fid v : Nat) : Nat :=
  if fid = 0x01 then 0x03030307
  else if fid = 0x04 then (if bits v 20 2 = 1 then 273 else 343)
  else if fid = 0x05 then 0x46
  else if fid = 0x07 then 0x007F007F
  else if fid = 0x09 then v % 65536
  else 0

/-- A feature's present value; `v` is dword 11. -/
def State.featNow (s : State) (x : Ctx) (fid v : Nat) : Nat :=
  let d := featDefault fid v
  if fid = 0x01 ∨ fid = 0x08 ∨ fid = 0x0B then featAt fid d (s.ctrl x.ctl).features
  else if fid = 0x02 then (if x.ctl = 0 then s.host.ps0 else s.host.ps1)
  else if fid = 0x04 then featAt (0x04 + 256 * bits v 20 2) d s.host.features
  else if fid = 0x05 then 65536 * (featAt (0x05 + 256 * x.nsid) d s.host.features / 65536) + s.rd Fd.INT_LIMIT_READ
  else if fid = 0x07 then (if (s.ctrl x.ctl).nqueues = 0 then d else (s.ctrl x.ctl).nqueues - 1)
  else if fid = 0x09 then featAt (0x09 + 256 * (v % 65536)) d (s.ctrl x.ctl).features
  else featAt fid d s.host.features

/-- The data that a feature returns: the 32 entries of 0x0C, or the time of 0x0E with its origin. -/
def State.featData (s : State) (fid : Nat) (now : Bool) : List Nat :=
  if fid = 0x0C then (List.range 32).flatMap fun i => leBytes 8 (if now then featAt (0x0C + 256 * (i + 1)) 0 s.host.features else 0)
  else
    match (if now then s.host.features.find? fun p => p.1 == 0x0E else none) with
    | some (_, o) => leBytes 6 (s.calTime o) ++ [2, 0]
    | none => List.replicate 8 0

/-- GET_FEATURES (R364): the present value, or the default; nothing is saved. -/
def execGetFeatures (c : Fin 65536) (s : State) : Host.Outcome State Fault Refusal :=
  s.adm c.val 0x0A fun x =>
    let fid := x.dw 10 % 256
    let sel := bits (x.dw 10) 8 3
    let v := x.dw 11
    if 3 ≤ sel ∨ !([0x01, 0x02, 0x04, 0x05, 0x07, 0x08, 0x09, 0x0B, 0x0C, 0x0E].contains fid) then s.endAll c.val 0 0x02
    else if fid = 0x05 ∧ (s.nsLocal x.nsid).isNone then s.endAll c.val 0 0x0B
    else
      let w := if sel = 0 then s.featNow x fid v else featDefault fid v
      if fid = 0x0C ∨ fid = 0x0E then (s.ctxUpd c.val fun y => { y with res0 := if fid = 0x0C then w else 0 }).answerData c.val x (s.featData fid (sel == 0))
      else s.answerDw c.val w

/-! ### Firmware (R358, R359, R599, R616) -/

/-- Part of an image put into the firmware buffer. -/
def putBuf (l : List (BitVec 8)) (a : Nat) (d : List (BitVec 8)) : List (BitVec 8) :=
  (l ++ List.replicate (a - l.length) 0).take a ++ d ++ l.drop (a + d.length)

/-- FIRMWARE_IMAGE_DOWNLOAD: dwords from an offset, at most 8 MiB in all (R337, R597). -/
def execFirmwareImageDownload (c : Fin 65536) (data : List (BitVec 8)) (s : State) : Host.Outcome State Fault Refusal :=
  s.adm c.val 0x11 fun x =>
    let n := 4 * (x.dw 10 + 1)
    let a := 4 * x.dw 11
    if 0x800000 < a + n then s.endAll c.val 0 0x02
    else (s.hput fun h => { h with fwBuf := putBuf h.fwBuf a (data.take n) }).succeed c.val

/-- The slot that a commit names: 0 (A) or 1 (B), the one not running where it names none. -/
def State.commitSlot (s : State) (x : Ctx) : Nat := if x.dw 10 % 8 = 0 then 1 - s.rd Fd.TRU_BOOTSEL_RUNNING else x.dw 10 % 8 - 1

/-- The array offset of an image region (Table 14.1). -/
def imageBase (slot : Nat) : Nat := if slot = 0 then 0 else 0x2000000

/-- The downloaded image written to its slot and its region of code flash (R597, R599); of the two slots the one staged last is activated. -/
def State.putImage (s : State) (slot : Nat) (staged : Bool) : State :=
  let s1 := if s.host.fwBuf = [] then s else
    { s with flash := flashPut s.flash (imageBase slot) (s.host.fwBuf.map BitVec.toNat) }
  s1.hput fun h =>
    let y : FwSlot := ⟨if h.fwBuf = [] then (if slot = 0 then h.fwA.image else h.fwB.image) else h.fwBuf, staged⟩
    if slot = 0 then { h with fwA := y, fwB := { h.fwB with staged := false }, fwBuf := [] }
    else { h with fwB := y, fwA := { h.fwA with staged := false }, fwBuf := [] }

/-- FIRMWARE_COMMIT with action 0x1 or 0x2: the image is staged, or refused with its slot unchanged (R358, R599). -/
def execFirmwareCommit (c : Fin 65536) (valid : Bool) (s : State) : Host.Outcome State Fault Refusal :=
  s.adm c.val 0x10 fun x =>
    let ca := bits (x.dw 10) 3 3
    if ca = 3 then s
    else if (ca ≠ 1 ∧ ca ≠ 2) ∨ 2 < x.dw 10 % 8 then s.endAll c.val 0 0x02
    else if !valid then s.endAll c.val 1 0x07
    else
      let slot := s.commitSlot x
      ((if ca = 2 then s.wr Fd.TRU_BOOTSEL_SLOT slot else s).putImage slot true).succeed c.val

/-- Whether every namespace that exists has been released (R616). -/
def State.allReleased (s : State) : Bool := [1, 2, 3, 4, 5].all fun j => !s.nsValid j || s.rdBit Fd.INT_NSREADY_READY (j - 1)

/-- An activation begins (steps 1 to 3 of Table 10.7): the notice, fetching and binding stop, every engine is quiesced, every ANA group
reads Change (R334, R359). -/
def State.activate (s : State) (c : Option Nat) : State :=
  let s1 := (s.noticeAll 9 2 0x01 0x03).noticeAll 11 2 0x03 0x0C
  let s2 := (s1.wr Fd.INT_STATUS_PAUSED 1).hput fun h =>
    { h with activation := some (c, s.time), c0 := { h.c0 with pp := true }, c1 := { h.c1 with pp := true } }
  four.foldl (fun t n => t.engQuiesce n true) s2

/-- FIRMWARE_ACTIVATE: commit action 0x3, once every namespace is released (R359, R599, R616). -/
def execFirmwareActivate (c : Fin 65536) (s : State) : Host.Outcome State Fault Refusal :=
  s.adm c.val 0x10 fun x =>
    if bits (x.dw 10) 3 3 ≠ 3 then s
    else if 2 < x.dw 10 % 8 then s.endAll c.val 0 0x02
    else if !s.allReleased ∨ s.host.activation.isSome then s.endAll c.val 1 0x13
    else
      let slot := s.commitSlot x
      (((s.wr Fd.TRU_BOOTSEL_SLOT slot).putImage slot true).ctxUpd c.val fun y => { y with run := true }).activate (some c.val)

/-- ACTIVATION_END (steps 4 and 5 of Table 10.7): the new image runs, fetching and binding resume, limits of commands not yet bound run on,
and the commit completes with success. -/
def execActivationEnd (s : State) : Host.Outcome State Fault Refusal :=
  match s.host.activation with
  | none => .next s
  | some (c, t0) =>
    let slot := b2n s.host.fwB.staged
    let s1 := ((s.wr Fd.INT_STATUS_PAUSED 0).wr Fd.TRU_BOOTSEL_RUNNING slot).truPut fun t =>
      { t with fwRoll := leValue (s.flashBytes (imageBase slot + 0x18) 8) }
    let s2 := s1.hput fun h =>
      { h with
        activation := none
        c0 := { h.c0 with pp := false }
        c1 := { h.c1 with pp := false }
        fwA := { h.fwA with staged := false }
        fwB := { h.fwB with staged := false }
        ctxs := h.ctxs.map fun p =>
          (p.1, if p.2.deadline ≠ 0 ∧ p.2.bound.isNone then { p.2 with deadline := (p.2.deadline + (s.time - t0)) % 2 ^ 48 } else p.2) }
    let s3 := (four.foldl (fun t n => t.engQuiesce n false) s2).noticeAll 11 2 0x03 0x0C
    .next (match c with
      | some d => s3.succeed d
      | none => s3)

/-! ### Format NVM, Sanitize and release (R335, R338, R606, R616) -/

/-- The key ranges that hold blocks of local namespaces: the global range, and each range defined in one of them. -/
def State.rangesOf (s : State) (js : List Nat) : List Nat :=
  0 :: (((List.range 64).map (· + 1)).filter fun r => s.on (Fd.TRU_RANGE_CFG_DEFINED r) && js.contains (s.rd (Fd.TRU_RANGE_CFG_NS r)))

/-- A new key asked for every range of namespaces (R606). -/
def State.newKeys (s : State) (js : List Nat) : State := (s.rangesOf js).foldl (fun t r => t.askChange r .genkey) s

/-- Namespaces whose Identify data has changed: on the Changed Namespace List, with the notice. -/
def State.nsChanged (s : State) (js : List Nat) : State :=
  (s.hput fun h => { h with changedNs := (h.changedNs ++ js.map s.nsid).dedup }).noticeAll 8 2 0x00 0x04

/-- FORMAT_NVM: refused before its namespaces are released; its zones are reset by ZONE_ACTION_EFFECT (R338, R616). -/
def execFormatNvm (c : Fin 65536) (s : State) : Host.Outcome State Fault Refusal :=
  s.adm c.val 0x80 fun x =>
    let js := s.namedNs x.nsid
    let f := x.dw 10 % 16
    let pi := bits (x.dw 10) 5 3
    let ses := bits (x.dw 10) 9 3
    if js = [] then s.endAll c.val 0 0x0B
    else if 2 < f ∨ 3 < pi ∨ (f = 0 ∧ pi ≠ 0) ∨ (ses ≠ 0 ∧ ses ≠ 2) then s.endAll c.val 0 0x02
    else if js.any fun j => !s.rdBit Fd.INT_NSREADY_READY (j - 1) then s.endAll c.val 0 0x82
    else if s.host.sanitize then s.endAll c.val 0 0x1D
    else
      let s1 := js.foldl (fun t j => (t.wr (Fd.INT_NSCFG_LBAF j) f).wr (Fd.INT_NSCFG_PIT j) pi) (s.ctxUpd c.val fun y => { y with run := true })
      let s2 := s1.nsChanged js
      if ses = 2 then s2.newKeys js else s2

/-- The Sanitize operation begins: new keys, and the zones' resets once they are quiet (R338). -/
def State.startSanitize (s : State) (c : Option Nat) : State :=
  (s.hput fun h => { h with sanitize := true, sanitizeDone := false, sanAgain := false, sanWait := c }).newKeys
    ([1, 2, 3, 4, 5].filter s.nsValid)

/-- SANITIZE: Crypto Erase alone; the command completes once the operation has started (R338, R616). -/
def execSanitize (c : Fin 65536) (s : State) : Host.Outcome State Fault Refusal :=
  s.adm c.val 0x84 fun x =>
    if x.dw 10 % 8 ≠ 4 then s.endAll c.val 0 0x02
    else if !s.allReleased then s.endAll c.val 0 0x82
    else if s.host.sanitize then s.endAll c.val 0 0x1D
    else (s.startSanitize (some c.val)).succeed c.val

/-- NSREADY_WRITE: held commands may be released from then on, in fetch order (R335); a Sanitize that a power loss has cut resumes once every
namespace is released (R338), when no zone has a run or a write yet. -/
def execNsreadyWrite (v : BitVec 5) (s : State) : Host.Outcome State Fault Refusal :=
  let s1 := s.wr Fd.INT_NSREADY_READY v.toNat
  if s1.host.sanAgain ∧ s1.allReleased then
    let s2 := s1.startSanitize none
    let rs := s2.formatRecs (sanitizeAll (Ctx.fresh [] 0 0 .admin 0 0 none))
    .next (((s2.hput fun h => { h with sanRecs := rs }).jIssues rs).settleSanitize)
  else .next s1

/-! ### Security (R604) -/

/-- SECURITY_SEND: protocol 0x00 and 0x01; a ComPacket may open or close the session. -/
def execSecuritySend (c : Fin 65536) (data : List (BitVec 8)) (o : Session) (s : State) : Host.Outcome State Fault Refusal :=
  s.adm c.val 0x81 fun x =>
    let p := x.dw 10 / 2 ^ 24
    if 1 < p then s.endAll c.val 0 0x02
    else if p = 1 ∧ data ≠ [] then (s.setSession o).succeed c.val
    else s.succeed c.val

/-- Free bytes, `n` of them, from one free value. -/
def State.freeBytes (s : State) (n : Nat) : State × List Nat := (s.tookFree, leBytes n s.freeVal)

/-- SECURITY_RECEIVE: the list of protocols, or the trust unit's ComPacket, whose bytes the spec does not give. -/
def execSecurityReceive (c : Fin 65536) (s : State) : Host.Outcome State Fault Refusal :=
  s.adm c.val 0x82 fun x =>
    let p := x.dw 10 / 2 ^ 24
    let n := x.dw 11
    if 1 < p then s.endAll c.val 0 0x02
    else if p = 0 then s.answerData c.val x (([0, 0, 0, 0, 0, 0, 0, 2, 0, 1] ++ List.replicate n 0).take n)
    else
      let (s1, l) := s.freeBytes n
      s1.answerData c.val x l

end Sys2Proof.Machine
end

