-- ==== Sys2Proof/Machine/Backwater.lean ====
section
/-! DEFINITION. Backwater queues (13): pushes gathered into items, the head window, the middle in DRAM, the tail window, pops, spills,
refills and flushes. -/

namespace Sys2Proof.Machine

/-- A queue by its number. -/
def State.queue (s : State) (q : Nat) : BQueue := tget BQueue.empty s.bkw q

/-- A queue replaced. -/
def State.putQueue (s : State) (q : Nat) (x : BQueue) : State := { s with bkw := tset BQueue.empty s.bkw q x }

/-- The words a queue holds (QSTAT.WORDS); the assembly buffer is no part of it. -/
def BQueue.words (x : BQueue) : Nat := x.head.length + x.mid.length + x.tail.length

/-- The ring of the middle, in words (R431). -/
def midWords : Nat := 131072

/-- The words a queue can hold (R431). -/
def queueMax : Nat := 131104

/-- The address of ring place `i` of the middle of queue `q` (R431). -/
def State.midAddr (s : State) (q i : Nat) : Nat := 2 ^ 28 * s.rd Fd.BKW_BASE_BASE + 0x100000 * q + 8 * (i % midWords)

/-- Direct move: while the middle is empty, tail words move into free head places (R433). -/
def BQueue.direct (x : BQueue) : BQueue :=
  if x.mid = [] then
    let k := 16 - x.head.length
    { x with head := x.head ++ x.tail.take k, tail := x.tail.drop k }
  else x

/-- Words stored one after another in the ring from place `i`; a word with POISON is stored poisoned (R435). -/
def State.storeMid (s : State) (q i : Nat) : List BWord → State
  | [] => s
  | w :: l =>
    let a := unalias (s.midAddr q i)
    let s1 := s.stored a (leBytes 8 w.v)
    (if w.poison then s1.setErr (a / 8) poisonPattern else s1).storeMid q (i + 1) l

/-- The words of a spill with the parity of those that fail it (R435). -/
def markBad (bad : Nat) : List BWord → List BWord
  | [] => []
  | w :: l => { w with poison := w.poison || bit bad 0 } :: markBad (bad / 2) l

/-- A parity failure reported: `place` 0 at pop, 1 at spill, 2 at refill (R435). -/
def State.bkwParity (s : State) (q place : Nat) : State := (s.wr Fd.BKW_INT_PARITY 1).raise .backwater 0x0A01 4 [q, place]

/-- Spill: the 8 oldest tail words move to the middle as one write; bit i of `bad` is a failed parity check of word i (R433, R435). -/
def State.spill (s : State) (q bad : Nat) : State :=
  let x := s.queue q
  let l := markBad bad (x.tail.take 8)
  let s1 := s.storeMid q (x.mid0 + x.mid.length) l
  let s2 := s1.putQueue q { x with mid := x.mid ++ l, tail := x.tail.drop 8 }
  if bad % 256 = 0 then s2 else s2.bkwParity q 1

/-- A middle word as it comes back from memory: the bytes read, or a poisoned word of a free value where the read is uncorrectable. -/
def State.midWord (s : State) (t : BWord) : Option (List Nat) → State × BWord
  | some bs => (s, { t with v := leValue bs })
  | none => (s.tookFree, { t with v := s.freeVal % 2 ^ 64, poison := true })

/-- The middle word at place `i` of a queue's ring, read. -/
def State.loadMid1 (s : State) (q i : Nat) (t : BWord) : State × BWord :=
  let (s1, d) := s.load 0x08 (s.midAddr q i) 8
  s1.midWord t d

/-- The middle word at the position reached in a queue's ring, read and put after the words read before it. -/
def State.midStep (q : Nat) (p : State × Nat × List BWord) (t : BWord) : State × Nat × List BWord :=
  let (s1, w) := p.1.loadMid1 q p.2.1 t
  (s1, p.2.1 + 1, p.2.2 ++ [w])

/-- The middle words from position `i` of a queue's ring, read in order. -/
def State.loadMid (s : State) (q i : Nat) (l : List BWord) : State × List BWord :=
  let p := l.foldl (State.midStep q) (s, i, [])
  (p.1, p.2.2)

/-- Refill: up to 8 of the oldest middle words move to the head window (R433). -/
def State.refill (s : State) (q : Nat) : State :=
  let x := s.queue q
  let (s1, l) := s.loadMid q x.mid0 (x.mid.take 8)
  let s2 := s1.putQueue q
    (BQueue.direct { x with head := x.head ++ l, mid := x.mid.drop 8, mid0 := (x.mid0 + (x.mid.take 8).length) % midWords })
  if l.any fun w => w.poison then s2.bkwParity q 2 else s2

/-- One word enters the queue: the head window where nothing is behind it and it has room, else the tail window, which spills when full
(R433). -/
def State.bkwEnter (s : State) (q : Nat) (w : BWord) : State :=
  let x := s.queue q
  if x.mid = [] ∧ x.tail = [] ∧ x.head.length < 16 then s.putQueue q { x with head := x.head ++ [w] }
  else
    let s1 := if x.tail.length < 16 then s else s.spill q 0
    let y := s1.queue q
    s1.putQueue q { y with tail := y.tail ++ [w] }

/-- Words entered in order. -/
def State.bkwEnterAll (s : State) (q : Nat) : List BWord → State
  | [] => s
  | w :: l => (s.bkwEnter q w).bkwEnterAll q l

/-- An item dropped: counted and recorded; `reset` marks a drop at a unit reset (R432, R437). -/
def State.dropItem (s : State) (q n : Nat) (reset : Bool) : State :=
  ((s.count (Fd.BKW_QDROP_DROPS q) 1).wr Fd.BKW_INT_DROP 1).raise .backwater 0x0A02 4 [q, n, b2n reset]

/-- The words of an item tagged FIRST and LAST. -/
def tagItem (n : Nat) (l : List Nat) : List BWord :=
  (List.zip (List.range l.length) l).map fun p => ⟨p.2, p.1 == 0, p.1 + 1 == n, false, false⟩

/-- BKW_PUSH: the word joins the item being gathered (R432); queues accept pushes while CTL.EN is 1 (Table 13.7). -/
def execBkwPush (q : Fin 256) (w : BitVec 64) (s : State) : Host.Outcome State Fault Refusal :=
  if s.on Fd.BKW_CTL_EN then
    let x := s.queue q.val
    .next (s.putQueue q.val { x with asm := x.asm ++ [w.toNat] })
  else .next s

/-- BKW_PUSHL: the item enters whole, or is dropped whole (R432). -/
def execBkwPushl (q : Fin 256) (w : BitVec 64) (s : State) : Host.Outcome State Fault Refusal :=
  if s.on Fd.BKW_CTL_EN then
    let x := s.queue q.val
    let l := x.asm ++ [w.toNat]
    let s1 := s.putQueue q.val { x with asm := [] }
    if l.length ≤ 16 ∧ x.words + l.length ≤ queueMax then .next (s1.bkwEnterAll q.val (tagItem l.length l))
    else .next (s1.dropItem q.val l.length false)
  else .next s

/-- QSTAT.TAG of a popped word (R434). -/
def BWord.tag (w : BWord) : Nat := b2n w.first + 2 * b2n w.last + 4 * b2n w.poison + 8 * b2n w.flush

/-- BKW_POP: the oldest word and its tag; from an empty queue 0 with EMPTY; with the head window empty the refill in flight arrives first
(R434); `bad` is a failed parity check as the word leaves its window (R435). -/
def execBkwPop (q : Fin 256) (bad : Bool) (s : State) : Host.Outcome State Fault Refusal :=
  let s1 := if (s.queue q.val).head = [] ∧ (s.queue q.val).mid ≠ [] then s.refill q.val else s
  let x := s1.queue q.val
  match x.head with
  | [] => .next ((s1.wr (Fd.BKW_QSTAT_TAG q.val) 16).reply 0)
  | w :: l =>
    let w := { w with poison := w.poison || bad }
    let s2 := s1.putQueue q.val (BQueue.direct { x with head := l })
    let s3 := if bad then s2.bkwParity q.val 0 else s2
    .next ((s3.wr (Fd.BKW_QSTAT_TAG q.val) w.tag).reply w.v)

/-- BKW_FLUSH: the queue is emptied, its assembly buffer too, and holds one marker whose data is the number of words discarded (R436). -/
def execBkwFlush (q : Fin 256) (s : State) : Host.Outcome State Fault Refusal :=
  let x := s.queue q.val
  .next (s.putQueue q.val { BQueue.empty with head := [⟨x.words + x.asm.length, false, false, false, true⟩] })

/-- BKW_SPILL (R433): with 8 or more tail words and the middle in use or the head window full. -/
def execBkwSpill (q : Fin 256) (bad : BitVec 8) (s : State) : Host.Outcome State Fault Refusal :=
  let x := s.queue q.val
  if 8 ≤ x.tail.length ∧ (x.mid ≠ [] ∨ x.head.length = 16) then .next (s.spill q.val bad.toNat) else .next s

/-- BKW_REFILL (R433): with 8 or fewer head words and the middle in use. -/
def execBkwRefill (q : Fin 256) (s : State) : Host.Outcome State Fault Refusal :=
  let x := s.queue q.val
  if x.head.length ≤ 8 ∧ x.mid ≠ [] then .next (s.refill q.val) else .next s

/-- A unit reset of Backwater discards every assembly buffer that holds words, each counted as a drop (R437). -/
def State.bkwReset (s : State) : List (Nat × BQueue) → State
  | [] => s
  | (q, x) :: l =>
    (if x.asm = [] then s else (s.putQueue q { x with asm := [] }).dropItem q x.asm.length true).bkwReset l

end Sys2Proof.Machine
end

