-- ==== Sys2Proof/Machine/Spindle.lean ====
section
/-! DEFINITION. The spindle: demand and curve, targets, starting, losses of synchronism, braking and overvoltage (15). -/

namespace Sys2Proof.Machine

/-- The spindle unit changed. -/
def State.spinUpd (s : State) (g : SpinUnit → SpinUnit) : State := { s with spin := g s.spin }

/-- SPN.STATUS.STATE. -/
def State.spn (s : State) : Nat := s.rd Fd.SPN_STATUS_STATE

/-- SPN.STATUS.STATE written. -/
def State.setSpn (s : State) (st : Nat) : State := s.wr Fd.SPN_STATUS_STATE st

/-- Whether every fitted actuator is parked (R470, R480). -/
def State.allParked (s : State) : Bool := four.all fun n => !s.on (Fd.SRV_CTL_FITTED n) || s.mode n == 0

/-! ### Demand (R465 to R467) -/

/-- The on or off state that the demand in force gives (R467). -/
def State.judgeOn (s : State) : State :=
  let d := s.rd Fd.SPN_DMD_NOW
  if s.rd Fd.SPN_HYST_ON ≤ d then s.wr Fd.SPN_STATUS_ON 1 else if d ≤ s.rd Fd.SPN_HYST_OFF then s.wr Fd.SPN_STATUS_ON 0 else s

/-- The demand in force made `d`. -/
def State.setDemand (s : State) (d : Nat) : State := (s.wr Fd.SPN_DMD_NOW d).judgeOn

/-- The demand taken anew from its source, after a write of SRC or REG (R465). -/
def State.sourceDemand (s : State) : State := s.setDemand (if s.on Fd.SPN_CTL_SRC then s.rd Fd.SPN_DMD_REG else s.rd Fd.SPN_DMD_PIN)

/-- A quotient rounded, halves up. -/
def halfUp (a b : Nat) : Nat := (2 * a + b) / (2 * b)

/-- SPIN_DMD_PERIOD (R466): a valid period joins the last four, whose mean replaces the demand where it differs by 2 or more; the sixteenth
ignored one sets DMDERR. -/
def execSpinDmdPeriod (period high : BitVec 32) (s : State) : Host.Outcome State Fault Refusal :=
  let p := period.toNat
  if 36000 ≤ p ∧ p ≤ 1100000 ∧ high.toNat ≤ p then
    let l := (halfUp (255 * high.toNat) p :: s.spin.recent).take 4
    let s1 := s.spinUpd fun x => { x with ignored := 0, recent := l }
    if l.length < 4 then .next s1
    else
      let m := halfUp l.sum 4
      let s2 := s1.wr Fd.SPN_DMD_PIN m
      let now := s.rd Fd.SPN_DMD_NOW
      .next (if !s.on Fd.SPN_CTL_SRC && (now + 2 ≤ m || m + 2 ≤ now) then s2.setDemand m else s2)
  else
    let k := min 16 (s.spin.ignored + 1)
    let s1 := s.spinUpd fun x => { x with ignored := k }
    .next (if k = 16 ∧ s.spin.ignored = 15 then s1.wr Fd.SPN_INT_DMDERR 1 else s1)

/-- SPIN_DMD_TIMEOUT (R466): a still pin is a demand of 0 or 255, at once. -/
def execSpinDmdTimeout (level : Bool) (s : State) : Host.Outcome State Fault Refusal :=
  let d := if level then 255 else 0
  let s1 := s.wr Fd.SPN_DMD_PIN d
  .next (if s.on Fd.SPN_CTL_SRC then s1 else s1.setDemand d)

/-! ### The curve and the target (R468 to R470) -/

/-- The value of a curve at a demand, between its points by interpolation truncated to whole rpm (R468). -/
def curveAt (d : Nat) : List (Nat × Nat) → Nat
  | [] => 0
  | [p] => p.2
  | p :: q :: l =>
    if d ≤ p.1 then p.2
    else if d < q.1 then (((p.2 : Int) * (q.1 - p.1) + ((q.2 : Int) - p.2) * (d - p.1)) / (q.1 - p.1)).toNat
    else curveAt d (q :: l)

/-- The shadow curve. -/
def State.shadowCurve (s : State) : List (Nat × Nat) := (List.range 16).map fun k => (s.rd (Fd.SPN_CURVE_D k), s.rd (Fd.SPN_CURVE_RPM k))

/-- Whether the demands of a curve strictly ascend. -/
def ascends : List (Nat × Nat) → Bool
  | p :: q :: l => p.1 < q.1 && ascends (q :: l)
  | _ => true

/-- CURVE_APPLY (R468). -/
def execCurveApply (s : State) : Host.Outcome State Fault Refusal :=
  if ascends s.shadowCurve then .next (s.spinUpd fun x => { x with curve := s.shadowCurve }) else .next (s.wr Fd.SPN_INT_CURVEERR 1)

/-- The target speed of R469; 0 while EN is 0 (Table 15.7). -/
def State.wantRpm (s : State) : Nat :=
  if s.on Fd.SPN_STATUS_ON && s.on Fd.SPN_CTL_EN then
    min (curveAt (s.rd Fd.SPN_DMD_NOW) s.spin.curve) (min (if s.host.psNow ≤ 2 then 7200 else 0) (s.rd Fd.SPN_CEIL_RPM))
  else 0

/-! ### Braking to rest (R480) -/

/-- The token released (R472). -/
def State.spnRelease (s : State) : State := (s.wr Fd.SPN_STATUS_TOKEN 0).tokenGive

/-- Braking begins with every fitted actuator parked, by a mode: 0 regenerative, 1 zero-vector, 2 coast; a zero-vector limit of 0 coasts. -/
def State.brakeNow (s : State) (mode : Nat) : State :=
  let zero := mode == 1 || (mode == 0 && s.on Fd.SPN_STATUS_CHOPF)
  let coast := mode == 2 || (zero && s.rd Fd.SPN_ILIM_BRK_MA == 0)
  (((s.setSpn (if coast then 8 else 7)).wr Fd.SPN_STATUS_ATSPD 0).count Fd.SPN_CNT1_BRAKES 1).spinUpd fun x =>
    { x with waitPark := false, zeroVec := zero, turning := false, iu := 0, iv := 0, iw := 0 }

/-- The mode in which the spindle is brought to rest: zero-vector where it listens again after it (Table 15.2), else as BRK.MODE gives. -/
def State.brakeMode (s : State) : Nat := if s.spin.after = .listen then 1 else s.rd Fd.SPN_BRK_MODE

/-- The spindle is brought to rest, then `after`; while a fitted actuator is not parked it coasts (R480). -/
def State.toRest (s : State) (after : AfterRest) : State :=
  let s1 := s.spinUpd fun x => { x with after := after, catching := false, turning := false }
  if s1.allParked then s1.brakeNow s1.brakeMode else (s1.setSpn 8).spinUpd fun x => { x with waitPark := true }

/-- A listen window begins, the bridge off and the speed not known (R472, R473). -/
def State.listen (s : State) : State :=
  ((s.setSpn 1).wr Fd.SPN_SPEED_RPM10 0).spinUpd fun x =>
    { x with after := .off, waitPark := false, catching := false, turning := false, zeroVec := false, iu := 0, iv := 0, iw := 0, atLimit := 0 }

/-- Whether the motor and its limits are loaded (R461). -/
def State.motorLoaded (s : State) : Bool := s.on Fd.SPN_MOTOR_POLES && s.on Fd.SPN_MOTOR_KE && s.on Fd.SPN_ILIM_RUN_MA

/-- A start begins where R472 holds, or is refused for want of motor data (R461); else the unit is off. -/
def State.tryStart (s : State) : State :=
  if s.on Fd.SPN_CTL_EN && s.on Fd.SPN_STATUS_ON && s.on Fd.SPN_TARGET_RPM then
    if s.motorLoaded then s.listen else s.wr Fd.SPN_INT_STARTERR 1
  else s

/-! ### Targets taken (R470, R484) -/

/-- A target takes effect (R470, R471, Table 15.6). -/
def State.takeTarget (s : State) (t : Nat) : State :=
  let s1 := (((s.wr Fd.SPN_TARGET_RPM t).wr Fd.SPN_STATUS_ATSPD 0).wr Fd.SPN_STATUS_PEND 0).spinUpd fun x => { x with held := none }
  if s.spn = 6 ∧ t = 0 then s1.spnRelease.toRest .off
  else if (s.spn = 7 ∨ s.spn = 8) ∧ 0 < t ∧ s.spin.after = .off then s1.listen
  else s1

/-- TARGET_CHANGE (R469, R470): with an actuator not parked it is held; a start that has not reached run ends at once on a target of 0. -/
def execTargetChange (s : State) : Host.Outcome State Fault Refusal :=
  let t := s.wantRpm
  if t = s.rd Fd.SPN_TARGET_RPM then .next ((s.wr Fd.SPN_STATUS_PEND 0).spinUpd fun x => { x with held := none })
  else if 1 ≤ s.spn ∧ s.spn ≤ 5 ∧ t = 0 then .next (((s.takeTarget 0).setSpn 0).spnRelease)
  else if s.allParked then .next (s.takeTarget t)
  else if s.spin.held = some t then .next s
  else .next (((s.wr Fd.SPN_STATUS_PEND 1).wr Fd.SPN_INT_PARKREQ 1).spinUpd fun x => { x with held := some t })

/-- HELD_TARGET_RELEASE: the last fitted actuator is parked; a braking that waited begins and the held target takes effect (R470, R480). -/
def execHeldTargetRelease (s : State) : Host.Outcome State Fault Refusal :=
  if !s.allParked then .next s
  else
    let s1 := if s.spin.waitPark then s.brakeNow s.brakeMode else s
    .next (match s.spin.held with
      | some t => s1.takeTarget t
      | none => s1)

/-! ### Speed (R471) -/

/-- Whether the observed speed lies within `per` thousandths of the target. -/
def State.within (s : State) (per : Nat) : Bool :=
  let t := 10 * s.rd Fd.SPN_TARGET_RPM
  let v := s.rd Fd.SPN_SPEED_RPM10
  1000 * v ≤ (1000 + per) * t && (1000 - per) * t ≤ 1000 * v

/-- ATSPD_RISE: 100 ms within 0.5% of the target in state run; the token is released (R471, R472). -/
def execAtspdRise (s : State) : Host.Outcome State Fault Refusal :=
  if s.spn = 6 ∧ !s.on Fd.SPN_STATUS_ATSPD ∧ s.on Fd.SPN_TARGET_RPM ∧ s.within 5 then
    .next (((s.wr Fd.SPN_STATUS_ATSPD 1).wr Fd.SPN_INT_ATSPD 1).spnRelease)
  else .next s

/-- ATSPD_LOSS: the speed has stayed outside 0.5% of the target for 10 ms (R471). -/
def execAtspdLoss (s : State) : Host.Outcome State Fault Refusal :=
  if s.on Fd.SPN_STATUS_ATSPD ∧ !s.within 5 then .next (s.wr Fd.SPN_STATUS_ATSPD 0) else .next s

/-! ### Starting (R472 to R477) -/

/-- SPIN_START (R472): from state off, or from the coast of a power loss whose restart has come (R626, R627). -/
def execSpinStart (s : State) : Host.Outcome State Fault Refusal :=
  if (s.spn = 0 ∨ (s.spn = 8 ∧ s.spin.after = .off ∧ !s.spin.waitPark)) ∧ s.unit .spindle ≠ 5 ∧ !s.on Fd.HSK_PLSTAT_DECL then .next s.tryStart else .next s

/-- The token step: the path waits for its token (R472). -/
def State.wantToken (s : State) (catching : Bool) : State :=
  ((s.setSpn 3).spinUpd fun x => { x with catching := catching }).tokenAsk

/-- Sensor TX of the last round in 0.1 °C (R474). -/
def State.tx (s : State) : Int := sgn 16 (s.rd (Fd.HSK_TEMP_VALUE 9))

/-- What follows warm-up: the start goes on, or cold hold (R474). -/
def State.warmed (s : State) : State :=
  if -50 ≤ s.tx then s.wantToken false
  else (((s.setSpn 9).wr Fd.SPN_INT_COLD 1).spnRelease).raise .spindle 0x1705 3 (leBytes 2 (unsgn 16 s.tx))

/-- The align begins once the token is held (Table 15.3). -/
def State.align (s : State) : State := ((s.setSpn 4).count Fd.SPN_CNT0_STARTS 1).spinUpd fun x => { x with cmd := 0 }

/-- A path that holds its token goes on: a start from rest aligns, a catch waits for its vector. -/
def State.withToken (s : State) : State :=
  if s.spn = 3 ∧ s.on Fd.SPN_STATUS_TOKEN ∧ !s.spin.catching then s.align else s

/-- LISTEN_END (R473, Table 15.2). -/
def execListenEnd (m : Motor) (s : State) : Host.Outcome State Fault Refusal :=
  if s.spn ≠ 1 then .next s
  else match m with
    | .rest =>
      let s1 := (s.wr Fd.SPN_SPEED_REV 0).wr Fd.SPN_SPEED_RPM10 0
      if s.tx < 0 then
        if s.on Fd.SPN_WARM_WARM_MA then .next ((s1.setSpn 2).count Fd.SPN_CNT1_WARMS 1) else .next s1.warmed.withToken
      else .next (s1.wantToken false).withToken
    | .turning fwd v =>
      let s1 := (s.wr Fd.SPN_SPEED_REV (b2n !fwd)).wr Fd.SPN_SPEED_RPM10 v.toNat
      if fwd ∧ 3600 ≤ v.toNat then .next (s1.wantToken true) else .next (s1.toRest .listen)
    | .unresolved => .next (s.toRest .listen)

/-- WARMUP_END (R474). -/
def execWarmupEnd (s : State) : Host.Outcome State Fault Refusal := if s.spn = 2 then .next s.warmed.withToken else .next s

/-- TOKEN_GRANT (R472, R575): a controller alone has its token at once; in a group the lead has granted it, or it was taken without one. -/
def execTokenGrant (s : State) : Host.Outcome State Fault Refusal :=
  if s.spn = 3 ∧ !s.on Fd.SPN_STATUS_TOKEN ∧ (s.members = 1 ∨ s.on Fd.CFX_TOKEN_HELD) then
    .next (s.wr Fd.SPN_STATUS_TOKEN 1).withToken
  else .next s

/-- CATCH (R476): the bridge is enabled on the measured vector, and the unit runs. -/
def execCatchMotor (s : State) : Host.Outcome State Fault Refusal :=
  if s.spn = 3 ∧ s.on Fd.SPN_STATUS_TOKEN ∧ s.spin.catching then
    .next (((s.setSpn 6).count Fd.SPN_CNT0_CATCHES 1).spinUpd fun x => { x with cmd := 100000 * s.rd Fd.SPN_SPEED_RPM10 })
  else .next s

/-- ALIGN_END (Table 15.3). -/
def execAlignEnd (s : State) : Host.Outcome State Fault Refusal := if s.spn = 4 then .next (s.setSpn 5) else .next s

/-! ### Losses of synchronism (R478, R479) -/

/-- Every loaded actuator retracted, as ERET would (R245, R479). -/
def State.retractAll (s : State) (cause : Nat) : List (Fin 4) → State
  | [] => s
  | n :: l => (if s.on (Fd.SRV_CTL_FITTED n) then s.retract n cause else s).retractAll cause l

/-- A loss of synchronism by a test of R478, or 3 for a failed handover: counted in its minute; the third stops the spindle (R479). -/
def State.syncLoss (s : State) (test : Nat) : State :=
  let win := s.time / 60000000
  let k := (if s.spin.lossWin = win then s.rd Fd.SPN_LOSCNT_WIN else 0) + 1
  let s1 := ((((s.wr Fd.SPN_LOSCNT_WIN (min 3 k)).count Fd.SPN_LOSCNT_TOTAL 1).wr Fd.SPN_INT_LOS 1).wr Fd.SPN_SPEED_RPM10 0).spinUpd fun x =>
    { x with lossWin := win, turning := false, iu := 0, iv := 0, iw := 0 }
  if k = 3 then
    ((((s1.wr Fd.SPN_INT_LOSSTOP 1).raise .spindle 0x1702 6 [test]).spnRelease).retractAll 0 four).toRest .lockout
  else if s.spn = 7 then s1.setSpn 8
  else s1.listen

/-- OBSERVER_HANDOVER (R475). -/
def execObserverHandover (ok : Bool) (s : State) : Host.Outcome State Fault Refusal :=
  if s.spn ≠ 5 then .next s else if ok then .next (s.setSpn 6) else .next (s.syncLoss 3)

/-- LOSS_OF_SYNC in state run, or while braking (R478, R479, Table 15.6). -/
def execLossOfSync (test : Fin 3) (s : State) : Host.Outcome State Fault Refusal :=
  if s.spn = 6 ∨ s.spn = 7 then .next (s.syncLoss test.val) else .next s

/-- SPINUP_TIMEOUT (R477): a start or catch that holds its token has not raised ATSPD. -/
def execSpinupTimeout (s : State) : Host.Outcome State Fault Refusal :=
  if s.on Fd.SPN_STATUS_TOKEN ∧ !s.on Fd.SPN_STATUS_ATSPD ∧ 1 ≤ s.spn ∧ s.spn ≤ 6 then
    .next ((((s.wr Fd.SPN_INT_SPINFAIL 1).raise .spindle 0x1701 6
      (b2n s.spin.catching :: leBytes 2 (s.rd Fd.SPN_SPEED_RPM10 / 10))).spnRelease).toRest .lockout)
  else .next s

/-! ### Rest (R480) -/

/-- What follows rest: off, a new listen window, or lockout. -/
def State.atRest (s : State) : State :=
  match s.spin.after with
  | .off => s.setSpn 0
  | .listen => s.listen
  | .lockout => s.setSpn 10

/-- BRAKE_REST (R480). -/
def execBrakeRest (s : State) : Host.Outcome State Fault Refusal :=
  if (s.spn = 7 ∨ s.spn = 8) ∧ !s.spin.waitPark then .next (s.wr Fd.SPN_SPEED_RPM10 0).atRest else .next s

/-- BRAKE_TIMEOUT (R480): the bridge goes off; a lockout that was to follow stands. -/
def execBrakeTimeout (s : State) : Host.Outcome State Fault Refusal :=
  if (s.spn = 7 ∨ s.spn = 8) ∧ !s.spin.waitPark then
    .next (((s.wr Fd.SPN_INT_SPINFAIL 1).raise .spindle 0x1701 6 (2 :: leBytes 2 (s.rd Fd.SPN_SPEED_RPM10 / 10))).setSpn
      (if s.spin.after = .lockout then 10 else 0))
  else .next s

/-! ### VMOT (R481) -/

/-- The chopper above 14.4 V: taken as faulty, once until a unit reset (Table 15.5). -/
def State.chopFault (s : State) (mv : Nat) : State :=
  if s.on Fd.SPN_STATUS_CHOPF then s
  else
    (((s.wr Fd.SPN_STATUS_CHOPF 1).wr Fd.SPN_INT_CHOPF 1).raise .spindle 0x1704 5 (leBytes 2 mv)).spinUpd fun x =>
      { x with zeroVec := x.zeroVec || s.spn == 7 }

/-- VMOT above 15.0 V: the bridge goes off and the motor coasts; a run or a start listens after it, a stop goes on coasting (Table 15.5). -/
def State.overvolt (s : State) (mv : Nat) : State :=
  let s1 := ((s.wr Fd.SPN_INT_OVP 1).raise .spindle 0x1703 5 (leBytes 2 mv)).spinUpd fun x =>
    { x with ovp := true, turning := false, iu := 0, iv := 0, iw := 0 }
  if 1 ≤ s.spn ∧ s.spn ≤ 6 then (s1.setSpn 8).spinUpd fun x => { x with after := .listen, waitPark := false }
  else if s.spn = 7 then s1.setSpn 8 else s1

/-- VMOT_THRESHOLD (R481, Table 15.5). -/
def execVmotThreshold (mv : BitVec 16) (s : State) : Host.Outcome State Fault Refusal :=
  let v := mv.toNat
  let s1 := s.spinUpd fun x => { x with chopper := if 13800 ≤ v then true else if v ≤ 13600 then false else x.chopper }
  let s2 := if 14400 < v then s1.chopFault v else s1
  .next (if 15000 < v ∧ !s.spin.ovp then s2.overvolt v else s2)

/-- OVP_RELEASE (Table 15.5): the unit listens where it is to turn. -/
def execOvpRelease (s : State) : Host.Outcome State Fault Refusal :=
  if s.spin.ovp then
    let s1 := s.spinUpd fun x => { x with ovp := false }
    .next (if s.spn = 8 ∧ s.spin.after = .listen then s1.listen else s1)
  else .next s

/-! ### PWM periods (R461 to R463, R471, R503) -/

/-- The phase currents of a period: with shunts a leg not sampled is the negated sum of the other two; in line, W is derived (R463,
Table 15.1). -/
def State.phases (s : State) (u v w : Option (BitVec 16)) : Int × Int × Int :=
  let i := fun (x : BitVec 16) => x.toInt
  if s.on Fd.SPN_STATUS_ISEN then
    match u, v with
    | some a, some b => (i a, i b, -(i a + i b))
    | _, _ => (s.spin.iu, s.spin.iv, s.spin.iw)
  else match u, v, w with
    | some a, some b, some c => (i a, i b, i c)
    | none, some b, some c => (-(i b + i c), i b, i c)
    | some a, none, some c => (i a, -(i a + i c), i c)
    | some a, some b, none => (i a, i b, -(i a + i b))
    | _, _, _ => (s.spin.iu, s.spin.iv, s.spin.iw)

/-- The commanded speed a period later, in µrpm: toward the target at ACCEL, or up the blind ramp (R471, Table 15.3). -/
def State.nextCmd (s : State) : Nat :=
  let per := fun rate => rate * 1000 / max 1 (s.rd Fd.SPN_PWM_FREQ)
  let t := 1000000 * s.rd Fd.SPN_TARGET_RPM
  let d := per (s.rd Fd.SPN_ACCEL_ACC)
  if s.spn = 5 then s.spin.cmd + per (s.rd Fd.SPN_START_RAMP)
  else if s.spin.cmd ≤ t then min t (s.spin.cmd + d) else max t (s.spin.cmd - d)

/-- Whether the current vector stands at RUN_MA with the speed off its target (Table 16.6). -/
def State.atRunLimit (s : State) (p : Int × Int × Int) : Bool :=
  3 * (s.rd Fd.SPN_ILIM_RUN_MA : Int) ^ 2 ≤ 2 * (p.1 ^ 2 + p.2.1 ^ 2 + p.2.2 ^ 2) && !s.within 1

/-- PWM_PERIOD: currents, angle, observed speed, and one pinned event per stretch of 100 ms at RUN_MA (R461, R471, Table 16.6). -/
def execPwmPeriod (u v w : Option (BitVec 16)) (angle : BitVec 16) (rpm10 : BitVec 17) (s : State) : Host.Outcome State Fault Refusal :=
  if s.spn ≠ 2 ∧ (s.spn < 4 ∨ 7 < s.spn) then .next s
  else
    let p := s.phases u v w
    let seen := s.spn = 6 ∨ s.spn = 7 ∨ (s.spn = 5 ∧ 1800 ≤ rpm10.toNat)
    let s1 := if seen then s.wr Fd.SPN_SPEED_RPM10 rpm10.toNat else s
    let k := if s.spn = 6 ∧ s1.atRunLimit p then s.spin.atLimit + 1 else 0
    let s2 := s1.spinUpd fun x =>
      { x with iu := p.1, iv := p.2.1, iw := p.2.2, angle := if s.spn = 6 then angle.toNat else x.angle,
               cmd := if s.spn = 5 ∨ s.spn = 6 then s.nextCmd else x.cmd, atLimit := k }
    .next (if k = 100 * s.rd Fd.SPN_PWM_FREQ ∧ 0 < k then
      s2.raise .spindle (UnitRef.spindle.common 5) 3 ([1, 0xFF] ++ leBytes 4 (s.rd Fd.SPN_ILIM_RUN_MA) ++ leBytes 4 0xFFFFFFFF)
    else s2)

/-! ### CLEAR and unit reset (R474, R477, R483, R484) -/

/-- The unit leaves cold hold or lockout and starts again where R472 holds. -/
def State.leaveHold (s : State) : State := (s.setSpn 0).tryStart

/-- SPN_CLEAR (Table 15.6). -/
def execSpnClear (s : State) : Host.Outcome State Fault Refusal := if s.spn = 9 ∨ s.spn = 10 then .next s.leaveHold else .next s

/-- What a unit reset does to the spindle: in run the drive die keeps its last vector; a start begins again, a stop coasts (R483). -/
def State.spnReset (s : State) : State :=
  let s1 := s.wr Fd.SPN_STATUS_CHOPF 0
  if s.spn = 6 then s1.spinUpd fun x => { x with turning := true }
  else if 1 ≤ s.spn ∧ s.spn ≤ 5 then s1.listen
  else if s.spn = 7 then s1.setSpn 8 else s1

/-- SPINDLE_RESET_TAKEOVER (R483): the restarted unit takes commutation over, or the bridge goes off and it listens. -/
def execSpindleResetTakeover (inTime : Bool) (s : State) : Host.Outcome State Fault Refusal :=
  if !s.spin.turning then .next s
  else if inTime then .next (s.spinUpd fun x => { x with turning := false }) else .next s.listen

end Sys2Proof.Machine
end

