-- ==== Sys2Proof/Machine/Cal.lean ====
section
/-! DEFINITION. The calibration unit: passes, items, claims and coefficient banks (17). -/

namespace Sys2Proof.Machine

/-- The calibration unit changed. -/
def State.calPut (s : State) (g : CalUnit → CalUnit) : State := { s with cal := g s.cal }

/-- The positions of a pass, in order: an item and its actuator, 0 for the items of the package (R511, Table 17.2). -/
def calSteps (scope acts : Nat) : List (Nat × Nat) :=
  ((List.range 7).filter (bit scope)).flatMap fun i =>
    if i < 3 then [(i, 0)] else ((List.range 4).filter (bit acts)).map fun a => (i, a)

/-- An actuator of a position. -/
def calAct (a : Nat) : Fin 4 := if a = 0 then 0 else if a = 1 then 1 else if a = 2 then 2 else 3

/-- Whether an item can run at an actuator, as Table 17.2 gives; item 5 waits for its claims. -/
def State.calRuns (s : State) (i a : Nat) : Bool :=
  let n := calAct a
  if i = 3 then s.mode n == 0
  else if i = 4 then s.mode n == 0 && !s.on (Fd.CHN_CTL_EN n)
  else true

/-- The units of an item: CS4 and CS0 to CS3, or S8 and S0 to S7 of RA's ADC and then of RB's (Table 17.2). -/
def calUnits (i : Nat) : Nat := if i = 2 then 5 else if i = 6 then 18 else 1

/-- A slice of item 6 by its place in the item: S8, then S0 to S7, of RA's ADC and then of RB's. -/
def calSlice (u : Nat) : Bool × Nat := (9 ≤ u, if u % 9 = 0 then 8 else u % 9 - 1)

/-- Whether S8 of an ADC is unusable (R141, R520). -/
def State.s8bad (s : State) (n : Fin 4) (rb : Bool) : Bool := if rb then (s.ch n).s8badB else (s.ch n).s8badA

/-- Whether a unit of an item is calibrated: a slice while S8 is free to stand in, or while the channel is off; not one that S8 replaces for good, and
not a spare found unusable (R514, R520). DEDUCED: for the amplifiers, "the same" is read as while SPN.CTL.EN is 0. -/
def State.unitRuns (s : State) (i a u : Nat) : Bool :=
  if i = 6 then
    let (rb, sl) := calSlice u
    let n := calAct a
    let perm := s.on (sparePerm rb n)
    if (perm && s.rd (spareFor rb n) == sl) || (sl == 8 && s.s8bad n rb) then false else !(perm || s.s8bad n rb) || !s.on (Fd.CHN_CTL_EN n)
  else if i = 2 then
    if (u ≠ 0 ∧ s.cal.csFor = some (u - 1)) ∨ (u = 0 ∧ s.cal.badSpare.contains 2) then false
    else !(s.cal.csFor.isSome || s.cal.badSpare.contains 2) || !s.on Fd.SPN_CTL_EN
  else true

/-- The first unit of an item from `u` on that is calibrated. -/
def State.unitFrom (s : State) (i a u : Nat) : Option Nat := ((List.range (calUnits i)).drop u).find? (s.unitRuns i a)

/-- S8 or CS4 stands in for the unit whose calibration begins (Table 17.2, R141, R464). -/
def State.standIn (s : State) (i a u : Nat) : State :=
  if i = 6 then
    let (rb, sl) := calSlice u
    let n := calAct a
    if sl = 8 ∨ s.on (sparePerm rb n) ∨ s.s8bad n rb then s else (s.wr (spareOn rb n) 1).wr (spareFor rb n) sl
  else if i = 2 ∧ u ≠ 0 ∧ s.cal.csFor.isNone ∧ !s.cal.badSpare.contains 2 then (s.wr Fd.SPN_STATUS_SPARE 1).wr Fd.SPN_STATUS_SPFOR (u - 1)
  else s

/-- The unit that a stand-in converts for returns to service on its active bank; a stand-in that stays for good does so (R141, R517, R520). -/
def State.standOut (s : State) (i a u : Nat) : State :=
  if i = 6 then
    let rb := (calSlice u).1
    let n := calAct a
    if s.on (sparePerm rb n) then s else (s.wr (spareOn rb n) 0).wr (spareFor rb n) 0
  else if i = 2 ∧ s.cal.csFor.isNone then (s.wr Fd.SPN_STATUS_SPARE 0).wr Fd.SPN_STATUS_SPFOR 0
  else s

/-- The calibration of a unit begins. -/
def State.calEnter (s : State) (i a u : Nat) : State :=
  (((s.wr Fd.CAL_STATUS_ITEM i).wr Fd.CAL_STATUS_ACTNOW a).calPut fun c => { c with unit := u }).standIn i a u

/-- `k` items counted as skipped (Table 17.8). -/
def State.calSkip (s : State) (k : Nat) : State :=
  if k = 0 then s else ((s.count Fd.CAL_SKIPPED_ITEMS k).wr Fd.CAL_INT_SKIP 1).calPut fun u => { u with skipped := u.skipped + k }

/-- The pass goes on with the first of the positions that can run; with none left it has ended its items. DESIGN CHOICE: an item counts as skipped
where none of its units is calibrated; units left out of an item that calibrates others are not counted. -/
def State.calGo (s : State) : List (Nat × Nat) → State
  | [] => s.calPut fun u => { u with ended := true }
  | (i, a) :: l =>
    match (if s.calRuns i a then s.unitFrom i a 0 else none) with
    | some u => s.calEnter i a u
    | none => (s.calSkip 1).calGo l

/-- The positions after the one under way. -/
def State.calRest (s : State) : List (Nat × Nat) :=
  ((calSteps s.cal.scope s.cal.acts).dropWhile fun p => p != (s.rd Fd.CAL_STATUS_ITEM, s.rd Fd.CAL_STATUS_ACTNOW)).drop 1

/-- Whether an item is under way. -/
def State.calBusy (s : State) : Bool := s.on Fd.CAL_STATUS_BUSY && !s.cal.ended

/-- CAL_GO: a pass is due; it starts at once where none runs (R518). -/
def execCalGo (s : State) : Host.Outcome State Fault Refusal := .next (s.wr Fd.CAL_STATUS_PEND 1)

/-- CAL_PASS_START: a full pass at the beginning of P5, else one with the SCOPE and ACT in force (R511, R518). -/
def execCalPassStart (s : State) : Host.Outcome State Fault Refusal :=
  if s.on Fd.CAL_STATUS_BUSY ∨ !(s.cal.full || s.on Fd.CAL_STATUS_PEND) ∨ !s.serving .cal then .next s
  else
    let full := s.cal.full
    let sc := if full then 0x7F else s.rd Fd.CAL_CTL_SCOPE
    let ac := if full then 0xF else s.rd Fd.CAL_CTL_ACT
    let s1 := (s.wrs [(Fd.CAL_STATUS_BUSY, 1), (Fd.CAL_STATUS_PEND, if full then s.rd Fd.CAL_STATUS_PEND else 0), (Fd.CAL_FAIL_ITEMS, 0)]).calPut
      fun u => { u with scope := sc, acts := ac, ended := false, full := false }
    .next (s1.calGo (calSteps sc ac))

/-- The item, actuator and unit under way. -/
def State.calNow (s : State) : Nat × Nat × Nat := (s.rd Fd.CAL_STATUS_ITEM, s.rd Fd.CAL_STATUS_ACTNOW, s.cal.unit)

/-- The calibration of the unit under way has ended: the unit is back in service, and the pass goes on with the item's next one, or with the next
item. -/
def State.calNext (s : State) : State :=
  let (i, a, u) := s.calNow
  let s1 := s.standOut i a u
  match s1.unitFrom i a (u + 1) with
  | some v => s1.calEnter i a v
  | none => s1.calGo s1.calRest

/-- The key of a unit's coefficient banks. -/
def calKey (i a u : Nat) : Nat := 128 * i + 32 * a + u

/-- A unit found faulty by calibration (R520): its stand-in stays in place; a spare that fails is unusable. -/
def State.calFaulty (s : State) (i a u : Nat) : State :=
  if i = 6 then
    let (rb, sl) := calSlice u
    let s1 := s.sliceFaulty (calAct a) rb sl true
    if sl = 8 then s1 else (s1.wr Fd.CAL_INT_FAULT 1).raise .cal 0x1502 4 [0, a, b2n rb, sl]
  else if u = 0 then s.calPut fun c => { c with badSpare := if c.badSpare.contains 2 then c.badSpare else 2 :: c.badSpare }
  else
    let s1 := if s.cal.csFor.isSome ∨ s.cal.badSpare.contains 2 then s
      else ((s.wr Fd.SPN_STATUS_SPARE 1).wr Fd.SPN_STATUS_SPFOR (u - 1)).calPut fun c => { c with csFor := some (u - 1) }
    (s1.wr Fd.CAL_INT_FAULT 1).raise .cal 0x1502 4 [1, 0xFF, 0, u - 1]

/-- An item fails at its unit (R519): its active bank stays; a failure of item 0 or 1 ends the pass, the rest of it skipped. -/
def State.calFails (s : State) (coeff : Nat) : State :=
  let (i, a, u) := s.calNow
  let s1 := ((s.setB Fd.CAL_FAIL_ITEMS i).wr Fd.CAL_INT_FAIL 1).raise .cal 0x1501 5 ([i, if i < 3 then 0xFF else a, u] ++ leBytes 4 coeff)
  let s2 := if i = 2 ∨ i = 6 then s1.calFaulty i a u else s1
  if i ≤ 1 then (s2.calSkip s2.calRest.length).calPut fun c => { c with ended := true } else s2.calNext

/-- Whether a board reference, by its deviation from its value in parts per million, lies outside ±2% (R510). -/
def refOut (ppm : Int) : Bool := 20000 < ppm.natAbs

/-- CAL_ITEM_DONE: a unit of the item under way has been measured. Its inactive bank takes the coefficients (R515), item 3's third the coil
resistance with TX at that moment (R521); or the item fails, by the coefficient that lies outside its window, or item 0 by a board reference out
of range, whose event carries the measured gain (R510, R519). -/
def execCalItemDone (coeffs : List (BitVec 32)) (bad : Option (Fin 32)) (refv refr refclk : Int) (s : State) : Host.Outcome State Fault Refusal :=
  if !s.calBusy then .next s
  else
    let (i, a, u) := s.calNow
    let bad := if bad.isNone ∧ i = 0 ∧ (refOut refv ∨ refOut refr ∨ refOut refclk) then some 1 else bad
    match bad with
    | some c => .next (s.calFails (coeffs.getD c.val 0).toNat)
    | none =>
      let s1 := s.calPut fun c =>
        { c with
          inactive := tinsert c.inactive (calKey i a u) (coeffs.map BitVec.toNat)
          coil := if i = 3 then tinsert c.coil a ((coeffs.getD 2 0).toInt, s.tx) else c.coil }
      .next s1.calNext

/-- CAL_SWAP: the banks written of an item become the active ones, in one step (R515). -/
def execCalSwap (item : Fin 7) (n : Fin 4) (s : State) : Host.Outcome State Fault Refusal :=
  let k := 4 * item.val + (if item.val < 3 then 0 else n.val)
  let mine := s.cal.inactive.filter fun p => p.1 / 32 == k
  .next (s.calPut fun u =>
    { u with
      active := mine.foldl (fun l p => tinsert l p.1 p.2) u.active
      inactive := mine.foldl (fun l p => terase l p.1) u.inactive })

/-- SLICE_WINDOW_END (R140, R141): two consecutive windows past a limit find the slice faulty; `gain` is in 1/64 of the others' average. A fault while S8
stands in for a slice of that ADC under calibration ends that calibration. A slice that S8 converts in place of has no window. -/
def execSliceWindowEnd (n : Fin 4) (rb : Bool) (slice : Fin 9) (ofs gain : Nat) (s : State) : Host.Outcome State Fault Refusal :=
  let stands := s.on (spareOn rb n) && s.rd (spareFor rb n) == slice.val
  let hit := !stands && (s.rd (Fd.CHN_SLMON_OFS_LIM n) < ofs || s.rd (Fd.CHN_SLMON_GAIN_LIM n) < gain)
  let was := (s.ch n).sliceHits.contains (rb, slice.val)
  let rest := (s.ch n).sliceHits.filter fun p => p != (rb, slice.val)
  let s1 := s.updCh n fun c => { c with sliceHits := if hit then rest ++ [(rb, slice.val)] else rest }
  if !(hit && was) then .next s1
  else
    let (i, a, u) := s.calNow
    let s2 := s1.sliceFaulty n rb slice.val false
    .next (if s.calBusy && i == 6 && calAct a == n && (calSlice u).1 == rb && s.on (spareOn rb n) && !s.on (sparePerm rb n) then s2.calNext else s2)

/-- CAL_PASS_END (R522). -/
def execCalPassEnd (s : State) : Host.Outcome State Fault Refusal :=
  if !s.on Fd.CAL_STATUS_BUSY ∨ !s.cal.ended then .next s
  else
    .next ((((s.wrs [(Fd.CAL_STATUS_BUSY, 0), (Fd.CAL_LAST_TIME, s.time), (Fd.CAL_INT_DONE, 1)]).bump Fd.CAL_COUNT_PASSES)).calPut fun u =>
      { u with ended := false, life := u.life + 1 })

/-- CAL_CLAIM: item 5 claims its channel while the engine does not own the actuator (R513, Table 17.2). -/
def execCalClaim (n : Fin 4) (s : State) : Host.Outcome State Fault Refusal :=
  if s.calBusy ∧ s.rd Fd.CAL_STATUS_ITEM = 5 ∧ s.rd Fd.CAL_STATUS_ACTNOW = n.val ∧ !s.owned n ∧ s.cal.claim.isNone then
    .next (s.calPut fun u => { u with claim := some n })
  else .next s

/-- CAL_CLAIM_END (R513). -/
def execCalClaimEnd (n : Fin 4) (s : State) : Host.Outcome State Fault Refusal :=
  if s.cal.claim = some n then .next (s.calPut fun u => { u with claim := none }) else .next s

/-- A unit reset strikes a unit whose item is under way: the item is abandoned and counts as skipped, and the pass goes on (R517). -/
def State.calAbandon (s : State) : State :=
  let (i, a, u) := s.calNow
  let s1 := ((s.calSkip 1).calPut fun u => { u with claim := none }).standOut i a u
  s1.calGo s1.calRest

/-- A unit reset of the calibration unit abandons the pass, and a new one is due (R517). -/
def State.calReset (s : State) : State :=
  let (i, a, u) := s.calNow
  let s1 := (if s.calBusy then s.standOut i a u else s).calPut fun u => { u with claim := none, ended := false }
  if s.on Fd.CAL_STATUS_BUSY then
    ((s1.wr Fd.CAL_STATUS_BUSY 0).wr Fd.CAL_STATUS_PEND 1).calPut fun u => { u with abandoned := u.abandoned + 1 }
  else s1

end Sys2Proof.Machine
end

