-- ==== Sys2Proof/Machine/Control.lean ====
section
/-! DEFINITION. Controllers and their ports: enabling, reset, shutdown, links (10, 22). -/

namespace Sys2Proof.Machine

/-! ### Ready (R614) -/

/-- Whether the controllers may report ready: the intake is enabled, the DRAM has trained, and no dip holds the part (R405, R614, R626). -/
def State.mayReady (s : State) : Bool := s.on Fd.INT_CTL_EN && !s.on Fd.MEM_STATUS_DFAIL && !s.power.dipHold

/-- CSTS.RDY follows CC.EN and INT.CTL.EN (R614). -/
def State.settleReady (s : State) : State :=
  if s.mayReady then
    s.hput fun h => { h with
      c0 := { h.c0 with rdy := h.c0.rdy || (h.c0.en && !h.c0.cfs) }
      c1 := { h.c1 with rdy := h.c1.rdy || (h.c1.en && !h.c1.cfs) } }
  else s

/-- INTAKE_ENABLE (R614). -/
def execIntakeEnable (v : Bool) (s : State) : Host.Outcome State Fault Refusal := .next (s.wr Fd.INT_CTL_EN (b2n v)).settleReady

/-- Whether PERST_N of a port is low. -/
def State.perstLow (s : State) (p : Fin 2) : Bool := if p = 0 then s.power.perst0 else s.power.perst1

/-- CC_EN_SET: over a link that is up; the admin queues exist from then on (R339, R614, R629). -/
def execCcEnSet (ctl : Fin 2) (s : State) : Host.Outcome State Fault Refusal :=
  if (s.ctrl ctl).en ∨ !s.ctrlHere ctl ∨ !s.on (Fd.PORT_PCTL_LINKUP ctl.val) then .next s
  else
    .next (s.ctrlUpd ctl fun c => { c with
      en := true, cqs := [(0, ⟨4096, 0, 0, true⟩)], sqs := [(0, ⟨0, 4096, .admin, 0, 0, s.rd Fd.INT_SCHED_RESERVE⟩)] }).settleReady

/-! ### Controller reset (R262, R325, R355, R358, R569) -/

/-- Zones that were open close, one with a run once that has ended (R325, Table 09.2). -/
def State.closeOpen (s : State) : State :=
  let l := (s.zone.zones.filter fun p => p.2.isOpen).map Prod.fst
  let s1 := (l.filter fun z => !s.hasRun z).foldl (fun t z => t.closeIf z) s
  s1.zput fun u => { u with closing := l.filter s.hasRun }

/-- A command released without completion: the owner of a forwarded one releases it, and a context that no slot holds is free at once. -/
def State.releaseCmd (s : State) (c : Nat) : State :=
  let s1 := match s.ctx? c with
    | some x => (match x.fwdTo with
      | some p => if x.st = CtxSt.held then s else s.send ⟨0x06, p, c + 0xFFFF * 65536, 1, []⟩
      | none => s)
    | none => s
  (s1.linked c 8).foldl (fun t d => match t.ctx? d with
    | none => t
    | some x => if x.bound.isSome && !x.handed then t.endEarly d .release else (t.ctxUpd d fun y => { y with ending := some .release }).endCtx d) s1

/-- Every placement that a release has left beyond WP withdrawn (R263, R304). -/
def State.withdrawDue (s : State) : State :=
  s.zone.due.foldl (fun t z => t.withdrawAll z) (s.zput fun u => { u with due := [] })

/-- The running parity that the zones hold is lost (R77). -/
def State.loseParity (s : State) : State :=
  s.zput fun u => { u with zones := u.zones.map fun p => (p.1, { p.2 with parity := none }) }

/-- A controller as its reset leaves it: its queues are gone, and the admin state, its feature values and its error log among it, stays (R34,
R40). -/
def Ctrl.afterReset (c : Ctrl) : Ctrl := { Ctrl.reset with errlog := c.errlog, pp := c.pp, features := c.features, nqueues := c.nqueues }

/-- A controller reset: its commands are released, its queues are gone, CSTS.RDY reads 0, and running parity is lost; commits and the admin state
stand (R36, R40, R77, R355). -/
def State.ctrlReset (s : State) (i : Fin 2) (cause : Nat) : State :=
  let n := s.host.ctxs.countP fun p => p.2.ctl == i && p.2.origin.isNone
  let s1 := ((s.cmdsOf i none).foldl (fun t p => t.releaseCmd p.1) s).withdrawDue
  let s2 := s1.ctrlUpd i Ctrl.afterReset
  let s3 := if n = 0 then s2 else s2.raise .intake 0x0301 2 (leBytes 4 n ++ [i.val, cause])
  s3.loseParity.closeOpen

/-- A staged image is activated at a controller reset (R358). -/
def State.activateStaged (s : State) : State :=
  if (s.host.fwA.staged || s.host.fwB.staged) && s.host.activation.isNone then s.activate none else s

/-- CONTROLLER_RESET: of one controller, or of both (R355). -/
def execControllerReset (ctl : Fin 2) (both : Bool) (s : State) : Host.Outcome State Fault Refusal :=
  .next (if both then (s.ctrlReset 0 3).ctrlReset 1 3 else s.ctrlReset ctl 0).activateStaged

/-! ### Shutdown (R357) -/

/-- SHUTDOWN_NORMAL: fetching stops, and fetched commands complete as usual. -/
def execShutdownNormal (ctl : Fin 2) (s : State) : Host.Outcome State Fault Refusal :=
  .next (s.ctrlUpd ctl fun c => { c with stopped := true, shst := 1 })

/-- SHUTDOWN_ABRUPT: as a controller reset, and then the actuators park. -/
def execShutdownAbrupt (ctl : Fin 2) (s : State) : Host.Outcome State Fault Refusal :=
  let en := (s.ctrl ctl).en
  .next ((s.ctrlReset ctl 0).ctrlUpd ctl fun c => { c with en := en, stopped := true, shst := 1 })

/-- Whether every journal record issued is durable. -/
def State.journalDurable (s : State) : Bool := s.zone.queue == [] && s.zone.issued == []

/-- A shutdown goes on: with no command of the controller left, the actuators unload, and once they are parked with the journal durable SHST
reads 0b10. -/
def State.settleShutdown (s : State) (i : Fin 2) : State :=
  if (s.ctrl i).shst ≠ 1 ∨ s.host.ctxs.any (fun p => p.2.ctl == i && p.2.origin.isNone && !(p.2.admin && p.2.opcode == 0x0C)) then s
  else if s.journalDurable && four.all fun n => !s.on (Fd.SRV_CTL_FITTED n) || s.mode n == 0 then s.ctrlUpd i fun c => { c with shst := 2 }
  else four.foldl (fun t n => t.unload n) s

/-! ### Links (R331, R360, R613, R629) -/

/-- INT.INT.LINKDN of a port. -/
def linkDnFld (p : Fin 2) : Fld := if p = 0 then Fd.INT_INT_LINKDN0 else Fd.INT_INT_LINKDN1

/-- A port's link reads down. -/
def State.linkOff (s : State) (p : Fin 2) : State :=
  s.wrs [(Fd.PORT_PCTL_LINKUP p.val, 0), (Fd.PORT_PCTL_SPEED p.val, 0), (Fd.PORT_PCTL_WIDTH p.val, 0)]

/-- PORT_LINK_DOWN: fetching and posting stop for the port's controller; with HOLD_S 0 it is reset at once (R360). -/
def execPortLinkDown (p : Fin 2) (s : State) : Host.Outcome State Fault Refusal :=
  if !s.on (Fd.PORT_PCTL_LINKUP p.val) then .next s
  else
    let s1 := ((s.linkOff p).wr (linkDnFld p) 1).raise (.hostPort p) 0x0304 4 [p.val]
    if !s.ctrlHere p then .next s1
    else if s.rd (Fd.PORT_PCTL_HOLD_S p.val) = 0 then .next (s1.ctrlReset p 0).activateStaged
    else .next (s1.ctrlUpd p fun c => { c with linkHeld := true })

/-- PORT_LINK_UP: the link trains at a speed code and a width of the port, and held completions may be posted (R331, R360, R613). -/
def execPortLinkUp (p : Fin 2) (speed width : Fin 8) (s : State) : Host.Outcome State Fault Refusal :=
  let widths := if s.on Fd.INT_CTL_X4 then [1, 2, 4] else [1, 2]
  if !s.on (Fd.PORT_PCTL_EN p.val) ∨ !s.ctrlHere p ∨ s.perstLow p ∨ speed = 0 ∨ 5 < speed.val ∨ !(widths.contains width.val) then .next s
  else
    .next ((s.wrs [(Fd.PORT_PCTL_LINKUP p.val, 1), (Fd.PORT_PCTL_SPEED p.val, speed.val), (Fd.PORT_PCTL_WIDTH p.val, width.val)]).ctrlUpd p
      fun c => { c with linkHeld := false })

/-- LINK_HOLD_EXPIRY: the link has not returned within HOLD_S (R360). -/
def execLinkHoldExpiry (p : Fin 2) (s : State) : Host.Outcome State Fault Refusal :=
  if (s.ctrl p).linkHeld then .next (s.ctrlReset p 0).activateStaged else .next s

/-- PERST_ASSERT: a conventional reset of the port's controller at any time after P4; ignored on port 1 in ×4 mode (R629). -/
def execPerstAssert (p : Fin 2) (s : State) : Host.Outcome State Fault Refusal :=
  if !s.ctrlHere p then .next s
  else
    let s1 := { s with power := if p = 0 then { s.power with perst0 := true } else { s.power with perst1 := true } }
    if s.rd Fd.HSK_START_PHASE < 4 then .next s1 else .next (((s1.linkOff p).ctrlReset p 0).activateStaged)

/-- PERST_RELEASE: the port may train again (R613, R629). -/
def execPerstRelease (p : Fin 2) (s : State) : Host.Outcome State Fault Refusal :=
  .next { s with power := if p = 0 then { s.power with perst0 := false } else { s.power with perst1 := false } }

end Sys2Proof.Machine
end

