-- ==== Sys2Proof/Machine/Confluence.lean ====
section
/-! DEFINITION. Confluence: links, heartbeats and roles, loss and return of a peer, forwarded commands, the admin state, fences and tokens
(19). -/

namespace Sys2Proof.Machine

/-! ### Roles (R561, Table 19.5) -/

/-- Whether an up link leads to a peer. -/
def State.direct (s : State) (p : Nat) : Bool :=
  ([0, 1, 2] : List Nat).any fun k => s.on (Fd.CFX_LINK_UP k) && s.rd (Fd.CFX_LINK_PEER k) == p

/-- RELAYED follows the links: a peer heard without a link of its own reaches this member through a relay (R559). -/
def State.settleRoutes (s : State) : State :=
  s.wr Fd.CFX_PEERS_RELAYED (((s.peerList.filter fun p => s.hears p && !s.direct p).map (2 ^ ·)).sum)

/-- The peers heard. -/
def State.heardPeers (s : State) : List Nat := s.peerList.filter s.hears

/-- This member's role as a heartbeat carries it: tributary 0, mouth 1, lead 2, cut off 3 (Table 19.6). -/
def State.role (s : State) : Nat :=
  if !s.on Fd.CFX_STATUS_MOUTH then 0 else if s.on Fd.CFX_STATUS_ISLEAD then 2 else if s.on Fd.CFX_STATUS_CUTOFF then 3 else 1

/-- The lead's position where one is known. -/
def State.lead? (s : State) : Option Nat := if s.on Fd.CFX_STATUS_HASLEAD then some (s.rd Fd.CFX_STATUS_LEAD) else none

/-- A position as a record carries it: 0xFF for none. -/
def posByte (p : Option Nat) : Nat := p.getD 0xFF

/-- The subsystem-wide features become values this member does not hold: those of the member with the highest VERSION. -/
def State.freeFeatures (s : State) (ks : List Nat) : State := ks.foldl (fun t k => (t.subFeature k (t.freeVal % 2 ^ 64)).tookFree) s

/-- The features of Table 10.8 that are marked subsystem-wide, by their keys. -/
def wideKeys : List Nat := [0x04, 0x104, 0x0C, 0x0E] ++ (List.range 32).map fun i => 0x0C + 256 * (i + 1)

/-- This member becomes lead: it adopts the admin state of the highest VERSION it reaches, sends it to every peer heard, and grants tokens
(R561, R564, R575). -/
def State.takeLead (s : State) : State :=
  let v := (s.heardPeers.map fun p => (s.peer p).version).foldl max 0
  let s1 := if s.rd Fd.CFX_VERSION_VER < v then (s.freeFeatures wideKeys).wr Fd.CFX_VERSION_VER v else s
  let mine := s1.on Fd.CFX_TOKEN_HELD && !s1.on Fd.CFX_TOKEN_SOLO
  let s2 := s1.cfxUpd fun c => { c with treqs := [], holders := if mine then [s1.pos] else [] }
  let s3 := s1.heardPeers.foldl State.sendAdm s2
  if s3.cfx.asked then s3.tokenRequest s3.pos else s3

/-- The lead position becomes another: LEADCHG and event 0x0203 (R561); a token request outstanding goes to the new lead (R575). -/
def State.setLead (s : State) (new : Option Nat) : State :=
  if s.lead? = new then s
  else
    let p := new.getD 0
    let s1 := (s.wrs [(Fd.CFX_STATUS_HASLEAD, b2n new.isSome), (Fd.CFX_STATUS_LEAD, p), (Fd.CFX_STATUS_ISLEAD, b2n (new == some s.pos)),
      (Fd.CFX_INT_LEADCHG, 1)]).raise .confluence 0x0203 3
        ([posByte new, posByte s.lead?, 0, 0] ++ leBytes 8 (s.rd Fd.CFX_VERSION_VER))
    let s2 := s1.cfxUpd fun c => { c with formed := c.formed || new.isSome }
    if new = some s.pos then s2.takeLead
    else if new.isSome ∧ s2.cfx.asked then s2.send (tokenMsg p 0) else s2

/-- ANA states have changed: the notice, where a controller's configuration enables it (R334). -/
def State.anaChanged (s : State) : State := if s.on Fd.CFX_STATUS_MOUTH then s.noticeAll 11 2 0x03 0x0C else s

/-- CUTOFF as it becomes (R561). -/
def State.setCut (s : State) (v : Bool) : State :=
  if s.on Fd.CFX_STATUS_CUTOFF = v then s
  else
    let s1 := s.wr Fd.CFX_STATUS_CUTOFF (b2n v)
    (if v then s1.wr Fd.CFX_INT_CUTOFF 1 else s1).anaChanged

/-- The members of a mask. -/
def popcount (m : Nat) : Nat := (List.range 4).countP fun p => bit m p

/-- Whether a lower mouth that has lost the lead reaches more than half the members. -/
def State.lowerMouth (s : State) : Bool :=
  s.heardPeers.any fun q => q < s.pos && ([1, 3].contains (s.peer q).role) && s.members < 2 * (1 + popcount (clrBit (s.peer q).reached q))

/-- Whether every mouth hears mouth `m`. -/
def State.heardByMouths (s : State) (m : Nat) : Bool :=
  s.heardPeers.all fun q => q == m || (s.peer q).role == 0 || bit (s.peer q).reached m

/-- A mouth applies Table 19.5 at each heartbeat. -/
def State.electMouth (s : State) : State :=
  let cnt := 1 + s.heardPeers.length
  let leads := s.heardPeers.filter fun p => (s.peer p).role == 2
  if s.on Fd.CFX_STATUS_ISLEAD then (if s.members ≤ 2 * cnt then s else (s.setLead none).setCut true)
  else match leads with
    | p :: _ => (s.setLead (some p)).setCut false
    | [] =>
      if s.cfx.formed then
        (if s.members < 2 * cnt ∧ !s.lowerMouth then (s.setLead (some s.pos)).setCut false else (s.setLead none).setCut true)
      else
        let mouths := (List.range s.members).filter fun m => m == s.pos || (s.hears m && (s.peer m).role != 0)
        match mouths.filter s.heardByMouths with
        | m :: _ => if m = s.pos then s.setLead (some m) else s
        | [] => s

/-- The lead as every heartbeat settles it: a mouth by Table 19.5, a tributary by the role a peer reports. -/
def State.elect (s : State) : State :=
  if s.members = 1 then s
  else if s.on Fd.CFX_STATUS_MOUTH then s.electMouth
  else s.setLead ((s.heardPeers.filter fun p => (s.peer p).role == 2).head?)

/-! ### Hearing a peer (R564, R572, R573) -/

/-- A valid message of a peer has been heard; one that joins or returns gets the lead's admin state. -/
def State.hear (s : State) (p : Nat) : State :=
  let s1 := ((s.setB Fd.CFX_PEERS_PRESENT p).updPeer p fun q => { q with heard := s.time }).settleRoutes
  if s.hears p then s1
  else
    let s2 := if s.rdBit Fd.CFX_PEERS_LOST p then
        ((s1.clrB Fd.CFX_PEERS_LOST p).wr Fd.CFX_INT_PEERBACK 1).raise .confluence 0x0204 2 [p]
      else s1
    let s3 := s2.updPeer p fun q => { q with synced := false }
    (if s3.on Fd.CFX_STATUS_ISLEAD then s3.sendAdm p else s3).anaChanged

/-- A message of a peer arrives: the ports serve, and the peer is a member other than this one. -/
def State.msg (s : State) (p : Fin 4) (body : State → State) : Host.Outcome State Fault Refusal :=
  if s.on Fd.CFX_CTL_EN ∧ p.val < s.members ∧ p.val ≠ s.pos then .next (body (s.hear p.val)) else .next s

/-- HB_SEND: a heartbeat on every up link, and a mouth applies Table 19.5 (R561, R572); the encoding of its token state is not stated. -/
def execHbSend (s : State) : Host.Outcome State Fault Refusal :=
  if !s.on Fd.CFX_CTL_EN then .next s
  else
    let s1 := s.elect
    let load := [s1.role, s1.rd Fd.HSK_START_PHASE, s1.rd Fd.INT_NSREADY_READY, s1.freeVal % 256] ++
      leBytes 4 (s1.rd Fd.CFX_PEERS_PRESENT) ++ List.replicate 24 0
    .next ((([0, 1, 2] : List Nat).filter fun k => s1.on (Fd.CFX_LINK_UP k)).foldl
      (fun t k => t.send ⟨0x01, t.rd (Fd.CFX_LINK_PEER k), 0, t.rd Fd.CFX_VERSION_VER, load⟩) s1.tookFree)

/-- HB: a peer's heartbeat, after which the roles are settled (R561, R572). -/
def execHb (p : Fin 4) (version : BitVec 64) (role : Fin 4) (phase nsready : BitVec 8) (reached : BitVec 4) (s : State) :
    Host.Outcome State Fault Refusal :=
  s.msg p fun t =>
    ((t.updPeer p.val fun q =>
      { q with version := version.toNat, role := role.val, phase := phase.toNat, nsready := nsready.toNat, reached := reached.toNat }).elect).settleAdm

/-- Whether a context is of a command that its mouth forwarded to a peer and that has not been completed. -/
def Ctx.sentTo (x : Ctx) (p : Nat) : Bool := x.fwdTo == some p && !x.handed

/-- The command that an Abort names: of its queue and command identifier, the Abort's own kind apart. -/
def State.abortTarget (s : State) (x : Ctx) : Option (Nat × Ctx) :=
  (s.cmdsOf x.ctl (some (bits (x.dw 10) 0 16))).find? fun p => !p.2.admin && p.2.cid == bits (x.dw 10) 16 16

/-- Whether a context is of an Abort that waits for its ARES (R569). -/
def Ctx.awaitsAres (x : Ctx) : Bool := x.admin && x.opcode == 0x08 && x.run && !x.handed && x.origin.isNone

/-- An Abort completes with bit 0 of its dword 0. -/
def State.abortDone (s : State) (c : Nat) (x : Ctx) (v : Nat) : State :=
  (s.ctrlUpd x.ctl fun t => { t with aborts := t.aborts - 1 }).answerDw c v

/-- Commands forwarded to a lost peer, and Aborts that wait for it, complete (R572). -/
def State.endForwarded (s : State) (p : Nat) : State :=
  let as := s.host.ctxs.filter fun q => q.2.awaitsAres && ((s.abortTarget q.2).all fun y => y.2.fwdTo == some p)
  let s1 := as.foldl (fun t q => t.abortDone q.1 q.2 1) s
  (s.host.ctxs.filter fun q => q.2.sentTo p && !s.isPart q.1).foldl (fun t q => t.endAll q.1 3 0x02) s1

/-- The forwarded contexts of a peer released (R572). -/
def State.releaseOf (s : State) (p : Nat) : State :=
  ((s.host.ctxs.filter fun q => (q.2.origin.map Prod.fst) == some p && !s.isPart q.1).foldl (fun t q => t.releaseCmd q.1) s).withdrawDue

/-- A fence that waits for a lost peer has failed (R571). -/
def State.fenceLost (s : State) (p : Nat) : State :=
  if bit s.cfx.fenceWait p then (s.wrs [(Fd.CFX_FENCE_DONE, 1), (Fd.CFX_FENCE_FAILED, 1)]).cfxUpd fun c => { c with fenceWait := 0 } else s

/-- PEER_LOST: a peer heard before, and not for 5 ms (R572). -/
def execPeerLost (p : Fin 4) (s : State) : Host.Outcome State Fault Refusal :=
  let q := s.peer p.val
  if !s.hears p.val ∨ (s.time + 2 ^ 48 - q.heard) % 2 ^ 48 < 5000 then .next s
  else
    let s1 := (((s.clrB Fd.CFX_PEERS_PRESENT p.val).setB Fd.CFX_PEERS_LOST p.val).updPeer p.val fun y =>
      { y with losses := y.losses + 1, nsready := 0, role := 0, synced := false }).settleRoutes
    let s2 := ((s1.wr Fd.CFX_INT_PEERLOST 1).count Fd.CFX_CNT0_LOSSES 1).raise .confluence 0x0201 5 (p.val :: leBytes 6 q.heard)
    let s3 := (((s2.anaChanged.endForwarded p.val).releaseOf p.val).fenceLost p.val).dropCredits p.val
    let s4 := if s3.on Fd.CFX_STATUS_ISLEAD then s3.tokenReturn p.val else s3
    let s5 := if s4.lead? = some p.val then s4.setLead none else s4
    .next s5.settleAdm

/-- PEER_HEARD_AGAIN: a lost peer is heard (R573). -/
def execPeerHeardAgain (p : Fin 4) (s : State) : Host.Outcome State Fault Refusal :=
  if s.rdBit Fd.CFX_PEERS_LOST p.val then s.msg p fun t => t else .next s

/-! ### Links (R557 to R559) -/

/-- CFX_LINK_TRAIN: the link comes up where group, size and place agree, and is refused otherwise (R557, R558). -/
def execCfxLinkTrain (port : Fin 3) (gid : Fin 16) (size pos : Fin 4) (s : State) : Host.Outcome State Fault Refusal :=
  let far := (s.pos + port.val + 1) % 4
  if !s.on Fd.CFX_CTL_EN ∨ s.members ≤ far ∨ s.on (Fd.CFX_LINK_UP port.val) then .next s
  else if gid.val = s.rd Fd.CFX_STATUS_GID ∧ size.val + 1 = s.members ∧ pos.val = far then
    .next ((s.wrs [(Fd.CFX_LINK_UP port.val, 1), (Fd.CFX_LINK_PEER port.val, pos.val), (Fd.CFX_LINK_MISMATCH port.val, 0)]).settleRoutes)
  else
    .next ((s.wrs [(Fd.CFX_LINK_PEER port.val, pos.val), (Fd.CFX_LINK_MISMATCH port.val, 1), (Fd.CFX_INT_MISMATCH, 1)]).raise .confluence 0x0202 5
      [port.val, gid.val, size.val, pos.val])

/-- CFX_LINK_DOWN: messages to the peer go through a relay, where one has links to both (R559). -/
def execCfxLinkDown (port : Fin 3) (s : State) : Host.Outcome State Fault Refusal :=
  if s.on (Fd.CFX_LINK_UP port.val) then .next ((s.wrs [(Fd.CFX_LINK_UP port.val, 0), (Fd.CFX_INT_LINKDN, 1)]).settleRoutes) else .next s

/-! ### Forwarded commands (R565 to R569) -/

/-- The class of a queue as FWD carries it (Table 10.4). -/
def classOf (n : Nat) : CtxClass :=
  if n = 0 then .admin else if n = 1 then .urgent else if n = 2 then .high else if n = 3 then .medium else .low

/-- Contexts that a peer's forwarded commands hold. -/
def State.usedFor (s : State) (p : Nat) : Nat := s.host.ctxs.countP fun q => (q.2.origin.map Prod.fst) == some p

/-- FWD: the owner takes the command into contexts kept for the peer, and treats it as its own intake would (R565, R566). -/
def execFwd (p : Fin 4) (tag : BitVec 16) (_buf : BitVec 64) (cls : Fin 5) (e : Sqe) (s : State) : Host.Outcome State Fault Refusal :=
  s.msg p fun t =>
    if t.rd Fd.CFX_FWDRES_CTX ≤ t.usedFor p.val then t
    else
      let x := Ctx.fresh e (if cls = 0 then 0 else 0xFF) 0 (classOf cls.val) t.time t.host.fetches (some (p.val, tag.toNat))
      let t1 := (t.updPeer p.val fun q => { q with fwdFrom := q.fwdFrom + 1 }).hput fun h =>
        { h with fetches := h.fetches + 1, psNow := if cls ≠ 0 ∧ 2 ≤ h.psNow then h.psOper else h.psNow }
      match t1.takeCtxs x (t1.pieces x) with
      | (t2, none) => t2
      | (t2, some c) => t2.route c

/-- Bytes of a command's data at an offset put into the buffers of its contexts, block by block. -/
def State.putData (s : State) (c slba off : Nat) (data : List Nat) : State :=
  let b := slba + off / 4096
  let put := fun (t : State) (a : Nat) (l : List Nat) =>
    match (t.linked c 8).findSome? fun d => (t.ctx? d).bind fun x => if x.lba ≤ a ∧ a < x.lba + x.total then some x else none with
    | none => t
    | some x => t.stored (x.buf + 4096 * (a - x.lba) + (if a = b then off % 4096 else 0)) l
  let k := 4096 - off % 4096
  put (put s b (data.take k)) (b + 1) (data.drop k)

/-- WDATA: write data arrives in the owner's buffers; with the last of it the command's data is complete (R566). -/
def execWdata (p : Fin 4) (c : Fin 65536) (off : BitVec 32) (data : List (BitVec 8)) (s : State) : Host.Outcome State Fault Refusal :=
  s.msg p fun t => match t.ctx? c.val with
    | none => t
    | some x =>
      if (x.origin.map Prod.fst) ≠ some p.val ∨ x.handed ∨ !x.writes ∨ data = [] ∨ 256 < data.length then t
      else
        let t1 := t.putData c.val x.slba off.toNat (data.map BitVec.toNat)
        if 4096 * x.nlb ≤ off.toNat + data.length then t1.updAll c.val fun y => { y with dataIn := true } else t1

/-- RDATA: read data arrives in the mouth's buffer, or the data of a forwarded admin command for its host (R566, R570). -/
def execRdata (p : Fin 4) (c : Fin 65536) (off : BitVec 32) (data : List (BitVec 8)) (s : State) : Host.Outcome State Fault Refusal :=
  s.msg p fun t => match t.ctx? c.val with
    | none => t
    | some x =>
      let l := data.map BitVec.toNat
      if x.fwdTo ≠ some p.val ∨ x.handed ∨ data = [] ∨ 256 < data.length then t
      else if x.admin then t.hput fun h => { h with data := h.data.take off.toNat ++ l }
      else t.stored (x.buf + off.toNat) l

/-- CPL: the mouth completes the command with the owner's status and dwords (R567). -/
def execCpl (p : Fin 4) (c : Fin 65536) (dw0 dw1 : BitVec 32) (status : BitVec 16) (s : State) : Host.Outcome State Fault Refusal :=
  s.msg p fun t => match t.ctx? c.val with
    | none => t
    | some x =>
      if x.fwdTo ≠ some p.val ∨ x.handed ∨ x.st = CtxSt.held then t
      else (t.ctxUpd c.val fun y => { y with res0 := dw0.toNat, res1 := dw1.toNat }).endAll c.val (bits status.toNat 9 3) (bits status.toNat 1 8)

/-- The owner's context of a mouth's command. -/
def State.ownerCtx (s : State) (p tag : Nat) : Option Nat :=
  (s.host.ctxs.find? fun q => q.2.origin == some (p, tag) && !s.isPart q.1).map Prod.fst

/-- CFX_ABORT_MSG: the owner decides an Abort under R351 and R352 and returns ARES, or releases the command (R569). -/
def execCfxAbortMsg (p : Fin 4) (tag : BitVec 16) (release : Bool) (s : State) : Host.Outcome State Fault Refusal :=
  s.msg p fun t => match t.ownerCtx p.val tag.toNat with
    | none => if release then t else t.send ⟨0x07, p.val, tag.toNat + 0xFFFF * 65536, 1, []⟩
    | some c =>
      if release then (t.releaseCmd c).withdrawDue
      else if t.abortable c then (t.endEarlyAll c (.complete 0 0x07)).send ⟨0x07, p.val, tag.toNat + 65536 * c, 0, []⟩
      else t.send ⟨0x07, p.val, tag.toNat + 65536 * c, 1, []⟩

/-- ARES: the Abort of a forwarded command completes with what the owner decided (R569). -/
def execAres (p : Fin 4) (c : Fin 65536) (notAborted : Bool) (s : State) : Host.Outcome State Fault Refusal :=
  s.msg p fun t => match t.ctx? c.val with
    | none => t
    | some x => if x.awaitsAres then t.abortDone c.val x (b2n notAborted) else t

/-! ### The admin state (R563, R564) -/

/-- ADM: an image no older than the copy held is applied and acknowledged. -/
def execAdm (p : Fin 4) (version : BitVec 64) (image : List (Nat × Nat)) (s : State) : Host.Outcome State Fault Refusal :=
  s.msg p fun t =>
    if version.toNat < t.rd Fd.CFX_VERSION_VER then t
    else
      let was := (t.host.features.find? fun q => q.1 == 0x0E).map Prod.snd
      let t1 := (t.hput fun h => { h with features :=
        (image.filter fun q => !ownFeature q.1 && q.1 != 0x0E) ++ h.features.filter fun q => ownFeature q.1 || q.1 == 0x0E }).wr
        Fd.CFX_VERSION_VER version.toNat
      let t2 := match image.find? fun q => q.1 == 0x0E with
        | none => t1.hput fun h => { h with features := h.features.filter fun q => q.1 != 0x0E }
        | some (_, ms) => if was = some (t1.calOffsetOf ms) then t1 else t1.setTimestamp ms
      t2.send ⟨0x09, p.val, 0, version.toNat, []⟩

/-- AACK: a member holds a VERSION (R563); from then on its namespaces may read Optimized (R564). -/
def execAack (p : Fin 4) (version : BitVec 64) (s : State) : Host.Outcome State Fault Refusal :=
  s.msg p fun t =>
    let t1 := t.cfxUpd fun u =>
      { u with adm := u.adm.map fun w => if w.version = version.toNat then { w with acks := setBit w.acks p.val } else w }
    let news := version.toNat == t.rd Fd.CFX_VERSION_VER && !(t.peer p.val).synced
    (if news then (t1.updPeer p.val fun q => { q with synced := true }).anaChanged else t1).settleAdm

/-! ### Fences (R571) -/

/-- CFX_FENCE_GO: FENCE to every peer named; ignored while one is outstanding. -/
def execCfxFenceGo (mask : BitVec 4) (s : State) : Host.Outcome State Fault Refusal :=
  if !s.on Fd.CFX_FENCE_DONE then .next s
  else
    let ps := s.peerList.filter fun p => bit mask.toNat p
    let lost := ps.any fun p => !s.hears p
    let wait := if lost then 0 else (ps.map (2 ^ ·)).sum
    let n := s.cfx.fenceNum + 1
    let s1 := (s.wrs [(Fd.CFX_FENCE_DONE, b2n (wait == 0)), (Fd.CFX_FENCE_FAILED, b2n lost)]).cfxUpd fun c =>
      { c with fenceNum := n, fenceWait := wait }
    .next ((ps.filter s.hears).foldl (fun t p => t.send ⟨0x0A, p, 0, n, []⟩) s1)

/-- CFX_FENCE_MSG: acknowledged once every FWD of the sender has reached its ordering point or has been completed. -/
def execCfxFenceMsg (p : Fin 4) (num : BitVec 64) (s : State) : Host.Outcome State Fault Refusal :=
  s.msg p fun t =>
    if t.host.ctxs.all fun q => (q.2.origin.map Prod.fst) != some p.val || q.2.run || q.2.handed then t.send ⟨0x0B, p.val, 0, num.toNat, []⟩ else t

/-- FACK: with the last one DONE reads 1. -/
def execFack (p : Fin 4) (num : BitVec 64) (s : State) : Host.Outcome State Fault Refusal :=
  s.msg p fun t =>
    if num.toNat ≠ t.cfx.fenceNum ∨ !bit t.cfx.fenceWait p.val then t
    else
      let w := clrBit t.cfx.fenceWait p.val
      let t1 := t.cfxUpd fun c => { c with fenceWait := w }
      if w = 0 then t1.wr Fd.CFX_FENCE_DONE 1 else t1

/-! ### Spin-up tokens (R575) -/

/-- TREQ: requests are granted in the order in which they arrive at the lead. -/
def execTreq (p : Fin 4) (s : State) : Host.Outcome State Fault Refusal :=
  s.msg p fun t => if t.on Fd.CFX_STATUS_ISLEAD then t.tokenRequest p.val else t

/-- TGNT: this member receives the token it has asked for. -/
def execTgnt (s : State) : Host.Outcome State Fault Refusal :=
  if s.on Fd.CFX_CTL_EN ∧ s.cfx.asked ∧ !s.on Fd.CFX_TOKEN_HELD then
    .next ((s.wr Fd.CFX_TOKEN_HELD 1).cfxUpd fun c => { c with asked := false })
  else .next s

/-- TREL: a token returns to the lead, which grants it on. -/
def execTrel (p : Fin 4) (s : State) : Host.Outcome State Fault Refusal :=
  s.msg p fun t => if t.on Fd.CFX_STATUS_ISLEAD then t.tokenReturn p.val else t

/-- SOLO_TOKEN: a member that has asked and has no lead takes a token by itself. -/
def execSoloToken (s : State) : Host.Outcome State Fault Refusal :=
  if 1 < s.members ∧ !s.on Fd.CFX_STATUS_HASLEAD ∧ s.cfx.asked ∧ !s.on Fd.CFX_TOKEN_HELD then
    .next ((s.wrs [(Fd.CFX_TOKEN_HELD, 1), (Fd.CFX_TOKEN_SOLO, 1)]).cfxUpd fun c => { c with asked := false })
  else .next s

/-- BAD_MESSAGE_TYPE: a TYPE that Table 19.4 does not list is discarded and counted (R560). -/
def execBadMessageType (_p : Fin 4) (type : BitVec 8) (s : State) : Host.Outcome State Fault Refusal :=
  if s.on Fd.CFX_CTL_EN ∧ (type.toNat = 0 ∨ 0x0C < type.toNat) then .next (s.count Fd.CFX_CNT0_BADTYPE 1) else .next s

end Sys2Proof.Machine
end

