-- ==== Sys2Proof/Machine/Weir.lean ====
section
/-! DEFINITION. Weir (13): packets and credits at the Stage input, the order of grants, and SYNC. -/

namespace Sys2Proof.Machine

/-- Weir's part of the state replaced. -/
def State.weirPut (s : State) (g : WeirUnit → WeirUnit) : State := { s with weir := g s.weir }

/-- Whether a slot of a class at the Stage input is free for a sender: the slot of a C or M packet and of read-return data was
reserved before it; the shares of SPRES are left to Backwater, requester 0x08 (R407, R408, R413). -/
def State.slotFree (s : State) (r : Nat) (cls : WeirClass) (write : Bool) : Bool :=
  match cls with
  | .q => s.rd Fd.WEIR_POOL_QUSED + (if r = 8 then 0 else s.rd Fd.WEIR_SPRES_SPQ) < 2048
  | .d => !write || s.rd Fd.WEIR_POOL_DUSED + (if r = 8 then 0 else s.rd Fd.WEIR_SPRES_SPD) < 1024
  | .c => true
  | .m => true

/-- Whether a sender is given a credit: a slot is free for it, and no crossing buffer withholds it (R22, R407). -/
def State.credit? (s : State) (r : Nat) (cls : WeirClass) (write : Bool) : Bool := s.slotFree r cls write && !s.weir.withheld.contains r

/-- A slot of the shared pools taken or returned: by a Q packet, or by the data of a write. -/
def State.useSlot (s : State) (cls : WeirClass) (write up : Bool) : State :=
  match cls with
  | .q => s.wr Fd.WEIR_POOL_QUSED (if up then s.rd Fd.WEIR_POOL_QUSED + 1 else s.rd Fd.WEIR_POOL_QUSED - 1)
  | .d => if write then s.wr Fd.WEIR_POOL_DUSED (if up then s.rd Fd.WEIR_POOL_DUSED + 1 else s.rd Fd.WEIR_POOL_DUSED - 1) else s
  | _ => s

/-- Both pools full at once: INT.FULL, its count and the record (Table 13.8). -/
def State.noteFull (s : State) : State :=
  if s.rd Fd.WEIR_POOL_QUSED = 2048 ∧ s.rd Fd.WEIR_POOL_DUSED = 1024 then
    ((s.wr Fd.WEIR_INT_FULL 1).count Fd.WEIR_CNT_FULLS 1).raise .weir 0x0502 3 []
  else s

/-- The packet granted next: M on its own network, then class C oldest first, then D and Q in turn (R411). -/
def WeirUnit.pick (w : WeirUnit) : Option Packet :=
  let first := fun k : WeirClass => w.packets.find? fun p => p.cls == k
  match first .m, first .c, first .d, first .q with
  | some p, _, _, _ => some p
  | none, some p, _, _ => some p
  | none, none, some d, some q => some (if w.lastD then q else d)
  | none, none, some d, none => some d
  | none, none, none, some q => some q
  | none, none, none, none => none

/-- The number of a class, as a stall's event carries it (R414). -/
def classNum : WeirClass → Nat
  | .q => 0 | .d => 1 | .c => 2 | .m => 3

/-- The oldest write of a requester arrives: the target has accepted it (R408). -/
def arrive (r : Nat) : List (Nat × Nat) → List (Nat × Nat)
  | [] => []
  | w :: l => if w.2 = r then l else w :: arrive r l

/-- A packet at the Stage input (R407, R408, R411, R413, R415): a packet sent on a credit, the header of a write issuing it; or the next one granted and
passed on, its credit returned, the data of a write arriving. A credit that a crossing buffer withholds stalls one attempt to send (R22). -/
def State.weirPacket (s : State) (send : Bool) (r : Fin 64) (cls : WeirClass) (write : Bool) : Host.Outcome State Fault Refusal :=
  if send then
    if s.credit? r.val cls write then
      let s1 := s.weirPut fun w => { w with
        packets := w.packets ++ [⟨r.val, cls, write⟩],
        writes := if write ∧ cls = .q then w.writes ++ [(w.nextId, r.val)] else w.writes,
        nextId := if write ∧ cls = .q then w.nextId + 1 else w.nextId }
      let s2 := s1.useSlot cls write true
      .next (if cls = .q ∨ (cls = .d ∧ write) then s2.noteFull else s2)
    else .next (s.weirPut fun w => { w with withheld := w.withheld.filter (· != r.val) })
  else
    match s.weir.pick with
    | none => .next s
    | some p =>
      let s1 := s.weirPut fun w => { w with
        packets := w.packets.erase p,
        lastD := if p.cls = .d then true else if p.cls = .q then false else w.lastD,
        writes := if p.cls = .d ∧ p.write then arrive p.r w.writes else w.writes }
      .next (s1.useSlot p.cls p.write false)

/-- WEIR_PACKET (R407, R574): a packet at the Stage input, over a link to a peer, or one that this member relays, moves on a credit; or its credit
returns as the receiver passes it on. -/
def execWeirPacket (hop : Hop) (send : Bool) (r : Fin 64) (cls : WeirClass) (write : Bool) (s : State) : Host.Outcome State Fault Refusal :=
  match hop with
  | .stage => s.weirPacket send r cls write
  | .link p kind => .next (if send then s.sendHeld p.val kind.val else s.slotBack p.val kind.val)
  | .relay src dst => .next (s.relay src.val dst.val (classNum cls) send)

/-- WEIR_SYNC (R415, R416): a SYNC of core k over the named requesters, joined to one outstanding. -/
def execWeirSync (r : Sys2Proof.Requester) (k : Fin 5) (mask : BitVec 48) (s : State) : Host.Outcome State Fault Refusal :=
  if r = .watch ∧ k.val = 4 ∨ (∃ j : Fin 4, r = .flow j ∧ k.val = j.val) then
    let m := if s.on (Fd.WEIR_SYNC_DONE k.val) then mask.toNat else mask.toNat ||| s.rd (Fd.WEIR_SYNC_MASK k.val)
    let ids := (s.weir.writes.filter fun w => bit m w.2).map Prod.fst
    .next (((s.wr (Fd.WEIR_SYNC_MASK k.val) m).wr (Fd.WEIR_SYNC_DONE k.val) 0).weirPut fun w =>
      { w with syncs := (w.syncs.filter fun y => y.1 != k.val) ++ [(k.val, ids)] })
  else .next s

/-- WEIR_SYNC_DONE (R415): DONE reads 1 once every covered write has arrived. -/
def execWeirSyncDone (k : Fin 5) (s : State) : Host.Outcome State Fault Refusal :=
  if s.weir.syncs.any fun y => y.1 == k.val && y.2.all fun i => !(s.weir.writes.any fun w => w.1 == i) then
    .next ((s.wr (Fd.WEIR_SYNC_DONE k.val) 1).weirPut fun w => { w with syncs := w.syncs.filter fun y => y.1 != k.val })
  else .next s

end Sys2Proof.Machine
end

