-- ==== Sys2Proof/Machine/Crossing.lean ====
section
/-! DEFINITION. The crossing buffers between the core and the timed islands (01). -/

namespace Sys2Proof.Machine

/-- The pinned event of a crossing-buffer fault: the voltage loop at its upper bound (R22, R503). -/
def State.crossingPinned (s : State) : State :=
  s.raise .hsk (UnitRef.hsk.common 5) 3 ([1, 0xFF] ++ leBytes 4 (s.rd Fd.HSK_VSTAT_NOW_MV) ++ leBytes 4 0xFFFFFFFF)

/-- Sectors of an engine that an overflow touched, the newest first, are unsampled on this pass (R22, R147). -/
def State.touched (s : State) (n : Fin 4) : List Begun → State
  | [] => s
  | b :: l =>
    (match (s.pslot n b.slot).media? with
      | some m => s.unsampled n m b
      | none => s).touched n l

/-- A sample crossing overflows: the sectors being sampled, the averaging pass under way, or RAW's slot, are erased and taken on a later
pass (R22, R147). -/
def State.overflowed (s : State) (n : Fin 4) (sectors : Nat) : State :=
  let l := ((s.eng n).begun.reverse.filter fun b => b.isRead && b.phase == ReadPhase.inline).take sectors
  if sectors = 0 then s
  else if l ≠ [] then s.touched n l
  else match s.averaged n with
    | some b => s.touched n [b]
    | none =>
      match s.runner n with
      | none => s
      | some k =>
        match (s.pslot n k).media? with
        | none => s
        | some m => if m.kind = .raw then s.unsampledRaw n k m else s

/-- CROSSING_BUFFER_FAULT (R22): the sectors an overflow touched are read again on a later pass; an underflow before a sector's first bit starts
no sector, and after it stops the write; any other crossing stalls its requester by withholding its Weir credit. -/
def execCrossingBufferFault (x : Crossing) (s : State) : Host.Outcome State Fault Refusal :=
  let s1 := s.crossingPinned
  match x with
  | .sample n sectors => .next ((s1.overflowed n sectors).drainAll n)
  | .write n true => .next (s1.writeStop n 8)
  | .write n false => .next (s1.updCh n fun c => { c with underflow := true })
  | .other r => .next (s1.weirPut fun w => { w with withheld := w.withheld ++ [r.val] })

end Sys2Proof.Machine
end

