-- ==== Sys2Proof/Machine/Hsk.lean ====
section
/-! DEFINITION. Housekeeping: rounds, sensors, supplies, temperature limits, corrections and the time base (17). -/

namespace Sys2Proof.Machine

/-! ### Medians (R526) -/

/-- Twice the median of a list: the middle value twice, or the sum of the middle two. -/
def median2 (l : List Int) : Int :=
  let m := l.mergeSort fun a b => a ≤ b
  let k := m.length
  if k % 2 = 1 then 2 * m.getD (k / 2) 0 else m.getD (k / 2 - 1) 0 + m.getD (k / 2) 0

/-- The median of a list, half a unit away from zero. -/
def median (l : List Int) : Int := roundDiv (median2 l) 2

/-- The neighbours of a die sensor, by the channels of Table 17.4 (Table 17.5). -/
def neighbours (i : Nat) : List Nat :=
  [[1, 2, 3], [0, 2, 3], [0, 1, 3], [0, 1, 2], [5, 6, 0], [4, 6, 1], [4, 5, 7], [8, 6, 2], [7, 6, 3]].getD i []

/-- Whether a sensor is marked broken. -/
def State.broken (s : State) (i : Nat) : Bool := s.on (Fd.HSK_TEMP_BROKEN i)

/-- The readings of the sensors of a list that are not broken. -/
def State.unbroken (s : State) (raw : Nat → Int) (l : List Nat) : List Int := (l.filter fun j => !s.broken j).map raw

/-! ### Sensors (R526 to R529) -/

/-- Whether a die sensor differs by more than 8.0 °C from its neighbours' median; nothing with fewer than two unbroken neighbours. -/
def State.deviates (s : State) (raw : Nat → Int) (i : Nat) : Option Bool :=
  let l := s.unbroken raw (neighbours i)
  if l.length < 2 then none else some (160 < (2 * raw i - median2 l).natAbs)

/-- The count of deviating rounds after this one. -/
def State.devCount (s : State) (i : Nat) : Option Bool → Nat
  | none => s.rd (Fd.HSK_TEMP_COUNT i)
  | some true => min 3 (s.rd (Fd.HSK_TEMP_COUNT i) + 1)
  | some false => 0

/-- The reported value of a broken die sensor (R527). -/
def State.substitute (s : State) (raw : Nat → Int) (i : Nat) : Int :=
  let l := s.unbroken raw (neighbours i)
  let m := s.unbroken raw ((List.range 9).filter (· != i))
  if l ≠ [] then median l else m.foldl max (m.headD (raw i))

/-- The reported value of a broken TX (R528); with none of its three substitutes unbroken the value is open. -/
def State.substituteTx (s : State) (raw : Nat → Int) : Int :=
  let l := s.unbroken raw [6, 7, 8]
  if l = [] then sgn 16 s.freeVal else median l - sgn 16 (s.rd Fd.HSK_TXOFS_OFS)

/-- What a round makes of one sensor: its count, whether it is broken from now on, and its reported value. -/
structure Reading where
  count : Nat
  broken : Bool
  value : Int
deriving DecidableEq, Repr

/-- One sensor judged by this round's raw readings and by the sensors broken before it (R527). -/
def State.reading (s : State) (raw : Nat → Int) (thermBad : Bool) (i : Nat) : Reading :=
  let c := if s.broken i then s.rd (Fd.HSK_TEMP_COUNT i) else s.devCount i (if i = 9 then some thermBad else s.deviates raw i)
  let b := s.broken i || c == 3
  ⟨c, b, if !b then raw i else if i = 9 then s.substituteTx raw else s.substitute raw i⟩

/-- A sensor's reading published; one newly broken is recorded. -/
def State.publishTemp (s : State) (raw : Nat → Int) (i : Nat) (r : Reading) : State :=
  let new := r.broken && !s.broken i
  let s1 := s.wrs [(Fd.HSK_TEMP_VALUE i, unsgn 16 r.value), (Fd.HSK_TEMP_BROKEN i, b2n r.broken), (Fd.HSK_TEMP_SUBST i, b2n r.broken),
    (Fd.HSK_TEMP_COUNT i, r.count)]
  if new then
    (s1.wr Fd.HSK_INT_SENSOR 1).raise .hsk 0x0D03 4 ([i] ++ leBytes 2 (unsgn 16 (raw i)) ++ leBytes 2 (unsgn 16 r.value))
  else s1

/-- Every sensor's reading published. -/
def State.publishTemps (s : State) (raw : Nat → Int) : List (Nat × Reading) → State
  | [] => s
  | (i, r) :: l => (s.publishTemp raw i r).publishTemps raw l

/-- SENSCLR (R529). -/
def execSensclr (mask : BitVec 10) (s : State) : Host.Outcome State Fault Refusal :=
  .next (((List.range 10).filter (bit mask.toNat)).foldl
    (fun t i => t.wrs [(Fd.HSK_TEMP_BROKEN i, 0), (Fd.HSK_TEMP_SUBST i, 0), (Fd.HSK_TEMP_COUNT i, 0)]) s)

/-! ### Supplies (R525) -/

/-- A supply channel compared with its limits; one event per stretch out of range. -/
def State.checkRange (s : State) (c v : Nat) : State :=
  if v < s.rd (Fd.HSK_LOW_LIM c) ∨ s.rd (Fd.HSK_HIGH_LIM c) < v then
    let s1 := (s.setB Fd.HSK_RANGE_OUT (c - 10)).wr Fd.HSK_INT_RANGE 1
    if s.rdBit Fd.HSK_RANGE_OUT (c - 10) then s1 else s1.raise .hsk 0x0D04 4 ([c] ++ leBytes 2 v)
  else s.clrB Fd.HSK_RANGE_OUT (c - 10)

/-- The supplies of Table 17.4 compared in order. -/
def State.checkRanges (s : State) (v : Nat → Nat) : List Nat → State
  | [] => s
  | c :: l => (s.checkRange c (v c)).checkRanges v l

/-! ### Temperature limits (R530, R531) -/

/-- The highest reported value of the nine die sensors, and the first sensor that reports it. -/
def State.junction (s : State) : Int × Nat :=
  (List.range 9).foldl (fun m i => if m.1 < sgn 16 (s.rd (Fd.HSK_TEMP_VALUE i)) then (sgn 16 (s.rd (Fd.HSK_TEMP_VALUE i)), i) else m)
    (sgn 16 (s.rd (Fd.HSK_TEMP_VALUE 0)), 0)

/-- Whether condition `c` of Table 17.6 holds after a round of value `v`, having held before it or not. -/
def condAfter (c : Nat) (v : Int) (was : Bool) : Bool :=
  if c = 0 then (if was then v < 60 else v < 50)
  else if c = 1 then v < -50
  else if c = 2 then (if was then 670 ≤ v else 700 ≤ v)
  else if c = 3 then (if was then 770 ≤ v else 800 ≤ v)
  else if c = 4 then (if was then 970 ≤ v else 1000 ≤ v)
  else (if was then 1000 ≤ v else 1100 ≤ v)

/-- The severity of a condition's event (Table 18.7). -/
def condSev (c : Nat) : Nat := if c ≤ 2 then 3 else if c ≤ 4 then 5 else 6

/-- One condition judged (R530). -/
def State.judge (s : State) (c : Nat) : State :=
  let (v, sensor) := if c ≤ 3 then (s.tx, 9) else s.junction
  let was := s.rdBit Fd.HSK_TSTAT_COND c
  let now := condAfter c v was
  let s1 := s.wr Fd.HSK_TSTAT_COND (putBit (s.rd Fd.HSK_TSTAT_COND) c now)
  if now && !was then (s1.wr Fd.HSK_INT_TEMP 1).raise .hsk 0x0D02 (condSev c) ([c] ++ leBytes 2 (unsgn 16 v) ++ [sensor]) else s1

/-- TEMP_CONDITION: every condition judged, with the restriction, the write inhibit and the retracts that follow (R530, R531). -/
def State.conditions (s : State) : State :=
  let s1 := (List.range 6).foldl State.judge s
  let c := s1.rd Fd.HSK_TSTAT_COND
  let s2 := s1.wr Fd.HSK_TSTAT_RESTR (b2n (bit c 3 || bit c 4 || bit c 5))
  let s3 := if bit c 0 then four.foldl (fun t n => if t.writing n then t.writeStop n 6 else t) s2 else s2
  if bit c 5 && !s.rdBit Fd.HSK_TSTAT_COND 5 then s3.retractAll 3 four else s3

/-- COLD_HOLD_EXIT (R474): the start begins again once TX reads −5.0 °C or more. -/
def State.coldExit (s : State) : State := if s.spn = 9 ∧ -50 ≤ s.tx then s.leaveHold else s

/-- SMART critical warning bit 1, with the asynchronous event at its rise (R532). -/
def State.smartTemp (s : State) : State :=
  let hi := sgn 17 (featAt 0x04 343 s.host.features) - 273
  let lo := sgn 17 (featAt 0x104 273 s.host.features) - 273
  let b := 10 * hi ≤ s.tx || s.tx < 10 * lo
  let s1 := s.hskPut fun u => { u with smartTemp := b }
  if b && !s.hsk.smartTemp then s1.noticeAll 1 1 0x01 0x02 else s1

/-! ### Corrections (R521, R533) -/

/-- Coil resistance corrected to TX, in mΩ (R521). -/
def coilAt (r t0 t : Int) : Nat := (clampInt 0 0xFFFF (roundDiv (r * (1000000 + 393 * (t - t0))) 1000000)).toNat

/-- CAL.RCOILn of every actuator measured. -/
def State.coils (s : State) : State := s.cal.coil.foldl (fun t p => t.wr (Fd.CAL_RCOILA_MOHM p.1) (coilAt p.2.1 p.2.2 s.tx)) s

/-- A value on a curve of points, ascending: linear between points, the end values beyond them. -/
def onCurve (t : Int) : List (Int × Int) → Int
  | [] => 0
  | [p] => p.2
  | p :: q :: l => if t ≤ p.1 then p.2 else if t < q.1 then p.2 + roundDiv ((q.2 - p.2) * (t - p.1)) (q.1 - p.1).toNat else onCurve t (q :: l)

/-- A curve of the factory calibration row (Table 17.7). -/
def factoryCurve (off : Nat) : List (Int × Int) :=
  let h := fun a => sgn 16 ((Config.factoryRow a).toNat + 256 * (Config.factoryRow (a + 1)).toNat)
  (List.range 32).map fun i => (h (off + 4 * i), h (off + 4 * i + 2))

/-- The four corrections of a round, each from the median of its die's sensors (R533). -/
def State.corrections (s : State) : List Int :=
  let med := fun l => median (l.map fun i => sgn 16 (s.rd (Fd.HSK_TEMP_VALUE i)))
  [onCurve (med [4, 5, 6]) (factoryCurve 0xE00), onCurve (med [4, 5, 6]) (factoryCurve 0xE80), onCurve (med [7, 8]) (factoryCurve 0xF00),
    onCurve (med [0, 1, 2, 3]) (factoryCurve 0xF80)]

/-! ### The round (R524) -/

/-- HSK_ROUND: sampling begins (R524), from P2 on and while the unit serves. -/
def execHskRound (s : State) : Host.Outcome State Fault Refusal :=
  if s.rd Fd.HSK_START_PHASE < 2 ∨ !s.serving .hsk then .next s else .next (s.hskPut fun u => { u with sampling := true })

/-- HSK_ROUND_PUBLISH: the results in one step, and what every rule makes of them (R524 to R533). -/
def execHskRoundPublish (results : List (BitVec 16)) (thermBad : Bool) (s : State) : Host.Outcome State Fault Refusal :=
  if !s.hsk.sampling then .next s
  else
    let v := fun c => (results.getD c 0).toNat
    let raw := fun c => sgn 16 (v c)
    let rs := (List.range 10).map fun i => (i, s.reading raw thermBad i)
    let s0 := if (rs.any fun p => p.1 == 9 && p.2.broken) && s.unbroken raw [6, 7, 8] == [] then s.tookFree else s
    let s1 := ((s0.hskPut fun u => { u with sampling := false }).bump Fd.HSK_ROUND_COUNT).publishTemps raw rs
    let s2 := ((List.range 14).map (· + 10)).foldl (fun t c => t.wr (Fd.HSK_CHAN_VALUE c) (v c)) s1
    let s3 := (s2.wr Fd.HSK_PLSTAT_VMOT_MIN (min (s2.rd Fd.HSK_PLSTAT_VMOT_MIN) (v 10))).checkRanges v ((List.range 9).map (· + 10))
    let s4 := s3.hskPut fun u =>
      { u with
        corr := s3.corrections
        tmax := if u.tmax = [] then rs.map fun p => p.2.value else List.zipWith (fun m p => max m p.2.value) u.tmax rs }
    .next (s4.conditions.coldExit.smartTemp.coils)

/-! ### The time base (R534) -/

/-- REFCLK_LOSS: device time goes on from the local oscillator (R534). -/
def execRefclkLoss (s : State) : Host.Outcome State Fault Refusal :=
  .next (((s.hskPut fun u => { u with refclk := false, locked := false }).wr Fd.HSK_INT_REFLOSS 1).raise .hsk 0x0D05 6 [])

/-- REFCLK_RETURN: the time base locks to it (R534). -/
def execRefclkReturn (s : State) : Host.Outcome State Fault Refusal :=
  .next (s.hskPut fun u => { u with refclk := true, locked := true })

end Sys2Proof.Machine
end

