-- ==== Sys2Proof/Machine/LogPages.lean ====
section
/-! DEFINITION. Get Log Page and Identify: the pages of Table 10.9 and the values of R365 (10, 17, 18, 19). -/

namespace Sys2Proof.Machine

/-! ### Laying out bytes -/

/-- Bytes put into a list at an offset. -/
def putAt (l : List Nat) (o : Nat) (d : List Nat) : List Nat := l.take o ++ d ++ l.drop (o + d.length)

/-- `n` bytes, 0 but for fields at their offsets. -/
def layout (n : Nat) (fields : List (Nat × List Nat)) : List Nat := fields.foldl (fun l f => putAt l f.1 f.2) (List.replicate n 0)

/-- Signed 16 bits, little-endian. -/
def le16s (i : Int) : List Nat := leBytes 2 (unsgn 16 i)

/-! ### Pages 0x01 to 0x0C, 0x81 and 0xBF, which NVMe lays out -/

/-- Error Information: newest first; what the spec does not state of an entry is free (`v`). -/
def State.pageErrors (s : State) (i : Fin 2) (v : Nat) : List Nat :=
  let l := (s.ctrl i).errlog
  (List.range 64).flatMap fun k => match l[k]? with
    | none => List.replicate 64 0
    | some (sq, cid, st) =>
      leBytes 8 (v / 2 ^ (512 * k)) ++ leBytes 2 sq ++ leBytes 2 cid ++ leBytes 2 st ++ leBytes 50 (v / 2 ^ (512 * k + 64))

/-- Whether any part is in a condition of Table 10.2. -/
def State.unreliable (s : State) : Bool :=
  four.any fun n => s.on (Fd.SRV_CTL_FITTED n) && s.rd (phFld n) != 0 && s.rd (phFld n) != 7 &&
    eight.any fun h => s.headOut n h.val || s.readsOnly n h.val

/-- The present composite temperature in K: sensor TX. -/
def State.kelvin (s : State) : Nat := ((sgn 16 (s.rd (Fd.HSK_TEMP_VALUE 9)) + 2730) / 10).toNat

/-- SMART / Health: critical warning bits 1 and 2 and the composite temperature; in a group both go over the members, whose values are
not held here, and all else is as NVMe defines it: free (R336, R532, R570). -/
def State.pageSmart (s : State) (v : Nat) : List Nat :=
  let alone := s.members == 1
  let w := 2 * b2n s.hsk.smartTemp + 4 * b2n s.unreliable
  [w ||| bits v 0 8 &&& (if alone then 9 else 15)] ++ leBytes 2 (if alone then s.kelvin else max s.kelvin (bits v 8 16)) ++
    leBytes 509 (v / 2 ^ 24)

/-- FWREV of the image in a region (Table 21.2). -/
def State.fwRev (s : State) (slot : Nat) : List Nat := s.flashBytes (imageBase slot + 0x10) 8

/-- Firmware Slot Information: the running slot, the one staged, and both revisions. -/
def State.pageFirmware (s : State) : List Nat :=
  let next := if s.host.fwA.staged then 1 else if s.host.fwB.staged then 2 else 0
  layout 512 [(0, [s.rd Fd.TRU_BOOTSEL_RUNNING + 1 + 16 * next]), (8, s.fwRev 0), (16, s.fwRev 1)]

/-- Commands Supported and Effects: the commands of Table 10.3; their effects are as NVMe defines them: free. -/
def pageEffects (v : Nat) : List Nat :=
  (List.range 1024).flatMap fun i =>
    if i < 512 && (if i < 256 then adminOpcode i else ioOpcode (i - 256)) then leBytes 4 (1 + 2 * bits v (32 * i) 31) else leBytes 4 0

/-- Whether namespace `j` of position `p` exists; another member's is not known here (`v`). -/
def State.nsThere (s : State) (v nsid : Nat) : Bool :=
  if nsid / 8 = s.pos then s.nsValid (nsid % 8) else s.members > nsid / 8 && 1 ≤ nsid % 8 && nsid % 8 ≤ 5 && bit v nsid

/-- The ANA state of a namespace's group (Table 10.1). -/
def State.anaState (s : State) (nsid : Nat) : Nat :=
  if nsid / 8 = s.pos then (if s.on Fd.INT_STATUS_PAUSED then 0x0F else 0x01)
  else if s.serves (nsid / 8) then 0x01 else 0x03

/-- Asymmetric Namespace Access: 32 groups, each of one namespace (R334). -/
def State.pageAna (s : State) (v : Nat) : List Nat :=
  leBytes 8 (bits v 64 64) ++ leBytes 2 32 ++ List.replicate 6 0 ++
    ((List.range 32).map (· + 1)).flatMap fun g =>
      let there := s.nsThere v g
      leBytes 4 g ++ leBytes 4 (b2n there) ++ leBytes 8 (bits v (128 + 64 * g) 64) ++ [s.anaState g] ++ List.replicate 15 0 ++
        if there then leBytes 4 g else []

/-- Sanitize Status. -/
def State.pageSanitize (s : State) (v : Nat) : List Nat :=
  let h := s.host
  layout 512 [(0, leBytes 2 (if h.sanitize then v % 65536 else 0xFFFF)), (2, leBytes 2 (if h.sanitize then 2 else if h.sanitizeDone then 1 else 0)),
    (4, leBytes 4 (if h.sanitize || h.sanitizeDone then 4 else 0))]

/-- Changed Zone List of a namespace. -/
def State.pageZones (s : State) (j : Nat) : List Nat :=
  let l := (s.host.changedZones.filter fun z => s.nsFirst j ≤ z && z < s.nsFirst j + s.nsZones j)
  if 511 < l.length then layout 4096 [(0, [0xFF, 0xFF])]
  else layout 4096 ((0, leBytes 2 l.length) :: (List.range l.length).map fun i => (8 + 8 * i, leBytes 8 (65536 * (l.getD i 0 - s.nsFirst j))))

/-! ### Pages 0xC0 to 0xC7 -/

/-- Byte 0 of an actuator in page 0xC0: 0 serving, 1 reads only, 2 out of service, 3 absent, 4 starting (R336, R366, R631). -/
def State.actState (s : State) (n : Fin 4) : Nat :=
  let ph := s.rd (phFld n)
  if ph = 0 ∨ ph = 7 then 4
  else if !s.on (Fd.SRV_CTL_FITTED n) then 3
  else if eight.all fun h => s.headOut n h.val then 2
  else if s.on (Fd.RCH_UCODE_DEGR n) || s.on (Fd.SRV_STATUS_DEGR n) || s.unit (.reach n) == 6 || s.unit (.servo n) == 6 then 1
  else 0

/-- Byte 1: the cause of byte 0. -/
def State.actCause (s : State) (n : Fin 4) : Nat :=
  let st := s.actState n
  if st = 2 then
    if s.on (Fd.CHN_STATUS_FAILED n) then 2
    else if s.unit (.reach n) = 7 then 3
    else if s.rdBit Fd.CAL_FAIL_ITEMS 0 || s.rdBit Fd.CAL_FAIL_ITEMS 1 then 6
    else if s.rd (Fd.RCH_REGION_FAIL n) = 0xFF then 1
    else 5
  else if st = 1 then (if s.on (Fd.RCH_UCODE_DEGR n) || s.unit (.reach n) == 6 then 3 else 4)
  else 0

/-- A set of heads as a byte. -/
def headSet (p : Fin 8 → Bool) : Nat := (eight.map fun h => if p h then 2 ^ h.val else 0).sum

/-- Page 0xC0: service state. -/
def State.pageService (s : State) : List Nat :=
  four.flatMap fun n =>
    let served := fun h : Fin 8 => s.actState n ≤ 1 && s.headOk n h.val && !s.headOut n h.val
    layout 64 [(0, [s.actState n, s.actCause n, headSet served, headSet fun h => served h && s.rd (Fd.CHN_WCFG_AKIND n h.val) == 0]),
      (4, leBytes 4 (s.rd (Fd.RCH_ULEVEL_LEVEL n))), (8, leBytes 8 (s.counted (Fd.RCH_STATUS_MCHK n))),
      (16, leBytes 8 (s.counted (Fd.SRV_CNT3_TAKEOVERS n)))]

/-- A coefficient of the active bank of a unit of an item, and 0 before the first calibration: its quantities in the order of Table 17.3. -/
def State.coeff (s : State) (i a u k : Nat) : Nat := (tget [] s.cal.active (calKey i a u)).getD k 0

/-- Whether an item has given an actuator coefficients, in force or waiting for their swap point. -/
def State.calPassed (s : State) (i : Nat) (n : Fin 4) : Bool :=
  tget [] s.cal.active (calKey i n.val 0) != [] || tget [] s.cal.inactive (calKey i n.val 0) != []

/-- The byte of a slice's quantity `q` (offset, gain, skew), slice `k` of RA or RB; item 6 measures S8 first. -/
def State.sliceCoeff (s : State) (n : Fin 4) (rb : Bool) (k q : Nat) : Nat :=
  s.coeff 6 n.val ((if rb then 9 else 0) + (if k = 8 then 0 else k + 1)) q % 256

/-- The eighteen bytes of a quantity of an actuator's slices. -/
def State.sliceBytes (s : State) (n : Fin 4) (q : Nat) : List Nat :=
  (List.range 18).map fun i => s.sliceCoeff n (9 ≤ i) (i % 9) q

/-- The state of a current-sense amplifier in page 0xC1. -/
def State.csState (s : State) (k : Nat) : Nat :=
  let on := s.on Fd.SPN_STATUS_SPARE
  if k = 4 then (if s.cal.badSpare.contains 2 then 2 else if on then 1 else 3)
  else if s.cal.csFor == some k then 2 else 0

/-- The calendar time in ms of a device time, once the host has set it; 0 before. -/
def State.calendarOf (s : State) (t : Nat) : Nat :=
  match s.host.features.find? fun p => p.1 == 0x0E with
  | some (_, o) => (o + t / 1000) % 2 ^ 48
  | none => 0

/-- Page 0xC1: calibration (Table 17.3). -/
def State.pageCal (s : State) : List Nat :=
  let last := s.rd Fd.CAL_LAST_TIME
  layout 512 ([(0, leBytes 8 s.cal.life), (8, leBytes 4 (s.rd Fd.CAL_COUNT_PASSES)), (12, leBytes 4 s.cal.abandoned), (16, leBytes 8 last),
      (24, leBytes 8 (s.calendarOf last)), (32, leBytes 4 s.cal.skipped)] ++
    (four.map fun n => (64 + 64 * n.val,
      s.sliceBytes n 0 ++ s.sliceBytes n 1 ++ s.sliceBytes n 2 ++
      [b2n (s.on (sparePerm false n)) + 2 * b2n (s.on (sparePerm true n)) + 4 * b2n (s.calPassed 4 n) + 8 * b2n (s.calPassed 5 n), 0] ++ leBytes 4 (s.rd (Fd.CAL_RCOILA_MOHM n)))) ++
    ((List.range 5).map fun k =>
      let u := if k = 4 then 0 else k + 1
      (320 + 8 * k, leBytes 2 (s.coeff 2 0 u 0) ++ leBytes 2 (s.coeff 2 0 u 1) ++ [s.csState k])) ++
    (four.map fun n => (360 + 8 * n.val, leBytes 2 (s.coeff 3 n.val 0 0) ++ leBytes 2 (s.coeff 3 n.val 0 1))) ++
    [(392, leBytes 2 (s.coeff 0 0 0 0) ++ leBytes 2 (s.coeff 0 0 0 1))])

/-- Page 0xC2: the event log (Table 18.5). -/
def State.pageEvents (s : State) : List Nat :=
  let e := s.evr
  let rs := e.ordinary.mergeSort fun a b => a.2.seq ≤ b.2.seq
  let full := e.slots.filter fun p => p.1 == ordinarySlots
  let seqs := rs.map fun p => p.2.seq
  layout 64 [(0, leBytes 4 rs.length), (4, leBytes 4 (seqs.head?.getD 0)), (8, leBytes 4 (seqs.getLast?.getD 0)),
      (12, [b2n (full != []), s.evPhase]), (16, leBytes 8 e.changes), (24, leBytes 6 s.time), (32, leBytes 8 (e.calendar.getD 0)),
      (40, leBytes 4 e.clears)] ++
    (rs ++ full).flatMap fun p => p.2.toBytes (tget 0 e.gens p.1)

/-- Page 0xC3: head counters. -/
def State.pageHeads (s : State) : List Nat :=
  four.flatMap fun n => eight.flatMap fun h =>
    (([Fd.CHN_HCNT0_SYNC_MISS n h, Fd.CHN_HCNT0_FLY_OK n h, Fd.CHN_HCNT1_ALT_OK n h, Fd.CHN_HCNT1_TA n h, Fd.CHN_HCNT2_INLINE_FAIL n h,
      Fd.CHN_HCNT2_UNSAMPLED n h, Fd.CHN_HCNT3_BLK_LOSS n h, Fd.CHN_HCNT3_DEEP_OK n h, Fd.CHN_HWCNT0_RBFAIL n h, Fd.CHN_HWCNT0_STOPS n h,
      Fd.CHN_HWCNT1_ATTN n h, Fd.CHN_HWCNT1_PINS n h]).flatMap fun f => leBytes 4 (s.counted f)) ++ List.replicate 16 0

/-- Page 0xC4: servo counters. -/
def State.pageServo (s : State) : List Nat :=
  four.flatMap fun n =>
    (([Fd.SRV_CNT0_SEEKS n, Fd.SRV_CNT0_XSEEKS n, Fd.SRV_CNT1_HOPS n, Fd.SRV_CNT1_HOPFAIL n, Fd.SRV_CNT2_CORR n, Fd.SRV_CNT2_SEEKERR n,
      Fd.SRV_CNT3_SHOCKS n, Fd.SRV_CNT3_TAKEOVERS n]).flatMap fun f => leBytes 4 (s.counted f)) ++ List.replicate 32 0

/-- Page 0xC5: zones with VERIFY, RZR or a reported state of Table 10.2. -/
def State.pageFlags (s : State) : List Nat :=
  let l := s.zone.zones.filter fun p => p.2.verify || p.2.rzr || s.shownState p.2 != p.2.st.code
  leBytes 8 l.length ++ l.flatMap fun p =>
    leBytes 4 p.1 ++ leBytes 4 (((s.nsOfZone p.1).map s.nsid).getD 0) ++ leBytes 4 p.2.pinwp ++
      [s.shownState p.2, p.2.flags (s.hasRun p.1), 0, 0]

/-- Page 0xC6: the Confluence group (Table 19.6). -/
def State.pageGroup (s : State) : List Nat :=
  layout 256 ([(0, [s.rd Fd.CFX_STATUS_GID, s.members, s.pos, (s.lead?).getD 0xFF, s.role]), (8, leBytes 8 (s.rd Fd.CFX_VERSION_VER))] ++
    (List.range 4).map fun p =>
      let q := s.peer p
      let st := if s.members ≤ p then 0 else if p = s.pos then 1 else if s.rdBit Fd.CFX_PEERS_LOST p then 2
        else if s.rdBit Fd.CFX_PEERS_RELAYED p then 3 else if s.hears p then 1 else 0
      let mouth := if p = s.pos then s.on Fd.CFX_STATUS_MOUTH else q.role != 0
      let links := ((List.range 3).map fun k =>
        if s.on (Fd.CFX_LINK_UP k) && (p == s.pos || s.rd (Fd.CFX_LINK_PEER k) == p) then 2 ^ k else 0).sum
      (64 + 48 * p, [st, b2n mouth, links, 0] ++ leBytes 4 q.losses ++ leBytes 8 q.fwdTo ++ leBytes 8 q.fwdFrom ++ leBytes 8 q.heard))

/-- Page 0xC7: power and temperature. -/
def State.pagePower (s : State) : List Nat :=
  let now := (List.range 10).map fun i => sgn 16 (s.rd (Fd.HSK_TEMP_VALUE i))
  let top := if s.hsk.tmax = [] then now else s.hsk.tmax
  layout 512 [(0, (List.range 5).flatMap fun p => leBytes 8 (tget 0 s.host.psTime p / 1000000)), (40, leBytes 8 (s.counted Fd.SPN_CNT0_STARTS)),
    (48, now.flatMap le16s), (68, top.flatMap le16s), (88, leBytes 8 (s.counted Fd.HSK_VPINS_COUNT))]

/-! ### GET_LOG_PAGE -/

/-- Whether a page is one member's own, which LSP selects (R570). -/
def memberPage (lid : Nat) : Bool := (0xC0 ≤ lid && lid ≤ 0xC5) || lid == 0xC7

/-- A page of this member at this instant, `v` being the free value of what the spec leaves of it; none where there is no such page. -/
def State.page (s : State) (x : Ctx) (lid v : Nat) : Option (List Nat) :=
  match lid with
  | 0x01 => some (s.pageErrors x.ctl v)
  | 0x02 => some (s.pageSmart v)
  | 0x03 => some s.pageFirmware
  | 0x04 => some (layout 4096 ((List.range s.host.changedNs.length).map fun i => (4 * i, leBytes 4 (s.host.changedNs.getD i 0))))
  | 0x05 => some (pageEffects v)
  | 0x0C => some (s.pageAna v)
  | 0x81 => some (s.pageSanitize v)
  | 0xBF => (s.nsLocal x.nsid).bind fun j => if s.nsZoned j then some (s.pageZones j) else none
  | 0xC0 => some s.pageService
  | 0xC1 => some s.pageCal
  | 0xC2 => some s.pageEvents
  | 0xC3 => some s.pageHeads
  | 0xC4 => some s.pageServo
  | 0xC5 => some s.pageFlags
  | 0xC6 => some s.pageGroup
  | 0xC7 => some s.pagePower
  | _ => none

/-- The part of a page that a command asks for: Log Page Offset, and a number of dwords; zeros beyond its end. -/
def pagePart (x : Ctx) (l : List Nat) : List Nat :=
  let n := 4 * (bits (x.dw 10) 16 16 + 65536 * bits (x.dw 11) 0 16 + 1)
  ((l.drop (x.dw 12 + 2 ^ 32 * x.dw 13)) ++ List.replicate n 0).take n

/-- Reading a list of changes clears it, unless the event is retained. -/
def State.pageRead (s : State) (x : Ctx) (lid : Nat) : State :=
  if bit (x.dw 10) 15 then s
  else if lid = 0x04 then s.hput fun h => { h with changedNs := [] }
  else if lid = 0xBF then
    match s.nsLocal x.nsid with
    | some j => s.hput fun h => { h with changedZones := h.changedZones.filter fun z => !(s.nsFirst j ≤ z && z < s.nsFirst j + s.nsZones j) }
    | none => s
  else s

/-- This member's page returned. -/
def State.ownPage (s : State) (c : Nat) (x : Ctx) (lid : Nat) : State :=
  match s.page x lid s.freeVal with
  | none => s.endAll c 0 0x02
  | some l =>
    if l.length < x.dw 12 + 2 ^ 32 * x.dw 13 ∨ x.dw 12 % 4 ≠ 0 then s.endAll c 0 0x02
    else (s.tookFree.pageRead x lid).answerData c x (pagePart x l)

/-- GET_LOG_PAGE (R366): a snapshot of the page; one of another member goes to it as a forwarded command, where it is heard (R570). -/
def execGetLogPage (c : Fin 65536) (s : State) : Host.Outcome State Fault Refusal :=
  s.adm c.val 0x02 fun x =>
    let lid := x.dw 10 % 256
    let lsp := bits (x.dw 10) 8 3
    if 255 < bits (x.dw 11) 0 16 * 64 + bits (x.dw 10) 16 16 / 1024 then s.endAll c.val 0 0x02
    else if !memberPage lid ∨ lsp = 0 ∨ x.origin.isSome then s.ownPage c.val x lid
    else if s.members < lsp ∨ s.members = 1 then s.endAll c.val 0 0x02
    else if lsp - 1 = s.pos then s.ownPage c.val x lid
    else if !s.hears (lsp - 1) then s.endAll c.val 3 0x02
    else if s.rd Fd.CFX_FWDRES_CTX ≤ s.forwarded (lsp - 1) then s
    else (s.ctxUpd c.val fun y => { y with fwdTo := some (lsp - 1) }).forward c.val (lsp - 1) { x with fwdTo := some (lsp - 1) }

/-! ### IDENTIFY (R333, R361, R364, R365, R562) -/

/-- Bytes of the factory calibration row (Table 14.3). -/
def factoryBytes (off n : Nat) : List Nat := (List.range n).map fun i => (Config.factoryRow (off + i)).toNat

/-- The two lowercase hexadecimal digits of a byte, in ASCII. -/
def hexByte (b : Nat) : List Nat :=
  let d := fun n => if n < 10 then 48 + n else 87 + n
  [d (b / 16), d (b % 16)]

/-- The UUID as 36 characters in the form 8-4-4-4-12. -/
def uuidText (l : List Nat) : List Nat :=
  let part := fun a n => ((l.drop a).take n).flatMap hexByte
  part 0 4 ++ [45] ++ part 4 2 ++ [45] ++ part 6 2 ++ [45] ++ part 8 2 ++ [45] ++ part 10 6

/-- The string that SUBNQN begins with, in ASCII. -/
def nqnText : List Nat := "nqn.2014-08.org.nvmexpress:uuid:".toList.map Char.toNat

/-- SUBNQN and the serial number: of this member's row, or of position 0's, which another member does not hold (R562). -/
def State.groupIdentity (s : State) (v : Nat) : List Nat × List Nat :=
  let mine := s.members == 1 || s.pos == 0
  (nqnText ++ uuidText (if mine then factoryBytes 0x54 16 else leBytes 16 v), if mine then factoryBytes 0x10 20 else leBytes 20 (v / 2 ^ 128))

/-- A power state descriptor: MP in 0.01 W, whether it is not operational, ENLAT and EXLAT in µs (Table 10.5). -/
def powerState (mp enlat exlat : Nat) (off : Bool) : List Nat :=
  leBytes 2 mp ++ [0, 2 * b2n off] ++ leBytes 4 enlat ++ leBytes 4 exlat ++ List.replicate 20 0

/-- Identify Controller: the values of R365, in NVMe's layout; every other field is 0. -/
def State.idController (s : State) (i : Fin 2) (v : Nat) : List Nat :=
  let (nqn, sn) := s.groupIdentity v
  layout 4096 [(0, factoryBytes 0x4C 2 ++ factoryBytes 0x50 2), (4, sn), (24, factoryBytes 0x24 40), (76, [0x0B, 8]),
    (78, leBytes 2 (1 + 2 * s.pos + i.val)), (80, leBytes 4 0x00020000), (84, leBytes 4 30500000), (88, leBytes 4 8000000),
    (258, [7, 7, 0x14, 0, 63, 4, 0, 1]), (266, leBytes 2 343 ++ leBytes 2 353 ++ leBytes 2 8), (328, leBytes 4 1), (342, [10, 0x55]),
    (344, leBytes 4 32 ++ leBytes 4 32), (516, leBytes 4 32), (520, leBytes 2 0xC8), (525, [0x06]), (768, nqn),
    (2048, powerState 1250 0 0 false ++ powerState 900 1000 1000 false ++ powerState 310 250000 300000 true ++
      powerState 120 15000000 30000000 true ++ powerState 25 15100000 30500000 true)]

/-- Identify Namespace of a local namespace: size, format, sharing, ANA group and the formats of R361. -/
def State.idNamespace (s : State) (j : Nat) : List Nat :=
  let n := s.nsSize j
  let fmt := fun ms => leBytes 2 ms ++ [12, 0]
  layout 4096 [(0, leBytes 8 n ++ leBytes 8 n ++ leBytes 8 n), (25, [2, s.rd (Fd.INT_NSCFG_LBAF j), 3, 7, s.rd (Fd.INT_NSCFG_PIT j), 1]),
    (92, leBytes 4 (s.nsid j)), (128, fmt 0 ++ fmt 8 ++ fmt 16)]

/-- The ZNS-specific Identify Namespace (R365). -/
def idZoned : List Nat :=
  let ext := leBytes 8 65536 ++ List.replicate 8 0
  layout 4096 [(2, leBytes 2 1), (4, leBytes 4 255 ++ leBytes 4 127), (2816, ext ++ ext ++ ext)]

/-- The NSIDs that exist in the group. -/
def State.nsids (s : State) (v : Nat) : List Nat := ((List.range 32).map (· + 1)).filter (s.nsThere v)

/-- A list of NSIDs above one. -/
def nsList (l : List Nat) (above : Nat) : List Nat :=
  layout 4096 ((List.range (l.filter (above < ·)).length).map fun i => (4 * i, leBytes 4 ((l.filter (above < ·)).getD i 0)))

/-- The controllers of the group, from an identifier on: both ports of every member's mouth, this member's as its strap X4 gives; which of
the others are mouths is what they have been heard to be. -/
def State.idControllers (s : State) (from' : Nat) : List Nat :=
  let ids := ((List.range s.members).flatMap fun q =>
    if q = s.pos then (if s.on Fd.INT_CTL_X4 then [1 + 2 * q] else [1 + 2 * q, 2 + 2 * q])
    else if (s.peer q).role = 0 then [] else [1 + 2 * q, 2 + 2 * q]).filter (from' ≤ ·)
  layout 4096 [(0, leBytes 2 ids.length ++ ids.flatMap (leBytes 2))]

/-- A structure of one namespace: this member's, or, of another member, one whose values are not held here. -/
def State.idOf (s : State) (nsid v : Nat) (mine : Nat → List Nat) : Option (List Nat) :=
  match s.nsLocal nsid with
  | some j => some (mine j)
  | none =>
    if nsid = 0 ∨ 32 < nsid then none
    else if nsid / 8 ≠ s.pos ∧ s.nsThere v nsid then some (leBytes 4096 (v / 2 ^ 64)) else some (List.replicate 4096 0)

/-- The structure of a CNS value, or the status code that refuses it. -/
def State.identify (s : State) (x : Ctx) (v : Nat) : Except Nat (List Nat) :=
  let cns := x.dw 10 % 256
  let csi := x.dw 11 / 2 ^ 24
  let ns := fun f => match s.idOf x.nsid v f with
    | some l => Except.ok l
    | none => .error 0x0B
  if cns = 0x00 ∨ cns = 0x11 then
    (if x.nsid = 0xFFFFFFFF then .ok (layout 4096 [(25, [2, 0, 3, 7, 0, 1]), (128, leBytes 2 0 ++ [12, 0] ++ leBytes 2 8 ++ [12, 0] ++ leBytes 2 16 ++ [12, 0])])
    else ns s.idNamespace)
  else if cns = 0x01 then .ok (s.idController x.ctl v)
  else if cns = 0x02 ∨ cns = 0x10 then (if 0xFFFFFFFE ≤ x.nsid then .error 0x0B else .ok (nsList (s.nsids v) x.nsid))
  else if cns = 0x03 then ns fun j => layout 4096 [(0, [4, 1, 0, 0, if s.nsZoned j then 2 else 0])]
  else if cns = 0x05 then
    (if csi = 0 then ns fun _ => List.replicate 4096 0
    else if csi = 2 then ns fun j => if s.nsZoned j then idZoned else List.replicate 4096 0
    else .error 0x02)
  else if cns = 0x06 then
    (if csi = 0 then .ok (List.replicate 4096 0) else if csi = 2 then .ok (layout 4096 [(0, [8])]) else .error 0x02)
  else if cns = 0x08 then ns fun j => layout 4096 [(1, [1]), (4, leBytes 4 (s.nsid j)), (14, [b2n (s.rdBit Fd.INT_NSREADY_READY (j - 1))])]
  else if cns = 0x12 then ns fun _ => s.idControllers (bits (x.dw 10) 16 16)
  else if cns = 0x13 then .ok (s.idControllers (bits (x.dw 10) 16 16))
  else .error 0x02

/-- IDENTIFY (R365). -/
def execIdentify (c : Fin 65536) (s : State) : Host.Outcome State Fault Refusal :=
  s.adm c.val 0x06 fun x => match s.identify x s.freeVal with
    | .ok l => s.tookFree.answerData c.val x l
    | .error sc => s.endAll c.val 0 sc

end Sys2Proof.Machine
end

