-- ==== Sys2Proof/Machine/RegTable.lean ====
section
/-! DEFINITION. The register map as data: every field of every register table with its access type (R8), the rule by which a write
outside its range is stored, and whether its write acts as a row of the table of operations does. A register access looks its window
and offset up here (R10, R581). -/

namespace Sys2Proof.Machine

/-- The access types of Table 00.6 (R8). -/
inductive Access where
  | rw | ro | wo | w1c | rc | rsh
deriving DecidableEq, Repr

/-- How a write is stored, as the Effect column of a register map says. -/
inductive WriteRule where
  /-- The value written. -/
  | any
  /-- A write of 0 stores `d`. -/
  | zeroTo (d : Nat)
  /-- A write outside `lo` to `hi` stores `d`. -/
  | outside (lo hi d : Nat)
  /-- A write outside `lo` to `hi` stores the nearer end. -/
  | clamp (lo hi : Nat)
  /-- The value depends on another field: `State.specialValue` says how. -/
  | special
deriving DecidableEq, Repr

/-- The value a write rule stores for a written value. -/
def WriteRule.apply : WriteRule → Nat → Nat
  | .any, v => v
  | .zeroTo d, v => if v = 0 then d else v
  | .outside lo hi d, v => if lo ≤ v ∧ v ≤ hi then v else d
  | .clamp lo hi, v => max lo (min v hi)
  | .special, v => v

/-- One field of a register map: first window and number of windows, offset with up to two strides and counts, register width,
access type, write rule, whether a write acts (`State.acts`) in place of being stored, and the descriptor of the field at an index. -/
structure RegRow where
  win : Nat
  nwin : Nat
  off : Nat
  s1 : Nat
  n1 : Nat
  s2 : Nat
  n2 : Nat
  width : Nat
  acc : Access
  rule : WriteRule
  own : Bool
  fd : Nat → Nat → Nat → Fld

/-- One field of a management slot (Tables 01.5 to 01.10). -/
structure SlotRow where
  off : Nat
  acc : Access
  rule : WriteRule
  own : Bool
  fd : Nat → Nat → Fld

/-- Fields of RCH registers, part 1. -/
def regRowsRch1 : List RegRow := [
  ⟨16, 4, 0x0000, 0, 1, 0, 1, 32, .rw, .any, true, fun u _ _ => Fd.RCH_CTL_EN u⟩,
  ⟨16, 4, 0x0000, 0, 1, 0, 1, 32, .rw, .any, false, fun u _ _ => Fd.RCH_CTL_SSTEP u⟩,
  ⟨16, 4, 0x0008, 0, 1, 0, 1, 32, .ro, .any, false, fun u _ _ => Fd.RCH_STATUS_RUNSLOT u⟩,
  ⟨16, 4, 0x0008, 0, 1, 0, 1, 32, .ro, .any, false, fun u _ _ => Fd.RCH_STATUS_RUNNING u⟩,
  ⟨16, 4, 0x0008, 0, 1, 0, 1, 32, .ro, .any, false, fun u _ _ => Fd.RCH_STATUS_OWNED u⟩,
  ⟨16, 4, 0x0008, 0, 1, 0, 1, 32, .ro, .any, false, fun u _ _ => Fd.RCH_STATUS_MCHK u⟩,
  ⟨16, 4, 0x0010, 0, 1, 0, 1, 32, .w1c, .any, false, fun u _ _ => Fd.RCH_SIGNALS_SIG u⟩,
  ⟨16, 4, 0x0010, 0, 1, 0, 1, 32, .wo, .any, true, fun u _ _ => Fd.RCH_SIGNALS_SET u⟩,
  ⟨16, 4, 0x0018, 0, 1, 0, 1, 32, .w1c, .any, false, fun u _ _ => Fd.RCH_FWSIG_SIG u⟩,
  ⟨16, 4, 0x0020, 0, 1, 0, 1, 32, .w1c, .any, false, fun u _ _ => Fd.RCH_INT_HALT u⟩,
  ⟨16, 4, 0x0020, 0, 1, 0, 1, 32, .w1c, .any, false, fun u _ _ => Fd.RCH_INT_TRAP u⟩,
  ⟨16, 4, 0x0020, 0, 1, 0, 1, 32, .w1c, .any, false, fun u _ _ => Fd.RCH_INT_FAULT u⟩,
  ⟨16, 4, 0x0020, 0, 1, 0, 1, 32, .w1c, .any, false, fun u _ _ => Fd.RCH_INT_MCHK u⟩,
  ⟨16, 4, 0x0020, 0, 1, 0, 1, 32, .w1c, .any, false, fun u _ _ => Fd.RCH_INT_SIGF u⟩,
  ⟨16, 4, 0x0020, 0, 1, 0, 1, 32, .w1c, .any, false, fun u _ _ => Fd.RCH_INT_APPREF u⟩,
  ⟨16, 4, 0x0028, 0, 1, 0, 1, 32, .rw, .any, false, fun u _ _ => Fd.RCH_INTEN_EN u⟩,
  ⟨16, 4, 0x0030, 0, 1, 0, 1, 32, .rw, (.zeroTo 0x32), false, fun u _ _ => Fd.RCH_LIMIT_MOTION_MS u⟩,
  ⟨16, 4, 0x0038, 0, 1, 0, 1, 32, .wo, .any, true, fun u _ _ => Fd.RCH_REGION_LOAD u⟩,
  ⟨16, 4, 0x0038, 0, 1, 0, 1, 32, .ro, .any, false, fun u _ _ => Fd.RCH_REGION_VALID u⟩,
  ⟨16, 4, 0x0038, 0, 1, 0, 1, 32, .ro, .any, false, fun u _ _ => Fd.RCH_REGION_FAIL u⟩,
  ⟨16, 4, 0x0100, 64, 4, 0, 1, 32, .wo, .any, true, fun u i _ => Fd.RCH_SLOT_CTL_START u i⟩,
  ⟨16, 4, 0x0100, 64, 4, 0, 1, 32, .wo, .any, true, fun u i _ => Fd.RCH_SLOT_CTL_RESUME u i⟩,
  ⟨16, 4, 0x0100, 64, 4, 0, 1, 32, .wo, .any, true, fun u i _ => Fd.RCH_SLOT_CTL_STOP u i⟩,
  ⟨16, 4, 0x0100, 64, 4, 0, 1, 32, .wo, .any, true, fun u i _ => Fd.RCH_SLOT_CTL_RESTART u i⟩,
  ⟨16, 4, 0x0100, 64, 4, 0, 1, 32, .wo, .any, true, fun u i _ => Fd.RCH_SLOT_CTL_KILL u i⟩,
  ⟨16, 4, 0x0104, 64, 4, 0, 1, 32, .ro, .any, false, fun u i _ => Fd.RCH_SLOT_STATE_STATE u i⟩,
  ⟨16, 4, 0x0104, 64, 4, 0, 1, 32, .ro, .any, false, fun u i _ => Fd.RCH_SLOT_STATE_TRAPCODE u i⟩,
  ⟨16, 4, 0x0108, 64, 4, 0, 1, 32, .rw, .any, false, fun u i _ => Fd.RCH_SLOT_ENTRY_ENTRY u i⟩,
  ⟨16, 4, 0x0110, 64, 4, 0, 1, 32, .ro, .any, false, fun u i _ => Fd.RCH_SLOT_PC_PC u i⟩,
  ⟨16, 4, 0x0118, 64, 4, 0, 1, 64, .ro, .any, false, fun u i _ => Fd.RCH_SLOT_ST_ST u i⟩]

/-- Fields of RCH registers, part 2. -/
def regRowsRch2 : List RegRow := [
  ⟨16, 4, 0x0120, 64, 4, 0, 1, 64, .wo, .any, true, fun u i _ => Fd.RCH_SLOT_APPEND_ENTRY u i⟩,
  ⟨16, 4, 0x0128, 64, 4, 0, 1, 32, .ro, .any, false, fun u i _ => Fd.RCH_SLOT_APPST_RESULT u i⟩,
  ⟨16, 4, 0x0040, 0, 1, 0, 1, 32, .ro, .any, false, fun u _ _ => Fd.RCH_UCODE_LOCK u⟩,
  ⟨16, 4, 0x0040, 0, 1, 0, 1, 32, .ro, .any, false, fun u _ _ => Fd.RCH_UCODE_ENTRIES u⟩,
  ⟨16, 4, 0x0040, 0, 1, 0, 1, 32, .ro, .any, false, fun u _ _ => Fd.RCH_UCODE_WORDS u⟩,
  ⟨16, 4, 0x0040, 0, 1, 0, 1, 32, .ro, .any, false, fun u _ _ => Fd.RCH_UCODE_DEGR u⟩,
  ⟨16, 4, 0x0044, 0, 1, 0, 1, 32, .ro, .any, false, fun u _ _ => Fd.RCH_ULEVEL_LEVEL u⟩,
  ⟨16, 4, 0x0048, 0, 1, 0, 1, 32, .ro, .any, false, fun u _ _ => Fd.RCH_MCINFO_UADDR u⟩,
  ⟨16, 4, 0x0048, 0, 1, 0, 1, 32, .ro, .any, false, fun u _ _ => Fd.RCH_MCINFO_CAUSE u⟩,
  ⟨16, 4, 0x0048, 0, 1, 0, 1, 32, .ro, .any, false, fun u _ _ => Fd.RCH_MCINFO_SLOT u⟩,
  ⟨16, 4, 0x0048, 0, 1, 0, 1, 32, .ro, .any, false, fun u _ _ => Fd.RCH_MCINFO_LO u⟩,
  ⟨16, 4, 0x0048, 0, 1, 0, 1, 32, .ro, .any, false, fun u _ _ => Fd.RCH_MCINFO_HI u⟩,
  ⟨16, 4, 0x004C, 0, 1, 0, 1, 32, .ro, .any, false, fun u _ _ => Fd.RCH_MCSTRIKE_UADDR u⟩,
  ⟨16, 4, 0x004C, 0, 1, 0, 1, 32, .ro, .any, false, fun u _ _ => Fd.RCH_MCSTRIKE_VALID u⟩,
  ⟨16, 4, 0x0800, 4, 64, 0, 1, 32, .ro, .any, false, fun u i _ => Fd.RCH_MATCH_ENTRY u i⟩,
  ⟨16, 4, 0x8000, 0, 1, 0, 1, 32, .rw, .any, false, fun u _ _ => Fd.RCH_ZCTL_EN u⟩,
  ⟨16, 4, 0x8000, 0, 1, 0, 1, 32, .wo, .any, true, fun u _ _ => Fd.RCH_ZCTL_LOAD u⟩,
  ⟨16, 4, 0x8000, 0, 1, 0, 1, 32, .rw, .any, true, fun u _ _ => Fd.RCH_ZCTL_RECOV u⟩,
  ⟨16, 4, 0x8008, 0, 1, 0, 1, 32, .ro, .any, false, fun u _ _ => Fd.RCH_ZSTAT_OPEN u⟩,
  ⟨16, 4, 0x8008, 0, 1, 0, 1, 32, .ro, .any, false, fun u _ _ => Fd.RCH_ZSTAT_ACTIVE u⟩,
  ⟨16, 4, 0x8008, 0, 1, 0, 1, 32, .ro, .any, false, fun u _ _ => Fd.RCH_ZSTAT_RUNS u⟩,
  ⟨16, 4, 0x8008, 0, 1, 0, 1, 32, .ro, .any, false, fun u _ _ => Fd.RCH_ZSTAT_LOADED u⟩,
  ⟨16, 4, 0x8008, 0, 1, 0, 1, 32, .ro, .any, false, fun u _ _ => Fd.RCH_ZSTAT_LOADFAIL u⟩,
  ⟨16, 4, 0x8010, 0, 1, 0, 1, 64, .rw, .any, false, fun u _ _ => Fd.RCH_ZBASE_BASE u⟩,
  ⟨16, 4, 0x8018, 0, 1, 0, 1, 32, .rw, (.clamp 0 0x7FC00), false, fun u _ _ => Fd.RCH_ZCOUNT_COUNT u⟩,
  ⟨16, 4, 0x8020, 0, 1, 0, 1, 32, .rw, .any, true, fun u _ _ => Fd.RCH_ZQRY_ZONE u⟩,
  ⟨16, 4, 0x8028, 0, 1, 0, 1, 64, .ro, .any, false, fun u _ _ => Fd.RCH_ZQRES_STATE u⟩,
  ⟨16, 4, 0x8028, 0, 1, 0, 1, 64, .ro, .any, false, fun u _ _ => Fd.RCH_ZQRES_FLAGS u⟩,
  ⟨16, 4, 0x8028, 0, 1, 0, 1, 64, .ro, .any, false, fun u _ _ => Fd.RCH_ZQRES_VALID u⟩,
  ⟨16, 4, 0x8028, 0, 1, 0, 1, 64, .ro, .any, false, fun u _ _ => Fd.RCH_ZQRES_OWNED u⟩]

/-- Fields of RCH registers, part 3. -/
def regRowsRch3 : List RegRow := [
  ⟨16, 4, 0x8028, 0, 1, 0, 1, 64, .ro, .any, false, fun u _ _ => Fd.RCH_ZQRES_WP u⟩,
  ⟨16, 4, 0x8028, 0, 1, 0, 1, 64, .ro, .any, false, fun u _ _ => Fd.RCH_ZQRES_PP u⟩,
  ⟨16, 4, 0x8030, 0, 1, 0, 1, 32, .w1c, .any, false, fun u _ _ => Fd.RCH_ZINT_VERIFY u⟩,
  ⟨16, 4, 0x8030, 0, 1, 0, 1, 32, .w1c, .any, false, fun u _ _ => Fd.RCH_ZINT_RDONLY u⟩,
  ⟨16, 4, 0x8030, 0, 1, 0, 1, 32, .w1c, .any, false, fun u _ _ => Fd.RCH_ZINT_JFULL u⟩,
  ⟨16, 4, 0x8030, 0, 1, 0, 1, 32, .w1c, .any, false, fun u _ _ => Fd.RCH_ZINT_LOADFAIL u⟩,
  ⟨16, 4, 0x8038, 0, 1, 0, 1, 32, .rw, .any, false, fun u _ _ => Fd.RCH_ZFLAGOP_ZONE u⟩,
  ⟨16, 4, 0x8038, 0, 1, 0, 1, 32, .wo, .any, true, fun u _ _ => Fd.RCH_ZFLAGOP_CLRVFY u⟩,
  ⟨16, 4, 0x8038, 0, 1, 0, 1, 32, .wo, .any, true, fun u _ _ => Fd.RCH_ZFLAGOP_SETRZR u⟩,
  ⟨16, 4, 0x8034, 0, 1, 0, 1, 32, .rw, .any, false, fun u _ _ => Fd.RCH_ZINTEN_EN u⟩,
  ⟨16, 1, 0x8040, 0, 1, 0, 1, 32, .rw, .any, true, fun u _ _ => Fd.RCH_JCTL_EN u⟩,
  ⟨16, 1, 0x8048, 0, 1, 0, 1, 32, .ro, .any, false, fun u _ _ => Fd.RCH_JSTAT_FREE u⟩,
  ⟨16, 1, 0x8048, 0, 1, 0, 1, 32, .ro, .any, false, fun u _ _ => Fd.RCH_JSTAT_BUSY u⟩,
  ⟨16, 1, 0x8048, 0, 1, 0, 1, 32, .rsh, .any, false, fun u _ _ => Fd.RCH_JSTAT_ERR u⟩,
  ⟨16, 1, 0x8050, 0, 1, 0, 1, 64, .rw, .special, false, fun u _ _ => Fd.RCH_JSEQ_NEXT u⟩,
  ⟨16, 4, 0x9000, 16, 64, 4, 4, 32, .rw, .any, false, fun u i j => Fd.RCH_CEXT_WORD u i j⟩]

/-- Fields of CHN registers, part 1. -/
def regRowsChn1 : List RegRow := [
  ⟨20, 4, 0x0000, 0, 1, 0, 1, 32, .rw, .any, false, fun u _ _ => Fd.CHN_CTL_EN u⟩,
  ⟨20, 4, 0x0000, 0, 1, 0, 1, 32, .rw, .any, false, fun u _ _ => Fd.CHN_CTL_ADAPT u⟩,
  ⟨20, 4, 0x0000, 0, 1, 0, 1, 32, .rw, .any, false, fun u _ _ => Fd.CHN_CTL_TAEN u⟩,
  ⟨20, 4, 0x0000, 0, 1, 0, 1, 32, .rw, .any, false, fun u _ _ => Fd.CHN_CTL_ALT u⟩,
  ⟨20, 4, 0x0000, 0, 1, 0, 1, 32, .rw, .any, false, fun u _ _ => Fd.CHN_CTL_FLY u⟩,
  ⟨20, 4, 0x0000, 0, 1, 0, 1, 32, .rw, .any, false, fun u _ _ => Fd.CHN_CTL_STORE_EN u⟩,
  ⟨20, 4, 0x0008, 0, 1, 0, 1, 32, .ro, .any, false, fun u _ _ => Fd.CHN_STATUS_BLK u⟩,
  ⟨20, 4, 0x0008, 0, 1, 0, 1, 32, .ro, .any, false, fun u _ _ => Fd.CHN_STATUS_HEAD u⟩,
  ⟨20, 4, 0x0008, 0, 1, 0, 1, 32, .ro, .any, false, fun u _ _ => Fd.CHN_STATUS_ACQ u⟩,
  ⟨20, 4, 0x0008, 0, 1, 0, 1, 32, .ro, .any, false, fun u _ _ => Fd.CHN_STATUS_FAILED u⟩,
  ⟨20, 4, 0x0008, 0, 1, 0, 1, 32, .ro, .any, false, fun u _ _ => Fd.CHN_STATUS_SPA u⟩,
  ⟨20, 4, 0x0008, 0, 1, 0, 1, 32, .ro, .any, false, fun u _ _ => Fd.CHN_STATUS_SPA_FOR u⟩,
  ⟨20, 4, 0x0008, 0, 1, 0, 1, 32, .ro, .any, false, fun u _ _ => Fd.CHN_STATUS_SPA_PERM u⟩,
  ⟨20, 4, 0x0008, 0, 1, 0, 1, 32, .ro, .any, false, fun u _ _ => Fd.CHN_STATUS_SPB u⟩,
  ⟨20, 4, 0x0008, 0, 1, 0, 1, 32, .ro, .any, false, fun u _ _ => Fd.CHN_STATUS_SPB_FOR u⟩,
  ⟨20, 4, 0x0008, 0, 1, 0, 1, 32, .ro, .any, false, fun u _ _ => Fd.CHN_STATUS_SPB_PERM u⟩,
  ⟨20, 4, 0x0008, 0, 1, 0, 1, 32, .ro, .any, false, fun u _ _ => Fd.CHN_STATUS_STORED u⟩,
  ⟨20, 4, 0x0010, 0, 1, 0, 1, 32, .rw, (.zeroTo 0x10), false, fun u _ _ => Fd.CHN_CLK_LOCK_CYC u⟩,
  ⟨20, 4, 0x0010, 0, 1, 0, 1, 32, .rw, (.zeroTo 0x10), false, fun u _ _ => Fd.CHN_CLK_LOSS_CYC u⟩,
  ⟨20, 4, 0x0010, 0, 1, 0, 1, 32, .rw, .any, false, fun u _ _ => Fd.CHN_CLK_AMIN u⟩,
  ⟨20, 4, 0x0010, 0, 1, 0, 1, 32, .rw, (.zeroTo 0x2), false, fun u _ _ => Fd.CHN_CLK_HOLD_US u⟩,
  ⟨20, 4, 0x0018, 0, 1, 0, 1, 32, .ro, .any, false, fun u _ _ => Fd.CHN_RATE_MBPS u⟩,
  ⟨20, 4, 0x0020, 0, 1, 0, 1, 32, .rw, .any, false, fun u _ _ => Fd.CHN_AFE_AGC u⟩,
  ⟨20, 4, 0x0020, 0, 1, 0, 1, 32, .rw, .any, false, fun u _ _ => Fd.CHN_AFE_AGC_TC u⟩,
  ⟨20, 4, 0x0020, 0, 1, 0, 1, 32, .rw, .any, false, fun u _ _ => Fd.CHN_AFE_VGA_MAN u⟩,
  ⟨20, 4, 0x0020, 0, 1, 0, 1, 32, .ro, .any, false, fun u _ _ => Fd.CHN_AFE_VGA_NOW u⟩,
  ⟨20, 4, 0x0020, 0, 1, 0, 1, 32, .ro, .any, false, fun u _ _ => Fd.CHN_AFE_VGB_NOW u⟩,
  ⟨20, 4, 0x0028, 0, 1, 0, 1, 32, .rsh, .any, false, fun u _ _ => Fd.CHN_SLICE_FAULT_A u⟩,
  ⟨20, 4, 0x0028, 0, 1, 0, 1, 32, .rsh, .any, false, fun u _ _ => Fd.CHN_SLICE_FAULT_B u⟩,
  ⟨20, 4, 0x002C, 0, 1, 0, 1, 32, .rw, .any, false, fun u _ _ => Fd.CHN_SLMON_OFS_LIM u⟩]

/-- Fields of CHN registers, part 2. -/
def regRowsChn2 : List RegRow := [
  ⟨20, 4, 0x002C, 0, 1, 0, 1, 32, .rw, .any, false, fun u _ _ => Fd.CHN_SLMON_GAIN_LIM u⟩,
  ⟨20, 4, 0x0030, 0, 1, 0, 1, 32, .rw, (.clamp 24 48), false, fun u _ _ => Fd.CHN_SYNC_THRESH u⟩,
  ⟨20, 4, 0x0030, 0, 1, 0, 1, 32, .rw, .special, false, fun u _ _ => Fd.CHN_SYNC_THRESH2 u⟩,
  ⟨20, 4, 0x0038, 0, 1, 0, 1, 32, .rw, (.outside 1 4 4), false, fun u _ _ => Fd.CHN_DEC_GLOBAL u⟩,
  ⟨20, 4, 0x0038, 0, 1, 0, 1, 32, .rw, .special, false, fun u _ _ => Fd.CHN_DEC_TOTAL u⟩,
  ⟨20, 4, 0x0038, 0, 1, 0, 1, 32, .rw, .any, false, fun u _ _ => Fd.CHN_DEC_SWTH u⟩,
  ⟨20, 4, 0x0040, 0, 1, 0, 1, 32, .rw, .any, false, fun u _ _ => Fd.CHN_TA_LEVEL u⟩,
  ⟨20, 4, 0x0040, 0, 1, 0, 1, 32, .rw, (.zeroTo 4), false, fun u _ _ => Fd.CHN_TA_RUN u⟩,
  ⟨20, 4, 0x0040, 0, 1, 0, 1, 32, .rw, .any, false, fun u _ _ => Fd.CHN_TA_PRE u⟩,
  ⟨20, 4, 0x0040, 0, 1, 0, 1, 32, .rw, .any, false, fun u _ _ => Fd.CHN_TA_POST_X16 u⟩,
  ⟨20, 4, 0x0048, 0, 1, 0, 1, 32, .rw, .any, false, fun u _ _ => Fd.CHN_EQBOUND_TAPDEV u⟩,
  ⟨20, 4, 0x0048, 0, 1, 0, 1, 32, .rw, .any, false, fun u _ _ => Fd.CHN_EQBOUND_MU u⟩,
  ⟨20, 4, 0x0050, 0, 1, 0, 1, 32, .w1c, .any, false, fun u _ _ => Fd.CHN_INT_BLKLOSS u⟩,
  ⟨20, 4, 0x0050, 0, 1, 0, 1, 32, .w1c, .any, false, fun u _ _ => Fd.CHN_INT_SLICEF u⟩,
  ⟨20, 4, 0x0050, 0, 1, 0, 1, 32, .w1c, .any, false, fun u _ _ => Fd.CHN_INT_CHFAIL u⟩,
  ⟨20, 4, 0x0050, 0, 1, 0, 1, 32, .w1c, .any, false, fun u _ _ => Fd.CHN_INT_PINNED u⟩,
  ⟨20, 4, 0x0050, 0, 1, 0, 1, 32, .w1c, .any, false, fun u _ _ => Fd.CHN_INT_CNTSAT u⟩,
  ⟨20, 4, 0x0050, 0, 1, 0, 1, 32, .w1c, .any, false, fun u _ _ => Fd.CHN_INT_STOREFULL u⟩,
  ⟨20, 4, 0x0060, 0, 1, 0, 1, 64, .rw, .any, false, fun u _ _ => Fd.CHN_STORE_BASE u⟩,
  ⟨20, 4, 0x0080, 4, 4, 0, 1, 32, .rw, .any, false, fun u i _ => Fd.CHN_WGT_RA_W u i⟩,
  ⟨20, 4, 0x0080, 4, 4, 0, 1, 32, .rw, .any, false, fun u i _ => Fd.CHN_WGT_RB_W u i⟩,
  ⟨20, 4, 0x0100, 32, 8, 0, 1, 32, .rw, .any, false, fun u i _ => Fd.CHN_HCFG_RBDLY u i⟩,
  ⟨20, 4, 0x0100, 32, 8, 0, 1, 32, .rw, .any, false, fun u i _ => Fd.CHN_HCFG_BOOST u i⟩,
  ⟨20, 4, 0x0100, 32, 8, 0, 1, 32, .w1c, .any, false, fun u i _ => Fd.CHN_HCFG_PIN u i⟩,
  ⟨20, 4, 0x0108, 32, 8, 0, 1, 32, .rc, .any, false, fun u i _ => Fd.CHN_HCNT0_SYNC_MISS u i⟩,
  ⟨20, 4, 0x0108, 32, 8, 0, 1, 32, .rc, .any, false, fun u i _ => Fd.CHN_HCNT0_FLY_OK u i⟩,
  ⟨20, 4, 0x010C, 32, 8, 0, 1, 32, .rc, .any, false, fun u i _ => Fd.CHN_HCNT1_ALT_OK u i⟩,
  ⟨20, 4, 0x010C, 32, 8, 0, 1, 32, .rc, .any, false, fun u i _ => Fd.CHN_HCNT1_TA u i⟩,
  ⟨20, 4, 0x0110, 32, 8, 0, 1, 32, .rc, .any, false, fun u i _ => Fd.CHN_HCNT2_INLINE_FAIL u i⟩,
  ⟨20, 4, 0x0110, 32, 8, 0, 1, 32, .rc, .any, false, fun u i _ => Fd.CHN_HCNT2_UNSAMPLED u i⟩]

/-- Fields of CHN registers, part 3. -/
def regRowsChn3 : List RegRow := [
  ⟨20, 4, 0x0114, 32, 8, 0, 1, 32, .rc, .any, false, fun u i _ => Fd.CHN_HCNT3_BLK_LOSS u i⟩,
  ⟨20, 4, 0x0114, 32, 8, 0, 1, 32, .rc, .any, false, fun u i _ => Fd.CHN_HCNT3_DEEP_OK u i⟩,
  ⟨20, 4, 0x0058, 0, 1, 0, 1, 32, .rw, .any, false, fun u _ _ => Fd.CHN_INTEN_EN u⟩,
  ⟨20, 4, 0x1000, 128, 64, 4, 26, 32, .rw, .any, true, fun u i j => Fd.CHN_EQ_WORD u i j⟩]

/-- Fields of DEC registers, part 1. -/
def regRowsDec1 : List RegRow := [
  ⟨24, 1, 0x0000, 0, 1, 0, 1, 32, .rw, .any, false, fun _ _ _ => Fd.DEEP_DCTL_EN⟩,
  ⟨24, 1, 0x0000, 0, 1, 0, 1, 32, .rw, (.outside 1 8 8), false, fun _ _ _ => Fd.DEEP_DCTL_GLOBAL⟩,
  ⟨24, 1, 0x0000, 0, 1, 0, 1, 32, .rw, .special, false, fun _ _ _ => Fd.DEEP_DCTL_ITER⟩,
  ⟨24, 1, 0x0008, 0, 1, 0, 1, 32, .ro, .any, false, fun _ _ _ => Fd.DEEP_DSTATUS_WAIT0⟩,
  ⟨24, 1, 0x0008, 0, 1, 0, 1, 32, .ro, .any, false, fun _ _ _ => Fd.DEEP_DSTATUS_WAIT1⟩,
  ⟨24, 1, 0x0008, 0, 1, 0, 1, 32, .ro, .any, false, fun _ _ _ => Fd.DEEP_DSTATUS_WAIT2⟩,
  ⟨24, 1, 0x0008, 0, 1, 0, 1, 32, .ro, .any, false, fun _ _ _ => Fd.DEEP_DSTATUS_WAIT3⟩,
  ⟨24, 1, 0x0008, 0, 1, 0, 1, 32, .ro, .any, false, fun _ _ _ => Fd.DEEP_DSTATUS_DEPTH⟩,
  ⟨24, 1, 0x0008, 0, 1, 0, 1, 32, .ro, .any, false, fun _ _ _ => Fd.DEEP_DSTATUS_BUSY⟩,
  ⟨24, 1, 0x0010, 0, 1, 0, 1, 32, .ro, .any, false, fun _ _ _ => Fd.DEEP_DDONE_COUNT⟩]

/-- Fields of CHN registers, part 4. -/
def regRowsChn4 : List RegRow := [
  ⟨20, 4, 0x0200, 0, 1, 0, 1, 32, .rw, .any, false, fun u _ _ => Fd.CHN_WCTL_ALOOP_EN u⟩,
  ⟨20, 4, 0x0200, 0, 1, 0, 1, 32, .rw, .any, false, fun u _ _ => Fd.CHN_WCTL_XTC_EN u⟩,
  ⟨20, 4, 0x0204, 0, 1, 0, 1, 32, .ro, .any, false, fun u _ _ => Fd.CHN_WSTAT_ARMED u⟩,
  ⟨20, 4, 0x0204, 0, 1, 0, 1, 32, .ro, .any, false, fun u _ _ => Fd.CHN_WSTAT_WRITING u⟩,
  ⟨20, 4, 0x0204, 0, 1, 0, 1, 32, .ro, .any, false, fun u _ _ => Fd.CHN_WSTAT_CAUSE u⟩,
  ⟨20, 4, 0x0208, 0, 1, 0, 1, 32, .rw, .special, false, fun u _ _ => Fd.CHN_WINH_OT_LIM u⟩,
  ⟨20, 4, 0x020C, 0, 1, 0, 1, 32, .rw, .any, false, fun u _ _ => Fd.CHN_RBCHK_SWMAX u⟩,
  ⟨20, 4, 0x020C, 0, 1, 0, 1, 32, .rw, (.clamp 0 2), false, fun u _ _ => Fd.CHN_RBCHK_MARKTOL u⟩,
  ⟨20, 4, 0x020C, 0, 1, 0, 1, 32, .rw, .any, false, fun u _ _ => Fd.CHN_RBCHK_TAMAX u⟩,
  ⟨20, 4, 0x0210, 0, 1, 0, 1, 32, .ro, .any, false, fun u _ _ => Fd.CHN_ALOOP_LEVEL u⟩,
  ⟨20, 4, 0x0210, 0, 1, 0, 1, 32, .w1c, .any, false, fun u _ _ => Fd.CHN_ALOOP_PIN_HI u⟩,
  ⟨20, 4, 0x0210, 0, 1, 0, 1, 32, .w1c, .any, false, fun u _ _ => Fd.CHN_ALOOP_PIN_LO u⟩,
  ⟨20, 4, 0x0214, 0, 1, 0, 1, 32, .ro, .any, false, fun u _ _ => Fd.CHN_ABND_WR_MIN u⟩,
  ⟨20, 4, 0x0214, 0, 1, 0, 1, 32, .ro, .any, false, fun u _ _ => Fd.CHN_ABND_WR_MAX u⟩,
  ⟨20, 4, 0x0218, 0, 1, 0, 1, 32, .ro, .any, false, fun u _ _ => Fd.CHN_ATGT_SW_TGT u⟩,
  ⟨20, 4, 0x0218, 0, 1, 0, 1, 32, .ro, .any, false, fun u _ _ => Fd.CHN_ATGT_STEP u⟩,
  ⟨20, 4, 0x021C, 0, 1, 0, 1, 32, .rw, .any, false, fun u _ _ => Fd.CHN_TDCTL_EN u⟩,
  ⟨20, 4, 0x021C, 0, 1, 0, 1, 32, .rw, .any, false, fun u _ _ => Fd.CHN_TDCTL_TDK u⟩,
  ⟨20, 4, 0x021C, 0, 1, 0, 1, 32, .rw, .any, false, fun u _ _ => Fd.CHN_TDCTL_PESLIM u⟩,
  ⟨20, 4, 0x0220, 0, 1, 0, 1, 32, .ro, .any, false, fun u _ _ => Fd.CHN_TDSTAT_LVL u⟩,
  ⟨20, 4, 0x0220, 0, 1, 0, 1, 32, .ro, .any, false, fun u _ _ => Fd.CHN_TDSTAT_DET u⟩,
  ⟨20, 4, 0x0220, 0, 1, 0, 1, 32, .ro, .any, false, fun u _ _ => Fd.CHN_TDSTAT_SRC u⟩,
  ⟨20, 4, 0x0224, 0, 1, 0, 1, 32, .w1c, .any, false, fun u _ _ => Fd.CHN_WINT_RBFAIL u⟩,
  ⟨20, 4, 0x0224, 0, 1, 0, 1, 32, .w1c, .any, false, fun u _ _ => Fd.CHN_WINT_STOP u⟩,
  ⟨20, 4, 0x0224, 0, 1, 0, 1, 32, .w1c, .any, false, fun u _ _ => Fd.CHN_WINT_APIN u⟩,
  ⟨20, 4, 0x0224, 0, 1, 0, 1, 32, .w1c, .any, false, fun u _ _ => Fd.CHN_WINT_TOUCH u⟩,
  ⟨20, 4, 0x0228, 0, 1, 0, 1, 32, .rw, .any, false, fun u _ _ => Fd.CHN_WINTEN_EN u⟩,
  ⟨20, 4, 0x0400, 32, 8, 0, 1, 32, .rw, .any, false, fun u i _ => Fd.CHN_WCFG_WOFS u i⟩,
  ⟨20, 4, 0x0400, 32, 8, 0, 1, 32, .rw, .any, false, fun u i _ => Fd.CHN_WCFG_RBSET u i⟩,
  ⟨20, 4, 0x0400, 32, 8, 0, 1, 32, .rw, .any, false, fun u i _ => Fd.CHN_WCFG_AKIND u i⟩]

/-- Fields of CHN registers, part 5. -/
def regRowsChn5 : List RegRow := [
  ⟨20, 4, 0x0404, 32, 8, 0, 1, 32, .rw, .any, false, fun u i _ => Fd.CHN_WPC_PC_A u i⟩,
  ⟨20, 4, 0x0404, 32, 8, 0, 1, 32, .rw, .any, false, fun u i _ => Fd.CHN_WPC_PC_B u i⟩,
  ⟨20, 4, 0x0404, 32, 8, 0, 1, 32, .rw, .any, false, fun u i _ => Fd.CHN_WPC_PC_C u i⟩,
  ⟨20, 4, 0x0408, 32, 8, 4, 4, 32, .rw, .any, false, fun u i j => Fd.CHN_XT_WORD u i j⟩,
  ⟨20, 4, 0x0500, 8, 8, 0, 1, 32, .rc, .any, false, fun u i _ => Fd.CHN_HWCNT0_RBFAIL u i⟩,
  ⟨20, 4, 0x0500, 8, 8, 0, 1, 32, .rc, .any, false, fun u i _ => Fd.CHN_HWCNT0_STOPS u i⟩,
  ⟨20, 4, 0x0504, 8, 8, 0, 1, 32, .rc, .any, false, fun u i _ => Fd.CHN_HWCNT1_ATTN u i⟩,
  ⟨20, 4, 0x0504, 8, 8, 0, 1, 32, .rc, .any, false, fun u i _ => Fd.CHN_HWCNT1_PINS u i⟩]

/-- Fields of ARM registers, part 1. -/
def regRowsArm1 : List RegRow := [
  ⟨25, 4, 0x0000, 0, 1, 0, 1, 32, .rw, .any, false, fun u _ _ => Fd.ARM_CTL_EN u⟩,
  ⟨25, 4, 0x0000, 0, 1, 0, 1, 32, .wo, .any, true, fun u _ _ => Fd.ARM_CTL_LRST u⟩,
  ⟨25, 4, 0x0000, 0, 1, 0, 1, 32, .rw, .any, false, fun u _ _ => Fd.ARM_CTL_DISKEW u⟩,
  ⟨25, 4, 0x0008, 0, 1, 0, 1, 32, .ro, .any, false, fun u _ _ => Fd.ARM_STATUS_BUSY u⟩,
  ⟨25, 4, 0x0008, 0, 1, 0, 1, 32, .ro, .any, false, fun u _ _ => Fd.ARM_STATUS_RESULT u⟩,
  ⟨25, 4, 0x0008, 0, 1, 0, 1, 32, .ro, .any, false, fun u _ _ => Fd.ARM_STATUS_ATTN u⟩,
  ⟨25, 4, 0x0008, 0, 1, 0, 1, 32, .ro, .any, false, fun u _ _ => Fd.ARM_STATUS_WARM u⟩,
  ⟨25, 4, 0x0008, 0, 1, 0, 1, 32, .ro, .any, false, fun u _ _ => Fd.ARM_STATUS_LASTSTAT u⟩,
  ⟨25, 4, 0x0010, 0, 1, 0, 1, 32, .rw, .any, false, fun u _ _ => Fd.ARM_REQ_ADDR u⟩,
  ⟨25, 4, 0x0010, 0, 1, 0, 1, 32, .rw, .any, false, fun u _ _ => Fd.ARM_REQ_LEN u⟩,
  ⟨25, 4, 0x0010, 0, 1, 0, 1, 32, .rw, .any, false, fun u _ _ => Fd.ARM_REQ_RD u⟩,
  ⟨25, 4, 0x0010, 0, 1, 0, 1, 32, .wo, .any, true, fun u _ _ => Fd.ARM_REQ_GO u⟩,
  ⟨25, 4, 0x0018, 4, 4, 0, 1, 32, .rw, .any, false, fun u i _ => Fd.ARM_DATA_DATA u i⟩,
  ⟨25, 4, 0x0030, 0, 1, 0, 1, 32, .w1c, .any, false, fun u _ _ => Fd.ARM_INT_DONE u⟩,
  ⟨25, 4, 0x0030, 0, 1, 0, 1, 32, .w1c, .any, false, fun u _ _ => Fd.ARM_INT_LINKERR u⟩,
  ⟨25, 4, 0x0030, 0, 1, 0, 1, 32, .w1c, .any, false, fun u _ _ => Fd.ARM_INT_ATTN u⟩,
  ⟨25, 4, 0x0030, 0, 1, 0, 1, 32, .w1c, .any, false, fun u _ _ => Fd.ARM_INT_TDE u⟩,
  ⟨25, 4, 0x0038, 0, 1, 0, 1, 32, .rc, .any, false, fun u _ _ => Fd.ARM_ERRCNT_RETRY u⟩,
  ⟨25, 4, 0x0038, 0, 1, 0, 1, 32, .rc, .any, false, fun u _ _ => Fd.ARM_ERRCNT_TDERR u⟩,
  ⟨25, 4, 0x0040, 0, 1, 0, 1, 32, .ro, .any, false, fun u _ _ => Fd.ARM_FAULT_FAULT u⟩,
  ⟨25, 4, 0x0034, 0, 1, 0, 1, 32, .rw, .any, false, fun u _ _ => Fd.ARM_INTEN_EN u⟩]

/-- Fields of SRV registers, part 1. -/
def regRowsSrv1 : List RegRow := [
  ⟨29, 4, 0x0000, 0, 1, 0, 1, 32, .rw, .any, false, fun u _ _ => Fd.SRV_CTL_FITTED u⟩,
  ⟨29, 4, 0x0000, 0, 1, 0, 1, 32, .wo, .any, true, fun u _ _ => Fd.SRV_CTL_LOAD u⟩,
  ⟨29, 4, 0x0000, 0, 1, 0, 1, 32, .wo, .any, true, fun u _ _ => Fd.SRV_CTL_UNLOAD u⟩,
  ⟨29, 4, 0x0000, 0, 1, 0, 1, 32, .wo, .any, true, fun u _ _ => Fd.SRV_CTL_ERET u⟩,
  ⟨29, 4, 0x0000, 0, 1, 0, 1, 32, .wo, .any, true, fun u _ _ => Fd.SRV_CTL_CSWAP u⟩,
  ⟨29, 4, 0x0008, 0, 1, 0, 1, 32, .ro, .any, false, fun u _ _ => Fd.SRV_STATUS_MODE u⟩,
  ⟨29, 4, 0x0008, 0, 1, 0, 1, 32, .ro, .any, false, fun u _ _ => Fd.SRV_STATUS_ONT u⟩,
  ⟨29, 4, 0x0008, 0, 1, 0, 1, 32, .ro, .any, false, fun u _ _ => Fd.SRV_STATUS_SET u⟩,
  ⟨29, 4, 0x0008, 0, 1, 0, 1, 32, .ro, .any, false, fun u _ _ => Fd.SRV_STATUS_CBANK u⟩,
  ⟨29, 4, 0x0008, 0, 1, 0, 1, 32, .ro, .any, false, fun u _ _ => Fd.SRV_STATUS_FFBANK u⟩,
  ⟨29, 4, 0x0008, 0, 1, 0, 1, 32, .ro, .any, false, fun u _ _ => Fd.SRV_STATUS_COVERED u⟩,
  ⟨29, 4, 0x0008, 0, 1, 0, 1, 32, .ro, .any, false, fun u _ _ => Fd.SRV_STATUS_DEGR u⟩,
  ⟨29, 4, 0x0008, 0, 1, 0, 1, 32, .ro, .any, false, fun u _ _ => Fd.SRV_STATUS_SHKINH u⟩,
  ⟨29, 4, 0x0008, 0, 1, 0, 1, 32, .ro, .any, false, fun u _ _ => Fd.SRV_STATUS_HOP u⟩,
  ⟨29, 4, 0x0008, 0, 1, 0, 1, 32, .ro, .any, false, fun u _ _ => Fd.SRV_STATUS_TPIN u⟩,
  ⟨29, 4, 0x0010, 0, 1, 0, 1, 32, .ro, .any, false, fun u _ _ => Fd.SRV_PES_POS u⟩,
  ⟨29, 4, 0x0010, 0, 1, 0, 1, 32, .ro, .any, false, fun u _ _ => Fd.SRV_PES_AMP u⟩,
  ⟨29, 4, 0x0010, 0, 1, 0, 1, 32, .ro, .any, false, fun u _ _ => Fd.SRV_PES_VALID u⟩,
  ⟨29, 4, 0x0010, 0, 1, 0, 1, 32, .ro, .any, false, fun u _ _ => Fd.SRV_PES_HOP u⟩,
  ⟨29, 4, 0x0018, 0, 1, 0, 1, 64, .ro, .any, false, fun u _ _ => Fd.SRV_POS_BANK u⟩,
  ⟨29, 4, 0x0018, 0, 1, 0, 1, 64, .ro, .any, false, fun u _ _ => Fd.SRV_POS_DIST u⟩,
  ⟨29, 4, 0x0020, 0, 1, 0, 1, 32, .w1c, .any, false, fun u _ _ => Fd.SRV_INT_TPIN u⟩,
  ⟨29, 4, 0x0020, 0, 1, 0, 1, 32, .w1c, .any, false, fun u _ _ => Fd.SRV_INT_SEEKCORR u⟩,
  ⟨29, 4, 0x0020, 0, 1, 0, 1, 32, .w1c, .any, false, fun u _ _ => Fd.SRV_INT_SEEKFAIL u⟩,
  ⟨29, 4, 0x0020, 0, 1, 0, 1, 32, .w1c, .any, false, fun u _ _ => Fd.SRV_INT_HOPFAIL u⟩,
  ⟨29, 4, 0x0020, 0, 1, 0, 1, 32, .w1c, .any, false, fun u _ _ => Fd.SRV_INT_TAKEOVER u⟩,
  ⟨29, 4, 0x0020, 0, 1, 0, 1, 32, .w1c, .any, false, fun u _ _ => Fd.SRV_INT_STBYFAIL u⟩,
  ⟨29, 4, 0x0020, 0, 1, 0, 1, 32, .w1c, .any, false, fun u _ _ => Fd.SRV_INT_SHOCK u⟩,
  ⟨29, 4, 0x0020, 0, 1, 0, 1, 32, .w1c, .any, false, fun u _ _ => Fd.SRV_INT_BANKERR u⟩,
  ⟨29, 4, 0x0020, 0, 1, 0, 1, 32, .w1c, .any, false, fun u _ _ => Fd.SRV_INT_LOADED u⟩]

/-- Fields of SRV registers, part 2. -/
def regRowsSrv2 : List RegRow := [
  ⟨29, 4, 0x0020, 0, 1, 0, 1, 32, .w1c, .any, false, fun u _ _ => Fd.SRV_INT_LOADERR u⟩,
  ⟨29, 4, 0x0020, 0, 1, 0, 1, 32, .w1c, .any, false, fun u _ _ => Fd.SRV_INT_PARKED u⟩,
  ⟨29, 4, 0x0020, 0, 1, 0, 1, 32, .w1c, .any, false, fun u _ _ => Fd.SRV_INT_DEGR u⟩,
  ⟨29, 4, 0x0030, 0, 1, 0, 1, 32, .rw, (.clamp 0 4), false, fun u _ _ => Fd.SRV_TETH_HYS u⟩,
  ⟨29, 4, 0x0030, 0, 1, 0, 1, 32, .rw, .any, false, fun u _ _ => Fd.SRV_TETH_GTC u⟩,
  ⟨29, 4, 0x0030, 0, 1, 0, 1, 32, .rw, .any, false, fun u _ _ => Fd.SRV_TETH_GDEV u⟩,
  ⟨29, 4, 0x0030, 0, 1, 0, 1, 32, .rw, .any, false, fun u _ _ => Fd.SRV_TETH_PAMIN u⟩,
  ⟨29, 4, 0x0038, 0, 1, 0, 1, 32, .rw, (.zeroTo 0x01C0), false, fun u _ _ => Fd.SRV_SEEK_VMAX u⟩,
  ⟨29, 4, 0x0038, 0, 1, 0, 1, 32, .rw, (.zeroTo 0x070), false, fun u _ _ => Fd.SRV_SEEK_ACC u⟩,
  ⟨29, 4, 0x0038, 0, 1, 0, 1, 32, .rw, .any, false, fun u _ _ => Fd.SRV_SEEK_CORR u⟩,
  ⟨29, 4, 0x0040, 4, 4, 0, 1, 32, .rw, .any, false, fun u i _ => Fd.SRV_SETTLE_WIN u i⟩,
  ⟨29, 4, 0x0040, 4, 4, 0, 1, 32, .rw, .special, false, fun u i _ => Fd.SRV_SETTLE_OUT u i⟩,
  ⟨29, 4, 0x0040, 4, 4, 0, 1, 32, .rw, (.zeroTo 1), false, fun u i _ => Fd.SRV_SETTLE_CNT u i⟩,
  ⟨29, 4, 0x0050, 0, 1, 0, 1, 32, .rw, .any, false, fun u _ _ => Fd.SRV_LIM_IMAX u⟩,
  ⟨29, 4, 0x0050, 0, 1, 0, 1, 32, .rw, .any, false, fun u _ _ => Fd.SRV_LIM_PZMAX u⟩,
  ⟨29, 4, 0x0028, 0, 1, 0, 1, 32, .rw, .any, false, fun u _ _ => Fd.SRV_INTEN_EN u⟩,
  ⟨29, 4, 0x0058, 0, 1, 0, 1, 32, .rw, .any, false, fun u _ _ => Fd.SRV_SHK_MASK u⟩,
  ⟨29, 4, 0x0058, 0, 1, 0, 1, 32, .rw, .any, false, fun u _ _ => Fd.SRV_SHK_POL u⟩,
  ⟨29, 4, 0x0058, 0, 1, 0, 1, 32, .rw, .any, false, fun u _ _ => Fd.SRV_SHK_FILT u⟩,
  ⟨29, 4, 0x0058, 0, 1, 0, 1, 32, .rw, .any, false, fun u _ _ => Fd.SRV_SHK_HOLD_US u⟩,
  ⟨29, 4, 0x0060, 0, 1, 0, 1, 32, .rw, .any, false, fun u _ _ => Fd.SRV_FFCTL_EN u⟩,
  ⟨29, 4, 0x0060, 0, 1, 0, 1, 32, .wo, .any, true, fun u _ _ => Fd.SRV_FFCTL_SWAP u⟩,
  ⟨31, 1, 0x0068, 0, 1, 0, 1, 32, .rw, .any, false, fun u _ _ => Fd.SRV_STBY_EN (u + 2)⟩,
  ⟨29, 1, 0x0068, 0, 1, 0, 1, 32, .rw, .any, false, fun u _ _ => Fd.SRV_STBY_EN u⟩,
  ⟨31, 1, 0x0068, 0, 1, 0, 1, 32, .wo, .any, true, fun u _ _ => Fd.SRV_STBY_RST (u + 2)⟩,
  ⟨29, 1, 0x0068, 0, 1, 0, 1, 32, .wo, .any, true, fun u _ _ => Fd.SRV_STBY_RST u⟩,
  ⟨31, 1, 0x0068, 0, 1, 0, 1, 32, .ro, .any, false, fun u _ _ => Fd.SRV_STBY_COVER (u + 2)⟩,
  ⟨29, 1, 0x0068, 0, 1, 0, 1, 32, .ro, .any, false, fun u _ _ => Fd.SRV_STBY_COVER u⟩,
  ⟨31, 1, 0x0068, 0, 1, 0, 1, 32, .ro, .any, false, fun u _ _ => Fd.SRV_STBY_FAILED (u + 2)⟩,
  ⟨29, 1, 0x0068, 0, 1, 0, 1, 32, .ro, .any, false, fun u _ _ => Fd.SRV_STBY_FAILED u⟩]

/-- Fields of SRV registers, part 3. -/
def regRowsSrv3 : List RegRow := [
  ⟨31, 1, 0x0068, 0, 1, 0, 1, 32, .rw, .any, false, fun u _ _ => Fd.SRV_STBY_DIVLIM (u + 2)⟩,
  ⟨29, 1, 0x0068, 0, 1, 0, 1, 32, .rw, .any, false, fun u _ _ => Fd.SRV_STBY_DIVLIM u⟩,
  ⟨29, 4, 0x0070, 0, 1, 0, 1, 32, .rw, .any, false, fun u _ _ => Fd.SRV_RET_VTH u⟩,
  ⟨29, 4, 0x0070, 0, 1, 0, 1, 32, .rw, .any, false, fun u _ _ => Fd.SRV_RET_RVEL u⟩,
  ⟨29, 4, 0x0070, 0, 1, 0, 1, 32, .rw, .any, false, fun u _ _ => Fd.SRV_RET_LVEL u⟩,
  ⟨29, 4, 0x0070, 0, 1, 0, 1, 32, .rw, .any, false, fun u _ _ => Fd.SRV_RET_PARK u⟩,
  ⟨29, 4, 0x0080, 0, 1, 0, 1, 32, .rc, .any, false, fun u _ _ => Fd.SRV_CNT0_SEEKS u⟩,
  ⟨29, 4, 0x0080, 0, 1, 0, 1, 32, .rc, .any, false, fun u _ _ => Fd.SRV_CNT0_XSEEKS u⟩,
  ⟨29, 4, 0x0084, 0, 1, 0, 1, 32, .rc, .any, false, fun u _ _ => Fd.SRV_CNT1_HOPS u⟩,
  ⟨29, 4, 0x0084, 0, 1, 0, 1, 32, .rc, .any, false, fun u _ _ => Fd.SRV_CNT1_HOPFAIL u⟩,
  ⟨29, 4, 0x0088, 0, 1, 0, 1, 32, .rc, .any, false, fun u _ _ => Fd.SRV_CNT2_CORR u⟩,
  ⟨29, 4, 0x0088, 0, 1, 0, 1, 32, .rc, .any, false, fun u _ _ => Fd.SRV_CNT2_SEEKERR u⟩,
  ⟨29, 4, 0x008C, 0, 1, 0, 1, 32, .rc, .any, false, fun u _ _ => Fd.SRV_CNT3_SHOCKS u⟩,
  ⟨29, 4, 0x008C, 0, 1, 0, 1, 32, .rc, .any, false, fun u _ _ => Fd.SRV_CNT3_TAKEOVERS u⟩,
  ⟨29, 4, 0x1000, 256, 2, 4, 32, 32, .rw, .any, false, fun u i j => Fd.SRV_FF_WORD u i j⟩,
  ⟨29, 4, 0x2000, 512, 8, 16, 16, 32, .rw, .any, false, fun u i j => Fd.SRV_GEO_TOFS_WORD u i j⟩,
  ⟨29, 4, 0x2004, 512, 8, 16, 16, 32, .rw, .any, false, fun u i j => Fd.SRV_GEO_G_WORD u i j⟩,
  ⟨29, 4, 0x2008, 512, 8, 16, 16, 32, .rw, .any, false, fun u i j => Fd.SRV_GEO_RWOFS_WORD u i j⟩,
  ⟨29, 4, 0x2100, 512, 8, 4, 10, 32, .rw, .any, false, fun u i j => Fd.SRV_GEO_MODEL_WORD u i j⟩,
  ⟨29, 4, 0x2128, 512, 8, 0, 1, 32, .rw, .any, false, fun u i _ => Fd.SRV_GEO_SHG_WORD u i⟩,
  ⟨29, 4, 0x4000, 1024, 2, 4, 100, 32, .rw, .any, false, fun u i j => Fd.SRV_COMP_WORD u i j⟩]

/-- Fields of INT registers, part 1. -/
def regRowsInt1 : List RegRow := [
  ⟨2, 1, 0x0000, 0, 1, 0, 1, 32, .rw, .any, true, fun _ _ _ => Fd.INT_CTL_EN⟩,
  ⟨2, 1, 0x0000, 0, 1, 0, 1, 32, .ro, .any, false, fun _ _ _ => Fd.INT_CTL_X4⟩,
  ⟨2, 1, 0x0008, 0, 1, 0, 1, 32, .ro, .any, false, fun _ _ _ => Fd.INT_STATUS_CTXUSED⟩,
  ⟨2, 1, 0x0008, 0, 1, 0, 1, 32, .ro, .any, false, fun _ _ _ => Fd.INT_STATUS_PAUSED⟩,
  ⟨2, 1, 0x0010, 0, 1, 0, 1, 32, .rw, (.zeroTo 0x46), false, fun _ _ _ => Fd.INT_LIMIT_READ⟩,
  ⟨2, 1, 0x0010, 0, 1, 0, 1, 32, .rw, (.zeroTo 0x46), false, fun _ _ _ => Fd.INT_LIMIT_WRITE⟩,
  ⟨2, 1, 0x0010, 0, 1, 0, 1, 32, .rw, (.zeroTo 0x96), false, fun _ _ _ => Fd.INT_LIMIT_VERIFY⟩,
  ⟨2, 1, 0x0010, 0, 1, 0, 1, 32, .rw, (.zeroTo 0x46), false, fun _ _ _ => Fd.INT_LIMIT_ZMGMT⟩,
  ⟨2, 1, 0x0018, 0, 1, 0, 1, 32, .rw, (.zeroTo 0x01F4), false, fun _ _ _ => Fd.INT_SCHED_AGE_MS⟩,
  ⟨2, 1, 0x0018, 0, 1, 0, 1, 32, .rw, (.outside 4 64 0x10), false, fun _ _ _ => Fd.INT_SCHED_RESERVE⟩,
  ⟨2, 1, 0x0020, 0, 1, 0, 1, 32, .rw, .any, true, fun _ _ _ => Fd.INT_NSREADY_READY⟩,
  ⟨2, 1, 0x0028, 0, 1, 0, 1, 32, .w1c, .any, false, fun _ _ _ => Fd.INT_INT_CTXLOW⟩,
  ⟨2, 1, 0x0028, 0, 1, 0, 1, 32, .w1c, .any, false, fun _ _ _ => Fd.INT_INT_LIMIT⟩,
  ⟨2, 1, 0x0028, 0, 1, 0, 1, 32, .w1c, .any, false, fun _ _ _ => Fd.INT_INT_LINKDN0⟩,
  ⟨2, 1, 0x0028, 0, 1, 0, 1, 32, .w1c, .any, false, fun _ _ _ => Fd.INT_INT_LINKDN1⟩,
  ⟨2, 1, 0x0028, 0, 1, 0, 1, 32, .w1c, .any, false, fun _ _ _ => Fd.INT_INT_RELEASED⟩,
  ⟨2, 1, 0x0050, 16, 5, 0, 1, 32, .rw, .special, false, fun _ i _ => Fd.INT_NSCFG_VALID (i + 1)⟩,
  ⟨2, 1, 0x0050, 16, 5, 0, 1, 32, .rw, .any, false, fun _ i _ => Fd.INT_NSCFG_ZONED (i + 1)⟩,
  ⟨2, 1, 0x0050, 16, 5, 0, 1, 32, .rw, .any, false, fun _ i _ => Fd.INT_NSCFG_LBAF (i + 1)⟩,
  ⟨2, 1, 0x0050, 16, 5, 0, 1, 32, .rw, .any, false, fun _ i _ => Fd.INT_NSCFG_PIT (i + 1)⟩,
  ⟨2, 1, 0x0054, 16, 5, 0, 1, 32, .rw, .any, false, fun _ i _ => Fd.INT_NSFIRST_FIRSTZONE (i + 1)⟩,
  ⟨2, 1, 0x0058, 16, 5, 0, 1, 32, .rw, .any, false, fun _ i _ => Fd.INT_NSZONES_ZONES (i + 1)⟩]

/-- Fields of INTP registers, part 1. -/
def regRowsIntp1 : List RegRow := [
  ⟨0, 2, 0x0000, 0, 1, 0, 1, 32, .rw, .any, false, fun u _ _ => Fd.PORT_PCTL_EN u⟩,
  ⟨0, 2, 0x0000, 0, 1, 0, 1, 32, .rw, .any, false, fun u _ _ => Fd.PORT_PCTL_HOLD_S u⟩,
  ⟨0, 2, 0x0000, 0, 1, 0, 1, 32, .ro, .any, false, fun u _ _ => Fd.PORT_PCTL_SPEED u⟩,
  ⟨0, 2, 0x0000, 0, 1, 0, 1, 32, .ro, .any, false, fun u _ _ => Fd.PORT_PCTL_WIDTH u⟩,
  ⟨0, 2, 0x0000, 0, 1, 0, 1, 32, .ro, .any, false, fun u _ _ => Fd.PORT_PCTL_LINKUP u⟩]

/-- Fields of INT registers, part 2. -/
def regRowsInt2 : List RegRow := [
  ⟨2, 1, 0x002C, 0, 1, 0, 1, 32, .rw, .any, false, fun _ _ _ => Fd.INT_INTEN_EN⟩]

/-- Fields of STG registers, part 1. -/
def regRowsStg1 : List RegRow := [
  ⟨6, 1, 0x0000, 0, 1, 0, 1, 32, .rw, .any, true, fun _ _ _ => Fd.STG_CTL_EN⟩,
  ⟨6, 1, 0x0000, 0, 1, 0, 1, 32, .rw, .special, false, fun _ _ _ => Fd.STG_CTL_MODE⟩,
  ⟨6, 1, 0x0000, 0, 1, 0, 1, 32, .ro, .any, false, fun _ _ _ => Fd.STG_CTL_STATE⟩,
  ⟨6, 1, 0x0008, 0, 1, 0, 1, 32, .rw, .any, false, fun _ _ _ => Fd.STG_STREAM_EN⟩,
  ⟨6, 1, 0x0008, 0, 1, 0, 1, 32, .rw, (.outside 2 255 0x10), false, fun _ _ _ => Fd.STG_STREAM_RUN⟩,
  ⟨6, 1, 0x0008, 0, 1, 0, 1, 32, .rw, (.zeroTo 4), false, fun _ _ _ => Fd.STG_STREAM_NSEQ⟩,
  ⟨6, 1, 0x0010, 0, 1, 0, 1, 32, .rw, .any, false, fun _ _ _ => Fd.STG_ALLOC0_ALLOC⟩,
  ⟨6, 1, 0x0014, 0, 1, 0, 1, 32, .rw, .any, false, fun _ _ _ => Fd.STG_ALLOC1_ALLOC⟩,
  ⟨6, 1, 0x0018, 0, 1, 0, 1, 32, .ro, .any, false, fun _ _ _ => Fd.STG_STRM0_FLAG⟩,
  ⟨6, 1, 0x001C, 0, 1, 0, 1, 32, .ro, .any, false, fun _ _ _ => Fd.STG_STRM1_FLAG⟩,
  ⟨6, 1, 0x0020, 0, 1, 0, 1, 32, .w1c, .any, false, fun _ _ _ => Fd.STG_INT_DRAINED⟩,
  ⟨6, 1, 0x0020, 0, 1, 0, 1, 32, .w1c, .any, false, fun _ _ _ => Fd.STG_INT_MODEREF⟩,
  ⟨6, 1, 0x0020, 0, 1, 0, 1, 32, .w1c, .any, false, fun _ _ _ => Fd.STG_INT_UNCOR⟩,
  ⟨6, 1, 0x0028, 0, 1, 0, 1, 32, .ro, .any, false, fun _ _ _ => Fd.STG_DRAIN_LEFT⟩,
  ⟨6, 1, 0x002C, 0, 1, 0, 1, 32, .ro, .any, false, fun _ _ _ => Fd.STG_WBSTAT_WB⟩,
  ⟨6, 1, 0x002C, 0, 1, 0, 1, 32, .ro, .any, false, fun _ _ _ => Fd.STG_WBSTAT_EDDY⟩,
  ⟨6, 1, 0x0030, 0, 1, 0, 1, 32, .rc, .any, false, fun _ _ _ => Fd.STG_CNT0_HITS⟩,
  ⟨6, 1, 0x0034, 0, 1, 0, 1, 32, .rc, .any, false, fun _ _ _ => Fd.STG_CNT1_MISSES⟩,
  ⟨6, 1, 0x0038, 0, 1, 0, 1, 32, .rc, .any, false, fun _ _ _ => Fd.STG_CNT2_RECALLS⟩,
  ⟨6, 1, 0x003C, 0, 1, 0, 1, 32, .rc, .any, false, fun _ _ _ => Fd.STG_CNT3_NOALLOC⟩,
  ⟨6, 1, 0x0024, 0, 1, 0, 1, 32, .rw, .any, false, fun _ _ _ => Fd.STG_INTEN_EN⟩]

/-- Fields of MEM registers, part 1. -/
def regRowsMem1 : List RegRow := [
  ⟨7, 1, 0x0000, 0, 1, 0, 1, 32, .rw, .any, false, fun _ _ _ => Fd.MEM_CTL_SCRUB_S⟩,
  ⟨7, 1, 0x0000, 0, 1, 0, 1, 32, .rw, .any, false, fun _ _ _ => Fd.MEM_CTL_SCRUB_D⟩,
  ⟨7, 1, 0x0000, 0, 1, 0, 1, 32, .rw, .any, false, fun _ _ _ => Fd.MEM_CTL_CORR_WB⟩,
  ⟨7, 1, 0x0008, 0, 1, 0, 1, 32, .ro, .any, false, fun _ _ _ => Fd.MEM_STATUS_FILLED_S⟩,
  ⟨7, 1, 0x0008, 0, 1, 0, 1, 32, .ro, .any, false, fun _ _ _ => Fd.MEM_STATUS_FILLED_D⟩,
  ⟨7, 1, 0x0008, 0, 1, 0, 1, 32, .ro, .any, false, fun _ _ _ => Fd.MEM_STATUS_DFAIL⟩,
  ⟨7, 1, 0x0008, 0, 1, 0, 1, 32, .ro, .any, false, fun _ _ _ => Fd.MEM_STATUS_DSIZE⟩,
  ⟨7, 1, 0x0008, 0, 1, 0, 1, 32, .ro, .any, false, fun _ _ _ => Fd.MEM_STATUS_PASS_S⟩,
  ⟨7, 1, 0x0008, 0, 1, 0, 1, 32, .ro, .any, false, fun _ _ _ => Fd.MEM_STATUS_PASS_D⟩,
  ⟨7, 1, 0x0010, 0, 1, 0, 1, 32, .rw, (.zeroTo 0x3C), false, fun _ _ _ => Fd.MEM_SCRUB_SPER_S⟩,
  ⟨7, 1, 0x0010, 0, 1, 0, 1, 32, .rw, (.zeroTo 0x18), false, fun _ _ _ => Fd.MEM_SCRUB_SPER_D⟩,
  ⟨7, 1, 0x0018, 4, 2, 0, 1, 32, .rw, (.zeroTo 0x10), false, fun _ i _ => Fd.MEM_BKT_CAP i⟩,
  ⟨7, 1, 0x0018, 4, 2, 0, 1, 32, .rw, (.zeroTo 0x0A), false, fun _ i _ => Fd.MEM_BKT_LEAK_S i⟩,
  ⟨7, 1, 0x0018, 4, 2, 0, 1, 32, .ro, .any, false, fun _ i _ => Fd.MEM_BKT_LEVEL i⟩,
  ⟨7, 1, 0x0018, 4, 2, 0, 1, 32, .rc, .any, false, fun _ i _ => Fd.MEM_BKT_OVF i⟩,
  ⟨7, 1, 0x0020, 0, 1, 0, 1, 32, .w1c, .any, false, fun _ _ _ => Fd.MEM_INT_CEOVF_S⟩,
  ⟨7, 1, 0x0020, 0, 1, 0, 1, 32, .w1c, .any, false, fun _ _ _ => Fd.MEM_INT_CEOVF_D⟩,
  ⟨7, 1, 0x0020, 0, 1, 0, 1, 32, .w1c, .any, false, fun _ _ _ => Fd.MEM_INT_UE_S⟩,
  ⟨7, 1, 0x0020, 0, 1, 0, 1, 32, .w1c, .any, false, fun _ _ _ => Fd.MEM_INT_UE_D⟩,
  ⟨7, 1, 0x0020, 0, 1, 0, 1, 32, .w1c, .any, false, fun _ _ _ => Fd.MEM_INT_DFAIL⟩,
  ⟨7, 1, 0x0020, 0, 1, 0, 1, 32, .w1c, .any, false, fun _ _ _ => Fd.MEM_INT_INJDONE⟩,
  ⟨7, 1, 0x0028, 0, 1, 0, 1, 32, .rc, .any, false, fun _ _ _ => Fd.MEM_CNT0_CE_S⟩,
  ⟨7, 1, 0x002C, 0, 1, 0, 1, 32, .rc, .any, false, fun _ _ _ => Fd.MEM_CNT1_CE_D⟩,
  ⟨7, 1, 0x0030, 0, 1, 0, 1, 32, .rc, .any, false, fun _ _ _ => Fd.MEM_CNT2_UE_S⟩,
  ⟨7, 1, 0x0030, 0, 1, 0, 1, 32, .rc, .any, false, fun _ _ _ => Fd.MEM_CNT2_UE_D⟩,
  ⟨7, 1, 0x0040, 0, 1, 0, 1, 64, .ro, .any, false, fun _ _ _ => Fd.MEM_CELAST_ADDR⟩,
  ⟨7, 1, 0x0040, 0, 1, 0, 1, 64, .ro, .any, false, fun _ _ _ => Fd.MEM_CELAST_SYM⟩,
  ⟨7, 1, 0x0040, 0, 1, 0, 1, 64, .ro, .any, false, fun _ _ _ => Fd.MEM_CELAST_TWOBIT⟩,
  ⟨7, 1, 0x0040, 0, 1, 0, 1, 64, .ro, .any, false, fun _ _ _ => Fd.MEM_CELAST_SCRUB⟩,
  ⟨7, 1, 0x0048, 0, 1, 0, 1, 64, .ro, .any, false, fun _ _ _ => Fd.MEM_UELAST_ADDR⟩]

/-- Fields of MEM registers, part 2. -/
def regRowsMem2 : List RegRow := [
  ⟨7, 1, 0x0048, 0, 1, 0, 1, 64, .ro, .any, false, fun _ _ _ => Fd.MEM_UELAST_POISON⟩,
  ⟨7, 1, 0x0048, 0, 1, 0, 1, 64, .ro, .any, false, fun _ _ _ => Fd.MEM_UELAST_REQ⟩,
  ⟨7, 1, 0x0050, 0, 1, 0, 1, 64, .rw, .any, true, fun _ _ _ => Fd.MEM_INJ_ARM⟩,
  ⟨7, 1, 0x0050, 0, 1, 0, 1, 64, .rw, .any, false, fun _ _ _ => Fd.MEM_INJ_ADDR⟩,
  ⟨7, 1, 0x0050, 0, 1, 0, 1, 64, .rw, .any, false, fun _ _ _ => Fd.MEM_INJ_CHKFLIP⟩,
  ⟨7, 1, 0x0058, 0, 1, 0, 1, 64, .rw, .any, false, fun _ _ _ => Fd.MEM_INJMASK_FLIP⟩,
  ⟨7, 1, 0x0024, 0, 1, 0, 1, 32, .rw, .any, false, fun _ _ _ => Fd.MEM_INTEN_EN⟩]

/-- Fields of SLC registers, part 1. -/
def regRowsSlc1 : List RegRow := [
  ⟨8, 1, 0x0000, 0, 1, 0, 1, 32, .rw, .any, false, fun _ _ _ => Fd.SLC_CTL_EN⟩,
  ⟨8, 1, 0x0008, 0, 1, 0, 1, 32, .w1c, .any, false, fun _ _ _ => Fd.SLC_DONE_DONE⟩,
  ⟨8, 1, 0x000C, 0, 1, 0, 1, 32, .w1c, .any, false, fun _ _ _ => Fd.SLC_ERR_ERR⟩,
  ⟨8, 1, 0x0010, 0, 1, 0, 1, 32, .rw, .any, false, fun _ _ _ => Fd.SLC_DONEEN_EN⟩,
  ⟨8, 1, 0x0014, 0, 1, 0, 1, 32, .rw, .any, false, fun _ _ _ => Fd.SLC_ERREN_EN⟩,
  ⟨8, 1, 0x1000, 64, 32, 0, 1, 32, .wo, .any, true, fun _ i _ => Fd.SLC_CHCTL_GO i⟩,
  ⟨8, 1, 0x1000, 64, 32, 0, 1, 32, .wo, .any, true, fun _ i _ => Fd.SLC_CHCTL_STOP i⟩,
  ⟨8, 1, 0x1000, 64, 32, 0, 1, 32, .wo, .any, true, fun _ i _ => Fd.SLC_CHCTL_RESUME i⟩,
  ⟨8, 1, 0x1004, 64, 32, 0, 1, 32, .ro, .any, false, fun _ i _ => Fd.SLC_CHSTAT_STATE i⟩,
  ⟨8, 1, 0x1004, 64, 32, 0, 1, 32, .w1c, .any, false, fun _ i _ => Fd.SLC_CHSTAT_REFUSED i⟩,
  ⟨8, 1, 0x1004, 64, 32, 0, 1, 32, .ro, .any, false, fun _ i _ => Fd.SLC_CHSTAT_SECT i⟩,
  ⟨8, 1, 0x1004, 64, 32, 0, 1, 32, .ro, .any, false, fun _ i _ => Fd.SLC_CHSTAT_ERRC i⟩,
  ⟨8, 1, 0x1008, 64, 32, 0, 1, 64, .rw, .any, false, fun _ i _ => Fd.SLC_CHHEAD_ADDR i⟩,
  ⟨8, 1, 0x1010, 64, 32, 0, 1, 64, .ro, .any, false, fun _ i _ => Fd.SLC_CHCUR_ADDR i⟩,
  ⟨8, 1, 0x1018, 64, 32, 0, 1, 32, .ro, .any, false, fun _ i _ => Fd.SLC_CHREM_REM i⟩,
  ⟨8, 1, 0x101C, 64, 32, 0, 1, 32, .ro, .any, false, fun _ i _ => Fd.SLC_CHTAG_TAG i⟩]

/-- Fields of BKW registers, part 1. -/
def regRowsBkw1 : List RegRow := [
  ⟨9, 1, 0x0000, 16, 256, 8, 2, 64, .wo, .any, true, fun _ i j => Fd.BKW_PUSH_WORD i j⟩,
  ⟨9, 1, 0x8000, 32, 256, 0, 1, 64, .ro, .any, true, fun _ i _ => Fd.BKW_POP_WORD i⟩,
  ⟨9, 1, 0x8008, 32, 256, 0, 1, 32, .ro, .any, false, fun _ i _ => Fd.BKW_QSTAT_WORDS i⟩,
  ⟨9, 1, 0x8008, 32, 256, 0, 1, 32, .ro, .any, false, fun _ i _ => Fd.BKW_QSTAT_TAG i⟩,
  ⟨9, 1, 0x800C, 32, 256, 0, 1, 32, .wo, .any, true, fun _ i _ => Fd.BKW_QCTL_FLUSH i⟩,
  ⟨9, 1, 0x8010, 32, 256, 0, 1, 32, .rc, .any, false, fun _ i _ => Fd.BKW_QDROP_DROPS i⟩,
  ⟨9, 1, 0xA000, 0, 1, 0, 1, 32, .rw, .any, false, fun _ _ _ => Fd.BKW_CTL_EN⟩,
  ⟨9, 1, 0xA008, 0, 1, 0, 1, 64, .rw, .any, false, fun _ _ _ => Fd.BKW_BASE_BASE⟩,
  ⟨9, 1, 0xA010, 0, 1, 0, 1, 32, .w1c, .any, false, fun _ _ _ => Fd.BKW_INT_DROP⟩,
  ⟨9, 1, 0xA010, 0, 1, 0, 1, 32, .w1c, .any, false, fun _ _ _ => Fd.BKW_INT_PARITY⟩,
  ⟨9, 1, 0xA014, 0, 1, 0, 1, 32, .rw, .any, false, fun _ _ _ => Fd.BKW_INTEN_EN⟩]

/-- Fields of WEIR registers, part 1. -/
def regRowsWeir1 : List RegRow := [
  ⟨4, 1, 0x0000, 0, 1, 0, 1, 64, .ro, .any, false, fun _ _ _ => Fd.WEIR_POOL_QUSED⟩,
  ⟨4, 1, 0x0000, 0, 1, 0, 1, 64, .ro, .any, false, fun _ _ _ => Fd.WEIR_POOL_DUSED⟩,
  ⟨4, 1, 0x0008, 0, 1, 0, 1, 32, .ro, .any, false, fun _ _ _ => Fd.WEIR_RESV_CTX⟩,
  ⟨4, 1, 0x0010, 0, 1, 0, 1, 32, .rw, (.outside 2 64 8), false, fun _ _ _ => Fd.WEIR_SPRES_SPQ⟩,
  ⟨4, 1, 0x0010, 0, 1, 0, 1, 32, .rw, (.outside 2 64 8), false, fun _ _ _ => Fd.WEIR_SPRES_SPD⟩,
  ⟨4, 1, 0x0020, 8, 5, 0, 1, 64, .rw, .any, true, fun _ i _ => Fd.WEIR_SYNC_MASK i⟩,
  ⟨4, 1, 0x0020, 8, 5, 0, 1, 64, .ro, .any, false, fun _ i _ => Fd.WEIR_SYNC_DONE i⟩,
  ⟨4, 1, 0x0050, 0, 1, 0, 1, 32, .w1c, .any, false, fun _ _ _ => Fd.WEIR_INT_STALL⟩,
  ⟨4, 1, 0x0050, 0, 1, 0, 1, 32, .w1c, .any, false, fun _ _ _ => Fd.WEIR_INT_FULL⟩,
  ⟨4, 1, 0x0054, 0, 1, 0, 1, 32, .rw, .any, false, fun _ _ _ => Fd.WEIR_INTEN_EN⟩,
  ⟨4, 1, 0x0058, 0, 1, 0, 1, 32, .rc, .any, false, fun _ _ _ => Fd.WEIR_CNT_STALLS⟩,
  ⟨4, 1, 0x0058, 0, 1, 0, 1, 32, .rc, .any, false, fun _ _ _ => Fd.WEIR_CNT_FULLS⟩]

/-- Fields of CFL registers, part 1. -/
def regRowsCfl1 : List RegRow := [
  ⟨10, 1, 0x0000, 0, 1, 0, 1, 32, .rw, .any, false, fun _ _ _ => Fd.CFL_CTL_PFEN⟩,
  ⟨10, 1, 0x0000, 0, 1, 0, 1, 32, .rw, .any, false, fun _ _ _ => Fd.CFL_CTL_BCEN⟩,
  ⟨10, 1, 0x0008, 0, 1, 0, 1, 32, .ro, .any, false, fun _ _ _ => Fd.CFL_STATUS_BUSY0⟩,
  ⟨10, 1, 0x0008, 0, 1, 0, 1, 32, .ro, .any, false, fun _ _ _ => Fd.CFL_STATUS_BUSY1⟩,
  ⟨10, 1, 0x0008, 0, 1, 0, 1, 32, .ro, .any, false, fun _ _ _ => Fd.CFL_STATUS_SUSP0⟩,
  ⟨10, 1, 0x0008, 0, 1, 0, 1, 32, .ro, .any, false, fun _ _ _ => Fd.CFL_STATUS_SUSP1⟩,
  ⟨10, 1, 0x0008, 0, 1, 0, 1, 32, .ro, .any, false, fun _ _ _ => Fd.CFL_STATUS_COPY0⟩,
  ⟨10, 1, 0x0008, 0, 1, 0, 1, 32, .ro, .any, false, fun _ _ _ => Fd.CFL_STATUS_COPY1⟩,
  ⟨10, 1, 0x0008, 0, 1, 0, 1, 32, .ro, .any, false, fun _ _ _ => Fd.CFL_STATUS_SPARE0⟩,
  ⟨10, 1, 0x0008, 0, 1, 0, 1, 32, .ro, .any, false, fun _ _ _ => Fd.CFL_STATUS_SPARE1⟩,
  ⟨10, 1, 0x0010, 0, 1, 0, 1, 32, .rw, .any, true, fun _ _ _ => Fd.CFL_LOCK_LOCK⟩,
  ⟨10, 1, 0x0030, 0, 1, 0, 1, 32, .w1c, .any, false, fun _ _ _ => Fd.CFL_INT_DONE0⟩,
  ⟨10, 1, 0x0030, 0, 1, 0, 1, 32, .w1c, .any, false, fun _ _ _ => Fd.CFL_INT_DONE1⟩,
  ⟨10, 1, 0x0030, 0, 1, 0, 1, 32, .w1c, .any, false, fun _ _ _ => Fd.CFL_INT_WEAK⟩,
  ⟨10, 1, 0x0030, 0, 1, 0, 1, 32, .w1c, .any, false, fun _ _ _ => Fd.CFL_INT_RETIRED⟩,
  ⟨10, 1, 0x0030, 0, 1, 0, 1, 32, .w1c, .any, false, fun _ _ _ => Fd.CFL_INT_NOSPARE⟩,
  ⟨10, 1, 0x0030, 0, 1, 0, 1, 32, .w1c, .any, false, fun _ _ _ => Fd.CFL_INT_UE⟩,
  ⟨10, 1, 0x0030, 0, 1, 0, 1, 32, .w1c, .any, false, fun _ _ _ => Fd.CFL_INT_ROW⟩,
  ⟨10, 1, 0x0038, 0, 1, 0, 1, 32, .rc, .any, false, fun _ _ _ => Fd.CFL_CNT0_CE⟩,
  ⟨10, 1, 0x0038, 0, 1, 0, 1, 32, .rc, .any, false, fun _ _ _ => Fd.CFL_CNT0_UE⟩,
  ⟨10, 1, 0x003C, 0, 1, 0, 1, 32, .rc, .any, false, fun _ _ _ => Fd.CFL_CNT1_WEAK⟩,
  ⟨10, 1, 0x003C, 0, 1, 0, 1, 32, .rc, .any, false, fun _ _ _ => Fd.CFL_CNT1_SUSP⟩,
  ⟨10, 1, 0x0040, 0, 1, 0, 1, 32, .ro, .any, false, fun _ _ _ => Fd.CFL_WEAKLAST_SECTOR⟩,
  ⟨10, 1, 0x0040, 0, 1, 0, 1, 32, .ro, .any, false, fun _ _ _ => Fd.CFL_WEAKLAST_PULSES⟩,
  ⟨10, 1, 0x1000, 1024, 2, 0, 1, 32, .rw, .any, false, fun _ i _ => Fd.CFL_CMD_OP i⟩,
  ⟨10, 1, 0x1000, 1024, 2, 0, 1, 32, .rw, .any, false, fun _ i _ => Fd.CFL_CMD_WORDS i⟩,
  ⟨10, 1, 0x1000, 1024, 2, 0, 1, 32, .wo, .any, true, fun _ i _ => Fd.CFL_CMD_GO i⟩,
  ⟨10, 1, 0x1008, 1024, 2, 0, 1, 32, .rw, .any, false, fun _ i _ => Fd.CFL_ADDR_WORD i⟩,
  ⟨10, 1, 0x1010, 1024, 2, 0, 1, 32, .ro, .any, false, fun _ i _ => Fd.CFL_RES_BUSY i⟩,
  ⟨10, 1, 0x1010, 1024, 2, 0, 1, 32, .ro, .any, false, fun _ i _ => Fd.CFL_RES_RESULT i⟩]

/-- Fields of CFL registers, part 2. -/
def regRowsCfl2 : List RegRow := [
  ⟨10, 1, 0x1010, 1024, 2, 0, 1, 32, .ro, .any, false, fun _ i _ => Fd.CFL_RES_PULSES i⟩,
  ⟨10, 1, 0x1100, 1024, 2, 8, 8, 64, .rw, .any, false, fun _ i j => Fd.CFL_WBUF_DATA i j⟩,
  ⟨10, 1, 0x0034, 0, 1, 0, 1, 32, .rw, .any, false, fun _ _ _ => Fd.CFL_INTEN_EN⟩]

/-- Fields of SPN registers, part 1. -/
def regRowsSpn1 : List RegRow := [
  ⟨15, 1, 0x0000, 0, 1, 0, 1, 32, .rw, .any, false, fun _ _ _ => Fd.SPN_CTL_EN⟩,
  ⟨15, 1, 0x0000, 0, 1, 0, 1, 32, .rw, .any, false, fun _ _ _ => Fd.SPN_CTL_SRC⟩,
  ⟨15, 1, 0x0000, 0, 1, 0, 1, 32, .wo, .any, true, fun _ _ _ => Fd.SPN_CTL_CLEAR⟩,
  ⟨15, 1, 0x0000, 0, 1, 0, 1, 32, .wo, .any, true, fun _ _ _ => Fd.SPN_CTL_CURVE⟩,
  ⟨15, 1, 0x0008, 0, 1, 0, 1, 32, .ro, .any, false, fun _ _ _ => Fd.SPN_STATUS_STATE⟩,
  ⟨15, 1, 0x0008, 0, 1, 0, 1, 32, .ro, .any, false, fun _ _ _ => Fd.SPN_STATUS_ATSPD⟩,
  ⟨15, 1, 0x0008, 0, 1, 0, 1, 32, .ro, .any, false, fun _ _ _ => Fd.SPN_STATUS_ON⟩,
  ⟨15, 1, 0x0008, 0, 1, 0, 1, 32, .ro, .any, false, fun _ _ _ => Fd.SPN_STATUS_PEND⟩,
  ⟨15, 1, 0x0008, 0, 1, 0, 1, 32, .ro, .any, false, fun _ _ _ => Fd.SPN_STATUS_TOKEN⟩,
  ⟨15, 1, 0x0008, 0, 1, 0, 1, 32, .rsh, .any, false, fun _ _ _ => Fd.SPN_STATUS_CHOPF⟩,
  ⟨15, 1, 0x0008, 0, 1, 0, 1, 32, .ro, .any, false, fun _ _ _ => Fd.SPN_STATUS_ISEN⟩,
  ⟨15, 1, 0x0008, 0, 1, 0, 1, 32, .ro, .any, false, fun _ _ _ => Fd.SPN_STATUS_SPARE⟩,
  ⟨15, 1, 0x0008, 0, 1, 0, 1, 32, .ro, .any, false, fun _ _ _ => Fd.SPN_STATUS_SPFOR⟩,
  ⟨15, 1, 0x0010, 0, 1, 0, 1, 32, .rw, .any, false, fun _ _ _ => Fd.SPN_DMD_REG⟩,
  ⟨15, 1, 0x0010, 0, 1, 0, 1, 32, .ro, .any, false, fun _ _ _ => Fd.SPN_DMD_PIN⟩,
  ⟨15, 1, 0x0010, 0, 1, 0, 1, 32, .ro, .any, false, fun _ _ _ => Fd.SPN_DMD_NOW⟩,
  ⟨15, 1, 0x0014, 0, 1, 0, 1, 32, .rw, .special, false, fun _ _ _ => Fd.SPN_HYST_ON⟩,
  ⟨15, 1, 0x0014, 0, 1, 0, 1, 32, .rw, .special, false, fun _ _ _ => Fd.SPN_HYST_OFF⟩,
  ⟨15, 1, 0x0018, 0, 1, 0, 1, 32, .rw, .special, false, fun _ _ _ => Fd.SPN_CEIL_RPM⟩,
  ⟨15, 1, 0x001C, 0, 1, 0, 1, 32, .ro, .any, false, fun _ _ _ => Fd.SPN_TARGET_RPM⟩,
  ⟨15, 1, 0x0020, 0, 1, 0, 1, 32, .ro, .any, false, fun _ _ _ => Fd.SPN_SPEED_RPM10⟩,
  ⟨15, 1, 0x0020, 0, 1, 0, 1, 32, .ro, .any, false, fun _ _ _ => Fd.SPN_SPEED_REV⟩,
  ⟨15, 1, 0x0024, 0, 1, 0, 1, 32, .rw, (.zeroTo 0x3E8), false, fun _ _ _ => Fd.SPN_ACCEL_ACC⟩,
  ⟨15, 1, 0x0028, 0, 1, 0, 1, 32, .rw, (.outside 20 80 0x28), false, fun _ _ _ => Fd.SPN_PWM_FREQ⟩,
  ⟨15, 1, 0x002C, 0, 1, 0, 1, 32, .rw, .any, false, fun _ _ _ => Fd.SPN_MOTOR_POLES⟩,
  ⟨15, 1, 0x002C, 0, 1, 0, 1, 32, .rw, .any, false, fun _ _ _ => Fd.SPN_MOTOR_KE⟩,
  ⟨15, 1, 0x0030, 0, 1, 0, 1, 32, .rw, .any, false, fun _ _ _ => Fd.SPN_ILIM_RUN_MA⟩,
  ⟨15, 1, 0x0030, 0, 1, 0, 1, 32, .rw, .any, false, fun _ _ _ => Fd.SPN_ILIM_BRK_MA⟩,
  ⟨15, 1, 0x0034, 0, 1, 0, 1, 32, .rw, .any, false, fun _ _ _ => Fd.SPN_START_ALIGN_MS⟩,
  ⟨15, 1, 0x0034, 0, 1, 0, 1, 32, .rw, (.zeroTo 0x258), false, fun _ _ _ => Fd.SPN_START_RAMP⟩]

/-- Fields of SPN registers, part 2. -/
def regRowsSpn2 : List RegRow := [
  ⟨15, 1, 0x0034, 0, 1, 0, 1, 32, .rw, (.zeroTo 0x14), false, fun _ _ _ => Fd.SPN_START_SPINUP_S⟩,
  ⟨15, 1, 0x0038, 0, 1, 0, 1, 32, .rw, .any, false, fun _ _ _ => Fd.SPN_ISTART_ALIGN_MA⟩,
  ⟨15, 1, 0x0038, 0, 1, 0, 1, 32, .rw, .any, false, fun _ _ _ => Fd.SPN_ISTART_RAMP_MA⟩,
  ⟨15, 1, 0x003C, 0, 1, 0, 1, 32, .rw, .any, false, fun _ _ _ => Fd.SPN_LISTEN_VMIN⟩,
  ⟨15, 1, 0x0040, 0, 1, 0, 1, 32, .rw, .any, false, fun _ _ _ => Fd.SPN_LOS_STEP⟩,
  ⟨15, 1, 0x0040, 0, 1, 0, 1, 32, .rw, .any, false, fun _ _ _ => Fd.SPN_LOS_AMIS⟩,
  ⟨15, 1, 0x0040, 0, 1, 0, 1, 32, .rw, .any, false, fun _ _ _ => Fd.SPN_LOS_RES⟩,
  ⟨15, 1, 0x0040, 0, 1, 0, 1, 32, .rw, (.zeroTo 4), false, fun _ _ _ => Fd.SPN_LOS_NREV⟩,
  ⟨15, 1, 0x0044, 0, 1, 0, 1, 32, .ro, .any, false, fun _ _ _ => Fd.SPN_LOSCNT_WIN⟩,
  ⟨15, 1, 0x0044, 0, 1, 0, 1, 32, .rc, .any, false, fun _ _ _ => Fd.SPN_LOSCNT_TOTAL⟩,
  ⟨15, 1, 0x0048, 0, 1, 0, 1, 32, .rw, (.outside 0 2 0), false, fun _ _ _ => Fd.SPN_BRK_MODE⟩,
  ⟨15, 1, 0x004C, 0, 1, 0, 1, 32, .rw, .any, false, fun _ _ _ => Fd.SPN_WARM_WARM_MA⟩,
  ⟨15, 1, 0x004C, 0, 1, 0, 1, 32, .rw, .any, false, fun _ _ _ => Fd.SPN_WARM_WARM_S⟩,
  ⟨15, 1, 0x0050, 0, 1, 0, 1, 32, .w1c, .any, false, fun _ _ _ => Fd.SPN_INT_ATSPD⟩,
  ⟨15, 1, 0x0050, 0, 1, 0, 1, 32, .w1c, .any, false, fun _ _ _ => Fd.SPN_INT_LOS⟩,
  ⟨15, 1, 0x0050, 0, 1, 0, 1, 32, .w1c, .any, false, fun _ _ _ => Fd.SPN_INT_LOSSTOP⟩,
  ⟨15, 1, 0x0050, 0, 1, 0, 1, 32, .w1c, .any, false, fun _ _ _ => Fd.SPN_INT_SPINFAIL⟩,
  ⟨15, 1, 0x0050, 0, 1, 0, 1, 32, .w1c, .any, false, fun _ _ _ => Fd.SPN_INT_CHOPF⟩,
  ⟨15, 1, 0x0050, 0, 1, 0, 1, 32, .w1c, .any, false, fun _ _ _ => Fd.SPN_INT_OVP⟩,
  ⟨15, 1, 0x0050, 0, 1, 0, 1, 32, .w1c, .any, false, fun _ _ _ => Fd.SPN_INT_COLD⟩,
  ⟨15, 1, 0x0050, 0, 1, 0, 1, 32, .w1c, .any, false, fun _ _ _ => Fd.SPN_INT_PARKREQ⟩,
  ⟨15, 1, 0x0050, 0, 1, 0, 1, 32, .w1c, .any, false, fun _ _ _ => Fd.SPN_INT_DMDERR⟩,
  ⟨15, 1, 0x0050, 0, 1, 0, 1, 32, .w1c, .any, false, fun _ _ _ => Fd.SPN_INT_CURVEERR⟩,
  ⟨15, 1, 0x0050, 0, 1, 0, 1, 32, .w1c, .any, false, fun _ _ _ => Fd.SPN_INT_STARTERR⟩,
  ⟨15, 1, 0x0054, 0, 1, 0, 1, 32, .rw, .any, false, fun _ _ _ => Fd.SPN_INTEN_EN⟩,
  ⟨15, 1, 0x0058, 0, 1, 0, 1, 32, .rc, .any, false, fun _ _ _ => Fd.SPN_CNT0_STARTS⟩,
  ⟨15, 1, 0x0058, 0, 1, 0, 1, 32, .rc, .any, false, fun _ _ _ => Fd.SPN_CNT0_CATCHES⟩,
  ⟨15, 1, 0x005C, 0, 1, 0, 1, 32, .rc, .any, false, fun _ _ _ => Fd.SPN_CNT1_BRAKES⟩,
  ⟨15, 1, 0x005C, 0, 1, 0, 1, 32, .rc, .any, false, fun _ _ _ => Fd.SPN_CNT1_WARMS⟩,
  ⟨15, 1, 0x0100, 4, 16, 0, 1, 32, .rw, .any, false, fun _ i _ => Fd.SPN_CURVE_D i⟩]

/-- Fields of SPN registers, part 3. -/
def regRowsSpn3 : List RegRow := [
  ⟨15, 1, 0x0100, 4, 16, 0, 1, 32, .rw, (.clamp 3600 7200), false, fun _ i _ => Fd.SPN_CURVE_RPM i⟩]

/-- Fields of IRT registers, part 1. -/
def regRowsIrt1 : List RegRow := [
  ⟨5, 1, 0x8000, 16, 5, 0, 1, 32, .ro, .any, false, fun _ i _ => Fd.IRT_DSTAT_STATE i⟩,
  ⟨5, 1, 0x8000, 16, 5, 0, 1, 32, .ro, .any, false, fun _ i _ => Fd.IRT_DSTAT_EXPIRES i⟩,
  ⟨5, 1, 0x8000, 16, 5, 0, 1, 32, .ro, .any, false, fun _ i _ => Fd.IRT_DSTAT_GEN i⟩,
  ⟨5, 1, 0x8004, 16, 5, 0, 1, 32, .wo, .any, true, fun _ i _ => Fd.IRT_DCTL_RESTART i⟩,
  ⟨5, 1, 0x8004, 16, 5, 0, 1, 32, .rw, (.outside 1 25 0x19), false, fun _ i _ => Fd.IRT_DCTL_LIMIT_MS i⟩,
  ⟨5, 1, 0x8008, 16, 5, 0, 1, 32, .ro, .any, false, fun _ i _ => Fd.IRT_DLAST_INST i⟩,
  ⟨5, 1, 0x8008, 16, 5, 0, 1, 32, .ro, .any, false, fun _ i _ => Fd.IRT_DLAST_TYPE i⟩,
  ⟨5, 1, 0x8008, 16, 5, 0, 1, 32, .ro, .any, false, fun _ i _ => Fd.IRT_DLAST_CODE i⟩,
  ⟨5, 1, 0x8100, 0, 1, 0, 1, 32, .wo, .any, true, fun _ _ _ => Fd.IRT_WDOG_KICK⟩,
  ⟨5, 1, 0x8100, 0, 1, 0, 1, 32, .rw, (.outside 10 250 0xFA), false, fun _ _ _ => Fd.IRT_WDOG_LIMIT⟩,
  ⟨5, 1, 0x8104, 0, 1, 0, 1, 32, .ro, .any, false, fun _ _ _ => Fd.IRT_WSTAT_SUPEXP⟩,
  ⟨5, 1, 0x8104, 0, 1, 0, 1, 32, .ro, .any, false, fun _ _ _ => Fd.IRT_WSTAT_LOCKSTEP⟩,
  ⟨5, 1, 0x8104, 0, 1, 0, 1, 32, .rsh, .any, false, fun _ _ _ => Fd.IRT_WSTAT_CRESTART⟩,
  ⟨5, 1, 0x8108, 0, 1, 0, 1, 32, .w1c, .any, false, fun _ _ _ => Fd.IRT_WINT_DOMEXP⟩,
  ⟨5, 1, 0x8108, 0, 1, 0, 1, 32, .w1c, .any, false, fun _ _ _ => Fd.IRT_WINT_SUPEXP⟩,
  ⟨5, 1, 0x8108, 0, 1, 0, 1, 32, .w1c, .any, false, fun _ _ _ => Fd.IRT_WINT_UNITEXP⟩,
  ⟨5, 1, 0x810C, 0, 1, 0, 1, 32, .rw, .any, false, fun _ _ _ => Fd.IRT_WINTEN_EN⟩]

/-- Fields of CAL registers, part 1. -/
def regRowsCal1 : List RegRow := [
  ⟨14, 1, 0x0000, 0, 1, 0, 1, 32, .rw, .any, false, fun _ _ _ => Fd.CAL_CTL_SCOPE⟩,
  ⟨14, 1, 0x0000, 0, 1, 0, 1, 32, .rw, .any, false, fun _ _ _ => Fd.CAL_CTL_ACT⟩,
  ⟨14, 1, 0x0000, 0, 1, 0, 1, 32, .wo, .any, true, fun _ _ _ => Fd.CAL_CTL_GO⟩,
  ⟨14, 1, 0x0008, 0, 1, 0, 1, 32, .ro, .any, false, fun _ _ _ => Fd.CAL_STATUS_BUSY⟩,
  ⟨14, 1, 0x0008, 0, 1, 0, 1, 32, .ro, .any, false, fun _ _ _ => Fd.CAL_STATUS_PEND⟩,
  ⟨14, 1, 0x0008, 0, 1, 0, 1, 32, .ro, .any, false, fun _ _ _ => Fd.CAL_STATUS_ITEM⟩,
  ⟨14, 1, 0x0008, 0, 1, 0, 1, 32, .ro, .any, false, fun _ _ _ => Fd.CAL_STATUS_ACTNOW⟩,
  ⟨14, 1, 0x0010, 0, 1, 0, 1, 32, .ro, .any, false, fun _ _ _ => Fd.CAL_COUNT_PASSES⟩,
  ⟨14, 1, 0x0018, 0, 1, 0, 1, 64, .ro, .any, false, fun _ _ _ => Fd.CAL_LAST_TIME⟩,
  ⟨14, 1, 0x0020, 0, 1, 0, 1, 32, .w1c, .any, false, fun _ _ _ => Fd.CAL_INT_DONE⟩,
  ⟨14, 1, 0x0020, 0, 1, 0, 1, 32, .w1c, .any, false, fun _ _ _ => Fd.CAL_INT_FAIL⟩,
  ⟨14, 1, 0x0020, 0, 1, 0, 1, 32, .w1c, .any, false, fun _ _ _ => Fd.CAL_INT_SKIP⟩,
  ⟨14, 1, 0x0020, 0, 1, 0, 1, 32, .w1c, .any, false, fun _ _ _ => Fd.CAL_INT_FAULT⟩,
  ⟨14, 1, 0x0024, 0, 1, 0, 1, 32, .rw, .any, false, fun _ _ _ => Fd.CAL_INTEN_EN⟩,
  ⟨14, 1, 0x0028, 0, 1, 0, 1, 32, .ro, .any, false, fun _ _ _ => Fd.CAL_FAIL_ITEMS⟩,
  ⟨14, 1, 0x002C, 0, 1, 0, 1, 32, .rc, .any, false, fun _ _ _ => Fd.CAL_SKIPPED_ITEMS⟩,
  ⟨14, 1, 0x0030, 0, 1, 0, 1, 32, .rw, .any, false, fun _ _ _ => Fd.CAL_RCOIL_RCOIL_MA⟩,
  ⟨14, 1, 0x0040, 4, 4, 0, 1, 32, .ro, .any, false, fun _ i _ => Fd.CAL_RCOILA_MOHM i⟩]

/-- Fields of HSK registers, part 1. -/
def regRowsHsk1 : List RegRow := [
  ⟨12, 1, 0x0000, 0, 1, 0, 1, 32, .ro, .any, false, fun _ _ _ => Fd.HSK_ROUND_COUNT⟩,
  ⟨12, 1, 0x0008, 0, 1, 0, 1, 32, .ro, .any, false, fun _ _ _ => Fd.HSK_TSTAT_COND⟩,
  ⟨12, 1, 0x0008, 0, 1, 0, 1, 32, .ro, .any, false, fun _ _ _ => Fd.HSK_TSTAT_RESTR⟩,
  ⟨12, 1, 0x000C, 0, 1, 0, 1, 32, .ro, .any, false, fun _ _ _ => Fd.HSK_RANGE_OUT⟩,
  ⟨12, 1, 0x0010, 0, 1, 0, 1, 32, .w1c, .any, false, fun _ _ _ => Fd.HSK_INT_TEMP⟩,
  ⟨12, 1, 0x0010, 0, 1, 0, 1, 32, .w1c, .any, false, fun _ _ _ => Fd.HSK_INT_SENSOR⟩,
  ⟨12, 1, 0x0010, 0, 1, 0, 1, 32, .w1c, .any, false, fun _ _ _ => Fd.HSK_INT_RANGE⟩,
  ⟨12, 1, 0x0010, 0, 1, 0, 1, 32, .w1c, .any, false, fun _ _ _ => Fd.HSK_INT_REFLOSS⟩,
  ⟨12, 1, 0x0014, 0, 1, 0, 1, 32, .rw, .any, false, fun _ _ _ => Fd.HSK_INTEN_EN⟩,
  ⟨12, 1, 0x0018, 0, 1, 0, 1, 32, .wo, .any, true, fun _ _ _ => Fd.HSK_SENSCLR_CLR⟩,
  ⟨12, 1, 0x001C, 0, 1, 0, 1, 32, .rw, .any, false, fun _ _ _ => Fd.HSK_TXOFS_OFS⟩,
  ⟨12, 1, 0x0100, 4, 10, 0, 1, 32, .ro, .any, false, fun _ i _ => Fd.HSK_TEMP_VALUE i⟩,
  ⟨12, 1, 0x0100, 4, 10, 0, 1, 32, .rsh, .any, false, fun _ i _ => Fd.HSK_TEMP_BROKEN i⟩,
  ⟨12, 1, 0x0100, 4, 10, 0, 1, 32, .ro, .any, false, fun _ i _ => Fd.HSK_TEMP_SUBST i⟩,
  ⟨12, 1, 0x0100, 4, 10, 0, 1, 32, .ro, .any, false, fun _ i _ => Fd.HSK_TEMP_COUNT i⟩,
  ⟨12, 1, 0x0228, 4, 14, 0, 1, 32, .ro, .any, false, fun _ i _ => Fd.HSK_CHAN_VALUE (i + 10)⟩,
  ⟨12, 1, 0x0350, 8, 9, 0, 1, 32, .rw, .any, false, fun _ i _ => Fd.HSK_LOW_LIM (i + 10)⟩,
  ⟨12, 1, 0x0354, 8, 9, 0, 1, 32, .rw, .any, false, fun _ i _ => Fd.HSK_HIGH_LIM (i + 10)⟩,
  ⟨12, 1, 0x0800, 0, 1, 0, 1, 32, .rw, .any, true, fun _ _ _ => Fd.HSK_VCTL_EN⟩,
  ⟨12, 1, 0x0800, 0, 1, 0, 1, 32, .rw, .any, false, fun _ _ _ => Fd.HSK_VCTL_ADDR⟩,
  ⟨12, 1, 0x0804, 0, 1, 0, 1, 32, .rw, (.clamp 600 900), false, fun _ _ _ => Fd.HSK_VBND_LO_MV⟩,
  ⟨12, 1, 0x0804, 0, 1, 0, 1, 32, .rw, (.clamp 600 900), false, fun _ _ _ => Fd.HSK_VBND_HI_MV⟩,
  ⟨12, 1, 0x0808, 0, 1, 0, 1, 32, .rw, (.outside 10 255 10), false, fun _ _ _ => Fd.HSK_VCFG_VPER⟩,
  ⟨12, 1, 0x0808, 0, 1, 0, 1, 32, .rw, (.zeroTo 0xA), false, fun _ _ _ => Fd.HSK_VCFG_UP_MV⟩,
  ⟨12, 1, 0x0808, 0, 1, 0, 1, 32, .rw, (.zeroTo 5), false, fun _ _ _ => Fd.HSK_VCFG_DN_MV⟩,
  ⟨12, 1, 0x0808, 0, 1, 0, 1, 32, .rw, (.zeroTo 0xA), false, fun _ _ _ => Fd.HSK_VCFG_DOWNN⟩,
  ⟨12, 1, 0x080C, 0, 1, 0, 1, 32, .wo, .any, false, fun _ _ _ => Fd.HSK_VSET_MV⟩,
  ⟨12, 1, 0x0810, 0, 1, 0, 1, 32, .ro, .any, false, fun _ _ _ => Fd.HSK_VSTAT_NOW_MV⟩,
  ⟨12, 1, 0x0810, 0, 1, 0, 1, 32, .w1c, .any, false, fun _ _ _ => Fd.HSK_VSTAT_PIN_HI⟩,
  ⟨12, 1, 0x0810, 0, 1, 0, 1, 32, .w1c, .any, false, fun _ _ _ => Fd.HSK_VSTAT_PIN_LO⟩]

/-- Fields of HSK registers, part 2. -/
def regRowsHsk2 : List RegRow := [
  ⟨12, 1, 0x0810, 0, 1, 0, 1, 32, .rsh, .any, false, fun _ _ _ => Fd.HSK_VSTAT_REGERR⟩,
  ⟨12, 1, 0x0810, 0, 1, 0, 1, 32, .ro, .any, false, fun _ _ _ => Fd.HSK_VSTAT_CAP⟩,
  ⟨12, 1, 0x0810, 0, 1, 0, 1, 32, .ro, .any, false, fun _ _ _ => Fd.HSK_VSTAT_VOUT⟩,
  ⟨12, 1, 0x0814, 0, 1, 0, 1, 32, .ro, .any, false, fun _ _ _ => Fd.HSK_VMODE_MODE⟩,
  ⟨12, 1, 0x0818, 0, 1, 0, 1, 32, .w1c, .any, false, fun _ _ _ => Fd.HSK_VINT_PIN⟩,
  ⟨12, 1, 0x0818, 0, 1, 0, 1, 32, .w1c, .any, false, fun _ _ _ => Fd.HSK_VINT_REGERR⟩,
  ⟨12, 1, 0x081C, 0, 1, 0, 1, 32, .rw, .any, false, fun _ _ _ => Fd.HSK_VINTEN_EN⟩,
  ⟨12, 1, 0x0820, 0, 1, 0, 1, 32, .ro, .any, false, fun _ _ _ => Fd.HSK_VPINS_COUNT⟩,
  ⟨12, 1, 0x0900, 0, 1, 0, 1, 32, .rw, .special, false, fun _ _ _ => Fd.HSK_START_PHASE⟩,
  ⟨12, 1, 0x0900, 0, 1, 0, 1, 32, .ro, .any, false, fun _ _ _ => Fd.HSK_START_KIND⟩,
  ⟨12, 1, 0x0900, 0, 1, 0, 1, 32, .rw, .special, false, fun _ _ _ => Fd.HSK_START_PH0⟩,
  ⟨12, 1, 0x0900, 0, 1, 0, 1, 32, .rw, .special, false, fun _ _ _ => Fd.HSK_START_PH1⟩,
  ⟨12, 1, 0x0900, 0, 1, 0, 1, 32, .rw, .special, false, fun _ _ _ => Fd.HSK_START_PH2⟩,
  ⟨12, 1, 0x0900, 0, 1, 0, 1, 32, .rw, .special, false, fun _ _ _ => Fd.HSK_START_PH3⟩,
  ⟨12, 1, 0x0900, 0, 1, 0, 1, 32, .rsh, .any, false, fun _ _ _ => Fd.HSK_START_DIP⟩,
  ⟨12, 1, 0x0904, 0, 1, 0, 1, 32, .rw, .any, false, fun _ _ _ => Fd.HSK_PLCFG_DIPREC⟩,
  ⟨12, 1, 0x0904, 0, 1, 0, 1, 32, .rw, (.zeroTo 0x64), false, fun _ _ _ => Fd.HSK_PLCFG_DIP_MS⟩,
  ⟨12, 1, 0x0908, 0, 1, 0, 1, 32, .ro, .any, false, fun _ _ _ => Fd.HSK_PLSTAT_DECL⟩,
  ⟨12, 1, 0x0908, 0, 1, 0, 1, 32, .ro, .any, false, fun _ _ _ => Fd.HSK_PLSTAT_ARMED⟩,
  ⟨12, 1, 0x0908, 0, 1, 0, 1, 32, .ro, .any, false, fun _ _ _ => Fd.HSK_PLSTAT_VOIDS⟩,
  ⟨12, 1, 0x0908, 0, 1, 0, 1, 32, .ro, .any, false, fun _ _ _ => Fd.HSK_PLSTAT_PARKED⟩,
  ⟨12, 1, 0x0908, 0, 1, 0, 1, 32, .ro, .any, false, fun _ _ _ => Fd.HSK_PLSTAT_VMOT_MIN⟩]

/-- Fields of IRT registers, part 2. -/
def regRowsIrt2 : List RegRow := [
  ⟨5, 1, 0x0000, 4, 512, 0, 1, 32, .rw, .any, true, fun _ i _ => Fd.IRT_SRC_PRIO i⟩,
  ⟨5, 1, 0x0000, 4, 512, 0, 1, 32, .rw, .any, true, fun _ i _ => Fd.IRT_SRC_TARGET i⟩,
  ⟨5, 1, 0x0000, 4, 512, 0, 1, 32, .ro, .any, false, fun _ i _ => Fd.IRT_SRC_PEND i⟩,
  ⟨5, 1, 0x0000, 4, 512, 0, 1, 32, .ro, .any, false, fun _ i _ => Fd.IRT_SRC_ACTIVE i⟩,
  ⟨5, 1, 0x1000, 16, 5, 0, 1, 32, .rw, .any, true, fun _ i _ => Fd.IRT_CLAIM_SOURCE i⟩,
  ⟨5, 1, 0x1000, 16, 5, 0, 1, 32, .ro, .any, true, fun _ i _ => Fd.IRT_CLAIM_NONE i⟩,
  ⟨5, 1, 0x1004, 16, 5, 0, 1, 32, .rw, .any, false, fun _ i _ => Fd.IRT_THRESH_THRESH i⟩,
  ⟨5, 1, 0x2000, 0, 1, 0, 1, 64, .ro, .any, false, fun _ _ _ => Fd.IRT_MTIME_TIME⟩,
  ⟨5, 1, 0x2008, 8, 5, 0, 1, 64, .rw, .any, false, fun _ i _ => Fd.IRT_MTIMECMP_CMP i⟩,
  ⟨5, 1, 0x2040, 4, 5, 0, 1, 32, .rw, .any, true, fun _ i _ => Fd.IRT_MSIP_MSIP i⟩,
  ⟨5, 1, 0x2080, 8, 4, 0, 1, 64, .rw, .any, true, fun _ i _ => Fd.IRT_FBOOT_RUN i⟩,
  ⟨5, 1, 0x2080, 8, 4, 0, 1, 64, .rw, .any, false, fun _ i _ => Fd.IRT_FBOOT_ENTRY i⟩]

/-- Fields of EVR registers, part 1. -/
def regRowsEvr1 : List RegRow := [
  ⟨13, 1, 0x0000, 0, 1, 0, 1, 32, .rw, (.outside 0 2 1), false, fun _ _ _ => Fd.EVR_CTL_PHASE⟩,
  ⟨13, 1, 0x0000, 0, 1, 0, 1, 32, .rw, .any, false, fun _ _ _ => Fd.EVR_CTL_MINSEV⟩,
  ⟨13, 1, 0x0000, 0, 1, 0, 1, 32, .rw, .any, false, fun _ _ _ => Fd.EVR_CTL_INTSEV⟩,
  ⟨13, 1, 0x0008, 0, 1, 0, 1, 32, .ro, .any, false, fun _ _ _ => Fd.EVR_STATUS_COUNT⟩,
  ⟨13, 1, 0x0008, 0, 1, 0, 1, 32, .ro, .any, false, fun _ _ _ => Fd.EVR_STATUS_FULL⟩,
  ⟨13, 1, 0x0008, 0, 1, 0, 1, 32, .ro, .any, false, fun _ _ _ => Fd.EVR_STATUS_RESTORE⟩,
  ⟨13, 1, 0x000C, 0, 1, 0, 1, 32, .ro, .any, false, fun _ _ _ => Fd.EVR_SEQ_NEXT⟩,
  ⟨13, 1, 0x0010, 0, 1, 0, 1, 32, .rw, (.zeroTo 8), false, fun _ _ _ => Fd.EVR_RATE_LIMIT⟩,
  ⟨13, 1, 0x0018, 0, 1, 0, 1, 64, .ro, .any, false, fun _ _ _ => Fd.EVR_RING_ADDR⟩,
  ⟨13, 1, 0x0020, 0, 1, 0, 1, 32, .wo, .any, true, fun _ _ _ => Fd.EVR_CLR_GO⟩,
  ⟨13, 1, 0x0020, 0, 1, 0, 1, 32, .ro, .any, false, fun _ _ _ => Fd.EVR_CLR_AUTH⟩,
  ⟨13, 1, 0x0028, 0, 1, 0, 1, 32, .w1c, .any, false, fun _ _ _ => Fd.EVR_INT_FULL⟩,
  ⟨13, 1, 0x0028, 0, 1, 0, 1, 32, .w1c, .any, false, fun _ _ _ => Fd.EVR_INT_SEV⟩,
  ⟨13, 1, 0x0028, 0, 1, 0, 1, 32, .w1c, .any, false, fun _ _ _ => Fd.EVR_INT_CLEARED⟩,
  ⟨13, 1, 0x0028, 0, 1, 0, 1, 32, .w1c, .any, false, fun _ _ _ => Fd.EVR_INT_CLRREF⟩,
  ⟨13, 1, 0x0028, 0, 1, 0, 1, 32, .w1c, .any, false, fun _ _ _ => Fd.EVR_INT_FLASHERR⟩,
  ⟨13, 1, 0x0028, 0, 1, 0, 1, 32, .w1c, .any, false, fun _ _ _ => Fd.EVR_INT_RAISEREF⟩,
  ⟨13, 1, 0x002C, 0, 1, 0, 1, 32, .rw, .any, false, fun _ _ _ => Fd.EVR_INTEN_EN⟩,
  ⟨13, 1, 0x0040, 4, 5, 0, 1, 32, .wo, .any, true, fun _ i _ => Fd.EVR_EVF_GO i⟩,
  ⟨13, 1, 0x0040, 4, 5, 0, 1, 32, .ro, .any, false, fun _ i _ => Fd.EVR_EVF_DONE i⟩,
  ⟨13, 1, 0x0100, 16, 5, 0, 1, 32, .wo, .any, false, fun _ i _ => Fd.EVR_RAISE_CODE i⟩,
  ⟨13, 1, 0x0100, 16, 5, 0, 1, 32, .wo, .any, false, fun _ i _ => Fd.EVR_RAISE_SEV i⟩,
  ⟨13, 1, 0x0100, 16, 5, 0, 1, 32, .wo, .any, true, fun _ i _ => Fd.EVR_RAISE_GO i⟩,
  ⟨13, 1, 0x0100, 16, 5, 0, 1, 32, .ro, .any, false, fun _ i _ => Fd.EVR_RAISE_BUSY i⟩,
  ⟨13, 1, 0x0104, 16, 5, 4, 3, 32, .rw, .any, false, fun _ i j => Fd.EVR_RAISEP_PARAM i j⟩]

/-- Fields of CFX registers, part 1. -/
def regRowsCfx1 : List RegRow := [
  ⟨3, 1, 0x0000, 0, 1, 0, 1, 32, .rw, .any, false, fun _ _ _ => Fd.CFX_CTL_EN⟩,
  ⟨3, 1, 0x0000, 0, 1, 0, 1, 32, .rw, .any, false, fun _ _ _ => Fd.CFX_CTL_RELAY⟩,
  ⟨3, 1, 0x0008, 0, 1, 0, 1, 32, .ro, .any, false, fun _ _ _ => Fd.CFX_STATUS_POS⟩,
  ⟨3, 1, 0x0008, 0, 1, 0, 1, 32, .ro, .any, false, fun _ _ _ => Fd.CFX_STATUS_SIZE⟩,
  ⟨3, 1, 0x0008, 0, 1, 0, 1, 32, .ro, .any, false, fun _ _ _ => Fd.CFX_STATUS_GID⟩,
  ⟨3, 1, 0x0008, 0, 1, 0, 1, 32, .ro, .any, false, fun _ _ _ => Fd.CFX_STATUS_MOUTH⟩,
  ⟨3, 1, 0x0008, 0, 1, 0, 1, 32, .ro, .any, false, fun _ _ _ => Fd.CFX_STATUS_LEAD⟩,
  ⟨3, 1, 0x0008, 0, 1, 0, 1, 32, .ro, .any, false, fun _ _ _ => Fd.CFX_STATUS_HASLEAD⟩,
  ⟨3, 1, 0x0008, 0, 1, 0, 1, 32, .ro, .any, false, fun _ _ _ => Fd.CFX_STATUS_ISLEAD⟩,
  ⟨3, 1, 0x0008, 0, 1, 0, 1, 32, .ro, .any, false, fun _ _ _ => Fd.CFX_STATUS_CUTOFF⟩,
  ⟨3, 1, 0x0010, 0, 1, 0, 1, 32, .ro, .any, false, fun _ _ _ => Fd.CFX_PEERS_PRESENT⟩,
  ⟨3, 1, 0x0010, 0, 1, 0, 1, 32, .ro, .any, false, fun _ _ _ => Fd.CFX_PEERS_LOST⟩,
  ⟨3, 1, 0x0010, 0, 1, 0, 1, 32, .ro, .any, false, fun _ _ _ => Fd.CFX_PEERS_RELAYED⟩,
  ⟨3, 1, 0x0018, 4, 3, 0, 1, 32, .ro, .any, false, fun _ i _ => Fd.CFX_LINK_UP i⟩,
  ⟨3, 1, 0x0018, 4, 3, 0, 1, 32, .ro, .any, false, fun _ i _ => Fd.CFX_LINK_PEER i⟩,
  ⟨3, 1, 0x0018, 4, 3, 0, 1, 32, .ro, .any, false, fun _ i _ => Fd.CFX_LINK_MISMATCH i⟩,
  ⟨3, 1, 0x0028, 0, 1, 0, 1, 64, .ro, .any, false, fun _ _ _ => Fd.CFX_VERSION_VER⟩,
  ⟨3, 1, 0x0030, 0, 1, 0, 1, 32, .wo, .any, false, fun _ _ _ => Fd.CFX_FENCE_MASK⟩,
  ⟨3, 1, 0x0030, 0, 1, 0, 1, 32, .wo, .any, true, fun _ _ _ => Fd.CFX_FENCE_GO⟩,
  ⟨3, 1, 0x0030, 0, 1, 0, 1, 32, .ro, .any, false, fun _ _ _ => Fd.CFX_FENCE_DONE⟩,
  ⟨3, 1, 0x0030, 0, 1, 0, 1, 32, .ro, .any, false, fun _ _ _ => Fd.CFX_FENCE_FAILED⟩,
  ⟨3, 1, 0x0034, 0, 1, 0, 1, 32, .rw, (.outside 1 2 1), false, fun _ _ _ => Fd.CFX_TOKEN_COUNT⟩,
  ⟨3, 1, 0x0034, 0, 1, 0, 1, 32, .rw, .any, false, fun _ _ _ => Fd.CFX_TOKEN_WAIT_S⟩,
  ⟨3, 1, 0x0034, 0, 1, 0, 1, 32, .ro, .any, false, fun _ _ _ => Fd.CFX_TOKEN_HELD⟩,
  ⟨3, 1, 0x0034, 0, 1, 0, 1, 32, .ro, .any, false, fun _ _ _ => Fd.CFX_TOKEN_SOLO⟩,
  ⟨3, 1, 0x0038, 0, 1, 0, 1, 32, .rw, (.outside 256 16384 0x1000), false, fun _ _ _ => Fd.CFX_FWDRES_CTX⟩,
  ⟨3, 1, 0x0040, 0, 1, 0, 1, 32, .w1c, .any, false, fun _ _ _ => Fd.CFX_INT_PEERLOST⟩,
  ⟨3, 1, 0x0040, 0, 1, 0, 1, 32, .w1c, .any, false, fun _ _ _ => Fd.CFX_INT_PEERBACK⟩,
  ⟨3, 1, 0x0040, 0, 1, 0, 1, 32, .w1c, .any, false, fun _ _ _ => Fd.CFX_INT_LINKDN⟩,
  ⟨3, 1, 0x0040, 0, 1, 0, 1, 32, .w1c, .any, false, fun _ _ _ => Fd.CFX_INT_MISMATCH⟩]

/-- Fields of CFX registers, part 2. -/
def regRowsCfx2 : List RegRow := [
  ⟨3, 1, 0x0040, 0, 1, 0, 1, 32, .w1c, .any, false, fun _ _ _ => Fd.CFX_INT_LEADCHG⟩,
  ⟨3, 1, 0x0040, 0, 1, 0, 1, 32, .w1c, .any, false, fun _ _ _ => Fd.CFX_INT_CUTOFF⟩,
  ⟨3, 1, 0x0044, 0, 1, 0, 1, 32, .rw, .any, false, fun _ _ _ => Fd.CFX_INTEN_EN⟩,
  ⟨3, 1, 0x0048, 0, 1, 0, 1, 32, .rc, .any, false, fun _ _ _ => Fd.CFX_CNT0_LOSSES⟩,
  ⟨3, 1, 0x0048, 0, 1, 0, 1, 32, .rc, .any, false, fun _ _ _ => Fd.CFX_CNT0_BADTYPE⟩,
  ⟨3, 1, 0x004C, 0, 1, 0, 1, 32, .rc, .any, false, fun _ _ _ => Fd.CFX_CNT1_FWD⟩]

/-- Fields of TRU registers, part 1. -/
def regRowsTru1 : List RegRow := [
  ⟨11, 1, 0x0000, 0, 1, 0, 1, 32, .ro, .any, false, fun _ _ _ => Fd.TRU_STATUS_IRFUSED⟩,
  ⟨11, 1, 0x0000, 0, 1, 0, 1, 32, .ro, .any, false, fun _ _ _ => Fd.TRU_STATUS_SESSION⟩,
  ⟨11, 1, 0x0000, 0, 1, 0, 1, 32, .rsh, .any, false, fun _ _ _ => Fd.TRU_STATUS_TAMPER⟩,
  ⟨11, 1, 0x0000, 0, 1, 0, 1, 32, .ro, .any, false, fun _ _ _ => Fd.TRU_STATUS_GKCUT⟩,
  ⟨11, 1, 0x0010, 4, 12, 0, 1, 32, .rw, .any, false, fun _ i _ => Fd.TRU_IROOT_HASH i⟩,
  ⟨11, 1, 0x0040, 0, 1, 0, 1, 32, .wo, .any, true, fun _ _ _ => Fd.TRU_IRCOMMIT_COMMIT⟩,
  ⟨11, 1, 0x0048, 8, 2, 0, 1, 64, .ro, .any, false, fun _ i _ => Fd.TRU_NONCE_NONCE i⟩,
  ⟨11, 1, 0x0058, 0, 1, 0, 1, 32, .wo, .any, true, fun _ _ _ => Fd.TRU_AUTHREQ_GO⟩,
  ⟨11, 1, 0x0058, 0, 1, 0, 1, 32, .rw, .any, false, fun _ _ _ => Fd.TRU_AUTHREQ_KIND⟩,
  ⟨11, 1, 0x0058, 0, 1, 0, 1, 32, .ro, .any, false, fun _ _ _ => Fd.TRU_AUTHREQ_DONE⟩,
  ⟨11, 1, 0x0058, 0, 1, 0, 1, 32, .ro, .any, false, fun _ _ _ => Fd.TRU_AUTHREQ_OK⟩,
  ⟨11, 1, 0x0060, 0, 1, 0, 1, 32, .wo, .any, true, fun _ _ _ => Fd.TRU_ARB_ADVFW⟩,
  ⟨11, 1, 0x0060, 0, 1, 0, 1, 32, .wo, .any, true, fun _ _ _ => Fd.TRU_ARB_ADVUC⟩,
  ⟨11, 1, 0x0060, 0, 1, 0, 1, 32, .ro, .any, false, fun _ _ _ => Fd.TRU_ARB_FWUSED⟩,
  ⟨11, 1, 0x0060, 0, 1, 0, 1, 32, .ro, .any, false, fun _ _ _ => Fd.TRU_ARB_UCUSED⟩,
  ⟨11, 1, 0x0068, 8, 2, 0, 1, 64, .ro, .any, false, fun _ i _ => Fd.TRU_ARBV_VALUE i⟩,
  ⟨11, 1, 0x0078, 0, 1, 0, 1, 32, .rw, .any, false, fun _ _ _ => Fd.TRU_BOOTSEL_SLOT⟩,
  ⟨11, 1, 0x0078, 0, 1, 0, 1, 32, .ro, .any, false, fun _ _ _ => Fd.TRU_BOOTSEL_RUNNING⟩,
  ⟨11, 1, 0x0078, 0, 1, 0, 1, 32, .ro, .any, false, fun _ _ _ => Fd.TRU_BOOTSEL_FALLBACK⟩,
  ⟨11, 1, 0x0080, 0, 1, 0, 1, 32, .w1c, .any, false, fun _ _ _ => Fd.TRU_INT_DENY⟩,
  ⟨11, 1, 0x0080, 0, 1, 0, 1, 32, .w1c, .any, false, fun _ _ _ => Fd.TRU_INT_ARBFULL⟩,
  ⟨11, 1, 0x0080, 0, 1, 0, 1, 32, .w1c, .any, false, fun _ _ _ => Fd.TRU_INT_GENKEY⟩,
  ⟨11, 1, 0x0084, 0, 1, 0, 1, 32, .rw, .any, false, fun _ _ _ => Fd.TRU_INTEN_EN⟩,
  ⟨11, 1, 0x0100, 4, 49, 0, 1, 32, .wo, .any, false, fun _ i _ => Fd.TRU_TOKEN_SIG i⟩,
  ⟨11, 1, 0x1000, 32, 65, 0, 1, 32, .rw, .any, true, fun _ i _ => Fd.TRU_RANGE_CFG_DEFINED i⟩,
  ⟨11, 1, 0x1000, 32, 65, 0, 1, 32, .rw, .any, true, fun _ i _ => Fd.TRU_RANGE_CFG_RLCK i⟩,
  ⟨11, 1, 0x1000, 32, 65, 0, 1, 32, .rw, .any, true, fun _ i _ => Fd.TRU_RANGE_CFG_WLCK i⟩,
  ⟨11, 1, 0x1000, 32, 65, 0, 1, 32, .ro, .any, false, fun _ i _ => Fd.TRU_RANGE_CFG_KEYOK i⟩,
  ⟨11, 1, 0x1000, 32, 65, 0, 1, 32, .rw, .any, true, fun _ i _ => Fd.TRU_RANGE_CFG_NS i⟩,
  ⟨11, 1, 0x1000, 32, 65, 0, 1, 32, .wo, .any, true, fun _ i _ => Fd.TRU_RANGE_CFG_GENKEY i⟩]

/-- Fields of TRU registers, part 2. -/
def regRowsTru2 : List RegRow := [
  ⟨11, 1, 0x1008, 32, 65, 0, 1, 64, .rw, .any, true, fun _ i _ => Fd.TRU_RANGE_START_LBA i⟩,
  ⟨11, 1, 0x1010, 32, 65, 0, 1, 64, .rw, .any, true, fun _ i _ => Fd.TRU_RANGE_LEN_BLOCKS i⟩,
  ⟨11, 1, 0x1018, 32, 65, 0, 1, 32, .ro, .any, false, fun _ i _ => Fd.TRU_RANGE_GEN_GEN i⟩]

/-- The fields of every management slot. -/
def slotRows : List SlotRow := [
  ⟨0x0, .ro, .any, false, fun w k => Fd.SLOT_ID_INST w k⟩,
  ⟨0x0, .ro, .any, false, fun w k => Fd.SLOT_ID_LEVEL w k⟩,
  ⟨0x0, .ro, .any, false, fun w k => Fd.SLOT_ID_DOMAIN w k⟩,
  ⟨0x0, .ro, .any, false, fun w k => Fd.SLOT_ID_TYPE w k⟩,
  ⟨0x4, .ro, .any, false, fun w k => Fd.SLOT_STATE_STATE w k⟩,
  ⟨0x4, .ro, .any, false, fun w k => Fd.SLOT_STATE_EXPIRES w k⟩,
  ⟨0x4, .ro, .any, false, fun w k => Fd.SLOT_STATE_GEN w k⟩,
  ⟨0x8, .rw, (.outside 1 50 0x32), false, fun w k => Fd.SLOT_LIMIT_ELEM_US w k⟩,
  ⟨0x8, .rw, (.outside 1 200 0xC8), false, fun w k => Fd.SLOT_LIMIT_UNIT_10US w k⟩,
  ⟨0xc, .rw, .any, true, fun w k => Fd.SLOT_CTL_QUIESCE w k⟩,
  ⟨0xc, .wo, .any, true, fun w k => Fd.SLOT_CTL_RESET w k⟩,
  ⟨0xc, .rw, .any, true, fun w k => Fd.SLOT_CTL_DEGRADE w k⟩,
  ⟨0x10, .w1c, .any, false, fun w k => Fd.SLOT_FAULT_FAULT w k⟩,
  ⟨0x10, .ro, .any, false, fun w k => Fd.SLOT_FAULT_CODE w k⟩,
  ⟨0x14, .ro, .any, false, fun w k => Fd.SLOT_PROGRESS_COUNT w k⟩]

/-- Every field of every register map. -/
def regRows : List RegRow :=
  regRowsRch1 ++ regRowsRch2 ++ regRowsRch3 ++ regRowsChn1 ++ regRowsChn2 ++ regRowsChn3 ++ regRowsDec1 ++ regRowsChn4 ++ regRowsChn5 ++ regRowsArm1 ++ regRowsSrv1 ++ regRowsSrv2 ++ regRowsSrv3 ++ regRowsInt1 ++ regRowsIntp1 ++ regRowsInt2 ++ regRowsStg1 ++ regRowsMem1 ++ regRowsMem2 ++ regRowsSlc1 ++ regRowsBkw1 ++ regRowsWeir1 ++ regRowsCfl1 ++ regRowsCfl2 ++ regRowsSpn1 ++ regRowsSpn2 ++ regRowsSpn3 ++ regRowsIrt1 ++ regRowsCal1 ++ regRowsHsk1 ++ regRowsHsk2 ++ regRowsIrt2 ++ regRowsEvr1 ++ regRowsCfx1 ++ regRowsCfx2 ++ regRowsTru1 ++ regRowsTru2

end Sys2Proof.Machine
end

