-- ==== Sys2Proof/Machine/Microcode.lean ====
section
/-! DEFINITION. The control store of a Reach engine: its words and their parity, the match table, the microword with its operations, condition
bits and next address, and the waits (08). The ROM's words are a constant without a body, so which microroutine an instruction runs is not in
the model; what a word does that the engine reads is. -/

namespace Sys2Proof.Machine

/-! ### The control store and the match table (R268, R269, R284, R285) -/

/-- A control-store word of 30 bits, with odd parity over each half in bits 30 and 31 (R269). -/
def parityWord (v : Nat) : Nat :=
  v % 2 ^ 30 + (if (List.range 15).countP (bit v) % 2 = 0 then 2 ^ 30 else 0) + (if ((List.range 15).countP fun i => bit v (15 + i)) % 2 = 0 then 2 ^ 31 else 0)

/-- Whether bits [14:0] of a control-store word fail their parity in bit 30. -/
def lowBad (w : Nat) : Bool := ((List.range 15).countP (bit w) + b2n (bit w 30)) % 2 == 0

/-- Whether bits [29:15] of a control-store word fail their parity in bit 31. -/
def highBad (w : Nat) : Bool := (((List.range 15).countP fun i => bit w (15 + i)) + b2n (bit w 31)) % 2 == 0

/-- The patch RAM address that a match entry puts in the place of a ROM address, where it covers it (Table 08.7). -/
def matchAt (e u : Nat) : Option Nat :=
  if !bit e 31 then none
  else if bit e 13 then (if u / 16 = bits e 0 13 / 16 then some (0x1800 + bits e 16 11 + u % 16) else none)
  else if u = bits e 0 13 then some (0x1800 + bits e 16 11) else none

/-- The address that is read for a next address: the match table applies to every one in ROM, its lowest-numbered entry first (R285). -/
def State.overlay (s : State) (n : Fin 4) (u : Nat) : Nat :=
  if 0x1800 ≤ u then u else ((List.range 64).findSome? fun i => matchAt (s.rd (Fd.RCH_MATCH_ENTRY n i)) u).getD u

/-- The word that the control store of an engine holds at an address (R268); a patch RAM word that nothing has loaded is 0. -/
def State.ucodeWord (s : State) (n : Fin 4) (u : Nat) : Nat :=
  if u < 0x1800 then parityWord (Config.ucodeRom u).toNat else (s.eng n).patch.getD (u - 0x1800) 0

/-! ### The fields of a microword (R270, Table 08.1) -/

/-- OP. -/
def mOp (w : Nat) : Nat := bits w 25 5

/-- NX. -/
def mNx (w : Nat) : Nat := bits w 23 2

/-- D. -/
def mD (w : Nat) : Nat := bits w 18 5

/-- S; a dispatch word takes it as code 23. -/
def mS (w : Nat) : Nat := if mNx w = 2 then 23 else bits w 13 5

/-- K; only a sequential word has one. -/
def mK (w : Nat) : Nat := if mNx w = 0 then bits w 0 13 else 0

/-- Whether the word's operation waits for its unit's acknowledgement: PRD, PWR, SEC, POS, ARQ, SLQ, ZNQ or HND (R273). -/
def mAsks (w : Nat) : Bool := mNx w != 3 && [0x0D, 0x0E, 0x15, 0x16, 0x17, 0x18, 0x19, 0x1A].contains (mOp w)

/-- Whether a word at an address is illegal (R276, R279): OP 0x1F, D code 23, a wait word that breaks R276 or whose reserved bits are not 0, or a
sequential step out of the ROM or of the store. DEDUCED: END and TRP form no sequential step. DESIGN CHOICE: a port register of a reserved unit
code is an illegal word too. -/
def illegalAt (u w : Nat) : Bool :=
  if mNx w = 3 then mOp w != 0 || bits w 10 5 == 0 || bits w 0 9 != 0
  else mOp w == 0x1F || mD w == 23 || (mNx w == 0 && mOp w != 0x12 && mOp w != 0x14 && (u == 0x17FF || u == 0x1FFF)) ||
    ((mOp w == 0x0D || mOp w == 0x0E) && 6 ≤ bits (mK w) 10 3)

/-! ### Registers of a microroutine (R271, Table 08.2) -/

/-- The `i`-th of the free values that a word takes. -/
def State.freeAt (s : State) (i : Nat) : Nat := Config.freeValue (s.free + i)

/-- The state once a word has taken its free values. -/
def State.tookFrees (s : State) (k : Nat) : State := { s with free := s.free + k }

/-- The microroutine of a slot changed. -/
def State.updMicro (s : State) (n k : Fin 4) (f : Micro → Micro) : State := s.updSlot n k fun x => { x with micro := f x.micro }

/-- The value of a microword's register code: as S code 23 is K. A temporary that the routine has not written holds a free value. -/
def State.mReg (s : State) (n k : Fin 4) (c kv : Nat) : BitVec 64 :=
  let x := s.pslot n k
  let a := x.arch
  if h : c < 16 then a.reg ⟨c, h⟩
  else if c = 16 then a.tp
  else if c = 17 then BitVec.ofNat 64 a.bpWord
  else if c = 18 then a.cn
  else if c = 19 then BitVec.ofNat 64 a.stWord
  else if c = 20 then BitVec.ofNat 64 (s.flWord n a)
  else if c = 21 then BitVec.ofNat 64 a.pc
  else if c = 22 then BitVec.ofNat 64 x.micro.ir
  else if c = 23 then BitVec.ofNat 64 kv
  else (x.micro.temps.lookup c).getD (BitVec.ofNat 64 (s.freeAt (c - 24)))

/-- BP written (Table 03.4): while the chain is empty it reads 0 whatever is written. -/
def Arch.setBp (a : Arch) (v : Nat) : Arch :=
  match a.chain with
  | [] => a
  | e :: l => { a with chain := { e with ctx := bits v 48 16 } :: l, bpSect := bits v 0 24, bpRem := bits v 24 24 }

/-- A register of a microword written. DEDUCED: FL takes no value as D, since only SETF and STC write it (R272). -/
def State.mSet (s : State) (n k : Fin 4) (c : Nat) (v : BitVec 64) : State :=
  let w := v.toNat
  if h : c < 16 then s.updArch n k fun a => a.setReg ⟨c, h⟩ v
  else if c = 16 then s.updArch n k fun a => { a with tp := v }
  else if c = 17 then s.updArch n k fun a => a.setBp w
  else if c = 18 then s.updArch n k fun a => { a with cn := v }
  else if c = 19 then s.updArch n k fun a => { a with code := bits w 0 8, nfails := bits w 8 8, sw := bits w 16 16 }
  else if c = 21 then (s.updArch n k fun a => { a with pc := w % 2 ^ 21 }).updMicro n k fun m => { m with pc := w % 2 ^ 21 }
  else if c = 22 then s.updMicro n k fun m => { m with ir := w % 2 ^ 32 }
  else if 24 ≤ c then s.updMicro n k fun m => { m with temps := (c, v) :: m.temps.filter fun p => p.1 != c }
  else s

/-! ### Operations (R272, Table 08.3) -/

/-- The result and C of an ALU operation, by R106. -/
def microAlu (op : Nat) (x y : BitVec 64) : BitVec 64 × Bool :=
  let j := y.toNat % 64
  if op = 0x03 then (x + y, carryAdd x y)
  else if op = 0x04 then (x - y, carrySub x y)
  else if op = 0x05 then (x &&& y, false)
  else if op = 0x06 then (x ||| y, false)
  else if op = 0x07 then (x ^^^ y, false)
  else if op = 0x08 then (x <<< j, carryShl x j)
  else (x >>> j, carryShr x j)

/-- FLD: the field of S at bit K[5:0], K[11:6] + 1 bits long, sign-extended when K[12] is 1. -/
def microField (v : BitVec 64) (kv : Nat) : BitVec 64 :=
  let len := bits kv 6 6 + 1
  let f := bits v.toNat (bits kv 0 6) len
  if bit kv 12 then BitVec.ofInt 64 (sgn len f) else BitVec.ofNat 64 f

/-- The address in working memory of LDW and STW. DESIGN CHOICE: of S the 21 bits of working memory count, without the three lowest. -/
def microAddr (n : Fin 4) (v : BitVec 64) : Nat := wmem n + bits v.toNat 3 18 * 8

/-- The operations on registers and working memory: 0x01 to 0x0C, SETF and STC. -/
def State.microData (s : State) (n k : Fin 4) (w : Nat) : State :=
  let op := mOp w
  let d := mD w
  let kv := mK w
  let y := s.mReg n k (mS w) kv
  let x := s.mReg n k d kv
  let m := (s.pslot n k).micro
  if op = 0x01 then s.mSet n k d y
  else if op = 0x02 then s.mSet n k d (BitVec.ofNat 64 kv)
  else if 0x03 ≤ op ∧ op ≤ 0x09 then
    let r := microAlu op x y
    (s.updMicro n k fun m => { m with uz := r.1 == 0, un := r.1.msb, uc := r.2 }).mSet n k d r.1
  else if op = 0x0A then s.mSet n k d (microField y kv)
  else if op = 0x0B then
    match s.load 0x3F (microAddr n y) 8 with
    | (s1, none) => s1.engFault n (microAddr n y)
    | (s1, some l) => s1.mSet n k d (BitVec.ofNat 64 (leValue l))
  else if op = 0x0C then s.stored (microAddr n y) (leBytes 8 x.toNat)
  else if op = 0x0F then s.updArch n k fun a => { a with z := m.uz, n := m.un, c := m.uc }
  else if op = 0x10 then s.updArch n k fun a => a.setCode (bits kv 0 8)
  else s

/-- A request kept as the unit's last of its kind (R272). -/
def State.ask (s : State) (n : Fin 4) (op : Nat) (v : BitVec 64) : State :=
  s.updEng n fun r => { r with asked := tinsert r.asked op v }

/-- The operations that a unit acknowledges, once it has: PRD, PWR, SEC, POS, ARQ, SLQ, ZNQ and HND. DESIGN CHOICE: what a unit shows at a port is its
own, so PRD takes a free value; the forms of the requests that SEC, ARQ and SLQ pass on are not in the spec, so the request itself is all they
leave, the commands of those units doing what is asked. -/
def State.microUnit (s : State) (n k : Fin 4) (w : Nat) : State :=
  let op := mOp w
  let kv := mK w
  let x := s.mReg n k (mD w) kv
  let a := (s.pslot n k).arch
  let port := bits kv 0 13
  if op = 0x0D then (s.updEng n fun r => { r with ports := terase r.ports port }).mSet n k (mD w) (BitVec.ofNat 64 (s.freeAt 8))
  else if op = 0x0E then s.updEng n fun r => { r with ports := tinsert r.ports port x }
  else if op = 0x15 then s.ask n op (BitVec.ofNat 64 (bits kv 0 3 + 8 * (a.tp.toNat % 2 ^ 38)))
  else if op = 0x16 then
    if (s.place n a.tp.toNat).isNone || !s.movable n then s
    else (s.nameSet n (Fin.ofNat 4 kv)).goTo n k ⟨a.tp.toNat, false, a.offset.toInt⟩
  else if op = 0x19 then
    match s.acceptSector n k a.tp.toNat with
    | (s1, .yes _ _ _) => s1.updMicro n k fun m => { m with uz := true }
    | (s1, _) => s1.updMicro n k fun m => { m with uz := false }
  else if op = 0x1A then
    let c := bits x.toNat 0 16
    (if s.boundTo n c then s.handOver c (bits x.toNat 24 3) (bits x.toNat 16 8) else s).recordAs n k { a with pc := (a.pc + 4) % 2 ^ 21 }
  else s.ask n op x

/-- The head entry of the buffer chain dropped (R86). -/
def Arch.dropEntry (a : Arch) : Arch :=
  match a.chain with
  | [] => a
  | [_] => a.clearChain
  | _ :: e :: l => { a with chain := e :: l, bpSect := e.sect, bpRem := e.count }

/-- Commit point `kind` of R95 recorded: 2 and 4 in part, 3 with PC at the next instruction. -/
def State.checkpoint (s : State) (n k : Fin 4) (kind : Nat) : State :=
  let a := (s.pslot n k).arch
  if kind = 2 ∨ kind = 4 then s.recordCommit n k
  else if kind = 3 then s.recordAs n k { a with pc := (a.pc + 4) % 2 ^ 21 }
  else if kind = 1 ∨ kind = 5 then s.record n k
  else s

/-- The remaining operations that leave the slot in its instruction: CKP, SGL, CLL, RSK and CHQ. DESIGN CHOICE: a push on a full return stack and an
append to a full chain do nothing, and a pop of an empty stack gives a free value. -/
def State.microSlot (s : State) (n k : Fin 4) (w : Nat) : State :=
  let op := mOp w
  let kv := mK w
  let x := s.mReg n k (mD w) kv
  let a := (s.pslot n k).arch
  if op = 0x11 then s.checkpoint n k (bits kv 0 3)
  else if op = 0x1B then if 4 < bits kv 3 3 then s else s.signal n (bits kv 3 3) (bits kv 0 3)
  else if op = 0x1C then
    let s1 := if bit kv 0 then s.updArch n k fun b => { b with idx := false } else s
    if bit kv 1 then s1.wr (Fd.RCH_SIGNALS_SIG n) (s1.rd (Fd.RCH_SIGNALS_SIG n) - (s1.rd (Fd.RCH_SIGNALS_SIG n) &&& x.toNat % 256)) else s1
  else if op = 0x1D then
    if bit kv 0 then
      match a.stack with
      | [] => s.mSet n k (mD w) (BitVec.ofNat 64 (s.freeAt 9))
      | t :: l => (s.updArch n k fun b => { b with stack := l }).mSet n k (mD w) (BitVec.ofNat 64 t)
    else if 8 ≤ a.stack.length then s
    else s.updArch n k fun b => { b with stack := x.toNat % 2 ^ 21 :: b.stack }
  else if op = 0x1E then
    if bit kv 0 then s.updArch n k Arch.dropEntry
    else if 16 ≤ a.chain.length then s
    else s.updArch n k fun b => b.append (ChainEntry.ofWord x.toNat)
  else s

/-! ### Condition bits and the next address (R274, R275, Table 08.4) -/

/-- Whether a lower-numbered slot of the engine is ready. -/
def State.lowerReady (s : State) (n k : Fin 4) : Bool := four.any fun j => j < k && (s.pslot n j).st == .ready && !(s.pslot n j).intr

/-- Whether the result of a decode of a slot's sectors waits, or that of a read-behind. -/
def State.resultWaits (s : State) (n k : Fin 4) (wrs : Bool) : Bool :=
  (s.eng n).begun.any fun b => b.slot == k && (b.kind == .wrs) == wrs && (match b.phase with
    | .good _ | .bad _ => true
    | _ => false)

/-- Condition bit `c`. Groups 8 to 31 are private to the ROM, and the lead to the next slot is an angle that the model does not follow: both are
free values. -/
def State.condBit (s : State) (n k : Fin 4) (c : Nat) : Bool :=
  let x := s.pslot n k
  let a := x.arch
  if c = 0 then x.micro.uz else if c = 1 then x.micro.un else if c = 2 then x.micro.uc else if c = 3 then true
  else if c = 4 then a.z else if c = 5 then a.n else if c = 6 then a.c else if c = 7 then a.idx
  else if c = 8 then s.blk n else if c = 9 then a.syn else if c = 10 then a.dec else if c = 11 then s.on (Fd.SRV_STATUS_ONT n)
  else if c = 12 then a.rbk else if c = 13 then a.fen else if c = 14 then s.on (Fd.RCH_SIGNALS_SIG n) else if c = 15 then s.lowerReady n k
  else if c = 16 then a.cn == 0 else if c = 17 then a.chain.isEmpty else if c = 19 then (s.inhibit? n).isSome
  else if c = 20 then s.resultWaits n k false else if c = 21 then s.resultWaits n k true else if c = 22 then x.sent
  else if c = 23 then s.armSettled n k
  else if c = 24 then (s.place n a.tp.toNat).isSome else if c = 25 then bits a.cn.toNat 24 40 == 0 else if c = 26 then a.offset == 0
  else if c = 27 then s.rdBit (Fd.RCH_REGION_VALID n) a.head
  else if 28 ≤ c ∧ c ≤ 31 then false
  else bit (s.freeAt (16 + c)) 0

/-- Free values that one word may take. -/
def microFrees : Nat := 144

/-- The next address that a word at `u` forms, as the condition bits stand now (R274). -/
def State.formed (s : State) (n k : Fin 4) (u w : Nat) : Nat :=
  if mNx w = 0 then u + 1
  else if mNx w = 1 then bits w 0 13
  else
    (List.range 4).foldl (fun t i => if bit (bits w 14 4) i && s.condBit n k (4 * bits w 9 5 + i) then t + 2 ^ i else t) (16 * bits w 0 9)

/-- The microroutine of a slot goes on at an address formed, which the match table applies to. -/
def State.stepTo (s : State) (n k : Fin 4) (u : Nat) : State :=
  s.updMicro n k fun m => { m with next := some (s.overlay n (u % 2 ^ 13)), since := none }

/-- A handshake of the engine completed (R273, R278). -/
def State.handshake (s : State) (n : Fin 4) : State := s.bump (Fd.SLOT_PROGRESS_COUNT (UnitRef.reach n).win (UnitRef.reach n).slot)

/-- The instruction word at a slot's PC (R80). -/
def State.fetched (s : State) (n k : Fin 4) : Nat := leValue (s.bytes (wmem n + (s.pslot n k).arch.pc) 4)

/-- The running slot enters the microroutine of the instruction at its PC (R274). -/
def State.decoded (s : State) (n k : Fin 4) : State :=
  s.updMicro n k fun _ =>
    { Micro.idle with next := some (s.overlay n (16 * bits (s.fetched n k) 26 6)), pc := (s.pslot n k).arch.pc, ir := s.fetched n k }

/-- END: the instruction completes, and the engine decodes the next one of the slot that it passes to. -/
def State.microEnd (s : State) (n k : Fin 4) (stay : Bool) : State :=
  let s1 := s.updMicro n k fun _ => Micro.idle
  let s2 := if stay then s1.jump n k (s1.pslot n k).arch.pc (fun a => a) else s1.complete n k fun a => a
  match s2.runner n with
  | none => s2
  | some j => if (s2.pslot n j).op.isSome ∨ (s2.pslot n j).micro.next.isSome then s2 else s2.decoded n j

/-- A microword executed: its operation, then its next address. -/
def State.microExec (s : State) (n k : Fin 4) (u w : Nat) : State :=
  let op := mOp w
  if op = 0x12 then s.microEnd n k (bit (mK w) 0)
  else if op = 0x14 then (s.updMicro n k fun _ => Micro.idle).trapSlot n k (0xFF00 + bits (mK w) 0 8)
  else if op = 0x13 then
    let s1 := s.stepTo n k (s.formed n k u w)
    if s.lowerReady n k then (s1.giveUp n k .ready).dispatch n else s1
  else
    let s1 := if mAsks w then (s.microUnit n k w).handshake n else if op ≤ 0x10 then s.microData n k w else s.microSlot n k w
    s1.stepTo n k (s1.formed n k u w)

/-! ### Waits and handshakes that hold (R273, R276 to R278) -/

/-- How long the word at a slot's microaddress has held, in µs. -/
def State.heldFor (s : State) (n k : Fin 4) : Nat := ((s.pslot n k).micro.since.map fun t => (s.time + 2 ^ 48 - t) % 2 ^ 48).getD 0

/-- Whether a hold has reached the element timeout of the engine. -/
def State.holdExpires (s : State) (n k : Fin 4) : Bool :=
  s.rd (Fd.SLOT_LIMIT_ELEM_US (UnitRef.reach n).win (UnitRef.reach n).slot) ≤ s.heldFor n k

/-- The word at `u` begins, or goes on, to hold. -/
def State.holds (s : State) (n k : Fin 4) (u : Nat) : State :=
  s.updMicro n k fun m => { m with next := some u, since := some (m.since.getD s.time) }

/-- Whether the condition bit of a wait word stands as its POL asks (R277). -/
def State.waitMet (s : State) (n k : Fin 4) (w : Nat) : Bool := s.condBit n k (bits w 16 7) != bit w 15

/-- Where the hold of a wait word at `u` leads, once it ends: a + 1 with its condition, a + 2 with its LIM. -/
def State.waitEnd (s : State) (n k : Fin 4) (u w : Nat) : Option Nat :=
  if s.waitMet n k w then some (u + 1) else if bits w 10 5 ≤ s.heldFor n k then some (u + 2) else none

/-- A wait word executed; with YLD the slot yields for the hold. -/
def State.microWait (s : State) (n k : Fin 4) (u w : Nat) : State :=
  match s.waitEnd n k u w with
  | some v => (s.stepTo n k v).handshake n
  | none =>
    let s1 := s.holds n k u
    if bit w 9 then (s1.updSlot n k fun x => { x with st := SlotSt.yielding }).dispatch n else s1

/-- The slots of a list that yield in a wait word are ready again once their hold has ended (R277). -/
def State.wakeHolds (s : State) (n : Fin 4) : List (Fin 4) → State
  | [] => s
  | k :: l =>
    let x := s.pslot n k
    (match x.st == SlotSt.yielding && x.op.isNone, x.micro.next with
      | true, some u =>
        (match s.waitEnd n k u (s.ucodeWord n u) with
          | some v => ((s.stepTo n k v).handshake n).updSlot n k fun y => { y with st := .ready }
          | none => s)
      | _, _ => s).wakeHolds n l

/-! ### One word read for execution -/

/-- The slot whose microroutine reads the word at `u`: the running one, unless its routine stands at another address. DESIGN CHOICE: where its routine is
not followed, as after an instruction that a command has carried out whole, any word may be the one that is read. -/
def State.readsAt (s : State) (n : Fin 4) (u : Nat) : Bool :=
  match s.runner n with
  | none => true
  | some k =>
    let m := (s.pslot n k).micro
    m.pc != (s.pslot n k).arch.pc || m.next.all (· == u)

/-- The running slot's microroutine as it stands: entered anew where the model does not follow one. -/
def State.entered (s : State) (n k : Fin 4) : State :=
  let m := (s.pslot n k).micro
  if m.next.isSome ∧ m.pc = (s.pslot n k).arch.pc then s else s.decoded n k

/-- A sound and legal word at `u` acts for the running slot. -/
def State.microStep (s : State) (n : Fin 4) (u w : Nat) (ack : Bool) : State :=
  match s.runner n with
  | none => s
  | some k =>
    let s1 := s.entered n k
    (if mNx w = 3 then s1.microWait n k u w
     else if mAsks w && !ack then s1.holds n k u
     else s1.microExec n k u w).tookFrees microFrees

/-- Whether the element timeout of the engine ends the hold of the word at `u`: a unit that has not acknowledged, or a wait whose LIM is longer
(R278). -/
def State.microExpires (s : State) (n : Fin 4) (u w : Nat) (ack : Bool) : Bool :=
  (s.runner n).any fun k =>
    (s.pslot n k).micro.next == some u && s.holdExpires n k &&
      (if mNx w = 3 then !s.waitMet n k w && s.rd (Fd.SLOT_LIMIT_ELEM_US (UnitRef.reach n).win (UnitRef.reach n).slot) < bits w 10 5
       else mAsks w && !ack)

end Sys2Proof.Machine
end

