-- ==== Sys2Proof/Machine/Watch.lean ====
section
/-! DEFINITION. The watch hierarchy: management slots, expiries, escalation, unit resets, restarts of domains and of the watch core (01, 08,
16). -/

namespace Sys2Proof.Machine

/-- The watch hierarchy changed. -/
def State.watchUpd (s : State) (g : WatchUnit → WatchUnit) : State := { s with watch := g s.watch }

/-- The key of a unit in the counts of R494. -/
def watchKey (u : UnitRef) : Nat := 16 * u.win + u.slot

/-- One more in the count of a key. -/
def countUp (k : Nat) (l : List (Nat × Nat)) : List (Nat × Nat) := tset 0 l k (tget 0 l k + 1)

/-! ### Unit resets (R31, R32, R490) -/

/-- Whether a unit can be reset: it is not off, and where it has failed, its chapter names the unit reset (Table 04.6). -/
def State.resettable (s : State) (u : UnitRef) : Bool :=
  match u with
  | .channel _ => s.unit u != 0
  | _ => s.unit u != 0 && s.unit u != 7

/-- Whether the calibration item under way is one of a unit's (Table 17.2). -/
def State.calItemOf (s : State) (u : UnitRef) : Bool :=
  let i := s.rd Fd.CAL_STATUS_ITEM
  let n := calAct (s.rd Fd.CAL_STATUS_ACTNOW)
  s.calBusy && (match u with
    | .hsk => i == 0 || i == 1
    | .spindle => i == 2
    | .servo m => i == 3 && m == n
    | .channel m => 4 ≤ i && m == n
    | _ => false)

/-- Whether the standby of a pivot can cover an actuator (R492). -/
def State.canCover (s : State) (n : Fin 4) : Bool :=
  let c := s.rd (Fd.SRV_STBY_COVER (pivotWin n))
  s.on (Fd.SRV_STBY_EN (pivotWin n)) && !s.on (Fd.SRV_STBY_FAILED (pivotWin n)) && (c == 0 || c == coverOf n)

/-- The number of the 10 s window of device time, half-open (R15). -/
def State.windowNow (s : State) : Nat := s.time / 10000000

/-- A new window: every expiry count, and the registers that show them, start at 0 once device time has reached the boundary (R15, R494). -/
def State.expiryWindow (s : State) : State :=
  if s.watch.window = s.windowNow then s
  else
    let s1 := UnitRef.every.foldl (fun t u => t.wr (Fd.SLOT_STATE_EXPIRES u.win u.slot) 0) s
    let s2 := (List.range 5).foldl (fun t d => t.wr (Fd.IRT_DSTAT_EXPIRES d) 0) s1
    (s2.wr Fd.IRT_WSTAT_SUPEXP 0).watchUpd fun w => { w with elems := [], units := [], doms := [], sup := 0, window := s.windowNow }

/-- Fields of a window from one offset up to another back at reset. -/
def State.resetFields (s : State) (w lo hi : Nat) : State :=
  { s with regs := s.regs.filter fun p => p.1 < 2 ^ 24 * w + 2 ^ 8 * lo || 2 ^ 24 * w + 2 ^ 8 * hi ≤ p.1 }

/-- What a unit reset does to a unit beside its management slot: sequencers, ports and handshakes start again, and what the unit's own
chapter names is cleared; all else is kept (R490). -/
def State.resetEffects (s : State) : UnitRef → State
  | .servo n => if s.canCover n then s.takeover n 3 else s.retract n 2
  | .reach n => s.engReset n
  | .channel n =>
    (((s.resetFields (20 + n.val) 0x1000 0x3000).wrs
      [(Fd.CHN_STATUS_FAILED n, 0), (Fd.CHN_SLICE_FAULT_A n, 0), (Fd.CHN_SLICE_FAULT_B n, 0), (Fd.CHN_ALOOP_LEVEL n, 0),
       (spareOn false n, 0), (spareFor false n, 0), (sparePerm false n, 0), (spareOn true n, 0), (spareFor true n, 0),
       (sparePerm true n, 0)]).updCh n fun c =>
        { c with sliceHits := [], s8badA := false, s8badB := false, loopOn := false, loopN := 0, loopSum := 0, eqRef := [] })
  | .deep => s.wrs [(Fd.DEEP_DSTATUS_BUSY, 0), (Fd.DEEP_DDONE_COUNT, 0)]
  | .armLink n => s.updCh n fun c => { c with txq := c.tx.toList ++ c.txq, tx := none }
  | .zone n => s.wr (Fd.RCH_JSTAT_ERR n) 0
  | .flash => (s.cflCut 0).cflCut 1
  | .backwater => s.bkwReset s.bkw
  | .cal => s.calReset
  | .hsk => (s.wr Fd.HSK_VSTAT_REGERR 0).hskPut fun u => { u with vstop := false, fails := 0, sampling := false }
  | .spindle => s.spnReset
  | _ => s

/-- A unit reset begins: STATE reads resetting; during one it begins again (R490, R496, R517). -/
def State.beginReset (s : State) (u : UnitRef) : State :=
  if !s.resettable u ∨ s.unit u = 5 then s
  else ((if s.calItemOf u then s.calAbandon else s).resetEffects u).setUnit u 5

/-- The element-expiry count of a unit back at 0. -/
def State.clearElems (s : State) (u : UnitRef) : State := s.watchUpd fun w => { w with elems := terase w.elems (watchKey u) }

/-- A manager reset: the element-expiry count, then the unit by a unit reset (R490). -/
def State.managerReset (s : State) (u : UnitRef) : State := (s.clearElems u).beginReset u

/-! ### Restarts (R490, R491, R493) -/

/-- The servos from actuator `i` on, then the spindle: the first that can be reset begins its reset, and `motion` holds its place (R491). -/
def State.motionFrom (s : State) : Nat → Nat → State
  | _, 0 => s.watchUpd fun w => { w with motion := none }
  | i, f + 1 =>
    let u := if i = 4 then UnitRef.spindle else UnitRef.servo (calAct i)
    if 4 < i then s.watchUpd fun w => { w with motion := none }
    else if s.resettable u then (s.managerReset u).watchUpd fun w => { w with motion := some i }
    else s.motionFrom (i + 1) f

/-- A domain restart begins: cause 0 expiry, 1 escalation, 2 firmware's request (R490, R491). -/
def State.startDomain (s : State) (d : Domain) (cause : Nat) : State :=
  let s1 := (s.wr (Fd.IRT_DSTAT_STATE d.num) 1).watchUpd fun w => { w with causes := tinsert w.causes d.num cause }
  if d = .motion then s1.motionFrom 0 6 else d.units.foldl (fun t u => t.managerReset u) s1

/-- A supervisor expiry: the watch core restarts, and at every third the controller does. Cause 0 watchdog, 1 lockstep, 2 escalation (R486,
R495, Table 16.3). -/
def State.supervisorExpired (s : State) (cause : Nat) : State :=
  let k := s.watch.sup + 1
  let s1 := (s.wr Fd.IRT_WSTAT_SUPEXP (min 2 k)).watchUpd fun w => { w with sup := k }
  if k % 3 = 0 then s1.watchUpd fun w => { w with due := some 0 }
  else
    { (s1.wr Fd.IRT_WSTAT_LOCKSTEP (b2n (cause == 1))).watchUpd fun w =>
        { w with restarting := true, causes := tinsert w.causes 5 cause } with cores := { s.cores with watch := CoreUnit.reset, csr7d0 := 0x100 } }

/-- An escalation of a domain to the supervisor's level, held while a watch restart runs (R493, R495). -/
def State.escalate (s : State) (d : Domain) : State :=
  if s.watch.restarting then
    ((s.wr (Fd.IRT_DSTAT_STATE d.num) 2).watchUpd fun w => { w with held := w.held ++ [d.num] }).raise .irt 0x0604 4 [d.num] |>.recovery
  else (s.startDomain d 1).supervisorExpired 2

/-- A domain expiry: the domain restarts, and every third is a supervisor expiry (R486, R495). -/
def State.domainExpired (s : State) (d : Domain) (cause : Nat) : State :=
  let l := countUp d.num s.watch.doms
  let k := tget 0 l d.num
  let s1 := ((s.wr (Fd.IRT_DSTAT_EXPIRES d.num) (min 15 k)).setB Fd.IRT_WINT_DOMEXP d.num).watchUpd fun w => { w with doms := l }
  if k % 3 = 0 then s1.escalate d else s1.startDomain d cause

/-- A unit expiry: the unit's manager resets, and every third is a domain expiry; cause 0 no progress, 1 overrun, 2 heartbeat, 3 escalation
(R486, R492, R495). -/
def State.unitExpired (s : State) (u : UnitRef) (cause : Nat) : State :=
  let l := countUp (watchKey u) s.watch.units
  let k := tget 0 l (watchKey u)
  let d := u.domain.num
  let x := min 15 k
  let s1 := (s.wrs [(Fd.SLOT_STATE_EXPIRES u.win u.slot, x), (Fd.IRT_DLAST_INST d, u.inst), (Fd.IRT_DLAST_TYPE d, u.type),
    (Fd.IRT_DLAST_CODE d, u.common 1), (Fd.IRT_WINT_UNITEXP, 1)]).watchUpd fun w => { w with units := l }
  let s2 := (s1.fault u (u.common 1) 5 ([cause, x] ++ leBytes 2 (s.rd (Fd.SLOT_STATE_GEN u.win u.slot)))).recovery
  if k % 3 = 0 then s2.domainExpired u.domain 1 else s2.managerReset u

/-- An element expiry: the unit is reset, an engine by a machine check of cause 3, and every third is a unit expiry (R279, R486, R495). -/
def State.elementExpired (s : State) (u : UnitRef) (element : Nat) : State :=
  let l := countUp (watchKey u) s.watch.elems
  let k := tget 0 l (watchKey u)
  let s0 := s.watchUpd fun w => { w with elems := l }
  match u with
  | .reach n =>
    let s1 := ((s0.wr (Fd.SLOT_FAULT_FAULT u.win u.slot) 1).wr (Fd.SLOT_FAULT_CODE u.win u.slot) 0x1001).latchCheck n 3 element false false
    if k % 3 = 0 then s1.recovery.unitExpired u 3 else s1.recovery
  | _ =>
    let s1 := (s0.fault u (u.common 0) 4 (leBytes 2 element ++ leBytes 2 (s.rd (Fd.SLOT_STATE_GEN u.win u.slot)))).recovery
    if k % 3 = 0 then s1.unitExpired u 3 else s1.beginReset u

/-! ### Expiries as commands (R486, R487) -/

/-- Whether element expiries of a unit are watched (R487). -/
def State.watchesElems (s : State) (u : UnitRef) : Bool := !([0, 3, 4, 7].contains (s.unit u))

/-- Whether unit expiries of a unit are watched; one that quiesces against its own chapter's bound (R487). -/
def State.watchesUnit (s : State) (u : UnitRef) : Bool := !([0, 4, 7].contains (s.unit u))

/-- Whether a unit is an engine whose running slot stands in WAIT or JOIN: each of its wait microwords is a handshake that completes in time,
so that neither an element nor the unit's progress expires (R107, R488). -/
def State.onlyWaits (s : State) : UnitRef → Bool
  | .reach n => (s.runner n).any fun k => match (s.pslot n k).op with | some (.wait _ _) | some (.join _ _) => true | _ => false
  | _ => false

/-- ELEMENT_EXPIRY (R486). -/
def execElementExpiry (u : UnitRef) (element : BitVec 16) (s : State) : Host.Outcome State Fault Refusal :=
  if s.watchesElems u && !s.onlyWaits u then .next (s.expiryWindow.elementExpired u element.toNat) else .next s

/-- UNIT_EXPIRY (R486): an overrun is one of a unit that resets, and an engine that waits shows progress. -/
def execUnitExpiry (u : UnitRef) (cause : Fin 3) (s : State) : Host.Outcome State Fault Refusal :=
  if s.watchesUnit u ∧ (cause = 1 → s.unit u = 5) ∧ (cause = 0 → s.onlyWaits u = false) then .next (s.expiryWindow.unitExpired u cause.val)
  else .next s

/-- DOMAIN_EXPIRY (R486). -/
def execDomainExpiry (d : Domain) (s : State) : Host.Outcome State Fault Refusal := .next (s.expiryWindow.domainExpired d 0)

/-- WATCHDOG_EXPIRY: no KICK within LIMIT, or a watch restart that overruns (R486, R493). -/
def execWatchdogExpiry (s : State) : Host.Outcome State Fault Refusal :=
  if s.watch.restarting ∨ 1000 * s.rd Fd.IRT_WDOG_LIMIT ≤ (s.time + 2 ^ 48 - s.watch.kick) % 2 ^ 48 then
    .next (s.expiryWindow.supervisorExpired 0)
  else .next s

/-- LOCKSTEP_MISMATCH (R486). -/
def execLockstepMismatch (s : State) : Host.Outcome State Fault Refusal := .next (s.expiryWindow.supervisorExpired 1)

/-- The check on the word at `u` of an engine, where it is one: parity is checked before anything else, and cause 3 is the hold's (R269, R279). -/
def State.wordCheck (s : State) (n : Fin 4) (u w : Nat) (ack : Bool) : Option Nat :=
  if lowBad w || highBad w then some 1
  else if illegalAt u w then some 2
  else if s.microExpires n u w ack then some 3
  else none

/-- A machine check on the word at `u` (R279 to R283): every active slot waits for its restart; a parity error is counted against its address, and
an element timeout as an element expiry of the engine (R486, R495). -/
def State.machineChecked (s : State) (n : Fin 4) (u w cause : Nat) : State :=
  if cause = 3 then s.expiryWindow.elementExpired (.reach n) u
  else
    let s1 := s.latchCheck n cause u (lowBad w) (highBad w)
    if cause = 1 then (s1.strike n u).dispatch n else s1

/-- MACHINE_CHECK: the engine reads a control-store word for execution, which the match table may have replaced and which `err` spoils; `ack` says
whether the unit that the word asks has acknowledged. A word that fails a check is a machine check, and any other acts (R269, R272, R279, R285). -/
def execMachineCheck (n : Fin 4) (uaddr : BitVec 13) (err : BitVec 32) (ack : Bool) (s : State) : Host.Outcome State Fault Refusal :=
  if s.unit (.reach n) = 0 ∨ s.unit (.reach n) = 7 then .next s
  else
    let s1 := s.wakeHolds n four
    let u := s1.overlay n uaddr.toNat
    let w := s1.ucodeWord n u ^^^ err.toNat
    if !s1.readsAt n u then .next s1
    else match s1.wordCheck n u w ack with
      | some c => .next (s1.machineChecked n u w c)
      | none => .next (s1.microStep n u w ack)

/-- The unit that sends as a requester of Table 11.2. -/
def requesterUnit (r : Nat) : Option UnitRef :=
  if r < 4 then some (.flowCore (calAct r))
  else if r = 5 then some (.hostPort 0)
  else if r = 6 then some (.hostPort 1)
  else if r = 7 then some .confluence
  else if r = 8 then some .backwater
  else if 9 ≤ r ∧ r ≤ 12 then some (.channel (calAct (r - 9)))
  else if r = 13 then some .deep
  else if 0x10 ≤ r then some .sluice
  else none

/-- WEIR_STALL: a credit waited for beyond the element timeout is an element expiry of the sender; its element index is not stated (R414). -/
def execWeirStall (r : Fin 48) (cls : WeirClass) (s : State) : Host.Outcome State Fault Refusal :=
  let s1 := ((s.wr Fd.WEIR_INT_STALL 1).count Fd.WEIR_CNT_STALLS 1).raise .weir 0x0501 4 [r.val, classNum cls]
  match requesterUnit r.val with
  | none => .next s1
  | some u => .next (if s1.watchesElems u then s1.tookFree.expiryWindow.elementExpired u (s.freeVal % 65536) else s1)

/-! ### Ends and requests (R490, R493, R494, R509) -/

/-- A unit reset ends: GEN advances, and the unit serves, degraded where DEGRADE stands, or quiesces where that was written meanwhile
(R490, R496, R652). -/
def State.resetEnds (s : State) (u : UnitRef) : State :=
  let s1 := s.bump (Fd.SLOT_STATE_GEN u.win u.slot)
  let s2 := match u with
    | .servo n =>
      let t := if (s1.sv n).degr then s1.wr (Fd.SLOT_CTL_DEGRADE u.win u.slot) 0 else s1
      (t.primaryBack n).updSv n fun v => { v with divTakes := 0, degr := false }
    | _ => s1
  let quiet := s2.on (Fd.SLOT_CTL_QUIESCE u.win u.slot)
  let s3 := match u with
    | .reach n => (if quiet then s2.setUnit u 3 else s2.toWork u).dispatch n
    | _ => if quiet then s2.setUnit u 4 else s2.toWork u
  match s3.watch.motion with
  | none => s3
  | some i =>
    if u = (if i = 4 then UnitRef.spindle else UnitRef.servo (calAct i)) then s3.motionFrom (i + 1) 6 else s3

/-- DOMAIN_RESTART_END: every unit of the domain has ended its reset (R490, R508). -/
def execDomainRestartEnd (d : Domain) (s : State) : Host.Outcome State Fault Refusal :=
  if s.rd (Fd.IRT_DSTAT_STATE d.num) ≠ 1 ∨ d.units.any (fun u => s.unit u = 5) ∨ (d = .motion ∧ s.watch.motion.isSome) then .next s
  else
    let s1 := (s.bump (Fd.IRT_DSTAT_GEN d.num)).wr (Fd.IRT_DSTAT_STATE d.num) 0
    let c := tget 0 s.watch.causes d.num
    .next ((s1.raise .irt 0x0601 5 ([d.num, c] ++ leBytes 2 (s1.rd (Fd.IRT_DSTAT_GEN d.num)))).recovery.watchUpd fun w =>
      { w with causes := terase w.causes d.num })

/-- The domain of a number. -/
def domainOf (k : Nat) : Domain := if k = 0 then .motion else if k = 1 then .media else if k = 2 then .memory else if k = 3 then .host else .platform

/-- Held escalations acted on in order; one that starts a further watch restart leaves the others held (R493). -/
def State.actHeld (s : State) : List Nat → State
  | [] => s.watchUpd fun w => { w with held := [] }
  | k :: l =>
    let s1 := ((s.expiryWindow.wr (Fd.IRT_DSTAT_STATE k) 0).startDomain (domainOf k) 1).supervisorExpired 2
    if s1.watch.restarting then s1.watchUpd fun w => { w with held := l } else s1.actHeld l

/-- WATCH_RESTART_END: the watch core runs again, and held escalations are acted on (R490, R493). -/
def execWatchRestartEnd (s : State) : Host.Outcome State Fault Refusal :=
  if !s.watch.restarting then .next s
  else
    let s1 := ((s.wr Fd.IRT_WINT_SUPEXP 1).raise .irt 0x0602 5 [tget 0 s.watch.causes 5]).recovery
    let s2 := s1.watchUpd fun w => { w with restarting := false, kick := s.time, causes := terase w.causes 5 }
    .next ({ s2 with cores := { s2.cores with watch := { s2.cores.watch with run := true } } }.actHeld s.watch.held)

/-- WDOG_KICK: by watch-core firmware alone (R509). -/
def execWdogKick (r : Sys2Proof.Requester) (s : State) : Host.Outcome State Fault Refusal :=
  if r = .watch then .next (s.watchUpd fun w => { w with kick := s.time }) else .next s

/-- DOMAIN_RESTART_REQ: by watch-core firmware alone; no expiry (R509). -/
def execDomainRestartReq (r : Sys2Proof.Requester) (d : Domain) (s : State) : Host.Outcome State Fault Refusal :=
  if r = .watch then .next (s.startDomain d 2) else .next s

/-- EXPIRY_WINDOW: where device time has reached a new window, every count starts at 0 (R494). -/
def execExpiryWindow (s : State) : Host.Outcome State Fault Refusal := .next s.expiryWindow

/-! ### Management slots (R29, R32, R496, R652) -/

/-- Whether a requester may write a management slot: the unit's manager or watch-core firmware (R29). -/
def slotWriter (r : Sys2Proof.Requester) : Bool := r == .watch || r == .manager

/-- SLOT_QUIESCE: a unit other than an engine is quiet at once; a write during a reset takes effect once it has ended (R264, R496, Table
01.8). -/
def execSlotQuiesce (r : Sys2Proof.Requester) (u : UnitRef) (v : Bool) (s : State) : Host.Outcome State Fault Refusal :=
  if !slotWriter r then .next s
  else match u with
    | .reach n => .next (s.engQuiesce n v)
    | _ =>
      let s1 := s.wr (Fd.SLOT_CTL_QUIESCE u.win u.slot) (b2n v)
      if v then .next (if s.serving u then s1.setUnit u 4 else s1)
      else .next (if s.unit u = 3 ∨ s.unit u = 4 then s1.toWork u else s1)

/-- SLOT_RESET: firmware's reset of a unit, with its event; one during a reset joins it (R32, R496). -/
def execSlotReset (r : Sys2Proof.Requester) (u : UnitRef) (s : State) : Host.Outcome State Fault Refusal :=
  if !slotWriter r ∨ !s.resettable u ∨ s.unit u = 5 then .next s
  else .next ((s.raise u (u.common 2) 4 [0, 0, 0, 0, 0, 1]).beginReset u)

/-- Whether a unit's own chapter holds it degraded (R237, R282). -/
def State.heldDegraded (s : State) : UnitRef → Bool
  | .reach n => s.on (Fd.RCH_MCSTRIKE_VALID n)
  | .servo n => (s.sv n).degr
  | _ => false

/-- SLOT_DEGRADE: STATE reads degraded, or serving again, and an engine or a servo runs or ends its degraded service; in any other state the
value is held (R237, R652, Table 08.6). -/
def execSlotDegrade (r : Sys2Proof.Requester) (u : UnitRef) (v : Bool) (s : State) : Host.Outcome State Fault Refusal :=
  if !slotWriter r ∨ (!v ∧ s.heldDegraded u) then .next s
  else
    let s1 := s.wr (Fd.SLOT_CTL_DEGRADE u.win u.slot) (b2n v)
    if v ∧ s.unit u = 2 then .next (((s1.setUnit u 6).showDegraded u).raise u (u.common 3) 6 [0])
    else if !v ∧ s.unit u = 6 then .next ((s1.setUnit u 2).showDegraded u)
    else .next s1

end Sys2Proof.Machine
end

