-- ==== Sys2Proof/Machine/Registers.lean ====
section
/-! DEFINITION. Register accesses: what a read shows, how a write is stored, the writes that act as a row of the table of operations does, who
may write, and accesses to a unit that is being reset (00, 01, 20). -/

namespace Sys2Proof.Machine

/-! ### The register at an offset (R6, R10, R28, R581) -/

/-- One field of the register at an offset. -/
structure FieldAt where
  fd : Fld
  width : Nat
  acc : Access
  rule : WriteRule
  own : Bool

/-- The instance and indices at which a row of the register map covers an offset of a window. -/
def RegRow.covers (x : RegRow) (w off : Nat) : Option (Nat × Nat × Nat) :=
  if x.win ≤ w ∧ w < x.win + x.nwin ∧ x.off ≤ off then
    let d := off - x.off
    let i := if x.s1 = 0 then 0 else d / x.s1
    let r := d - i * x.s1
    let j := if x.s2 = 0 then 0 else r / x.s2
    if i < x.n1 ∧ j < x.n2 ∧ r = j * x.s2 then some (w - x.win, i, j) else none
  else none

/-- The fields of the register at an offset of a window. -/
def fieldsAt (w off : Nat) : List FieldAt :=
  regRows.filterMap fun x => (x.covers w off).map fun p => ⟨x.fd p.1 p.2.1 p.2.2, x.width, x.acc, x.rule, x.own⟩

/-- The unit whose management slot is slot k of a window (Table 01.4). -/
def slotUnit (w k : Nat) : Option UnitRef := UnitRef.every.find? fun u => u.win == w && u.slot == k

/-- The highest management slot of a window (R28). -/
def topSlot (w : Nat) : Nat := if w = 2 then 4 else if 16 ≤ w ∧ w < 20 then 1 else if 20 ≤ w ∧ w < 24 then 9 else 0

/-- Whether an offset lies in the management slots of a window (R28). -/
def inSlot (w off : Nat) : Bool := 0x10000 - 0x20 * (topSlot w + 1) ≤ off

/-- The management slot that an offset lies in. -/
def slotOf (off : Nat) : Nat := (0xFFFF - off) / 0x20

/-- The fields of the management-slot register at an offset. -/
def slotFields (w off : Nat) : List FieldAt :=
  let k := slotOf off
  (slotRows.filter fun x => 0xFFE0 - 0x20 * k + x.off == off).map fun x => ⟨x.fd w k, 32, x.acc, x.rule, x.own⟩

/-- The fields of any register; none at a reserved offset or window (R10, R581). -/
def registerAt (w off : Nat) : List FieldAt :=
  if inSlot w off then (if (slotUnit w (slotOf off)).isSome then slotFields w off else []) else fieldsAt w off

/-- Whether an access is one that register space takes: naturally aligned, and as wide as the register it meets (R581). -/
def accessOk (w off size : Nat) : Bool :=
  (size == 4 || size == 8) && off % size == 0 && ((registerAt w off).all fun x => x.width == 8 * size) &&
    !(off % 8 == 4 && (registerAt w (off - 4)).any fun x => x.width == 64)

/-- The bits of a written value that go to a field. -/
def Fld.of (f : Fld) (v : Nat) : Nat := bits v (f.key % 256) f.width

/-! ### What a read shows (R8, R10) -/

/-- The instance of a window of four. -/
def instOf (w base : Nat) : Fin 4 := calAct (w - base)

/-- What a slot of an engine shows as its state (Table 03.20). -/
def State.slotShows (s : State) (n k : Fin 4) : Nat :=
  let st := (s.pslot n k).st
  if st = .ready ∧ s.runner n = some k then 2 else st.num

/-- Fields of an engine's and a zone unit's registers that show a state held elsewhere (Tables 03.13, 03.20, 03.21, 09.11). -/
def State.shownRch (s : State) (n : Fin 4) : List (Fld × Nat) :=
  [(Fd.RCH_STATUS_RUNSLOT n, (s.runner n).elim 0 Fin.val), (Fd.RCH_STATUS_RUNNING n, b2n (s.runner n).isSome),
    (Fd.RCH_STATUS_OWNED n, b2n (s.owned n)), (Fd.RCH_ZSTAT_OPEN n, s.openCount), (Fd.RCH_ZSTAT_ACTIVE n, s.activeCount),
    (Fd.RCH_ZSTAT_RUNS n, s.zone.runs.countP fun r => r.n == n)] ++
  four.flatMap fun k : Fin 4 =>
    [(Fd.RCH_SLOT_STATE_STATE n k, s.slotShows n k), (Fd.RCH_SLOT_STATE_TRAPCODE n k, (s.pslot n k).trap),
      (Fd.RCH_SLOT_PC_PC n k, (s.pslot n k).arch.pc), (Fd.RCH_SLOT_ST_ST n k, (s.pslot n k).arch.stWord)]

/-- Dirty units of the Stage (Table 11.6). -/
def State.dirtyUnits (s : State) : Nat := ((s.arrayLines ++ s.stage.eddy ++ s.stage.wb).map fun l => popCount l.dirty 0 16).sum

/-- Fields outside the management slots that show a state held elsewhere than in the register file, by window and offset. -/
def State.shown (s : State) (w off : Nat) : List (Fld × Nat) :=
  if 16 ≤ w ∧ w < 20 then s.shownRch (instOf w 16)
  else if 20 ≤ w ∧ w < 24 then
    let n := instOf w 20
    [(Fd.CHN_STATUS_ACQ n, b2n (s.on (Fd.CHN_CTL_EN n) && !s.blk n)), (Fd.CHN_AFE_VGA_NOW n, s.gainCode n false),
      (Fd.CHN_AFE_VGB_NOW n, s.gainCode n true)]
  else if w = 24 then
    let wait := fun n : Fin 4 => ((if s.on Fd.DEEP_DSTATUS_BUSY then s.deep.drop 1 else s.deep).countP fun d => d.n == n)
    [(Fd.DEEP_DSTATUS_WAIT0, wait 0), (Fd.DEEP_DSTATUS_WAIT1, wait 1), (Fd.DEEP_DSTATUS_WAIT2, wait 2), (Fd.DEEP_DSTATUS_WAIT3, wait 3),
      (Fd.DEEP_DSTATUS_DEPTH, wait 0 + wait 1 + wait 2 + wait 3)]
  else if w = 4 then [(Fd.WEIR_RESV_CTX, s.host.ctxs.countP fun p => p.2.st != CtxSt.held)]
  else if w = 5 then [(Fd.IRT_SRC_PEND (off / 4), b2n (s.irqPending (off / 4))), (Fd.IRT_MTIME_TIME, s.time), (Fd.IRT_WSTAT_SUPEXP, s.expiryWindow.rd Fd.IRT_WSTAT_SUPEXP)] ++
      (List.range 5).map fun d => (Fd.IRT_DSTAT_EXPIRES d, s.expiryWindow.rd (Fd.IRT_DSTAT_EXPIRES d))
  else if w = 6 then
    [(Fd.STG_DRAIN_LEFT, s.dirtyUnits), (Fd.STG_WBSTAT_WB, s.stage.wb.length), (Fd.STG_WBSTAT_EDDY, s.stage.eddy.length)]
  else if w = 7 then (List.range 2).map fun m => (Fd.MEM_BKT_LEVEL m, (s.leak m).rd (Fd.MEM_BKT_LEVEL m))
  else if w = 8 then
    four.map fun n => (Fd.SLC_CHSTAT_SECT (24 + 2 * n.val), b2n (s.sluice.xfers.any fun x => x.n == n))
  else if w = 9 then [(Fd.BKW_QSTAT_WORDS (above 0x8000 off / 0x20), (s.queue (above 0x8000 off / 0x20)).words)]
  else if w = 13 then
    [(Fd.EVR_STATUS_COUNT, s.evr.ordinary.length), (Fd.EVR_STATUS_FULL, b2n s.evr.isFull),
      (Fd.EVR_RING_ADDR, if s.power.p0 then 0 else 0x0104080000)] ++
    (List.range 5).map fun k => (Fd.EVR_RAISE_BUSY k, b2n (s.evr.raised.any fun x => x.core == some k))
  else []

/-- The completed handshakes of a unit, counted since the last read by a free number where it works: the model's events are no handshakes
(Table 01.10, R486). -/
def State.progress (s : State) (u : UnitRef) : Nat :=
  s.rd (Fd.SLOT_PROGRESS_COUNT u.win u.slot) + (if s.serving u || s.unit u == 3 then s.freeVal else 0)

/-- Fields of a unit's management slot that show a state held elsewhere: its identity, from P1 on, its expiries in the window that device time
stands in, and its progress count (R494, Tables 01.5, 01.6 and 01.10). -/
def State.shownSlot (s : State) (u : UnitRef) : List (Fld × Nat) :=
  let id := fun v : Nat => if s.power.p0 then 0 else v
  [(Fd.SLOT_ID_INST u.win u.slot, id u.inst), (Fd.SLOT_ID_LEVEL u.win u.slot, id u.level), (Fd.SLOT_ID_DOMAIN u.win u.slot, id u.domain.num),
    (Fd.SLOT_ID_TYPE u.win u.slot, id u.type), (Fd.SLOT_PROGRESS_COUNT u.win u.slot, s.progress u),
    (Fd.SLOT_STATE_EXPIRES u.win u.slot, s.expiryWindow.rd (Fd.SLOT_STATE_EXPIRES u.win u.slot))]

/-- Every shown field of the register at an offset. -/
def State.shownAt (s : State) (w off : Nat) : List (Fld × Nat) :=
  if inSlot w off then (slotUnit w (slotOf off)).elim [] s.shownSlot else s.shown w off

/-- The value a read gives of one field. -/
def State.readField (s : State) (w off : Nat) (x : FieldAt) : Nat :=
  if x.acc = .wo then 0
  else match (s.shownAt w off).find? fun p => p.1 == x.fd with
    | some p => p.2 % 2 ^ x.fd.width
    | none => s.rd x.fd

/-- The value a read gives of the register at an offset. -/
def State.readWord (s : State) (w off : Nat) (l : List FieldAt) : Nat := (l.map fun x => 2 ^ (x.fd.key % 256) * s.readField w off x).sum

/-- RC fields cleared by the read (Table 00.6). -/
def State.clearRc (s : State) : List FieldAt → State
  | [] => s
  | x :: l => (if x.acc = .rc then s.wr x.fd 0 else s).clearRc l

/-- The state that an outcome leaves; no meaning of this model stops. -/
def State.after (s : State) : Host.Outcome State Fault Refusal → State
  | .next t => t
  | _ => s

/-- A read of a slot's PROGRESS: the count moves on to what the read shows. -/
def State.noteProgress (s : State) (w off : Nat) : State :=
  if inSlot w off && off % 0x20 == 0x14 then
    (slotUnit w (slotOf off)).elim s fun u => s.wr (Fd.SLOT_PROGRESS_COUNT u.win u.slot) (s.progress u)
  else s

/-- Whether a read of an offset takes a free value. -/
def freeRead (w off : Nat) : Bool := inSlot w off && off % 0x20 == 0x14

/-- A read of the register at an offset, its answer and its effect (R8, R434, R587, R607). -/
def State.readNow (s : State) (r : Sys2Proof.Requester) (w off size : Nat) : State :=
  let l := registerAt w off
  if !accessOk w off size then s.busError
  else if w = 5 ∧ 0x1000 ≤ off ∧ off < 0x1050 ∧ off % 16 = 0 then s.after (execClaimRead r (Fin.ofNat 5 (above 0x1000 off / 16)) s)
  else if w = 9 ∧ 0x8000 ≤ off ∧ off < 0xA000 ∧ off % 32 = 0 then s.after (execBkwPop (Fin.ofNat 256 (above 0x8000 off / 32)) false s)
  else if w = 11 ∧ off = 0x48 then s.after (execNonceRead s)
  else
    let s1 := if freeRead w off then (s.noteProgress w off).tookFree else s
    (s1.clearRc l).reply (s.readWord w off l)

/-! ### How a write is stored (R8, R9) -/

/-- The value stored where it depends on another field: the fields of the rule `special`. -/
def State.specialValue (s : State) (w off v x : Nat) (f : Fld) : Nat :=
  let old := s.rd f
  if 20 ≤ w ∧ w < 24 then
    let n := instOf w 20
    if off = 0x30 then max 16 (min x (s.rd (Fd.CHN_SYNC_THRESH n)))
    else if off = 0x38 then (if s.rd (Fd.CHN_DEC_GLOBAL n) ≤ x ∧ x ≤ 20 then x else 20)
    else if x = 0 then old else min x 0x7B
  else if w = 24 then (if s.rd Fd.DEEP_DCTL_GLOBAL ≤ x ∧ x ≤ 60 then x else 60)
  else if 29 ≤ w ∧ w < 33 then max x (s.rd (Fd.SRV_SETTLE_WIN (w - 29) ((off - 0x40) / 4)))
  else if w = 2 then (let j := (off - 0x40) / 16; if s.rd (Fd.INT_NSCFG_ZONED j) = (if j = 1 then 0 else 1) then x else 0)
  else if w = 6 then (if s.on Fd.STG_CTL_STATE then old else x)
  else if w = 15 then
    if off = 0x18 then (if x = 0 then 0 else max 3600 (min x 7200))
    else if bits v 0 8 ≤ bits v 8 8 then (if f = Fd.SPN_HYST_ON then 64 else 40) else x
  else if w = 12 then
    if f = Fd.HSK_START_PHASE then (if x < old ∨ 6 < x then old else x) else (if [0, 7, 8, 15].contains x then x else old)
  else if w = 16 then (if s.on (Fd.RCH_JCTL_EN 0) then old else x)
  else x

/-- One field of a written value stored by its access type; a field whose write acts is left to `State.acts`. -/
def State.storeField (s : State) (w off v : Nat) (x : FieldAt) : State :=
  let p := x.fd.of v
  if x.own then s
  else match x.acc with
    | .rw | .wo => s.wr x.fd (if x.rule = .special then s.specialValue w off v p x.fd else x.rule.apply p)
    | .w1c => s.wr x.fd (s.rd x.fd - (s.rd x.fd &&& p))
    | .ro | .rc | .rsh => s

/-- The fields of a register stored in order. -/
def State.storeFields (s : State) (w off v : Nat) : List FieldAt → State
  | [] => s
  | x :: l => (s.storeField w off v x).storeFields w off v l

/-- A register's fields stored, those that depend on another after it. -/
def State.storeReg (s : State) (w off v : Nat) (l : List FieldAt) : State :=
  (s.storeFields w off v (l.filter fun x => x.rule != .special)).storeFields w off v (l.filter fun x => x.rule == .special)

/-! ### Who may write (R29, R221, R233, R406, R413, R485, R509, R548, R577, R584, R594, R608, R631) -/

/-- A write that is not accepted, and what it does instead; none where it is accepted. -/
def State.refusesWrite (s : State) (r : Sys2Proof.Requester) (w off : Nat) : Option State :=
  let only := fun b : Bool => if b then none else some s
  let core := fun k : Nat => only (Requester.core? r == some k)
  if w = 3 ∧ off = 0x38 then only (!s.on Fd.CFX_CTL_EN)
  else if w = 4 ∧ off = 0x10 then only (!s.on Fd.BKW_CTL_EN)
  else if w = 5 ∧ (0x8000 ≤ off ∨ (0x2080 ≤ off ∧ off < 0x20A0)) then only (r == .watch)
  else if w = 7 ∧ (off = 0x50 ∨ off = 0x58) then only (r == .watch)
  else if w = 11 ∧ 0x10 ≤ off ∧ off ≤ 0x40 then
    if r ≠ .watch then some s else if s.trust.iroot.isSome then some s.deny else none
  else if w = 11 ∧ (off = 0x60 ∨ off = 0x78) then only (r == .watch)
  else if w = 12 ∧ (off = 0x900 ∨ off = 0x904) then only (Requester.core? r).isSome
  else if w = 13 ∧ 0x40 ≤ off ∧ off < 0x54 then core ((off - 0x40) / 4)
  else if w = 13 ∧ 0x100 ≤ off ∧ off < 0x150 then core ((off - 0x100) / 16)
  else if w = 15 ∧ 0x28 ≤ off ∧ off ≤ 0x3C then only (s.spn == 0)
  else if 29 ≤ w ∧ w < 33 then
    if (0x4000 ≤ off ∧ off < 0x4800 ∧ above 0x4000 off / 0x400 = s.rd (Fd.SRV_STATUS_CBANK (w - 29))) ∨
        (0x1000 ≤ off ∧ off < 0x1200 ∧ above 0x1000 off / 0x100 = s.rd (Fd.SRV_STATUS_FFBANK (w - 29))) then some (s.wr (Fd.SRV_INT_BANKERR (w - 29)) 1)
    else none
  else none

/-! ### Writes that act -/

/-- An action taken where its bit of the written value is 1. -/
def State.when (s : State) (f : Fld) (v : Nat) (g : State → Host.Outcome State Fault Refusal) : State :=
  if f.of v = 0 then s else s.after (g s)

/-- Writes that act in an engine's or a zone unit's window (R63, R93 to R101, R297, R313, R322, R326, R329). -/
def State.actsRch (s : State) (n : Fin 4) (off v : Nat) : State :=
  let k : Fin 4 := calAct ((off - 0x100) / 0x40)
  let o := if 0x100 ≤ off ∧ off < 0x200 then (off - 0x100) % 0x40 else 1
  if off = 0 then s.after (execRchEnable n (bit v 0) s)
  else if off = 0x10 then s.after (execSignalsSet n (BitVec.ofNat 8 (v / 256)) s)
  else if off = 0x38 then eight.foldl (fun t h => if bit v h.val then t.after (execRegionLoad n h t) else t) s
  else if o = 0 then
    ((((s.when (Fd.RCH_SLOT_CTL_START n k) v (execSlotStart n k)).when (Fd.RCH_SLOT_CTL_RESUME n k) v (execSlotResume n k)).when
      (Fd.RCH_SLOT_CTL_STOP n k) v (execSlotStop n k)).when (Fd.RCH_SLOT_CTL_RESTART n k) v (execSlotRestart n k)).when
      (Fd.RCH_SLOT_CTL_KILL n k) v (execSlotKill n k)
  else if o = 0x20 then s.after (execSlotAppend n k (BitVec.ofNat 64 v) s)
  else if off = 0x8000 then
    (s.after (execZoneRecovWrite n ((Fd.RCH_ZCTL_RECOV n).of v == 1) s)).when (Fd.RCH_ZCTL_LOAD n) v (execZoneLoad n)
  else if off = 0x8020 then s.after (execZoneQuery n (BitVec.ofNat 20 v) s)
  else if off = 0x8038 then
    (s.when (Fd.RCH_ZFLAGOP_CLRVFY n) v (execZflagClrvfy n (BitVec.ofNat 20 v))).when (Fd.RCH_ZFLAGOP_SETRZR n) v
      (execZflagSetrzr n (BitVec.ofNat 20 v))
  else if off = 0x8040 ∧ n = 0 then s.after (execJournalEnable (bit v 0) s)
  else s

/-- Writes that act in a channel's window: EN at 0 clears BLK, TDCTL.EN at 1 begins a new baseline, and an equalizer word waits for the sector
boundary (R144, R153, R157, R187). -/
def State.actsChn (s : State) (n : Fin 4) (off v : Nat) : State :=
  if off = 0 then (if bit v 0 then s else s.after (execBlkLoss n .disabled s))
  else if off = 0x21C then
    (if bit v 0 then (s.wr (Fd.CHN_TDSTAT_DET n) 0).updCh n fun c => { c with ecs := [], ecsBase := none, ecsHits := 0 } else s)
  else if 0x1000 ≤ off ∧ off < 0x3000 ∧ above 0x1000 off % 128 < 104 then
    s.eqWrite n (above 0x1000 off / 128) (above 0x1000 off % 128 / 4) (v % 2 ^ 32)
  else s

/-- A write to a head's geometry block: its pinned gain is cleared, and a gain written is the one firmware last wrote (R218, Table 06.15). -/
def State.writeGeo (s : State) (n : Fin 4) (h o v : Nat) : State :=
  let s1 := s.clrB (Fd.SRV_STATUS_TPIN n) h
  if o < 0x100 ∧ o % 16 = 4 then
    s1.updSv n fun x => { x with gfw := tset 0 x.gfw (16 * h + o / 16) (v % 65536), gNew := (16 * h + o / 16) :: x.gNew }
  else s1

/-- Writes that act in a servo's window (R218, R221, R233, R239, R241 to R243, R245). -/
def State.actsSrv (s : State) (n : Fin 4) (off v : Nat) : State :=
  if off = 0 then
    (((s.when (Fd.SRV_CTL_LOAD n) v (execLoad n)).when (Fd.SRV_CTL_UNLOAD n) v (execUnload n)).when (Fd.SRV_CTL_ERET n) v (execEret n)).when
      (Fd.SRV_CTL_CSWAP n) v (execCswap n)
  else if off = 0x60 then s.when (Fd.SRV_FFCTL_SWAP n) v (execFfSwap n)
  else if off = 0x68 ∧ n.val % 2 = 0 then s.when (Fd.SRV_STBY_RST n) v (execStbyRst (Fin.ofNat 2 (n.val / 2)))
  else if off = 0x70 then s.updSv n fun x => { x with dieRet := v % 2 ^ 32 }
  else if 0x2000 ≤ off ∧ off < 0x3000 then s.writeGeo n (above 0x2000 off / 0x200) (above 0x2000 off % 0x200) v
  else s

/-- Writes that act in the intake's window: EN, NSREADY, and a change of an existing namespace (R333, R335, R614). -/
def State.actsInt (s old : State) (off v : Nat) : State :=
  let j := (off - 0x40) / 16
  if off = 0 then s.after (execIntakeEnable (bit v 0) s)
  else if off = 0x20 then s.after (execNsreadyWrite (BitVec.ofNat 5 v) s)
  else if 0x50 ≤ off ∧ off < 0xA0 ∧ s.regs ≠ old.regs ∧ (s.nsValid j || old.nsValid j) then s.nsChanged [j]
  else s

/-- Writes that act in the Stage's window: EN, a MODE that is not taken, and STREAM.EN at 0 (R371, R376, R385, R387). -/
def State.actsStg (s : State) (off v : Nat) : State :=
  if off = 0 then
    let s1 := if Fd.STG_CTL_MODE.of v ≠ s.rd Fd.STG_CTL_MODE then s.wr Fd.STG_INT_MODEREF 1 else s
    if bit v 0 then s1.after (execStageEnable s1) else s1.after (execStageDisable s1)
  else if off = 8 ∧ !bit v 0 then
    let s1 := s.wrs [(Fd.STG_STRM0_FLAG, 0), (Fd.STG_STRM1_FLAG, 0)]
    { s1 with stage := { s1.stage with
      strm := s1.stage.strm.foldl (fun l p => tset ⟨none, 0, 0⟩ l p.1 { p.2 with run := 0 }) s1.stage.strm } }
  else s

/-- Writes that act in Sluice's window: EN at 0 stops every channel, and at 1 the sectors that waited for Sluice are accepted (R96, R427, R429). -/
def State.actsSlc (s : State) (off v : Nat) : State :=
  let c : Fin 32 := Fin.ofNat 32 (above 0x1000 off / 0x40)
  if off = 0 then (if bit v 0 then four.foldl (fun t n => t.drainAll n) s else (List.range 32).foldl State.sluStop s)
  else if 0x1000 ≤ off ∧ off < 0x1800 ∧ off % 0x40 = 0 then
    ((s.when (Fd.SLC_CHCTL_GO c) v (execSluiceGo c)).when (Fd.SLC_CHCTL_STOP c) v (execSluiceStop c)).when (Fd.SLC_CHCTL_RESUME c) v
      (execSluiceResume c)
  else s

/-- Writes that act in Backwater's window (R432, R436). -/
def State.actsBkw (s : State) (off v : Nat) : State :=
  if off < 0x1000 then
    let q := Fin.ofNat 256 (off / 16)
    if off % 16 = 0 then s.after (execBkwPush q (BitVec.ofNat 64 v) s) else s.after (execBkwPushl q (BitVec.ofNat 64 v) s)
  else if 0x8000 ≤ off ∧ off < 0xA000 ∧ off % 32 = 12 then
    let q := Fin.ofNat 256 (above 0x8000 off / 32)
    s.when (Fd.BKW_QCTL_FLUSH q) v (execBkwFlush q)
  else s

/-- A GO of the code flash: OP 1 programs, 2 erases, and any other is refused with RESULT 1 (R450, Table 14.5). -/
def State.cflGo (s : State) (b : Fin 2) : State :=
  let op := s.rd (Fd.CFL_CMD_OP b)
  if op = 1 then s.after (execCflProgram b s) else if op = 2 then s.after (execCflErase b s) else s.wr (Fd.CFL_RES_RESULT b) 1

/-- Writes that act in the spindle's window: the demand follows its source, and its on or off state the hysteresis (R465, R467, R468,
R474, R477). -/
def State.actsSpn (s old : State) (off v : Nat) : State :=
  if off = 0 then
    let s1 := if s.rd Fd.SPN_CTL_SRC = old.rd Fd.SPN_CTL_SRC then s else s.sourceDemand
    (s1.when Fd.SPN_CTL_CLEAR v execSpnClear).when Fd.SPN_CTL_CURVE v execCurveApply
  else if off = 0x10 then (if s.on Fd.SPN_CTL_SRC then s.sourceDemand else s)
  else if off = 0x14 then s.judgeOn
  else s

/-- A write of IRT.SRCs by the rules of R588: the target is 4 for source 0x00D always, and for a TARGET of 5 to 7 from the watch core. -/
def State.actsSrc (s : State) (r : Sys2Proof.Requester) (i v : Nat) : State :=
  let p := (Fd.IRT_SRC_PRIO i).of v
  let t := (Fd.IRT_SRC_TARGET i).of v
  let fixed := if i = 13 ∨ 4 ≤ t then 4 else t
  if r ≠ .watch ∧ (4 ≤ t ∨ s.rd (Fd.IRT_SRC_TARGET i) = 4) then s
  else if s.on (Fd.IRT_SRC_ACTIVE i) then
    { s with cores := { s.cores with deferred := (s.cores.deferred.filter fun d => d.1 != i) ++ [(i, (p, fixed))] } }
  else s.wrs [(Fd.IRT_SRC_PRIO i, p), (Fd.IRT_SRC_TARGET i, fixed)]

/-- Writes that act in the interrupt router's window (R509, R584, R587 to R589). -/
def State.actsIrt (s : State) (r : Sys2Proof.Requester) (off v : Nat) : State :=
  if off < 0x800 then s.actsSrc r (off / 4) v
  else if 0x1000 ≤ off ∧ off < 0x1050 then
    (if off % 16 = 0 then s.after (execClaimComplete r (Fin.ofNat 5 (above 0x1000 off / 16)) (BitVec.ofNat 9 v) s) else s)
  else if 0x2008 ≤ off ∧ off < 0x2030 then s.settleTimer (above 0x2008 off / 8)
  else if 0x2040 ≤ off ∧ off < 0x2054 then s.after (execMsipWrite r (Fin.ofNat 5 (above 0x2040 off / 4)) (bit v 0) s)
  else if 0x2080 ≤ off ∧ off < 0x20A0 then s.after (execFbootRun r (Fin.ofNat 4 (above 0x2080 off / 8)) (bit v 0) s)
  else if 0x8000 ≤ off ∧ off < 0x8050 ∧ off % 16 = 4 then
    let d := above 0x8000 off / 16
    s.when (Fd.IRT_DCTL_RESTART d) v (execDomainRestartReq r (domainOf d))
  else if off = 0x8100 then s.when Fd.IRT_WDOG_KICK v (execWdogKick r)
  else s

/-- Writes that act in housekeeping's window: VBND leaves no lower bound above the upper, and what VCTL.EN reads of the regulator is open
(R529, R591, R592). -/
def State.actsHsk (s : State) (off v : Nat) : State :=
  if off = 0x18 then s.after (execSensclr (BitVec.ofNat 10 v) s)
  else if off = 0x800 then
    if !bit v 0 then s.wr Fd.HSK_VCTL_EN 0
    else if s.on Fd.HSK_VCTL_EN then s
    else
      let m := s.freeVal % 257
      let t := s.tookFree
      t.after (execVloopEnable (if m = 256 then none else some (BitVec.ofNat 8 m)) t)
  else if off = 0x804 then (if s.rd Fd.HSK_VBND_HI_MV < s.rd Fd.HSK_VBND_LO_MV then s.wr Fd.HSK_VBND_LO_MV (s.rd Fd.HSK_VBND_HI_MV) else s)
  else if off = 0x80C then s.hskPut fun h => { h with vset := some (Fd.HSK_VSET_MV.of v) }
  else s

/-- Writes that act in the recorder's window (R541, R548, R549, R553). -/
def State.actsEvr (s : State) (r : Sys2Proof.Requester) (off v : Nat) : State :=
  if off = 0 then s.evrPut fun e => { e with phaseSet := true }
  else if off = 0x20 then s.when Fd.EVR_CLR_GO v execEvrClear
  else if 0x40 ≤ off ∧ off < 0x54 then
    let k := Fin.ofNat 5 ((off - 0x40) / 4)
    s.when (Fd.EVR_EVF_GO k) v (execEvf r k)
  else if 0x100 ≤ off ∧ off < 0x150 ∧ off % 16 = 0 then
    let k := Fin.ofNat 5 ((off - 0x100) / 16)
    s.when (Fd.EVR_RAISE_GO k) v (execEvrRaise r k (BitVec.ofNat 32 v))
  else s

/-- A range's geometry written with the fields of it that a register does not hold taken as they are (R601). -/
def State.actsGeometry (s : State) (i : Fin 65) (defined : Bool) (ns start len : Nat) : State :=
  s.after (execRangeGeometryWrite i defined (Fin.ofNat 8 ns) (BitVec.ofNat 64 start) (BitVec.ofNat 64 len) s)

/-- A write of RANGEr.CFG: what it changes of the geometry and of the locks, and GENKEY (R601, R604, R606). -/
def State.actsRange (s : State) (i : Fin 65) (v : Nat) : State :=
  let r := i.val
  let d := (Fd.TRU_RANGE_CFG_DEFINED r).of v
  let ns := (Fd.TRU_RANGE_CFG_NS r).of v
  let rl := (Fd.TRU_RANGE_CFG_RLCK r).of v
  let wl := (Fd.TRU_RANGE_CFG_WLCK r).of v
  let s1 := if d = s.rd (Fd.TRU_RANGE_CFG_DEFINED r) ∧ ns = s.rd (Fd.TRU_RANGE_CFG_NS r) then s
    else s.actsGeometry i (d == 1) ns (s.rd (Fd.TRU_RANGE_START_LBA r)) (s.rd (Fd.TRU_RANGE_LEN_BLOCKS r))
  let s2 := if rl = s.rd (Fd.TRU_RANGE_CFG_RLCK r) ∧ wl = s.rd (Fd.TRU_RANGE_CFG_WLCK r) then s1
    else s1.after (execRangeLockWrite i (rl == 1) (wl == 1) s1)
  s2.when (Fd.TRU_RANGE_CFG_GENKEY r) v (execGenkey i)

/-- Writes that act in the trust unit's window; whether a token's signature verifies is open (R594, R596, R601 to R607). -/
def State.actsTru (s : State) (r : Sys2Proof.Requester) (off v : Nat) : State :=
  let i : Fin 65 := Fin.ofNat 65 (above 0x1000 off / 32)
  let defined := s.on (Fd.TRU_RANGE_CFG_DEFINED i)
  let ns := s.rd (Fd.TRU_RANGE_CFG_NS i)
  if off = 0x40 then s.when Fd.TRU_IRCOMMIT_COMMIT v (execIrootCommit r)
  else if off = 0x58 then
    if Fd.TRU_AUTHREQ_GO.of v = 0 then s
    else
      let t := s.tookFree
      t.after (execAuthreq (Fd.TRU_AUTHREQ_KIND.of v == 1) (s.freeVal % 2 == 1) t)
  else if off = 0x60 then (s.when Fd.TRU_ARB_ADVFW v (execArbAdvanceFw r)).when Fd.TRU_ARB_ADVUC v (execArbAdvanceUc r)
  else if 0x1000 ≤ off ∧ off < 0x1820 then
    if off % 32 = 0 then s.actsRange i v
    else if off % 32 = 8 then s.actsGeometry i defined ns v (s.rd (Fd.TRU_RANGE_LEN_BLOCKS i))
    else if off % 32 = 16 then s.actsGeometry i defined ns (s.rd (Fd.TRU_RANGE_START_LBA i)) v
    else s
  else s

/-- Writes outside the management slots that act as their rows do; `old` is the state before the write was stored. -/
def State.acts (s old : State) (r : Sys2Proof.Requester) (w off v : Nat) : State :=
  if 16 ≤ w ∧ w < 20 then s.actsRch (instOf w 16) off v
  else if 20 ≤ w ∧ w < 24 then s.actsChn (instOf w 20) off v
  else if 25 ≤ w ∧ w < 29 then
    let n := instOf w 25
    if off = 0 then s.when (Fd.ARM_CTL_LRST n) v (execArmLinkReset n)
    else if off = 0x10 then s.when (Fd.ARM_REQ_GO n) v (execArmReqGo n) else s
  else if 29 ≤ w ∧ w < 33 then s.actsSrv (instOf w 29) off v
  else match w with
    | 2 => s.actsInt old off v
    | 3 => if off = 0x30 then s.when Fd.CFX_FENCE_GO v (execCfxFenceGo (BitVec.ofNat 4 v)) else s
    | 4 => if 0x20 ≤ off ∧ off < 0x48 then s.after (execWeirSync r (Fin.ofNat 5 ((off - 0x20) / 8)) (BitVec.ofNat 48 v) s) else s
    | 5 => s.actsIrt r off v
    | 6 => s.actsStg off v
    | 7 => if off = 0x50 then s.after (execMemInjArm r (BitVec.ofNat 64 v) s) else s
    | 8 => s.actsSlc off v
    | 9 => s.actsBkw off v
    | 10 =>
      if off = 0x10 then s.after (execCflLockWrite (BitVec.ofNat 32 v) s)
      else if off = 0x1000 ∨ off = 0x1400 then
        (let b := Fin.ofNat 2 (above 0x1000 off / 0x400); if (Fd.CFL_CMD_GO b).of v = 0 then s else s.cflGo b)
      else s
    | 11 => s.actsTru r off v
    | 12 => s.actsHsk off v
    | 13 => s.actsEvr r off v
    | 14 => if off = 0 then s.when Fd.CAL_CTL_GO v execCalGo else s
    | 15 => s.actsSpn old off v
    | _ => s

/-- A write of a management-slot register: LIMIT and CTL from the watch hierarchy alone (R29, R32, R652). -/
def State.writeSlot (s : State) (r : Sys2Proof.Requester) (u : UnitRef) (w off v : Nat) : State :=
  let o := off % 0x20
  if (o = 8 ∨ o = 0xC) ∧ !slotWriter r then s
  else if o = 0xC then
    let s1 := s.after (execSlotQuiesce r u (bit v 0) s)
    let s2 := s1.after (execSlotDegrade r u (bit v 2) s1)
    if bit v 1 then s2.after (execSlotReset r u s2) else s2
  else s.storeReg w off v (slotFields w off)

/-- A write of the register at an offset, answered (R8, R10, R581). -/
def State.writeNow (s : State) (r : Sys2Proof.Requester) (w off size v : Nat) : State :=
  let l := registerAt w off
  if !accessOk w off size then s.busError
  else if inSlot w off then (if l.isEmpty then s else (slotUnit w (slotOf off)).elim s fun u => s.writeSlot r u w off v).reply 0
  else match s.refusesWrite r w off with
    | some t => t.reply 0
    | none => if l.isEmpty ∧ !(29 ≤ w ∧ w < 33) then s.reply 0 else ((s.storeReg w off v l).acts s r w off v).reply 0

/-! ### Accesses, and units that are being reset (R31) -/

/-- Whether an access waits: it is outside the slots of a window of some unit whose STATE reads resetting (R31, Table 01.4). -/
def State.waits (s : State) (w off : Nat) : Bool := !inSlot w off && UnitRef.every.any fun u => u.win == w && s.unit u == 5

/-- An access carried out. -/
def State.serveAccess (s : State) (h : HeldAccess) : State :=
  if h.read then s.readNow h.r h.w h.off h.size else s.writeNow h.r h.w h.off h.size h.v

/-- An access carried out, or held while its unit is being reset. -/
def State.access (s : State) (h : HeldAccess) : State :=
  if s.waits h.w h.off then ({ s with answer := [] }).watchUpd fun w => { w with accesses := w.accesses ++ [h] } else s.serveAccess h

/-- REGISTER_WRITE (R8 to R10, R31, R581). -/
def execRegisterWrite (r : Sys2Proof.Requester) (w : Fin 64) (off : Fin 65536) (size : Fin 9) (v : BitVec 64) (s : State) :
    Host.Outcome State Fault Refusal :=
  .next (s.access ⟨r, w.val, off.val, size.val, v.toNat, false⟩)

/-- REGISTER_READ_CLEAR (R8, R31, R581). -/
def execRegisterReadClear (r : Sys2Proof.Requester) (w : Fin 64) (off : Fin 65536) (size : Fin 9) (s : State) :
    Host.Outcome State Fault Refusal :=
  .next (s.access ⟨r, w.val, off.val, size.val, 0, true⟩)

/-- One held access served, its answer behind those before it. -/
def State.serveOne (s : State) (h : HeldAccess) : State :=
  let t := s.access h
  { t with answer := s.answer ++ t.answer }

/-- Held accesses served in order, their answers in order; one that has come to wait again stays held. -/
def State.serveHeld (s : State) (l : List HeldAccess) : State := l.foldl (fun t h => t.serveOne h) s

/-- Whether an access waits for a unit. -/
def HeldAccess.waitsFor (h : HeldAccess) (u : UnitRef) : Bool := u.win == h.w

/-- UNIT_RESET_END (R31, R490): the unit's reset ends, and the accesses held for it are served. -/
def execUnitResetEnd (u : UnitRef) (s : State) : Host.Outcome State Fault Refusal :=
  if s.unit u ≠ 5 then .next s
  else
    let due := s.watch.accesses.filter fun h => h.waitsFor u
    let s1 := (s.watchUpd fun w => { w with accesses := w.accesses.filter fun h => !h.waitsFor u }).resetEnds u
    .next (State.serveHeld { s1 with answer := [] } due)

end Sys2Proof.Machine
end

