-- ==== Sys2Proof/Machine/SluiceBus.lean ====
section
/-! DEFINITION. Sluice's accesses to memory, register space, code flash and the boot ROM (13, 20). -/

namespace Sys2Proof.Machine

/-- The window and offset of a register-space address (Table 20.2). -/
def regAddr (a : Nat) : Nat × Nat := (above 0x0200000000 a / 65536 % 64, a % 65536)

/-- Whether a range of addresses meets the SRAM that only its own units reach (Table 20.2). -/
def ownUnits (a n : Nat) : Bool := a < 0x0104400000 && 0x0104100000 < a + n

/-- Whether Sluice may not write a range: the supervisor memory, the event log and the units' own SRAM (Table 20.2). -/
def noSluWrite (a n : Nat) : Bool := a < 0x0104400000 && 0x0104000000 < a + n

/-- `n` bytes of boot ROM or code flash; nothing where a word of them cannot be read (R447, R457, R580). -/
def State.romBytes (s : State) (a n : Nat) : Option (List Nat) :=
  if a < 0x40000 then some ((List.range n).map fun i => (Config.bootRom (a + i)).toNat)
  else
    let off := above 0x0400000000 a
    let bad := (List.range ((off + n + 7) / 8 - off / 8)).any fun i =>
      s.cfl.badWords.contains (off / 8 + i) || s.erasing ((off / 8 + i) / 512)
    if bad then none else some (s.flashBytes off n)

/-- A read of channel `c` (R420 to R422, R581); what it shows of the answer of an access is its own. -/
def State.sluBusRead (c : Nat) (s : State) (a n : Nat) : State × Option (List Nat) :=
  match s.sluTarget a with
  | .mem => if ownUnits a n then (s, none) else s.load (0x10 + c) a n
  | .reg =>
    let (w, off) := regAddr a
    let t := s.readNow .sluice w off n
    ({ t with answer := s.answer }, (t.answer.head?.bind fun x => if x.busError then none else some (leBytes n x.value)))
  | .rom => (s, s.romBytes a n)
  | .none => (s, none)

/-- A write of channel `c`; false where its target refuses it. -/
def State.sluBusWrite (_c : Nat) (s : State) (a : Nat) (l : List Nat) : State × Bool :=
  match s.sluTarget a with
  | .mem => if noSluWrite a l.length then (s, false) else s.store a l
  | .reg =>
    let (w, off) := regAddr a
    let t := s.writeNow .sluice w off l.length (leValue l)
    ({ t with answer := s.answer }, t.answer.all fun x => !x.busError)
  | _ => (s, false)

/-- The address of the next access of a channel: a write once its bytes are there, else a read. -/
def State.sluNext (s : State) (c : Nat) : Option Nat :=
  let x := s.slu c
  match x.cur with
  | none => none
  | some d =>
    let (_, _, want) := nextAccess (descFunnel d) (s.sluTarget (descDst d + x.wpos) == SluTarget.reg) (descDst d + x.wpos) (descCount d - x.wpos)
    if want ≤ x.outb.length then some (descDst d + x.wpos) else if x.rpos < descCount d then some (descSrc d + x.rpos) else none

/-- Whether an address lies in register space that a unit reset holds (R31). -/
def State.addrWaits (s : State) (a : Nat) : Bool := s.sluTarget a == SluTarget.reg && s.waits (regAddr a).1 (regAddr a).2

/-- Whether the next access of a channel waits for a unit that is being reset (R31). -/
def State.sluWaits (s : State) (c : Nat) : Bool := (s.sluNext c).any s.addrWaits

/-- A read of channel `c` whose wait for a unit reset has ended after 2 ms: a bus error (R31). -/
def State.sluLateRead (c : Nat) (s : State) (a n : Nat) : State × Option (List Nat) :=
  if s.addrWaits a then (s, none) else State.sluBusRead c s a n

/-- A write of channel `c` whose wait for a unit reset has ended after 2 ms: a bus error (R31). -/
def State.sluLateWrite (c : Nat) (s : State) (a : Nat) (l : List Nat) : State × Bool :=
  if s.addrWaits a then (s, false) else State.sluBusWrite c s a l

/-- RESET_ACCESS_TIMEOUT (R31): an access held for the window of a unit that resets has waited 2 ms and ends with a bus error: the oldest
register access, or, with none, that of the lowest Sluice channel that waits there. -/
def execResetAccessTimeout (u : UnitRef) (s : State) : Host.Outcome State Fault Refusal :=
  match s.watch.accesses.find? fun h => h.waitsFor u with
  | some h => .next (s.watchUpd fun w => { w with accesses := w.accesses.erase h }).busError
  | none =>
    match (List.range 32).find? fun c => s.sluRuns c && (s.sluNext c).any fun a => s.addrWaits a && (regAddr a).1 == u.win with
    | none => .next s
    | some c => .next (State.sluAccess State.sluLateRead State.sluLateWrite s c)

/-- SLUICE_ACCESS (R421, R422, R426): the channel's next access; a sector transfer of its engine that waits goes first, and an access to a unit
that is being reset waits for it. -/
def execSluiceAccess (c : Fin 32) (s : State) : Host.Outcome State Fault Refusal :=
  match s.sluice.xfers.find? fun x => 24 + 2 * x.n.val == c.val with
  | some x => .next (s.xferRead x)
  | none => if s.sluWaits c.val then .next s else .next (State.sluAccess State.sluBusRead State.sluBusWrite s c.val)

end Sys2Proof.Machine
end

