-- ==== Sys2Proof/Machine/Startup.lean ====
section
/-! DEFINITION. Start, power loss and restart: the phases P0 to P5, the boot ROM stage, the declaration of power loss, the restart after a dip
and the controller restart (16, 22). -/

namespace Sys2Proof.Machine

/-! ### The beginning of a start (R609, R611, R612) -/

/-- The registers that a start of kind 0 or 2 keeps: what code flash, fuses and their records hold, and in kind 2 the bits that stand until
power-on reset. -/
def keptFields (kind : Nat) : List Fld :=
  [Fd.CFL_STATUS_SPARE0, Fd.CFL_STATUS_SPARE1, Fd.CFL_STATUS_COPY0, Fd.CFL_STATUS_COPY1, Fd.TRU_ARB_FWUSED, Fd.TRU_ARB_UCUSED,
    Fd.TRU_BOOTSEL_SLOT] ++
  (if kind = 2 then [Fd.IRT_WSTAT_CRESTART, Fd.TRU_STATUS_TAMPER, Fd.SPN_STATUS_ISEN] ++ (List.range 10).map Fd.HSK_TEMP_BROKEN else [])

/-- An actuator that is still retracting when its controller starts again goes on to park (R630). -/
def State.keepRetract (s old : State) (n : Fin 4) : State :=
  if old.mode n = 6 then
    (s.wr (Fd.SRV_STATUS_MODE n) 6).updSv n fun v =>
      { v with load := (old.sv n).load, emf := (old.sv n).emf, parkMa := (old.sv n).parkMa, dieRet := (old.sv n).dieRet }
  else s

/-- The drive die runs from VMOT: its copy of SRV.RET outlives a start that the power does not begin (R243, R623). -/
def State.keepDie (s old : State) (n : Fin 4) : State := s.updSv n fun v => { v with dieRet := (old.sv n).dieRet }

/-- The host side after a start of kind 0 or 2: the admin state stands but for the calendar time (R34, R40, R540). -/
def HostSide.started (h : HostSide) : HostSide :=
  { HostSide.reset with
    c0 := { h.c0.afterReset with pp := false }
    c1 := { h.c1.afterReset with pp := false }
    features := h.features.filter fun p => p.1 != 0x0E
    fwA := ⟨h.fwA.image, false⟩
    fwB := ⟨h.fwB.image, false⟩
    sanitize := h.sanitize
    sanAgain := h.sanitize
    sanitizeDone := h.sanitizeDone
    changedNs := h.changedNs
    changedZones := h.changedZones
    ps0 := h.ps0
    ps1 := h.ps1
    psNow := h.psNow
    psOper := h.psOper }

/-- What a start of kind 0 or 2 leaves: the block at reset, but for the medium, code flash, fuses and what they hold. -/
def State.kept (s : State) (kind : Nat) : State :=
  let keys := (keptFields kind).map Fld.key
  let s1 : State := { State.reset with
    pending := s.pending
    answer := s.answer
    free := s.free
    regs := s.regs.filter fun p => keys.contains p.1
    preamp := if kind = 2 then s.preamp else Four.all Preamp.reset
    medium := s.medium
    zone := { ZoneUnit.reset with head := s.zone.head, tail := s.zone.tail }
    host := s.host.started
    evr := { Recorder.reset with ring := s.evr.ring, head := s.evr.head, changes := s.evr.changes, clears := s.evr.clears }
    flash := s.flash
    cfl := { FlashUnit.reset with remap := s.cfl.remap, badWords := s.cfl.badWords, abandoned := s.cfl.abandoned }
    cal := { CalUnit.reset with life := s.cal.life }
    trust := { TrustUnit.reset with
      iroot := s.trust.iroot
      counters := s.trust.counters
      keys := s.trust.keys
      cut := s.trust.cut || s.trust.waits.any fun w => w.2.1 == .genkey }
    power := { s.power with p0 := false, rails := true, dipHold := false, released := false } }
  four.foldl (fun t n => if kind = 2 then (t.keepRetract s n).keepDie s n else t.keepRetract s n) s1

/-- A start begins: its phase, its kind and its START record; the recorder has its log to rebuild (R551, R609, R615). -/
def State.startRecord (s : State) (kind phase : Nat) : State :=
  (s.wrs [(Fd.HSK_START_PHASE, phase), (Fd.HSK_START_KIND, kind), (Fd.EVR_STATUS_RESTORE, 1)]).raiseAs 0 0 0x0003 2 [kind]

/-- A start of kind 0 or 2 (R609). -/
def State.beginStart (s : State) (kind : Nat) : State := (s.kept kind).startRecord kind 1

/-- POWER_ON: the end of P0; with SYS_RST_N low the controller stays in P0 (R610, R611). -/
def execPowerOn (s : State) : Host.Outcome State Fault Refusal :=
  if !s.power.p0 then .next s
  else if s.power.rstLow then .next { s with power := { s.power with rails := true } }
  else .next (s.beginStart 0)

/-- SYS_RST_RELEASE: P1 begins where the rails have waited for it, or a start of kind 2 after P1 (R611). -/
def execSysRstRelease (s : State) : Host.Outcome State Fault Refusal :=
  if !s.power.rstLow then .next s
  else
    let s1 := { s with power := { s.power with rstLow := false } }
    if s.power.p0 then (if s.power.rails then .next (s1.beginStart 0) else .next s1)
    else if 2 ≤ s.rd Fd.HSK_START_PHASE then .next (s1.beginStart 2)
    else .next s1

/-! ### P1 to P3 (R404, R405, R612) -/

/-- P1_SAMPLE: straps and OTP, device time 0, and every unit serves (R330, R393, R462, R556, R594, R606, R612). -/
def execP1Sample (x4 dramsz isen : Bool) (gid : Fin 16) (size pos : Fin 4) (mouth : Bool) (s : State) : Host.Outcome State Fault Refusal :=
  if s.power.p0 ∨ s.power.rstLow ∨ s.rd Fd.HSK_START_PHASE ≠ 1 then .next s
  else
    let s1 := (UnitRef.every.filter fun u => u != .hostPort 1 || !x4).foldl (fun t u => t.toWork u) s
    let s2 := s1.wrs [(Fd.INT_CTL_X4, b2n x4), (Fd.MEM_STATUS_DSIZE, b2n dramsz), (Fd.CFX_STATUS_GID, gid.val), (Fd.CFX_STATUS_SIZE, size.val),
      (Fd.CFX_STATUS_POS, pos.val), (Fd.CFX_STATUS_MOUTH, b2n mouth), (Fd.TRU_STATUS_IRFUSED, b2n s.trust.iroot.isSome),
      (Fd.TRU_STATUS_GKCUT, b2n s.trust.cut), (Fd.HSK_START_DIP, 0), (Fd.HSK_START_PHASE, 2)]
    let s3 := if s.rd Fd.HSK_START_KIND = 0 then s2.wr Fd.SPN_STATUS_ISEN (b2n isen) else s2
    .next ({ s3 with time := 0, memc := { s3.memc with leakS := 0, leakD := 0 } }.watchUpd fun w =>
      { w with elems := [], units := [], doms := [], sup := 0, window := 0 })

/-- P2_LOCK: the time base locks to REFCLK, and every remap copy that was cut is completed (R458, R612). -/
def execP2Lock (s : State) : Host.Outcome State Fault Refusal :=
  if s.rd Fd.HSK_START_PHASE ≠ 2 ∨ !s.hsk.refclk then .next s
  else
    let s1 := (s.hskPut fun u => { u with locked := true }).cflPut fun c => { c with remap := c.remap.map fun r => { r with done := true } }
    .next (s1.wrs [(Fd.CFL_STATUS_COPY0, 0), (Fd.CFL_STATUS_COPY1, 0), (Fd.HSK_START_PHASE, 3)])

/-- P4 begins: the watch core runs the boot ROM, and its watchdog counts from here. -/
def State.enterP4 (s : State) : State :=
  let s1 : State := { s with
    power := { s.power with released := true }
    cores := { CoresUnit.reset with watch := { CoreUnit.reset with run := true } } }
  (s1.watchUpd fun w => { w with kick := s.time }).wr Fd.HSK_START_PHASE 4

/-- MEMORY_FILL: SRAM and DRAM are zeros, and both scrub passes begin at the lowest address; where the training of a channel fails, no DRAM is
mapped (R403 to R405). -/
def execMemoryFill (failed : Option (Fin 5)) (s : State) : Host.Outcome State Fault Refusal :=
  if s.rd Fd.HSK_START_PHASE ≠ 3 then .next s
  else
    let s1 := { s with mem := [], memc := MemUnit.reset }.syncLog { s.evr with slots := [] }
    let s2 := s1.wr Fd.MEM_STATUS_FILLED_S 1
    let s3 := match failed with
      | none => s2.wr Fd.MEM_STATUS_FILLED_D 1
      | some c => ((s2.wr Fd.MEM_STATUS_DFAIL 1).wr Fd.MEM_INT_DFAIL 1).raise .mem 0x0803 7 [c.val]
    .next s3.enterP4

/-! ### The boot ROM stage (R288, R289, R459, R594, R595, R598, R613) -/

/-- A little-endian field of the code flash. -/
def State.flashField (s : State) (off n : Nat) : Nat := leValue (s.flashBytes off n)

/-- Check 1 of R598: the fields of Table 21.2, and the fit in the region. -/
def State.imageHeaderOk (s : State) (b : Nat) : Bool :=
  let len := s.flashField (b + 0xC) 4
  s.flashField b 4 == 0x4D49584C && s.flashField (b + 4) 2 == 1 && s.flashField (b + 6) 2 == 0x100 &&
    s.flashField (b + 8) 4 == 0x460000A1 && len % 4096 == 0 && 0x100 + len ≤ 0x800000 && s.flashField (b + 0x78) 40 == 0 &&
    (List.range 4).all fun k => s.flashField (b + 0x28 + 8 * k) 8 % 4 == 0

/-- The first check of R598 that the image of a slot fails, `crypto` being what its cryptography gives. -/
def State.imageFails (s : State) (slot crypto : Nat) : Option Nat :=
  let b := imageBase slot
  if !s.imageHeaderOk b then some 1
  else if crypto = 2 then some 2
  else if crypto = 3 then some 3
  else if s.flashField (b + 0x18) 8 < s.rd (Fd.TRU_ARBV_VALUE 0) then some 4
  else if crypto = 5 then some 5
  else none

/-- The array offset of a patch slot (R287). -/
def patchBase (slot : Nat) : Nat := 0x800000 + 0x80000 * slot

/-- Check 1 of Table 08.9 but for ROMID, which the stage compares with the ROM. -/
def State.patchHeaderOk (s : State) (b : Nat) : Bool :=
  let words := s.flashField (b + 0x1E) 2
  s.flashField b 4 == 0x5550584C && s.flashField (b + 4) 2 == 1 && s.flashField (b + 6) 2 == 0x80 &&
    s.flashField (b + 8) 4 == 0x460000A1 && s.flashField (b + 0x1C) 2 ≤ 64 && words ≤ 2048 &&
    s.flashField (b + 0x20) 4 == 256 + 4 * words && s.flashField (b + 0x40) 64 == 0

/-- The first check of Table 08.9 that the package of a slot fails. -/
def State.patchFails (s : State) (slot crypto : Nat) : Option Nat :=
  let b := patchBase slot
  if !s.patchHeaderOk b ∨ crypto = 1 then some 1
  else if crypto = 2 then some 2
  else if s.flashField (b + 0x14) 8 < s.rd (Fd.TRU_ARBV_VALUE 1) then some 3
  else if crypto = 4 then some 4
  else if crypto = 5 then some 5
  else none

/-- Patch LEVEL of a slot. -/
def State.patchLevel (s : State) (slot : Nat) : Nat := s.flashField (patchBase slot + 0x10) 4

/-- The patch slots that hold a package, in the order of R288. -/
def State.patchOrder (s : State) : List Nat :=
  (if s.patchLevel 0 < s.patchLevel 1 then [1, 0] else [0, 1]).filter fun k => s.flashWord (patchBase k / 8) != erasedWord

/-- A used match entry of Table 08.7 with its words below WORDS, otherwise as a free value gives it. -/
def matchEntry (v words : Nat) : Nat :=
  let block := bit v 0 && decide (16 ≤ words)
  let rom := bits v 1 13 % 0x1800
  let ram := bits v 14 11 % max 1 words
  if block then rom / 16 * 16 + 2 ^ 13 + 2 ^ 16 * min (ram / 16 * 16) ((words - 16) / 16 * 16) + 2 ^ 31 else rom + 2 ^ 16 * ram + 2 ^ 31

/-- A package loaded into one engine: the plaintext that the vendor's cipher gives is not in the spec, and is free within Table 08.9 (R289). -/
def State.loadPatch (s : State) (v slot : Nat) (n : Fin 4) : State :=
  let b := patchBase slot
  let e := s.flashField (b + 0x1C) 2
  let w := s.flashField (b + 0x1E) 2
  let s1 := s.wrs [(Fd.RCH_UCODE_ENTRIES n, e), (Fd.RCH_UCODE_WORDS n, w), (Fd.RCH_UCODE_LOCK n, 1), (Fd.RCH_ULEVEL_LEVEL n, s.patchLevel slot)]
  let s2 := (List.range e).foldl (fun t i => t.wr (Fd.RCH_MATCH_ENTRY n i) (matchEntry (v / 2 ^ (32 * i)) w)) s1
  s2.updEng n fun r => { r with patch := (List.range w).map fun i => parityWord (v / 2 ^ (2048 + 32 * i)) }

/-- A package loaded into every engine, its ROLLBACK noted (R289, R596). -/
def State.loadPackage (s : State) (slot : Nat) : State :=
  ((four.foldl (fun t n => t.loadPatch s.freeVal slot n) s).truPut fun t => { t with ucRoll := s.flashField (patchBase slot + 0x14) 8 }).tookFree

/-- The record of a package that fails a check (R289). -/
def State.patchRejected (s : State) (slot check : Nat) : State := s.raise .trust 0x0C02 5 [slot, check]

/-- PATCH_LOAD: the first package that passes is loaded into every engine; each that fails is recorded, and so is that none passed (R289). -/
def State.patchLoad (s : State) (crypto : Nat → Nat) : List Nat → State
  | [] => s.raise .trust 0x0C03 4 []
  | k :: l =>
    (s.patchFails k (crypto k)).elim (s.loadPackage k) fun c => (s.patchRejected k c).patchLoad crypto l

/-- The value of an anti-rollback counter: that of its record of as many updates as fuses are blown; none where it is missing (R595). -/
def State.counterValue (s : State) (kind used : Nat) : Option Nat :=
  if used = 0 then some 0 else (s.trust.counters.find? fun c => c.kind == kind && c.update == used).map CounterRec.value

/-- Every range's key and GEN as its newest record gives them (R606). -/
def State.loadKeys (s : State) : State :=
  (List.range 65).foldl (fun t r => (t.wr (Fd.TRU_RANGE_GEN_GEN r) ((t.genOf r).getD 0)).fitKey r) s

/-- What follows an accepted image: the locks, the entry points, the patch package, the keys, the flow cores and P5 (R598, R612). -/
def State.bootImage (s : State) (slot : Nat) (crypto : Nat → Nat) : State :=
  let b := imageBase slot
  let s1 := (s.setBits Fd.CFL_LOCK_LOCK 35).wrs [(Fd.TRU_BOOTSEL_RUNNING, slot),
    (Fd.TRU_BOOTSEL_FALLBACK, b2n (slot != s.rd Fd.TRU_BOOTSEL_SLOT))]
  let s2 := (List.range 4).foldl
    (fun t k => t.wr (Fd.IRT_FBOOT_ENTRY k) ((0x400000000 + b + 0x100 + s.flashField (b + 0x28 + 8 * k) 8) / 4)) s1
  let s3 := ((s2.truPut fun t => { t with fwRoll := s.flashField (b + 0x18) 8 }).patchLoad crypto s2.patchOrder).loadKeys
  let s4 := (List.range 4).foldl (fun t k => t.boot k true) s3
  (s4.calPut fun u => { u with full := true }).wr Fd.HSK_START_PHASE 5

/-- The image slots tried in order (R598). -/
def State.tryImages (s : State) (imgs patches : Nat → Nat) : List Nat → State
  | [] => s.raise .trust 0x0C05 7 []
  | k :: l =>
    (s.imageFails k (imgs k)).elim (s.bootImage k patches) fun c => (s.raise .trust 0x0C01 5 [k, c]).tryImages imgs patches l

/-- The anti-rollback counters loaded; a missing record stops the stage (R595). -/
def State.loadCounters (s : State) : State × Bool :=
  let f := s.rd Fd.TRU_ARB_FWUSED
  let u := s.rd Fd.TRU_ARB_UCUSED
  match s.counterValue 0 f, s.counterValue 1 u with
  | some a, some b => ((s.wr (Fd.TRU_ARBV_VALUE 0) a).wr (Fd.TRU_ARBV_VALUE 1) b, true)
  | none, _ => ((s.wr Fd.TRU_STATUS_TAMPER 1).raise .trust 0x0C04 7 [0, f], false)
  | some _, none => ((s.wr Fd.TRU_STATUS_TAMPER 1).raise .trust 0x0C04 7 [1, u], false)

/-- BOOT_ROM_STAGE (R598): it ends in P4 without DRAM, a valid factory row or a counter's record (R405, R459, R595). -/
def execBootRomStage (imageA imageB patchA patchB : Fin 8) (rowOk : Bool) (s : State) : Host.Outcome State Fault Refusal :=
  if s.rd Fd.HSK_START_PHASE ≠ 4 ∨ !s.power.released then .next s
  else
    let s1 := ({ s with power := { s.power with released := false } }.wr (Fd.PORT_PCTL_EN 0) 1)
    let s2 := if s.on Fd.INT_CTL_X4 then s1 else s1.wr (Fd.PORT_PCTL_EN 1) 1
    if s.on Fd.MEM_STATUS_DFAIL then .next s2
    else if !rowOk then .next (s2.raise .flash 0x0B05 7 [])
    else
      let (s3, ok) := s2.loadCounters
      let k := s.rd Fd.TRU_BOOTSEL_SLOT
      .next (if ok then
        s3.tryImages (fun i => if i = 0 then imageA.val else imageB.val) (fun i => if i = 0 then patchA.val else patchB.val) [k, 1 - k]
      else s3)

/-! ### The declaration of power loss (R623 to R625) -/

/-- VMOT_ARMED: not while a declaration's sequence runs (R623). -/
def execVmotArmed (s : State) : Host.Outcome State Fault Refusal :=
  if s.power.p0 ∨ (s.on Fd.HSK_PLSTAT_DECL ∧ !s.on Fd.HSK_PLSTAT_PARKED) then .next s else .next (s.wr Fd.HSK_PLSTAT_ARMED 1)

/-- The write pair of an actuator idle: a sector cut inside its pad has its VOID, and none that was being written commits (R324, R624). -/
def State.cutWrite (s : State) (n : Fin 4) (pad : Bool) : State :=
  match (s.eng n).begun.find? fun b => !b.isRead && !b.written with
  | none => s.idlePair n
  | some b =>
    let s1 := (s.idlePair n).dropBegun n fun c => !c.isRead && !c.written
    if pad then (s1.updSector n b.tp fun x => { x with whole := true }).jIssues (s.voidOf n b) else s1

/-- A loaded actuator stops writing, its instructions end with code 0x10, and its heads move outward on back-EMF (Table 06.9). -/
def State.lossRetract (s : State) (pad : Nat) (n : Fin 4) : State :=
  let s1 := ((s.markOps n 0x10 four).cutWrite n (bit pad n.val)).endOps n 0x10 four
  if s.mode n = 0 ∨ s.mode n = 6 then s1
  else
    ((s1.wr (Fd.SRV_STATUS_MODE n) 6).wr (Fd.SRV_STATUS_HOP n) 0).updSv n fun v =>
      { v with load := .outward, emf := v.outwardEmf, phase := .none, goal := .none, target := none, hop := none, held := false, piezo := 0 }

/-- The spindle bridge off: the motor coasts and is never braked, and the token is released (R482, Table 15.6). -/
def State.lossSpindle (s : State) : State :=
  if 1 ≤ s.spn ∧ s.spn ≤ 8 then
    (((s.setSpn 8).wr Fd.SPN_STATUS_ATSPD 0).spnRelease).spinUpd fun x =>
      { x with after := (if x.after = .lockout then .lockout else .off), waitPark := false, catching := false, turning := false,
               zeroVec := false, iu := 0, iv := 0, iw := 0 }
  else s

/-- The sequence of Table 22.4 from the declaration on, recorded with the last VMOT result: a restart under way ends with it (R498, R625). -/
def State.declare (s : State) (cause ch pad : Nat) : State :=
  let mv := s.rd (Fd.HSK_CHAN_VALUE 10)
  let s1 := (s.wrs [(Fd.HSK_PLSTAT_DECL, 1), (Fd.HSK_PLSTAT_ARMED, 0), (Fd.HSK_PLSTAT_VOIDS, 0), (Fd.HSK_PLSTAT_PARKED, 0),
    (Fd.HSK_PLSTAT_VMOT_MIN, min mv (s.rd Fd.HSK_PLSTAT_VMOT_MIN))]).watchUpd fun w => { w with due := none }
  let s2 := ((s1.raise .hsk 0x0D01 5 ([cause] ++ leBytes 2 mv ++ [if cause = 2 then ch else 0])).cflCut 0).cflCut 1
  let s3 := four.foldl (fun t n => t.lossRetract pad n) s2
  s3.lossSpindle.settleVoids.settleParked

/-- Whether a declaration can be made: none is under way, or its actuators are all parked (R623, R630). -/
def State.mayDeclare (s : State) : Bool := !s.on Fd.HSK_PLSTAT_DECL || s.on Fd.HSK_PLSTAT_PARKED

/-- The power-loss threshold in mV: the highest VTH that the drive die holds (R243, R623, Table 06.14). -/
def State.lossLevel (s : State) : Nat := (four.map fun n => 50 * bits (s.sv n).dieRet 0 8).foldl max 0

/-- POWER_LOSS_DECLARE: by a VMOT below the threshold where declaration is armed, by SYS_RST_N while it is low after P1, by a rail once the controller is back in
P0 (R623). -/
def execPowerLossDeclare (cause : Fin 3) (mv : BitVec 16) (ch : Fin 24) (pad : BitVec 4) (s : State) : Host.Outcome State Fault Refusal :=
  let due := if cause = 0 then s.on Fd.HSK_PLSTAT_ARMED && mv.toNat < s.lossLevel else if cause = 1 then s.power.rstLow && !s.power.p0 && 2 ≤ s.rd Fd.HSK_START_PHASE
    else s.power.p0 && s.power.rails
  if due && s.mayDeclare then .next (s.declare cause.val ch.val pad.toNat) else .next s

/-- SYS_RST_LOW (R611): after P1 it declares power loss, with the last VMOT result; where within its pad a sector is cut is not known of it. -/
def execSysRstLow (s : State) : Host.Outcome State Fault Refusal :=
  let s1 := { s with power := { s.power with rstLow := true } }
  if !s.power.rstLow && !s.power.p0 && 2 ≤ s.rd Fd.HSK_START_PHASE && s.mayDeclare then
    .next (s1.tookFree.declare 1 0 (s.freeVal % 16))
  else .next s1

/-- Whether any actuator is loaded or the spindle bridge is on (R623). -/
def State.flying (s : State) : Bool := four.any (fun n => s.mode n != 0) || (2 ≤ s.spn && s.spn ≤ 7 && s.spn != 3)

/-- RAIL_OUT_OF_RANGE: back to P0, where only the drive die goes on; with an actuator loaded or the bridge on it declares power loss (R610, R623,
R630). -/
def execRailOutOfRange (ch : Fin 24) (s : State) : Host.Outcome State Fault Refusal :=
  if ch.val < 11 ∨ 17 < ch.val ∨ s.power.p0 then .next s
  else
    let s1 := { s with power := { s.power with p0 := true, rails := false, released := false } }
    let s2 := if s.flying && s.mayDeclare then s1.tookFree.declare 2 ch.val (s.freeVal % 16) else s1
    .next ((UnitRef.every.filter fun u => u.domain != .motion).foldl (fun t u => t.setUnit u 1) s2)

/-! ### The controller restart (R497, R626, R627) -/

/-- Every slot of an engine stopped and then killed (R262). -/
def State.killAll (s : State) (n : Fin 4) : State := four.foldl (fun t k => t.stopKill n k) s

/-- A controller under a restart: its commands are released, CSTS.CFS reads 1 and nothing is fetched (steps 1 and 2 of Table 16.4). -/
def State.restartCtrl (s : State) (i : Fin 2) : State :=
  let en := (s.ctrl i).en
  (s.ctrlReset i 1).ctrlUpd i fun c => { c with en := en, cfs := true }

/-- Commands forwarded to this member released with the others (step 2 of Table 16.4). -/
def State.releaseForwarded (s : State) : State :=
  ((s.host.ctxs.filter fun p => p.2.origin.isSome).foldl (fun t p => t.releaseCmd p.1) s).withdrawDue

/-- Steps 1 to 3 of Table 16.4, as far as they do not wait: slots that write finish what they have begun, and heads move to the ramp. -/
def State.restartSteps (s : State) : State :=
  let s1 := (((s.wr Fd.INT_CTL_EN 0).restartCtrl 0).restartCtrl 1).releaseForwarded
  (four.foldl (fun t n => t.killAll n) s1).retractAll 2 four

/-- Whether steps 2 and 3 of Table 16.4 are complete. -/
def State.restartReady (s : State) : Bool :=
  s.allParked && four.all fun n => four.all fun k => (s.pslot n k).st == .idle

/-- The patch RAM, the match table and the check registers of an engine cleared, as at every start that passes through P4 (R282, R283, R291). -/
def State.clearUcode (s : State) (n : Fin 4) : State :=
  let u := UnitRef.reach n
  let s := if s.on (Fd.RCH_MCSTRIKE_VALID n) then s.wr (Fd.SLOT_CTL_DEGRADE u.win u.slot) 0 else s
  let s1 := s.wrs [(Fd.RCH_UCODE_LOCK n, 0), (Fd.RCH_UCODE_ENTRIES n, 0), (Fd.RCH_UCODE_WORDS n, 0), (Fd.RCH_UCODE_DEGR n, 0),
    (Fd.RCH_ULEVEL_LEVEL n, 0), (Fd.RCH_MCINFO_UADDR n, 0), (Fd.RCH_MCINFO_CAUSE n, 0), (Fd.RCH_MCINFO_SLOT n, 0), (Fd.RCH_MCINFO_LO n, 0),
    (Fd.RCH_MCINFO_HI n, 0), (Fd.RCH_MCSTRIKE_UADDR n, 0), (Fd.RCH_MCSTRIKE_VALID n, 0)]
  let s2 := (List.range 64).foldl (fun t e => t.wr (Fd.RCH_MATCH_ENTRY n e) 0) s1
  (s2.updEng n fun r => { r with patch := [], strikes := [], strikeWin := 0, quiesce := false }).toWork u

/-- The accumulators of the vendor log pages at 0, as at every start that passes through P4 (R366). -/
def State.clearAccumulators (s : State) : State :=
  let s1 := (s.hskPut fun u => { u with tmax := [] }).calPut fun u => { u with abandoned := 0, skipped := 0 }
  let s2 := s1.hput fun h =>
    { h with
      psTime := []
      features := terase h.features 0x0E
      c0 := { h.c0 with features := terase h.c0.features 0x0E }
      c1 := { h.c1 with features := terase h.c1.features 0x0E } }
  { s2 with acc := [], cfx := { s2.cfx with peers := s2.cfx.peers.map fun p => (p.1, { p.2 with losses := 0, fwdTo := 0, fwdFrom := 0 }) } }

/-- Step 4 of Table 16.4: the start resumes at P4 with memory, journal and spindle kept; after a dip the runs it cut end (R497, R609, R627). -/
def State.resumeP4 (s : State) (cause : Nat) : State :=
  let s1 := ((s.raise .irt 0x0603 7 [cause]).recovery.watchUpd fun w => 
    { w with restarting := false, held := [], causes := [], motion := none, due := none }).wrs
    ([(Fd.IRT_WSTAT_CRESTART, 1), (Fd.HSK_PLSTAT_DECL, 0), (Fd.HSK_START_DIP, cause), (Fd.INT_NSREADY_READY, 0), (Fd.CFL_LOCK_LOCK, 0),
      (Fd.EVR_CTL_PHASE, 1)] ++ four.map (fun n => (phFld n, 0)) ++ (List.range 5).map fun d => (Fd.IRT_DSTAT_STATE d, 0))
  let s2 := (s1.runsEnd 0xFF s1.zone.runs).evrPut fun e => { e with phaseSet := false, calendar := none }
  let s3 := (four.foldl (fun t n => t.clearUcode n) s2).clearAccumulators
  (s3.startRecord 1 4).enterP4

/-- The restart under way goes on: to step 4 once it is ready, else it stays due. -/
def State.restartOn (s : State) (cause : Nat) : State :=
  let s1 := s.restartSteps
  if s1.restartReady then s1.resumeP4 cause else s1.watchUpd fun w => { w with due := some cause }

/-- CONTROLLER_RESTART: steps 1 to 4 of Table 16.4; it comes again while slots have still to stop or heads to park (R497). -/
def execControllerRestart (s : State) : Host.Outcome State Fault Refusal :=
  match s.watch.due with
  | none => .next s
  | some c => .next (s.restartOn c)

/-- DIP_RESTART: VMOT has stood for DIP_MS after every actuator is parked and no rail has left its range; a restart, or a hold with CSTS.CFS at 1
(R626). -/
def execDipRestart (s : State) : Host.Outcome State Fault Refusal :=
  if !s.on Fd.HSK_PLSTAT_DECL ∨ !s.on Fd.HSK_PLSTAT_PARKED ∨ s.power.p0 ∨ s.power.rstLow then .next s
  else
    let s1 := s.wr Fd.HSK_PLSTAT_ARMED 1
    if s.on Fd.HSK_PLCFG_DIPREC then .next (s1.restartOn 1)
    else
      .next { (s1.hput fun h => { h with c0 := { h.c0 with cfs := true, rdy := false }, c1 := { h.c1 with cfs := true, rdy := false } }) with
        power := { s.power with dipHold := true } }

end Sys2Proof.Machine
end

