-- ==== Sys2Proof/Machine/Dispatch.lean ====
section
/-! DEFINITION. The effect of each command: one arm per constructor of `Instr`, each a direct call of that command's meaning. -/

namespace Sys2Proof.Machine

def exec (i : Instr) (s : State) : Host.Outcome State Fault Refusal :=
  match i with
  | .registerWrite r w off size v => Sys2Proof.Machine.execRegisterWrite r w off size v s
  | .slotQuiesce r u v => Sys2Proof.Machine.execSlotQuiesce r u v s
  | .slotReset r u => Sys2Proof.Machine.execSlotReset r u s
  | .slotDegrade r u v => Sys2Proof.Machine.execSlotDegrade r u v s
  | .unitResetEnd u => Sys2Proof.Machine.execUnitResetEnd u s
  | .resetAccessTimeout u => Sys2Proof.Machine.execResetAccessTimeout u s
  | .crossingBufferFault x => Sys2Proof.Machine.execCrossingBufferFault x s
  | .indexField n dev => Sys2Proof.Machine.execIndexField n dev s
  | .indexFieldMissed n => Sys2Proof.Machine.execIndexFieldMissed n s
  | .bankWord n w mark gray chk dev => Sys2Proof.Machine.execBankWord n w mark gray chk dev s
  | .regionLoad n h => Sys2Proof.Machine.execRegionLoad n h s
  | .regionTableStore n dw v => Sys2Proof.Machine.execRegionTableStore n dw v s
  | .halt n k => Sys2Proof.Machine.execHalt n k s
  | .b n k cond off => Sys2Proof.Machine.execB n k cond off s
  | .br n k cond a => Sys2Proof.Machine.execBr n k cond a s
  | .call n k off => Sys2Proof.Machine.execCall n k off s
  | .ret n k => Sys2Proof.Machine.execRet n k s
  | .wait n k cond unit count => Sys2Proof.Machine.execWait n k cond unit count s
  | .waitTimeout n k => Sys2Proof.Machine.execWaitTimeout n k s
  | .trap n k code => Sys2Proof.Machine.execTrap n k code s
  | .add n k d a o => Sys2Proof.Machine.execAdd n k d a o s
  | .sub n k d a o => Sys2Proof.Machine.execSub n k d a o s
  | .and n k d a o => Sys2Proof.Machine.execAnd n k d a o s
  | .or n k d a o => Sys2Proof.Machine.execOr n k d a o s
  | .xor n k d a o => Sys2Proof.Machine.execXor n k d a o s
  | .shl n k d a o => Sys2Proof.Machine.execShl n k d a o s
  | .shr n k d a o => Sys2Proof.Machine.execShr n k d a o s
  | .cmp n k a o => Sys2Proof.Machine.execCmp n k a o s
  | .mov n k dst src => Sys2Proof.Machine.execMov n k dst src s
  | .ldi n k d im => Sys2Proof.Machine.execLdi n k d im s
  | .ldh n k d hw im => Sys2Proof.Machine.execLdh n k d hw im s
  | .ld n k d a off => Sys2Proof.Machine.execLd n k d a off s
  | .st n k r a off => Sys2Proof.Machine.execSt n k r a off s
  | .seek n k a => Sys2Proof.Machine.execSeek n k a s
  | .follow n k disp => Sys2Proof.Machine.execFollow n k disp s
  | .offset n k o => Sys2Proof.Machine.execOffset n k o s
  | .settle n k set timeout => Sys2Proof.Machine.execSettle n k set timeout s
  | .head n k o => Sys2Proof.Machine.execHead n k o s
  | .rds n k eqs wgt avg deep tpr nox cont => Sys2Proof.Machine.execRds n k eqs wgt avg deep tpr nox cont s
  | .wrs n k => Sys2Proof.Machine.execWrs n k s
  | .vfy n k cmpb wth => Sys2Proof.Machine.execVfy n k cmpb wth s
  | .skipto n k o => Sys2Proof.Machine.execSkipto n k o s
  | .scan n k a stop => Sys2Proof.Machine.execScan n k a stop s
  | .raw n k a ch => Sys2Proof.Machine.execRaw n k a ch s
  | .asp n k a => Sys2Proof.Machine.execAsp n k a s
  | .htr n k a => Sys2Proof.Machine.execHtr n k a s
  | .buf n k a clr => Sys2Proof.Machine.execBuf n k a clr s
  | .slu n k a ch => Sys2Proof.Machine.execSlu n k a ch s
  | .fence n k media data arm => Sys2Proof.Machine.execFence n k media data arm s
  | .post n k a => Sys2Proof.Machine.execPost n k a s
  | .sig n k tgt sg => Sys2Proof.Machine.execSig n k tgt sg s
  | .join n k mask unit count => Sys2Proof.Machine.execJoin n k mask unit count s
  | .ckpt n k => Sys2Proof.Machine.execCkpt n k s
  | .illegalInstruction n k word => Sys2Proof.Machine.execIllegalInstruction n k word s
  | .slotWake n k => Sys2Proof.Machine.execSlotWake n k s
  | .slotDisplaced n => Sys2Proof.Machine.execSlotDisplaced n s
  | .motionLimitExpiry n => Sys2Proof.Machine.execMotionLimitExpiry n s
  | .sectorStart n raw => Sys2Proof.Machine.execSectorStart n raw s
  | .readBehindDecided n o raw => Sys2Proof.Machine.execReadBehindDecided n o raw s
  | .slotStart n k => Sys2Proof.Machine.execSlotStart n k s
  | .slotResume n k => Sys2Proof.Machine.execSlotResume n k s
  | .slotStop n k => Sys2Proof.Machine.execSlotStop n k s
  | .slotRestart n k => Sys2Proof.Machine.execSlotRestart n k s
  | .slotKill n k => Sys2Proof.Machine.execSlotKill n k s
  | .slotRestartDone n k => Sys2Proof.Machine.execSlotRestartDone n k s
  | .slotAppend n k entry => Sys2Proof.Machine.execSlotAppend n k entry s
  | .rchEnable n v => Sys2Proof.Machine.execRchEnable n v s
  | .signalsSet n mask => Sys2Proof.Machine.execSignalsSet n mask s
  | .machineCheck n uaddr err ack => Sys2Proof.Machine.execMachineCheck n uaddr err ack s
  | .sliceWindowEnd n rb slice ofs gain => Sys2Proof.Machine.execSliceWindowEnd n rb slice ofs gain s
  | .blkLock n => Sys2Proof.Machine.execBlkLock n s
  | .blkLoss n c => Sys2Proof.Machine.execBlkLoss n c s
  | .hopHoldExpiry n => Sys2Proof.Machine.execHopHoldExpiry n s
  | .taDetect n rb codes first => Sys2Proof.Machine.execTaDetect n rb codes first s
  | .decodeAttemptDone n pair scores o raw => Sys2Proof.Machine.execDecodeAttemptDone n pair scores o raw s
  | .inlineDeadline n scores => Sys2Proof.Machine.execInlineDeadline n scores s
  | .unsampledSector n avg => Sys2Proof.Machine.execUnsampledSector n avg s
  | .blkNotRegained n => Sys2Proof.Machine.execBlkNotRegained n s
  | .averagingPass n scores o raw => Sys2Proof.Machine.execAveragingPass n scores o raw s
  | .deepRequestTake => Sys2Proof.Machine.execDeepRequestTake s
  | .deepDecodeDone o => Sys2Proof.Machine.execDeepDecodeDone o s
  | .trackParityReconstruct n crcOk => Sys2Proof.Machine.execTrackParityReconstruct n crcOk s
  | .wmodeArm n late fails => Sys2Proof.Machine.execWmodeArm n late fails s
  | .runEndIdle n => Sys2Proof.Machine.execRunEndIdle n s
  | .assistTailEnd n => Sys2Proof.Machine.execAssistTailEnd n s
  | .aloopWindowEnd n => Sys2Proof.Machine.execAloopWindowEnd n s
  | .touchdownSample n ecs => Sys2Proof.Machine.execTouchdownSample n ecs s
  | .armPeriod n => Sys2Proof.Machine.execArmPeriod n s
  | .armTd n err => Sys2Proof.Machine.execArmTd n err s
  | .armRd n err => Sys2Proof.Machine.execArmRd n err s
  | .armWr n err => Sys2Proof.Machine.execArmWr n err s
  | .armResponse n f => Sys2Proof.Machine.execArmResponse n f s
  | .preampTdTimeout n => Sys2Proof.Machine.execPreampTdTimeout n s
  | .preampAttention n faults => Sys2Proof.Machine.execPreampAttention n faults s
  | .armReqGo n => Sys2Proof.Machine.execArmReqGo n s
  | .armLinkReset n => Sys2Proof.Machine.execArmLinkReset n s
  | .pesSample n pes amp => Sys2Proof.Machine.execPesSample n pes amp s
  | .servoPeriod n f => Sys2Proof.Machine.execServoPeriod n f s
  | .hopComplete n pes amp => Sys2Proof.Machine.execHopComplete n pes amp s
  | .bankCrossing n => Sys2Proof.Machine.execBankCrossing n s
  | .seekTravelEnd n => Sys2Proof.Machine.execSeekTravelEnd n s
  | .seekCaptureTimeout n => Sys2Proof.Machine.execSeekCaptureTimeout n s
  | .primaryResume n => Sys2Proof.Machine.execPrimaryResume n s
  | .stbyRst p => Sys2Proof.Machine.execStbyRst p s
  | .cswap n => Sys2Proof.Machine.execCswap n s
  | .ffSwap n => Sys2Proof.Machine.execFfSwap n s
  | .shockInput im level samples => Sys2Proof.Machine.execShockInput im level samples s
  | .shockHoldEnd n => Sys2Proof.Machine.execShockHoldEnd n s
  | .load n => Sys2Proof.Machine.execLoad n s
  | .loadTimeout n => Sys2Proof.Machine.execLoadTimeout n s
  | .unload n => Sys2Proof.Machine.execUnload n s
  | .eret n => Sys2Proof.Machine.execEret n s
  | .rampDetect n => Sys2Proof.Machine.execRampDetect n s
  | .parkComplete n => Sys2Proof.Machine.execParkComplete n s
  | .zoneLoad n => Sys2Proof.Machine.execZoneLoad n s
  | .zoneRecovWrite n v => Sys2Proof.Machine.execZoneRecovWrite n v s
  | .zoneQuery n z => Sys2Proof.Machine.execZoneQuery n z s
  | .zflagClrvfy n z => Sys2Proof.Machine.execZflagClrvfy n z s
  | .zflagSetrzr n z => Sys2Proof.Machine.execZflagSetrzr n z s
  | .journalEnable v => Sys2Proof.Machine.execJournalEnable v s
  | .journalRecordIssue r => Sys2Proof.Machine.execJournalRecordIssue r s
  | .journalRecordDurable => Sys2Proof.Machine.execJournalRecordDurable s
  | .journalFold => Sys2Proof.Machine.execJournalFold s
  | .zoneAppendPlace c => Sys2Proof.Machine.execZoneAppendPlace c s
  | .placementWithdraw z => Sys2Proof.Machine.execPlacementWithdraw z s
  | .zoneActionEffect c => Sys2Proof.Machine.execZoneActionEffect c s
  | .sqDoorbell ctl sq tail => Sys2Proof.Machine.execSqDoorbell ctl sq tail s
  | .sqFetch ctl sq e => Sys2Proof.Machine.execSqFetch ctl sq e s
  | .contextAdmit c => Sys2Proof.Machine.execContextAdmit c s
  | .contextBind c n => Sys2Proof.Machine.execContextBind c n s
  | .classLimitExpiry c => Sys2Proof.Machine.execClassLimitExpiry c s
  | .completionPost c => Sys2Proof.Machine.execCompletionPost c s
  | .nsreadyWrite v => Sys2Proof.Machine.execNsreadyWrite v s
  | .intakeEnable v => Sys2Proof.Machine.execIntakeEnable v s
  | .read c => Sys2Proof.Machine.execRead c s
  | .write c pi => Sys2Proof.Machine.execWrite c pi s
  | .writeZeroes c => Sys2Proof.Machine.execWriteZeroes c s
  | .verify c => Sys2Proof.Machine.execVerify c s
  | .flush c => Sys2Proof.Machine.execFlush c s
  | .zoneAppend c pi => Sys2Proof.Machine.execZoneAppend c pi s
  | .zoneOpen c => Sys2Proof.Machine.execZoneOpen c s
  | .zoneClose c => Sys2Proof.Machine.execZoneClose c s
  | .zoneFinish c => Sys2Proof.Machine.execZoneFinish c s
  | .zoneReset c => Sys2Proof.Machine.execZoneReset c s
  | .zoneOffline c => Sys2Proof.Machine.execZoneOffline c s
  | .reportZones c => Sys2Proof.Machine.execReportZones c s
  | .orderingFence c => Sys2Proof.Machine.execOrderingFence c s
  | .createIoSq c => Sys2Proof.Machine.execCreateIoSq c s
  | .createIoCq c => Sys2Proof.Machine.execCreateIoCq c s
  | .deleteIoSq c => Sys2Proof.Machine.execDeleteIoSq c s
  | .deleteIoCq c => Sys2Proof.Machine.execDeleteIoCq c s
  | .getLogPage c => Sys2Proof.Machine.execGetLogPage c s
  | .identify c => Sys2Proof.Machine.execIdentify c s
  | .abort c => Sys2Proof.Machine.execAbort c s
  | .setFeatures c => Sys2Proof.Machine.execSetFeatures c s
  | .getFeatures c => Sys2Proof.Machine.execGetFeatures c s
  | .asyncEventRequest c => Sys2Proof.Machine.execAsyncEventRequest c s
  | .firmwareImageDownload c data => Sys2Proof.Machine.execFirmwareImageDownload c data s
  | .firmwareCommit c valid => Sys2Proof.Machine.execFirmwareCommit c valid s
  | .firmwareActivate c => Sys2Proof.Machine.execFirmwareActivate c s
  | .activationEnd => Sys2Proof.Machine.execActivationEnd s
  | .formatNvm c => Sys2Proof.Machine.execFormatNvm c s
  | .sanitize c => Sys2Proof.Machine.execSanitize c s
  | .securitySend c data o => Sys2Proof.Machine.execSecuritySend c data o s
  | .securityReceive c => Sys2Proof.Machine.execSecurityReceive c s
  | .ccEnSet ctl => Sys2Proof.Machine.execCcEnSet ctl s
  | .controllerReset ctl both => Sys2Proof.Machine.execControllerReset ctl both s
  | .shutdownNormal ctl => Sys2Proof.Machine.execShutdownNormal ctl s
  | .shutdownAbrupt ctl => Sys2Proof.Machine.execShutdownAbrupt ctl s
  | .portLinkDown p => Sys2Proof.Machine.execPortLinkDown p s
  | .portLinkUp p speed width => Sys2Proof.Machine.execPortLinkUp p speed width s
  | .linkHoldExpiry p => Sys2Proof.Machine.execLinkHoldExpiry p s
  | .perstAssert p => Sys2Proof.Machine.execPerstAssert p s
  | .apstTransition ctl ps => Sys2Proof.Machine.execApstTransition ctl ps s
  | .stageRequest r a len st be => Sys2Proof.Machine.execStageRequest r a len st be s
  | .stageFillDone a => Sys2Proof.Machine.execStageFillDone a s
  | .writebackIssue bad => Sys2Proof.Machine.execWritebackIssue bad s
  | .stageDisable => Sys2Proof.Machine.execStageDisable s
  | .stageDrained => Sys2Proof.Machine.execStageDrained s
  | .stageEnable => Sys2Proof.Machine.execStageEnable s
  | .memWrite w v be => Sys2Proof.Machine.execMemWrite w v be s
  | .memRead r a len flip => Sys2Proof.Machine.execMemRead r a len flip s
  | .bucketLeak m => Sys2Proof.Machine.execBucketLeak m s
  | .scrubStep dram flip => Sys2Proof.Machine.execScrubStep dram flip s
  | .memoryFill failed => Sys2Proof.Machine.execMemoryFill failed s
  | .memInjArm r v => Sys2Proof.Machine.execMemInjArm r v s
  | .weirPacket hop send r cls write => Sys2Proof.Machine.execWeirPacket hop send r cls write s
  | .weirStall r cls => Sys2Proof.Machine.execWeirStall r cls s
  | .weirSync r k mask => Sys2Proof.Machine.execWeirSync r k mask s
  | .weirSyncDone k => Sys2Proof.Machine.execWeirSyncDone k s
  | .sluiceGo c => Sys2Proof.Machine.execSluiceGo c s
  | .sluiceStop c => Sys2Proof.Machine.execSluiceStop c s
  | .sluiceResume c => Sys2Proof.Machine.execSluiceResume c s
  | .sluiceDescFetch c => Sys2Proof.Machine.execSluiceDescFetch c s
  | .sluiceAccess c => Sys2Proof.Machine.execSluiceAccess c s
  | .sluiceDescDone c => Sys2Proof.Machine.execSluiceDescDone c s
  | .sluiceSectorXfer n write => Sys2Proof.Machine.execSluiceSectorXfer n write s
  | .bkwPush q w => Sys2Proof.Machine.execBkwPush q w s
  | .bkwPushl q w => Sys2Proof.Machine.execBkwPushl q w s
  | .bkwPop q bad => Sys2Proof.Machine.execBkwPop q bad s
  | .bkwFlush q => Sys2Proof.Machine.execBkwFlush q s
  | .bkwSpill q bad => Sys2Proof.Machine.execBkwSpill q bad s
  | .bkwRefill q => Sys2Proof.Machine.execBkwRefill q s
  | .cflRead w fetch err => Sys2Proof.Machine.execCflRead w fetch err s
  | .cflProgram b => Sys2Proof.Machine.execCflProgram b s
  | .cflErase b => Sys2Proof.Machine.execCflErase b s
  | .cflOpDone b pulses bad => Sys2Proof.Machine.execCflOpDone b pulses bad s
  | .cflRetireCopy b => Sys2Proof.Machine.execCflRetireCopy b s
  | .cflSuspend b => Sys2Proof.Machine.execCflSuspend b s
  | .cflResume b => Sys2Proof.Machine.execCflResume b s
  | .cflLockWrite v => Sys2Proof.Machine.execCflLockWrite v s
  | .spinDmdPeriod period high => Sys2Proof.Machine.execSpinDmdPeriod period high s
  | .spinDmdTimeout level => Sys2Proof.Machine.execSpinDmdTimeout level s
  | .curveApply => Sys2Proof.Machine.execCurveApply s
  | .targetChange => Sys2Proof.Machine.execTargetChange s
  | .heldTargetRelease => Sys2Proof.Machine.execHeldTargetRelease s
  | .atspdRise => Sys2Proof.Machine.execAtspdRise s
  | .atspdLoss => Sys2Proof.Machine.execAtspdLoss s
  | .spinStart => Sys2Proof.Machine.execSpinStart s
  | .listenEnd m => Sys2Proof.Machine.execListenEnd m s
  | .catchMotor => Sys2Proof.Machine.execCatchMotor s
  | .warmupEnd => Sys2Proof.Machine.execWarmupEnd s
  | .tokenGrant => Sys2Proof.Machine.execTokenGrant s
  | .alignEnd => Sys2Proof.Machine.execAlignEnd s
  | .observerHandover ok => Sys2Proof.Machine.execObserverHandover ok s
  | .spinupTimeout => Sys2Proof.Machine.execSpinupTimeout s
  | .lossOfSync test => Sys2Proof.Machine.execLossOfSync test s
  | .brakeRest => Sys2Proof.Machine.execBrakeRest s
  | .brakeTimeout => Sys2Proof.Machine.execBrakeTimeout s
  | .vmotThreshold mv => Sys2Proof.Machine.execVmotThreshold mv s
  | .ovpRelease => Sys2Proof.Machine.execOvpRelease s
  | .pwmPeriod u v w angle rpm10 => Sys2Proof.Machine.execPwmPeriod u v w angle rpm10 s
  | .spnClear => Sys2Proof.Machine.execSpnClear s
  | .spindleResetTakeover inTime => Sys2Proof.Machine.execSpindleResetTakeover inTime s
  | .elementExpiry u element => Sys2Proof.Machine.execElementExpiry u element s
  | .unitExpiry u cause => Sys2Proof.Machine.execUnitExpiry u cause s
  | .domainExpiry d => Sys2Proof.Machine.execDomainExpiry d s
  | .watchdogExpiry => Sys2Proof.Machine.execWatchdogExpiry s
  | .lockstepMismatch => Sys2Proof.Machine.execLockstepMismatch s
  | .domainRestartEnd d => Sys2Proof.Machine.execDomainRestartEnd d s
  | .watchRestartEnd => Sys2Proof.Machine.execWatchRestartEnd s
  | .wdogKick r => Sys2Proof.Machine.execWdogKick r s
  | .domainRestartReq r d => Sys2Proof.Machine.execDomainRestartReq r d s
  | .controllerRestart => Sys2Proof.Machine.execControllerRestart s
  | .expiryWindow => Sys2Proof.Machine.execExpiryWindow s
  | .calGo => Sys2Proof.Machine.execCalGo s
  | .calPassStart => Sys2Proof.Machine.execCalPassStart s
  | .calItemDone coeffs bad refv refr refclk => Sys2Proof.Machine.execCalItemDone coeffs bad refv refr refclk s
  | .calSwap item n => Sys2Proof.Machine.execCalSwap item n s
  | .calPassEnd => Sys2Proof.Machine.execCalPassEnd s
  | .calClaim n => Sys2Proof.Machine.execCalClaim n s
  | .hskRound => Sys2Proof.Machine.execHskRound s
  | .hskRoundPublish results thermBad => Sys2Proof.Machine.execHskRoundPublish results thermBad s
  | .sensclr mask => Sys2Proof.Machine.execSensclr mask s
  | .refclkLoss => Sys2Proof.Machine.execRefclkLoss s
  | .refclkReturn => Sys2Proof.Machine.execRefclkReturn s
  | .evrRecord => Sys2Proof.Machine.execEvrRecord s
  | .evrRaise r k v => Sys2Proof.Machine.execEvrRaise r k v s
  | .evf r k => Sys2Proof.Machine.execEvf r k s
  | .evfDone k => Sys2Proof.Machine.execEvfDone k s
  | .rateWindowClose => Sys2Proof.Machine.execRateWindowClose s
  | .evrFlashAppend refused => Sys2Proof.Machine.execEvrFlashAppend refused s
  | .evrRebuild => Sys2Proof.Machine.execEvrRebuild s
  | .evrClear => Sys2Proof.Machine.execEvrClear s
  | .evrAuthTimeout => Sys2Proof.Machine.execEvrAuthTimeout s
  | .cfxLinkTrain port gid size pos => Sys2Proof.Machine.execCfxLinkTrain port gid size pos s
  | .hbSend => Sys2Proof.Machine.execHbSend s
  | .hb p version role phase nsready reached => Sys2Proof.Machine.execHb p version role phase nsready reached s
  | .peerLost p => Sys2Proof.Machine.execPeerLost p s
  | .peerHeardAgain p => Sys2Proof.Machine.execPeerHeardAgain p s
  | .fwd p tag buf cls e => Sys2Proof.Machine.execFwd p tag buf cls e s
  | .wdata p c off data => Sys2Proof.Machine.execWdata p c off data s
  | .rdata p c off data => Sys2Proof.Machine.execRdata p c off data s
  | .cpl p c dw0 dw1 status => Sys2Proof.Machine.execCpl p c dw0 dw1 status s
  | .cfxAbortMsg p tag release => Sys2Proof.Machine.execCfxAbortMsg p tag release s
  | .ares p c notAborted => Sys2Proof.Machine.execAres p c notAborted s
  | .adm p version image => Sys2Proof.Machine.execAdm p version image s
  | .aack p version => Sys2Proof.Machine.execAack p version s
  | .cfxFenceMsg p num => Sys2Proof.Machine.execCfxFenceMsg p num s
  | .fack p num => Sys2Proof.Machine.execFack p num s
  | .treq p => Sys2Proof.Machine.execTreq p s
  | .tgnt => Sys2Proof.Machine.execTgnt s
  | .trel p => Sys2Proof.Machine.execTrel p s
  | .soloToken => Sys2Proof.Machine.execSoloToken s
  | .cfxFenceGo mask => Sys2Proof.Machine.execCfxFenceGo mask s
  | .badMessageType p type => Sys2Proof.Machine.execBadMessageType p type s
  | .claimRead r t => Sys2Proof.Machine.execClaimRead r t s
  | .claimComplete r t v => Sys2Proof.Machine.execClaimComplete r t v s
  | .irqRaise t => Sys2Proof.Machine.execIrqRaise t s
  | .timerInterrupt k => Sys2Proof.Machine.execTimerInterrupt k s
  | .msipWrite r k v => Sys2Proof.Machine.execMsipWrite r k v s
  | .fbootRun r k v => Sys2Proof.Machine.execFbootRun r k v s
  | .accessFault k kind a => Sys2Proof.Machine.execAccessFault k kind a s
  | .vloopEnable mode => Sys2Proof.Machine.execVloopEnable mode s
  | .voltageUpdate high half ack mode => Sys2Proof.Machine.execVoltageUpdate high half ack mode s
  | .irootCommit r => Sys2Proof.Machine.execIrootCommit r s
  | .arbAdvanceFw r => Sys2Proof.Machine.execArbAdvanceFw r s
  | .arbAdvanceUc r => Sys2Proof.Machine.execArbAdvanceUc r s
  | .genkey im => Sys2Proof.Machine.execGenkey im s
  | .rangeLockWrite im rlck wlck => Sys2Proof.Machine.execRangeLockWrite im rlck wlck s
  | .rangeGeometryWrite im defined ns start len => Sys2Proof.Machine.execRangeGeometryWrite im defined ns start len s
  | .authreq kind ok => Sys2Proof.Machine.execAuthreq kind ok s
  | .nonceRead => Sys2Proof.Machine.execNonceRead s
  | .nonceExpiry => Sys2Proof.Machine.execNonceExpiry s
  | .bootRomStage imageA imageB patchA patchB rowOk => Sys2Proof.Machine.execBootRomStage imageA imageB patchA patchB rowOk s
  | .powerOn => Sys2Proof.Machine.execPowerOn s
  | .railOutOfRange ch => Sys2Proof.Machine.execRailOutOfRange ch s
  | .sysRstLow => Sys2Proof.Machine.execSysRstLow s
  | .sysRstRelease => Sys2Proof.Machine.execSysRstRelease s
  | .p1Sample x4 dramsz isen gid size pos mouth => Sys2Proof.Machine.execP1Sample x4 dramsz isen gid size pos mouth s
  | .p2Lock => Sys2Proof.Machine.execP2Lock s
  | .vmotArmed => Sys2Proof.Machine.execVmotArmed s
  | .powerLossDeclare cause mv ch pad => Sys2Proof.Machine.execPowerLossDeclare cause mv ch pad s
  | .dipRestart => Sys2Proof.Machine.execDipRestart s
  | .perstRelease p => Sys2Proof.Machine.execPerstRelease p s
  | .cfxLinkDown port => Sys2Proof.Machine.execCfxLinkDown port s
  | .shockInputRelease im level => Sys2Proof.Machine.execShockInputRelease im level s
  | .settleTimeout n => Sys2Proof.Machine.execSettleTimeout n s
  | .hopHoldRelease n => Sys2Proof.Machine.execHopHoldRelease n s
  | .calClaimEnd n => Sys2Proof.Machine.execCalClaimEnd n s
  | .registerReadClear r w off size => Sys2Proof.Machine.execRegisterReadClear r w off size s

end Sys2Proof.Machine
end

