-- ==== Sys2Proof/Machine/Step.lean ====
section
/-! DEFINITION. The step of the block: the command at the front of the queue takes its effect; with nothing waiting, device time passes. -/

namespace Sys2Proof.Machine

/-- Device time moves on by 1 µs, modulo 2^48 (R14), in the power state in force, and a shutdown under way goes on (R357). -/
def State.tick (s : State) : State :=
  let t := { s with
    time := (s.time + 1) % 2 ^ 48
    host := { s.host with psTime := tset 0 s.host.psTime s.host.psNow (tget 0 s.host.psTime s.host.psNow + 1) } }
  (t.settleShutdown 0).settleShutdown 1

/-- One step: the front command on the state with the queue's rest, or a tick of device time. -/
def step (s : State) : Host.Outcome State Fault Refusal :=
  match s.pending with
  | [] => .next s.tick
  | c :: l => exec c { s with pending := l }

/-- The state with the command that a word spells at the front of its queue; no row of the table has a word. -/
def State.withFetchWord (s : State) (nbits w : Nat) : State :=
  match decodeTableWord nbits w with
  | some c => { s with pending := c :: s.pending }
  | none => s

end Sys2Proof.Machine
end

