-- ==== Sys2Proof/WellFormed.lean ====
section
/-! DEFINITION. The well-formed commands: lists as long as what they stand for (a submission entry, the scores of a sync window, the results of a
round), widths and lengths that an operand declares beside its data, and codes that a table lists. -/

namespace Sys2Proof

/-- A log record's body with every field within its width (Tables 09.7, 09.8). -/
def JBody.wf (b : JBody) : Bool := 1 ≤ b.type && b.type ≤ 8 && b.sub < 256 && b.zone < 2 ^ 20 && b.a < 2 ^ 32 && b.b < 2 ^ 32

/-- A submission entry of 64 bytes (R340). -/
def Sqe.wf (e : Sqe) : Bool := e.length == 16

/-- An access of register space is 4 or 8 bytes wide and naturally aligned (R581). -/
def accessWf (off : Fin 65536) (size : Fin 9) : Bool := (size.val == 4 || size.val == 8) && off.val % size.val == 0

/-- Whether a command is well formed. -/
def Instr.wf : Instr → Bool
  | .registerWrite _ _ off size v => accessWf off size && v.toNat < 2 ^ (8 * size.val)
  | .registerReadClear _ _ off size => accessWf off size
  | .decodeAttemptDone _ _ scores _ _ => scores.length == 25
  | .inlineDeadline _ scores => scores.length == 25
  | .averagingPass _ scores _ _ => scores.length == 25
  | .journalRecordIssue r => r.wf
  | .sqFetch _ _ e => e.wf
  | .fwd _ _ _ _ e => e.wf
  | .firmwareImageDownload _ data => data.length % 4 == 0
  | .stageRequest _ _ len data _ => 0 < len.val && len.val ≤ 256 && data.all fun l => l.length == len.val
  | .memRead _ _ len _ => 0 < len.val && len.val ≤ 256
  | .portLinkUp _ speed width => 1 ≤ speed.val && speed.val ≤ 5 && [1, 2, 4].contains width.val
  | .hskRoundPublish results _ => results.length == 24
  | _ => true

end Sys2Proof
end

