-- ==== Sys2Proof/Safety.lean ====
section
/-! DEFINITION. What the claims call a sound state and a safe run: tables in canonical form, device time within its width, well-formed commands
waiting, and steps that neither fault nor refuse. -/

namespace Sys2Proof.Machine

/-- Memory in canonical form: addresses strictly rising, and no byte listed that an unlisted address reads as. -/
def Memory.wf (m : List Host.Cell) : Bool := twf (0 : Byte) m

/-- Code flash in canonical form: an unlisted byte reads as erased (R442). -/
def Flash.wf (m : List Host.Cell) : Bool := twf (0xFF : Byte) m

/-- Device time is a 48-bit count of µs (R14). -/
def State.timeOk (s : State) : Bool := s.time < 2 ^ 48

/-- The register file and the counters' accumulators in canonical form: a field at its reset value is not listed, so that equal files are
equal data. -/
def State.regsOk (s : State) : Bool := twf 0 s.regs && twf 0 s.acc

/-- A sound state. -/
def State.sound (s : State) : Bool := Memory.wf s.mem && Flash.wf s.flash && s.regsOk && s.timeOk

/-- Whether every waiting command is well formed. -/
def State.queueWf (s : State) : Bool := s.pending.all Instr.wf

/-- Slot `k` of engine `n`, which takes up slots, has the engine between two instructions, with PC in the program area; no slot of the engine is inside an
instruction, and no kill waits. -/
def State.sole (s : State) (n k : Fin 4) : Prop :=
  (s.runner n = some k ∧ s.engRuns n = true) ∧ 0x14000 ≤ (s.pslot n k).arch.pc ∧ ∀ j, (s.pslot n j).op = none ∧ (s.pslot n j).killReq = false

/-- Slot `k` between two instructions with its architectural state `a`, and all else as in `s`. -/
def State.slotAt (s : State) (n k : Fin 4) (a : Arch) : State :=
  s.updSlot n k fun x => { x with st := s.between n k, stopReq := false, arch := a }

/-- Slot state with PC at the next instruction. -/
def Arch.onward (a : Arch) : Arch := { a with pc := (a.pc + 4) % 2 ^ 21 }

/-- The context `c` of an I/O command of an opcode, admitted and not yet carried out, whose namespace is this mouth's own and whose host is too. -/
def State.ioWaits (s : State) (c op : Nat) (x : Ctx) : Prop :=
  s.ctx? c = some x ∧ x.st = .admitted ∧ x.handed = false ∧ x.run = false ∧ x.admin = false ∧ x.opcode = op ∧ s.isPart c = false ∧ x.ending = none ∧
    x.fwdTo = none ∧ x.origin = none

/-- The context `c` of an admin command of an opcode, admitted and not yet carried out, that this mouth serves for its own host. -/
def State.admWaits (s : State) (c op : Nat) (x : Ctx) : Prop :=
  s.ctx? c = some x ∧ x.st = .admitted ∧ x.handed = false ∧ x.run = false ∧ x.admin = true ∧ x.opcode = op ∧ x.ending = none ∧ x.fwdTo = none ∧
    x.origin = none

/-- A step that answers a next state. -/
def State.steps (s t : State) : Prop := step s = .next t

/-- A run of `k` steps that neither faults nor is refused, with its end. -/
def State.safeRun : Nat → State → State → Prop
  | 0, s, t => s = t
  | k + 1, s, t => ∃ u, s.steps u ∧ State.safeRun k u t

end Sys2Proof.Machine
end

