-- ==== Sys2Proof/Frames.lean ====
section
/-! DEFINITION. The parts of the state, when a part is unchanged, and the parts a command may change. -/

namespace Sys2Proof.Machine

/-- A part of the state beside the queue: one field of it. -/
inductive Part where
  | time | answer | free | regs | acc | mem | reach | chan | preamp | deep
  | servo | medium | zone | host | stage | memc | evr | weir | sluice | bkw
  | flash | cfl | spin | watch | cal | hsk | cfx | cores | trust | power
deriving DecidableEq, Repr

/-- A part of the state is the same in two states. -/
def State.sameAt (s t : State) : Part → Prop
  | .time => t.time = s.time
  | .answer => t.answer = s.answer
  | .free => t.free = s.free
  | .regs => t.regs = s.regs
  | .acc => t.acc = s.acc
  | .mem => t.mem = s.mem
  | .reach => t.reach = s.reach
  | .chan => t.chan = s.chan
  | .preamp => t.preamp = s.preamp
  | .deep => t.deep = s.deep
  | .servo => t.servo = s.servo
  | .medium => t.medium = s.medium
  | .zone => t.zone = s.zone
  | .host => t.host = s.host
  | .stage => t.stage = s.stage
  | .memc => t.memc = s.memc
  | .evr => t.evr = s.evr
  | .weir => t.weir = s.weir
  | .sluice => t.sluice = s.sluice
  | .bkw => t.bkw = s.bkw
  | .flash => t.flash = s.flash
  | .cfl => t.cfl = s.cfl
  | .spin => t.spin = s.spin
  | .watch => t.watch = s.watch
  | .cal => t.cal = s.cal
  | .hsk => t.hsk = s.hsk
  | .cfx => t.cfx = s.cfx
  | .cores => t.cores = s.cores
  | .trust => t.trust = s.trust
  | .power => t.power = s.power

/-- Only the parts listed may differ between two states. -/
def State.onlyAt (s t : State) (l : List Part) : Prop := ∀ p, p ∉ l → s.sameAt t p

/-- The parts of the state that a command may change; its queue it never changes. -/
def touched : Instr → List Part
  | .bkwPush .. | .bkwFlush .. =>
    [.bkw]
  | .calSwap .. | .calClaim .. | .calClaimEnd .. =>
    [.cal]
  | .assistTailEnd .. =>
    [.chan]
  | .irqRaise .. | .timerInterrupt .. | .accessFault .. =>
    [.cores]
  | .sqDoorbell .. | .ccEnSet .. | .shutdownNormal .. =>
    [.host]
  | .hskRound .. | .refclkReturn .. =>
    [.hsk]
  | .perstRelease .. =>
    [.power]
  | .preampTdTimeout .. | .armLinkReset .. =>
    [.preamp]
  | .signalsSet .. | .deepRequestTake .. | .zoneRecovWrite .. | .zoneQuery .. | .memInjArm .. | .sluiceStop .. | .sluiceResume .. | .cflResume ..
  | .cflLockWrite .. | .spinDmdTimeout .. | .atspdLoss .. | .alignEnd .. | .calGo .. | .sensclr .. | .evrAuthTimeout .. | .vmotArmed ..
  | .cfxLinkDown .. =>
    [.regs]
  | .cswap .. | .ffSwap .. | .rampDetect .. | .shockInputRelease .. | .hopHoldRelease .. =>
    [.servo]
  | .nonceExpiry .. =>
    [.trust]
  | .wdogKick .. =>
    [.watch]
  | .armWr .. =>
    [.answer, .preamp]
  | .armPeriod .. =>
    [.chan, .preamp]
  | .contextBind .. | .flush .. | .zoneClose .. | .zoneFinish .. | .zoneReset .. | .zoneOffline .. | .orderingFence .. | .createIoSq ..
  | .createIoCq .. | .deleteIoCq .. | .asyncEventRequest .. | .firmwareImageDownload .. =>
    [.mem, .host]
  | .cflSuspend .. | .badMessageType .. =>
    [.regs, .acc]
  | .calPassEnd .. =>
    [.regs, .cal]
  | .cflProgram .. | .cflErase .. | .cflRetireCopy .. =>
    [.regs, .cfl]
  | .atspdRise .. | .tgnt .. | .soloToken .. | .cfxFenceGo .. =>
    [.regs, .cfx]
  | .armReqGo .. =>
    [.regs, .chan]
  | .claimComplete .. | .msipWrite .. | .fbootRun .. =>
    [.regs, .cores]
  | .slotDegrade .. | .brakeTimeout .. | .evrRaise .. | .evf .. | .evfDone .. | .cfxLinkTrain .. =>
    [.regs, .evr]
  | .intakeEnable .. | .portLinkUp .. =>
    [.regs, .host]
  | .bucketLeak .. =>
    [.regs, .memc]
  | .bankCrossing .. | .seekTravelEnd .. | .primaryResume .. | .stbyRst .. | .shockHoldEnd .. | .load .. | .parkComplete .. =>
    [.regs, .servo]
  | .sluiceGo .. =>
    [.regs, .sluice]
  | .spinDmdPeriod .. | .curveApply .. | .spinStart .. | .brakeRest .. | .ovpRelease .. | .spnClear .. | .spindleResetTakeover .. =>
    [.regs, .spin]
  | .stageDisable .. | .stageEnable .. =>
    [.regs, .stage]
  | .irootCommit .. | .arbAdvanceFw .. | .arbAdvanceUc .. | .genkey .. | .rangeLockWrite .. | .rangeGeometryWrite .. =>
    [.regs, .trust]
  | .expiryWindow .. =>
    [.regs, .watch]
  | .weirSync .. | .weirSyncDone .. =>
    [.regs, .weir]
  | .armRd .. =>
    [.answer, .free, .preamp]
  | .claimRead .. =>
    [.answer, .regs, .cores]
  | .armTd .. =>
    [.chan, .preamp, .servo]
  | .reportZones .. | .getFeatures .. =>
    [.mem, .host, .cfx]
  | .calPassStart .. =>
    [.regs, .acc, .cal]
  | .catchMotor .. | .tokenGrant .. =>
    [.regs, .acc, .spin]
  | .p2Lock .. =>
    [.regs, .cfl, .hsk]
  | .touchdownSample .. =>
    [.regs, .chan, .evr]
  | .evrFlashAppend .. =>
    [.regs, .evr, .flash]
  | .refclkLoss .. | .vloopEnable .. =>
    [.regs, .evr, .hsk]
  | .vmotThreshold .. | .pwmPeriod .. =>
    [.regs, .evr, .spin]
  | .authreq .. =>
    [.regs, .evr, .trust]
  | .domainRestartEnd .. =>
    [.regs, .evr, .watch]
  | .evrRecord .. | .rateWindowClose .. | .evrRebuild .. | .evrClear .. =>
    [.regs, .mem, .evr]
  | .loadTimeout .. =>
    [.regs, .servo, .evr]
  | .watchdogExpiry .. | .lockstepMismatch .. =>
    [.regs, .watch, .cores]
  | .zoneLoad .. =>
    [.regs, .zone, .evr]
  | .nonceRead .. =>
    [.answer, .free, .regs, .trust]
  | .identify .. | .securityReceive .. =>
    [.free, .mem, .host, .cfx]
  | .unload .. =>
    [.free, .regs, .acc, .servo]
  | .voltageUpdate .. =>
    [.regs, .acc, .evr, .hsk]
  | .targetChange .. | .heldTargetRelease .. =>
    [.regs, .acc, .spin, .cfx]
  | .firmwareCommit .. =>
    [.regs, .mem, .host, .flash]
  | .formatNvm .. | .sanitize .. | .securitySend .. =>
    [.regs, .mem, .host, .trust]
  | .runEndIdle .. =>
    [.regs, .reach, .chan, .medium]
  | .p1Sample .. =>
    [.time, .regs, .memc, .watch]
  | .apstTransition .. =>
    [.free, .regs, .acc, .servo, .host]
  | .sqFetch .. =>
    [.free, .regs, .mem, .host, .evr]
  | .sliceWindowEnd .. | .calItemDone .. =>
    [.regs, .acc, .chan, .evr, .cal]
  | .listenEnd .. | .warmupEnd .. | .spinupTimeout .. =>
    [.regs, .acc, .evr, .spin, .cfx]
  | .weirPacket .. =>
    [.regs, .acc, .evr, .weir, .cfx]
  | .contextAdmit .. =>
    [.regs, .acc, .mem, .host, .cfx]
  | .scrubStep .. =>
    [.regs, .acc, .mem, .memc, .evr]
  | .peerHeardAgain .. | .cpl .. | .ares .. | .adm .. | .aack .. | .cfxFenceMsg .. | .fack .. | .treq .. | .trel .. =>
    [.regs, .mem, .host, .evr, .cfx]
  | .cflRead .. =>
    [.answer, .free, .regs, .acc, .evr, .cfl]
  | .memRead .. =>
    [.answer, .regs, .acc, .mem, .memc, .evr]
  | .cflOpDone .. =>
    [.free, .regs, .acc, .evr, .flash, .cfl]
  | .getLogPage .. =>
    [.free, .regs, .acc, .mem, .host, .cfx]
  | .hbSend .. | .hb .. | .fwd .. =>
    [.free, .regs, .mem, .host, .evr, .cfx]
  | .stageRequest .. | .stageFillDone .. | .writebackIssue .. | .stageDrained .. =>
    [.answer, .regs, .acc, .mem, .stage, .memc, .evr]
  | .bkwRefill .. =>
    [.free, .regs, .acc, .mem, .memc, .evr, .bkw]
  | .read .. | .verify .. =>
    [.regs, .acc, .mem, .host, .stage, .memc, .evr]
  | .sluiceDescFetch .. =>
    [.regs, .acc, .mem, .reach, .memc, .evr, .sluice]
  | .slotAppend .. =>
    [.regs, .acc, .mem, .reach, .stage, .memc, .evr]
  | .bkwPushl .. | .bkwSpill .. =>
    [.regs, .acc, .mem, .stage, .memc, .evr, .bkw]
  | .zflagClrvfy .. | .zflagSetrzr .. | .journalEnable .. | .journalRecordIssue .. =>
    [.regs, .acc, .mem, .zone, .stage, .memc, .evr]
  | .memoryFill .. =>
    [.regs, .mem, .memc, .evr, .watch, .cores, .power]
  | .bkwPop .. =>
    [.answer, .free, .regs, .acc, .mem, .memc, .evr, .bkw]
  | .setFeatures .. =>
    [.free, .regs, .acc, .mem, .servo, .host, .evr, .cfx]
  | .bootRomStage .. =>
    [.free, .regs, .reach, .evr, .cal, .cores, .trust, .power]
  | .aloopWindowEnd .. =>
    [.regs, .acc, .mem, .chan, .zone, .stage, .memc, .evr]
  | .wdata .. | .rdata .. =>
    [.regs, .acc, .mem, .host, .stage, .memc, .evr, .cfx]
  | .zoneAppendPlace .. | .zoneActionEffect .. | .writeZeroes .. | .zoneOpen .. =>
    [.regs, .acc, .mem, .zone, .host, .stage, .memc, .evr]
  | .journalFold .. =>
    [.regs, .acc, .mem, .zone, .stage, .memc, .evr, .flash]
  | .sluiceDescDone .. =>
    [.free, .regs, .acc, .mem, .reach, .stage, .memc, .evr, .sluice]
  | .write .. | .zoneAppend .. =>
    [.regs, .acc, .mem, .zone, .host, .stage, .memc, .evr, .cfx]
  | .journalRecordDurable .. =>
    [.regs, .acc, .mem, .zone, .host, .stage, .memc, .evr, .flash]
  | .nsreadyWrite .. =>
    [.regs, .acc, .mem, .zone, .host, .stage, .memc, .evr, .trust]
  | .slotQuiesce .. | .indexField .. | .indexFieldMissed .. | .bankWord .. | .regionLoad .. | .regionTableStore .. | .halt .. | .b .. | .br ..
  | .call .. | .ret .. | .wait .. | .waitTimeout .. | .trap .. | .add .. | .sub .. | .and .. | .or .. | .xor .. | .shl .. | .shr .. | .cmp ..
  | .mov .. | .ldi .. | .ldh .. | .ld .. | .st .. | .seek .. | .follow .. | .offset .. | .settle .. | .head .. | .rds .. | .wrs .. | .vfy ..
  | .skipto .. | .scan .. | .raw .. | .asp .. | .htr .. | .buf .. | .fence .. | .post .. | .sig .. | .join .. | .ckpt .. | .illegalInstruction ..
  | .slotWake .. | .slotDisplaced .. | .motionLimitExpiry .. | .slotStart .. | .slotResume .. | .slotStop .. | .slotRestart .. | .slotKill ..
  | .slotRestartDone .. | .rchEnable .. | .blkLock .. | .blkLoss .. | .hopHoldExpiry .. | .blkNotRegained .. | .armResponse .. | .pesSample ..
  | .servoPeriod .. | .hopComplete .. | .seekCaptureTimeout .. | .shockInput .. | .eret .. | .placementWithdraw .. | .classLimitExpiry ..
  | .activationEnd .. | .settleTimeout .. =>
    [.free, .regs, .acc, .mem, .reach, .chan, .deep, .servo, .zone, .host, .stage, .memc, .evr, .trust]
  | .memWrite .. =>
    [.answer, .free, .regs, .acc, .mem, .reach, .chan, .deep, .servo, .zone, .host, .stage, .memc, .evr, .trust]
  | .sectorStart .. | .readBehindDecided .. =>
    [.free, .regs, .acc, .mem, .reach, .chan, .deep, .servo, .medium, .zone, .host, .stage, .memc, .evr, .trust]
  | .completionPost .. | .deleteIoSq .. | .abort .. | .controllerReset .. | .shutdownAbrupt .. | .portLinkDown .. | .linkHoldExpiry .. | .peerLost ..
  | .cfxAbortMsg .. =>
    [.free, .regs, .acc, .mem, .reach, .chan, .deep, .servo, .zone, .host, .stage, .memc, .evr, .cfx, .trust]
  | .firmwareActivate .. =>
    [.free, .regs, .acc, .mem, .reach, .chan, .deep, .servo, .zone, .host, .stage, .memc, .evr, .flash, .trust]
  | .slu .. | .taDetect .. | .decodeAttemptDone .. | .inlineDeadline .. | .unsampledSector .. | .averagingPass .. | .deepDecodeDone ..
  | .trackParityReconstruct .. | .sluiceSectorXfer .. =>
    [.free, .regs, .acc, .mem, .reach, .chan, .deep, .servo, .zone, .host, .stage, .memc, .evr, .sluice, .trust]
  | .wmodeArm .. | .preampAttention .. =>
    [.free, .regs, .acc, .mem, .reach, .chan, .preamp, .deep, .servo, .zone, .host, .stage, .memc, .evr, .trust]
  | .perstAssert .. =>
    [.free, .regs, .acc, .mem, .reach, .chan, .deep, .servo, .zone, .host, .stage, .memc, .evr, .cfx, .trust, .power]
  | .observerHandover .. | .lossOfSync .. =>
    [.free, .regs, .acc, .mem, .reach, .chan, .deep, .servo, .zone, .host, .stage, .memc, .evr, .spin, .cfx, .trust]
  | .hskRoundPublish .. =>
    [.free, .regs, .acc, .mem, .reach, .chan, .deep, .servo, .zone, .host, .stage, .memc, .evr, .spin, .hsk, .trust]
  | .crossingBufferFault .. =>
    [.free, .regs, .acc, .mem, .reach, .chan, .deep, .servo, .zone, .host, .stage, .memc, .evr, .weir, .sluice, .trust]
  | .powerLossDeclare .. =>
    [.free, .regs, .acc, .mem, .reach, .chan, .deep, .servo, .medium, .zone, .host, .stage, .memc, .evr, .flash, .cfl, .spin, .watch, .cfx, .trust]
  | .slotReset .. =>
    [.free, .regs, .acc, .mem, .reach, .chan, .deep, .servo, .zone, .host, .stage, .memc, .evr, .bkw, .flash, .cfl, .spin, .cal, .hsk, .trust]
  | .controllerRestart .. | .dipRestart .. =>
    [.free, .regs, .acc, .mem, .reach, .chan, .deep, .servo, .zone, .host, .stage, .memc, .evr, .watch, .cal, .hsk, .cfx, .cores, .trust, .power]
  | .railOutOfRange .. | .sysRstLow .. =>
    [.free, .regs, .acc, .mem, .reach, .chan, .deep, .servo, .medium, .zone, .host, .stage, .memc, .evr, .flash, .cfl, .spin, .watch, .cfx, .trust, .power]
  | .domainRestartReq .. =>
    [.free, .regs, .acc, .mem, .reach, .chan, .deep, .servo, .zone, .host, .stage, .memc, .evr, .bkw, .flash, .cfl, .spin, .watch, .cal, .hsk, .trust]
  | .machineCheck .. | .weirStall .. | .elementExpiry .. | .unitExpiry .. | .domainExpiry .. | .watchRestartEnd .. =>
    [.free, .regs, .acc, .mem, .reach, .chan, .deep, .servo, .zone, .host, .stage, .memc, .evr, .bkw, .flash, .cfl, .spin, .watch, .cal, .hsk, .cores, .trust]
  | .registerWrite .. | .unitResetEnd .. | .resetAccessTimeout .. | .sluiceAccess .. | .registerReadClear .. =>
    [.answer, .free, .regs, .acc, .mem, .reach, .chan, .preamp, .deep, .servo, .zone, .host, .stage, .memc, .evr, .weir, .sluice, .bkw, .flash, .cfl, .spin, .watch, .cal, .hsk, .cfx, .cores, .trust]
  | .powerOn .. | .sysRstRelease .. =>
    [.time, .answer, .free, .regs, .acc, .mem, .reach, .chan, .preamp, .deep, .servo, .medium, .zone, .host, .stage, .memc, .evr, .weir, .sluice, .bkw, .flash, .cfl, .spin, .watch, .cal, .hsk, .cfx, .cores, .trust, .power]

end Sys2Proof.Machine
end

