-- ==== Sys2Proof/Certificates/Slice0/Obligations.lean ====
section
/-! DEFINITION. The statements for the provers. Each statement of what commands do concludes that `exec` answers a next state, for every
state and operands that meet hypotheses on these alone. -/

open Sys2Proof Sys2Proof.Machine

/-- A step with a command at the front of the queue is that command on the state with the queue's rest. -/
def Obligations.StepTakesFront : Prop :=
  ∀ (c : Instr) (l : List Instr) (s : State), step { s with pending := c :: l } = exec c { s with pending := l }

/-- R106, R88: an arithmetic or logic instruction of the slot that runs alone writes its 64-bit result to W[d] (CMP writes nothing), sets C to the
carry, the unsigned comparison or the last bit shifted out (0 for a shift of 0 and for AND, OR and XOR), Z where the result is 0 and N to its bit
63, and moves PC on; nothing else changes. -/
def Obligations.ArithmeticCompletes : Prop :=
  ∀ (s : State) (n k : Fin 4) (d a : Fin 16) (o : Op2), s.sole n k →
    let w := (s.pslot n k).arch
    let x := w.reg a
    let y := w.op2 o
    let sh := y.toNat % 64
    let ends : Arch → BitVec 64 → Bool → Host.Outcome State Fault Refusal := fun v r c =>
      .next (s.slotAt n k { v with z := r == 0, n := r.msb, c := c, pc := (w.pc + 4) % 2 ^ 21 })
    exec (.add n k d a o) s = ends (w.setReg d (x + y)) (x + y) (2 ^ 64 ≤ x.toNat + y.toNat) ∧
    exec (.sub n k d a o) s = ends (w.setReg d (x - y)) (x - y) (y.toNat ≤ x.toNat) ∧
    exec (.and n k d a o) s = ends (w.setReg d (x &&& y)) (x &&& y) false ∧
    exec (.or n k d a o) s = ends (w.setReg d (x ||| y)) (x ||| y) false ∧
    exec (.xor n k d a o) s = ends (w.setReg d (x ^^^ y)) (x ^^^ y) false ∧
    exec (.shl n k d a o) s = ends (w.setReg d (x <<< sh)) (x <<< sh) (sh != 0 && x.getLsbD (64 - sh)) ∧
    exec (.shr n k d a o) s = ends (w.setReg d (x >>> sh)) (x >>> sh) (sh != 0 && x.getLsbD (sh - 1)) ∧
    exec (.cmp n k a o) s = ends w (x - y) (y.toNat ≤ x.toNat)

/-- R104, R106, R110: MOV takes its source to its destination as the codes of Table 03.24 say; LDI loads its sign-extended immediate, LDH one
halfword of W[d]; each moves PC on, and nothing else changes. OFFSET within ±512 sets the offset once ONT is dropped. -/
def Obligations.MovesComplete : Prop :=
  ∀ (s : State) (n k : Fin 4), s.sole n k →
    let w := (s.pslot n k).arch
    (∀ (dst src : Fin 32) (v : BitVec 64) (b : Arch), s.movSrc n w src = some v → w.movDst dst v = some b →
      exec (.mov n k dst src) s = .next (s.slotAt n k b.onward)) ∧
    (∀ (d : Fin 16) (i : BitVec 22), exec (.ldi n k d i) s = .next (s.slotAt n k (w.setReg d (i.signExtend 64)).onward)) ∧
    (∀ (d : Fin 16) (hw : Fin 4) (i : BitVec 16), ∃ v : BitVec 64,
      exec (.ldh n k d hw i) s = .next (s.slotAt n k (w.setReg d v).onward) ∧
        ∀ j, j < 64 → v.getLsbD j = if j / 16 = hw.val then i.getLsbD (j % 16) else (w.reg d).getLsbD j) ∧
    (∀ o : Op11, -512 ≤ (w.op11 o).toInt → (w.op11 o).toInt ≤ 512 →
      exec (.offset n k o) s = .next ((s.dropOnt n).complete n k fun y => { y with offset := w.op11 o }))

/-- R102, R107: B and BR go to their target where their condition holds and on where it does not; CALL pushes the return address and RET pops it;
HALT records the slot, sets RCH.INT.HALT and leaves the slot halted at the next instruction. -/
def Obligations.FlowCompletes : Prop :=
  ∀ (s : State) (n k : Fin 4), s.sole n k →
    let w := (s.pslot n k).arch
    (∀ (c : Fin 16) (off : BitVec 22), s.cond n w c = false → exec (.b n k c off) s = .next (s.slotAt n k w.onward)) ∧
    (∀ (c : Fin 16) (off : BitVec 22), s.cond n w c = true → 0x14000 ≤ target w.pc off.toInt →
      exec (.b n k c off) s = .next (s.slotAt n k { w.consume c with pc := target w.pc off.toInt })) ∧
    (∀ (c a : Fin 16), s.cond n w c = true → 0x14000 ≤ bits (w.reg a).toNat 0 21 → (w.reg a).toNat % 4 = 0 →
      exec (.br n k c a) s = .next (s.slotAt n k { w.consume c with pc := bits (w.reg a).toNat 0 21 })) ∧
    (∀ off : BitVec 26, w.stack.length < 8 → 0x14000 ≤ target w.pc off.toInt →
      exec (.call n k off) s = .next (s.slotAt n k { w with pc := target w.pc off.toInt, stack := (w.pc + 4) % 2 ^ 21 :: w.stack })) ∧
    (∀ (p : Nat) (l : List Nat), w.stack = p :: l → exec (.ret n k) s = .next (s.slotAt n k { w with pc := p, stack := l })) ∧
    exec (.halt n k) s = .next
      ((((s.updSlot n k fun x => { x with st := .halted, stopReq := false, arch := w.onward }).record n k).setB (Fd.RCH_INT_HALT n) k.val).dispatch n)

/-- R80, R102, Table 03.25: a slot that traps reads its cause, stays at the instruction and sets its bit of RCH.INT.TRAP, and nothing else changes:
TRAP with its own code up to 0xFEFF and 0xFF01 above it, an unassigned opcode or a reserved field with 0xFF01, a full return stack with 0xFF03, an
empty one with 0xFF04, a reserved register code with 0xFF05, and a branch below the program area with 0xFF07. -/
def Obligations.SlotTraps : Prop :=
  ∀ (s : State) (n k : Fin 4), s.sole n k →
    let w := (s.pslot n k).arch
    let traps : Nat → Host.Outcome State Fault Refusal := fun c =>
      .next ((s.updSlot n k fun x => { x with st := .trapped, trap := c, stopReq := false }).setB (Fd.RCH_INT_TRAP n) k.val)
    (∀ c : BitVec 16, exec (.trap n k c) s = traps (if 0xFEFF < c.toNat then 0xFF01 else c.toNat)) ∧
    (∀ i : BitVec 32, legalWord i.toNat = false → exec (fetched n k i) s = traps 0xFF01 ∧ exec (.illegalInstruction n k i) s = traps 0xFF01) ∧
    (∀ off : BitVec 26, 8 ≤ w.stack.length → exec (.call n k off) s = traps 0xFF03) ∧
    (w.stack = [] → exec (.ret n k) s = traps 0xFF04) ∧
    (∀ dst src : Fin 32, s.movSrc n w src = none → exec (.mov n k dst src) s = traps 0xFF05) ∧
    (∀ (c : Fin 16) (off : BitVec 22), s.cond n w c = true → target w.pc off.toInt < 0x14000 → exec (.b n k c off) s = traps 0xFF07)

/-- R80, R81, R102: LD reads 8 bytes of working memory in the range a program may load and writes W[d]; ST stores W[r] there in the range a program
may store; and BUF appends its entry to the buffer chain, or with CLR starts the chain with it, and ends with ST.CODE 0. -/
def Obligations.LoadsAndStoresComplete : Prop :=
  ∀ (s : State) (n k : Fin 4), s.sole n k →
    let w := (s.pslot n k).arch
    (∀ (d a : Fin 16) (off : BitVec 18) (t : State) (l : List Nat), mayLoad (w.addr a off) = true →
      s.load 0x3F (wmem n + w.addr a off) 8 = (t, some l) →
      exec (.ld n k d a off) s = .next (t.complete n k fun y => y.setReg d (BitVec.ofNat 64 (leValue l)))) ∧
    (∀ (r a : Fin 16) (off : BitVec 18), mayStore (w.addr a off) = true →
      exec (.st n k r a off) s = .next ((s.stored (wmem n + w.addr a off) (leBytes 8 (w.reg r).toNat)).complete n k id)) ∧
    (∀ (a : Fin 16) (clr : Bool), s.boundTo n (ChainEntry.ofWord (w.reg a).toNat).ctx = true → (ChainEntry.ofWord (w.reg a).toNat).count ≠ 0 →
      (clr = false → w.chain.length < 16) →
      exec (.buf n k a clr) s = .next ((if clr then s.updSlot n k fun y => { y with headFail := false } else s).complete n k fun y =>
        ((if clr then y.clearChain else y).append (ChainEntry.ofWord (w.reg a).toNat)).setCode 0)) ∧
    (∀ (a : Fin 16) (ch : Fin 32) (t : State) (c : Nat), ch.val = 24 + 2 * n.val ∨ ch.val = 25 + 2 * n.val →
      s.sluProgram n k ch.val (w.reg a).toNat = (t, c) →
      exec (.slu n k a ch) s = .next ((if c = 0 then t.issued n k else t).complete n k fun y => y.setCode c)) ∧
    (∀ (a : Fin 16) (t : State) (l : List Nat), (w.reg a).toNat % 32 = 0 → 0x14000 ≤ (w.reg a).toNat → (w.reg a).toNat + 32 ≤ 0x200000 →
      s.load 0x3F (wmem n + (w.reg a).toNat) 32 = (t, some l) →
      profileOk (t.rd (Fd.CHN_WCFG_AKIND n (t.selHead n))) (fun i => leValue ((l.drop (2 * i)).take 2)) = true →
      exec (.asp n k a) s = .next ((t.sendProfile n k fun i => leValue ((l.drop (2 * i)).take 2)).enter n k .arm .running)) ∧
    (∀ a : Fin 16, ∃ t, exec (.htr n k a) s = .next t ∧
      (t.ch n).txq = (s.ch n).txq ++ [⟨.htr k, false, headReg (s.selHead n) 3, 1, [bits (w.reg a).toNat 0 16, bits (w.reg a).toNat 16 16], false⟩] ∧
      (t.pslot n k).op = some .arm ∧ (t.pslot n k).arch.fen = false ∧ s.onlyAt t [.reach, .chan])

/-- R103, R107, R108, R130 to R133: WAIT and JOIN end at once where their condition holds, and else yield; FENCE and POST wait for the slot's earlier
effects; SIG sets one signal; CKPT records the slot; and a timeout or a wake ends the wait. -/
def Obligations.WaitsComplete : Prop :=
  ∀ (s : State) (n k : Fin 4), s.sole n k →
    let w := (s.pslot n k).arch
    (∀ (c : Fin 16) (u : Fin 4) (t : BitVec 20), s.cond n w c = true → c ≠ 0 →
      exec (.wait n k c u t) s = .next (s.slotAt n k ((w.consume c).setCode 0).onward)) ∧
    (∀ (c : Fin 16) (u : Fin 4) (t : BitVec 20), s.cond n w c = false → s.testsOnce n w u t.toNat = false →
      exec (.wait n k c u t) s = .next (s.updSlot n k fun x => { x with op := some (.wait c (s.timeout u t.toNat)), st := .yielding })) ∧
    (∀ (m : BitVec 8) (u : Fin 4) (t : BitVec 16), s.joinMet n m.toNat = true → exec (.join n k m u t) s = .next (s.joinTake n k m.toNat)) ∧
    (∀ (m : BitVec 8) (u : Fin 4) (t : BitVec 16), s.joinMet n m.toNat = false → s.testsOnce n w u t.toNat = false →
      exec (.join n k m u t) s = .next (s.updSlot n k fun x => { x with op := some (.join m (s.timeout u t.toNat)), st := .yielding })) ∧
    (∀ a : Bool, s.settled n k = true → (s.pslot n k).sluChans = [] → (s.pslot n k).xfers = 0 → s.engWrites n = [] →
      (a = true → s.armSettled n k = true) →
      exec (.fence n k true true a) s = .next ((s.updSlot n k fun y => { y with sync := some [] }).fenceDone n k true a)) ∧
    (∀ a : Fin 16, s.settled n k = true → (s.pslot n k).sluChans = [] → (s.pslot n k).xfers = 0 → s.engWrites n = [] →
      exec (.post n k a) s = .next ((s.updSlot n k fun y => { y with sync := some [] }).post n k (w.reg a).toNat)) ∧
    (∀ (j : Fin 4) (g : Fin 8), exec (.sig n k ⟨j.val, by omega⟩ g) s = .next ((s.setB (Fd.RCH_SIGNALS_SIG j) g.val).complete n k id)) ∧
    (∀ g : Fin 8, exec (.sig n k 4 g) s = .next (((s.setB (Fd.RCH_FWSIG_SIG n) g.val).wr (Fd.RCH_INT_SIGF n) 1).complete n k id)) ∧
    exec (.ckpt n k) s = .next (((s.slotAt n k w.onward).record n k).dispatch n)

/-- R92, R93, R107: a yielding slot whose wait's condition is met goes on with Z at 1 and ST.CODE at 0, one whose timeout passes goes on with Z at 0
and ST.CODE at 0x01 (a WAIT for nothing but time with success), and the running slot at its preemption point gives way to a lower ready one. -/
def Obligations.WaitsEnd : Prop :=
  ∀ (s : State) (n k : Fin 4),
    (∀ (c : Fin 16) (t : Timeout), (s.pslot n k).st = .yielding → (s.pslot n k).op = some (.wait c t) → c ≠ 0 →
      s.cond n (s.pslot n k).arch c = true →
      exec (.slotWake n k) s = .next (s.complete n k fun a => (a.consume c).setCode 0)) ∧
    (∀ (c : Fin 16) (t : Timeout), (s.pslot n k).st = .yielding → (s.pslot n k).op = some (.wait c t) → c ≠ 0 →
      s.timedOut n (s.pslot n k).arch t = true → exec (.waitTimeout n k) s = .next (s.complete n k fun a => a.setCode 0x01)) ∧
    (∀ (m : BitVec 8) (t : Timeout), (s.pslot n k).st = .yielding → (s.pslot n k).op = some (.join m t) →
      s.timedOut n (s.pslot n k).arch t = true → exec (.waitTimeout n k) s = .next (s.complete n k fun a => a.setCode 0x01)) ∧
    (s.runner n = some k → s.atPoint n k = true →
      (∃ j, j < k ∧ (s.pslot n j).st = .ready ∧ (s.pslot n j).intr = false) →
      exec (.slotDisplaced n) s = .next ((s.giveUp n k .ready).dispatch n)) ∧
    (∀ set : Fin 4, s.ownerOp n = some (k, .settle set) → exec (.settleTimeout n) s = .next (s.complete n k fun a => a.setCode 0x01)) ∧
    (∀ o : Op, s.ownerOp n = some (k, o) → o = .seek ∨ o = .follow ∨ o = .skipto →
      exec (.motionLimitExpiry n) s = .next ((s.dropTarget n).opEndsWith n k 0x01))

/-- R109 to R113, R124: where no calibration claims the channel and the actuator can move to a place its table holds, SEEK, FOLLOW within ±32 tracks,
HEAD and SKIPTO set TP and begin their motion, and SETTLE ends where ONT holds under its set and else waits for it. -/
def Obligations.MotionBegins : Prop :=
  ∀ (s : State) (n k : Fin 4), s.sole n k → s.cal.claim ≠ some n → s.movable n = true →
    let w := (s.pslot n k).arch
    let toTp : Nat → State := fun tp => s.updArch n k fun y => { y with tp := BitVec.ofNat 64 tp }
    (∀ a : Fin 16, exec (.seek n k a) s = .next ((s.updArch n k fun y => { y with tp := w.reg a }).motion n k .seek)) ∧
    (∀ (u : State) (o : Op), (u.place n (u.pslot n k).arch.tp.toNat).isSome = true → u.movable n = true →
      u.motion n k o = ((u.enter n k o .running).freshSeek n).goTo n k ⟨(u.pslot n k).arch.tp.toNat, false, (u.pslot n k).arch.offset.toInt⟩) ∧
    (∀ (d : BitVec 8) (t : Nat), -32 ≤ d.toInt → d.toInt ≤ 32 → (tpTrack w.tp.toNat + d.toInt : Int) = t → t < 2 ^ 24 → w.tp.toNat < 2 ^ 38 →
      (s.place n (mkTp (tpHead w.tp.toNat) t (tpSlot w.tp.toNat))).isSome = true →
      exec (.follow n k d) s = .next ((toTp (mkTp (tpHead w.tp.toNat) t (tpSlot w.tp.toNat))).motion n k .follow)) ∧
    (∀ (g : Fin 4) (t : BitVec 20), (s.place n w.tp.toNat).isSome = true → (s.nameSet n g).ontUnder n g.val = true →
      exec (.settle n k g t) s = .next ((s.nameSet n g).complete n k fun y => y.setCode 0)) ∧
    (∀ (g : Fin 4) (t : BitVec 20), (s.place n w.tp.toNat).isSome = true → (s.nameSet n g).ontUnder n g.val = false →
      exec (.settle n k g t) s = .next ((s.nameSet n g).updSlot n k fun x => { x with op := some (.settle g), st := .running })) ∧
    (∀ (o : Op11) (tp : Nat), tp = w.tp.toNat % 2 ^ 35 + 2 ^ 35 * ((w.op11 o).toNat % 8) + 2 ^ 38 * (w.tp.toNat / 2 ^ 38) →
      ((toTp tp).place n tp).isSome = true →
      exec (.head n k o) s = .next ((((((toTp tp).clearBlk n).enter n k .head .running).sendSelect n k ((w.op11 o).toNat % 8)).freshSeek n).findFirst n
        ⟨tp, false, w.offset.toInt⟩)) ∧
    (∀ (o : Op11) (tp : Nat), tp = 2 ^ 11 * (w.tp.toNat / 2 ^ 11) + (w.op11 o).toNat → (s.place n tp).isSome = true →
      exec (.skipto n k o) s = .next ((((toTp tp).enter n k .skipto .running).freshSeek n).position n k))

/-- R95, R113, R116, R119, R120, R125, R126: a media instruction that passes its checks records the slot, enters with CN slots to do from the first
data slot at or after TP (WRS from a parity slot that TP names and that holds no committed parity, RAW from TP itself) and its operands, and positions. -/
def Obligations.MediaInstructionsBegin : Prop :=
  ∀ (s : State) (n k : Fin 4), s.sole n k → s.cal.claim ≠ some n → (s.record n k).mediaCheck n k = none →
    let r := s.record n k
    let a := (r.pslot n k).arch
    let made : Bool := (r.pslot n k).madeEntry
    let fresh : MediaKind → Media := fun m => Media.fresh m (r.firstData n a.tp.toNat) a.cn.toNat made
    let begins : State → Media → Host.Outcome State Fault Refusal := fun t m => .next (((t.enter n k (.media m) .running).freshSeek n).position n k)
    (∀ (e : Fin 8) (g : Fin 4) (v : Fin 8) (dp tp nx ct : Bool), (v ≠ 0 ∨ dp = true → r.on (Fd.CHN_CTL_STORE_EN n) = true) →
      exec (.rds n k e g v dp tp nx ct) s = begins r { fresh .rds with eqs := e, wgt := g, avg := v, deep := dp, tpr := tp, nox := nx, cont := ct }) ∧
    (r.wrsCheck n k = none → exec (.wrs n k) s =
      begins (r.wrsRun n k) (Media.fresh .wrs ((r.wrsRun n k).firstWrite n a.tp.toNat) a.cn.toNat ((r.wrsRun n k).pslot n k).madeEntry)) ∧
    (∀ (c : Bool) (t : BitVec 8), exec (.vfy n k c t) s = begins r { fresh .vfy with cmpb := c, wth := t.toNat }) ∧
    (∀ (b : Fin 16) (st : Fin 4), s.mediaCheck n k = none → ((s.pslot n k).arch.reg b).toNat % 32 = 0 → 0x14000 ≤ ((s.pslot n k).arch.reg b).toNat →
      ((s.pslot n k).arch.reg b).toNat + 32 * (s.pslot n k).arch.cn.toNat ≤ 0x200000 →
      exec (.scan n k b st) s = begins r { fresh .scan with stop := st, base := ((s.pslot n k).arch.reg b).toNat }) ∧
    (∀ (b : Fin 16) (c : Fin 32), c.val = 24 + 2 * n.val → ((s.pslot n k).arch.reg b).toNat % 64 = 0 →
      exec (.raw n k b c) s =
        begins r { Media.fresh .raw a.tp.toNat a.cn.toNat made with base := ((s.pslot n k).arch.reg b).toNat % 2 ^ 40 })

/-- R93 to R97, R100, R101: START of a slot at rest clears it, records it and makes it ready at its entry address; RESUME makes a stopped, halted or
trapped slot ready (past a TRAP of its own); STOP, RESTART, KILL and the end of a restart act on the slot; APPEND takes an entry where the chain has
room; CTL.EN runs or stops the slots; and firmware sets signals. -/
def Obligations.SlotCommandsAct : Prop :=
  ∀ (s : State) (n k : Fin 4),
    let x := s.pslot n k
    (x.st = .idle ∨ x.st = .halted ∨ x.st = .faulted → exec (.slotStart n k) s = .next ((((s.clearFailures n k).updSlot n k fun y =>
      { Slot.reset with arch := { Arch.fresh with pc := 4 * s.rd (Fd.RCH_SLOT_ENTRY_ENTRY n k) }, trap := y.trap, st := .ready }).record n
        k).dispatch n)) ∧
    (x.st = .stopped ∨ x.st = .halted → exec (.slotResume n k) s = .next ((s.updSlot n k fun y => { y with st := .ready }).dispatch n)) ∧
    (x.st = .trapped → x.trap ≤ 0xFEFF → exec (.slotResume n k) s = .next ((s.updSlot n k fun y => { y with st := .ready, arch := y.arch.onward }).dispatch n)) ∧
    (x.op = none → x.active = true → exec (.slotStop n k) s = .next ((s.updSlot n k fun y => { y with st := .stopped }).dispatch n)) ∧
    (x.st ≠ .idle → exec (.slotRestart n k) s = .next (((s.interrupt n k).updSlot n k fun y => { y with st := .ready, intr := true }).dispatch n)) ∧
    exec (.slotKill n k) s = .next ((s.kill n k).dispatch n) ∧
    (x.intr = true → exec (.slotRestartDone n k) s = .next ((s.restart n k).dispatch n)) ∧
    (∀ e : BitVec 64, x.arch.chain.length < 16 → e.getLsbD 63 = false → exec (.slotAppend n k e) s = .next (s.append n k e.toNat)) ∧
    exec (.rchEnable n true) s = .next ((s.wr (Fd.RCH_CTL_EN n) 1).dispatch n) ∧
    exec (.rchEnable n false) s = .next ((s.wr (Fd.RCH_CTL_EN n) 0).stopSlots n four) ∧
    (∀ m : BitVec 8, ∃ t, exec (.signalsSet n m) s = .next t ∧ t.rd (Fd.RCH_SIGNALS_SIG n) = (s.rd (Fd.RCH_SIGNALS_SIG n) ||| m.toNat) % 256 ∧
      ∀ f : Fld, f.key ≠ (Fd.RCH_SIGNALS_SIG n).key → t.rd f = s.rd f)

/-- R63, R82, R114, R190, R280: LOAD of a head whose table passes every check sets VALID and clears FAIL; a firmware store in a table area stores its
word and drops the table; a SKIPTO whose slot comes round ends with success; the read-behind check commits or fails the oldest written sector, and
leaves one uncommitted that a slip has spoilt; and where an engine that is not failed reads a control-store word whose parity fails, that is illegal,
or whose hold reaches the element timeout, the machine check is latched. -/
def Obligations.EngineEventsAct : Prop :=
  ∀ (s : State) (n k : Fin 4),
    (∀ h : Fin 8, tableFault (s.descs n h) = none → exec (.regionLoad n h) s =
      .next ((s.setB (Fd.RCH_REGION_VALID n) h.val).clrB (Fd.RCH_REGION_FAIL n) h.val)) ∧
    (∀ (h : Fin 8) (c i : Nat), tableFault (s.descs n h) = some (c, i) → exec (.regionLoad n h) s =
      .next (((s.dropTable n h).setB (Fd.RCH_REGION_FAIL n) h.val).raise (.reach n) 0x1003 6 [h.val, c, i])) ∧
    (∀ (w : Fin 8192) (v : BitVec 64), exec (.regionTableStore n w v) s =
      .next ((s.stored (wmem n + 8 * w.val) (leBytes 8 v.toNat)).dropTable n (w.val / 1024))) ∧
    (∀ (t : Target) (g : Fin 4), s.runner n = some k → (s.pslot n k).op = some .skipto → (s.pslot n k).aim = some (t, g) → s.movable n = true →
      s.follows n t g = true → (∀ raw, exec (.sectorStart n raw) s = .next (s.complete n k fun a => a.setCode 0))) ∧
    (∀ (m : Media) (p : Place) (t : Target) (g : Fin 4) (raw : Option Signal), s.runner n = some k → (s.pslot n k).op = some (.media m) → (s.pslot n k).aim = some (t, g) →
      m.ending = none → (s.pslot n k).stopReq = false → m.left ≠ 0 → s.mustYield n k = false → s.trackOpen n k m = false →
      s.place n m.nextTp = some p → s.movable n = true → s.follows n t g = true →
      exec (.sectorStart n raw) s = .next ((s.notePlace n k true).startNext n k p { m with positioned := true } raw)) ∧
    (∀ (u : State) (m : Media) (p : Place) (raw : Option Signal), u.startNext n k p m raw = match m.kind with
        | .wrs => u.startWrite n k p m
        | .raw => u.captureRaw n k m raw
        | _ => if m.left = 0 then u.startExtra n k m p else u.startRead n k m) ∧
    (∀ (b : Begun) (o : ReadBehind) (raw : Option (List Int)), (s.eng n).begun.find? (fun b => !b.isRead) = some b → b.written = true →
      let o' := match raw with
        | none => o
        | some rb => s.observed n b rb o
      exec (.readBehindDecided n o raw) s =
        .next (if s.readBehindOk n o' then s.commitWrite n b.slot b o'.weight
          else if !o'.aligned && s.slipStopped n b.slot then s.leaveUncommitted n b.slot b
          else s.failWrite n b.slot b o'.weight).settleVoids) ∧
    (∀ (u : BitVec 13) (e : BitVec 32) (ack : Bool), s.unit (.reach n) ≠ 0 → s.unit (.reach n) ≠ 7 →
      let t := s.wakeHolds n four
      let a := t.overlay n u.toNat
      let w := t.ucodeWord n a ^^^ e.toNat
      t.readsAt n a = true →
      (lowBad w = true ∨ highBad w = true → exec (.machineCheck n u e ack) s =
        .next (((t.latchCheck n 1 a (lowBad w) (highBad w)).strike n a).dispatch n)) ∧
      (lowBad w = false → highBad w = false → illegalAt a w = true → exec (.machineCheck n u e ack) s = .next (t.latchCheck n 2 a false false)) ∧
      (lowBad w = false → highBad w = false → illegalAt a w = false → t.microExpires n a w ack = true →
        exec (.machineCheck n u e ack) s = .next (t.expiryWindow.elementExpired (.reach n) a)))

/-- R22, R50, R52, R54, R56, R140, R143, R144, R147: what the channel's events do: an index field agrees, a third miss inhibits writing, a bank word confirms or is
compared, a slice outside its limits twice running is faulty, BLK is set with the rate and lost with the tone. -/
def Obligations.ChannelEventsAct : Prop :=
  ∀ (s : State) (n : Fin 4),
    (∀ dev : Nat, (s.ch n).resync = false → dev < 16 → ∃ t, exec (.indexField n dev) s = .next t ∧
      (t.ch n).agree = min 2 ((s.ch n).agree + 1) ∧ (t.ch n).missed = 0 ∧ (t.ch n).slipInh = ((s.ch n).slipInh && (s.ch n).agree == 0) ∧
      (∀ k, t.pslot n k = (s.pslot n k).indexed (s.countsSlots n) ∧ (t.pslot n k).arch.idx = true) ∧ s.onlyAt t [.chan, .reach]) ∧
    ((s.ch n).missed < 2 → ∃ t, exec (.indexFieldMissed n) s = .next t ∧ (t.ch n).missed = (s.ch n).missed + 1 ∧ (t.ch n).agree = 0 ∧
      (t.ch n).slipInh = (s.ch n).slipInh ∧ s.onlyAt t [.chan]) ∧
    (2 ≤ (s.ch n).missed → exec (.indexFieldMissed n) s =
      .next ((s.updCh n fun c => { c with missed := c.missed + 1, agree := 0, slipInh := true }).writeStop n 4)) ∧
    (∀ (w : Nat) (m : BitVec 4) (g : BitVec 20) (c : BitVec 4) (dev : Nat), s.truncated n w = true → exec (.bankWord n w m g c dev) s = .next s) ∧
    (∀ (w : Nat) (m : BitVec 4) (g : BitVec 20) (c : BitVec 4) (dev : Nat), s.blk n = true → s.truncated n w = false → (s.sv n).phase = .confirm →
      exec (.bankWord n w m g c dev) s = .next (s.confirmWord n (bankOfWord m.toNat g.toNat c.toNat))) ∧
    (∀ (w : Nat) (m : BitVec 4) (g : BitVec 20) (c : BitVec 4) (dev b : Nat), s.blk n = true → s.truncated n w = false → (s.sv n).phase ≠ .confirm →
      s.mode n = 2 → bankOfWord m.toNat g.toNat c.toNat = some b → s.writing n = false →
      exec (.bankWord n w m g c dev) s = .next (s.checkBank n b)) ∧
    (∀ (rb : Bool) (sl : Fin 9) (o g : Nat), s.rd (Fd.CHN_SLMON_OFS_LIM n) < o → (s.ch n).sliceHits.contains (rb, sl.val) = true →
      (s.on (spareOn rb n) = true → s.rd (spareFor rb n) ≠ sl.val) → s.calBusy = false →
      exec (.sliceWindowEnd n rb sl o g) s = .next ((s.updCh n fun c =>
        { c with sliceHits := ((s.ch n).sliceHits.filter fun p => p != (rb, sl.val)) ++ [(rb, sl.val)] }).sliceFaulty n rb sl.val false)) ∧
    (∀ r : Region, s.blk n = false → s.on (Fd.CHN_CTL_EN n) = true → s.headOk n (s.selHead n) = true → s.bankRegionNow n = some r →
      1600 ≤ s.channelRate n → s.channelRate n ≤ 7200 → s.selecting n = false →
      ((s.wr (Fd.CHN_STATUS_BLK n) 1).wr (Fd.CHN_RATE_MBPS n) (s.channelRate n)).ownerOp n = none →
      s.channelRate n = (16 * r.tone * s.rd Fd.SPN_SPEED_RPM10 + 300000000) / 600000000 ∧
      exec (.blkLock n) s = .next ((s.wr (Fd.CHN_STATUS_BLK n) 1).wr (Fd.CHN_RATE_MBPS n) (s.channelRate n))) ∧
    (s.blk n = true → exec (.blkLoss n .phase) s = .next (((s.clearBlk n).countBlkLoss n).writeStop n 3)) ∧
    (s.blk n = true → exec (.blkLoss n .headChange) s = .next ((s.clearBlk n).writeStop n 3)) ∧
    (exec (.crossingBufferFault (.write n true)) s = .next (s.crossingPinned.writeStop n 8)) ∧
    (exec (.crossingBufferFault (.write n false)) s = .next (s.crossingPinned.updCh n fun c => { c with underflow := true })) ∧
    (∀ l : Nat, exec (.crossingBufferFault (.sample n l)) s = .next ((s.crossingPinned.overflowed n l).drainAll n)) ∧
    ∀ q, ∃ t, exec (.crossingBufferFault (.other q)) s = .next t ∧ t.weir.withheld = s.crossingPinned.weir.withheld ++ [q.val] ∧
      s.crossingPinned.onlyAt t [.weir]

/-- R116, R147 to R151, R154, R158, R160, R162 to R165: what the read path's events do to the sectors begun that await them. -/
def Obligations.ReadPathEventsAct : Prop :=
  ∀ (s : State) (n : Fin 4) (b : Begun) (m : Media),
    (∀ (rb : Bool) (codes : List Int) (i : Int), s.on (Fd.CHN_CTL_TAEN n) = false → exec (.taDetect n rb codes i) s = .next s) ∧
    (∀ (rb : Bool) (codes : List Int) (i : Int), s.on (Fd.CHN_CTL_TAEN n) = true →
      ((s.eng n).begun.reverse.find? fun b => b.isRead && b.phase == ReadPhase.inline && b.attempts == 0) = none →
      exec (.taDetect n rb codes i) s =
        .next ((s.taSpans n rb i codes).foldl (fun t _ => t.headCount n (Fd.CHN_HCNT1_TA n (s.selHead n))) s)) ∧
    (∀ (rb : Bool) (codes : List Int) (i : Int), s.on (Fd.CHN_CTL_TAEN n) = true →
      ((s.eng n).begun.reverse.find? fun b => b.isRead && b.phase == ReadPhase.inline && b.attempts == 0) = some b →
      let s1 := s.addSpans n b (s.taSpans n rb i codes)
      let y := { s1.again n b with found := true, badR71 := false }
      (s1.pslot n b.slot).media? = some m →
      exec (.taDetect n rb codes i) s = .next (if covered (-64) y.spans ≤ 2048 then s1 else (s1.inlineFail n m y).drainAll n)) ∧
    (∀ sc : List Nat, s.oldest n (fun b => b.phase == ReadPhase.inline) = some (b, m) → b.attempts ≠ 0 →
      exec (.inlineDeadline n sc) s = .next ((s.inlineFail n m (s.again n b)).drainAll n)) ∧
    (∀ sc : List Nat, s.oldest n (fun b => b.phase == ReadPhase.inline) = some (b, m) → b.attempts = 0 →
      let s1 := s.frameSector n b (s.framing n sc).found (s.framing n sc).dev
      exec (.inlineDeadline n sc) s = .next ((s1.inlineFail n m (s1.again n b)).drainAll n)) ∧
    (s.oldest n (fun b => b.phase == ReadPhase.inline && b.attempts == 0) = some (b, m) → (s.pslot n b.slot).media? = some m →
      exec (.unsampledSector n false) s = .next ((s.unsampled n m b).drainAll n)) ∧
    (s.averaged n = some b → (s.pslot n b.slot).media? = some m → exec (.unsampledSector n true) s = .next ((s.unsampled n m b).drainAll n)) ∧
    (∀ (pr : Fin 2) (sc : List Nat) (o : Decoded) (raw : Option Signal) (a : Attempt), s.pairOn n pr.val = some b →
      (s.pslot n b.slot).media? = some m → b.attempts = 0 →
      let s1 := s.sampled n b raw
      let b1 := s1.again n b
      let f := s1.framing n (s1.scoresOf n m b1 sc)
      let s2 := s1.frameSector n b f.found f.dev
      let b2 := s2.again n b
      covered (-64) b1.spans ≤ 2048 → b2.attempts = 0 → f.found = true →
      (attempts true (s2.on (Fd.CHN_CTL_ALT n)) (s2.on (Fd.CHN_CTL_FLY n)) f.p f.q)[0]? = some a → a.fly = false →
      let r := s2.attempt n m b2 a.dev (s2.rd (Fd.CHN_DEC_GLOBAL n)) (s2.rd (Fd.CHN_DEC_TOTAL n)) o
      s2.passes n m r.2 r.1 = true →
      exec (.decodeAttemptDone n pr sc o raw) s = .next (((((s2.updBegun n b2 fun c =>
        { c with attempts := c.attempts + 1, weight := r.1.weight }).sectorRead n m r.2 r.1 false).pairNext n pr.val).drainAll n))) ∧
    (∀ k : Fin 4, s.blk n = false → s.runner n = some k → (s.pslot n k).op = some .seek →
      exec (.blkNotRegained n) s = .next (s.opEndsWith n k 0x0A)) ∧
    (s.on Fd.DEEP_DCTL_EN = true → s.on Fd.DEEP_DSTATUS_BUSY = false → s.deep ≠ [] → s.takesWork .deep = true →
      exec .deepRequestTake s = .next (s.wr Fd.DEEP_DSTATUS_BUSY 1)) ∧
    (∀ (d : DeepReq) (l : List DeepReq) (e : StoreEntry) (o : Decoded), s.deep = d :: l → s.on Fd.DEEP_DSTATUS_BUSY = true →
      s.oldest d.n (fun b => b.slot == d.slot && b.tp == d.tp) = some (b, m) →
      (s.ch d.n).store.find? (fun e => e.slot == b.slot && e.tp == b.tp) = some e → s.on (Fd.CHN_CTL_STORE_EN d.n) = true →
      let s1 := ({ s with deep := l }.wr Fd.DEEP_DSTATUS_BUSY 0).bump Fd.DEEP_DDONE_COUNT
      let r := s1.storeAttempt d.n m b e (s.rd Fd.DEEP_DCTL_GLOBAL) (s.rd Fd.DEEP_DCTL_ITER) o
      s.passes d.n m r.2 r.1 = true →
      exec (.deepDecodeDone o) s = .next (((s1.sectorRead d.n m r.2 r.1 true).drainAll d.n).pushDeep)) ∧
    (∀ (p : Place) (c : Bool), s.oldest n (fun b => b.phase == ReadPhase.parity) = some (b, m) → s.place n b.tp = some p →
      s.groupClosed n (tpHead b.tp) p = true → (∀ t ∈ p.groupTps (tpHead b.tp), ∃ q ∈ m.seen, q.1 = t) →
      ((p.groupTps (tpHead b.tp)).countP fun t => m.seen.any fun q => q.1 == t && !q.2) ≤ 2 →
      let r := s.reconstructed n m b p c
      let s0 := s.updMedia n b.slot fun m => { m with extra := m.extra.filter fun t => !(p.groupTps (tpHead b.tp)).contains t }
      s.passes n m { b with sector := { r.2 with whole := true } } ⟨true, r.1, b.weight⟩ = true →
      exec (.trackParityReconstruct n c) s = .next (((s0.updBegun n b fun x =>
        { x with phase := .good false, sector := { r.2 with whole := true } }).updArch n b.slot fun a => { a with dec := true }).drainAll n)) ∧
    (∀ (e : StoreEntry) (sc : List Nat) (o : Decoded) (raw : Option Signal), s.averaged n = some b → (s.pslot n b.slot).media? = some m →
      (s.ch n).store.find? (fun e => e.slot == b.slot && e.tp == b.tp) = some e → s.on (Fd.CHN_CTL_STORE_EN n) = false →
      exec (.averagingPass n sc o raw) s = .next ((s.afterDeep n m b).drainAll n)) ∧
    (∀ (e : StoreEntry) (sc : List Nat) (o : Decoded) (g : Signal), s.averaged n = some b → (s.pslot n b.slot).media? = some m →
      (s.ch n).store.find? (fun e => e.slot == b.slot && e.tp == b.tp) = some e → s.on (Fd.CHN_CTL_STORE_EN n) = true →
      let s0 := s.sampled n b (some g)
      let f := s0.framing n (s0.scoresOf n m (s0.again n b) sc)
      ∀ g' : Signal, (s0.again n b).raw = some g' →
      let s1 := (s0.frameSector n b f.found f.dev).updBegun n b fun c => { c with found := b.found, frame := b.frame, raw := b.raw }
      let y := { e with reads := e.reads + 1, known := e.known && true }
      let s2 := (s1.stored (s.storeAddr n e.e) (sumAdd (s.sumOf n e.e) (framed g' f.dev))).stored (s.storeAddr n e.e + 0x27FC8) [y.reads]
      let r := s2.storeAttempt n m (s2.again n b) y (s.rd (Fd.CHN_DEC_GLOBAL n)) (s.rd (Fd.CHN_DEC_TOTAL n)) o
      let z := { y with sw := min e.sw r.1.weight }
      s.passes n m r.2 r.1 = true →
      exec (.averagingPass n sc o (some g)) s = .next (((((s2.stored (s.storeAddr n e.e + 0x27FCC) (leBytes 2 z.sw)).updCh n fun c =>
        { c with store := c.store.map fun x => if x.e = e.e then z else x }).sectorRead n m r.2 r.1 false).drainAll n)))

/-- R172, R177, R178, R179, R182, R187: what the write path's events do: a timely acknowledged WMODE write arms the pair, a failed one leaves it idle
and the second ends the write with code 0x0F, the last pad bit idles the pair, the element's tail ends with WARM = 0 sent, 64 weights past the target
move the level one step, and a third reading above the baseline is touchdown. -/
def Obligations.WritePathEventsAct : Prop :=
  ∀ (s : State) (n k : Fin 4) (m : Media),
    (∀ fails : Fin 3, fails.val < 2 → s.runner n = some k → (s.pslot n k).media? = some m → s.mayArm n k m = true →
      let s1 := if fails.val = 0 then s else s.count (Fd.ARM_ERRCNT_RETRY n) 1
      exec (.wmodeArm n false fails) s =
        .next ((((((s1.wr (Fd.CHN_WSTAT_ARMED n) 1).wr (Fd.ARM_STATUS_WARM n) 1).updCh n fun c =>
          { c with assist := .preheat, preNs := c.profAcked.getD 2 0, tailNs := c.profAcked.getD 5 0 }).updPreamp n Preamp.armed).updCh n fun c =>
            { c with armOk := true }))) ∧
    (s.runner n = some k → (s.pslot n k).media? = some m → s.mayArm n k m = true → ∀ late : Bool,
      let s2 := (s.count (Fd.ARM_ERRCNT_RETRY n) 1).linkErr n false 0x009 false
      let s3 := (s2.updCh n fun c => { c with assist := .off }).sendDisarm n
      ((s.ch n).wmodeFailed = false → exec (.wmodeArm n late 2) s = .next (s3.updCh n fun c => { c with wmodeFailed := true })) ∧
      ((s.ch n).wmodeFailed = true → exec (.wmodeArm n late 2) s = .next ((s3.updCh n fun c => { c with wmodeFailed := false }).endWith n k 0x0F))) ∧
    (s.writing n = true → exec (.runEndIdle n) s = .next ((s.lastBit n).idlePair n)) ∧
    ((s.ch n).assist = .tail → exec (.assistTailEnd n) s = .next ((s.updCh n fun c => { c with assist := .off }).sendDisarm n)) ∧
    (∀ x lv : Nat, (s.ch n).loopOn = true → s.on (Fd.CHN_WCTL_ALOOP_EN n) = true → (s.ch n).loopN = 64 → x = s.rd (Fd.CHN_ATGT_SW_TGT n) →
      x + x / 8 < (s.ch n).loopSum / 64 → lv = s.rd (Fd.CHN_ALOOP_LEVEL n) + s.rd (Fd.CHN_ATGT_STEP n) → lv ≠ s.rd (Fd.CHN_ALOOP_LEVEL n) →
      lv ≤ s.rd (Fd.CHN_ABND_WR_MAX n) →
      exec (.aloopWindowEnd n) s =
        .next (((s.updCh n fun c => { c with loopN := 0, loopSum := 0 }).wr (Fd.CHN_ALOOP_LEVEL n) lv).armSend n
          ⟨.loop, false, headReg (s.selHead n) 0x0B, 0, [lv], false⟩)) ∧
    (∀ (e : BitVec 16) (v : Nat), s.on (Fd.CHN_TDCTL_EN n) = true → (s.ch n).ecsBase = some v → (s.ch n).ecsHits = 2 → (s.ch n).tx = none →
      v * (4 + s.rd (Fd.CHN_TDCTL_TDK n)) < 4 * spread ((e.toNat :: (s.ch n).ecs).take 64) →
      exec (.touchdownSample n e) s =
        .next ((s.updCh n fun c => { c with ecs := (e.toNat :: (s.ch n).ecs).take 64, ecsHits := 3 }).touchdown n false))

/-- R196 to R200, R203 to R206, R219: what the arm link does: a TD frame with the servo's drive is sent at each period, a valid one that has advanced
sets the drive and any other sets TDE, a read of registers that the preamplifier has answers them and reading FAULT clears all but the faults still
present, a write writes the burst, a valid acknowledgement ends its transaction after what it reports of faults, an unmasked fault raises attention,
and a link reset leaves the preamplifier's registers. -/
def Obligations.ArmLinkActs : Prop :=
  ∀ (s : State) (n : Fin 4),
    (s.on (Fd.ARM_CTL_EN n) = true → exec (.armPeriod n) s =
      .next (((((s.updPreamp n fun p => { p with missed := min 8 (p.missed + 1) }).updCh n fun c =>
        { c with tdSeq := (c.tdSeq + 1) % 4, tdSent := some (tdFrame (c.tdSeq + 1) (unsgn 18 (s.sv n).send)) }).ecsTurn n).startTx n))) ∧
    (∀ (g : Nat) (e : BitVec 32), (s.ch n).tdSent = some g → tdValid (g ^^^ e.toNat) = true → bits (g ^^^ e.toNat) 26 2 ≠ (s.preamp.get n).seq →
      (s.sv n).modelRun = true →
      exec (.armTd n e) s = .next ((s.updCh n fun c => { c with tdSent := none }).updPreamp n fun p =>
        { p with drive := sgn 18 (bits (g ^^^ e.toNat) 8 18), seq := bits (g ^^^ e.toNat) 26 2, missed := 0 })) ∧
    (∀ (g : Nat) (e : BitVec 32), (s.ch n).tdSent = some g → (tdValid (g ^^^ e.toNat) = false ∨ bits (g ^^^ e.toNat) 26 2 = (s.preamp.get n).seq) →
      (s.sv n).modelRun = true →
      exec (.armTd n e) s = .next ((s.updCh n fun c => { c with tdSent := none }).updPreamp n fun p => { p with tde := true })) ∧
    (∀ (t : ArmTx) (e : BitVec 24), (s.ch n).tx = some t → t.rd = true →
      let f := t.frame ^^^ e.toNat
      let as := (List.range (bits f 17 3 + 1)).map fun i => bits f 8 9 + i
      f % 256 = crc8 (f / 256) 0xFF 16 → bits f 20 4 = 1 → bits f 17 3 < 4 → (∀ a ∈ as, preampHas n a = true) → 0xC ∉ as →
      exec (.armRd n e) s = .next ((if 0xA ∈ as then s.updPreamp n fun p => { p with regs := tset 0 p.regs 0xA p.present } else s).responded n
        (s.preampStatus n true false) (as.map fun a => s.preampRd n a))) ∧
    (∀ (t : ArmTx) (e : BitVec 24), (s.ch n).tx = some t → t.rd = true → (t.frame ^^^ e.toNat) % 256 ≠ crc8 ((t.frame ^^^ e.toNat) / 256) 0xFF 16 →
      ∃ b, exec (.armRd n e) s = .next (s.responded n (s.preampStatus n false b) [])) ∧
    (∀ (t : ArmTx) (e : BitVec 88), (s.ch n).tx = some t → t.rd = false →
      let w := 16 * (t.len + 1)
      let f := t.frame ^^^ (e.toNat % 2 ^ (w + 24))
      let hd := bits f (8 + w) 16
      f % 256 = crc8 (f / 256) 0xFF (16 + w) → bits hd 12 4 = 2 → bits hd 9 3 = t.len → t.len < 4 →
      (∀ i < t.len + 1, preampHas n (bits hd 0 9 + i) = true) →
      exec (.armWr n e) s = .next ((s.preampWrs n (bits hd 0 9) ((List.range (t.len + 1)).map fun i => bits f (8 + 16 * (t.len - i)) 16)).responded n
        (s.preampStatus n true false) [])) ∧
    (∀ (x : ArmTx) (f : ArmFrame), (s.ch n).tx = some x → respValid f x = true → bit f.status.toNat 7 = true → bit f.status.toNat 3 = false →
      exec (.armResponse n f) s = .next (((s.noteStatus n x f.status.toNat).txDone n x f.words).startTx n)) ∧
    (∀ (x : ArmTx) (f : ArmFrame), (s.ch n).tx = some x → respValid f x = false → x.retried = false →
      exec (.armResponse n f) s = .next (((s.count (Fd.ARM_ERRCNT_RETRY n) 1).updCh n fun c => { c with tx := some { x with retried := true } }).startTx n)) ∧
    (bit (tget 0 (s.preamp.get n).regs 9) 1 = true → 8 ≤ (s.preamp.get n).missed → exec (.preampTdTimeout n) s =
      .next (s.updPreamp n fun p => { p with drive := 0, missed := 0, regs := tset 0 p.regs 0xA (setBit (tget 0 p.regs 0xA) 7) })) ∧
    (∀ v : BitVec 9,
      let x := tget 0 (s.preamp.get n).regs 0xA ||| v.toNat
      let s1 := s.updPreamp n fun p => { p with present := v.toNat, regs := tset 0 p.regs 0xA x }
      exec (.preampAttention n v) s = .next (if x &&& tget 0 (s.preamp.get n).regs 0xB = x then s1 else (s1.wr (Fd.ARM_STATUS_ATTN n) 1).attention n)) ∧
    (s.on (Fd.ARM_STATUS_BUSY n) = false → s.on (Fd.ARM_CTL_EN n) = true → s.owned n = false → s.on (Fd.CHN_WSTAT_ARMED n) = false →
      s.on (Fd.ARM_REQ_RD n) = true → exec (.armReqGo n) s =
        .next ((s.wr (Fd.ARM_STATUS_BUSY n) 1).armSend n ⟨.firmware, true, s.rd (Fd.ARM_REQ_ADDR n), s.rd (Fd.ARM_REQ_LEN n), [], false⟩)) ∧
    (∃ t, exec (.armLinkReset n) s = .next t ∧ (t.preamp.get n).tde = false ∧ (t.preamp.get n).regs = (s.preamp.get n).regs ∧ s.onlyAt t [.preamp])

/-- R145, R210, R211, R214, R218, R219, R222, R224 to R227: what the servo's events do: a usable sample is used and one below PAMIN is only shown, a
period opens and ends, a hop completes on its first valid sample, a crossing sets a travelling seek's bank and its position to the bank next in the
direction of travel, the end of travel captures, a late capture fails the seek, and an expired hold drops BLK, stops writing and captures again. -/
def Obligations.ServoEventsAct : Prop :=
  ∀ (s : State) (n : Fin 4),
    (∀ (p : BitVec 10) (a : BitVec 8), s.blk n = true → (s.sv n).held = false → (s.sv n).spoilt = false → s.rd (Fd.SRV_TETH_PAMIN n) ≤ a.toNat →
      (s.sv n).hop = none →
      exec (.pesSample n p a) s = .next (((((s.wrs [(Fd.SRV_PES_POS n, p.toNat), (Fd.SRV_PES_AMP n, a.toNat), (Fd.SRV_PES_VALID n, 1),
        (Fd.SRV_PES_HOP n, 0)]).updSv n fun v => { v with spoilt := v.held || !s.blk n }).estimate n p.toInt).afterSample n p.toInt))) ∧
    (∀ (p : BitVec 10) (a : BitVec 8), a.toNat < s.rd (Fd.SRV_TETH_PAMIN n) ∨ (s.sv n).spoilt = true → ∃ t, exec (.pesSample n p a) s = .next t ∧
      (t.sv n).err = (s.sv n).err ∧ (t.sv n).pesN = (s.sv n).pesN ∧ (t.sv n).hop = (s.sv n).hop ∧ s.onlyAt t [.regs, .servo]) ∧
    (∀ f : ServoFault, exec (.servoPeriod n f) s =
      .next (((((((((if (s.sv n).modelRun then s else s.runModel n).servoFault n f).openPeriod n).updSv n fun v =>
        { v with send := v.drive }).motionStep n).hopStep n).command n).endPeriod n))) ∧
    (∀ (p : BitVec 10) (a : BitVec 8) (b : Nat), (s.sv n).hop = some b → s.blk n = true → (s.sv n).held = false → (s.sv n).spoilt = false →
      s.rd (Fd.SRV_TETH_PAMIN n) ≤ a.toNat → exec (.hopComplete n p a) s =
      .next (((((s.wrs [(Fd.SRV_PES_POS n, p.toNat), (Fd.SRV_PES_AMP n, a.toNat), (Fd.SRV_PES_VALID n, 1), (Fd.SRV_PES_HOP n, 0)]).updSv n fun v =>
        { v with spoilt := v.held || !s.blk n }).hopEnds n p.toInt).estimate n p.toInt).afterSample n p.toInt)) ∧
    ((s.sv n).phase = .travel →
      let x := s.travelXb n
      let b := s.bankAhead n x (s.sv n).dirIn
      exec (.bankCrossing n) s = .next ((s.updSv n fun w =>
        { w with bank := b, xb := s.xBank n (s.selHead n) b, corr := w.corr + (s.xBank n (s.selHead n) b - x) }).wr (Fd.SRV_POS_BANK n) b)) ∧
    ((s.sv n).phase = .travel → exec (.seekTravelEnd n) s =
      .next ((s.updSv n fun v => { v with phase := .capture, bank := v.cap }).wr (Fd.SRV_POS_BANK n) (s.sv n).cap)) ∧
    ((s.sv n).phase = .capture → (s.sv n).goal = .seek → exec (.seekCaptureTimeout n) s =
      .next ((s.tookFree.updSv n fun w => { w with target := none, goal := .track }).seekFails n (bits s.freeVal 0 20))) ∧
    (∀ b : Nat, (s.sv n).hop = some b → (s.sv n).held = true → (s.sv n).goal ≠ .seek → exec (.hopHoldExpiry n) s =
      .next (((((((((s.clearBlk n).countBlkLoss n).writeStop n 3).count (Fd.SRV_CNT1_HOPFAIL n) 1).wr (Fd.SRV_INT_HOPFAIL n) 1).raise (.servo n) 0x1404 4
        (leBytes 3 b ++ [s.selHead n])).wr (Fd.SRV_STATUS_HOP n) 0).updSv n fun w =>
          { w with hop := none, held := false, phase := .capture, word := none, words := 0, goal := .track }))) ∧
    (∃ t, exec (.hopHoldRelease n) s = .next t ∧ (t.sv n).held = false ∧ (∀ f, t.rd f = s.rd f) ∧ s.onlyAt t [.servo])

/-- R221, R233, R239, R240, R241, R242, R245, R246: a compensator or feedforward swap waits for the next period opening; a shock input that has stood long enough at
an actuator's active level stops its writing; a
parked fitted actuator loads; a load that does not complete returns to the ramp with LOADERR; an unload or a retract brings the heads out, and on
the ramp the bridges go off with MODE 0; a reload puts the standby servo core back. -/
def Obligations.ActuatorCommandsAct : Prop :=
  ∀ (s : State) (n : Fin 4),
    exec (.primaryResume n) s = .next (s.primaryBack n) ∧
    (∀ p : Fin 2, ∃ t, exec (.stbyRst p) s = .next t ∧ t.rd (Fd.SRV_STBY_FAILED (2 * p.val)) = 0 ∧
      (∀ f : Fld, f.key ≠ (Fd.SRV_STBY_FAILED (2 * p.val)).key → t.rd f = s.rd f) ∧
      ∀ m : Fin 4, m.val / 2 = p.val → (t.sv m).stby = (s.sv m).comp) ∧
    (∃ t, exec (.cswap n) s = .next t ∧ (t.sv n).pendCswap = true ∧ (∀ f, t.rd f = s.rd f) ∧ s.onlyAt t [.servo]) ∧
    (∃ t, exec (.ffSwap n) s = .next t ∧ (t.sv n).pendFf = true ∧ (∀ f, t.rd f = s.rd f) ∧ s.onlyAt t [.servo]) ∧
    (∀ (i : Fin 2) (l : Bool) (k : Nat), exec (.shockInput i l k) s =
      .next ((((s.shock 0 i.val l k).shock 1 i.val l k).shock 2 i.val l k).shock 3 i.val l k)) ∧
    (∀ (i : Fin 2) (l : Bool) (k : Nat), l = s.rdBit (Fd.SRV_SHK_POL n) i.val ∨ k ≤ s.rd (Fd.SRV_SHK_FILT n) ∨ s.rdBit (Fd.SRV_SHK_MASK n) i.val = false →
      s.shock n i.val l k = s) ∧
    (∀ (i : Fin 2) (l : Bool) (k : Nat), l ≠ s.rdBit (Fd.SRV_SHK_POL n) i.val → s.rd (Fd.SRV_SHK_FILT n) < k → s.rdBit (Fd.SRV_SHK_MASK n) i.val = true →
      bit (s.sv n).shock i.val = false →
      let s1 := (s.updSv n fun v => { v with shock := setBit v.shock i.val, shockHold := false }).writeStop n 2
      s.shock n i.val l k = (((s1.wr (Fd.SRV_STATUS_SHKINH n) 1).wr (Fd.SRV_INT_SHOCK n) 1).count (Fd.SRV_CNT3_SHOCKS n) 1).raise (.servo n) 0x1408 3
        [(s1.sv n).shock]) ∧
    ((s.sv n).shockHold = true → exec (.shockHoldEnd n) s =
      .next (((s.wr (Fd.SRV_STATUS_SHKINH n) 0).dropOnt n).updSv n fun v => { v with shockHold := false })) ∧
    (∀ (i : Fin 2) (l : Bool), exec (.shockInputRelease i l) s =
      .next ((((s.shockOver 0 i.val l).shockOver 1 i.val l).shockOver 2 i.val l).shockOver 3 i.val l)) ∧
    (s.mode n = 0 → s.on (Fd.SRV_CTL_FITTED n) = true → s.rd (Fd.SRV_LIM_IMAX n) ≠ 0 → s.rdBit Fd.HSK_TSTAT_COND 5 = false →
      exec (.load n) s = .next ((s.wr (Fd.SRV_STATUS_MODE n) 1).updSv n fun v =>
        { v with load := .offRamp, emf := 4 * (bits v.dieRet 16 8 : Int), phase := .capture, goal := .track, target := none, word := none, words := 0, hop := none, held := false,
                 bank := 0 })) ∧
    (s.mode n = 1 → exec (.loadTimeout n) s =
      .next ((((s.wr (Fd.SRV_INT_LOADERR n) 1).raise (.servo n) 0x1406 5 [s.selHead n]).wr (Fd.SRV_STATUS_MODE n) 5).updSv n fun v =>
        { v with load := .ramp, emf := v.outwardEmf, phase := .none, goal := .none, target := none })) ∧
    exec (.unload n) s = .next (s.unload n) ∧
    exec (.eret n) s = .next (s.retract n 0) ∧
    ((s.sv n).load = .outward → exec (.rampDetect n) s = .next (s.updSv n fun v => { v with load := .park, parkMa := 10 * bits v.dieRet 24 8 })) ∧
    ((s.sv n).load = .park → exec (.parkComplete n) s = .next ((((s.wr (Fd.SRV_STATUS_MODE n) 0).updSv n fun w =>
      { w with load := .none, emf := 0, parkMa := 0, phase := .none, goal := .none, target := none, bank := 0 }).wr (Fd.SRV_INT_PARKED n) 1).settleParked))

/-- R297, R298, R304, R307, R313, R322, R323, R326, R329: zone records load whole or not at all, a query shows one, its flags change by command, the journal
takes its queued records when enabled, programs the oldest where the ring is erased and folds the oldest sector, and the ordering point places an
append at PP, withdraws what did not end, and acts once its zones are quiet. -/
def Obligations.ZonesAndJournalAct : Prop :=
  ∀ (s : State) (n : Fin 4) (z : BitVec 20) (c : Fin 65536),
    (s.loadFault n (s.storeRecs n) = none → exec (.zoneLoad n) s = .next (((s.zput fun u =>
      { u with zones := (parseZones (s.storeRecs n)).foldl (fun t p => tinsert t p.1 p.2) (u.zones.filter fun p => p.2.act != n) }).wr
        (Fd.RCH_ZSTAT_LOADED n) 1).wr (Fd.RCH_ZSTAT_LOADFAIL n) 0)) ∧
    (∀ id e : Nat, s.loadFault n (s.storeRecs n) = some (id, e) → exec (.zoneLoad n) s =
      .next ((((s.wr (Fd.RCH_ZSTAT_LOADED n) 0).wr (Fd.RCH_ZSTAT_LOADFAIL n) 1).wr (Fd.RCH_ZINT_LOADFAIL n) 1).raise (.zone n) 0x0F04 6
        (leBytes 4 id ++ [e]))) ∧
    (∀ v : Bool, ∃ t, exec (.zoneRecovWrite n v) s = .next t ∧ t.rd (Fd.RCH_ZCTL_RECOV n) = b2n v ∧
      ∀ f : Fld, f.key ≠ (Fd.RCH_ZCTL_RECOV n).key → t.rd f = s.rd f) ∧
    (∀ y : Zone, z.toNat < s.rd (Fd.RCH_ZCOUNT_COUNT n) → s.zone? z.toNat = some y → exec (.zoneQuery n z) s =
      .next (((s.wr (Fd.RCH_ZQRY_ZONE n) z.toNat).wr (Fd.RCH_ZQRES_VALID n) 1).wrs [(Fd.RCH_ZQRES_STATE n, y.st.code),
        (Fd.RCH_ZQRES_FLAGS n, y.flags (s.hasRun z.toNat)), (Fd.RCH_ZQRES_OWNED n, b2n (y.act == n)), (Fd.RCH_ZQRES_WP n, y.wp),
        (Fd.RCH_ZQRES_PP n, y.pp)])) ∧
    exec (.zflagClrvfy n z) s = .next ((s.wr (Fd.RCH_ZFLAGOP_ZONE n) z.toNat).setFlags z.toNat fun y => { y with verify := false }) ∧
    exec (.zflagSetrzr n z) s = .next ((s.wr (Fd.RCH_ZFLAGOP_ZONE n) z.toNat).setFlags z.toNat fun y => { y with rzr := true }) ∧
    exec (.journalEnable true) s = .next ((((s.wr (Fd.RCH_JCTL_EN 0) 1).wr (Fd.RCH_JSTAT_FREE 0) s.zone.free).zput fun u =>
      { u with queue := [] }).jIssues s.zone.queue) ∧
    exec (.journalEnable false) s = .next (s.wr (Fd.RCH_JCTL_EN 0) 0) ∧
    (∀ r : JBody, exec (.journalRecordIssue r) s = .next (s.jIssue r)) ∧
    (∀ (r : JRec) (l : List JRec), s.zone.issued = r :: l → s.jOn = true →
      (∀ i : Nat, i < 4 → s.flashWord ((jRegion + jOffset s.zone.head) / 8 + i) = erasedWord) → exec .journalRecordDurable s =
        .next ((((({ s with flash := flashPut s.flash (jRegion + jOffset s.zone.head) r.bytes }.zput fun u =>
          { u with issued := l, head := u.head + 1 }).wr (Fd.RCH_JSTAT_BUSY 0) (b2n (l != []))).jEffect r.body).jMargin).settleVoids)) ∧
    (s.zone.head < s.zone.tail / 128 * 128 + 128 → exec .journalFold s = .next s.jMargin) ∧
    (s.zone.tail / 128 * 128 + 128 ≤ s.zone.head → ∃ t : State, exec .journalFold s =
      .next (t.zput fun u => { u with tail := s.zone.tail / 128 * 128 + 128 }).jMargin ∧
        ∀ a ∈ t.flash, a.1 < jRegion + jOffset (s.zone.tail / 128 * 128) ∨ jRegion + jOffset (s.zone.tail / 128 * 128) + 4096 ≤ a.1) ∧
    (∀ (x : Ctx) (j id i : Nat) (y : Zone), s.ctx? c.val = some x → x.admin = false → x.opcode = 0x7D → x.run = true → x.handed = false →
      x.place = none → x.fwdTo = none → x.bound = none → x.ending = none → x.origin = none → s.nsLocal x.nsid = some j →
      s.zoneOf j x.slba = some (id, y, i) → s.againFirst id x j = false → y.st ≠ .full → y.pp + x.nlb ≤ y.zcap →
      exec (.zoneAppendPlace c) s = .next ((s.advancePP id x.nlb).ctxUpd c.val fun w =>
        { w with dataIn := true, again := none, place := some (id, y.pp, x.nlb), lba := 65536 * (x.slba / 65536) + y.pp,
                 res0 := (65536 * (x.slba / 65536) + y.pp) % 2 ^ 32, res1 := (65536 * (x.slba / 65536) + y.pp) / 2 ^ 32 })) ∧
    (s.zone.due.contains z.toNat = true → exec (.placementWithdraw z) s =
      .next ((s.zput fun u => { u with due := u.due.filter (· != z.toNat) }).withdrawAll z.toNat)) ∧
    (∀ x : Ctx, s.host.sanWait = none → s.ctx? c.val = some x → x.run = true → x.handed = false → x.jwait = [] → x.admin = false → x.opcode = 0x79 →
      s.zonesQuiet (s.actionZones x).1 (s.actionZones x).2 = true → exec (.zoneActionEffect c) s = .next (s.actNow c.val x))

/-- R335, R340 to R346, R614: a doorbell moves its queue's tail; a fetch takes the entry at the head of the queue that the arbitration grants, and no other; a held command that nothing holds back is admitted;
an admitted one is bound where its head is in service and the
media scheduler takes it; a command past its class limit is stopped with its limit status; a complete one is posted
and its contexts return to the pool; and firmware's writes take their effect. -/
def Obligations.HostQueuesAct : Prop :=
  ∀ (s : State) (c : Fin 65536) (x : Ctx),
    (∀ (i : Fin 2) (q : Fin 129) (d : BitVec 16) (y : Sq), s.sq? i q.val = some y → (s.ctrl i).en = true → d.toNat < y.size →
      exec (.sqDoorbell i q d) s = .next (s.sqUpd i q.val fun q => { q with tail := d.toNat })) ∧
    (∀ (i : Fin 2) (q : Fin 129) (e : Sqe) (y : Sq) (t : State) (d : Nat) (left : Nat), s.sq? i q.val = some y →
      s.granted = some (i, q.val, left) →
      State.takeCtxs (((s.sqUpd i q.val fun q => { q with head := (q.head + 1) % q.size }).hput fun h =>
        { h with fetches := h.fetches + 1, psNow := if q.val ≠ 0 ∧ 2 ≤ h.psNow then h.psOper else h.psNow }).noteGrant i q.val left y.cls)
        (Ctx.fresh e q.val i y.cls s.time s.host.fetches none) (s.pieces (Ctx.fresh e q.val i y.cls s.time s.host.fetches none)) = (t, some d) →
      exec (.sqFetch i q e) s = .next ((t.notePool s.poolFree).route d)) ∧
    (∀ (i : Fin 2) (q : Fin 129) (e : Sqe) (y : Sq) (i' : Fin 2) (q' : Nat) (left : Nat), s.sq? i q.val = some y →
      s.granted = some (i', q', left) → i' ≠ i ∨ q' ≠ q.val → exec (.sqFetch i q e) s = .next s) ∧
    (∀ j : Nat, s.ctx? c.val = some x → x.st = .held → x.handed = false → s.isPart c.val = false → s.on Fd.INT_STATUS_PAUSED = false →
      s.fenced x = false → x.fwdTo = none → x.byNs = true → s.nsLocal x.nsid = some j → s.rdBit Fd.INT_NSREADY_READY (j - 1) = true →
      s.host.sanitize = false → x.media = false → exec (.contextAdmit c) s = .next (s.admitCtx c.val x)) ∧
    (∀ n : Fin 4, s.ctx? c.val = some x → s.bindable n x = true → s.serviceStatus x = none → s.scheduled n x = true →
      exec (.contextBind c n) s = .next ((s.noteBind n x).ctxUpd c.val fun y => { y with st := .bound, bound := some n })) ∧
    (∀ n : Fin 4, s.ctx? c.val = some x → s.bindable n x = true → s.serviceStatus x = none → s.scheduled n x = false →
      exec (.contextBind c n) s = .next s) ∧
    (s.ctx? c.val = some x → x.deadline ≠ 0 → x.deadline ≤ s.time → x.handed = false → x.bound ≠ none → x.opcode = 0x02 → x.writes = false →
      exec (.classLimitExpiry c) s = .next (((s.linked (s.headOf c.val 8) 8).foldl (fun t d => t.ctxUpd d fun y => { y with jwait := [] })
        ((s.wr Fd.INT_INT_LIMIT 1).raise .intake 0x0302 5 (leBytes 2 c.val ++ leBytes 2 x.cid ++ [x.sq, x.ctl.val, 0]))).endEarlyAll
          (s.headOf c.val 8) (.complete 2 0x81))) ∧
    (∀ sct sc : Nat, s.ctx? c.val = some x → s.isPart c.val = false → s.complete? c.val = true → x.origin = none → (s.ctrl x.ctl).linkHeld = false →
      s.finalStatus c.val = (sct, sc) → x.failedZone = none → exec (.completionPost c) s =
        .next (((s.postCqe x sct sc).freeAll (s.linked c.val 8)).settleDeletes)) ∧
    (∀ v : BitVec 5, s.host.sanAgain = false → exec (.nsreadyWrite v) s = .next (s.wr Fd.INT_NSREADY_READY v.toNat)) ∧
    (∀ v : Bool, exec (.intakeEnable v) s = .next (s.wr Fd.INT_CTL_EN (b2n v)).settleReady)

/-- R37, R38, R299, R303, R307, R312, R337, R347 to R349, R361: what the intake carries out for an admitted I/O command over blocks that its namespace
has: a read resolves each of its parts, a write, an append or a write of zeroes is accepted once its checks pass, a verify reads without moving
data, a flush succeeds at once, a fence waits for what its queue fetched before it, a report answers its zones, and a zone action is
carried out or waits for its zones. -/
def Obligations.IoCommandsAct : Prop :=
  ∀ (s : State) (c : Fin 65536) (x : Ctx) (j : Nat), s.nsLocal x.nsid = some j → x.slba + x.nlb ≤ s.nsSize j → x.nlb ≤ 256 →
    (s.ioWaits c.val 0x02 x → exec (.read c) s = .next (s.readBlocks c.val x true j)) ∧
    (∀ pi : Fin 4, s.ioWaits c.val 0x01 x → s.hasPi j = false ∨ pi = 0 → exec (.write c pi) s = .next (s.writeBlocks c.val x j)) ∧
    (s.ioWaits c.val 0x08 x → exec (.writeZeroes c) s = .next ((s.zeroBuffers c.val).writeBlocks c.val x j)) ∧
    (s.ioWaits c.val 0x0C x → exec (.verify c) s = .next (s.readBlocks c.val x false j)) ∧
    (s.ioWaits c.val 0x00 x → exec (.flush c) s = .next (s.succeed c.val)) ∧
    (s.ioWaits c.val 0x81 x → (s.host.ctxs.any fun p => p.2.ctl == x.ctl && p.2.sq == x.sq && p.2.origin.isNone && p.2.ord < x.ord) = false →
      exec (.orderingFence c) s = .next (s.succeed c.val)) ∧
    (s.ioWaits c.val 0x7A x → s.nsZoned j = true → x.slba < s.nsSize j → ∃ l : List Nat, l.length = 4 * (x.dw 12 + 1) ∧
      exec (.reportZones c) s = .next (s.answerData c.val x l)) ∧
    (∀ (pi : Fin 4) (id d : Nat) (z : Zone) (t : State), s.ioWaits c.val 0x7D x → s.nsZoned j = true → s.hasPi j = false ∨ pi = 0 →
      s.serviceStatus x = none → s.zoneOf j x.slba = some (id, z, d) → s.zoneHeld id = false → z.check true d x.nlb = none →
      s.openFor id z false = .ok t → exec (.zoneAppend c pi) s = .next (t.updAll c.val fun y => { y with run := true })) ∧
    (s.ioWaits c.val 0x79 x → s.nsZoned j = true → x.slba < s.nsSize j → x.slba % 65536 = 0 →
      (x.dw 13 % 256 = 3 → bit (x.dw 13) 8 = false → ∀ t : State, s.openZone (s.nsFirst j + x.slba / 65536) = .ok t →
        exec (.zoneOpen c) s = .next (t.succeed c.val)) ∧
      (x.dw 13 % 256 = 1 → exec (.zoneClose c) s = .next (s.ctxUpd c.val fun y => { y with run := true })) ∧
      (x.dw 13 % 256 = 2 → exec (.zoneFinish c) s = .next (s.ctxUpd c.val fun y => { y with run := true })) ∧
      (x.dw 13 % 256 = 4 → exec (.zoneReset c) s = .next (s.ctxUpd c.val fun y => { y with run := true })) ∧
      (x.dw 13 % 256 = 5 → exec (.zoneOffline c) s = .next (s.ctxUpd c.val fun y => { y with run := true })))

/-- R330, R339, R341, R351, R352, R354, R356, Table 10.3: an admin command on a queue creates it, or deletes it once nothing uses it; an abort ends an
abortable command with SC 0x07; and up to 8 event requests wait. -/
def Obligations.AdminQueueCommandsAct : Prop :=
  ∀ (s : State) (c : Fin 65536) (x : Ctx) (q n v : Nat), q = bits (x.dw 10) 0 16 → n = bits (x.dw 10) 16 16 → v = bits (x.dw 11) 16 16 →
    (s.admWaits c.val 0x01 x → 0 < q → q ≤ 128 → s.sq? x.ctl q = none → 0 < n → n ≤ 4095 → bit (x.dw 11) 0 = true →
      ((s.ctrl x.ctl).cqs.any fun p => p.1 == v && p.1 != 0) = true → 1024 + s.rd Fd.INT_SCHED_RESERVE ≤ s.poolSize →
      exec (.createIoSq c) s = .next ((s.ctrlUpd x.ctl fun t =>
        { t with sqs := tinsert t.sqs q ⟨v, n + 1, prioClass (bits (x.dw 11) 1 2), 0, 0, s.rd Fd.INT_SCHED_RESERVE⟩ }).succeed c.val)) ∧
    (s.admWaits c.val 0x05 x → 0 < q → q ≤ 128 → ((s.ctrl x.ctl).cqs.any fun p => p.1 == q) = false → 0 < n → n ≤ 4095 → bit (x.dw 11) 0 = true →
      v ≤ 129 → exec (.createIoCq c) s = .next ((s.ctrlUpd x.ctl fun t =>
        { t with cqs := tinsert t.cqs q ⟨n + 1, 0, v, bit (x.dw 11) 1⟩ }).succeed c.val)) ∧
    (∀ y : Sq, s.admWaits c.val 0x00 x → 0 < q → s.sq? x.ctl q = some y → exec (.deleteIoSq c) s =
      .next ((((s.ctxUpd c.val fun y => { y with run := true }).sqUpd x.ctl q fun y => { y with tail := y.head }).cmdsOf x.ctl (some q)).foldl
        (fun t p => t.endCmd p.1 (.complete 0 0x08))
        ((s.ctxUpd c.val fun y => { y with run := true }).sqUpd x.ctl q fun y => { y with tail := y.head })).settleDeletes) ∧
    (s.admWaits c.val 0x04 x → 0 < q → ((s.ctrl x.ctl).cqs.any fun p => p.1 == q) = true → ((s.ctrl x.ctl).sqs.any fun p => p.2.cq == q) = false →
      exec (.deleteIoCq c) s = .next ((s.ctrlUpd x.ctl fun t => { t with cqs := terase t.cqs q }).succeed c.val)) ∧
    (∀ (d : Nat) (y : Ctx), s.admWaits c.val 0x08 x → (s.ctrl x.ctl).aborts < 8 →
      ((s.cmdsOf x.ctl (some q)).find? fun p => !p.2.admin && p.2.cid == n) = some (d, y) → y.fwdTo = none → s.abortable d = true →
      exec (.abort c) s = .next ((s.endEarlyAll d (.complete 0 0x07)).answerDw c.val 0)) ∧
    (s.admWaits c.val 0x0C x → (s.ctrl x.ctl).aers.length < 8 → exec (.asyncEventRequest c) s =
      .next (((s.ctxUpd c.val fun y => { y with run := true }).ctrlUpd x.ctl fun t => { t with aers := t.aers ++ [c.val] }).meetAer x.ctl 8))

/-- R338, R358, R359, R363 to R366, R597, R599, R616, Table 10.8: log pages and identify data answer the host; a feature is set and read back; an image
is downloaded, staged and activated; an activation ends with its image running and fetching resumed; a Format or a Sanitize starts once its
namespaces are released; and security commands move the trust unit's data. -/
def Obligations.AdminDataCommandsAct : Prop :=
  ∀ (s : State) (c : Fin 65536) (x : Ctx),
    (s.admWaits c.val 0x02 x → bits (x.dw 11) 0 16 * 64 + bits (x.dw 10) 16 16 / 1024 ≤ 255 → memberPage (x.dw 10 % 256) = false →
      exec (.getLogPage c) s = .next (s.ownPage c.val x (x.dw 10 % 256))) ∧
    (∀ l : List Nat, s.admWaits c.val 0x06 x → s.identify x s.freeVal = .ok l → exec (.identify c) s = .next (s.tookFree.answerData c.val x l)) ∧
    (s.admWaits c.val 0x09 x → x.dw 10 = 0x0B → exec (.setFeatures c) s = .next ((s.ctlFeature x.ctl 0x0B (x.dw 11)).succeed c.val)) ∧
    (s.admWaits c.val 0x0A x → x.dw 10 = 0x0B → exec (.getFeatures c) s = .next (s.answerDw c.val (s.featNow x 0x0B (x.dw 11)))) ∧
    (∀ d : List (BitVec 8), s.admWaits c.val 0x11 x → 4 * x.dw 11 + 4 * (x.dw 10 + 1) ≤ 0x800000 → exec (.firmwareImageDownload c d) s =
      .next ((s.hput fun h => { h with fwBuf := putBuf h.fwBuf (4 * x.dw 11) (d.take (4 * (x.dw 10 + 1))) }).succeed c.val)) ∧
    (s.admWaits c.val 0x10 x → bits (x.dw 10) 3 3 = 2 → x.dw 10 % 8 ≤ 2 → exec (.firmwareCommit c true) s =
      .next (((s.wr Fd.TRU_BOOTSEL_SLOT (s.commitSlot x)).putImage (s.commitSlot x) true).succeed c.val)) ∧
    (s.admWaits c.val 0x10 x → bits (x.dw 10) 3 3 = 3 → x.dw 10 % 8 ≤ 2 → s.allReleased = true → s.host.activation = none →
      exec (.firmwareActivate c) s = .next ((((s.wr Fd.TRU_BOOTSEL_SLOT (s.commitSlot x)).putImage (s.commitSlot x) true).ctxUpd c.val fun y =>
        { y with run := true }).activate (some c.val))) ∧
    (∀ (d t0 : Nat), s.host.activation = some (some d, t0) → ∃ u : State,
      exec .activationEnd s = .next (((four.foldl (fun t n => t.engQuiesce n false) u).noticeAll 11 2 0x03 0x0C).succeed d) ∧
      u.rd Fd.TRU_BOOTSEL_RUNNING = b2n s.host.fwB.staged ∧ u.rd Fd.INT_STATUS_PAUSED = 0 ∧ u.host.activation = none) ∧
    (s.admWaits c.val 0x80 x → s.namedNs x.nsid ≠ [] → x.dw 10 = 1 →
      ((s.namedNs x.nsid).all fun j => s.rdBit Fd.INT_NSREADY_READY (j - 1)) = true → s.host.sanitize = false → exec (.formatNvm c) s =
        .next (((s.namedNs x.nsid).foldl (fun t j => (t.wr (Fd.INT_NSCFG_LBAF j) 1).wr (Fd.INT_NSCFG_PIT j) 0)
          (s.ctxUpd c.val fun y => { y with run := true })).nsChanged (s.namedNs x.nsid))) ∧
    (s.admWaits c.val 0x84 x → x.dw 10 % 8 = 4 → s.allReleased = true → s.host.sanitize = false → exec (.sanitize c) s =
      .next ((s.startSanitize (some c.val)).succeed c.val)) ∧
    (∀ (d : List (BitVec 8)) (o : Session), s.admWaits c.val 0x81 x → x.dw 10 / 2 ^ 24 = 1 → d ≠ [] → exec (.securitySend c d o) s =
      .next ((s.setSession o).succeed c.val)) ∧
    (s.admWaits c.val 0x82 x → x.dw 10 / 2 ^ 24 = 0 → exec (.securityReceive c) s =
      .next (s.answerData c.val x (([0, 0, 0, 0, 0, 0, 0, 2, 0, 1] ++ List.replicate (x.dw 11) 0).take (x.dw 11))))

/-- R339, R355, R357, R360, R363, R613, R614, R629: enabling a controller over a link that is up creates its admin queues; a reset, an abrupt shutdown, a link
held down too long or PERST from P4 on resets it; a normal shutdown stops its fetching; a link trains where its port may, and is held when it falls;
and a power state is asked for. -/
def Obligations.ControllerEventsAct : Prop :=
  ∀ (s : State) (i : Fin 2),
    ((s.ctrl i).en = false → s.ctrlHere i = true → s.on (Fd.PORT_PCTL_LINKUP i.val) = true → exec (.ccEnSet i) s = .next (s.ctrlUpd i fun c => { c with
      en := true, cqs := [(0, ⟨4096, 0, 0, true⟩)], sqs := [(0, ⟨0, 4096, .admin, 0, 0, s.rd Fd.INT_SCHED_RESERVE⟩)] }).settleReady) ∧
    exec (.controllerReset i false) s = .next (s.ctrlReset i 0).activateStaged ∧
    exec (.controllerReset i true) s = .next ((s.ctrlReset 0 3).ctrlReset 1 3).activateStaged ∧
    (∃ t, exec (.shutdownNormal i) s = .next t ∧ (t.ctrl i).stopped = true ∧ (t.ctrl i).shst = 1 ∧ (∀ f, t.rd f = s.rd f) ∧ s.onlyAt t [.host]) ∧
    exec (.shutdownAbrupt i) s = .next ((s.ctrlReset i 0).ctrlUpd i fun c => { c with en := (s.ctrl i).en, stopped := true, shst := 1 }) ∧
    (s.on (Fd.PORT_PCTL_LINKUP i.val) = true → s.ctrlHere i = true → s.rd (Fd.PORT_PCTL_HOLD_S i.val) ≠ 0 → exec (.portLinkDown i) s =
      .next ((((s.linkOff i).wr (linkDnFld i) 1).raise (.hostPort i) 0x0304 4 [i.val]).ctrlUpd i fun c => { c with linkHeld := true })) ∧
    (s.on (Fd.PORT_PCTL_LINKUP i.val) = true → s.ctrlHere i = true → s.rd (Fd.PORT_PCTL_HOLD_S i.val) = 0 → exec (.portLinkDown i) s =
      .next ((((s.linkOff i).wr (linkDnFld i) 1).raise (.hostPort i) 0x0304 4 [i.val]).ctrlReset i 0).activateStaged) ∧
    (∀ sp w : Fin 8, s.on (Fd.PORT_PCTL_EN i.val) = true → s.ctrlHere i = true → s.perstLow i = false → 1 ≤ sp.val → sp.val ≤ 5 →
      w = 1 ∨ w = 2 ∨ (w = 4 ∧ s.on Fd.INT_CTL_X4 = true) → exec (.portLinkUp i sp w) s =
        .next ((s.wrs [(Fd.PORT_PCTL_LINKUP i.val, 1), (Fd.PORT_PCTL_SPEED i.val, sp.val), (Fd.PORT_PCTL_WIDTH i.val, w.val)]).ctrlUpd i
          fun c => { c with linkHeld := false })) ∧
    ((s.ctrl i).linkHeld = true → exec (.linkHoldExpiry i) s = .next (s.ctrlReset i 0).activateStaged) ∧
    (∀ u : State, u = { s with power := if i = 0 then { s.power with perst0 := true } else { s.power with perst1 := true } } →
      s.ctrlHere i = true → 4 ≤ s.rd Fd.HSK_START_PHASE → exec (.perstAssert i) s = .next (((u.linkOff i).ctrlReset i 0).activateStaged)) ∧
    exec (.perstRelease i) s = .next { s with power := if i = 0 then { s.power with perst0 := false } else { s.power with perst1 := false } } ∧
    (∀ p : Fin 5, s.ctrlHere i = true → exec (.apstTransition i p) s = .next (s.askPs i p.val))

/-- R368 to R387, R397: a request to mapped DRAM waits its turn; a fill becomes valid; the oldest dirty unit is written back and its entry leaves with the
last; disabling drains, drained invalidates every line and raises DRAINED, and enabling starts with none. -/
def Obligations.StageCommandsAct : Prop :=
  ∀ (s : State),
    (∀ (r : Fin 64) (a : BitVec 40) (n : Fin 257) (be : BitVec 256), granuleOk (unalias a.toNat) n.val = true → s.inDram (unalias a.toNat) = true →
      exec (.stageRequest r a n none be) s = .next (State.retry { s with answer := [] } []
        (s.stage.waiting ++ s.parts ⟨r.val, unalias a.toNat, n.val, none, be.toNat % 2 ^ n.val, s.allocates r.val, false, false⟩))) ∧
    (∀ (a : BitVec 40) (t : State) (l : List Nat), s.inDram (unalias a.toNat) = true →
      ((s.inArray (s.lineOf (unalias a.toNat))).any fun p => bit p.2.filling (s.unitOf (unalias a.toNat))) = true →
      State.memLoad { s with answer := [] } (((s.firstFor (s.lineOf (unalias a.toNat)) (s.unitOf (unalias a.toNat))).map StgReq.r).getD 0)
        (dramBase + s.lineOf (unalias a.toNat) * s.lineSize + s.unitOf (unalias a.toNat) * s.unitSize) s.unitSize = (t, some l) →
      exec (.stageFillDone a) s = .next ((t.filled (s.lineOf (unalias a.toNat)) (s.unitOf (unalias a.toNat)) true).retry [] s.stage.waiting)) ∧
    (∀ (b : Option (Fin 32)) (l : StgLine) (rest : List StgLine) (u : Nat), s.walk.stage.wb = l :: rest → lowDirty l.dirty 0 16 = some u →
      ∃ t : State, exec (.writebackIssue b) s = .next (t.retry [] s.walk.stage.waiting) ∧ t.answer = [] ∧
        t.stage.wb = if clrBit l.dirty u = 0 then rest else { l with dirty := clrBit l.dirty u } :: rest) ∧
    (s.stgState = 1 → exec .stageDisable s = .next ((s.wr Fd.STG_CTL_EN 0).wr Fd.STG_CTL_STATE 2)) ∧
    (s.stgState = 2 → exec .stageDisable s = .next { s.wr Fd.STG_CTL_EN 0 with stage := { s.stage with enHeld := false } }) ∧
    (s.stgState = 2 → s.anyDirty = false → s.stage.enHeld = false → exec .stageDrained s =
      .next (State.retry { (s.wr Fd.STG_CTL_STATE 0).wr Fd.STG_INT_DRAINED 1 with
        stage := { s.stage with sets := [], eddy := [], wb := [], enHeld := false }, answer := [] } [] s.stage.waiting)) ∧
    (s.stgState = 0 → exec .stageEnable s =
      .next { (s.wr Fd.STG_CTL_EN 1).wr Fd.STG_CTL_STATE 1 with stage := { s.stage with sets := [], eddy := [], wb := [] } }) ∧
    (s.stgState = 2 → exec .stageEnable s = .next { s.wr Fd.STG_CTL_EN 1 with stage := { s.stage with enHeld := true } })

/-- R390 to R406: a write of a word of memory stores its enabled bytes and is acknowledged, and one into a region
table makes it invalid (R82); a word elsewhere answers a bus error; a read joins the error
that has struck and corrects or reports; a bucket leaks one credit for each boundary of its
windows that has passed; a scrub step scrubs one word; the fill leaves all memory zeros; and MEM.INJ is
armed by the watch core alone. -/
def Obligations.MemoryCommandsAct : Prop :=
  ∀ (s : State),
    (∀ (w : BitVec 37) (v : BitVec 64) (be : BitVec 8), s.isMem (8 * w.toNat) 8 = true → tableOf (8 * w.toNat) = none → exec (.memWrite w v be) s =
      .next ((s.memPut w.toNat v.toNat be.toNat).reply 0)) ∧
    (∀ (w : BitVec 37) (v : BitVec 64) (be : BitVec 8) (n : Fin 4) (h : Nat), s.isMem (8 * w.toNat) 8 = true → tableOf (8 * w.toNat) = some (n, h) →
      exec (.memWrite w v be) s = .next (((s.memPut w.toNat v.toNat be.toNat).reply 0).dropTable n h)) ∧
    (∀ (w : BitVec 37) (v : BitVec 64) (be : BitVec 8), s.isMem (8 * w.toNat) 8 = false → inFactoryRow w.toNat = false → exec (.memWrite w v be) s =
      .next s.busError) ∧
    (∀ (r : Fin 64) (a : BitVec 40) (n : Fin 257) (x : BitVec 80) (t : State) (l : Option (List Nat)), n.val ≠ 0 → s.isMem a.toNat n.val = true →
      (s.setErr (a.toNat / 8) (s.err (a.toNat / 8) ^^^ x.toNat)).memLoad r.val a.toNat n.val = (t, l) →
      exec (.memRead r a n x) s = .next (State.answerLoad { t with answer := [] } l)) ∧
    (∀ m : Fin 2, s.leaksDue m.val = 0 → exec (.bucketLeak m) s = .next s) ∧
    (∀ m : Fin 2, s.leaksDue m.val ≠ 0 → ∃ t, exec (.bucketLeak m) s = .next t ∧
      t.rd (Fd.MEM_BKT_LEVEL m.val) = (s.rd (Fd.MEM_BKT_LEVEL m.val) - s.leaksDue m.val) % 2 ^ 8 ∧ t.leaksDue m.val = 0 ∧
      ∀ f : Fld, f.key ≠ (Fd.MEM_BKT_LEVEL m.val).key → t.rd f = s.rd f) ∧
    (∀ x : BitVec 80, s.on Fd.MEM_CTL_SCRUB_S = true → exec (.scrubStep false x) s = .next (s.scrubSram x.toNat)) ∧
    (∀ x : BitVec 80, s.on Fd.MEM_CTL_SCRUB_D = true → s.dramSize ≠ 0 → s.host.psNow ≠ 4 → exec (.scrubStep true x) s = .next (s.scrubDram x.toNat)) ∧
    (s.rd Fd.HSK_START_PHASE = 3 → exec (.memoryFill none) s = .next
      ((((State.syncLog { s with mem := [], memc := MemUnit.reset } { s.evr with slots := [] }).wr Fd.MEM_STATUS_FILLED_S 1).wr
        Fd.MEM_STATUS_FILLED_D 1).enterP4)) ∧
    (∀ v : BitVec 64, exec (.memInjArm .watch v) s = .next (((s.wr Fd.MEM_INJ_ARM (bits v.toNat 0 1)).wr Fd.MEM_INJ_ADDR (bits v.toNat 3 37)).wr
      Fd.MEM_INJ_CHKFLIP (bits v.toNat 40 16))) ∧
    (∀ (r : Requester) (v : BitVec 64), r ≠ .watch → exec (.memInjArm r v) s = .next s)

/-- R22, R407 to R416, R574: a packet is sent on a credit and passed on in turn; a withheld credit stalls one attempt; a message of a kind that needs a slot
of a peer goes when a credit returns; relayed traffic keeps to its own slots; a credit awaited too long raises STALL and strikes its sender; and a SYNC
of a core covers the writes outstanding of the named requesters and is done once they have arrived. -/
def Obligations.WeirCommandsAct : Prop :=
  ∀ (s : State),
    (∀ (r : Fin 64) (w : Bool), s.credit? r.val .c w = true → exec (.weirPacket .stage true r .c w) s =
      .next ((s.weirPut fun z => { z with packets := z.packets ++ [⟨r.val, .c, w⟩] }).useSlot .c w true)) ∧
    (∀ (r : Fin 64) (k : WeirClass) (w : Bool), s.credit? r.val k w = false → exec (.weirPacket .stage true r k w) s =
      .next (s.weirPut fun z => { z with withheld := z.withheld.filter (· != r.val) })) ∧
    (∀ (r : Fin 64) (k : WeirClass) (w : Bool) (p : Packet), s.weir.pick = some p → exec (.weirPacket .stage false r k w) s =
      .next ((s.weirPut fun z => { z with
        packets := z.packets.erase p, lastD := if p.cls = .d then true else if p.cls = .q then false else z.lastD,
        writes := if p.cls = .d ∧ p.write then arrive p.r z.writes else z.writes }).useSlot p.cls p.write false)) ∧
    (∀ (q : Fin 4) (i : Fin 5) (r : Fin 64) (k : WeirClass) (w : Bool), (s.cfx.held.find? fun m => m.waitsFor q.val i.val) = none →
      exec (.weirPacket (.link q i) false r k w) s = .next (s.cfxUpd fun c => { c with flight := c.flight.erase (q.val, i.val) })) ∧
    (∀ (q : Fin 4) (i : Fin 5) (r : Fin 64) (k : WeirClass) (w : Bool) (m : CMsg), s.cfx.held.find? (fun m => m.waitsFor q.val i.val) = some m →
      (s.cfx.flight.erase (q.val, i.val)).count (q.val, i.val) < slotsKept i.val → ∃ t, exec (.weirPacket (.link q i) false r k w) s = .next t ∧
        t.cfx.sent = s.cfx.sent ++ [m] ∧ t.cfx.held = s.cfx.held.erase m ∧
        t.cfx.flight = (q.val, i.val) :: s.cfx.flight.erase (q.val, i.val) ∧ s.onlyAt t [.cfx]) ∧
    (∀ (a b : Fin 4) (r : Fin 64) (k : WeirClass) (w : Bool), a ≠ b → s.pos ≠ a.val → s.pos ≠ b.val → a.val < s.members → b.val < s.members →
      classNum k ≤ 2 → s.cfx.relays.count (a.val, b.val, classNum k) < 1 + Config.relaySlots (classNum k) →
      exec (.weirPacket (.relay a b) true r k w) s = .next (s.cfxUpd fun c => { c with relays := (a.val, b.val, classNum k) :: c.relays })) ∧
    (∀ (r : Fin 48) (u : UnitRef) (t : State), requesterUnit r.val = some u →
      t = ((s.wr Fd.WEIR_INT_STALL 1).count Fd.WEIR_CNT_STALLS 1).raise .weir 0x0501 4 [r.val, 1] → t.watchesElems u = true →
      exec (.weirStall r .d) s = .next (t.tookFree.expiryWindow.elementExpired u (s.freeVal % 65536))) ∧
    (∀ m : BitVec 48, s.on (Fd.WEIR_SYNC_DONE 4) = true → exec (.weirSync .watch 4 m) s =
      .next (((s.wr (Fd.WEIR_SYNC_MASK 4) m.toNat).wr (Fd.WEIR_SYNC_DONE 4) 0).weirPut fun w =>
        { w with syncs := (w.syncs.filter fun y => y.1 != 4) ++ [(4, (s.weir.writes.filter fun w => bit m.toNat w.2).map Prod.fst)] })) ∧
    (∀ k : Fin 5, (s.weir.syncs.any fun y => y.1 == k.val && y.2.all fun i => !(s.weir.writes.any fun w => w.1 == i)) = true →
      exec (.weirSyncDone k) s = .next ((s.wr (Fd.WEIR_SYNC_DONE k.val) 1).weirPut fun w => { w with syncs := w.syncs.filter fun y => y.1 != k.val }))

/-- R417 to R429: GO on a free channel starts its chain and on one that runs is refused; STOP stops it and RESUME takes a suspended one up; a running
channel fetches its descriptors and makes their accesses; a descriptor done sets DONE and its tag where it asks, and the last ends the chain;
and an engine's sector moves through its channel. -/
def Obligations.SluiceCommandsAct : Prop :=
  ∀ (s : State) (c : Fin 32),
    (s.sluTaken c.val = false → s.sluState c.val ≠ 1 → exec (.sluiceGo c) s = .next (s.sluStart c.val none)) ∧
    (s.sluState c.val = 1 → exec (.sluiceGo c) s = .next (s.wr (Fd.SLC_CHSTAT_REFUSED c.val) 1)) ∧
    exec (.sluiceStop c) s = .next (s.sluStop c.val) ∧
    (s.sluTaken c.val = false → s.sluState c.val = 3 → s.on Fd.SLC_CTL_EN = true → exec (.sluiceResume c) s =
      .next (s.wr (Fd.SLC_CHSTAT_STATE c.val) 1)) ∧
    (∀ (t : State) (d : List Nat), s.sluRuns c.val = true → s.takesWork .sluice = true → (s.slu c.val).cur = none →
      s.descAt c.val (32 * s.rd (Fd.SLC_CHCUR_ADDR c.val)) = (t, some d) → exec (.sluiceDescFetch c) s = .next (t.sluCurrent c.val d)) ∧
    (∀ t : State, s.sluRuns c.val = true → s.takesWork .sluice = true → (s.slu c.val).cur = none →
      s.descAt c.val (32 * s.rd (Fd.SLC_CHCUR_ADDR c.val)) = (t, none) → exec (.sluiceDescFetch c) s = .next (t.sluError c.val 1)) ∧
    ((s.sluice.xfers.find? fun x => 24 + 2 * x.n.val == c.val) = none → s.sluWaits c.val = false → exec (.sluiceAccess c) s =
      .next (State.sluAccess State.sluBusRead State.sluBusWrite s c.val)) ∧
    (∀ d : List Nat, (s.slu c.val).cur = some d → s.sluState c.val = 1 → descCount d ≤ (s.slu c.val).wpos → descInt d = true → descLast d = true →
      exec (.sluiceDescDone c) s = .next ((((((s.sluOverlap (s.slu c.val).orig).setB Fd.SLC_DONE_DONE c.val).wr (Fd.SLC_CHTAG_TAG c.val)
        (descTag d)).wr (Fd.SLC_CHSTAT_STATE c.val) 0).sluOwnerEnds c.val false).updSlu c.val fun _ => SluChan.reset)) ∧
    (∀ n : Fin 4, s.on Fd.SLC_CTL_EN = true → exec (.sluiceSectorXfer n true) s = .next (s.xferWrite n)) ∧
    (∀ (n : Fin 4) (x : SecXfer), s.on Fd.SLC_CTL_EN = true → (s.sluice.xfers.find? fun x => x.n == n) = some x →
      exec (.sluiceSectorXfer n false) s = .next (s.xferRead x))

/-- R432 to R436: a push joins the item gathered and the last word enters it whole, or drops it whole where it does not fit; a pop gives the oldest word
and its tag, and 0 with EMPTY from an empty queue; a flush leaves one marker; and words move between the windows and the middle. -/
def Obligations.BackwaterCommandsAct : Prop :=
  ∀ (s : State) (q : Fin 256),
    (∀ w : BitVec 64, s.on Fd.BKW_CTL_EN = true → exec (.bkwPush q w) s =
      .next (s.putQueue q.val { s.queue q.val with asm := (s.queue q.val).asm ++ [w.toNat] })) ∧
    (∀ (w : BitVec 64) (l : List Nat), s.on Fd.BKW_CTL_EN = true → l = (s.queue q.val).asm ++ [w.toNat] →
      exec (.bkwPushl q w) s = .next (
        if l.length ≤ 16 ∧ (s.queue q.val).words + l.length ≤ queueMax then
          (s.putQueue q.val { s.queue q.val with asm := [] }).bkwEnterAll q.val (tagItem l.length l)
        else (s.putQueue q.val { s.queue q.val with asm := [] }).dropItem q.val l.length false)) ∧
    (∀ w : BitVec 64, s.on Fd.BKW_CTL_EN = false → exec (.bkwPush q w) s = .next s ∧ exec (.bkwPushl q w) s = .next s) ∧
    (∀ b : Bool, (s.queue q.val).head = [] → (s.queue q.val).mid = [] → exec (.bkwPop q b) s =
      .next ((s.wr (Fd.BKW_QSTAT_TAG q.val) 16).reply 0)) ∧
    (∀ (w : BWord) (l : List BWord), (s.queue q.val).head = w :: l → exec (.bkwPop q false) s =
      .next (((s.putQueue q.val (BQueue.direct { s.queue q.val with head := l })).wr (Fd.BKW_QSTAT_TAG q.val) w.tag).reply w.v)) ∧
    exec (.bkwFlush q) s = .next (s.putQueue q.val
      { BQueue.empty with head := [⟨(s.queue q.val).words + (s.queue q.val).asm.length, false, false, false, true⟩] }) ∧
    (∀ b : BitVec 8, 8 ≤ (s.queue q.val).tail.length → (s.queue q.val).mid ≠ [] ∨ (s.queue q.val).head.length = 16 →
      exec (.bkwSpill q b) s = .next (s.spill q.val b.toNat)) ∧
    ((s.queue q.val).head.length ≤ 8 → (s.queue q.val).mid ≠ [] → exec (.bkwRefill q) s = .next (s.refill q.val))

/-- R443 to R458, Table 14.5: a read of a flash word answers it, or a bus error for a sector being erased or a word past correction; a program and an
erase are issued where the array takes them and end with their buffers dropped; a copy of a retired sector completes; an operation is suspended and
resumed; and lock bits are only set. -/
def Obligations.FlashCommandsAct : Prop :=
  ∀ (s : State) (b : Fin 2),
    (∀ (w : BitVec 23) (f : Bool) (e : Fin 3), s.erasing (w.toNat / 512) = true → exec (.cflRead w f e) s = .next s.busError) ∧
    (∀ (w : BitVec 23) (f : Bool), s.erasing (w.toNat / 512) = false → s.cfl.abandoned.contains (w.toNat / 512) = false →
      s.cfl.badWords.contains w.toNat = false → exec (.cflRead w f 0) s = .next ((s.fillLines (w.toNat / 8) f).reply (s.flashWord w.toNat))) ∧
    (∀ (w : BitVec 23) (f : Bool), s.erasing (w.toNat / 512) = false → s.cfl.abandoned.contains (w.toNat / 512) = false →
      s.lineHit (w.toNat / 8) f = false → exec (.cflRead w f 2) s =
        .next ((((s.count Fd.CFL_CNT0_UE 1).wr Fd.CFL_INT_UE 1).raise .flash 0x0B01 6 (leBytes 4 (8 * w.toNat))).busError)) ∧
    (s.flashTakes = true → exec (.cflProgram b) s = .next (s.issue b.val ⟨false, 8 * s.rd (Fd.CFL_ADDR_WORD b.val),
      (List.range (s.rd (Fd.CFL_CMD_WORDS b.val) + 1)).map fun i => s.rd (Fd.CFL_WBUF_DATA b.val i)⟩ (8 * (s.rd (Fd.CFL_CMD_WORDS b.val) + 1)))) ∧
    (s.flashTakes = true → exec (.cflErase b) s =
      .next (s.issue b.val ⟨true, 4096 * (8 * s.rd (Fd.CFL_ADDR_WORD b.val) / 4096), []⟩ 4096)) ∧
    (∀ (o : FlashOp) (p : Fin 17), s.flashOp b.val = some o → s.on (cflSusp b.val) = false → o.erase = true → exec (.cflOpDone b p none) s =
      .next (((s.eraseEnds b.val o false).opEnds b.val).invalidate o.off 4096)) ∧
    (∀ (o : FlashOp) (p : Fin 17) (e : Option (Fin 8)), s.flashOp b.val = some o → s.on (cflSusp b.val) = false → o.erase = false →
      exec (.cflOpDone b p e) s = .next (((s.programEnds b.val o p.val (e.map Fin.val)).opEnds b.val).invalidate o.off (8 * o.words.length))) ∧
    (∀ x : Remap, (s.cfl.remap.find? fun r => !r.done && flashBank (4096 * r.sector) == b.val) = some x → ∃ t, exec (.cflRetireCopy b) s = .next t ∧
      t.cfl.remap = s.cfl.remap.map fun r => if r = x then { r with done := true } else r) ∧
    (∀ o : FlashOp, s.flashOp b.val = some o → s.on (cflSusp b.val) = false → exec (.cflSuspend b) s = .next (s.suspend b.val)) ∧
    (∃ t, exec (.cflResume b) s = .next t ∧ t.rd (cflSusp b.val) = 0 ∧ ∀ f : Fld, f.key ≠ (cflSusp b.val).key → t.rd f = s.rd f) ∧
    (∀ v : BitVec 32, exec (.cflLockWrite v) s = .next (s.setBits Fd.CFL_LOCK_LOCK (v.toNat % 64)))

/-- R466, R468 to R472, Tables 15.2, 15.5: the demand follows a valid period or a still pin; the curve is taken where it ascends; a new target is taken with
the actuators parked and held otherwise, and a held one once they are; ATSPD rises and falls with the speed; the chopper follows VMOT; after an
overvoltage the unit listens where it is to turn; and a PWM
period gives the currents. -/
def Obligations.SpindleSpeedActs : Prop :=
  ∀ (s : State),
    (∀ p h : BitVec 32, 36000 ≤ p.toNat → p.toNat ≤ 1100000 → h.toNat ≤ p.toNat → s.spin.recent.length < 3 → ∃ t, exec (.spinDmdPeriod p h) s = .next t ∧
      t.spin.recent = halfUp (255 * h.toNat) p.toNat :: s.spin.recent ∧ t.spin.ignored = 0 ∧ (∀ f, t.rd f = s.rd f) ∧ s.onlyAt t [.spin]) ∧
    (∀ (p h : BitVec 32) (a b c : Nat) (l : List Nat), 36000 ≤ p.toNat → p.toNat ≤ 1100000 → h.toNat ≤ p.toNat → s.spin.recent = a :: b :: c :: l →
      s.on Fd.SPN_CTL_SRC = false → s.rd Fd.SPN_DMD_NOW + 2 ≤ halfUp (halfUp (255 * h.toNat) p.toNat + a + b + c) 4 → exec (.spinDmdPeriod p h) s =
        .next (((s.spinUpd fun x => { x with ignored := 0, recent := [halfUp (255 * h.toNat) p.toNat, a, b, c] }).wr Fd.SPN_DMD_PIN
          (halfUp (halfUp (255 * h.toNat) p.toNat + a + b + c) 4)).setDemand (halfUp (halfUp (255 * h.toNat) p.toNat + a + b + c) 4))) ∧
    (∀ l : Bool, s.on Fd.SPN_CTL_SRC = false → exec (.spinDmdTimeout l) s =
      .next ((s.wr Fd.SPN_DMD_PIN (if l then 255 else 0)).setDemand (if l then 255 else 0))) ∧
    (ascends s.shadowCurve = true → exec .curveApply s = .next (s.spinUpd fun x => { x with curve := s.shadowCurve })) ∧
    (ascends s.shadowCurve = false → exec .curveApply s = .next (s.wr Fd.SPN_INT_CURVEERR 1)) ∧
    (s.wantRpm ≠ s.rd Fd.SPN_TARGET_RPM → s.wantRpm ≠ 0 → s.allParked = true → exec .targetChange s = .next (s.takeTarget s.wantRpm)) ∧
    (s.wantRpm ≠ s.rd Fd.SPN_TARGET_RPM → s.wantRpm ≠ 0 → s.allParked = false → s.spin.held = none → exec .targetChange s =
      .next (((s.wr Fd.SPN_STATUS_PEND 1).wr Fd.SPN_INT_PARKREQ 1).spinUpd fun x => { x with held := some s.wantRpm })) ∧
    (∀ t : Nat, s.allParked = true → s.spin.waitPark = false → s.spin.held = some t → exec .heldTargetRelease s = .next (s.takeTarget t)) ∧
    (s.spn = 6 → s.on Fd.SPN_STATUS_ATSPD = false → s.on Fd.SPN_TARGET_RPM = true → s.within 5 = true → exec .atspdRise s =
      .next (((s.wr Fd.SPN_STATUS_ATSPD 1).wr Fd.SPN_INT_ATSPD 1).spnRelease)) ∧
    (s.on Fd.SPN_STATUS_ATSPD = true → s.within 5 = false → exec .atspdLoss s = .next (s.wr Fd.SPN_STATUS_ATSPD 0)) ∧
    (∀ mv : BitVec 16, 13800 ≤ mv.toNat → mv.toNat ≤ 14400 → ∃ t, exec (.vmotThreshold mv) s = .next t ∧ t.spin.chopper = true ∧
      (∀ f, t.rd f = s.rd f) ∧ s.onlyAt t [.spin]) ∧
    (∀ mv : BitVec 16, mv.toNat ≤ 13600 → ∃ t, exec (.vmotThreshold mv) s = .next t ∧ t.spin.chopper = false ∧
      (∀ f, t.rd f = s.rd f) ∧ s.onlyAt t [.spin]) ∧
    (exec .ovpRelease s = .next (if s.spin.ovp = false then s
      else if s.spn = 8 ∧ s.spin.after = .listen then (s.spinUpd fun x => { x with ovp := false }).listen
      else s.spinUpd fun x => { x with ovp := false })) ∧
    (s.spin.ovp = true → s.spn = 8 → s.spin.after = .listen → exec .ovpRelease s = .next (s.spinUpd fun x => { x with ovp := false }).listen) ∧
    (s.spin.ovp = true → s.spn ≠ 8 → exec .ovpRelease s = .next (s.spinUpd fun x => { x with ovp := false })) ∧
    (∀ (u v w : Option (BitVec 16)) (a : BitVec 16) (r : BitVec 17), s.spn = 4 → ∃ t, exec (.pwmPeriod u v w a r) s = .next t ∧
      (t.spin.iu, t.spin.iv, t.spin.iw) = s.phases u v w ∧ t.spin.angle = s.spin.angle ∧ (∀ f, t.rd f = s.rd f) ∧ s.onlyAt t [.spin])

/-- R472 to R483, Tables 15.2, 15.3, 15.6: a start listens; what listening finds leads to warming, to the token or to rest; with the token the motor is
caught or aligned, starts and runs at the handover; a start that does not raise ATSPD locks out; a loss of sync, rest and a braking that does
not end leave their state; CLEAR leaves a hold; and a takeover in time keeps turning. -/
def Obligations.SpindleStartActs : Prop :=
  ∀ (s : State),
    (s.spn = 0 → s.unit .spindle ≠ 5 → s.on Fd.HSK_PLSTAT_DECL = false → exec .spinStart s = .next s.tryStart) ∧
    (∀ t : State, s.spn = 1 → t = (s.wr Fd.SPN_SPEED_REV 0).wr Fd.SPN_SPEED_RPM10 0 → 0 ≤ s.tx → exec (.listenEnd .rest) s =
      .next (t.wantToken false).withToken) ∧
    (∀ t : State, s.spn = 1 → t = (s.wr Fd.SPN_SPEED_REV 0).wr Fd.SPN_SPEED_RPM10 0 → s.tx < 0 → s.on Fd.SPN_WARM_WARM_MA = true →
      exec (.listenEnd .rest) s = .next ((t.setSpn 2).count Fd.SPN_CNT1_WARMS 1)) ∧
    (∀ v : BitVec 17, s.spn = 1 → 3600 ≤ v.toNat → exec (.listenEnd (.turning true v)) s =
      .next ((((s.wr Fd.SPN_SPEED_REV 0).wr Fd.SPN_SPEED_RPM10 v.toNat).wantToken true))) ∧
    (s.spn = 1 → exec (.listenEnd .unresolved) s = .next (s.toRest .listen)) ∧
    (s.spn = 3 → s.on Fd.SPN_STATUS_TOKEN = true → s.spin.catching = true → exec .catchMotor s =
      .next (((s.setSpn 6).count Fd.SPN_CNT0_CATCHES 1).spinUpd fun x => { x with cmd := 100000 * s.rd Fd.SPN_SPEED_RPM10 })) ∧
    (s.spn = 2 → exec .warmupEnd s = .next s.warmed.withToken) ∧
    (s.spn = 3 → s.on Fd.SPN_STATUS_TOKEN = false → s.members = 1 ∨ s.on Fd.CFX_TOKEN_HELD = true → exec .tokenGrant s =
      .next (s.wr Fd.SPN_STATUS_TOKEN 1).withToken) ∧
    (s.spn = 4 → exec .alignEnd s = .next (s.setSpn 5)) ∧
    (s.spn = 5 → exec (.observerHandover true) s = .next (s.setSpn 6) ∧ exec (.observerHandover false) s = .next (s.syncLoss 3)) ∧
    (s.on Fd.SPN_STATUS_TOKEN = true → s.on Fd.SPN_STATUS_ATSPD = false → 1 ≤ s.spn → s.spn ≤ 6 → exec .spinupTimeout s =
      .next ((((s.wr Fd.SPN_INT_SPINFAIL 1).raise .spindle 0x1701 6 (b2n s.spin.catching :: leBytes 2 (s.rd Fd.SPN_SPEED_RPM10 / 10))).spnRelease).toRest
        .lockout)) ∧
    (∀ k : Fin 3, s.spn = 6 ∨ s.spn = 7 → exec (.lossOfSync k) s = .next (s.syncLoss k.val)) ∧
    (s.spn = 7 ∨ s.spn = 8 → s.spin.waitPark = false → exec .brakeRest s = .next (s.wr Fd.SPN_SPEED_RPM10 0).atRest) ∧
    (s.spn = 7 ∨ s.spn = 8 → s.spin.waitPark = false → exec .brakeTimeout s =
      .next (((s.wr Fd.SPN_INT_SPINFAIL 1).raise .spindle 0x1701 6 (2 :: leBytes 2 (s.rd Fd.SPN_SPEED_RPM10 / 10))).setSpn
        (if s.spin.after = .lockout then 10 else 0))) ∧
    (s.spn = 9 ∨ s.spn = 10 → exec .spnClear s = .next s.leaveHold) ∧
    (s.spin.turning = true → exec (.spindleResetTakeover true) s = .next (s.spinUpd fun x => { x with turning := false })) ∧
    (s.spin.turning = true → exec (.spindleResetTakeover false) s = .next s.listen)

/-- R15, R107, R486, R490, R493, R494, R497, R508, R509: an expiry of an element, a unit, a domain or the watch core is counted and acted on at its level; a domain's restart
ends once every unit of it has ended its reset, a watch restart with the held escalations acted on; a kick and a requested restart come from the watch
core alone; a restart that is due goes on; and every count starts at 0 once
device time has reached the boundary of a 10 s window. -/
def Obligations.ExpiriesAct : Prop :=
  ∀ (s : State) (u : UnitRef) (d : Domain),
    (∀ e : BitVec 16, s.watchesElems u = true → s.onlyWaits u = false → exec (.elementExpiry u e) s = .next (s.expiryWindow.elementExpired u e.toNat)) ∧
    (∀ e : BitVec 16, s.onlyWaits u = true → exec (.elementExpiry u e) s = .next s ∧ exec (.unitExpiry u 0) s = .next s) ∧
    (∀ c : Fin 3, s.watchesUnit u = true → c ≠ 1 → s.onlyWaits u = false → exec (.unitExpiry u c) s = .next (s.expiryWindow.unitExpired u c.val)) ∧
    exec (.domainExpiry d) s = .next (s.expiryWindow.domainExpired d 0) ∧
    (1000 * s.rd Fd.IRT_WDOG_LIMIT ≤ (s.time + 2 ^ 48 - s.watch.kick) % 2 ^ 48 → exec .watchdogExpiry s = .next (s.expiryWindow.supervisorExpired 0)) ∧
    exec .lockstepMismatch s = .next (s.expiryWindow.supervisorExpired 1) ∧
    (∀ t : State, t = (s.bump (Fd.IRT_DSTAT_GEN d.num)).wr (Fd.IRT_DSTAT_STATE d.num) 0 → s.rd (Fd.IRT_DSTAT_STATE d.num) = 1 →
      (d.units.any fun u => s.unit u = 5) = false → s.watch.motion = none → exec (.domainRestartEnd d) s =
        .next ((t.raise .irt 0x0601 5 ([d.num, tget 0 s.watch.causes d.num] ++ leBytes 2 (t.rd (Fd.IRT_DSTAT_GEN d.num)))).recovery.watchUpd fun w =>
          { w with causes := terase w.causes d.num })) ∧
    (s.watch.restarting = true → ∃ t : State, exec .watchRestartEnd s = .next (t.actHeld s.watch.held) ∧ t.cores.watch.run = true ∧
      t.watch.restarting = false ∧ t.watch.kick = s.time) ∧
    (∃ t, exec (.wdogKick .watch) s = .next t ∧ t.watch.kick = s.time ∧ (∀ f, t.rd f = s.rd f) ∧ s.onlyAt t [.watch]) ∧
    (∀ r : Requester, r ≠ .watch → exec (.wdogKick r) s = .next s ∧ exec (.domainRestartReq r d) s = .next s) ∧
    exec (.domainRestartReq .watch d) s = .next (s.startDomain d 2) ∧
    (∀ c : Nat, s.watch.due = some c → exec .controllerRestart s = .next (s.restartOn c)) ∧
    (s.watch.window = s.time / 10000000 → exec .expiryWindow s = .next s) ∧
    (s.watch.window ≠ s.time / 10000000 → ∃ t, exec .expiryWindow s = .next t ∧ t.watch.elems = [] ∧ t.watch.units = [] ∧ t.watch.doms = [] ∧
      t.watch.sup = 0 ∧ t.watch.window = s.time / 10000000 ∧ t.rd Fd.IRT_WSTAT_SUPEXP = 0)

/-- R31, R32, R264, R496, R652: the slot commands of a unit: quiesce and degrade set its state, firmware's reset begins it with its event, the end of a
reset serves the accesses held for it, and one held too long ends with a bus error; only a writer of slots has an effect. -/
def Obligations.SlotControlActs : Prop :=
  ∀ (s : State) (r : Requester) (u : UnitRef) (v : Bool), slotWriter r = true →
    (∀ n : Fin 4, exec (.slotQuiesce r (.reach n) v) s = .next (s.engQuiesce n v)) ∧
    (s.serving .stage = true → exec (.slotQuiesce r .stage true) s =
      .next ((s.wr (Fd.SLOT_CTL_QUIESCE UnitRef.stage.win UnitRef.stage.slot) 1).setUnit .stage 4)) ∧
    (s.resettable u = true → s.unit u ≠ 5 → exec (.slotReset r u) s = .next ((s.raise u (u.common 2) 4 [0, 0, 0, 0, 0, 1]).beginReset u)) ∧
    (s.unit u = 2 → exec (.slotDegrade r u true) s =
      .next ((((s.wr (Fd.SLOT_CTL_DEGRADE u.win u.slot) 1).setUnit u 6).showDegraded u).raise u (u.common 3) 6 [0])) ∧
    (s.unit u = 6 → s.heldDegraded u = false → exec (.slotDegrade r u false) s = .next (((s.wr (Fd.SLOT_CTL_DEGRADE u.win u.slot) 0).setUnit u 2).showDegraded u)) ∧
    (∀ r' : Requester, slotWriter r' = false → exec (.slotQuiesce r' u v) s = .next s ∧ exec (.slotReset r' u) s = .next s ∧
      exec (.slotDegrade r' u v) s = .next s) ∧
    (s.unit u = 5 → exec (.unitResetEnd u) s = .next (State.serveHeld { ((s.watchUpd fun w =>
      { w with accesses := w.accesses.filter fun h => !h.waitsFor u }).resetEnds u) with answer := [] }
        (s.watch.accesses.filter fun h => h.waitsFor u))) ∧
    (∀ h : HeldAccess, (s.watch.accesses.find? fun h => h.waitsFor u) = some h → exec (.resetAccessTimeout u) s =
      .next (s.watchUpd fun w => { w with accesses := w.accesses.erase h }).busError)

/-- R510, R511, R513, R515, R518, R520 to R522: GO makes a pass due; a pass starts with the scope in force, or whole; an item done fills the inactive bank and goes
on, a reference outside 2% fails item 0, a swap makes the banks active, a failed item is recorded; a channel is claimed and let go; and the end of a pass raises DONE with its time. -/
def Obligations.CalibrationActs : Prop :=
  ∀ (s : State),
    (∃ t, exec .calGo s = .next t ∧ t.rd Fd.CAL_STATUS_PEND = 1 ∧ ∀ f : Fld, f.key ≠ Fd.CAL_STATUS_PEND.key → t.rd f = s.rd f) ∧
    (s.on Fd.CAL_STATUS_BUSY = false → s.cal.full = false → s.on Fd.CAL_STATUS_PEND = true → s.serving .cal = true → exec .calPassStart s =
      .next (((s.wrs [(Fd.CAL_STATUS_BUSY, 1), (Fd.CAL_STATUS_PEND, 0), (Fd.CAL_FAIL_ITEMS, 0)]).calPut fun u =>
        { u with scope := s.rd Fd.CAL_CTL_SCOPE, acts := s.rd Fd.CAL_CTL_ACT, ended := false, full := false }).calGo
          (calSteps (s.rd Fd.CAL_CTL_SCOPE) (s.rd Fd.CAL_CTL_ACT)))) ∧
    (∀ (l : List (BitVec 32)) (v r f : Int), s.calBusy = true → s.rd Fd.CAL_STATUS_ITEM ≠ 3 →
      (s.rd Fd.CAL_STATUS_ITEM = 0 → v.natAbs ≤ 20000 ∧ r.natAbs ≤ 20000 ∧ f.natAbs ≤ 20000) →
      ∃ t, t.cal.inactive = tinsert s.cal.inactive (calKey (s.rd Fd.CAL_STATUS_ITEM) (s.rd Fd.CAL_STATUS_ACTNOW) s.cal.unit) (l.map BitVec.toNat) ∧
        t.cal.coil = s.cal.coil ∧ s.onlyAt t [.cal] ∧ exec (.calItemDone l none v r f) s = .next t.calNext) ∧
    (∀ (l : List (BitVec 32)) (v r f : Int), s.calBusy = true → s.rd Fd.CAL_STATUS_ITEM = 0 → (20000 < v.natAbs ∨ 20000 < r.natAbs ∨ 20000 < f.natAbs) →
      exec (.calItemDone l none v r f) s = .next (s.calFails (l.getD 1 0).toNat)) ∧
    (∀ (l : List (BitVec 32)) (b : Fin 32) (v r f : Int), s.calBusy = true → exec (.calItemDone l (some b) v r f) s =
      .next (s.calFails (l.getD b.val 0).toNat)) ∧
    (∀ (i : Fin 7) (n : Fin 4), let mine := s.cal.inactive.filter fun p => p.1 / 32 == 4 * i.val + (if i.val < 3 then 0 else n.val)
      exec (.calSwap i n) s = .next (s.calPut fun u => { u with
        active := mine.foldl (fun l p => tinsert l p.1 p.2) u.active, inactive := mine.foldl (fun l p => terase l p.1) u.inactive })) ∧
    (s.on Fd.CAL_STATUS_BUSY = true → s.cal.ended = true → exec .calPassEnd s =
      .next ((((s.wrs [(Fd.CAL_STATUS_BUSY, 0), (Fd.CAL_LAST_TIME, s.time), (Fd.CAL_INT_DONE, 1)]).bump Fd.CAL_COUNT_PASSES)).calPut fun u =>
        { u with ended := false, life := u.life + 1 })) ∧
    (∀ n : Fin 4, s.calBusy = true → s.rd Fd.CAL_STATUS_ITEM = 5 → s.rd Fd.CAL_STATUS_ACTNOW = n.val → s.owned n = false → s.cal.claim = none →
      ∃ t, exec (.calClaim n) s = .next t ∧ t.cal.claim = some n ∧ (∀ f, t.rd f = s.rd f) ∧ s.onlyAt t [.cal]) ∧
    (∀ n : Fin 4, s.cal.claim = some n → ∃ t, exec (.calClaimEnd n) s = .next t ∧ t.cal.claim = none ∧ (∀ f, t.rd f = s.rd f) ∧ s.onlyAt t [.cal])

/-- R524 to R534, R591, R592: a round samples from P2 on while the unit serves, and publishes its results in one step; SENSCLR clears a sensor's faults; the
reference clock's loss and return lock and unlock the time base; and the voltage loop starts, and then updates, while it is not stopped. -/
def Obligations.HousekeepingActs : Prop :=
  ∀ (s : State),
    (2 ≤ s.rd Fd.HSK_START_PHASE → s.serving .hsk = true → ∃ t, exec .hskRound s = .next t ∧ t.hsk.sampling = true ∧ (∀ f, t.rd f = s.rd f) ∧
      s.onlyAt t [.hsk]) ∧
    (∀ (l : List (BitVec 16)) (b : Bool) (v : Nat → Nat) (raw : Nat → Int) (rs : List (Nat × Reading)) (t u : State), s.hsk.sampling = true →
      v = (fun c => (l.getD c 0).toNat) → raw = (fun c => sgn 16 (v c)) → rs = (List.range 10).map (fun i => (i, s.reading raw b i)) →
      (rs.any fun p => p.1 == 9 && p.2.broken) = false →
      t = ((List.range 14).map (· + 10)).foldl (fun t c => t.wr (Fd.HSK_CHAN_VALUE c) (v c))
        (((s.hskPut fun u => { u with sampling := false }).bump Fd.HSK_ROUND_COUNT).publishTemps raw rs) →
      u = (t.wr Fd.HSK_PLSTAT_VMOT_MIN (min (t.rd Fd.HSK_PLSTAT_VMOT_MIN) (v 10))).checkRanges v ((List.range 9).map (· + 10)) →
      ∃ m : List Int, exec (.hskRoundPublish l b) s =
        .next (u.hskPut fun h => { h with corr := u.corrections, tmax := m }).conditions.coldExit.smartTemp.coils) ∧
    exec (.sensclr 0) s = .next s ∧
    (∀ i : Fin 10, exec (.sensclr (1#10 <<< i.val)) s = .next (s.wrs [(Fd.HSK_TEMP_BROKEN i.val, 0), (Fd.HSK_TEMP_SUBST i.val, 0), (Fd.HSK_TEMP_COUNT i.val, 0)])) ∧
    exec .refclkLoss s = .next (((s.hskPut fun u => { u with refclk := false, locked := false }).wr Fd.HSK_INT_REFLOSS 1).raise .hsk 0x0D05 6 []) ∧
    (∃ t, exec .refclkReturn s = .next t ∧ t.hsk.refclk = true ∧ t.hsk.locked = true ∧ (∀ f, t.rd f = s.rd f) ∧ s.onlyAt t [.hsk]) ∧
    (∀ m : BitVec 8, s.on Fd.HSK_VCTL_EN = false → s.hsk.vstop = false → exec (.vloopEnable (some m)) s =
      .next ((s.wr Fd.HSK_VCTL_EN 1).vmodeRead m.toNat true)) ∧
    (s.on Fd.HSK_VCTL_EN = false → s.hsk.vstop = false → exec (.vloopEnable none) s = .next ((s.wr Fd.HSK_VCTL_EN 1).vfail 0 0)) ∧
    (∀ (h f a : Bool) (m : BitVec 8), s.on Fd.HSK_VCTL_EN = true → s.hsk.vstop = false → s.hsk.needMode = false → exec (.voltageUpdate h f a m) s =
      .next (s.vupdate h f a)) ∧
    (∀ (h f : Bool) (m : BitVec 8), s.on Fd.HSK_VCTL_EN = true → s.hsk.vstop = false → s.hsk.needMode = true → exec (.voltageUpdate h f true m) s =
      .next (s.vmodeRead m.toNat true))

/-- R537 to R554: the oldest raised record is taken in order; a core raises a record of its own, one at a time; a fence covers the records raised before it
and is done once they are taken; a rate window closes; an entry becomes durable in the ring; the log is rebuilt, and cleared under authority alone. -/
def Obligations.RecorderActs : Prop :=
  ∀ (s : State),
    (∀ (x : Raised) (l : List Raised), s.evr.raised = x :: l → s.on Fd.EVR_STATUS_RESTORE = false → exec .evrRecord s =
      .next ((((s.evrPut fun e => { e with raised := l }).accept x).evrPut fun e =>
        { e with fences := e.fences.map fun f => (f.1, f.2 - 1) }).syncLog s.evr)) ∧
    (∀ (k : Fin 4) (v : BitVec 32), (s.evr.raised.any fun x => x.core == some k.val) = false → bit v.toNat 19 = true → bits v.toNat 0 16 < 0x8000 →
      ∃ t, exec (.evrRaise (.flow k) k.castSucc v) s = .next t ∧ t.evr.raised = s.evr.raised ++ [⟨s.time, 0x8000, bits v.toNat 16 3, k.val, 0x04,
        (List.range 3).flatMap fun i => leBytes 4 (s.rd (Fd.EVR_RAISEP_PARAM k.val i)), some k.val, false⟩] ∧ (∀ f, t.rd f = s.rd f) ∧
      s.onlyAt t [.evr]) ∧
    (∀ v : BitVec 32, (s.evr.raised.any fun x => x.core == some 4) = true → bit v.toNat 19 = true → exec (.evrRaise .watch 4 v) s =
      .next (s.wr Fd.EVR_INT_RAISEREF 1)) ∧
    (exec (.evf .watch 4) s = .next ((s.wr (Fd.EVR_EVF_DONE 4) 0).evrPut fun e =>
      { e with fences := (e.fences.filter fun f => f.1 != 4) ++ [(4, e.raised.length)] })) ∧
    (∀ k : Fin 5, (s.evr.fences.any fun f => f.1 == k.val && f.2 == 0) = true → exec (.evfDone k) s =
      .next ((s.wr (Fd.EVR_EVF_DONE k.val) 1).evrPut fun e => { e with fences := e.fences.filter fun f => f.1 != k.val })) ∧
    exec .rateWindowClose s = .next ((s.closeRate (s.evr.window + 1)).syncLog s.evr) ∧
    (∀ r : LogRec, s.nextEntry = some r → r.code ≠ 0x0005 → exec (.evrFlashAppend false) s = .next { s with
      flash := flashPut s.flash (0x3800000 + 32 * (s.evr.head % ringEntries)) (r.toBytes 0),
      evr := Recorder.trim { s.evr with undurable := s.evr.undurable.erase r, ring := s.evr.ring ++ [r], head := s.evr.head + 1 } }) ∧
    (∀ r : LogRec, s.nextEntry = some r → exec (.evrFlashAppend true) s =
      .next ((s.wr Fd.EVR_INT_FLASHERR 1).evrPut fun e => { e with undurable := s.evr.undurable.erase r })) ∧
    (s.on Fd.EVR_STATUS_RESTORE = true → 3 ≤ s.rd Fd.HSK_START_PHASE → exec .evrRebuild s = .next (s.rebuild.syncLog s.evr)) ∧
    (∀ t : State, s.on Fd.EVR_CLR_AUTH = true → t = (s.wr Fd.EVR_CLR_AUTH 0).evrPut (fun e =>
        { e with slots := [], dropped := 0, overw := 0, hiLost := 0, undurable := [], changes := 0, clears := e.clears + 1 }) →
      exec .evrClear s = .next ((t.placeRec (t.ownRec 0x0005 5 ([b2n s.evr.authTok, 0, 0, 0] ++
        leBytes 4 (((highest s.evr.slots).map fun p => p.2.seq).getD 0) ++ leBytes 4 s.evr.slots.length))).syncLog s.evr)) ∧
    (s.on Fd.EVR_CLR_AUTH = false → exec .evrClear s = .next (s.wr Fd.EVR_INT_CLRREF 1)) ∧
    exec .evrAuthTimeout s = .next (s.wr Fd.EVR_CLR_AUTH 0)

/-- R556 to R561, R572, R573, R575 to R577: a link comes up where group, size and place agree and is refused with MISMATCH otherwise; a link down routes
around; a heartbeat goes out and comes in; a peer silent for 5 ms is lost, and heard again when it speaks; a fence waits for every peer named; the
token is asked of the lead, granted, returned, or taken alone; and an unknown type is counted. -/
def Obligations.GroupLinksAct : Prop :=
  ∀ (s : State) (p : Fin 4),
    (∀ (k : Fin 3) (g : Fin 16) (z q : Fin 4), s.on Fd.CFX_CTL_EN = true → (s.pos + k.val + 1) % 4 < s.members → s.on (Fd.CFX_LINK_UP k.val) = false →
      g.val = s.rd Fd.CFX_STATUS_GID → z.val + 1 = s.members → q.val = (s.pos + k.val + 1) % 4 → exec (.cfxLinkTrain k g z q) s =
        .next ((s.wrs [(Fd.CFX_LINK_UP k.val, 1), (Fd.CFX_LINK_PEER k.val, q.val), (Fd.CFX_LINK_MISMATCH k.val, 0)]).settleRoutes)) ∧
    (∀ (k : Fin 3) (g : Fin 16) (z q : Fin 4), s.on Fd.CFX_CTL_EN = true → (s.pos + k.val + 1) % 4 < s.members → s.on (Fd.CFX_LINK_UP k.val) = false →
      g.val ≠ s.rd Fd.CFX_STATUS_GID → exec (.cfxLinkTrain k g z q) s = .next ((s.wrs [(Fd.CFX_LINK_PEER k.val, q.val), (Fd.CFX_LINK_MISMATCH k.val, 1),
        (Fd.CFX_INT_MISMATCH, 1)]).raise .confluence 0x0202 5 [k.val, g.val, z.val, q.val])) ∧
    (∀ k : Fin 3, s.on (Fd.CFX_LINK_UP k.val) = true → exec (.cfxLinkDown k) s =
      .next ((s.wrs [(Fd.CFX_LINK_UP k.val, 0), (Fd.CFX_INT_LINKDN, 1)]).settleRoutes)) ∧
    (∀ t : State, s.on Fd.CFX_CTL_EN = true → t = s.elect → exec .hbSend s =
      .next ((([0, 1, 2] : List Nat).filter fun k => t.on (Fd.CFX_LINK_UP k)).foldl (fun u k => u.send ⟨0x01, u.rd (Fd.CFX_LINK_PEER k), 0,
        u.rd Fd.CFX_VERSION_VER, [t.role, t.rd Fd.HSK_START_PHASE, t.rd Fd.INT_NSREADY_READY, t.freeVal % 256] ++ leBytes 4 (t.rd Fd.CFX_PEERS_PRESENT) ++
          List.replicate 24 0⟩) t.tookFree)) ∧
    (s.on Fd.CFX_CTL_EN = true → p.val < s.members → p.val ≠ s.pos →
      (∀ (v : BitVec 64) (r : Fin 4) (h n : BitVec 8) (m : BitVec 4), exec (.hb p v r h n m) s = .next (((((s.hear p.val).updPeer p.val fun q =>
        { q with version := v.toNat, role := r.val, phase := h.toNat, nsready := n.toNat, reached := m.toNat }).elect).settleAdm))) ∧
      (s.rdBit Fd.CFX_PEERS_LOST p.val = true → exec (.peerHeardAgain p) s = .next (s.hear p.val)) ∧
      (∀ t : State, t = s.hear p.val → t.on Fd.CFX_STATUS_ISLEAD = true →
        exec (.treq p) s = .next (t.tokenRequest p.val) ∧ exec (.trel p) s = .next (t.tokenReturn p.val)) ∧
      (∀ (t : State) (n : BitVec 64), t = s.hear p.val →
        (t.host.ctxs.all fun q => (q.2.origin.map Prod.fst) != some p.val || q.2.run || q.2.handed) = true →
        exec (.cfxFenceMsg p n) s = .next (t.send ⟨0x0B, p.val, 0, n.toNat, []⟩)) ∧
      (∀ (t : State) (n : BitVec 64), t = s.hear p.val → n.toNat = t.cfx.fenceNum → bit t.cfx.fenceWait p.val = true →
        clrBit t.cfx.fenceWait p.val = 0 → exec (.fack p n) s = .next ((t.cfxUpd fun c => { c with fenceWait := 0 }).wr Fd.CFX_FENCE_DONE 1))) ∧
    (s.hears p.val = false ∨ (s.time + 2 ^ 48 - (s.peer p.val).heard) % 2 ^ 48 < 5000 → exec (.peerLost p) s = .next s) ∧
    (∀ t : State, s.hears p.val = true → 5000 ≤ (s.time + 2 ^ 48 - (s.peer p.val).heard) % 2 ^ 48 →
      t = ((((((((((s.clrB Fd.CFX_PEERS_PRESENT p.val).setB Fd.CFX_PEERS_LOST p.val).updPeer p.val fun y =>
        { y with losses := y.losses + 1, nsready := 0, role := 0, synced := false }).settleRoutes).wr Fd.CFX_INT_PEERLOST 1).count Fd.CFX_CNT0_LOSSES
          1).raise .confluence 0x0201 5 (p.val :: leBytes 6 (s.peer p.val).heard)).anaChanged.endForwarded p.val).releaseOf p.val).fenceLost p.val).dropCredits p.val →
      t.on Fd.CFX_STATUS_ISLEAD = false → t.lead? ≠ some p.val → exec (.peerLost p) s = .next t.settleAdm) ∧
    (s.on Fd.CFX_CTL_EN = true → s.cfx.asked = true → s.on Fd.CFX_TOKEN_HELD = false → exec .tgnt s =
      .next ((s.wr Fd.CFX_TOKEN_HELD 1).cfxUpd fun c => { c with asked := false })) ∧
    (1 < s.members → s.on Fd.CFX_STATUS_HASLEAD = false → s.cfx.asked = true → s.on Fd.CFX_TOKEN_HELD = false → exec .soloToken s =
      .next ((s.wrs [(Fd.CFX_TOKEN_HELD, 1), (Fd.CFX_TOKEN_SOLO, 1)]).cfxUpd fun c => { c with asked := false })) ∧
    (∀ (m : BitVec 4) (l : List Nat), s.on Fd.CFX_FENCE_DONE = true → l = s.peerList.filter (fun q => bit m.toNat q) → (∀ q ∈ l, s.hears q = true) →
      exec (.cfxFenceGo m) s = .next (l.foldl (fun t q => t.send ⟨0x0A, q, 0, s.cfx.fenceNum + 1, []⟩)
        ((s.wrs [(Fd.CFX_FENCE_DONE, b2n ((l.map (2 ^ ·)).sum == 0)), (Fd.CFX_FENCE_FAILED, 0)]).cfxUpd fun c =>
          { c with fenceNum := s.cfx.fenceNum + 1, fenceWait := (l.map (2 ^ ·)).sum }))) ∧
    (∀ k : BitVec 8, s.on Fd.CFX_CTL_EN = true → 0x0C < k.toNat → exec (.badMessageType p k) s = .next (s.count Fd.CFX_CNT0_BADTYPE 1))

/-- R562 to R571: a forwarded command takes a context kept for its sender; write data arrives in its buffers and read data in the mouth's; a completion
ends the command with the owner's status; an abort is decided by the owner and its answer completes the Abort; and an image of the administrative
state no older than the copy held is applied and acknowledged. -/
def Obligations.ForwardingActs : Prop :=
  ∀ (s t : State) (p : Fin 4) (c : Fin 65536) (x : Ctx), s.on Fd.CFX_CTL_EN = true → p.val < s.members → p.val ≠ s.pos → t = s.hear p.val →
    (∀ (g : BitVec 16) (b : BitVec 64) (k : Fin 5) (e : Sqe) (u w : State) (d : Nat), t.usedFor p.val < t.rd Fd.CFX_FWDRES_CTX →
      u = (t.updPeer p.val fun q => { q with fwdFrom := q.fwdFrom + 1 }).hput (fun h =>
        { h with fetches := h.fetches + 1, psNow := if k ≠ 0 ∧ 2 ≤ h.psNow then h.psOper else h.psNow }) →
      x = Ctx.fresh e (if k = 0 then 0 else 0xFF) 0 (classOf k.val) t.time t.host.fetches (some (p.val, g.toNat)) →
      u.takeCtxs x (u.pieces x) = (w, some d) → exec (.fwd p g b k e) s = .next (w.route d)) ∧
    (∀ (o : BitVec 32) (l : List (BitVec 8)) (g : Nat), t.ctx? c.val = some x → x.origin = some (p.val, g) → x.handed = false → x.writes = true →
      l ≠ [] → l.length ≤ 256 → o.toNat + l.length < 4096 * x.nlb → exec (.wdata p c o l) s =
        .next (t.putData c.val x.slba o.toNat (l.map BitVec.toNat))) ∧
    (∀ (o : BitVec 32) (l : List (BitVec 8)), t.ctx? c.val = some x → x.fwdTo = some p.val → x.handed = false → l ≠ [] → l.length ≤ 256 →
      x.admin = false → exec (.rdata p c o l) s = .next (t.stored (x.buf + o.toNat) (l.map BitVec.toNat))) ∧
    (∀ (a b : BitVec 32) (u : BitVec 16), t.ctx? c.val = some x → x.fwdTo = some p.val → x.handed = false → x.st ≠ .held → exec (.cpl p c a b u) s =
      .next ((t.ctxUpd c.val fun y => { y with res0 := a.toNat, res1 := b.toNat }).endAll c.val (bits u.toNat 9 3) (bits u.toNat 1 8))) ∧
    (∀ (g : BitVec 16) (d : Nat), t.ownerCtx p.val g.toNat = some d → t.abortable d = true → exec (.cfxAbortMsg p g false) s =
      .next ((t.endEarlyAll d (.complete 0 0x07)).send ⟨0x07, p.val, g.toNat + 65536 * d, 0, []⟩)) ∧
    (∀ (g : BitVec 16) (d : Nat), t.ownerCtx p.val g.toNat = some d → exec (.cfxAbortMsg p g true) s = .next (t.releaseCmd d).withdrawDue) ∧
    (∀ b : Bool, t.ctx? c.val = some x → x.awaitsAres = true → exec (.ares p c b) s = .next (t.abortDone c.val x (b2n b))) ∧
    (∀ (v : BitVec 64) (l : List (Nat × Nat)), t.rd Fd.CFX_VERSION_VER ≤ v.toNat → (l.find? fun q => q.1 == 0x0E) = none → ∃ u : State,
      exec (.adm p v l) s = .next (u.send ⟨0x09, p.val, 0, v.toNat, []⟩) ∧ u.rd Fd.CFX_VERSION_VER = v.toNat) ∧
    (∀ v : BitVec 64, v.toNat < t.rd Fd.CFX_VERSION_VER → exec (.adm p v []) s = .next t) ∧
    (∀ v : BitVec 64, v.toNat ≠ t.rd Fd.CFX_VERSION_VER → exec (.aack p v) s = .next ((t.cfxUpd fun u =>
      { u with adm := u.adm.map fun w => if w.version = v.toNat then { w with acks := setBit w.acks p.val } else w }).settleAdm))

/-- R582, R584, R586 to R589: a claim by its own core takes the source that is due and makes it active, and answers 0x8000 with none due or from another
core; a completion ends it; an external, timer or software interrupt is raised and lowered; the watch core alone lets a flow core run at its ENTRY; and
an access fault gives a core its cause and address. -/
def Obligations.InterruptsAct : Prop :=
  ∀ (s : State) (r : Requester) (k : Fin 5),
    (∀ i : Nat, Requester.core? r = some k.val → s.claimable k.val = some i → exec (.claimRead r k) s =
      .next (((s.wr (Fd.IRT_SRC_ACTIVE i) 1).settleIrq k.val).reply i)) ∧
    (Requester.core? r = some k.val → s.claimable k.val = none → exec (.claimRead r k) s = .next (s.reply 0x8000)) ∧
    (Requester.core? r ≠ some k.val → exec (.claimRead r k) s = .next (s.reply 0x8000) ∧ ∀ v, exec (.claimComplete r k v) s = .next s) ∧
    (∀ v : BitVec 9, Requester.core? r = some k.val → exec (.claimComplete r k v) s =
      .next (((s.wr (Fd.IRT_SRC_ACTIVE v.toNat) 0).applyDeferred v.toNat).settleIrq k.val)) ∧
    (∃ t, exec (.irqRaise k) s = .next t ∧ (t.core k.val).ext = (s.claimable k.val).isSome ∧ (∀ f, t.rd f = s.rd f) ∧ s.onlyAt t [.cores]) ∧
    (∃ t, exec (.timerInterrupt k) s = .next t ∧ (t.core k.val).timer = decide (s.rd (Fd.IRT_MTIMECMP_CMP k.val) ≤ s.time) ∧
      (∀ f, t.rd f = s.rd f) ∧ s.onlyAt t [.cores]) ∧
    (∀ v : Bool, (Requester.core? r).isSome = true → ∃ t, exec (.msipWrite r k v) s = .next t ∧ (t.core k.val).soft = v ∧
      t.rd (Fd.IRT_MSIP_MSIP k.val) = b2n v ∧ ∀ f : Fld, f.key ≠ (Fd.IRT_MSIP_MSIP k.val).key → t.rd f = s.rd f) ∧
    (∀ j : Fin 4, ∃ t, exec (.fbootRun .watch j true) s = .next t ∧ (t.core j.val).run = true ∧
      (t.core j.val).entry = 4 * s.rd (Fd.IRT_FBOOT_ENTRY j.val) ∧ t.rd (Fd.IRT_FBOOT_RUN j.val) = 1) ∧
    (∀ (j : Fin 4) (v : Bool), r ≠ .watch → exec (.fbootRun r j v) s = .next s) ∧
    (∀ (i : Fin 3) (a : BitVec 64), ∃ t, exec (.accessFault k i a) s = .next t ∧
      (t.core k.val).mcause = (if i = 0 then 1 else if i = 1 then 5 else 7) ∧ (t.core k.val).mtval = a.toNat ∧
      (∀ f, t.rd f = s.rd f) ∧ s.onlyAt t [.cores])

/-- R594 to R607: the watch core fuses the root once, and advances a counter; a lock bit is set at once and cleared in a session alone; a range's
geometry is refused where ranges would overlap; GENKEY asks for a new key; an authority request is granted under an Admin session or by a token
over the nonce; and a nonce is read anew and expires. -/
def Obligations.TrustActs : Prop :=
  ∀ (s : State) (r : Requester) (i : Fin 65),
    (s.trust.iroot = none → ∃ t, exec (.irootCommit .watch) s = .next t ∧
      t.trust.iroot = some ((List.range 12).map fun i => s.rd (Fd.TRU_IROOT_HASH i)) ∧ (∀ f, t.rd f = s.rd f) ∧ s.onlyAt t [.trust]) ∧
    (∀ l : List Nat, s.trust.iroot = some l → exec (.irootCommit .watch) s = .next s.deny) ∧
    (r ≠ .watch → exec (.irootCommit r) s = .next s ∧ exec (.arbAdvanceFw r) s = .next s ∧ exec (.arbAdvanceUc r) s = .next s) ∧
    exec (.arbAdvanceFw .watch) s = .next (s.arbAdvance 0 s.trust.fwRoll Fd.TRU_ARB_FWUSED) ∧
    exec (.arbAdvanceUc .watch) s = .next (s.arbAdvance 1 s.trust.ucRoll Fd.TRU_ARB_UCUSED) ∧
    exec (.genkey i) s = .next (s.askChange i.val .genkey) ∧
    exec (.rangeLockWrite i true true) s = .next (s.askChange i.val (.lock true true)) ∧
    (s.on (Fd.TRU_RANGE_CFG_RLCK i.val) = true → s.mayUnlock i.val = false → exec (.rangeLockWrite i false true) s = .next s.deny) ∧
    (s.mayUnlock i.val = true → exec (.rangeLockWrite i false false) s = .next (s.askChange i.val (.lock false false))) ∧
    (∀ (n : Fin 8) (a l : BitVec 64), i ≠ 0 → s.nsZoned n.val = false →
      ((s.geometries i.val).any fun g => g.1 == n.val && g.2.1 < a.toNat + l.toNat && a.toNat < g.2.1 + g.2.2) = false →
      exec (.rangeGeometryWrite i true n a l) s = .next (s.askChange i.val (.geometry true n.val a.toNat l.toNat))) ∧
    (∀ (n : Fin 8) (a l : BitVec 64), i ≠ 0 →
      ((s.geometries i.val).any fun g => g.1 == n.val && g.2.1 < a.toNat + l.toNat && a.toNat < g.2.1 + g.2.2) = true →
      exec (.rangeGeometryWrite i true n a l) s = .next s.deny) ∧
    (∀ ok : Bool, s.on Fd.TRU_STATUS_SESSION = true → s.trust.session = .openAdmin → ∃ t : State, exec (.authreq false ok) s =
      .next ((t.wr Fd.EVR_CLR_AUTH 1).evrPut fun e => { e with authTok := false }) ∧ t.rd Fd.TRU_AUTHREQ_OK = 1 ∧ t.rd Fd.TRU_AUTHREQ_DONE = 1) ∧
    (s.on Fd.TRU_STATUS_SESSION = false → ∀ ok, ∃ t, exec (.authreq false ok) s = .next t ∧ t.rd Fd.TRU_AUTHREQ_OK = 0 ∧
      t.rd Fd.EVR_CLR_AUTH = s.rd Fd.EVR_CLR_AUTH) ∧
    (∃ t, exec .nonceRead s = .next t ∧ t.trust.nonce = some (s.freeVal % 2 ^ 128) ∧ t.free = s.free + 1) ∧
    (∃ t, exec .nonceExpiry s = .next t ∧ t.trust.nonce = none ∧ (∀ f, t.rd f = s.rd f) ∧ s.onlyAt t [.trust])

/-- R598, R609 to R630, Table 22.4: the start goes through its phases: power on, the straps sampled, the lock, the boot ROM stage; SYS_RST_N low and a rail
out of range bring it back and declare power loss where they must; declaration is armed, made, and its restart follows. -/
def Obligations.StartAndPowerAct : Prop :=
  ∀ (s : State),
    (s.power.p0 = true → s.power.rstLow = false → exec .powerOn s = .next (s.beginStart 0)) ∧
    (s.power.p0 = true → s.power.rstLow = true → exec .powerOn s = .next { s with power := { s.power with rails := true } }) ∧
    (∀ (x d i m : Bool) (g : Fin 16) (z q : Fin 4), s.power.p0 = false → s.power.rstLow = false → s.rd Fd.HSK_START_PHASE = 1 →
      ∃ t, exec (.p1Sample x d i g z q m) s = .next t ∧ t.time = 0 ∧ t.rd Fd.HSK_START_PHASE = 2) ∧
    (s.rd Fd.HSK_START_PHASE = 2 → s.hsk.refclk = true → ∃ t, exec .p2Lock s = .next t ∧ t.hsk.locked = true ∧ t.rd Fd.HSK_START_PHASE = 3 ∧
      ∀ r ∈ t.cfl.remap, r.done = true) ∧
    (∀ (a b p q : Fin 8) (o : Bool) (t : State), s.rd Fd.HSK_START_PHASE = 4 → s.power.released = true → s.on Fd.INT_CTL_X4 = true →
      t = ({ s with power := { s.power with released := false } } : State).wr (Fd.PORT_PCTL_EN 0) 1 → s.on Fd.MEM_STATUS_DFAIL = false →
      (o = false → exec (.bootRomStage a b p q o) s = .next (t.raise .flash 0x0B05 7 [])) ∧
      (∀ u : State, o = true → t.loadCounters = (u, true) → exec (.bootRomStage a b p q o) s =
        .next (u.tryImages (fun i => if i = 0 then a.val else b.val) (fun i => if i = 0 then p.val else q.val)
          [s.rd Fd.TRU_BOOTSEL_SLOT, 1 - s.rd Fd.TRU_BOOTSEL_SLOT]))) ∧
    (∀ c : Fin 24, 11 ≤ c.val → c.val ≤ 17 → s.power.p0 = false → s.flying = false → exec (.railOutOfRange c) s =
      .next ((UnitRef.every.filter fun u => u.domain != .motion).foldl (fun t u => t.setUnit u 1)
        { s with power := { s.power with p0 := true, rails := false, released := false } })) ∧
    (∀ t : State, t = { s with power := { s.power with rstLow := true } } → s.power.rstLow = false → s.power.p0 = false →
      2 ≤ s.rd Fd.HSK_START_PHASE → s.mayDeclare = true →
      exec .sysRstLow s = .next (t.tookFree.declare 1 0 (s.freeVal % 16))) ∧
    (s.power.p0 = true → exec .sysRstLow s = .next { s with power := { s.power with rstLow := true } }) ∧
    (∀ t : State, t = { s with power := { s.power with rstLow := false } } → s.power.rstLow = true →
      (s.power.p0 = true → s.power.rails = true → exec .sysRstRelease s = .next (t.beginStart 0)) ∧
      (s.power.p0 = false → 2 ≤ s.rd Fd.HSK_START_PHASE → exec .sysRstRelease s = .next (t.beginStart 2))) ∧
    (s.power.p0 = false → s.on Fd.HSK_PLSTAT_DECL = false → exec .vmotArmed s = .next (s.wr Fd.HSK_PLSTAT_ARMED 1)) ∧
    (∀ (mv : BitVec 16) (c : Fin 24) (p : BitVec 4), s.on Fd.HSK_PLSTAT_ARMED = true → s.mayDeclare = true →
      exec (.powerLossDeclare 0 mv c p) s = .next (if mv.toNat < s.lossLevel then s.declare 0 c.val p.toNat else s)) ∧
    (s.on Fd.HSK_PLSTAT_DECL = true → s.on Fd.HSK_PLSTAT_PARKED = true → s.power.p0 = false → s.power.rstLow = false → s.on Fd.HSK_PLCFG_DIPREC = true →
      exec .dipRestart s = .next ((s.wr Fd.HSK_PLSTAT_ARMED 1).restartOn 1))

/-- R8, R10, R29, R31, R581: an access waits while its unit is being reset; one that is misaligned or of another width than its register answers a bus
error; a reserved offset reads 0 and ignores a write; a read answers the register's fields and clears its RC fields; and a write is stored and acts. -/
def Obligations.RegisterAccessesComplete : Prop :=
  ∀ (s : State) (r : Requester) (w : Fin 64) (off : Fin 65536) (z : Fin 9) (v : BitVec 64),
    (s.waits w.val off.val = true →
      exec (.registerWrite r w off z v) s = .next (State.watchUpd { s with answer := [] } fun x =>
        { x with accesses := x.accesses ++ [⟨r, w.val, off.val, z.val, v.toNat, false⟩] }) ∧
      exec (.registerReadClear r w off z) s = .next (State.watchUpd { s with answer := [] } fun x =>
        { x with accesses := x.accesses ++ [⟨r, w.val, off.val, z.val, 0, true⟩] })) ∧
    (s.waits w.val off.val = false → accessOk w.val off.val z.val = false →
      exec (.registerWrite r w off z v) s = .next s.busError ∧ exec (.registerReadClear r w off z) s = .next s.busError) ∧
    (s.waits w.val off.val = false → accessOk w.val off.val z.val = true → registerAt w.val off.val = [] → w.val < 29 ∨ 33 ≤ w.val →
      inSlot w.val off.val = true ∨ s.refusesWrite r w.val off.val = none → exec (.registerWrite r w off z v) s = .next (s.reply 0)) ∧
    (s.waits w.val off.val = false → accessOk w.val off.val z.val = true → registerAt w.val off.val ≠ [] ∨ (29 ≤ w.val ∧ w.val < 33) →
      inSlot w.val off.val = false → s.refusesWrite r w.val off.val = none → exec (.registerWrite r w off z v) s =
        .next (((s.storeReg w.val off.val v.toNat (registerAt w.val off.val)).acts s r w.val off.val v.toNat).reply 0)) ∧
    (∀ t : State, s.waits w.val off.val = false → accessOk w.val off.val z.val = true → inSlot w.val off.val = false →
      s.refusesWrite r w.val off.val = some t → exec (.registerWrite r w off z v) s = .next (t.reply 0)) ∧
    (∀ u : UnitRef, s.waits w.val off.val = false → accessOk w.val off.val z.val = true → registerAt w.val off.val ≠ [] → inSlot w.val off.val = true →
      slotUnit w.val (slotOf off.val) = some u → exec (.registerWrite r w off z v) s =
        .next ((s.writeSlot r u w.val off.val v.toNat).reply 0)) ∧
    (s.waits w.val off.val = false → accessOk w.val off.val z.val = true → w.val ≠ 5 → w.val ≠ 9 → w.val ≠ 11 → freeRead w.val off.val = false →
      exec (.registerReadClear r w off z) s =
        .next ((s.clearRc (registerAt w.val off.val)).reply (s.readWord w.val off.val (registerAt w.val off.val))))

/-- R8, Table 00.6: storing a written value in the fields of a register, a field of type RW takes its bits of the value, a field of type W1C keeps the
bits that the value does not clear, fields that a write does not reach (RO, RC, RSH) keep theirs, and so does every field of another register;
a read clears the fields of type RC. -/
def Obligations.FieldsStoredByType : Prop :=
  ∀ (s : State) (w off v : Nat) (l : List FieldAt), l.Pairwise (fun x y => x.fd.key ≠ y.fd.key) →
    (∀ x ∈ l, x.own = false → x.acc = .rw → x.rule = .any → (s.storeFields w off v l).rd x.fd = bits v (x.fd.key % 256) x.fd.width) ∧
    (∀ x ∈ l, x.own = false → x.acc = .w1c → s.rd x.fd < 2 ^ x.fd.width →
      ∀ i, ((s.storeFields w off v l).rd x.fd).testBit i = ((s.rd x.fd).testBit i && !(bits v (x.fd.key % 256) x.fd.width).testBit i)) ∧
    (∀ x ∈ l, x.acc = .ro ∨ x.acc = .rc ∨ x.acc = .rsh → (s.storeFields w off v l).rd x.fd = s.rd x.fd) ∧
    (∀ f : Fld, (∀ x ∈ l, x.fd.key ≠ f.key) → (s.storeFields w off v l).rd f = s.rd f ∧ (s.clearRc l).rd f = s.rd f) ∧
    (∀ x ∈ l, (s.clearRc l).rd x.fd = if x.acc = .rc then 0 else s.rd x.fd)

/-- R82, R390, R394, R398: a write of a word of memory whose codeword has no error beyond correction leaves each byte of it that is enabled at the
value's byte and the others as they were, and every other byte of memory as it was; where the word lies in a region table, that table's VALID bit is
cleared then. -/
def Obligations.MemoryWriteStoresBytes : Prop :=
  ∀ (s : State) (w : BitVec 37) (v : BitVec 64) (be : BitVec 8), s.isMem (8 * w.toNat) 8 = true →
    symCount (s.err w.toNat) 0 20 ≤ 1 ∨ popCount (s.err w.toNat) 0 80 ≤ 2 → ∃ t : State,
      exec (.memWrite w v be) s = .next (match tableOf (8 * w.toNat) with
        | none => t
        | some (n, h) => t.dropTable n h) ∧
      (∀ i : Fin 8, tget 0 t.mem (8 * w.toNat + i.val) = if be.getLsbD i.val then BitVec.ofNat 8 (v.toNat / 2 ^ (8 * i.val)) else
        tget 0 s.mem (8 * w.toNat + i.val)) ∧
      (∀ a : Nat, a < 8 * w.toNat ∨ 8 * w.toNat + 8 ≤ a → tget 0 t.mem a = tget 0 s.mem a)

/-- Step of an idle block (the model's own choice, log entry 2): with no command waiting, device time moves on by 1 µs modulo 2^48 (R14), the count of
the power state in force with it, and a shutdown under way goes on. -/
def Obligations.IdleStepTicks : Prop :=
  ∀ s : State, s.pending = [] → ∃ t, step s = .next t ∧ t = s.tick ∧ t.time = (s.time + 1) % 2 ^ 48 ∧ t.pending = []

/-- R7, R611: after reset every field of the register map reads its Reset value, no command waits, the part is in P0 with HSK.START.PHASE at the phase that follows, memory and
the tables of the units list nothing, and the state is sound. -/
def Obligations.ResetValues : Prop :=
  (∀ f : Fld, State.reset.rd f = f.reset) ∧ State.reset.pending = [] ∧ State.reset.mem = [] ∧ State.reset.time = 0 ∧
    State.reset.power.p0 = true ∧ State.reset.rd Fd.HSK_START_PHASE = 1 ∧ State.reset.rd (Fd.CHN_WINH_OT_LIM 0) = 0x7B ∧
    State.reset.rd (Fd.RCH_CTL_EN 0) = 0 ∧ (∀ n k : Fin 4, (State.reset.pslot n k).st = .idle) ∧ (∀ n : Fin 4, State.reset.mode n = 0) ∧
    State.reset.host.ctxs = [] ∧ State.reset.evr.raised = [] ∧ State.reset.sound = true

/-- Every command that the block is sent completes in every state: `exec` answers a next state, and neither faults nor refuses. A command that the
spec ignores in a state leaves it. -/
def Obligations.EveryCommandCompletes : Prop := ∀ (c : Instr) (s : State), ∃ t, exec c s = .next t

/-- A step from a sound state leaves a sound state: memory, code flash, the register file and the counters' accumulators in canonical form, device time
within 48 bits (R14), and the queue with its first command taken. -/
def Obligations.StepKeepsSound : Prop :=
  ∀ s t : State, s.sound = true → step s = .next t → t.sound = true ∧ t.pending = s.pending.tail

/-- The frame of every command: what `touched` lists for it may differ in the next state, and every other part of the state is as before: the queue, device
time, memory and every unit's registers and tables that are not listed; and free values are never taken back. -/
def Obligations.CommandFrames : Prop :=
  ∀ (c : Instr) (s t : State), exec c s = .next t → s.onlyAt t (touched c) ∧ t.pending = s.pending ∧ s.free ≤ t.free

/-- R55: the bank number of a Gray word: the number whose Gray code b XOR (b >> 1) it is, decoded bit 19 first. -/
def Obligations.GrayCodeDecodes : Prop :=
  (∀ b : BitVec 20, ungray (b ^^^ (b >>> 1)).toNat 0 20 = b.toNat) ∧
    ∀ g : BitVec 20, ungray g.toNat 0 20 < 2 ^ 20 ∧ (ungray g.toNat 0 20).testBit 19 = g.getLsbD 19 ∧
      ∀ i, i < 19 → (ungray g.toNat 0 20).testBit i = ((ungray g.toNat 0 20).testBit (i + 1) ^^ g.getLsbD i)

/-- R371: a write of the Stage's CTL register takes MODE while STATE reads off; at any other time MODE stays, and a different value sets MODEREF. -/
def Obligations.StageModeTakenOff : Prop :=
  ∀ (s : State) (r : Requester) (v : BitVec 64), s.waits 6 0 = false → ∃ t, exec (.registerWrite r 6 0 4 v) s = .next t ∧
    (s.rd Fd.STG_CTL_STATE = 0 → t.rd Fd.STG_CTL_MODE = bits v.toNat 1 1 ∧ t.rd Fd.STG_INT_MODEREF = s.rd Fd.STG_INT_MODEREF) ∧
    (s.rd Fd.STG_CTL_STATE ≠ 0 → s.rd Fd.STG_CTL_MODE < 2 → t.rd Fd.STG_CTL_MODE = s.rd Fd.STG_CTL_MODE ∧
      (bits v.toNat 1 1 ≠ s.rd Fd.STG_CTL_MODE → t.rd Fd.STG_INT_MODEREF = 1) ∧
      (bits v.toNat 1 1 = s.rd Fd.STG_CTL_MODE → t.rd Fd.STG_INT_MODEREF = s.rd Fd.STG_INT_MODEREF))

/-- R193: a write of a channel's WINH register takes OT_LIM from 1 to 0x7B, and 0x7B for a value above; every other field of the channel stays. -/
def Obligations.OffTrackLimitBounded : Prop :=
  ∀ (s : State) (n : Fin 4) (r : Requester) (v : BitVec 64), s.waits (20 + n.val) 0x208 = false →
    ∃ t, exec (.registerWrite r ⟨20 + n.val, by omega⟩ 0x208 4 v) s = .next t ∧
      (1 ≤ bits v.toNat 0 8 → bits v.toNat 0 8 ≤ 0x7B → t.rd (Fd.CHN_WINH_OT_LIM n) = bits v.toNat 0 8) ∧
      (0x7B < bits v.toNat 0 8 → t.rd (Fd.CHN_WINH_OT_LIM n) = 0x7B)

/-- R133: CKPT of the slot that runs alone records its whole state with PC at the next instruction, over the older of the slot's two records, and ends. -/
def Obligations.CheckpointRecords : Prop :=
  ∀ (s u : State) (n k : Fin 4) (a : Arch), s.sole n k → a = (s.pslot n k).arch.onward → u = s.slotAt n k a →
    (u.current n k = none → exec (.ckpt n k) s =
      .next (((u.stored (saveArea n k) (withChk (u.recordBody n 1 a))).updSlot n k fun x => { x with recFail := x.headFail }).dispatch n)) ∧
    (∀ c q : Nat, u.current n k = some (c, q) → exec (.ckpt n k) s =
      .next (((u.stored (saveArea n k + 0x200 * (1 - c)) (withChk (u.recordBody n (q + 1) a))).updSlot n k fun x => { x with recFail := x.headFail }).dispatch n))

/-- R104, Table 03.24: the codes of MOV: W0 to W15 both ways; TP and CN both ways; BP, ST and FL as sources; ST takes CODE (with Z at 1 where it is 0)
and empties the failure list where FAILS is 0; and MOV to BP or FL, or any use of a reserved code, traps with 0xFF05 and changes nothing else. -/
def Obligations.MovRegisterCodes : Prop :=
  ∀ (s : State) (n k : Fin 4) (dst src : Fin 32), s.sole n k →
    let w := (s.pslot n k).arch
    let ends : Arch → Host.Outcome State Fault Refusal := fun b => .next (s.slotAt n k b.onward)
    let traps : Host.Outcome State Fault Refusal :=
      .next ((s.updSlot n k fun x => { x with st := .trapped, trap := 0xFF05, stopReq := false }).setB (Fd.RCH_INT_TRAP n) k.val)
    (∀ d a : Fin 16, dst.val = d.val → src.val = a.val → exec (.mov n k dst src) s = ends (w.setReg d (w.reg a))) ∧
    (∀ d : Fin 16, dst.val = d.val → src = 16 → exec (.mov n k dst src) s = ends (w.setReg d w.tp)) ∧
    (∀ d : Fin 16, dst.val = d.val → src = 17 → exec (.mov n k dst src) s = ends (w.setReg d (BitVec.ofNat 64 w.bpWord))) ∧
    (∀ d : Fin 16, dst.val = d.val → src = 18 → exec (.mov n k dst src) s = ends (w.setReg d w.cn)) ∧
    (∀ d : Fin 16, dst.val = d.val → src = 19 → exec (.mov n k dst src) s = ends (w.setReg d (BitVec.ofNat 64 w.stWord))) ∧
    (∀ d : Fin 16, dst.val = d.val → src = 20 → exec (.mov n k dst src) s = ends (w.setReg d (BitVec.ofNat 64 (s.flWord n w)))) ∧
    (∀ a : Fin 16, dst = 16 → src.val = a.val → exec (.mov n k dst src) s = ends { w with tp := w.reg a }) ∧
    (∀ a : Fin 16, dst = 18 → src.val = a.val → exec (.mov n k dst src) s = ends { w with cn := w.reg a }) ∧
    (∀ a : Fin 16, dst = 19 → src.val = a.val → exec (.mov n k dst src) s = ends { w with
      code := (w.reg a).toNat % 256, z := (w.reg a).toNat % 256 == 0,
      nfails := if (w.reg a).toNat / 256 % 256 = 0 then 0 else w.nfails }) ∧
    (dst = 17 ∨ 20 ≤ dst.val ∨ 21 ≤ src.val → exec (.mov n k dst src) s = traps)

/-- R468: the value of a curve whose demands strictly ascend: its first speed up to its first demand, its last from its last demand on, and between two
points the speed that interpolation gives, truncated to whole rpm. -/
def Obligations.CurveValue : Prop :=
  ∀ (c : List (Nat × Nat)) (d : Nat), ascends c = true → c ≠ [] →
    (d ≤ (c.getD 0 (0, 0)).1 → curveAt d c = (c.getD 0 (0, 0)).2) ∧
    ((c.getD (c.length - 1) (0, 0)).1 ≤ d → curveAt d c = (c.getD (c.length - 1) (0, 0)).2) ∧
    (∀ (k : Nat) (p q : Nat × Nat), k + 1 < c.length → c.getD k (0, 0) = p → c.getD (k + 1) (0, 0) = q → p.1 ≤ d → d < q.1 →
      (curveAt d c : Int) = max 0 (((p.2 : Int) * (q.1 - p.1) + ((q.2 : Int) - p.2) * (d - p.1)) / (q.1 - p.1)))

/-- R64 to R67: a slot's bits number 37,000, and the payload bytes of a sector laid down come back from them: the 33,024 bits behind the sync mark,
descrambled with the seed of the slot, are the payload's bytes, most significant bit first; descrambling is scrambling again. -/
def Obligations.SlotLayoutHolds : Prop :=
  (∀ (tp : Nat) (l : List Bool), scramble tp (scramble tp l) = l) ∧
    ∀ (tp : Nat) (x : Sector), x.payload.length = 4128 → (∀ b ∈ x.payload, b < 256) →
      (slotBits tp x).length = 37000 ∧ bitBytes 4128 (scramble tp (((slotBits tp x).drop 112).take 33024)) = x.payload

/-- R269, R284, R285: a control-store word formed with its parity bits reads sound, and any one bit of it flipped is found; patch RAM addresses are not
overlaid; a ROM address is given the patch RAM address of the lowest-numbered valid entry that covers it, one address or 16 of them; and without one
it stays. -/
def Obligations.ControlStoreWords : Prop :=
  (∀ v : BitVec 30, parityWord v.toNat % 2 ^ 30 = v.toNat ∧ parityWord v.toNat < 2 ^ 32 ∧ lowBad (parityWord v.toNat) = false ∧
    highBad (parityWord v.toNat) = false ∧ ∀ i : Nat, i < 32 → (lowBad (parityWord v.toNat ^^^ 2 ^ i) || highBad (parityWord v.toNat ^^^ 2 ^ i)) = true) ∧
  (∀ e u : Nat, bit e 31 = false → matchAt e u = none) ∧
  (∀ e u : Nat, bit e 31 = true → bit e 13 = false → matchAt e u = if u = bits e 0 13 then some (0x1800 + bits e 16 11) else none) ∧
  (∀ e u : Nat, bit e 31 = true → bit e 13 = true →
    matchAt e u = if u / 16 = bits e 0 13 / 16 then some (0x1800 + bits e 16 11 + u % 16) else none) ∧
  ∀ (s : State) (n : Fin 4) (u : Nat),
    (0x1800 ≤ u → s.overlay n u = u) ∧
    (u < 0x1800 → (∀ i : Nat, i < 64 → matchAt (s.rd (Fd.RCH_MATCH_ENTRY n i)) u = none) → s.overlay n u = u) ∧
    ∀ i a : Nat, u < 0x1800 → i < 64 → matchAt (s.rd (Fd.RCH_MATCH_ENTRY n i)) u = some a →
      (∀ j : Nat, j < i → matchAt (s.rd (Fd.RCH_MATCH_ENTRY n j)) u = none) → s.overlay n u = a ∧ 0x1800 ≤ a

/-- R270 to R277: what a sound and legal word does that the engine reads for its running slot: a wait word holds or goes on; a word whose unit has not
acknowledged holds; one whose unit has goes on to the address it forms; a jump word moves a register, or works on two and sets UZ, UN and UC, and
goes to its target; TRP traps the slot with 0xFF00 and its code. -/
def Obligations.MicrowordsAct : Prop :=
  ∀ (s : State) (n k : Fin 4) (u : BitVec 13) (e : BitVec 32) (ack : Bool), s.unit (.reach n) ≠ 0 → s.unit (.reach n) ≠ 7 →
    let t := s.wakeHolds n four
    let a := t.overlay n u.toNat
    let w := t.ucodeWord n a ^^^ e.toNat
    let m := t.entered n k
    t.readsAt n a = true → t.wordCheck n a w ack = none → t.runner n = some k →
    (mNx w = 3 → exec (.machineCheck n u e ack) s = .next ((m.microWait n k a w).tookFrees microFrees)) ∧
    (mNx w ≠ 3 → mAsks w = true → ack = false → exec (.machineCheck n u e ack) s = .next ((m.holds n k a).tookFrees microFrees)) ∧
    (mNx w ≠ 3 → mAsks w = true → ack = true → exec (.machineCheck n u e ack) s =
      .next (((((m.microUnit n k w).handshake n).stepTo n k (((m.microUnit n k w).handshake n).formed n k a w)).tookFrees microFrees))) ∧
    (mNx w = 1 → mOp w = 1 → exec (.machineCheck n u e ack) s =
      .next (((m.mSet n k (mD w) (m.mReg n k (mS w) 0)).stepTo n k (bits w 0 13)).tookFrees microFrees)) ∧
    (mNx w = 1 → 3 ≤ mOp w → mOp w ≤ 9 → ∀ r : BitVec 64 × Bool, r = microAlu (mOp w) (m.mReg n k (mD w) 0) (m.mReg n k (mS w) 0) →
      exec (.machineCheck n u e ack) s = .next ((((m.updMicro n k fun x => { x with uz := r.1 == 0, un := r.1.msb, uc := r.2 }).mSet n k (mD w) r.1).stepTo
        n k (bits w 0 13)).tookFrees microFrees)) ∧
    (mNx w ≠ 3 → mOp w = 0x14 → exec (.machineCheck n u e ack) s =
      .next (((m.updMicro n k fun _ => Micro.idle).trapSlot n k (0xFF00 + bits (mK w) 0 8)).tookFrees microFrees))

/-- R343: a grant goes to a queue that holds an entry and has a context free for it; without an open grant the controller not granted last comes first; of a
controller the admin queue comes first and an urgent one before the weighted classes; and with no queue wanting there is no grant. -/
def Obligations.ArbitrationGrants : Prop :=
  ∀ (s : State) (i : Fin 2),
    (∀ (j : Fin 2) (q left : Nat), s.granted = some (j, q, left) → ∃ cls, (q, cls) ∈ s.wanting j) ∧
    ((∀ j : Fin 2, s.wanting j = []) → s.granted = none) ∧
    ((s.wanting i).any (fun p => p.1 == 0) = true → s.choose i = some 0) ∧
    ((s.wanting i).any (fun p => p.1 == 0) = false → (s.wanting i).any (fun p => p.2 == CtxClass.urgent) = true → ∃ q, s.choose i = some q ∧
      (q, CtxClass.urgent) ∈ s.wanting i) ∧
    (s.host.arb.cur = none → ∀ q : Nat, s.choose (1 - s.host.arb.last) = some q →
      s.granted = some (1 - s.host.arb.last, q, s.burst (1 - s.host.arb.last))) ∧
    (s.host.arb.cur = none → s.choose (1 - s.host.arb.last) = none → ∀ q : Nat, s.choose s.host.arb.last = some q →
      s.granted = some (s.host.arb.last, q, s.burst s.host.arb.last))
end

