-- ==== Sys2Proof/Laws/Tables.lean ====
section
/-! SUPPORT. Laws of tables: what a lookup sees of a change, and that every change keeps the canonical form. -/

namespace Sys2Proof.Machine

set_option Elab.async false

variable {α : Type}

/-- In a canonical table whose keys are above `k`, every key is above `k`. -/
theorem tabove_mem [DecidableEq α] {d : α} : ∀ {t : List (Nat × α)} {k : Nat}, tabove k t = true → twf d t = true → ∀ p ∈ t, k < p.1
  | [], _, _, _, _, hp => by simp at hp
  | (j, a) :: t, k, hk, hw, p, hp => by
    simp only [tabove, decide_eq_true_eq] at hk
    simp only [twf, Bool.and_eq_true] at hw
    rcases List.mem_cons.1 hp with rfl | h
    · exact hk
    · exact lt_trans hk (tabove_mem hw.1.2 hw.2 p h)

/-- A table that lists only keys above `k` has its first key above `k`. -/
theorem tabove_of_mem {t : List (Nat × α)} {k : Nat} (h : ∀ p ∈ t, k < p.1) : tabove k t = true := by
  cases t with
  | nil => rfl
  | cons p t => simpa [tabove] using h p (by simp)

/-- A part of a canonical table is canonical. -/
theorem twf_filter [DecidableEq α] {d : α} (f : Nat × α → Bool) : ∀ {t : List (Nat × α)}, twf d t = true → twf d (t.filter f) = true
  | [], _ => rfl
  | (j, a) :: t, h => by
    simp only [twf, Bool.and_eq_true] at h
    have ih := twf_filter f h.2
    rw [List.filter_cons]
    split
    · simp only [twf, Bool.and_eq_true]
      exact ⟨⟨h.1.1, tabove_of_mem fun p hp => tabove_mem h.1.2 h.2 p (List.mem_filter.1 hp).1⟩, ih⟩
    · exact ih

/-- What an erased table lists is from the table. -/
theorem mem_terase {t : List (Nat × α)} {k : Nat} {p : Nat × α} (h : p ∈ terase t k) : p ∈ t := (List.mem_filter.1 h).1

/-- What a table with an entry put in lists is that entry or from the table. -/
theorem mem_tinsert {t : List (Nat × α)} {k : Nat} {a : α} {p : Nat × α} : p ∈ tinsert t k a → p = (k, a) ∨ p ∈ t := by
  induction t with
  | nil => simp [tinsert]
  | cons q t ih =>
    obtain ⟨j, b⟩ := q
    simp only [tinsert]
    split
    · intro h
      rcases List.mem_cons.1 h with rfl | h
      · exact .inl rfl
      · exact .inr (List.mem_cons_of_mem _ h)
    · split
      · intro h
        rcases List.mem_cons.1 h with rfl | h
        · exact .inl rfl
        · exact .inr h
      · intro h
        rcases List.mem_cons.1 h with rfl | h
        · exact .inr (by simp)
        · exact (ih h).imp id (List.mem_cons_of_mem _)

/-- Erasing a key keeps the canonical form. -/
theorem twf_terase [DecidableEq α] {d : α} {t : List (Nat × α)} (k : Nat) (h : twf d t = true) : twf d (terase t k) = true :=
  twf_filter _ h

/-- Putting in an entry other than the default keeps the canonical form. -/
theorem twf_tinsert [DecidableEq α] {d : α} {t : List (Nat × α)} (k : Nat) {a : α} (ha : a ≠ d) (h : twf d t = true) : twf d (tinsert t k a) = true := by
  induction t with
  | nil => simp [tinsert, twf, tabove, ha]
  | cons q t ih =>
    obtain ⟨j, b⟩ := q
    have h0 := h
    simp only [twf, Bool.and_eq_true] at h
    simp only [tinsert]
    split
    · next e =>
      subst e
      simp only [twf, Bool.and_eq_true]
      exact ⟨⟨by simpa using ha, h.1.2⟩, h.2⟩
    · next e =>
      split
      · next e' =>
        simp only [twf, Bool.and_eq_true]
        exact ⟨⟨by simpa using ha, by simpa [tabove] using e'⟩, h⟩
      · next e' =>
        simp only [twf, Bool.and_eq_true]
        refine ⟨⟨h.1.1, tabove_of_mem fun p hp => ?_⟩, ih h.2⟩
        rcases mem_tinsert hp with rfl | hp
        · change j < k
          omega
        · exact tabove_mem h.1.2 h.2 p hp

/-- A change of a table keeps its canonical form. -/
theorem twf_tset [DecidableEq α] {d : α} {t : List (Nat × α)} (k : Nat) (a : α) (h : twf d t = true) : twf d (tset d t k a) = true := by
  simp only [tset]
  split
  · exact twf_terase k h
  · next e => exact twf_tinsert k e h

/-- A table read at the key just put in. -/
theorem tget_tinsert_same (d : α) (t : List (Nat × α)) (k : Nat) (a : α) : tget d (tinsert t k a) k = a := by
  induction t with
  | nil => simp [tinsert, tget]
  | cons q t ih =>
    simp only [tinsert]
    split
    · simp [tget]
    · next e =>
      split
      · simp [tget]
      · simpa [tget, e] using ih

/-- A table with an entry put in reads elsewhere as before. -/
theorem tget_tinsert_other (d : α) (t : List (Nat × α)) {k j : Nat} (a : α) (h : j ≠ k) : tget d (tinsert t k a) j = tget d t j := by
  have h' : k ≠ j := h.symm
  induction t with
  | nil => simp [tinsert, tget, h']
  | cons q t ih =>
    simp only [tinsert]
    split
    · next e => simp [tget, e, h']
    · split
      · simp [tget, h']
      · simp [tget, ih]

/-- A table reads as the default where a key has been erased, and elsewhere as before. -/
theorem tget_terase (d : α) (t : List (Nat × α)) (k j : Nat) : tget d (terase t k) j = if j = k then d else tget d t j := by
  induction t with
  | nil => simp [terase, tget]
  | cons q t ih =>
    by_cases e : q.1 = k
    · have : terase (q :: t) k = terase t k := by simp [terase, e]
      rw [this, ih]
      split
      · rfl
      · next n => simp [tget, e, Ne.symm n]
    · have : terase (q :: t) k = q :: terase t k := by simp [terase, e]
      rw [this]
      simp only [tget, ih]
      by_cases f : q.1 = j
      · simp [f, f ▸ e]
      · simp [f]

/-- A table reads as the value just set at its key, and elsewhere as before. -/
theorem tget_tset [DecidableEq α] (d : α) (t : List (Nat × α)) (k j : Nat) (a : α) :
    tget d (tset d t k a) j = if j = k then a else tget d t j := by
  simp only [tset]
  split
  · next e => rw [tget_terase, e]
  · split
    · next e => rw [e, tget_tinsert_same]
    · next e => exact tget_tinsert_other d t a e

end Sys2Proof.Machine
end

