-- ==== Sys2Proof/Laws/Keeps.lean ====
section
/-! SUPPORT. What every operation of the model keeps: the waiting commands as they are, the parts of the state outside those it changes, the count of free values not lowered, and a sound state
sound. -/

namespace Sys2Proof.Machine

set_option Elab.async false

/-- `t` follows from `s` by operations that leave the queue alone, change only the parts of the state that `P` admits, never lower the count of
free values, and keep a sound state sound. -/
structure Keeps (P : Part → Prop) (s t : State) : Prop where
  pending : t.pending = s.pending
  part : ∀ p, P p ∨ s.sameAt t p
  free : s.free ≤ t.free
  sound : s.sound = true → t.sound = true

/-- An outcome whose next state, where it answers one, is kept so. -/
structure KeepsO (P : Part → Prop) (s : State) (o : Host.Outcome State Fault Refusal) : Prop where
  done : ∃ t, o = .next t
  next : ∀ t, o = .next t → Keeps P s t

variable {P : Part → Prop}

/-- A part unchanged by two changes is unchanged by both. -/
theorem sameAt_trans {s t u : State} : ∀ {p : Part}, s.sameAt t p → t.sameAt u p → s.sameAt u p := by
  intro p h g
  cases p <;> exact g.trans h

/-- A state keeps itself. -/
theorem Keeps.refl (s : State) : Keeps P s s := ⟨rfl, fun p => .inr (by cases p <;> rfl), le_rfl, id⟩

/-- Operations one after another keep. -/
theorem Keeps.trans {s t u : State} (h : Keeps P s t) (g : Keeps P t u) : Keeps P s u :=
  ⟨g.pending.trans h.pending, fun p => (h.part p).elim .inl fun x => (g.part p).imp id (sameAt_trans x), h.free.trans g.free, g.sound ∘ h.sound⟩

/-- A state changed outside the queue keeps where free values are not given back, every table that changed keeps its form, and the parts that
changed are admitted. -/
theorem Keeps.mkAll {r u : State} (h : Keeps P r u) {time answer free regs acc mem reach chan preamp deep servo medium zone host stage memc evr weir
  sluice bkw flash cfl spin watch cal hsk cfx cores trust power} (hf : u.free ≤ free)
    (hm : Memory.wf u.mem = true → Memory.wf mem = true) (hl : Flash.wf u.flash = true → Flash.wf flash = true)
    (hr : twf 0 u.regs = true → twf 0 regs = true) (ha : twf 0 u.acc = true → twf 0 acc = true) (ht : u.time < 2 ^ 48 → time < 2 ^ 48)
    (k_time : P .time ∨ time = u.time := by first | exact .inl ‹_› | exact .inr rfl)
    (k_answer : P .answer ∨ answer = u.answer := by first | exact .inl ‹_› | exact .inr rfl)
    (k_free : P .free ∨ free = u.free := by first | exact .inl ‹_› | exact .inr rfl)
    (k_regs : P .regs ∨ regs = u.regs := by first | exact .inl ‹_› | exact .inr rfl)
    (k_acc : P .acc ∨ acc = u.acc := by first | exact .inl ‹_› | exact .inr rfl)
    (k_mem : P .mem ∨ mem = u.mem := by first | exact .inl ‹_› | exact .inr rfl)
    (k_reach : P .reach ∨ reach = u.reach := by first | exact .inl ‹_› | exact .inr rfl)
    (k_chan : P .chan ∨ chan = u.chan := by first | exact .inl ‹_› | exact .inr rfl)
    (k_preamp : P .preamp ∨ preamp = u.preamp := by first | exact .inl ‹_› | exact .inr rfl)
    (k_deep : P .deep ∨ deep = u.deep := by first | exact .inl ‹_› | exact .inr rfl)
    (k_servo : P .servo ∨ servo = u.servo := by first | exact .inl ‹_› | exact .inr rfl)
    (k_medium : P .medium ∨ medium = u.medium := by first | exact .inl ‹_› | exact .inr rfl)
    (k_zone : P .zone ∨ zone = u.zone := by first | exact .inl ‹_› | exact .inr rfl)
    (k_host : P .host ∨ host = u.host := by first | exact .inl ‹_› | exact .inr rfl)
    (k_stage : P .stage ∨ stage = u.stage := by first | exact .inl ‹_› | exact .inr rfl)
    (k_memc : P .memc ∨ memc = u.memc := by first | exact .inl ‹_› | exact .inr rfl)
    (k_evr : P .evr ∨ evr = u.evr := by first | exact .inl ‹_› | exact .inr rfl)
    (k_weir : P .weir ∨ weir = u.weir := by first | exact .inl ‹_› | exact .inr rfl)
    (k_sluice : P .sluice ∨ sluice = u.sluice := by first | exact .inl ‹_› | exact .inr rfl)
    (k_bkw : P .bkw ∨ bkw = u.bkw := by first | exact .inl ‹_› | exact .inr rfl)
    (k_flash : P .flash ∨ flash = u.flash := by first | exact .inl ‹_› | exact .inr rfl)
    (k_cfl : P .cfl ∨ cfl = u.cfl := by first | exact .inl ‹_› | exact .inr rfl)
    (k_spin : P .spin ∨ spin = u.spin := by first | exact .inl ‹_› | exact .inr rfl)
    (k_watch : P .watch ∨ watch = u.watch := by first | exact .inl ‹_› | exact .inr rfl)
    (k_cal : P .cal ∨ cal = u.cal := by first | exact .inl ‹_› | exact .inr rfl)
    (k_hsk : P .hsk ∨ hsk = u.hsk := by first | exact .inl ‹_› | exact .inr rfl)
    (k_cfx : P .cfx ∨ cfx = u.cfx := by first | exact .inl ‹_› | exact .inr rfl)
    (k_cores : P .cores ∨ cores = u.cores := by first | exact .inl ‹_› | exact .inr rfl)
    (k_trust : P .trust ∨ trust = u.trust := by first | exact .inl ‹_› | exact .inr rfl)
    (k_power : P .power ∨ power = u.power := by first | exact .inl ‹_› | exact .inr rfl) :
    Keeps P r ⟨u.pending, time, answer, free, regs, acc, mem, reach, chan, preamp, deep, servo, medium, zone, host, stage, memc, evr, weir, sluice,
      bkw, flash, cfl, spin, watch, cal, hsk, cfx, cores, trust, power⟩ := by
  refine ⟨h.pending, fun p => ?_, h.free.trans hf, fun g => ?_⟩
  · rcases h.part p with x | x
    · exact .inl x
    · cases p
      · exact k_time.imp id fun y => y.trans x
      · exact k_answer.imp id fun y => y.trans x
      · exact k_free.imp id fun y => y.trans x
      · exact k_regs.imp id fun y => y.trans x
      · exact k_acc.imp id fun y => y.trans x
      · exact k_mem.imp id fun y => y.trans x
      · exact k_reach.imp id fun y => y.trans x
      · exact k_chan.imp id fun y => y.trans x
      · exact k_preamp.imp id fun y => y.trans x
      · exact k_deep.imp id fun y => y.trans x
      · exact k_servo.imp id fun y => y.trans x
      · exact k_medium.imp id fun y => y.trans x
      · exact k_zone.imp id fun y => y.trans x
      · exact k_host.imp id fun y => y.trans x
      · exact k_stage.imp id fun y => y.trans x
      · exact k_memc.imp id fun y => y.trans x
      · exact k_evr.imp id fun y => y.trans x
      · exact k_weir.imp id fun y => y.trans x
      · exact k_sluice.imp id fun y => y.trans x
      · exact k_bkw.imp id fun y => y.trans x
      · exact k_flash.imp id fun y => y.trans x
      · exact k_cfl.imp id fun y => y.trans x
      · exact k_spin.imp id fun y => y.trans x
      · exact k_watch.imp id fun y => y.trans x
      · exact k_cal.imp id fun y => y.trans x
      · exact k_hsk.imp id fun y => y.trans x
      · exact k_cfx.imp id fun y => y.trans x
      · exact k_cores.imp id fun y => y.trans x
      · exact k_trust.imp id fun y => y.trans x
      · exact k_power.imp id fun y => y.trans x
  · have k := h.sound g
    simp only [State.sound, State.regsOk, State.timeOk, Bool.and_eq_true, decide_eq_true_eq] at k ⊢
    exact ⟨⟨⟨hm k.1.1.1, hl k.1.1.2⟩, hr k.1.2.1, ha k.1.2.2⟩, ht k.2⟩

/-- A state changed outside the queue, device time, the count of free values, registers, memory and code flash keeps what the state before
it keeps. -/
theorem Keeps.put {r u : State} (h : Keeps P r u) {answer reach chan preamp deep servo medium zone host stage memc evr weir sluice bkw cfl spin watch
  cal hsk cfx cores trust power}
    (k_answer : P .answer ∨ answer = u.answer := by first | exact .inl ‹_› | exact .inr rfl)
    (k_reach : P .reach ∨ reach = u.reach := by first | exact .inl ‹_› | exact .inr rfl)
    (k_chan : P .chan ∨ chan = u.chan := by first | exact .inl ‹_› | exact .inr rfl)
    (k_preamp : P .preamp ∨ preamp = u.preamp := by first | exact .inl ‹_› | exact .inr rfl)
    (k_deep : P .deep ∨ deep = u.deep := by first | exact .inl ‹_› | exact .inr rfl)
    (k_servo : P .servo ∨ servo = u.servo := by first | exact .inl ‹_› | exact .inr rfl)
    (k_medium : P .medium ∨ medium = u.medium := by first | exact .inl ‹_› | exact .inr rfl)
    (k_zone : P .zone ∨ zone = u.zone := by first | exact .inl ‹_› | exact .inr rfl)
    (k_host : P .host ∨ host = u.host := by first | exact .inl ‹_› | exact .inr rfl)
    (k_stage : P .stage ∨ stage = u.stage := by first | exact .inl ‹_› | exact .inr rfl)
    (k_memc : P .memc ∨ memc = u.memc := by first | exact .inl ‹_› | exact .inr rfl)
    (k_evr : P .evr ∨ evr = u.evr := by first | exact .inl ‹_› | exact .inr rfl)
    (k_weir : P .weir ∨ weir = u.weir := by first | exact .inl ‹_› | exact .inr rfl)
    (k_sluice : P .sluice ∨ sluice = u.sluice := by first | exact .inl ‹_› | exact .inr rfl)
    (k_bkw : P .bkw ∨ bkw = u.bkw := by first | exact .inl ‹_› | exact .inr rfl)
    (k_cfl : P .cfl ∨ cfl = u.cfl := by first | exact .inl ‹_› | exact .inr rfl)
    (k_spin : P .spin ∨ spin = u.spin := by first | exact .inl ‹_› | exact .inr rfl)
    (k_watch : P .watch ∨ watch = u.watch := by first | exact .inl ‹_› | exact .inr rfl)
    (k_cal : P .cal ∨ cal = u.cal := by first | exact .inl ‹_› | exact .inr rfl)
    (k_hsk : P .hsk ∨ hsk = u.hsk := by first | exact .inl ‹_› | exact .inr rfl)
    (k_cfx : P .cfx ∨ cfx = u.cfx := by first | exact .inl ‹_› | exact .inr rfl)
    (k_cores : P .cores ∨ cores = u.cores := by first | exact .inl ‹_› | exact .inr rfl)
    (k_trust : P .trust ∨ trust = u.trust := by first | exact .inl ‹_› | exact .inr rfl)
    (k_power : P .power ∨ power = u.power := by first | exact .inl ‹_› | exact .inr rfl) :
    Keeps P r ⟨u.pending, u.time, answer, u.free, u.regs, u.acc, u.mem, reach, chan, preamp, deep, servo, medium, zone, host, stage, memc, evr, weir,
      sluice, bkw, u.flash, cfl, spin, watch, cal, hsk, cfx, cores, trust, power⟩ :=
  h.mkAll le_rfl id id id id id (.inr rfl) k_answer (.inr rfl) (.inr rfl) (.inr rfl) (.inr rfl) k_reach k_chan k_preamp k_deep k_servo k_medium
    k_zone k_host k_stage k_memc k_evr k_weir k_sluice k_bkw (.inr rfl) k_cfl k_spin k_watch k_cal k_hsk k_cfx k_cores k_trust k_power

/-- Memory bytes replaced leave memory canonical. -/
theorem memPutBytes_wf (a : Nat) (l : List Nat) {m : List Host.Cell} (h : Memory.wf m = true) : Memory.wf (memPutBytes m a l) = true := by
  induction l generalizing m a with
  | nil => exact h
  | cons b l ih => exact ih _ (twf_tset _ _ h)

/-- Several runs of bytes replaced leave memory canonical. -/
theorem foldl_memPut_wf (f : Nat → Nat) (g : Nat → List Nat) (l : List Nat) {m : List Host.Cell} (h : Memory.wf m = true) :
    Memory.wf (l.foldl (fun m i => memPutBytes m (f i) (g i)) m) = true := by
  induction l generalizing m with
  | nil => exact h
  | cons b l ih => exact ih (memPutBytes_wf _ _ h)

/-- Enabled bytes replaced leave memory canonical. -/
theorem putEnabled_wf (a be : Nat) (l : List Nat) {m : List Host.Cell} (h : Memory.wf m = true) : Memory.wf (putEnabled m a be l) = true := by
  induction l generalizing m a be with
  | nil => exact h
  | cons b l ih =>
    refine ih _ _ ?_
    split
    · exact twf_tset _ _ h
    · exact h

/-- Code-flash bytes replaced leave it canonical. -/
theorem flashPut_wf (a : Nat) (l : List Nat) {m : List Host.Cell} (h : Flash.wf m = true) : Flash.wf (flashPut m a l) = true := by
  induction l generalizing m a with
  | nil => exact h
  | cons b l ih => exact ih _ (twf_tset _ _ h)

/-- Words programmed leave code flash canonical. -/
theorem flashProgram_wf (a : Nat) (l : List Nat) {m : List Host.Cell} (h : Flash.wf m = true) : Flash.wf (flashProgram m a l) = true := by
  induction l generalizing m a with
  | nil => exact h
  | cons b l ih => exact ih _ (flashPut_wf _ _ h)

/-- Bytes erased leave code flash canonical. -/
theorem flash_filter_wf (f : Host.Cell → Bool) {m : List Host.Cell} (h : Flash.wf m = true) : Flash.wf (m.filter f) = true := twf_filter f h

/-- A state on the way that is kept. -/
theorem Keeps.step {r x : State} {Q : Prop} (h : Keeps P r x) (k : Keeps P r x → Q) : Q := k h

/-- A next state. -/
theorem KeepsO.of_next {r s : State} (h : Keeps P r s) : KeepsO P r (.next s) := ⟨⟨s, rfl⟩, fun _ e => by cases e; exact h⟩

/-- A list worked through. -/
theorem Keeps.foldl {α : Type _} {r : State} {f : State → α → State} {l : List α} {s : State} (h : Keeps P r s)
    (hf : ∀ t x, Keeps P r t → Keeps P r (f t x)) : Keeps P r (l.foldl f s) := by
  induction l generalizing s with
  | nil => exact h
  | cons a l ih => exact ih (hf s a h)

/-- A choice. -/
theorem Keeps.ite {r s t : State} {p : Prop} [Decidable p] (h : Keeps P r s) (g : Keeps P r t) : Keeps P r (if p then s else t) := by
  split
  · exact h
  · exact g

/-- A choice by what is there. -/
theorem Keeps.elim {α : Type _} {r s : State} {o : Option α} {f : α → State} (h : Keeps P r s) (g : ∀ x, Keeps P r (f x)) :
    Keeps P r (o.elim s f) := by
  cases o with
  | none => exact h
  | some x => exact g x

/-- The state of a pair that is given. -/
theorem Keeps.fst_mk {α : Type _} {r s : State} {v : α} (h : Keeps P r s) : Keeps P r (s, v).1 := h

/-- The state of a pair. -/
theorem Keeps.fst {α : Type _} {r s : State} {p : State × α} {v : α} (e : p = (s, v)) (h : Keeps P r p.1) : Keeps P r s := by
  subst e; exact h

end Sys2Proof.Machine
end

