-- ==== Sys2Proof/Laws/KeepsOps.lean ====
section
/-! SUPPORT. What the operations of Machine/Ops.lean keep. -/

namespace Sys2Proof.Machine

set_option Elab.async false

/-- `State.wr` keeps. -/
theorem keeps_wr {P : Part → Prop} {r s : State} {b1 : Fld} {b2 : ℕ} (p_regs : P .regs) (h : Keeps P r s) : Keeps P r (State.wr s b1 b2) := by
  unfold State.wr
  exact Keeps.mkAll h le_rfl id id (twf_tset _ _) id id

/-- `State.count` keeps. -/
theorem keeps_count {P : Part → Prop} {r s : State} {b1 : Fld} {b2 : ℕ} (p_regs : P .regs) (p_acc : P .acc) (h : Keeps P r s) : Keeps P r (State.count s b1 b2) := by
  unfold State.count
  exact Keeps.mkAll (u := s.wr b1 _) (keeps_wr p_regs h) le_rfl id id id (fun k => twf_tset _ _ k) id

/-- `State.bump` keeps. -/
theorem keeps_bump {P : Part → Prop} {r s : State} {b1 : Fld} (p_regs : P .regs) (h : Keeps P r s) : Keeps P r (State.bump s b1) := by
  unfold State.bump
  exact (keeps_wr p_regs h)

/-- `State.raiseAs` keeps. -/
theorem keeps_raiseAs {P : Part → Prop} {r s : State} {b1 : ℕ} {b2 : ℕ} {b3 : ℕ} {b4 : ℕ} {b5 : List ℕ} (p_evr : P .evr) (h : Keeps P r s) : Keeps P r (State.raiseAs s b1
    b2 b3 b4 b5) := by
  unfold State.raiseAs
  exact (Keeps.put h)

/-- `State.raise` keeps. -/
theorem keeps_raise {P : Part → Prop} {r s : State} {b1 : UnitRef} {b2 : ℕ} {b3 : ℕ} {b4 : List ℕ} (p_evr : P .evr) (h : Keeps P r s) : Keeps P r (State.raise s b1 b2 b3
    b4) := by
  unfold State.raise
  exact (keeps_raiseAs p_evr h)

/-- `State.busError` keeps. -/
theorem keeps_busError {P : Part → Prop} {r s : State} (p_answer : P .answer) (h : Keeps P r s) : Keeps P r (State.busError s) := by
  unfold State.busError
  exact (Keeps.put h)

/-- `State.reply` keeps. -/
theorem keeps_reply {P : Part → Prop} {r s : State} {b1 : ℕ} (p_answer : P .answer) (h : Keeps P r s) : Keeps P r (State.reply s b1) := by
  unfold State.reply
  exact (Keeps.put h)

/-- `State.tookFree` keeps. -/
theorem keeps_tookFree {P : Part → Prop} {r s : State} (p_free : P .free) (h : Keeps P r s) : Keeps P r (State.tookFree s) := by
  unfold State.tookFree
  exact Keeps.mkAll h (Nat.le_succ _) id id id id id

/-- `State.wrs` keeps. -/
theorem keeps_wrs {P : Part → Prop} {r s : State} {b1 : List (Fld × ℕ)} (p_regs : P .regs) (h : Keeps P r s) : Keeps P r (State.wrs s b1) := by
  induction b1 generalizing s 
  · simp only [State.wrs]
    exact h
  · rename_i a1 a2 ih
    simp only [State.wrs]
    exact (ih (keeps_wr p_regs h))

/-- `State.setUnit` keeps. -/
theorem keeps_setUnit {P : Part → Prop} {r s : State} {b1 : UnitRef} {b2 : ℕ} (p_regs : P .regs) (h : Keeps P r s) : Keeps P r (State.setUnit s b1 b2) := by
  unfold State.setUnit
  exact (keeps_wr p_regs h)

/-- `State.clrB` keeps. -/
theorem keeps_clrB {P : Part → Prop} {r s : State} {b1 : Fld} {b2 : ℕ} (p_regs : P .regs) (h : Keeps P r s) : Keeps P r (State.clrB s b1 b2) := by
  unfold State.clrB
  exact (keeps_wr p_regs h)

/-- `State.setB` keeps. -/
theorem keeps_setB {P : Part → Prop} {r s : State} {b1 : Fld} {b2 : ℕ} (p_regs : P .regs) (h : Keeps P r s) : Keeps P r (State.setB s b1 b2) := by
  unfold State.setB
  exact (keeps_wr p_regs h)

/-- `State.setBits` keeps. -/
theorem keeps_setBits {P : Part → Prop} {r s : State} {b1 : Fld} {b2 : ℕ} (p_regs : P .regs) (h : Keeps P r s) : Keeps P r (State.setBits s b1 b2) := by
  unfold State.setBits
  exact (keeps_wr p_regs h)

/-- `State.fault` keeps. -/
theorem keeps_fault {P : Part → Prop} {r s : State} {b1 : UnitRef} {b2 : ℕ} {b3 : ℕ} {b4 : List ℕ} (p_regs : P .regs) (p_evr : P .evr) (h : Keeps P r s) : Keeps P r
    (State.fault s b1 b2 b3 b4) := by
  unfold State.fault
  exact (keeps_raise p_evr (keeps_wr p_regs (keeps_wr p_regs h)))

/-- `State.recovery` keeps. -/
theorem keeps_recovery {P : Part → Prop} {r s : State} (p_evr : P .evr) (h : Keeps P r s) : Keeps P r (State.recovery s) := by
  unfold State.recovery
  exact (Keeps.put h)

end Sys2Proof.Machine
end

