-- ==== Sys2Proof/Laws/KeepsKeys.lean ====
section
/-! SUPPORT. What the operations of Machine/Keys.lean keep. -/

namespace Sys2Proof.Machine

set_option Elab.async false

/-- `State.truPut` keeps. -/
theorem keeps_truPut {P : Part → Prop} {r s : State} {b1 : TrustUnit → TrustUnit} (p_trust : P .trust) (h : Keeps P r s) : Keeps P r (State.truPut s b1) := by
  unfold State.truPut
  exact (Keeps.put h)

/-- `State.setKey` keeps. -/
theorem keeps_setKey {P : Part → Prop} {r s : State} {b1 : ℕ} {b2 : Bool} (p_regs : P .regs) (p_trust : P .trust) (h : Keeps P r s) : Keeps P r (State.setKey s b1 b2) := by
  unfold State.setKey
  exact (keeps_truPut p_trust (keeps_wr p_regs h))

/-- `State.fitKey` keeps. -/
theorem keeps_fitKey {P : Part → Prop} {r s : State} {b1 : ℕ} (p_regs : P .regs) (p_trust : P .trust) (h : Keeps P r s) : Keeps P r (State.fitKey s b1) := by
  unfold State.fitKey
  exact (keeps_setKey p_regs p_trust h)

/-- `State.newKey` keeps. -/
theorem keeps_newKey {P : Part → Prop} {r s : State} {b1 : ℕ} (p_regs : P .regs) (p_trust : P .trust) (h : Keeps P r s) : Keeps P r (State.newKey s b1) := by
  unfold State.newKey
  extract_lets +onlyGivenNames x1
  clear_value x1
  extract_lets +onlyGivenNames x2
  have h3 : Keeps P r x2 := (keeps_fitKey p_regs p_trust (keeps_truPut p_trust h))
  clear_value x2
  exact (keeps_wr p_regs (keeps_wr p_regs (keeps_wr p_regs h3)))

/-- `State.applyChange` keeps. -/
theorem keeps_applyChange {P : Part → Prop} {r s : State} {b1 : ℕ} {b2 : RangeChange} (p_regs : P .regs) (p_trust : P .trust) (h : Keeps P r s) : Keeps P r (State.applyChange
    s b1 b2) := by
  unfold State.applyChange
  split
  · exact (keeps_fitKey p_regs p_trust (keeps_wr p_regs (keeps_wr p_regs h)))
  · exact (keeps_wrs p_regs h)
  · exact (keeps_newKey p_regs p_trust h)

/-- `State.applyChanges` keeps. -/
theorem keeps_applyChanges {P : Part → Prop} {r s : State} {b1 : List (ℕ × RangeChange × List ℕ)} (p_regs : P .regs) (p_trust : P .trust) (h : Keeps P r s) : Keeps P r
    (State.applyChanges s b1) := by
  induction b1 generalizing s 
  · simp only [State.applyChanges]
    exact h
  · rename_i a1 a2 ih
    simp only [State.applyChanges]
    exact (ih (Keeps.ite (keeps_applyChange p_regs p_trust h) h))

/-- `State.settleSanitize` keeps. -/
theorem keeps_settleSanitize {P : Part → Prop} {r s : State} (p_host : P .host) (h : Keeps P r s) : Keeps P r (State.settleSanitize s) := by
  unfold State.settleSanitize
  extract_lets +onlyGivenNames x1
  clear_value x1
  exact (Keeps.ite (Keeps.put h) h)

/-- `State.settleRanges` keeps. -/
theorem keeps_settleRanges {P : Part → Prop} {r s : State} {b1 : ℕ} (p_regs : P .regs) (p_host : P .host) (p_trust : P .trust) (h : Keeps P r s) : Keeps P r (State.settleRanges
    s b1) := by
  unfold State.settleRanges
  extract_lets +onlyGivenNames x1
  clear_value x1
  exact (keeps_settleSanitize p_host (keeps_applyChanges p_regs p_trust (keeps_truPut p_trust h)))

end Sys2Proof.Machine
end

