-- ==== Sys2Proof/Laws/KeepsCtx.lean ====
section
/-! SUPPORT. What the operations of Machine/Ctx.lean keep. -/

namespace Sys2Proof.Machine

set_option Elab.async false

/-- `State.ctxSync` keeps. -/
theorem keeps_ctxSync {P : Part → Prop} {r s : State} {b1 : ℕ} (p_mem : P .mem) (h : Keeps P r s) : Keeps P r (State.ctxSync s b1) := by
  unfold State.ctxSync
  exact Keeps.mkAll h le_rfl (memPutBytes_wf _ _) id id id id

/-- `State.hput` keeps. -/
theorem keeps_hput {P : Part → Prop} {r s : State} {b1 : HostSide → HostSide} (p_host : P .host) (h : Keeps P r s) : Keeps P r (State.hput s b1) := by
  unfold State.hput
  exact (Keeps.put h)

/-- `State.ctxUpd` keeps. -/
theorem keeps_ctxUpd {P : Part → Prop} {r s : State} {b1 : ℕ} {b2 : Ctx → Ctx} (p_mem : P .mem) (p_host : P .host) (h : Keeps P r s) : Keeps P r (State.ctxUpd s b1 b2) := by
  unfold State.ctxUpd
  exact (keeps_ctxSync p_mem (keeps_hput p_host h))

/-- `State.handOver` keeps. -/
theorem keeps_handOver {P : Part → Prop} {r s : State} {b1 : ℕ} {b2 : ℕ} {b3 : ℕ} (p_mem : P .mem) (p_host : P .host) (h : Keeps P r s) : Keeps P r (State.handOver s b1 b2
    b3) := by
  unfold State.handOver
  extract_lets +onlyGivenNames x1
  exact (keeps_ctxUpd p_mem p_host h)

/-- `State.ctxFree` keeps. -/
theorem keeps_ctxFree {P : Part → Prop} {r s : State} {b1 : ℕ} (p_regs : P .regs) (p_mem : P .mem) (p_host : P .host) (p_stage : P .stage) (p_trust : P .trust) (h : Keeps
    P r s) : Keeps P r (State.ctxFree s b1) := by
  unfold State.ctxFree
  extract_lets +onlyGivenNames x1
  have h2 : Keeps P r x1 := (keeps_hput p_host h)
  clear_value x1
  extract_lets +onlyGivenNames x3
  clear_value x3
  extract_lets +onlyGivenNames x4
  have h5 : Keeps P r x4 := (Keeps.put h2)
  clear_value x4
  exact (keeps_settleRanges p_regs p_host p_trust (keeps_ctxSync p_mem (keeps_wr p_regs h5)))

/-- `State.ctxNew` keeps. -/
theorem keeps_ctxNew {P : Part → Prop} {r s : State} {b1 : ℕ} {b2 : Ctx} (p_regs : P .regs) (p_mem : P .mem) (p_host : P .host) (h : Keeps P r s) : Keeps P r
    (State.ctxNew s b1 b2) := by
  unfold State.ctxNew
  exact (keeps_ctxSync p_mem (keeps_wr p_regs (keeps_hput p_host h)))

end Sys2Proof.Machine
end

