-- ==== Sys2Proof/Laws/KeepsLink.lean ====
section
/-! SUPPORT. What the operations of Machine/Link.lean keep. -/

namespace Sys2Proof.Machine

set_option Elab.async false

/-- `State.cfxUpd` keeps. -/
theorem keeps_cfxUpd {P : Part → Prop} {r s : State} {b1 : CfxUnit → CfxUnit} (p_cfx : P .cfx) (h : Keeps P r s) : Keeps P r (State.cfxUpd s b1) := by
  unfold State.cfxUpd
  exact (Keeps.put h)

/-- `State.send` keeps. -/
theorem keeps_send {P : Part → Prop} {r s : State} {b1 : CMsg} (p_cfx : P .cfx) (h : Keeps P r s) : Keeps P r (State.send s b1) := by
  unfold State.send
  exact (keeps_cfxUpd p_cfx h)

/-- `State.grantTokens` keeps. -/
theorem keeps_grantTokens {P : Part → Prop} {r s : State} {b1 : List ℕ} (p_regs : P .regs) (p_cfx : P .cfx) (h : Keeps P r s) : Keeps P r (State.grantTokens s b1) := by
  induction b1 generalizing s 
  · simp only [State.grantTokens]
    exact h
  · rename_i a1 a2 ih
    simp only [State.grantTokens]
    exact (Keeps.ite (ih (Keeps.ite (keeps_cfxUpd p_cfx (keeps_wr p_regs (keeps_cfxUpd p_cfx h))) (keeps_send p_cfx (keeps_cfxUpd p_cfx h)))) h)

/-- `State.tokenReturn` keeps. -/
theorem keeps_tokenReturn {P : Part → Prop} {r s : State} {b1 : ℕ} (p_regs : P .regs) (p_cfx : P .cfx) (h : Keeps P r s) : Keeps P r (State.tokenReturn s b1) := by
  unfold State.tokenReturn
  extract_lets +onlyGivenNames x1
  have h2 : Keeps P r x1 := (keeps_cfxUpd p_cfx h)
  clear_value x1
  exact (keeps_grantTokens p_regs p_cfx h2)

/-- `State.tokenGive` keeps. -/
theorem keeps_tokenGive {P : Part → Prop} {r s : State} (p_regs : P .regs) (p_cfx : P .cfx) (h : Keeps P r s) : Keeps P r (State.tokenGive s) := by
  unfold State.tokenGive
  extract_lets +onlyGivenNames x1
  clear_value x1
  extract_lets +onlyGivenNames x2
  clear_value x2
  extract_lets +onlyGivenNames x3
  have h4 : Keeps P r x3 := (keeps_cfxUpd p_cfx (keeps_wr p_regs (keeps_wr p_regs h)))
  clear_value x3
  exact (Keeps.ite h4 (Keeps.ite (keeps_tokenReturn p_regs p_cfx h4) (Keeps.ite (keeps_send p_cfx h4) h4)))

/-- `State.dropCredits` keeps. -/
theorem keeps_dropCredits {P : Part → Prop} {r s : State} {b1 : ℕ} (p_cfx : P .cfx) (h : Keeps P r s) : Keeps P r (State.dropCredits s b1) := by
  unfold State.dropCredits
  exact (keeps_cfxUpd p_cfx h)

/-- `State.tokenRequest` keeps. -/
theorem keeps_tokenRequest {P : Part → Prop} {r s : State} {b1 : ℕ} (p_regs : P .regs) (p_cfx : P .cfx) (h : Keeps P r s) : Keeps P r (State.tokenRequest s b1) := by
  unfold State.tokenRequest
  split
  · exact h
  · extract_lets +onlyGivenNames x1
    have h2 : Keeps P r x1 := (keeps_cfxUpd p_cfx h)
    clear_value x1
    exact (keeps_grantTokens p_regs p_cfx h2)

/-- `State.updPeer` keeps. -/
theorem keeps_updPeer {P : Part → Prop} {r s : State} {b1 : ℕ} {b2 : Peer → Peer} (p_cfx : P .cfx) (h : Keeps P r s) : Keeps P r (State.updPeer s b1 b2) := by
  unfold State.updPeer
  exact (keeps_cfxUpd p_cfx h)

/-- `State.relay` keeps. -/
theorem keeps_relay {P : Part → Prop} {r s : State} {b1 : ℕ} {b2 : ℕ} {b3 : ℕ} {b4 : Bool} (p_cfx : P .cfx) (h : Keeps P r s) : Keeps P r (State.relay s b1 b2 b3 b4) := by
  unfold State.relay
  extract_lets +onlyGivenNames x1
  clear_value x1
  exact (Keeps.ite h (Keeps.ite (Keeps.ite (keeps_cfxUpd p_cfx h) h) (keeps_cfxUpd p_cfx h)))

/-- `State.sendHeld` keeps. -/
theorem keeps_sendHeld {P : Part → Prop} {r s : State} {b1 : ℕ} {b2 : ℕ} (p_cfx : P .cfx) (h : Keeps P r s) : Keeps P r (State.sendHeld s b1 b2) := by
  unfold State.sendHeld
  split
  · exact h
  · exact (Keeps.ite (keeps_cfxUpd p_cfx h) h)

/-- `State.slotBack` keeps. -/
theorem keeps_slotBack {P : Part → Prop} {r s : State} {b1 : ℕ} {b2 : ℕ} (p_cfx : P .cfx) (h : Keeps P r s) : Keeps P r (State.slotBack s b1 b2) := by
  unfold State.slotBack
  exact (keeps_sendHeld p_cfx (keeps_cfxUpd p_cfx h))

/-- `State.tokenAsk` keeps. -/
theorem keeps_tokenAsk {P : Part → Prop} {r s : State} (p_regs : P .regs) (p_cfx : P .cfx) (h : Keeps P r s) : Keeps P r (State.tokenAsk s) := by
  unfold State.tokenAsk
  split
  · exact h
  · extract_lets +onlyGivenNames x1
    have h2 : Keeps P r x1 := (keeps_cfxUpd p_cfx h)
    clear_value x1
    exact (Keeps.ite (keeps_tokenRequest p_regs p_cfx h2) (Keeps.ite (keeps_send p_cfx h2) h2))

end Sys2Proof.Machine
end

