-- ==== Sys2Proof/Laws/KeepsMotion.lean ====
section
/-! SUPPORT. What the operations of Machine/Motion.lean keep. -/

namespace Sys2Proof.Machine

set_option Elab.async false

/-- `State.updCh` keeps. -/
theorem keeps_updCh {P : Part → Prop} {r s : State} {b1 : Fin 4} {b2 : Chan → Chan} (p_chan : P .chan) (h : Keeps P r s) : Keeps P r (State.updCh s b1 b2) := by
  unfold State.updCh
  exact (Keeps.put h)

/-- `State.updSv` keeps. -/
theorem keeps_updSv {P : Part → Prop} {r s : State} {b1 : Fin 4} {b2 : Servo → Servo} (p_servo : P .servo) (h : Keeps P r s) : Keeps P r (State.updSv s b1 b2) := by
  unfold State.updSv
  exact (Keeps.put h)

/-- `State.dropOnt` keeps. -/
theorem keeps_dropOnt {P : Part → Prop} {r s : State} {b1 : Fin 4} (p_regs : P .regs) (p_servo : P .servo) (h : Keeps P r s) : Keeps P r (State.dropOnt s b1) := by
  unfold State.dropOnt
  exact (keeps_updSv p_servo (keeps_wr p_regs h))

/-- `State.clearBlk` keeps. -/
theorem keeps_clearBlk {P : Part → Prop} {r s : State} {b1 : Fin 4} (p_regs : P .regs) (p_servo : P .servo) (h : Keeps P r s) : Keeps P r (State.clearBlk s b1) := by
  unfold State.clearBlk
  exact (keeps_updSv p_servo (keeps_dropOnt p_regs p_servo (keeps_wr p_regs (keeps_wr p_regs h))))

/-- `State.headCount` keeps. -/
theorem keeps_headCount {P : Part → Prop} {r s : State} {b1 : Fin 4} {b2 : Fld} (p_regs : P .regs) (p_acc : P .acc) (h : Keeps P r s) : Keeps P r (State.headCount s b1 b2) := by
  unfold State.headCount
  extract_lets +onlyGivenNames x1
  have h2 : Keeps P r x1 := (keeps_count p_regs p_acc h)
  clear_value x1
  exact (Keeps.ite (keeps_wr p_regs h2) h2)

/-- `State.countBlkLoss` keeps. -/
theorem keeps_countBlkLoss {P : Part → Prop} {r s : State} {b1 : Fin 4} (p_regs : P .regs) (p_acc : P .acc) (h : Keeps P r s) : Keeps P r (State.countBlkLoss s b1) := by
  unfold State.countBlkLoss
  exact (keeps_headCount p_regs p_acc (keeps_wr p_regs h))

/-- `State.updEng` keeps. -/
theorem keeps_updEng {P : Part → Prop} {r s : State} {b1 : Fin 4} {b2 : Reach → Reach} (p_reach : P .reach) (h : Keeps P r s) : Keeps P r (State.updEng s b1 b2) := by
  unfold State.updEng
  exact (Keeps.put h)

/-- `State.armSend` keeps. -/
theorem keeps_armSend {P : Part → Prop} {r s : State} {b1 : Fin 4} {b2 : ArmTx} (p_chan : P .chan) (h : Keeps P r s) : Keeps P r (State.armSend s b1 b2) := by
  unfold State.armSend
  exact (keeps_updCh p_chan h)

/-- `State.sendDisarm` keeps. -/
theorem keeps_sendDisarm {P : Part → Prop} {r s : State} {b1 : Fin 4} (p_chan : P .chan) (h : Keeps P r s) : Keeps P r (State.sendDisarm s b1) := by
  unfold State.sendDisarm
  exact (keeps_armSend p_chan h)

/-- `State.updSlot` keeps. -/
theorem keeps_updSlot {P : Part → Prop} {r s : State} {b1 : Fin 4} {b2 : Fin 4} {b3 : Slot → Slot} (p_reach : P .reach) (h : Keeps P r s) : Keeps P r (State.updSlot s b1
    b2 b3) := by
  unfold State.updSlot
  exact (keeps_updEng p_reach h)

/-- `State.setBias` keeps. -/
theorem keeps_setBias {P : Part → Prop} {r s : State} {b1 : Fin 4} {b2 : ℤ} (p_free : P .free) (p_servo : P .servo) (h : Keeps P r s) : Keeps P r (State.setBias s b1 b2) := by
  unfold State.setBias
  extract_lets +onlyGivenNames x1
  clear_value x1
  extract_lets +onlyGivenNames x2
  clear_value x2
  exact (Keeps.ite (keeps_updSv p_servo (keeps_tookFree p_free h)) (keeps_updSv p_servo h))

/-- `State.beginMove` keeps. -/
theorem keeps_beginMove {P : Part → Prop} {r s : State} {b1 : Fin 4} {b2 : ℕ} {b3 : ℤ} (p_free : P .free) (p_regs : P .regs) (p_acc : P .acc) (p_servo : P .servo) (h : Keeps
    P r s) : Keeps P r (State.beginMove s b1 b2 b3) := by
  unfold State.beginMove
  extract_lets +onlyGivenNames x1
  clear_value x1
  extract_lets +onlyGivenNames x2
  have h3 : Keeps P r x2 := (keeps_count p_regs p_acc (keeps_dropOnt p_regs p_servo h))
  clear_value x2
  extract_lets +onlyGivenNames x4
  extract_lets +onlyGivenNames x5
  split
  · unfold x5
    refine keeps_updSv p_servo ?_
    unfold x4
    exact (Keeps.ite h3 (keeps_wr p_regs h3))
  · unfold x5
    refine keeps_updSv p_servo ?_
    refine keeps_setBias p_free p_servo ?_
    refine keeps_count p_regs p_acc ?_
    unfold x4
    exact (Keeps.ite h3 (keeps_wr p_regs h3))

/-- `State.startSeek` keeps. -/
theorem keeps_startSeek {P : Part → Prop} {r s : State} {b1 : Fin 4} (p_free : P .free) (p_regs : P .regs) (p_acc : P .acc) (p_servo : P .servo) (h : Keeps P r s) : Keeps P
    r (State.startSeek s b1) := by
  unfold State.startSeek
  split
  · exact h
  · split
    · exact h
    · exact (keeps_beginMove p_free p_regs p_acc p_servo h)

/-- `State.moveTo` keeps. -/
theorem keeps_moveTo {P : Part → Prop} {r s : State} {b1 : Fin 4} {b2 : Target} (p_free : P .free) (p_regs : P .regs) (p_acc : P .acc) (p_servo : P .servo) (h : Keeps P r
    s) : Keeps P r (State.moveTo s b1 b2) := by
  unfold State.moveTo
  extract_lets +onlyGivenNames x1
  have h2 : Keeps P r x1 := (keeps_updSv p_servo h)
  clear_value x1
  exact (keeps_startSeek p_free p_regs p_acc p_servo (keeps_updSv p_servo h2))

/-- `State.sendSelect` keeps. -/
theorem keeps_sendSelect {P : Part → Prop} {r s : State} {b1 : Fin 4} {b2 : Fin 4} {b3 : ℕ} (p_chan : P .chan) (h : Keeps P r s) : Keeps P r (State.sendSelect s b1 b2 b3) := by
  unfold State.sendSelect
  exact (keeps_armSend p_chan h)

/-- `State.nameSet` keeps. -/
theorem keeps_nameSet {P : Part → Prop} {r s : State} {b1 : Fin 4} {b2 : Fin 4} (p_servo : P .servo) (h : Keeps P r s) : Keeps P r (State.nameSet s b1 b2) := by
  unfold State.nameSet
  exact (Keeps.ite (keeps_updSv p_servo h) (keeps_updSv p_servo h))

/-- `State.dropTarget` keeps. -/
theorem keeps_dropTarget {P : Part → Prop} {r s : State} {b1 : Fin 4} (p_regs : P .regs) (p_servo : P .servo) (h : Keeps P r s) : Keeps P r (State.dropTarget s b1) := by
  unfold State.dropTarget
  split
  · exact (keeps_updSv p_servo (keeps_wr p_regs h))
  · exact (keeps_updSv p_servo (keeps_wr p_regs h))
  · exact (keeps_updSv p_servo (keeps_wr p_regs h))
  · exact (keeps_updSv p_servo (keeps_wr p_regs h))
  · exact (keeps_updSv p_servo h)
  · exact (keeps_updSv p_servo h)

/-- `State.updArch` keeps. -/
theorem keeps_updArch {P : Part → Prop} {r s : State} {b1 : Fin 4} {b2 : Fin 4} {b3 : Arch → Arch} (p_reach : P .reach) (h : Keeps P r s) : Keeps P r (State.updArch s b1
    b2 b3) := by
  unfold State.updArch
  exact (keeps_updSlot p_reach h)

/-- `State.freshSeek` keeps. -/
theorem keeps_freshSeek {P : Part → Prop} {r s : State} {b1 : Fin 4} (p_servo : P .servo) (h : Keeps P r s) : Keeps P r (State.freshSeek s b1) := by
  unfold State.freshSeek
  exact (keeps_updSv p_servo h)

/-- `State.updPreamp` keeps. -/
theorem keeps_updPreamp {P : Part → Prop} {r s : State} {b1 : Fin 4} {b2 : Preamp → Preamp} (p_preamp : P .preamp) (h : Keeps P r s) : Keeps P r (State.updPreamp s b1 b2) := by
  unfold State.updPreamp
  exact (Keeps.put h)

/-- `State.linkErr` keeps. -/
theorem keeps_linkErr {P : Part → Prop} {r s : State} {b1 : Fin 4} {b2 : Bool} {b3 : ℕ} {b4 : Bool} (p_regs : P .regs) (p_evr : P .evr) (h : Keeps P r s) : Keeps P r
    (State.linkErr s b1 b2 b3 b4) := by
  unfold State.linkErr
  exact (keeps_raise p_evr (keeps_wr p_regs h))

end Sys2Proof.Machine
end

