-- ==== Sys2Proof/Laws/KeepsMemory.lean ====
section
/-! SUPPORT. What the operations of Machine/Memory.lean keep. -/

namespace Sys2Proof.Machine

set_option Elab.async false

/-- `State.addCredit` keeps. -/
theorem keeps_addCredit {P : Part → Prop} {r s : State} {b1 : ℕ} (p_regs : P .regs) (p_acc : P .acc) (p_memc : P .memc) (p_evr : P .evr) (h : Keeps P r s) : Keeps P r
    (State.addCredit s b1) := by
  unfold State.addCredit
  extract_lets +onlyGivenNames x1
  clear_value x1
  split
  · exact (keeps_bump p_regs h)
  · extract_lets +onlyGivenNames x2
    have h3 : Keeps P r x2 := (keeps_wr p_regs (keeps_count p_regs p_acc h))
    clear_value x2
    split
    · split
      · exact h3
      · extract_lets +onlyGivenNames x4
        have h5 : Keeps P r x4 := (keeps_raise p_evr h3)
        clear_value x4
        exact (Keeps.put h5)
    · split
      · exact h3
      · extract_lets +onlyGivenNames x6
        have h7 : Keeps P r x6 := (keeps_raise p_evr h3)
        clear_value x6
        exact (Keeps.put h7)

/-- `State.leak` keeps. -/
theorem keeps_leak {P : Part → Prop} {r s : State} {b1 : ℕ} (p_regs : P .regs) (p_memc : P .memc) (h : Keeps P r s) : Keeps P r (State.leak s b1) := by
  unfold State.leak
  split
  · exact h
  · extract_lets +onlyGivenNames x1
    clear_value x1
    extract_lets +onlyGivenNames x2
    have h3 : Keeps P r x2 := (keeps_wr p_regs h)
    clear_value x2
    exact (Keeps.put h3)

/-- `State.credit` keeps. -/
theorem keeps_credit {P : Part → Prop} {r s : State} {b1 : ℕ} (p_regs : P .regs) (p_acc : P .acc) (p_memc : P .memc) (p_evr : P .evr) (h : Keeps P r s) : Keeps P r
    (State.credit s b1) := by
  unfold State.credit
  exact (keeps_addCredit p_regs p_acc p_memc p_evr (keeps_leak p_regs p_memc h))

/-- `State.corrected` keeps. -/
theorem keeps_corrected {P : Part → Prop} {r s : State} {b1 : ℕ} {b2 : ℕ} {b3 : Bool} (p_regs : P .regs) (p_acc : P .acc) (p_memc : P .memc) (p_evr : P .evr) (h : Keeps P r
    s) : Keeps P r (State.corrected s b1 b2 b3) := by
  unfold State.corrected
  exact (keeps_credit p_regs p_acc p_memc p_evr (keeps_wr p_regs (keeps_wr p_regs (keeps_wr p_regs (keeps_wr p_regs (keeps_count p_regs p_acc h))))))

/-- `State.setErr` keeps. -/
theorem keeps_setErr {P : Part → Prop} {r s : State} {b1 : ℕ} {b2 : ℕ} (p_memc : P .memc) (h : Keeps P r s) : Keeps P r (State.setErr s b1 b2) := by
  unfold State.setErr
  exact (Keeps.put h)

/-- `State.inject` keeps. -/
theorem keeps_inject {P : Part → Prop} {r s : State} {b1 : ℕ} (p_regs : P .regs) (p_memc : P .memc) (h : Keeps P r s) : Keeps P r (State.inject s b1) := by
  unfold State.inject
  exact (Keeps.ite (keeps_wr p_regs (keeps_wr p_regs (keeps_setErr p_memc h))) h)

/-- `State.putWord` keeps. -/
theorem keeps_putWord {P : Part → Prop} {r s : State} {b1 : ℕ} {b2 : ℕ} (p_mem : P .mem) (h : Keeps P r s) : Keeps P r (State.putWord s b1 b2) := by
  unfold State.putWord
  exact Keeps.mkAll h le_rfl (memPutBytes_wf _ _) id id id id

/-- `State.memPut` keeps. -/
theorem keeps_memPut {P : Part → Prop} {r s : State} {b1 : ℕ} {b2 : ℕ} {b3 : ℕ} (p_regs : P .regs) (p_acc : P .acc) (p_mem : P .mem) (p_memc : P .memc) (p_evr : P .evr)
    (h : Keeps P r s) : Keeps P r (State.memPut s b1 b2 b3) := by
  unfold State.memPut
  extract_lets +onlyGivenNames x1
  clear_value x1
  split
  · exact h
  · split
    · exact (keeps_inject p_regs p_memc (keeps_setErr p_memc (keeps_putWord p_mem h)))
    · extract_lets +onlyGivenNames x2
      clear_value x2
      split
      · extract_lets +onlyGivenNames x3
        have h4 : Keeps P r x3 := (Keeps.ite h (keeps_corrected p_regs p_acc p_memc p_evr h))
        clear_value x3
        exact (keeps_inject p_regs p_memc (keeps_setErr p_memc (keeps_putWord p_mem h4)))
      · exact (keeps_inject p_regs p_memc (keeps_setErr p_memc (keeps_putWord p_mem h)))

/-- `State.uncorrectable` keeps. -/
theorem keeps_uncorrectable {P : Part → Prop} {r s : State} {b1 : ℕ} {b2 : ℕ} {b3 : Bool} (p_regs : P .regs) (p_acc : P .acc) (p_evr : P .evr) (h : Keeps P r s) : Keeps P r
    (State.uncorrectable s b1 b2 b3) := by
  unfold State.uncorrectable
  extract_lets +onlyGivenNames x1
  clear_value x1
  extract_lets +onlyGivenNames x2
  have h3 : Keeps P r x2 := (keeps_wr p_regs (keeps_wr p_regs (keeps_wr p_regs (keeps_wr p_regs (keeps_count p_regs p_acc h)))))
  clear_value x2
  exact (Keeps.ite h3 (keeps_raise p_evr h3))

/-- `State.memGet` keeps. -/
theorem keeps_memGet {P : Part → Prop} {r s : State} {b1 : ℕ} {b2 : ℕ} (p_regs : P .regs) (p_acc : P .acc) (p_mem : P .mem) (p_memc : P .memc) (p_evr : P .evr) (h : Keeps
    P r s) : Keeps P r (State.memGet s b1 b2).1 := by
  unfold State.memGet
  extract_lets +onlyGivenNames x1
  clear_value x1
  split
  · extract_lets +onlyGivenNames x2
    clear_value x2
    split
    · refine Keeps.fst_mk ?_
      exact h
    · extract_lets +onlyGivenNames x3
      have h4 : Keeps P r x3 := (keeps_corrected p_regs p_acc p_memc p_evr h)
      clear_value x3
      refine Keeps.fst_mk ?_
      exact (Keeps.ite (keeps_setErr p_memc (keeps_putWord p_mem h4)) h4)
  · refine Keeps.fst_mk ?_
    exact (keeps_uncorrectable p_regs p_acc p_evr h)
  · refine Keeps.fst_mk ?_
    exact (keeps_uncorrectable p_regs p_acc p_evr h)

/-- `execMemInjArm` keeps. -/
theorem keeps_execMemInjArm {P : Part → Prop} {r s : State} {b0 : Requester} {b1 : BitVec 64} (p_regs : P .regs) (h : Keeps P r s) : KeepsO P r (execMemInjArm b0 b1 s) := by
  unfold execMemInjArm
  split
  · exact KeepsO.of_next (keeps_wr p_regs (keeps_wr p_regs (keeps_wr p_regs h)))
  · exact KeepsO.of_next h

/-- `State.answerLoad` keeps. -/
theorem keeps_answerLoad {P : Part → Prop} {r s : State} {b1 : Option (List ℕ)} (p_answer : P .answer) (h : Keeps P r s) : Keeps P r (State.answerLoad s b1) := by
  unfold State.answerLoad
  exact (Keeps.put h)

/-- `State.memGets` keeps. -/
theorem keeps_memGets {P : Part → Prop} {r s : State} {b1 : ℕ} {b2 : ℕ} {b3 : ℕ} (p_regs : P .regs) (p_acc : P .acc) (p_mem : P .mem) (p_memc : P .memc) (p_evr : P .evr)
    (h : Keeps P r s) : Keeps P r (State.memGets s b1 b2 b3).1 := by
  induction b3 generalizing s b1 b2
  · simp only [State.memGets]
    exact h
  · rename_i a1 ih
    simp only [State.memGets]
    exact (ih (keeps_memGet p_regs p_acc p_mem p_memc p_evr h))

/-- `State.memLoad` keeps. -/
theorem keeps_memLoad {P : Part → Prop} {r s : State} {b1 : ℕ} {b2 : ℕ} {b3 : ℕ} (p_regs : P .regs) (p_acc : P .acc) (p_mem : P .mem) (p_memc : P .memc) (p_evr : P .evr)
    (h : Keeps P r s) : Keeps P r (State.memLoad s b1 b2 b3).1 := by
  unfold State.memLoad
  split
  · rename_i y1 y2 y3 y4
    have h5 : Keeps P r y2 := Keeps.fst y4 (keeps_memGets p_regs p_acc p_mem p_memc p_evr h)
    refine Keeps.fst_mk ?_
    exact h5

/-- `State.memStore` keeps. -/
theorem keeps_memStore {P : Part → Prop} {r s : State} {b1 : ℕ} {b2 : ℕ} {b3 : List ℕ} (p_regs : P .regs) (p_acc : P .acc) (p_mem : P .mem) (p_memc : P .memc) (p_evr : P
    .evr) (h : Keeps P r s) : Keeps P r (State.memStore s b1 b2 b3) := by
  unfold State.memStore
  refine Keeps.foldl ?_ fun y1 y2 h3 => ?_
  · exact h
  · exact (keeps_memPut p_regs p_acc p_mem p_memc p_evr h3)

/-- `State.scrub` keeps. -/
theorem keeps_scrub {P : Part → Prop} {r s : State} {b1 : ℕ} (p_regs : P .regs) (p_acc : P .acc) (p_mem : P .mem) (p_memc : P .memc) (p_evr : P .evr) (h : Keeps P r s) :
    Keeps P r (State.scrub s b1) := by
  unfold State.scrub
  extract_lets +onlyGivenNames x1
  clear_value x1
  split
  · exact (Keeps.ite h (keeps_setErr p_memc (keeps_putWord p_mem (keeps_corrected p_regs p_acc p_memc p_evr h))))
  · exact (keeps_uncorrectable p_regs p_acc p_evr (keeps_setErr p_memc (keeps_putWord p_mem h)))
  · exact h

/-- `State.scrubDram` keeps. -/
theorem keeps_scrubDram {P : Part → Prop} {r s : State} {b1 : ℕ} (p_regs : P .regs) (p_acc : P .acc) (p_mem : P .mem) (p_memc : P .memc) (p_evr : P .evr) (h : Keeps P r s) :
    Keeps P r (State.scrubDram s b1) := by
  unfold State.scrubDram
  extract_lets +onlyGivenNames x1
  clear_value x1
  extract_lets +onlyGivenNames x2
  have h3 : Keeps P r x2 := (keeps_scrub p_regs p_acc p_mem p_memc p_evr (keeps_setErr p_memc h))
  clear_value x2
  extract_lets +onlyGivenNames x4
  clear_value x4
  extract_lets +onlyGivenNames x5
  have h6 : Keeps P r x5 := (Keeps.put h3)
  clear_value x5
  exact (Keeps.ite h6 (keeps_bump p_regs h6))

/-- `State.scrubSram` keeps. -/
theorem keeps_scrubSram {P : Part → Prop} {r s : State} {b1 : ℕ} (p_regs : P .regs) (p_acc : P .acc) (p_mem : P .mem) (p_memc : P .memc) (p_evr : P .evr) (h : Keeps P r s) :
    Keeps P r (State.scrubSram s b1) := by
  unfold State.scrubSram
  extract_lets +onlyGivenNames x1
  clear_value x1
  extract_lets +onlyGivenNames x2
  have h3 : Keeps P r x2 := (keeps_scrub p_regs p_acc p_mem p_memc p_evr (keeps_setErr p_memc h))
  clear_value x2
  extract_lets +onlyGivenNames x4
  clear_value x4
  extract_lets +onlyGivenNames x5
  have h6 : Keeps P r x5 := (Keeps.put h3)
  clear_value x5
  exact (Keeps.ite h6 (keeps_bump p_regs h6))

/-- `execBucketLeak` keeps. -/
theorem keeps_execBucketLeak {P : Part → Prop} {r s : State} {b0 : Fin 2} (p_regs : P .regs) (p_memc : P .memc) (h : Keeps P r s) : KeepsO P r (execBucketLeak b0 s) := by
  unfold execBucketLeak
  exact KeepsO.of_next (keeps_leak p_regs p_memc h)

/-- `execMemRead` keeps. -/
theorem keeps_execMemRead {P : Part → Prop} {r s : State} {b0 : Fin 64} {b1 : BitVec 40} {b2 : Fin 257} {b3 : BitVec 80} (p_answer : P .answer) (p_regs : P .regs) (p_acc : P
    .acc) (p_mem : P .mem) (p_memc : P .memc) (p_evr : P .evr) (h : Keeps P r s) : KeepsO P r (execMemRead b0 b1 b2 b3 s) := by
  unfold execMemRead
  split
  · extract_lets +onlyGivenNames x1
    have h2 : Keeps P r x1 := (keeps_setErr p_memc h)
    clear_value x1
    extract_lets +onlyGivenNames x3
    have h4 : Keeps P r x3.1 := keeps_memLoad p_regs p_acc p_mem p_memc p_evr h2
    clear_value x3
    refine KeepsO.of_next ?_
    refine keeps_answerLoad p_answer ?_
    extract_lets +onlyGivenNames x5
    have h6 : Keeps P r x5 := h4
    clear_value x5
    exact (Keeps.put h6)
  · exact KeepsO.of_next (keeps_busError p_answer h)

/-- `execScrubStep` keeps. -/
theorem keeps_execScrubStep {P : Part → Prop} {r s : State} {b0 : Bool} {b1 : BitVec 80} (p_regs : P .regs) (p_acc : P .acc) (p_mem : P .mem) (p_memc : P .memc) (p_evr : P .evr)
    (h : Keeps P r s) : KeepsO P r (execScrubStep b0 b1 s) := by
  unfold execScrubStep
  split
  · split
    · exact KeepsO.of_next (keeps_scrubDram p_regs p_acc p_mem p_memc p_evr h)
    · exact KeepsO.of_next h
  · split
    · exact KeepsO.of_next (keeps_scrubSram p_regs p_acc p_mem p_memc p_evr h)
    · exact KeepsO.of_next h

end Sys2Proof.Machine
end

