-- ==== Sys2Proof/Laws/KeepsStage.lean ====
section
/-! SUPPORT. What the operations of Machine/Stage.lean keep. -/

namespace Sys2Proof.Machine

set_option Elab.async false

/-- `State.putSet` keeps. -/
theorem keeps_putSet {P : Part → Prop} {r s : State} {b1 : ℕ} {b2 : StgSet} (p_stage : P .stage) (h : Keeps P r s) : Keeps P r (State.putSet s b1 b2) := by
  unfold State.putSet
  exact (Keeps.put h)

/-- `State.updLine` keeps. -/
theorem keeps_updLine {P : Part → Prop} {r s : State} {b1 : ℕ} {b2 : StgLine → StgLine} (p_stage : P .stage) (h : Keeps P r s) : Keeps P r (State.updLine s b1 b2) := by
  unfold State.updLine
  split
  · extract_lets +onlyGivenNames x1
    clear_value x1
    extract_lets +onlyGivenNames x2
    clear_value x2
    exact (keeps_putSet p_stage h)
  · exact (Keeps.put h)

/-- `State.storeWord` keeps. -/
theorem keeps_storeWord {P : Part → Prop} {r s : State} {b1 : ℕ} {b2 : ℕ} {b3 : ℕ} (p_regs : P .regs) (p_acc : P .acc) (p_mem : P .mem) (p_stage : P .stage) (p_memc : P
    .memc) (p_evr : P .evr) (h : Keeps P r s) : Keeps P r (State.storeWord s b1 b2 b3) := by
  unfold State.storeWord
  extract_lets +onlyGivenNames x1
  clear_value x1
  exact (Keeps.ite (keeps_updLine p_stage (keeps_putWord p_mem h)) (keeps_memPut p_regs p_acc p_mem p_memc p_evr h))

/-- `State.store` keeps. -/
theorem keeps_store {P : Part → Prop} {r s : State} {b1 : ℕ} {b2 : List ℕ} (p_regs : P .regs) (p_acc : P .acc) (p_mem : P .mem) (p_stage : P .stage) (p_memc : P .memc)
    (p_evr : P .evr) (h : Keeps P r s) : Keeps P r (State.store s b1 b2).1 := by
  unfold State.store
  extract_lets +onlyGivenNames x1
  clear_value x1
  split
  · refine Keeps.fst_mk ?_
    exact h
  · split
    · refine Keeps.fst_mk ?_
      refine Keeps.foldl ?_ fun y2 y3 h4 => ?_
      · exact h
      · exact (keeps_storeWord p_regs p_acc p_mem p_stage p_memc p_evr h4)
    · refine Keeps.fst_mk ?_
      exact h

/-- `State.stored` keeps. -/
theorem keeps_stored {P : Part → Prop} {r s : State} {b1 : ℕ} {b2 : List ℕ} (p_regs : P .regs) (p_acc : P .acc) (p_mem : P .mem) (p_stage : P .stage) (p_memc : P .memc)
    (p_evr : P .evr) (h : Keeps P r s) : Keeps P r (State.stored s b1 b2) := by
  unfold State.stored
  exact (keeps_store p_regs p_acc p_mem p_stage p_memc p_evr h)

/-- `State.loadWords` keeps. -/
theorem keeps_loadWords {P : Part → Prop} {r s : State} {b1 : ℕ} {b2 : ℕ} {b3 : ℕ} (p_regs : P .regs) (p_acc : P .acc) (p_mem : P .mem) (p_memc : P .memc) (p_evr : P .evr)
    (h : Keeps P r s) : Keeps P r (State.loadWords s b1 b2 b3).1 := by
  induction b3 generalizing s b1 b2
  · simp only [State.loadWords]
    exact h
  · rename_i a1 ih
    simp only [State.loadWords]
    refine ih ?_
    split
    · refine Keeps.fst_mk ?_
      exact h
    · exact (keeps_memGet p_regs p_acc p_mem p_memc p_evr h)

/-- `State.load` keeps. -/
theorem keeps_load {P : Part → Prop} {r s : State} {b1 : ℕ} {b2 : ℕ} {b3 : ℕ} (p_regs : P .regs) (p_acc : P .acc) (p_mem : P .mem) (p_memc : P .memc) (p_evr : P .evr)
    (h : Keeps P r s) : Keeps P r (State.load s b1 b2 b3).1 := by
  unfold State.load
  extract_lets +onlyGivenNames x1
  clear_value x1
  split
  · refine Keeps.fst_mk ?_
    exact h
  · split
    · extract_lets +onlyGivenNames x2
      have h3 : Keeps P r x2.1 := keeps_loadWords p_regs p_acc p_mem p_memc p_evr h
      clear_value x2
      refine Keeps.fst_mk ?_
      exact h3
    · refine Keeps.fst_mk ?_
      exact h

/-- `execStageDisable` keeps. -/
theorem keeps_execStageDisable {P : Part → Prop} {r s : State} (p_regs : P .regs) (p_stage : P .stage) (h : Keeps P r s) : KeepsO P r (execStageDisable s) := by
  unfold execStageDisable
  split
  · exact KeepsO.of_next (keeps_wr p_regs (keeps_wr p_regs h))
  · split
    · refine KeepsO.of_next ?_
      extract_lets +onlyGivenNames x1
      have h2 : Keeps P r x1 := (keeps_wr p_regs h)
      clear_value x1
      exact (Keeps.put h2)
    · exact KeepsO.of_next h

/-- `execStageEnable` keeps. -/
theorem keeps_execStageEnable {P : Part → Prop} {r s : State} (p_regs : P .regs) (p_stage : P .stage) (h : Keeps P r s) : KeepsO P r (execStageEnable s) := by
  unfold execStageEnable
  split
  · refine KeepsO.of_next ?_
    extract_lets +onlyGivenNames x1
    have h2 : Keeps P r x1 := (keeps_wr p_regs (keeps_wr p_regs h))
    clear_value x1
    exact (Keeps.put h2)
  · split
    · refine KeepsO.of_next ?_
      extract_lets +onlyGivenNames x3
      have h4 : Keeps P r x3 := (keeps_wr p_regs h)
      clear_value x3
      exact (Keeps.put h4)
    · exact KeepsO.of_next h

/-- `State.setStrm` keeps. -/
theorem keeps_setStrm {P : Part → Prop} {r s : State} {b1 : ℕ} {b2 : Bool} (p_regs : P .regs) (h : Keeps P r s) : Keeps P r (State.setStrm s b1 b2) := by
  unfold State.setStrm
  exact (Keeps.ite (keeps_wr p_regs h) (keeps_wr p_regs h))

/-- `State.detect` keeps. -/
theorem keeps_detect {P : Part → Prop} {r s : State} {b1 : ℕ} {b2 : ℕ} (p_regs : P .regs) (p_stage : P .stage) (h : Keeps P r s) : Keeps P r (State.detect s b1 b2).1 := by
  unfold State.detect
  split
  · extract_lets +onlyGivenNames x1
    clear_value x1
    extract_lets +onlyGivenNames x2
    extract_lets +onlyGivenNames x3
    clear_value x3
    split
    · refine Keeps.fst_mk ?_
      exact h
    · split
      · extract_lets +onlyGivenNames x4
        refine Keeps.step (P := P) (r := r) (x := x4) ?_ ?_
        · unfold x4
          unfold x2
          exact (Keeps.put h)
        intro h5
        clear_value x4
        refine Keeps.fst_mk ?_
        exact (Keeps.ite (keeps_setStrm p_regs h5) h5)
      · split
        · refine Keeps.fst_mk ?_
          refine keeps_setStrm p_regs ?_
          unfold x2
          exact (Keeps.put h)
        · refine Keeps.fst_mk ?_
          unfold x2
          exact (Keeps.put h)
  · refine Keeps.fst_mk ?_
    exact h

/-- `State.fetch` keeps. -/
theorem keeps_fetch {P : Part → Prop} {r s : State} {b1 : StgReq} (p_regs : P .regs) (p_acc : P .acc) (p_stage : P .stage) (h : Keeps P r s) : Keeps P r (State.fetch s
    b1).1 := by
  unfold State.fetch
  extract_lets +onlyGivenNames x1
  have h2 : Keeps P r x1 := (keeps_updLine p_stage h)
  clear_value x1
  refine Keeps.fst_mk ?_
  exact (Keeps.ite h2 (keeps_count p_regs p_acc h2))

/-- `State.filled` keeps. -/
theorem keeps_filled {P : Part → Prop} {r s : State} {b1 : ℕ} {b2 : ℕ} {b3 : Bool} (p_stage : P .stage) (h : Keeps P r s) : Keeps P r (State.filled s b1 b2 b3) := by
  unfold State.filled
  split
  · exact h
  · extract_lets +onlyGivenNames x1
    extract_lets +onlyGivenNames x2
    clear_value x2
    extract_lets +onlyGivenNames x3
    clear_value x3
    exact (keeps_putSet p_stage h)

/-- `State.hit` keeps. -/
theorem keeps_hit {P : Part → Prop} {r s : State} {b1 : StgReq} (p_answer : P .answer) (p_mem : P .mem) (p_stage : P .stage) (h : Keeps P r s) : Keeps P r (State.hit s
    b1) := by
  unfold State.hit
  split
  · exact (keeps_answerLoad p_answer h)
  · extract_lets +onlyGivenNames x1
    refine Keeps.step (P := P) (r := r) (x := x1) ?_ ?_
    · unfold x1
      refine keeps_updLine p_stage ?_
      exact Keeps.mkAll h le_rfl (putEnabled_wf _ _ _) id id id id
    intro h2
    clear_value x1
    exact (Keeps.put h2)

/-- `State.toDram` keeps. -/
theorem keeps_toDram {P : Part → Prop} {r s : State} {b1 : StgReq} (p_answer : P .answer) (p_regs : P .regs) (p_acc : P .acc) (p_mem : P .mem) (p_memc : P .memc) (p_evr :
    P .evr) (h : Keeps P r s) : Keeps P r (State.toDram s b1) := by
  unfold State.toDram
  split
  · split
    · rename_i y1 y2 y3 y4 y5 y6
      have h7 : Keeps P r y4 := Keeps.fst y6 (keeps_memLoad p_regs p_acc p_mem p_memc p_evr h)
      exact (keeps_answerLoad p_answer h7)
  · extract_lets +onlyGivenNames x8
    have h9 : Keeps P r x8 := (keeps_memStore p_regs p_acc p_mem p_memc p_evr h)
    clear_value x8
    exact (Keeps.put h9)

/-- `State.serveDisabling` keeps. -/
theorem keeps_serveDisabling {P : Part → Prop} {r s : State} {b1 : StgReq} (p_answer : P .answer) (p_regs : P .regs) (p_acc : P .acc) (p_mem : P .mem) (p_stage : P .stage)
    (p_memc : P .memc) (p_evr : P .evr) (h : Keeps P r s) : Keeps P r (State.serveDisabling s b1).1 := by
  unfold State.serveDisabling
  split
  · extract_lets +onlyGivenNames x1
    clear_value x1
    split
    · refine Keeps.fst_mk ?_
      exact (keeps_hit p_answer p_mem p_stage (keeps_count p_regs p_acc h))
    · split
      · refine Keeps.fst_mk ?_
        exact h
      · refine Keeps.fst_mk ?_
        exact (keeps_toDram p_answer p_regs p_acc p_mem p_memc p_evr (keeps_count p_regs p_acc h))
  · refine Keeps.fst_mk ?_
    exact (keeps_toDram p_answer p_regs p_acc p_mem p_memc p_evr (keeps_count p_regs p_acc h))

/-- `State.touchWay` keeps. -/
theorem keeps_touchWay {P : Part → Prop} {r s : State} {b1 : ℕ} {b2 : ℕ} (p_stage : P .stage) (h : Keeps P r s) : Keeps P r (State.touchWay s b1 b2) := by
  unfold State.touchWay
  extract_lets +onlyGivenNames x1
  clear_value x1
  extract_lets +onlyGivenNames x2
  clear_value x2
  exact (keeps_putSet p_stage h)

/-- `State.inLine` keeps. -/
theorem keeps_inLine {P : Part → Prop} {r s : State} {b1 : StgReq} {b2 : ℕ} {b3 : StgLine} (p_answer : P .answer) (p_regs : P .regs) (p_acc : P .acc) (p_mem : P .mem)
    (p_stage : P .stage) (h : Keeps P r s) : Keeps P r (State.inLine s b1 b2 b3).1 := by
  unfold State.inLine
  extract_lets +onlyGivenNames x1
  have h2 : Keeps P r x1 := (keeps_touchWay p_stage h)
  clear_value x1
  extract_lets +onlyGivenNames x3
  clear_value x3
  split
  · refine Keeps.fst_mk ?_
    exact (keeps_hit p_answer p_mem p_stage (Keeps.ite h2 (keeps_count p_regs p_acc h2)))
  · split
    · refine Keeps.fst_mk ?_
      exact h2
    · split
      · refine Keeps.fst_mk ?_
        exact (keeps_hit p_answer p_mem p_stage (keeps_updLine p_stage (keeps_count p_regs p_acc h2)))
      · exact (keeps_fetch p_regs p_acc p_stage h2)

/-- `State.pushEddy` keeps. -/
theorem keeps_pushEddy {P : Part → Prop} {r s : State} {t : _} {b1 : StgLine} (p_stage : P .stage) (h : Keeps P r s) (e : State.pushEddy s b1 = some t) : Keeps P r t := by
  unfold State.pushEddy at e
  split at e
  · obtain rfl := Option.some.inj e
    exact Keeps.put h
  · split at e
    · exact absurd e (by simp)
    · split at e
      · obtain rfl := Option.some.inj e
        exact Keeps.put h
      · split at e
        · obtain rfl := Option.some.inj e
          exact Keeps.put h
        · exact absurd e (by simp)

/-- `State.placeLine` keeps. -/
theorem keeps_placeLine {P : Part → Prop} {r s : State} {t : _} {b1 : StgLine} (p_stage : P .stage) (h : Keeps P r s) (e : State.placeLine s b1 = some t) : Keeps P r t := by
  unfold State.placeLine at e
  extract_lets i t0 at e
  split at e
  · exact absurd e (by simp)
  · split at e
    · obtain rfl := Option.some.inj e
      exact keeps_putSet p_stage h
    · obtain ⟨s1, e1, rfl⟩ := Option.map_eq_some_iff.1 e
      exact keeps_putSet p_stage (keeps_pushEddy p_stage h e1)

/-- `State.recall` keeps. -/
theorem keeps_recall {P : Part → Prop} {r s : State} {t : _} {b1 : StgLine} (p_regs : P .regs) (p_acc : P .acc) (p_stage : P .stage) (h : Keeps P r s) (e : State.recall s
    b1 = some t) : Keeps P r t := by
  unfold State.recall at e
  extract_lets out at e
  obtain ⟨s1, e1, rfl⟩ := Option.map_eq_some_iff.1 e
  exact keeps_count p_regs p_acc (keeps_placeLine p_stage (Keeps.put h) e1)

/-- `State.serveOn` keeps. -/
theorem keeps_serveOn {P : Part → Prop} {r s : State} {b1 : StgReq} (p_answer : P .answer) (p_regs : P .regs) (p_acc : P .acc) (p_mem : P .mem) (p_stage : P .stage)
    (p_memc : P .memc) (p_evr : P .evr) (h : Keeps P r s) : Keeps P r (State.serveOn s b1).1 := by
  unfold State.serveOn
  extract_lets +onlyGivenNames x1
  clear_value x1
  split
  · exact (keeps_inLine p_answer p_regs p_acc p_mem p_stage h)
  · split
    · split
      · rename_i y2 y3 y4 y5 y6 y7 y8
        refine Keeps.fst_mk ?_
        exact h
      · rename_i y9 y10 y11 y12 y13 y14 y15 y16
        have h17 : Keeps P r y15 := keeps_recall p_regs p_acc p_stage h y16
        split
        · exact (keeps_inLine p_answer p_regs p_acc p_mem p_stage h17)
        · refine Keeps.fst_mk ?_
          exact h17
    · split
      · split
        · rename_i y18 y19 y20 y21 y22 y23 y24
          refine Keeps.fst_mk ?_
          exact h
        · rename_i y25 y26 y27 y28 y29 y30 y31 y32
          have h33 : Keeps P r y31 := keeps_placeLine p_stage h y32
          split
          · refine Keeps.fst_mk ?_
            exact (keeps_hit p_answer p_mem p_stage (keeps_updLine p_stage h33))
          · exact (keeps_fetch p_regs p_acc p_stage h33)
      · extract_lets +onlyGivenNames x34
        have h35 : Keeps P r x34 := (Keeps.ite h (keeps_count p_regs p_acc h))
        clear_value x34
        refine Keeps.fst_mk ?_
        exact (keeps_toDram p_answer p_regs p_acc p_mem p_memc p_evr (Keeps.ite (keeps_count p_regs p_acc h35) h35))

/-- `State.serve` keeps. -/
theorem keeps_serve {P : Part → Prop} {r s : State} {b1 : StgReq} (p_answer : P .answer) (p_regs : P .regs) (p_acc : P .acc) (p_mem : P .mem) (p_stage : P .stage)
    (p_memc : P .memc) (p_evr : P .evr) (h : Keeps P r s) : Keeps P r (State.serve s b1).1 := by
  unfold State.serve
  split
  · exact (keeps_serveOn p_answer p_regs p_acc p_mem p_stage p_memc p_evr h)
  · split
    · exact (keeps_serveDisabling p_answer p_regs p_acc p_mem p_stage p_memc p_evr h)
    · refine Keeps.fst_mk ?_
      exact (keeps_toDram p_answer p_regs p_acc p_mem p_memc p_evr (keeps_count p_regs p_acc h))

/-- `State.retry` keeps. -/
theorem keeps_retry {P : Part → Prop} {r s : State} {b1 : List StgReq} {b2 : List StgReq} (p_answer : P .answer) (p_regs : P .regs) (p_acc : P .acc) (p_mem : P .mem)
    (p_stage : P .stage) (p_memc : P .memc) (p_evr : P .evr) (h : Keeps P r s) : Keeps P r (State.retry s b1 b2) := by
  induction b2 generalizing s b1
  · simp only [State.retry]
    exact (Keeps.put h)
  · rename_i a1 a2 ih
    simp only [State.retry]
    split
    · exact (ih h)
    · split
      · rename_i y3 y4 y5 y6 y7
        have h8 : Keeps P r y5 := Keeps.fst y7 (keeps_serve p_answer p_regs p_acc p_mem p_stage p_memc p_evr h)
        exact (ih h8)
      · rename_i y9 y10 y11 y12
        have h13 : Keeps P r y11 := Keeps.fst y12 (keeps_serve p_answer p_regs p_acc p_mem p_stage p_memc p_evr h)
        exact (ih h13)

/-- `State.fillFailed` keeps. -/
theorem keeps_fillFailed {P : Part → Prop} {r s : State} {b1 : ℕ} {b2 : ℕ} {b3 : Option StgReq} {b4 : List StgReq} (p_answer : P .answer) (p_regs : P .regs) (p_acc : P .acc)
    (p_mem : P .mem) (p_stage : P .stage) (p_memc : P .memc) (p_evr : P .evr) (h : Keeps P r s) : Keeps P r (State.fillFailed s b1 b2 b3 b4) := by
  unfold State.fillFailed
  split
  · exact (keeps_retry p_answer p_regs p_acc p_mem p_stage p_memc p_evr (keeps_filled p_stage h))
  · extract_lets +onlyGivenNames x1
    have h2 : Keeps P r x1 := (keeps_filled p_stage h)
    clear_value x1
    refine keeps_retry p_answer p_regs p_acc p_mem p_stage p_memc p_evr ?_
    split
    · exact (keeps_answerLoad p_answer h2)
    · exact (keeps_toDram p_answer p_regs p_acc p_mem p_memc p_evr h2)

/-- `State.walk` keeps. -/
theorem keeps_walk {P : Part → Prop} {r s : State} (p_stage : P .stage) (h : Keeps P r s) : Keeps P r (State.walk s) := by
  unfold State.walk
  split
  · split
    · exact h
    · extract_lets +onlyGivenNames x1
      have h2 : Keeps P r x1 := (keeps_updLine p_stage h)
      clear_value x1
      exact (Keeps.put h2)
  · exact h

/-- `State.writeUnit` keeps. -/
theorem keeps_writeUnit {P : Part → Prop} {r s : State} {b1 : ℕ} {b2 : Option ℕ} {b3 : ℕ} {b4 : ℕ} (p_regs : P .regs) (p_acc : P .acc) (p_mem : P .mem) (p_memc : P .memc)
    (p_evr : P .evr) (h : Keeps P r s) : Keeps P r (State.writeUnit s b1 b2 b3 b4) := by
  induction b4 generalizing s b1 b2 b3
  · simp only [State.writeUnit]
    exact h
  · rename_i a1 ih
    simp only [State.writeUnit]
    exact (ih (Keeps.ite (keeps_raise p_evr (keeps_wr p_regs (keeps_setErr p_memc (keeps_memPut p_regs p_acc p_mem p_memc p_evr h)))) (keeps_memPut
        p_regs p_acc p_mem p_memc p_evr h)))

/-- `execStageDrained` keeps. -/
theorem keeps_execStageDrained {P : Part → Prop} {r s : State} (p_answer : P .answer) (p_regs : P .regs) (p_acc : P .acc) (p_mem : P .mem) (p_stage : P .stage) (p_memc : P .memc)
    (p_evr : P .evr) (h : Keeps P r s) : KeepsO P r (execStageDrained s) := by
  unfold execStageDrained
  split
  · extract_lets +onlyGivenNames x1
    have h2 : Keeps P r x1 := (keeps_wr p_regs (keeps_wr p_regs h))
    clear_value x1
    extract_lets +onlyGivenNames x3
    clear_value x3
    extract_lets +onlyGivenNames x4
    have h5 : Keeps P r x4 := (keeps_retry p_answer p_regs p_acc p_mem p_stage p_memc p_evr (Keeps.put h2))
    clear_value x4
    exact KeepsO.of_next (Keeps.ite (keeps_wr p_regs (keeps_wr p_regs h5)) h5)
  · exact KeepsO.of_next h

/-- `execStageFillDone` keeps. -/
theorem keeps_execStageFillDone {P : Part → Prop} {r s : State} {b0 : BitVec 40} (p_answer : P .answer) (p_regs : P .regs) (p_acc : P .acc) (p_mem : P .mem) (p_stage : P .stage)
    (p_memc : P .memc) (p_evr : P .evr) (h : Keeps P r s) : KeepsO P r (execStageFillDone b0 s) := by
  unfold execStageFillDone
  extract_lets +onlyGivenNames x1
  clear_value x1
  extract_lets +onlyGivenNames x2
  clear_value x2
  extract_lets +onlyGivenNames x3
  clear_value x3
  split
  · extract_lets +onlyGivenNames x4
    clear_value x4
    split
    · rename_i y5 y6 y7 y8 y9
      have h10 : Keeps P r y7 := Keeps.fst y9 (keeps_memLoad p_regs p_acc p_mem p_memc p_evr (Keeps.put h))
      exact KeepsO.of_next (Keeps.ite (keeps_retry p_answer p_regs p_acc p_mem p_stage p_memc p_evr (keeps_filled p_stage h10)) (keeps_fillFailed
          p_answer p_regs p_acc p_mem p_stage p_memc p_evr h10))
  · exact KeepsO.of_next h

/-- `execStageRequest` keeps. -/
theorem keeps_execStageRequest {P : Part → Prop} {r s : State} {b0 : Fin 64} {b1 : BitVec 40} {b2 : Fin 257} {b3 : Option (List (BitVec 8))} {b4 : BitVec 256} (p_answer : P
    .answer) (p_regs : P .regs) (p_acc : P .acc) (p_mem : P .mem) (p_stage : P .stage) (p_memc : P .memc) (p_evr : P .evr) (h : Keeps P r s) : KeepsO
    P r (execStageRequest b0 b1 b2 b3 b4 s) := by
  unfold execStageRequest
  extract_lets a p bs q u
  split
  · have hp : Keeps P r p.1 := by
      unfold p
      split
      · exact keeps_detect p_regs p_stage h
      · exact h
    exact KeepsO.of_next (keeps_retry p_answer p_regs p_acc p_mem p_stage p_memc p_evr (Keeps.put hp))
  · exact KeepsO.of_next (keeps_busError p_answer h)

/-- `execWritebackIssue` keeps. -/
theorem keeps_execWritebackIssue {P : Part → Prop} {r s : State} {b0 : Option (Fin 32)} (p_answer : P .answer) (p_regs : P .regs) (p_acc : P .acc) (p_mem : P .mem) (p_stage : P
    .stage) (p_memc : P .memc) (p_evr : P .evr) (h : Keeps P r s) : KeepsO P r (execWritebackIssue b0 s) := by
  unfold execWritebackIssue
  extract_lets +onlyGivenNames x1
  have h2 : Keeps P r x1 := (keeps_walk p_stage h)
  clear_value x1
  split
  · exact KeepsO.of_next h2
  · split
    · exact KeepsO.of_next (keeps_retry p_answer p_regs p_acc p_mem p_stage p_memc p_evr (Keeps.put h2))
    · extract_lets +onlyGivenNames x3
      have h4 : Keeps P r x3 := (keeps_writeUnit p_regs p_acc p_mem p_memc p_evr h2)
      clear_value x3
      extract_lets +onlyGivenNames x5
      clear_value x5
      extract_lets +onlyGivenNames x6
      clear_value x6
      extract_lets +onlyGivenNames x7
      have h8 : Keeps P r x7 := (Keeps.put h4)
      clear_value x7
      exact KeepsO.of_next (keeps_retry p_answer p_regs p_acc p_mem p_stage p_memc p_evr h8)

end Sys2Proof.Machine
end

