-- ==== Sys2Proof/Laws/KeepsFlash.lean ====
section
/-! SUPPORT. What the operations of Machine/Flash.lean keep. -/

namespace Sys2Proof.Machine

set_option Elab.async false

/-- `State.suspend` keeps. -/
theorem keeps_suspend {P : Part → Prop} {r s : State} {b1 : ℕ} (p_regs : P .regs) (p_acc : P .acc) (h : Keeps P r s) : Keeps P r (State.suspend s b1) := by
  unfold State.suspend
  exact (keeps_count p_regs p_acc (keeps_wr p_regs h))

/-- `State.cflPut` keeps. -/
theorem keeps_cflPut {P : Part → Prop} {r s : State} {b1 : FlashUnit → FlashUnit} (p_cfl : P .cfl) (h : Keeps P r s) : Keeps P r (State.cflPut s b1) := by
  unfold State.cflPut
  exact (Keeps.put h)

/-- `State.setFlashOp` keeps. -/
theorem keeps_setFlashOp {P : Part → Prop} {r s : State} {b1 : ℕ} {b2 : Option FlashOp} (p_cfl : P .cfl) (h : Keeps P r s) : Keeps P r (State.setFlashOp s b1 b2) := by
  unfold State.setFlashOp
  exact (keeps_cflPut p_cfl h)

/-- `State.opEnds` keeps. -/
theorem keeps_opEnds {P : Part → Prop} {r s : State} {b1 : ℕ} (p_regs : P .regs) (p_cfl : P .cfl) (h : Keeps P r s) : Keeps P r (State.opEnds s b1) := by
  unfold State.opEnds
  exact (keeps_wr p_regs (keeps_wr p_regs (keeps_wr p_regs (keeps_setFlashOp p_cfl h))))

/-- `State.noSpare` keeps. -/
theorem keeps_noSpare {P : Part → Prop} {r s : State} {b1 : ℕ} {b2 : ℕ} (p_regs : P .regs) (p_evr : P .evr) (h : Keeps P r s) : Keeps P r (State.noSpare s b1 b2) := by
  unfold State.noSpare
  exact (keeps_raise p_evr (keeps_wr p_regs (keeps_wr p_regs h)))

/-- `State.retire` keeps. -/
theorem keeps_retire {P : Part → Prop} {r s : State} {b1 : ℕ} {b2 : ℕ} {b3 : Bool} (p_regs : P .regs) (p_evr : P .evr) (p_cfl : P .cfl) (h : Keeps P r s) : Keeps P r
    (State.retire s b1 b2 b3) := by
  unfold State.retire
  extract_lets +onlyGivenNames x1
  clear_value x1
  extract_lets +onlyGivenNames x2
  have h3 : Keeps P r x2 := (keeps_wr p_regs (keeps_wr p_regs h))
  clear_value x2
  extract_lets +onlyGivenNames x4
  have h5 : Keeps P r x4 := (keeps_cflPut p_cfl h3)
  clear_value x4
  exact (keeps_raise p_evr (Keeps.ite h5 (keeps_wr p_regs h5)))

/-- `State.weak` keeps. -/
theorem keeps_weak {P : Part → Prop} {r s : State} {b1 : ℕ} {b2 : ℕ} (p_regs : P .regs) (p_acc : P .acc) (p_evr : P .evr) (h : Keeps P r s) : Keeps P r (State.weak s b1
    b2) := by
  unfold State.weak
  exact (keeps_raise p_evr (keeps_wr p_regs (keeps_wr p_regs (keeps_wr p_regs (keeps_count p_regs p_acc h)))))

/-- `State.programEnds` keeps. -/
theorem keeps_programEnds {P : Part → Prop} {r s : State} {b1 : ℕ} {b2 : FlashOp} {b3 : ℕ} {b4 : Option ℕ} (p_free : P .free) (p_regs : P .regs) (p_acc : P .acc) (p_evr : P
    .evr) (p_flash : P .flash) (p_cfl : P .cfl) (h : Keeps P r s) : Keeps P r (State.programEnds s b1 b2 b3 b4) := by
  unfold State.programEnds
  extract_lets +onlyGivenNames x1
  clear_value x1
  split
  · exact (keeps_wr p_regs h)
  · extract_lets +onlyGivenNames x2
    refine Keeps.step (P := P) (r := r) (x := x2) ?_ ?_
    · unfold x2
      exact Keeps.mkAll h le_rfl id (flashProgram_wf _ _) id id id
    intro h3
    clear_value x2
    extract_lets +onlyGivenNames x4
    have h5 : Keeps P r x4 := (keeps_wr p_regs h3)
    clear_value x4
    extract_lets +onlyGivenNames x6
    have h7 : Keeps P r x6 := (Keeps.ite (keeps_weak p_regs p_acc p_evr h5) h5)
    clear_value x6
    split
    · exact h7
    · exact (Keeps.ite (keeps_noSpare p_regs p_evr (keeps_tookFree p_free (Keeps.ite (keeps_cflPut p_cfl h7) h7))) (keeps_retire p_regs p_evr p_cfl
        h7))

/-- `State.cflCut` keeps. -/
theorem keeps_cflCut {P : Part → Prop} {r s : State} {b1 : ℕ} (p_free : P .free) (p_regs : P .regs) (p_acc : P .acc) (p_evr : P .evr) (p_flash : P .flash) (p_cfl : P
    .cfl) (h : Keeps P r s) : Keeps P r (State.cflCut s b1) := by
  unfold State.cflCut
  extract_lets +onlyGivenNames x1
  refine Keeps.step (P := P) (r := r) (x := x1) ?_ ?_
  · unfold x1
    split
    · exact h
    · exact (Keeps.ite (keeps_wr p_regs (keeps_setFlashOp p_cfl (keeps_cflPut p_cfl h))) (keeps_opEnds p_regs p_cfl (keeps_programEnds p_free p_regs
        p_acc p_evr p_flash p_cfl (keeps_tookFree p_free h))))
  intro h2
  clear_value x1
  exact (keeps_wr p_regs (keeps_wr p_regs h2))

/-- `State.invalidate` keeps. -/
theorem keeps_invalidate {P : Part → Prop} {r s : State} {b1 : ℕ} {b2 : ℕ} (p_cfl : P .cfl) (h : Keeps P r s) : Keeps P r (State.invalidate s b1 b2) := by
  unfold State.invalidate
  exact (keeps_cflPut p_cfl h)

/-- `State.issue` keeps. -/
theorem keeps_issue {P : Part → Prop} {r s : State} {b1 : ℕ} {b2 : FlashOp} {b3 : ℕ} (p_regs : P .regs) (p_cfl : P .cfl) (h : Keeps P r s) : Keeps P r (State.issue s b1
    b2 b3) := by
  unfold State.issue
  exact (Keeps.ite (keeps_wr p_regs h) (keeps_invalidate p_cfl (keeps_wr p_regs (keeps_wr p_regs (keeps_wr p_regs (keeps_setFlashOp p_cfl h))))))

/-- `execCflErase` keeps. -/
theorem keeps_execCflErase {P : Part → Prop} {r s : State} {b0 : Fin 2} (p_regs : P .regs) (p_cfl : P .cfl) (h : Keeps P r s) : KeepsO P r (execCflErase b0 s) := by
  unfold execCflErase
  exact KeepsO.of_next (Keeps.ite (keeps_issue p_regs p_cfl h) h)

/-- `execCflProgram` keeps. -/
theorem keeps_execCflProgram {P : Part → Prop} {r s : State} {b0 : Fin 2} (p_regs : P .regs) (p_cfl : P .cfl) (h : Keeps P r s) : KeepsO P r (execCflProgram b0 s) := by
  unfold execCflProgram
  extract_lets +onlyGivenNames x1
  clear_value x1
  extract_lets +onlyGivenNames x2
  clear_value x2
  exact KeepsO.of_next (Keeps.ite (keeps_issue p_regs p_cfl h) h)

/-- `execCflLockWrite` keeps. -/
theorem keeps_execCflLockWrite {P : Part → Prop} {r s : State} {b0 : BitVec 32} (p_regs : P .regs) (h : Keeps P r s) : KeepsO P r (execCflLockWrite b0 s) := by
  unfold execCflLockWrite
  exact KeepsO.of_next (keeps_setBits p_regs h)

/-- `State.eraseEnds` keeps. -/
theorem keeps_eraseEnds {P : Part → Prop} {r s : State} {b1 : ℕ} {b2 : FlashOp} {b3 : Bool} (p_regs : P .regs) (p_evr : P .evr) (p_flash : P .flash) (p_cfl : P .cfl) (h :
    Keeps P r s) : Keeps P r (State.eraseEnds s b1 b2 b3) := by
  unfold State.eraseEnds
  extract_lets +onlyGivenNames x1
  clear_value x1
  extract_lets +onlyGivenNames x2
  clear_value x2
  extract_lets +onlyGivenNames x3
  refine Keeps.step (P := P) (r := r) (x := x3) ?_ ?_
  · unfold x3
    exact Keeps.mkAll h le_rfl id (twf_filter _) id id id
  intro h4
  clear_value x3
  extract_lets +onlyGivenNames x5
  have h6 : Keeps P r x5 := (keeps_cflPut p_cfl h4)
  clear_value x5
  extract_lets +onlyGivenNames x7
  have h8 : Keeps P r x7 := (Keeps.ite h6 (keeps_wr p_regs h6))
  clear_value x7
  exact (Keeps.ite (Keeps.ite (keeps_noSpare p_regs p_evr h8) (keeps_retire p_regs p_evr p_cfl h8)) h8)

/-- `State.fillLines` keeps. -/
theorem keeps_fillLines {P : Part → Prop} {r s : State} {b1 : ℕ} {b2 : Bool} (p_cfl : P .cfl) (h : Keeps P r s) : Keeps P r (State.fillLines s b1 b2) := by
  unfold State.fillLines
  exact (keeps_cflPut p_cfl h)

/-- `execCflOpDone` keeps. -/
theorem keeps_execCflOpDone {P : Part → Prop} {r s : State} {b0 : Fin 2} {b1 : Fin 17} {b2 : Option (Fin 8)} (p_free : P .free) (p_regs : P .regs) (p_acc : P .acc) (p_evr : P
    .evr) (p_flash : P .flash) (p_cfl : P .cfl) (h : Keeps P r s) : KeepsO P r (execCflOpDone b0 b1 b2 s) := by
  unfold execCflOpDone
  split
  · exact KeepsO.of_next h
  · split
    · exact KeepsO.of_next h
    · extract_lets +onlyGivenNames x1
      have h2 : Keeps P r x1 := (Keeps.ite (keeps_eraseEnds p_regs p_evr p_flash p_cfl h) (keeps_programEnds p_free p_regs p_acc p_evr p_flash p_cfl
          h))
      clear_value x1
      exact KeepsO.of_next (keeps_invalidate p_cfl (keeps_opEnds p_regs p_cfl h2))

/-- `execCflRead` keeps. -/
theorem keeps_execCflRead {P : Part → Prop} {r s : State} {b0 : BitVec 23} {b1 : Bool} {b2 : Fin 3} (p_answer : P .answer) (p_free : P .free) (p_regs : P .regs) (p_acc : P
    .acc) (p_evr : P .evr) (p_cfl : P .cfl) (h : Keeps P r s) : KeepsO P r (execCflRead b0 b1 b2 s) := by
  unfold execCflRead
  extract_lets +onlyGivenNames x1
  clear_value x1
  extract_lets +onlyGivenNames x2
  clear_value x2
  split
  · exact KeepsO.of_next (keeps_busError p_answer h)
  · split
    · exact KeepsO.of_next (keeps_tookFree p_free (keeps_reply p_answer (keeps_fillLines p_cfl h)))
    · split
      · exact KeepsO.of_next (keeps_reply p_answer (keeps_fillLines p_cfl h))
      · split
        · exact KeepsO.of_next (keeps_busError p_answer (keeps_raise p_evr (keeps_wr p_regs (keeps_count p_regs p_acc h))))
        · extract_lets +onlyGivenNames x3
          have h4 : Keeps P r x3 := (Keeps.ite (keeps_count p_regs p_acc h) h)
          clear_value x3
          exact KeepsO.of_next (keeps_reply p_answer (keeps_fillLines p_cfl h4))

/-- `execCflResume` keeps. -/
theorem keeps_execCflResume {P : Part → Prop} {r s : State} {b0 : Fin 2} (p_regs : P .regs) (h : Keeps P r s) : KeepsO P r (execCflResume b0 s) := by
  unfold execCflResume
  exact KeepsO.of_next (keeps_wr p_regs h)

/-- `execCflRetireCopy` keeps. -/
theorem keeps_execCflRetireCopy {P : Part → Prop} {r s : State} {b0 : Fin 2} (p_regs : P .regs) (p_cfl : P .cfl) (h : Keeps P r s) : KeepsO P r (execCflRetireCopy b0 s) := by
  unfold execCflRetireCopy
  split
  · exact KeepsO.of_next h
  · extract_lets +onlyGivenNames x1
    have h2 : Keeps P r x1 := (keeps_cflPut p_cfl h)
    clear_value x1
    exact KeepsO.of_next (Keeps.ite h2 (keeps_wr p_regs h2))

/-- `execCflSuspend` keeps. -/
theorem keeps_execCflSuspend {P : Part → Prop} {r s : State} {b0 : Fin 2} (p_regs : P .regs) (p_acc : P .acc) (h : Keeps P r s) : KeepsO P r (execCflSuspend b0 s) := by
  unfold execCflSuspend
  split
  · exact KeepsO.of_next (keeps_suspend p_regs p_acc h)
  · exact KeepsO.of_next h

end Sys2Proof.Machine
end

