-- ==== Sys2Proof/Laws/KeepsZones.lean ====
section
/-! SUPPORT. What the operations of Machine/Zones.lean keep. -/

namespace Sys2Proof.Machine

set_option Elab.async false

/-- `State.writeBack` keeps. -/
theorem keeps_writeBack {P : Part → Prop} {r s : State} {b1 : ℕ} (p_regs : P .regs) (p_acc : P .acc) (p_mem : P .mem) (p_stage : P .stage) (p_memc : P .memc) (p_evr : P
    .evr) (h : Keeps P r s) : Keeps P r (State.writeBack s b1) := by
  unfold State.writeBack
  split
  · exact h
  · exact (keeps_stored p_regs p_acc p_mem p_stage p_memc p_evr h)

/-- `State.zput` keeps. -/
theorem keeps_zput {P : Part → Prop} {r s : State} {b1 : ZoneUnit → ZoneUnit} (p_zone : P .zone) (h : Keeps P r s) : Keeps P r (State.zput s b1) := by
  unfold State.zput
  exact (Keeps.put h)

/-- `State.setZone` keeps. -/
theorem keeps_setZone {P : Part → Prop} {r s : State} {b1 : ℕ} {b2 : Zone} (p_regs : P .regs) (p_acc : P .acc) (p_mem : P .mem) (p_zone : P .zone) (p_stage : P .stage)
    (p_memc : P .memc) (p_evr : P .evr) (h : Keeps P r s) : Keeps P r (State.setZone s b1 b2) := by
  unfold State.setZone
  exact (keeps_writeBack p_regs p_acc p_mem p_stage p_memc p_evr (keeps_zput p_zone h))

/-- `State.makeRoom` keeps. -/
theorem keeps_makeRoom {P : Part → Prop} {r s : State} {t : _} (p_regs : P .regs) (p_acc : P .acc) (p_mem : P .mem) (p_zone : P .zone) (p_stage : P .stage) (p_memc : P
    .memc) (p_evr : P .evr) (h : Keeps P r s) (e : State.makeRoom s = some t) : Keeps P r t := by
  unfold State.makeRoom at e
  split at e
  · obtain rfl := Option.some.inj e
    exact h
  · split at e
    · exact absurd e (by simp)
    · obtain rfl := Option.some.inj e
      exact keeps_setZone p_regs p_acc p_mem p_zone p_stage p_memc p_evr h

/-- `State.openFor` keeps. -/
theorem keeps_openFor {P : Part → Prop} {r s : State} {t : _} {b1 : ℕ} {b2 : Zone} {b3 : Bool} (p_regs : P .regs) (p_acc : P .acc) (p_mem : P .mem) (p_zone : P .zone)
    (p_stage : P .stage) (p_memc : P .memc) (p_evr : P .evr) (h : Keeps P r s) (e : State.openFor s b1 b2 b3 = .ok t) : Keeps P r t := by
  unfold State.openFor at e
  split at e
  · obtain rfl := Except.ok.inj e
    split
    · exact keeps_setZone p_regs p_acc p_mem p_zone p_stage p_memc p_evr h
    · exact h
  · split at e
    · exact absurd e (by simp)
    · split at e
      · exact absurd e (by simp)
      · next s1 e1 =>
        obtain rfl := Except.ok.inj e
        exact keeps_setZone p_regs p_acc p_mem p_zone p_stage p_memc p_evr (keeps_makeRoom p_regs p_acc p_mem p_zone p_stage p_memc p_evr h e1)

/-- `State.updRun` keeps. -/
theorem keeps_updRun {P : Part → Prop} {r s : State} {b1 : Fin 4} {b2 : Fin 4} {b3 : ℕ} {b4 : ZRun → ZRun} (p_zone : P .zone) (h : Keeps P r s) : Keeps P r (State.updRun
    s b1 b2 b3 b4) := by
  unfold State.updRun
  exact (keeps_zput p_zone h)

/-- `State.refuseFirst` keeps. -/
theorem keeps_refuseFirst {P : Part → Prop} {r s : State} {b1 : Fin 4} {b2 : Fin 4} {b3 : ℕ} {b4 : ZRun} (p_zone : P .zone) (h : Keeps P r s) : Keeps P r (State.refuseFirst s
    b1 b2 b3 b4).1 := by
  unfold State.refuseFirst
  split
  · refine Keeps.fst_mk ?_
    exact h
  · refine Keeps.fst_mk ?_
    exact (keeps_updRun p_zone h)

/-- `State.updZone` keeps. -/
theorem keeps_updZone {P : Part → Prop} {r s : State} {b1 : ℕ} {b2 : Zone → Zone} (p_regs : P .regs) (p_acc : P .acc) (p_mem : P .mem) (p_zone : P .zone) (p_stage : P
    .stage) (p_memc : P .memc) (p_evr : P .evr) (h : Keeps P r s) : Keeps P r (State.updZone s b1 b2) := by
  unfold State.updZone
  split
  · exact h
  · exact (keeps_setZone p_regs p_acc p_mem p_zone p_stage p_memc p_evr h)

/-- `State.jSequence` keeps. -/
theorem keeps_jSequence {P : Part → Prop} {r s : State} {b1 : JBody} (p_regs : P .regs) (p_acc : P .acc) (p_mem : P .mem) (p_zone : P .zone) (p_stage : P .stage) (p_memc : P
    .memc) (p_evr : P .evr) (h : Keeps P r s) : Keeps P r (State.jSequence s b1) := by
  unfold State.jSequence
  extract_lets +onlyGivenNames x1
  clear_value x1
  extract_lets +onlyGivenNames x2
  have h3 : Keeps P r x2 := (keeps_zput p_zone (keeps_wr p_regs (keeps_wr p_regs h)))
  clear_value x2
  extract_lets +onlyGivenNames x4
  have h5 : Keeps P r x4 := (Keeps.ite h3 (keeps_updZone p_regs p_acc p_mem p_zone p_stage p_memc p_evr h3))
  clear_value x4
  split
  · exact (Keeps.ite (keeps_suspend p_regs p_acc h5) h5)
  · exact h5

/-- `State.jIssue` keeps. -/
theorem keeps_jIssue {P : Part → Prop} {r s : State} {b1 : JBody} (p_regs : P .regs) (p_acc : P .acc) (p_mem : P .mem) (p_zone : P .zone) (p_stage : P .stage) (p_memc : P
    .memc) (p_evr : P .evr) (h : Keeps P r s) : Keeps P r (State.jIssue s b1) := by
  unfold State.jIssue
  exact (Keeps.ite h (Keeps.ite (keeps_zput p_zone h) (Keeps.ite (keeps_zput p_zone h) (keeps_jSequence p_regs p_acc p_mem p_zone p_stage p_memc
      p_evr h))))

/-- `State.runBegin` keeps. -/
theorem keeps_runBegin {P : Part → Prop} {r s : State} {b1 : Fin 4} {b2 : Fin 4} {b3 : ℕ} {b4 : Zone} (p_regs : P .regs) (p_acc : P .acc) (p_mem : P .mem) (p_zone : P
    .zone) (p_stage : P .stage) (p_memc : P .memc) (p_evr : P .evr) (h : Keeps P r s) : Keeps P r (State.runBegin s b1 b2 b3 b4) := by
  unfold State.runBegin
  exact (Keeps.ite h (keeps_jIssue p_regs p_acc p_mem p_zone p_stage p_memc p_evr (keeps_writeBack p_regs p_acc p_mem p_stage p_memc p_evr
      (keeps_zput p_zone h))))

/-- `State.acceptZone` keeps. -/
theorem keeps_acceptZone {P : Part → Prop} {r s : State} {b1 : Fin 4} {b2 : Fin 4} {b3 : ℕ} {b4 : Zone} {b5 : ℕ} (p_regs : P .regs) (p_acc : P .acc) (p_mem : P .mem) (p_zone
    : P .zone) (p_stage : P .stage) (p_memc : P .memc) (p_evr : P .evr) (h : Keeps P r s) : Keeps P r (State.acceptZone s b1 b2 b3 b4 b5).1 := by
  unfold State.acceptZone
  split
  · refine Keeps.fst_mk ?_
    exact h
  · split
    · split
      · refine Keeps.fst_mk ?_
        exact h
      · split
        · refine Keeps.fst_mk ?_
          exact (keeps_updRun p_zone (keeps_runBegin p_regs p_acc p_mem p_zone p_stage p_memc p_evr h))
        · refine Keeps.fst_mk ?_
          exact h
    · split
      · exact (keeps_refuseFirst p_zone h)
      · split
        · refine Keeps.fst_mk ?_
          exact h
        · split
          · refine Keeps.fst_mk ?_
            exact h
          · split
            · rename_i y1 y2 y3 y4 y5 y6 y7 y8 y9 y10
              refine Keeps.fst_mk ?_
              exact h
            · rename_i y11 y12 y13 y14 y15 y16 y17 y18 y19 y20
              have h21 : Keeps P r y19 := keeps_openFor p_regs p_acc p_mem p_zone p_stage p_memc p_evr h y20
              extract_lets +onlyGivenNames x22
              have h23 : Keeps P r x22 := (keeps_updZone p_regs p_acc p_mem p_zone p_stage p_memc p_evr h21)
              clear_value x22
              extract_lets +onlyGivenNames x24
              have h25 : Keeps P r x24 := (keeps_updRun p_zone (keeps_zput p_zone h23))
              clear_value x24
              refine Keeps.fst_mk ?_
              exact h25

/-- `State.acceptSector` keeps. -/
theorem keeps_acceptSector {P : Part → Prop} {r s : State} {b1 : Fin 4} {b2 : Fin 4} {b3 : ℕ} (p_regs : P .regs) (p_acc : P .acc) (p_mem : P .mem) (p_zone : P .zone) (p_stage :
    P .stage) (p_memc : P .memc) (p_evr : P .evr) (h : Keeps P r s) : Keeps P r (State.acceptSector s b1 b2 b3).1 := by
  unfold State.acceptSector
  split
  · exact (keeps_acceptZone p_regs p_acc p_mem p_zone p_stage p_memc p_evr h)
  · split
    · split
      · refine Keeps.fst_mk ?_
        exact h
      · refine Keeps.fst_mk ?_
        exact h
    · refine Keeps.fst_mk ?_
      exact h

/-- `State.advancePP` keeps. -/
theorem keeps_advancePP {P : Part → Prop} {r s : State} {b1 : ℕ} {b2 : ℕ} (p_regs : P .regs) (p_acc : P .acc) (p_mem : P .mem) (p_zone : P .zone) (p_stage : P .stage)
    (p_memc : P .memc) (p_evr : P .evr) (h : Keeps P r s) : Keeps P r (State.advancePP s b1 b2) := by
  unfold State.advancePP
  exact (keeps_updZone p_regs p_acc p_mem p_zone p_stage p_memc p_evr h)

/-- `State.closeIf` keeps. -/
theorem keeps_closeIf {P : Part → Prop} {r s : State} {b1 : ℕ} (p_regs : P .regs) (p_acc : P .acc) (p_mem : P .mem) (p_zone : P .zone) (p_stage : P .stage) (p_memc : P
    .memc) (p_evr : P .evr) (h : Keeps P r s) : Keeps P r (State.closeIf s b1) := by
  unfold State.closeIf
  exact (keeps_zput p_zone (keeps_updZone p_regs p_acc p_mem p_zone p_stage p_memc p_evr h))

/-- `State.runFailed` keeps. -/
theorem keeps_runFailed {P : Part → Prop} {r s : State} {b1 : Fin 4} {b2 : ℕ} {b3 : ℕ} (p_regs : P .regs) (p_acc : P .acc) (p_mem : P .mem) (p_zone : P .zone) (p_stage : P
    .stage) (p_memc : P .memc) (p_evr : P .evr) (h : Keeps P r s) : Keeps P r (State.runFailed s b1 b2 b3) := by
  unfold State.runFailed
  split
  · exact h
  · split
    · exact (keeps_setZone p_regs p_acc p_mem p_zone p_stage p_memc p_evr h)
    · extract_lets +onlyGivenNames x1
      clear_value x1
      split
      · extract_lets +onlyGivenNames x2
        clear_value x2
        exact (keeps_jIssue p_regs p_acc p_mem p_zone p_stage p_memc p_evr (keeps_raise p_evr (keeps_wr p_regs (keeps_setZone p_regs p_acc p_mem
            p_zone p_stage p_memc p_evr h))))
      · exact (keeps_setZone p_regs p_acc p_mem p_zone p_stage p_memc p_evr h)

/-- `State.runEnd1` keeps. -/
theorem keeps_runEnd1 {P : Part → Prop} {r s : State} {b1 : ZRun} {b2 : ℕ} (p_regs : P .regs) (p_acc : P .acc) (p_mem : P .mem) (p_zone : P .zone) (p_stage : P .stage)
    (p_memc : P .memc) (p_evr : P .evr) (h : Keeps P r s) : Keeps P r (State.runEnd1 s b1 b2) := by
  unfold State.runEnd1
  extract_lets +onlyGivenNames x1
  have h2 : Keeps P r x1 := (keeps_zput p_zone h)
  clear_value x1
  split
  · exact h2
  · extract_lets +onlyGivenNames x3
    have h4 : Keeps P r x3 := (keeps_jIssue p_regs p_acc p_mem p_zone p_stage p_memc p_evr h2)
    clear_value x3
    extract_lets +onlyGivenNames x5
    have h6 : Keeps P r x5 := (Keeps.ite (keeps_jIssue p_regs p_acc p_mem p_zone p_stage p_memc p_evr h4) h4)
    clear_value x5
    extract_lets +onlyGivenNames x7
    have h8 : Keeps P r x7 := (keeps_runFailed p_regs p_acc p_mem p_zone p_stage p_memc p_evr h6)
    clear_value x7
    extract_lets +onlyGivenNames x9
    have h10 : Keeps P r x9 := (Keeps.ite (keeps_closeIf p_regs p_acc p_mem p_zone p_stage p_memc p_evr h8) h8)
    clear_value x9
    exact (keeps_writeBack p_regs p_acc p_mem p_stage p_memc p_evr h10)

/-- `State.runsEnd` keeps. -/
theorem keeps_runsEnd {P : Part → Prop} {r s : State} {b1 : ℕ} {b2 : List ZRun} (p_regs : P .regs) (p_acc : P .acc) (p_mem : P .mem) (p_zone : P .zone) (p_stage : P
    .stage) (p_memc : P .memc) (p_evr : P .evr) (h : Keeps P r s) : Keeps P r (State.runsEnd s b1 b2) := by
  induction b2 generalizing s b1
  · simp only [State.runsEnd]
    exact h
  · rename_i a1 a2 ih
    simp only [State.runsEnd]
    exact (ih (keeps_runEnd1 p_regs p_acc p_mem p_zone p_stage p_memc p_evr h))

/-- `State.runEnd` keeps. -/
theorem keeps_runEnd {P : Part → Prop} {r s : State} {b1 : Fin 4} {b2 : Fin 4} {b3 : ℕ} (p_regs : P .regs) (p_acc : P .acc) (p_mem : P .mem) (p_zone : P .zone) (p_stage :
    P .stage) (p_memc : P .memc) (p_evr : P .evr) (h : Keeps P r s) : Keeps P r (State.runEnd s b1 b2 b3) := by
  unfold State.runEnd
  exact (Keeps.ite h (keeps_runsEnd p_regs p_acc p_mem p_zone p_stage p_memc p_evr h))

/-- `State.jIssues` keeps. -/
theorem keeps_jIssues {P : Part → Prop} {r s : State} {b1 : List JBody} (p_regs : P .regs) (p_acc : P .acc) (p_mem : P .mem) (p_zone : P .zone) (p_stage : P .stage)
    (p_memc : P .memc) (p_evr : P .evr) (h : Keeps P r s) : Keeps P r (State.jIssues s b1) := by
  induction b1 generalizing s 
  · simp only [State.jIssues]
    exact h
  · rename_i a1 a2 ih
    simp only [State.jIssues]
    exact (ih (keeps_jIssue p_regs p_acc p_mem p_zone p_stage p_memc p_evr h))

/-- `execJournalEnable` keeps. -/
theorem keeps_execJournalEnable {P : Part → Prop} {r s : State} {b0 : Bool} (p_regs : P .regs) (p_acc : P .acc) (p_mem : P .mem) (p_zone : P .zone) (p_stage : P .stage) (p_memc : P
    .memc) (p_evr : P .evr) (h : Keeps P r s) : KeepsO P r (execJournalEnable b0 s) := by
  unfold execJournalEnable
  extract_lets +onlyGivenNames x1
  have h2 : Keeps P r x1 := (keeps_wr p_regs h)
  clear_value x1
  split
  · exact KeepsO.of_next (keeps_jIssues p_regs p_acc p_mem p_zone p_stage p_memc p_evr (keeps_zput p_zone (keeps_wr p_regs h2)))
  · exact KeepsO.of_next h2

/-- `State.setFlags` keeps. -/
theorem keeps_setFlags {P : Part → Prop} {r s : State} {b1 : ℕ} {b2 : Zone → Zone} (p_regs : P .regs) (p_acc : P .acc) (p_mem : P .mem) (p_zone : P .zone) (p_stage : P
    .stage) (p_memc : P .memc) (p_evr : P .evr) (h : Keeps P r s) : Keeps P r (State.setFlags s b1 b2) := by
  unfold State.setFlags
  split
  · exact h
  · exact (keeps_jIssue p_regs p_acc p_mem p_zone p_stage p_memc p_evr (keeps_setZone p_regs p_acc p_mem p_zone p_stage p_memc p_evr h))

/-- `execZflagClrvfy` keeps. -/
theorem keeps_execZflagClrvfy {P : Part → Prop} {r s : State} {b0 : Fin 4} {b1 : BitVec 20} (p_regs : P .regs) (p_acc : P .acc) (p_mem : P .mem) (p_zone : P .zone) (p_stage : P
    .stage) (p_memc : P .memc) (p_evr : P .evr) (h : Keeps P r s) : KeepsO P r (execZflagClrvfy b0 b1 s) := by
  unfold execZflagClrvfy
  exact KeepsO.of_next (keeps_setFlags p_regs p_acc p_mem p_zone p_stage p_memc p_evr (keeps_wr p_regs h))

/-- `execZflagSetrzr` keeps. -/
theorem keeps_execZflagSetrzr {P : Part → Prop} {r s : State} {b0 : Fin 4} {b1 : BitVec 20} (p_regs : P .regs) (p_acc : P .acc) (p_mem : P .mem) (p_zone : P .zone) (p_stage : P
    .stage) (p_memc : P .memc) (p_evr : P .evr) (h : Keeps P r s) : KeepsO P r (execZflagSetrzr b0 b1 s) := by
  unfold execZflagSetrzr
  exact KeepsO.of_next (keeps_setFlags p_regs p_acc p_mem p_zone p_stage p_memc p_evr (keeps_wr p_regs h))

/-- `execZoneLoad` keeps. -/
theorem keeps_execZoneLoad {P : Part → Prop} {r s : State} {b0 : Fin 4} (p_regs : P .regs) (p_zone : P .zone) (p_evr : P .evr) (h : Keeps P r s) : KeepsO P r (execZoneLoad b0 s) := by
  unfold execZoneLoad
  extract_lets +onlyGivenNames x1
  clear_value x1
  split
  · exact KeepsO.of_next (keeps_raise p_evr (keeps_wr p_regs (keeps_wr p_regs (keeps_wr p_regs h))))
  · extract_lets +onlyGivenNames x2
    have h3 : Keeps P r x2 := (keeps_zput p_zone h)
    clear_value x2
    exact KeepsO.of_next (keeps_wr p_regs (keeps_wr p_regs h3))

/-- `execZoneQuery` keeps. -/
theorem keeps_execZoneQuery {P : Part → Prop} {r s : State} {b0 : Fin 4} {b1 : BitVec 20} (p_regs : P .regs) (h : Keeps P r s) : KeepsO P r (execZoneQuery b0 b1 s) := by
  unfold execZoneQuery
  extract_lets +onlyGivenNames x1
  have h2 : Keeps P r x1 := (keeps_wr p_regs (keeps_wr p_regs h))
  clear_value x1
  split
  · exact KeepsO.of_next (keeps_wrs p_regs h2)
  · exact KeepsO.of_next (keeps_wrs p_regs h2)

/-- `execZoneRecovWrite` keeps. -/
theorem keeps_execZoneRecovWrite {P : Part → Prop} {r s : State} {b0 : Fin 4} {b1 : Bool} (p_regs : P .regs) (h : Keeps P r s) : KeepsO P r (execZoneRecovWrite b0 b1 s) := by
  unfold execZoneRecovWrite
  exact KeepsO.of_next (keeps_wr p_regs h)

/-- `State.zoneCommit` keeps. -/
theorem keeps_zoneCommit {P : Part → Prop} {r s : State} {b1 : ℕ} {b2 : ℕ} (p_regs : P .regs) (p_acc : P .acc) (p_mem : P .mem) (p_zone : P .zone) (p_stage : P .stage)
    (p_memc : P .memc) (p_evr : P .evr) (h : Keeps P r s) : Keeps P r (State.zoneCommit s b1 b2) := by
  unfold State.zoneCommit
  split
  · exact h
  · extract_lets +onlyGivenNames x1
    clear_value x1
    extract_lets +onlyGivenNames x2
    have h3 : Keeps P r x2 := (keeps_setZone p_regs p_acc p_mem p_zone p_stage p_memc p_evr h)
    clear_value x2
    exact (Keeps.ite (keeps_jIssue p_regs p_acc p_mem p_zone p_stage p_memc p_evr h3) h3)

/-- `State.settleVoids` keeps. -/
theorem keeps_settleVoids {P : Part → Prop} {r s : State} (p_regs : P .regs) (h : Keeps P r s) : Keeps P r (State.settleVoids s) := by
  unfold State.settleVoids
  extract_lets +onlyGivenNames x1
  clear_value x1
  exact (Keeps.ite h (keeps_wr p_regs h))

/-- `State.flagVerify` keeps. -/
theorem keeps_flagVerify {P : Part → Prop} {r s : State} {b1 : Fin 4} {b2 : ℕ} (p_regs : P .regs) (p_acc : P .acc) (p_mem : P .mem) (p_zone : P .zone) (p_stage : P .stage)
    (p_memc : P .memc) (p_evr : P .evr) (h : Keeps P r s) : Keeps P r (State.flagVerify s b1 b2) := by
  unfold State.flagVerify
  split
  · exact h
  · exact (keeps_raise p_evr (keeps_wr p_regs (keeps_setFlags p_regs p_acc p_mem p_zone p_stage p_memc p_evr h)))

/-- `State.foldOne` keeps. -/
theorem keeps_foldOne {P : Part → Prop} {r s : State} {b1 : List JRec} {b2 : ℕ} (p_flash : P .flash) (h : Keeps P r s) : Keeps P r (State.foldOne s b1 b2) := by
  unfold State.foldOne
  split
  · extract_lets +onlyGivenNames x1
    clear_value x1
    exact Keeps.mkAll h le_rfl id (flashPut_wf _ _) id id id

/-- `State.jRelease` keeps. -/
theorem keeps_jRelease {P : Part → Prop} {r s : State} {b1 : JBody} (p_mem : P .mem) (p_host : P .host) (h : Keeps P r s) : Keeps P r (State.jRelease s b1) := by
  unfold State.jRelease
  split
  · exact (keeps_settleSanitize p_host (keeps_hput p_host h))
  · split
    · exact h
    · extract_lets +onlyGivenNames x1
      have h2 : Keeps P r x1 := (keeps_ctxUpd p_mem p_host h)
      clear_value x1
      exact (Keeps.ite (keeps_handOver p_mem p_host h2) h2)

/-- `State.rangeReset` keeps. -/
theorem keeps_rangeReset {P : Part → Prop} {r s : State} {b1 : ℕ} {b2 : ℕ} {b3 : ℕ} (p_regs : P .regs) (p_acc : P .acc) (p_mem : P .mem) (p_zone : P .zone) (p_stage : P
    .stage) (p_memc : P .memc) (p_evr : P .evr) (h : Keeps P r s) : Keeps P r (State.rangeReset s b1 b2 b3) := by
  induction b3 generalizing s b1 b2
  · simp only [State.rangeReset]
    exact h
  · rename_i a1 ih
    simp only [State.rangeReset]
    exact (ih (keeps_updZone p_regs p_acc p_mem p_zone p_stage p_memc p_evr h))

/-- `State.jEffect` keeps. -/
theorem keeps_jEffect {P : Part → Prop} {r s : State} {b1 : JBody} (p_regs : P .regs) (p_acc : P .acc) (p_mem : P .mem) (p_zone : P .zone) (p_host : P .host) (p_stage : P
    .stage) (p_memc : P .memc) (p_evr : P .evr) (h : Keeps P r s) : Keeps P r (State.jEffect s b1) := by
  unfold State.jEffect
  extract_lets +onlyGivenNames x1
  have h2 : Keeps P r x1 := (Keeps.ite (keeps_zput p_zone h) (Keeps.ite (keeps_rangeReset p_regs p_acc p_mem p_zone p_stage p_memc p_evr h) h))
  clear_value x1
  exact (keeps_jRelease p_mem p_host h2)

/-- `State.jMargin` keeps. -/
theorem keeps_jMargin {P : Part → Prop} {r s : State} (p_regs : P .regs) (p_acc : P .acc) (p_mem : P .mem) (p_zone : P .zone) (p_stage : P .stage) (p_memc : P .memc)
    (p_evr : P .evr) (h : Keeps P r s) : Keeps P r (State.jMargin s) := by
  unfold State.jMargin
  extract_lets +onlyGivenNames x1
  clear_value x1
  extract_lets +onlyGivenNames x2
  clear_value x2
  extract_lets +onlyGivenNames x3
  have h4 : Keeps P r x3 := (keeps_wr p_regs h)
  clear_value x3
  split
  · split
    · exact h4
    · refine keeps_raise p_evr ?_
      refine Keeps.foldl ?_ fun y5 y6 h7 => ?_
      · exact h4
      · exact (keeps_wr p_regs h7)
  · exact (keeps_jIssues p_regs p_acc p_mem p_zone p_stage p_memc p_evr (keeps_zput p_zone h4))

/-- `execJournalFold` keeps. -/
theorem keeps_execJournalFold {P : Part → Prop} {r s : State} (p_regs : P .regs) (p_acc : P .acc) (p_mem : P .mem) (p_zone : P .zone) (p_stage : P .stage) (p_memc : P .memc)
    (p_evr : P .evr) (p_flash : P .flash) (h : Keeps P r s) : KeepsO P r (execJournalFold s) := by
  unfold execJournalFold
  extract_lets +onlyGivenNames x1
  clear_value x1
  split
  · exact KeepsO.of_next (keeps_jMargin p_regs p_acc p_mem p_zone p_stage p_memc p_evr h)
  · extract_lets +onlyGivenNames x2
    clear_value x2
    extract_lets +onlyGivenNames x3
    refine Keeps.step (P := P) (r := r) (x := x3) ?_ ?_
    · unfold x3
      refine Keeps.foldl ?_ fun y5 y6 h7 => ?_
      · exact h
      · exact (keeps_foldOne p_flash h7)
    intro h4
    clear_value x3
    extract_lets +onlyGivenNames x8
    clear_value x8
    extract_lets +onlyGivenNames x9
    refine Keeps.step (P := P) (r := r) (x := x9) ?_ ?_
    · unfold x9
      exact Keeps.mkAll h4 le_rfl id (twf_filter _) id id id
    intro h10
    clear_value x9
    exact KeepsO.of_next (keeps_jMargin p_regs p_acc p_mem p_zone p_stage p_memc p_evr (keeps_zput p_zone h10))

/-- `execJournalRecordDurable` keeps. -/
theorem keeps_execJournalRecordDurable {P : Part → Prop} {r s : State} (p_regs : P .regs) (p_acc : P .acc) (p_mem : P .mem) (p_zone : P .zone) (p_host : P .host) (p_stage : P .stage)
    (p_memc : P .memc) (p_evr : P .evr) (p_flash : P .flash) (h : Keeps P r s) : KeepsO P r (execJournalRecordDurable s) := by
  unfold execJournalRecordDurable
  split
  · exact KeepsO.of_next h
  · split
    · exact KeepsO.of_next h
    · extract_lets +onlyGivenNames x1
      clear_value x1
      split
      · exact KeepsO.of_next (keeps_raise p_evr (keeps_wr p_regs h))
      · extract_lets +onlyGivenNames x2
        refine Keeps.step (P := P) (r := r) (x := x2) ?_ ?_
        · unfold x2
          exact Keeps.mkAll h le_rfl id (flashPut_wf _ _) id id id
        intro h3
        clear_value x2
        extract_lets +onlyGivenNames x4
        have h5 : Keeps P r x4 := (keeps_wr p_regs (keeps_zput p_zone h3))
        clear_value x4
        exact KeepsO.of_next (keeps_settleVoids p_regs (keeps_jMargin p_regs p_acc p_mem p_zone p_stage p_memc p_evr (keeps_jEffect p_regs p_acc
            p_mem p_zone p_host p_stage p_memc p_evr h5)))

/-- `execJournalRecordIssue` keeps. -/
theorem keeps_execJournalRecordIssue {P : Part → Prop} {r s : State} {b0 : JBody} (p_regs : P .regs) (p_acc : P .acc) (p_mem : P .mem) (p_zone : P .zone) (p_stage : P .stage) (p_memc : P
    .memc) (p_evr : P .evr) (h : Keeps P r s) : KeepsO P r (execJournalRecordIssue b0 s) := by
  unfold execJournalRecordIssue
  exact KeepsO.of_next (keeps_jIssue p_regs p_acc p_mem p_zone p_stage p_memc p_evr h)

end Sys2Proof.Machine
end

