-- ==== Sys2Proof/Laws/KeepsSlots.lean ====
section
/-! SUPPORT. What the operations of Machine/Slots.lean keep. -/

namespace Sys2Proof.Machine

set_option Elab.async false

/-- `State.endCtx` keeps. -/
theorem keeps_endCtx {P : Part → Prop} {r s : State} {b1 : ℕ} (p_regs : P .regs) (p_mem : P .mem) (p_zone : P .zone) (p_host : P .host) (p_stage : P .stage) (p_trust : P
    .trust) (h : Keeps P r s) : Keeps P r (State.endCtx s b1) := by
  unfold State.endCtx
  split
  · exact h
  · split
    · exact h
    · extract_lets +onlyGivenNames x1
      have h2 : Keeps P r x1 := (keeps_zput p_zone h)
      clear_value x1
      exact (keeps_wr p_regs (keeps_ctxFree p_regs p_mem p_host p_stage p_trust h2))
    · exact (keeps_handOver p_mem p_host (keeps_ctxUpd p_mem p_host h))
    · exact (keeps_ctxUpd p_mem p_host h)

/-- `State.endCtxs` keeps. -/
theorem keeps_endCtxs {P : Part → Prop} {r s : State} {b1 : List ℕ} (p_regs : P .regs) (p_mem : P .mem) (p_zone : P .zone) (p_host : P .host) (p_stage : P .stage) (p_trust
    : P .trust) (h : Keeps P r s) : Keeps P r (State.endCtxs s b1) := by
  induction b1 generalizing s 
  · simp only [State.endCtxs]
    exact h
  · rename_i a1 a2 ih
    simp only [State.endCtxs]
    exact (ih (keeps_endCtx p_regs p_mem p_zone p_host p_stage p_trust h))

/-- `State.dropDeep` keeps. -/
theorem keeps_dropDeep {P : Part → Prop} {r s : State} {b1 : Fin 4} {b2 : Fin 4} (p_regs : P .regs) (p_deep : P .deep) (h : Keeps P r s) : Keeps P r (State.dropDeep s b1 b2) := by
  unfold State.dropDeep
  extract_lets +onlyGivenNames x1
  clear_value x1
  extract_lets +onlyGivenNames x2
  have h3 : Keeps P r x2 := (Keeps.ite (keeps_wr p_regs h) h)
  clear_value x2
  exact (Keeps.put h3)

/-- `State.noteStored` keeps. -/
theorem keeps_noteStored {P : Part → Prop} {r s : State} {b1 : Fin 4} (p_regs : P .regs) (h : Keeps P r s) : Keeps P r (State.noteStored s b1) := by
  unfold State.noteStored
  exact (keeps_wr p_regs h)

/-- `State.freeEntries` keeps. -/
theorem keeps_freeEntries {P : Part → Prop} {r s : State} {b1 : Fin 4} {b2 : StoreEntry → Bool} (p_regs : P .regs) (p_acc : P .acc) (p_mem : P .mem) (p_chan : P .chan)
    (p_stage : P .stage) (p_memc : P .memc) (p_evr : P .evr) (h : Keeps P r s) : Keeps P r (State.freeEntries s b1 b2) := by
  unfold State.freeEntries
  extract_lets +onlyGivenNames x1
  refine Keeps.step (P := P) (r := r) (x := x1) ?_ ?_
  · unfold x1
    refine Keeps.foldl ?_ fun y3 y4 h5 => ?_
    · exact h
    · exact (keeps_stored p_regs p_acc p_mem p_stage p_memc p_evr h5)
  intro h2
  clear_value x1
  exact (keeps_noteStored p_regs (keeps_updCh p_chan h2))

/-- `State.idlePair` keeps. -/
theorem keeps_idlePair {P : Part → Prop} {r s : State} {b1 : Fin 4} (p_regs : P .regs) (p_chan : P .chan) (h : Keeps P r s) : Keeps P r (State.idlePair s b1) := by
  unfold State.idlePair
  exact (Keeps.ite (keeps_updCh p_chan (keeps_wr p_regs h)) (Keeps.ite (keeps_sendDisarm p_chan (keeps_updCh p_chan h)) h))

/-- `State.readTarget` keeps. -/
theorem keeps_readTarget {P : Part → Prop} {r s : State} {b1 : Fin 4} {b2 : Fin 4} (p_servo : P .servo) (h : Keeps P r s) : Keeps P r (State.readTarget s b1 b2) := by
  unfold State.readTarget
  extract_lets +onlyGivenNames x1
  have h2 : Keeps P r x1 := (keeps_updSv p_servo h)
  clear_value x1
  exact (keeps_updSv p_servo h2)

/-- `State.interrupt` keeps. -/
theorem keeps_interrupt {P : Part → Prop} {r s : State} {b1 : Fin 4} {b2 : Fin 4} (p_regs : P .regs) (p_acc : P .acc) (p_mem : P .mem) (p_reach : P .reach) (p_chan : P
    .chan) (p_deep : P .deep) (p_servo : P .servo) (p_zone : P .zone) (p_stage : P .stage) (p_memc : P .memc) (p_evr : P .evr) (h : Keeps P r s) :
    Keeps P r (State.interrupt s b1 b2) := by
  unfold State.interrupt
  extract_lets +onlyGivenNames x1
  clear_value x1
  extract_lets +onlyGivenNames x2
  have h3 : Keeps P r x2 := (keeps_updEng p_reach h)
  clear_value x2
  extract_lets +onlyGivenNames x4
  clear_value x4
  extract_lets +onlyGivenNames x5
  clear_value x5
  extract_lets +onlyGivenNames x6
  have h7 : Keeps P r x6 := (Keeps.ite (keeps_readTarget p_servo (keeps_idlePair p_regs p_chan h3)) h3)
  clear_value x6
  extract_lets +onlyGivenNames x8
  have h9 : Keeps P r x8 := (keeps_updCh p_chan (keeps_freeEntries p_regs p_acc p_mem p_chan p_stage p_memc p_evr h7))
  clear_value x8
  exact (keeps_updSlot p_reach (keeps_runEnd p_regs p_acc p_mem p_zone p_stage p_memc p_evr (keeps_dropDeep p_regs p_deep h9)))

/-- `State.kill` keeps. -/
theorem keeps_kill {P : Part → Prop} {r s : State} {b1 : Fin 4} {b2 : Fin 4} (p_regs : P .regs) (p_acc : P .acc) (p_mem : P .mem) (p_reach : P .reach) (p_chan : P
    .chan) (p_deep : P .deep) (p_servo : P .servo) (p_zone : P .zone) (p_host : P .host) (p_stage : P .stage) (p_memc : P .memc) (p_evr : P .evr)
    (p_trust : P .trust) (h : Keeps P r s) : Keeps P r (State.kill s b1 b2) := by
  unfold State.kill
  extract_lets +onlyGivenNames x1
  have h2 : Keeps P r x1 := (keeps_interrupt p_regs p_acc p_mem p_reach p_chan p_deep p_servo p_zone p_stage p_memc p_evr h)
  clear_value x1
  extract_lets +onlyGivenNames x3
  have h4 : Keeps P r x3 := (keeps_stored p_regs p_acc p_mem p_stage p_memc p_evr h2)
  clear_value x3
  extract_lets +onlyGivenNames x5
  clear_value x5
  extract_lets +onlyGivenNames x6
  have h7 : Keeps P r x6 := (keeps_updSlot p_reach h4)
  clear_value x6
  exact (keeps_endCtxs p_regs p_mem p_zone p_host p_stage p_trust h7)

/-- `State.killStopped` keeps. -/
theorem keeps_killStopped {P : Part → Prop} {r s : State} {b1 : Fin 4} {b2 : List (Fin 4)} (p_regs : P .regs) (p_acc : P .acc) (p_mem : P .mem) (p_reach : P .reach) (p_chan :
    P .chan) (p_deep : P .deep) (p_servo : P .servo) (p_zone : P .zone) (p_host : P .host) (p_stage : P .stage) (p_memc : P .memc) (p_evr : P .evr)
    (p_trust : P .trust) (h : Keeps P r s) : Keeps P r (State.killStopped s b1 b2) := by
  induction b2 generalizing s b1
  · simp only [State.killStopped]
    exact h
  · rename_i a1 a2 ih
    simp only [State.killStopped]
    exact (ih (Keeps.ite (keeps_kill p_regs p_acc p_mem p_reach p_chan p_deep p_servo p_zone p_host p_stage p_memc p_evr p_trust h) h))

/-- `State.findFirst` keeps. -/
theorem keeps_findFirst {P : Part → Prop} {r s : State} {b1 : Fin 4} {b2 : Target} (p_servo : P .servo) (h : Keeps P r s) : Keeps P r (State.findFirst s b1 b2) := by
  unfold State.findFirst
  exact (keeps_updSv p_servo h)

/-- `State.goTo` keeps. -/
theorem keeps_goTo {P : Part → Prop} {r s : State} {b1 : Fin 4} {b2 : Fin 4} {b3 : Target} (p_free : P .free) (p_regs : P .regs) (p_acc : P .acc) (p_chan : P .chan)
    (p_servo : P .servo) (h : Keeps P r s) : Keeps P r (State.goTo s b1 b2 b3) := by
  unfold State.goTo
  exact (Keeps.ite (keeps_findFirst p_servo (keeps_sendSelect p_chan (keeps_clearBlk p_regs p_servo h))) (Keeps.ite (keeps_findFirst p_servo h)
      (keeps_moveTo p_free p_regs p_acc p_servo h)))

/-- `State.notePlace` keeps. -/
theorem keeps_notePlace {P : Part → Prop} {r s : State} {b1 : Fin 4} {b2 : Fin 4} {b3 : Bool} (p_reach : P .reach) (h : Keeps P r s) : Keeps P r (State.notePlace s b1 b2 b3) := by
  unfold State.notePlace
  exact (keeps_updSlot p_reach h)

/-- `State.position` keeps. -/
theorem keeps_position {P : Part → Prop} {r s : State} {b1 : Fin 4} {b2 : Fin 4} (p_free : P .free) (p_regs : P .regs) (p_acc : P .acc) (p_reach : P .reach) (p_chan : P
    .chan) (p_servo : P .servo) (h : Keeps P r s) : Keeps P r (State.position s b1 b2) := by
  unfold State.position
  split
  · exact h
  · split
    · exact (keeps_notePlace p_reach h)
    · extract_lets +onlyGivenNames x1
      have h2 : Keeps P r x1 := (keeps_nameSet p_servo (keeps_notePlace p_reach h))
      clear_value x1
      exact (Keeps.ite h2 (keeps_goTo p_free p_regs p_acc p_chan p_servo h2))

/-- `State.pass` keeps. -/
theorem keeps_pass {P : Part → Prop} {r s : State} {b1 : Fin 4} (p_free : P .free) (p_regs : P .regs) (p_acc : P .acc) (p_reach : P .reach) (p_chan : P .chan) (p_servo
    : P .servo) (h : Keeps P r s) : Keeps P r (State.pass s b1) := by
  unfold State.pass
  split
  · exact h
  · extract_lets +onlyGivenNames x1
    clear_value x1
    exact (Keeps.ite (keeps_position p_free p_regs p_acc p_reach p_chan p_servo (keeps_updSlot p_reach h)) h)

/-- `State.recordAs` keeps. -/
theorem keeps_recordAs {P : Part → Prop} {r s : State} {b1 : Fin 4} {b2 : Fin 4} {b3 : Arch} (p_regs : P .regs) (p_acc : P .acc) (p_mem : P .mem) (p_reach : P .reach)
    (p_stage : P .stage) (p_memc : P .memc) (p_evr : P .evr) (h : Keeps P r s) : Keeps P r (State.recordAs s b1 b2 b3) := by
  unfold State.recordAs
  split
  · exact (keeps_updSlot p_reach (keeps_stored p_regs p_acc p_mem p_stage p_memc p_evr h))

/-- `State.record` keeps. -/
theorem keeps_record {P : Part → Prop} {r s : State} {b1 : Fin 4} {b2 : Fin 4} (p_regs : P .regs) (p_acc : P .acc) (p_mem : P .mem) (p_reach : P .reach) (p_stage : P
    .stage) (p_memc : P .memc) (p_evr : P .evr) (h : Keeps P r s) : Keeps P r (State.record s b1 b2) := by
  unfold State.record
  exact (keeps_recordAs p_regs p_acc p_mem p_reach p_stage p_memc p_evr h)

/-- `State.recordStopped` keeps. -/
theorem keeps_recordStopped {P : Part → Prop} {r s : State} {b1 : Fin 4} {b2 : List (Fin 4)} (p_regs : P .regs) (p_acc : P .acc) (p_mem : P .mem) (p_reach : P .reach) (p_stage :
    P .stage) (p_memc : P .memc) (p_evr : P .evr) (h : Keeps P r s) : Keeps P r (State.recordStopped s b1 b2) := by
  induction b2 generalizing s b1
  · simp only [State.recordStopped]
    exact h
  · rename_i a1 a2 ih
    simp only [State.recordStopped]
    exact (ih (Keeps.ite (keeps_record p_regs p_acc p_mem p_reach p_stage p_memc p_evr h) h))

/-- `State.quiesced` keeps. -/
theorem keeps_quiesced {P : Part → Prop} {r s : State} {b1 : Fin 4} (p_regs : P .regs) (p_acc : P .acc) (p_mem : P .mem) (p_reach : P .reach) (p_stage : P .stage) (p_memc :
    P .memc) (p_evr : P .evr) (h : Keeps P r s) : Keeps P r (State.quiesced s b1) := by
  unfold State.quiesced
  exact (Keeps.ite (keeps_setUnit p_regs (keeps_recordStopped p_regs p_acc p_mem p_reach p_stage p_memc p_evr h)) h)

/-- `State.dispatch` keeps. -/
theorem keeps_dispatch {P : Part → Prop} {r s : State} {b1 : Fin 4} (p_free : P .free) (p_regs : P .regs) (p_acc : P .acc) (p_mem : P .mem) (p_reach : P .reach) (p_chan : P
    .chan) (p_deep : P .deep) (p_servo : P .servo) (p_zone : P .zone) (p_host : P .host) (p_stage : P .stage) (p_memc : P .memc) (p_evr : P .evr)
    (p_trust : P .trust) (h : Keeps P r s) : Keeps P r (State.dispatch s b1) := by
  unfold State.dispatch
  exact (keeps_pass p_free p_regs p_acc p_reach p_chan p_servo (keeps_quiesced p_regs p_acc p_mem p_reach p_stage p_memc p_evr (keeps_killStopped
      p_regs p_acc p_mem p_reach p_chan p_deep p_servo p_zone p_host p_stage p_memc p_evr p_trust h)))

/-- `State.completeRecord` keeps. -/
theorem keeps_completeRecord {P : Part → Prop} {r s : State} {b1 : Fin 4} {b2 : Fin 4} {b3 : Arch → Arch} (p_free : P .free) (p_regs : P .regs) (p_acc : P .acc) (p_mem : P .mem)
    (p_reach : P .reach) (p_chan : P .chan) (p_deep : P .deep) (p_servo : P .servo) (p_zone : P .zone) (p_host : P .host) (p_stage : P .stage)
    (p_memc : P .memc) (p_evr : P .evr) (p_trust : P .trust) (h : Keeps P r s) : Keeps P r (State.completeRecord s b1 b2 b3) := by
  unfold State.completeRecord
  exact (keeps_dispatch p_free p_regs p_acc p_mem p_reach p_chan p_deep p_servo p_zone p_host p_stage p_memc p_evr p_trust (keeps_record p_regs p_acc
      p_mem p_reach p_stage p_memc p_evr (keeps_updSlot p_reach h)))

/-- `State.giveUp` keeps. -/
theorem keeps_giveUp {P : Part → Prop} {r s : State} {b1 : Fin 4} {b2 : Fin 4} {b3 : SlotSt} (p_reach : P .reach) (h : Keeps P r s) : Keeps P r (State.giveUp s b1 b2 b3) := by
  unfold State.giveUp
  extract_lets +onlyGivenNames x1
  clear_value x1
  extract_lets +onlyGivenNames x2
  refine Keeps.step (P := P) (r := r) (x := x2) ?_ ?_
  · unfold x2
    split
    · exact (Keeps.ite (keeps_updEng p_reach h) h)
    · exact h
  intro h3
  clear_value x2
  exact (keeps_updSlot p_reach h3)

/-- `State.complete` keeps. -/
theorem keeps_complete {P : Part → Prop} {r s : State} {b1 : Fin 4} {b2 : Fin 4} {b3 : Arch → Arch} (p_free : P .free) (p_regs : P .regs) (p_acc : P .acc) (p_mem : P .mem)
    (p_reach : P .reach) (p_chan : P .chan) (p_deep : P .deep) (p_servo : P .servo) (p_zone : P .zone) (p_host : P .host) (p_stage : P .stage)
    (p_memc : P .memc) (p_evr : P .evr) (p_trust : P .trust) (h : Keeps P r s) : Keeps P r (State.complete s b1 b2 b3) := by
  unfold State.complete
  exact (keeps_dispatch p_free p_regs p_acc p_mem p_reach p_chan p_deep p_servo p_zone p_host p_stage p_memc p_evr p_trust (keeps_updSlot p_reach h))

/-- `State.stopSlot` keeps. -/
theorem keeps_stopSlot {P : Part → Prop} {r s : State} {b1 : Fin 4} {b2 : Fin 4} (p_free : P .free) (p_regs : P .regs) (p_acc : P .acc) (p_mem : P .mem) (p_reach : P
    .reach) (p_chan : P .chan) (p_deep : P .deep) (p_servo : P .servo) (p_zone : P .zone) (p_host : P .host) (p_stage : P .stage) (p_memc : P .memc)
    (p_evr : P .evr) (p_trust : P .trust) (h : Keeps P r s) : Keeps P r (State.stopSlot s b1 b2) := by
  unfold State.stopSlot
  extract_lets +onlyGivenNames x1
  clear_value x1
  split
  · exact h
  · split
    · exact (keeps_dispatch p_free p_regs p_acc p_mem p_reach p_chan p_deep p_servo p_zone p_host p_stage p_memc p_evr p_trust (keeps_updSlot p_reach
        h))
    · split
      · exact (keeps_updSlot p_reach h)
      · split
        · exact (Keeps.ite (keeps_updSlot p_reach h) (keeps_dispatch p_free p_regs p_acc p_mem p_reach p_chan p_deep p_servo p_zone p_host p_stage
            p_memc p_evr p_trust (keeps_giveUp p_reach h)))
        · exact (Keeps.ite (keeps_updSlot p_reach h) (keeps_dispatch p_free p_regs p_acc p_mem p_reach p_chan p_deep p_servo p_zone p_host p_stage
            p_memc p_evr p_trust (keeps_giveUp p_reach h)))
        · exact (keeps_dispatch p_free p_regs p_acc p_mem p_reach p_chan p_deep p_servo p_zone p_host p_stage p_memc p_evr p_trust (keeps_giveUp
            p_reach h))

/-- `State.recordCommit` keeps. -/
theorem keeps_recordCommit {P : Part → Prop} {r s : State} {b1 : Fin 4} {b2 : Fin 4} (p_regs : P .regs) (p_acc : P .acc) (p_mem : P .mem) (p_reach : P .reach) (p_stage : P
    .stage) (p_memc : P .memc) (p_evr : P .evr) (h : Keeps P r s) : Keeps P r (State.recordCommit s b1 b2) := by
  unfold State.recordCommit
  extract_lets +onlyGivenNames x1
  clear_value x1
  split
  · exact (keeps_record p_regs p_acc p_mem p_reach p_stage p_memc p_evr h)
  · exact (keeps_recordAs p_regs p_acc p_mem p_reach p_stage p_memc p_evr h)

/-- `State.trapSlot` keeps. -/
theorem keeps_trapSlot {P : Part → Prop} {r s : State} {b1 : Fin 4} {b2 : Fin 4} {b3 : ℕ} (p_free : P .free) (p_regs : P .regs) (p_acc : P .acc) (p_mem : P .mem) (p_reach :
    P .reach) (p_chan : P .chan) (p_deep : P .deep) (p_servo : P .servo) (p_zone : P .zone) (p_host : P .host) (p_stage : P .stage) (p_memc : P
    .memc) (p_evr : P .evr) (p_trust : P .trust) (h : Keeps P r s) : Keeps P r (State.trapSlot s b1 b2 b3) := by
  unfold State.trapSlot
  exact (keeps_dispatch p_free p_regs p_acc p_mem p_reach p_chan p_deep p_servo p_zone p_host p_stage p_memc p_evr p_trust (keeps_setB p_regs
      (keeps_updSlot p_reach h)))

/-- `State.instr` keeps. -/
theorem keeps_instr {P : Part → Prop} {r s : State} {b1 : Fin 4} {b2 : Fin 4} {b3 : Slot → State} (p_free : P .free) (p_regs : P .regs) (p_acc : P .acc) (p_mem : P .mem)
    (p_reach : P .reach) (p_chan : P .chan) (p_deep : P .deep) (p_servo : P .servo) (p_zone : P .zone) (p_host : P .host) (p_stage : P .stage)
    (p_memc : P .memc) (p_evr : P .evr) (p_trust : P .trust) (h : Keeps P r s) (hb1 : (∀ y, Keeps P r (b3 y))) : KeepsO P r (State.instr s b1 b2 b3) := by
  unfold State.instr
  extract_lets +onlyGivenNames x1
  clear_value x1
  split
  · exact KeepsO.of_next h
  · split
    · exact KeepsO.of_next (keeps_trapSlot p_free p_regs p_acc p_mem p_reach p_chan p_deep p_servo p_zone p_host p_stage p_memc p_evr p_trust h)
    · exact KeepsO.of_next (hb1 _)

/-- `State.enter` keeps. -/
theorem keeps_enter {P : Part → Prop} {r s : State} {b1 : Fin 4} {b2 : Fin 4} {b3 : Op} {b4 : SlotSt} (p_free : P .free) (p_regs : P .regs) (p_acc : P .acc) (p_mem : P
    .mem) (p_reach : P .reach) (p_chan : P .chan) (p_deep : P .deep) (p_servo : P .servo) (p_zone : P .zone) (p_host : P .host) (p_stage : P .stage)
    (p_memc : P .memc) (p_evr : P .evr) (p_trust : P .trust) (h : Keeps P r s) : Keeps P r (State.enter s b1 b2 b3 b4) := by
  unfold State.enter
  extract_lets +onlyGivenNames x1
  have h2 : Keeps P r x1 := (keeps_updSlot p_reach h)
  clear_value x1
  exact (Keeps.ite h2 (keeps_dispatch p_free p_regs p_acc p_mem p_reach p_chan p_deep p_servo p_zone p_host p_stage p_memc p_evr p_trust h2))

/-- `State.stopKill` keeps. -/
theorem keeps_stopKill {P : Part → Prop} {r s : State} {b1 : Fin 4} {b2 : Fin 4} (p_free : P .free) (p_regs : P .regs) (p_acc : P .acc) (p_mem : P .mem) (p_reach : P
    .reach) (p_chan : P .chan) (p_deep : P .deep) (p_servo : P .servo) (p_zone : P .zone) (p_host : P .host) (p_stage : P .stage) (p_memc : P .memc)
    (p_evr : P .evr) (p_trust : P .trust) (h : Keeps P r s) : Keeps P r (State.stopKill s b1 b2) := by
  unfold State.stopKill
  extract_lets +onlyGivenNames x1
  have h2 : Keeps P r x1 := (keeps_updSlot p_reach h)
  clear_value x1
  exact (Keeps.ite (keeps_stopSlot p_free p_regs p_acc p_mem p_reach p_chan p_deep p_servo p_zone p_host p_stage p_memc p_evr p_trust h2)
      (keeps_dispatch p_free p_regs p_acc p_mem p_reach p_chan p_deep p_servo p_zone p_host p_stage p_memc p_evr p_trust (keeps_kill p_regs p_acc
      p_mem p_reach p_chan p_deep p_servo p_zone p_host p_stage p_memc p_evr p_trust h2)))

/-- `State.instrMove` keeps. -/
theorem keeps_instrMove {P : Part → Prop} {r s : State} {b1 : Fin 4} {b2 : Fin 4} {b3 : Slot → State} (p_free : P .free) (p_regs : P .regs) (p_acc : P .acc) (p_mem : P .mem)
    (p_reach : P .reach) (p_chan : P .chan) (p_deep : P .deep) (p_servo : P .servo) (p_zone : P .zone) (p_host : P .host) (p_stage : P .stage)
    (p_memc : P .memc) (p_evr : P .evr) (p_trust : P .trust) (h : Keeps P r s) (hb1 : (∀ y, Keeps P r (b3 y))) : KeepsO P r (State.instrMove s b1 b2
    b3) := by
  unfold State.instrMove
  split
  · exact KeepsO.of_next h
  · refine keeps_instr p_free p_regs p_acc p_mem p_reach p_chan p_deep p_servo p_zone p_host p_stage p_memc p_evr p_trust ?_ ?_
    · exact h
    · intro y1
      exact (hb1 _)

/-- `State.placed` keeps. -/
theorem keeps_placed {P : Part → Prop} {r s : State} {b1 : Fin 4} {b2 : Fin 4} (p_free : P .free) (p_regs : P .regs) (p_acc : P .acc) (p_mem : P .mem) (p_reach : P
    .reach) (p_chan : P .chan) (p_deep : P .deep) (p_servo : P .servo) (p_zone : P .zone) (p_host : P .host) (p_stage : P .stage) (p_memc : P .memc)
    (p_evr : P .evr) (p_trust : P .trust) (h : Keeps P r s) : Keeps P r (State.placed s b1 b2) := by
  unfold State.placed
  extract_lets +onlyGivenNames x1
  have h2 : Keeps P r x1 := (keeps_notePlace p_reach h)
  clear_value x1
  split
  · exact (Keeps.ite (keeps_dispatch p_free p_regs p_acc p_mem p_reach p_chan p_deep p_servo p_zone p_host p_stage p_memc p_evr p_trust (keeps_giveUp
      p_reach h2)) h2)
  · exact h2

/-- `State.reestablish` keeps. -/
theorem keeps_reestablish {P : Part → Prop} {r s : State} {b1 : Fin 4} {b2 : Fin 4} (p_free : P .free) (p_regs : P .regs) (p_acc : P .acc) (p_chan : P .chan) (p_servo : P
    .servo) (h : Keeps P r s) : Keeps P r (State.reestablish s b1 b2) := by
  unfold State.reestablish
  extract_lets +onlyGivenNames x1
  clear_value x1
  extract_lets +onlyGivenNames x2
  clear_value x2
  exact (Keeps.ite h (Keeps.ite (keeps_goTo p_free p_regs p_acc p_chan p_servo h) h))

/-- `State.restart` keeps. -/
theorem keeps_restart {P : Part → Prop} {r s : State} {b1 : Fin 4} {b2 : Fin 4} (p_free : P .free) (p_regs : P .regs) (p_acc : P .acc) (p_reach : P .reach) (p_chan : P
    .chan) (p_servo : P .servo) (p_evr : P .evr) (h : Keeps P r s) : Keeps P r (State.restart s b1 b2) := by
  unfold State.restart
  split
  · exact (keeps_raise p_evr (keeps_setB p_regs (keeps_updSlot p_reach h)))
  · exact (keeps_reestablish p_free p_regs p_acc p_chan p_servo (keeps_updSlot p_reach h))

end Sys2Proof.Machine
end

