-- ==== Sys2Proof/Laws/KeepsHost.lean ====
section
/-! SUPPORT. What the operations of Machine/Host.lean keep. -/

namespace Sys2Proof.Machine

set_option Elab.async false

/-- `State.endAll` keeps. -/
theorem keeps_endAll {P : Part → Prop} {r s : State} {b1 : ℕ} {b2 : ℕ} {b3 : ℕ} (p_mem : P .mem) (p_host : P .host) (h : Keeps P r s) : Keeps P r (State.endAll s b1 b2 b3) := by
  unfold State.endAll
  refine Keeps.foldl ?_ fun y1 y2 h3 => ?_
  · exact h
  · exact (keeps_handOver p_mem p_host h3)

/-- `State.ctrlUpd` keeps. -/
theorem keeps_ctrlUpd {P : Part → Prop} {r s : State} {b1 : Fin 2} {b2 : Ctrl → Ctrl} (p_host : P .host) (h : Keeps P r s) : Keeps P r (State.ctrlUpd s b1 b2) := by
  unfold State.ctrlUpd
  exact (keeps_hput p_host h)

/-- `State.meetAer` keeps. -/
theorem keeps_meetAer {P : Part → Prop} {r s : State} {b1 : Fin 2} {b2 : ℕ} (p_mem : P .mem) (p_host : P .host) (h : Keeps P r s) : Keeps P r (State.meetAer s b1 b2) := by
  induction b2 generalizing s b1
  · simp only [State.meetAer]
    exact h
  · rename_i a1 ih
    simp only [State.meetAer]
    split
    · exact (ih (keeps_handOver p_mem p_host (keeps_ctxUpd p_mem p_host (keeps_ctrlUpd p_host h))))
    · exact h

/-- `State.notice` keeps. -/
theorem keeps_notice {P : Part → Prop} {r s : State} {b1 : Fin 2} {b2 : ℕ} {b3 : ℕ} {b4 : ℕ} {b5 : ℕ} (p_mem : P .mem) (p_host : P .host) (h : Keeps P r s) : Keeps P r
    (State.notice s b1 b2 b3 b4 b5) := by
  unfold State.notice
  extract_lets +onlyGivenNames x1
  clear_value x1
  exact (Keeps.ite h (keeps_meetAer p_mem p_host (keeps_ctrlUpd p_host h)))

/-- `State.noticeAll` keeps. -/
theorem keeps_noticeAll {P : Part → Prop} {r s : State} {b1 : ℕ} {b2 : ℕ} {b3 : ℕ} {b4 : ℕ} (p_mem : P .mem) (p_host : P .host) (h : Keeps P r s) : Keeps P r
    (State.noticeAll s b1 b2 b3 b4) := by
  unfold State.noticeAll
  exact (keeps_notice p_mem p_host (keeps_notice p_mem p_host h))

/-- `State.adminRoute` keeps. -/
theorem keeps_adminRoute {P : Part → Prop} {r s : State} {b1 : ℕ} {b2 : Ctx} (p_mem : P .mem) (p_host : P .host) (h : Keeps P r s) : Keeps P r (State.adminRoute s b1 b2) := by
  unfold State.adminRoute
  split
  · exact (keeps_endAll p_mem p_host h)
  · split
    · exact (keeps_ctxUpd p_mem p_host h)
    · split
      · split
        · exact h
        · exact (Keeps.ite (keeps_ctxUpd p_mem p_host h) (keeps_endAll p_mem p_host h))
      · exact h

/-- `State.admitCtx` keeps. -/
theorem keeps_admitCtx {P : Part → Prop} {r s : State} {b1 : ℕ} {b2 : Ctx} (p_mem : P .mem) (p_host : P .host) (h : Keeps P r s) : Keeps P r (State.admitCtx s b1 b2) := by
  unfold State.admitCtx
  extract_lets +onlyGivenNames x1
  clear_value x1
  refine Keeps.foldl ?_ fun y2 y3 h4 => ?_
  · exact h
  · exact (keeps_ctxUpd p_mem p_host h4)

/-- `State.dataMsgs` keeps. -/
theorem keeps_dataMsgs {P : Part → Prop} {r s : State} {b1 : ℕ} {b2 : ℕ} {b3 : ℕ} {b4 : List ℕ} (p_cfx : P .cfx) (h : Keeps P r s) : Keeps P r (State.dataMsgs s b1 b2 b3 b4) := by
  unfold State.dataMsgs
  refine Keeps.foldl ?_ fun y1 y2 h3 => ?_
  · exact h
  · exact (keeps_send p_cfx h3)

/-- `State.stopKills` keeps. -/
theorem keeps_stopKills {P : Part → Prop} {r s : State} {b1 : Fin 4} {b2 : List (Fin 4)} (p_free : P .free) (p_regs : P .regs) (p_acc : P .acc) (p_mem : P .mem) (p_reach : P
    .reach) (p_chan : P .chan) (p_deep : P .deep) (p_servo : P .servo) (p_zone : P .zone) (p_host : P .host) (p_stage : P .stage) (p_memc : P .memc)
    (p_evr : P .evr) (p_trust : P .trust) (h : Keeps P r s) : Keeps P r (State.stopKills s b1 b2) := by
  induction b2 generalizing s b1
  · simp only [State.stopKills]
    exact h
  · rename_i a1 a2 ih
    simp only [State.stopKills]
    exact (ih (keeps_stopKill p_free p_regs p_acc p_mem p_reach p_chan p_deep p_servo p_zone p_host p_stage p_memc p_evr p_trust h))

/-- `State.endEarly` keeps. -/
theorem keeps_endEarly {P : Part → Prop} {r s : State} {b1 : ℕ} {b2 : Ending} (p_free : P .free) (p_regs : P .regs) (p_acc : P .acc) (p_mem : P .mem) (p_reach : P .reach)
    (p_chan : P .chan) (p_deep : P .deep) (p_servo : P .servo) (p_zone : P .zone) (p_host : P .host) (p_stage : P .stage) (p_memc : P .memc) (p_evr :
    P .evr) (p_trust : P .trust) (h : Keeps P r s) : Keeps P r (State.endEarly s b1 b2) := by
  unfold State.endEarly
  split
  · exact h
  · extract_lets +onlyGivenNames x1
    have h2 : Keeps P r x1 := (keeps_ctxUpd p_mem p_host h)
    clear_value x1
    split
    · exact (keeps_endCtx p_regs p_mem p_zone p_host p_stage p_trust h2)
    · exact (Keeps.ite (keeps_endCtx p_regs p_mem p_zone p_host p_stage p_trust h2) (keeps_stopKills p_free p_regs p_acc p_mem p_reach p_chan p_deep
        p_servo p_zone p_host p_stage p_memc p_evr p_trust h2))

/-- `State.withdraw` keeps. -/
theorem keeps_withdraw {P : Part → Prop} {r s : State} {b1 : ℕ × Ctx} (p_free : P .free) (p_regs : P .regs) (p_acc : P .acc) (p_mem : P .mem) (p_reach : P .reach) (p_chan :
    P .chan) (p_deep : P .deep) (p_servo : P .servo) (p_zone : P .zone) (p_host : P .host) (p_stage : P .stage) (p_memc : P .memc) (p_evr : P .evr)
    (p_trust : P .trust) (h : Keeps P r s) : Keeps P r (State.withdraw s b1) := by
  unfold State.withdraw
  extract_lets +onlyGivenNames x1
  clear_value x1
  extract_lets +onlyGivenNames x2
  have h3 : Keeps P r x2 := (keeps_ctxUpd p_mem p_host h)
  clear_value x2
  exact (Keeps.ite (Keeps.ite (keeps_endEarly p_free p_regs p_acc p_mem p_reach p_chan p_deep p_servo p_zone p_host p_stage p_memc p_evr p_trust h3)
      h3) (keeps_endEarly p_free p_regs p_acc p_mem p_reach p_chan p_deep p_servo p_zone p_host p_stage p_memc p_evr p_trust h3))

/-- `State.withdrawAll` keeps. -/
theorem keeps_withdrawAll {P : Part → Prop} {r s : State} {b1 : ℕ} (p_free : P .free) (p_regs : P .regs) (p_acc : P .acc) (p_mem : P .mem) (p_reach : P .reach) (p_chan : P
    .chan) (p_deep : P .deep) (p_servo : P .servo) (p_zone : P .zone) (p_host : P .host) (p_stage : P .stage) (p_memc : P .memc) (p_evr : P .evr)
    (p_trust : P .trust) (h : Keeps P r s) : Keeps P r (State.withdrawAll s b1) := by
  unfold State.withdrawAll
  split
  · exact h
  · extract_lets +onlyGivenNames x1
    have h2 : Keeps P r x1 := (keeps_hput p_host (keeps_setZone p_regs p_acc p_mem p_zone p_stage p_memc p_evr h))
    clear_value x1
    refine Keeps.foldl ?_ fun y3 y4 h5 => ?_
    · exact h2
    · exact (keeps_withdraw p_free p_regs p_acc p_mem p_reach p_chan p_deep p_servo p_zone p_host p_stage p_memc p_evr p_trust h5)

/-- `State.endEarlyAll` keeps. -/
theorem keeps_endEarlyAll {P : Part → Prop} {r s : State} {b1 : ℕ} {b2 : Ending} (p_free : P .free) (p_regs : P .regs) (p_acc : P .acc) (p_mem : P .mem) (p_reach : P .reach)
    (p_chan : P .chan) (p_deep : P .deep) (p_servo : P .servo) (p_zone : P .zone) (p_host : P .host) (p_stage : P .stage) (p_memc : P .memc) (p_evr :
    P .evr) (p_trust : P .trust) (h : Keeps P r s) : Keeps P r (State.endEarlyAll s b1 b2) := by
  unfold State.endEarlyAll
  refine Keeps.foldl ?_ fun y1 y2 h3 => ?_
  · exact h
  · exact (Keeps.ite (keeps_endEarly p_free p_regs p_acc p_mem p_reach p_chan p_deep p_servo p_zone p_host p_stage p_memc p_evr p_trust h3) h3)

/-- `State.forward` keeps. -/
theorem keeps_forward {P : Part → Prop} {r s : State} {b1 : ℕ} {b2 : ℕ} {b3 : Ctx} (p_regs : P .regs) (p_acc : P .acc) (p_mem : P .mem) (p_host : P .host) (p_cfx : P .cfx)
    (h : Keeps P r s) : Keeps P r (State.forward s b1 b2 b3) := by
  unfold State.forward
  exact (Keeps.ite h (keeps_updPeer p_cfx (keeps_count p_regs p_acc (keeps_send p_cfx (keeps_admitCtx p_mem p_host h)))))

/-- `State.freeAll` keeps. -/
theorem keeps_freeAll {P : Part → Prop} {r s : State} {b1 : List ℕ} (p_regs : P .regs) (p_mem : P .mem) (p_host : P .host) (p_stage : P .stage) (p_trust : P .trust) (h :
    Keeps P r s) : Keeps P r (State.freeAll s b1) := by
  unfold State.freeAll
  refine Keeps.foldl ?_ fun y1 y2 h3 => ?_
  · exact h
  · exact (keeps_ctxFree p_regs p_mem p_host p_stage p_trust h3)

/-- `State.noteBind` keeps. -/
theorem keeps_noteBind {P : Part → Prop} {r s : State} {b1 : Fin 4} {b2 : Ctx} (p_host : P .host) (h : Keeps P r s) : Keeps P r (State.noteBind s b1 b2) := by
  unfold State.noteBind
  split
  · exact h
  · exact (keeps_hput p_host h)

/-- `State.noteGrant` keeps. -/
theorem keeps_noteGrant {P : Part → Prop} {r s : State} {b1 : Fin 2} {b2 : ℕ} {b3 : ℕ} {b4 : CtxClass} (p_host : P .host) (h : Keeps P r s) : Keeps P r (State.noteGrant s b1
    b2 b3 b4) := by
  unfold State.noteGrant
  extract_lets +onlyGivenNames x1
  clear_value x1
  exact (keeps_hput p_host h)

/-- `State.notePool` keeps. -/
theorem keeps_notePool {P : Part → Prop} {r s : State} {b1 : ℕ} (p_regs : P .regs) (p_evr : P .evr) (h : Keeps P r s) : Keeps P r (State.notePool s b1) := by
  unfold State.notePool
  exact (Keeps.ite (keeps_raise p_evr (keeps_wr p_regs h)) h)

/-- `State.postCpl` keeps. -/
theorem keeps_postCpl {P : Part → Prop} {r s : State} {b1 : ℕ} {b2 : Ctx} {b3 : ℕ} {b4 : ℕ} {b5 : ℕ} {b6 : ℕ} (p_cfx : P .cfx) (h : Keeps P r s) : Keeps P r (State.postCpl
    s b1 b2 b3 b4 b5 b6) := by
  unfold State.postCpl
  extract_lets +onlyGivenNames x1
  have h2 : Keeps P r x1 := (Keeps.ite (keeps_dataMsgs p_cfx h) h)
  clear_value x1
  exact (keeps_send p_cfx h2)

/-- `State.postCqe` keeps. -/
theorem keeps_postCqe {P : Part → Prop} {r s : State} {b1 : Ctx} {b2 : ℕ} {b3 : ℕ} (p_host : P .host) (h : Keeps P r s) : Keeps P r (State.postCqe s b1 b2 b3) := by
  unfold State.postCqe
  extract_lets +onlyGivenNames x1
  clear_value x1
  extract_lets +onlyGivenNames x2
  clear_value x2
  extract_lets +onlyGivenNames x3
  clear_value x3
  exact (keeps_ctrlUpd p_host h)

/-- `State.route` keeps. -/
theorem keeps_route {P : Part → Prop} {r s : State} {b1 : ℕ} (p_mem : P .mem) (p_host : P .host) (h : Keeps P r s) : Keeps P r (State.route s b1) := by
  unfold State.route
  split
  · exact h
  · split
    · exact (keeps_endAll p_mem p_host h)
    · split
      · exact (keeps_adminRoute p_mem p_host h)
      · split
        · exact (keeps_endAll p_mem p_host h)
        · split
          · exact h
          · split
            · exact h
            · exact (Keeps.ite (keeps_ctxUpd p_mem p_host h) (keeps_endAll p_mem p_host h))

/-- `State.settleDeletes` keeps. -/
theorem keeps_settleDeletes {P : Part → Prop} {r s : State} (p_mem : P .mem) (p_host : P .host) (h : Keeps P r s) : Keeps P r (State.settleDeletes s) := by
  unfold State.settleDeletes
  refine Keeps.foldl ?_ fun y1 y2 h3 => ?_
  · exact h
  · exact (Keeps.ite h3 (keeps_handOver p_mem p_host (keeps_ctrlUpd p_host h3)))

/-- `State.sqUpd` keeps. -/
theorem keeps_sqUpd {P : Part → Prop} {r s : State} {b1 : Fin 2} {b2 : ℕ} {b3 : Sq → Sq} (p_host : P .host) (h : Keeps P r s) : Keeps P r (State.sqUpd s b1 b2 b3) := by
  unfold State.sqUpd
  exact (keeps_ctrlUpd p_host h)

/-- `State.takeCtxs` keeps. -/
theorem keeps_takeCtxs {P : Part → Prop} {r s : State} {b1 : Ctx} {b2 : List (ℕ × ℕ)} (p_free : P .free) (p_regs : P .regs) (p_mem : P .mem) (p_host : P .host) (h : Keeps P
    r s) : Keeps P r (State.takeCtxs s b1 b2).1 := by
  induction b2 generalizing s b1
  · simp only [State.takeCtxs]
    exact h
  · rename_i a1 a2 ih
    simp only [State.takeCtxs]
    exact (keeps_ctxUpd p_mem p_host (ih (keeps_tookFree p_free (keeps_ctxNew p_regs p_mem p_host h))))

/-- `State.zoneChanged` keeps. -/
theorem keeps_zoneChanged {P : Part → Prop} {r s : State} {b1 : ℕ} (p_mem : P .mem) (p_host : P .host) (h : Keeps P r s) : Keeps P r (State.zoneChanged s b1) := by
  unfold State.zoneChanged
  exact (keeps_noticeAll p_mem p_host (keeps_hput p_host h))

/-- `execClassLimitExpiry` keeps. -/
theorem keeps_execClassLimitExpiry {P : Part → Prop} {r s : State} {b0 : Fin 65536} (p_free : P .free) (p_regs : P .regs) (p_acc : P .acc) (p_mem : P .mem) (p_reach : P .reach) (p_chan
    : P .chan) (p_deep : P .deep) (p_servo : P .servo) (p_zone : P .zone) (p_host : P .host) (p_stage : P .stage) (p_memc : P .memc) (p_evr : P .evr)
    (p_trust : P .trust) (h : Keeps P r s) : KeepsO P r (execClassLimitExpiry b0 s) := by
  unfold execClassLimitExpiry
  split
  · exact KeepsO.of_next h
  · split
    · exact KeepsO.of_next h
    · split
      · extract_lets +onlyGivenNames x1
        clear_value x1
        extract_lets +onlyGivenNames x2
        clear_value x2
        extract_lets +onlyGivenNames x3
        have h4 : Keeps P r x3 := (keeps_raise p_evr (keeps_wr p_regs h))
        clear_value x3
        extract_lets +onlyGivenNames x5
        refine Keeps.step (P := P) (r := r) (x := x5) ?_ ?_
        · unfold x5
          refine Keeps.foldl ?_ fun y7 y8 h9 => ?_
          · exact h4
          · exact (keeps_ctxUpd p_mem p_host h9)
        intro h6
        clear_value x5
        exact KeepsO.of_next (keeps_endEarlyAll p_free p_regs p_acc p_mem p_reach p_chan p_deep p_servo p_zone p_host p_stage p_memc p_evr p_trust h6)

/-- `execCompletionPost` keeps. -/
theorem keeps_execCompletionPost {P : Part → Prop} {r s : State} {b0 : Fin 65536} (p_free : P .free) (p_regs : P .regs) (p_acc : P .acc) (p_mem : P .mem) (p_reach : P .reach) (p_chan
    : P .chan) (p_deep : P .deep) (p_servo : P .servo) (p_zone : P .zone) (p_host : P .host) (p_stage : P .stage) (p_memc : P .memc) (p_evr : P .evr)
    (p_cfx : P .cfx) (p_trust : P .trust) (h : Keeps P r s) : KeepsO P r (execCompletionPost b0 s) := by
  unfold execCompletionPost
  split
  · exact KeepsO.of_next h
  · split
    · exact KeepsO.of_next h
    · split
      · extract_lets +onlyGivenNames x1
        refine Keeps.step (P := P) (r := r) (x := x1) ?_ ?_
        · unfold x1
          split
          · exact (keeps_withdrawAll p_free p_regs p_acc p_mem p_reach p_chan p_deep p_servo p_zone p_host p_stage p_memc p_evr p_trust h)
          · exact h
        intro h2
        clear_value x1
        extract_lets +onlyGivenNames x3
        refine Keeps.step (P := P) (r := r) (x := x3) ?_ ?_
        · unfold x3
          split
          · exact (keeps_postCpl p_cfx h2)
          · exact (keeps_postCqe p_host h2)
        intro h4
        clear_value x3
        exact KeepsO.of_next (keeps_settleDeletes p_mem p_host (keeps_freeAll p_regs p_mem p_host p_stage p_trust h4))

/-- `execContextAdmit` keeps. -/
theorem keeps_execContextAdmit {P : Part → Prop} {r s : State} {b0 : Fin 65536} (p_regs : P .regs) (p_acc : P .acc) (p_mem : P .mem) (p_host : P .host) (p_cfx : P .cfx) (h : Keeps
    P r s) : KeepsO P r (execContextAdmit b0 s) := by
  unfold execContextAdmit
  split
  · exact KeepsO.of_next h
  · split
    · exact KeepsO.of_next h
    · split
      · exact KeepsO.of_next (keeps_forward p_regs p_acc p_mem p_host p_cfx h)
      · split
        · exact KeepsO.of_next (keeps_admitCtx p_mem p_host h)
        · split
          · exact KeepsO.of_next (keeps_endAll p_mem p_host h)
          · split
            · exact KeepsO.of_next h
            · split
              · exact KeepsO.of_next (keeps_endAll p_mem p_host h)
              · split
                · exact KeepsO.of_next h
                · split
                  · exact KeepsO.of_next (keeps_endAll p_mem p_host h)
                  · exact KeepsO.of_next (keeps_admitCtx p_mem p_host h)

/-- `execContextBind` keeps. -/
theorem keeps_execContextBind {P : Part → Prop} {r s : State} {b0 : Fin 65536} {b1 : Fin 4} (p_mem : P .mem) (p_host : P .host) (h : Keeps P r s) : KeepsO P r (execContextBind b0
    b1 s) := by
  unfold execContextBind
  split
  · exact KeepsO.of_next h
  · split
    · exact KeepsO.of_next h
    · split
      · exact KeepsO.of_next (keeps_handOver p_mem p_host h)
      · split
        · exact KeepsO.of_next h
        · exact KeepsO.of_next (keeps_ctxUpd p_mem p_host (keeps_noteBind p_host h))

/-- `execPlacementWithdraw` keeps. -/
theorem keeps_execPlacementWithdraw {P : Part → Prop} {r s : State} {b0 : BitVec 20} (p_free : P .free) (p_regs : P .regs) (p_acc : P .acc) (p_mem : P .mem) (p_reach : P .reach) (p_chan
    : P .chan) (p_deep : P .deep) (p_servo : P .servo) (p_zone : P .zone) (p_host : P .host) (p_stage : P .stage) (p_memc : P .memc) (p_evr : P .evr)
    (p_trust : P .trust) (h : Keeps P r s) : KeepsO P r (execPlacementWithdraw b0 s) := by
  unfold execPlacementWithdraw
  split
  · exact KeepsO.of_next (keeps_withdrawAll p_free p_regs p_acc p_mem p_reach p_chan p_deep p_servo p_zone p_host p_stage p_memc p_evr p_trust
      (keeps_zput p_zone h))
  · exact KeepsO.of_next h

/-- `execSqDoorbell` keeps. -/
theorem keeps_execSqDoorbell {P : Part → Prop} {r s : State} {b0 : Fin 2} {b1 : Fin 129} {b2 : BitVec 16} (p_host : P .host) (h : Keeps P r s) : KeepsO P r (execSqDoorbell b0 b1
    b2 s) := by
  unfold execSqDoorbell
  split
  · exact KeepsO.of_next h
  · split
    · exact KeepsO.of_next (keeps_sqUpd p_host h)
    · exact KeepsO.of_next h

/-- `execSqFetch` keeps. -/
theorem keeps_execSqFetch {P : Part → Prop} {r s : State} {b0 : Fin 2} {b1 : Fin 129} {b2 : Sqe} (p_free : P .free) (p_regs : P .regs) (p_mem : P .mem) (p_host : P .host)
    (p_evr : P .evr) (h : Keeps P r s) : KeepsO P r (execSqFetch b0 b1 b2 s) := by
  unfold execSqFetch
  split
  · split
    · exact KeepsO.of_next h
    · extract_lets +onlyGivenNames x1
      clear_value x1
      extract_lets +onlyGivenNames x2
      have h3 : Keeps P r x2 := (keeps_noteGrant p_host (keeps_hput p_host (keeps_sqUpd p_host h)))
      clear_value x2
      split
      · rename_i y4 y5 y6 y7 y8 y9 y10 y11 y12 y13 y14 y15
        have h16 : Keeps P r y14 := Keeps.fst y15 (keeps_takeCtxs p_free p_regs p_mem p_host h3)
        exact KeepsO.of_next h16
      · rename_i y17 y18 y19 y20 y21 y22 y23 y24 y25 y26 y27 y28 y29
        have h30 : Keeps P r y27 := Keeps.fst y29 (keeps_takeCtxs p_free p_regs p_mem p_host h3)
        exact KeepsO.of_next (keeps_route p_mem p_host (keeps_notePool p_regs p_evr h30))
  · exact KeepsO.of_next h

end Sys2Proof.Machine
end

