-- ==== Sys2Proof/Laws/KeepsNvm.lean ====
section
/-! SUPPORT. What the operations of Machine/Nvm.lean keep. -/

namespace Sys2Proof.Machine

set_option Elab.async false

/-- `State.succeed` keeps. -/
theorem keeps_succeed {P : Part → Prop} {r s : State} {b1 : ℕ} (p_mem : P .mem) (p_host : P .host) (h : Keeps P r s) : Keeps P r (State.succeed s b1) := by
  unfold State.succeed
  exact (keeps_endAll p_mem p_host h)

/-- `State.updAll` keeps. -/
theorem keeps_updAll {P : Part → Prop} {r s : State} {b1 : ℕ} {b2 : Ctx → Ctx} (p_mem : P .mem) (p_host : P .host) (h : Keeps P r s) : Keeps P r (State.updAll s b1 b2) := by
  unfold State.updAll
  refine Keeps.foldl ?_ fun y1 y2 h3 => ?_
  · exact h
  · exact (keeps_ctxUpd p_mem p_host h3)

/-- `State.acceptWrite` keeps. -/
theorem keeps_acceptWrite {P : Part → Prop} {r s : State} {b1 : ℕ} {b2 : Ctx} {b3 : ℕ} {b4 : Zone} (p_regs : P .regs) (p_acc : P .acc) (p_mem : P .mem) (p_zone : P .zone)
    (p_host : P .host) (p_stage : P .stage) (p_memc : P .memc) (p_evr : P .evr) (h : Keeps P r s) : Keeps P r (State.acceptWrite s b1 b2 b3 b4) := by
  unfold State.acceptWrite
  split
  · exact (keeps_endAll p_mem p_host h)
  · split
    · rename_i y1 y2 y3 y4 y5
      exact (keeps_endAll p_mem p_host h)
    · rename_i y6 y7 y8 y9 y10
      have h11 : Keeps P r y9 := keeps_openFor p_regs p_acc p_mem p_zone p_stage p_memc p_evr h y10
      exact (keeps_updAll p_mem p_host (keeps_advancePP p_regs p_acc p_mem p_zone p_stage p_memc p_evr h11))

/-- `State.actLater` keeps. -/
theorem keeps_actLater {P : Part → Prop} {r s : State} {b1 : ℕ} (p_mem : P .mem) (p_host : P .host) (h : Keeps P r s) : Keeps P r (State.actLater s b1) := by
  unfold State.actLater
  exact (keeps_ctxUpd p_mem p_host h)

/-- `State.actZone` keeps. -/
theorem keeps_actZone {P : Part → Prop} {r s : State} {t : _} {b1 : ℕ} {b2 : ℕ} (p_regs : P .regs) (p_acc : P .acc) (p_mem : P .mem) (p_zone : P .zone) (p_stage : P
    .stage) (p_memc : P .memc) (p_evr : P .evr) (h : Keeps P r s) (e : State.actZone s b1 b2 = some t) : Keeps P r t.1 := by
  unfold State.actZone at e
  split at e
  · exact absurd e (by simp)
  · obtain ⟨p, _, rfl⟩ := Option.map_eq_some_iff.1 e
    exact keeps_setZone p_regs p_acc p_mem p_zone p_stage p_memc p_evr h

/-- `State.actZones` keeps. -/
theorem keeps_actZones {P : Part → Prop} {r s : State} {b1 : ℕ} {b2 : List ℕ} (p_regs : P .regs) (p_acc : P .acc) (p_mem : P .mem) (p_zone : P .zone) (p_stage : P .stage)
    (p_memc : P .memc) (p_evr : P .evr) (h : Keeps P r s) : Keeps P r (State.actZones s b1 b2).1 := by
  induction b2 generalizing s b1
  · simp only [State.actZones]
    exact h
  · rename_i a1 a2 ih
    simp only [State.actZones]
    split
    · rename_i y3 y4
      exact (ih h)
    · rename_i y5 y6 y7 y8
      have h9 : Keeps P r y6 := keeps_actZone p_regs p_acc p_mem p_zone p_stage p_memc p_evr h y8
      refine Keeps.fst_mk ?_
      exact (ih h9)

/-- `State.journalFor` keeps. -/
theorem keeps_journalFor {P : Part → Prop} {r s : State} {b1 : ℕ} {b2 : List JBody} (p_regs : P .regs) (p_acc : P .acc) (p_mem : P .mem) (p_zone : P .zone) (p_host : P .host)
    (p_stage : P .stage) (p_memc : P .memc) (p_evr : P .evr) (h : Keeps P r s) : Keeps P r (State.journalFor s b1 b2) := by
  unfold State.journalFor
  exact (Keeps.ite (keeps_succeed p_mem p_host h) (keeps_jIssues p_regs p_acc p_mem p_zone p_stage p_memc p_evr (keeps_ctxUpd p_mem p_host h)))

/-- `State.actNow` keeps. -/
theorem keeps_actNow {P : Part → Prop} {r s : State} {b1 : ℕ} {b2 : Ctx} (p_regs : P .regs) (p_acc : P .acc) (p_mem : P .mem) (p_zone : P .zone) (p_host : P .host)
    (p_stage : P .stage) (p_memc : P .memc) (p_evr : P .evr) (h : Keeps P r s) : Keeps P r (State.actNow s b1 b2) := by
  unfold State.actNow
  split
  · extract_lets +onlyGivenNames x1
    clear_value x1
    extract_lets +onlyGivenNames x2
    have h3 : Keeps P r x2 := (keeps_ctxUpd p_mem p_host h)
    clear_value x2
    split
    · split
      · exact (keeps_journalFor p_regs p_acc p_mem p_zone p_host p_stage p_memc p_evr h3)
      · split
        · rename_i y4 y5 y6 y7 y8 y9 y10 y11 y12 y13
          have h14 : Keeps P r y11 := Keeps.fst y13 (keeps_actZones p_regs p_acc p_mem p_zone p_stage p_memc p_evr h3)
          exact (keeps_journalFor p_regs p_acc p_mem p_zone p_host p_stage p_memc p_evr h14)
    · split
      · rename_i y15 y16 y17 y18 y19 y20 y21
        exact (keeps_endAll p_mem p_host h3)
      · rename_i y22 y23 y24 y25 y26 y27 y28 y29 y30
        have h31 : Keeps P r y28 := keeps_actZone p_regs p_acc p_mem p_zone p_stage p_memc p_evr h3 y30
        exact (keeps_journalFor p_regs p_acc p_mem p_zone p_host p_stage p_memc p_evr h31)

/-- `State.answerData` keeps. -/
theorem keeps_answerData {P : Part → Prop} {r s : State} {b1 : ℕ} {b2 : Ctx} {b3 : List ℕ} (p_mem : P .mem) (p_host : P .host) (p_cfx : P .cfx) (h : Keeps P r s) : Keeps P r
    (State.answerData s b1 b2 b3) := by
  unfold State.answerData
  split
  · exact (keeps_succeed p_mem p_host (keeps_dataMsgs p_cfx h))
  · exact (keeps_succeed p_mem p_host (keeps_hput p_host h))

/-- `State.zeroBlock` keeps. -/
theorem keeps_zeroBlock {P : Part → Prop} {r s : State} {b1 : Ctx} {b2 : ℕ} (p_regs : P .regs) (p_acc : P .acc) (p_mem : P .mem) (p_stage : P .stage) (p_memc : P .memc)
    (p_evr : P .evr) (h : Keeps P r s) : Keeps P r (State.zeroBlock s b1 b2) := by
  unfold State.zeroBlock
  extract_lets +onlyGivenNames x1
  clear_value x1
  extract_lets +onlyGivenNames x2
  have h3 : Keeps P r x2 := (keeps_stored p_regs p_acc p_mem p_stage p_memc p_evr h)
  clear_value x2
  exact (keeps_stored p_regs p_acc p_mem p_stage p_memc p_evr h3)

/-- `State.fillZeros` keeps. -/
theorem keeps_fillZeros {P : Part → Prop} {r s : State} {b1 : Ctx} {b2 : List ℕ} (p_regs : P .regs) (p_acc : P .acc) (p_mem : P .mem) (p_stage : P .stage) (p_memc : P .memc)
    (p_evr : P .evr) (h : Keeps P r s) : Keeps P r (State.fillZeros s b1 b2) := by
  unfold State.fillZeros
  refine Keeps.foldl ?_ fun y1 y2 h3 => ?_
  · exact h
  · exact (keeps_zeroBlock p_regs p_acc p_mem p_stage p_memc p_evr h3)

/-- `State.io` keeps. -/
theorem keeps_io {P : Part → Prop} {r s : State} {b1 : ℕ} {b2 : ℕ} {b3 : Ctx → State} (h : Keeps P r s) (hb1 : (∀ y, Keeps P r (b3 y))) : KeepsO P r (State.io s b1 b2
    b3) := by
  unfold State.io
  split
  · exact KeepsO.of_next h
  · split
    · exact KeepsO.of_next (hb1 _)
    · exact KeepsO.of_next h

/-- `State.openZone` keeps. -/
theorem keeps_openZone {P : Part → Prop} {r s : State} {t : _} {b1 : ℕ} (p_regs : P .regs) (p_acc : P .acc) (p_mem : P .mem) (p_zone : P .zone) (p_stage : P .stage) (p_memc
    : P .memc) (p_evr : P .evr) (h : Keeps P r s) (e : State.openZone s b1 = .ok t) : Keeps P r t := by
  unfold State.openZone at e
  split at e
  · exact absurd e (by simp)
  · split at e
    · exact absurd e (by simp)
    · exact keeps_openFor p_regs p_acc p_mem p_zone p_stage p_memc p_evr h e

/-- `State.openAll` keeps. -/
theorem keeps_openAll {P : Part → Prop} {r s : State} {t : _} {b1 : ℕ} {b2 : ℕ} (p_regs : P .regs) (p_acc : P .acc) (p_mem : P .mem) (p_zone : P .zone) (p_stage : P
    .stage) (p_memc : P .memc) (p_evr : P .evr) (h : Keeps P r s) (e : State.openAll s b1 b2 = .ok t) : Keeps P r t := by
  unfold State.openAll at e
  extract_lets cl at e
  split at e
  · exact absurd e (by simp)
  · obtain rfl := Except.ok.inj e
    refine Keeps.foldl h fun t p ht => ?_
    split
    · next u eu => exact keeps_openZone p_regs p_acc p_mem p_zone p_stage p_memc p_evr ht eu
    · exact ht

/-- `State.overBlocks` keeps. -/
theorem keeps_overBlocks {P : Part → Prop} {r s : State} {b1 : ℕ} {b2 : Ctx} {b3 : Bool} {b4 : ℕ → State} (p_mem : P .mem) (p_host : P .host) (h : Keeps P r s) (hb1 : (∀ y,
    Keeps P r (b4 y))) : Keeps P r (State.overBlocks s b1 b2 b3 b4) := by
  unfold State.overBlocks
  split
  · exact (keeps_endAll p_mem p_host h)
  · exact (Keeps.ite (keeps_endAll p_mem p_host h) (Keeps.ite (keeps_endAll p_mem p_host h) (Keeps.ite (keeps_endAll p_mem p_host h) (hb1 _))))

/-- `State.resolve` keeps. -/
theorem keeps_resolve {P : Part → Prop} {r s : State} {b1 : ℕ} {b2 : Bool} {b3 : ℕ} (p_regs : P .regs) (p_acc : P .acc) (p_mem : P .mem) (p_host : P .host) (p_stage : P
    .stage) (p_memc : P .memc) (p_evr : P .evr) (h : Keeps P r s) : Keeps P r (State.resolve s b1 b2 b3) := by
  unfold State.resolve
  split
  · exact h
  · extract_lets +onlyGivenNames x1
    clear_value x1
    extract_lets +onlyGivenNames x2
    have h3 : Keeps P r x2 := (Keeps.ite (keeps_fillZeros p_regs p_acc p_mem p_stage p_memc p_evr h) h)
    clear_value x2
    split
    · exact (Keeps.ite (keeps_handOver p_mem p_host h3) (keeps_handOver p_mem p_host h3))
    · extract_lets +onlyGivenNames x4
      have h5 : Keeps P r x4 := (keeps_ctxUpd p_mem p_host h3)
      clear_value x4
      exact (Keeps.ite (keeps_handOver p_mem p_host h5) h5)

/-- `State.readBlocks` keeps. -/
theorem keeps_readBlocks {P : Part → Prop} {r s : State} {b1 : ℕ} {b2 : Ctx} {b3 : Bool} {b4 : ℕ} (p_regs : P .regs) (p_acc : P .acc) (p_mem : P .mem) (p_host : P .host)
    (p_stage : P .stage) (p_memc : P .memc) (p_evr : P .evr) (h : Keeps P r s) : Keeps P r (State.readBlocks s b1 b2 b3 b4) := by
  unfold State.readBlocks
  extract_lets +onlyGivenNames x1
  clear_value x1
  split
  · exact (keeps_endAll p_mem p_host h)
  · split
    · exact (keeps_endAll p_mem p_host h)
    · refine Keeps.foldl ?_ fun y2 y3 h4 => ?_
      · exact h
      · exact (keeps_resolve p_regs p_acc p_mem p_host p_stage p_memc p_evr h4)

/-- `State.sendWrite` keeps. -/
theorem keeps_sendWrite {P : Part → Prop} {r s : State} {b1 : ℕ} {b2 : ℕ} {b3 : Ctx} (p_mem : P .mem) (p_host : P .host) (p_cfx : P .cfx) (h : Keeps P r s) : Keeps P r
    (State.sendWrite s b1 b2 b3) := by
  unfold State.sendWrite
  exact (keeps_updAll p_mem p_host (keeps_dataMsgs p_cfx h))

/-- `State.writeBlocks` keeps. -/
theorem keeps_writeBlocks {P : Part → Prop} {r s : State} {b1 : ℕ} {b2 : Ctx} {b3 : ℕ} (p_regs : P .regs) (p_acc : P .acc) (p_mem : P .mem) (p_zone : P .zone) (p_host : P
    .host) (p_stage : P .stage) (p_memc : P .memc) (p_evr : P .evr) (h : Keeps P r s) : Keeps P r (State.writeBlocks s b1 b2 b3) := by
  unfold State.writeBlocks
  split
  · exact (keeps_endAll p_mem p_host h)
  · split
    · exact (keeps_updAll p_mem p_host h)
    · split
      · exact (keeps_endAll p_mem p_host h)
      · exact (Keeps.ite h (keeps_acceptWrite p_regs p_acc p_mem p_zone p_host p_stage p_memc p_evr h))

/-- `State.zeroBuffers` keeps. -/
theorem keeps_zeroBuffers {P : Part → Prop} {r s : State} {b1 : ℕ} (p_regs : P .regs) (p_acc : P .acc) (p_mem : P .mem) (p_stage : P .stage) (p_memc : P .memc) (p_evr : P
    .evr) (h : Keeps P r s) : Keeps P r (State.zeroBuffers s b1) := by
  unfold State.zeroBuffers
  refine Keeps.foldl ?_ fun y1 y2 h3 => ?_
  · exact h
  · split
    · exact h3
    · exact (keeps_stored p_regs p_acc p_mem p_stage p_memc p_evr h3)

/-- `State.zoneSend` keeps. -/
theorem keeps_zoneSend {P : Part → Prop} {r s : State} {b1 : ℕ} {b2 : ℕ} {b3 : Ctx → ℕ → State} (p_mem : P .mem) (p_host : P .host) (h : Keeps P r s) (hb1 : (∀ y z, Keeps P
    r (b3 y z))) : KeepsO P r (State.zoneSend s b1 b2 b3) := by
  unfold State.zoneSend
  refine keeps_io ?_ ?_
  · exact h
  · intro y1
    split
    · exact h
    · split
      · exact (keeps_endAll p_mem p_host h)
      · exact (Keeps.ite (keeps_endAll p_mem p_host h) (Keeps.ite (hb1 _ _) (Keeps.ite (keeps_endAll p_mem p_host h) (Keeps.ite (keeps_endAll p_mem
          p_host h) (hb1 _ _)))))

/-- `execFlush` keeps. -/
theorem keeps_execFlush {P : Part → Prop} {r s : State} {b0 : Fin 65536} (p_mem : P .mem) (p_host : P .host) (h : Keeps P r s) : KeepsO P r (execFlush b0 s) := by
  unfold execFlush
  refine keeps_io ?_ ?_
  · exact h
  · intro y1
    exact (Keeps.ite (keeps_succeed p_mem p_host h) (keeps_endAll p_mem p_host h))

/-- `execOrderingFence` keeps. -/
theorem keeps_execOrderingFence {P : Part → Prop} {r s : State} {b0 : Fin 65536} (p_mem : P .mem) (p_host : P .host) (h : Keeps P r s) : KeepsO P r (execOrderingFence b0 s) := by
  unfold execOrderingFence
  refine keeps_io ?_ ?_
  · exact h
  · intro y1
    exact (Keeps.ite h (keeps_succeed p_mem p_host h))

/-- `execRead` keeps. -/
theorem keeps_execRead {P : Part → Prop} {r s : State} {b0 : Fin 65536} (p_regs : P .regs) (p_acc : P .acc) (p_mem : P .mem) (p_host : P .host) (p_stage : P .stage) (p_memc
    : P .memc) (p_evr : P .evr) (h : Keeps P r s) : KeepsO P r (execRead b0 s) := by
  unfold execRead
  refine keeps_io ?_ ?_
  · exact h
  · intro y1
    split
    · exact h
    · refine keeps_overBlocks p_mem p_host ?_ ?_
      · exact h
      · intro y2
        exact (keeps_readBlocks p_regs p_acc p_mem p_host p_stage p_memc p_evr h)

/-- `execReportZones` keeps. -/
theorem keeps_execReportZones {P : Part → Prop} {r s : State} {b0 : Fin 65536} (p_mem : P .mem) (p_host : P .host) (p_cfx : P .cfx) (h : Keeps P r s) : KeepsO P r (execReportZones
    b0 s) := by
  unfold execReportZones
  refine keeps_io ?_ ?_
  · exact h
  · intro y1
    split
    · exact h
    · split
      · exact (keeps_endAll p_mem p_host h)
      · split
        · exact (keeps_endAll p_mem p_host h)
        · split
          · exact (keeps_endAll p_mem p_host h)
          · extract_lets +onlyGivenNames x2
            clear_value x2
            extract_lets +onlyGivenNames x3
            clear_value x3
            extract_lets +onlyGivenNames x4
            clear_value x4
            extract_lets +onlyGivenNames x5
            clear_value x5
            extract_lets +onlyGivenNames x6
            clear_value x6
            exact (keeps_answerData p_mem p_host p_cfx h)

/-- `execVerify` keeps. -/
theorem keeps_execVerify {P : Part → Prop} {r s : State} {b0 : Fin 65536} (p_regs : P .regs) (p_acc : P .acc) (p_mem : P .mem) (p_host : P .host) (p_stage : P .stage) (p_memc
    : P .memc) (p_evr : P .evr) (h : Keeps P r s) : KeepsO P r (execVerify b0 s) := by
  unfold execVerify
  refine keeps_io ?_ ?_
  · exact h
  · intro y1
    split
    · exact h
    · refine keeps_overBlocks p_mem p_host ?_ ?_
      · exact h
      · intro y2
        exact (keeps_readBlocks p_regs p_acc p_mem p_host p_stage p_memc p_evr h)

/-- `execWrite` keeps. -/
theorem keeps_execWrite {P : Part → Prop} {r s : State} {b0 : Fin 65536} {b1 : Fin 4} (p_regs : P .regs) (p_acc : P .acc) (p_mem : P .mem) (p_zone : P .zone) (p_host : P
    .host) (p_stage : P .stage) (p_memc : P .memc) (p_evr : P .evr) (p_cfx : P .cfx) (h : Keeps P r s) : KeepsO P r (execWrite b0 b1 s) := by
  unfold execWrite
  refine keeps_io ?_ ?_
  · exact h
  · intro y1
    split
    · exact (keeps_sendWrite p_mem p_host p_cfx h)
    · split
      · exact h
      · refine keeps_overBlocks p_mem p_host ?_ ?_
        · exact h
        · intro y2
          exact (Keeps.ite (keeps_endAll p_mem p_host h) (keeps_writeBlocks p_regs p_acc p_mem p_zone p_host p_stage p_memc p_evr h))

/-- `execWriteZeroes` keeps. -/
theorem keeps_execWriteZeroes {P : Part → Prop} {r s : State} {b0 : Fin 65536} (p_regs : P .regs) (p_acc : P .acc) (p_mem : P .mem) (p_zone : P .zone) (p_host : P .host) (p_stage
    : P .stage) (p_memc : P .memc) (p_evr : P .evr) (h : Keeps P r s) : KeepsO P r (execWriteZeroes b0 s) := by
  unfold execWriteZeroes
  refine keeps_io ?_ ?_
  · exact h
  · intro y1
    split
    · exact h
    · refine keeps_overBlocks p_mem p_host ?_ ?_
      · exact h
      · intro y2
        exact (keeps_writeBlocks p_regs p_acc p_mem p_zone p_host p_stage p_memc p_evr (keeps_zeroBuffers p_regs p_acc p_mem p_stage p_memc p_evr h))

/-- `execZoneActionEffect` keeps. -/
theorem keeps_execZoneActionEffect {P : Part → Prop} {r s : State} {b0 : Fin 65536} (p_regs : P .regs) (p_acc : P .acc) (p_mem : P .mem) (p_zone : P .zone) (p_host : P .host) (p_stage
    : P .stage) (p_memc : P .memc) (p_evr : P .evr) (h : Keeps P r s) : KeepsO P r (execZoneActionEffect b0 s) := by
  unfold execZoneActionEffect
  extract_lets +onlyGivenNames x1
  clear_value x1
  split
  · split
    · extract_lets +onlyGivenNames x2
      clear_value x2
      exact KeepsO.of_next (keeps_settleSanitize p_host (keeps_jIssues p_regs p_acc p_mem p_zone p_stage p_memc p_evr (keeps_hput p_host h)))
    · exact KeepsO.of_next h
  · split
    · exact KeepsO.of_next h
    · split
      · exact KeepsO.of_next h
      · split
        · split
          · split
            · exact KeepsO.of_next (keeps_actNow p_regs p_acc p_mem p_zone p_host p_stage p_memc p_evr h)
            · exact KeepsO.of_next h
        · split
          · split
            · exact KeepsO.of_next (keeps_journalFor p_regs p_acc p_mem p_zone p_host p_stage p_memc p_evr h)
            · exact KeepsO.of_next h
          · exact KeepsO.of_next h

/-- `execZoneAppend` keeps. -/
theorem keeps_execZoneAppend {P : Part → Prop} {r s : State} {b0 : Fin 65536} {b1 : Fin 4} (p_regs : P .regs) (p_acc : P .acc) (p_mem : P .mem) (p_zone : P .zone) (p_host : P
    .host) (p_stage : P .stage) (p_memc : P .memc) (p_evr : P .evr) (p_cfx : P .cfx) (h : Keeps P r s) : KeepsO P r (execZoneAppend b0 b1 s) := by
  unfold execZoneAppend
  refine keeps_io ?_ ?_
  · exact h
  · intro y1
    split
    · exact (keeps_sendWrite p_mem p_host p_cfx h)
    · refine keeps_overBlocks p_mem p_host ?_ ?_
      · exact h
      · intro y2
        split
        · exact (keeps_endAll p_mem p_host h)
        · split
          · exact (keeps_endAll p_mem p_host h)
          · exact (keeps_endAll p_mem p_host h)
          · split
            · exact h
            · split
              · exact (keeps_endAll p_mem p_host h)
              · split
                · rename_i y3 y4 y5 y6 y7 y8 y9 y10 y11 y12 y13 y14 y15 y16 y17 y18
                  exact (keeps_endAll p_mem p_host h)
                · rename_i y19 y20 y21 y22 y23 y24 y25 y26 y27 y28 y29 y30 y31 y32 y33 y34
                  have h35 : Keeps P r y33 := keeps_openFor p_regs p_acc p_mem p_zone p_stage p_memc p_evr h y34
                  exact (keeps_updAll p_mem p_host h35)

/-- `execZoneAppendPlace` keeps. -/
theorem keeps_execZoneAppendPlace {P : Part → Prop} {r s : State} {b0 : Fin 65536} (p_regs : P .regs) (p_acc : P .acc) (p_mem : P .mem) (p_zone : P .zone) (p_host : P .host) (p_stage
    : P .stage) (p_memc : P .memc) (p_evr : P .evr) (h : Keeps P r s) : KeepsO P r (execZoneAppendPlace b0 s) := by
  unfold execZoneAppendPlace
  split
  · exact KeepsO.of_next h
  · split
    · exact KeepsO.of_next h
    · split
      · exact KeepsO.of_next h
      · split
        · exact KeepsO.of_next h
        · split
          · exact KeepsO.of_next h
          · split
            · exact KeepsO.of_next (keeps_endAll p_mem p_host h)
            · split
              · exact KeepsO.of_next (keeps_endAll p_mem p_host h)
              · extract_lets +onlyGivenNames x1
                clear_value x1
                exact KeepsO.of_next (keeps_ctxUpd p_mem p_host (keeps_advancePP p_regs p_acc p_mem p_zone p_stage p_memc p_evr h))

/-- `execZoneClose` keeps. -/
theorem keeps_execZoneClose {P : Part → Prop} {r s : State} {b0 : Fin 65536} (p_mem : P .mem) (p_host : P .host) (h : Keeps P r s) : KeepsO P r (execZoneClose b0 s) := by
  unfold execZoneClose
  refine keeps_zoneSend p_mem p_host ?_ ?_
  · exact h
  · intro y1 y2
    exact (keeps_actLater p_mem p_host h)

/-- `execZoneFinish` keeps. -/
theorem keeps_execZoneFinish {P : Part → Prop} {r s : State} {b0 : Fin 65536} (p_mem : P .mem) (p_host : P .host) (h : Keeps P r s) : KeepsO P r (execZoneFinish b0 s) := by
  unfold execZoneFinish
  refine keeps_zoneSend p_mem p_host ?_ ?_
  · exact h
  · intro y1 y2
    exact (keeps_actLater p_mem p_host h)

/-- `execZoneOffline` keeps. -/
theorem keeps_execZoneOffline {P : Part → Prop} {r s : State} {b0 : Fin 65536} (p_mem : P .mem) (p_host : P .host) (h : Keeps P r s) : KeepsO P r (execZoneOffline b0 s) := by
  unfold execZoneOffline
  refine keeps_zoneSend p_mem p_host ?_ ?_
  · exact h
  · intro y1 y2
    exact (keeps_actLater p_mem p_host h)

/-- `execZoneOpen` keeps. -/
theorem keeps_execZoneOpen {P : Part → Prop} {r s : State} {b0 : Fin 65536} (p_regs : P .regs) (p_acc : P .acc) (p_mem : P .mem) (p_zone : P .zone) (p_host : P .host) (p_stage
    : P .stage) (p_memc : P .memc) (p_evr : P .evr) (h : Keeps P r s) : KeepsO P r (execZoneOpen b0 s) := by
  unfold execZoneOpen
  refine keeps_zoneSend p_mem p_host h fun x j => ?_
  split
  · next s1 e =>
    refine keeps_succeed p_mem p_host ?_
    split at e
    · exact keeps_openAll p_regs p_acc p_mem p_zone p_stage p_memc p_evr h e
    · exact keeps_openZone p_regs p_acc p_mem p_zone p_stage p_memc p_evr h e
  · exact keeps_endAll p_mem p_host h

/-- `execZoneReset` keeps. -/
theorem keeps_execZoneReset {P : Part → Prop} {r s : State} {b0 : Fin 65536} (p_mem : P .mem) (p_host : P .host) (h : Keeps P r s) : KeepsO P r (execZoneReset b0 s) := by
  unfold execZoneReset
  refine keeps_zoneSend p_mem p_host ?_ ?_
  · exact h
  · intro y1 y2
    exact (keeps_actLater p_mem p_host h)

end Sys2Proof.Machine
end

