-- ==== Sys2Proof/Laws/KeepsMedia.lean ====
section
/-! SUPPORT. What the operations of Machine/Media.lean keep. -/

namespace Sys2Proof.Machine

set_option Elab.async false

/-- `State.dropBegun` keeps. -/
theorem keeps_dropBegun {P : Part → Prop} {r s : State} {b1 : Fin 4} {b2 : Begun → Bool} (p_reach : P .reach) (h : Keeps P r s) : Keeps P r (State.dropBegun s b1 b2) := by
  unfold State.dropBegun
  exact (keeps_updEng p_reach h)

/-- `State.finishMedia` keeps. -/
theorem keeps_finishMedia {P : Part → Prop} {r s : State} {b1 : Fin 4} {b2 : Fin 4} {b3 : ℕ} (p_free : P .free) (p_regs : P .regs) (p_acc : P .acc) (p_mem : P .mem) (p_reach :
    P .reach) (p_chan : P .chan) (p_deep : P .deep) (p_servo : P .servo) (p_zone : P .zone) (p_host : P .host) (p_stage : P .stage) (p_memc : P
    .memc) (p_evr : P .evr) (p_trust : P .trust) (h : Keeps P r s) : Keeps P r (State.finishMedia s b1 b2 b3) := by
  unfold State.finishMedia
  split
  · exact h
  · extract_lets +onlyGivenNames x1
    clear_value x1
    extract_lets +onlyGivenNames x2
    have h3 : Keeps P r x2 := (Keeps.ite (keeps_runEnd p_regs p_acc p_mem p_zone p_stage p_memc p_evr (keeps_updCh p_chan (keeps_readTarget p_servo
        (keeps_idlePair p_regs p_chan h)))) (keeps_dropDeep p_regs p_deep (keeps_freeEntries p_regs p_acc p_mem p_chan p_stage p_memc p_evr h)))
    clear_value x2
    exact (keeps_completeRecord p_free p_regs p_acc p_mem p_reach p_chan p_deep p_servo p_zone p_host p_stage p_memc p_evr p_trust (keeps_updSlot
        p_reach h3))

/-- `State.settleMedia` keeps. -/
theorem keeps_settleMedia {P : Part → Prop} {r s : State} {b1 : Fin 4} {b2 : Fin 4} (p_free : P .free) (p_regs : P .regs) (p_acc : P .acc) (p_mem : P .mem) (p_reach : P
    .reach) (p_chan : P .chan) (p_deep : P .deep) (p_servo : P .servo) (p_zone : P .zone) (p_host : P .host) (p_stage : P .stage) (p_memc : P .memc)
    (p_evr : P .evr) (p_trust : P .trust) (h : Keeps P r s) : Keeps P r (State.settleMedia s b1 b2) := by
  unfold State.settleMedia
  split
  · exact h
  · split
    · exact h
    · split
      · exact (keeps_finishMedia p_free p_regs p_acc p_mem p_reach p_chan p_deep p_servo p_zone p_host p_stage p_memc p_evr p_trust h)
      · exact (Keeps.ite (keeps_finishMedia p_free p_regs p_acc p_mem p_reach p_chan p_deep p_servo p_zone p_host p_stage p_memc p_evr p_trust h)
          (Keeps.ite (keeps_dispatch p_free p_regs p_acc p_mem p_reach p_chan p_deep p_servo p_zone p_host p_stage p_memc p_evr p_trust (keeps_giveUp
          p_reach h)) h))

/-- `State.updMedia` keeps. -/
theorem keeps_updMedia {P : Part → Prop} {r s : State} {b1 : Fin 4} {b2 : Fin 4} {b3 : Media → Media} (p_reach : P .reach) (h : Keeps P r s) : Keeps P r (State.updMedia s
    b1 b2 b3) := by
  unfold State.updMedia
  exact (keeps_updSlot p_reach h)

/-- `State.endWith` keeps. -/
theorem keeps_endWith {P : Part → Prop} {r s : State} {b1 : Fin 4} {b2 : Fin 4} {b3 : ℕ} (p_free : P .free) (p_regs : P .regs) (p_acc : P .acc) (p_mem : P .mem) (p_reach :
    P .reach) (p_chan : P .chan) (p_deep : P .deep) (p_servo : P .servo) (p_zone : P .zone) (p_host : P .host) (p_stage : P .stage) (p_memc : P
    .memc) (p_evr : P .evr) (p_trust : P .trust) (h : Keeps P r s) : Keeps P r (State.endWith s b1 b2 b3) := by
  unfold State.endWith
  exact (keeps_settleMedia p_free p_regs p_acc p_mem p_reach p_chan p_deep p_servo p_zone p_host p_stage p_memc p_evr p_trust (keeps_updMedia p_reach
      h))

/-- `State.noteStop` keeps. -/
theorem keeps_noteStop {P : Part → Prop} {r s : State} {b1 : Fin 4} {b2 : ℕ} {b3 : Option Begun} (p_regs : P .regs) (p_acc : P .acc) (p_evr : P .evr) (h : Keeps P r s) :
    Keeps P r (State.noteStop s b1 b2 b3) := by
  unfold State.noteStop
  extract_lets +onlyGivenNames x1
  clear_value x1
  extract_lets +onlyGivenNames x2
  clear_value x2
  extract_lets +onlyGivenNames x3
  clear_value x3
  extract_lets +onlyGivenNames x4
  have h5 : Keeps P r x4 := (keeps_wr p_regs h)
  clear_value x4
  exact (Keeps.ite h5 (keeps_raise p_evr (keeps_headCount p_regs p_acc (keeps_wr p_regs h5))))

/-- `State.writeStop` keeps. -/
theorem keeps_writeStop {P : Part → Prop} {r s : State} {b1 : Fin 4} {b2 : ℕ} (p_free : P .free) (p_regs : P .regs) (p_acc : P .acc) (p_mem : P .mem) (p_reach : P .reach)
    (p_chan : P .chan) (p_deep : P .deep) (p_servo : P .servo) (p_zone : P .zone) (p_host : P .host) (p_stage : P .stage) (p_memc : P .memc) (p_evr :
    P .evr) (p_trust : P .trust) (h : Keeps P r s) : Keeps P r (State.writeStop s b1 b2) := by
  unfold State.writeStop
  split
  · exact h
  · extract_lets +onlyGivenNames x1
    clear_value x1
    extract_lets +onlyGivenNames x2
    have h3 : Keeps P r x2 := (keeps_dropBegun p_reach (keeps_noteStop p_regs p_acc p_evr (keeps_idlePair p_regs p_chan h)))
    clear_value x2
    extract_lets +onlyGivenNames x4
    have h5 : Keeps P r x4 := (Keeps.ite (keeps_sendDisarm p_chan h3) h3)
    clear_value x4
    split
    · exact h5
    · exact (keeps_endWith p_free p_regs p_acc p_mem p_reach p_chan p_deep p_servo p_zone p_host p_stage p_memc p_evr p_trust h5)

/-- `State.commitData` keeps. -/
theorem keeps_commitData {P : Part → Prop} {r s : State} {b1 : Fin 4} {b2 : Fin 4} {b3 : Begun} {b4 : Bool} (p_mem : P .mem) (p_reach : P .reach) (p_host : P .host) (h :
    Keeps P r s) : Keeps P r (State.commitData s b1 b2 b3 b4) := by
  unfold State.commitData
  extract_lets +onlyGivenNames x1
  clear_value x1
  extract_lets +onlyGivenNames x2
  clear_value x2
  split
  · exact (keeps_updArch p_reach h)
  · extract_lets +onlyGivenNames x3
    clear_value x3
    split
    · exact (keeps_updArch p_reach h)
    · extract_lets +onlyGivenNames x4
      have h5 : Keeps P r x4 := (keeps_ctxUpd p_mem p_host (keeps_updArch p_reach h))
      clear_value x4
      split
      · extract_lets +onlyGivenNames x6
        clear_value x6
        extract_lets +onlyGivenNames x7
        have h8 : Keeps P r x7 := (keeps_updSlot p_reach h5)
        clear_value x7
        exact (Keeps.ite (keeps_handOver p_mem p_host h8) h8)
      · exact h5

/-- `State.committed` keeps. -/
theorem keeps_committed {P : Part → Prop} {r s : State} {b1 : Fin 4} {b2 : Fin 4} (p_free : P .free) (p_regs : P .regs) (p_acc : P .acc) (p_mem : P .mem) (p_reach : P
    .reach) (p_chan : P .chan) (p_deep : P .deep) (p_servo : P .servo) (p_zone : P .zone) (p_host : P .host) (p_stage : P .stage) (p_memc : P .memc)
    (p_evr : P .evr) (p_trust : P .trust) (h : Keeps P r s) : Keeps P r (State.committed s b1 b2) := by
  unfold State.committed
  extract_lets +onlyGivenNames x1
  have h2 : Keeps P r x1 := (keeps_recordCommit p_regs p_acc p_mem p_reach p_stage p_memc p_evr h)
  clear_value x1
  exact (Keeps.ite (keeps_stopSlot p_free p_regs p_acc p_mem p_reach p_chan p_deep p_servo p_zone p_host p_stage p_memc p_evr p_trust h2) h2)

/-- `State.deliver` keeps. -/
theorem keeps_deliver {P : Part → Prop} {r s : State} {b1 : Fin 4} {b2 : Fin 4} {b3 : ℕ} {b4 : ℕ} {b5 : Begun} (p_regs : P .regs) (p_acc : P .acc) (p_mem : P .mem)
    (p_reach : P .reach) (p_stage : P .stage) (p_memc : P .memc) (p_evr : P .evr) (p_sluice : P .sluice) (h : Keeps P r s) : Keeps P r (State.deliver
    s b1 b2 b3 b4 b5) := by
  unfold State.deliver
  split
  · extract_lets +onlyGivenNames x1
    clear_value x1
    exact (keeps_stored p_regs p_acc p_mem p_stage p_memc p_evr (keeps_stored p_regs p_acc p_mem p_stage p_memc p_evr h))
  · exact (keeps_updSlot p_reach (Keeps.put h))

/-- `State.enterFailure` keeps. -/
theorem keeps_enterFailure {P : Part → Prop} {r s : State} {b1 : Fin 4} {b2 : Fin 4} {b3 : ℕ} {b4 : ℕ} {b5 : ℕ} (p_regs : P .regs) (p_acc : P .acc) (p_mem : P .mem) (p_reach :
    P .reach) (p_stage : P .stage) (p_memc : P .memc) (p_evr : P .evr) (h : Keeps P r s) : Keeps P r (State.enterFailure s b1 b2 b3 b4 b5) := by
  unfold State.enterFailure
  extract_lets +onlyGivenNames x1
  clear_value x1
  exact (keeps_updMedia p_reach (keeps_updSlot p_reach (keeps_stored p_regs p_acc p_mem p_stage p_memc p_evr h)))

/-- `State.markBuf` keeps. -/
theorem keeps_markBuf {P : Part → Prop} {r s : State} {b1 : ℕ × ℕ} {b2 : Bool} (p_stage : P .stage) (h : Keeps P r s) : Keeps P r (State.markBuf s b1 b2) := by
  unfold State.markBuf
  exact (Keeps.put h)

/-- `State.commitRead` keeps. -/
theorem keeps_commitRead {P : Part → Prop} {r s : State} {b1 : Fin 4} {b2 : Fin 4} {b3 : Media} {b4 : Begun} {b5 : Option ℕ} (p_free : P .free) (p_regs : P .regs) (p_acc : P
    .acc) (p_mem : P .mem) (p_reach : P .reach) (p_chan : P .chan) (p_deep : P .deep) (p_servo : P .servo) (p_zone : P .zone) (p_host : P .host)
    (p_stage : P .stage) (p_memc : P .memc) (p_evr : P .evr) (p_sluice : P .sluice) (p_trust : P .trust) (h : Keeps P r s) : Keeps P r
    (State.commitRead s b1 b2 b3 b4 b5) := by
  unfold State.commitRead
  extract_lets +onlyGivenNames x1
  clear_value x1
  extract_lets +onlyGivenNames x2
  refine Keeps.step (P := P) (r := r) (x := x2) ?_ ?_
  · unfold x2
    split
    · exact (keeps_enterFailure p_regs p_acc p_mem p_reach p_stage p_memc p_evr h)
    · exact (Keeps.ite (keeps_headCount p_regs p_acc h) h)
  intro h3
  clear_value x2
  extract_lets +onlyGivenNames x4
  refine Keeps.step (P := P) (r := r) (x := x4) ?_ ?_
  · unfold x4
    split
    · exact h3
    · split
      · exact h3
      · extract_lets +onlyGivenNames x6
        have h7 : Keeps P r x6 := (keeps_markBuf p_stage h3)
        clear_value x6
        exact (Keeps.ite h7 (keeps_deliver p_regs p_acc p_mem p_reach p_stage p_memc p_evr p_sluice h7))
  intro h5
  clear_value x4
  exact (keeps_committed p_free p_regs p_acc p_mem p_reach p_chan p_deep p_servo p_zone p_host p_stage p_memc p_evr p_trust (keeps_freeEntries p_regs
      p_acc p_mem p_chan p_stage p_memc p_evr (keeps_commitData p_mem p_reach p_host (keeps_dropBegun p_reach h5))))

/-- `State.failWith` keeps. -/
theorem keeps_failWith {P : Part → Prop} {r s : State} {b1 : Fin 4} {b2 : Fin 4} {b3 : ℕ} {b4 : ℕ} (p_free : P .free) (p_regs : P .regs) (p_acc : P .acc) (p_mem : P .mem)
    (p_reach : P .reach) (p_chan : P .chan) (p_deep : P .deep) (p_servo : P .servo) (p_zone : P .zone) (p_host : P .host) (p_stage : P .stage)
    (p_memc : P .memc) (p_evr : P .evr) (p_trust : P .trust) (h : Keeps P r s) : Keeps P r (State.failWith s b1 b2 b3 b4) := by
  unfold State.failWith
  exact (keeps_settleMedia p_free p_regs p_acc p_mem p_reach p_chan p_deep p_servo p_zone p_host p_stage p_memc p_evr p_trust (keeps_updMedia p_reach
      (keeps_updArch p_reach (keeps_dropBegun p_reach h))))

/-- `State.scanSector` keeps. -/
theorem keeps_scanSector {P : Part → Prop} {r s : State} {b1 : Fin 4} {b2 : Fin 4} {b3 : Media} {b4 : Begun} (p_free : P .free) (p_regs : P .regs) (p_acc : P .acc) (p_mem : P
    .mem) (p_reach : P .reach) (p_chan : P .chan) (p_deep : P .deep) (p_servo : P .servo) (p_zone : P .zone) (p_host : P .host) (p_stage : P .stage)
    (p_memc : P .memc) (p_evr : P .evr) (p_trust : P .trust) (h : Keeps P r s) : Keeps P r (State.scanSector s b1 b2 b3 b4) := by
  unfold State.scanSector
  split
  · exact (keeps_settleMedia p_free p_regs p_acc p_mem p_reach p_chan p_deep p_servo p_zone p_host p_stage p_memc p_evr p_trust (keeps_updMedia
      p_reach (keeps_dropBegun p_reach h)))
  · extract_lets +onlyGivenNames x1
    have h2 : Keeps P r x1 := (keeps_dropBegun p_reach (keeps_stored p_regs p_acc p_mem p_stage p_memc p_evr h))
    clear_value x1
    extract_lets +onlyGivenNames x3
    have h4 : Keeps P r x3 := (Keeps.ite (keeps_tookFree p_free h2) h2)
    clear_value x3
    exact (keeps_settleMedia p_free p_regs p_acc p_mem p_reach p_chan p_deep p_servo p_zone p_host p_stage p_memc p_evr p_trust (keeps_updMedia
        p_reach h4))

/-- `State.finalRead` keeps. -/
theorem keeps_finalRead {P : Part → Prop} {r s : State} {b1 : Fin 4} {b2 : Fin 4} {b3 : Media} {b4 : Begun} (p_free : P .free) (p_regs : P .regs) (p_acc : P .acc) (p_mem : P
    .mem) (p_reach : P .reach) (p_chan : P .chan) (p_deep : P .deep) (p_servo : P .servo) (p_zone : P .zone) (p_host : P .host) (p_stage : P .stage)
    (p_memc : P .memc) (p_evr : P .evr) (p_sluice : P .sluice) (p_trust : P .trust) (h : Keeps P r s) : Keeps P r (State.finalRead s b1 b2 b3 b4) := by
  unfold State.finalRead
  split
  · exact (keeps_scanSector p_free p_regs p_acc p_mem p_reach p_chan p_deep p_servo p_zone p_host p_stage p_memc p_evr p_trust h)
  · split
    · exact (keeps_settleMedia p_free p_regs p_acc p_mem p_reach p_chan p_deep p_servo p_zone p_host p_stage p_memc p_evr p_trust (keeps_commitRead
        p_free p_regs p_acc p_mem p_reach p_chan p_deep p_servo p_zone p_host p_stage p_memc p_evr p_sluice p_trust h))
    · exact (Keeps.ite (keeps_failWith p_free p_regs p_acc p_mem p_reach p_chan p_deep p_servo p_zone p_host p_stage p_memc p_evr p_trust h)
        (Keeps.ite (keeps_failWith p_free p_regs p_acc p_mem p_reach p_chan p_deep p_servo p_zone p_host p_stage p_memc p_evr p_trust h)
        (keeps_settleMedia p_free p_regs p_acc p_mem p_reach p_chan p_deep p_servo p_zone p_host p_stage p_memc p_evr p_trust (keeps_commitRead
        p_free p_regs p_acc p_mem p_reach p_chan p_deep p_servo p_zone p_host p_stage p_memc p_evr p_sluice p_trust h))))

/-- `State.drain` keeps. -/
theorem keeps_drain {P : Part → Prop} {r s : State} {b1 : Fin 4} {b2 : ℕ} (p_free : P .free) (p_regs : P .regs) (p_acc : P .acc) (p_mem : P .mem) (p_reach : P .reach)
    (p_chan : P .chan) (p_deep : P .deep) (p_servo : P .servo) (p_zone : P .zone) (p_host : P .host) (p_stage : P .stage) (p_memc : P .memc) (p_evr :
    P .evr) (p_sluice : P .sluice) (p_trust : P .trust) (h : Keeps P r s) : Keeps P r (State.drain s b1 b2) := by
  induction b2 generalizing s b1
  · simp only [State.drain]
    exact h
  · rename_i a1 ih
    simp only [State.drain]
    split
    · exact h
    · split
      · exact (ih (keeps_dropBegun p_reach h))
      · exact (ih (keeps_finalRead p_free p_regs p_acc p_mem p_reach p_chan p_deep p_servo p_zone p_host p_stage p_memc p_evr p_sluice p_trust h))

/-- `State.drainAll` keeps. -/
theorem keeps_drainAll {P : Part → Prop} {r s : State} {b1 : Fin 4} (p_free : P .free) (p_regs : P .regs) (p_acc : P .acc) (p_mem : P .mem) (p_reach : P .reach) (p_chan : P
    .chan) (p_deep : P .deep) (p_servo : P .servo) (p_zone : P .zone) (p_host : P .host) (p_stage : P .stage) (p_memc : P .memc) (p_evr : P .evr)
    (p_sluice : P .sluice) (p_trust : P .trust) (h : Keeps P r s) : Keeps P r (State.drainAll s b1) := by
  unfold State.drainAll
  exact (keeps_drain p_free p_regs p_acc p_mem p_reach p_chan p_deep p_servo p_zone p_host p_stage p_memc p_evr p_sluice p_trust h)

/-- `State.updBegun` keeps. -/
theorem keeps_updBegun {P : Part → Prop} {r s : State} {b1 : Fin 4} {b2 : Begun} {b3 : Begun → Begun} (p_reach : P .reach) (h : Keeps P r s) : Keeps P r (State.updBegun s
    b1 b2 b3) := by
  unfold State.updBegun
  exact (keeps_updEng p_reach h)

/-- `State.opEndsWith` keeps. -/
theorem keeps_opEndsWith {P : Part → Prop} {r s : State} {b1 : Fin 4} {b2 : Fin 4} {b3 : ℕ} (p_free : P .free) (p_regs : P .regs) (p_acc : P .acc) (p_mem : P .mem) (p_reach :
    P .reach) (p_chan : P .chan) (p_deep : P .deep) (p_servo : P .servo) (p_zone : P .zone) (p_host : P .host) (p_stage : P .stage) (p_memc : P
    .memc) (p_evr : P .evr) (p_trust : P .trust) (h : Keeps P r s) : Keeps P r (State.opEndsWith s b1 b2 b3) := by
  unfold State.opEndsWith
  split
  · exact (keeps_complete p_free p_regs p_acc p_mem p_reach p_chan p_deep p_servo p_zone p_host p_stage p_memc p_evr p_trust h)
  · exact (keeps_complete p_free p_regs p_acc p_mem p_reach p_chan p_deep p_servo p_zone p_host p_stage p_memc p_evr p_trust h)
  · exact (keeps_complete p_free p_regs p_acc p_mem p_reach p_chan p_deep p_servo p_zone p_host p_stage p_memc p_evr p_trust h)
  · exact (keeps_complete p_free p_regs p_acc p_mem p_reach p_chan p_deep p_servo p_zone p_host p_stage p_memc p_evr p_trust h)
  · exact (keeps_complete p_free p_regs p_acc p_mem p_reach p_chan p_deep p_servo p_zone p_host p_stage p_memc p_evr p_trust h)
  · exact (Keeps.ite h (keeps_endWith p_free p_regs p_acc p_mem p_reach p_chan p_deep p_servo p_zone p_host p_stage p_memc p_evr p_trust h))
  · exact h

end Sys2Proof.Machine
end

