-- ==== Sys2Proof/Laws/KeepsSluice.lean ====
section
/-! SUPPORT. What the operations of Machine/Sluice.lean keep. -/

namespace Sys2Proof.Machine

set_option Elab.async false

/-- `State.sluStop` keeps. -/
theorem keeps_sluStop {P : Part → Prop} {r s : State} {b1 : ℕ} (p_regs : P .regs) (h : Keeps P r s) : Keeps P r (State.sluStop s b1) := by
  unfold State.sluStop
  exact (Keeps.ite (keeps_wr p_regs h) h)

/-- `State.updSlu` keeps. -/
theorem keeps_updSlu {P : Part → Prop} {r s : State} {b1 : ℕ} {b2 : SluChan → SluChan} (p_sluice : P .sluice) (h : Keeps P r s) : Keeps P r (State.updSlu s b1 b2) := by
  unfold State.updSlu
  exact (Keeps.put h)

/-- `State.sluStart` keeps. -/
theorem keeps_sluStart {P : Part → Prop} {r s : State} {b1 : ℕ} {b2 : Option (Fin 4 × Fin 4)} (p_regs : P .regs) (p_sluice : P .sluice) (h : Keeps P r s) : Keeps P r
    (State.sluStart s b1 b2) := by
  unfold State.sluStart
  exact (keeps_updSlu p_sluice (keeps_wrs p_regs h))

/-- `execSluiceGo` keeps. -/
theorem keeps_execSluiceGo {P : Part → Prop} {r s : State} {b0 : Fin 32} (p_regs : P .regs) (p_sluice : P .sluice) (h : Keeps P r s) : KeepsO P r (execSluiceGo b0 s) := by
  unfold execSluiceGo
  split
  · exact KeepsO.of_next (keeps_wr p_regs h)
  · exact KeepsO.of_next (keeps_sluStart p_regs p_sluice h)

/-- `execSluiceResume` keeps. -/
theorem keeps_execSluiceResume {P : Part → Prop} {r s : State} {b0 : Fin 32} (p_regs : P .regs) (h : Keeps P r s) : KeepsO P r (execSluiceResume b0 s) := by
  unfold execSluiceResume
  split
  · exact KeepsO.of_next (keeps_wr p_regs h)
  · exact KeepsO.of_next (Keeps.ite (keeps_wr p_regs h) h)

/-- `execSluiceStop` keeps. -/
theorem keeps_execSluiceStop {P : Part → Prop} {r s : State} {b0 : Fin 32} (p_regs : P .regs) (h : Keeps P r s) : KeepsO P r (execSluiceStop b0 s) := by
  unfold execSluiceStop
  exact KeepsO.of_next (keeps_sluStop p_regs h)

/-- `State.descAt` keeps. -/
theorem keeps_descAt {P : Part → Prop} {r s : State} {b1 : ℕ} {b2 : ℕ} (p_regs : P .regs) (p_acc : P .acc) (p_mem : P .mem) (p_memc : P .memc) (p_evr : P .evr) (h : Keeps
    P r s) : Keeps P r (State.descAt s b1 b2).1 := by
  unfold State.descAt
  split
  · refine Keeps.fst_mk ?_
    exact h
  · split
    · rename_i y1 y2 y3 y4 y5
      have h6 : Keeps P r y3 := Keeps.fst y5 (keeps_load p_regs p_acc p_mem p_memc p_evr h)
      refine Keeps.fst_mk ?_
      exact h6

/-- `State.sluOwnerEnds` keeps. -/
theorem keeps_sluOwnerEnds {P : Part → Prop} {r s : State} {b1 : ℕ} {b2 : Bool} (p_reach : P .reach) (p_sluice : P .sluice) (h : Keeps P r s) : Keeps P r (State.sluOwnerEnds s
    b1 b2) := by
  unfold State.sluOwnerEnds
  split
  · exact h
  · exact (Keeps.ite (keeps_updSlu p_sluice (keeps_updSlot p_reach h)) h)

/-- `State.sluError` keeps. -/
theorem keeps_sluError {P : Part → Prop} {r s : State} {b1 : ℕ} {b2 : ℕ} (p_regs : P .regs) (p_reach : P .reach) (p_evr : P .evr) (p_sluice : P .sluice) (h : Keeps P r s) :
    Keeps P r (State.sluError s b1 b2) := by
  unfold State.sluError
  extract_lets +onlyGivenNames x1
  have h2 : Keeps P r x1 := (keeps_wrs p_regs h)
  clear_value x1
  exact (keeps_sluOwnerEnds p_reach p_sluice (keeps_raise p_evr (keeps_setB p_regs h2)))

/-- `State.sluRead` keeps. -/
theorem keeps_sluRead {P : Part → Prop} {r s : State} {b0 : ℕ → State → ℕ → ℕ → State × Option (List ℕ)} {b2 : ℕ} {b3 : List ℕ} (p_regs : P .regs) (p_reach : P .reach)
    (p_evr : P .evr) (p_sluice : P .sluice) (h : Keeps P r s) (hb1 : (∀ c t a n, Keeps P r t → Keeps P r (b0 c t a n).1)) : Keeps P r (State.sluRead
    b0 s b2 b3) := by
  unfold State.sluRead
  extract_lets +onlyGivenNames x1
  clear_value x1
  extract_lets +onlyGivenNames x2
  clear_value x2
  split
  · split
    · exact (keeps_sluError p_regs p_reach p_evr p_sluice h)
    · split
      · rename_i y3 y4 y5 y6 y7 y8 y9 y10 y11
        have h12 : Keeps P r y10 := Keeps.fst y11 (hb1 _ _ _ _ h)
        exact (keeps_sluError p_regs p_reach p_evr p_sluice h12)
      · rename_i y13 y14 y15 y16 y17 y18 y19 y20 y21 y22
        have h23 : Keeps P r y20 := Keeps.fst y22 (hb1 _ _ _ _ h)
        exact (keeps_updSlu p_sluice h23)

/-- `State.sluWrite` keeps. -/
theorem keeps_sluWrite {P : Part → Prop} {r s : State} {b0 : ℕ → State → ℕ → List ℕ → State × Bool} {b2 : ℕ} {b3 : List ℕ} (p_regs : P .regs) (p_reach : P .reach) (p_evr :
    P .evr) (p_sluice : P .sluice) (h : Keeps P r s) (hb1 : (∀ c t a l, Keeps P r t → Keeps P r (b0 c t a l).1)) : Keeps P r (State.sluWrite b0 s b2
    b3) := by
  unfold State.sluWrite
  extract_lets +onlyGivenNames x1
  clear_value x1
  extract_lets +onlyGivenNames x2
  clear_value x2
  split
  · split
    · exact (keeps_sluError p_regs p_reach p_evr p_sluice h)
    · split
      · rename_i y3 y4 y5 y6 y7 y8 y9 y10 y11
        have h12 : Keeps P r y10 := Keeps.fst y11 (hb1 _ _ _ _ h)
        exact (keeps_sluError p_regs p_reach p_evr p_sluice h12)
      · rename_i y13 y14 y15 y16 y17 y18 y19 y20 y21
        have h22 : Keeps P r y20 := Keeps.fst y21 (hb1 _ _ _ _ h)
        exact (keeps_wr p_regs (keeps_updSlu p_sluice h22))

/-- `State.sluAccess` keeps. -/
theorem keeps_sluAccess {P : Part → Prop} {r s : State} {b0 : ℕ → State → ℕ → ℕ → State × Option (List ℕ)} {b1 : ℕ → State → ℕ → List ℕ → State × Bool} {b3 : ℕ} (p_regs : P
    .regs) (p_reach : P .reach) (p_evr : P .evr) (p_sluice : P .sluice) (h : Keeps P r s) (hb1 : (∀ c t a n, Keeps P r t → Keeps P r (b0 c t a n).1))
    (hb2 : (∀ c t a l, Keeps P r t → Keeps P r (b1 c t a l).1)) : Keeps P r (State.sluAccess b0 b1 s b3) := by
  unfold State.sluAccess
  extract_lets +onlyGivenNames x1
  clear_value x1
  split
  · exact h
  · split
    · exact h
    · split
      · split
        · refine keeps_sluWrite p_regs p_reach p_evr p_sluice ?_ ?_
          · exact h
          · intro y2 y3 y4 y5 y6
            exact (hb2 _ _ _ _ y6)
        · split
          · refine keeps_sluRead p_regs p_reach p_evr p_sluice ?_ ?_
            · exact h
            · intro y7 y8 y9 y10 y11
              exact (hb1 _ _ _ _ y11)
          · exact h

/-- `State.sluCurrent` keeps. -/
theorem keeps_sluCurrent {P : Part → Prop} {r s : State} {b1 : ℕ} {b2 : List ℕ} (p_regs : P .regs) (p_reach : P .reach) (p_evr : P .evr) (p_sluice : P .sluice) (h : Keeps P r
    s) : Keeps P r (State.sluCurrent s b1 b2) := by
  unfold State.sluCurrent
  extract_lets +onlyGivenNames x1
  clear_value x1
  extract_lets +onlyGivenNames x2
  clear_value x2
  extract_lets +onlyGivenNames x3
  clear_value x3
  extract_lets +onlyGivenNames x4
  have h5 : Keeps P r x4 := (keeps_wr p_regs (keeps_updSlu p_sluice h))
  clear_value x4
  split
  · exact (keeps_sluError p_regs p_reach p_evr p_sluice h5)
  · exact h5

/-- `State.sluOverlap` keeps. -/
theorem keeps_sluOverlap {P : Part → Prop} {r s : State} {b1 : List (ℕ × ℕ)} (p_free : P .free) (p_regs : P .regs) (p_acc : P .acc) (p_mem : P .mem) (p_stage : P .stage)
    (p_memc : P .memc) (p_evr : P .evr) (h : Keeps P r s) : Keeps P r (State.sluOverlap s b1) := by
  unfold State.sluOverlap
  split
  · exact h
  · exact (keeps_stored p_regs p_acc p_mem p_stage p_memc p_evr (keeps_tookFree p_free h))

/-- `State.sluProgram` keeps. -/
theorem keeps_sluProgram {P : Part → Prop} {r s : State} {b1 : Fin 4} {b2 : Fin 4} {b3 : ℕ} {b4 : ℕ} (p_regs : P .regs) (p_reach : P .reach) (p_sluice : P .sluice) (h : Keeps
    P r s) : Keeps P r (State.sluProgram s b1 b2 b3 b4).1 := by
  unfold State.sluProgram
  extract_lets +onlyGivenNames x1
  clear_value x1
  split
  · refine Keeps.fst_mk ?_
    exact h
  · refine Keeps.fst_mk ?_
    exact (keeps_updSlot p_reach (keeps_sluStart p_regs p_sluice (keeps_wr p_regs h)))

/-- `State.xferRead` keeps. -/
theorem keeps_xferRead {P : Part → Prop} {r s : State} {b1 : SecXfer} (p_free : P .free) (p_regs : P .regs) (p_acc : P .acc) (p_mem : P .mem) (p_reach : P .reach) (p_chan :
    P .chan) (p_deep : P .deep) (p_servo : P .servo) (p_zone : P .zone) (p_host : P .host) (p_stage : P .stage) (p_memc : P .memc) (p_evr : P .evr)
    (p_sluice : P .sluice) (p_trust : P .trust) (h : Keeps P r s) : Keeps P r (State.xferRead s b1) := by
  unfold State.xferRead
  extract_lets +onlyGivenNames x1
  clear_value x1
  extract_lets +onlyGivenNames x2
  have h3 : Keeps P r x2 := (keeps_updSlot p_reach (Keeps.put h))
  clear_value x2
  split
  · exact (keeps_ctxUpd p_mem p_host h3)
  · split
    · extract_lets +onlyGivenNames x4
      have h5 : Keeps P r x4 := (keeps_stored p_regs p_acc p_mem p_stage p_memc p_evr (keeps_stored p_regs p_acc p_mem p_stage p_memc p_evr h3))
      clear_value x4
      exact (Keeps.ite h5 (keeps_endWith p_free p_regs p_acc p_mem p_reach p_chan p_deep p_servo p_zone p_host p_stage p_memc p_evr p_trust
          (keeps_updSlot p_reach h5)))

/-- `State.xferWrite` keeps. -/
theorem keeps_xferWrite {P : Part → Prop} {r s : State} {b1 : Fin 4} (p_free : P .free) (p_regs : P .regs) (p_acc : P .acc) (p_mem : P .mem) (p_reach : P .reach) (p_chan : P
    .chan) (p_deep : P .deep) (p_servo : P .servo) (p_zone : P .zone) (p_host : P .host) (p_stage : P .stage) (p_memc : P .memc) (p_evr : P .evr)
    (p_trust : P .trust) (h : Keeps P r s) : Keeps P r (State.xferWrite s b1) := by
  unfold State.xferWrite
  split
  · exact h
  · split
    · exact h
    · split
      · exact (keeps_endWith p_free p_regs p_acc p_mem p_reach p_chan p_deep p_servo p_zone p_host p_stage p_memc p_evr p_trust h)
      · split
        · exact h
        · split
          · extract_lets +onlyGivenNames x1
            clear_value x1
            split
            · exact (keeps_endWith p_free p_regs p_acc p_mem p_reach p_chan p_deep p_servo p_zone p_host p_stage p_memc p_evr p_trust h)
            · split
              · rename_i y2 y3 y4 y5 y6 y7 y8 y9 y10 y11 y12 y13 y14 y15 y16 y17 y18 y19 y20 y21
                have h22 : Keeps P r y20 := Keeps.fst y21 (keeps_load p_regs p_acc p_mem p_memc p_evr h)
                exact h22
              · rename_i y23 y24 y25 y26 y27 y28 y29 y30 y31 y32 y33 y34 y35 y36 y37 y38 y39 y40 y41 y42 y43
                have h44 : Keeps P r y41 := Keeps.fst y43 (keeps_load p_regs p_acc p_mem p_memc p_evr h)
                split
                · rename_i y45 y46 y47
                  have h48 : Keeps P r y46 := Keeps.fst y47 (keeps_load p_regs p_acc p_mem p_memc p_evr h44)
                  exact h48
                · rename_i y49 y50 y51 y52
                  have h53 : Keeps P r y50 := Keeps.fst y52 (keeps_load p_regs p_acc p_mem p_memc p_evr h44)
                  exact (keeps_updCh p_chan h53)

/-- `execSluiceDescDone` keeps. -/
theorem keeps_execSluiceDescDone {P : Part → Prop} {r s : State} {b0 : Fin 32} (p_free : P .free) (p_regs : P .regs) (p_acc : P .acc) (p_mem : P .mem) (p_reach : P .reach) (p_stage :
    P .stage) (p_memc : P .memc) (p_evr : P .evr) (p_sluice : P .sluice) (h : Keeps P r s) : KeepsO P r (execSluiceDescDone b0 s) := by
  unfold execSluiceDescDone
  extract_lets +onlyGivenNames x1
  clear_value x1
  split
  · exact KeepsO.of_next h
  · split
    · exact KeepsO.of_next h
    · extract_lets +onlyGivenNames x2
      have h3 : Keeps P r x2 := (keeps_sluOverlap p_free p_regs p_acc p_mem p_stage p_memc p_evr h)
      clear_value x2
      extract_lets +onlyGivenNames x4
      have h5 : Keeps P r x4 := (Keeps.ite (keeps_wr p_regs (keeps_setB p_regs h3)) h3)
      clear_value x4
      split
      · exact KeepsO.of_next (keeps_updSlu p_sluice (keeps_sluOwnerEnds p_reach p_sluice (keeps_wr p_regs h5)))
      · extract_lets +onlyGivenNames x6
        clear_value x6
        extract_lets +onlyGivenNames x7
        have h8 : Keeps P r x7 := (keeps_updSlu p_sluice (keeps_wr p_regs h5))
        clear_value x7
        split
        · exact KeepsO.of_next h8
        · exact KeepsO.of_next (keeps_sluCurrent p_regs p_reach p_evr p_sluice h8)

/-- `execSluiceDescFetch` keeps. -/
theorem keeps_execSluiceDescFetch {P : Part → Prop} {r s : State} {b0 : Fin 32} (p_regs : P .regs) (p_acc : P .acc) (p_mem : P .mem) (p_reach : P .reach) (p_memc : P .memc) (p_evr : P
    .evr) (p_sluice : P .sluice) (h : Keeps P r s) : KeepsO P r (execSluiceDescFetch b0 s) := by
  unfold execSluiceDescFetch
  extract_lets +onlyGivenNames x1
  clear_value x1
  split
  · exact KeepsO.of_next h
  · split
    · split
      · rename_i y2 y3 y4 y5 y6 y7 y8
        have h9 : Keeps P r y6 := Keeps.fst y8 (keeps_descAt p_regs p_acc p_mem p_memc p_evr h)
        exact KeepsO.of_next (keeps_sluCurrent p_regs p_reach p_evr p_sluice h9)
      · rename_i y10 y11 y12 y13 y14 y15
        have h16 : Keeps P r y14 := Keeps.fst y15 (keeps_descAt p_regs p_acc p_mem p_memc p_evr h)
        exact KeepsO.of_next (keeps_sluError p_regs p_reach p_evr p_sluice h16)
    · split
      · exact KeepsO.of_next h
      · split
        · rename_i y17 y18 y19 y20 y21 y22 y23 y24 y25
          have h26 : Keeps P r y23 := Keeps.fst y25 (keeps_descAt p_regs p_acc p_mem p_memc p_evr h)
          exact KeepsO.of_next (keeps_updSlu p_sluice h26)
        · rename_i y27 y28 y29 y30 y31 y32 y33 y34
          have h35 : Keeps P r y33 := Keeps.fst y34 (keeps_descAt p_regs p_acc p_mem p_memc p_evr h)
          exact KeepsO.of_next (keeps_sluError p_regs p_reach p_evr p_sluice h35)

/-- `execSluiceSectorXfer` keeps. -/
theorem keeps_execSluiceSectorXfer {P : Part → Prop} {r s : State} {b0 : Fin 4} {b1 : Bool} (p_free : P .free) (p_regs : P .regs) (p_acc : P .acc) (p_mem : P .mem) (p_reach : P .reach)
    (p_chan : P .chan) (p_deep : P .deep) (p_servo : P .servo) (p_zone : P .zone) (p_host : P .host) (p_stage : P .stage) (p_memc : P .memc) (p_evr :
    P .evr) (p_sluice : P .sluice) (p_trust : P .trust) (h : Keeps P r s) : KeepsO P r (execSluiceSectorXfer b0 b1 s) := by
  unfold execSluiceSectorXfer
  split
  · exact KeepsO.of_next h
  · split
    · exact KeepsO.of_next (keeps_xferWrite p_free p_regs p_acc p_mem p_reach p_chan p_deep p_servo p_zone p_host p_stage p_memc p_evr p_trust h)
    · split
      · exact KeepsO.of_next h
      · exact KeepsO.of_next (keeps_xferRead p_free p_regs p_acc p_mem p_reach p_chan p_deep p_servo p_zone p_host p_stage p_memc p_evr p_sluice
          p_trust h)

end Sys2Proof.Machine
end

