-- ==== Sys2Proof/Laws/KeepsReach.lean ====
section
/-! SUPPORT. What the operations of Machine/Reach.lean keep. -/

namespace Sys2Proof.Machine

set_option Elab.async false

/-- `State.interruptActive` keeps. -/
theorem keeps_interruptActive {P : Part → Prop} {r s : State} {b1 : Fin 4} {b2 : List (Fin 4)} (p_regs : P .regs) (p_acc : P .acc) (p_mem : P .mem) (p_reach : P .reach) (p_chan :
    P .chan) (p_deep : P .deep) (p_servo : P .servo) (p_zone : P .zone) (p_stage : P .stage) (p_memc : P .memc) (p_evr : P .evr) (h : Keeps P r s) :
    Keeps P r (State.interruptActive s b1 b2) := by
  induction b2 generalizing s b1
  · simp only [State.interruptActive]
    exact h
  · rename_i a1 a2 ih
    simp only [State.interruptActive]
    exact (ih (Keeps.ite (keeps_updSlot p_reach (keeps_interrupt p_regs p_acc p_mem p_reach p_chan p_deep p_servo p_zone p_stage p_memc p_evr h)) h))

/-- `State.engReset` keeps. -/
theorem keeps_engReset {P : Part → Prop} {r s : State} {b1 : Fin 4} (p_regs : P .regs) (p_acc : P .acc) (p_mem : P .mem) (p_reach : P .reach) (p_chan : P .chan) (p_deep : P
    .deep) (p_servo : P .servo) (p_zone : P .zone) (p_stage : P .stage) (p_memc : P .memc) (p_evr : P .evr) (h : Keeps P r s) : Keeps P r
    (State.engReset s b1) := by
  unfold State.engReset
  exact (keeps_setUnit p_regs (keeps_wr p_regs (keeps_interruptActive p_regs p_acc p_mem p_reach p_chan p_deep p_servo p_zone p_stage p_memc p_evr
      h)))

/-- `State.alu` keeps. -/
theorem keeps_alu {P : Part → Prop} {r s : State} {b1 : Fin 4} {b2 : Fin 4} {b3 : Fin 16} {b4 : Op2} {b5 : BitVec 64 → BitVec 64 → BitVec 64 × Bool} {b6 : Option (Fin
    16)} (p_free : P .free) (p_regs : P .regs) (p_acc : P .acc) (p_mem : P .mem) (p_reach : P .reach) (p_chan : P .chan) (p_deep : P .deep) (p_servo
    : P .servo) (p_zone : P .zone) (p_host : P .host) (p_stage : P .stage) (p_memc : P .memc) (p_evr : P .evr) (p_trust : P .trust) (h : Keeps P r s)
    : KeepsO P r (State.alu s b1 b2 b3 b4 b5 b6) := by
  unfold State.alu
  refine keeps_instr p_free p_regs p_acc p_mem p_reach p_chan p_deep p_servo p_zone p_host p_stage p_memc p_evr p_trust ?_ ?_
  · exact h
  · intro y1
    exact (keeps_complete p_free p_regs p_acc p_mem p_reach p_chan p_deep p_servo p_zone p_host p_stage p_memc p_evr p_trust h)

/-- `State.engFault` keeps. -/
theorem keeps_engFault {P : Part → Prop} {r s : State} {b1 : Fin 4} {b2 : ℕ} (p_regs : P .regs) (p_acc : P .acc) (p_mem : P .mem) (p_reach : P .reach) (p_chan : P .chan)
    (p_deep : P .deep) (p_servo : P .servo) (p_zone : P .zone) (p_stage : P .stage) (p_memc : P .memc) (p_evr : P .evr) (h : Keeps P r s) : Keeps P r
    (State.engFault s b1 b2) := by
  unfold State.engFault
  exact (keeps_engReset p_regs p_acc p_mem p_reach p_chan p_deep p_servo p_zone p_stage p_memc p_evr (keeps_fault p_regs p_evr h))

/-- `State.fenceDone` keeps. -/
theorem keeps_fenceDone {P : Part → Prop} {r s : State} {b1 : Fin 4} {b2 : Fin 4} {b3 : Bool} {b4 : Bool} (p_free : P .free) (p_regs : P .regs) (p_acc : P .acc) (p_mem : P
    .mem) (p_reach : P .reach) (p_chan : P .chan) (p_deep : P .deep) (p_servo : P .servo) (p_zone : P .zone) (p_host : P .host) (p_stage : P .stage)
    (p_memc : P .memc) (p_evr : P .evr) (p_trust : P .trust) (h : Keeps P r s) : Keeps P r (State.fenceDone s b1 b2 b3 b4) := by
  unfold State.fenceDone
  extract_lets +onlyGivenNames x1
  clear_value x1
  extract_lets +onlyGivenNames x2
  clear_value x2
  exact (keeps_complete p_free p_regs p_acc p_mem p_reach p_chan p_deep p_servo p_zone p_host p_stage p_memc p_evr p_trust (keeps_updSlot p_reach h))

/-- `State.issueSync` keeps. -/
theorem keeps_issueSync {P : Part → Prop} {r s : State} {b1 : Fin 4} {b2 : Fin 4} {b3 : Bool} (p_reach : P .reach) (h : Keeps P r s) : Keeps P r (State.issueSync s b1 b2 b3) := by
  unfold State.issueSync
  extract_lets +onlyGivenNames x1
  clear_value x1
  exact (Keeps.ite (keeps_updSlot p_reach h) h)

/-- `State.issued` keeps. -/
theorem keeps_issued {P : Part → Prop} {r s : State} {b1 : Fin 4} {b2 : Fin 4} (p_reach : P .reach) (h : Keeps P r s) : Keeps P r (State.issued s b1 b2) := by
  unfold State.issued
  exact (keeps_updArch p_reach h)

/-- `State.joinTake` keeps. -/
theorem keeps_joinTake {P : Part → Prop} {r s : State} {b1 : Fin 4} {b2 : Fin 4} {b3 : ℕ} (p_free : P .free) (p_regs : P .regs) (p_acc : P .acc) (p_mem : P .mem) (p_reach :
    P .reach) (p_chan : P .chan) (p_deep : P .deep) (p_servo : P .servo) (p_zone : P .zone) (p_host : P .host) (p_stage : P .stage) (p_memc : P
    .memc) (p_evr : P .evr) (p_trust : P .trust) (h : Keeps P r s) : Keeps P r (State.joinTake s b1 b2 b3) := by
  unfold State.joinTake
  exact (keeps_complete p_free p_regs p_acc p_mem p_reach p_chan p_deep p_servo p_zone p_host p_stage p_memc p_evr p_trust (keeps_wr p_regs h))

/-- `State.jump` keeps. -/
theorem keeps_jump {P : Part → Prop} {r s : State} {b1 : Fin 4} {b2 : Fin 4} {b3 : ℕ} {b4 : Arch → Arch} (p_free : P .free) (p_regs : P .regs) (p_acc : P .acc) (p_mem :
    P .mem) (p_reach : P .reach) (p_chan : P .chan) (p_deep : P .deep) (p_servo : P .servo) (p_zone : P .zone) (p_host : P .host) (p_stage : P
    .stage) (p_memc : P .memc) (p_evr : P .evr) (p_trust : P .trust) (h : Keeps P r s) : Keeps P r (State.jump s b1 b2 b3 b4) := by
  unfold State.jump
  exact (keeps_dispatch p_free p_regs p_acc p_mem p_reach p_chan p_deep p_servo p_zone p_host p_stage p_memc p_evr p_trust (keeps_updSlot p_reach h))

/-- `State.signal` keeps. -/
theorem keeps_signal {P : Part → Prop} {r s : State} {b1 : Fin 4} {b2 : ℕ} {b3 : ℕ} (p_regs : P .regs) (h : Keeps P r s) : Keeps P r (State.signal s b1 b2 b3) := by
  unfold State.signal
  exact (Keeps.ite (keeps_wr p_regs (keeps_setB p_regs h)) (keeps_setB p_regs h))

/-- `State.noSync` keeps. -/
theorem keeps_noSync {P : Part → Prop} {r s : State} {b1 : Fin 4} {b2 : Fin 4} (p_reach : P .reach) (h : Keeps P r s) : Keeps P r (State.noSync s b1 b2) := by
  unfold State.noSync
  exact (keeps_updSlot p_reach h)

/-- `State.post` keeps. -/
theorem keeps_post {P : Part → Prop} {r s : State} {b1 : Fin 4} {b2 : Fin 4} {b3 : ℕ} (p_free : P .free) (p_regs : P .regs) (p_acc : P .acc) (p_mem : P .mem) (p_reach :
    P .reach) (p_chan : P .chan) (p_deep : P .deep) (p_servo : P .servo) (p_zone : P .zone) (p_host : P .host) (p_stage : P .stage) (p_memc : P
    .memc) (p_evr : P .evr) (p_trust : P .trust) (h : Keeps P r s) : Keeps P r (State.post s b1 b2 b3) := by
  unfold State.post
  extract_lets +onlyGivenNames x1
  clear_value x1
  extract_lets +onlyGivenNames x2
  clear_value x2
  extract_lets +onlyGivenNames x3
  clear_value x3
  exact (Keeps.ite (keeps_completeRecord p_free p_regs p_acc p_mem p_reach p_chan p_deep p_servo p_zone p_host p_stage p_memc p_evr p_trust h)
      (Keeps.ite (keeps_completeRecord p_free p_regs p_acc p_mem p_reach p_chan p_deep p_servo p_zone p_host p_stage p_memc p_evr p_trust h)
      (keeps_completeRecord p_free p_regs p_acc p_mem p_reach p_chan p_deep p_servo p_zone p_host p_stage p_memc p_evr p_trust (keeps_handOver p_mem
      p_host h))))

/-- `State.sendProfile` keeps. -/
theorem keeps_sendProfile {P : Part → Prop} {r s : State} {b1 : Fin 4} {b2 : Fin 4} {b3 : ℕ → ℕ} (p_reach : P .reach) (p_chan : P .chan) (h : Keeps P r s) : Keeps P r
    (State.sendProfile s b1 b2 b3) := by
  unfold State.sendProfile
  extract_lets +onlyGivenNames x1
  clear_value x1
  extract_lets +onlyGivenNames x2
  clear_value x2
  extract_lets +onlyGivenNames x3
  have h4 : Keeps P r x3 := (keeps_updCh p_chan h)
  clear_value x3
  exact (keeps_issued p_reach (keeps_armSend p_chan (keeps_armSend p_chan h4)))

/-- `execAdd` keeps. -/
theorem keeps_execAdd {P : Part → Prop} {r s : State} {b0 : Fin 4} {b1 : Fin 4} {b2 : Fin 16} {b3 : Fin 16} {b4 : Op2} (p_free : P .free) (p_regs : P .regs) (p_acc : P
    .acc) (p_mem : P .mem) (p_reach : P .reach) (p_chan : P .chan) (p_deep : P .deep) (p_servo : P .servo) (p_zone : P .zone) (p_host : P .host)
    (p_stage : P .stage) (p_memc : P .memc) (p_evr : P .evr) (p_trust : P .trust) (h : Keeps P r s) : KeepsO P r (execAdd b0 b1 b2 b3 b4 s) := by
  unfold execAdd
  refine keeps_alu p_free p_regs p_acc p_mem p_reach p_chan p_deep p_servo p_zone p_host p_stage p_memc p_evr p_trust ?_
  exact h

/-- `execAnd` keeps. -/
theorem keeps_execAnd {P : Part → Prop} {r s : State} {b0 : Fin 4} {b1 : Fin 4} {b2 : Fin 16} {b3 : Fin 16} {b4 : Op2} (p_free : P .free) (p_regs : P .regs) (p_acc : P
    .acc) (p_mem : P .mem) (p_reach : P .reach) (p_chan : P .chan) (p_deep : P .deep) (p_servo : P .servo) (p_zone : P .zone) (p_host : P .host)
    (p_stage : P .stage) (p_memc : P .memc) (p_evr : P .evr) (p_trust : P .trust) (h : Keeps P r s) : KeepsO P r (execAnd b0 b1 b2 b3 b4 s) := by
  unfold execAnd
  refine keeps_alu p_free p_regs p_acc p_mem p_reach p_chan p_deep p_servo p_zone p_host p_stage p_memc p_evr p_trust ?_
  exact h

/-- `execAsp` keeps. -/
theorem keeps_execAsp {P : Part → Prop} {r s : State} {b0 : Fin 4} {b1 : Fin 4} {b2 : Fin 16} (p_free : P .free) (p_regs : P .regs) (p_acc : P .acc) (p_mem : P .mem)
    (p_reach : P .reach) (p_chan : P .chan) (p_deep : P .deep) (p_servo : P .servo) (p_zone : P .zone) (p_host : P .host) (p_stage : P .stage)
    (p_memc : P .memc) (p_evr : P .evr) (p_trust : P .trust) (h : Keeps P r s) : KeepsO P r (execAsp b0 b1 b2 s) := by
  unfold execAsp
  refine keeps_instr p_free p_regs p_acc p_mem p_reach p_chan p_deep p_servo p_zone p_host p_stage p_memc p_evr p_trust ?_ ?_
  · exact h
  · intro y1
    extract_lets +onlyGivenNames x2
    clear_value x2
    split
    · exact (keeps_trapSlot p_free p_regs p_acc p_mem p_reach p_chan p_deep p_servo p_zone p_host p_stage p_memc p_evr p_trust h)
    · split
      · rename_i y3 y4 y5 y6
        have h7 : Keeps P r y5 := Keeps.fst y6 (keeps_load p_regs p_acc p_mem p_memc p_evr h)
        exact (keeps_engFault p_regs p_acc p_mem p_reach p_chan p_deep p_servo p_zone p_stage p_memc p_evr h7)
      · rename_i y8 y9 y10 y11 y12
        have h13 : Keeps P r y10 := Keeps.fst y12 (keeps_load p_regs p_acc p_mem p_memc p_evr h)
        extract_lets +onlyGivenNames x14
        clear_value x14
        exact (Keeps.ite (keeps_enter p_free p_regs p_acc p_mem p_reach p_chan p_deep p_servo p_zone p_host p_stage p_memc p_evr p_trust
            (keeps_sendProfile p_reach p_chan h13)) (keeps_complete p_free p_regs p_acc p_mem p_reach p_chan p_deep p_servo p_zone p_host p_stage
            p_memc p_evr p_trust h13))

/-- `execB` keeps. -/
theorem keeps_execB {P : Part → Prop} {r s : State} {b0 : Fin 4} {b1 : Fin 4} {b2 : Fin 16} {b3 : BitVec 22} (p_free : P .free) (p_regs : P .regs) (p_acc : P .acc)
    (p_mem : P .mem) (p_reach : P .reach) (p_chan : P .chan) (p_deep : P .deep) (p_servo : P .servo) (p_zone : P .zone) (p_host : P .host) (p_stage :
    P .stage) (p_memc : P .memc) (p_evr : P .evr) (p_trust : P .trust) (h : Keeps P r s) : KeepsO P r (execB b0 b1 b2 b3 s) := by
  unfold execB
  refine keeps_instr p_free p_regs p_acc p_mem p_reach p_chan p_deep p_servo p_zone p_host p_stage p_memc p_evr p_trust ?_ ?_
  · exact h
  · intro y1
    split
    · exact (keeps_complete p_free p_regs p_acc p_mem p_reach p_chan p_deep p_servo p_zone p_host p_stage p_memc p_evr p_trust h)
    · extract_lets +onlyGivenNames x2
      clear_value x2
      exact (Keeps.ite (keeps_trapSlot p_free p_regs p_acc p_mem p_reach p_chan p_deep p_servo p_zone p_host p_stage p_memc p_evr p_trust h)
          (keeps_jump p_free p_regs p_acc p_mem p_reach p_chan p_deep p_servo p_zone p_host p_stage p_memc p_evr p_trust h))

/-- `execBr` keeps. -/
theorem keeps_execBr {P : Part → Prop} {r s : State} {b0 : Fin 4} {b1 : Fin 4} {b2 : Fin 16} {b3 : Fin 16} (p_free : P .free) (p_regs : P .regs) (p_acc : P .acc) (p_mem :
    P .mem) (p_reach : P .reach) (p_chan : P .chan) (p_deep : P .deep) (p_servo : P .servo) (p_zone : P .zone) (p_host : P .host) (p_stage : P
    .stage) (p_memc : P .memc) (p_evr : P .evr) (p_trust : P .trust) (h : Keeps P r s) : KeepsO P r (execBr b0 b1 b2 b3 s) := by
  unfold execBr
  refine keeps_instr p_free p_regs p_acc p_mem p_reach p_chan p_deep p_servo p_zone p_host p_stage p_memc p_evr p_trust ?_ ?_
  · exact h
  · intro y1
    split
    · exact (keeps_complete p_free p_regs p_acc p_mem p_reach p_chan p_deep p_servo p_zone p_host p_stage p_memc p_evr p_trust h)
    · extract_lets +onlyGivenNames x2
      clear_value x2
      exact (Keeps.ite (keeps_trapSlot p_free p_regs p_acc p_mem p_reach p_chan p_deep p_servo p_zone p_host p_stage p_memc p_evr p_trust h)
          (keeps_jump p_free p_regs p_acc p_mem p_reach p_chan p_deep p_servo p_zone p_host p_stage p_memc p_evr p_trust h))

/-- `execBuf` keeps. -/
theorem keeps_execBuf {P : Part → Prop} {r s : State} {b0 : Fin 4} {b1 : Fin 4} {b2 : Fin 16} {b3 : Bool} (p_free : P .free) (p_regs : P .regs) (p_acc : P .acc) (p_mem : P
    .mem) (p_reach : P .reach) (p_chan : P .chan) (p_deep : P .deep) (p_servo : P .servo) (p_zone : P .zone) (p_host : P .host) (p_stage : P .stage)
    (p_memc : P .memc) (p_evr : P .evr) (p_trust : P .trust) (h : Keeps P r s) : KeepsO P r (execBuf b0 b1 b2 b3 s) := by
  unfold execBuf
  refine keeps_instr p_free p_regs p_acc p_mem p_reach p_chan p_deep p_servo p_zone p_host p_stage p_memc p_evr p_trust ?_ ?_
  · exact h
  · intro y1
    extract_lets +onlyGivenNames x2
    clear_value x2
    extract_lets +onlyGivenNames x3
    clear_value x3
    split
    · exact (keeps_complete p_free p_regs p_acc p_mem p_reach p_chan p_deep p_servo p_zone p_host p_stage p_memc p_evr p_trust h)
    · extract_lets +onlyGivenNames x4
      have h5 : Keeps P r x4 := (Keeps.ite (keeps_updSlot p_reach h) h)
      clear_value x4
      exact (keeps_complete p_free p_regs p_acc p_mem p_reach p_chan p_deep p_servo p_zone p_host p_stage p_memc p_evr p_trust h5)

/-- `execCall` keeps. -/
theorem keeps_execCall {P : Part → Prop} {r s : State} {b0 : Fin 4} {b1 : Fin 4} {b2 : BitVec 26} (p_free : P .free) (p_regs : P .regs) (p_acc : P .acc) (p_mem : P .mem)
    (p_reach : P .reach) (p_chan : P .chan) (p_deep : P .deep) (p_servo : P .servo) (p_zone : P .zone) (p_host : P .host) (p_stage : P .stage)
    (p_memc : P .memc) (p_evr : P .evr) (p_trust : P .trust) (h : Keeps P r s) : KeepsO P r (execCall b0 b1 b2 s) := by
  unfold execCall
  refine keeps_instr p_free p_regs p_acc p_mem p_reach p_chan p_deep p_servo p_zone p_host p_stage p_memc p_evr p_trust ?_ ?_
  · exact h
  · intro y1
    extract_lets +onlyGivenNames x2
    clear_value x2
    exact (Keeps.ite (keeps_trapSlot p_free p_regs p_acc p_mem p_reach p_chan p_deep p_servo p_zone p_host p_stage p_memc p_evr p_trust h) (Keeps.ite
        (keeps_trapSlot p_free p_regs p_acc p_mem p_reach p_chan p_deep p_servo p_zone p_host p_stage p_memc p_evr p_trust h) (keeps_jump p_free
        p_regs p_acc p_mem p_reach p_chan p_deep p_servo p_zone p_host p_stage p_memc p_evr p_trust h)))

/-- `execCkpt` keeps. -/
theorem keeps_execCkpt {P : Part → Prop} {r s : State} {b0 : Fin 4} {b1 : Fin 4} (p_free : P .free) (p_regs : P .regs) (p_acc : P .acc) (p_mem : P .mem) (p_reach : P
    .reach) (p_chan : P .chan) (p_deep : P .deep) (p_servo : P .servo) (p_zone : P .zone) (p_host : P .host) (p_stage : P .stage) (p_memc : P .memc)
    (p_evr : P .evr) (p_trust : P .trust) (h : Keeps P r s) : KeepsO P r (execCkpt b0 b1 s) := by
  unfold execCkpt
  refine keeps_instr p_free p_regs p_acc p_mem p_reach p_chan p_deep p_servo p_zone p_host p_stage p_memc p_evr p_trust ?_ ?_
  · exact h
  · intro y1
    exact (keeps_completeRecord p_free p_regs p_acc p_mem p_reach p_chan p_deep p_servo p_zone p_host p_stage p_memc p_evr p_trust h)

/-- `execCmp` keeps. -/
theorem keeps_execCmp {P : Part → Prop} {r s : State} {b0 : Fin 4} {b1 : Fin 4} {b2 : Fin 16} {b3 : Op2} (p_free : P .free) (p_regs : P .regs) (p_acc : P .acc) (p_mem : P
    .mem) (p_reach : P .reach) (p_chan : P .chan) (p_deep : P .deep) (p_servo : P .servo) (p_zone : P .zone) (p_host : P .host) (p_stage : P .stage)
    (p_memc : P .memc) (p_evr : P .evr) (p_trust : P .trust) (h : Keeps P r s) : KeepsO P r (execCmp b0 b1 b2 b3 s) := by
  unfold execCmp
  refine keeps_alu p_free p_regs p_acc p_mem p_reach p_chan p_deep p_servo p_zone p_host p_stage p_memc p_evr p_trust ?_
  exact h

/-- `execFence` keeps. -/
theorem keeps_execFence {P : Part → Prop} {r s : State} {b0 : Fin 4} {b1 : Fin 4} {b2 : Bool} {b3 : Bool} {b4 : Bool} (p_free : P .free) (p_regs : P .regs) (p_acc : P .acc)
    (p_mem : P .mem) (p_reach : P .reach) (p_chan : P .chan) (p_deep : P .deep) (p_servo : P .servo) (p_zone : P .zone) (p_host : P .host) (p_stage :
    P .stage) (p_memc : P .memc) (p_evr : P .evr) (p_trust : P .trust) (h : Keeps P r s) : KeepsO P r (execFence b0 b1 b2 b3 b4 s) := by
  unfold execFence
  refine keeps_instr p_free p_regs p_acc p_mem p_reach p_chan p_deep p_servo p_zone p_host p_stage p_memc p_evr p_trust ?_ ?_
  · exact h
  · intro y1
    extract_lets +onlyGivenNames x2
    clear_value x2
    extract_lets +onlyGivenNames x3
    have h4 : Keeps P r x3 := (keeps_issueSync p_reach (keeps_noSync p_reach h))
    clear_value x3
    exact (Keeps.ite (keeps_fenceDone p_free p_regs p_acc p_mem p_reach p_chan p_deep p_servo p_zone p_host p_stage p_memc p_evr p_trust h4)
        (keeps_enter p_free p_regs p_acc p_mem p_reach p_chan p_deep p_servo p_zone p_host p_stage p_memc p_evr p_trust h4))

/-- `execHalt` keeps. -/
theorem keeps_execHalt {P : Part → Prop} {r s : State} {b0 : Fin 4} {b1 : Fin 4} (p_free : P .free) (p_regs : P .regs) (p_acc : P .acc) (p_mem : P .mem) (p_reach : P
    .reach) (p_chan : P .chan) (p_deep : P .deep) (p_servo : P .servo) (p_zone : P .zone) (p_host : P .host) (p_stage : P .stage) (p_memc : P .memc)
    (p_evr : P .evr) (p_trust : P .trust) (h : Keeps P r s) : KeepsO P r (execHalt b0 b1 s) := by
  unfold execHalt
  refine keeps_instr p_free p_regs p_acc p_mem p_reach p_chan p_deep p_servo p_zone p_host p_stage p_memc p_evr p_trust ?_ ?_
  · exact h
  · intro y1
    exact (keeps_dispatch p_free p_regs p_acc p_mem p_reach p_chan p_deep p_servo p_zone p_host p_stage p_memc p_evr p_trust (keeps_setB p_regs
        (keeps_record p_regs p_acc p_mem p_reach p_stage p_memc p_evr (keeps_updSlot p_reach h))))

/-- `execHtr` keeps. -/
theorem keeps_execHtr {P : Part → Prop} {r s : State} {b0 : Fin 4} {b1 : Fin 4} {b2 : Fin 16} (p_free : P .free) (p_regs : P .regs) (p_acc : P .acc) (p_mem : P .mem)
    (p_reach : P .reach) (p_chan : P .chan) (p_deep : P .deep) (p_servo : P .servo) (p_zone : P .zone) (p_host : P .host) (p_stage : P .stage)
    (p_memc : P .memc) (p_evr : P .evr) (p_trust : P .trust) (h : Keeps P r s) : KeepsO P r (execHtr b0 b1 b2 s) := by
  unfold execHtr
  refine keeps_instr p_free p_regs p_acc p_mem p_reach p_chan p_deep p_servo p_zone p_host p_stage p_memc p_evr p_trust ?_ ?_
  · exact h
  · intro y1
    extract_lets +onlyGivenNames x2
    clear_value x2
    exact (keeps_enter p_free p_regs p_acc p_mem p_reach p_chan p_deep p_servo p_zone p_host p_stage p_memc p_evr p_trust (keeps_issued p_reach
        (keeps_armSend p_chan h)))

/-- `execIllegalInstruction` keeps. -/
theorem keeps_execIllegalInstruction {P : Part → Prop} {r s : State} {b0 : Fin 4} {b1 : Fin 4} {b2 : BitVec 32} (p_free : P .free) (p_regs : P .regs) (p_acc : P .acc) (p_mem : P .mem)
    (p_reach : P .reach) (p_chan : P .chan) (p_deep : P .deep) (p_servo : P .servo) (p_zone : P .zone) (p_host : P .host) (p_stage : P .stage)
    (p_memc : P .memc) (p_evr : P .evr) (p_trust : P .trust) (h : Keeps P r s) : KeepsO P r (execIllegalInstruction b0 b1 b2 s) := by
  unfold execIllegalInstruction
  split
  · exact KeepsO.of_next h
  · refine keeps_instr p_free p_regs p_acc p_mem p_reach p_chan p_deep p_servo p_zone p_host p_stage p_memc p_evr p_trust ?_ ?_
    · exact h
    · intro y1
      exact (keeps_trapSlot p_free p_regs p_acc p_mem p_reach p_chan p_deep p_servo p_zone p_host p_stage p_memc p_evr p_trust h)

/-- `execJoin` keeps. -/
theorem keeps_execJoin {P : Part → Prop} {r s : State} {b0 : Fin 4} {b1 : Fin 4} {b2 : BitVec 8} {b3 : Fin 4} {b4 : BitVec 16} (p_free : P .free) (p_regs : P .regs) (p_acc
    : P .acc) (p_mem : P .mem) (p_reach : P .reach) (p_chan : P .chan) (p_deep : P .deep) (p_servo : P .servo) (p_zone : P .zone) (p_host : P .host)
    (p_stage : P .stage) (p_memc : P .memc) (p_evr : P .evr) (p_trust : P .trust) (h : Keeps P r s) : KeepsO P r (execJoin b0 b1 b2 b3 b4 s) := by
  unfold execJoin
  refine keeps_instr p_free p_regs p_acc p_mem p_reach p_chan p_deep p_servo p_zone p_host p_stage p_memc p_evr p_trust ?_ ?_
  · exact h
  · intro y1
    exact (Keeps.ite (keeps_joinTake p_free p_regs p_acc p_mem p_reach p_chan p_deep p_servo p_zone p_host p_stage p_memc p_evr p_trust h) (Keeps.ite
        (keeps_complete p_free p_regs p_acc p_mem p_reach p_chan p_deep p_servo p_zone p_host p_stage p_memc p_evr p_trust h) (keeps_enter p_free
        p_regs p_acc p_mem p_reach p_chan p_deep p_servo p_zone p_host p_stage p_memc p_evr p_trust h)))

/-- `execLd` keeps. -/
theorem keeps_execLd {P : Part → Prop} {r s : State} {b0 : Fin 4} {b1 : Fin 4} {b2 : Fin 16} {b3 : Fin 16} {b4 : BitVec 18} (p_free : P .free) (p_regs : P .regs) (p_acc :
    P .acc) (p_mem : P .mem) (p_reach : P .reach) (p_chan : P .chan) (p_deep : P .deep) (p_servo : P .servo) (p_zone : P .zone) (p_host : P .host)
    (p_stage : P .stage) (p_memc : P .memc) (p_evr : P .evr) (p_trust : P .trust) (h : Keeps P r s) : KeepsO P r (execLd b0 b1 b2 b3 b4 s) := by
  unfold execLd
  refine keeps_instr p_free p_regs p_acc p_mem p_reach p_chan p_deep p_servo p_zone p_host p_stage p_memc p_evr p_trust ?_ ?_
  · exact h
  · intro y1
    extract_lets +onlyGivenNames x2
    clear_value x2
    split
    · exact (keeps_trapSlot p_free p_regs p_acc p_mem p_reach p_chan p_deep p_servo p_zone p_host p_stage p_memc p_evr p_trust h)
    · split
      · rename_i y3 y4 y5 y6
        have h7 : Keeps P r y5 := Keeps.fst y6 (keeps_load p_regs p_acc p_mem p_memc p_evr h)
        exact (keeps_engFault p_regs p_acc p_mem p_reach p_chan p_deep p_servo p_zone p_stage p_memc p_evr h7)
      · rename_i y8 y9 y10 y11 y12
        have h13 : Keeps P r y10 := Keeps.fst y12 (keeps_load p_regs p_acc p_mem p_memc p_evr h)
        exact (keeps_complete p_free p_regs p_acc p_mem p_reach p_chan p_deep p_servo p_zone p_host p_stage p_memc p_evr p_trust h13)

/-- `execLdh` keeps. -/
theorem keeps_execLdh {P : Part → Prop} {r s : State} {b0 : Fin 4} {b1 : Fin 4} {b2 : Fin 16} {b3 : Fin 4} {b4 : BitVec 16} (p_free : P .free) (p_regs : P .regs) (p_acc :
    P .acc) (p_mem : P .mem) (p_reach : P .reach) (p_chan : P .chan) (p_deep : P .deep) (p_servo : P .servo) (p_zone : P .zone) (p_host : P .host)
    (p_stage : P .stage) (p_memc : P .memc) (p_evr : P .evr) (p_trust : P .trust) (h : Keeps P r s) : KeepsO P r (execLdh b0 b1 b2 b3 b4 s) := by
  unfold execLdh
  refine keeps_instr p_free p_regs p_acc p_mem p_reach p_chan p_deep p_servo p_zone p_host p_stage p_memc p_evr p_trust ?_ ?_
  · exact h
  · intro y1
    exact (keeps_complete p_free p_regs p_acc p_mem p_reach p_chan p_deep p_servo p_zone p_host p_stage p_memc p_evr p_trust h)

/-- `execLdi` keeps. -/
theorem keeps_execLdi {P : Part → Prop} {r s : State} {b0 : Fin 4} {b1 : Fin 4} {b2 : Fin 16} {b3 : BitVec 22} (p_free : P .free) (p_regs : P .regs) (p_acc : P .acc)
    (p_mem : P .mem) (p_reach : P .reach) (p_chan : P .chan) (p_deep : P .deep) (p_servo : P .servo) (p_zone : P .zone) (p_host : P .host) (p_stage :
    P .stage) (p_memc : P .memc) (p_evr : P .evr) (p_trust : P .trust) (h : Keeps P r s) : KeepsO P r (execLdi b0 b1 b2 b3 s) := by
  unfold execLdi
  refine keeps_instr p_free p_regs p_acc p_mem p_reach p_chan p_deep p_servo p_zone p_host p_stage p_memc p_evr p_trust ?_ ?_
  · exact h
  · intro y1
    exact (keeps_complete p_free p_regs p_acc p_mem p_reach p_chan p_deep p_servo p_zone p_host p_stage p_memc p_evr p_trust h)

/-- `execMov` keeps. -/
theorem keeps_execMov {P : Part → Prop} {r s : State} {b0 : Fin 4} {b1 : Fin 4} {b2 : Fin 32} {b3 : Fin 32} (p_free : P .free) (p_regs : P .regs) (p_acc : P .acc) (p_mem :
    P .mem) (p_reach : P .reach) (p_chan : P .chan) (p_deep : P .deep) (p_servo : P .servo) (p_zone : P .zone) (p_host : P .host) (p_stage : P
    .stage) (p_memc : P .memc) (p_evr : P .evr) (p_trust : P .trust) (h : Keeps P r s) : KeepsO P r (execMov b0 b1 b2 b3 s) := by
  unfold execMov
  refine keeps_instr p_free p_regs p_acc p_mem p_reach p_chan p_deep p_servo p_zone p_host p_stage p_memc p_evr p_trust ?_ ?_
  · exact h
  · intro y1
    split
    · exact (keeps_trapSlot p_free p_regs p_acc p_mem p_reach p_chan p_deep p_servo p_zone p_host p_stage p_memc p_evr p_trust h)
    · exact (keeps_complete p_free p_regs p_acc p_mem p_reach p_chan p_deep p_servo p_zone p_host p_stage p_memc p_evr p_trust h)

/-- `execOr` keeps. -/
theorem keeps_execOr {P : Part → Prop} {r s : State} {b0 : Fin 4} {b1 : Fin 4} {b2 : Fin 16} {b3 : Fin 16} {b4 : Op2} (p_free : P .free) (p_regs : P .regs) (p_acc : P
    .acc) (p_mem : P .mem) (p_reach : P .reach) (p_chan : P .chan) (p_deep : P .deep) (p_servo : P .servo) (p_zone : P .zone) (p_host : P .host)
    (p_stage : P .stage) (p_memc : P .memc) (p_evr : P .evr) (p_trust : P .trust) (h : Keeps P r s) : KeepsO P r (execOr b0 b1 b2 b3 b4 s) := by
  unfold execOr
  refine keeps_alu p_free p_regs p_acc p_mem p_reach p_chan p_deep p_servo p_zone p_host p_stage p_memc p_evr p_trust ?_
  exact h

/-- `execPost` keeps. -/
theorem keeps_execPost {P : Part → Prop} {r s : State} {b0 : Fin 4} {b1 : Fin 4} {b2 : Fin 16} (p_free : P .free) (p_regs : P .regs) (p_acc : P .acc) (p_mem : P .mem)
    (p_reach : P .reach) (p_chan : P .chan) (p_deep : P .deep) (p_servo : P .servo) (p_zone : P .zone) (p_host : P .host) (p_stage : P .stage)
    (p_memc : P .memc) (p_evr : P .evr) (p_trust : P .trust) (h : Keeps P r s) : KeepsO P r (execPost b0 b1 b2 s) := by
  unfold execPost
  refine keeps_instr p_free p_regs p_acc p_mem p_reach p_chan p_deep p_servo p_zone p_host p_stage p_memc p_evr p_trust ?_ ?_
  · exact h
  · intro y1
    extract_lets +onlyGivenNames x2
    have h3 : Keeps P r x2 := (keeps_issueSync p_reach (keeps_noSync p_reach h))
    clear_value x2
    exact (Keeps.ite (keeps_post p_free p_regs p_acc p_mem p_reach p_chan p_deep p_servo p_zone p_host p_stage p_memc p_evr p_trust h3) (keeps_enter
        p_free p_regs p_acc p_mem p_reach p_chan p_deep p_servo p_zone p_host p_stage p_memc p_evr p_trust h3))

/-- `execRet` keeps. -/
theorem keeps_execRet {P : Part → Prop} {r s : State} {b0 : Fin 4} {b1 : Fin 4} (p_free : P .free) (p_regs : P .regs) (p_acc : P .acc) (p_mem : P .mem) (p_reach : P
    .reach) (p_chan : P .chan) (p_deep : P .deep) (p_servo : P .servo) (p_zone : P .zone) (p_host : P .host) (p_stage : P .stage) (p_memc : P .memc)
    (p_evr : P .evr) (p_trust : P .trust) (h : Keeps P r s) : KeepsO P r (execRet b0 b1 s) := by
  unfold execRet
  refine keeps_instr p_free p_regs p_acc p_mem p_reach p_chan p_deep p_servo p_zone p_host p_stage p_memc p_evr p_trust ?_ ?_
  · exact h
  · intro y1
    split
    · exact (keeps_trapSlot p_free p_regs p_acc p_mem p_reach p_chan p_deep p_servo p_zone p_host p_stage p_memc p_evr p_trust h)
    · exact (keeps_jump p_free p_regs p_acc p_mem p_reach p_chan p_deep p_servo p_zone p_host p_stage p_memc p_evr p_trust h)

/-- `execShl` keeps. -/
theorem keeps_execShl {P : Part → Prop} {r s : State} {b0 : Fin 4} {b1 : Fin 4} {b2 : Fin 16} {b3 : Fin 16} {b4 : Op2} (p_free : P .free) (p_regs : P .regs) (p_acc : P
    .acc) (p_mem : P .mem) (p_reach : P .reach) (p_chan : P .chan) (p_deep : P .deep) (p_servo : P .servo) (p_zone : P .zone) (p_host : P .host)
    (p_stage : P .stage) (p_memc : P .memc) (p_evr : P .evr) (p_trust : P .trust) (h : Keeps P r s) : KeepsO P r (execShl b0 b1 b2 b3 b4 s) := by
  unfold execShl
  refine keeps_alu p_free p_regs p_acc p_mem p_reach p_chan p_deep p_servo p_zone p_host p_stage p_memc p_evr p_trust ?_
  exact h

/-- `execShr` keeps. -/
theorem keeps_execShr {P : Part → Prop} {r s : State} {b0 : Fin 4} {b1 : Fin 4} {b2 : Fin 16} {b3 : Fin 16} {b4 : Op2} (p_free : P .free) (p_regs : P .regs) (p_acc : P
    .acc) (p_mem : P .mem) (p_reach : P .reach) (p_chan : P .chan) (p_deep : P .deep) (p_servo : P .servo) (p_zone : P .zone) (p_host : P .host)
    (p_stage : P .stage) (p_memc : P .memc) (p_evr : P .evr) (p_trust : P .trust) (h : Keeps P r s) : KeepsO P r (execShr b0 b1 b2 b3 b4 s) := by
  unfold execShr
  refine keeps_alu p_free p_regs p_acc p_mem p_reach p_chan p_deep p_servo p_zone p_host p_stage p_memc p_evr p_trust ?_
  exact h

/-- `execSig` keeps. -/
theorem keeps_execSig {P : Part → Prop} {r s : State} {b0 : Fin 4} {b1 : Fin 4} {b2 : Fin 5} {b3 : Fin 8} (p_free : P .free) (p_regs : P .regs) (p_acc : P .acc) (p_mem : P
    .mem) (p_reach : P .reach) (p_chan : P .chan) (p_deep : P .deep) (p_servo : P .servo) (p_zone : P .zone) (p_host : P .host) (p_stage : P .stage)
    (p_memc : P .memc) (p_evr : P .evr) (p_trust : P .trust) (h : Keeps P r s) : KeepsO P r (execSig b0 b1 b2 b3 s) := by
  unfold execSig
  refine keeps_instr p_free p_regs p_acc p_mem p_reach p_chan p_deep p_servo p_zone p_host p_stage p_memc p_evr p_trust ?_ ?_
  · exact h
  · intro y1
    exact (keeps_complete p_free p_regs p_acc p_mem p_reach p_chan p_deep p_servo p_zone p_host p_stage p_memc p_evr p_trust (keeps_signal p_regs h))

/-- `execSlotWake` keeps. -/
theorem keeps_execSlotWake {P : Part → Prop} {r s : State} {b0 : Fin 4} {b1 : Fin 4} (p_free : P .free) (p_regs : P .regs) (p_acc : P .acc) (p_mem : P .mem) (p_reach : P
    .reach) (p_chan : P .chan) (p_deep : P .deep) (p_servo : P .servo) (p_zone : P .zone) (p_host : P .host) (p_stage : P .stage) (p_memc : P .memc)
    (p_evr : P .evr) (p_trust : P .trust) (h : Keeps P r s) : KeepsO P r (execSlotWake b0 b1 s) := by
  unfold execSlotWake
  extract_lets +onlyGivenNames x1
  clear_value x1
  split
  · exact KeepsO.of_next h
  · split
    · split
      · exact KeepsO.of_next (keeps_complete p_free p_regs p_acc p_mem p_reach p_chan p_deep p_servo p_zone p_host p_stage p_memc p_evr p_trust h)
      · exact KeepsO.of_next h
    · split
      · exact KeepsO.of_next (keeps_joinTake p_free p_regs p_acc p_mem p_reach p_chan p_deep p_servo p_zone p_host p_stage p_memc p_evr p_trust h)
      · exact KeepsO.of_next h
    · extract_lets +onlyGivenNames x2
      have h3 : Keeps P r x2 := (keeps_issueSync p_reach h)
      clear_value x2
      split
      · exact KeepsO.of_next (keeps_fenceDone p_free p_regs p_acc p_mem p_reach p_chan p_deep p_servo p_zone p_host p_stage p_memc p_evr p_trust h3)
      · exact KeepsO.of_next h3
    · extract_lets +onlyGivenNames x4
      have h5 : Keeps P r x4 := (keeps_issueSync p_reach h)
      clear_value x4
      split
      · exact KeepsO.of_next (keeps_post p_free p_regs p_acc p_mem p_reach p_chan p_deep p_servo p_zone p_host p_stage p_memc p_evr p_trust h5)
      · exact KeepsO.of_next h5
    · exact KeepsO.of_next h

/-- `execSlu` keeps. -/
theorem keeps_execSlu {P : Part → Prop} {r s : State} {b0 : Fin 4} {b1 : Fin 4} {b2 : Fin 16} {b3 : Fin 32} (p_free : P .free) (p_regs : P .regs) (p_acc : P .acc) (p_mem :
    P .mem) (p_reach : P .reach) (p_chan : P .chan) (p_deep : P .deep) (p_servo : P .servo) (p_zone : P .zone) (p_host : P .host) (p_stage : P
    .stage) (p_memc : P .memc) (p_evr : P .evr) (p_sluice : P .sluice) (p_trust : P .trust) (h : Keeps P r s) : KeepsO P r (execSlu b0 b1 b2 b3 s) := by
  unfold execSlu
  refine keeps_instr p_free p_regs p_acc p_mem p_reach p_chan p_deep p_servo p_zone p_host p_stage p_memc p_evr p_trust ?_ ?_
  · exact h
  · intro y1
    split
    · exact (keeps_complete p_free p_regs p_acc p_mem p_reach p_chan p_deep p_servo p_zone p_host p_stage p_memc p_evr p_trust h)
    · split
      · rename_i y2 y3 y4 y5 y6
        have h7 : Keeps P r y4 := Keeps.fst y6 (keeps_sluProgram p_regs p_reach p_sluice h)
        exact (keeps_complete p_free p_regs p_acc p_mem p_reach p_chan p_deep p_servo p_zone p_host p_stage p_memc p_evr p_trust (Keeps.ite
            (keeps_issued p_reach h7) h7))

/-- `execSt` keeps. -/
theorem keeps_execSt {P : Part → Prop} {r s : State} {b0 : Fin 4} {b1 : Fin 4} {b2 : Fin 16} {b3 : Fin 16} {b4 : BitVec 18} (p_free : P .free) (p_regs : P .regs) (p_acc :
    P .acc) (p_mem : P .mem) (p_reach : P .reach) (p_chan : P .chan) (p_deep : P .deep) (p_servo : P .servo) (p_zone : P .zone) (p_host : P .host)
    (p_stage : P .stage) (p_memc : P .memc) (p_evr : P .evr) (p_trust : P .trust) (h : Keeps P r s) : KeepsO P r (execSt b0 b1 b2 b3 b4 s) := by
  unfold execSt
  refine keeps_instr p_free p_regs p_acc p_mem p_reach p_chan p_deep p_servo p_zone p_host p_stage p_memc p_evr p_trust ?_ ?_
  · exact h
  · intro y1
    extract_lets +onlyGivenNames x2
    clear_value x2
    exact (Keeps.ite (keeps_trapSlot p_free p_regs p_acc p_mem p_reach p_chan p_deep p_servo p_zone p_host p_stage p_memc p_evr p_trust h)
        (keeps_complete p_free p_regs p_acc p_mem p_reach p_chan p_deep p_servo p_zone p_host p_stage p_memc p_evr p_trust (keeps_stored p_regs p_acc
        p_mem p_stage p_memc p_evr h)))

/-- `execSub` keeps. -/
theorem keeps_execSub {P : Part → Prop} {r s : State} {b0 : Fin 4} {b1 : Fin 4} {b2 : Fin 16} {b3 : Fin 16} {b4 : Op2} (p_free : P .free) (p_regs : P .regs) (p_acc : P
    .acc) (p_mem : P .mem) (p_reach : P .reach) (p_chan : P .chan) (p_deep : P .deep) (p_servo : P .servo) (p_zone : P .zone) (p_host : P .host)
    (p_stage : P .stage) (p_memc : P .memc) (p_evr : P .evr) (p_trust : P .trust) (h : Keeps P r s) : KeepsO P r (execSub b0 b1 b2 b3 b4 s) := by
  unfold execSub
  refine keeps_alu p_free p_regs p_acc p_mem p_reach p_chan p_deep p_servo p_zone p_host p_stage p_memc p_evr p_trust ?_
  exact h

/-- `execTrap` keeps. -/
theorem keeps_execTrap {P : Part → Prop} {r s : State} {b0 : Fin 4} {b1 : Fin 4} {b2 : BitVec 16} (p_free : P .free) (p_regs : P .regs) (p_acc : P .acc) (p_mem : P .mem)
    (p_reach : P .reach) (p_chan : P .chan) (p_deep : P .deep) (p_servo : P .servo) (p_zone : P .zone) (p_host : P .host) (p_stage : P .stage)
    (p_memc : P .memc) (p_evr : P .evr) (p_trust : P .trust) (h : Keeps P r s) : KeepsO P r (execTrap b0 b1 b2 s) := by
  unfold execTrap
  refine keeps_instr p_free p_regs p_acc p_mem p_reach p_chan p_deep p_servo p_zone p_host p_stage p_memc p_evr p_trust ?_ ?_
  · exact h
  · intro y1
    exact (keeps_trapSlot p_free p_regs p_acc p_mem p_reach p_chan p_deep p_servo p_zone p_host p_stage p_memc p_evr p_trust h)

/-- `execWait` keeps. -/
theorem keeps_execWait {P : Part → Prop} {r s : State} {b0 : Fin 4} {b1 : Fin 4} {b2 : Fin 16} {b3 : Fin 4} {b4 : BitVec 20} (p_free : P .free) (p_regs : P .regs) (p_acc :
    P .acc) (p_mem : P .mem) (p_reach : P .reach) (p_chan : P .chan) (p_deep : P .deep) (p_servo : P .servo) (p_zone : P .zone) (p_host : P .host)
    (p_stage : P .stage) (p_memc : P .memc) (p_evr : P .evr) (p_trust : P .trust) (h : Keeps P r s) : KeepsO P r (execWait b0 b1 b2 b3 b4 s) := by
  unfold execWait
  refine keeps_instr p_free p_regs p_acc p_mem p_reach p_chan p_deep p_servo p_zone p_host p_stage p_memc p_evr p_trust ?_ ?_
  · exact h
  · intro y1
    extract_lets +onlyGivenNames x2
    clear_value x2
    exact (Keeps.ite (keeps_complete p_free p_regs p_acc p_mem p_reach p_chan p_deep p_servo p_zone p_host p_stage p_memc p_evr p_trust h) (Keeps.ite
        (keeps_complete p_free p_regs p_acc p_mem p_reach p_chan p_deep p_servo p_zone p_host p_stage p_memc p_evr p_trust h) (keeps_enter p_free
        p_regs p_acc p_mem p_reach p_chan p_deep p_servo p_zone p_host p_stage p_memc p_evr p_trust h)))

/-- `execWaitTimeout` keeps. -/
theorem keeps_execWaitTimeout {P : Part → Prop} {r s : State} {b0 : Fin 4} {b1 : Fin 4} (p_free : P .free) (p_regs : P .regs) (p_acc : P .acc) (p_mem : P .mem) (p_reach : P
    .reach) (p_chan : P .chan) (p_deep : P .deep) (p_servo : P .servo) (p_zone : P .zone) (p_host : P .host) (p_stage : P .stage) (p_memc : P .memc)
    (p_evr : P .evr) (p_trust : P .trust) (h : Keeps P r s) : KeepsO P r (execWaitTimeout b0 b1 s) := by
  unfold execWaitTimeout
  extract_lets +onlyGivenNames x1
  clear_value x1
  split
  · exact KeepsO.of_next h
  · split
    · split
      · exact KeepsO.of_next (keeps_complete p_free p_regs p_acc p_mem p_reach p_chan p_deep p_servo p_zone p_host p_stage p_memc p_evr p_trust h)
      · exact KeepsO.of_next h
    · split
      · exact KeepsO.of_next (keeps_complete p_free p_regs p_acc p_mem p_reach p_chan p_deep p_servo p_zone p_host p_stage p_memc p_evr p_trust h)
      · exact KeepsO.of_next h
    · exact KeepsO.of_next h

/-- `execXor` keeps. -/
theorem keeps_execXor {P : Part → Prop} {r s : State} {b0 : Fin 4} {b1 : Fin 4} {b2 : Fin 16} {b3 : Fin 16} {b4 : Op2} (p_free : P .free) (p_regs : P .regs) (p_acc : P
    .acc) (p_mem : P .mem) (p_reach : P .reach) (p_chan : P .chan) (p_deep : P .deep) (p_servo : P .servo) (p_zone : P .zone) (p_host : P .host)
    (p_stage : P .stage) (p_memc : P .memc) (p_evr : P .evr) (p_trust : P .trust) (h : Keeps P r s) : KeepsO P r (execXor b0 b1 b2 b3 b4 s) := by
  unfold execXor
  refine keeps_alu p_free p_regs p_acc p_mem p_reach p_chan p_deep p_servo p_zone p_host p_stage p_memc p_evr p_trust ?_
  exact h

end Sys2Proof.Machine
end

