-- ==== Sys2Proof/Laws/KeepsReachMedia.lean ====
section
/-! SUPPORT. What the operations of Machine/ReachMedia.lean keep. -/

namespace Sys2Proof.Machine

set_option Elab.async false

/-- `State.stopSlots` keeps. -/
theorem keeps_stopSlots {P : Part → Prop} {r s : State} {b1 : Fin 4} {b2 : List (Fin 4)} (p_free : P .free) (p_regs : P .regs) (p_acc : P .acc) (p_mem : P .mem) (p_reach : P
    .reach) (p_chan : P .chan) (p_deep : P .deep) (p_servo : P .servo) (p_zone : P .zone) (p_host : P .host) (p_stage : P .stage) (p_memc : P .memc)
    (p_evr : P .evr) (p_trust : P .trust) (h : Keeps P r s) : Keeps P r (State.stopSlots s b1 b2) := by
  induction b2 generalizing s b1
  · simp only [State.stopSlots]
    exact h
  · rename_i a1 a2 ih
    simp only [State.stopSlots]
    exact (ih (keeps_stopSlot p_free p_regs p_acc p_mem p_reach p_chan p_deep p_servo p_zone p_host p_stage p_memc p_evr p_trust h))

/-- `execRchEnable` keeps. -/
theorem keeps_execRchEnable {P : Part → Prop} {r s : State} {b0 : Fin 4} {b1 : Bool} (p_free : P .free) (p_regs : P .regs) (p_acc : P .acc) (p_mem : P .mem) (p_reach : P .reach)
    (p_chan : P .chan) (p_deep : P .deep) (p_servo : P .servo) (p_zone : P .zone) (p_host : P .host) (p_stage : P .stage) (p_memc : P .memc) (p_evr :
    P .evr) (p_trust : P .trust) (h : Keeps P r s) : KeepsO P r (execRchEnable b0 b1 s) := by
  unfold execRchEnable
  extract_lets +onlyGivenNames x1
  have h2 : Keeps P r x1 := (keeps_wr p_regs h)
  clear_value x1
  split
  · exact KeepsO.of_next (keeps_dispatch p_free p_regs p_acc p_mem p_reach p_chan p_deep p_servo p_zone p_host p_stage p_memc p_evr p_trust h2)
  · exact KeepsO.of_next (keeps_stopSlots p_free p_regs p_acc p_mem p_reach p_chan p_deep p_servo p_zone p_host p_stage p_memc p_evr p_trust h2)

/-- `execSignalsSet` keeps. -/
theorem keeps_execSignalsSet {P : Part → Prop} {r s : State} {b0 : Fin 4} {b1 : BitVec 8} (p_regs : P .regs) (h : Keeps P r s) : KeepsO P r (execSignalsSet b0 b1 s) := by
  unfold execSignalsSet
  exact KeepsO.of_next (keeps_setBits p_regs h)

/-- `State.append` keeps. -/
theorem keeps_append {P : Part → Prop} {r s : State} {b1 : Fin 4} {b2 : Fin 4} {b3 : ℕ} (p_regs : P .regs) (p_acc : P .acc) (p_mem : P .mem) (p_reach : P .reach) (p_stage
    : P .stage) (p_memc : P .memc) (p_evr : P .evr) (h : Keeps P r s) : Keeps P r (State.append s b1 b2 b3) := by
  unfold State.append
  extract_lets +onlyGivenNames x1
  clear_value x1
  extract_lets +onlyGivenNames x2
  clear_value x2
  extract_lets +onlyGivenNames x3
  have h4 : Keeps P r x3 := (keeps_updSlot p_reach h)
  clear_value x3
  extract_lets +onlyGivenNames x5
  clear_value x5
  refine keeps_wr p_regs ?_
  split
  · exact (keeps_record p_regs p_acc p_mem p_reach p_stage p_memc p_evr h4)
  · exact (keeps_recordAs p_regs p_acc p_mem p_reach p_stage p_memc p_evr h4)

/-- `execSlotAppend` keeps. -/
theorem keeps_execSlotAppend {P : Part → Prop} {r s : State} {b0 : Fin 4} {b1 : Fin 4} {b2 : BitVec 64} (p_regs : P .regs) (p_acc : P .acc) (p_mem : P .mem) (p_reach : P .reach)
    (p_stage : P .stage) (p_memc : P .memc) (p_evr : P .evr) (h : Keeps P r s) : KeepsO P r (execSlotAppend b0 b1 b2 s) := by
  unfold execSlotAppend
  extract_lets +onlyGivenNames x1
  clear_value x1
  extract_lets +onlyGivenNames x2
  split
  · refine KeepsO.of_next ?_
    unfold x2
    exact (keeps_wr p_regs (keeps_wr p_regs h))
  · split
    · refine KeepsO.of_next ?_
      unfold x2
      exact (keeps_wr p_regs (keeps_wr p_regs h))
    · exact KeepsO.of_next (keeps_append p_regs p_acc p_mem p_reach p_stage p_memc p_evr h)

/-- `execSlotKill` keeps. -/
theorem keeps_execSlotKill {P : Part → Prop} {r s : State} {b0 : Fin 4} {b1 : Fin 4} (p_free : P .free) (p_regs : P .regs) (p_acc : P .acc) (p_mem : P .mem) (p_reach : P
    .reach) (p_chan : P .chan) (p_deep : P .deep) (p_servo : P .servo) (p_zone : P .zone) (p_host : P .host) (p_stage : P .stage) (p_memc : P .memc)
    (p_evr : P .evr) (p_trust : P .trust) (h : Keeps P r s) : KeepsO P r (execSlotKill b0 b1 s) := by
  unfold execSlotKill
  exact KeepsO.of_next (keeps_dispatch p_free p_regs p_acc p_mem p_reach p_chan p_deep p_servo p_zone p_host p_stage p_memc p_evr p_trust (keeps_kill
      p_regs p_acc p_mem p_reach p_chan p_deep p_servo p_zone p_host p_stage p_memc p_evr p_trust h))

/-- `execSlotRestart` keeps. -/
theorem keeps_execSlotRestart {P : Part → Prop} {r s : State} {b0 : Fin 4} {b1 : Fin 4} (p_free : P .free) (p_regs : P .regs) (p_acc : P .acc) (p_mem : P .mem) (p_reach : P
    .reach) (p_chan : P .chan) (p_deep : P .deep) (p_servo : P .servo) (p_zone : P .zone) (p_host : P .host) (p_stage : P .stage) (p_memc : P .memc)
    (p_evr : P .evr) (p_trust : P .trust) (h : Keeps P r s) : KeepsO P r (execSlotRestart b0 b1 s) := by
  unfold execSlotRestart
  split
  · exact KeepsO.of_next h
  · exact KeepsO.of_next (keeps_dispatch p_free p_regs p_acc p_mem p_reach p_chan p_deep p_servo p_zone p_host p_stage p_memc p_evr p_trust
      (keeps_updSlot p_reach (keeps_interrupt p_regs p_acc p_mem p_reach p_chan p_deep p_servo p_zone p_stage p_memc p_evr h)))

/-- `execSlotResume` keeps. -/
theorem keeps_execSlotResume {P : Part → Prop} {r s : State} {b0 : Fin 4} {b1 : Fin 4} (p_free : P .free) (p_regs : P .regs) (p_acc : P .acc) (p_mem : P .mem) (p_reach : P
    .reach) (p_chan : P .chan) (p_deep : P .deep) (p_servo : P .servo) (p_zone : P .zone) (p_host : P .host) (p_stage : P .stage) (p_memc : P .memc)
    (p_evr : P .evr) (p_trust : P .trust) (h : Keeps P r s) : KeepsO P r (execSlotResume b0 b1 s) := by
  unfold execSlotResume
  extract_lets +onlyGivenNames x1
  clear_value x1
  split
  · exact KeepsO.of_next (keeps_dispatch p_free p_regs p_acc p_mem p_reach p_chan p_deep p_servo p_zone p_host p_stage p_memc p_evr p_trust
      (keeps_updSlot p_reach h))
  · exact KeepsO.of_next h

/-- `State.clearFailures` keeps. -/
theorem keeps_clearFailures {P : Part → Prop} {r s : State} {b1 : Fin 4} {b2 : Fin 4} (p_regs : P .regs) (p_acc : P .acc) (p_mem : P .mem) (p_stage : P .stage) (p_memc : P
    .memc) (p_evr : P .evr) (h : Keeps P r s) : Keeps P r (State.clearFailures s b1 b2) := by
  unfold State.clearFailures
  exact (keeps_stored p_regs p_acc p_mem p_stage p_memc p_evr h)

/-- `execSlotStart` keeps. -/
theorem keeps_execSlotStart {P : Part → Prop} {r s : State} {b0 : Fin 4} {b1 : Fin 4} (p_free : P .free) (p_regs : P .regs) (p_acc : P .acc) (p_mem : P .mem) (p_reach : P
    .reach) (p_chan : P .chan) (p_deep : P .deep) (p_servo : P .servo) (p_zone : P .zone) (p_host : P .host) (p_stage : P .stage) (p_memc : P .memc)
    (p_evr : P .evr) (p_trust : P .trust) (h : Keeps P r s) : KeepsO P r (execSlotStart b0 b1 s) := by
  unfold execSlotStart
  extract_lets +onlyGivenNames x1
  clear_value x1
  split
  · extract_lets +onlyGivenNames x2
    clear_value x2
    extract_lets +onlyGivenNames x3
    clear_value x3
    extract_lets +onlyGivenNames x4
    have h5 : Keeps P r x4 := (keeps_updSlot p_reach (keeps_clearFailures p_regs p_acc p_mem p_stage p_memc p_evr h))
    clear_value x4
    exact KeepsO.of_next (keeps_dispatch p_free p_regs p_acc p_mem p_reach p_chan p_deep p_servo p_zone p_host p_stage p_memc p_evr p_trust
        (keeps_record p_regs p_acc p_mem p_reach p_stage p_memc p_evr h5))
  · exact KeepsO.of_next h

/-- `execSlotStop` keeps. -/
theorem keeps_execSlotStop {P : Part → Prop} {r s : State} {b0 : Fin 4} {b1 : Fin 4} (p_free : P .free) (p_regs : P .regs) (p_acc : P .acc) (p_mem : P .mem) (p_reach : P
    .reach) (p_chan : P .chan) (p_deep : P .deep) (p_servo : P .servo) (p_zone : P .zone) (p_host : P .host) (p_stage : P .stage) (p_memc : P .memc)
    (p_evr : P .evr) (p_trust : P .trust) (h : Keeps P r s) : KeepsO P r (execSlotStop b0 b1 s) := by
  unfold execSlotStop
  exact KeepsO.of_next (keeps_stopSlot p_free p_regs p_acc p_mem p_reach p_chan p_deep p_servo p_zone p_host p_stage p_memc p_evr p_trust h)

/-- `State.showDegraded` keeps. -/
theorem keeps_showDegraded {P : Part → Prop} {r s : State} {b1 : UnitRef} (p_regs : P .regs) (h : Keeps P r s) : Keeps P r (State.showDegraded s b1) := by
  unfold State.showDegraded
  split
  · exact (keeps_wr p_regs h)
  · exact (Keeps.ite (keeps_wr p_regs (keeps_wr p_regs h)) (keeps_wr p_regs h))
  · exact h

/-- `State.toWork` keeps. -/
theorem keeps_toWork {P : Part → Prop} {r s : State} {b1 : UnitRef} (p_regs : P .regs) (h : Keeps P r s) : Keeps P r (State.toWork s b1) := by
  unfold State.toWork
  exact (keeps_showDegraded p_regs (keeps_setUnit p_regs h))

/-- `State.engQuiesce` keeps. -/
theorem keeps_engQuiesce {P : Part → Prop} {r s : State} {b1 : Fin 4} {b2 : Bool} (p_free : P .free) (p_regs : P .regs) (p_acc : P .acc) (p_mem : P .mem) (p_reach : P .reach)
    (p_chan : P .chan) (p_deep : P .deep) (p_servo : P .servo) (p_zone : P .zone) (p_host : P .host) (p_stage : P .stage) (p_memc : P .memc) (p_evr :
    P .evr) (p_trust : P .trust) (h : Keeps P r s) : Keeps P r (State.engQuiesce s b1 b2) := by
  unfold State.engQuiesce
  extract_lets +onlyGivenNames x1
  clear_value x1
  extract_lets +onlyGivenNames x2
  have h3 : Keeps P r x2 := (keeps_wr p_regs h)
  clear_value x2
  extract_lets +onlyGivenNames x4
  have h5 : Keeps P r x4 := (keeps_updEng p_reach h3)
  clear_value x4
  exact (Keeps.ite (Keeps.ite (keeps_dispatch p_free p_regs p_acc p_mem p_reach p_chan p_deep p_servo p_zone p_host p_stage p_memc p_evr p_trust
      (keeps_stopSlots p_free p_regs p_acc p_mem p_reach p_chan p_deep p_servo p_zone p_host p_stage p_memc p_evr p_trust (keeps_setUnit p_regs h5)))
      h5) (Keeps.ite (keeps_dispatch p_free p_regs p_acc p_mem p_reach p_chan p_deep p_servo p_zone p_host p_stage p_memc p_evr p_trust (keeps_toWork
      p_regs h5)) h5))

/-- `State.beginMedia` keeps. -/
theorem keeps_beginMedia {P : Part → Prop} {r s : State} {b1 : Fin 4} {b2 : Fin 4} {b3 : MediaKind} {b4 : State → State × Option ℕ} {b5 : Media → Media} (p_free : P .free)
    (p_regs : P .regs) (p_acc : P .acc) (p_mem : P .mem) (p_reach : P .reach) (p_chan : P .chan) (p_deep : P .deep) (p_servo : P .servo) (p_zone : P
    .zone) (p_host : P .host) (p_stage : P .stage) (p_memc : P .memc) (p_evr : P .evr) (p_trust : P .trust) (h : Keeps P r s) (hb1 : (∀ t, Keeps P r
    t → Keeps P r (b4 t).1)) : Keeps P r (State.beginMedia s b1 b2 b3 b4 b5) := by
  unfold State.beginMedia
  extract_lets +onlyGivenNames x1
  have h2 : Keeps P r x1 := (keeps_record p_regs p_acc p_mem p_reach p_stage p_memc p_evr h)
  clear_value x1
  extract_lets +onlyGivenNames x3
  clear_value x3
  split
  · exact (keeps_completeRecord p_free p_regs p_acc p_mem p_reach p_chan p_deep p_servo p_zone p_host p_stage p_memc p_evr p_trust h2)
  · split
    · rename_i y4 y5 y6 y7 y8 y9
      have h10 : Keeps P r y7 := Keeps.fst y9 (hb1 _ h2)
      exact (keeps_completeRecord p_free p_regs p_acc p_mem p_reach p_chan p_deep p_servo p_zone p_host p_stage p_memc p_evr p_trust h10)
    · rename_i y11 y12 y13 y14 y15
      have h16 : Keeps P r y14 := Keeps.fst y15 (hb1 _ h2)
      extract_lets +onlyGivenNames x17
      clear_value x17
      exact (keeps_position p_free p_regs p_acc p_reach p_chan p_servo (keeps_freshSeek p_servo (keeps_enter p_free p_regs p_acc p_mem p_reach p_chan
          p_deep p_servo p_zone p_host p_stage p_memc p_evr p_trust h16)))

/-- `State.latchCheck` keeps. -/
theorem keeps_latchCheck {P : Part → Prop} {r s : State} {b1 : Fin 4} {b2 : ℕ} {b3 : ℕ} {b4 : Bool} {b5 : Bool} (p_regs : P .regs) (p_acc : P .acc) (p_mem : P .mem) (p_reach
    : P .reach) (p_chan : P .chan) (p_deep : P .deep) (p_servo : P .servo) (p_zone : P .zone) (p_stage : P .stage) (p_memc : P .memc) (p_evr : P
    .evr) (h : Keeps P r s) : Keeps P r (State.latchCheck s b1 b2 b3 b4 b5) := by
  unfold State.latchCheck
  extract_lets +onlyGivenNames x1
  clear_value x1
  extract_lets +onlyGivenNames x2
  have h3 : Keeps P r x2 := (keeps_wrs p_regs (keeps_updEng p_reach (keeps_interruptActive p_regs p_acc p_mem p_reach p_chan p_deep p_servo p_zone
      p_stage p_memc p_evr h)))
  clear_value x2
  exact (keeps_raise p_evr (keeps_count p_regs p_acc h3))

/-- `State.killSlots` keeps. -/
theorem keeps_killSlots {P : Part → Prop} {r s : State} {b1 : Fin 4} {b2 : List (Fin 4)} (p_regs : P .regs) (p_acc : P .acc) (p_mem : P .mem) (p_reach : P .reach) (p_chan :
    P .chan) (p_deep : P .deep) (p_servo : P .servo) (p_zone : P .zone) (p_host : P .host) (p_stage : P .stage) (p_memc : P .memc) (p_evr : P .evr)
    (p_trust : P .trust) (h : Keeps P r s) : Keeps P r (State.killSlots s b1 b2) := by
  unfold State.killSlots
  refine Keeps.foldl ?_ fun y1 y2 h3 => ?_
  · exact h
  · exact (keeps_kill p_regs p_acc p_mem p_reach p_chan p_deep p_servo p_zone p_host p_stage p_memc p_evr p_trust h3)

/-- `State.strike` keeps. -/
theorem keeps_strike {P : Part → Prop} {r s : State} {b1 : Fin 4} {b2 : ℕ} (p_regs : P .regs) (p_acc : P .acc) (p_mem : P .mem) (p_reach : P .reach) (p_chan : P .chan)
    (p_deep : P .deep) (p_servo : P .servo) (p_zone : P .zone) (p_host : P .host) (p_stage : P .stage) (p_memc : P .memc) (p_evr : P .evr) (p_trust :
    P .trust) (h : Keeps P r s) : Keeps P r (State.strike s b1 b2) := by
  unfold State.strike
  extract_lets +onlyGivenNames x1
  clear_value x1
  extract_lets +onlyGivenNames x2
  clear_value x2
  extract_lets +onlyGivenNames x3
  clear_value x3
  extract_lets +onlyGivenNames x4
  clear_value x4
  extract_lets +onlyGivenNames x5
  have h6 : Keeps P r x5 := (keeps_updEng p_reach h)
  clear_value x5
  exact (Keeps.ite (keeps_killSlots p_regs p_acc p_mem p_reach p_chan p_deep p_servo p_zone p_host p_stage p_memc p_evr p_trust (keeps_raise p_evr
      (keeps_setUnit p_regs (keeps_wr p_regs h6)))) (Keeps.ite (keeps_raise p_evr (keeps_wr p_regs (keeps_setUnit p_regs (keeps_wr p_regs (keeps_wr
      p_regs (keeps_wr p_regs h6)))))) h6))

/-- `State.motion` keeps. -/
theorem keeps_motion {P : Part → Prop} {r s : State} {b1 : Fin 4} {b2 : Fin 4} {b3 : Op} (p_free : P .free) (p_regs : P .regs) (p_acc : P .acc) (p_mem : P .mem) (p_reach
    : P .reach) (p_chan : P .chan) (p_deep : P .deep) (p_servo : P .servo) (p_zone : P .zone) (p_host : P .host) (p_stage : P .stage) (p_memc : P
    .memc) (p_evr : P .evr) (p_trust : P .trust) (h : Keeps P r s) : Keeps P r (State.motion s b1 b2 b3) := by
  unfold State.motion
  extract_lets +onlyGivenNames x1
  clear_value x1
  exact (Keeps.ite (keeps_complete p_free p_regs p_acc p_mem p_reach p_chan p_deep p_servo p_zone p_host p_stage p_memc p_evr p_trust h) (keeps_goTo
      p_free p_regs p_acc p_chan p_servo (keeps_freshSeek p_servo (keeps_enter p_free p_regs p_acc p_mem p_reach p_chan p_deep p_servo p_zone p_host
      p_stage p_memc p_evr p_trust h))))

/-- `State.wrsRun` keeps. -/
theorem keeps_wrsRun {P : Part → Prop} {r s : State} {b1 : Fin 4} {b2 : Fin 4} (p_regs : P .regs) (p_acc : P .acc) (p_mem : P .mem) (p_zone : P .zone) (p_stage : P
    .stage) (p_memc : P .memc) (p_evr : P .evr) (h : Keeps P r s) : Keeps P r (State.wrsRun s b1 b2) := by
  unfold State.wrsRun
  split
  · exact (Keeps.ite (keeps_runBegin p_regs p_acc p_mem p_zone p_stage p_memc p_evr h) h)
  · exact h

/-- `execFollow` keeps. -/
theorem keeps_execFollow {P : Part → Prop} {r s : State} {b0 : Fin 4} {b1 : Fin 4} {b2 : BitVec 8} (p_free : P .free) (p_regs : P .regs) (p_acc : P .acc) (p_mem : P .mem)
    (p_reach : P .reach) (p_chan : P .chan) (p_deep : P .deep) (p_servo : P .servo) (p_zone : P .zone) (p_host : P .host) (p_stage : P .stage)
    (p_memc : P .memc) (p_evr : P .evr) (p_trust : P .trust) (h : Keeps P r s) : KeepsO P r (execFollow b0 b1 b2 s) := by
  unfold execFollow
  refine keeps_instrMove p_free p_regs p_acc p_mem p_reach p_chan p_deep p_servo p_zone p_host p_stage p_memc p_evr p_trust ?_ ?_
  · exact h
  · intro y1
    extract_lets +onlyGivenNames x2
    clear_value x2
    extract_lets +onlyGivenNames x3
    clear_value x3
    extract_lets +onlyGivenNames x4
    clear_value x4
    exact (Keeps.ite (keeps_trapSlot p_free p_regs p_acc p_mem p_reach p_chan p_deep p_servo p_zone p_host p_stage p_memc p_evr p_trust h) (Keeps.ite
        (keeps_complete p_free p_regs p_acc p_mem p_reach p_chan p_deep p_servo p_zone p_host p_stage p_memc p_evr p_trust h) (keeps_motion p_free
        p_regs p_acc p_mem p_reach p_chan p_deep p_servo p_zone p_host p_stage p_memc p_evr p_trust (keeps_updArch p_reach h))))

/-- `execHead` keeps. -/
theorem keeps_execHead {P : Part → Prop} {r s : State} {b0 : Fin 4} {b1 : Fin 4} {b2 : Op11} (p_free : P .free) (p_regs : P .regs) (p_acc : P .acc) (p_mem : P .mem)
    (p_reach : P .reach) (p_chan : P .chan) (p_deep : P .deep) (p_servo : P .servo) (p_zone : P .zone) (p_host : P .host) (p_stage : P .stage)
    (p_memc : P .memc) (p_evr : P .evr) (p_trust : P .trust) (h : Keeps P r s) : KeepsO P r (execHead b0 b1 b2 s) := by
  unfold execHead
  refine keeps_instrMove p_free p_regs p_acc p_mem p_reach p_chan p_deep p_servo p_zone p_host p_stage p_memc p_evr p_trust ?_ ?_
  · exact h
  · intro y1
    extract_lets +onlyGivenNames x2
    clear_value x2
    extract_lets +onlyGivenNames x3
    clear_value x3
    extract_lets +onlyGivenNames x4
    have h5 : Keeps P r x4 := (keeps_updArch p_reach h)
    clear_value x4
    exact (Keeps.ite (keeps_complete p_free p_regs p_acc p_mem p_reach p_chan p_deep p_servo p_zone p_host p_stage p_memc p_evr p_trust h5)
        (keeps_findFirst p_servo (keeps_freshSeek p_servo (keeps_sendSelect p_chan (keeps_enter p_free p_regs p_acc p_mem p_reach p_chan p_deep
        p_servo p_zone p_host p_stage p_memc p_evr p_trust (keeps_clearBlk p_regs p_servo h5))))))

/-- `execOffset` keeps. -/
theorem keeps_execOffset {P : Part → Prop} {r s : State} {b0 : Fin 4} {b1 : Fin 4} {b2 : Op11} (p_free : P .free) (p_regs : P .regs) (p_acc : P .acc) (p_mem : P .mem)
    (p_reach : P .reach) (p_chan : P .chan) (p_deep : P .deep) (p_servo : P .servo) (p_zone : P .zone) (p_host : P .host) (p_stage : P .stage)
    (p_memc : P .memc) (p_evr : P .evr) (p_trust : P .trust) (h : Keeps P r s) : KeepsO P r (execOffset b0 b1 b2 s) := by
  unfold execOffset
  refine keeps_instr p_free p_regs p_acc p_mem p_reach p_chan p_deep p_servo p_zone p_host p_stage p_memc p_evr p_trust ?_ ?_
  · exact h
  · intro y1
    extract_lets +onlyGivenNames x2
    clear_value x2
    exact (Keeps.ite (keeps_trapSlot p_free p_regs p_acc p_mem p_reach p_chan p_deep p_servo p_zone p_host p_stage p_memc p_evr p_trust h)
        (keeps_complete p_free p_regs p_acc p_mem p_reach p_chan p_deep p_servo p_zone p_host p_stage p_memc p_evr p_trust (keeps_dropOnt p_regs
        p_servo h)))

/-- `execRaw` keeps. -/
theorem keeps_execRaw {P : Part → Prop} {r s : State} {b0 : Fin 4} {b1 : Fin 4} {b2 : Fin 16} {b3 : Fin 32} (p_free : P .free) (p_regs : P .regs) (p_acc : P .acc) (p_mem :
    P .mem) (p_reach : P .reach) (p_chan : P .chan) (p_deep : P .deep) (p_servo : P .servo) (p_zone : P .zone) (p_host : P .host) (p_stage : P
    .stage) (p_memc : P .memc) (p_evr : P .evr) (p_trust : P .trust) (h : Keeps P r s) : KeepsO P r (execRaw b0 b1 b2 b3 s) := by
  unfold execRaw
  refine keeps_instrMove p_free p_regs p_acc p_mem p_reach p_chan p_deep p_servo p_zone p_host p_stage p_memc p_evr p_trust ?_ ?_
  · exact h
  · intro y1
    extract_lets +onlyGivenNames x2
    refine keeps_beginMedia p_free p_regs p_acc p_mem p_reach p_chan p_deep p_servo p_zone p_host p_stage p_memc p_evr p_trust ?_ ?_
    · exact h
    · intro y3 y4
      refine Keeps.fst_mk ?_
      exact y4

/-- `execRds` keeps. -/
theorem keeps_execRds {P : Part → Prop} {r s : State} {b0 : Fin 4} {b1 : Fin 4} {b2 : Fin 8} {b3 : Fin 4} {b4 : Fin 8} {b5 : Bool} {b6 : Bool} {b7 : Bool} {b8 : Bool}
    (p_free : P .free) (p_regs : P .regs) (p_acc : P .acc) (p_mem : P .mem) (p_reach : P .reach) (p_chan : P .chan) (p_deep : P .deep) (p_servo : P
    .servo) (p_zone : P .zone) (p_host : P .host) (p_stage : P .stage) (p_memc : P .memc) (p_evr : P .evr) (p_trust : P .trust) (h : Keeps P r s) :
    KeepsO P r (execRds b0 b1 b2 b3 b4 b5 b6 b7 b8 s) := by
  unfold execRds
  refine keeps_instrMove p_free p_regs p_acc p_mem p_reach p_chan p_deep p_servo p_zone p_host p_stage p_memc p_evr p_trust ?_ ?_
  · exact h
  · intro y1
    refine keeps_beginMedia p_free p_regs p_acc p_mem p_reach p_chan p_deep p_servo p_zone p_host p_stage p_memc p_evr p_trust ?_ ?_
    · exact h
    · intro y2 y3
      refine Keeps.fst_mk ?_
      exact y3

/-- `execScan` keeps. -/
theorem keeps_execScan {P : Part → Prop} {r s : State} {b0 : Fin 4} {b1 : Fin 4} {b2 : Fin 16} {b3 : Fin 4} (p_free : P .free) (p_regs : P .regs) (p_acc : P .acc) (p_mem :
    P .mem) (p_reach : P .reach) (p_chan : P .chan) (p_deep : P .deep) (p_servo : P .servo) (p_zone : P .zone) (p_host : P .host) (p_stage : P
    .stage) (p_memc : P .memc) (p_evr : P .evr) (p_trust : P .trust) (h : Keeps P r s) : KeepsO P r (execScan b0 b1 b2 b3 s) := by
  unfold execScan
  refine keeps_instrMove p_free p_regs p_acc p_mem p_reach p_chan p_deep p_servo p_zone p_host p_stage p_memc p_evr p_trust ?_ ?_
  · exact h
  · intro y1
    extract_lets +onlyGivenNames x2
    clear_value x2
    split
    · split
      · exact (keeps_trapSlot p_free p_regs p_acc p_mem p_reach p_chan p_deep p_servo p_zone p_host p_stage p_memc p_evr p_trust h)
      · refine keeps_beginMedia p_free p_regs p_acc p_mem p_reach p_chan p_deep p_servo p_zone p_host p_stage p_memc p_evr p_trust ?_ ?_
        · exact h
        · intro y3 y4
          refine Keeps.fst_mk ?_
          exact y4
    · refine keeps_beginMedia p_free p_regs p_acc p_mem p_reach p_chan p_deep p_servo p_zone p_host p_stage p_memc p_evr p_trust ?_ ?_
      · exact h
      · intro y5 y6
        refine Keeps.fst_mk ?_
        exact y6

/-- `execSeek` keeps. -/
theorem keeps_execSeek {P : Part → Prop} {r s : State} {b0 : Fin 4} {b1 : Fin 4} {b2 : Fin 16} (p_free : P .free) (p_regs : P .regs) (p_acc : P .acc) (p_mem : P .mem)
    (p_reach : P .reach) (p_chan : P .chan) (p_deep : P .deep) (p_servo : P .servo) (p_zone : P .zone) (p_host : P .host) (p_stage : P .stage)
    (p_memc : P .memc) (p_evr : P .evr) (p_trust : P .trust) (h : Keeps P r s) : KeepsO P r (execSeek b0 b1 b2 s) := by
  unfold execSeek
  refine keeps_instrMove p_free p_regs p_acc p_mem p_reach p_chan p_deep p_servo p_zone p_host p_stage p_memc p_evr p_trust ?_ ?_
  · exact h
  · intro y1
    exact (keeps_motion p_free p_regs p_acc p_mem p_reach p_chan p_deep p_servo p_zone p_host p_stage p_memc p_evr p_trust (keeps_updArch p_reach h))

/-- `execSettle` keeps. -/
theorem keeps_execSettle {P : Part → Prop} {r s : State} {b0 : Fin 4} {b1 : Fin 4} {b2 : Fin 4} {b3 : BitVec 20} (p_free : P .free) (p_regs : P .regs) (p_acc : P .acc) (p_mem
    : P .mem) (p_reach : P .reach) (p_chan : P .chan) (p_deep : P .deep) (p_servo : P .servo) (p_zone : P .zone) (p_host : P .host) (p_stage : P
    .stage) (p_memc : P .memc) (p_evr : P .evr) (p_trust : P .trust) (h : Keeps P r s) : KeepsO P r (execSettle b0 b1 b2 b3 s) := by
  unfold execSettle
  refine keeps_instrMove p_free p_regs p_acc p_mem p_reach p_chan p_deep p_servo p_zone p_host p_stage p_memc p_evr p_trust ?_ ?_
  · exact h
  · intro y1
    split
    · exact (keeps_complete p_free p_regs p_acc p_mem p_reach p_chan p_deep p_servo p_zone p_host p_stage p_memc p_evr p_trust h)
    · extract_lets +onlyGivenNames x2
      have h3 : Keeps P r x2 := (keeps_nameSet p_servo h)
      clear_value x2
      exact (Keeps.ite (keeps_complete p_free p_regs p_acc p_mem p_reach p_chan p_deep p_servo p_zone p_host p_stage p_memc p_evr p_trust h3)
          (keeps_enter p_free p_regs p_acc p_mem p_reach p_chan p_deep p_servo p_zone p_host p_stage p_memc p_evr p_trust h3))

/-- `execSkipto` keeps. -/
theorem keeps_execSkipto {P : Part → Prop} {r s : State} {b0 : Fin 4} {b1 : Fin 4} {b2 : Op11} (p_free : P .free) (p_regs : P .regs) (p_acc : P .acc) (p_mem : P .mem)
    (p_reach : P .reach) (p_chan : P .chan) (p_deep : P .deep) (p_servo : P .servo) (p_zone : P .zone) (p_host : P .host) (p_stage : P .stage)
    (p_memc : P .memc) (p_evr : P .evr) (p_trust : P .trust) (h : Keeps P r s) : KeepsO P r (execSkipto b0 b1 b2 s) := by
  unfold execSkipto
  refine keeps_instrMove p_free p_regs p_acc p_mem p_reach p_chan p_deep p_servo p_zone p_host p_stage p_memc p_evr p_trust ?_ ?_
  · exact h
  · intro y1
    extract_lets +onlyGivenNames x2
    clear_value x2
    exact (Keeps.ite (keeps_complete p_free p_regs p_acc p_mem p_reach p_chan p_deep p_servo p_zone p_host p_stage p_memc p_evr p_trust h)
        (keeps_position p_free p_regs p_acc p_reach p_chan p_servo (keeps_freshSeek p_servo (keeps_enter p_free p_regs p_acc p_mem p_reach p_chan
        p_deep p_servo p_zone p_host p_stage p_memc p_evr p_trust (keeps_updArch p_reach h)))))

/-- `execSlotDisplaced` keeps. -/
theorem keeps_execSlotDisplaced {P : Part → Prop} {r s : State} {b0 : Fin 4} (p_free : P .free) (p_regs : P .regs) (p_acc : P .acc) (p_mem : P .mem) (p_reach : P .reach) (p_chan : P
    .chan) (p_deep : P .deep) (p_servo : P .servo) (p_zone : P .zone) (p_host : P .host) (p_stage : P .stage) (p_memc : P .memc) (p_evr : P .evr)
    (p_trust : P .trust) (h : Keeps P r s) : KeepsO P r (execSlotDisplaced b0 s) := by
  unfold execSlotDisplaced
  split
  · exact KeepsO.of_next h
  · split
    · exact KeepsO.of_next (keeps_dispatch p_free p_regs p_acc p_mem p_reach p_chan p_deep p_servo p_zone p_host p_stage p_memc p_evr p_trust
        (keeps_giveUp p_reach h))
    · exact KeepsO.of_next h

/-- `execSlotRestartDone` keeps. -/
theorem keeps_execSlotRestartDone {P : Part → Prop} {r s : State} {b0 : Fin 4} {b1 : Fin 4} (p_free : P .free) (p_regs : P .regs) (p_acc : P .acc) (p_mem : P .mem) (p_reach : P
    .reach) (p_chan : P .chan) (p_deep : P .deep) (p_servo : P .servo) (p_zone : P .zone) (p_host : P .host) (p_stage : P .stage) (p_memc : P .memc)
    (p_evr : P .evr) (p_trust : P .trust) (h : Keeps P r s) : KeepsO P r (execSlotRestartDone b0 b1 s) := by
  unfold execSlotRestartDone
  split
  · exact KeepsO.of_next (keeps_dispatch p_free p_regs p_acc p_mem p_reach p_chan p_deep p_servo p_zone p_host p_stage p_memc p_evr p_trust
      (keeps_restart p_free p_regs p_acc p_reach p_chan p_servo p_evr h))
  · exact KeepsO.of_next h

/-- `execVfy` keeps. -/
theorem keeps_execVfy {P : Part → Prop} {r s : State} {b0 : Fin 4} {b1 : Fin 4} {b2 : Bool} {b3 : BitVec 8} (p_free : P .free) (p_regs : P .regs) (p_acc : P .acc) (p_mem :
    P .mem) (p_reach : P .reach) (p_chan : P .chan) (p_deep : P .deep) (p_servo : P .servo) (p_zone : P .zone) (p_host : P .host) (p_stage : P
    .stage) (p_memc : P .memc) (p_evr : P .evr) (p_trust : P .trust) (h : Keeps P r s) : KeepsO P r (execVfy b0 b1 b2 b3 s) := by
  unfold execVfy
  refine keeps_instrMove p_free p_regs p_acc p_mem p_reach p_chan p_deep p_servo p_zone p_host p_stage p_memc p_evr p_trust ?_ ?_
  · exact h
  · intro y1
    refine keeps_beginMedia p_free p_regs p_acc p_mem p_reach p_chan p_deep p_servo p_zone p_host p_stage p_memc p_evr p_trust ?_ ?_
    · exact h
    · intro y2 y3
      refine Keeps.fst_mk ?_
      exact y3

/-- `execWrs` keeps. -/
theorem keeps_execWrs {P : Part → Prop} {r s : State} {b0 : Fin 4} {b1 : Fin 4} (p_free : P .free) (p_regs : P .regs) (p_acc : P .acc) (p_mem : P .mem) (p_reach : P
    .reach) (p_chan : P .chan) (p_deep : P .deep) (p_servo : P .servo) (p_zone : P .zone) (p_host : P .host) (p_stage : P .stage) (p_memc : P .memc)
    (p_evr : P .evr) (p_trust : P .trust) (h : Keeps P r s) : KeepsO P r (execWrs b0 b1 s) := by
  unfold execWrs
  refine keeps_instrMove p_free p_regs p_acc p_mem p_reach p_chan p_deep p_servo p_zone p_host p_stage p_memc p_evr p_trust ?_ ?_
  · exact h
  · intro y1
    refine keeps_beginMedia p_free p_regs p_acc p_mem p_reach p_chan p_deep p_servo p_zone p_host p_stage p_memc p_evr p_trust ?_ ?_
    · exact h
    · intro y2 y3
      split
      · refine Keeps.fst_mk ?_
        exact (Keeps.ite (keeps_wr p_regs y3) y3)
      · refine Keeps.fst_mk ?_
        exact (keeps_wrsRun p_regs p_acc p_mem p_zone p_stage p_memc p_evr y3)

end Sys2Proof.Machine
end

