-- ==== Sys2Proof/Laws/KeepsServoLoop.lean ====
section
/-! SUPPORT. What the operations of Machine/ServoLoop.lean keep. -/

namespace Sys2Proof.Machine

set_option Elab.async false

/-- `State.runPaths` keeps. -/
theorem keeps_runPaths {P : Part → Prop} {r s : State} {b1 : Fin 4} {b2 : ℤ} {b3 : ℤ} (p_servo : P .servo) (h : Keeps P r s) : Keeps P r (State.runPaths s b1 b2 b3) := by
  unfold State.runPaths
  extract_lets +onlyGivenNames x1
  clear_value x1
  extract_lets +onlyGivenNames x2
  clear_value x2
  extract_lets +onlyGivenNames x3
  clear_value x3
  exact (keeps_updSv p_servo h)

/-- `State.command` keeps. -/
theorem keeps_command {P : Part → Prop} {r s : State} {b1 : Fin 4} (p_free : P .free) (p_servo : P .servo) (h : Keeps P r s) : Keeps P r (State.command s b1) := by
  unfold State.command
  extract_lets +onlyGivenNames x1
  clear_value x1
  split
  · exact (keeps_updSv p_servo h)
  · split
    · exact (keeps_updSv p_servo (keeps_tookFree p_free h))
    · exact (keeps_updSv p_servo (keeps_tookFree p_free h))
    · exact (keeps_updSv p_servo (keeps_tookFree p_free h))
    · extract_lets +onlyGivenNames x2
      clear_value x2
      exact (Keeps.ite (keeps_runPaths p_servo (keeps_tookFree p_free h)) (keeps_runPaths p_servo h))

/-- `State.endPeriod` keeps. -/
theorem keeps_endPeriod {P : Part → Prop} {r s : State} {b1 : Fin 4} (p_servo : P .servo) (h : Keeps P r s) : Keeps P r (State.endPeriod s b1) := by
  unfold State.endPeriod
  extract_lets +onlyGivenNames x1
  clear_value x1
  exact (keeps_updSv p_servo h)

/-- `State.runModel` keeps. -/
theorem keeps_runModel {P : Part → Prop} {r s : State} {b1 : Fin 4} (p_servo : P .servo) (h : Keeps P r s) : Keeps P r (State.runModel s b1) := by
  unfold State.runModel
  extract_lets +onlyGivenNames x1
  clear_value x1
  split
  · split
    · exact (keeps_updSv p_servo h)

end Sys2Proof.Machine
end

