-- ==== Sys2Proof/Laws/KeepsParity.lean ====
section
/-! SUPPORT. What the operations of Machine/Parity.lean keep. -/

namespace Sys2Proof.Machine

set_option Elab.async false

/-- `State.runParity` keeps. -/
theorem keeps_runParity {P : Part → Prop} {r s : State} {b1 : Fin 4} {b2 : Begun} (p_regs : P .regs) (p_acc : P .acc) (p_mem : P .mem) (p_zone : P .zone) (p_stage : P
    .stage) (p_memc : P .memc) (p_evr : P .evr) (h : Keeps P r s) : Keeps P r (State.runParity s b1 b2) := by
  unfold State.runParity
  split
  · exact (keeps_updZone p_regs p_acc p_mem p_zone p_stage p_memc p_evr h)
  · exact h

/-- `State.updMedium` keeps. -/
theorem keeps_updMedium {P : Part → Prop} {r s : State} {b1 : Fin 4} {b2 : Medium → Medium} (p_medium : P .medium) (h : Keeps P r s) : Keeps P r (State.updMedium s b1 b2) := by
  unfold State.updMedium
  exact (Keeps.put h)

/-- `State.updSector` keeps. -/
theorem keeps_updSector {P : Part → Prop} {r s : State} {b1 : Fin 4} {b2 : ℕ} {b3 : Sector → Sector} (p_medium : P .medium) (h : Keeps P r s) : Keeps P r (State.updSector s
    b1 b2 b3) := by
  unfold State.updSector
  exact (keeps_updMedium p_medium h)

/-- `State.holdParity` keeps. -/
theorem keeps_holdParity {P : Part → Prop} {r s : State} {b1 : Fin 4} {b2 : ℕ} (p_regs : P .regs) (p_acc : P .acc) (p_mem : P .mem) (p_zone : P .zone) (p_stage : P .stage)
    (p_memc : P .memc) (p_evr : P .evr) (h : Keeps P r s) : Keeps P r (State.holdParity s b1 b2) := by
  unfold State.holdParity
  split
  · exact (Keeps.ite h (keeps_updZone p_regs p_acc p_mem p_zone p_stage p_memc p_evr h))
  · exact h

/-- `State.layDown` keeps. -/
theorem keeps_layDown {P : Part → Prop} {r s : State} {b1 : Fin 4} {b2 : ℕ} {b3 : Sector} (p_medium : P .medium) (h : Keeps P r s) : Keeps P r (State.layDown s b1 b2 b3) := by
  unfold State.layDown
  exact (keeps_updMedium p_medium h)

/-- `State.shingle` keeps. -/
theorem keeps_shingle {P : Part → Prop} {r s : State} {b1 : Fin 4} {b2 : ℕ} {b3 : Place} (p_medium : P .medium) (h : Keeps P r s) : Keeps P r (State.shingle s b1 b2 b3) := by
  unfold State.shingle
  exact (Keeps.ite h (keeps_updMedium p_medium h))

end Sys2Proof.Machine
end

