-- ==== Sys2Proof/Laws/KeepsSignal.lean ====
section
/-! SUPPORT. What the operations of Machine/Signal.lean keep. -/

namespace Sys2Proof.Machine

set_option Elab.async false

/-- `State.agcReader` keeps. -/
theorem keeps_agcReader {P : Part → Prop} {r s : State} {b1 : Fin 4} {b2 : Bool} {b3 : Bool} {b4 : List ℤ} (p_free : P .free) (p_chan : P .chan) (h : Keeps P r s) : Keeps P
    r (State.agcReader s b1 b2 b3 b4) := by
  unfold State.agcReader
  split
  · exact h
  · extract_lets +onlyGivenNames x1
    clear_value x1
    exact (keeps_updCh p_chan (keeps_tookFree p_free h))

end Sys2Proof.Machine
end

