-- ==== Sys2Proof/Laws/KeepsReadPath.lean ====
section
/-! SUPPORT. What the operations of Machine/ReadPath.lean keep. -/

namespace Sys2Proof.Machine

set_option Elab.async false

/-- `State.eqPut` keeps. -/
theorem keeps_eqPut {P : Part → Prop} {r s : State} {b1 : Fin 4} {b2 : ℕ} {b3 : ℕ} {b4 : ℕ} (p_regs : P .regs) (p_chan : P .chan) (h : Keeps P r s) : Keeps P r
    (State.eqPut s b1 b2 b3 b4) := by
  unfold State.eqPut
  extract_lets +onlyGivenNames x1
  have h2 : Keeps P r x1 := (keeps_wr p_regs h)
  clear_value x1
  exact (Keeps.ite (keeps_updCh p_chan h2) h2)

/-- `State.eqWrite` keeps. -/
theorem keeps_eqWrite {P : Part → Prop} {r s : State} {b1 : Fin 4} {b2 : ℕ} {b3 : ℕ} {b4 : ℕ} (p_regs : P .regs) (p_chan : P .chan) (h : Keeps P r s) : Keeps P r
    (State.eqWrite s b1 b2 b3 b4) := by
  unfold State.eqWrite
  exact (Keeps.ite (keeps_updCh p_chan h) (keeps_eqPut p_regs p_chan h))

/-- `State.addSpans` keeps. -/
theorem keeps_addSpans {P : Part → Prop} {r s : State} {b1 : Fin 4} {b2 : Begun} {b3 : List TaSpan} (p_regs : P .regs) (p_acc : P .acc) (p_reach : P .reach) (h : Keeps P r
    s) : Keeps P r (State.addSpans s b1 b2 b3) := by
  unfold State.addSpans
  refine Keeps.foldl ?_ fun y1 y2 h3 => ?_
  · exact h
  · exact (keeps_updBegun p_reach (keeps_headCount p_regs p_acc h3))

/-- `State.eqBoundary` keeps. -/
theorem keeps_eqBoundary {P : Part → Prop} {r s : State} {b1 : Fin 4} (p_regs : P .regs) (p_chan : P .chan) (h : Keeps P r s) : Keeps P r (State.eqBoundary s b1) := by
  unfold State.eqBoundary
  refine Keeps.foldl ?_ fun y1 y2 h3 => ?_
  · exact (keeps_updCh p_chan h)
  · exact (keeps_eqPut p_regs p_chan h3)

/-- `State.wantGroup` keeps. -/
theorem keeps_wantGroup {P : Part → Prop} {r s : State} {b1 : Fin 4} {b2 : Fin 4} {b3 : ℕ} (p_reach : P .reach) (h : Keeps P r s) : Keeps P r (State.wantGroup s b1 b2 b3) := by
  unfold State.wantGroup
  split
  · exact h
  · split
    · exact h
    · extract_lets +onlyGivenNames x1
      clear_value x1
      exact (keeps_updMedia p_reach h)

/-- `State.noteSeen` keeps. -/
theorem keeps_noteSeen {P : Part → Prop} {r s : State} {b1 : Fin 4} {b2 : Media} {b3 : Begun} {b4 : Bool} (p_reach : P .reach) (h : Keeps P r s) : Keeps P r (State.noteSeen
    s b1 b2 b3 b4) := by
  unfold State.noteSeen
  split
  · exact h
  · extract_lets +onlyGivenNames x1
    have h2 : Keeps P r x1 := (keeps_updMedia p_reach h)
    clear_value x1
    extract_lets +onlyGivenNames x3
    have h4 : Keeps P r x3 := (Keeps.ite (keeps_dropBegun p_reach h2) h2)
    clear_value x3
    exact (Keeps.ite h4 (keeps_wantGroup p_reach h4))

/-- `State.afterDeep` keeps. -/
theorem keeps_afterDeep {P : Part → Prop} {r s : State} {b1 : Fin 4} {b2 : Media} {b3 : Begun} (p_regs : P .regs) (p_reach : P .reach) (p_chan : P .chan) (h : Keeps P r s) :
    Keeps P r (State.afterDeep s b1 b2 b3) := by
  unfold State.afterDeep
  exact (keeps_noteSeen p_reach (keeps_eqBoundary p_regs p_chan (keeps_updBegun p_reach h)))

/-- `State.pushDeep` keeps. -/
theorem keeps_pushDeep {P : Part → Prop} {r s : State} (p_deep : P .deep) (h : Keeps P r s) : Keeps P r (State.pushDeep s) := by
  unfold State.pushDeep
  refine Keeps.foldl ?_ fun y1 y2 h3 => ?_
  · exact h
  · refine Keeps.foldl ?_ fun y4 y5 h6 => ?_
    · exact h3
    · exact (Keeps.ite (Keeps.put h6) h6)

/-- `State.afterAverage` keeps. -/
theorem keeps_afterAverage {P : Part → Prop} {r s : State} {b1 : Fin 4} {b2 : Media} {b3 : Begun} (p_regs : P .regs) (p_reach : P .reach) (p_chan : P .chan) (p_deep : P .deep)
    (h : Keeps P r s) : Keeps P r (State.afterAverage s b1 b2 b3) := by
  unfold State.afterAverage
  exact (Keeps.ite (keeps_pushDeep p_deep (keeps_updBegun p_reach h)) (keeps_afterDeep p_regs p_reach p_chan h))

/-- `State.agcStep` keeps. -/
theorem keeps_agcStep {P : Part → Prop} {r s : State} {b1 : Fin 4} {b2 : Begun} {b3 : Option Signal} (p_free : P .free) (p_chan : P .chan) (h : Keeps P r s) : Keeps P r
    (State.agcStep s b1 b2 b3) := by
  unfold State.agcStep
  extract_lets +onlyGivenNames x1
  clear_value x1
  split
  · exact (keeps_agcReader p_free p_chan (keeps_agcReader p_free p_chan h))
  · exact (Keeps.ite h (keeps_updCh p_chan (keeps_tookFree p_free h)))

/-- `State.freePair` keeps. -/
theorem keeps_freePair {P : Part → Prop} {r s : State} {b1 : Fin 4} {b2 : Begun} (p_chan : P .chan) (h : Keeps P r s) : Keeps P r (State.freePair s b1 b2) := by
  unfold State.freePair
  exact (keeps_updCh p_chan h)

/-- `State.storeSector` keeps. -/
theorem keeps_storeSector {P : Part → Prop} {r s : State} {b1 : Fin 4} {b2 : Begun} {b3 : ℕ} (p_free : P .free) (p_regs : P .regs) (p_acc : P .acc) (p_mem : P .mem) (p_chan :
    P .chan) (p_stage : P .stage) (p_memc : P .memc) (p_evr : P .evr) (h : Keeps P r s) : Keeps P r (State.storeSector s b1 b2 b3) := by
  unfold State.storeSector
  extract_lets +onlyGivenNames x1
  clear_value x1
  exact (keeps_noteStored p_regs (keeps_updCh p_chan (keeps_stored p_regs p_acc p_mem p_stage p_memc p_evr (Keeps.ite (keeps_tookFree p_free h) h))))

/-- `State.inlineFail` keeps. -/
theorem keeps_inlineFail {P : Part → Prop} {r s : State} {b1 : Fin 4} {b2 : Media} {b3 : Begun} (p_free : P .free) (p_regs : P .regs) (p_acc : P .acc) (p_mem : P .mem)
    (p_reach : P .reach) (p_chan : P .chan) (p_deep : P .deep) (p_stage : P .stage) (p_memc : P .memc) (p_evr : P .evr) (h : Keeps P r s) : Keeps P r
    (State.inlineFail s b1 b2 b3) := by
  unfold State.inlineFail
  extract_lets +onlyGivenNames x1
  have h2 : Keeps P r x1 := (keeps_freePair p_chan h)
  clear_value x1
  extract_lets +onlyGivenNames x3
  have h4 : Keeps P r x3 := (keeps_updArch p_reach (keeps_headCount p_regs p_acc h2))
  clear_value x3
  extract_lets +onlyGivenNames x5
  split
  · exact (keeps_afterDeep p_regs p_reach p_chan h4)
  · split
    · exact (keeps_afterDeep p_regs p_reach p_chan h4)
    · split
      · unfold x5
        exact (keeps_updBegun p_reach h4)
      · split
        · extract_lets +onlyGivenNames x6
          have h7 : Keeps P r x6 := (keeps_storeSector p_free p_regs p_acc p_mem p_chan p_stage p_memc p_evr h4)
          clear_value x6
          exact (Keeps.ite (keeps_updBegun p_reach h7) (keeps_afterAverage p_regs p_reach p_chan p_deep h7))
        · extract_lets +onlyGivenNames x8
          have h9 : Keeps P r x8 := (keeps_wr p_regs h4)
          clear_value x8
          split
          · unfold x5
            exact (keeps_updBegun p_reach h9)
          · exact (keeps_afterDeep p_regs p_reach p_chan h9)

/-- `State.eqAdapt` keeps. -/
theorem keeps_eqAdapt {P : Part → Prop} {r s : State} {b1 : Fin 4} {b2 : Media} {b3 : Begun} (p_free : P .free) (p_regs : P .regs) (p_evr : P .evr) (h : Keeps P r s) :
    Keeps P r (State.eqAdapt s b1 b2 b3) := by
  unfold State.eqAdapt
  split
  · exact h
  · extract_lets +onlyGivenNames x1
    clear_value x1
    extract_lets +onlyGivenNames x2
    clear_value x2
    extract_lets +onlyGivenNames x3
    clear_value x3
    extract_lets +onlyGivenNames x4
    have h5 : Keeps P r x4 := (Keeps.ite (keeps_tookFree p_free h) h)
    clear_value x4
    extract_lets +onlyGivenNames x6
    refine Keeps.step (P := P) (r := r) (x := x6) ?_ ?_
    · unfold x6
      refine Keeps.foldl ?_ fun y8 y9 h10 => ?_
      · exact h5
      · exact (keeps_wr p_regs h10)
    intro h7
    clear_value x6
    split
    · exact h7
    · extract_lets +onlyGivenNames x11
      have h12 : Keeps P r x11 := (keeps_wr p_regs h7)
      clear_value x11
      exact (Keeps.ite h12 (keeps_raise p_evr (keeps_wr p_regs h12)))

/-- `State.sectorRead` keeps. -/
theorem keeps_sectorRead {P : Part → Prop} {r s : State} {b1 : Fin 4} {b2 : Media} {b3 : Begun} {b4 : Decoded} {b5 : Bool} (p_free : P .free) (p_regs : P .regs) (p_reach : P
    .reach) (p_chan : P .chan) (p_evr : P .evr) (h : Keeps P r s) : Keeps P r (State.sectorRead s b1 b2 b3 b4 b5) := by
  unfold State.sectorRead
  extract_lets +onlyGivenNames x1
  have h2 : Keeps P r x1 := (keeps_updArch p_reach (keeps_updBegun p_reach (keeps_freePair p_chan h)))
  clear_value x1
  exact (keeps_noteSeen p_reach (keeps_eqBoundary p_regs p_chan (keeps_eqAdapt p_free p_regs p_evr h2)))

/-- `State.attemptEnds` keeps. -/
theorem keeps_attemptEnds {P : Part → Prop} {r s : State} {b1 : Fin 4} {b2 : Media} {b3 : Begun} {b4 : Framing} {b5 : Decoded} (p_free : P .free) (p_regs : P .regs) (p_acc : P
    .acc) (p_mem : P .mem) (p_reach : P .reach) (p_chan : P .chan) (p_deep : P .deep) (p_stage : P .stage) (p_memc : P .memc) (p_evr : P .evr) (h :
    Keeps P r s) : Keeps P r (State.attemptEnds s b1 b2 b3 b4 b5) := by
  unfold State.attemptEnds
  extract_lets +onlyGivenNames x1
  clear_value x1
  split
  · exact (keeps_inlineFail p_free p_regs p_acc p_mem p_reach p_chan p_deep p_stage p_memc p_evr h)
  · extract_lets +onlyGivenNames x2
    clear_value x2
    extract_lets +onlyGivenNames x3
    have h4 : Keeps P r x3 := (keeps_updBegun p_reach h)
    clear_value x3
    split
    · extract_lets +onlyGivenNames x5
      clear_value x5
      extract_lets +onlyGivenNames x6
      have h7 : Keeps P r x6 := (Keeps.ite (keeps_headCount p_regs p_acc h4) h4)
      clear_value x6
      extract_lets +onlyGivenNames x8
      have h9 : Keeps P r x8 := (Keeps.ite (keeps_headCount p_regs p_acc h7) h7)
      clear_value x8
      exact (keeps_sectorRead p_free p_regs p_reach p_chan p_evr h9)
    · extract_lets +onlyGivenNames x10
      clear_value x10
      exact (Keeps.ite (keeps_updBegun p_reach h4) (keeps_inlineFail p_free p_regs p_acc p_mem p_reach p_chan p_deep p_stage p_memc p_evr h4))

/-- `State.channelFails` keeps. -/
theorem keeps_channelFails {P : Part → Prop} {r s : State} {b1 : Fin 4} {b2 : Bool} {b3 : ℕ} (p_regs : P .regs) (p_evr : P .evr) (h : Keeps P r s) : Keeps P r
    (State.channelFails s b1 b2 b3) := by
  unfold State.channelFails
  exact (keeps_fault p_regs p_evr (keeps_setUnit p_regs (keeps_wr p_regs (keeps_wr p_regs h))))

/-- `State.sliceFaulty` keeps. -/
theorem keeps_sliceFaulty {P : Part → Prop} {r s : State} {b1 : Fin 4} {b2 : Bool} {b3 : ℕ} {b4 : Bool} (p_regs : P .regs) (p_chan : P .chan) (p_evr : P .evr) (h : Keeps P r
    s) : Keeps P r (State.sliceFaulty s b1 b2 b3 b4) := by
  unfold State.sliceFaulty
  extract_lets +onlyGivenNames x1
  clear_value x1
  extract_lets +onlyGivenNames x2
  have h3 : Keeps P r x2 := (Keeps.ite (keeps_wr p_regs (keeps_setB p_regs h)) h)
  clear_value x2
  extract_lets +onlyGivenNames x4
  have h5 : Keeps P r x4 := (Keeps.ite (keeps_raise p_evr h3) h3)
  clear_value x4
  split
  · extract_lets +onlyGivenNames x6
    have h7 : Keeps P r x6 := (keeps_updCh p_chan h5)
    clear_value x6
    exact (Keeps.ite (Keeps.ite (keeps_channelFails p_regs p_evr h7) (keeps_wr p_regs (keeps_wr p_regs h7))) h7)
  · exact (Keeps.ite (Keeps.ite (keeps_channelFails p_regs p_evr h5) h5) (Keeps.ite (Keeps.ite h5 (keeps_channelFails p_regs p_evr h5)) (keeps_wr
      p_regs (keeps_wr p_regs (keeps_wr p_regs h5)))))

/-- `State.frameSector` keeps. -/
theorem keeps_frameSector {P : Part → Prop} {r s : State} {b1 : Fin 4} {b2 : Begun} {b3 : Bool} {b4 : ℤ} (p_regs : P .regs) (p_acc : P .acc) (p_reach : P .reach) (h : Keeps P
    r s) : Keeps P r (State.frameSector s b1 b2 b3 b4) := by
  unfold State.frameSector
  extract_lets +onlyGivenNames x1
  have h2 : Keeps P r x1 := (keeps_updArch p_reach (keeps_updBegun p_reach h))
  clear_value x1
  exact (Keeps.ite h2 (keeps_headCount p_regs p_acc h2))

/-- `State.unsampled` keeps. -/
theorem keeps_unsampled {P : Part → Prop} {r s : State} {b1 : Fin 4} {b2 : Media} {b3 : Begun} (p_regs : P .regs) (p_acc : P .acc) (p_reach : P .reach) (p_chan : P .chan) (h
    : Keeps P r s) : Keeps P r (State.unsampled s b1 b2 b3) := by
  unfold State.unsampled
  extract_lets +onlyGivenNames x1
  have h2 : Keeps P r x1 := (keeps_eqBoundary p_regs p_chan (keeps_updBegun p_reach (keeps_headCount p_regs p_acc h)))
  clear_value x1
  exact (Keeps.ite h2 (keeps_afterDeep p_regs p_reach p_chan h2))

/-- `State.unsampledRaw` keeps. -/
theorem keeps_unsampledRaw {P : Part → Prop} {r s : State} {b1 : Fin 4} {b2 : Fin 4} {b3 : Media} (p_free : P .free) (p_regs : P .regs) (p_acc : P .acc) (p_mem : P .mem)
    (p_reach : P .reach) (p_chan : P .chan) (p_deep : P .deep) (p_servo : P .servo) (p_zone : P .zone) (p_host : P .host) (p_stage : P .stage)
    (p_memc : P .memc) (p_evr : P .evr) (p_trust : P .trust) (h : Keeps P r s) : Keeps P r (State.unsampledRaw s b1 b2 b3) := by
  unfold State.unsampledRaw
  extract_lets +onlyGivenNames x1
  have h2 : Keeps P r x1 := (keeps_updMedia p_reach (keeps_headCount p_regs p_acc h))
  clear_value x1
  exact (Keeps.ite h2 (keeps_endWith p_free p_regs p_acc p_mem p_reach p_chan p_deep p_servo p_zone p_host p_stage p_memc p_evr p_trust h2))

/-- `State.pairNext` keeps. -/
theorem keeps_pairNext {P : Part → Prop} {r s : State} {b1 : Fin 4} {b2 : ℕ} (p_chan : P .chan) (h : Keeps P r s) : Keeps P r (State.pairNext s b1 b2) := by
  unfold State.pairNext
  extract_lets +onlyGivenNames x1
  clear_value x1
  exact (keeps_updCh p_chan h)

/-- `State.sampled` keeps. -/
theorem keeps_sampled {P : Part → Prop} {r s : State} {b1 : Fin 4} {b2 : Begun} {b3 : Option Signal} (p_free : P .free) (p_regs : P .regs) (p_acc : P .acc) (p_reach : P
    .reach) (p_chan : P .chan) (h : Keeps P r s) : Keeps P r (State.sampled s b1 b2 b3) := by
  unfold State.sampled
  extract_lets +onlyGivenNames x1
  clear_value x1
  extract_lets +onlyGivenNames x2
  clear_value x2
  extract_lets +onlyGivenNames x3
  have h4 : Keeps P r x3 := (keeps_addSpans p_regs p_acc p_reach (keeps_updBegun p_reach h))
  clear_value x3
  exact (keeps_agcStep p_free p_chan h4)

/-- `execAveragingPass` keeps. -/
theorem keeps_execAveragingPass {P : Part → Prop} {r s : State} {b0 : Fin 4} {b1 : List ℕ} {b2 : Decoded} {b3 : Option Signal} (p_free : P .free) (p_regs : P .regs) (p_acc : P .acc)
    (p_mem : P .mem) (p_reach : P .reach) (p_chan : P .chan) (p_deep : P .deep) (p_servo : P .servo) (p_zone : P .zone) (p_host : P .host) (p_stage :
    P .stage) (p_memc : P .memc) (p_evr : P .evr) (p_sluice : P .sluice) (p_trust : P .trust) (h : Keeps P r s) : KeepsO P r (execAveragingPass b0 b1
    b2 b3 s) := by
  unfold execAveragingPass
  split
  · exact KeepsO.of_next h
  · split
    · split
      · exact KeepsO.of_next (keeps_drainAll p_free p_regs p_acc p_mem p_reach p_chan p_deep p_servo p_zone p_host p_stage p_memc p_evr p_sluice
          p_trust (keeps_afterDeep p_regs p_reach p_chan h))
      · extract_lets +onlyGivenNames x1
        have h2 : Keeps P r x1 := (keeps_sampled p_free p_regs p_acc p_reach p_chan h)
        clear_value x1
        extract_lets +onlyGivenNames x3
        clear_value x3
        extract_lets +onlyGivenNames x4
        have h5 : Keeps P r x4 := (keeps_updBegun p_reach (keeps_frameSector p_regs p_acc p_reach h2))
        clear_value x4
        extract_lets +onlyGivenNames x6
        clear_value x6
        extract_lets +onlyGivenNames x7
        clear_value x7
        extract_lets +onlyGivenNames x8
        clear_value x8
        extract_lets +onlyGivenNames x9
        clear_value x9
        extract_lets +onlyGivenNames x10
        have h11 : Keeps P r x10 := (keeps_stored p_regs p_acc p_mem p_stage p_memc p_evr (keeps_stored p_regs p_acc p_mem p_stage p_memc p_evr
            (Keeps.ite (keeps_tookFree p_free h5) h5)))
        clear_value x10
        extract_lets +onlyGivenNames x12
        clear_value x12
        extract_lets +onlyGivenNames x13
        clear_value x13
        extract_lets +onlyGivenNames x14
        clear_value x14
        extract_lets +onlyGivenNames x15
        have h16 : Keeps P r x15 := (keeps_updCh p_chan (keeps_stored p_regs p_acc p_mem p_stage p_memc p_evr h11))
        clear_value x15
        split
        · exact KeepsO.of_next (keeps_drainAll p_free p_regs p_acc p_mem p_reach p_chan p_deep p_servo p_zone p_host p_stage p_memc p_evr p_sluice
            p_trust (keeps_sectorRead p_free p_regs p_reach p_chan p_evr h16))
        · extract_lets +onlyGivenNames x17
          clear_value x17
          extract_lets +onlyGivenNames x18
          have h19 : Keeps P r x18 := (keeps_eqBoundary p_regs p_chan (keeps_updArch p_reach (keeps_updBegun p_reach h16)))
          clear_value x18
          split
          · exact KeepsO.of_next h19
          · exact KeepsO.of_next (keeps_drainAll p_free p_regs p_acc p_mem p_reach p_chan p_deep p_servo p_zone p_host p_stage p_memc p_evr p_sluice
              p_trust (keeps_afterAverage p_regs p_reach p_chan p_deep h19))
    · exact KeepsO.of_next h

/-- `execBlkNotRegained` keeps. -/
theorem keeps_execBlkNotRegained {P : Part → Prop} {r s : State} {b0 : Fin 4} (p_free : P .free) (p_regs : P .regs) (p_acc : P .acc) (p_mem : P .mem) (p_reach : P .reach) (p_chan : P
    .chan) (p_deep : P .deep) (p_servo : P .servo) (p_zone : P .zone) (p_host : P .host) (p_stage : P .stage) (p_memc : P .memc) (p_evr : P .evr)
    (p_trust : P .trust) (h : Keeps P r s) : KeepsO P r (execBlkNotRegained b0 s) := by
  unfold execBlkNotRegained
  split
  · exact KeepsO.of_next h
  · split
    · exact KeepsO.of_next h
    · split
      · exact KeepsO.of_next (keeps_opEndsWith p_free p_regs p_acc p_mem p_reach p_chan p_deep p_servo p_zone p_host p_stage p_memc p_evr p_trust h)
      · exact KeepsO.of_next (keeps_opEndsWith p_free p_regs p_acc p_mem p_reach p_chan p_deep p_servo p_zone p_host p_stage p_memc p_evr p_trust h)
      · exact KeepsO.of_next (keeps_opEndsWith p_free p_regs p_acc p_mem p_reach p_chan p_deep p_servo p_zone p_host p_stage p_memc p_evr p_trust h)
      · exact KeepsO.of_next (keeps_opEndsWith p_free p_regs p_acc p_mem p_reach p_chan p_deep p_servo p_zone p_host p_stage p_memc p_evr p_trust h)
      · extract_lets +onlyGivenNames x1
        have h2 : Keeps P r x1 := (keeps_dropBegun p_reach h)
        clear_value x1
        exact KeepsO.of_next (keeps_endWith p_free p_regs p_acc p_mem p_reach p_chan p_deep p_servo p_zone p_host p_stage p_memc p_evr p_trust h2)
      · exact KeepsO.of_next h

/-- `execDecodeAttemptDone` keeps. -/
theorem keeps_execDecodeAttemptDone {P : Part → Prop} {r s : State} {b0 : Fin 4} {b1 : Fin 2} {b2 : List ℕ} {b3 : Decoded} {b4 : Option Signal} (p_free : P .free) (p_regs : P .regs)
    (p_acc : P .acc) (p_mem : P .mem) (p_reach : P .reach) (p_chan : P .chan) (p_deep : P .deep) (p_servo : P .servo) (p_zone : P .zone) (p_host : P
    .host) (p_stage : P .stage) (p_memc : P .memc) (p_evr : P .evr) (p_sluice : P .sluice) (p_trust : P .trust) (h : Keeps P r s) : KeepsO P r
    (execDecodeAttemptDone b0 b1 b2 b3 b4 s) := by
  unfold execDecodeAttemptDone
  split
  · exact KeepsO.of_next h
  · split
    · exact KeepsO.of_next h
    · extract_lets +onlyGivenNames x1
      have h2 : Keeps P r x1 := (Keeps.ite (keeps_sampled p_free p_regs p_acc p_reach p_chan h) h)
      clear_value x1
      extract_lets +onlyGivenNames x3
      clear_value x3
      split
      · extract_lets +onlyGivenNames x4
        clear_value x4
        exact KeepsO.of_next (keeps_drainAll p_free p_regs p_acc p_mem p_reach p_chan p_deep p_servo p_zone p_host p_stage p_memc p_evr p_sluice
            p_trust (keeps_pairNext p_chan (keeps_inlineFail p_free p_regs p_acc p_mem p_reach p_chan p_deep p_stage p_memc p_evr h2)))
      · extract_lets +onlyGivenNames x5
        clear_value x5
        extract_lets +onlyGivenNames x6
        have h7 : Keeps P r x6 := (Keeps.ite (keeps_frameSector p_regs p_acc p_reach h2) h2)
        clear_value x6
        exact KeepsO.of_next (keeps_drainAll p_free p_regs p_acc p_mem p_reach p_chan p_deep p_servo p_zone p_host p_stage p_memc p_evr p_sluice
            p_trust (keeps_pairNext p_chan (keeps_attemptEnds p_free p_regs p_acc p_mem p_reach p_chan p_deep p_stage p_memc p_evr h7)))

/-- `execDeepDecodeDone` keeps. -/
theorem keeps_execDeepDecodeDone {P : Part → Prop} {r s : State} {b0 : Decoded} (p_free : P .free) (p_regs : P .regs) (p_acc : P .acc) (p_mem : P .mem) (p_reach : P .reach) (p_chan :
    P .chan) (p_deep : P .deep) (p_servo : P .servo) (p_zone : P .zone) (p_host : P .host) (p_stage : P .stage) (p_memc : P .memc) (p_evr : P .evr)
    (p_sluice : P .sluice) (p_trust : P .trust) (h : Keeps P r s) : KeepsO P r (execDeepDecodeDone b0 s) := by
  unfold execDeepDecodeDone
  split
  · exact KeepsO.of_next h
  · split
    · exact KeepsO.of_next h
    · extract_lets +onlyGivenNames x1
      have h2 : Keeps P r x1 := (keeps_bump p_regs (keeps_wr p_regs (Keeps.put h)))
      clear_value x1
      split
      · exact KeepsO.of_next (keeps_pushDeep p_deep h2)
      · split
        · exact KeepsO.of_next (keeps_pushDeep p_deep (keeps_drainAll p_free p_regs p_acc p_mem p_reach p_chan p_deep p_servo p_zone p_host p_stage
            p_memc p_evr p_sluice p_trust (keeps_afterDeep p_regs p_reach p_chan h2)))
        · split
          · exact KeepsO.of_next (keeps_pushDeep p_deep (keeps_drainAll p_free p_regs p_acc p_mem p_reach p_chan p_deep p_servo p_zone p_host p_stage
              p_memc p_evr p_sluice p_trust (keeps_afterDeep p_regs p_reach p_chan h2)))
          · extract_lets +onlyGivenNames x3
            clear_value x3
            split
            · exact KeepsO.of_next (keeps_pushDeep p_deep (keeps_drainAll p_free p_regs p_acc p_mem p_reach p_chan p_deep p_servo p_zone p_host
                p_stage p_memc p_evr p_sluice p_trust (keeps_sectorRead p_free p_regs p_reach p_chan p_evr h2)))
            · extract_lets +onlyGivenNames x4
              clear_value x4
              extract_lets +onlyGivenNames x5
              have h6 : Keeps P r x5 := (keeps_updArch p_reach (keeps_updBegun p_reach h2))
              clear_value x5
              exact KeepsO.of_next (keeps_pushDeep p_deep (keeps_drainAll p_free p_regs p_acc p_mem p_reach p_chan p_deep p_servo p_zone p_host
                  p_stage p_memc p_evr p_sluice p_trust (keeps_afterDeep p_regs p_reach p_chan h6)))

/-- `execDeepRequestTake` keeps. -/
theorem keeps_execDeepRequestTake {P : Part → Prop} {r s : State} (p_regs : P .regs) (h : Keeps P r s) : KeepsO P r (execDeepRequestTake s) := by
  unfold execDeepRequestTake
  split
  · exact KeepsO.of_next (keeps_wr p_regs h)
  · exact KeepsO.of_next h

/-- `execInlineDeadline` keeps. -/
theorem keeps_execInlineDeadline {P : Part → Prop} {r s : State} {b0 : Fin 4} {b1 : List ℕ} (p_free : P .free) (p_regs : P .regs) (p_acc : P .acc) (p_mem : P .mem) (p_reach : P
    .reach) (p_chan : P .chan) (p_deep : P .deep) (p_servo : P .servo) (p_zone : P .zone) (p_host : P .host) (p_stage : P .stage) (p_memc : P .memc)
    (p_evr : P .evr) (p_sluice : P .sluice) (p_trust : P .trust) (h : Keeps P r s) : KeepsO P r (execInlineDeadline b0 b1 s) := by
  unfold execInlineDeadline
  split
  · exact KeepsO.of_next h
  · extract_lets +onlyGivenNames x1
    clear_value x1
    extract_lets +onlyGivenNames x2
    have h3 : Keeps P r x2 := (Keeps.ite (keeps_frameSector p_regs p_acc p_reach h) h)
    clear_value x2
    exact KeepsO.of_next (keeps_drainAll p_free p_regs p_acc p_mem p_reach p_chan p_deep p_servo p_zone p_host p_stage p_memc p_evr p_sluice p_trust
        (keeps_inlineFail p_free p_regs p_acc p_mem p_reach p_chan p_deep p_stage p_memc p_evr h3))

/-- `execTaDetect` keeps. -/
theorem keeps_execTaDetect {P : Part → Prop} {r s : State} {b0 : Fin 4} {b1 : Bool} {b2 : List ℤ} {b3 : ℤ} (p_free : P .free) (p_regs : P .regs) (p_acc : P .acc) (p_mem : P
    .mem) (p_reach : P .reach) (p_chan : P .chan) (p_deep : P .deep) (p_servo : P .servo) (p_zone : P .zone) (p_host : P .host) (p_stage : P .stage)
    (p_memc : P .memc) (p_evr : P .evr) (p_sluice : P .sluice) (p_trust : P .trust) (h : Keeps P r s) : KeepsO P r (execTaDetect b0 b1 b2 b3 s) := by
  unfold execTaDetect
  split
  · exact KeepsO.of_next h
  · extract_lets +onlyGivenNames x1
    clear_value x1
    split
    · refine KeepsO.of_next ?_
      refine Keeps.foldl ?_ fun y2 y3 h4 => ?_
      · exact h
      · exact (keeps_headCount p_regs p_acc h4)
    · extract_lets +onlyGivenNames x5
      have h6 : Keeps P r x5 := (keeps_addSpans p_regs p_acc p_reach h)
      clear_value x5
      extract_lets +onlyGivenNames x7
      clear_value x7
      extract_lets +onlyGivenNames x8
      clear_value x8
      split
      · exact KeepsO.of_next h6
      · split
        · exact KeepsO.of_next h6
        · exact KeepsO.of_next (keeps_drainAll p_free p_regs p_acc p_mem p_reach p_chan p_deep p_servo p_zone p_host p_stage p_memc p_evr p_sluice
            p_trust (keeps_inlineFail p_free p_regs p_acc p_mem p_reach p_chan p_deep p_stage p_memc p_evr h6))

/-- `execTrackParityReconstruct` keeps. -/
theorem keeps_execTrackParityReconstruct {P : Part → Prop} {r s : State} {b0 : Fin 4} {b1 : Bool} (p_free : P .free) (p_regs : P .regs) (p_acc : P .acc) (p_mem : P .mem) (p_reach : P .reach)
    (p_chan : P .chan) (p_deep : P .deep) (p_servo : P .servo) (p_zone : P .zone) (p_host : P .host) (p_stage : P .stage) (p_memc : P .memc) (p_evr :
    P .evr) (p_sluice : P .sluice) (p_trust : P .trust) (h : Keeps P r s) : KeepsO P r (execTrackParityReconstruct b0 b1 s) := by
  unfold execTrackParityReconstruct
  split
  · exact KeepsO.of_next h
  · split
    · exact KeepsO.of_next h
    · extract_lets +onlyGivenNames x1
      clear_value x1
      extract_lets +onlyGivenNames x2
      clear_value x2
      extract_lets +onlyGivenNames x3
      clear_value x3
      extract_lets +onlyGivenNames x4
      clear_value x4
      extract_lets +onlyGivenNames x5
      extract_lets +onlyGivenNames x6
      have h7 : Keeps P r x6 := (keeps_updMedia p_reach h)
      clear_value x6
      split
      · refine KeepsO.of_next ?_
        refine keeps_drainAll p_free p_regs p_acc p_mem p_reach p_chan p_deep p_servo p_zone p_host p_stage p_memc p_evr p_sluice p_trust ?_
        refine Keeps.foldl ?_ fun y8 y9 h10 => ?_
        · exact h7
        · unfold x5
          exact (keeps_updBegun p_reach h10)
      · split
        · split
          · exact KeepsO.of_next h
          · refine KeepsO.of_next ?_
            refine keeps_drainAll p_free p_regs p_acc p_mem p_reach p_chan p_deep p_servo p_zone p_host p_stage p_memc p_evr p_sluice p_trust ?_
            refine Keeps.foldl ?_ fun y11 y12 h13 => ?_
            · exact h7
            · unfold x5
              exact (keeps_updBegun p_reach h13)
        · extract_lets +onlyGivenNames x14
          clear_value x14
          extract_lets +onlyGivenNames x15
          clear_value x15
          extract_lets +onlyGivenNames x16
          clear_value x16
          split
          · exact KeepsO.of_next (keeps_drainAll p_free p_regs p_acc p_mem p_reach p_chan p_deep p_servo p_zone p_host p_stage p_memc p_evr p_sluice
              p_trust (keeps_updArch p_reach (keeps_updBegun p_reach h7)))
          · refine KeepsO.of_next ?_
            refine keeps_drainAll p_free p_regs p_acc p_mem p_reach p_chan p_deep p_servo p_zone p_host p_stage p_memc p_evr p_sluice p_trust ?_
            unfold x5
            exact (keeps_updBegun p_reach h7)

/-- `execUnsampledSector` keeps. -/
theorem keeps_execUnsampledSector {P : Part → Prop} {r s : State} {b0 : Fin 4} {b1 : Bool} (p_free : P .free) (p_regs : P .regs) (p_acc : P .acc) (p_mem : P .mem) (p_reach : P .reach)
    (p_chan : P .chan) (p_deep : P .deep) (p_servo : P .servo) (p_zone : P .zone) (p_host : P .host) (p_stage : P .stage) (p_memc : P .memc) (p_evr :
    P .evr) (p_sluice : P .sluice) (p_trust : P .trust) (h : Keeps P r s) : KeepsO P r (execUnsampledSector b0 b1 s) := by
  unfold execUnsampledSector
  extract_lets +onlyGivenNames x1
  clear_value x1
  split
  · split
    · exact KeepsO.of_next h
    · exact KeepsO.of_next (keeps_drainAll p_free p_regs p_acc p_mem p_reach p_chan p_deep p_servo p_zone p_host p_stage p_memc p_evr p_sluice
        p_trust (keeps_unsampled p_regs p_acc p_reach p_chan h))
  · split
    · exact KeepsO.of_next h
    · split
      · exact KeepsO.of_next h
      · split
        · exact KeepsO.of_next h
        · exact KeepsO.of_next (keeps_unsampledRaw p_free p_regs p_acc p_mem p_reach p_chan p_deep p_servo p_zone p_host p_stage p_memc p_evr p_trust
            h)

end Sys2Proof.Machine
end

