-- ==== Sys2Proof/Laws/KeepsWritePath.lean ====
section
/-! SUPPORT. What the operations of Machine/WritePath.lean keep. -/

namespace Sys2Proof.Machine

set_option Elab.async false

/-- `State.touchdown` keeps. -/
theorem keeps_touchdown {P : Part → Prop} {r s : State} {b1 : Fin 4} {b2 : Bool} (p_regs : P .regs) (p_chan : P .chan) (p_evr : P .evr) (h : Keeps P r s) : Keeps P r
    (State.touchdown s b1 b2) := by
  unfold State.touchdown
  extract_lets +onlyGivenNames x1
  clear_value x1
  extract_lets +onlyGivenNames x2
  clear_value x2
  exact (keeps_raise p_evr (keeps_updCh p_chan (keeps_wr p_regs (keeps_wr p_regs (keeps_wr p_regs (keeps_wr p_regs (keeps_wr p_regs (keeps_armSend
      p_chan h))))))))

/-- `State.armEdge` keeps. -/
theorem keeps_armEdge {P : Part → Prop} {r s : State} {b1 : Fin 4} (p_regs : P .regs) (p_chan : P .chan) (p_preamp : P .preamp) (h : Keeps P r s) : Keeps P r
    (State.armEdge s b1) := by
  unfold State.armEdge
  exact (keeps_updPreamp p_preamp (keeps_updCh p_chan (keeps_wr p_regs (keeps_wr p_regs h))))

/-- `State.begin` keeps. -/
theorem keeps_begin {P : Part → Prop} {r s : State} {b1 : Fin 4} {b2 : Fin 4} {b3 : Begun} {b4 : ℕ} {b5 : Bool} (p_regs : P .regs) (p_reach : P .reach) (p_chan : P
    .chan) (h : Keeps P r s) : Keeps P r (State.begin s b1 b2 b3 b4 b5) := by
  unfold State.begin
  exact (keeps_updArch p_reach (keeps_updMedia p_reach (keeps_updEng p_reach (keeps_eqBoundary p_regs p_chan h))))

/-- `State.captureRaw` keeps. -/
theorem keeps_captureRaw {P : Part → Prop} {r s : State} {b1 : Fin 4} {b2 : Fin 4} {b3 : Media} {b4 : Option Signal} (p_free : P .free) (p_regs : P .regs) (p_acc : P .acc)
    (p_mem : P .mem) (p_reach : P .reach) (p_chan : P .chan) (p_deep : P .deep) (p_servo : P .servo) (p_zone : P .zone) (p_host : P .host) (p_stage :
    P .stage) (p_memc : P .memc) (p_evr : P .evr) (p_trust : P .trust) (h : Keeps P r s) : Keeps P r (State.captureRaw s b1 b2 b3 b4) := by
  unfold State.captureRaw
  split
  · exact h
  · extract_lets +onlyGivenNames x1
    clear_value x1
    split
    · rename_i y2 y3 y4 y5 y6
      have h7 : Keeps P r y4 := Keeps.fst y6 (keeps_store p_regs p_acc p_mem p_stage p_memc p_evr (keeps_eqBoundary p_regs p_chan (Keeps.ite
          (keeps_tookFree p_free h) h)))
      exact (Keeps.ite (keeps_endWith p_free p_regs p_acc p_mem p_reach p_chan p_deep p_servo p_zone p_host p_stage p_memc p_evr p_trust h7)
          (keeps_settleMedia p_free p_regs p_acc p_mem p_reach p_chan p_deep p_servo p_zone p_host p_stage p_memc p_evr p_trust (keeps_updArch
          p_reach (keeps_updMedia p_reach h7))))

/-- `State.loopWeight` keeps. -/
theorem keeps_loopWeight {P : Part → Prop} {r s : State} {b1 : Fin 4} {b2 : ℕ} {b3 : Option ℕ} (p_chan : P .chan) (h : Keeps P r s) : Keeps P r (State.loopWeight s b1 b2 b3) := by
  unfold State.loopWeight
  exact (Keeps.ite (keeps_updCh p_chan h) h)

/-- `State.commitWrite` keeps. -/
theorem keeps_commitWrite {P : Part → Prop} {r s : State} {b1 : Fin 4} {b2 : Fin 4} {b3 : Begun} {b4 : ℕ} (p_free : P .free) (p_regs : P .regs) (p_acc : P .acc) (p_mem : P
    .mem) (p_reach : P .reach) (p_chan : P .chan) (p_deep : P .deep) (p_servo : P .servo) (p_medium : P .medium) (p_zone : P .zone) (p_host : P
    .host) (p_stage : P .stage) (p_memc : P .memc) (p_evr : P .evr) (p_trust : P .trust) (h : Keeps P r s) : Keeps P r (State.commitWrite s b1 b2 b3
    b4) := by
  unfold State.commitWrite
  extract_lets +onlyGivenNames x1
  have h2 : Keeps P r x1 := (keeps_updArch p_reach (keeps_loopWeight p_chan (keeps_runParity p_regs p_acc p_mem p_zone p_stage p_memc p_evr
      (keeps_updSector p_medium (keeps_dropBegun p_reach h)))))
  clear_value x1
  split
  · exact (keeps_settleMedia p_free p_regs p_acc p_mem p_reach p_chan p_deep p_servo p_zone p_host p_stage p_memc p_evr p_trust h2)
  · extract_lets +onlyGivenNames x3
    refine Keeps.step (P := P) (r := r) (x := x3) ?_ ?_
    · unfold x3
      split
      · exact h2
      · exact (keeps_zoneCommit p_regs p_acc p_mem p_zone p_stage p_memc p_evr h2)
    intro h4
    clear_value x3
    extract_lets +onlyGivenNames x5
    clear_value x5
    extract_lets +onlyGivenNames x6
    refine Keeps.step (P := P) (r := r) (x := x6) ?_ ?_
    · unfold x6
      split
      · exact h4
      · exact (keeps_updCh p_chan h4)
    intro h7
    clear_value x6
    exact (keeps_settleMedia p_free p_regs p_acc p_mem p_reach p_chan p_deep p_servo p_zone p_host p_stage p_memc p_evr p_trust (keeps_committed
        p_free p_regs p_acc p_mem p_reach p_chan p_deep p_servo p_zone p_host p_stage p_memc p_evr p_trust (keeps_commitData p_mem p_reach p_host
        h7)))

/-- `State.ecsReading` keeps. -/
theorem keeps_ecsReading {P : Part → Prop} {r s : State} {b1 : Fin 4} {b2 : ℕ} (p_regs : P .regs) (p_chan : P .chan) (p_evr : P .evr) (h : Keeps P r s) : Keeps P r
    (State.ecsReading s b1 b2) := by
  unfold State.ecsReading
  split
  · exact h
  · extract_lets +onlyGivenNames x1
    clear_value x1
    extract_lets +onlyGivenNames x2
    clear_value x2
    split
    · exact (keeps_updCh p_chan h)
    · extract_lets +onlyGivenNames x3
      clear_value x3
      extract_lets +onlyGivenNames x4
      have h5 : Keeps P r x4 := (keeps_updCh p_chan h)
      clear_value x4
      exact (Keeps.ite (keeps_touchdown p_regs p_chan p_evr h5) h5)

/-- `State.failWrite` keeps. -/
theorem keeps_failWrite {P : Part → Prop} {r s : State} {b1 : Fin 4} {b2 : Fin 4} {b3 : Begun} {b4 : ℕ} (p_free : P .free) (p_regs : P .regs) (p_acc : P .acc) (p_mem : P
    .mem) (p_reach : P .reach) (p_chan : P .chan) (p_deep : P .deep) (p_servo : P .servo) (p_zone : P .zone) (p_host : P .host) (p_stage : P .stage)
    (p_memc : P .memc) (p_evr : P .evr) (p_trust : P .trust) (h : Keeps P r s) : Keeps P r (State.failWrite s b1 b2 b3 b4) := by
  unfold State.failWrite
  extract_lets +onlyGivenNames x1
  clear_value x1
  extract_lets +onlyGivenNames x2
  have h3 : Keeps P r x2 := (keeps_wr p_regs (keeps_headCount p_regs p_acc (keeps_wr p_regs (keeps_idlePair p_regs p_chan h))))
  clear_value x2
  extract_lets +onlyGivenNames x4
  have h5 : Keeps P r x4 := (keeps_raise p_evr h3)
  clear_value x4
  extract_lets +onlyGivenNames x6
  have h7 : Keeps P r x6 := (Keeps.ite (keeps_jIssues p_regs p_acc p_mem p_zone p_stage p_memc p_evr h5) h5)
  clear_value x6
  exact (keeps_failWith p_free p_regs p_acc p_mem p_reach p_chan p_deep p_servo p_zone p_host p_stage p_memc p_evr p_trust (keeps_updArch p_reach h7))

/-- `State.lastBit` keeps. -/
theorem keeps_lastBit {P : Part → Prop} {r s : State} {b1 : Fin 4} (p_reach : P .reach) (p_medium : P .medium) (h : Keeps P r s) : Keeps P r (State.lastBit s b1) := by
  unfold State.lastBit
  split
  · exact h
  · exact (keeps_updSector p_medium (keeps_updBegun p_reach h))

/-- `State.leaveUncommitted` keeps. -/
theorem keeps_leaveUncommitted {P : Part → Prop} {r s : State} {b1 : Fin 4} {b2 : Fin 4} {b3 : Begun} (p_free : P .free) (p_regs : P .regs) (p_acc : P .acc) (p_mem : P .mem)
    (p_reach : P .reach) (p_chan : P .chan) (p_deep : P .deep) (p_servo : P .servo) (p_zone : P .zone) (p_host : P .host) (p_stage : P .stage)
    (p_memc : P .memc) (p_evr : P .evr) (p_trust : P .trust) (h : Keeps P r s) : Keeps P r (State.leaveUncommitted s b1 b2 b3) := by
  unfold State.leaveUncommitted
  extract_lets +onlyGivenNames x1
  have h2 : Keeps P r x1 := (keeps_dropBegun p_reach h)
  clear_value x1
  exact (keeps_settleMedia p_free p_regs p_acc p_mem p_reach p_chan p_deep p_servo p_zone p_host p_stage p_memc p_evr p_trust (Keeps.ite
      (keeps_jIssues p_regs p_acc p_mem p_zone p_stage p_memc p_evr h2) h2))

/-- `State.loopPinned` keeps. -/
theorem keeps_loopPinned {P : Part → Prop} {r s : State} {b1 : Fin 4} {b2 : Bool} {b3 : ℕ} (p_regs : P .regs) (p_acc : P .acc) (p_mem : P .mem) (p_zone : P .zone) (p_stage :
    P .stage) (p_memc : P .memc) (p_evr : P .evr) (h : Keeps P r s) : Keeps P r (State.loopPinned s b1 b2 b3) := by
  unfold State.loopPinned
  extract_lets +onlyGivenNames x1
  clear_value x1
  extract_lets +onlyGivenNames x2
  clear_value x2
  extract_lets +onlyGivenNames x3
  clear_value x3
  extract_lets +onlyGivenNames x4
  have h5 : Keeps P r x4 := (keeps_wr p_regs h)
  clear_value x4
  extract_lets +onlyGivenNames x6
  have h7 : Keeps P r x6 := (Keeps.ite h5 (keeps_raise p_evr (keeps_headCount p_regs p_acc (keeps_wr p_regs h5))))
  clear_value x6
  split
  · exact (Keeps.ite (keeps_flagVerify p_regs p_acc p_mem p_zone p_stage p_memc p_evr h7) h7)
  · exact h7

/-- `State.startSector` keeps. -/
theorem keeps_startSector {P : Part → Prop} {r s : State} {b1 : Fin 4} {b2 : Fin 4} {b3 : Place} {b4 : Media} {b5 : Sector} {b6 : Option ℕ} (p_regs : P .regs) (p_reach : P
    .reach) (p_chan : P .chan) (p_medium : P .medium) (h : Keeps P r s) : Keeps P r (State.startSector s b1 b2 b3 b4 b5 b6) := by
  unfold State.startSector
  extract_lets +onlyGivenNames x1
  clear_value x1
  extract_lets +onlyGivenNames x2
  have h3 : Keeps P r x2 := (keeps_wr p_regs (keeps_layDown p_medium (keeps_shingle p_medium (keeps_lastBit p_reach p_medium h))))
  clear_value x2
  exact (keeps_begin p_regs p_reach p_chan (keeps_updCh p_chan h3))

/-- `State.startData` keeps. -/
theorem keeps_startData {P : Part → Prop} {r s : State} {b1 : Fin 4} {b2 : Fin 4} {b3 : Place} {b4 : Media} (p_free : P .free) (p_regs : P .regs) (p_acc : P .acc) (p_mem : P
    .mem) (p_reach : P .reach) (p_chan : P .chan) (p_deep : P .deep) (p_servo : P .servo) (p_medium : P .medium) (p_zone : P .zone) (p_host : P
    .host) (p_stage : P .stage) (p_memc : P .memc) (p_evr : P .evr) (p_trust : P .trust) (h : Keeps P r s) : Keeps P r (State.startData s b1 b2 b3 b4) := by
  unfold State.startData
  split
  · exact (keeps_endWith p_free p_regs p_acc p_mem p_reach p_chan p_deep p_servo p_zone p_host p_stage p_memc p_evr p_trust h)
  · split
    · exact (keeps_endWith p_free p_regs p_acc p_mem p_reach p_chan p_deep p_servo p_zone p_host p_stage p_memc p_evr p_trust h)
    · split
      · exact (Keeps.ite (keeps_endWith p_free p_regs p_acc p_mem p_reach p_chan p_deep p_servo p_zone p_host p_stage p_memc p_evr p_trust h)
          (keeps_updMedia p_reach h))
      · split
        · rename_i y1 y2 y3 y4 y5 y6 y7 y8 y9 y10 y11
          have h12 : Keeps P r y10 := Keeps.fst y11 (keeps_acceptSector p_regs p_acc p_mem p_zone p_stage p_memc p_evr h)
          exact h12
        · rename_i y13 y14 y15 y16 y17 y18 y19 y20 y21 y22 y23
          have h24 : Keeps P r y22 := Keeps.fst y23 (keeps_acceptSector p_regs p_acc p_mem p_zone p_stage p_memc p_evr h)
          exact (keeps_endWith p_free p_regs p_acc p_mem p_reach p_chan p_deep p_servo p_zone p_host p_stage p_memc p_evr p_trust h24)
        · rename_i y25 y26 y27 y28 y29 y30 y31 y32 y33 y34 y35 y36 y37 y38
          have h39 : Keeps P r y34 := Keeps.fst y38 (keeps_acceptSector p_regs p_acc p_mem p_zone p_stage p_memc p_evr h)
          exact (keeps_startSector p_regs p_reach p_chan p_medium (keeps_ctxUpd p_mem p_host (keeps_holdParity p_regs p_acc p_mem p_zone p_stage
              p_memc p_evr h39)))

/-- `State.startExtra` keeps. -/
theorem keeps_startExtra {P : Part → Prop} {r s : State} {b1 : Fin 4} {b2 : Fin 4} {b3 : Media} {b4 : Place} (p_free : P .free) (p_regs : P .regs) (p_reach : P .reach)
    (p_chan : P .chan) (h : Keeps P r s) : Keeps P r (State.startExtra s b1 b2 b3 b4) := by
  unfold State.startExtra
  split
  · exact h
  · extract_lets +onlyGivenNames x1
    clear_value x1
    extract_lets +onlyGivenNames x2
    have h3 : Keeps P r x2 := (Keeps.ite (keeps_tookFree p_free h) h)
    clear_value x2
    exact (keeps_begin p_regs p_reach p_chan h3)

/-- `State.startRead` keeps. -/
theorem keeps_startRead {P : Part → Prop} {r s : State} {b1 : Fin 4} {b2 : Fin 4} {b3 : Media} (p_free : P .free) (p_regs : P .regs) (p_acc : P .acc) (p_mem : P .mem)
    (p_reach : P .reach) (p_chan : P .chan) (p_deep : P .deep) (p_servo : P .servo) (p_zone : P .zone) (p_host : P .host) (p_stage : P .stage)
    (p_memc : P .memc) (p_evr : P .evr) (p_trust : P .trust) (h : Keeps P r s) : Keeps P r (State.startRead s b1 b2 b3) := by
  unfold State.startRead
  split
  · exact h
  · extract_lets +onlyGivenNames x1
    clear_value x1
    split
    · exact (keeps_endWith p_free p_regs p_acc p_mem p_reach p_chan p_deep p_servo p_zone p_host p_stage p_memc p_evr p_trust h)
    · split
      · exact (keeps_endWith p_free p_regs p_acc p_mem p_reach p_chan p_deep p_servo p_zone p_host p_stage p_memc p_evr p_trust h)
      · extract_lets +onlyGivenNames x2
        clear_value x2
        extract_lets +onlyGivenNames x3
        have h4 : Keeps P r x3 := (Keeps.ite (keeps_tookFree p_free h) h)
        clear_value x3
        extract_lets +onlyGivenNames x5
        have h6 : Keeps P r x5 := (Keeps.ite (keeps_ctxUpd p_mem p_host h4) h4)
        clear_value x5
        exact (keeps_begin p_regs p_reach p_chan h6)

/-- `State.startWrite` keeps. -/
theorem keeps_startWrite {P : Part → Prop} {r s : State} {b1 : Fin 4} {b2 : Fin 4} {b3 : Place} {b4 : Media} (p_free : P .free) (p_regs : P .regs) (p_acc : P .acc) (p_mem : P
    .mem) (p_reach : P .reach) (p_chan : P .chan) (p_deep : P .deep) (p_servo : P .servo) (p_medium : P .medium) (p_zone : P .zone) (p_host : P
    .host) (p_stage : P .stage) (p_memc : P .memc) (p_evr : P .evr) (p_trust : P .trust) (h : Keeps P r s) : Keeps P r (State.startWrite s b1 b2 b3
    b4) := by
  unfold State.startWrite
  split
  · exact (keeps_endWith p_free p_regs p_acc p_mem p_reach p_chan p_deep p_servo p_zone p_host p_stage p_memc p_evr p_trust (keeps_wr p_regs h))
  · split
    · exact (keeps_updCh p_chan h)
    · split
      · exact h
      · split
        · extract_lets +onlyGivenNames x1
          have h2 : Keeps P r x1 := (keeps_holdParity p_regs p_acc p_mem p_zone p_stage p_memc p_evr h)
          clear_value x1
          exact (keeps_startSector p_regs p_reach p_chan p_medium h2)
        · exact (keeps_startData p_free p_regs p_acc p_mem p_reach p_chan p_deep p_servo p_medium p_zone p_host p_stage p_memc p_evr p_trust h)

/-- `State.startNext` keeps. -/
theorem keeps_startNext {P : Part → Prop} {r s : State} {b1 : Fin 4} {b2 : Fin 4} {b3 : Place} {b4 : Media} {b5 : Option Signal} (p_free : P .free) (p_regs : P .regs) (p_acc
    : P .acc) (p_mem : P .mem) (p_reach : P .reach) (p_chan : P .chan) (p_deep : P .deep) (p_servo : P .servo) (p_medium : P .medium) (p_zone : P
    .zone) (p_host : P .host) (p_stage : P .stage) (p_memc : P .memc) (p_evr : P .evr) (p_trust : P .trust) (h : Keeps P r s) : Keeps P r
    (State.startNext s b1 b2 b3 b4 b5) := by
  unfold State.startNext
  split
  · exact (keeps_startWrite p_free p_regs p_acc p_mem p_reach p_chan p_deep p_servo p_medium p_zone p_host p_stage p_memc p_evr p_trust h)
  · exact (keeps_captureRaw p_free p_regs p_acc p_mem p_reach p_chan p_deep p_servo p_zone p_host p_stage p_memc p_evr p_trust h)
  · exact (Keeps.ite (keeps_startExtra p_free p_regs p_reach p_chan h) (keeps_startRead p_free p_regs p_acc p_mem p_reach p_chan p_deep p_servo
      p_zone p_host p_stage p_memc p_evr p_trust h))

/-- `execAloopWindowEnd` keeps. -/
theorem keeps_execAloopWindowEnd {P : Part → Prop} {r s : State} {b0 : Fin 4} (p_regs : P .regs) (p_acc : P .acc) (p_mem : P .mem) (p_chan : P .chan) (p_zone : P .zone) (p_stage : P
    .stage) (p_memc : P .memc) (p_evr : P .evr) (h : Keeps P r s) : KeepsO P r (execAloopWindowEnd b0 s) := by
  unfold execAloopWindowEnd
  extract_lets +onlyGivenNames x1
  clear_value x1
  split
  · exact KeepsO.of_next h
  · extract_lets +onlyGivenNames x2
    clear_value x2
    extract_lets +onlyGivenNames x3
    clear_value x3
    extract_lets +onlyGivenNames x4
    clear_value x4
    extract_lets +onlyGivenNames x5
    clear_value x5
    extract_lets +onlyGivenNames x6
    have h7 : Keeps P r x6 := (keeps_updCh p_chan h)
    clear_value x6
    extract_lets +onlyGivenNames x8
    split
    · split
      · refine KeepsO.of_next ?_
        refine keeps_loopPinned p_regs p_acc p_mem p_zone p_stage p_memc p_evr ?_
        unfold x8
        exact (Keeps.ite h7 (keeps_armSend p_chan (keeps_wr p_regs h7)))
      · refine KeepsO.of_next ?_
        unfold x8
        exact (Keeps.ite h7 (keeps_armSend p_chan (keeps_wr p_regs h7)))
    · split
      · split
        · refine KeepsO.of_next ?_
          refine keeps_loopPinned p_regs p_acc p_mem p_zone p_stage p_memc p_evr ?_
          unfold x8
          exact (Keeps.ite h7 (keeps_armSend p_chan (keeps_wr p_regs h7)))
        · refine KeepsO.of_next ?_
          unfold x8
          exact (Keeps.ite h7 (keeps_armSend p_chan (keeps_wr p_regs h7)))
      · exact KeepsO.of_next h7

/-- `execAssistTailEnd` keeps. -/
theorem keeps_execAssistTailEnd {P : Part → Prop} {r s : State} {b0 : Fin 4} (p_chan : P .chan) (h : Keeps P r s) : KeepsO P r (execAssistTailEnd b0 s) := by
  unfold execAssistTailEnd
  split
  · exact KeepsO.of_next (keeps_sendDisarm p_chan (keeps_updCh p_chan h))
  · exact KeepsO.of_next h

/-- `execReadBehindDecided` keeps. -/
theorem keeps_execReadBehindDecided {P : Part → Prop} {r s : State} {b0 : Fin 4} {b1 : ReadBehind} {b2 : Option (List ℤ)} (p_free : P .free) (p_regs : P .regs) (p_acc : P .acc) (p_mem :
    P .mem) (p_reach : P .reach) (p_chan : P .chan) (p_deep : P .deep) (p_servo : P .servo) (p_medium : P .medium) (p_zone : P .zone) (p_host : P
    .host) (p_stage : P .stage) (p_memc : P .memc) (p_evr : P .evr) (p_trust : P .trust) (h : Keeps P r s) : KeepsO P r (execReadBehindDecided b0 b1
    b2 s) := by
  unfold execReadBehindDecided
  split
  · exact KeepsO.of_next h
  · split
    · exact KeepsO.of_next h
    · extract_lets +onlyGivenNames x1
      clear_value x1
      split
      · exact KeepsO.of_next (keeps_settleVoids p_regs (keeps_commitWrite p_free p_regs p_acc p_mem p_reach p_chan p_deep p_servo p_medium p_zone
          p_host p_stage p_memc p_evr p_trust h))
      · split
        · exact KeepsO.of_next (keeps_settleVoids p_regs (keeps_leaveUncommitted p_free p_regs p_acc p_mem p_reach p_chan p_deep p_servo p_zone
            p_host p_stage p_memc p_evr p_trust h))
        · exact KeepsO.of_next (keeps_settleVoids p_regs (keeps_failWrite p_free p_regs p_acc p_mem p_reach p_chan p_deep p_servo p_zone p_host
            p_stage p_memc p_evr p_trust h))

/-- `execRunEndIdle` keeps. -/
theorem keeps_execRunEndIdle {P : Part → Prop} {r s : State} {b0 : Fin 4} (p_regs : P .regs) (p_reach : P .reach) (p_chan : P .chan) (p_medium : P .medium) (h : Keeps P r s) :
    KeepsO P r (execRunEndIdle b0 s) := by
  unfold execRunEndIdle
  split
  · exact KeepsO.of_next (keeps_idlePair p_regs p_chan (keeps_lastBit p_reach p_medium h))
  · exact KeepsO.of_next h

/-- `execSectorStart` keeps. -/
theorem keeps_execSectorStart {P : Part → Prop} {r s : State} {b0 : Fin 4} {b1 : Option Signal} (p_free : P .free) (p_regs : P .regs) (p_acc : P .acc) (p_mem : P .mem) (p_reach :
    P .reach) (p_chan : P .chan) (p_deep : P .deep) (p_servo : P .servo) (p_medium : P .medium) (p_zone : P .zone) (p_host : P .host) (p_stage : P
    .stage) (p_memc : P .memc) (p_evr : P .evr) (p_trust : P .trust) (h : Keeps P r s) : KeepsO P r (execSectorStart b0 b1 s) := by
  unfold execSectorStart
  split
  · exact KeepsO.of_next h
  · extract_lets +onlyGivenNames x1
    clear_value x1
    split
    · split
      · exact KeepsO.of_next (keeps_complete p_free p_regs p_acc p_mem p_reach p_chan p_deep p_servo p_zone p_host p_stage p_memc p_evr p_trust h)
      · split
        · exact KeepsO.of_next (keeps_complete p_free p_regs p_acc p_mem p_reach p_chan p_deep p_servo p_zone p_host p_stage p_memc p_evr p_trust h)
        · exact KeepsO.of_next (keeps_position p_free p_regs p_acc p_reach p_chan p_servo h)
    · split
      · exact KeepsO.of_next h
      · split
        · split
          · exact KeepsO.of_next (keeps_updMedia p_reach h)
          · exact KeepsO.of_next (keeps_endWith p_free p_regs p_acc p_mem p_reach p_chan p_deep p_servo p_zone p_host p_stage p_memc p_evr p_trust h)
        · split
          · exact KeepsO.of_next (keeps_endWith p_free p_regs p_acc p_mem p_reach p_chan p_deep p_servo p_zone p_host p_stage p_memc p_evr p_trust h)
          · split
            · exact KeepsO.of_next (keeps_position p_free p_regs p_acc p_reach p_chan p_servo h)
            · exact KeepsO.of_next (keeps_startNext p_free p_regs p_acc p_mem p_reach p_chan p_deep p_servo p_medium p_zone p_host p_stage p_memc
                p_evr p_trust (keeps_notePlace p_reach h))
    · exact KeepsO.of_next h

/-- `execTouchdownSample` keeps. -/
theorem keeps_execTouchdownSample {P : Part → Prop} {r s : State} {b0 : Fin 4} {b1 : BitVec 16} (p_regs : P .regs) (p_chan : P .chan) (p_evr : P .evr) (h : Keeps P r s) : KeepsO P r
    (execTouchdownSample b0 b1 s) := by
  unfold execTouchdownSample
  extract_lets +onlyGivenNames x1
  have h2 : Keeps P r x1 := (Keeps.ite (keeps_updCh p_chan h) h)
  clear_value x1
  exact KeepsO.of_next (keeps_ecsReading p_regs p_chan p_evr h2)

/-- `execWmodeArm` keeps. -/
theorem keeps_execWmodeArm {P : Part → Prop} {r s : State} {b0 : Fin 4} {b1 : Bool} {b2 : Fin 3} (p_free : P .free) (p_regs : P .regs) (p_acc : P .acc) (p_mem : P .mem)
    (p_reach : P .reach) (p_chan : P .chan) (p_preamp : P .preamp) (p_deep : P .deep) (p_servo : P .servo) (p_zone : P .zone) (p_host : P .host)
    (p_stage : P .stage) (p_memc : P .memc) (p_evr : P .evr) (p_trust : P .trust) (h : Keeps P r s) : KeepsO P r (execWmodeArm b0 b1 b2 s) := by
  unfold execWmodeArm
  split
  · exact KeepsO.of_next h
  · split
    · exact KeepsO.of_next h
    · split
      · exact KeepsO.of_next h
      · extract_lets +onlyGivenNames x1
        have h2 : Keeps P r x1 := (Keeps.ite h (keeps_count p_regs p_acc h))
        clear_value x1
        extract_lets +onlyGivenNames x3
        have h4 : Keeps P r x3 := (Keeps.ite (keeps_armEdge p_regs p_chan p_preamp h2) (keeps_linkErr p_regs p_evr h2))
        clear_value x3
        split
        · exact KeepsO.of_next (keeps_updCh p_chan h4)
        · extract_lets +onlyGivenNames x5
          have h6 : Keeps P r x5 := (keeps_sendDisarm p_chan (keeps_updCh p_chan h4))
          clear_value x5
          split
          · exact KeepsO.of_next (keeps_endWith p_free p_regs p_acc p_mem p_reach p_chan p_deep p_servo p_zone p_host p_stage p_memc p_evr p_trust
              (keeps_updCh p_chan h6))
          · exact KeepsO.of_next (keeps_updCh p_chan h6)

end Sys2Proof.Machine
end

