-- ==== Sys2Proof/Laws/KeepsServo.lean ====
section
/-! SUPPORT. What the operations of Machine/Servo.lean keep. -/

namespace Sys2Proof.Machine

set_option Elab.async false

/-- `State.endOps` keeps. -/
theorem keeps_endOps {P : Part → Prop} {r s : State} {b1 : Fin 4} {b2 : ℕ} {b3 : List (Fin 4)} (p_free : P .free) (p_regs : P .regs) (p_acc : P .acc) (p_mem : P .mem)
    (p_reach : P .reach) (p_chan : P .chan) (p_deep : P .deep) (p_servo : P .servo) (p_zone : P .zone) (p_host : P .host) (p_stage : P .stage)
    (p_memc : P .memc) (p_evr : P .evr) (p_trust : P .trust) (h : Keeps P r s) : Keeps P r (State.endOps s b1 b2 b3) := by
  induction b3 generalizing s b1 b2
  · simp only [State.endOps]
    exact h
  · rename_i a1 a2 ih
    simp only [State.endOps]
    refine ih ?_
    split
    · exact (keeps_complete p_free p_regs p_acc p_mem p_reach p_chan p_deep p_servo p_zone p_host p_stage p_memc p_evr p_trust h)
    · exact (keeps_complete p_free p_regs p_acc p_mem p_reach p_chan p_deep p_servo p_zone p_host p_stage p_memc p_evr p_trust h)
    · exact (keeps_complete p_free p_regs p_acc p_mem p_reach p_chan p_deep p_servo p_zone p_host p_stage p_memc p_evr p_trust h)
    · exact (keeps_complete p_free p_regs p_acc p_mem p_reach p_chan p_deep p_servo p_zone p_host p_stage p_memc p_evr p_trust h)
    · exact (keeps_complete p_free p_regs p_acc p_mem p_reach p_chan p_deep p_servo p_zone p_host p_stage p_memc p_evr p_trust h)
    · exact (keeps_endWith p_free p_regs p_acc p_mem p_reach p_chan p_deep p_servo p_zone p_host p_stage p_memc p_evr p_trust (keeps_dropBegun
        p_reach h))
    · exact h

/-- `State.markOps` keeps. -/
theorem keeps_markOps {P : Part → Prop} {r s : State} {b1 : Fin 4} {b2 : ℕ} {b3 : List (Fin 4)} (p_reach : P .reach) (h : Keeps P r s) : Keeps P r (State.markOps s b1 b2
    b3) := by
  induction b3 generalizing s b1 b2
  · simp only [State.markOps]
    exact h
  · rename_i a1 a2 ih
    simp only [State.markOps]
    exact (ih (keeps_updMedia p_reach h))

/-- `State.retract` keeps. -/
theorem keeps_retract {P : Part → Prop} {r s : State} {b1 : Fin 4} {b2 : ℕ} (p_free : P .free) (p_regs : P .regs) (p_acc : P .acc) (p_mem : P .mem) (p_reach : P .reach)
    (p_chan : P .chan) (p_deep : P .deep) (p_servo : P .servo) (p_zone : P .zone) (p_host : P .host) (p_stage : P .stage) (p_memc : P .memc) (p_evr :
    P .evr) (p_trust : P .trust) (h : Keeps P r s) : Keeps P r (State.retract s b1 b2) := by
  unfold State.retract
  split
  · exact h
  · extract_lets +onlyGivenNames x1
    have h2 : Keeps P r x1 := (keeps_endOps p_free p_regs p_acc p_mem p_reach p_chan p_deep p_servo p_zone p_host p_stage p_memc p_evr p_trust
        (keeps_writeStop p_free p_regs p_acc p_mem p_reach p_chan p_deep p_servo p_zone p_host p_stage p_memc p_evr p_trust (keeps_markOps p_reach
        h)))
    clear_value x1
    extract_lets +onlyGivenNames x3
    have h4 : Keeps P r x3 := (keeps_wr p_regs (keeps_wr p_regs h2))
    clear_value x3
    exact (keeps_raise p_evr (keeps_updSv p_servo h4))

/-- `State.takeover` keeps. -/
theorem keeps_takeover {P : Part → Prop} {r s : State} {b1 : Fin 4} {b2 : ℕ} (p_free : P .free) (p_regs : P .regs) (p_acc : P .acc) (p_mem : P .mem) (p_reach : P .reach)
    (p_chan : P .chan) (p_deep : P .deep) (p_servo : P .servo) (p_zone : P .zone) (p_host : P .host) (p_stage : P .stage) (p_memc : P .memc) (p_evr :
    P .evr) (p_trust : P .trust) (h : Keeps P r s) : Keeps P r (State.takeover s b1 b2) := by
  unfold State.takeover
  extract_lets +onlyGivenNames x1
  clear_value x1
  extract_lets +onlyGivenNames x2
  clear_value x2
  exact (Keeps.ite (keeps_retract p_free p_regs p_acc p_mem p_reach p_chan p_deep p_servo p_zone p_host p_stage p_memc p_evr p_trust h) (Keeps.ite h
      (Keeps.ite (keeps_retract p_free p_regs p_acc p_mem p_reach p_chan p_deep p_servo p_zone p_host p_stage p_memc p_evr p_trust h) (keeps_updSv
      p_servo (keeps_raise p_evr (keeps_count p_regs p_acc (keeps_wr p_regs (keeps_wr p_regs (keeps_wr p_regs h)))))))))

/-- `execCswap` keeps. -/
theorem keeps_execCswap {P : Part → Prop} {r s : State} {b0 : Fin 4} (p_servo : P .servo) (h : Keeps P r s) : KeepsO P r (execCswap b0 s) := by
  unfold execCswap
  exact KeepsO.of_next (keeps_updSv p_servo h)

/-- `execEret` keeps. -/
theorem keeps_execEret {P : Part → Prop} {r s : State} {b0 : Fin 4} (p_free : P .free) (p_regs : P .regs) (p_acc : P .acc) (p_mem : P .mem) (p_reach : P .reach) (p_chan : P
    .chan) (p_deep : P .deep) (p_servo : P .servo) (p_zone : P .zone) (p_host : P .host) (p_stage : P .stage) (p_memc : P .memc) (p_evr : P .evr)
    (p_trust : P .trust) (h : Keeps P r s) : KeepsO P r (execEret b0 s) := by
  unfold execEret
  exact KeepsO.of_next (keeps_retract p_free p_regs p_acc p_mem p_reach p_chan p_deep p_servo p_zone p_host p_stage p_memc p_evr p_trust h)

/-- `execFfSwap` keeps. -/
theorem keeps_execFfSwap {P : Part → Prop} {r s : State} {b0 : Fin 4} (p_servo : P .servo) (h : Keeps P r s) : KeepsO P r (execFfSwap b0 s) := by
  unfold execFfSwap
  exact KeepsO.of_next (keeps_updSv p_servo h)

/-- `execLoad` keeps. -/
theorem keeps_execLoad {P : Part → Prop} {r s : State} {b0 : Fin 4} (p_regs : P .regs) (p_servo : P .servo) (h : Keeps P r s) : KeepsO P r (execLoad b0 s) := by
  unfold execLoad
  split
  · exact KeepsO.of_next h
  · split
    · exact KeepsO.of_next (keeps_wr p_regs h)
    · exact KeepsO.of_next (keeps_updSv p_servo (keeps_wr p_regs h))

/-- `State.loadStandby` keeps. -/
theorem keeps_loadStandby {P : Part → Prop} {r s : State} {b1 : Fin 4} (p_servo : P .servo) (h : Keeps P r s) : Keeps P r (State.loadStandby s b1) := by
  unfold State.loadStandby
  exact (keeps_updSv p_servo h)

/-- `execStbyRst` keeps. -/
theorem keeps_execStbyRst {P : Part → Prop} {r s : State} {b0 : Fin 2} (p_regs : P .regs) (p_servo : P .servo) (h : Keeps P r s) : KeepsO P r (execStbyRst b0 s) := by
  unfold execStbyRst
  extract_lets +onlyGivenNames x1
  have h2 : Keeps P r x1 := (Keeps.ite (keeps_loadStandby p_servo (keeps_loadStandby p_servo h)) (keeps_loadStandby p_servo (keeps_loadStandby
      p_servo h)))
  clear_value x1
  exact KeepsO.of_next (keeps_wr p_regs h2)

/-- `State.unload` keeps. -/
theorem keeps_unload {P : Part → Prop} {r s : State} {b1 : Fin 4} (p_free : P .free) (p_regs : P .regs) (p_acc : P .acc) (p_servo : P .servo) (h : Keeps P r s) : Keeps P
    r (State.unload s b1) := by
  unfold State.unload
  split
  · exact h
  · extract_lets +onlyGivenNames x1
    have h2 : Keeps P r x1 := (keeps_updSv p_servo (keeps_wr p_regs h))
    clear_value x1
    exact (keeps_beginMove p_free p_regs p_acc p_servo (keeps_freshSeek p_servo h2))

/-- `execUnload` keeps. -/
theorem keeps_execUnload {P : Part → Prop} {r s : State} {b0 : Fin 4} (p_free : P .free) (p_regs : P .regs) (p_acc : P .acc) (p_servo : P .servo) (h : Keeps P r s) : KeepsO P
    r (execUnload b0 s) := by
  unfold execUnload
  exact KeepsO.of_next (keeps_unload p_free p_regs p_acc p_servo h)

/-- `State.afterSample` keeps. -/
theorem keeps_afterSample {P : Part → Prop} {r s : State} {b1 : Fin 4} {b2 : ℤ} (p_free : P .free) (p_regs : P .regs) (p_acc : P .acc) (p_mem : P .mem) (p_reach : P .reach)
    (p_chan : P .chan) (p_deep : P .deep) (p_servo : P .servo) (p_zone : P .zone) (p_host : P .host) (p_stage : P .stage) (p_memc : P .memc) (p_evr :
    P .evr) (p_trust : P .trust) (h : Keeps P r s) : Keeps P r (State.afterSample s b1 b2) := by
  unfold State.afterSample
  extract_lets +onlyGivenNames x1
  clear_value x1
  extract_lets +onlyGivenNames x2
  have h3 : Keeps P r x2 := (Keeps.ite (keeps_dropOnt p_regs p_servo h) h)
  clear_value x2
  extract_lets +onlyGivenNames x4
  have h5 : Keeps P r x4 := (Keeps.ite (keeps_writeStop p_free p_regs p_acc p_mem p_reach p_chan p_deep p_servo p_zone p_host p_stage p_memc p_evr
      p_trust h3) h3)
  clear_value x4
  extract_lets +onlyGivenNames x6
  have h7 : Keeps P r x6 := (Keeps.ite (keeps_updSv p_servo h5) h5)
  clear_value x6
  extract_lets +onlyGivenNames x8
  have h9 : Keeps P r x8 := (keeps_updCh p_chan h7)
  clear_value x8
  extract_lets +onlyGivenNames x10
  clear_value x10
  exact (Keeps.ite (keeps_touchdown p_regs p_chan p_evr h9) h9)

/-- `State.arrived` keeps. -/
theorem keeps_arrived {P : Part → Prop} {r s : State} {b1 : Fin 4} (p_free : P .free) (p_regs : P .regs) (p_acc : P .acc) (p_mem : P .mem) (p_reach : P .reach) (p_chan : P
    .chan) (p_deep : P .deep) (p_servo : P .servo) (p_zone : P .zone) (p_host : P .host) (p_stage : P .stage) (p_memc : P .memc) (p_evr : P .evr)
    (p_trust : P .trust) (h : Keeps P r s) : Keeps P r (State.arrived s b1) := by
  unfold State.arrived
  split
  · exact (keeps_complete p_free p_regs p_acc p_mem p_reach p_chan p_deep p_servo p_zone p_host p_stage p_memc p_evr p_trust h)
  · exact (keeps_complete p_free p_regs p_acc p_mem p_reach p_chan p_deep p_servo p_zone p_host p_stage p_memc p_evr p_trust h)
  · exact h

/-- `State.ownerEnds` keeps. -/
theorem keeps_ownerEnds {P : Part → Prop} {r s : State} {b1 : Fin 4} {b2 : ℕ} (p_free : P .free) (p_regs : P .regs) (p_acc : P .acc) (p_mem : P .mem) (p_reach : P .reach)
    (p_chan : P .chan) (p_deep : P .deep) (p_servo : P .servo) (p_zone : P .zone) (p_host : P .host) (p_stage : P .stage) (p_memc : P .memc) (p_evr :
    P .evr) (p_trust : P .trust) (h : Keeps P r s) : Keeps P r (State.ownerEnds s b1 b2) := by
  unfold State.ownerEnds
  split
  · exact (keeps_opEndsWith p_free p_regs p_acc p_mem p_reach p_chan p_deep p_servo p_zone p_host p_stage p_memc p_evr p_trust h)
  · exact h

/-- `State.seekFails` keeps. -/
theorem keeps_seekFails {P : Part → Prop} {r s : State} {b1 : Fin 4} {b2 : ℕ} (p_free : P .free) (p_regs : P .regs) (p_acc : P .acc) (p_mem : P .mem) (p_reach : P .reach)
    (p_chan : P .chan) (p_deep : P .deep) (p_servo : P .servo) (p_zone : P .zone) (p_host : P .host) (p_stage : P .stage) (p_memc : P .memc) (p_evr :
    P .evr) (p_trust : P .trust) (h : Keeps P r s) : Keeps P r (State.seekFails s b1 b2) := by
  unfold State.seekFails
  extract_lets +onlyGivenNames x1
  have h2 : Keeps P r x1 := (keeps_raise p_evr (keeps_count p_regs p_acc (keeps_wr p_regs h)))
  clear_value x1
  exact (keeps_ownerEnds p_free p_regs p_acc p_mem p_reach p_chan p_deep p_servo p_zone p_host p_stage p_memc p_evr p_trust h2)

/-- `State.trackBank` keeps. -/
theorem keeps_trackBank {P : Part → Prop} {r s : State} {b1 : Fin 4} {b2 : ℕ} {b3 : Bool} (p_regs : P .regs) (p_servo : P .servo) (h : Keeps P r s) : Keeps P r
    (State.trackBank s b1 b2 b3) := by
  unfold State.trackBank
  extract_lets +onlyGivenNames x1
  have h2 : Keeps P r x1 := (keeps_wr p_regs (keeps_updSv p_servo h))
  clear_value x1
  extract_lets +onlyGivenNames x3
  have h4 : Keeps P r x3 := (Keeps.ite h2 (keeps_wr p_regs h2))
  clear_value x3
  exact (Keeps.ite (keeps_wr p_regs h4) h4)

/-- `State.confirmed` keeps. -/
theorem keeps_confirmed {P : Part → Prop} {r s : State} {b1 : Fin 4} {b2 : ℕ} (p_free : P .free) (p_regs : P .regs) (p_acc : P .acc) (p_mem : P .mem) (p_reach : P .reach)
    (p_chan : P .chan) (p_deep : P .deep) (p_servo : P .servo) (p_zone : P .zone) (p_host : P .host) (p_stage : P .stage) (p_memc : P .memc) (p_evr :
    P .evr) (p_trust : P .trust) (h : Keeps P r s) : Keeps P r (State.confirmed s b1 b2) := by
  unfold State.confirmed
  extract_lets +onlyGivenNames x1
  clear_value x1
  split
  · extract_lets +onlyGivenNames x2
    have h3 : Keeps P r x2 := (keeps_wr p_regs (keeps_updSv p_servo h))
    clear_value x2
    exact (Keeps.ite (keeps_startSeek p_free p_regs p_acc p_servo (keeps_wr p_regs h3)) (keeps_trackBank p_regs p_servo h3))
  · extract_lets +onlyGivenNames x4
    clear_value x4
    split
    · exact (keeps_wr p_regs (keeps_updSv p_servo h))
    · split
      · extract_lets +onlyGivenNames x5
        have h6 : Keeps P r x5 := (keeps_wr p_regs (keeps_updSv p_servo (keeps_wr p_regs (keeps_count p_regs p_acc h))))
        clear_value x5
        exact (Keeps.ite h6 (keeps_wr p_regs h6))
      · exact (keeps_seekFails p_free p_regs p_acc p_mem p_reach p_chan p_deep p_servo p_zone p_host p_stage p_memc p_evr p_trust (keeps_trackBank
          p_regs p_servo h))
  · exact (keeps_trackBank p_regs p_servo h)

/-- `State.confirmWord` keeps. -/
theorem keeps_confirmWord {P : Part → Prop} {r s : State} {b1 : Fin 4} {b2 : Option ℕ} (p_free : P .free) (p_regs : P .regs) (p_acc : P .acc) (p_mem : P .mem) (p_reach : P
    .reach) (p_chan : P .chan) (p_deep : P .deep) (p_servo : P .servo) (p_zone : P .zone) (p_host : P .host) (p_stage : P .stage) (p_memc : P .memc)
    (p_evr : P .evr) (p_trust : P .trust) (h : Keeps P r s) : Keeps P r (State.confirmWord s b1 b2) := by
  unfold State.confirmWord
  extract_lets +onlyGivenNames x1
  clear_value x1
  extract_lets +onlyGivenNames x2
  have h3 : Keeps P r x2 := (keeps_updSv p_servo h)
  clear_value x2
  split
  · exact (keeps_confirmed p_free p_regs p_acc p_mem p_reach p_chan p_deep p_servo p_zone p_host p_stage p_memc p_evr p_trust h3)
  · split
    · split
      · split
        · exact (keeps_seekFails p_free p_regs p_acc p_mem p_reach p_chan p_deep p_servo p_zone p_host p_stage p_memc p_evr p_trust (keeps_trackBank
            p_regs p_servo h3))
        · exact (keeps_seekFails p_free p_regs p_acc p_mem p_reach p_chan p_deep p_servo p_zone p_host p_stage p_memc p_evr p_trust (keeps_trackBank
            p_regs p_servo (keeps_tookFree p_free h3)))
      · exact (keeps_updSv p_servo h3)
    · exact h3

/-- `State.settleParked` keeps. -/
theorem keeps_settleParked {P : Part → Prop} {r s : State} (p_regs : P .regs) (h : Keeps P r s) : Keeps P r (State.settleParked s) := by
  unfold State.settleParked
  exact (Keeps.ite (keeps_wr p_regs h) h)

/-- `State.degradeServo` keeps. -/
theorem keeps_degradeServo {P : Part → Prop} {r s : State} {b1 : Fin 4} (p_free : P .free) (p_regs : P .regs) (p_acc : P .acc) (p_mem : P .mem) (p_reach : P .reach) (p_chan : P
    .chan) (p_deep : P .deep) (p_servo : P .servo) (p_zone : P .zone) (p_host : P .host) (p_stage : P .stage) (p_memc : P .memc) (p_evr : P .evr)
    (p_trust : P .trust) (h : Keeps P r s) : Keeps P r (State.degradeServo s b1) := by
  unfold State.degradeServo
  exact (keeps_writeStop p_free p_regs p_acc p_mem p_reach p_chan p_deep p_servo p_zone p_host p_stage p_memc p_evr p_trust (keeps_raise p_evr
      (keeps_updSv p_servo (keeps_wr p_regs (keeps_setUnit p_regs (keeps_wr p_regs (keeps_wr p_regs h)))))))

/-- `State.divergence` keeps. -/
theorem keeps_divergence {P : Part → Prop} {r s : State} {b1 : Fin 4} (p_free : P .free) (p_regs : P .regs) (p_acc : P .acc) (p_mem : P .mem) (p_reach : P .reach) (p_chan : P
    .chan) (p_deep : P .deep) (p_servo : P .servo) (p_zone : P .zone) (p_host : P .host) (p_stage : P .stage) (p_memc : P .memc) (p_evr : P .evr)
    (p_trust : P .trust) (h : Keeps P r s) : Keeps P r (State.divergence s b1) := by
  unfold State.divergence
  extract_lets +onlyGivenNames x1
  clear_value x1
  extract_lets +onlyGivenNames x2
  clear_value x2
  extract_lets +onlyGivenNames x3
  have h4 : Keeps P r x3 := (keeps_takeover p_free p_regs p_acc p_mem p_reach p_chan p_deep p_servo p_zone p_host p_stage p_memc p_evr p_trust h)
  clear_value x3
  split
  · extract_lets +onlyGivenNames x5
    clear_value x5
    extract_lets +onlyGivenNames x6
    have h7 : Keeps P r x6 := (keeps_updSv p_servo h4)
    clear_value x6
    exact (Keeps.ite (keeps_degradeServo p_free p_regs p_acc p_mem p_reach p_chan p_deep p_servo p_zone p_host p_stage p_memc p_evr p_trust h7) h7)
  · exact h4

/-- `State.estimate` keeps. -/
theorem keeps_estimate {P : Part → Prop} {r s : State} {b1 : Fin 4} {b2 : ℤ} (p_regs : P .regs) (p_servo : P .servo) (h : Keeps P r s) : Keeps P r (State.estimate s b1 b2) := by
  unfold State.estimate
  extract_lets +onlyGivenNames x1
  clear_value x1
  extract_lets +onlyGivenNames x2
  clear_value x2
  extract_lets +onlyGivenNames x3
  have h4 : Keeps P r x3 := (keeps_updSv p_servo h)
  clear_value x3
  extract_lets +onlyGivenNames x5
  clear_value x5
  extract_lets +onlyGivenNames x6
  have h7 : Keeps P r x6 := (keeps_updSv p_servo h4)
  clear_value x6
  exact (keeps_wr p_regs (keeps_wr p_regs h7))

/-- `State.gainStep` keeps. -/
theorem keeps_gainStep {P : Part → Prop} {r s : State} {b1 : Fin 4} {b2 : ℤ} (p_free : P .free) (p_regs : P .regs) (p_acc : P .acc) (p_mem : P .mem) (p_reach : P .reach)
    (p_chan : P .chan) (p_deep : P .deep) (p_servo : P .servo) (p_zone : P .zone) (p_host : P .host) (p_stage : P .stage) (p_memc : P .memc) (p_evr :
    P .evr) (p_trust : P .trust) (h : Keeps P r s) : Keeps P r (State.gainStep s b1 b2) := by
  unfold State.gainStep
  extract_lets +onlyGivenNames x1
  clear_value x1
  extract_lets +onlyGivenNames x2
  clear_value x2
  split
  · exact h
  · split
    · extract_lets +onlyGivenNames x3
      have h4 : Keeps P r x3 := (keeps_wr p_regs h)
      clear_value x3
      exact (Keeps.ite (keeps_writeStop p_free p_regs p_acc p_mem p_reach p_chan p_deep p_servo p_zone p_host p_stage p_memc p_evr p_trust
          (keeps_raise p_evr (keeps_wr p_regs (keeps_setB p_regs h4)))) h4)

/-- `State.hopEnds` keeps. -/
theorem keeps_hopEnds {P : Part → Prop} {r s : State} {b1 : Fin 4} {b2 : ℤ} (p_free : P .free) (p_regs : P .regs) (p_acc : P .acc) (p_mem : P .mem) (p_reach : P .reach)
    (p_chan : P .chan) (p_deep : P .deep) (p_servo : P .servo) (p_zone : P .zone) (p_host : P .host) (p_stage : P .stage) (p_memc : P .memc) (p_evr :
    P .evr) (p_trust : P .trust) (h : Keeps P r s) : Keeps P r (State.hopEnds s b1 b2) := by
  unfold State.hopEnds
  extract_lets +onlyGivenNames x1
  clear_value x1
  extract_lets +onlyGivenNames x2
  have h3 : Keeps P r x2 := (keeps_updSv p_servo (keeps_wr p_regs h))
  clear_value x2
  extract_lets +onlyGivenNames x4
  clear_value x4
  extract_lets +onlyGivenNames x5
  clear_value x5
  exact (Keeps.ite h3 (keeps_gainStep p_free p_regs p_acc p_mem p_reach p_chan p_deep p_servo p_zone p_host p_stage p_memc p_evr p_trust h3))

/-- `State.startHop` keeps. -/
theorem keeps_startHop {P : Part → Prop} {r s : State} {b1 : Fin 4} {b2 : ℕ} (p_free : P .free) (p_regs : P .regs) (p_acc : P .acc) (p_servo : P .servo) (h : Keeps P r s) :
    Keeps P r (State.startHop s b1 b2) := by
  unfold State.startHop
  extract_lets +onlyGivenNames x1
  clear_value x1
  extract_lets +onlyGivenNames x2
  clear_value x2
  extract_lets +onlyGivenNames x3
  clear_value x3
  extract_lets +onlyGivenNames x4
  clear_value x4
  extract_lets +onlyGivenNames x5
  clear_value x5
  extract_lets +onlyGivenNames x6
  have h7 : Keeps P r x6 := (keeps_wr p_regs (keeps_count p_regs p_acc (keeps_wr p_regs h)))
  clear_value x6
  extract_lets +onlyGivenNames x8
  split
  · unfold x8
    exact (keeps_updSv p_servo (keeps_tookFree p_free h7))
  · unfold x8
    exact (keeps_updSv p_servo h7)

/-- `State.hopStep` keeps. -/
theorem keeps_hopStep {P : Part → Prop} {r s : State} {b1 : Fin 4} (p_free : P .free) (p_regs : P .regs) (p_acc : P .acc) (p_servo : P .servo) (h : Keeps P r s) : Keeps P
    r (State.hopStep s b1) := by
  unfold State.hopStep
  extract_lets +onlyGivenNames x1
  clear_value x1
  extract_lets +onlyGivenNames x2
  clear_value x2
  split
  · exact h
  · split
    · exact h
    · split
      · exact h
      · extract_lets +onlyGivenNames x3
        clear_value x3
        exact (Keeps.ite h (keeps_startHop p_free p_regs p_acc p_servo h))

/-- `State.loadDrive` keeps. -/
theorem keeps_loadDrive {P : Part → Prop} {r s : State} {b1 : Fin 4} (p_servo : P .servo) (h : Keeps P r s) : Keeps P r (State.loadDrive s b1) := by
  unfold State.loadDrive
  exact (keeps_updSv p_servo h)

/-- `State.releaseEnds` keeps. -/
theorem keeps_releaseEnds {P : Part → Prop} {r s : State} {b1 : Fin 4} (p_regs : P .regs) (p_acc : P .acc) (p_servo : P .servo) (h : Keeps P r s) : Keeps P r
    (State.releaseEnds s b1) := by
  unfold State.releaseEnds
  extract_lets +onlyGivenNames x1
  have h2 : Keeps P r x1 := (Keeps.ite (keeps_countBlkLoss p_regs p_acc (keeps_clearBlk p_regs p_servo h)) h)
  clear_value x1
  exact (keeps_updSv p_servo h2)

/-- `State.motionStep` keeps. -/
theorem keeps_motionStep {P : Part → Prop} {r s : State} {b1 : Fin 4} (p_free : P .free) (p_regs : P .regs) (p_acc : P .acc) (p_mem : P .mem) (p_reach : P .reach) (p_chan : P
    .chan) (p_deep : P .deep) (p_servo : P .servo) (p_zone : P .zone) (p_host : P .host) (p_stage : P .stage) (p_memc : P .memc) (p_evr : P .evr)
    (p_trust : P .trust) (h : Keeps P r s) : Keeps P r (State.motionStep s b1) := by
  unfold State.motionStep
  extract_lets +onlyGivenNames x1
  clear_value x1
  split
  · exact (keeps_wr p_regs (keeps_releaseEnds p_regs p_acc p_servo h))
  · split
    · extract_lets +onlyGivenNames x2
      have h3 : Keeps P r x2 := (keeps_updSv p_servo h)
      clear_value x2
      exact (Keeps.ite (keeps_updSv p_servo h3) (keeps_arrived p_free p_regs p_acc p_mem p_reach p_chan p_deep p_servo p_zone p_host p_stage p_memc
          p_evr p_trust (keeps_wr p_regs h3)))
    · exact h
  · split
    · extract_lets +onlyGivenNames x4
      have h5 : Keeps P r x4 := (keeps_updSv p_servo h)
      clear_value x4
      exact (Keeps.ite (keeps_updSv p_servo h5) (keeps_arrived p_free p_regs p_acc p_mem p_reach p_chan p_deep p_servo p_zone p_host p_stage p_memc
          p_evr p_trust (keeps_wr p_regs h5)))
    · exact h
  · exact h

/-- `State.ontReached` keeps. -/
theorem keeps_ontReached {P : Part → Prop} {r s : State} {b1 : Fin 4} (p_free : P .free) (p_regs : P .regs) (p_acc : P .acc) (p_mem : P .mem) (p_reach : P .reach) (p_chan : P
    .chan) (p_deep : P .deep) (p_servo : P .servo) (p_zone : P .zone) (p_host : P .host) (p_stage : P .stage) (p_memc : P .memc) (p_evr : P .evr)
    (p_trust : P .trust) (h : Keeps P r s) : Keeps P r (State.ontReached s b1) := by
  unfold State.ontReached
  split
  · exact (Keeps.ite (keeps_complete p_free p_regs p_acc p_mem p_reach p_chan p_deep p_servo p_zone p_host p_stage p_memc p_evr p_trust h) h)
  · exact (Keeps.ite (keeps_placed p_free p_regs p_acc p_mem p_reach p_chan p_deep p_servo p_zone p_host p_stage p_memc p_evr p_trust h) h)
  · exact (Keeps.ite (keeps_placed p_free p_regs p_acc p_mem p_reach p_chan p_deep p_servo p_zone p_host p_stage p_memc p_evr p_trust h) h)
  · exact h

/-- `State.openPeriod` keeps. -/
theorem keeps_openPeriod {P : Part → Prop} {r s : State} {b1 : Fin 4} (p_free : P .free) (p_regs : P .regs) (p_acc : P .acc) (p_mem : P .mem) (p_reach : P .reach) (p_chan : P
    .chan) (p_deep : P .deep) (p_servo : P .servo) (p_zone : P .zone) (p_host : P .host) (p_stage : P .stage) (p_memc : P .memc) (p_evr : P .evr)
    (p_trust : P .trust) (h : Keeps P r s) : Keeps P r (State.openPeriod s b1) := by
  unfold State.openPeriod
  extract_lets +onlyGivenNames x1
  clear_value x1
  extract_lets +onlyGivenNames x2
  have h3 : Keeps P r x2 := (Keeps.ite (keeps_wr p_regs h) h)
  clear_value x2
  extract_lets +onlyGivenNames x4
  have h5 : Keeps P r x4 := (Keeps.ite (keeps_wr p_regs h3) h3)
  clear_value x4
  extract_lets +onlyGivenNames x6
  have h7 : Keeps P r x6 := (keeps_updSv p_servo h5)
  clear_value x6
  split
  · exact (keeps_updSv p_servo (keeps_dropOnt p_regs p_servo (keeps_wr p_regs h7)))
  · extract_lets +onlyGivenNames x8
    clear_value x8
    extract_lets +onlyGivenNames x9
    clear_value x9
    extract_lets +onlyGivenNames x10
    clear_value x10
    extract_lets +onlyGivenNames x11
    have h12 : Keeps P r x11 := (keeps_updSv p_servo h7)
    clear_value x11
    exact (Keeps.ite (keeps_dropOnt p_regs p_servo h12) (Keeps.ite (keeps_ontReached p_free p_regs p_acc p_mem p_reach p_chan p_deep p_servo p_zone
        p_host p_stage p_memc p_evr p_trust (keeps_wr p_regs h12)) h12))

/-- `State.primaryBack` keeps. -/
theorem keeps_primaryBack {P : Part → Prop} {r s : State} {b1 : Fin 4} (p_regs : P .regs) (p_servo : P .servo) (h : Keeps P r s) : Keeps P r (State.primaryBack s b1) := by
  unfold State.primaryBack
  split
  · extract_lets +onlyGivenNames x1
    have h2 : Keeps P r x1 := (keeps_updSv p_servo (keeps_wr p_regs h))
    clear_value x1
    exact (Keeps.ite (keeps_wr p_regs h2) h2)
  · exact h

/-- `State.sample` keeps. -/
theorem keeps_sample {P : Part → Prop} {r s : State} {b1 : Fin 4} {b2 : BitVec 10} {b3 : BitVec 8} (p_free : P .free) (p_regs : P .regs) (p_acc : P .acc) (p_mem : P .mem)
    (p_reach : P .reach) (p_chan : P .chan) (p_deep : P .deep) (p_servo : P .servo) (p_zone : P .zone) (p_host : P .host) (p_stage : P .stage)
    (p_memc : P .memc) (p_evr : P .evr) (p_trust : P .trust) (h : Keeps P r s) : Keeps P r (State.sample s b1 b2 b3) := by
  unfold State.sample
  extract_lets +onlyGivenNames x1
  clear_value x1
  extract_lets +onlyGivenNames x2
  clear_value x2
  extract_lets +onlyGivenNames x3
  have h4 : Keeps P r x3 := (keeps_updSv p_servo (keeps_wrs p_regs h))
  clear_value x3
  split
  · exact h4
  · extract_lets +onlyGivenNames x5
    have h6 : Keeps P r x5 := (Keeps.ite (keeps_hopEnds p_free p_regs p_acc p_mem p_reach p_chan p_deep p_servo p_zone p_host p_stage p_memc p_evr
        p_trust h4) h4)
    clear_value x5
    exact (keeps_afterSample p_free p_regs p_acc p_mem p_reach p_chan p_deep p_servo p_zone p_host p_stage p_memc p_evr p_trust (keeps_estimate
        p_regs p_servo h6))

/-- `State.servoFault` keeps. -/
theorem keeps_servoFault {P : Part → Prop} {r s : State} {b1 : Fin 4} {b2 : ServoFault} (p_free : P .free) (p_regs : P .regs) (p_acc : P .acc) (p_mem : P .mem) (p_reach : P
    .reach) (p_chan : P .chan) (p_deep : P .deep) (p_servo : P .servo) (p_zone : P .zone) (p_host : P .host) (p_stage : P .stage) (p_memc : P .memc)
    (p_evr : P .evr) (p_trust : P .trust) (h : Keeps P r s) : Keeps P r (State.servoFault s b1 b2) := by
  unfold State.servoFault
  split
  · exact (keeps_updSv p_servo h)
  · exact (keeps_takeover p_free p_regs p_acc p_mem p_reach p_chan p_deep p_servo p_zone p_host p_stage p_memc p_evr p_trust h)
  · exact (keeps_takeover p_free p_regs p_acc p_mem p_reach p_chan p_deep p_servo p_zone p_host p_stage p_memc p_evr p_trust h)
  · exact (Keeps.ite (Keeps.ite (keeps_divergence p_free p_regs p_acc p_mem p_reach p_chan p_deep p_servo p_zone p_host p_stage p_memc p_evr p_trust
      (keeps_updSv p_servo h)) (keeps_updSv p_servo h)) (keeps_updSv p_servo h))
  · exact (keeps_raise p_evr (keeps_wr p_regs (keeps_wr p_regs (keeps_updSv p_servo h))))

/-- `State.shock` keeps. -/
theorem keeps_shock {P : Part → Prop} {r s : State} {b1 : Fin 4} {b2 : ℕ} {b3 : Bool} {b4 : ℕ} (p_free : P .free) (p_regs : P .regs) (p_acc : P .acc) (p_mem : P .mem)
    (p_reach : P .reach) (p_chan : P .chan) (p_deep : P .deep) (p_servo : P .servo) (p_zone : P .zone) (p_host : P .host) (p_stage : P .stage)
    (p_memc : P .memc) (p_evr : P .evr) (p_trust : P .trust) (h : Keeps P r s) : Keeps P r (State.shock s b1 b2 b3 b4) := by
  unfold State.shock
  split
  · exact h
  · extract_lets +onlyGivenNames x1
    have h2 : Keeps P r x1 := (keeps_writeStop p_free p_regs p_acc p_mem p_reach p_chan p_deep p_servo p_zone p_host p_stage p_memc p_evr p_trust
        (keeps_updSv p_servo h))
    clear_value x1
    exact (keeps_raise p_evr (keeps_count p_regs p_acc (keeps_wr p_regs (keeps_wr p_regs h2))))

/-- `State.shockOver` keeps. -/
theorem keeps_shockOver {P : Part → Prop} {r s : State} {b1 : Fin 4} {b2 : ℕ} {b3 : Bool} (p_servo : P .servo) (h : Keeps P r s) : Keeps P r (State.shockOver s b1 b2 b3) := by
  unfold State.shockOver
  exact (Keeps.ite h (keeps_updSv p_servo h))

/-- `execBankCrossing` keeps. -/
theorem keeps_execBankCrossing {P : Part → Prop} {r s : State} {b0 : Fin 4} (p_regs : P .regs) (p_servo : P .servo) (h : Keeps P r s) : KeepsO P r (execBankCrossing b0 s) := by
  unfold execBankCrossing
  extract_lets +onlyGivenNames x1
  clear_value x1
  split
  · exact KeepsO.of_next h
  · extract_lets +onlyGivenNames x2
    clear_value x2
    extract_lets +onlyGivenNames x3
    clear_value x3
    extract_lets +onlyGivenNames x4
    clear_value x4
    exact KeepsO.of_next (keeps_wr p_regs (keeps_updSv p_servo h))

/-- `execHopComplete` keeps. -/
theorem keeps_execHopComplete {P : Part → Prop} {r s : State} {b0 : Fin 4} {b1 : BitVec 10} {b2 : BitVec 8} (p_free : P .free) (p_regs : P .regs) (p_acc : P .acc) (p_mem : P .mem)
    (p_reach : P .reach) (p_chan : P .chan) (p_deep : P .deep) (p_servo : P .servo) (p_zone : P .zone) (p_host : P .host) (p_stage : P .stage)
    (p_memc : P .memc) (p_evr : P .evr) (p_trust : P .trust) (h : Keeps P r s) : KeepsO P r (execHopComplete b0 b1 b2 s) := by
  unfold execHopComplete
  split
  · exact KeepsO.of_next h
  · exact KeepsO.of_next (keeps_sample p_free p_regs p_acc p_mem p_reach p_chan p_deep p_servo p_zone p_host p_stage p_memc p_evr p_trust h)

/-- `execHopHoldExpiry` keeps. -/
theorem keeps_execHopHoldExpiry {P : Part → Prop} {r s : State} {b0 : Fin 4} (p_free : P .free) (p_regs : P .regs) (p_acc : P .acc) (p_mem : P .mem) (p_reach : P .reach) (p_chan : P
    .chan) (p_deep : P .deep) (p_servo : P .servo) (p_zone : P .zone) (p_host : P .host) (p_stage : P .stage) (p_memc : P .memc) (p_evr : P .evr)
    (p_trust : P .trust) (h : Keeps P r s) : KeepsO P r (execHopHoldExpiry b0 s) := by
  unfold execHopHoldExpiry
  extract_lets +onlyGivenNames x1
  clear_value x1
  split
  · exact KeepsO.of_next h
  · split
    · exact KeepsO.of_next h
    · extract_lets +onlyGivenNames x2
      have h3 : Keeps P r x2 := (keeps_wr p_regs (keeps_count p_regs p_acc (keeps_writeStop p_free p_regs p_acc p_mem p_reach p_chan p_deep p_servo
          p_zone p_host p_stage p_memc p_evr p_trust (keeps_countBlkLoss p_regs p_acc (keeps_clearBlk p_regs p_servo h)))))
      clear_value x2
      extract_lets +onlyGivenNames x4
      have h5 : Keeps P r x4 := (keeps_wr p_regs (keeps_raise p_evr h3))
      clear_value x4
      exact KeepsO.of_next (keeps_updSv p_servo h5)

/-- `execHopHoldRelease` keeps. -/
theorem keeps_execHopHoldRelease {P : Part → Prop} {r s : State} {b0 : Fin 4} (p_servo : P .servo) (h : Keeps P r s) : KeepsO P r (execHopHoldRelease b0 s) := by
  unfold execHopHoldRelease
  exact KeepsO.of_next (keeps_updSv p_servo h)

/-- `execLoadTimeout` keeps. -/
theorem keeps_execLoadTimeout {P : Part → Prop} {r s : State} {b0 : Fin 4} (p_regs : P .regs) (p_servo : P .servo) (p_evr : P .evr) (h : Keeps P r s) : KeepsO P r (execLoadTimeout
    b0 s) := by
  unfold execLoadTimeout
  split
  · exact KeepsO.of_next h
  · exact KeepsO.of_next (keeps_updSv p_servo (keeps_wr p_regs (keeps_raise p_evr (keeps_wr p_regs h))))

/-- `execMotionLimitExpiry` keeps. -/
theorem keeps_execMotionLimitExpiry {P : Part → Prop} {r s : State} {b0 : Fin 4} (p_free : P .free) (p_regs : P .regs) (p_acc : P .acc) (p_mem : P .mem) (p_reach : P .reach) (p_chan : P
    .chan) (p_deep : P .deep) (p_servo : P .servo) (p_zone : P .zone) (p_host : P .host) (p_stage : P .stage) (p_memc : P .memc) (p_evr : P .evr)
    (p_trust : P .trust) (h : Keeps P r s) : KeepsO P r (execMotionLimitExpiry b0 s) := by
  unfold execMotionLimitExpiry
  split
  · exact KeepsO.of_next (keeps_opEndsWith p_free p_regs p_acc p_mem p_reach p_chan p_deep p_servo p_zone p_host p_stage p_memc p_evr p_trust
      (keeps_dropTarget p_regs p_servo h))
  · exact KeepsO.of_next (keeps_opEndsWith p_free p_regs p_acc p_mem p_reach p_chan p_deep p_servo p_zone p_host p_stage p_memc p_evr p_trust
      (keeps_dropTarget p_regs p_servo h))
  · exact KeepsO.of_next (keeps_opEndsWith p_free p_regs p_acc p_mem p_reach p_chan p_deep p_servo p_zone p_host p_stage p_memc p_evr p_trust
      (keeps_dropTarget p_regs p_servo h))
  · split
    · exact KeepsO.of_next h
    · exact KeepsO.of_next (keeps_endWith p_free p_regs p_acc p_mem p_reach p_chan p_deep p_servo p_zone p_host p_stage p_memc p_evr p_trust
        (keeps_dropTarget p_regs p_servo h))
  · exact KeepsO.of_next h

/-- `execParkComplete` keeps. -/
theorem keeps_execParkComplete {P : Part → Prop} {r s : State} {b0 : Fin 4} (p_regs : P .regs) (p_servo : P .servo) (h : Keeps P r s) : KeepsO P r (execParkComplete b0 s) := by
  unfold execParkComplete
  extract_lets +onlyGivenNames x1
  clear_value x1
  split
  · exact KeepsO.of_next h
  · extract_lets +onlyGivenNames x2
    have h3 : Keeps P r x2 := (keeps_updSv p_servo (keeps_wr p_regs h))
    clear_value x2
    exact KeepsO.of_next (keeps_settleParked p_regs (Keeps.ite (keeps_wr p_regs h3) h3))

/-- `execPesSample` keeps. -/
theorem keeps_execPesSample {P : Part → Prop} {r s : State} {b0 : Fin 4} {b1 : BitVec 10} {b2 : BitVec 8} (p_free : P .free) (p_regs : P .regs) (p_acc : P .acc) (p_mem : P .mem)
    (p_reach : P .reach) (p_chan : P .chan) (p_deep : P .deep) (p_servo : P .servo) (p_zone : P .zone) (p_host : P .host) (p_stage : P .stage)
    (p_memc : P .memc) (p_evr : P .evr) (p_trust : P .trust) (h : Keeps P r s) : KeepsO P r (execPesSample b0 b1 b2 s) := by
  unfold execPesSample
  exact KeepsO.of_next (keeps_sample p_free p_regs p_acc p_mem p_reach p_chan p_deep p_servo p_zone p_host p_stage p_memc p_evr p_trust h)

/-- `execPrimaryResume` keeps. -/
theorem keeps_execPrimaryResume {P : Part → Prop} {r s : State} {b0 : Fin 4} (p_regs : P .regs) (p_servo : P .servo) (h : Keeps P r s) : KeepsO P r (execPrimaryResume b0 s) := by
  unfold execPrimaryResume
  exact KeepsO.of_next (keeps_primaryBack p_regs p_servo h)

/-- `execRampDetect` keeps. -/
theorem keeps_execRampDetect {P : Part → Prop} {r s : State} {b0 : Fin 4} (p_servo : P .servo) (h : Keeps P r s) : KeepsO P r (execRampDetect b0 s) := by
  unfold execRampDetect
  split
  · exact KeepsO.of_next (keeps_updSv p_servo h)
  · exact KeepsO.of_next h

/-- `execSeekCaptureTimeout` keeps. -/
theorem keeps_execSeekCaptureTimeout {P : Part → Prop} {r s : State} {b0 : Fin 4} (p_free : P .free) (p_regs : P .regs) (p_acc : P .acc) (p_mem : P .mem) (p_reach : P .reach) (p_chan : P
    .chan) (p_deep : P .deep) (p_servo : P .servo) (p_zone : P .zone) (p_host : P .host) (p_stage : P .stage) (p_memc : P .memc) (p_evr : P .evr)
    (p_trust : P .trust) (h : Keeps P r s) : KeepsO P r (execSeekCaptureTimeout b0 s) := by
  unfold execSeekCaptureTimeout
  extract_lets +onlyGivenNames x1
  clear_value x1
  split
  · exact KeepsO.of_next h
  · exact KeepsO.of_next (keeps_seekFails p_free p_regs p_acc p_mem p_reach p_chan p_deep p_servo p_zone p_host p_stage p_memc p_evr p_trust
      (keeps_updSv p_servo (keeps_tookFree p_free h)))

/-- `execSeekTravelEnd` keeps. -/
theorem keeps_execSeekTravelEnd {P : Part → Prop} {r s : State} {b0 : Fin 4} (p_regs : P .regs) (p_servo : P .servo) (h : Keeps P r s) : KeepsO P r (execSeekTravelEnd b0 s) := by
  unfold execSeekTravelEnd
  split
  · exact KeepsO.of_next h
  · exact KeepsO.of_next (keeps_wr p_regs (keeps_updSv p_servo h))

/-- `execServoPeriod` keeps. -/
theorem keeps_execServoPeriod {P : Part → Prop} {r s : State} {b0 : Fin 4} {b1 : ServoFault} (p_free : P .free) (p_regs : P .regs) (p_acc : P .acc) (p_mem : P .mem) (p_reach : P
    .reach) (p_chan : P .chan) (p_deep : P .deep) (p_servo : P .servo) (p_zone : P .zone) (p_host : P .host) (p_stage : P .stage) (p_memc : P .memc)
    (p_evr : P .evr) (p_trust : P .trust) (h : Keeps P r s) : KeepsO P r (execServoPeriod b0 b1 s) := by
  unfold execServoPeriod
  extract_lets +onlyGivenNames x1
  have h2 : Keeps P r x1 := (Keeps.ite h (keeps_runModel p_servo h))
  clear_value x1
  extract_lets +onlyGivenNames x3
  have h4 : Keeps P r x3 := (keeps_hopStep p_free p_regs p_acc p_servo (keeps_motionStep p_free p_regs p_acc p_mem p_reach p_chan p_deep p_servo
      p_zone p_host p_stage p_memc p_evr p_trust (keeps_loadDrive p_servo (keeps_openPeriod p_free p_regs p_acc p_mem p_reach p_chan p_deep p_servo
      p_zone p_host p_stage p_memc p_evr p_trust (keeps_servoFault p_free p_regs p_acc p_mem p_reach p_chan p_deep p_servo p_zone p_host p_stage
      p_memc p_evr p_trust h2)))))
  clear_value x3
  exact KeepsO.of_next (keeps_endPeriod p_servo (keeps_command p_free p_servo h4))

/-- `execSettleTimeout` keeps. -/
theorem keeps_execSettleTimeout {P : Part → Prop} {r s : State} {b0 : Fin 4} (p_free : P .free) (p_regs : P .regs) (p_acc : P .acc) (p_mem : P .mem) (p_reach : P .reach) (p_chan : P
    .chan) (p_deep : P .deep) (p_servo : P .servo) (p_zone : P .zone) (p_host : P .host) (p_stage : P .stage) (p_memc : P .memc) (p_evr : P .evr)
    (p_trust : P .trust) (h : Keeps P r s) : KeepsO P r (execSettleTimeout b0 s) := by
  unfold execSettleTimeout
  split
  · exact KeepsO.of_next (keeps_complete p_free p_regs p_acc p_mem p_reach p_chan p_deep p_servo p_zone p_host p_stage p_memc p_evr p_trust h)
  · exact KeepsO.of_next h

/-- `execShockHoldEnd` keeps. -/
theorem keeps_execShockHoldEnd {P : Part → Prop} {r s : State} {b0 : Fin 4} (p_regs : P .regs) (p_servo : P .servo) (h : Keeps P r s) : KeepsO P r (execShockHoldEnd b0 s) := by
  unfold execShockHoldEnd
  split
  · exact KeepsO.of_next (keeps_updSv p_servo (keeps_dropOnt p_regs p_servo (keeps_wr p_regs h)))
  · exact KeepsO.of_next h

/-- `execShockInput` keeps. -/
theorem keeps_execShockInput {P : Part → Prop} {r s : State} {b0 : Fin 2} {b1 : Bool} {b2 : ℕ} (p_free : P .free) (p_regs : P .regs) (p_acc : P .acc) (p_mem : P .mem) (p_reach :
    P .reach) (p_chan : P .chan) (p_deep : P .deep) (p_servo : P .servo) (p_zone : P .zone) (p_host : P .host) (p_stage : P .stage) (p_memc : P
    .memc) (p_evr : P .evr) (p_trust : P .trust) (h : Keeps P r s) : KeepsO P r (execShockInput b0 b1 b2 s) := by
  unfold execShockInput
  exact KeepsO.of_next (keeps_shock p_free p_regs p_acc p_mem p_reach p_chan p_deep p_servo p_zone p_host p_stage p_memc p_evr p_trust (keeps_shock
      p_free p_regs p_acc p_mem p_reach p_chan p_deep p_servo p_zone p_host p_stage p_memc p_evr p_trust (keeps_shock p_free p_regs p_acc p_mem
      p_reach p_chan p_deep p_servo p_zone p_host p_stage p_memc p_evr p_trust (keeps_shock p_free p_regs p_acc p_mem p_reach p_chan p_deep p_servo
      p_zone p_host p_stage p_memc p_evr p_trust h))))

/-- `execShockInputRelease` keeps. -/
theorem keeps_execShockInputRelease {P : Part → Prop} {r s : State} {b0 : Fin 2} {b1 : Bool} (p_servo : P .servo) (h : Keeps P r s) : KeepsO P r (execShockInputRelease b0 b1 s) := by
  unfold execShockInputRelease
  exact KeepsO.of_next (keeps_shockOver p_servo (keeps_shockOver p_servo (keeps_shockOver p_servo (keeps_shockOver p_servo h))))

end Sys2Proof.Machine
end

