-- ==== Sys2Proof/Laws/KeepsRecorder.lean ====
section
/-! SUPPORT. What the operations of Machine/Recorder.lean keep. -/

namespace Sys2Proof.Machine

set_option Elab.async false

/-- `State.evrPut` keeps. -/
theorem keeps_evrPut {P : Part → Prop} {r s : State} {b1 : Recorder → Recorder} (p_evr : P .evr) (h : Keeps P r s) : Keeps P r (State.evrPut s b1) := by
  unfold State.evrPut
  exact (Keeps.put h)

/-- `State.takeSeq` keeps. -/
theorem keeps_takeSeq {P : Part → Prop} {r s : State} (p_regs : P .regs) (h : Keeps P r s) : Keeps P r (State.takeSeq s).1 := by
  unfold State.takeSeq
  extract_lets +onlyGivenNames x1
  clear_value x1
  refine Keeps.fst_mk ?_
  exact (keeps_wr p_regs h)

/-- `State.noteLoss` keeps. -/
theorem keeps_noteLoss {P : Part → Prop} {r s : State} {b1 : ℕ} {b2 : ℕ} {b3 : Bool} (p_regs : P .regs) (p_evr : P .evr) (h : Keeps P r s) : Keeps P r (State.noteLoss s b1
    b2 b3) := by
  unfold State.noteLoss
  extract_lets +onlyGivenNames x1
  clear_value x1
  extract_lets +onlyGivenNames x2
  clear_value x2
  split
  · exact (Keeps.put h)
  · split
    · rename_i y3 y4 y5 y6 y7 y8
      have h9 : Keeps P r y6 := Keeps.fst y8 (keeps_takeSeq p_regs h)
      extract_lets +onlyGivenNames x10
      clear_value x10
      extract_lets +onlyGivenNames x11
      have h12 : Keeps P r x11 := (keeps_wr p_regs h9)
      clear_value x11
      exact (Keeps.put h12)

/-- `State.placeRec` keeps. -/
theorem keeps_placeRec {P : Part → Prop} {r s : State} {b1 : LogRec} (p_regs : P .regs) (p_evr : P .evr) (h : Keeps P r s) : Keeps P r (State.placeRec s b1) := by
  unfold State.placeRec
  split
  · split
    · exact (keeps_noteLoss p_regs p_evr h)
    · split
      · rename_i y1 y2 y3 y4 y5 y6 y7 y8 y9
        have h10 : Keeps P r y7 := Keeps.fst y9 (keeps_takeSeq p_regs h)
        extract_lets +onlyGivenNames x11
        have h12 : Keeps P r x11 := (Keeps.put h10)
        clear_value x11
        extract_lets +onlyGivenNames x13
        have h14 : Keeps P r x13 := (Keeps.ite (keeps_wr p_regs h12) h12)
        clear_value x13
        exact (keeps_noteLoss p_regs p_evr h14)
  · split
    · rename_i y15 y16 y17 y18 y19
      have h20 : Keeps P r y17 := Keeps.fst y19 (keeps_takeSeq p_regs h)
      extract_lets +onlyGivenNames x21
      have h22 : Keeps P r x21 := (Keeps.put h20)
      clear_value x21
      exact (Keeps.ite (keeps_wr p_regs h22) h22)

/-- `State.sequence` keeps. -/
theorem keeps_sequence {P : Part → Prop} {r s : State} {b1 : LogRec} (p_regs : P .regs) (p_evr : P .evr) (h : Keeps P r s) : Keeps P r (State.sequence s b1) := by
  unfold State.sequence
  split
  · exact (Keeps.ite (Keeps.put h) (keeps_placeRec p_regs p_evr h))
  · exact (keeps_placeRec p_regs p_evr h)

/-- `State.suppressed` keeps. -/
theorem keeps_suppressed {P : Part → Prop} {r s : State} {b1 : ℕ} {b2 : List (ℕ × RateUse)} (p_regs : P .regs) (p_evr : P .evr) (h : Keeps P r s) : Keeps P r
    (State.suppressed s b1 b2) := by
  induction b2 generalizing s b1
  · simp only [State.suppressed]
    exact h
  · rename_i a1 a2 ih
    simp only [State.suppressed]
    exact (Keeps.ite (ih h) (ih (keeps_sequence p_regs p_evr h)))

/-- `State.closeRate` keeps. -/
theorem keeps_closeRate {P : Part → Prop} {r s : State} {b1 : ℕ} (p_regs : P .regs) (p_evr : P .evr) (h : Keeps P r s) : Keeps P r (State.closeRate s b1) := by
  unfold State.closeRate
  exact (keeps_evrPut p_evr (keeps_suppressed p_regs p_evr h))

/-- `State.accept` keeps. -/
theorem keeps_accept {P : Part → Prop} {r s : State} {b1 : Raised} (p_regs : P .regs) (p_evr : P .evr) (h : Keeps P r s) : Keeps P r (State.accept s b1) := by
  unfold State.accept
  extract_lets +onlyGivenNames x1
  have h2 : Keeps P r x1 := (Keeps.ite (keeps_closeRate p_regs p_evr h) h)
  clear_value x1
  extract_lets +onlyGivenNames x3
  clear_value x3
  split
  · exact h2
  · extract_lets +onlyGivenNames x4
    have h5 : Keeps P r x4 := (Keeps.ite (keeps_evrPut p_evr h2) h2)
    clear_value x4
    extract_lets +onlyGivenNames x6
    clear_value x6
    extract_lets +onlyGivenNames x7
    clear_value x7
    exact (Keeps.ite (keeps_sequence p_regs p_evr h5) (Keeps.ite (keeps_evrPut p_evr (keeps_sequence p_regs p_evr h5)) (keeps_evrPut p_evr h5)))

/-- `execEvf` keeps. -/
theorem keeps_execEvf {P : Part → Prop} {r s : State} {b0 : Requester} {b1 : Fin 5} (p_regs : P .regs) (p_evr : P .evr) (h : Keeps P r s) : KeepsO P r (execEvf b0 b1 s) := by
  unfold execEvf
  split
  · exact KeepsO.of_next (keeps_evrPut p_evr (keeps_wr p_regs h))
  · exact KeepsO.of_next h

/-- `State.syncLog` keeps. -/
theorem keeps_syncLog {P : Part → Prop} {r s : State} {b1 : Recorder} (p_mem : P .mem) (h : Keeps P r s) : Keeps P r (State.syncLog s b1) := by
  unfold State.syncLog
  exact Keeps.mkAll h le_rfl (foldl_memPut_wf _ _ _) id id id id

/-- `execEvrClear` keeps. -/
theorem keeps_execEvrClear {P : Part → Prop} {r s : State} (p_regs : P .regs) (p_mem : P .mem) (p_evr : P .evr) (h : Keeps P r s) : KeepsO P r (execEvrClear s) := by
  unfold execEvrClear
  split
  · extract_lets +onlyGivenNames x1
    clear_value x1
    extract_lets +onlyGivenNames x2
    clear_value x2
    extract_lets +onlyGivenNames x3
    have h4 : Keeps P r x3 := (keeps_evrPut p_evr (keeps_wr p_regs h))
    clear_value x3
    exact KeepsO.of_next (keeps_syncLog p_mem (keeps_placeRec p_regs p_evr h4))
  · exact KeepsO.of_next (keeps_wr p_regs h)

/-- `execEvrRaise` keeps. -/
theorem keeps_execEvrRaise {P : Part → Prop} {r s : State} {b0 : Requester} {b1 : Fin 5} {b2 : BitVec 32} (p_regs : P .regs) (p_evr : P .evr) (h : Keeps P r s) : KeepsO P r
    (execEvrRaise b0 b1 b2 s) := by
  unfold execEvrRaise
  split
  · split
    · exact KeepsO.of_next (keeps_wr p_regs h)
    · extract_lets +onlyGivenNames x1
      clear_value x1
      extract_lets +onlyGivenNames x2
      clear_value x2
      exact KeepsO.of_next (keeps_evrPut p_evr h)
  · exact KeepsO.of_next h

/-- `State.rebuild` keeps. -/
theorem keeps_rebuild {P : Part → Prop} {r s : State} (p_regs : P .regs) (p_evr : P .evr) (h : Keeps P r s) : Keeps P r (State.rebuild s) := by
  unfold State.rebuild
  extract_lets +onlyGivenNames x1
  clear_value x1
  extract_lets +onlyGivenNames x2
  clear_value x2
  extract_lets +onlyGivenNames x3
  clear_value x3
  extract_lets +onlyGivenNames x4
  clear_value x4
  extract_lets +onlyGivenNames x5
  clear_value x5
  extract_lets +onlyGivenNames x6
  clear_value x6
  extract_lets +onlyGivenNames x7
  clear_value x7
  extract_lets +onlyGivenNames x8
  clear_value x8
  extract_lets +onlyGivenNames x9
  have h10 : Keeps P r x9 := (keeps_wr p_regs (keeps_wr p_regs h))
  clear_value x9
  exact (Keeps.put h10)

/-- `execEvfDone` keeps. -/
theorem keeps_execEvfDone {P : Part → Prop} {r s : State} {b0 : Fin 5} (p_regs : P .regs) (p_evr : P .evr) (h : Keeps P r s) : KeepsO P r (execEvfDone b0 s) := by
  unfold execEvfDone
  split
  · exact KeepsO.of_next (keeps_evrPut p_evr (keeps_wr p_regs h))
  · exact KeepsO.of_next h

/-- `execEvrAuthTimeout` keeps. -/
theorem keeps_execEvrAuthTimeout {P : Part → Prop} {r s : State} (p_regs : P .regs) (h : Keeps P r s) : KeepsO P r (execEvrAuthTimeout s) := by
  unfold execEvrAuthTimeout
  exact KeepsO.of_next (keeps_wr p_regs h)

/-- `execEvrFlashAppend` keeps. -/
theorem keeps_execEvrFlashAppend {P : Part → Prop} {r s : State} {b0 : Bool} (p_regs : P .regs) (p_evr : P .evr) (p_flash : P .flash) (h : Keeps P r s) : KeepsO P r
    (execEvrFlashAppend b0 s) := by
  unfold execEvrFlashAppend
  split
  · exact KeepsO.of_next h
  · extract_lets +onlyGivenNames x1
    clear_value x1
    split
    · exact KeepsO.of_next (keeps_evrPut p_evr (keeps_wr p_regs h))
    · extract_lets +onlyGivenNames x2
      have h3 : Keeps P r x2 := (Keeps.ite (keeps_wr p_regs h) h)
      clear_value x2
      extract_lets +onlyGivenNames x4
      clear_value x4
      refine KeepsO.of_next ?_
      exact Keeps.mkAll h3 le_rfl id (flashPut_wf _ _) id id id

/-- `execEvrRebuild` keeps. -/
theorem keeps_execEvrRebuild {P : Part → Prop} {r s : State} (p_regs : P .regs) (p_mem : P .mem) (p_evr : P .evr) (h : Keeps P r s) : KeepsO P r (execEvrRebuild s) := by
  unfold execEvrRebuild
  split
  · exact KeepsO.of_next (keeps_syncLog p_mem (keeps_rebuild p_regs p_evr h))
  · exact KeepsO.of_next h

/-- `execEvrRecord` keeps. -/
theorem keeps_execEvrRecord {P : Part → Prop} {r s : State} (p_regs : P .regs) (p_mem : P .mem) (p_evr : P .evr) (h : Keeps P r s) : KeepsO P r (execEvrRecord s) := by
  unfold execEvrRecord
  split
  · exact KeepsO.of_next h
  · split
    · exact KeepsO.of_next h
    · exact KeepsO.of_next (keeps_syncLog p_mem (keeps_evrPut p_evr (keeps_accept p_regs p_evr (keeps_evrPut p_evr h))))

/-- `execRateWindowClose` keeps. -/
theorem keeps_execRateWindowClose {P : Part → Prop} {r s : State} (p_regs : P .regs) (p_mem : P .mem) (p_evr : P .evr) (h : Keeps P r s) : KeepsO P r (execRateWindowClose s) := by
  unfold execRateWindowClose
  exact KeepsO.of_next (keeps_syncLog p_mem (keeps_closeRate p_regs p_evr h))

end Sys2Proof.Machine
end

