-- ==== Sys2Proof/Laws/KeepsTrust.lean ====
section
/-! SUPPORT. What the operations of Machine/Trust.lean keep. -/

namespace Sys2Proof.Machine

set_option Elab.async false

/-- `execNonceRead` keeps. -/
theorem keeps_execNonceRead {P : Part → Prop} {r s : State} (p_answer : P .answer) (p_free : P .free) (p_regs : P .regs) (p_trust : P .trust) (h : Keeps P r s) : KeepsO P r
    (execNonceRead s) := by
  unfold execNonceRead
  extract_lets +onlyGivenNames x1
  clear_value x1
  exact KeepsO.of_next (keeps_reply p_answer (keeps_truPut p_trust (keeps_wr p_regs (keeps_wr p_regs (keeps_tookFree p_free h)))))

/-- `State.askChange` keeps. -/
theorem keeps_askChange {P : Part → Prop} {r s : State} {b1 : ℕ} {b2 : RangeChange} (p_regs : P .regs) (p_trust : P .trust) (h : Keeps P r s) : Keeps P r (State.askChange s
    b1 b2) := by
  unfold State.askChange
  extract_lets +onlyGivenNames x1
  clear_value x1
  exact (Keeps.ite (keeps_applyChange p_regs p_trust h) (keeps_truPut p_trust h))

/-- `State.deny` keeps. -/
theorem keeps_deny {P : Part → Prop} {r s : State} (p_regs : P .regs) (h : Keeps P r s) : Keeps P r (State.deny s) := by
  unfold State.deny
  exact (keeps_wr p_regs h)

/-- `execRangeGeometryWrite` keeps. -/
theorem keeps_execRangeGeometryWrite {P : Part → Prop} {r s : State} {b0 : Fin 65} {b1 : Bool} {b2 : Fin 8} {b3 : BitVec 64} {b4 : BitVec 64} (p_regs : P .regs) (p_trust : P .trust) (h :
    Keeps P r s) : KeepsO P r (execRangeGeometryWrite b0 b1 b2 b3 b4 s) := by
  unfold execRangeGeometryWrite
  extract_lets +onlyGivenNames x1
  clear_value x1
  extract_lets +onlyGivenNames x2
  clear_value x2
  extract_lets +onlyGivenNames x3
  clear_value x3
  extract_lets +onlyGivenNames x4
  clear_value x4
  split
  · exact KeepsO.of_next h
  · split
    · exact KeepsO.of_next (keeps_deny p_regs h)
    · exact KeepsO.of_next (keeps_askChange p_regs p_trust h)

/-- `execGenkey` keeps. -/
theorem keeps_execGenkey {P : Part → Prop} {r s : State} {b0 : Fin 65} (p_regs : P .regs) (p_trust : P .trust) (h : Keeps P r s) : KeepsO P r (execGenkey b0 s) := by
  unfold execGenkey
  exact KeepsO.of_next (keeps_askChange p_regs p_trust h)

/-- `execRangeLockWrite` keeps. -/
theorem keeps_execRangeLockWrite {P : Part → Prop} {r s : State} {b0 : Fin 65} {b1 : Bool} {b2 : Bool} (p_regs : P .regs) (p_trust : P .trust) (h : Keeps P r s) : KeepsO P r
    (execRangeLockWrite b0 b1 b2 s) := by
  unfold execRangeLockWrite
  extract_lets +onlyGivenNames x1
  clear_value x1
  split
  · exact KeepsO.of_next (keeps_deny p_regs h)
  · exact KeepsO.of_next (keeps_askChange p_regs p_trust h)

/-- `State.arbAdvance` keeps. -/
theorem keeps_arbAdvance {P : Part → Prop} {r s : State} {b1 : ℕ} {b2 : ℕ} {b3 : Fld} (p_regs : P .regs) (p_trust : P .trust) (h : Keeps P r s) : Keeps P r (State.arbAdvance
    s b1 b2 b3) := by
  unfold State.arbAdvance
  extract_lets +onlyGivenNames x1
  clear_value x1
  split
  · exact h
  · split
    · exact (keeps_wr p_regs h)
    · extract_lets +onlyGivenNames x2
      have h3 : Keeps P r x2 := (keeps_truPut p_trust h)
      clear_value x2
      exact (keeps_wr p_regs (keeps_wr p_regs h3))

/-- `execArbAdvanceFw` keeps. -/
theorem keeps_execArbAdvanceFw {P : Part → Prop} {r s : State} {b0 : Requester} (p_regs : P .regs) (p_trust : P .trust) (h : Keeps P r s) : KeepsO P r (execArbAdvanceFw b0 s) := by
  unfold execArbAdvanceFw
  split
  · exact KeepsO.of_next h
  · exact KeepsO.of_next (keeps_arbAdvance p_regs p_trust h)

/-- `execArbAdvanceUc` keeps. -/
theorem keeps_execArbAdvanceUc {P : Part → Prop} {r s : State} {b0 : Requester} (p_regs : P .regs) (p_trust : P .trust) (h : Keeps P r s) : KeepsO P r (execArbAdvanceUc b0 s) := by
  unfold execArbAdvanceUc
  split
  · exact KeepsO.of_next h
  · exact KeepsO.of_next (keeps_arbAdvance p_regs p_trust h)

/-- `execAuthreq` keeps. -/
theorem keeps_execAuthreq {P : Part → Prop} {r s : State} {b0 : Bool} {b1 : Bool} (p_regs : P .regs) (p_evr : P .evr) (p_trust : P .trust) (h : Keeps P r s) : KeepsO P r
    (execAuthreq b0 b1 s) := by
  unfold execAuthreq
  extract_lets +onlyGivenNames x1
  clear_value x1
  extract_lets +onlyGivenNames x2
  have h3 : Keeps P r x2 := (keeps_truPut p_trust (keeps_wrs p_regs h))
  clear_value x2
  exact KeepsO.of_next (Keeps.ite (keeps_evrPut p_evr (keeps_wr p_regs h3)) h3)

/-- `execIrootCommit` keeps. -/
theorem keeps_execIrootCommit {P : Part → Prop} {r s : State} {b0 : Requester} (p_regs : P .regs) (p_trust : P .trust) (h : Keeps P r s) : KeepsO P r (execIrootCommit b0 s) := by
  unfold execIrootCommit
  split
  · exact KeepsO.of_next h
  · split
    · exact KeepsO.of_next (keeps_deny p_regs h)
    · exact KeepsO.of_next (keeps_truPut p_trust h)

/-- `State.setSession` keeps. -/
theorem keeps_setSession {P : Part → Prop} {r s : State} {b1 : Session} (p_regs : P .regs) (p_trust : P .trust) (h : Keeps P r s) : Keeps P r (State.setSession s b1) := by
  unfold State.setSession
  split
  · exact h
  · exact (keeps_truPut p_trust (keeps_wr p_regs h))
  · exact (keeps_truPut p_trust (keeps_wr p_regs h))

/-- `execNonceExpiry` keeps. -/
theorem keeps_execNonceExpiry {P : Part → Prop} {r s : State} (p_trust : P .trust) (h : Keeps P r s) : KeepsO P r (execNonceExpiry s) := by
  unfold execNonceExpiry
  exact KeepsO.of_next (keeps_truPut p_trust h)

end Sys2Proof.Machine
end

