-- ==== Sys2Proof/Laws/KeepsAdmin.lean ====
section
/-! SUPPORT. What the operations of Machine/Admin.lean keep. -/

namespace Sys2Proof.Machine

set_option Elab.async false

/-- `State.answerDw` keeps. -/
theorem keeps_answerDw {P : Part → Prop} {r s : State} {b1 : ℕ} {b2 : ℕ} (p_mem : P .mem) (p_host : P .host) (h : Keeps P r s) : Keeps P r (State.answerDw s b1 b2) := by
  unfold State.answerDw
  exact (keeps_succeed p_mem p_host (keeps_ctxUpd p_mem p_host h))

/-- `State.nsChanged` keeps. -/
theorem keeps_nsChanged {P : Part → Prop} {r s : State} {b1 : List ℕ} (p_mem : P .mem) (p_host : P .host) (h : Keeps P r s) : Keeps P r (State.nsChanged s b1) := by
  unfold State.nsChanged
  exact (keeps_noticeAll p_mem p_host (keeps_hput p_host h))

/-- `State.newKeys` keeps. -/
theorem keeps_newKeys {P : Part → Prop} {r s : State} {b1 : List ℕ} (p_regs : P .regs) (p_trust : P .trust) (h : Keeps P r s) : Keeps P r (State.newKeys s b1) := by
  unfold State.newKeys
  refine Keeps.foldl ?_ fun y1 y2 h3 => ?_
  · exact h
  · exact (keeps_askChange p_regs p_trust h3)

/-- `State.startSanitize` keeps. -/
theorem keeps_startSanitize {P : Part → Prop} {r s : State} {b1 : Option ℕ} (p_regs : P .regs) (p_host : P .host) (p_trust : P .trust) (h : Keeps P r s) : Keeps P r
    (State.startSanitize s b1) := by
  unfold State.startSanitize
  exact (keeps_newKeys p_regs p_trust (keeps_hput p_host h))

/-- `execNsreadyWrite` keeps. -/
theorem keeps_execNsreadyWrite {P : Part → Prop} {r s : State} {b0 : BitVec 5} (p_regs : P .regs) (p_acc : P .acc) (p_mem : P .mem) (p_zone : P .zone) (p_host : P .host) (p_stage :
    P .stage) (p_memc : P .memc) (p_evr : P .evr) (p_trust : P .trust) (h : Keeps P r s) : KeepsO P r (execNsreadyWrite b0 s) := by
  unfold execNsreadyWrite
  extract_lets +onlyGivenNames x1
  have h2 : Keeps P r x1 := (keeps_wr p_regs h)
  clear_value x1
  split
  · extract_lets +onlyGivenNames x3
    have h4 : Keeps P r x3 := (keeps_startSanitize p_regs p_host p_trust h2)
    clear_value x3
    extract_lets +onlyGivenNames x5
    clear_value x5
    exact KeepsO.of_next (keeps_settleSanitize p_host (keeps_jIssues p_regs p_acc p_mem p_zone p_stage p_memc p_evr (keeps_hput p_host h4)))
  · exact KeepsO.of_next h2

/-- `State.activate` keeps. -/
theorem keeps_activate {P : Part → Prop} {r s : State} {b1 : Option ℕ} (p_free : P .free) (p_regs : P .regs) (p_acc : P .acc) (p_mem : P .mem) (p_reach : P .reach) (p_chan
    : P .chan) (p_deep : P .deep) (p_servo : P .servo) (p_zone : P .zone) (p_host : P .host) (p_stage : P .stage) (p_memc : P .memc) (p_evr : P .evr)
    (p_trust : P .trust) (h : Keeps P r s) : Keeps P r (State.activate s b1) := by
  unfold State.activate
  extract_lets +onlyGivenNames x1
  have h2 : Keeps P r x1 := (keeps_noticeAll p_mem p_host (keeps_noticeAll p_mem p_host h))
  clear_value x1
  extract_lets +onlyGivenNames x3
  have h4 : Keeps P r x3 := (keeps_hput p_host (keeps_wr p_regs h2))
  clear_value x3
  refine Keeps.foldl ?_ fun y5 y6 h7 => ?_
  · exact h4
  · exact (keeps_engQuiesce p_free p_regs p_acc p_mem p_reach p_chan p_deep p_servo p_zone p_host p_stage p_memc p_evr p_trust h7)

/-- `State.adm` keeps. -/
theorem keeps_adm {P : Part → Prop} {r s : State} {b1 : ℕ} {b2 : ℕ} {b3 : Ctx → State} (h : Keeps P r s) (hb1 : (∀ y, Keeps P r (b3 y))) : KeepsO P r (State.adm s b1
    b2 b3) := by
  unfold State.adm
  split
  · exact KeepsO.of_next h
  · split
    · exact KeepsO.of_next (hb1 _)
    · exact KeepsO.of_next h

/-- `State.usePs` keeps. -/
theorem keeps_usePs {P : Part → Prop} {r s : State} (p_free : P .free) (p_regs : P .regs) (p_acc : P .acc) (p_servo : P .servo) (p_host : P .host) (h : Keeps P r s) :
    Keeps P r (State.usePs s) := by
  unfold State.usePs
  extract_lets +onlyGivenNames x1
  clear_value x1
  extract_lets +onlyGivenNames x2
  have h3 : Keeps P r x2 := (keeps_hput p_host h)
  clear_value x2
  split
  · refine Keeps.foldl ?_ fun y4 y5 h6 => ?_
    · exact h3
    · exact (keeps_unload p_free p_regs p_acc p_servo h6)
  · exact h3

/-- `State.askPs` keeps. -/
theorem keeps_askPs {P : Part → Prop} {r s : State} {b1 : Fin 2} {b2 : ℕ} (p_free : P .free) (p_regs : P .regs) (p_acc : P .acc) (p_servo : P .servo) (p_host : P .host)
    (h : Keeps P r s) : Keeps P r (State.askPs s b1 b2) := by
  unfold State.askPs
  exact (keeps_usePs p_free p_regs p_acc p_servo p_host (keeps_hput p_host h))

/-- `State.ctlFeature` keeps. -/
theorem keeps_ctlFeature {P : Part → Prop} {r s : State} {b1 : Fin 2} {b2 : ℕ} {b3 : ℕ} (p_host : P .host) (h : Keeps P r s) : Keeps P r (State.ctlFeature s b1 b2 b3) := by
  unfold State.ctlFeature
  exact (keeps_ctrlUpd p_host h)

/-- `State.subFeature` keeps. -/
theorem keeps_subFeature {P : Part → Prop} {r s : State} {b1 : ℕ} {b2 : ℕ} (p_host : P .host) (h : Keeps P r s) : Keeps P r (State.subFeature s b1 b2) := by
  unfold State.subFeature
  exact (keeps_hput p_host h)

/-- `State.sendAdm` keeps. -/
theorem keeps_sendAdm {P : Part → Prop} {r s : State} {b1 : ℕ} (p_cfx : P .cfx) (h : Keeps P r s) : Keeps P r (State.sendAdm s b1) := by
  unfold State.sendAdm
  exact (keeps_send p_cfx h)

/-- `State.endCmd` keeps. -/
theorem keeps_endCmd {P : Part → Prop} {r s : State} {b1 : ℕ} {b2 : Ending} (p_free : P .free) (p_regs : P .regs) (p_acc : P .acc) (p_mem : P .mem) (p_reach : P .reach)
    (p_chan : P .chan) (p_deep : P .deep) (p_servo : P .servo) (p_zone : P .zone) (p_host : P .host) (p_stage : P .stage) (p_memc : P .memc) (p_evr :
    P .evr) (p_cfx : P .cfx) (p_trust : P .trust) (h : Keeps P r s) : Keeps P r (State.endCmd s b1 b2) := by
  unfold State.endCmd
  split
  · exact h
  · refine keeps_endEarlyAll p_free p_regs p_acc p_mem p_reach p_chan p_deep p_servo p_zone p_host p_stage p_memc p_evr p_trust ?_
    split
    · exact (Keeps.ite h (keeps_send p_cfx h))
    · exact h

/-- `State.freeBytes` keeps. -/
theorem keeps_freeBytes {P : Part → Prop} {r s : State} {b1 : ℕ} (p_free : P .free) (h : Keeps P r s) : Keeps P r (State.freeBytes s b1).1 := by
  unfold State.freeBytes
  refine Keeps.fst_mk ?_
  exact (keeps_tookFree p_free h)

/-- `State.settleAdm` keeps. -/
theorem keeps_settleAdm {P : Part → Prop} {r s : State} (p_mem : P .mem) (p_host : P .host) (p_cfx : P .cfx) (h : Keeps P r s) : Keeps P r (State.settleAdm s) := by
  unfold State.settleAdm
  refine Keeps.foldl ?_ fun y1 y2 h3 => ?_
  · exact (keeps_cfxUpd p_cfx h)
  · split
    · exact (keeps_succeed p_mem p_host h3)
    · exact h3

/-- `State.publish` keeps. -/
theorem keeps_publish {P : Part → Prop} {r s : State} {b1 : ℕ} (p_regs : P .regs) (p_mem : P .mem) (p_host : P .host) (p_cfx : P .cfx) (h : Keeps P r s) : Keeps P r
    (State.publish s b1) := by
  unfold State.publish
  split
  · exact (keeps_succeed p_mem p_host h)
  · extract_lets +onlyGivenNames x1
    have h2 : Keeps P r x1 := (keeps_ctxUpd p_mem p_host (keeps_bump p_regs h))
    clear_value x1
    extract_lets +onlyGivenNames x3
    have h4 : Keeps P r x3 := (keeps_cfxUpd p_cfx h2)
    clear_value x3
    refine keeps_settleAdm p_mem p_host p_cfx ?_
    refine Keeps.foldl ?_ fun y5 y6 h7 => ?_
    · exact h4
    · exact (keeps_sendAdm p_cfx h7)

/-- `State.putImage` keeps. -/
theorem keeps_putImage {P : Part → Prop} {r s : State} {b1 : ℕ} {b2 : Bool} (p_host : P .host) (p_flash : P .flash) (h : Keeps P r s) : Keeps P r (State.putImage s b1 b2) := by
  unfold State.putImage
  extract_lets +onlyGivenNames x1
  refine Keeps.step (P := P) (r := r) (x := x1) ?_ ?_
  · unfold x1
    split
    · exact h
    · exact Keeps.mkAll h le_rfl id (flashPut_wf _ _) id id id
  intro h2
  clear_value x1
  exact (keeps_hput p_host h2)

/-- `State.setRecovery` keeps. -/
theorem keeps_setRecovery {P : Part → Prop} {r s : State} {b1 : ℕ} {b2 : ℕ} (p_regs : P .regs) (p_host : P .host) (h : Keeps P r s) : Keeps P r (State.setRecovery s b1 b2) := by
  unfold State.setRecovery
  exact (keeps_wr p_regs (keeps_subFeature p_host h))

/-- `State.setTimestamp` keeps. -/
theorem keeps_setTimestamp {P : Part → Prop} {r s : State} {b1 : ℕ} (p_host : P .host) (p_evr : P .evr) (h : Keeps P r s) : Keeps P r (State.setTimestamp s b1) := by
  unfold State.setTimestamp
  exact (keeps_raiseAs p_evr (keeps_subFeature p_host h))

/-- `execAbort` keeps. -/
theorem keeps_execAbort {P : Part → Prop} {r s : State} {b0 : Fin 65536} (p_free : P .free) (p_regs : P .regs) (p_acc : P .acc) (p_mem : P .mem) (p_reach : P .reach) (p_chan
    : P .chan) (p_deep : P .deep) (p_servo : P .servo) (p_zone : P .zone) (p_host : P .host) (p_stage : P .stage) (p_memc : P .memc) (p_evr : P .evr)
    (p_cfx : P .cfx) (p_trust : P .trust) (h : Keeps P r s) : KeepsO P r (execAbort b0 s) := by
  unfold execAbort
  refine keeps_adm ?_ ?_
  · exact h
  · intro y1
    extract_lets +onlyGivenNames x2
    clear_value x2
    extract_lets +onlyGivenNames x3
    clear_value x3
    split
    · exact (keeps_endAll p_mem p_host h)
    · split
      · exact (keeps_answerDw p_mem p_host h)
      · split
        · exact (Keeps.ite (keeps_answerDw p_mem p_host (keeps_endEarlyAll p_free p_regs p_acc p_mem p_reach p_chan p_deep p_servo p_zone p_host
            p_stage p_memc p_evr p_trust h)) (Keeps.ite (keeps_answerDw p_mem p_host h) (keeps_ctrlUpd p_host (keeps_ctxUpd p_mem p_host (keeps_send
            p_cfx h)))))
        · exact (Keeps.ite (keeps_answerDw p_mem p_host (keeps_endEarlyAll p_free p_regs p_acc p_mem p_reach p_chan p_deep p_servo p_zone p_host
            p_stage p_memc p_evr p_trust h)) (keeps_answerDw p_mem p_host h))

/-- `execActivationEnd` keeps. -/
theorem keeps_execActivationEnd {P : Part → Prop} {r s : State} (p_free : P .free) (p_regs : P .regs) (p_acc : P .acc) (p_mem : P .mem) (p_reach : P .reach) (p_chan : P .chan)
    (p_deep : P .deep) (p_servo : P .servo) (p_zone : P .zone) (p_host : P .host) (p_stage : P .stage) (p_memc : P .memc) (p_evr : P .evr) (p_trust :
    P .trust) (h : Keeps P r s) : KeepsO P r (execActivationEnd s) := by
  unfold execActivationEnd
  split
  · exact KeepsO.of_next h
  · extract_lets +onlyGivenNames x1
    clear_value x1
    extract_lets +onlyGivenNames x2
    have h3 : Keeps P r x2 := (keeps_truPut p_trust (keeps_wr p_regs (keeps_wr p_regs h)))
    clear_value x2
    extract_lets +onlyGivenNames x4
    have h5 : Keeps P r x4 := (keeps_hput p_host h3)
    clear_value x4
    extract_lets +onlyGivenNames x6
    refine Keeps.step (P := P) (r := r) (x := x6) ?_ ?_
    · unfold x6
      refine keeps_noticeAll p_mem p_host ?_
      refine Keeps.foldl ?_ fun y8 y9 h10 => ?_
      · exact h5
      · exact (keeps_engQuiesce p_free p_regs p_acc p_mem p_reach p_chan p_deep p_servo p_zone p_host p_stage p_memc p_evr p_trust h10)
    intro h7
    clear_value x6
    refine KeepsO.of_next ?_
    split
    · exact (keeps_succeed p_mem p_host h7)
    · exact h7

/-- `execApstTransition` keeps. -/
theorem keeps_execApstTransition {P : Part → Prop} {r s : State} {b0 : Fin 2} {b1 : Fin 5} (p_free : P .free) (p_regs : P .regs) (p_acc : P .acc) (p_servo : P .servo) (p_host : P
    .host) (h : Keeps P r s) : KeepsO P r (execApstTransition b0 b1 s) := by
  unfold execApstTransition
  split
  · exact KeepsO.of_next (keeps_askPs p_free p_regs p_acc p_servo p_host h)
  · exact KeepsO.of_next h

/-- `execAsyncEventRequest` keeps. -/
theorem keeps_execAsyncEventRequest {P : Part → Prop} {r s : State} {b0 : Fin 65536} (p_mem : P .mem) (p_host : P .host) (h : Keeps P r s) : KeepsO P r (execAsyncEventRequest b0 s) := by
  unfold execAsyncEventRequest
  refine keeps_adm ?_ ?_
  · exact h
  · intro y1
    exact (Keeps.ite (keeps_endAll p_mem p_host h) (keeps_meetAer p_mem p_host (keeps_ctrlUpd p_host (keeps_ctxUpd p_mem p_host h))))

/-- `execCreateIoCq` keeps. -/
theorem keeps_execCreateIoCq {P : Part → Prop} {r s : State} {b0 : Fin 65536} (p_mem : P .mem) (p_host : P .host) (h : Keeps P r s) : KeepsO P r (execCreateIoCq b0 s) := by
  unfold execCreateIoCq
  refine keeps_adm ?_ ?_
  · exact h
  · intro y1
    extract_lets +onlyGivenNames x2
    clear_value x2
    extract_lets +onlyGivenNames x3
    clear_value x3
    extract_lets +onlyGivenNames x4
    clear_value x4
    exact (Keeps.ite (keeps_endAll p_mem p_host h) (keeps_succeed p_mem p_host (keeps_ctrlUpd p_host h)))

/-- `execCreateIoSq` keeps. -/
theorem keeps_execCreateIoSq {P : Part → Prop} {r s : State} {b0 : Fin 65536} (p_mem : P .mem) (p_host : P .host) (h : Keeps P r s) : KeepsO P r (execCreateIoSq b0 s) := by
  unfold execCreateIoSq
  refine keeps_adm ?_ ?_
  · exact h
  · intro y1
    extract_lets +onlyGivenNames x2
    clear_value x2
    extract_lets +onlyGivenNames x3
    clear_value x3
    extract_lets +onlyGivenNames x4
    clear_value x4
    extract_lets +onlyGivenNames x5
    clear_value x5
    exact (Keeps.ite (keeps_endAll p_mem p_host h) (Keeps.ite (keeps_endAll p_mem p_host h) (keeps_succeed p_mem p_host (keeps_ctrlUpd p_host h))))

/-- `execDeleteIoCq` keeps. -/
theorem keeps_execDeleteIoCq {P : Part → Prop} {r s : State} {b0 : Fin 65536} (p_mem : P .mem) (p_host : P .host) (h : Keeps P r s) : KeepsO P r (execDeleteIoCq b0 s) := by
  unfold execDeleteIoCq
  refine keeps_adm ?_ ?_
  · exact h
  · intro y1
    extract_lets +onlyGivenNames x2
    clear_value x2
    exact (Keeps.ite (keeps_endAll p_mem p_host h) (keeps_succeed p_mem p_host (keeps_ctrlUpd p_host h)))

/-- `execDeleteIoSq` keeps. -/
theorem keeps_execDeleteIoSq {P : Part → Prop} {r s : State} {b0 : Fin 65536} (p_free : P .free) (p_regs : P .regs) (p_acc : P .acc) (p_mem : P .mem) (p_reach : P .reach) (p_chan
    : P .chan) (p_deep : P .deep) (p_servo : P .servo) (p_zone : P .zone) (p_host : P .host) (p_stage : P .stage) (p_memc : P .memc) (p_evr : P .evr)
    (p_cfx : P .cfx) (p_trust : P .trust) (h : Keeps P r s) : KeepsO P r (execDeleteIoSq b0 s) := by
  unfold execDeleteIoSq
  refine keeps_adm ?_ ?_
  · exact h
  · intro y1
    extract_lets +onlyGivenNames x2
    clear_value x2
    split
    · exact (keeps_endAll p_mem p_host h)
    · extract_lets +onlyGivenNames x3
      have h4 : Keeps P r x3 := (keeps_sqUpd p_host (keeps_ctxUpd p_mem p_host h))
      clear_value x3
      refine keeps_settleDeletes p_mem p_host ?_
      refine Keeps.foldl ?_ fun y5 y6 h7 => ?_
      · exact h4
      · exact (keeps_endCmd p_free p_regs p_acc p_mem p_reach p_chan p_deep p_servo p_zone p_host p_stage p_memc p_evr p_cfx p_trust h7)

/-- `execFirmwareActivate` keeps. -/
theorem keeps_execFirmwareActivate {P : Part → Prop} {r s : State} {b0 : Fin 65536} (p_free : P .free) (p_regs : P .regs) (p_acc : P .acc) (p_mem : P .mem) (p_reach : P .reach) (p_chan
    : P .chan) (p_deep : P .deep) (p_servo : P .servo) (p_zone : P .zone) (p_host : P .host) (p_stage : P .stage) (p_memc : P .memc) (p_evr : P .evr)
    (p_flash : P .flash) (p_trust : P .trust) (h : Keeps P r s) : KeepsO P r (execFirmwareActivate b0 s) := by
  unfold execFirmwareActivate
  refine keeps_adm ?_ ?_
  · exact h
  · intro y1
    split
    · exact h
    · split
      · exact (keeps_endAll p_mem p_host h)
      · split
        · exact (keeps_endAll p_mem p_host h)
        · extract_lets +onlyGivenNames x2
          clear_value x2
          exact (keeps_activate p_free p_regs p_acc p_mem p_reach p_chan p_deep p_servo p_zone p_host p_stage p_memc p_evr p_trust (keeps_ctxUpd
              p_mem p_host (keeps_putImage p_host p_flash (keeps_wr p_regs h))))

/-- `execFirmwareCommit` keeps. -/
theorem keeps_execFirmwareCommit {P : Part → Prop} {r s : State} {b0 : Fin 65536} {b1 : Bool} (p_regs : P .regs) (p_mem : P .mem) (p_host : P .host) (p_flash : P .flash) (h : Keeps P
    r s) : KeepsO P r (execFirmwareCommit b0 b1 s) := by
  unfold execFirmwareCommit
  refine keeps_adm ?_ ?_
  · exact h
  · intro y1
    extract_lets +onlyGivenNames x2
    clear_value x2
    split
    · exact h
    · split
      · exact (keeps_endAll p_mem p_host h)
      · split
        · exact (keeps_endAll p_mem p_host h)
        · extract_lets +onlyGivenNames x3
          clear_value x3
          exact (keeps_succeed p_mem p_host (keeps_putImage p_host p_flash (Keeps.ite (keeps_wr p_regs h) h)))

/-- `execFirmwareImageDownload` keeps. -/
theorem keeps_execFirmwareImageDownload {P : Part → Prop} {r s : State} {b0 : Fin 65536} {b1 : List (BitVec 8)} (p_mem : P .mem) (p_host : P .host) (h : Keeps P r s) : KeepsO P r
    (execFirmwareImageDownload b0 b1 s) := by
  unfold execFirmwareImageDownload
  refine keeps_adm ?_ ?_
  · exact h
  · intro y1
    extract_lets +onlyGivenNames x2
    clear_value x2
    extract_lets +onlyGivenNames x3
    clear_value x3
    exact (Keeps.ite (keeps_endAll p_mem p_host h) (keeps_succeed p_mem p_host (keeps_hput p_host h)))

/-- `execFormatNvm` keeps. -/
theorem keeps_execFormatNvm {P : Part → Prop} {r s : State} {b0 : Fin 65536} (p_regs : P .regs) (p_mem : P .mem) (p_host : P .host) (p_trust : P .trust) (h : Keeps P r s) :
    KeepsO P r (execFormatNvm b0 s) := by
  unfold execFormatNvm
  refine keeps_adm ?_ ?_
  · exact h
  · intro y1
    extract_lets +onlyGivenNames x2
    clear_value x2
    extract_lets +onlyGivenNames x3
    clear_value x3
    extract_lets +onlyGivenNames x4
    clear_value x4
    extract_lets +onlyGivenNames x5
    clear_value x5
    split
    · exact (keeps_endAll p_mem p_host h)
    · split
      · exact (keeps_endAll p_mem p_host h)
      · split
        · exact (keeps_endAll p_mem p_host h)
        · split
          · exact (keeps_endAll p_mem p_host h)
          · extract_lets +onlyGivenNames x6
            refine Keeps.step (P := P) (r := r) (x := x6) ?_ ?_
            · unfold x6
              refine Keeps.foldl ?_ fun y8 y9 h10 => ?_
              · exact (keeps_ctxUpd p_mem p_host h)
              · exact (keeps_wr p_regs (keeps_wr p_regs h10))
            intro h7
            clear_value x6
            extract_lets +onlyGivenNames x11
            have h12 : Keeps P r x11 := (keeps_nsChanged p_mem p_host h7)
            clear_value x11
            exact (Keeps.ite (keeps_newKeys p_regs p_trust h12) h12)

/-- `execGetFeatures` keeps. -/
theorem keeps_execGetFeatures {P : Part → Prop} {r s : State} {b0 : Fin 65536} (p_mem : P .mem) (p_host : P .host) (p_cfx : P .cfx) (h : Keeps P r s) : KeepsO P r (execGetFeatures
    b0 s) := by
  unfold execGetFeatures
  refine keeps_adm ?_ ?_
  · exact h
  · intro y1
    extract_lets +onlyGivenNames x2
    clear_value x2
    extract_lets +onlyGivenNames x3
    clear_value x3
    extract_lets +onlyGivenNames x4
    clear_value x4
    split
    · exact (keeps_endAll p_mem p_host h)
    · split
      · exact (keeps_endAll p_mem p_host h)
      · extract_lets +onlyGivenNames x5
        clear_value x5
        exact (Keeps.ite (keeps_answerData p_mem p_host p_cfx (keeps_ctxUpd p_mem p_host h)) (keeps_answerDw p_mem p_host h))

/-- `execSanitize` keeps. -/
theorem keeps_execSanitize {P : Part → Prop} {r s : State} {b0 : Fin 65536} (p_regs : P .regs) (p_mem : P .mem) (p_host : P .host) (p_trust : P .trust) (h : Keeps P r s) :
    KeepsO P r (execSanitize b0 s) := by
  unfold execSanitize
  refine keeps_adm ?_ ?_
  · exact h
  · intro y1
    exact (Keeps.ite (keeps_endAll p_mem p_host h) (Keeps.ite (keeps_endAll p_mem p_host h) (Keeps.ite (keeps_endAll p_mem p_host h) (keeps_succeed
        p_mem p_host (keeps_startSanitize p_regs p_host p_trust h)))))

/-- `execSecurityReceive` keeps. -/
theorem keeps_execSecurityReceive {P : Part → Prop} {r s : State} {b0 : Fin 65536} (p_free : P .free) (p_mem : P .mem) (p_host : P .host) (p_cfx : P .cfx) (h : Keeps P r s) : KeepsO P
    r (execSecurityReceive b0 s) := by
  unfold execSecurityReceive
  refine keeps_adm ?_ ?_
  · exact h
  · intro y1
    extract_lets +onlyGivenNames x2
    clear_value x2
    extract_lets +onlyGivenNames x3
    clear_value x3
    split
    · exact (keeps_endAll p_mem p_host h)
    · split
      · exact (keeps_answerData p_mem p_host p_cfx h)
      · split
        · rename_i y4 y5 y6 y7 y8 y9
          have h10 : Keeps P r y7 := Keeps.fst y9 (keeps_freeBytes p_free h)
          exact (keeps_answerData p_mem p_host p_cfx h10)

/-- `execSecuritySend` keeps. -/
theorem keeps_execSecuritySend {P : Part → Prop} {r s : State} {b0 : Fin 65536} {b1 : List (BitVec 8)} {b2 : Session} (p_regs : P .regs) (p_mem : P .mem) (p_host : P .host)
    (p_trust : P .trust) (h : Keeps P r s) : KeepsO P r (execSecuritySend b0 b1 b2 s) := by
  unfold execSecuritySend
  refine keeps_adm ?_ ?_
  · exact h
  · intro y1
    extract_lets +onlyGivenNames x2
    exact (Keeps.ite (keeps_endAll p_mem p_host h) (Keeps.ite (keeps_succeed p_mem p_host (keeps_setSession p_regs p_trust h)) (keeps_succeed p_mem
        p_host h)))

/-- `execSetFeatures` keeps. -/
theorem keeps_execSetFeatures {P : Part → Prop} {r s : State} {b0 : Fin 65536} (p_free : P .free) (p_regs : P .regs) (p_acc : P .acc) (p_mem : P .mem) (p_servo : P .servo) (p_host
    : P .host) (p_evr : P .evr) (p_cfx : P .cfx) (h : Keeps P r s) : KeepsO P r (execSetFeatures b0 s) := by
  unfold execSetFeatures
  refine keeps_adm ?_ ?_
  · exact h
  · intro y1
    extract_lets +onlyGivenNames x2
    clear_value x2
    extract_lets +onlyGivenNames x3
    clear_value x3
    extract_lets +onlyGivenNames x4
    have h5 : Keeps P r x4 := (keeps_endAll p_mem p_host h)
    clear_value x4
    split
    · exact h5
    · split
      · exact (keeps_succeed p_mem p_host (keeps_ctlFeature p_host h))
      · split
        · exact (Keeps.ite (keeps_succeed p_mem p_host (keeps_askPs p_free p_regs p_acc p_servo p_host h)) h5)
        · split
          · exact (Keeps.ite (keeps_publish p_regs p_mem p_host p_cfx (keeps_subFeature p_host h)) h5)
          · split
            · split
              · exact h5
              · split
                · exact (keeps_endAll p_mem p_host h)
                · refine keeps_succeed p_mem p_host ?_
                  refine Keeps.foldl ?_ fun y6 y7 h8 => ?_
                  · exact h
                  · exact (keeps_setRecovery p_regs p_host h8)
            · split
              · split
                · exact h5
                · extract_lets +onlyGivenNames x9
                  clear_value x9
                  exact (keeps_answerDw p_mem p_host (keeps_ctrlUpd p_host h))
              · split
                · exact (Keeps.ite h5 (keeps_succeed p_mem p_host (keeps_ctlFeature p_host h)))
                · split
                  · extract_lets +onlyGivenNames x10
                    clear_value x10
                    refine keeps_publish p_regs p_mem p_host p_cfx ?_
                    refine Keeps.foldl ?_ fun y11 y12 h13 => ?_
                    · exact (keeps_subFeature p_host h)
                    · exact (keeps_subFeature p_host h13)
                  · exact (Keeps.ite (keeps_publish p_regs p_mem p_host p_cfx (keeps_setTimestamp p_host p_evr h)) h5)

end Sys2Proof.Machine
end

