-- ==== Sys2Proof/Laws/KeepsArm.lean ====
section
/-! SUPPORT. What the operations of Machine/Arm.lean keep. -/

namespace Sys2Proof.Machine

set_option Elab.async false

/-- `execArmLinkReset` keeps. -/
theorem keeps_execArmLinkReset {P : Part → Prop} {r s : State} {b0 : Fin 4} (p_preamp : P .preamp) (h : Keeps P r s) : KeepsO P r (execArmLinkReset b0 s) := by
  unfold execArmLinkReset
  exact KeepsO.of_next (keeps_updPreamp p_preamp h)

/-- `State.reqEnds` keeps. -/
theorem keeps_reqEnds {P : Part → Prop} {r s : State} {b1 : Fin 4} {b2 : ℕ} (p_regs : P .regs) (h : Keeps P r s) : Keeps P r (State.reqEnds s b1 b2) := by
  unfold State.reqEnds
  exact (keeps_wrs p_regs h)

/-- `execArmReqGo` keeps. -/
theorem keeps_execArmReqGo {P : Part → Prop} {r s : State} {b0 : Fin 4} (p_regs : P .regs) (p_chan : P .chan) (h : Keeps P r s) : KeepsO P r (execArmReqGo b0 s) := by
  unfold execArmReqGo
  split
  · exact KeepsO.of_next h
  · extract_lets +onlyGivenNames x1
    clear_value x1
    extract_lets +onlyGivenNames x2
    clear_value x2
    extract_lets +onlyGivenNames x3
    clear_value x3
    split
    · exact KeepsO.of_next (keeps_reqEnds p_regs h)
    · extract_lets +onlyGivenNames x4
      clear_value x4
      exact KeepsO.of_next (keeps_armSend p_chan (keeps_wr p_regs h))

/-- `State.dropTx` keeps. -/
theorem keeps_dropTx {P : Part → Prop} {r s : State} {b1 : Fin 4} {b2 : Fin 4} (p_chan : P .chan) (h : Keeps P r s) : Keeps P r (State.dropTx s b1 b2) := by
  unfold State.dropTx
  exact (keeps_updCh p_chan h)

/-- `State.armOpFails` keeps. -/
theorem keeps_armOpFails {P : Part → Prop} {r s : State} {b1 : Fin 4} {b2 : Fin 4} (p_free : P .free) (p_regs : P .regs) (p_acc : P .acc) (p_mem : P .mem) (p_reach : P
    .reach) (p_chan : P .chan) (p_deep : P .deep) (p_servo : P .servo) (p_zone : P .zone) (p_host : P .host) (p_stage : P .stage) (p_memc : P .memc)
    (p_evr : P .evr) (p_trust : P .trust) (h : Keeps P r s) : Keeps P r (State.armOpFails s b1 b2) := by
  unfold State.armOpFails
  extract_lets +onlyGivenNames x1
  have h2 : Keeps P r x1 := (keeps_dropTx p_chan h)
  clear_value x1
  split
  · exact (keeps_complete p_free p_regs p_acc p_mem p_reach p_chan p_deep p_servo p_zone p_host p_stage p_memc p_evr p_trust h2)
  · exact (keeps_complete p_free p_regs p_acc p_mem p_reach p_chan p_deep p_servo p_zone p_host p_stage p_memc p_evr p_trust h2)
  · exact (keeps_complete p_free p_regs p_acc p_mem p_reach p_chan p_deep p_servo p_zone p_host p_stage p_memc p_evr p_trust h2)
  · exact (keeps_complete p_free p_regs p_acc p_mem p_reach p_chan p_deep p_servo p_zone p_host p_stage p_memc p_evr p_trust h2)
  · exact (Keeps.ite h2 (keeps_endWith p_free p_regs p_acc p_mem p_reach p_chan p_deep p_servo p_zone p_host p_stage p_memc p_evr p_trust h2))
  · exact (keeps_complete p_free p_regs p_acc p_mem p_reach p_chan p_deep p_servo p_zone p_host p_stage p_memc p_evr p_trust h2)
  · exact h2

/-- `State.attention` keeps. -/
theorem keeps_attention {P : Part → Prop} {r s : State} {b1 : Fin 4} (p_free : P .free) (p_regs : P .regs) (p_acc : P .acc) (p_mem : P .mem) (p_reach : P .reach) (p_chan : P
    .chan) (p_deep : P .deep) (p_servo : P .servo) (p_zone : P .zone) (p_host : P .host) (p_stage : P .stage) (p_memc : P .memc) (p_evr : P .evr)
    (p_trust : P .trust) (h : Keeps P r s) : Keeps P r (State.attention s b1) := by
  unfold State.attention
  extract_lets +onlyGivenNames x1
  have h2 : Keeps P r x1 := (keeps_headCount p_regs p_acc (keeps_wr p_regs (keeps_writeStop p_free p_regs p_acc p_mem p_reach p_chan p_deep p_servo
      p_zone p_host p_stage p_memc p_evr p_trust h)))
  clear_value x1
  extract_lets +onlyGivenNames x3
  have h4 : Keeps P r x3 := (Keeps.ite h2 (keeps_armSend p_chan h2))
  clear_value x3
  split
  · exact (keeps_armOpFails p_free p_regs p_acc p_mem p_reach p_chan p_deep p_servo p_zone p_host p_stage p_memc p_evr p_trust h4)
  · exact (keeps_armOpFails p_free p_regs p_acc p_mem p_reach p_chan p_deep p_servo p_zone p_host p_stage p_memc p_evr p_trust h4)
  · exact h4

/-- `State.checkLinkver` keeps. -/
theorem keeps_checkLinkver {P : Part → Prop} {r s : State} {b1 : Fin 4} {b2 : ArmTx} {b3 : List (BitVec 16)} (p_regs : P .regs) (p_evr : P .evr) (h : Keeps P r s) : Keeps P r
    (State.checkLinkver s b1 b2 b3) := by
  unfold State.checkLinkver
  split
  · exact h
  · extract_lets +onlyGivenNames x1
    clear_value x1
    split
    · exact h
    · extract_lets +onlyGivenNames x2
      clear_value x2
      refine keeps_raise p_evr ?_
      refine Keeps.foldl ?_ fun y3 y4 h5 => ?_
      · exact h
      · exact (keeps_setUnit p_regs h5)

/-- `State.ecsTurn` keeps. -/
theorem keeps_ecsTurn {P : Part → Prop} {r s : State} {b1 : Fin 4} (p_chan : P .chan) (h : Keeps P r s) : Keeps P r (State.ecsTurn s b1) := by
  unfold State.ecsTurn
  split
  · exact (keeps_updCh p_chan h)
  · extract_lets +onlyGivenNames x1
    clear_value x1
    extract_lets +onlyGivenNames x2
    clear_value x2
    extract_lets +onlyGivenNames x3
    clear_value x3
    extract_lets +onlyGivenNames x4
    have h5 : Keeps P r x4 := (Keeps.ite (keeps_armSend p_chan h) h)
    clear_value x4
    exact (keeps_updCh p_chan h5)

/-- `State.loopRestart` keeps. -/
theorem keeps_loopRestart {P : Part → Prop} {r s : State} {b1 : Fin 4} (p_regs : P .regs) (p_chan : P .chan) (h : Keeps P r s) : Keeps P r (State.loopRestart s b1) := by
  unfold State.loopRestart
  exact (Keeps.ite (keeps_wr p_regs (keeps_updCh p_chan h)) h)

/-- `State.headDone` keeps. -/
theorem keeps_headDone {P : Part → Prop} {r s : State} {b1 : Fin 4} {b2 : ℕ} (p_regs : P .regs) (p_chan : P .chan) (h : Keeps P r s) : Keeps P r (State.headDone s b1 b2) := by
  unfold State.headDone
  exact (Keeps.ite h (keeps_loopRestart p_regs p_chan (keeps_wr p_regs h)))

/-- `State.landWords` keeps. -/
theorem keeps_landWords {P : Part → Prop} {r s : State} {b1 : Fin 4} {b2 : ℕ} {b3 : List (BitVec 16)} (p_regs : P .regs) (h : Keeps P r s) : Keeps P r (State.landWords s b1
    b2 b3) := by
  induction b3 generalizing s b1 b2
  · simp only [State.landWords]
    exact h
  · rename_i a1 a2 ih
    simp only [State.landWords]
    exact (ih (keeps_wr p_regs h))

/-- `State.latchProfile` keeps. -/
theorem keeps_latchProfile {P : Part → Prop} {r s : State} {b1 : Fin 4} (p_regs : P .regs) (p_chan : P .chan) (h : Keeps P r s) : Keeps P r (State.latchProfile s b1) := by
  unfold State.latchProfile
  extract_lets +onlyGivenNames x1
  clear_value x1
  exact (keeps_loopRestart p_regs p_chan (keeps_updCh p_chan (keeps_wrs p_regs h)))

/-- `State.noteStatus` keeps. -/
theorem keeps_noteStatus {P : Part → Prop} {r s : State} {b1 : Fin 4} {b2 : ArmTx} {b3 : ℕ} (p_free : P .free) (p_regs : P .regs) (p_acc : P .acc) (p_mem : P .mem) (p_reach :
    P .reach) (p_chan : P .chan) (p_deep : P .deep) (p_servo : P .servo) (p_zone : P .zone) (p_host : P .host) (p_stage : P .stage) (p_memc : P
    .memc) (p_evr : P .evr) (p_trust : P .trust) (h : Keeps P r s) : Keeps P r (State.noteStatus s b1 b2 b3) := by
  unfold State.noteStatus
  extract_lets +onlyGivenNames x1
  have h2 : Keeps P r x1 := (keeps_wr p_regs h)
  clear_value x1
  extract_lets +onlyGivenNames x3
  have h4 : Keeps P r x3 := (Keeps.ite (keeps_count p_regs p_acc (keeps_wr p_regs h2)) h2)
  clear_value x3
  exact (Keeps.ite (keeps_attention p_free p_regs p_acc p_mem p_reach p_chan p_deep p_servo p_zone p_host p_stage p_memc p_evr p_trust h4) h4)

/-- `State.preampWr` keeps. -/
theorem keeps_preampWr {P : Part → Prop} {r s : State} {b1 : Fin 4} {b2 : ℕ} {b3 : ℕ} (p_preamp : P .preamp) (h : Keeps P r s) : Keeps P r (State.preampWr s b1 b2 b3) := by
  unfold State.preampWr
  exact (Keeps.ite h (keeps_updPreamp p_preamp h))

/-- `State.preampWrs` keeps. -/
theorem keeps_preampWrs {P : Part → Prop} {r s : State} {b1 : Fin 4} {b2 : ℕ} {b3 : List ℕ} (p_preamp : P .preamp) (h : Keeps P r s) : Keeps P r (State.preampWrs s b1 b2 b3) := by
  induction b3 generalizing s b1 b2
  · simp only [State.preampWrs]
    exact h
  · rename_i a1 a2 ih
    simp only [State.preampWrs]
    exact (ih (keeps_preampWr p_preamp h))

/-- `State.responded` keeps. -/
theorem keeps_responded {P : Part → Prop} {r s : State} {b1 : Fin 4} {b2 : ℕ} {b3 : List ℕ} (p_answer : P .answer) (p_preamp : P .preamp) (h : Keeps P r s) : Keeps P r
    (State.responded s b1 b2 b3) := by
  unfold State.responded
  extract_lets +onlyGivenNames x1
  have h2 : Keeps P r x1 := (keeps_updPreamp p_preamp h)
  clear_value x1
  exact (Keeps.put h2)

/-- `State.readRegs` keeps. -/
theorem keeps_readRegs {P : Part → Prop} {r s : State} {b1 : Fin 4} {b2 : ℕ} {b3 : List ℕ} (p_answer : P .answer) (p_free : P .free) (p_preamp : P .preamp) (h : Keeps P r
    s) : Keeps P r (State.readRegs s b1 b2 b3) := by
  unfold State.readRegs
  extract_lets +onlyGivenNames x1
  clear_value x1
  extract_lets +onlyGivenNames x2
  have h3 : Keeps P r x2 := (Keeps.ite (keeps_tookFree p_free h) h)
  clear_value x2
  exact (keeps_responded p_answer p_preamp (Keeps.ite (keeps_updPreamp p_preamp h3) h3))

/-- `State.startTx` keeps. -/
theorem keeps_startTx {P : Part → Prop} {r s : State} {b1 : Fin 4} (p_chan : P .chan) (h : Keeps P r s) : Keeps P r (State.startTx s b1) := by
  unfold State.startTx
  split
  · exact h
  · split
    · exact h
    · exact (keeps_updCh p_chan h)

/-- `State.wroteRegs` keeps. -/
theorem keeps_wroteRegs {P : Part → Prop} {r s : State} {b1 : Fin 4} {b2 : ArmTx} (p_regs : P .regs) (p_chan : P .chan) (p_servo : P .servo) (h : Keeps P r s) : Keeps P r
    (State.wroteRegs s b1 b2) := by
  unfold State.wroteRegs
  extract_lets +onlyGivenNames x1
  clear_value x1
  extract_lets +onlyGivenNames x2
  have h3 : Keeps P r x2 := (Keeps.ite (Keeps.ite h (keeps_headDone p_regs p_chan (keeps_clearBlk p_regs p_servo h))) h)
  clear_value x2
  split
  · extract_lets +onlyGivenNames x4
    clear_value x4
    exact (keeps_wr p_regs (keeps_wr p_regs h3))
  · exact h3

/-- `State.txDone` keeps. -/
theorem keeps_txDone {P : Part → Prop} {r s : State} {b1 : Fin 4} {b2 : ArmTx} {b3 : List (BitVec 16)} (p_free : P .free) (p_regs : P .regs) (p_acc : P .acc) (p_mem : P
    .mem) (p_reach : P .reach) (p_chan : P .chan) (p_deep : P .deep) (p_servo : P .servo) (p_zone : P .zone) (p_host : P .host) (p_stage : P .stage)
    (p_memc : P .memc) (p_evr : P .evr) (p_trust : P .trust) (h : Keeps P r s) : Keeps P r (State.txDone s b1 b2 b3) := by
  unfold State.txDone
  extract_lets +onlyGivenNames x1
  have h2 : Keeps P r x1 := (keeps_updCh p_chan h)
  clear_value x1
  split
  · exact (keeps_headDone p_regs p_chan h2)
  · split
    · exact h2
    · extract_lets +onlyGivenNames x3
      have h4 : Keeps P r x3 := (keeps_latchProfile p_regs p_chan h2)
      clear_value x3
      exact (Keeps.ite (keeps_complete p_free p_regs p_acc p_mem p_reach p_chan p_deep p_servo p_zone p_host p_stage p_memc p_evr p_trust h4) h4)
  · exact (Keeps.ite (keeps_complete p_free p_regs p_acc p_mem p_reach p_chan p_deep p_servo p_zone p_host p_stage p_memc p_evr p_trust h2) h2)
  · exact (keeps_wr p_regs (keeps_wr p_regs h2))
  · extract_lets +onlyGivenNames x5
    clear_value x5
    exact (keeps_raise p_evr (keeps_wr p_regs (keeps_wr p_regs h2)))
  · extract_lets +onlyGivenNames x6
    have h7 : Keeps P r x6 := (Keeps.ite (keeps_landWords p_regs h2) (keeps_wroteRegs p_regs p_chan p_servo h2))
    clear_value x6
    exact (keeps_reqEnds p_regs (keeps_checkLinkver p_regs p_evr h7))
  · exact (keeps_ecsReading p_regs p_chan p_evr h2)
  · exact h2
  · exact h2

/-- `State.txFails` keeps. -/
theorem keeps_txFails {P : Part → Prop} {r s : State} {b1 : Fin 4} {b2 : ArmTx} {b3 : Bool} (p_free : P .free) (p_regs : P .regs) (p_acc : P .acc) (p_mem : P .mem)
    (p_reach : P .reach) (p_chan : P .chan) (p_deep : P .deep) (p_servo : P .servo) (p_zone : P .zone) (p_host : P .host) (p_stage : P .stage)
    (p_memc : P .memc) (p_evr : P .evr) (p_trust : P .trust) (h : Keeps P r s) : Keeps P r (State.txFails s b1 b2 b3) := by
  unfold State.txFails
  extract_lets +onlyGivenNames x1
  have h2 : Keeps P r x1 := (keeps_linkErr p_regs p_evr (keeps_updCh p_chan h))
  clear_value x1
  split
  · exact (keeps_armOpFails p_free p_regs p_acc p_mem p_reach p_chan p_deep p_servo p_zone p_host p_stage p_memc p_evr p_trust (keeps_updSlot p_reach
      h2))
  · exact (keeps_armOpFails p_free p_regs p_acc p_mem p_reach p_chan p_deep p_servo p_zone p_host p_stage p_memc p_evr p_trust (keeps_updSlot p_reach
      h2))
  · exact (keeps_armOpFails p_free p_regs p_acc p_mem p_reach p_chan p_deep p_servo p_zone p_host p_stage p_memc p_evr p_trust (keeps_updSlot p_reach
      h2))
  · exact (keeps_reqEnds p_regs h2)
  · exact h2

/-- `execArmPeriod` keeps. -/
theorem keeps_execArmPeriod {P : Part → Prop} {r s : State} {b0 : Fin 4} (p_chan : P .chan) (p_preamp : P .preamp) (h : Keeps P r s) : KeepsO P r (execArmPeriod b0 s) := by
  unfold execArmPeriod
  extract_lets +onlyGivenNames x1
  have h2 : Keeps P r x1 := (keeps_updPreamp p_preamp h)
  clear_value x1
  split
  · extract_lets +onlyGivenNames x3
    have h4 : Keeps P r x3 := (keeps_updCh p_chan h2)
    clear_value x3
    exact KeepsO.of_next (keeps_startTx p_chan (keeps_ecsTurn p_chan h4))
  · exact KeepsO.of_next h2

/-- `execArmRd` keeps. -/
theorem keeps_execArmRd {P : Part → Prop} {r s : State} {b0 : Fin 4} {b1 : BitVec 24} (p_answer : P .answer) (p_free : P .free) (p_preamp : P .preamp) (h : Keeps P r s) :
    KeepsO P r (execArmRd b0 b1 s) := by
  unfold execArmRd
  split
  · exact KeepsO.of_next h
  · extract_lets +onlyGivenNames x1
    clear_value x1
    extract_lets +onlyGivenNames x2
    clear_value x2
    extract_lets +onlyGivenNames x3
    clear_value x3
    extract_lets +onlyGivenNames x4
    clear_value x4
    extract_lets +onlyGivenNames x5
    clear_value x5
    split
    · exact KeepsO.of_next (keeps_responded p_answer p_preamp h)
    · exact KeepsO.of_next (keeps_readRegs p_answer p_free p_preamp h)

/-- `execArmResponse` keeps. -/
theorem keeps_execArmResponse {P : Part → Prop} {r s : State} {b0 : Fin 4} {b1 : ArmFrame} (p_free : P .free) (p_regs : P .regs) (p_acc : P .acc) (p_mem : P .mem) (p_reach : P
    .reach) (p_chan : P .chan) (p_deep : P .deep) (p_servo : P .servo) (p_zone : P .zone) (p_host : P .host) (p_stage : P .stage) (p_memc : P .memc)
    (p_evr : P .evr) (p_trust : P .trust) (h : Keeps P r s) : KeepsO P r (execArmResponse b0 b1 s) := by
  unfold execArmResponse
  split
  · exact KeepsO.of_next h
  · extract_lets +onlyGivenNames x1
    clear_value x1
    extract_lets +onlyGivenNames x2
    split
    · refine KeepsO.of_next ?_
      refine keeps_startTx p_chan ?_
      unfold x2
      exact (Keeps.ite (keeps_txFails p_free p_regs p_acc p_mem p_reach p_chan p_deep p_servo p_zone p_host p_stage p_memc p_evr p_trust h)
          (keeps_updCh p_chan (keeps_count p_regs p_acc h)))
    · extract_lets +onlyGivenNames x3
      have h4 : Keeps P r x3 := (keeps_noteStatus p_free p_regs p_acc p_mem p_reach p_chan p_deep p_servo p_zone p_host p_stage p_memc p_evr p_trust
          h)
      clear_value x3
      refine KeepsO.of_next ?_
      refine keeps_startTx p_chan ?_
      split
      · exact (keeps_txFails p_free p_regs p_acc p_mem p_reach p_chan p_deep p_servo p_zone p_host p_stage p_memc p_evr p_trust h4)
      · split
        · exact (keeps_txDone p_free p_regs p_acc p_mem p_reach p_chan p_deep p_servo p_zone p_host p_stage p_memc p_evr p_trust h4)
        · unfold x2
          exact (Keeps.ite (keeps_txFails p_free p_regs p_acc p_mem p_reach p_chan p_deep p_servo p_zone p_host p_stage p_memc p_evr p_trust h4)
              (keeps_updCh p_chan (keeps_count p_regs p_acc h4)))

/-- `execArmTd` keeps. -/
theorem keeps_execArmTd {P : Part → Prop} {r s : State} {b0 : Fin 4} {b1 : BitVec 32} (p_chan : P .chan) (p_preamp : P .preamp) (p_servo : P .servo) (h : Keeps P r s) :
    KeepsO P r (execArmTd b0 b1 s) := by
  unfold execArmTd
  split
  · exact KeepsO.of_next h
  · extract_lets +onlyGivenNames x1
    clear_value x1
    extract_lets +onlyGivenNames x2
    have h3 : Keeps P r x2 := (keeps_updCh p_chan h)
    clear_value x2
    extract_lets +onlyGivenNames x4
    have h5 : Keeps P r x4 := (Keeps.ite (keeps_updPreamp p_preamp h3) (keeps_updPreamp p_preamp h3))
    clear_value x4
    exact KeepsO.of_next (Keeps.ite h5 (keeps_runModel p_servo h5))

/-- `execArmWr` keeps. -/
theorem keeps_execArmWr {P : Part → Prop} {r s : State} {b0 : Fin 4} {b1 : BitVec 88} (p_answer : P .answer) (p_preamp : P .preamp) (h : Keeps P r s) : KeepsO P r (execArmWr
    b0 b1 s) := by
  unfold execArmWr
  split
  · exact KeepsO.of_next h
  · extract_lets +onlyGivenNames x1
    clear_value x1
    extract_lets +onlyGivenNames x2
    clear_value x2
    extract_lets +onlyGivenNames x3
    clear_value x3
    extract_lets +onlyGivenNames x4
    clear_value x4
    extract_lets +onlyGivenNames x5
    clear_value x5
    extract_lets +onlyGivenNames x6
    clear_value x6
    extract_lets +onlyGivenNames x7
    clear_value x7
    split
    · exact KeepsO.of_next (keeps_responded p_answer p_preamp h)
    · exact KeepsO.of_next (keeps_responded p_answer p_preamp (keeps_preampWrs p_preamp h))

/-- `execPreampAttention` keeps. -/
theorem keeps_execPreampAttention {P : Part → Prop} {r s : State} {b0 : Fin 4} {b1 : BitVec 9} (p_free : P .free) (p_regs : P .regs) (p_acc : P .acc) (p_mem : P .mem) (p_reach : P
    .reach) (p_chan : P .chan) (p_preamp : P .preamp) (p_deep : P .deep) (p_servo : P .servo) (p_zone : P .zone) (p_host : P .host) (p_stage : P
    .stage) (p_memc : P .memc) (p_evr : P .evr) (p_trust : P .trust) (h : Keeps P r s) : KeepsO P r (execPreampAttention b0 b1 s) := by
  unfold execPreampAttention
  extract_lets +onlyGivenNames x1
  clear_value x1
  extract_lets +onlyGivenNames x2
  have h3 : Keeps P r x2 := (keeps_updPreamp p_preamp h)
  clear_value x2
  split
  · exact KeepsO.of_next h3
  · exact KeepsO.of_next (keeps_attention p_free p_regs p_acc p_mem p_reach p_chan p_deep p_servo p_zone p_host p_stage p_memc p_evr p_trust
      (keeps_wr p_regs h3))

/-- `execPreampTdTimeout` keeps. -/
theorem keeps_execPreampTdTimeout {P : Part → Prop} {r s : State} {b0 : Fin 4} (p_preamp : P .preamp) (h : Keeps P r s) : KeepsO P r (execPreampTdTimeout b0 s) := by
  unfold execPreampTdTimeout
  extract_lets +onlyGivenNames x1
  clear_value x1
  split
  · exact KeepsO.of_next (keeps_updPreamp p_preamp h)
  · exact KeepsO.of_next h

end Sys2Proof.Machine
end

