-- ==== Sys2Proof/Laws/KeepsBackwater.lean ====
section
/-! SUPPORT. What the operations of Machine/Backwater.lean keep. -/

namespace Sys2Proof.Machine

set_option Elab.async false

/-- `State.bkwParity` keeps. -/
theorem keeps_bkwParity {P : Part → Prop} {r s : State} {b1 : ℕ} {b2 : ℕ} (p_regs : P .regs) (p_evr : P .evr) (h : Keeps P r s) : Keeps P r (State.bkwParity s b1 b2) := by
  unfold State.bkwParity
  exact (keeps_raise p_evr (keeps_wr p_regs h))

/-- `State.putQueue` keeps. -/
theorem keeps_putQueue {P : Part → Prop} {r s : State} {b1 : ℕ} {b2 : BQueue} (p_bkw : P .bkw) (h : Keeps P r s) : Keeps P r (State.putQueue s b1 b2) := by
  unfold State.putQueue
  exact (Keeps.put h)

/-- `State.midWord` keeps. -/
theorem keeps_midWord {P : Part → Prop} {r s : State} {b1 : BWord} {b2 : Option (List ℕ)} (p_free : P .free) (h : Keeps P r s) : Keeps P r (State.midWord s b1 b2).1 := by
  unfold State.midWord
  split
  · refine Keeps.fst_mk ?_
    exact h
  · refine Keeps.fst_mk ?_
    exact (keeps_tookFree p_free h)

/-- `State.loadMid1` keeps. -/
theorem keeps_loadMid1 {P : Part → Prop} {r s : State} {b1 : ℕ} {b2 : ℕ} {b3 : BWord} (p_free : P .free) (p_regs : P .regs) (p_acc : P .acc) (p_mem : P .mem) (p_memc : P
    .memc) (p_evr : P .evr) (h : Keeps P r s) : Keeps P r (State.loadMid1 s b1 b2 b3).1 := by
  unfold State.loadMid1
  split
  · rename_i y1 y2 y3 y4
    have h5 : Keeps P r y2 := Keeps.fst y4 (keeps_load p_regs p_acc p_mem p_memc p_evr h)
    exact (keeps_midWord p_free h5)

/-- `State.loadMid` keeps. -/
theorem keeps_loadMid {P : Part → Prop} {r s : State} {b1 : ℕ} {b2 : ℕ} {b3 : List BWord} (p_free : P .free) (p_regs : P .regs) (p_acc : P .acc) (p_mem : P .mem) (p_memc :
    P .memc) (p_evr : P .evr) (h : Keeps P r s) : Keeps P r (State.loadMid s b1 b2 b3).1 := by
  unfold State.loadMid
  refine Keeps.fst_mk ?_
  suffices g : ∀ (l : List BWord) (p : State × ℕ × List BWord), Keeps P r p.1 → Keeps P r (l.foldl (State.midStep b1) p).1 from g _ _ h
  intro l
  induction l with
  | nil => intro p hp; exact hp
  | cons t l ih =>
    intro p hp
    refine ih _ ?_
    unfold State.midStep
    split
    next s1 w e => exact Keeps.fst_mk (Keeps.fst e (keeps_loadMid1 p_free p_regs p_acc p_mem p_memc p_evr hp))

/-- `State.refill` keeps. -/
theorem keeps_refill {P : Part → Prop} {r s : State} {b1 : ℕ} (p_free : P .free) (p_regs : P .regs) (p_acc : P .acc) (p_mem : P .mem) (p_memc : P .memc) (p_evr : P .evr)
    (p_bkw : P .bkw) (h : Keeps P r s) : Keeps P r (State.refill s b1) := by
  unfold State.refill
  extract_lets +onlyGivenNames x1
  clear_value x1
  split
  · rename_i y2 y3 y4 y5
    have h6 : Keeps P r y3 := Keeps.fst y5 (keeps_loadMid p_free p_regs p_acc p_mem p_memc p_evr h)
    extract_lets +onlyGivenNames x7
    have h8 : Keeps P r x7 := (keeps_putQueue p_bkw h6)
    clear_value x7
    exact (Keeps.ite (keeps_bkwParity p_regs p_evr h8) h8)

/-- `execBkwPop` keeps. -/
theorem keeps_execBkwPop {P : Part → Prop} {r s : State} {b0 : Fin 256} {b1 : Bool} (p_answer : P .answer) (p_free : P .free) (p_regs : P .regs) (p_acc : P .acc) (p_mem : P
    .mem) (p_memc : P .memc) (p_evr : P .evr) (p_bkw : P .bkw) (h : Keeps P r s) : KeepsO P r (execBkwPop b0 b1 s) := by
  unfold execBkwPop
  extract_lets +onlyGivenNames x1
  have h2 : Keeps P r x1 := (Keeps.ite (keeps_refill p_free p_regs p_acc p_mem p_memc p_evr p_bkw h) h)
  clear_value x1
  extract_lets +onlyGivenNames x3
  clear_value x3
  split
  · exact KeepsO.of_next (keeps_reply p_answer (keeps_wr p_regs h2))
  · extract_lets +onlyGivenNames x4
    clear_value x4
    extract_lets +onlyGivenNames x5
    have h6 : Keeps P r x5 := (keeps_putQueue p_bkw h2)
    clear_value x5
    extract_lets +onlyGivenNames x7
    have h8 : Keeps P r x7 := (Keeps.ite (keeps_bkwParity p_regs p_evr h6) h6)
    clear_value x7
    exact KeepsO.of_next (keeps_reply p_answer (keeps_wr p_regs h8))

/-- `execBkwFlush` keeps. -/
theorem keeps_execBkwFlush {P : Part → Prop} {r s : State} {b0 : Fin 256} (p_bkw : P .bkw) (h : Keeps P r s) : KeepsO P r (execBkwFlush b0 s) := by
  unfold execBkwFlush
  extract_lets +onlyGivenNames x1
  clear_value x1
  exact KeepsO.of_next (keeps_putQueue p_bkw h)

/-- `execBkwPush` keeps. -/
theorem keeps_execBkwPush {P : Part → Prop} {r s : State} {b0 : Fin 256} {b1 : BitVec 64} (p_bkw : P .bkw) (h : Keeps P r s) : KeepsO P r (execBkwPush b0 b1 s) := by
  unfold execBkwPush
  split
  · extract_lets +onlyGivenNames x1
    clear_value x1
    exact KeepsO.of_next (keeps_putQueue p_bkw h)
  · exact KeepsO.of_next h

/-- `State.storeMid` keeps. -/
theorem keeps_storeMid {P : Part → Prop} {r s : State} {b1 : ℕ} {b2 : ℕ} {b3 : List BWord} (p_regs : P .regs) (p_acc : P .acc) (p_mem : P .mem) (p_stage : P .stage) (p_memc
    : P .memc) (p_evr : P .evr) (h : Keeps P r s) : Keeps P r (State.storeMid s b1 b2 b3) := by
  induction b3 generalizing s b1 b2
  · simp only [State.storeMid]
    exact h
  · rename_i a1 a2 ih
    simp only [State.storeMid]
    exact (ih (Keeps.ite (keeps_setErr p_memc (keeps_stored p_regs p_acc p_mem p_stage p_memc p_evr h)) (keeps_stored p_regs p_acc p_mem p_stage
        p_memc p_evr h)))

/-- `State.spill` keeps. -/
theorem keeps_spill {P : Part → Prop} {r s : State} {b1 : ℕ} {b2 : ℕ} (p_regs : P .regs) (p_acc : P .acc) (p_mem : P .mem) (p_stage : P .stage) (p_memc : P .memc) (p_evr
    : P .evr) (p_bkw : P .bkw) (h : Keeps P r s) : Keeps P r (State.spill s b1 b2) := by
  unfold State.spill
  extract_lets +onlyGivenNames x1
  clear_value x1
  extract_lets +onlyGivenNames x2
  clear_value x2
  extract_lets +onlyGivenNames x3
  have h4 : Keeps P r x3 := (keeps_storeMid p_regs p_acc p_mem p_stage p_memc p_evr h)
  clear_value x3
  extract_lets +onlyGivenNames x5
  have h6 : Keeps P r x5 := (keeps_putQueue p_bkw h4)
  clear_value x5
  exact (Keeps.ite h6 (keeps_bkwParity p_regs p_evr h6))

/-- `State.bkwEnter` keeps. -/
theorem keeps_bkwEnter {P : Part → Prop} {r s : State} {b1 : ℕ} {b2 : BWord} (p_regs : P .regs) (p_acc : P .acc) (p_mem : P .mem) (p_stage : P .stage) (p_memc : P .memc)
    (p_evr : P .evr) (p_bkw : P .bkw) (h : Keeps P r s) : Keeps P r (State.bkwEnter s b1 b2) := by
  unfold State.bkwEnter
  extract_lets +onlyGivenNames x1
  clear_value x1
  split
  · exact (keeps_putQueue p_bkw h)
  · extract_lets +onlyGivenNames x2
    have h3 : Keeps P r x2 := (Keeps.ite h (keeps_spill p_regs p_acc p_mem p_stage p_memc p_evr p_bkw h))
    clear_value x2
    extract_lets +onlyGivenNames x4
    clear_value x4
    exact (keeps_putQueue p_bkw h3)

/-- `State.bkwEnterAll` keeps. -/
theorem keeps_bkwEnterAll {P : Part → Prop} {r s : State} {b1 : ℕ} {b2 : List BWord} (p_regs : P .regs) (p_acc : P .acc) (p_mem : P .mem) (p_stage : P .stage) (p_memc : P
    .memc) (p_evr : P .evr) (p_bkw : P .bkw) (h : Keeps P r s) : Keeps P r (State.bkwEnterAll s b1 b2) := by
  induction b2 generalizing s b1
  · simp only [State.bkwEnterAll]
    exact h
  · rename_i a1 a2 ih
    simp only [State.bkwEnterAll]
    exact (ih (keeps_bkwEnter p_regs p_acc p_mem p_stage p_memc p_evr p_bkw h))

/-- `State.dropItem` keeps. -/
theorem keeps_dropItem {P : Part → Prop} {r s : State} {b1 : ℕ} {b2 : ℕ} {b3 : Bool} (p_regs : P .regs) (p_acc : P .acc) (p_evr : P .evr) (h : Keeps P r s) : Keeps P r
    (State.dropItem s b1 b2 b3) := by
  unfold State.dropItem
  exact (keeps_raise p_evr (keeps_wr p_regs (keeps_count p_regs p_acc h)))

/-- `execBkwPushl` keeps. -/
theorem keeps_execBkwPushl {P : Part → Prop} {r s : State} {b0 : Fin 256} {b1 : BitVec 64} (p_regs : P .regs) (p_acc : P .acc) (p_mem : P .mem) (p_stage : P .stage) (p_memc : P
    .memc) (p_evr : P .evr) (p_bkw : P .bkw) (h : Keeps P r s) : KeepsO P r (execBkwPushl b0 b1 s) := by
  unfold execBkwPushl
  split
  · extract_lets +onlyGivenNames x1
    clear_value x1
    extract_lets +onlyGivenNames x2
    clear_value x2
    extract_lets +onlyGivenNames x3
    have h4 : Keeps P r x3 := (keeps_putQueue p_bkw h)
    clear_value x3
    split
    · exact KeepsO.of_next (keeps_bkwEnterAll p_regs p_acc p_mem p_stage p_memc p_evr p_bkw h4)
    · exact KeepsO.of_next (keeps_dropItem p_regs p_acc p_evr h4)
  · exact KeepsO.of_next h

/-- `State.bkwReset` keeps. -/
theorem keeps_bkwReset {P : Part → Prop} {r s : State} {b1 : List (ℕ × BQueue)} (p_regs : P .regs) (p_acc : P .acc) (p_evr : P .evr) (p_bkw : P .bkw) (h : Keeps P r s) :
    Keeps P r (State.bkwReset s b1) := by
  induction b1 generalizing s 
  · simp only [State.bkwReset]
    exact h
  · rename_i a1 a2 ih
    simp only [State.bkwReset]
    exact (ih (Keeps.ite h (keeps_dropItem p_regs p_acc p_evr (keeps_putQueue p_bkw h))))

/-- `execBkwRefill` keeps. -/
theorem keeps_execBkwRefill {P : Part → Prop} {r s : State} {b0 : Fin 256} (p_free : P .free) (p_regs : P .regs) (p_acc : P .acc) (p_mem : P .mem) (p_memc : P .memc) (p_evr : P
    .evr) (p_bkw : P .bkw) (h : Keeps P r s) : KeepsO P r (execBkwRefill b0 s) := by
  unfold execBkwRefill
  extract_lets +onlyGivenNames x1
  clear_value x1
  split
  · exact KeepsO.of_next (keeps_refill p_free p_regs p_acc p_mem p_memc p_evr p_bkw h)
  · exact KeepsO.of_next h

/-- `execBkwSpill` keeps. -/
theorem keeps_execBkwSpill {P : Part → Prop} {r s : State} {b0 : Fin 256} {b1 : BitVec 8} (p_regs : P .regs) (p_acc : P .acc) (p_mem : P .mem) (p_stage : P .stage) (p_memc : P
    .memc) (p_evr : P .evr) (p_bkw : P .bkw) (h : Keeps P r s) : KeepsO P r (execBkwSpill b0 b1 s) := by
  unfold execBkwSpill
  extract_lets +onlyGivenNames x1
  clear_value x1
  split
  · exact KeepsO.of_next (keeps_spill p_regs p_acc p_mem p_stage p_memc p_evr p_bkw h)
  · exact KeepsO.of_next h

end Sys2Proof.Machine
end

