-- ==== Sys2Proof/Laws/KeepsCal.lean ====
section
/-! SUPPORT. What the operations of Machine/Cal.lean keep. -/

namespace Sys2Proof.Machine

set_option Elab.async false

/-- `State.calPut` keeps. -/
theorem keeps_calPut {P : Part → Prop} {r s : State} {b1 : CalUnit → CalUnit} (p_cal : P .cal) (h : Keeps P r s) : Keeps P r (State.calPut s b1) := by
  unfold State.calPut
  exact (Keeps.put h)

/-- `State.standIn` keeps. -/
theorem keeps_standIn {P : Part → Prop} {r s : State} {b1 : ℕ} {b2 : ℕ} {b3 : ℕ} (p_regs : P .regs) (h : Keeps P r s) : Keeps P r (State.standIn s b1 b2 b3) := by
  unfold State.standIn
  split
  · split
    · extract_lets +onlyGivenNames x1
      clear_value x1
      exact (Keeps.ite h (keeps_wr p_regs (keeps_wr p_regs h)))
  · exact (Keeps.ite (keeps_wr p_regs (keeps_wr p_regs h)) h)

/-- `State.calEnter` keeps. -/
theorem keeps_calEnter {P : Part → Prop} {r s : State} {b1 : ℕ} {b2 : ℕ} {b3 : ℕ} (p_regs : P .regs) (p_cal : P .cal) (h : Keeps P r s) : Keeps P r (State.calEnter s b1 b2
    b3) := by
  unfold State.calEnter
  exact (keeps_standIn p_regs (keeps_calPut p_cal (keeps_wr p_regs (keeps_wr p_regs h))))

/-- `State.calSkip` keeps. -/
theorem keeps_calSkip {P : Part → Prop} {r s : State} {b1 : ℕ} (p_regs : P .regs) (p_acc : P .acc) (p_cal : P .cal) (h : Keeps P r s) : Keeps P r (State.calSkip s b1) := by
  unfold State.calSkip
  exact (Keeps.ite h (keeps_calPut p_cal (keeps_wr p_regs (keeps_count p_regs p_acc h))))

/-- `State.calGo` keeps. -/
theorem keeps_calGo {P : Part → Prop} {r s : State} {b1 : List (ℕ × ℕ)} (p_regs : P .regs) (p_acc : P .acc) (p_cal : P .cal) (h : Keeps P r s) : Keeps P r (State.calGo s
    b1) := by
  induction b1 generalizing s 
  · simp only [State.calGo]
    exact (keeps_calPut p_cal h)
  · rename_i a1 a2 ih
    simp only [State.calGo]
    split
    · exact (keeps_calEnter p_regs p_cal h)
    · exact (ih (keeps_calSkip p_regs p_acc p_cal h))

/-- `State.standOut` keeps. -/
theorem keeps_standOut {P : Part → Prop} {r s : State} {b1 : ℕ} {b2 : ℕ} {b3 : ℕ} (p_regs : P .regs) (h : Keeps P r s) : Keeps P r (State.standOut s b1 b2 b3) := by
  unfold State.standOut
  split
  · extract_lets +onlyGivenNames x1
    clear_value x1
    extract_lets +onlyGivenNames x2
    clear_value x2
    exact (Keeps.ite h (keeps_wr p_regs (keeps_wr p_regs h)))
  · exact (Keeps.ite (keeps_wr p_regs (keeps_wr p_regs h)) h)

/-- `State.calAbandon` keeps. -/
theorem keeps_calAbandon {P : Part → Prop} {r s : State} (p_regs : P .regs) (p_acc : P .acc) (p_cal : P .cal) (h : Keeps P r s) : Keeps P r (State.calAbandon s) := by
  unfold State.calAbandon
  split
  · extract_lets +onlyGivenNames x1
    have h2 : Keeps P r x1 := (keeps_standOut p_regs (keeps_calPut p_cal (keeps_calSkip p_regs p_acc p_cal h)))
    clear_value x1
    exact (keeps_calGo p_regs p_acc p_cal h2)

/-- `State.calReset` keeps. -/
theorem keeps_calReset {P : Part → Prop} {r s : State} (p_regs : P .regs) (p_cal : P .cal) (h : Keeps P r s) : Keeps P r (State.calReset s) := by
  unfold State.calReset
  split
  · extract_lets +onlyGivenNames x1
    have h2 : Keeps P r x1 := (keeps_calPut p_cal (Keeps.ite (keeps_standOut p_regs h) h))
    clear_value x1
    exact (Keeps.ite (keeps_calPut p_cal (keeps_wr p_regs (keeps_wr p_regs h2))) h2)

/-- `execCalGo` keeps. -/
theorem keeps_execCalGo {P : Part → Prop} {r s : State} (p_regs : P .regs) (h : Keeps P r s) : KeepsO P r (execCalGo s) := by
  unfold execCalGo
  exact KeepsO.of_next (keeps_wr p_regs h)

/-- `State.calFaulty` keeps. -/
theorem keeps_calFaulty {P : Part → Prop} {r s : State} {b1 : ℕ} {b2 : ℕ} {b3 : ℕ} (p_regs : P .regs) (p_chan : P .chan) (p_evr : P .evr) (p_cal : P .cal) (h : Keeps P r s)
    : Keeps P r (State.calFaulty s b1 b2 b3) := by
  unfold State.calFaulty
  split
  · split
    · extract_lets +onlyGivenNames x1
      have h2 : Keeps P r x1 := (keeps_sliceFaulty p_regs p_chan p_evr h)
      clear_value x1
      exact (Keeps.ite h2 (keeps_raise p_evr (keeps_wr p_regs h2)))
  · split
    · exact (keeps_calPut p_cal h)
    · extract_lets +onlyGivenNames x3
      have h4 : Keeps P r x3 := (Keeps.ite h (keeps_calPut p_cal (keeps_wr p_regs (keeps_wr p_regs h))))
      clear_value x3
      exact (keeps_raise p_evr (keeps_wr p_regs h4))

/-- `State.calNext` keeps. -/
theorem keeps_calNext {P : Part → Prop} {r s : State} (p_regs : P .regs) (p_acc : P .acc) (p_cal : P .cal) (h : Keeps P r s) : Keeps P r (State.calNext s) := by
  unfold State.calNext
  split
  · extract_lets +onlyGivenNames x1
    have h2 : Keeps P r x1 := (keeps_standOut p_regs h)
    clear_value x1
    split
    · exact (keeps_calEnter p_regs p_cal h2)
    · exact (keeps_calGo p_regs p_acc p_cal h2)

/-- `State.calFails` keeps. -/
theorem keeps_calFails {P : Part → Prop} {r s : State} {b1 : ℕ} (p_regs : P .regs) (p_acc : P .acc) (p_chan : P .chan) (p_evr : P .evr) (p_cal : P .cal) (h : Keeps P r s) :
    Keeps P r (State.calFails s b1) := by
  unfold State.calFails
  split
  · extract_lets +onlyGivenNames x1
    have h2 : Keeps P r x1 := (keeps_raise p_evr (keeps_wr p_regs (keeps_setB p_regs h)))
    clear_value x1
    extract_lets +onlyGivenNames x3
    have h4 : Keeps P r x3 := (Keeps.ite (keeps_calFaulty p_regs p_chan p_evr p_cal h2) h2)
    clear_value x3
    exact (Keeps.ite (keeps_calPut p_cal (keeps_calSkip p_regs p_acc p_cal h4)) (keeps_calNext p_regs p_acc p_cal h4))

/-- `execCalClaim` keeps. -/
theorem keeps_execCalClaim {P : Part → Prop} {r s : State} {b0 : Fin 4} (p_cal : P .cal) (h : Keeps P r s) : KeepsO P r (execCalClaim b0 s) := by
  unfold execCalClaim
  split
  · exact KeepsO.of_next (keeps_calPut p_cal h)
  · exact KeepsO.of_next h

/-- `execCalClaimEnd` keeps. -/
theorem keeps_execCalClaimEnd {P : Part → Prop} {r s : State} {b0 : Fin 4} (p_cal : P .cal) (h : Keeps P r s) : KeepsO P r (execCalClaimEnd b0 s) := by
  unfold execCalClaimEnd
  split
  · exact KeepsO.of_next (keeps_calPut p_cal h)
  · exact KeepsO.of_next h

/-- `execCalItemDone` keeps. -/
theorem keeps_execCalItemDone {P : Part → Prop} {r s : State} {b0 : List (BitVec 32)} {b1 : Option (Fin 32)} {b2 : ℤ} {b3 : ℤ} {b4 : ℤ} (p_regs : P .regs) (p_acc : P .acc) (p_chan
    : P .chan) (p_evr : P .evr) (p_cal : P .cal) (h : Keeps P r s) : KeepsO P r (execCalItemDone b0 b1 b2 b3 b4 s) := by
  unfold execCalItemDone
  split
  · exact KeepsO.of_next h
  · split
    · extract_lets +onlyGivenNames x1
      clear_value x1
      split
      · exact KeepsO.of_next (keeps_calFails p_regs p_acc p_chan p_evr p_cal h)
      · extract_lets +onlyGivenNames x2
        have h3 : Keeps P r x2 := (keeps_calPut p_cal h)
        clear_value x2
        exact KeepsO.of_next (keeps_calNext p_regs p_acc p_cal h3)

/-- `execCalPassEnd` keeps. -/
theorem keeps_execCalPassEnd {P : Part → Prop} {r s : State} (p_regs : P .regs) (p_cal : P .cal) (h : Keeps P r s) : KeepsO P r (execCalPassEnd s) := by
  unfold execCalPassEnd
  split
  · exact KeepsO.of_next h
  · exact KeepsO.of_next (keeps_calPut p_cal (keeps_bump p_regs (keeps_wrs p_regs h)))

/-- `execCalPassStart` keeps. -/
theorem keeps_execCalPassStart {P : Part → Prop} {r s : State} (p_regs : P .regs) (p_acc : P .acc) (p_cal : P .cal) (h : Keeps P r s) : KeepsO P r (execCalPassStart s) := by
  unfold execCalPassStart
  split
  · exact KeepsO.of_next h
  · extract_lets +onlyGivenNames x1
    clear_value x1
    extract_lets +onlyGivenNames x2
    clear_value x2
    extract_lets +onlyGivenNames x3
    clear_value x3
    extract_lets +onlyGivenNames x4
    have h5 : Keeps P r x4 := (keeps_calPut p_cal (keeps_wrs p_regs h))
    clear_value x4
    exact KeepsO.of_next (keeps_calGo p_regs p_acc p_cal h5)

/-- `execCalSwap` keeps. -/
theorem keeps_execCalSwap {P : Part → Prop} {r s : State} {b0 : Fin 7} {b1 : Fin 4} (p_cal : P .cal) (h : Keeps P r s) : KeepsO P r (execCalSwap b0 b1 s) := by
  unfold execCalSwap
  extract_lets +onlyGivenNames x1
  clear_value x1
  extract_lets +onlyGivenNames x2
  clear_value x2
  exact KeepsO.of_next (keeps_calPut p_cal h)

/-- `execSliceWindowEnd` keeps. -/
theorem keeps_execSliceWindowEnd {P : Part → Prop} {r s : State} {b0 : Fin 4} {b1 : Bool} {b2 : Fin 9} {b3 : ℕ} {b4 : ℕ} (p_regs : P .regs) (p_acc : P .acc) (p_chan : P .chan) (p_evr
    : P .evr) (p_cal : P .cal) (h : Keeps P r s) : KeepsO P r (execSliceWindowEnd b0 b1 b2 b3 b4 s) := by
  unfold execSliceWindowEnd
  extract_lets +onlyGivenNames x1
  clear_value x1
  extract_lets +onlyGivenNames x2
  clear_value x2
  extract_lets +onlyGivenNames x3
  clear_value x3
  extract_lets +onlyGivenNames x4
  clear_value x4
  extract_lets +onlyGivenNames x5
  have h6 : Keeps P r x5 := (keeps_updCh p_chan h)
  clear_value x5
  split
  · exact KeepsO.of_next h6
  · split
    · extract_lets +onlyGivenNames x7
      have h8 : Keeps P r x7 := (keeps_sliceFaulty p_regs p_chan p_evr h6)
      clear_value x7
      exact KeepsO.of_next (Keeps.ite (keeps_calNext p_regs p_acc p_cal h8) h8)

end Sys2Proof.Machine
end

