-- ==== Sys2Proof/Laws/KeepsChannel.lean ====
section
/-! SUPPORT. What the operations of Machine/Channel.lean keep. -/

namespace Sys2Proof.Machine

set_option Elab.async false

/-- `execBlkLoss` keeps. -/
theorem keeps_execBlkLoss {P : Part → Prop} {r s : State} {b0 : Fin 4} {b1 : BlkCause} (p_free : P .free) (p_regs : P .regs) (p_acc : P .acc) (p_mem : P .mem) (p_reach : P
    .reach) (p_chan : P .chan) (p_deep : P .deep) (p_servo : P .servo) (p_zone : P .zone) (p_host : P .host) (p_stage : P .stage) (p_memc : P .memc)
    (p_evr : P .evr) (p_trust : P .trust) (h : Keeps P r s) : KeepsO P r (execBlkLoss b0 b1 s) := by
  unfold execBlkLoss
  split
  · exact KeepsO.of_next h
  · extract_lets +onlyGivenNames x1
    have h2 : Keeps P r x1 := (keeps_clearBlk p_regs p_servo h)
    clear_value x1
    extract_lets +onlyGivenNames x3
    refine Keeps.step (P := P) (r := r) (x := x3) ?_ ?_
    · unfold x3
      split
      · exact h2
      · exact h2
      · exact (keeps_countBlkLoss p_regs p_acc h2)
      · exact (keeps_countBlkLoss p_regs p_acc h2)
      · exact (keeps_countBlkLoss p_regs p_acc h2)
    intro h4
    clear_value x3
    exact KeepsO.of_next (keeps_writeStop p_free p_regs p_acc p_mem p_reach p_chan p_deep p_servo p_zone p_host p_stage p_memc p_evr p_trust h4)

/-- `State.tableGone` keeps. -/
theorem keeps_tableGone {P : Part → Prop} {r s : State} {b1 : Fin 4} {b2 : ℕ} {b3 : List (Fin 4)} (p_free : P .free) (p_regs : P .regs) (p_acc : P .acc) (p_mem : P .mem)
    (p_reach : P .reach) (p_chan : P .chan) (p_deep : P .deep) (p_servo : P .servo) (p_zone : P .zone) (p_host : P .host) (p_stage : P .stage)
    (p_memc : P .memc) (p_evr : P .evr) (p_trust : P .trust) (h : Keeps P r s) : Keeps P r (State.tableGone s b1 b2 b3) := by
  induction b3 generalizing s b1 b2
  · simp only [State.tableGone]
    exact h
  · rename_i a1 a2 ih
    simp only [State.tableGone]
    refine ih ?_
    split
    · exact h
    · split
      · exact (Keeps.ite (keeps_endWith p_free p_regs p_acc p_mem p_reach p_chan p_deep p_servo p_zone p_host p_stage p_memc p_evr p_trust h)
          (keeps_endWith p_free p_regs p_acc p_mem p_reach p_chan p_deep p_servo p_zone p_host p_stage p_memc p_evr p_trust (Keeps.ite
          (keeps_dropTarget p_regs p_servo h) h)))
      · exact (keeps_complete p_free p_regs p_acc p_mem p_reach p_chan p_deep p_servo p_zone p_host p_stage p_memc p_evr p_trust (Keeps.ite
          (keeps_dropTarget p_regs p_servo h) h))
      · exact (keeps_complete p_free p_regs p_acc p_mem p_reach p_chan p_deep p_servo p_zone p_host p_stage p_memc p_evr p_trust (Keeps.ite
          (keeps_dropTarget p_regs p_servo h) h))
      · exact (keeps_complete p_free p_regs p_acc p_mem p_reach p_chan p_deep p_servo p_zone p_host p_stage p_memc p_evr p_trust (Keeps.ite
          (keeps_dropTarget p_regs p_servo h) h))
      · exact (keeps_complete p_free p_regs p_acc p_mem p_reach p_chan p_deep p_servo p_zone p_host p_stage p_memc p_evr p_trust (Keeps.ite
          (keeps_dropTarget p_regs p_servo h) h))
      · exact (keeps_complete p_free p_regs p_acc p_mem p_reach p_chan p_deep p_servo p_zone p_host p_stage p_memc p_evr p_trust h)
      · exact h

/-- `State.dropTable` keeps. -/
theorem keeps_dropTable {P : Part → Prop} {r s : State} {b1 : Fin 4} {b2 : ℕ} (p_free : P .free) (p_regs : P .regs) (p_acc : P .acc) (p_mem : P .mem) (p_reach : P .reach)
    (p_chan : P .chan) (p_deep : P .deep) (p_servo : P .servo) (p_zone : P .zone) (p_host : P .host) (p_stage : P .stage) (p_memc : P .memc) (p_evr :
    P .evr) (p_trust : P .trust) (h : Keeps P r s) : Keeps P r (State.dropTable s b1 b2) := by
  unfold State.dropTable
  exact (Keeps.ite (keeps_tableGone p_free p_regs p_acc p_mem p_reach p_chan p_deep p_servo p_zone p_host p_stage p_memc p_evr p_trust (keeps_clrB
      p_regs h)) h)

/-- `execRegionLoad` keeps. -/
theorem keeps_execRegionLoad {P : Part → Prop} {r s : State} {b0 : Fin 4} {b1 : Fin 8} (p_free : P .free) (p_regs : P .regs) (p_acc : P .acc) (p_mem : P .mem) (p_reach : P
    .reach) (p_chan : P .chan) (p_deep : P .deep) (p_servo : P .servo) (p_zone : P .zone) (p_host : P .host) (p_stage : P .stage) (p_memc : P .memc)
    (p_evr : P .evr) (p_trust : P .trust) (h : Keeps P r s) : KeepsO P r (execRegionLoad b0 b1 s) := by
  unfold execRegionLoad
  split
  · exact KeepsO.of_next (keeps_clrB p_regs (keeps_setB p_regs h))
  · exact KeepsO.of_next (keeps_raise p_evr (keeps_setB p_regs (keeps_dropTable p_free p_regs p_acc p_mem p_reach p_chan p_deep p_servo p_zone p_host
      p_stage p_memc p_evr p_trust h)))

/-- `State.checkBank` keeps. -/
theorem keeps_checkBank {P : Part → Prop} {r s : State} {b1 : Fin 4} {b2 : ℕ} (p_free : P .free) (p_regs : P .regs) (p_acc : P .acc) (p_mem : P .mem) (p_reach : P .reach)
    (p_chan : P .chan) (p_deep : P .deep) (p_servo : P .servo) (p_zone : P .zone) (p_host : P .host) (p_stage : P .stage) (p_memc : P .memc) (p_evr :
    P .evr) (p_trust : P .trust) (h : Keeps P r s) : Keeps P r (State.checkBank s b1 b2) := by
  unfold State.checkBank
  extract_lets +onlyGivenNames x1
  clear_value x1
  exact (Keeps.ite (keeps_updCh p_chan h) (Keeps.ite (keeps_writeStop p_free p_regs p_acc p_mem p_reach p_chan p_deep p_servo p_zone p_host p_stage
      p_memc p_evr p_trust (keeps_raise p_evr (keeps_updCh p_chan h))) (keeps_updCh p_chan h)))

/-- `State.slip` keeps. -/
theorem keeps_slip {P : Part → Prop} {r s : State} {b1 : Fin 4} {b2 : Bool} (p_free : P .free) (p_regs : P .regs) (p_acc : P .acc) (p_mem : P .mem) (p_reach : P .reach)
    (p_chan : P .chan) (p_deep : P .deep) (p_servo : P .servo) (p_zone : P .zone) (p_host : P .host) (p_stage : P .stage) (p_memc : P .memc) (p_evr :
    P .evr) (p_trust : P .trust) (h : Keeps P r s) : Keeps P r (State.slip s b1 b2) := by
  unfold State.slip
  extract_lets +onlyGivenNames x1
  have h2 : Keeps P r x1 := (keeps_updCh p_chan h)
  clear_value x1
  exact (keeps_writeStop p_free p_regs p_acc p_mem p_reach p_chan p_deep p_servo p_zone p_host p_stage p_memc p_evr p_trust (keeps_tookFree p_free
      (keeps_raise p_evr h2)))

/-- `execBankWord` keeps. -/
theorem keeps_execBankWord {P : Part → Prop} {r s : State} {b0 : Fin 4} {b1 : ℕ} {b2 : BitVec 4} {b3 : BitVec 20} {b4 : BitVec 4} {b5 : ℕ} (p_free : P .free) (p_regs : P .regs)
    (p_acc : P .acc) (p_mem : P .mem) (p_reach : P .reach) (p_chan : P .chan) (p_deep : P .deep) (p_servo : P .servo) (p_zone : P .zone) (p_host : P
    .host) (p_stage : P .stage) (p_memc : P .memc) (p_evr : P .evr) (p_trust : P .trust) (h : Keeps P r s) : KeepsO P r (execBankWord b0 b1 b2 b3 b4
    b5 s) := by
  unfold execBankWord
  split
  · exact KeepsO.of_next h
  · extract_lets +onlyGivenNames x1
    clear_value x1
    split
    · exact KeepsO.of_next (keeps_confirmWord p_free p_regs p_acc p_mem p_reach p_chan p_deep p_servo p_zone p_host p_stage p_memc p_evr p_trust h)
    · split
      · exact KeepsO.of_next h
      · extract_lets +onlyGivenNames x2
        have h3 : Keeps P r x2 := (Keeps.ite (keeps_slip p_free p_regs p_acc p_mem p_reach p_chan p_deep p_servo p_zone p_host p_stage p_memc p_evr
            p_trust h) h)
        clear_value x2
        split
        · exact KeepsO.of_next (keeps_checkBank p_free p_regs p_acc p_mem p_reach p_chan p_deep p_servo p_zone p_host p_stage p_memc p_evr p_trust h3)
        · exact KeepsO.of_next h3

/-- `execBlkLock` keeps. -/
theorem keeps_execBlkLock {P : Part → Prop} {r s : State} {b0 : Fin 4} (p_free : P .free) (p_regs : P .regs) (p_acc : P .acc) (p_mem : P .mem) (p_reach : P .reach) (p_chan : P
    .chan) (p_deep : P .deep) (p_servo : P .servo) (p_zone : P .zone) (p_host : P .host) (p_stage : P .stage) (p_memc : P .memc) (p_evr : P .evr)
    (p_trust : P .trust) (h : Keeps P r s) : KeepsO P r (execBlkLock b0 s) := by
  unfold execBlkLock
  extract_lets +onlyGivenNames x1
  clear_value x1
  split
  · exact KeepsO.of_next h
  · extract_lets +onlyGivenNames x2
    have h3 : Keeps P r x2 := (keeps_wr p_regs (keeps_wr p_regs h))
    clear_value x2
    split
    · exact KeepsO.of_next (keeps_complete p_free p_regs p_acc p_mem p_reach p_chan p_deep p_servo p_zone p_host p_stage p_memc p_evr p_trust h3)
    · exact KeepsO.of_next h3

/-- `execIndexField` keeps. -/
theorem keeps_execIndexField {P : Part → Prop} {r s : State} {b0 : Fin 4} {b1 : ℕ} (p_free : P .free) (p_regs : P .regs) (p_acc : P .acc) (p_mem : P .mem) (p_reach : P .reach)
    (p_chan : P .chan) (p_deep : P .deep) (p_servo : P .servo) (p_zone : P .zone) (p_host : P .host) (p_stage : P .stage) (p_memc : P .memc) (p_evr :
    P .evr) (p_trust : P .trust) (h : Keeps P r s) : KeepsO P r (execIndexField b0 b1 s) := by
  unfold execIndexField
  extract_lets +onlyGivenNames x1
  have h2 : Keeps P r x1 := (keeps_updEng p_reach h)
  clear_value x1
  extract_lets +onlyGivenNames x3
  clear_value x3
  split
  · exact KeepsO.of_next (keeps_updCh p_chan h2)
  · split
    · exact KeepsO.of_next (keeps_slip p_free p_regs p_acc p_mem p_reach p_chan p_deep p_servo p_zone p_host p_stage p_memc p_evr p_trust h2)
    · extract_lets +onlyGivenNames x4
      exact KeepsO.of_next (keeps_updCh p_chan h2)

/-- `execIndexFieldMissed` keeps. -/
theorem keeps_execIndexFieldMissed {P : Part → Prop} {r s : State} {b0 : Fin 4} (p_free : P .free) (p_regs : P .regs) (p_acc : P .acc) (p_mem : P .mem) (p_reach : P .reach) (p_chan : P
    .chan) (p_deep : P .deep) (p_servo : P .servo) (p_zone : P .zone) (p_host : P .host) (p_stage : P .stage) (p_memc : P .memc) (p_evr : P .evr)
    (p_trust : P .trust) (h : Keeps P r s) : KeepsO P r (execIndexFieldMissed b0 s) := by
  unfold execIndexFieldMissed
  extract_lets +onlyGivenNames x1
  clear_value x1
  split
  · exact KeepsO.of_next (keeps_writeStop p_free p_regs p_acc p_mem p_reach p_chan p_deep p_servo p_zone p_host p_stage p_memc p_evr p_trust
      (keeps_updCh p_chan h))
  · exact KeepsO.of_next (keeps_updCh p_chan h)

/-- `execMemWrite` keeps. -/
theorem keeps_execMemWrite {P : Part → Prop} {r s : State} {b0 : BitVec 37} {b1 : BitVec 64} {b2 : BitVec 8} (p_answer : P .answer) (p_free : P .free) (p_regs : P .regs) (p_acc
    : P .acc) (p_mem : P .mem) (p_reach : P .reach) (p_chan : P .chan) (p_deep : P .deep) (p_servo : P .servo) (p_zone : P .zone) (p_host : P .host)
    (p_stage : P .stage) (p_memc : P .memc) (p_evr : P .evr) (p_trust : P .trust) (h : Keeps P r s) : KeepsO P r (execMemWrite b0 b1 b2 s) := by
  unfold execMemWrite
  split
  · extract_lets +onlyGivenNames x1
    have h2 : Keeps P r x1 := (keeps_reply p_answer (keeps_memPut p_regs p_acc p_mem p_memc p_evr h))
    clear_value x1
    split
    · exact KeepsO.of_next (keeps_dropTable p_free p_regs p_acc p_mem p_reach p_chan p_deep p_servo p_zone p_host p_stage p_memc p_evr p_trust h2)
    · exact KeepsO.of_next h2
  · split
    · exact KeepsO.of_next (keeps_busError p_answer (keeps_wr p_regs h))
    · exact KeepsO.of_next (keeps_busError p_answer h)

/-- `execRegionTableStore` keeps. -/
theorem keeps_execRegionTableStore {P : Part → Prop} {r s : State} {b0 : Fin 4} {b1 : Fin 8192} {b2 : BitVec 64} (p_free : P .free) (p_regs : P .regs) (p_acc : P .acc) (p_mem : P .mem)
    (p_reach : P .reach) (p_chan : P .chan) (p_deep : P .deep) (p_servo : P .servo) (p_zone : P .zone) (p_host : P .host) (p_stage : P .stage)
    (p_memc : P .memc) (p_evr : P .evr) (p_trust : P .trust) (h : Keeps P r s) : KeepsO P r (execRegionTableStore b0 b1 b2 s) := by
  unfold execRegionTableStore
  exact KeepsO.of_next (keeps_dropTable p_free p_regs p_acc p_mem p_reach p_chan p_deep p_servo p_zone p_host p_stage p_memc p_evr p_trust
      (keeps_stored p_regs p_acc p_mem p_stage p_memc p_evr h))

end Sys2Proof.Machine
end

