-- ==== Sys2Proof/Laws/KeepsControl.lean ====
section
/-! SUPPORT. What the operations of Machine/Control.lean keep. -/

namespace Sys2Proof.Machine

set_option Elab.async false

/-- `State.settleReady` keeps. -/
theorem keeps_settleReady {P : Part → Prop} {r s : State} (p_host : P .host) (h : Keeps P r s) : Keeps P r (State.settleReady s) := by
  unfold State.settleReady
  exact (Keeps.ite (keeps_hput p_host h) h)

/-- `execIntakeEnable` keeps. -/
theorem keeps_execIntakeEnable {P : Part → Prop} {r s : State} {b0 : Bool} (p_regs : P .regs) (p_host : P .host) (h : Keeps P r s) : KeepsO P r (execIntakeEnable b0 s) := by
  unfold execIntakeEnable
  exact KeepsO.of_next (keeps_settleReady p_host (keeps_wr p_regs h))

/-- `State.activateStaged` keeps. -/
theorem keeps_activateStaged {P : Part → Prop} {r s : State} (p_free : P .free) (p_regs : P .regs) (p_acc : P .acc) (p_mem : P .mem) (p_reach : P .reach) (p_chan : P .chan)
    (p_deep : P .deep) (p_servo : P .servo) (p_zone : P .zone) (p_host : P .host) (p_stage : P .stage) (p_memc : P .memc) (p_evr : P .evr) (p_trust :
    P .trust) (h : Keeps P r s) : Keeps P r (State.activateStaged s) := by
  unfold State.activateStaged
  exact (Keeps.ite (keeps_activate p_free p_regs p_acc p_mem p_reach p_chan p_deep p_servo p_zone p_host p_stage p_memc p_evr p_trust h) h)

/-- `State.closeOpen` keeps. -/
theorem keeps_closeOpen {P : Part → Prop} {r s : State} (p_regs : P .regs) (p_acc : P .acc) (p_mem : P .mem) (p_zone : P .zone) (p_stage : P .stage) (p_memc : P .memc)
    (p_evr : P .evr) (h : Keeps P r s) : Keeps P r (State.closeOpen s) := by
  unfold State.closeOpen
  extract_lets +onlyGivenNames x1
  clear_value x1
  extract_lets +onlyGivenNames x2
  refine Keeps.step (P := P) (r := r) (x := x2) ?_ ?_
  · unfold x2
    refine Keeps.foldl ?_ fun y4 y5 h6 => ?_
    · exact h
    · exact (keeps_closeIf p_regs p_acc p_mem p_zone p_stage p_memc p_evr h6)
  intro h3
  clear_value x2
  exact (keeps_zput p_zone h3)

/-- `State.loseParity` keeps. -/
theorem keeps_loseParity {P : Part → Prop} {r s : State} (p_zone : P .zone) (h : Keeps P r s) : Keeps P r (State.loseParity s) := by
  unfold State.loseParity
  exact (keeps_zput p_zone h)

/-- `State.releaseCmd` keeps. -/
theorem keeps_releaseCmd {P : Part → Prop} {r s : State} {b1 : ℕ} (p_free : P .free) (p_regs : P .regs) (p_acc : P .acc) (p_mem : P .mem) (p_reach : P .reach) (p_chan : P
    .chan) (p_deep : P .deep) (p_servo : P .servo) (p_zone : P .zone) (p_host : P .host) (p_stage : P .stage) (p_memc : P .memc) (p_evr : P .evr)
    (p_cfx : P .cfx) (p_trust : P .trust) (h : Keeps P r s) : Keeps P r (State.releaseCmd s b1) := by
  unfold State.releaseCmd
  extract_lets +onlyGivenNames x1
  refine Keeps.step (P := P) (r := r) (x := x1) ?_ ?_
  · unfold x1
    split
    · split
      · exact (Keeps.ite h (keeps_send p_cfx h))
      · exact h
    · exact h
  intro h2
  clear_value x1
  refine Keeps.foldl ?_ fun y3 y4 h5 => ?_
  · exact h2
  · split
    · exact h5
    · exact (Keeps.ite (keeps_endEarly p_free p_regs p_acc p_mem p_reach p_chan p_deep p_servo p_zone p_host p_stage p_memc p_evr p_trust h5)
        (keeps_endCtx p_regs p_mem p_zone p_host p_stage p_trust (keeps_ctxUpd p_mem p_host h5)))

/-- `State.withdrawDue` keeps. -/
theorem keeps_withdrawDue {P : Part → Prop} {r s : State} (p_free : P .free) (p_regs : P .regs) (p_acc : P .acc) (p_mem : P .mem) (p_reach : P .reach) (p_chan : P .chan)
    (p_deep : P .deep) (p_servo : P .servo) (p_zone : P .zone) (p_host : P .host) (p_stage : P .stage) (p_memc : P .memc) (p_evr : P .evr) (p_trust :
    P .trust) (h : Keeps P r s) : Keeps P r (State.withdrawDue s) := by
  unfold State.withdrawDue
  refine Keeps.foldl ?_ fun y1 y2 h3 => ?_
  · exact (keeps_zput p_zone h)
  · exact (keeps_withdrawAll p_free p_regs p_acc p_mem p_reach p_chan p_deep p_servo p_zone p_host p_stage p_memc p_evr p_trust h3)

/-- `State.ctrlReset` keeps. -/
theorem keeps_ctrlReset {P : Part → Prop} {r s : State} {b1 : Fin 2} {b2 : ℕ} (p_free : P .free) (p_regs : P .regs) (p_acc : P .acc) (p_mem : P .mem) (p_reach : P .reach)
    (p_chan : P .chan) (p_deep : P .deep) (p_servo : P .servo) (p_zone : P .zone) (p_host : P .host) (p_stage : P .stage) (p_memc : P .memc) (p_evr :
    P .evr) (p_cfx : P .cfx) (p_trust : P .trust) (h : Keeps P r s) : Keeps P r (State.ctrlReset s b1 b2) := by
  unfold State.ctrlReset
  extract_lets +onlyGivenNames x1
  clear_value x1
  extract_lets +onlyGivenNames x2
  refine Keeps.step (P := P) (r := r) (x := x2) ?_ ?_
  · unfold x2
    refine keeps_withdrawDue p_free p_regs p_acc p_mem p_reach p_chan p_deep p_servo p_zone p_host p_stage p_memc p_evr p_trust ?_
    refine Keeps.foldl ?_ fun y4 y5 h6 => ?_
    · exact h
    · exact (keeps_releaseCmd p_free p_regs p_acc p_mem p_reach p_chan p_deep p_servo p_zone p_host p_stage p_memc p_evr p_cfx p_trust h6)
  intro h3
  clear_value x2
  extract_lets +onlyGivenNames x7
  have h8 : Keeps P r x7 := (keeps_ctrlUpd p_host h3)
  clear_value x7
  extract_lets +onlyGivenNames x9
  have h10 : Keeps P r x9 := (Keeps.ite h8 (keeps_raise p_evr h8))
  clear_value x9
  exact (keeps_closeOpen p_regs p_acc p_mem p_zone p_stage p_memc p_evr (keeps_loseParity p_zone h10))

/-- `State.linkOff` keeps. -/
theorem keeps_linkOff {P : Part → Prop} {r s : State} {b1 : Fin 2} (p_regs : P .regs) (h : Keeps P r s) : Keeps P r (State.linkOff s b1) := by
  unfold State.linkOff
  exact (keeps_wrs p_regs h)

/-- `State.settleShutdown` keeps. -/
theorem keeps_settleShutdown {P : Part → Prop} {r s : State} {b1 : Fin 2} (p_free : P .free) (p_regs : P .regs) (p_acc : P .acc) (p_servo : P .servo) (p_host : P .host) (h :
    Keeps P r s) : Keeps P r (State.settleShutdown s b1) := by
  unfold State.settleShutdown
  split
  · exact h
  · split
    · exact (keeps_ctrlUpd p_host h)
    · refine Keeps.foldl ?_ fun y1 y2 h3 => ?_
      · exact h
      · exact (keeps_unload p_free p_regs p_acc p_servo h3)

/-- `execCcEnSet` keeps. -/
theorem keeps_execCcEnSet {P : Part → Prop} {r s : State} {b0 : Fin 2} (p_host : P .host) (h : Keeps P r s) : KeepsO P r (execCcEnSet b0 s) := by
  unfold execCcEnSet
  split
  · exact KeepsO.of_next h
  · exact KeepsO.of_next (keeps_settleReady p_host (keeps_ctrlUpd p_host h))

/-- `execControllerReset` keeps. -/
theorem keeps_execControllerReset {P : Part → Prop} {r s : State} {b0 : Fin 2} {b1 : Bool} (p_free : P .free) (p_regs : P .regs) (p_acc : P .acc) (p_mem : P .mem) (p_reach : P .reach)
    (p_chan : P .chan) (p_deep : P .deep) (p_servo : P .servo) (p_zone : P .zone) (p_host : P .host) (p_stage : P .stage) (p_memc : P .memc) (p_evr :
    P .evr) (p_cfx : P .cfx) (p_trust : P .trust) (h : Keeps P r s) : KeepsO P r (execControllerReset b0 b1 s) := by
  unfold execControllerReset
  exact KeepsO.of_next (keeps_activateStaged p_free p_regs p_acc p_mem p_reach p_chan p_deep p_servo p_zone p_host p_stage p_memc p_evr p_trust
      (Keeps.ite (keeps_ctrlReset p_free p_regs p_acc p_mem p_reach p_chan p_deep p_servo p_zone p_host p_stage p_memc p_evr p_cfx p_trust
      (keeps_ctrlReset p_free p_regs p_acc p_mem p_reach p_chan p_deep p_servo p_zone p_host p_stage p_memc p_evr p_cfx p_trust h)) (keeps_ctrlReset
      p_free p_regs p_acc p_mem p_reach p_chan p_deep p_servo p_zone p_host p_stage p_memc p_evr p_cfx p_trust h)))

/-- `execLinkHoldExpiry` keeps. -/
theorem keeps_execLinkHoldExpiry {P : Part → Prop} {r s : State} {b0 : Fin 2} (p_free : P .free) (p_regs : P .regs) (p_acc : P .acc) (p_mem : P .mem) (p_reach : P .reach) (p_chan : P
    .chan) (p_deep : P .deep) (p_servo : P .servo) (p_zone : P .zone) (p_host : P .host) (p_stage : P .stage) (p_memc : P .memc) (p_evr : P .evr)
    (p_cfx : P .cfx) (p_trust : P .trust) (h : Keeps P r s) : KeepsO P r (execLinkHoldExpiry b0 s) := by
  unfold execLinkHoldExpiry
  split
  · exact KeepsO.of_next (keeps_activateStaged p_free p_regs p_acc p_mem p_reach p_chan p_deep p_servo p_zone p_host p_stage p_memc p_evr p_trust
      (keeps_ctrlReset p_free p_regs p_acc p_mem p_reach p_chan p_deep p_servo p_zone p_host p_stage p_memc p_evr p_cfx p_trust h))
  · exact KeepsO.of_next h

/-- `execPerstAssert` keeps. -/
theorem keeps_execPerstAssert {P : Part → Prop} {r s : State} {b0 : Fin 2} (p_free : P .free) (p_regs : P .regs) (p_acc : P .acc) (p_mem : P .mem) (p_reach : P .reach) (p_chan : P
    .chan) (p_deep : P .deep) (p_servo : P .servo) (p_zone : P .zone) (p_host : P .host) (p_stage : P .stage) (p_memc : P .memc) (p_evr : P .evr)
    (p_cfx : P .cfx) (p_trust : P .trust) (p_power : P .power) (h : Keeps P r s) : KeepsO P r (execPerstAssert b0 s) := by
  unfold execPerstAssert
  split
  · exact KeepsO.of_next h
  · extract_lets +onlyGivenNames x1
    clear_value x1
    extract_lets +onlyGivenNames x2
    have h3 : Keeps P r x2 := (Keeps.put h)
    clear_value x2
    split
    · exact KeepsO.of_next h3
    · exact KeepsO.of_next (keeps_activateStaged p_free p_regs p_acc p_mem p_reach p_chan p_deep p_servo p_zone p_host p_stage p_memc p_evr p_trust
        (keeps_ctrlReset p_free p_regs p_acc p_mem p_reach p_chan p_deep p_servo p_zone p_host p_stage p_memc p_evr p_cfx p_trust (keeps_linkOff
        p_regs h3)))

/-- `execPerstRelease` keeps. -/
theorem keeps_execPerstRelease {P : Part → Prop} {r s : State} {b0 : Fin 2} (p_power : P .power) (h : Keeps P r s) : KeepsO P r (execPerstRelease b0 s) := by
  unfold execPerstRelease
  exact KeepsO.of_next (Keeps.put h)

/-- `execPortLinkDown` keeps. -/
theorem keeps_execPortLinkDown {P : Part → Prop} {r s : State} {b0 : Fin 2} (p_free : P .free) (p_regs : P .regs) (p_acc : P .acc) (p_mem : P .mem) (p_reach : P .reach) (p_chan : P
    .chan) (p_deep : P .deep) (p_servo : P .servo) (p_zone : P .zone) (p_host : P .host) (p_stage : P .stage) (p_memc : P .memc) (p_evr : P .evr)
    (p_cfx : P .cfx) (p_trust : P .trust) (h : Keeps P r s) : KeepsO P r (execPortLinkDown b0 s) := by
  unfold execPortLinkDown
  split
  · exact KeepsO.of_next h
  · extract_lets +onlyGivenNames x1
    have h2 : Keeps P r x1 := (keeps_raise p_evr (keeps_wr p_regs (keeps_linkOff p_regs h)))
    clear_value x1
    split
    · exact KeepsO.of_next h2
    · split
      · exact KeepsO.of_next (keeps_activateStaged p_free p_regs p_acc p_mem p_reach p_chan p_deep p_servo p_zone p_host p_stage p_memc p_evr p_trust
          (keeps_ctrlReset p_free p_regs p_acc p_mem p_reach p_chan p_deep p_servo p_zone p_host p_stage p_memc p_evr p_cfx p_trust h2))
      · exact KeepsO.of_next (keeps_ctrlUpd p_host h2)

/-- `execPortLinkUp` keeps. -/
theorem keeps_execPortLinkUp {P : Part → Prop} {r s : State} {b0 : Fin 2} {b1 : Fin 8} {b2 : Fin 8} (p_regs : P .regs) (p_host : P .host) (h : Keeps P r s) : KeepsO P r
    (execPortLinkUp b0 b1 b2 s) := by
  unfold execPortLinkUp
  extract_lets +onlyGivenNames x1
  clear_value x1
  split
  · exact KeepsO.of_next h
  · exact KeepsO.of_next (keeps_ctrlUpd p_host (keeps_wrs p_regs h))

/-- `execShutdownAbrupt` keeps. -/
theorem keeps_execShutdownAbrupt {P : Part → Prop} {r s : State} {b0 : Fin 2} (p_free : P .free) (p_regs : P .regs) (p_acc : P .acc) (p_mem : P .mem) (p_reach : P .reach) (p_chan : P
    .chan) (p_deep : P .deep) (p_servo : P .servo) (p_zone : P .zone) (p_host : P .host) (p_stage : P .stage) (p_memc : P .memc) (p_evr : P .evr)
    (p_cfx : P .cfx) (p_trust : P .trust) (h : Keeps P r s) : KeepsO P r (execShutdownAbrupt b0 s) := by
  unfold execShutdownAbrupt
  extract_lets +onlyGivenNames x1
  clear_value x1
  exact KeepsO.of_next (keeps_ctrlUpd p_host (keeps_ctrlReset p_free p_regs p_acc p_mem p_reach p_chan p_deep p_servo p_zone p_host p_stage p_memc
      p_evr p_cfx p_trust h))

/-- `execShutdownNormal` keeps. -/
theorem keeps_execShutdownNormal {P : Part → Prop} {r s : State} {b0 : Fin 2} (p_host : P .host) (h : Keeps P r s) : KeepsO P r (execShutdownNormal b0 s) := by
  unfold execShutdownNormal
  exact KeepsO.of_next (keeps_ctrlUpd p_host h)

end Sys2Proof.Machine
end

