-- ==== Sys2Proof/Laws/KeepsConfluence.lean ====
section
/-! SUPPORT. What the operations of Machine/Confluence.lean keep. -/

namespace Sys2Proof.Machine

set_option Elab.async false

/-- `State.abortDone` keeps. -/
theorem keeps_abortDone {P : Part → Prop} {r s : State} {b1 : ℕ} {b2 : Ctx} {b3 : ℕ} (p_mem : P .mem) (p_host : P .host) (h : Keeps P r s) : Keeps P r (State.abortDone s b1
    b2 b3) := by
  unfold State.abortDone
  exact (keeps_answerDw p_mem p_host (keeps_ctrlUpd p_host h))

/-- `execCfxFenceGo` keeps. -/
theorem keeps_execCfxFenceGo {P : Part → Prop} {r s : State} {b0 : BitVec 4} (p_regs : P .regs) (p_cfx : P .cfx) (h : Keeps P r s) : KeepsO P r (execCfxFenceGo b0 s) := by
  unfold execCfxFenceGo
  split
  · exact KeepsO.of_next h
  · extract_lets +onlyGivenNames x1
    clear_value x1
    extract_lets +onlyGivenNames x2
    clear_value x2
    extract_lets +onlyGivenNames x3
    clear_value x3
    extract_lets +onlyGivenNames x4
    clear_value x4
    extract_lets +onlyGivenNames x5
    have h6 : Keeps P r x5 := (keeps_cfxUpd p_cfx (keeps_wrs p_regs h))
    clear_value x5
    refine KeepsO.of_next ?_
    refine Keeps.foldl ?_ fun y7 y8 h9 => ?_
    · exact h6
    · exact (keeps_send p_cfx h9)

/-- `State.anaChanged` keeps. -/
theorem keeps_anaChanged {P : Part → Prop} {r s : State} (p_mem : P .mem) (p_host : P .host) (h : Keeps P r s) : Keeps P r (State.anaChanged s) := by
  unfold State.anaChanged
  exact (Keeps.ite (keeps_noticeAll p_mem p_host h) h)

/-- `State.setCut` keeps. -/
theorem keeps_setCut {P : Part → Prop} {r s : State} {b1 : Bool} (p_regs : P .regs) (p_mem : P .mem) (p_host : P .host) (h : Keeps P r s) : Keeps P r (State.setCut s b1) := by
  unfold State.setCut
  split
  · exact h
  · extract_lets +onlyGivenNames x1
    have h2 : Keeps P r x1 := (keeps_wr p_regs h)
    clear_value x1
    exact (keeps_anaChanged p_mem p_host (Keeps.ite (keeps_wr p_regs h2) h2))

/-- `State.freeFeatures` keeps. -/
theorem keeps_freeFeatures {P : Part → Prop} {r s : State} {b1 : List ℕ} (p_free : P .free) (p_host : P .host) (h : Keeps P r s) : Keeps P r (State.freeFeatures s b1) := by
  unfold State.freeFeatures
  refine Keeps.foldl ?_ fun y1 y2 h3 => ?_
  · exact h
  · exact (keeps_tookFree p_free (keeps_subFeature p_host h3))

/-- `State.takeLead` keeps. -/
theorem keeps_takeLead {P : Part → Prop} {r s : State} (p_free : P .free) (p_regs : P .regs) (p_host : P .host) (p_cfx : P .cfx) (h : Keeps P r s) : Keeps P r
    (State.takeLead s) := by
  unfold State.takeLead
  extract_lets +onlyGivenNames x1
  clear_value x1
  extract_lets +onlyGivenNames x2
  have h3 : Keeps P r x2 := (Keeps.ite (keeps_wr p_regs (keeps_freeFeatures p_free p_host h)) h)
  clear_value x2
  extract_lets +onlyGivenNames x4
  clear_value x4
  extract_lets +onlyGivenNames x5
  have h6 : Keeps P r x5 := (keeps_cfxUpd p_cfx h3)
  clear_value x5
  extract_lets +onlyGivenNames x7
  refine Keeps.step (P := P) (r := r) (x := x7) ?_ ?_
  · unfold x7
    refine Keeps.foldl ?_ fun y9 y10 h11 => ?_
    · exact h6
    · exact (keeps_sendAdm p_cfx h11)
  intro h8
  clear_value x7
  exact (Keeps.ite (keeps_tokenRequest p_regs p_cfx h8) h8)

/-- `State.setLead` keeps. -/
theorem keeps_setLead {P : Part → Prop} {r s : State} {b1 : Option ℕ} (p_free : P .free) (p_regs : P .regs) (p_host : P .host) (p_evr : P .evr) (p_cfx : P .cfx) (h : Keeps
    P r s) : Keeps P r (State.setLead s b1) := by
  unfold State.setLead
  split
  · exact h
  · extract_lets +onlyGivenNames x1
    clear_value x1
    extract_lets +onlyGivenNames x2
    have h3 : Keeps P r x2 := (keeps_raise p_evr (keeps_wrs p_regs h))
    clear_value x2
    extract_lets +onlyGivenNames x4
    have h5 : Keeps P r x4 := (keeps_cfxUpd p_cfx h3)
    clear_value x4
    exact (Keeps.ite (keeps_takeLead p_free p_regs p_host p_cfx h5) (Keeps.ite (keeps_send p_cfx h5) h5))

/-- `State.electMouth` keeps. -/
theorem keeps_electMouth {P : Part → Prop} {r s : State} (p_free : P .free) (p_regs : P .regs) (p_mem : P .mem) (p_host : P .host) (p_evr : P .evr) (p_cfx : P .cfx) (h :
    Keeps P r s) : Keeps P r (State.electMouth s) := by
  unfold State.electMouth
  extract_lets +onlyGivenNames x1
  clear_value x1
  extract_lets +onlyGivenNames x2
  clear_value x2
  split
  · exact (Keeps.ite h (keeps_setCut p_regs p_mem p_host (keeps_setLead p_free p_regs p_host p_evr p_cfx h)))
  · split
    · exact (keeps_setCut p_regs p_mem p_host (keeps_setLead p_free p_regs p_host p_evr p_cfx h))
    · split
      · exact (Keeps.ite (keeps_setCut p_regs p_mem p_host (keeps_setLead p_free p_regs p_host p_evr p_cfx h)) (keeps_setCut p_regs p_mem p_host
          (keeps_setLead p_free p_regs p_host p_evr p_cfx h)))
      · extract_lets +onlyGivenNames x3
        clear_value x3
        split
        · exact (Keeps.ite (keeps_setLead p_free p_regs p_host p_evr p_cfx h) h)
        · exact h

/-- `State.elect` keeps. -/
theorem keeps_elect {P : Part → Prop} {r s : State} (p_free : P .free) (p_regs : P .regs) (p_mem : P .mem) (p_host : P .host) (p_evr : P .evr) (p_cfx : P .cfx) (h :
    Keeps P r s) : Keeps P r (State.elect s) := by
  unfold State.elect
  exact (Keeps.ite h (Keeps.ite (keeps_electMouth p_free p_regs p_mem p_host p_evr p_cfx h) (keeps_setLead p_free p_regs p_host p_evr p_cfx h)))

/-- `State.endForwarded` keeps. -/
theorem keeps_endForwarded {P : Part → Prop} {r s : State} {b1 : ℕ} (p_mem : P .mem) (p_host : P .host) (h : Keeps P r s) : Keeps P r (State.endForwarded s b1) := by
  unfold State.endForwarded
  extract_lets +onlyGivenNames x1
  clear_value x1
  extract_lets +onlyGivenNames x2
  refine Keeps.step (P := P) (r := r) (x := x2) ?_ ?_
  · unfold x2
    refine Keeps.foldl ?_ fun y4 y5 h6 => ?_
    · exact h
    · exact (keeps_abortDone p_mem p_host h6)
  intro h3
  clear_value x2
  refine Keeps.foldl ?_ fun y7 y8 h9 => ?_
  · exact h3
  · exact (keeps_endAll p_mem p_host h9)

/-- `State.fenceLost` keeps. -/
theorem keeps_fenceLost {P : Part → Prop} {r s : State} {b1 : ℕ} (p_regs : P .regs) (p_cfx : P .cfx) (h : Keeps P r s) : Keeps P r (State.fenceLost s b1) := by
  unfold State.fenceLost
  exact (Keeps.ite (keeps_cfxUpd p_cfx (keeps_wrs p_regs h)) h)

/-- `State.settleRoutes` keeps. -/
theorem keeps_settleRoutes {P : Part → Prop} {r s : State} (p_regs : P .regs) (h : Keeps P r s) : Keeps P r (State.settleRoutes s) := by
  unfold State.settleRoutes
  exact (keeps_wr p_regs h)

/-- `State.hear` keeps. -/
theorem keeps_hear {P : Part → Prop} {r s : State} {b1 : ℕ} (p_regs : P .regs) (p_mem : P .mem) (p_host : P .host) (p_evr : P .evr) (p_cfx : P .cfx) (h : Keeps P r s) :
    Keeps P r (State.hear s b1) := by
  unfold State.hear
  extract_lets +onlyGivenNames x1
  have h2 : Keeps P r x1 := (keeps_settleRoutes p_regs (keeps_updPeer p_cfx (keeps_setB p_regs h)))
  clear_value x1
  split
  · exact h2
  · extract_lets +onlyGivenNames x3
    have h4 : Keeps P r x3 := (Keeps.ite (keeps_raise p_evr (keeps_wr p_regs (keeps_clrB p_regs h2))) h2)
    clear_value x3
    extract_lets +onlyGivenNames x5
    have h6 : Keeps P r x5 := (keeps_updPeer p_cfx h4)
    clear_value x5
    exact (keeps_anaChanged p_mem p_host (Keeps.ite (keeps_sendAdm p_cfx h6) h6))

/-- `State.msg` keeps. -/
theorem keeps_msg {P : Part → Prop} {r s : State} {b1 : Fin 4} {b2 : State → State} (p_regs : P .regs) (p_mem : P .mem) (p_host : P .host) (p_evr : P .evr) (p_cfx : P
    .cfx) (h : Keeps P r s) (hb1 : (∀ t, Keeps P r t → Keeps P r (b2 t))) : KeepsO P r (State.msg s b1 b2) := by
  unfold State.msg
  split
  · exact KeepsO.of_next (hb1 _ (keeps_hear p_regs p_mem p_host p_evr p_cfx h))
  · exact KeepsO.of_next h

/-- `State.putData` keeps. -/
theorem keeps_putData {P : Part → Prop} {r s : State} {b1 : ℕ} {b2 : ℕ} {b3 : ℕ} {b4 : List ℕ} (p_regs : P .regs) (p_acc : P .acc) (p_mem : P .mem) (p_stage : P .stage)
    (p_memc : P .memc) (p_evr : P .evr) (h : Keeps P r s) : Keeps P r (State.putData s b1 b2 b3 b4) := by
  unfold State.putData
  extract_lets +onlyGivenNames x1
  clear_value x1
  extract_lets +onlyGivenNames x2
  extract_lets +onlyGivenNames x3
  clear_value x3
  unfold x2
  split
  · rename_i y4 y5
    split
    · exact h
    · exact (keeps_stored p_regs p_acc p_mem p_stage p_memc p_evr h)
  · rename_i y6 y7 y8
    refine keeps_stored p_regs p_acc p_mem p_stage p_memc p_evr ?_
    split
    · exact h
    · exact (keeps_stored p_regs p_acc p_mem p_stage p_memc p_evr h)

/-- `State.releaseOf` keeps. -/
theorem keeps_releaseOf {P : Part → Prop} {r s : State} {b1 : ℕ} (p_free : P .free) (p_regs : P .regs) (p_acc : P .acc) (p_mem : P .mem) (p_reach : P .reach) (p_chan : P
    .chan) (p_deep : P .deep) (p_servo : P .servo) (p_zone : P .zone) (p_host : P .host) (p_stage : P .stage) (p_memc : P .memc) (p_evr : P .evr)
    (p_cfx : P .cfx) (p_trust : P .trust) (h : Keeps P r s) : Keeps P r (State.releaseOf s b1) := by
  unfold State.releaseOf
  refine keeps_withdrawDue p_free p_regs p_acc p_mem p_reach p_chan p_deep p_servo p_zone p_host p_stage p_memc p_evr p_trust ?_
  refine Keeps.foldl ?_ fun y1 y2 h3 => ?_
  · exact h
  · exact (keeps_releaseCmd p_free p_regs p_acc p_mem p_reach p_chan p_deep p_servo p_zone p_host p_stage p_memc p_evr p_cfx p_trust h3)

/-- `execAack` keeps. -/
theorem keeps_execAack {P : Part → Prop} {r s : State} {b0 : Fin 4} {b1 : BitVec 64} (p_regs : P .regs) (p_mem : P .mem) (p_host : P .host) (p_evr : P .evr) (p_cfx : P
    .cfx) (h : Keeps P r s) : KeepsO P r (execAack b0 b1 s) := by
  unfold execAack
  refine keeps_msg p_regs p_mem p_host p_evr p_cfx ?_ ?_
  · exact h
  · intro y1 y2
    extract_lets +onlyGivenNames x3
    have h4 : Keeps P r x3 := (keeps_cfxUpd p_cfx y2)
    clear_value x3
    extract_lets +onlyGivenNames x5
    clear_value x5
    exact (keeps_settleAdm p_mem p_host p_cfx (Keeps.ite (keeps_anaChanged p_mem p_host (keeps_updPeer p_cfx h4)) h4))

/-- `execAdm` keeps. -/
theorem keeps_execAdm {P : Part → Prop} {r s : State} {b0 : Fin 4} {b1 : BitVec 64} {b2 : List (ℕ × ℕ)} (p_regs : P .regs) (p_mem : P .mem) (p_host : P .host) (p_evr : P
    .evr) (p_cfx : P .cfx) (h : Keeps P r s) : KeepsO P r (execAdm b0 b1 b2 s) := by
  unfold execAdm
  refine keeps_msg p_regs p_mem p_host p_evr p_cfx ?_ ?_
  · exact h
  · intro y1 y2
    split
    · exact y2
    · extract_lets +onlyGivenNames x3
      clear_value x3
      extract_lets +onlyGivenNames x4
      have h5 : Keeps P r x4 := (keeps_wr p_regs (keeps_hput p_host y2))
      clear_value x4
      extract_lets +onlyGivenNames x6
      refine Keeps.step (P := P) (r := r) (x := x6) ?_ ?_
      · unfold x6
        split
        · exact (keeps_hput p_host h5)
        · exact (Keeps.ite h5 (keeps_setTimestamp p_host p_evr h5))
      intro h7
      clear_value x6
      exact (keeps_send p_cfx h7)

/-- `execAres` keeps. -/
theorem keeps_execAres {P : Part → Prop} {r s : State} {b0 : Fin 4} {b1 : Fin 65536} {b2 : Bool} (p_regs : P .regs) (p_mem : P .mem) (p_host : P .host) (p_evr : P .evr)
    (p_cfx : P .cfx) (h : Keeps P r s) : KeepsO P r (execAres b0 b1 b2 s) := by
  unfold execAres
  refine keeps_msg p_regs p_mem p_host p_evr p_cfx ?_ ?_
  · exact h
  · intro y1 y2
    split
    · exact y2
    · exact (Keeps.ite (keeps_abortDone p_mem p_host y2) y2)

/-- `execBadMessageType` keeps. -/
theorem keeps_execBadMessageType {P : Part → Prop} {r s : State} {b0 : Fin 4} {b1 : BitVec 8} (p_regs : P .regs) (p_acc : P .acc) (h : Keeps P r s) : KeepsO P r (execBadMessageType
    b0 b1 s) := by
  unfold execBadMessageType
  split
  · exact KeepsO.of_next (keeps_count p_regs p_acc h)
  · exact KeepsO.of_next h

/-- `execCfxAbortMsg` keeps. -/
theorem keeps_execCfxAbortMsg {P : Part → Prop} {r s : State} {b0 : Fin 4} {b1 : BitVec 16} {b2 : Bool} (p_free : P .free) (p_regs : P .regs) (p_acc : P .acc) (p_mem : P .mem)
    (p_reach : P .reach) (p_chan : P .chan) (p_deep : P .deep) (p_servo : P .servo) (p_zone : P .zone) (p_host : P .host) (p_stage : P .stage)
    (p_memc : P .memc) (p_evr : P .evr) (p_cfx : P .cfx) (p_trust : P .trust) (h : Keeps P r s) : KeepsO P r (execCfxAbortMsg b0 b1 b2 s) := by
  unfold execCfxAbortMsg
  refine keeps_msg p_regs p_mem p_host p_evr p_cfx ?_ ?_
  · exact h
  · intro y1 y2
    split
    · exact (Keeps.ite y2 (keeps_send p_cfx y2))
    · exact (Keeps.ite (keeps_withdrawDue p_free p_regs p_acc p_mem p_reach p_chan p_deep p_servo p_zone p_host p_stage p_memc p_evr p_trust
        (keeps_releaseCmd p_free p_regs p_acc p_mem p_reach p_chan p_deep p_servo p_zone p_host p_stage p_memc p_evr p_cfx p_trust y2)) (Keeps.ite
        (keeps_send p_cfx (keeps_endEarlyAll p_free p_regs p_acc p_mem p_reach p_chan p_deep p_servo p_zone p_host p_stage p_memc p_evr p_trust y2))
        (keeps_send p_cfx y2)))

/-- `execCfxFenceMsg` keeps. -/
theorem keeps_execCfxFenceMsg {P : Part → Prop} {r s : State} {b0 : Fin 4} {b1 : BitVec 64} (p_regs : P .regs) (p_mem : P .mem) (p_host : P .host) (p_evr : P .evr) (p_cfx : P
    .cfx) (h : Keeps P r s) : KeepsO P r (execCfxFenceMsg b0 b1 s) := by
  unfold execCfxFenceMsg
  refine keeps_msg p_regs p_mem p_host p_evr p_cfx ?_ ?_
  · exact h
  · intro y1 y2
    exact (Keeps.ite (keeps_send p_cfx y2) y2)

/-- `execCfxLinkDown` keeps. -/
theorem keeps_execCfxLinkDown {P : Part → Prop} {r s : State} {b0 : Fin 3} (p_regs : P .regs) (h : Keeps P r s) : KeepsO P r (execCfxLinkDown b0 s) := by
  unfold execCfxLinkDown
  split
  · exact KeepsO.of_next (keeps_settleRoutes p_regs (keeps_wrs p_regs h))
  · exact KeepsO.of_next h

/-- `execCfxLinkTrain` keeps. -/
theorem keeps_execCfxLinkTrain {P : Part → Prop} {r s : State} {b0 : Fin 3} {b1 : Fin 16} {b2 : Fin 4} {b3 : Fin 4} (p_regs : P .regs) (p_evr : P .evr) (h : Keeps P r s) : KeepsO P
    r (execCfxLinkTrain b0 b1 b2 b3 s) := by
  unfold execCfxLinkTrain
  extract_lets +onlyGivenNames x1
  clear_value x1
  split
  · exact KeepsO.of_next h
  · split
    · exact KeepsO.of_next (keeps_settleRoutes p_regs (keeps_wrs p_regs h))
    · exact KeepsO.of_next (keeps_raise p_evr (keeps_wrs p_regs h))

/-- `execCpl` keeps. -/
theorem keeps_execCpl {P : Part → Prop} {r s : State} {b0 : Fin 4} {b1 : Fin 65536} {b2 : BitVec 32} {b3 : BitVec 32} {b4 : BitVec 16} (p_regs : P .regs) (p_mem : P .mem)
    (p_host : P .host) (p_evr : P .evr) (p_cfx : P .cfx) (h : Keeps P r s) : KeepsO P r (execCpl b0 b1 b2 b3 b4 s) := by
  unfold execCpl
  refine keeps_msg p_regs p_mem p_host p_evr p_cfx ?_ ?_
  · exact h
  · intro y1 y2
    split
    · exact y2
    · exact (Keeps.ite y2 (keeps_endAll p_mem p_host (keeps_ctxUpd p_mem p_host y2)))

/-- `execFack` keeps. -/
theorem keeps_execFack {P : Part → Prop} {r s : State} {b0 : Fin 4} {b1 : BitVec 64} (p_regs : P .regs) (p_mem : P .mem) (p_host : P .host) (p_evr : P .evr) (p_cfx : P
    .cfx) (h : Keeps P r s) : KeepsO P r (execFack b0 b1 s) := by
  unfold execFack
  refine keeps_msg p_regs p_mem p_host p_evr p_cfx ?_ ?_
  · exact h
  · intro y1 y2
    split
    · exact y2
    · extract_lets +onlyGivenNames x3
      clear_value x3
      extract_lets +onlyGivenNames x4
      have h5 : Keeps P r x4 := (keeps_cfxUpd p_cfx y2)
      clear_value x4
      exact (Keeps.ite (keeps_wr p_regs h5) h5)

/-- `execFwd` keeps. -/
theorem keeps_execFwd {P : Part → Prop} {r s : State} {b0 : Fin 4} {b1 : BitVec 16} {b2 : BitVec 64} {b3 : Fin 5} {b4 : Sqe} (p_free : P .free) (p_regs : P .regs) (p_mem :
    P .mem) (p_host : P .host) (p_evr : P .evr) (p_cfx : P .cfx) (h : Keeps P r s) : KeepsO P r (execFwd b0 b1 b2 b3 b4 s) := by
  unfold execFwd
  refine keeps_msg p_regs p_mem p_host p_evr p_cfx ?_ ?_
  · exact h
  · intro y1 y2
    split
    · exact y2
    · extract_lets +onlyGivenNames x3
      clear_value x3
      extract_lets +onlyGivenNames x4
      have h5 : Keeps P r x4 := (keeps_hput p_host (keeps_updPeer p_cfx y2))
      clear_value x4
      split
      · rename_i y6 y7 y8 y9
        have h10 : Keeps P r y8 := Keeps.fst y9 (keeps_takeCtxs p_free p_regs p_mem p_host h5)
        exact h10
      · rename_i y11 y12 y13 y14 y15
        have h16 : Keeps P r y13 := Keeps.fst y15 (keeps_takeCtxs p_free p_regs p_mem p_host h5)
        exact (keeps_route p_mem p_host h16)

/-- `execHb` keeps. -/
theorem keeps_execHb {P : Part → Prop} {r s : State} {b0 : Fin 4} {b1 : BitVec 64} {b2 : Fin 4} {b3 : BitVec 8} {b4 : BitVec 8} {b5 : BitVec 4} (p_free : P .free) (p_regs
    : P .regs) (p_mem : P .mem) (p_host : P .host) (p_evr : P .evr) (p_cfx : P .cfx) (h : Keeps P r s) : KeepsO P r (execHb b0 b1 b2 b3 b4 b5 s) := by
  unfold execHb
  refine keeps_msg p_regs p_mem p_host p_evr p_cfx ?_ ?_
  · exact h
  · intro y1 y2
    exact (keeps_settleAdm p_mem p_host p_cfx (keeps_elect p_free p_regs p_mem p_host p_evr p_cfx (keeps_updPeer p_cfx y2)))

/-- `execHbSend` keeps. -/
theorem keeps_execHbSend {P : Part → Prop} {r s : State} (p_free : P .free) (p_regs : P .regs) (p_mem : P .mem) (p_host : P .host) (p_evr : P .evr) (p_cfx : P .cfx) (h :
    Keeps P r s) : KeepsO P r (execHbSend s) := by
  unfold execHbSend
  split
  · exact KeepsO.of_next h
  · extract_lets +onlyGivenNames x1
    have h2 : Keeps P r x1 := (keeps_elect p_free p_regs p_mem p_host p_evr p_cfx h)
    clear_value x1
    extract_lets +onlyGivenNames x3
    clear_value x3
    refine KeepsO.of_next ?_
    refine Keeps.foldl ?_ fun y4 y5 h6 => ?_
    · exact (keeps_tookFree p_free h2)
    · exact (keeps_send p_cfx h6)

/-- `execPeerHeardAgain` keeps. -/
theorem keeps_execPeerHeardAgain {P : Part → Prop} {r s : State} {b0 : Fin 4} (p_regs : P .regs) (p_mem : P .mem) (p_host : P .host) (p_evr : P .evr) (p_cfx : P .cfx) (h : Keeps P r
    s) : KeepsO P r (execPeerHeardAgain b0 s) := by
  unfold execPeerHeardAgain
  split
  · refine keeps_msg p_regs p_mem p_host p_evr p_cfx ?_ ?_
    · exact h
    · intro y1 y2
      exact y2
  · exact KeepsO.of_next h

/-- `execPeerLost` keeps. -/
theorem keeps_execPeerLost {P : Part → Prop} {r s : State} {b0 : Fin 4} (p_free : P .free) (p_regs : P .regs) (p_acc : P .acc) (p_mem : P .mem) (p_reach : P .reach) (p_chan : P
    .chan) (p_deep : P .deep) (p_servo : P .servo) (p_zone : P .zone) (p_host : P .host) (p_stage : P .stage) (p_memc : P .memc) (p_evr : P .evr)
    (p_cfx : P .cfx) (p_trust : P .trust) (h : Keeps P r s) : KeepsO P r (execPeerLost b0 s) := by
  unfold execPeerLost
  extract_lets +onlyGivenNames x1
  clear_value x1
  split
  · exact KeepsO.of_next h
  · extract_lets +onlyGivenNames x2
    have h3 : Keeps P r x2 := (keeps_settleRoutes p_regs (keeps_updPeer p_cfx (keeps_setB p_regs (keeps_clrB p_regs h))))
    clear_value x2
    extract_lets +onlyGivenNames x4
    have h5 : Keeps P r x4 := (keeps_raise p_evr (keeps_count p_regs p_acc (keeps_wr p_regs h3)))
    clear_value x4
    extract_lets +onlyGivenNames x6
    have h7 : Keeps P r x6 := (keeps_dropCredits p_cfx (keeps_fenceLost p_regs p_cfx (keeps_releaseOf p_free p_regs p_acc p_mem p_reach p_chan p_deep
        p_servo p_zone p_host p_stage p_memc p_evr p_cfx p_trust (keeps_endForwarded p_mem p_host (keeps_anaChanged p_mem p_host h5)))))
    clear_value x6
    extract_lets +onlyGivenNames x8
    have h9 : Keeps P r x8 := (Keeps.ite (keeps_tokenReturn p_regs p_cfx h7) h7)
    clear_value x8
    extract_lets +onlyGivenNames x10
    have h11 : Keeps P r x10 := (Keeps.ite (keeps_setLead p_free p_regs p_host p_evr p_cfx h9) h9)
    clear_value x10
    exact KeepsO.of_next (keeps_settleAdm p_mem p_host p_cfx h11)

/-- `execRdata` keeps. -/
theorem keeps_execRdata {P : Part → Prop} {r s : State} {b0 : Fin 4} {b1 : Fin 65536} {b2 : BitVec 32} {b3 : List (BitVec 8)} (p_regs : P .regs) (p_acc : P .acc) (p_mem : P
    .mem) (p_host : P .host) (p_stage : P .stage) (p_memc : P .memc) (p_evr : P .evr) (p_cfx : P .cfx) (h : Keeps P r s) : KeepsO P r (execRdata b0
    b1 b2 b3 s) := by
  unfold execRdata
  refine keeps_msg p_regs p_mem p_host p_evr p_cfx ?_ ?_
  · exact h
  · intro y1 y2
    split
    · exact y2
    · extract_lets +onlyGivenNames x3
      clear_value x3
      exact (Keeps.ite y2 (Keeps.ite (keeps_hput p_host y2) (keeps_stored p_regs p_acc p_mem p_stage p_memc p_evr y2)))

/-- `execSoloToken` keeps. -/
theorem keeps_execSoloToken {P : Part → Prop} {r s : State} (p_regs : P .regs) (p_cfx : P .cfx) (h : Keeps P r s) : KeepsO P r (execSoloToken s) := by
  unfold execSoloToken
  split
  · exact KeepsO.of_next (keeps_cfxUpd p_cfx (keeps_wrs p_regs h))
  · exact KeepsO.of_next h

/-- `execTgnt` keeps. -/
theorem keeps_execTgnt {P : Part → Prop} {r s : State} (p_regs : P .regs) (p_cfx : P .cfx) (h : Keeps P r s) : KeepsO P r (execTgnt s) := by
  unfold execTgnt
  split
  · exact KeepsO.of_next (keeps_cfxUpd p_cfx (keeps_wr p_regs h))
  · exact KeepsO.of_next h

/-- `execTrel` keeps. -/
theorem keeps_execTrel {P : Part → Prop} {r s : State} {b0 : Fin 4} (p_regs : P .regs) (p_mem : P .mem) (p_host : P .host) (p_evr : P .evr) (p_cfx : P .cfx) (h : Keeps P r
    s) : KeepsO P r (execTrel b0 s) := by
  unfold execTrel
  refine keeps_msg p_regs p_mem p_host p_evr p_cfx ?_ ?_
  · exact h
  · intro y1 y2
    exact (Keeps.ite (keeps_tokenReturn p_regs p_cfx y2) y2)

/-- `execTreq` keeps. -/
theorem keeps_execTreq {P : Part → Prop} {r s : State} {b0 : Fin 4} (p_regs : P .regs) (p_mem : P .mem) (p_host : P .host) (p_evr : P .evr) (p_cfx : P .cfx) (h : Keeps P r
    s) : KeepsO P r (execTreq b0 s) := by
  unfold execTreq
  refine keeps_msg p_regs p_mem p_host p_evr p_cfx ?_ ?_
  · exact h
  · intro y1 y2
    exact (Keeps.ite (keeps_tokenRequest p_regs p_cfx y2) y2)

/-- `execWdata` keeps. -/
theorem keeps_execWdata {P : Part → Prop} {r s : State} {b0 : Fin 4} {b1 : Fin 65536} {b2 : BitVec 32} {b3 : List (BitVec 8)} (p_regs : P .regs) (p_acc : P .acc) (p_mem : P
    .mem) (p_host : P .host) (p_stage : P .stage) (p_memc : P .memc) (p_evr : P .evr) (p_cfx : P .cfx) (h : Keeps P r s) : KeepsO P r (execWdata b0
    b1 b2 b3 s) := by
  unfold execWdata
  refine keeps_msg p_regs p_mem p_host p_evr p_cfx ?_ ?_
  · exact h
  · intro y1 y2
    split
    · exact y2
    · split
      · exact y2
      · extract_lets +onlyGivenNames x3
        have h4 : Keeps P r x3 := (keeps_putData p_regs p_acc p_mem p_stage p_memc p_evr y2)
        clear_value x3
        exact (Keeps.ite (keeps_updAll p_mem p_host h4) h4)

end Sys2Proof.Machine
end

