-- ==== Sys2Proof/Laws/KeepsWeir.lean ====
section
/-! SUPPORT. What the operations of Machine/Weir.lean keep. -/

namespace Sys2Proof.Machine

set_option Elab.async false

/-- `State.weirPut` keeps. -/
theorem keeps_weirPut {P : Part → Prop} {r s : State} {b1 : WeirUnit → WeirUnit} (p_weir : P .weir) (h : Keeps P r s) : Keeps P r (State.weirPut s b1) := by
  unfold State.weirPut
  exact (Keeps.put h)

/-- `execWeirSync` keeps. -/
theorem keeps_execWeirSync {P : Part → Prop} {r s : State} {b0 : Requester} {b1 : Fin 5} {b2 : BitVec 48} (p_regs : P .regs) (p_weir : P .weir) (h : Keeps P r s) : KeepsO P r
    (execWeirSync b0 b1 b2 s) := by
  unfold execWeirSync
  split
  · extract_lets +onlyGivenNames x1
    clear_value x1
    extract_lets +onlyGivenNames x2
    clear_value x2
    exact KeepsO.of_next (keeps_weirPut p_weir (keeps_wr p_regs (keeps_wr p_regs h)))
  · exact KeepsO.of_next h

/-- `State.noteFull` keeps. -/
theorem keeps_noteFull {P : Part → Prop} {r s : State} (p_regs : P .regs) (p_acc : P .acc) (p_evr : P .evr) (h : Keeps P r s) : Keeps P r (State.noteFull s) := by
  unfold State.noteFull
  exact (Keeps.ite (keeps_raise p_evr (keeps_count p_regs p_acc (keeps_wr p_regs h))) h)

/-- `State.useSlot` keeps. -/
theorem keeps_useSlot {P : Part → Prop} {r s : State} {b1 : WeirClass} {b2 : Bool} {b3 : Bool} (p_regs : P .regs) (h : Keeps P r s) : Keeps P r (State.useSlot s b1 b2 b3) := by
  unfold State.useSlot
  split
  · exact (keeps_wr p_regs h)
  · exact (Keeps.ite (keeps_wr p_regs h) h)
  · exact h

/-- `State.weirPacket` keeps. -/
theorem keeps_weirPacket {P : Part → Prop} {r s : State} {b1 : Bool} {b2 : Fin 64} {b3 : WeirClass} {b4 : Bool} (p_regs : P .regs) (p_acc : P .acc) (p_evr : P .evr) (p_weir :
    P .weir) (h : Keeps P r s) : KeepsO P r (State.weirPacket s b1 b2 b3 b4) := by
  unfold State.weirPacket
  split
  · split
    · extract_lets +onlyGivenNames x1
      have h2 : Keeps P r x1 := (keeps_weirPut p_weir h)
      clear_value x1
      extract_lets +onlyGivenNames x3
      have h4 : Keeps P r x3 := (keeps_useSlot p_regs h2)
      clear_value x3
      exact KeepsO.of_next (Keeps.ite (keeps_noteFull p_regs p_acc p_evr h4) h4)
    · exact KeepsO.of_next (keeps_weirPut p_weir h)
  · split
    · exact KeepsO.of_next h
    · extract_lets +onlyGivenNames x5
      have h6 : Keeps P r x5 := (keeps_weirPut p_weir h)
      clear_value x5
      exact KeepsO.of_next (keeps_useSlot p_regs h6)

/-- `execWeirPacket` keeps. -/
theorem keeps_execWeirPacket {P : Part → Prop} {r s : State} {b0 : Hop} {b1 : Bool} {b2 : Fin 64} {b3 : WeirClass} {b4 : Bool} (p_regs : P .regs) (p_acc : P .acc) (p_evr : P
    .evr) (p_weir : P .weir) (p_cfx : P .cfx) (h : Keeps P r s) : KeepsO P r (execWeirPacket b0 b1 b2 b3 b4 s) := by
  unfold execWeirPacket
  split
  · refine keeps_weirPacket p_regs p_acc p_evr p_weir ?_
    exact h
  · exact KeepsO.of_next (Keeps.ite (keeps_sendHeld p_cfx h) (keeps_slotBack p_cfx h))
  · exact KeepsO.of_next (keeps_relay p_cfx h)

/-- `execWeirSyncDone` keeps. -/
theorem keeps_execWeirSyncDone {P : Part → Prop} {r s : State} {b0 : Fin 5} (p_regs : P .regs) (p_weir : P .weir) (h : Keeps P r s) : KeepsO P r (execWeirSyncDone b0 s) := by
  unfold execWeirSyncDone
  split
  · exact KeepsO.of_next (keeps_weirPut p_weir (keeps_wr p_regs h))
  · exact KeepsO.of_next h

end Sys2Proof.Machine
end

