-- ==== Sys2Proof/Laws/KeepsCrossing.lean ====
section
/-! SUPPORT. What the operations of Machine/Crossing.lean keep. -/

namespace Sys2Proof.Machine

set_option Elab.async false

/-- `State.crossingPinned` keeps. -/
theorem keeps_crossingPinned {P : Part → Prop} {r s : State} (p_evr : P .evr) (h : Keeps P r s) : Keeps P r (State.crossingPinned s) := by
  unfold State.crossingPinned
  exact (keeps_raise p_evr h)

/-- `State.touched` keeps. -/
theorem keeps_touched {P : Part → Prop} {r s : State} {b1 : Fin 4} {b2 : List Begun} (p_regs : P .regs) (p_acc : P .acc) (p_reach : P .reach) (p_chan : P .chan) (h : Keeps
    P r s) : Keeps P r (State.touched s b1 b2) := by
  induction b2 generalizing s b1
  · simp only [State.touched]
    exact h
  · rename_i a1 a2 ih
    simp only [State.touched]
    refine ih ?_
    split
    · exact (keeps_unsampled p_regs p_acc p_reach p_chan h)
    · exact h

/-- `State.overflowed` keeps. -/
theorem keeps_overflowed {P : Part → Prop} {r s : State} {b1 : Fin 4} {b2 : ℕ} (p_free : P .free) (p_regs : P .regs) (p_acc : P .acc) (p_mem : P .mem) (p_reach : P .reach)
    (p_chan : P .chan) (p_deep : P .deep) (p_servo : P .servo) (p_zone : P .zone) (p_host : P .host) (p_stage : P .stage) (p_memc : P .memc) (p_evr :
    P .evr) (p_trust : P .trust) (h : Keeps P r s) : Keeps P r (State.overflowed s b1 b2) := by
  unfold State.overflowed
  extract_lets +onlyGivenNames x1
  clear_value x1
  split
  · exact h
  · split
    · exact (keeps_touched p_regs p_acc p_reach p_chan h)
    · split
      · exact (keeps_touched p_regs p_acc p_reach p_chan h)
      · split
        · exact h
        · split
          · exact h
          · exact (Keeps.ite (keeps_unsampledRaw p_free p_regs p_acc p_mem p_reach p_chan p_deep p_servo p_zone p_host p_stage p_memc p_evr p_trust
              h) h)

/-- `execCrossingBufferFault` keeps. -/
theorem keeps_execCrossingBufferFault {P : Part → Prop} {r s : State} {b0 : Crossing} (p_free : P .free) (p_regs : P .regs) (p_acc : P .acc) (p_mem : P .mem) (p_reach : P .reach) (p_chan
    : P .chan) (p_deep : P .deep) (p_servo : P .servo) (p_zone : P .zone) (p_host : P .host) (p_stage : P .stage) (p_memc : P .memc) (p_evr : P .evr)
    (p_weir : P .weir) (p_sluice : P .sluice) (p_trust : P .trust) (h : Keeps P r s) : KeepsO P r (execCrossingBufferFault b0 s) := by
  unfold execCrossingBufferFault
  extract_lets +onlyGivenNames x1
  have h2 : Keeps P r x1 := (keeps_crossingPinned p_evr h)
  clear_value x1
  split
  · exact KeepsO.of_next (keeps_drainAll p_free p_regs p_acc p_mem p_reach p_chan p_deep p_servo p_zone p_host p_stage p_memc p_evr p_sluice p_trust
      (keeps_overflowed p_free p_regs p_acc p_mem p_reach p_chan p_deep p_servo p_zone p_host p_stage p_memc p_evr p_trust h2))
  · exact KeepsO.of_next (keeps_writeStop p_free p_regs p_acc p_mem p_reach p_chan p_deep p_servo p_zone p_host p_stage p_memc p_evr p_trust h2)
  · exact KeepsO.of_next (keeps_updCh p_chan h2)
  · exact KeepsO.of_next (keeps_weirPut p_weir h2)

end Sys2Proof.Machine
end

