-- ==== Sys2Proof/Laws/KeepsIrt.lean ====
section
/-! SUPPORT. What the operations of Machine/Irt.lean keep. -/

namespace Sys2Proof.Machine

set_option Elab.async false

/-- `State.setCore` keeps. -/
theorem keeps_setCore {P : Part → Prop} {r s : State} {b1 : ℕ} {b2 : CoreUnit} (p_cores : P .cores) (h : Keeps P r s) : Keeps P r (State.setCore s b1 b2) := by
  unfold State.setCore
  exact (Keeps.put h)

/-- `State.settleIrq` keeps. -/
theorem keeps_settleIrq {P : Part → Prop} {r s : State} {b1 : ℕ} (p_cores : P .cores) (h : Keeps P r s) : Keeps P r (State.settleIrq s b1) := by
  unfold State.settleIrq
  exact (keeps_setCore p_cores h)

/-- `execClaimRead` keeps. -/
theorem keeps_execClaimRead {P : Part → Prop} {r s : State} {b0 : Requester} {b1 : Fin 5} (p_answer : P .answer) (p_regs : P .regs) (p_cores : P .cores) (h : Keeps P r s) :
    KeepsO P r (execClaimRead b0 b1 s) := by
  unfold execClaimRead
  split
  · split
    · exact KeepsO.of_next (keeps_reply p_answer h)
    · exact KeepsO.of_next (keeps_reply p_answer (keeps_settleIrq p_cores (keeps_wr p_regs h)))
  · exact KeepsO.of_next (keeps_reply p_answer h)

/-- `State.hskPut` keeps. -/
theorem keeps_hskPut {P : Part → Prop} {r s : State} {b1 : HskUnit → HskUnit} (p_hsk : P .hsk) (h : Keeps P r s) : Keeps P r (State.hskPut s b1) := by
  unfold State.hskPut
  exact (Keeps.put h)

/-- `State.vfail` keeps. -/
theorem keeps_vfail {P : Part → Prop} {r s : State} {b1 : ℕ} {b2 : ℕ} (p_regs : P .regs) (p_evr : P .evr) (p_hsk : P .hsk) (h : Keeps P r s) : Keeps P r (State.vfail s
    b1 b2) := by
  unfold State.vfail
  exact (Keeps.ite (keeps_hskPut p_hsk h) (keeps_raise p_evr (keeps_wr p_regs (keeps_wr p_regs (keeps_hskPut p_hsk h)))))

/-- `State.vsend` keeps. -/
theorem keeps_vsend {P : Part → Prop} {r s : State} {b1 : ℕ} {b2 : Bool} (p_regs : P .regs) (p_evr : P .evr) (p_hsk : P .hsk) (h : Keeps P r s) : Keeps P r (State.vsend
    s b1 b2) := by
  unfold State.vsend
  extract_lets +onlyGivenNames x1
  clear_value x1
  extract_lets +onlyGivenNames x2
  have h3 : Keeps P r x2 := (keeps_wr p_regs h)
  clear_value x2
  exact (Keeps.ite (keeps_hskPut p_hsk (keeps_wr p_regs h3)) (keeps_vfail p_regs p_evr p_hsk h3))

/-- `State.vmodeRead` keeps. -/
theorem keeps_vmodeRead {P : Part → Prop} {r s : State} {b1 : ℕ} {b2 : Bool} (p_regs : P .regs) (p_evr : P .evr) (p_hsk : P .hsk) (h : Keeps P r s) : Keeps P r
    (State.vmodeRead s b1 b2) := by
  unfold State.vmodeRead
  exact (keeps_vsend p_regs p_evr p_hsk (keeps_hskPut p_hsk (keeps_wr p_regs h)))

/-- `execVloopEnable` keeps. -/
theorem keeps_execVloopEnable {P : Part → Prop} {r s : State} {b0 : Option (BitVec 8)} (p_regs : P .regs) (p_evr : P .evr) (p_hsk : P .hsk) (h : Keeps P r s) : KeepsO P r
    (execVloopEnable b0 s) := by
  unfold execVloopEnable
  split
  · exact KeepsO.of_next (keeps_wr p_regs h)
  · extract_lets +onlyGivenNames x1
    have h2 : Keeps P r x1 := (keeps_wr p_regs h)
    clear_value x1
    split
    · exact KeepsO.of_next (keeps_vmodeRead p_regs p_evr p_hsk h2)
    · exact KeepsO.of_next (keeps_vfail p_regs p_evr p_hsk h2)

/-- `State.settleTimer` keeps. -/
theorem keeps_settleTimer {P : Part → Prop} {r s : State} {b1 : ℕ} (p_cores : P .cores) (h : Keeps P r s) : Keeps P r (State.settleTimer s b1) := by
  unfold State.settleTimer
  exact (keeps_setCore p_cores h)

/-- `State.applyDeferred` keeps. -/
theorem keeps_applyDeferred {P : Part → Prop} {r s : State} {b1 : ℕ} (p_regs : P .regs) (p_cores : P .cores) (h : Keeps P r s) : Keeps P r (State.applyDeferred s b1) := by
  unfold State.applyDeferred
  split
  · exact h
  · extract_lets +onlyGivenNames x1
    have h2 : Keeps P r x1 := (keeps_wr p_regs (keeps_wr p_regs h))
    clear_value x1
    exact (Keeps.put h2)

/-- `execClaimComplete` keeps. -/
theorem keeps_execClaimComplete {P : Part → Prop} {r s : State} {b0 : Requester} {b1 : Fin 5} {b2 : BitVec 9} (p_regs : P .regs) (p_cores : P .cores) (h : Keeps P r s) : KeepsO P r
    (execClaimComplete b0 b1 b2 s) := by
  unfold execClaimComplete
  split
  · exact KeepsO.of_next (keeps_settleIrq p_cores (keeps_applyDeferred p_regs p_cores (keeps_wr p_regs h)))
  · exact KeepsO.of_next h

/-- `State.boot` keeps. -/
theorem keeps_boot {P : Part → Prop} {r s : State} {b1 : ℕ} {b2 : Bool} (p_regs : P .regs) (p_cores : P .cores) (h : Keeps P r s) : Keeps P r (State.boot s b1 b2) := by
  unfold State.boot
  exact (keeps_setCore p_cores (keeps_wr p_regs h))

/-- `execFbootRun` keeps. -/
theorem keeps_execFbootRun {P : Part → Prop} {r s : State} {b0 : Requester} {b1 : Fin 4} {b2 : Bool} (p_regs : P .regs) (p_cores : P .cores) (h : Keeps P r s) : KeepsO P r
    (execFbootRun b0 b1 b2 s) := by
  unfold execFbootRun
  split
  · exact KeepsO.of_next (keeps_boot p_regs p_cores h)
  · exact KeepsO.of_next h

/-- `execMsipWrite` keeps. -/
theorem keeps_execMsipWrite {P : Part → Prop} {r s : State} {b0 : Requester} {b1 : Fin 5} {b2 : Bool} (p_regs : P .regs) (p_cores : P .cores) (h : Keeps P r s) : KeepsO P r
    (execMsipWrite b0 b1 b2 s) := by
  unfold execMsipWrite
  split
  · exact KeepsO.of_next (keeps_setCore p_cores (keeps_wr p_regs h))
  · exact KeepsO.of_next h

/-- `State.vpinned` keeps. -/
theorem keeps_vpinned {P : Part → Prop} {r s : State} {b1 : Bool} {b2 : ℕ} (p_regs : P .regs) (p_acc : P .acc) (p_evr : P .evr) (p_hsk : P .hsk) (h : Keeps P r s) : Keeps
    P r (State.vpinned s b1 b2) := by
  unfold State.vpinned
  split
  · split
    · exact h
    · extract_lets +onlyGivenNames x1
      have h2 : Keeps P r x1 := (keeps_raise p_evr (keeps_count p_regs p_acc (keeps_wr p_regs (keeps_wr p_regs h))))
      clear_value x1
      exact (keeps_hskPut p_hsk h2)
  · split
    · exact h
    · extract_lets +onlyGivenNames x3
      have h4 : Keeps P r x3 := (keeps_raise p_evr (keeps_count p_regs p_acc (keeps_wr p_regs (keeps_wr p_regs h))))
      clear_value x3
      exact (keeps_hskPut p_hsk h4)

/-- `State.vupdate` keeps. -/
theorem keeps_vupdate {P : Part → Prop} {r s : State} {b1 : Bool} {b2 : Bool} {b3 : Bool} (p_regs : P .regs) (p_acc : P .acc) (p_evr : P .evr) (p_hsk : P .hsk) (h : Keeps
    P r s) : Keeps P r (State.vupdate s b1 b2 b3) := by
  unfold State.vupdate
  extract_lets +onlyGivenNames x1
  clear_value x1
  extract_lets +onlyGivenNames x2
  clear_value x2
  extract_lets +onlyGivenNames x3
  clear_value x3
  extract_lets +onlyGivenNames x4
  clear_value x4
  extract_lets +onlyGivenNames x5
  have h6 : Keeps P r x5 := (keeps_hskPut p_hsk (keeps_wr p_regs h))
  clear_value x5
  split
  · extract_lets +onlyGivenNames x7
    clear_value x7
    exact (Keeps.ite (keeps_vsend p_regs p_evr p_hsk h6) h6)
  · extract_lets +onlyGivenNames x8
    clear_value x8
    extract_lets +onlyGivenNames x9
    clear_value x9
    extract_lets +onlyGivenNames x10
    have h11 : Keeps P r x10 := (Keeps.ite h6 (Keeps.ite (keeps_hskPut p_hsk h6) (keeps_vpinned p_regs p_acc p_evr p_hsk h6)))
    clear_value x10
    exact (Keeps.ite (keeps_vsend p_regs p_evr p_hsk h11) h11)

/-- `execAccessFault` keeps. -/
theorem keeps_execAccessFault {P : Part → Prop} {r s : State} {b0 : Fin 5} {b1 : Fin 3} {b2 : BitVec 64} (p_cores : P .cores) (h : Keeps P r s) : KeepsO P r (execAccessFault b0 b1
    b2 s) := by
  unfold execAccessFault
  exact KeepsO.of_next (keeps_setCore p_cores h)

/-- `execIrqRaise` keeps. -/
theorem keeps_execIrqRaise {P : Part → Prop} {r s : State} {b0 : Fin 5} (p_cores : P .cores) (h : Keeps P r s) : KeepsO P r (execIrqRaise b0 s) := by
  unfold execIrqRaise
  exact KeepsO.of_next (keeps_settleIrq p_cores h)

/-- `execTimerInterrupt` keeps. -/
theorem keeps_execTimerInterrupt {P : Part → Prop} {r s : State} {b0 : Fin 5} (p_cores : P .cores) (h : Keeps P r s) : KeepsO P r (execTimerInterrupt b0 s) := by
  unfold execTimerInterrupt
  exact KeepsO.of_next (keeps_settleTimer p_cores h)

/-- `execVoltageUpdate` keeps. -/
theorem keeps_execVoltageUpdate {P : Part → Prop} {r s : State} {b0 : Bool} {b1 : Bool} {b2 : Bool} {b3 : BitVec 8} (p_regs : P .regs) (p_acc : P .acc) (p_evr : P .evr) (p_hsk : P
    .hsk) (h : Keeps P r s) : KeepsO P r (execVoltageUpdate b0 b1 b2 b3 s) := by
  unfold execVoltageUpdate
  split
  · split
    · split
      · exact KeepsO.of_next (keeps_vmodeRead p_regs p_evr p_hsk h)
      · exact KeepsO.of_next (keeps_vfail p_regs p_evr p_hsk h)
    · exact KeepsO.of_next (keeps_vupdate p_regs p_acc p_evr p_hsk h)
  · exact KeepsO.of_next h

end Sys2Proof.Machine
end

