-- ==== Sys2Proof/Laws/KeepsSpindle.lean ====
section
/-! SUPPORT. What the operations of Machine/Spindle.lean keep. -/

namespace Sys2Proof.Machine

set_option Elab.async false

/-- `State.setSpn` keeps. -/
theorem keeps_setSpn {P : Part → Prop} {r s : State} {b1 : ℕ} (p_regs : P .regs) (h : Keeps P r s) : Keeps P r (State.setSpn s b1) := by
  unfold State.setSpn
  exact (keeps_wr p_regs h)

/-- `State.spinUpd` keeps. -/
theorem keeps_spinUpd {P : Part → Prop} {r s : State} {b1 : SpinUnit → SpinUnit} (p_spin : P .spin) (h : Keeps P r s) : Keeps P r (State.spinUpd s b1) := by
  unfold State.spinUpd
  exact (Keeps.put h)

/-- `State.listen` keeps. -/
theorem keeps_listen {P : Part → Prop} {r s : State} (p_regs : P .regs) (p_spin : P .spin) (h : Keeps P r s) : Keeps P r (State.listen s) := by
  unfold State.listen
  exact (keeps_spinUpd p_spin (keeps_wr p_regs (keeps_setSpn p_regs h)))

/-- `State.spnReset` keeps. -/
theorem keeps_spnReset {P : Part → Prop} {r s : State} (p_regs : P .regs) (p_spin : P .spin) (h : Keeps P r s) : Keeps P r (State.spnReset s) := by
  unfold State.spnReset
  extract_lets +onlyGivenNames x1
  have h2 : Keeps P r x1 := (keeps_wr p_regs h)
  clear_value x1
  exact (Keeps.ite (keeps_spinUpd p_spin h2) (Keeps.ite (keeps_listen p_regs p_spin h2) (Keeps.ite (keeps_setSpn p_regs h2) h2)))

/-- `State.judgeOn` keeps. -/
theorem keeps_judgeOn {P : Part → Prop} {r s : State} (p_regs : P .regs) (h : Keeps P r s) : Keeps P r (State.judgeOn s) := by
  unfold State.judgeOn
  extract_lets +onlyGivenNames x1
  clear_value x1
  exact (Keeps.ite (keeps_wr p_regs h) (Keeps.ite (keeps_wr p_regs h) h))

/-- `State.setDemand` keeps. -/
theorem keeps_setDemand {P : Part → Prop} {r s : State} {b1 : ℕ} (p_regs : P .regs) (h : Keeps P r s) : Keeps P r (State.setDemand s b1) := by
  unfold State.setDemand
  exact (keeps_judgeOn p_regs (keeps_wr p_regs h))

/-- `State.sourceDemand` keeps. -/
theorem keeps_sourceDemand {P : Part → Prop} {r s : State} (p_regs : P .regs) (h : Keeps P r s) : Keeps P r (State.sourceDemand s) := by
  unfold State.sourceDemand
  exact (keeps_setDemand p_regs h)

/-- `execCurveApply` keeps. -/
theorem keeps_execCurveApply {P : Part → Prop} {r s : State} (p_regs : P .regs) (p_spin : P .spin) (h : Keeps P r s) : KeepsO P r (execCurveApply s) := by
  unfold execCurveApply
  split
  · exact KeepsO.of_next (keeps_spinUpd p_spin h)
  · exact KeepsO.of_next (keeps_wr p_regs h)

/-- `State.tryStart` keeps. -/
theorem keeps_tryStart {P : Part → Prop} {r s : State} (p_regs : P .regs) (p_spin : P .spin) (h : Keeps P r s) : Keeps P r (State.tryStart s) := by
  unfold State.tryStart
  exact (Keeps.ite (Keeps.ite (keeps_listen p_regs p_spin h) (keeps_wr p_regs h)) h)

/-- `State.leaveHold` keeps. -/
theorem keeps_leaveHold {P : Part → Prop} {r s : State} (p_regs : P .regs) (p_spin : P .spin) (h : Keeps P r s) : Keeps P r (State.leaveHold s) := by
  unfold State.leaveHold
  exact (keeps_tryStart p_regs p_spin (keeps_setSpn p_regs h))

/-- `execSpnClear` keeps. -/
theorem keeps_execSpnClear {P : Part → Prop} {r s : State} (p_regs : P .regs) (p_spin : P .spin) (h : Keeps P r s) : KeepsO P r (execSpnClear s) := by
  unfold execSpnClear
  split
  · exact KeepsO.of_next (keeps_leaveHold p_regs p_spin h)
  · exact KeepsO.of_next h

/-- `State.align` keeps. -/
theorem keeps_align {P : Part → Prop} {r s : State} (p_regs : P .regs) (p_acc : P .acc) (p_spin : P .spin) (h : Keeps P r s) : Keeps P r (State.align s) := by
  unfold State.align
  exact (keeps_spinUpd p_spin (keeps_count p_regs p_acc (keeps_setSpn p_regs h)))

/-- `State.atRest` keeps. -/
theorem keeps_atRest {P : Part → Prop} {r s : State} (p_regs : P .regs) (p_spin : P .spin) (h : Keeps P r s) : Keeps P r (State.atRest s) := by
  unfold State.atRest
  split
  · exact (keeps_setSpn p_regs h)
  · exact (keeps_listen p_regs p_spin h)
  · exact (keeps_setSpn p_regs h)

/-- `State.brakeNow` keeps. -/
theorem keeps_brakeNow {P : Part → Prop} {r s : State} {b1 : ℕ} (p_regs : P .regs) (p_acc : P .acc) (p_spin : P .spin) (h : Keeps P r s) : Keeps P r (State.brakeNow s b1) := by
  unfold State.brakeNow
  extract_lets +onlyGivenNames x1
  clear_value x1
  extract_lets +onlyGivenNames x2
  clear_value x2
  exact (keeps_spinUpd p_spin (keeps_count p_regs p_acc (keeps_wr p_regs (keeps_setSpn p_regs h))))

/-- `State.chopFault` keeps. -/
theorem keeps_chopFault {P : Part → Prop} {r s : State} {b1 : ℕ} (p_regs : P .regs) (p_evr : P .evr) (p_spin : P .spin) (h : Keeps P r s) : Keeps P r (State.chopFault s b1) := by
  unfold State.chopFault
  exact (Keeps.ite h (keeps_spinUpd p_spin (keeps_raise p_evr (keeps_wr p_regs (keeps_wr p_regs h)))))

/-- `State.retractAll` keeps. -/
theorem keeps_retractAll {P : Part → Prop} {r s : State} {b1 : ℕ} {b2 : List (Fin 4)} (p_free : P .free) (p_regs : P .regs) (p_acc : P .acc) (p_mem : P .mem) (p_reach : P
    .reach) (p_chan : P .chan) (p_deep : P .deep) (p_servo : P .servo) (p_zone : P .zone) (p_host : P .host) (p_stage : P .stage) (p_memc : P .memc)
    (p_evr : P .evr) (p_trust : P .trust) (h : Keeps P r s) : Keeps P r (State.retractAll s b1 b2) := by
  induction b2 generalizing s b1
  · simp only [State.retractAll]
    exact h
  · rename_i a1 a2 ih
    simp only [State.retractAll]
    exact (ih (Keeps.ite (keeps_retract p_free p_regs p_acc p_mem p_reach p_chan p_deep p_servo p_zone p_host p_stage p_memc p_evr p_trust h) h))

/-- `State.spnRelease` keeps. -/
theorem keeps_spnRelease {P : Part → Prop} {r s : State} (p_regs : P .regs) (p_cfx : P .cfx) (h : Keeps P r s) : Keeps P r (State.spnRelease s) := by
  unfold State.spnRelease
  exact (keeps_tokenGive p_regs p_cfx (keeps_wr p_regs h))

/-- `State.overvolt` keeps. -/
theorem keeps_overvolt {P : Part → Prop} {r s : State} {b1 : ℕ} (p_regs : P .regs) (p_evr : P .evr) (p_spin : P .spin) (h : Keeps P r s) : Keeps P r (State.overvolt s b1) := by
  unfold State.overvolt
  extract_lets +onlyGivenNames x1
  have h2 : Keeps P r x1 := (keeps_spinUpd p_spin (keeps_raise p_evr (keeps_wr p_regs h)))
  clear_value x1
  exact (Keeps.ite (keeps_spinUpd p_spin (keeps_setSpn p_regs h2)) (Keeps.ite (keeps_setSpn p_regs h2) h2))

/-- `State.toRest` keeps. -/
theorem keeps_toRest {P : Part → Prop} {r s : State} {b1 : AfterRest} (p_regs : P .regs) (p_acc : P .acc) (p_spin : P .spin) (h : Keeps P r s) : Keeps P r (State.toRest s
    b1) := by
  unfold State.toRest
  extract_lets +onlyGivenNames x1
  have h2 : Keeps P r x1 := (keeps_spinUpd p_spin h)
  clear_value x1
  exact (Keeps.ite (keeps_brakeNow p_regs p_acc p_spin h2) (keeps_spinUpd p_spin (keeps_setSpn p_regs h2)))

/-- `State.syncLoss` keeps. -/
theorem keeps_syncLoss {P : Part → Prop} {r s : State} {b1 : ℕ} (p_free : P .free) (p_regs : P .regs) (p_acc : P .acc) (p_mem : P .mem) (p_reach : P .reach) (p_chan : P
    .chan) (p_deep : P .deep) (p_servo : P .servo) (p_zone : P .zone) (p_host : P .host) (p_stage : P .stage) (p_memc : P .memc) (p_evr : P .evr)
    (p_spin : P .spin) (p_cfx : P .cfx) (p_trust : P .trust) (h : Keeps P r s) : Keeps P r (State.syncLoss s b1) := by
  unfold State.syncLoss
  extract_lets +onlyGivenNames x1
  clear_value x1
  extract_lets +onlyGivenNames x2
  clear_value x2
  extract_lets +onlyGivenNames x3
  have h4 : Keeps P r x3 := (keeps_spinUpd p_spin (keeps_wr p_regs (keeps_wr p_regs (keeps_count p_regs p_acc (keeps_wr p_regs h)))))
  clear_value x3
  exact (Keeps.ite (keeps_toRest p_regs p_acc p_spin (keeps_retractAll p_free p_regs p_acc p_mem p_reach p_chan p_deep p_servo p_zone p_host p_stage
      p_memc p_evr p_trust (keeps_spnRelease p_regs p_cfx (keeps_raise p_evr (keeps_wr p_regs h4))))) (Keeps.ite (keeps_setSpn p_regs h4)
      (keeps_listen p_regs p_spin h4)))

/-- `State.takeTarget` keeps. -/
theorem keeps_takeTarget {P : Part → Prop} {r s : State} {b1 : ℕ} (p_regs : P .regs) (p_acc : P .acc) (p_spin : P .spin) (p_cfx : P .cfx) (h : Keeps P r s) : Keeps P r
    (State.takeTarget s b1) := by
  unfold State.takeTarget
  extract_lets +onlyGivenNames x1
  have h2 : Keeps P r x1 := (keeps_spinUpd p_spin (keeps_wr p_regs (keeps_wr p_regs (keeps_wr p_regs h))))
  clear_value x1
  exact (Keeps.ite (keeps_toRest p_regs p_acc p_spin (keeps_spnRelease p_regs p_cfx h2)) (Keeps.ite (keeps_listen p_regs p_spin h2) h2))

/-- `State.wantToken` keeps. -/
theorem keeps_wantToken {P : Part → Prop} {r s : State} {b1 : Bool} (p_regs : P .regs) (p_spin : P .spin) (p_cfx : P .cfx) (h : Keeps P r s) : Keeps P r (State.wantToken s
    b1) := by
  unfold State.wantToken
  exact (keeps_tokenAsk p_regs p_cfx (keeps_spinUpd p_spin (keeps_setSpn p_regs h)))

/-- `State.warmed` keeps. -/
theorem keeps_warmed {P : Part → Prop} {r s : State} (p_regs : P .regs) (p_evr : P .evr) (p_spin : P .spin) (p_cfx : P .cfx) (h : Keeps P r s) : Keeps P r (State.warmed s) := by
  unfold State.warmed
  exact (Keeps.ite (keeps_wantToken p_regs p_spin p_cfx h) (keeps_raise p_evr (keeps_spnRelease p_regs p_cfx (keeps_wr p_regs (keeps_setSpn p_regs
      h)))))

/-- `State.withToken` keeps. -/
theorem keeps_withToken {P : Part → Prop} {r s : State} (p_regs : P .regs) (p_acc : P .acc) (p_spin : P .spin) (h : Keeps P r s) : Keeps P r (State.withToken s) := by
  unfold State.withToken
  exact (Keeps.ite (keeps_align p_regs p_acc p_spin h) h)

/-- `execAlignEnd` keeps. -/
theorem keeps_execAlignEnd {P : Part → Prop} {r s : State} (p_regs : P .regs) (h : Keeps P r s) : KeepsO P r (execAlignEnd s) := by
  unfold execAlignEnd
  split
  · exact KeepsO.of_next (keeps_setSpn p_regs h)
  · exact KeepsO.of_next h

/-- `execAtspdLoss` keeps. -/
theorem keeps_execAtspdLoss {P : Part → Prop} {r s : State} (p_regs : P .regs) (h : Keeps P r s) : KeepsO P r (execAtspdLoss s) := by
  unfold execAtspdLoss
  split
  · exact KeepsO.of_next (keeps_wr p_regs h)
  · exact KeepsO.of_next h

/-- `execAtspdRise` keeps. -/
theorem keeps_execAtspdRise {P : Part → Prop} {r s : State} (p_regs : P .regs) (p_cfx : P .cfx) (h : Keeps P r s) : KeepsO P r (execAtspdRise s) := by
  unfold execAtspdRise
  split
  · exact KeepsO.of_next (keeps_spnRelease p_regs p_cfx (keeps_wr p_regs (keeps_wr p_regs h)))
  · exact KeepsO.of_next h

/-- `execBrakeRest` keeps. -/
theorem keeps_execBrakeRest {P : Part → Prop} {r s : State} (p_regs : P .regs) (p_spin : P .spin) (h : Keeps P r s) : KeepsO P r (execBrakeRest s) := by
  unfold execBrakeRest
  split
  · exact KeepsO.of_next (keeps_atRest p_regs p_spin (keeps_wr p_regs h))
  · exact KeepsO.of_next h

/-- `execBrakeTimeout` keeps. -/
theorem keeps_execBrakeTimeout {P : Part → Prop} {r s : State} (p_regs : P .regs) (p_evr : P .evr) (h : Keeps P r s) : KeepsO P r (execBrakeTimeout s) := by
  unfold execBrakeTimeout
  split
  · exact KeepsO.of_next (keeps_setSpn p_regs (keeps_raise p_evr (keeps_wr p_regs h)))
  · exact KeepsO.of_next h

/-- `execCatchMotor` keeps. -/
theorem keeps_execCatchMotor {P : Part → Prop} {r s : State} (p_regs : P .regs) (p_acc : P .acc) (p_spin : P .spin) (h : Keeps P r s) : KeepsO P r (execCatchMotor s) := by
  unfold execCatchMotor
  split
  · exact KeepsO.of_next (keeps_spinUpd p_spin (keeps_count p_regs p_acc (keeps_setSpn p_regs h)))
  · exact KeepsO.of_next h

/-- `execHeldTargetRelease` keeps. -/
theorem keeps_execHeldTargetRelease {P : Part → Prop} {r s : State} (p_regs : P .regs) (p_acc : P .acc) (p_spin : P .spin) (p_cfx : P .cfx) (h : Keeps P r s) : KeepsO P r
    (execHeldTargetRelease s) := by
  unfold execHeldTargetRelease
  split
  · exact KeepsO.of_next h
  · extract_lets +onlyGivenNames x1
    have h2 : Keeps P r x1 := (Keeps.ite (keeps_brakeNow p_regs p_acc p_spin h) h)
    clear_value x1
    refine KeepsO.of_next ?_
    split
    · exact (keeps_takeTarget p_regs p_acc p_spin p_cfx h2)
    · exact h2

/-- `execListenEnd` keeps. -/
theorem keeps_execListenEnd {P : Part → Prop} {r s : State} {b0 : Motor} (p_regs : P .regs) (p_acc : P .acc) (p_evr : P .evr) (p_spin : P .spin) (p_cfx : P .cfx) (h : Keeps P r
    s) : KeepsO P r (execListenEnd b0 s) := by
  unfold execListenEnd
  split
  · exact KeepsO.of_next h
  · split
    · extract_lets +onlyGivenNames x1
      have h2 : Keeps P r x1 := (keeps_wr p_regs (keeps_wr p_regs h))
      clear_value x1
      split
      · split
        · exact KeepsO.of_next (keeps_count p_regs p_acc (keeps_setSpn p_regs h2))
        · exact KeepsO.of_next (keeps_withToken p_regs p_acc p_spin (keeps_warmed p_regs p_evr p_spin p_cfx h2))
      · exact KeepsO.of_next (keeps_withToken p_regs p_acc p_spin (keeps_wantToken p_regs p_spin p_cfx h2))
    · extract_lets +onlyGivenNames x3
      have h4 : Keeps P r x3 := (keeps_wr p_regs (keeps_wr p_regs h))
      clear_value x3
      split
      · exact KeepsO.of_next (keeps_wantToken p_regs p_spin p_cfx h4)
      · exact KeepsO.of_next (keeps_toRest p_regs p_acc p_spin h4)
    · exact KeepsO.of_next (keeps_toRest p_regs p_acc p_spin h)

/-- `execLossOfSync` keeps. -/
theorem keeps_execLossOfSync {P : Part → Prop} {r s : State} {b0 : Fin 3} (p_free : P .free) (p_regs : P .regs) (p_acc : P .acc) (p_mem : P .mem) (p_reach : P .reach) (p_chan : P
    .chan) (p_deep : P .deep) (p_servo : P .servo) (p_zone : P .zone) (p_host : P .host) (p_stage : P .stage) (p_memc : P .memc) (p_evr : P .evr)
    (p_spin : P .spin) (p_cfx : P .cfx) (p_trust : P .trust) (h : Keeps P r s) : KeepsO P r (execLossOfSync b0 s) := by
  unfold execLossOfSync
  split
  · exact KeepsO.of_next (keeps_syncLoss p_free p_regs p_acc p_mem p_reach p_chan p_deep p_servo p_zone p_host p_stage p_memc p_evr p_spin p_cfx
      p_trust h)
  · exact KeepsO.of_next h

/-- `execObserverHandover` keeps. -/
theorem keeps_execObserverHandover {P : Part → Prop} {r s : State} {b0 : Bool} (p_free : P .free) (p_regs : P .regs) (p_acc : P .acc) (p_mem : P .mem) (p_reach : P .reach) (p_chan : P
    .chan) (p_deep : P .deep) (p_servo : P .servo) (p_zone : P .zone) (p_host : P .host) (p_stage : P .stage) (p_memc : P .memc) (p_evr : P .evr)
    (p_spin : P .spin) (p_cfx : P .cfx) (p_trust : P .trust) (h : Keeps P r s) : KeepsO P r (execObserverHandover b0 s) := by
  unfold execObserverHandover
  split
  · exact KeepsO.of_next h
  · split
    · exact KeepsO.of_next (keeps_setSpn p_regs h)
    · exact KeepsO.of_next (keeps_syncLoss p_free p_regs p_acc p_mem p_reach p_chan p_deep p_servo p_zone p_host p_stage p_memc p_evr p_spin p_cfx
        p_trust h)

/-- `execOvpRelease` keeps. -/
theorem keeps_execOvpRelease {P : Part → Prop} {r s : State} (p_regs : P .regs) (p_spin : P .spin) (h : Keeps P r s) : KeepsO P r (execOvpRelease s) := by
  unfold execOvpRelease
  split
  · extract_lets +onlyGivenNames x1
    have h2 : Keeps P r x1 := (keeps_spinUpd p_spin h)
    clear_value x1
    exact KeepsO.of_next (Keeps.ite (keeps_listen p_regs p_spin h2) h2)
  · exact KeepsO.of_next h

/-- `execPwmPeriod` keeps. -/
theorem keeps_execPwmPeriod {P : Part → Prop} {r s : State} {b0 : Option (BitVec 16)} {b1 : Option (BitVec 16)} {b2 : Option (BitVec 16)} {b3 : BitVec 16} {b4 : BitVec 17}
    (p_regs : P .regs) (p_evr : P .evr) (p_spin : P .spin) (h : Keeps P r s) : KeepsO P r (execPwmPeriod b0 b1 b2 b3 b4 s) := by
  unfold execPwmPeriod
  split
  · exact KeepsO.of_next h
  · extract_lets +onlyGivenNames x1
    clear_value x1
    extract_lets +onlyGivenNames x2
    extract_lets +onlyGivenNames x3
    have h4 : Keeps P r x3 := (Keeps.ite (keeps_wr p_regs h) h)
    clear_value x3
    extract_lets +onlyGivenNames x5
    clear_value x5
    extract_lets +onlyGivenNames x6
    have h7 : Keeps P r x6 := (keeps_spinUpd p_spin h4)
    clear_value x6
    exact KeepsO.of_next (Keeps.ite (keeps_raise p_evr h7) h7)

/-- `execSpinDmdPeriod` keeps. -/
theorem keeps_execSpinDmdPeriod {P : Part → Prop} {r s : State} {b0 : BitVec 32} {b1 : BitVec 32} (p_regs : P .regs) (p_spin : P .spin) (h : Keeps P r s) : KeepsO P r
    (execSpinDmdPeriod b0 b1 s) := by
  unfold execSpinDmdPeriod
  extract_lets +onlyGivenNames x1
  clear_value x1
  split
  · extract_lets +onlyGivenNames x2
    clear_value x2
    extract_lets +onlyGivenNames x3
    have h4 : Keeps P r x3 := (keeps_spinUpd p_spin h)
    clear_value x3
    split
    · exact KeepsO.of_next h4
    · extract_lets +onlyGivenNames x5
      clear_value x5
      extract_lets +onlyGivenNames x6
      have h7 : Keeps P r x6 := (keeps_wr p_regs h4)
      clear_value x6
      extract_lets +onlyGivenNames x8
      clear_value x8
      exact KeepsO.of_next (Keeps.ite (keeps_setDemand p_regs h7) h7)
  · extract_lets +onlyGivenNames x9
    clear_value x9
    extract_lets +onlyGivenNames x10
    have h11 : Keeps P r x10 := (keeps_spinUpd p_spin h)
    clear_value x10
    exact KeepsO.of_next (Keeps.ite (keeps_wr p_regs h11) h11)

/-- `execSpinDmdTimeout` keeps. -/
theorem keeps_execSpinDmdTimeout {P : Part → Prop} {r s : State} {b0 : Bool} (p_regs : P .regs) (h : Keeps P r s) : KeepsO P r (execSpinDmdTimeout b0 s) := by
  unfold execSpinDmdTimeout
  extract_lets +onlyGivenNames x1
  clear_value x1
  extract_lets +onlyGivenNames x2
  have h3 : Keeps P r x2 := (keeps_wr p_regs h)
  clear_value x2
  exact KeepsO.of_next (Keeps.ite h3 (keeps_setDemand p_regs h3))

/-- `execSpinStart` keeps. -/
theorem keeps_execSpinStart {P : Part → Prop} {r s : State} (p_regs : P .regs) (p_spin : P .spin) (h : Keeps P r s) : KeepsO P r (execSpinStart s) := by
  unfold execSpinStart
  split
  · exact KeepsO.of_next (keeps_tryStart p_regs p_spin h)
  · exact KeepsO.of_next h

/-- `execSpindleResetTakeover` keeps. -/
theorem keeps_execSpindleResetTakeover {P : Part → Prop} {r s : State} {b0 : Bool} (p_regs : P .regs) (p_spin : P .spin) (h : Keeps P r s) : KeepsO P r (execSpindleResetTakeover b0 s) := by
  unfold execSpindleResetTakeover
  split
  · exact KeepsO.of_next h
  · split
    · exact KeepsO.of_next (keeps_spinUpd p_spin h)
    · exact KeepsO.of_next (keeps_listen p_regs p_spin h)

/-- `execSpinupTimeout` keeps. -/
theorem keeps_execSpinupTimeout {P : Part → Prop} {r s : State} (p_regs : P .regs) (p_acc : P .acc) (p_evr : P .evr) (p_spin : P .spin) (p_cfx : P .cfx) (h : Keeps P r s) : KeepsO P
    r (execSpinupTimeout s) := by
  unfold execSpinupTimeout
  split
  · exact KeepsO.of_next (keeps_toRest p_regs p_acc p_spin (keeps_spnRelease p_regs p_cfx (keeps_raise p_evr (keeps_wr p_regs h))))
  · exact KeepsO.of_next h

/-- `execTargetChange` keeps. -/
theorem keeps_execTargetChange {P : Part → Prop} {r s : State} (p_regs : P .regs) (p_acc : P .acc) (p_spin : P .spin) (p_cfx : P .cfx) (h : Keeps P r s) : KeepsO P r
    (execTargetChange s) := by
  unfold execTargetChange
  extract_lets +onlyGivenNames x1
  clear_value x1
  split
  · exact KeepsO.of_next (keeps_spinUpd p_spin (keeps_wr p_regs h))
  · split
    · exact KeepsO.of_next (keeps_spnRelease p_regs p_cfx (keeps_setSpn p_regs (keeps_takeTarget p_regs p_acc p_spin p_cfx h)))
    · split
      · exact KeepsO.of_next (keeps_takeTarget p_regs p_acc p_spin p_cfx h)
      · split
        · exact KeepsO.of_next h
        · exact KeepsO.of_next (keeps_spinUpd p_spin (keeps_wr p_regs (keeps_wr p_regs h)))

/-- `execTokenGrant` keeps. -/
theorem keeps_execTokenGrant {P : Part → Prop} {r s : State} (p_regs : P .regs) (p_acc : P .acc) (p_spin : P .spin) (h : Keeps P r s) : KeepsO P r (execTokenGrant s) := by
  unfold execTokenGrant
  split
  · exact KeepsO.of_next (keeps_withToken p_regs p_acc p_spin (keeps_wr p_regs h))
  · exact KeepsO.of_next h

/-- `execVmotThreshold` keeps. -/
theorem keeps_execVmotThreshold {P : Part → Prop} {r s : State} {b0 : BitVec 16} (p_regs : P .regs) (p_evr : P .evr) (p_spin : P .spin) (h : Keeps P r s) : KeepsO P r
    (execVmotThreshold b0 s) := by
  unfold execVmotThreshold
  extract_lets +onlyGivenNames x1
  clear_value x1
  extract_lets +onlyGivenNames x2
  have h3 : Keeps P r x2 := (keeps_spinUpd p_spin h)
  clear_value x2
  extract_lets +onlyGivenNames x4
  have h5 : Keeps P r x4 := (Keeps.ite (keeps_chopFault p_regs p_evr p_spin h3) h3)
  clear_value x4
  exact KeepsO.of_next (Keeps.ite (keeps_overvolt p_regs p_evr p_spin h5) h5)

/-- `execWarmupEnd` keeps. -/
theorem keeps_execWarmupEnd {P : Part → Prop} {r s : State} (p_regs : P .regs) (p_acc : P .acc) (p_evr : P .evr) (p_spin : P .spin) (p_cfx : P .cfx) (h : Keeps P r s) : KeepsO P
    r (execWarmupEnd s) := by
  unfold execWarmupEnd
  split
  · exact KeepsO.of_next (keeps_withToken p_regs p_acc p_spin (keeps_warmed p_regs p_evr p_spin p_cfx h))
  · exact KeepsO.of_next h

end Sys2Proof.Machine
end

