-- ==== Sys2Proof/Laws/KeepsHsk.lean ====
section
/-! SUPPORT. What the operations of Machine/Hsk.lean keep. -/

namespace Sys2Proof.Machine

set_option Elab.async false

/-- `execSensclr` keeps. -/
theorem keeps_execSensclr {P : Part → Prop} {r s : State} {b0 : BitVec 10} (p_regs : P .regs) (h : Keeps P r s) : KeepsO P r (execSensclr b0 s) := by
  unfold execSensclr
  refine KeepsO.of_next ?_
  refine Keeps.foldl ?_ fun y1 y2 h3 => ?_
  · exact h
  · exact (keeps_wrs p_regs h3)

/-- `State.checkRange` keeps. -/
theorem keeps_checkRange {P : Part → Prop} {r s : State} {b1 : ℕ} {b2 : ℕ} (p_regs : P .regs) (p_evr : P .evr) (h : Keeps P r s) : Keeps P r (State.checkRange s b1 b2) := by
  unfold State.checkRange
  split
  · extract_lets +onlyGivenNames x1
    have h2 : Keeps P r x1 := (keeps_wr p_regs (keeps_setB p_regs h))
    clear_value x1
    exact (Keeps.ite h2 (keeps_raise p_evr h2))
  · exact (keeps_clrB p_regs h)

/-- `State.checkRanges` keeps. -/
theorem keeps_checkRanges {P : Part → Prop} {r s : State} {b1 : ℕ → ℕ} {b2 : List ℕ} (p_regs : P .regs) (p_evr : P .evr) (h : Keeps P r s) : Keeps P r (State.checkRanges s b1
    b2) := by
  induction b2 generalizing s b1
  · simp only [State.checkRanges]
    exact h
  · rename_i a1 a2 ih
    simp only [State.checkRanges]
    exact (ih (keeps_checkRange p_regs p_evr h))

/-- `State.coils` keeps. -/
theorem keeps_coils {P : Part → Prop} {r s : State} (p_regs : P .regs) (h : Keeps P r s) : Keeps P r (State.coils s) := by
  unfold State.coils
  refine Keeps.foldl ?_ fun y1 y2 h3 => ?_
  · exact h
  · exact (keeps_wr p_regs h3)

/-- `State.coldExit` keeps. -/
theorem keeps_coldExit {P : Part → Prop} {r s : State} (p_regs : P .regs) (p_spin : P .spin) (h : Keeps P r s) : Keeps P r (State.coldExit s) := by
  unfold State.coldExit
  exact (Keeps.ite (keeps_leaveHold p_regs p_spin h) h)

/-- `State.judge` keeps. -/
theorem keeps_judge {P : Part → Prop} {r s : State} {b1 : ℕ} (p_regs : P .regs) (p_evr : P .evr) (h : Keeps P r s) : Keeps P r (State.judge s b1) := by
  unfold State.judge
  split
  · extract_lets +onlyGivenNames x1
    clear_value x1
    extract_lets +onlyGivenNames x2
    clear_value x2
    extract_lets +onlyGivenNames x3
    have h4 : Keeps P r x3 := (keeps_wr p_regs h)
    clear_value x3
    exact (Keeps.ite (keeps_raise p_evr (keeps_wr p_regs h4)) h4)

/-- `State.conditions` keeps. -/
theorem keeps_conditions {P : Part → Prop} {r s : State} (p_free : P .free) (p_regs : P .regs) (p_acc : P .acc) (p_mem : P .mem) (p_reach : P .reach) (p_chan : P .chan)
    (p_deep : P .deep) (p_servo : P .servo) (p_zone : P .zone) (p_host : P .host) (p_stage : P .stage) (p_memc : P .memc) (p_evr : P .evr) (p_trust :
    P .trust) (h : Keeps P r s) : Keeps P r (State.conditions s) := by
  unfold State.conditions
  extract_lets +onlyGivenNames x1
  refine Keeps.step (P := P) (r := r) (x := x1) ?_ ?_
  · unfold x1
    refine Keeps.foldl ?_ fun y3 y4 h5 => ?_
    · exact h
    · exact (keeps_judge p_regs p_evr h5)
  intro h2
  clear_value x1
  extract_lets +onlyGivenNames x6
  clear_value x6
  extract_lets +onlyGivenNames x7
  have h8 : Keeps P r x7 := (keeps_wr p_regs h2)
  clear_value x7
  extract_lets +onlyGivenNames x9
  refine Keeps.step (P := P) (r := r) (x := x9) ?_ ?_
  · unfold x9
    split
    · refine Keeps.foldl ?_ fun y11 y12 h13 => ?_
      · exact h8
      · exact (Keeps.ite (keeps_writeStop p_free p_regs p_acc p_mem p_reach p_chan p_deep p_servo p_zone p_host p_stage p_memc p_evr p_trust h13) h13)
    · exact h8
  intro h10
  clear_value x9
  exact (Keeps.ite (keeps_retractAll p_free p_regs p_acc p_mem p_reach p_chan p_deep p_servo p_zone p_host p_stage p_memc p_evr p_trust h10) h10)

/-- `State.publishTemp` keeps. -/
theorem keeps_publishTemp {P : Part → Prop} {r s : State} {b1 : ℕ → ℤ} {b2 : ℕ} {b3 : Reading} (p_regs : P .regs) (p_evr : P .evr) (h : Keeps P r s) : Keeps P r
    (State.publishTemp s b1 b2 b3) := by
  unfold State.publishTemp
  extract_lets +onlyGivenNames x1
  clear_value x1
  extract_lets +onlyGivenNames x2
  have h3 : Keeps P r x2 := (keeps_wrs p_regs h)
  clear_value x2
  exact (Keeps.ite (keeps_raise p_evr (keeps_wr p_regs h3)) h3)

/-- `State.publishTemps` keeps. -/
theorem keeps_publishTemps {P : Part → Prop} {r s : State} {b1 : ℕ → ℤ} {b2 : List (ℕ × Reading)} (p_regs : P .regs) (p_evr : P .evr) (h : Keeps P r s) : Keeps P r
    (State.publishTemps s b1 b2) := by
  induction b2 generalizing s b1
  · simp only [State.publishTemps]
    exact h
  · rename_i a1 a2 ih
    simp only [State.publishTemps]
    exact (ih (keeps_publishTemp p_regs p_evr h))

/-- `State.smartTemp` keeps. -/
theorem keeps_smartTemp {P : Part → Prop} {r s : State} (p_mem : P .mem) (p_host : P .host) (p_hsk : P .hsk) (h : Keeps P r s) : Keeps P r (State.smartTemp s) := by
  unfold State.smartTemp
  extract_lets +onlyGivenNames x1
  clear_value x1
  extract_lets +onlyGivenNames x2
  clear_value x2
  extract_lets +onlyGivenNames x3
  clear_value x3
  extract_lets +onlyGivenNames x4
  have h5 : Keeps P r x4 := (keeps_hskPut p_hsk h)
  clear_value x4
  exact (Keeps.ite (keeps_noticeAll p_mem p_host h5) h5)

/-- `execHskRound` keeps. -/
theorem keeps_execHskRound {P : Part → Prop} {r s : State} (p_hsk : P .hsk) (h : Keeps P r s) : KeepsO P r (execHskRound s) := by
  unfold execHskRound
  split
  · exact KeepsO.of_next h
  · exact KeepsO.of_next (keeps_hskPut p_hsk h)

/-- `execHskRoundPublish` keeps. -/
theorem keeps_execHskRoundPublish {P : Part → Prop} {r s : State} {b0 : List (BitVec 16)} {b1 : Bool} (p_free : P .free) (p_regs : P .regs) (p_acc : P .acc) (p_mem : P .mem) (p_reach
    : P .reach) (p_chan : P .chan) (p_deep : P .deep) (p_servo : P .servo) (p_zone : P .zone) (p_host : P .host) (p_stage : P .stage) (p_memc : P
    .memc) (p_evr : P .evr) (p_spin : P .spin) (p_hsk : P .hsk) (p_trust : P .trust) (h : Keeps P r s) : KeepsO P r (execHskRoundPublish b0 b1 s) := by
  unfold execHskRoundPublish
  split
  · exact KeepsO.of_next h
  · extract_lets +onlyGivenNames x1
    clear_value x1
    extract_lets +onlyGivenNames x2
    clear_value x2
    extract_lets +onlyGivenNames x3
    clear_value x3
    extract_lets +onlyGivenNames x4
    have h5 : Keeps P r x4 := (Keeps.ite (keeps_tookFree p_free h) h)
    clear_value x4
    extract_lets +onlyGivenNames x6
    have h7 : Keeps P r x6 := (keeps_publishTemps p_regs p_evr (keeps_bump p_regs (keeps_hskPut p_hsk h5)))
    clear_value x6
    extract_lets +onlyGivenNames x8
    refine Keeps.step (P := P) (r := r) (x := x8) ?_ ?_
    · unfold x8
      refine Keeps.foldl ?_ fun y10 y11 h12 => ?_
      · exact h7
      · exact (keeps_wr p_regs h12)
    intro h9
    clear_value x8
    extract_lets +onlyGivenNames x13
    have h14 : Keeps P r x13 := (keeps_checkRanges p_regs p_evr (keeps_wr p_regs h9))
    clear_value x13
    extract_lets +onlyGivenNames x15
    have h16 : Keeps P r x15 := (keeps_hskPut p_hsk h14)
    clear_value x15
    exact KeepsO.of_next (keeps_coils p_regs (keeps_smartTemp p_mem p_host p_hsk (keeps_coldExit p_regs p_spin (keeps_conditions p_free p_regs p_acc
        p_mem p_reach p_chan p_deep p_servo p_zone p_host p_stage p_memc p_evr p_trust h16))))

/-- `execRefclkLoss` keeps. -/
theorem keeps_execRefclkLoss {P : Part → Prop} {r s : State} (p_regs : P .regs) (p_evr : P .evr) (p_hsk : P .hsk) (h : Keeps P r s) : KeepsO P r (execRefclkLoss s) := by
  unfold execRefclkLoss
  exact KeepsO.of_next (keeps_raise p_evr (keeps_wr p_regs (keeps_hskPut p_hsk h)))

/-- `execRefclkReturn` keeps. -/
theorem keeps_execRefclkReturn {P : Part → Prop} {r s : State} (p_hsk : P .hsk) (h : Keeps P r s) : KeepsO P r (execRefclkReturn s) := by
  unfold execRefclkReturn
  exact KeepsO.of_next (keeps_hskPut p_hsk h)

end Sys2Proof.Machine
end

