-- ==== Sys2Proof/Laws/KeepsLogPages.lean ====
section
/-! SUPPORT. What the operations of Machine/LogPages.lean keep. -/

namespace Sys2Proof.Machine

set_option Elab.async false

/-- `State.pageRead` keeps. -/
theorem keeps_pageRead {P : Part → Prop} {r s : State} {b1 : Ctx} {b2 : ℕ} (p_host : P .host) (h : Keeps P r s) : Keeps P r (State.pageRead s b1 b2) := by
  unfold State.pageRead
  split
  · exact h
  · split
    · exact (keeps_hput p_host h)
    · split
      · split
        · exact (keeps_hput p_host h)
        · exact h
      · exact h

/-- `State.ownPage` keeps. -/
theorem keeps_ownPage {P : Part → Prop} {r s : State} {b1 : ℕ} {b2 : Ctx} {b3 : ℕ} (p_free : P .free) (p_mem : P .mem) (p_host : P .host) (p_cfx : P .cfx) (h : Keeps P r
    s) : Keeps P r (State.ownPage s b1 b2 b3) := by
  unfold State.ownPage
  split
  · exact (keeps_endAll p_mem p_host h)
  · exact (Keeps.ite (keeps_endAll p_mem p_host h) (keeps_answerData p_mem p_host p_cfx (keeps_pageRead p_host (keeps_tookFree p_free h))))

/-- `execGetLogPage` keeps. -/
theorem keeps_execGetLogPage {P : Part → Prop} {r s : State} {b0 : Fin 65536} (p_free : P .free) (p_regs : P .regs) (p_acc : P .acc) (p_mem : P .mem) (p_host : P .host) (p_cfx :
    P .cfx) (h : Keeps P r s) : KeepsO P r (execGetLogPage b0 s) := by
  unfold execGetLogPage
  refine keeps_adm ?_ ?_
  · exact h
  · intro y1
    extract_lets +onlyGivenNames x2
    clear_value x2
    extract_lets +onlyGivenNames x3
    clear_value x3
    exact (Keeps.ite (keeps_endAll p_mem p_host h) (Keeps.ite (keeps_ownPage p_free p_mem p_host p_cfx h) (Keeps.ite (keeps_endAll p_mem p_host h)
        (Keeps.ite (keeps_ownPage p_free p_mem p_host p_cfx h) (Keeps.ite (keeps_endAll p_mem p_host h) (Keeps.ite h (keeps_forward p_regs p_acc
        p_mem p_host p_cfx (keeps_ctxUpd p_mem p_host h))))))))

/-- `execIdentify` keeps. -/
theorem keeps_execIdentify {P : Part → Prop} {r s : State} {b0 : Fin 65536} (p_free : P .free) (p_mem : P .mem) (p_host : P .host) (p_cfx : P .cfx) (h : Keeps P r s) : KeepsO P
    r (execIdentify b0 s) := by
  unfold execIdentify
  refine keeps_adm ?_ ?_
  · exact h
  · intro y1
    split
    · exact (keeps_answerData p_mem p_host p_cfx (keeps_tookFree p_free h))
    · exact (keeps_endAll p_mem p_host h)

end Sys2Proof.Machine
end

