-- ==== Sys2Proof/Laws/KeepsMicrocode.lean ====
section
/-! SUPPORT. What the operations of Machine/Microcode.lean keep. -/

namespace Sys2Proof.Machine

set_option Elab.async false

/-- `State.ask` keeps. -/
theorem keeps_ask {P : Part → Prop} {r s : State} {b1 : Fin 4} {b2 : ℕ} {b3 : BitVec 64} (p_reach : P .reach) (h : Keeps P r s) : Keeps P r (State.ask s b1 b2 b3) := by
  unfold State.ask
  exact (keeps_updEng p_reach h)

/-- `State.checkpoint` keeps. -/
theorem keeps_checkpoint {P : Part → Prop} {r s : State} {b1 : Fin 4} {b2 : Fin 4} {b3 : ℕ} (p_regs : P .regs) (p_acc : P .acc) (p_mem : P .mem) (p_reach : P .reach) (p_stage
    : P .stage) (p_memc : P .memc) (p_evr : P .evr) (h : Keeps P r s) : Keeps P r (State.checkpoint s b1 b2 b3) := by
  unfold State.checkpoint
  extract_lets +onlyGivenNames x1
  clear_value x1
  exact (Keeps.ite (keeps_recordCommit p_regs p_acc p_mem p_reach p_stage p_memc p_evr h) (Keeps.ite (keeps_recordAs p_regs p_acc p_mem p_reach
      p_stage p_memc p_evr h) (Keeps.ite (keeps_record p_regs p_acc p_mem p_reach p_stage p_memc p_evr h) h)))

/-- `State.updMicro` keeps. -/
theorem keeps_updMicro {P : Part → Prop} {r s : State} {b1 : Fin 4} {b2 : Fin 4} {b3 : Micro → Micro} (p_reach : P .reach) (h : Keeps P r s) : Keeps P r (State.updMicro s
    b1 b2 b3) := by
  unfold State.updMicro
  exact (keeps_updSlot p_reach h)

/-- `State.decoded` keeps. -/
theorem keeps_decoded {P : Part → Prop} {r s : State} {b1 : Fin 4} {b2 : Fin 4} (p_reach : P .reach) (h : Keeps P r s) : Keeps P r (State.decoded s b1 b2) := by
  unfold State.decoded
  exact (keeps_updMicro p_reach h)

/-- `State.entered` keeps. -/
theorem keeps_entered {P : Part → Prop} {r s : State} {b1 : Fin 4} {b2 : Fin 4} (p_reach : P .reach) (h : Keeps P r s) : Keeps P r (State.entered s b1 b2) := by
  unfold State.entered
  extract_lets +onlyGivenNames x1
  clear_value x1
  exact (Keeps.ite h (keeps_decoded p_reach h))

/-- `State.handshake` keeps. -/
theorem keeps_handshake {P : Part → Prop} {r s : State} {b1 : Fin 4} (p_regs : P .regs) (h : Keeps P r s) : Keeps P r (State.handshake s b1) := by
  unfold State.handshake
  exact (keeps_bump p_regs h)

/-- `State.holds` keeps. -/
theorem keeps_holds {P : Part → Prop} {r s : State} {b1 : Fin 4} {b2 : Fin 4} {b3 : ℕ} (p_reach : P .reach) (h : Keeps P r s) : Keeps P r (State.holds s b1 b2 b3) := by
  unfold State.holds
  exact (keeps_updMicro p_reach h)

/-- `State.mSet` keeps. -/
theorem keeps_mSet {P : Part → Prop} {r s : State} {b1 : Fin 4} {b2 : Fin 4} {b3 : ℕ} {b4 : BitVec 64} (p_reach : P .reach) (h : Keeps P r s) : Keeps P r (State.mSet s
    b1 b2 b3 b4) := by
  unfold State.mSet
  extract_lets +onlyGivenNames x1
  clear_value x1
  split
  · exact (keeps_updArch p_reach h)
  · exact (Keeps.ite (keeps_updArch p_reach h) (Keeps.ite (keeps_updArch p_reach h) (Keeps.ite (keeps_updArch p_reach h) (Keeps.ite (keeps_updArch
      p_reach h) (Keeps.ite (keeps_updMicro p_reach (keeps_updArch p_reach h)) (Keeps.ite (keeps_updMicro p_reach h) (Keeps.ite (keeps_updMicro
      p_reach h) h)))))))

/-- `State.microData` keeps. -/
theorem keeps_microData {P : Part → Prop} {r s : State} {b1 : Fin 4} {b2 : Fin 4} {b3 : ℕ} (p_regs : P .regs) (p_acc : P .acc) (p_mem : P .mem) (p_reach : P .reach) (p_chan
    : P .chan) (p_deep : P .deep) (p_servo : P .servo) (p_zone : P .zone) (p_stage : P .stage) (p_memc : P .memc) (p_evr : P .evr) (h : Keeps P r s)
    : Keeps P r (State.microData s b1 b2 b3) := by
  unfold State.microData
  extract_lets +onlyGivenNames x1
  clear_value x1
  extract_lets +onlyGivenNames x2
  clear_value x2
  extract_lets +onlyGivenNames x3
  clear_value x3
  extract_lets +onlyGivenNames x4
  clear_value x4
  extract_lets +onlyGivenNames x5
  clear_value x5
  extract_lets +onlyGivenNames x6
  clear_value x6
  split
  · exact (keeps_mSet p_reach h)
  · split
    · exact (keeps_mSet p_reach h)
    · split
      · extract_lets +onlyGivenNames x7
        clear_value x7
        exact (keeps_mSet p_reach (keeps_updMicro p_reach h))
      · split
        · exact (keeps_mSet p_reach h)
        · split
          · split
            · rename_i y8 y9 y10 y11 y12 y13 y14 y15
              have h16 : Keeps P r y14 := Keeps.fst y15 (keeps_load p_regs p_acc p_mem p_memc p_evr h)
              exact (keeps_engFault p_regs p_acc p_mem p_reach p_chan p_deep p_servo p_zone p_stage p_memc p_evr h16)
            · rename_i y17 y18 y19 y20 y21 y22 y23 y24 y25
              have h26 : Keeps P r y23 := Keeps.fst y25 (keeps_load p_regs p_acc p_mem p_memc p_evr h)
              exact (keeps_mSet p_reach h26)
          · exact (Keeps.ite (keeps_stored p_regs p_acc p_mem p_stage p_memc p_evr h) (Keeps.ite (keeps_updArch p_reach h) (Keeps.ite (keeps_updArch
              p_reach h) h)))

/-- `State.microEnd` keeps. -/
theorem keeps_microEnd {P : Part → Prop} {r s : State} {b1 : Fin 4} {b2 : Fin 4} {b3 : Bool} (p_free : P .free) (p_regs : P .regs) (p_acc : P .acc) (p_mem : P .mem)
    (p_reach : P .reach) (p_chan : P .chan) (p_deep : P .deep) (p_servo : P .servo) (p_zone : P .zone) (p_host : P .host) (p_stage : P .stage)
    (p_memc : P .memc) (p_evr : P .evr) (p_trust : P .trust) (h : Keeps P r s) : Keeps P r (State.microEnd s b1 b2 b3) := by
  unfold State.microEnd
  extract_lets +onlyGivenNames x1
  have h2 : Keeps P r x1 := (keeps_updMicro p_reach h)
  clear_value x1
  extract_lets +onlyGivenNames x3
  have h4 : Keeps P r x3 := (Keeps.ite (keeps_jump p_free p_regs p_acc p_mem p_reach p_chan p_deep p_servo p_zone p_host p_stage p_memc p_evr p_trust
      h2) (keeps_complete p_free p_regs p_acc p_mem p_reach p_chan p_deep p_servo p_zone p_host p_stage p_memc p_evr p_trust h2))
  clear_value x3
  split
  · exact h4
  · exact (Keeps.ite h4 (keeps_decoded p_reach h4))

/-- `State.microSlot` keeps. -/
theorem keeps_microSlot {P : Part → Prop} {r s : State} {b1 : Fin 4} {b2 : Fin 4} {b3 : ℕ} (p_regs : P .regs) (p_acc : P .acc) (p_mem : P .mem) (p_reach : P .reach) (p_stage
    : P .stage) (p_memc : P .memc) (p_evr : P .evr) (h : Keeps P r s) : Keeps P r (State.microSlot s b1 b2 b3) := by
  unfold State.microSlot
  extract_lets +onlyGivenNames x1
  clear_value x1
  extract_lets +onlyGivenNames x2
  clear_value x2
  extract_lets +onlyGivenNames x3
  clear_value x3
  extract_lets +onlyGivenNames x4
  clear_value x4
  split
  · exact (keeps_checkpoint p_regs p_acc p_mem p_reach p_stage p_memc p_evr h)
  · split
    · exact (Keeps.ite h (keeps_signal p_regs h))
    · split
      · extract_lets +onlyGivenNames x5
        have h6 : Keeps P r x5 := (Keeps.ite (keeps_updArch p_reach h) h)
        clear_value x5
        exact (Keeps.ite (keeps_wr p_regs h6) h6)
      · split
        · split
          · split
            · exact (keeps_mSet p_reach h)
            · exact (keeps_mSet p_reach (keeps_updArch p_reach h))
          · exact (Keeps.ite h (keeps_updArch p_reach h))
        · exact (Keeps.ite (Keeps.ite (keeps_updArch p_reach h) (Keeps.ite h (keeps_updArch p_reach h))) h)

/-- `State.microUnit` keeps. -/
theorem keeps_microUnit {P : Part → Prop} {r s : State} {b1 : Fin 4} {b2 : Fin 4} {b3 : ℕ} (p_free : P .free) (p_regs : P .regs) (p_acc : P .acc) (p_mem : P .mem) (p_reach :
    P .reach) (p_chan : P .chan) (p_servo : P .servo) (p_zone : P .zone) (p_host : P .host) (p_stage : P .stage) (p_memc : P .memc) (p_evr : P .evr)
    (h : Keeps P r s) : Keeps P r (State.microUnit s b1 b2 b3) := by
  unfold State.microUnit
  extract_lets +onlyGivenNames x1
  clear_value x1
  extract_lets +onlyGivenNames x2
  clear_value x2
  extract_lets +onlyGivenNames x3
  clear_value x3
  extract_lets +onlyGivenNames x4
  clear_value x4
  extract_lets +onlyGivenNames x5
  clear_value x5
  split
  · exact (keeps_mSet p_reach (keeps_updEng p_reach h))
  · split
    · exact (keeps_updEng p_reach h)
    · split
      · exact (keeps_ask p_reach h)
      · split
        · exact (Keeps.ite h (keeps_goTo p_free p_regs p_acc p_chan p_servo (keeps_nameSet p_servo h)))
        · split
          · split
            · rename_i y6 y7 y8 y9 y10 y11 y12 y13 y14 y15 y16
              have h17 : Keeps P r y12 := Keeps.fst y16 (keeps_acceptSector p_regs p_acc p_mem p_zone p_stage p_memc p_evr h)
              exact (keeps_updMicro p_reach h17)
            · rename_i y18 y19 y20 y21 y22 y23 y24 y25 y26 y27
              have h28 : Keeps P r y24 := Keeps.fst y27 (keeps_acceptSector p_regs p_acc p_mem p_zone p_stage p_memc p_evr h)
              exact (keeps_updMicro p_reach h28)
          · split
            · extract_lets +onlyGivenNames x29
              clear_value x29
              exact (keeps_recordAs p_regs p_acc p_mem p_reach p_stage p_memc p_evr (Keeps.ite (keeps_handOver p_mem p_host h) h))
            · exact (keeps_ask p_reach h)

/-- `State.stepTo` keeps. -/
theorem keeps_stepTo {P : Part → Prop} {r s : State} {b1 : Fin 4} {b2 : Fin 4} {b3 : ℕ} (p_reach : P .reach) (h : Keeps P r s) : Keeps P r (State.stepTo s b1 b2 b3) := by
  unfold State.stepTo
  exact (keeps_updMicro p_reach h)

/-- `State.microExec` keeps. -/
theorem keeps_microExec {P : Part → Prop} {r s : State} {b1 : Fin 4} {b2 : Fin 4} {b3 : ℕ} {b4 : ℕ} (p_free : P .free) (p_regs : P .regs) (p_acc : P .acc) (p_mem : P .mem)
    (p_reach : P .reach) (p_chan : P .chan) (p_deep : P .deep) (p_servo : P .servo) (p_zone : P .zone) (p_host : P .host) (p_stage : P .stage)
    (p_memc : P .memc) (p_evr : P .evr) (p_trust : P .trust) (h : Keeps P r s) : Keeps P r (State.microExec s b1 b2 b3 b4) := by
  unfold State.microExec
  extract_lets +onlyGivenNames x1
  clear_value x1
  split
  · exact (keeps_microEnd p_free p_regs p_acc p_mem p_reach p_chan p_deep p_servo p_zone p_host p_stage p_memc p_evr p_trust h)
  · split
    · exact (keeps_trapSlot p_free p_regs p_acc p_mem p_reach p_chan p_deep p_servo p_zone p_host p_stage p_memc p_evr p_trust (keeps_updMicro
        p_reach h))
    · split
      · extract_lets +onlyGivenNames x2
        have h3 : Keeps P r x2 := (keeps_stepTo p_reach h)
        clear_value x2
        exact (Keeps.ite (keeps_dispatch p_free p_regs p_acc p_mem p_reach p_chan p_deep p_servo p_zone p_host p_stage p_memc p_evr p_trust
            (keeps_giveUp p_reach h3)) h3)
      · extract_lets +onlyGivenNames x4
        have h5 : Keeps P r x4 := (Keeps.ite (keeps_handshake p_regs (keeps_microUnit p_free p_regs p_acc p_mem p_reach p_chan p_servo p_zone p_host
            p_stage p_memc p_evr h)) (Keeps.ite (keeps_microData p_regs p_acc p_mem p_reach p_chan p_deep p_servo p_zone p_stage p_memc p_evr h)
            (keeps_microSlot p_regs p_acc p_mem p_reach p_stage p_memc p_evr h)))
        clear_value x4
        exact (keeps_stepTo p_reach h5)

/-- `State.microWait` keeps. -/
theorem keeps_microWait {P : Part → Prop} {r s : State} {b1 : Fin 4} {b2 : Fin 4} {b3 : ℕ} {b4 : ℕ} (p_free : P .free) (p_regs : P .regs) (p_acc : P .acc) (p_mem : P .mem)
    (p_reach : P .reach) (p_chan : P .chan) (p_deep : P .deep) (p_servo : P .servo) (p_zone : P .zone) (p_host : P .host) (p_stage : P .stage)
    (p_memc : P .memc) (p_evr : P .evr) (p_trust : P .trust) (h : Keeps P r s) : Keeps P r (State.microWait s b1 b2 b3 b4) := by
  unfold State.microWait
  split
  · exact (keeps_handshake p_regs (keeps_stepTo p_reach h))
  · extract_lets +onlyGivenNames x1
    have h2 : Keeps P r x1 := (keeps_holds p_reach h)
    clear_value x1
    exact (Keeps.ite (keeps_dispatch p_free p_regs p_acc p_mem p_reach p_chan p_deep p_servo p_zone p_host p_stage p_memc p_evr p_trust
        (keeps_updSlot p_reach h2)) h2)

/-- `State.tookFrees` keeps. -/
theorem keeps_tookFrees {P : Part → Prop} {r s : State} {b1 : ℕ} (p_free : P .free) (h : Keeps P r s) : Keeps P r (State.tookFrees s b1) := by
  unfold State.tookFrees
  exact Keeps.mkAll h (Nat.le_add_right _ _) id id id id id

/-- `State.microStep` keeps. -/
theorem keeps_microStep {P : Part → Prop} {r s : State} {b1 : Fin 4} {b2 : ℕ} {b3 : ℕ} {b4 : Bool} (p_free : P .free) (p_regs : P .regs) (p_acc : P .acc) (p_mem : P .mem)
    (p_reach : P .reach) (p_chan : P .chan) (p_deep : P .deep) (p_servo : P .servo) (p_zone : P .zone) (p_host : P .host) (p_stage : P .stage)
    (p_memc : P .memc) (p_evr : P .evr) (p_trust : P .trust) (h : Keeps P r s) : Keeps P r (State.microStep s b1 b2 b3 b4) := by
  unfold State.microStep
  split
  · exact h
  · extract_lets +onlyGivenNames x1
    have h2 : Keeps P r x1 := (keeps_entered p_reach h)
    clear_value x1
    exact (keeps_tookFrees p_free (Keeps.ite (keeps_microWait p_free p_regs p_acc p_mem p_reach p_chan p_deep p_servo p_zone p_host p_stage p_memc
        p_evr p_trust h2) (Keeps.ite (keeps_holds p_reach h2) (keeps_microExec p_free p_regs p_acc p_mem p_reach p_chan p_deep p_servo p_zone p_host
        p_stage p_memc p_evr p_trust h2))))

/-- `State.wakeHolds` keeps. -/
theorem keeps_wakeHolds {P : Part → Prop} {r s : State} {b1 : Fin 4} {b2 : List (Fin 4)} (p_regs : P .regs) (p_reach : P .reach) (h : Keeps P r s) : Keeps P r
    (State.wakeHolds s b1 b2) := by
  induction b2 generalizing s b1
  · simp only [State.wakeHolds]
    exact h
  · rename_i a1 a2 ih
    simp only [State.wakeHolds]
    refine ih ?_
    split
    · split
      · exact (keeps_updSlot p_reach (keeps_handshake p_regs (keeps_stepTo p_reach h)))
      · exact h
    · exact h

end Sys2Proof.Machine
end

