-- ==== Sys2Proof/Laws/KeepsWatch.lean ====
section
/-! SUPPORT. What the operations of Machine/Watch.lean keep. -/

namespace Sys2Proof.Machine

set_option Elab.async false

/-- `State.resetFields` keeps. -/
theorem keeps_resetFields {P : Part → Prop} {r s : State} {b1 : ℕ} {b2 : ℕ} {b3 : ℕ} (p_regs : P .regs) (h : Keeps P r s) : Keeps P r (State.resetFields s b1 b2 b3) := by
  unfold State.resetFields
  exact Keeps.mkAll h le_rfl id id (twf_filter _) id id

/-- `State.resetEffects` keeps. -/
theorem keeps_resetEffects {P : Part → Prop} {r s : State} {b1 : UnitRef} (p_free : P .free) (p_regs : P .regs) (p_acc : P .acc) (p_mem : P .mem) (p_reach : P .reach) (p_chan :
    P .chan) (p_deep : P .deep) (p_servo : P .servo) (p_zone : P .zone) (p_host : P .host) (p_stage : P .stage) (p_memc : P .memc) (p_evr : P .evr)
    (p_bkw : P .bkw) (p_flash : P .flash) (p_cfl : P .cfl) (p_spin : P .spin) (p_cal : P .cal) (p_hsk : P .hsk) (p_trust : P .trust) (h : Keeps P r
    s) : Keeps P r (State.resetEffects s b1) := by
  unfold State.resetEffects
  split
  · exact (Keeps.ite (keeps_takeover p_free p_regs p_acc p_mem p_reach p_chan p_deep p_servo p_zone p_host p_stage p_memc p_evr p_trust h)
      (keeps_retract p_free p_regs p_acc p_mem p_reach p_chan p_deep p_servo p_zone p_host p_stage p_memc p_evr p_trust h))
  · exact (keeps_engReset p_regs p_acc p_mem p_reach p_chan p_deep p_servo p_zone p_stage p_memc p_evr h)
  · exact (keeps_updCh p_chan (keeps_wrs p_regs (keeps_resetFields p_regs h)))
  · exact (keeps_wrs p_regs h)
  · exact (keeps_updCh p_chan h)
  · exact (keeps_wr p_regs h)
  · exact (keeps_cflCut p_free p_regs p_acc p_evr p_flash p_cfl (keeps_cflCut p_free p_regs p_acc p_evr p_flash p_cfl h))
  · exact (keeps_bkwReset p_regs p_acc p_evr p_bkw h)
  · exact (keeps_calReset p_regs p_cal h)
  · exact (keeps_hskPut p_hsk (keeps_wr p_regs h))
  · exact (keeps_spnReset p_regs p_spin h)
  · exact h

/-- `State.beginReset` keeps. -/
theorem keeps_beginReset {P : Part → Prop} {r s : State} {b1 : UnitRef} (p_free : P .free) (p_regs : P .regs) (p_acc : P .acc) (p_mem : P .mem) (p_reach : P .reach) (p_chan :
    P .chan) (p_deep : P .deep) (p_servo : P .servo) (p_zone : P .zone) (p_host : P .host) (p_stage : P .stage) (p_memc : P .memc) (p_evr : P .evr)
    (p_bkw : P .bkw) (p_flash : P .flash) (p_cfl : P .cfl) (p_spin : P .spin) (p_cal : P .cal) (p_hsk : P .hsk) (p_trust : P .trust) (h : Keeps P r
    s) : Keeps P r (State.beginReset s b1) := by
  unfold State.beginReset
  exact (Keeps.ite h (keeps_setUnit p_regs (keeps_resetEffects p_free p_regs p_acc p_mem p_reach p_chan p_deep p_servo p_zone p_host p_stage p_memc
      p_evr p_bkw p_flash p_cfl p_spin p_cal p_hsk p_trust (Keeps.ite (keeps_calAbandon p_regs p_acc p_cal h) h))))

/-- `State.watchUpd` keeps. -/
theorem keeps_watchUpd {P : Part → Prop} {r s : State} {b1 : WatchUnit → WatchUnit} (p_watch : P .watch) (h : Keeps P r s) : Keeps P r (State.watchUpd s b1) := by
  unfold State.watchUpd
  exact (Keeps.put h)

/-- `State.clearElems` keeps. -/
theorem keeps_clearElems {P : Part → Prop} {r s : State} {b1 : UnitRef} (p_watch : P .watch) (h : Keeps P r s) : Keeps P r (State.clearElems s b1) := by
  unfold State.clearElems
  exact (keeps_watchUpd p_watch h)

/-- `State.managerReset` keeps. -/
theorem keeps_managerReset {P : Part → Prop} {r s : State} {b1 : UnitRef} (p_free : P .free) (p_regs : P .regs) (p_acc : P .acc) (p_mem : P .mem) (p_reach : P .reach) (p_chan :
    P .chan) (p_deep : P .deep) (p_servo : P .servo) (p_zone : P .zone) (p_host : P .host) (p_stage : P .stage) (p_memc : P .memc) (p_evr : P .evr)
    (p_bkw : P .bkw) (p_flash : P .flash) (p_cfl : P .cfl) (p_spin : P .spin) (p_watch : P .watch) (p_cal : P .cal) (p_hsk : P .hsk) (p_trust : P
    .trust) (h : Keeps P r s) : Keeps P r (State.managerReset s b1) := by
  unfold State.managerReset
  exact (keeps_beginReset p_free p_regs p_acc p_mem p_reach p_chan p_deep p_servo p_zone p_host p_stage p_memc p_evr p_bkw p_flash p_cfl p_spin p_cal
      p_hsk p_trust (keeps_clearElems p_watch h))

/-- `State.motionFrom` keeps. -/
theorem keeps_motionFrom {P : Part → Prop} {r s : State} {b1 : ℕ} {b2 : ℕ} (p_free : P .free) (p_regs : P .regs) (p_acc : P .acc) (p_mem : P .mem) (p_reach : P .reach)
    (p_chan : P .chan) (p_deep : P .deep) (p_servo : P .servo) (p_zone : P .zone) (p_host : P .host) (p_stage : P .stage) (p_memc : P .memc) (p_evr :
    P .evr) (p_bkw : P .bkw) (p_flash : P .flash) (p_cfl : P .cfl) (p_spin : P .spin) (p_watch : P .watch) (p_cal : P .cal) (p_hsk : P .hsk) (p_trust
    : P .trust) (h : Keeps P r s) : Keeps P r (State.motionFrom s b1 b2) := by
  induction b2 generalizing s b1
  · simp only [State.motionFrom]
    exact (keeps_watchUpd p_watch h)
  · rename_i a1 ih
    simp only [State.motionFrom]
    exact (Keeps.ite (keeps_watchUpd p_watch h) (Keeps.ite (keeps_watchUpd p_watch (keeps_managerReset p_free p_regs p_acc p_mem p_reach p_chan
        p_deep p_servo p_zone p_host p_stage p_memc p_evr p_bkw p_flash p_cfl p_spin p_watch p_cal p_hsk p_trust h)) (ih h)))

/-- `State.startDomain` keeps. -/
theorem keeps_startDomain {P : Part → Prop} {r s : State} {b1 : Domain} {b2 : ℕ} (p_free : P .free) (p_regs : P .regs) (p_acc : P .acc) (p_mem : P .mem) (p_reach : P .reach)
    (p_chan : P .chan) (p_deep : P .deep) (p_servo : P .servo) (p_zone : P .zone) (p_host : P .host) (p_stage : P .stage) (p_memc : P .memc) (p_evr :
    P .evr) (p_bkw : P .bkw) (p_flash : P .flash) (p_cfl : P .cfl) (p_spin : P .spin) (p_watch : P .watch) (p_cal : P .cal) (p_hsk : P .hsk) (p_trust
    : P .trust) (h : Keeps P r s) : Keeps P r (State.startDomain s b1 b2) := by
  unfold State.startDomain
  extract_lets +onlyGivenNames x1
  have h2 : Keeps P r x1 := (keeps_watchUpd p_watch (keeps_wr p_regs h))
  clear_value x1
  split
  · exact (keeps_motionFrom p_free p_regs p_acc p_mem p_reach p_chan p_deep p_servo p_zone p_host p_stage p_memc p_evr p_bkw p_flash p_cfl p_spin
      p_watch p_cal p_hsk p_trust h2)
  · refine Keeps.foldl ?_ fun y3 y4 h5 => ?_
    · exact h2
    · exact (keeps_managerReset p_free p_regs p_acc p_mem p_reach p_chan p_deep p_servo p_zone p_host p_stage p_memc p_evr p_bkw p_flash p_cfl p_spin
        p_watch p_cal p_hsk p_trust h5)

/-- `execDomainRestartReq` keeps. -/
theorem keeps_execDomainRestartReq {P : Part → Prop} {r s : State} {b0 : Requester} {b1 : Domain} (p_free : P .free) (p_regs : P .regs) (p_acc : P .acc) (p_mem : P .mem) (p_reach : P
    .reach) (p_chan : P .chan) (p_deep : P .deep) (p_servo : P .servo) (p_zone : P .zone) (p_host : P .host) (p_stage : P .stage) (p_memc : P .memc)
    (p_evr : P .evr) (p_bkw : P .bkw) (p_flash : P .flash) (p_cfl : P .cfl) (p_spin : P .spin) (p_watch : P .watch) (p_cal : P .cal) (p_hsk : P .hsk)
    (p_trust : P .trust) (h : Keeps P r s) : KeepsO P r (execDomainRestartReq b0 b1 s) := by
  unfold execDomainRestartReq
  split
  · exact KeepsO.of_next (keeps_startDomain p_free p_regs p_acc p_mem p_reach p_chan p_deep p_servo p_zone p_host p_stage p_memc p_evr p_bkw p_flash
      p_cfl p_spin p_watch p_cal p_hsk p_trust h)
  · exact KeepsO.of_next h

/-- `execWdogKick` keeps. -/
theorem keeps_execWdogKick {P : Part → Prop} {r s : State} {b0 : Requester} (p_watch : P .watch) (h : Keeps P r s) : KeepsO P r (execWdogKick b0 s) := by
  unfold execWdogKick
  split
  · exact KeepsO.of_next (keeps_watchUpd p_watch h)
  · exact KeepsO.of_next h

/-- `execSlotDegrade` keeps. -/
theorem keeps_execSlotDegrade {P : Part → Prop} {r s : State} {b0 : Requester} {b1 : UnitRef} {b2 : Bool} (p_regs : P .regs) (p_evr : P .evr) (h : Keeps P r s) : KeepsO P r
    (execSlotDegrade b0 b1 b2 s) := by
  unfold execSlotDegrade
  split
  · exact KeepsO.of_next h
  · extract_lets +onlyGivenNames x1
    have h2 : Keeps P r x1 := (keeps_wr p_regs h)
    clear_value x1
    split
    · exact KeepsO.of_next (keeps_raise p_evr (keeps_showDegraded p_regs (keeps_setUnit p_regs h2)))
    · split
      · exact KeepsO.of_next (keeps_showDegraded p_regs (keeps_setUnit p_regs h2))
      · exact KeepsO.of_next h2

/-- `execSlotQuiesce` keeps. -/
theorem keeps_execSlotQuiesce {P : Part → Prop} {r s : State} {b0 : Requester} {b1 : UnitRef} {b2 : Bool} (p_free : P .free) (p_regs : P .regs) (p_acc : P .acc) (p_mem : P .mem)
    (p_reach : P .reach) (p_chan : P .chan) (p_deep : P .deep) (p_servo : P .servo) (p_zone : P .zone) (p_host : P .host) (p_stage : P .stage)
    (p_memc : P .memc) (p_evr : P .evr) (p_trust : P .trust) (h : Keeps P r s) : KeepsO P r (execSlotQuiesce b0 b1 b2 s) := by
  unfold execSlotQuiesce
  split
  · exact KeepsO.of_next h
  · split
    · exact KeepsO.of_next (keeps_engQuiesce p_free p_regs p_acc p_mem p_reach p_chan p_deep p_servo p_zone p_host p_stage p_memc p_evr p_trust h)
    · extract_lets +onlyGivenNames x1
      have h2 : Keeps P r x1 := (keeps_wr p_regs h)
      clear_value x1
      split
      · exact KeepsO.of_next (Keeps.ite (keeps_setUnit p_regs h2) h2)
      · exact KeepsO.of_next (Keeps.ite (keeps_toWork p_regs h2) h2)

/-- `execSlotReset` keeps. -/
theorem keeps_execSlotReset {P : Part → Prop} {r s : State} {b0 : Requester} {b1 : UnitRef} (p_free : P .free) (p_regs : P .regs) (p_acc : P .acc) (p_mem : P .mem) (p_reach : P
    .reach) (p_chan : P .chan) (p_deep : P .deep) (p_servo : P .servo) (p_zone : P .zone) (p_host : P .host) (p_stage : P .stage) (p_memc : P .memc)
    (p_evr : P .evr) (p_bkw : P .bkw) (p_flash : P .flash) (p_cfl : P .cfl) (p_spin : P .spin) (p_cal : P .cal) (p_hsk : P .hsk) (p_trust : P .trust)
    (h : Keeps P r s) : KeepsO P r (execSlotReset b0 b1 s) := by
  unfold execSlotReset
  split
  · exact KeepsO.of_next h
  · exact KeepsO.of_next (keeps_beginReset p_free p_regs p_acc p_mem p_reach p_chan p_deep p_servo p_zone p_host p_stage p_memc p_evr p_bkw p_flash
      p_cfl p_spin p_cal p_hsk p_trust (keeps_raise p_evr h))

/-- `State.expiryWindow` keeps. -/
theorem keeps_expiryWindow {P : Part → Prop} {r s : State} (p_regs : P .regs) (p_watch : P .watch) (h : Keeps P r s) : Keeps P r (State.expiryWindow s) := by
  unfold State.expiryWindow
  split
  · exact h
  · extract_lets +onlyGivenNames x1
    refine Keeps.step (P := P) (r := r) (x := x1) ?_ ?_
    · unfold x1
      refine Keeps.foldl ?_ fun y3 y4 h5 => ?_
      · exact h
      · exact (keeps_wr p_regs h5)
    intro h2
    clear_value x1
    extract_lets +onlyGivenNames x6
    refine Keeps.step (P := P) (r := r) (x := x6) ?_ ?_
    · unfold x6
      refine Keeps.foldl ?_ fun y8 y9 h10 => ?_
      · exact h2
      · exact (keeps_wr p_regs h10)
    intro h7
    clear_value x6
    exact (keeps_watchUpd p_watch (keeps_wr p_regs h7))

/-- `State.supervisorExpired` keeps. -/
theorem keeps_supervisorExpired {P : Part → Prop} {r s : State} {b1 : ℕ} (p_regs : P .regs) (p_watch : P .watch) (p_cores : P .cores) (h : Keeps P r s) : Keeps P r
    (State.supervisorExpired s b1) := by
  unfold State.supervisorExpired
  extract_lets +onlyGivenNames x1
  clear_value x1
  extract_lets +onlyGivenNames x2
  have h3 : Keeps P r x2 := (keeps_watchUpd p_watch (keeps_wr p_regs h))
  clear_value x2
  split
  · exact (keeps_watchUpd p_watch h3)
  · extract_lets +onlyGivenNames x4
    have h5 : Keeps P r x4 := (keeps_watchUpd p_watch (keeps_wr p_regs h3))
    clear_value x4
    exact (Keeps.put h5)

/-- `State.actHeld` keeps. -/
theorem keeps_actHeld {P : Part → Prop} {r s : State} {b1 : List ℕ} (p_free : P .free) (p_regs : P .regs) (p_acc : P .acc) (p_mem : P .mem) (p_reach : P .reach) (p_chan :
    P .chan) (p_deep : P .deep) (p_servo : P .servo) (p_zone : P .zone) (p_host : P .host) (p_stage : P .stage) (p_memc : P .memc) (p_evr : P .evr)
    (p_bkw : P .bkw) (p_flash : P .flash) (p_cfl : P .cfl) (p_spin : P .spin) (p_watch : P .watch) (p_cal : P .cal) (p_hsk : P .hsk) (p_cores : P
    .cores) (p_trust : P .trust) (h : Keeps P r s) : Keeps P r (State.actHeld s b1) := by
  induction b1 generalizing s 
  · simp only [State.actHeld]
    exact (keeps_watchUpd p_watch h)
  · rename_i a1 a2 ih
    simp only [State.actHeld]
    exact (Keeps.ite (keeps_watchUpd p_watch (keeps_supervisorExpired p_regs p_watch p_cores (keeps_startDomain p_free p_regs p_acc p_mem p_reach
        p_chan p_deep p_servo p_zone p_host p_stage p_memc p_evr p_bkw p_flash p_cfl p_spin p_watch p_cal p_hsk p_trust (keeps_wr p_regs
        (keeps_expiryWindow p_regs p_watch h))))) (ih (keeps_supervisorExpired p_regs p_watch p_cores (keeps_startDomain p_free p_regs p_acc p_mem
        p_reach p_chan p_deep p_servo p_zone p_host p_stage p_memc p_evr p_bkw p_flash p_cfl p_spin p_watch p_cal p_hsk p_trust (keeps_wr p_regs
        (keeps_expiryWindow p_regs p_watch h))))))

/-- `State.escalate` keeps. -/
theorem keeps_escalate {P : Part → Prop} {r s : State} {b1 : Domain} (p_free : P .free) (p_regs : P .regs) (p_acc : P .acc) (p_mem : P .mem) (p_reach : P .reach) (p_chan :
    P .chan) (p_deep : P .deep) (p_servo : P .servo) (p_zone : P .zone) (p_host : P .host) (p_stage : P .stage) (p_memc : P .memc) (p_evr : P .evr)
    (p_bkw : P .bkw) (p_flash : P .flash) (p_cfl : P .cfl) (p_spin : P .spin) (p_watch : P .watch) (p_cal : P .cal) (p_hsk : P .hsk) (p_cores : P
    .cores) (p_trust : P .trust) (h : Keeps P r s) : Keeps P r (State.escalate s b1) := by
  unfold State.escalate
  exact (Keeps.ite (keeps_recovery p_evr (keeps_raise p_evr (keeps_watchUpd p_watch (keeps_wr p_regs h)))) (keeps_supervisorExpired p_regs p_watch
      p_cores (keeps_startDomain p_free p_regs p_acc p_mem p_reach p_chan p_deep p_servo p_zone p_host p_stage p_memc p_evr p_bkw p_flash p_cfl
      p_spin p_watch p_cal p_hsk p_trust h)))

/-- `State.domainExpired` keeps. -/
theorem keeps_domainExpired {P : Part → Prop} {r s : State} {b1 : Domain} {b2 : ℕ} (p_free : P .free) (p_regs : P .regs) (p_acc : P .acc) (p_mem : P .mem) (p_reach : P .reach)
    (p_chan : P .chan) (p_deep : P .deep) (p_servo : P .servo) (p_zone : P .zone) (p_host : P .host) (p_stage : P .stage) (p_memc : P .memc) (p_evr :
    P .evr) (p_bkw : P .bkw) (p_flash : P .flash) (p_cfl : P .cfl) (p_spin : P .spin) (p_watch : P .watch) (p_cal : P .cal) (p_hsk : P .hsk) (p_cores
    : P .cores) (p_trust : P .trust) (h : Keeps P r s) : Keeps P r (State.domainExpired s b1 b2) := by
  unfold State.domainExpired
  extract_lets +onlyGivenNames x1
  clear_value x1
  extract_lets +onlyGivenNames x2
  clear_value x2
  extract_lets +onlyGivenNames x3
  have h4 : Keeps P r x3 := (keeps_watchUpd p_watch (keeps_setB p_regs (keeps_wr p_regs h)))
  clear_value x3
  exact (Keeps.ite (keeps_escalate p_free p_regs p_acc p_mem p_reach p_chan p_deep p_servo p_zone p_host p_stage p_memc p_evr p_bkw p_flash p_cfl
      p_spin p_watch p_cal p_hsk p_cores p_trust h4) (keeps_startDomain p_free p_regs p_acc p_mem p_reach p_chan p_deep p_servo p_zone p_host p_stage
      p_memc p_evr p_bkw p_flash p_cfl p_spin p_watch p_cal p_hsk p_trust h4))

/-- `State.unitExpired` keeps. -/
theorem keeps_unitExpired {P : Part → Prop} {r s : State} {b1 : UnitRef} {b2 : ℕ} (p_free : P .free) (p_regs : P .regs) (p_acc : P .acc) (p_mem : P .mem) (p_reach : P .reach)
    (p_chan : P .chan) (p_deep : P .deep) (p_servo : P .servo) (p_zone : P .zone) (p_host : P .host) (p_stage : P .stage) (p_memc : P .memc) (p_evr :
    P .evr) (p_bkw : P .bkw) (p_flash : P .flash) (p_cfl : P .cfl) (p_spin : P .spin) (p_watch : P .watch) (p_cal : P .cal) (p_hsk : P .hsk) (p_cores
    : P .cores) (p_trust : P .trust) (h : Keeps P r s) : Keeps P r (State.unitExpired s b1 b2) := by
  unfold State.unitExpired
  extract_lets +onlyGivenNames x1
  clear_value x1
  extract_lets +onlyGivenNames x2
  clear_value x2
  extract_lets +onlyGivenNames x3
  clear_value x3
  extract_lets +onlyGivenNames x4
  clear_value x4
  extract_lets +onlyGivenNames x5
  have h6 : Keeps P r x5 := (keeps_watchUpd p_watch (keeps_wrs p_regs h))
  clear_value x5
  extract_lets +onlyGivenNames x7
  have h8 : Keeps P r x7 := (keeps_recovery p_evr (keeps_fault p_regs p_evr h6))
  clear_value x7
  exact (Keeps.ite (keeps_domainExpired p_free p_regs p_acc p_mem p_reach p_chan p_deep p_servo p_zone p_host p_stage p_memc p_evr p_bkw p_flash
      p_cfl p_spin p_watch p_cal p_hsk p_cores p_trust h8) (keeps_managerReset p_free p_regs p_acc p_mem p_reach p_chan p_deep p_servo p_zone p_host
      p_stage p_memc p_evr p_bkw p_flash p_cfl p_spin p_watch p_cal p_hsk p_trust h8))

/-- `State.elementExpired` keeps. -/
theorem keeps_elementExpired {P : Part → Prop} {r s : State} {b1 : UnitRef} {b2 : ℕ} (p_free : P .free) (p_regs : P .regs) (p_acc : P .acc) (p_mem : P .mem) (p_reach : P .reach)
    (p_chan : P .chan) (p_deep : P .deep) (p_servo : P .servo) (p_zone : P .zone) (p_host : P .host) (p_stage : P .stage) (p_memc : P .memc) (p_evr :
    P .evr) (p_bkw : P .bkw) (p_flash : P .flash) (p_cfl : P .cfl) (p_spin : P .spin) (p_watch : P .watch) (p_cal : P .cal) (p_hsk : P .hsk) (p_cores
    : P .cores) (p_trust : P .trust) (h : Keeps P r s) : Keeps P r (State.elementExpired s b1 b2) := by
  unfold State.elementExpired
  extract_lets +onlyGivenNames x1
  clear_value x1
  extract_lets +onlyGivenNames x2
  clear_value x2
  extract_lets +onlyGivenNames x3
  have h4 : Keeps P r x3 := (keeps_watchUpd p_watch h)
  clear_value x3
  split
  · extract_lets +onlyGivenNames x5
    have h6 : Keeps P r x5 := (keeps_latchCheck p_regs p_acc p_mem p_reach p_chan p_deep p_servo p_zone p_stage p_memc p_evr (keeps_wr p_regs
        (keeps_wr p_regs h4)))
    clear_value x5
    exact (Keeps.ite (keeps_unitExpired p_free p_regs p_acc p_mem p_reach p_chan p_deep p_servo p_zone p_host p_stage p_memc p_evr p_bkw p_flash
        p_cfl p_spin p_watch p_cal p_hsk p_cores p_trust (keeps_recovery p_evr h6)) (keeps_recovery p_evr h6))
  · extract_lets +onlyGivenNames x7
    have h8 : Keeps P r x7 := (keeps_recovery p_evr (keeps_fault p_regs p_evr h4))
    clear_value x7
    exact (Keeps.ite (keeps_unitExpired p_free p_regs p_acc p_mem p_reach p_chan p_deep p_servo p_zone p_host p_stage p_memc p_evr p_bkw p_flash
        p_cfl p_spin p_watch p_cal p_hsk p_cores p_trust h8) (keeps_beginReset p_free p_regs p_acc p_mem p_reach p_chan p_deep p_servo p_zone p_host
        p_stage p_memc p_evr p_bkw p_flash p_cfl p_spin p_cal p_hsk p_trust h8))

/-- `State.machineChecked` keeps. -/
theorem keeps_machineChecked {P : Part → Prop} {r s : State} {b1 : Fin 4} {b2 : ℕ} {b3 : ℕ} {b4 : ℕ} (p_free : P .free) (p_regs : P .regs) (p_acc : P .acc) (p_mem : P .mem)
    (p_reach : P .reach) (p_chan : P .chan) (p_deep : P .deep) (p_servo : P .servo) (p_zone : P .zone) (p_host : P .host) (p_stage : P .stage)
    (p_memc : P .memc) (p_evr : P .evr) (p_bkw : P .bkw) (p_flash : P .flash) (p_cfl : P .cfl) (p_spin : P .spin) (p_watch : P .watch) (p_cal : P
    .cal) (p_hsk : P .hsk) (p_cores : P .cores) (p_trust : P .trust) (h : Keeps P r s) : Keeps P r (State.machineChecked s b1 b2 b3 b4) := by
  unfold State.machineChecked
  split
  · exact (keeps_elementExpired p_free p_regs p_acc p_mem p_reach p_chan p_deep p_servo p_zone p_host p_stage p_memc p_evr p_bkw p_flash p_cfl p_spin
      p_watch p_cal p_hsk p_cores p_trust (keeps_expiryWindow p_regs p_watch h))
  · extract_lets +onlyGivenNames x1
    have h2 : Keeps P r x1 := (keeps_latchCheck p_regs p_acc p_mem p_reach p_chan p_deep p_servo p_zone p_stage p_memc p_evr h)
    clear_value x1
    exact (Keeps.ite (keeps_dispatch p_free p_regs p_acc p_mem p_reach p_chan p_deep p_servo p_zone p_host p_stage p_memc p_evr p_trust (keeps_strike
        p_regs p_acc p_mem p_reach p_chan p_deep p_servo p_zone p_host p_stage p_memc p_evr p_trust h2)) h2)

/-- `State.resetEnds` keeps. -/
theorem keeps_resetEnds {P : Part → Prop} {r s : State} {b1 : UnitRef} (p_free : P .free) (p_regs : P .regs) (p_acc : P .acc) (p_mem : P .mem) (p_reach : P .reach) (p_chan :
    P .chan) (p_deep : P .deep) (p_servo : P .servo) (p_zone : P .zone) (p_host : P .host) (p_stage : P .stage) (p_memc : P .memc) (p_evr : P .evr)
    (p_bkw : P .bkw) (p_flash : P .flash) (p_cfl : P .cfl) (p_spin : P .spin) (p_watch : P .watch) (p_cal : P .cal) (p_hsk : P .hsk) (p_trust : P
    .trust) (h : Keeps P r s) : Keeps P r (State.resetEnds s b1) := by
  unfold State.resetEnds
  extract_lets +onlyGivenNames x1
  have h2 : Keeps P r x1 := (keeps_bump p_regs h)
  clear_value x1
  extract_lets +onlyGivenNames x3
  refine Keeps.step (P := P) (r := r) (x := x3) ?_ ?_
  · unfold x3
    split
    · extract_lets +onlyGivenNames x5
      have h6 : Keeps P r x5 := (Keeps.ite (keeps_wr p_regs h2) h2)
      clear_value x5
      exact (keeps_updSv p_servo (keeps_primaryBack p_regs p_servo h6))
    · exact h2
  intro h4
  clear_value x3
  extract_lets +onlyGivenNames x7
  clear_value x7
  extract_lets +onlyGivenNames x8
  refine Keeps.step (P := P) (r := r) (x := x8) ?_ ?_
  · unfold x8
    split
    · exact (keeps_dispatch p_free p_regs p_acc p_mem p_reach p_chan p_deep p_servo p_zone p_host p_stage p_memc p_evr p_trust (Keeps.ite
        (keeps_setUnit p_regs h4) (keeps_toWork p_regs h4)))
    · exact (Keeps.ite (keeps_setUnit p_regs h4) (keeps_toWork p_regs h4))
  intro h9
  clear_value x8
  split
  · exact h9
  · exact (Keeps.ite (keeps_motionFrom p_free p_regs p_acc p_mem p_reach p_chan p_deep p_servo p_zone p_host p_stage p_memc p_evr p_bkw p_flash p_cfl
      p_spin p_watch p_cal p_hsk p_trust h9) h9)

/-- `execDomainExpiry` keeps. -/
theorem keeps_execDomainExpiry {P : Part → Prop} {r s : State} {b0 : Domain} (p_free : P .free) (p_regs : P .regs) (p_acc : P .acc) (p_mem : P .mem) (p_reach : P .reach) (p_chan :
    P .chan) (p_deep : P .deep) (p_servo : P .servo) (p_zone : P .zone) (p_host : P .host) (p_stage : P .stage) (p_memc : P .memc) (p_evr : P .evr)
    (p_bkw : P .bkw) (p_flash : P .flash) (p_cfl : P .cfl) (p_spin : P .spin) (p_watch : P .watch) (p_cal : P .cal) (p_hsk : P .hsk) (p_cores : P
    .cores) (p_trust : P .trust) (h : Keeps P r s) : KeepsO P r (execDomainExpiry b0 s) := by
  unfold execDomainExpiry
  exact KeepsO.of_next (keeps_domainExpired p_free p_regs p_acc p_mem p_reach p_chan p_deep p_servo p_zone p_host p_stage p_memc p_evr p_bkw p_flash
      p_cfl p_spin p_watch p_cal p_hsk p_cores p_trust (keeps_expiryWindow p_regs p_watch h))

/-- `execDomainRestartEnd` keeps. -/
theorem keeps_execDomainRestartEnd {P : Part → Prop} {r s : State} {b0 : Domain} (p_regs : P .regs) (p_evr : P .evr) (p_watch : P .watch) (h : Keeps P r s) : KeepsO P r
    (execDomainRestartEnd b0 s) := by
  unfold execDomainRestartEnd
  split
  · exact KeepsO.of_next h
  · extract_lets +onlyGivenNames x1
    have h2 : Keeps P r x1 := (keeps_wr p_regs (keeps_bump p_regs h))
    clear_value x1
    extract_lets +onlyGivenNames x3
    clear_value x3
    exact KeepsO.of_next (keeps_watchUpd p_watch (keeps_recovery p_evr (keeps_raise p_evr h2)))

/-- `execElementExpiry` keeps. -/
theorem keeps_execElementExpiry {P : Part → Prop} {r s : State} {b0 : UnitRef} {b1 : BitVec 16} (p_free : P .free) (p_regs : P .regs) (p_acc : P .acc) (p_mem : P .mem) (p_reach : P
    .reach) (p_chan : P .chan) (p_deep : P .deep) (p_servo : P .servo) (p_zone : P .zone) (p_host : P .host) (p_stage : P .stage) (p_memc : P .memc)
    (p_evr : P .evr) (p_bkw : P .bkw) (p_flash : P .flash) (p_cfl : P .cfl) (p_spin : P .spin) (p_watch : P .watch) (p_cal : P .cal) (p_hsk : P .hsk)
    (p_cores : P .cores) (p_trust : P .trust) (h : Keeps P r s) : KeepsO P r (execElementExpiry b0 b1 s) := by
  unfold execElementExpiry
  split
  · exact KeepsO.of_next (keeps_elementExpired p_free p_regs p_acc p_mem p_reach p_chan p_deep p_servo p_zone p_host p_stage p_memc p_evr p_bkw
      p_flash p_cfl p_spin p_watch p_cal p_hsk p_cores p_trust (keeps_expiryWindow p_regs p_watch h))
  · exact KeepsO.of_next h

/-- `execExpiryWindow` keeps. -/
theorem keeps_execExpiryWindow {P : Part → Prop} {r s : State} (p_regs : P .regs) (p_watch : P .watch) (h : Keeps P r s) : KeepsO P r (execExpiryWindow s) := by
  unfold execExpiryWindow
  exact KeepsO.of_next (keeps_expiryWindow p_regs p_watch h)

/-- `execLockstepMismatch` keeps. -/
theorem keeps_execLockstepMismatch {P : Part → Prop} {r s : State} (p_regs : P .regs) (p_watch : P .watch) (p_cores : P .cores) (h : Keeps P r s) : KeepsO P r (execLockstepMismatch s) := by
  unfold execLockstepMismatch
  exact KeepsO.of_next (keeps_supervisorExpired p_regs p_watch p_cores (keeps_expiryWindow p_regs p_watch h))

/-- `execMachineCheck` keeps. -/
theorem keeps_execMachineCheck {P : Part → Prop} {r s : State} {b0 : Fin 4} {b1 : BitVec 13} {b2 : BitVec 32} {b3 : Bool} (p_free : P .free) (p_regs : P .regs) (p_acc : P .acc)
    (p_mem : P .mem) (p_reach : P .reach) (p_chan : P .chan) (p_deep : P .deep) (p_servo : P .servo) (p_zone : P .zone) (p_host : P .host) (p_stage :
    P .stage) (p_memc : P .memc) (p_evr : P .evr) (p_bkw : P .bkw) (p_flash : P .flash) (p_cfl : P .cfl) (p_spin : P .spin) (p_watch : P .watch)
    (p_cal : P .cal) (p_hsk : P .hsk) (p_cores : P .cores) (p_trust : P .trust) (h : Keeps P r s) : KeepsO P r (execMachineCheck b0 b1 b2 b3 s) := by
  unfold execMachineCheck
  split
  · exact KeepsO.of_next h
  · extract_lets +onlyGivenNames x1
    have h2 : Keeps P r x1 := (keeps_wakeHolds p_regs p_reach h)
    clear_value x1
    extract_lets +onlyGivenNames x3
    clear_value x3
    extract_lets +onlyGivenNames x4
    clear_value x4
    split
    · exact KeepsO.of_next h2
    · split
      · exact KeepsO.of_next (keeps_machineChecked p_free p_regs p_acc p_mem p_reach p_chan p_deep p_servo p_zone p_host p_stage p_memc p_evr p_bkw
          p_flash p_cfl p_spin p_watch p_cal p_hsk p_cores p_trust h2)
      · exact KeepsO.of_next (keeps_microStep p_free p_regs p_acc p_mem p_reach p_chan p_deep p_servo p_zone p_host p_stage p_memc p_evr p_trust h2)

/-- `execUnitExpiry` keeps. -/
theorem keeps_execUnitExpiry {P : Part → Prop} {r s : State} {b0 : UnitRef} {b1 : Fin 3} (p_free : P .free) (p_regs : P .regs) (p_acc : P .acc) (p_mem : P .mem) (p_reach : P
    .reach) (p_chan : P .chan) (p_deep : P .deep) (p_servo : P .servo) (p_zone : P .zone) (p_host : P .host) (p_stage : P .stage) (p_memc : P .memc)
    (p_evr : P .evr) (p_bkw : P .bkw) (p_flash : P .flash) (p_cfl : P .cfl) (p_spin : P .spin) (p_watch : P .watch) (p_cal : P .cal) (p_hsk : P .hsk)
    (p_cores : P .cores) (p_trust : P .trust) (h : Keeps P r s) : KeepsO P r (execUnitExpiry b0 b1 s) := by
  unfold execUnitExpiry
  split
  · exact KeepsO.of_next (keeps_unitExpired p_free p_regs p_acc p_mem p_reach p_chan p_deep p_servo p_zone p_host p_stage p_memc p_evr p_bkw p_flash
      p_cfl p_spin p_watch p_cal p_hsk p_cores p_trust (keeps_expiryWindow p_regs p_watch h))
  · exact KeepsO.of_next h

/-- `execWatchRestartEnd` keeps. -/
theorem keeps_execWatchRestartEnd {P : Part → Prop} {r s : State} (p_free : P .free) (p_regs : P .regs) (p_acc : P .acc) (p_mem : P .mem) (p_reach : P .reach) (p_chan : P .chan)
    (p_deep : P .deep) (p_servo : P .servo) (p_zone : P .zone) (p_host : P .host) (p_stage : P .stage) (p_memc : P .memc) (p_evr : P .evr) (p_bkw : P
    .bkw) (p_flash : P .flash) (p_cfl : P .cfl) (p_spin : P .spin) (p_watch : P .watch) (p_cal : P .cal) (p_hsk : P .hsk) (p_cores : P .cores)
    (p_trust : P .trust) (h : Keeps P r s) : KeepsO P r (execWatchRestartEnd s) := by
  unfold execWatchRestartEnd
  split
  · exact KeepsO.of_next h
  · extract_lets +onlyGivenNames x1
    have h2 : Keeps P r x1 := (keeps_recovery p_evr (keeps_raise p_evr (keeps_wr p_regs h)))
    clear_value x1
    extract_lets +onlyGivenNames x3
    have h4 : Keeps P r x3 := (keeps_watchUpd p_watch h2)
    clear_value x3
    exact KeepsO.of_next (keeps_actHeld p_free p_regs p_acc p_mem p_reach p_chan p_deep p_servo p_zone p_host p_stage p_memc p_evr p_bkw p_flash
        p_cfl p_spin p_watch p_cal p_hsk p_cores p_trust (Keeps.put h4))

/-- `execWatchdogExpiry` keeps. -/
theorem keeps_execWatchdogExpiry {P : Part → Prop} {r s : State} (p_regs : P .regs) (p_watch : P .watch) (p_cores : P .cores) (h : Keeps P r s) : KeepsO P r (execWatchdogExpiry s) := by
  unfold execWatchdogExpiry
  split
  · exact KeepsO.of_next (keeps_supervisorExpired p_regs p_watch p_cores (keeps_expiryWindow p_regs p_watch h))
  · exact KeepsO.of_next h

/-- `execWeirStall` keeps. -/
theorem keeps_execWeirStall {P : Part → Prop} {r s : State} {b0 : Fin 48} {b1 : WeirClass} (p_free : P .free) (p_regs : P .regs) (p_acc : P .acc) (p_mem : P .mem) (p_reach : P
    .reach) (p_chan : P .chan) (p_deep : P .deep) (p_servo : P .servo) (p_zone : P .zone) (p_host : P .host) (p_stage : P .stage) (p_memc : P .memc)
    (p_evr : P .evr) (p_bkw : P .bkw) (p_flash : P .flash) (p_cfl : P .cfl) (p_spin : P .spin) (p_watch : P .watch) (p_cal : P .cal) (p_hsk : P .hsk)
    (p_cores : P .cores) (p_trust : P .trust) (h : Keeps P r s) : KeepsO P r (execWeirStall b0 b1 s) := by
  unfold execWeirStall
  extract_lets +onlyGivenNames x1
  have h2 : Keeps P r x1 := (keeps_raise p_evr (keeps_count p_regs p_acc (keeps_wr p_regs h)))
  clear_value x1
  split
  · exact KeepsO.of_next h2
  · exact KeepsO.of_next (Keeps.ite (keeps_elementExpired p_free p_regs p_acc p_mem p_reach p_chan p_deep p_servo p_zone p_host p_stage p_memc p_evr
      p_bkw p_flash p_cfl p_spin p_watch p_cal p_hsk p_cores p_trust (keeps_expiryWindow p_regs p_watch (keeps_tookFree p_free h2))) h2)

end Sys2Proof.Machine
end

