-- ==== Sys2Proof/Laws/KeepsRegisters.lean ====
section
/-! SUPPORT. What the operations of Machine/Registers.lean keep. -/

namespace Sys2Proof.Machine

set_option Elab.async false

/-- `State.after` keeps. -/
theorem keeps_after {P : Part → Prop} {r s : State} {b1 : Host.Outcome State Fault Refusal} (h : Keeps P r s) (hb1 : (KeepsO P r b1)) : Keeps P r (State.after s b1) := by
  unfold State.after
  split
  · exact hb1.next _ rfl
  · exact h

/-- `State.clearRc` keeps. -/
theorem keeps_clearRc {P : Part → Prop} {r s : State} {b1 : List FieldAt} (p_regs : P .regs) (h : Keeps P r s) : Keeps P r (State.clearRc s b1) := by
  induction b1 generalizing s 
  · simp only [State.clearRc]
    exact h
  · rename_i a1 a2 ih
    simp only [State.clearRc]
    exact (ih (Keeps.ite (keeps_wr p_regs h) h))

/-- `State.noteProgress` keeps. -/
theorem keeps_noteProgress {P : Part → Prop} {r s : State} {b1 : ℕ} {b2 : ℕ} (p_regs : P .regs) (h : Keeps P r s) : Keeps P r (State.noteProgress s b1 b2) := by
  unfold State.noteProgress
  split
  · refine Keeps.elim ?_ fun y1 => ?_
    · exact h
    · exact (keeps_wr p_regs h)
  · exact h

/-- `State.readNow` keeps. -/
theorem keeps_readNow {P : Part → Prop} {r s : State} {b1 : Requester} {b2 : ℕ} {b3 : ℕ} {b4 : ℕ} (p_answer : P .answer) (p_free : P .free) (p_regs : P .regs) (p_acc : P
    .acc) (p_mem : P .mem) (p_memc : P .memc) (p_evr : P .evr) (p_bkw : P .bkw) (p_cores : P .cores) (p_trust : P .trust) (h : Keeps P r s) : Keeps P
    r (State.readNow s b1 b2 b3 b4) := by
  unfold State.readNow
  extract_lets +onlyGivenNames x1
  clear_value x1
  split
  · exact (keeps_busError p_answer h)
  · split
    · refine keeps_after ?_ ?_
      · exact h
      · refine keeps_execClaimRead p_answer p_regs p_cores ?_
        exact h
    · split
      · refine keeps_after ?_ ?_
        · exact h
        · refine keeps_execBkwPop p_answer p_free p_regs p_acc p_mem p_memc p_evr p_bkw ?_
          exact h
      · split
        · refine keeps_after ?_ ?_
          · exact h
          · refine keeps_execNonceRead p_answer p_free p_regs p_trust ?_
            exact h
        · extract_lets +onlyGivenNames x2
          have h3 : Keeps P r x2 := (Keeps.ite (keeps_tookFree p_free (keeps_noteProgress p_regs h)) h)
          clear_value x2
          exact (keeps_reply p_answer (keeps_clearRc p_regs h3))

/-- `State.when` keeps. -/
theorem keeps_when {P : Part → Prop} {r s : State} {b1 : Fld} {b2 : ℕ} {b3 : State → Host.Outcome State Fault Refusal} (h : Keeps P r s) (hb1 : (∀ t, Keeps P r t →
    KeepsO P r (b3 t))) : Keeps P r (State.when s b1 b2 b3) := by
  unfold State.when
  split
  · exact h
  · refine keeps_after ?_ ?_
    · exact h
    · exact (hb1 _ h)

/-- `State.actsBkw` keeps. -/
theorem keeps_actsBkw {P : Part → Prop} {r s : State} {b1 : ℕ} {b2 : ℕ} (p_regs : P .regs) (p_acc : P .acc) (p_mem : P .mem) (p_stage : P .stage) (p_memc : P .memc) (p_evr
    : P .evr) (p_bkw : P .bkw) (h : Keeps P r s) : Keeps P r (State.actsBkw s b1 b2) := by
  unfold State.actsBkw
  split
  · extract_lets +onlyGivenNames x1
    clear_value x1
    split
    · refine keeps_after ?_ ?_
      · exact h
      · refine keeps_execBkwPush p_bkw ?_
        exact h
    · refine keeps_after ?_ ?_
      · exact h
      · refine keeps_execBkwPushl p_regs p_acc p_mem p_stage p_memc p_evr p_bkw ?_
        exact h
  · split
    · extract_lets +onlyGivenNames x2
      clear_value x2
      refine keeps_when ?_ ?_
      · exact h
      · intro y3 y4
        refine keeps_execBkwFlush p_bkw ?_
        exact y4
    · exact h

/-- `State.actsChn` keeps. -/
theorem keeps_actsChn {P : Part → Prop} {r s : State} {b1 : Fin 4} {b2 : ℕ} {b3 : ℕ} (p_free : P .free) (p_regs : P .regs) (p_acc : P .acc) (p_mem : P .mem) (p_reach : P
    .reach) (p_chan : P .chan) (p_deep : P .deep) (p_servo : P .servo) (p_zone : P .zone) (p_host : P .host) (p_stage : P .stage) (p_memc : P .memc)
    (p_evr : P .evr) (p_trust : P .trust) (h : Keeps P r s) : Keeps P r (State.actsChn s b1 b2 b3) := by
  unfold State.actsChn
  split
  · split
    · exact h
    · refine keeps_after ?_ ?_
      · exact h
      · refine keeps_execBlkLoss p_free p_regs p_acc p_mem p_reach p_chan p_deep p_servo p_zone p_host p_stage p_memc p_evr p_trust ?_
        exact h
  · exact (Keeps.ite (Keeps.ite (keeps_updCh p_chan (keeps_wr p_regs h)) h) (Keeps.ite (keeps_eqWrite p_regs p_chan h) h))

/-- `State.actsEvr` keeps. -/
theorem keeps_actsEvr {P : Part → Prop} {r s : State} {b1 : Requester} {b2 : ℕ} {b3 : ℕ} (p_regs : P .regs) (p_mem : P .mem) (p_evr : P .evr) (h : Keeps P r s) : Keeps P r
    (State.actsEvr s b1 b2 b3) := by
  unfold State.actsEvr
  split
  · exact (keeps_evrPut p_evr h)
  · split
    · refine keeps_when ?_ ?_
      · exact h
      · intro y1 y2
        refine keeps_execEvrClear p_regs p_mem p_evr ?_
        exact y2
    · split
      · extract_lets +onlyGivenNames x3
        clear_value x3
        refine keeps_when ?_ ?_
        · exact h
        · intro y4 y5
          refine keeps_execEvf p_regs p_evr ?_
          exact y5
      · split
        · extract_lets +onlyGivenNames x6
          clear_value x6
          refine keeps_when ?_ ?_
          · exact h
          · intro y7 y8
            refine keeps_execEvrRaise p_regs p_evr ?_
            exact y8
        · exact h

/-- `State.actsHsk` keeps. -/
theorem keeps_actsHsk {P : Part → Prop} {r s : State} {b1 : ℕ} {b2 : ℕ} (p_free : P .free) (p_regs : P .regs) (p_evr : P .evr) (p_hsk : P .hsk) (h : Keeps P r s) : Keeps P
    r (State.actsHsk s b1 b2) := by
  unfold State.actsHsk
  split
  · refine keeps_after ?_ ?_
    · exact h
    · refine keeps_execSensclr p_regs ?_
      exact h
  · split
    · split
      · exact (keeps_wr p_regs h)
      · split
        · exact h
        · extract_lets +onlyGivenNames x1
          clear_value x1
          extract_lets +onlyGivenNames x2
          have h3 : Keeps P r x2 := (keeps_tookFree p_free h)
          clear_value x2
          refine keeps_after ?_ ?_
          · exact h3
          · refine keeps_execVloopEnable p_regs p_evr p_hsk ?_
            exact h3
    · exact (Keeps.ite (Keeps.ite (keeps_wr p_regs h) h) (Keeps.ite (keeps_hskPut p_hsk h) h))

/-- `State.actsInt` keeps. -/
theorem keeps_actsInt {P : Part → Prop} {r s : State} {b1 : State} {b2 : ℕ} {b3 : ℕ} (p_regs : P .regs) (p_acc : P .acc) (p_mem : P .mem) (p_zone : P .zone) (p_host : P
    .host) (p_stage : P .stage) (p_memc : P .memc) (p_evr : P .evr) (p_trust : P .trust) (h : Keeps P r s) : Keeps P r (State.actsInt s b1 b2 b3) := by
  unfold State.actsInt
  extract_lets +onlyGivenNames x1
  clear_value x1
  split
  · refine keeps_after ?_ ?_
    · exact h
    · refine keeps_execIntakeEnable p_regs p_host ?_
      exact h
  · split
    · refine keeps_after ?_ ?_
      · exact h
      · refine keeps_execNsreadyWrite p_regs p_acc p_mem p_zone p_host p_stage p_memc p_evr p_trust ?_
        exact h
    · exact (Keeps.ite (keeps_nsChanged p_mem p_host h) h)

/-- `State.actsSrc` keeps. -/
theorem keeps_actsSrc {P : Part → Prop} {r s : State} {b1 : Requester} {b2 : ℕ} {b3 : ℕ} (p_regs : P .regs) (p_cores : P .cores) (h : Keeps P r s) : Keeps P r
    (State.actsSrc s b1 b2 b3) := by
  unfold State.actsSrc
  extract_lets +onlyGivenNames x1
  clear_value x1
  extract_lets +onlyGivenNames x2
  clear_value x2
  extract_lets +onlyGivenNames x3
  clear_value x3
  exact (Keeps.ite h (Keeps.ite (Keeps.put h) (keeps_wrs p_regs h)))

/-- `State.actsIrt` keeps. -/
theorem keeps_actsIrt {P : Part → Prop} {r s : State} {b1 : Requester} {b2 : ℕ} {b3 : ℕ} (p_free : P .free) (p_regs : P .regs) (p_acc : P .acc) (p_mem : P .mem) (p_reach :
    P .reach) (p_chan : P .chan) (p_deep : P .deep) (p_servo : P .servo) (p_zone : P .zone) (p_host : P .host) (p_stage : P .stage) (p_memc : P
    .memc) (p_evr : P .evr) (p_bkw : P .bkw) (p_flash : P .flash) (p_cfl : P .cfl) (p_spin : P .spin) (p_watch : P .watch) (p_cal : P .cal) (p_hsk :
    P .hsk) (p_cores : P .cores) (p_trust : P .trust) (h : Keeps P r s) : Keeps P r (State.actsIrt s b1 b2 b3) := by
  unfold State.actsIrt
  split
  · exact (keeps_actsSrc p_regs p_cores h)
  · split
    · split
      · refine keeps_after ?_ ?_
        · exact h
        · refine keeps_execClaimComplete p_regs p_cores ?_
          exact h
      · exact h
    · split
      · exact (keeps_settleTimer p_cores h)
      · split
        · refine keeps_after ?_ ?_
          · exact h
          · refine keeps_execMsipWrite p_regs p_cores ?_
            exact h
        · split
          · refine keeps_after ?_ ?_
            · exact h
            · refine keeps_execFbootRun p_regs p_cores ?_
              exact h
          · split
            · extract_lets +onlyGivenNames x1
              clear_value x1
              refine keeps_when ?_ ?_
              · exact h
              · intro y2 y3
                refine keeps_execDomainRestartReq p_free p_regs p_acc p_mem p_reach p_chan p_deep p_servo p_zone p_host p_stage p_memc p_evr p_bkw
                    p_flash p_cfl p_spin p_watch p_cal p_hsk p_trust ?_
                exact y3
            · split
              · refine keeps_when ?_ ?_
                · exact h
                · intro y4 y5
                  refine keeps_execWdogKick p_watch ?_
                  exact y5
              · exact h

/-- `State.actsRch` keeps. -/
theorem keeps_actsRch {P : Part → Prop} {r s : State} {b1 : Fin 4} {b2 : ℕ} {b3 : ℕ} (p_free : P .free) (p_regs : P .regs) (p_acc : P .acc) (p_mem : P .mem) (p_reach : P
    .reach) (p_chan : P .chan) (p_deep : P .deep) (p_servo : P .servo) (p_zone : P .zone) (p_host : P .host) (p_stage : P .stage) (p_memc : P .memc)
    (p_evr : P .evr) (p_trust : P .trust) (h : Keeps P r s) : Keeps P r (State.actsRch s b1 b2 b3) := by
  unfold State.actsRch
  extract_lets +onlyGivenNames x1
  clear_value x1
  extract_lets +onlyGivenNames x2
  clear_value x2
  split
  · refine keeps_after ?_ ?_
    · exact h
    · refine keeps_execRchEnable p_free p_regs p_acc p_mem p_reach p_chan p_deep p_servo p_zone p_host p_stage p_memc p_evr p_trust ?_
      exact h
  · split
    · refine keeps_after ?_ ?_
      · exact h
      · refine keeps_execSignalsSet p_regs ?_
        exact h
    · split
      · refine Keeps.foldl ?_ fun y3 y4 h5 => ?_
        · exact h
        · split
          · refine keeps_after ?_ ?_
            · exact h5
            · refine keeps_execRegionLoad p_free p_regs p_acc p_mem p_reach p_chan p_deep p_servo p_zone p_host p_stage p_memc p_evr p_trust ?_
              exact h5
          · exact h5
      · split
        · refine keeps_when ?_ ?_
          · refine keeps_when ?_ ?_
            · refine keeps_when ?_ ?_
              · refine keeps_when ?_ ?_
                · refine keeps_when ?_ ?_
                  · exact h
                  · intro y6 y7
                    refine keeps_execSlotStart p_free p_regs p_acc p_mem p_reach p_chan p_deep p_servo p_zone p_host p_stage p_memc p_evr p_trust ?_
                    exact y7
                · intro y8 y9
                  refine keeps_execSlotResume p_free p_regs p_acc p_mem p_reach p_chan p_deep p_servo p_zone p_host p_stage p_memc p_evr p_trust ?_
                  exact y9
              · intro y10 y11
                refine keeps_execSlotStop p_free p_regs p_acc p_mem p_reach p_chan p_deep p_servo p_zone p_host p_stage p_memc p_evr p_trust ?_
                exact y11
            · intro y12 y13
              refine keeps_execSlotRestart p_free p_regs p_acc p_mem p_reach p_chan p_deep p_servo p_zone p_host p_stage p_memc p_evr p_trust ?_
              exact y13
          · intro y14 y15
            refine keeps_execSlotKill p_free p_regs p_acc p_mem p_reach p_chan p_deep p_servo p_zone p_host p_stage p_memc p_evr p_trust ?_
            exact y15
        · split
          · refine keeps_after ?_ ?_
            · exact h
            · refine keeps_execSlotAppend p_regs p_acc p_mem p_reach p_stage p_memc p_evr ?_
              exact h
          · split
            · refine keeps_when ?_ ?_
              · refine keeps_after ?_ ?_
                · exact h
                · refine keeps_execZoneRecovWrite p_regs ?_
                  exact h
              · intro y16 y17
                refine keeps_execZoneLoad p_regs p_zone p_evr ?_
                exact y17
            · split
              · refine keeps_after ?_ ?_
                · exact h
                · refine keeps_execZoneQuery p_regs ?_
                  exact h
              · split
                · refine keeps_when ?_ ?_
                  · refine keeps_when ?_ ?_
                    · exact h
                    · intro y18 y19
                      refine keeps_execZflagClrvfy p_regs p_acc p_mem p_zone p_stage p_memc p_evr ?_
                      exact y19
                  · intro y20 y21
                    refine keeps_execZflagSetrzr p_regs p_acc p_mem p_zone p_stage p_memc p_evr ?_
                    exact y21
                · split
                  · refine keeps_after ?_ ?_
                    · exact h
                    · refine keeps_execJournalEnable p_regs p_acc p_mem p_zone p_stage p_memc p_evr ?_
                      exact h
                  · exact h

/-- `State.actsSlc` keeps. -/
theorem keeps_actsSlc {P : Part → Prop} {r s : State} {b1 : ℕ} {b2 : ℕ} (p_free : P .free) (p_regs : P .regs) (p_acc : P .acc) (p_mem : P .mem) (p_reach : P .reach)
    (p_chan : P .chan) (p_deep : P .deep) (p_servo : P .servo) (p_zone : P .zone) (p_host : P .host) (p_stage : P .stage) (p_memc : P .memc) (p_evr :
    P .evr) (p_sluice : P .sluice) (p_trust : P .trust) (h : Keeps P r s) : Keeps P r (State.actsSlc s b1 b2) := by
  unfold State.actsSlc
  extract_lets +onlyGivenNames x1
  clear_value x1
  split
  · split
    · refine Keeps.foldl ?_ fun y2 y3 h4 => ?_
      · exact h
      · exact (keeps_drainAll p_free p_regs p_acc p_mem p_reach p_chan p_deep p_servo p_zone p_host p_stage p_memc p_evr p_sluice p_trust h4)
    · refine Keeps.foldl ?_ fun y5 y6 h7 => ?_
      · exact h
      · exact (keeps_sluStop p_regs h7)
  · split
    · refine keeps_when ?_ ?_
      · refine keeps_when ?_ ?_
        · refine keeps_when ?_ ?_
          · exact h
          · intro y8 y9
            refine keeps_execSluiceGo p_regs p_sluice ?_
            exact y9
        · intro y10 y11
          refine keeps_execSluiceStop p_regs ?_
          exact y11
      · intro y12 y13
        refine keeps_execSluiceResume p_regs ?_
        exact y13
    · exact h

/-- `State.actsSpn` keeps. -/
theorem keeps_actsSpn {P : Part → Prop} {r s : State} {b1 : State} {b2 : ℕ} {b3 : ℕ} (p_regs : P .regs) (p_spin : P .spin) (h : Keeps P r s) : Keeps P r (State.actsSpn s
    b1 b2 b3) := by
  unfold State.actsSpn
  split
  · extract_lets +onlyGivenNames x1
    have h2 : Keeps P r x1 := (Keeps.ite h (keeps_sourceDemand p_regs h))
    clear_value x1
    refine keeps_when ?_ ?_
    · refine keeps_when ?_ ?_
      · exact h2
      · intro y3 y4
        refine keeps_execSpnClear p_regs p_spin ?_
        exact y4
    · intro y5 y6
      refine keeps_execCurveApply p_regs p_spin ?_
      exact y6
  · exact (Keeps.ite (Keeps.ite (keeps_sourceDemand p_regs h) h) (Keeps.ite (keeps_judgeOn p_regs h) h))

/-- `State.writeGeo` keeps. -/
theorem keeps_writeGeo {P : Part → Prop} {r s : State} {b1 : Fin 4} {b2 : ℕ} {b3 : ℕ} {b4 : ℕ} (p_regs : P .regs) (p_servo : P .servo) (h : Keeps P r s) : Keeps P r
    (State.writeGeo s b1 b2 b3 b4) := by
  unfold State.writeGeo
  extract_lets +onlyGivenNames x1
  have h2 : Keeps P r x1 := (keeps_clrB p_regs h)
  clear_value x1
  exact (Keeps.ite (keeps_updSv p_servo h2) h2)

/-- `State.actsSrv` keeps. -/
theorem keeps_actsSrv {P : Part → Prop} {r s : State} {b1 : Fin 4} {b2 : ℕ} {b3 : ℕ} (p_free : P .free) (p_regs : P .regs) (p_acc : P .acc) (p_mem : P .mem) (p_reach : P
    .reach) (p_chan : P .chan) (p_deep : P .deep) (p_servo : P .servo) (p_zone : P .zone) (p_host : P .host) (p_stage : P .stage) (p_memc : P .memc)
    (p_evr : P .evr) (p_trust : P .trust) (h : Keeps P r s) : Keeps P r (State.actsSrv s b1 b2 b3) := by
  unfold State.actsSrv
  split
  · refine keeps_when ?_ ?_
    · refine keeps_when ?_ ?_
      · refine keeps_when ?_ ?_
        · refine keeps_when ?_ ?_
          · exact h
          · intro y1 y2
            refine keeps_execLoad p_regs p_servo ?_
            exact y2
        · intro y3 y4
          refine keeps_execUnload p_free p_regs p_acc p_servo ?_
          exact y4
      · intro y5 y6
        refine keeps_execEret p_free p_regs p_acc p_mem p_reach p_chan p_deep p_servo p_zone p_host p_stage p_memc p_evr p_trust ?_
        exact y6
    · intro y7 y8
      refine keeps_execCswap p_servo ?_
      exact y8
  · split
    · refine keeps_when ?_ ?_
      · exact h
      · intro y9 y10
        refine keeps_execFfSwap p_servo ?_
        exact y10
    · split
      · refine keeps_when ?_ ?_
        · exact h
        · intro y11 y12
          refine keeps_execStbyRst p_regs p_servo ?_
          exact y12
      · exact (Keeps.ite (keeps_updSv p_servo h) (Keeps.ite (keeps_writeGeo p_regs p_servo h) h))

/-- `State.actsStg` keeps. -/
theorem keeps_actsStg {P : Part → Prop} {r s : State} {b1 : ℕ} {b2 : ℕ} (p_regs : P .regs) (p_stage : P .stage) (h : Keeps P r s) : Keeps P r (State.actsStg s b1 b2) := by
  unfold State.actsStg
  split
  · extract_lets +onlyGivenNames x1
    have h2 : Keeps P r x1 := (Keeps.ite (keeps_wr p_regs h) h)
    clear_value x1
    split
    · refine keeps_after ?_ ?_
      · exact h2
      · refine keeps_execStageEnable p_regs p_stage ?_
        exact h2
    · refine keeps_after ?_ ?_
      · exact h2
      · refine keeps_execStageDisable p_regs p_stage ?_
        exact h2
  · split
    · extract_lets +onlyGivenNames x3
      have h4 : Keeps P r x3 := (keeps_wrs p_regs h)
      clear_value x3
      exact (Keeps.put h4)
    · exact h

/-- `State.actsGeometry` keeps. -/
theorem keeps_actsGeometry {P : Part → Prop} {r s : State} {b1 : Fin 65} {b2 : Bool} {b3 : ℕ} {b4 : ℕ} {b5 : ℕ} (p_regs : P .regs) (p_trust : P .trust) (h : Keeps P r s) :
    Keeps P r (State.actsGeometry s b1 b2 b3 b4 b5) := by
  unfold State.actsGeometry
  refine keeps_after ?_ ?_
  · exact h
  · refine keeps_execRangeGeometryWrite p_regs p_trust ?_
    exact h

/-- `State.actsRange` keeps. -/
theorem keeps_actsRange {P : Part → Prop} {r s : State} {b1 : Fin 65} {b2 : ℕ} (p_regs : P .regs) (p_trust : P .trust) (h : Keeps P r s) : Keeps P r (State.actsRange s b1 b2) := by
  unfold State.actsRange
  extract_lets +onlyGivenNames x1
  clear_value x1
  extract_lets +onlyGivenNames x2
  clear_value x2
  extract_lets +onlyGivenNames x3
  clear_value x3
  extract_lets +onlyGivenNames x4
  clear_value x4
  extract_lets +onlyGivenNames x5
  clear_value x5
  extract_lets +onlyGivenNames x6
  have h7 : Keeps P r x6 := (Keeps.ite h (keeps_actsGeometry p_regs p_trust h))
  clear_value x6
  extract_lets +onlyGivenNames x8
  refine Keeps.step (P := P) (r := r) (x := x8) ?_ ?_
  · unfold x8
    split
    · exact h7
    · refine keeps_after ?_ ?_
      · exact h7
      · refine keeps_execRangeLockWrite p_regs p_trust ?_
        exact h7
  intro h9
  clear_value x8
  refine keeps_when ?_ ?_
  · exact h9
  · intro y10 y11
    refine keeps_execGenkey p_regs p_trust ?_
    exact y11

/-- `State.actsTru` keeps. -/
theorem keeps_actsTru {P : Part → Prop} {r s : State} {b1 : Requester} {b2 : ℕ} {b3 : ℕ} (p_free : P .free) (p_regs : P .regs) (p_evr : P .evr) (p_trust : P .trust) (h :
    Keeps P r s) : Keeps P r (State.actsTru s b1 b2 b3) := by
  unfold State.actsTru
  extract_lets +onlyGivenNames x1
  clear_value x1
  extract_lets +onlyGivenNames x2
  clear_value x2
  extract_lets +onlyGivenNames x3
  clear_value x3
  split
  · refine keeps_when ?_ ?_
    · exact h
    · intro y4 y5
      refine keeps_execIrootCommit p_regs p_trust ?_
      exact y5
  · split
    · split
      · exact h
      · extract_lets +onlyGivenNames x6
        have h7 : Keeps P r x6 := (keeps_tookFree p_free h)
        clear_value x6
        refine keeps_after ?_ ?_
        · exact h7
        · refine keeps_execAuthreq p_regs p_evr p_trust ?_
          exact h7
    · split
      · refine keeps_when ?_ ?_
        · refine keeps_when ?_ ?_
          · exact h
          · intro y8 y9
            refine keeps_execArbAdvanceFw p_regs p_trust ?_
            exact y9
        · intro y10 y11
          refine keeps_execArbAdvanceUc p_regs p_trust ?_
          exact y11
      · exact (Keeps.ite (Keeps.ite (keeps_actsRange p_regs p_trust h) (Keeps.ite (keeps_actsGeometry p_regs p_trust h) (Keeps.ite
          (keeps_actsGeometry p_regs p_trust h) h))) h)

/-- `State.cflGo` keeps. -/
theorem keeps_cflGo {P : Part → Prop} {r s : State} {b1 : Fin 2} (p_regs : P .regs) (p_cfl : P .cfl) (h : Keeps P r s) : Keeps P r (State.cflGo s b1) := by
  unfold State.cflGo
  extract_lets +onlyGivenNames x1
  clear_value x1
  split
  · refine keeps_after ?_ ?_
    · exact h
    · refine keeps_execCflProgram p_regs p_cfl ?_
      exact h
  · split
    · refine keeps_after ?_ ?_
      · exact h
      · refine keeps_execCflErase p_regs p_cfl ?_
        exact h
    · exact (keeps_wr p_regs h)

/-- `State.acts` keeps. -/
theorem keeps_acts {P : Part → Prop} {r s : State} {b1 : State} {b2 : Requester} {b3 : ℕ} {b4 : ℕ} {b5 : ℕ} (p_free : P .free) (p_regs : P .regs) (p_acc : P .acc)
    (p_mem : P .mem) (p_reach : P .reach) (p_chan : P .chan) (p_preamp : P .preamp) (p_deep : P .deep) (p_servo : P .servo) (p_zone : P .zone)
    (p_host : P .host) (p_stage : P .stage) (p_memc : P .memc) (p_evr : P .evr) (p_weir : P .weir) (p_sluice : P .sluice) (p_bkw : P .bkw) (p_flash :
    P .flash) (p_cfl : P .cfl) (p_spin : P .spin) (p_watch : P .watch) (p_cal : P .cal) (p_hsk : P .hsk) (p_cfx : P .cfx) (p_cores : P .cores)
    (p_trust : P .trust) (h : Keeps P r s) : Keeps P r (State.acts s b1 b2 b3 b4 b5) := by
  unfold State.acts
  split
  · exact (keeps_actsRch p_free p_regs p_acc p_mem p_reach p_chan p_deep p_servo p_zone p_host p_stage p_memc p_evr p_trust h)
  · split
    · exact (keeps_actsChn p_free p_regs p_acc p_mem p_reach p_chan p_deep p_servo p_zone p_host p_stage p_memc p_evr p_trust h)
    · split
      · extract_lets +onlyGivenNames x1
        clear_value x1
        split
        · refine keeps_when ?_ ?_
          · exact h
          · intro y2 y3
            refine keeps_execArmLinkReset p_preamp ?_
            exact y3
        · split
          · refine keeps_when ?_ ?_
            · exact h
            · intro y4 y5
              refine keeps_execArmReqGo p_regs p_chan ?_
              exact y5
          · exact h
      · split
        · exact (keeps_actsSrv p_free p_regs p_acc p_mem p_reach p_chan p_deep p_servo p_zone p_host p_stage p_memc p_evr p_trust h)
        · split
          · exact (keeps_actsInt p_regs p_acc p_mem p_zone p_host p_stage p_memc p_evr p_trust h)
          · split
            · refine keeps_when ?_ ?_
              · exact h
              · intro y6 y7
                refine keeps_execCfxFenceGo p_regs p_cfx ?_
                exact y7
            · exact h
          · split
            · refine keeps_after ?_ ?_
              · exact h
              · refine keeps_execWeirSync p_regs p_weir ?_
                exact h
            · exact h
          · exact (keeps_actsIrt p_free p_regs p_acc p_mem p_reach p_chan p_deep p_servo p_zone p_host p_stage p_memc p_evr p_bkw p_flash p_cfl
              p_spin p_watch p_cal p_hsk p_cores p_trust h)
          · exact (keeps_actsStg p_regs p_stage h)
          · split
            · refine keeps_after ?_ ?_
              · exact h
              · refine keeps_execMemInjArm p_regs ?_
                exact h
            · exact h
          · exact (keeps_actsSlc p_free p_regs p_acc p_mem p_reach p_chan p_deep p_servo p_zone p_host p_stage p_memc p_evr p_sluice p_trust h)
          · exact (keeps_actsBkw p_regs p_acc p_mem p_stage p_memc p_evr p_bkw h)
          · split
            · refine keeps_after ?_ ?_
              · exact h
              · refine keeps_execCflLockWrite p_regs ?_
                exact h
            · split
              · extract_lets +onlyGivenNames x8
                clear_value x8
                exact (Keeps.ite h (keeps_cflGo p_regs p_cfl h))
              · exact h
          · exact (keeps_actsTru p_free p_regs p_evr p_trust h)
          · exact (keeps_actsHsk p_free p_regs p_evr p_hsk h)
          · exact (keeps_actsEvr p_regs p_mem p_evr h)
          · split
            · refine keeps_when ?_ ?_
              · exact h
              · intro y9 y10
                refine keeps_execCalGo p_regs ?_
                exact y10
            · exact h
          · exact (keeps_actsSpn p_regs p_spin h)
          · exact h

/-- `State.refusesWrite` keeps. -/
theorem keeps_refusesWrite {P : Part → Prop} {r s : State} {t : _} {b1 : Requester} {b2 : ℕ} {b3 : ℕ} (p_regs : P .regs) (h : Keeps P r s) (e : State.refusesWrite s b1 b2 b3 =
    some t) : Keeps P r t := by
  unfold State.refusesWrite at e
  extract_lets only core at e
  have hs : some s = some t → Keeps P r t := fun e => Option.some.inj e ▸ h
  have hn : none = some t → Keeps P r t := fun e => absurd e.symm (Option.some_ne_none t)
  have i : ∀ {c : Prop} [Decidable c] {x y : Option State}, (x = some t → Keeps P r t) → (y = some t → Keeps P r t) →
      (if c then x else y) = some t → Keeps P r t := by
    intro c _ x y hx hy
    split
    · exact hx
    · exact hy
  have ho : ∀ b, only b = some t → Keeps P r t := fun b => i hn hs
  have hc : ∀ k, core k = some t → Keeps P r t := fun k => ho _
  have hd : some s.deny = some t → Keeps P r t := fun e => Option.some.inj e ▸ keeps_deny p_regs h
  have hw : ∀ f, some (s.wr f 1) = some t → Keeps P r t := fun f e => Option.some.inj e ▸ keeps_wr p_regs h
  clear_value only core
  exact i (ho _) (i (ho _) (i (ho _) (i (ho _) (i (i hs (i hd hn)) (i (ho _) (i (ho _) (i (hc _) (i (hc _) (i (ho _)
    (i (i (hw _) hn) hn)))))))))) e

/-- `State.storeField` keeps. -/
theorem keeps_storeField {P : Part → Prop} {r s : State} {b1 : ℕ} {b2 : ℕ} {b3 : ℕ} {b4 : FieldAt} (p_regs : P .regs) (h : Keeps P r s) : Keeps P r (State.storeField s b1 b2
    b3 b4) := by
  unfold State.storeField
  extract_lets +onlyGivenNames x1
  clear_value x1
  split
  · exact h
  · split
    · exact (keeps_wr p_regs h)
    · exact (keeps_wr p_regs h)
    · exact (keeps_wr p_regs h)
    · exact h
    · exact h
    · exact h

/-- `State.storeFields` keeps. -/
theorem keeps_storeFields {P : Part → Prop} {r s : State} {b1 : ℕ} {b2 : ℕ} {b3 : ℕ} {b4 : List FieldAt} (p_regs : P .regs) (h : Keeps P r s) : Keeps P r (State.storeFields s
    b1 b2 b3 b4) := by
  induction b4 generalizing s b1 b2 b3
  · simp only [State.storeFields]
    exact h
  · rename_i a1 a2 ih
    simp only [State.storeFields]
    exact (ih (keeps_storeField p_regs h))

/-- `State.storeReg` keeps. -/
theorem keeps_storeReg {P : Part → Prop} {r s : State} {b1 : ℕ} {b2 : ℕ} {b3 : ℕ} {b4 : List FieldAt} (p_regs : P .regs) (h : Keeps P r s) : Keeps P r (State.storeReg s b1
    b2 b3 b4) := by
  unfold State.storeReg
  exact (keeps_storeFields p_regs (keeps_storeFields p_regs h))

/-- `State.writeSlot` keeps. -/
theorem keeps_writeSlot {P : Part → Prop} {r s : State} {b1 : Requester} {b2 : UnitRef} {b3 : ℕ} {b4 : ℕ} {b5 : ℕ} (p_free : P .free) (p_regs : P .regs) (p_acc : P .acc)
    (p_mem : P .mem) (p_reach : P .reach) (p_chan : P .chan) (p_deep : P .deep) (p_servo : P .servo) (p_zone : P .zone) (p_host : P .host) (p_stage :
    P .stage) (p_memc : P .memc) (p_evr : P .evr) (p_bkw : P .bkw) (p_flash : P .flash) (p_cfl : P .cfl) (p_spin : P .spin) (p_cal : P .cal) (p_hsk :
    P .hsk) (p_trust : P .trust) (h : Keeps P r s) : Keeps P r (State.writeSlot s b1 b2 b3 b4 b5) := by
  unfold State.writeSlot
  extract_lets +onlyGivenNames x1
  clear_value x1
  split
  · exact h
  · split
    · extract_lets +onlyGivenNames x2
      refine Keeps.step (P := P) (r := r) (x := x2) ?_ ?_
      · unfold x2
        refine keeps_after ?_ ?_
        · exact h
        · refine keeps_execSlotQuiesce p_free p_regs p_acc p_mem p_reach p_chan p_deep p_servo p_zone p_host p_stage p_memc p_evr p_trust ?_
          exact h
      intro h3
      clear_value x2
      extract_lets +onlyGivenNames x4
      refine Keeps.step (P := P) (r := r) (x := x4) ?_ ?_
      · unfold x4
        refine keeps_after ?_ ?_
        · exact h3
        · refine keeps_execSlotDegrade p_regs p_evr ?_
          exact h3
      intro h5
      clear_value x4
      split
      · refine keeps_after ?_ ?_
        · exact h5
        · refine keeps_execSlotReset p_free p_regs p_acc p_mem p_reach p_chan p_deep p_servo p_zone p_host p_stage p_memc p_evr p_bkw p_flash p_cfl
            p_spin p_cal p_hsk p_trust ?_
          exact h5
      · exact h5
    · exact (keeps_storeReg p_regs h)

/-- `State.writeNow` keeps. -/
theorem keeps_writeNow {P : Part → Prop} {r s : State} {b1 : Requester} {b2 : ℕ} {b3 : ℕ} {b4 : ℕ} {b5 : ℕ} (p_answer : P .answer) (p_free : P .free) (p_regs : P .regs)
    (p_acc : P .acc) (p_mem : P .mem) (p_reach : P .reach) (p_chan : P .chan) (p_preamp : P .preamp) (p_deep : P .deep) (p_servo : P .servo) (p_zone
    : P .zone) (p_host : P .host) (p_stage : P .stage) (p_memc : P .memc) (p_evr : P .evr) (p_weir : P .weir) (p_sluice : P .sluice) (p_bkw : P .bkw)
    (p_flash : P .flash) (p_cfl : P .cfl) (p_spin : P .spin) (p_watch : P .watch) (p_cal : P .cal) (p_hsk : P .hsk) (p_cfx : P .cfx) (p_cores : P
    .cores) (p_trust : P .trust) (h : Keeps P r s) : Keeps P r (State.writeNow s b1 b2 b3 b4 b5) := by
  unfold State.writeNow
  extract_lets +onlyGivenNames x1
  clear_value x1
  split
  · exact (keeps_busError p_answer h)
  · split
    · refine keeps_reply p_answer ?_
      split
      · exact h
      · refine Keeps.elim ?_ fun y2 => ?_
        · exact h
        · exact (keeps_writeSlot p_free p_regs p_acc p_mem p_reach p_chan p_deep p_servo p_zone p_host p_stage p_memc p_evr p_bkw p_flash p_cfl
            p_spin p_cal p_hsk p_trust h)
    · split
      · rename_i y3 y4 y5 y6 y7
        have h8 : Keeps P r y6 := keeps_refusesWrite p_regs h y7
        exact (keeps_reply p_answer h8)
      · rename_i y9 y10 y11 y12
        exact (Keeps.ite (keeps_reply p_answer h) (keeps_reply p_answer (keeps_acts p_free p_regs p_acc p_mem p_reach p_chan p_preamp p_deep p_servo
            p_zone p_host p_stage p_memc p_evr p_weir p_sluice p_bkw p_flash p_cfl p_spin p_watch p_cal p_hsk p_cfx p_cores p_trust (keeps_storeReg
            p_regs h))))

/-- `State.serveAccess` keeps. -/
theorem keeps_serveAccess {P : Part → Prop} {r s : State} {b1 : HeldAccess} (p_answer : P .answer) (p_free : P .free) (p_regs : P .regs) (p_acc : P .acc) (p_mem : P .mem)
    (p_reach : P .reach) (p_chan : P .chan) (p_preamp : P .preamp) (p_deep : P .deep) (p_servo : P .servo) (p_zone : P .zone) (p_host : P .host)
    (p_stage : P .stage) (p_memc : P .memc) (p_evr : P .evr) (p_weir : P .weir) (p_sluice : P .sluice) (p_bkw : P .bkw) (p_flash : P .flash) (p_cfl :
    P .cfl) (p_spin : P .spin) (p_watch : P .watch) (p_cal : P .cal) (p_hsk : P .hsk) (p_cfx : P .cfx) (p_cores : P .cores) (p_trust : P .trust) (h :
    Keeps P r s) : Keeps P r (State.serveAccess s b1) := by
  unfold State.serveAccess
  exact (Keeps.ite (keeps_readNow p_answer p_free p_regs p_acc p_mem p_memc p_evr p_bkw p_cores p_trust h) (keeps_writeNow p_answer p_free p_regs
      p_acc p_mem p_reach p_chan p_preamp p_deep p_servo p_zone p_host p_stage p_memc p_evr p_weir p_sluice p_bkw p_flash p_cfl p_spin p_watch p_cal
      p_hsk p_cfx p_cores p_trust h))

/-- `State.access` keeps. -/
theorem keeps_access {P : Part → Prop} {r s : State} {b1 : HeldAccess} (p_answer : P .answer) (p_free : P .free) (p_regs : P .regs) (p_acc : P .acc) (p_mem : P .mem)
    (p_reach : P .reach) (p_chan : P .chan) (p_preamp : P .preamp) (p_deep : P .deep) (p_servo : P .servo) (p_zone : P .zone) (p_host : P .host)
    (p_stage : P .stage) (p_memc : P .memc) (p_evr : P .evr) (p_weir : P .weir) (p_sluice : P .sluice) (p_bkw : P .bkw) (p_flash : P .flash) (p_cfl :
    P .cfl) (p_spin : P .spin) (p_watch : P .watch) (p_cal : P .cal) (p_hsk : P .hsk) (p_cfx : P .cfx) (p_cores : P .cores) (p_trust : P .trust) (h :
    Keeps P r s) : Keeps P r (State.access s b1) := by
  unfold State.access
  exact (Keeps.ite (keeps_watchUpd p_watch (Keeps.put h)) (keeps_serveAccess p_answer p_free p_regs p_acc p_mem p_reach p_chan p_preamp p_deep
      p_servo p_zone p_host p_stage p_memc p_evr p_weir p_sluice p_bkw p_flash p_cfl p_spin p_watch p_cal p_hsk p_cfx p_cores p_trust h))

/-- `State.serveOne` keeps. -/
theorem keeps_serveOne {P : Part → Prop} {r s : State} {b1 : HeldAccess} (p_answer : P .answer) (p_free : P .free) (p_regs : P .regs) (p_acc : P .acc) (p_mem : P .mem)
    (p_reach : P .reach) (p_chan : P .chan) (p_preamp : P .preamp) (p_deep : P .deep) (p_servo : P .servo) (p_zone : P .zone) (p_host : P .host)
    (p_stage : P .stage) (p_memc : P .memc) (p_evr : P .evr) (p_weir : P .weir) (p_sluice : P .sluice) (p_bkw : P .bkw) (p_flash : P .flash) (p_cfl :
    P .cfl) (p_spin : P .spin) (p_watch : P .watch) (p_cal : P .cal) (p_hsk : P .hsk) (p_cfx : P .cfx) (p_cores : P .cores) (p_trust : P .trust) (h :
    Keeps P r s) : Keeps P r (State.serveOne s b1) := by
  unfold State.serveOne
  extract_lets +onlyGivenNames x1
  have h2 : Keeps P r x1 := (keeps_access p_answer p_free p_regs p_acc p_mem p_reach p_chan p_preamp p_deep p_servo p_zone p_host p_stage p_memc
      p_evr p_weir p_sluice p_bkw p_flash p_cfl p_spin p_watch p_cal p_hsk p_cfx p_cores p_trust h)
  clear_value x1
  exact (Keeps.put h2)

/-- `State.serveHeld` keeps. -/
theorem keeps_serveHeld {P : Part → Prop} {r s : State} {b1 : List HeldAccess} (p_answer : P .answer) (p_free : P .free) (p_regs : P .regs) (p_acc : P .acc) (p_mem : P .mem)
    (p_reach : P .reach) (p_chan : P .chan) (p_preamp : P .preamp) (p_deep : P .deep) (p_servo : P .servo) (p_zone : P .zone) (p_host : P .host)
    (p_stage : P .stage) (p_memc : P .memc) (p_evr : P .evr) (p_weir : P .weir) (p_sluice : P .sluice) (p_bkw : P .bkw) (p_flash : P .flash) (p_cfl :
    P .cfl) (p_spin : P .spin) (p_watch : P .watch) (p_cal : P .cal) (p_hsk : P .hsk) (p_cfx : P .cfx) (p_cores : P .cores) (p_trust : P .trust) (h :
    Keeps P r s) : Keeps P r (State.serveHeld s b1) := by
  unfold State.serveHeld
  refine Keeps.foldl ?_ fun y1 y2 h3 => ?_
  · exact h
  · exact (keeps_serveOne p_answer p_free p_regs p_acc p_mem p_reach p_chan p_preamp p_deep p_servo p_zone p_host p_stage p_memc p_evr p_weir
      p_sluice p_bkw p_flash p_cfl p_spin p_watch p_cal p_hsk p_cfx p_cores p_trust h3)

/-- `execRegisterReadClear` keeps. -/
theorem keeps_execRegisterReadClear {P : Part → Prop} {r s : State} {b0 : Requester} {b1 : Fin 64} {b2 : Fin 65536} {b3 : Fin 9} (p_answer : P .answer) (p_free : P .free) (p_regs : P
    .regs) (p_acc : P .acc) (p_mem : P .mem) (p_reach : P .reach) (p_chan : P .chan) (p_preamp : P .preamp) (p_deep : P .deep) (p_servo : P .servo)
    (p_zone : P .zone) (p_host : P .host) (p_stage : P .stage) (p_memc : P .memc) (p_evr : P .evr) (p_weir : P .weir) (p_sluice : P .sluice) (p_bkw :
    P .bkw) (p_flash : P .flash) (p_cfl : P .cfl) (p_spin : P .spin) (p_watch : P .watch) (p_cal : P .cal) (p_hsk : P .hsk) (p_cfx : P .cfx) (p_cores
    : P .cores) (p_trust : P .trust) (h : Keeps P r s) : KeepsO P r (execRegisterReadClear b0 b1 b2 b3 s) := by
  unfold execRegisterReadClear
  exact KeepsO.of_next (keeps_access p_answer p_free p_regs p_acc p_mem p_reach p_chan p_preamp p_deep p_servo p_zone p_host p_stage p_memc p_evr
      p_weir p_sluice p_bkw p_flash p_cfl p_spin p_watch p_cal p_hsk p_cfx p_cores p_trust h)

/-- `execRegisterWrite` keeps. -/
theorem keeps_execRegisterWrite {P : Part → Prop} {r s : State} {b0 : Requester} {b1 : Fin 64} {b2 : Fin 65536} {b3 : Fin 9} {b4 : BitVec 64} (p_answer : P .answer) (p_free : P
    .free) (p_regs : P .regs) (p_acc : P .acc) (p_mem : P .mem) (p_reach : P .reach) (p_chan : P .chan) (p_preamp : P .preamp) (p_deep : P .deep)
    (p_servo : P .servo) (p_zone : P .zone) (p_host : P .host) (p_stage : P .stage) (p_memc : P .memc) (p_evr : P .evr) (p_weir : P .weir) (p_sluice
    : P .sluice) (p_bkw : P .bkw) (p_flash : P .flash) (p_cfl : P .cfl) (p_spin : P .spin) (p_watch : P .watch) (p_cal : P .cal) (p_hsk : P .hsk)
    (p_cfx : P .cfx) (p_cores : P .cores) (p_trust : P .trust) (h : Keeps P r s) : KeepsO P r (execRegisterWrite b0 b1 b2 b3 b4 s) := by
  unfold execRegisterWrite
  exact KeepsO.of_next (keeps_access p_answer p_free p_regs p_acc p_mem p_reach p_chan p_preamp p_deep p_servo p_zone p_host p_stage p_memc p_evr
      p_weir p_sluice p_bkw p_flash p_cfl p_spin p_watch p_cal p_hsk p_cfx p_cores p_trust h)

/-- `execUnitResetEnd` keeps. -/
theorem keeps_execUnitResetEnd {P : Part → Prop} {r s : State} {b0 : UnitRef} (p_answer : P .answer) (p_free : P .free) (p_regs : P .regs) (p_acc : P .acc) (p_mem : P .mem)
    (p_reach : P .reach) (p_chan : P .chan) (p_preamp : P .preamp) (p_deep : P .deep) (p_servo : P .servo) (p_zone : P .zone) (p_host : P .host)
    (p_stage : P .stage) (p_memc : P .memc) (p_evr : P .evr) (p_weir : P .weir) (p_sluice : P .sluice) (p_bkw : P .bkw) (p_flash : P .flash) (p_cfl :
    P .cfl) (p_spin : P .spin) (p_watch : P .watch) (p_cal : P .cal) (p_hsk : P .hsk) (p_cfx : P .cfx) (p_cores : P .cores) (p_trust : P .trust) (h :
    Keeps P r s) : KeepsO P r (execUnitResetEnd b0 s) := by
  unfold execUnitResetEnd
  split
  · exact KeepsO.of_next h
  · extract_lets +onlyGivenNames x1
    clear_value x1
    extract_lets +onlyGivenNames x2
    have h3 : Keeps P r x2 := (keeps_resetEnds p_free p_regs p_acc p_mem p_reach p_chan p_deep p_servo p_zone p_host p_stage p_memc p_evr p_bkw
        p_flash p_cfl p_spin p_watch p_cal p_hsk p_trust (keeps_watchUpd p_watch h))
    clear_value x2
    exact KeepsO.of_next (keeps_serveHeld p_answer p_free p_regs p_acc p_mem p_reach p_chan p_preamp p_deep p_servo p_zone p_host p_stage p_memc
        p_evr p_weir p_sluice p_bkw p_flash p_cfl p_spin p_watch p_cal p_hsk p_cfx p_cores p_trust (Keeps.put h3))

end Sys2Proof.Machine
end

