-- ==== Sys2Proof/Laws/KeepsSluiceBus.lean ====
section
/-! SUPPORT. What the operations of Machine/SluiceBus.lean keep. -/

namespace Sys2Proof.Machine

set_option Elab.async false

/-- `State.sluBusRead` keeps. -/
theorem keeps_sluBusRead {P : Part → Prop} {r s : State} {b0 : ℕ} {b2 : ℕ} {b3 : ℕ} (p_answer : P .answer) (p_free : P .free) (p_regs : P .regs) (p_acc : P .acc) (p_mem : P
    .mem) (p_memc : P .memc) (p_evr : P .evr) (p_bkw : P .bkw) (p_cores : P .cores) (p_trust : P .trust) (h : Keeps P r s) : Keeps P r
    (State.sluBusRead b0 s b2 b3).1 := by
  unfold State.sluBusRead
  split
  · split
    · refine Keeps.fst_mk ?_
      exact h
    · exact (keeps_load p_regs p_acc p_mem p_memc p_evr h)
  · split
    · extract_lets +onlyGivenNames x1
      have h2 : Keeps P r x1 := (keeps_readNow p_answer p_free p_regs p_acc p_mem p_memc p_evr p_bkw p_cores p_trust h)
      clear_value x1
      refine Keeps.fst_mk ?_
      exact (Keeps.put h2)
  · refine Keeps.fst_mk ?_
    exact h
  · refine Keeps.fst_mk ?_
    exact h

/-- `State.sluBusWrite` keeps. -/
theorem keeps_sluBusWrite {P : Part → Prop} {r s : State} {b0 : ℕ} {b2 : ℕ} {b3 : List ℕ} (p_answer : P .answer) (p_free : P .free) (p_regs : P .regs) (p_acc : P .acc) (p_mem
    : P .mem) (p_reach : P .reach) (p_chan : P .chan) (p_preamp : P .preamp) (p_deep : P .deep) (p_servo : P .servo) (p_zone : P .zone) (p_host : P
    .host) (p_stage : P .stage) (p_memc : P .memc) (p_evr : P .evr) (p_weir : P .weir) (p_sluice : P .sluice) (p_bkw : P .bkw) (p_flash : P .flash)
    (p_cfl : P .cfl) (p_spin : P .spin) (p_watch : P .watch) (p_cal : P .cal) (p_hsk : P .hsk) (p_cfx : P .cfx) (p_cores : P .cores) (p_trust : P
    .trust) (h : Keeps P r s) : Keeps P r (State.sluBusWrite b0 s b2 b3).1 := by
  unfold State.sluBusWrite
  split
  · split
    · refine Keeps.fst_mk ?_
      exact h
    · exact (keeps_store p_regs p_acc p_mem p_stage p_memc p_evr h)
  · split
    · extract_lets +onlyGivenNames x1
      have h2 : Keeps P r x1 := (keeps_writeNow p_answer p_free p_regs p_acc p_mem p_reach p_chan p_preamp p_deep p_servo p_zone p_host p_stage
          p_memc p_evr p_weir p_sluice p_bkw p_flash p_cfl p_spin p_watch p_cal p_hsk p_cfx p_cores p_trust h)
      clear_value x1
      refine Keeps.fst_mk ?_
      exact (Keeps.put h2)
  · refine Keeps.fst_mk ?_
    exact h

/-- `State.sluLateRead` keeps. -/
theorem keeps_sluLateRead {P : Part → Prop} {r s : State} {b0 : ℕ} {b2 : ℕ} {b3 : ℕ} (p_answer : P .answer) (p_free : P .free) (p_regs : P .regs) (p_acc : P .acc) (p_mem : P
    .mem) (p_memc : P .memc) (p_evr : P .evr) (p_bkw : P .bkw) (p_cores : P .cores) (p_trust : P .trust) (h : Keeps P r s) : Keeps P r
    (State.sluLateRead b0 s b2 b3).1 := by
  unfold State.sluLateRead
  split
  · refine Keeps.fst_mk ?_
    exact h
  · exact (keeps_sluBusRead p_answer p_free p_regs p_acc p_mem p_memc p_evr p_bkw p_cores p_trust h)

/-- `State.sluLateWrite` keeps. -/
theorem keeps_sluLateWrite {P : Part → Prop} {r s : State} {b0 : ℕ} {b2 : ℕ} {b3 : List ℕ} (p_answer : P .answer) (p_free : P .free) (p_regs : P .regs) (p_acc : P .acc) (p_mem
    : P .mem) (p_reach : P .reach) (p_chan : P .chan) (p_preamp : P .preamp) (p_deep : P .deep) (p_servo : P .servo) (p_zone : P .zone) (p_host : P
    .host) (p_stage : P .stage) (p_memc : P .memc) (p_evr : P .evr) (p_weir : P .weir) (p_sluice : P .sluice) (p_bkw : P .bkw) (p_flash : P .flash)
    (p_cfl : P .cfl) (p_spin : P .spin) (p_watch : P .watch) (p_cal : P .cal) (p_hsk : P .hsk) (p_cfx : P .cfx) (p_cores : P .cores) (p_trust : P
    .trust) (h : Keeps P r s) : Keeps P r (State.sluLateWrite b0 s b2 b3).1 := by
  unfold State.sluLateWrite
  split
  · refine Keeps.fst_mk ?_
    exact h
  · exact (keeps_sluBusWrite p_answer p_free p_regs p_acc p_mem p_reach p_chan p_preamp p_deep p_servo p_zone p_host p_stage p_memc p_evr p_weir
      p_sluice p_bkw p_flash p_cfl p_spin p_watch p_cal p_hsk p_cfx p_cores p_trust h)

/-- `execResetAccessTimeout` keeps. -/
theorem keeps_execResetAccessTimeout {P : Part → Prop} {r s : State} {b0 : UnitRef} (p_answer : P .answer) (p_free : P .free) (p_regs : P .regs) (p_acc : P .acc) (p_mem : P .mem)
    (p_reach : P .reach) (p_chan : P .chan) (p_preamp : P .preamp) (p_deep : P .deep) (p_servo : P .servo) (p_zone : P .zone) (p_host : P .host)
    (p_stage : P .stage) (p_memc : P .memc) (p_evr : P .evr) (p_weir : P .weir) (p_sluice : P .sluice) (p_bkw : P .bkw) (p_flash : P .flash) (p_cfl :
    P .cfl) (p_spin : P .spin) (p_watch : P .watch) (p_cal : P .cal) (p_hsk : P .hsk) (p_cfx : P .cfx) (p_cores : P .cores) (p_trust : P .trust) (h :
    Keeps P r s) : KeepsO P r (execResetAccessTimeout b0 s) := by
  unfold execResetAccessTimeout
  split
  · exact KeepsO.of_next (keeps_busError p_answer (keeps_watchUpd p_watch h))
  · split
    · exact KeepsO.of_next h
    · refine KeepsO.of_next ?_
      refine keeps_sluAccess p_regs p_reach p_evr p_sluice ?_ ?_ ?_
      · exact h
      · intro y1 y2 y3 y4 y5
        exact (keeps_sluLateRead p_answer p_free p_regs p_acc p_mem p_memc p_evr p_bkw p_cores p_trust y5)
      · intro y6 y7 y8 y9 y10
        exact (keeps_sluLateWrite p_answer p_free p_regs p_acc p_mem p_reach p_chan p_preamp p_deep p_servo p_zone p_host p_stage p_memc p_evr p_weir
            p_sluice p_bkw p_flash p_cfl p_spin p_watch p_cal p_hsk p_cfx p_cores p_trust y10)

/-- `execSluiceAccess` keeps. -/
theorem keeps_execSluiceAccess {P : Part → Prop} {r s : State} {b0 : Fin 32} (p_answer : P .answer) (p_free : P .free) (p_regs : P .regs) (p_acc : P .acc) (p_mem : P .mem) (p_reach
    : P .reach) (p_chan : P .chan) (p_preamp : P .preamp) (p_deep : P .deep) (p_servo : P .servo) (p_zone : P .zone) (p_host : P .host) (p_stage : P
    .stage) (p_memc : P .memc) (p_evr : P .evr) (p_weir : P .weir) (p_sluice : P .sluice) (p_bkw : P .bkw) (p_flash : P .flash) (p_cfl : P .cfl)
    (p_spin : P .spin) (p_watch : P .watch) (p_cal : P .cal) (p_hsk : P .hsk) (p_cfx : P .cfx) (p_cores : P .cores) (p_trust : P .trust) (h : Keeps P
    r s) : KeepsO P r (execSluiceAccess b0 s) := by
  unfold execSluiceAccess
  split
  · exact KeepsO.of_next (keeps_xferRead p_free p_regs p_acc p_mem p_reach p_chan p_deep p_servo p_zone p_host p_stage p_memc p_evr p_sluice p_trust
      h)
  · split
    · exact KeepsO.of_next h
    · refine KeepsO.of_next ?_
      refine keeps_sluAccess p_regs p_reach p_evr p_sluice ?_ ?_ ?_
      · exact h
      · intro y1 y2 y3 y4 y5
        exact (keeps_sluBusRead p_answer p_free p_regs p_acc p_mem p_memc p_evr p_bkw p_cores p_trust y5)
      · intro y6 y7 y8 y9 y10
        exact (keeps_sluBusWrite p_answer p_free p_regs p_acc p_mem p_reach p_chan p_preamp p_deep p_servo p_zone p_host p_stage p_memc p_evr p_weir
            p_sluice p_bkw p_flash p_cfl p_spin p_watch p_cal p_hsk p_cfx p_cores p_trust y10)

end Sys2Proof.Machine
end

