-- ==== Sys2Proof/Laws/KeepsStartup.lean ====
section
/-! SUPPORT. What the operations of Machine/Startup.lean keep. -/

namespace Sys2Proof.Machine

set_option Elab.async false

/-- `State.keepDie` keeps. -/
theorem keeps_keepDie {P : Part → Prop} {r s : State} {b1 : State} {b2 : Fin 4} (p_servo : P .servo) (h : Keeps P r s) : Keeps P r (State.keepDie s b1 b2) := by
  unfold State.keepDie
  exact (keeps_updSv p_servo h)

/-- `State.keepRetract` keeps. -/
theorem keeps_keepRetract {P : Part → Prop} {r s : State} {b1 : State} {b2 : Fin 4} (p_regs : P .regs) (p_servo : P .servo) (h : Keeps P r s) : Keeps P r (State.keepRetract s
    b1 b2) := by
  unfold State.keepRetract
  exact (Keeps.ite (keeps_updSv p_servo (keeps_wr p_regs h)) h)

/-- `State.kept` keeps. -/
theorem keeps_kept {P : Part → Prop} {r s : State} {b1 : ℕ} (p_time : P .time) (p_answer : P .answer) (p_free : P .free) (p_regs : P .regs) (p_acc : P .acc) (p_mem : P
    .mem) (p_reach : P .reach) (p_chan : P .chan) (p_preamp : P .preamp) (p_deep : P .deep) (p_servo : P .servo) (p_medium : P .medium) (p_zone : P
    .zone) (p_host : P .host) (p_stage : P .stage) (p_memc : P .memc) (p_evr : P .evr) (p_weir : P .weir) (p_sluice : P .sluice) (p_bkw : P .bkw)
    (p_flash : P .flash) (p_cfl : P .cfl) (p_spin : P .spin) (p_watch : P .watch) (p_cal : P .cal) (p_hsk : P .hsk) (p_cfx : P .cfx) (p_cores : P
    .cores) (p_trust : P .trust) (p_power : P .power) (h : Keeps P r s) : Keeps P r (State.kept s b1) := by
  unfold State.kept
  refine Keeps.foldl ?_ fun t n ht => ?_
  · exact Keeps.mkAll (u := s) h le_rfl (fun _ => rfl) id (twf_filter _) (fun _ => rfl) (fun _ => by decide)
  · split
    · exact keeps_keepDie p_servo (keeps_keepRetract p_regs p_servo ht)
    · exact keeps_keepRetract p_regs p_servo ht

/-- `State.startRecord` keeps. -/
theorem keeps_startRecord {P : Part → Prop} {r s : State} {b1 : ℕ} {b2 : ℕ} (p_regs : P .regs) (p_evr : P .evr) (h : Keeps P r s) : Keeps P r (State.startRecord s b1 b2) := by
  unfold State.startRecord
  exact (keeps_raiseAs p_evr (keeps_wrs p_regs h))

/-- `State.beginStart` keeps. -/
theorem keeps_beginStart {P : Part → Prop} {r s : State} {b1 : ℕ} (p_time : P .time) (p_answer : P .answer) (p_free : P .free) (p_regs : P .regs) (p_acc : P .acc) (p_mem : P
    .mem) (p_reach : P .reach) (p_chan : P .chan) (p_preamp : P .preamp) (p_deep : P .deep) (p_servo : P .servo) (p_medium : P .medium) (p_zone : P
    .zone) (p_host : P .host) (p_stage : P .stage) (p_memc : P .memc) (p_evr : P .evr) (p_weir : P .weir) (p_sluice : P .sluice) (p_bkw : P .bkw)
    (p_flash : P .flash) (p_cfl : P .cfl) (p_spin : P .spin) (p_watch : P .watch) (p_cal : P .cal) (p_hsk : P .hsk) (p_cfx : P .cfx) (p_cores : P
    .cores) (p_trust : P .trust) (p_power : P .power) (h : Keeps P r s) : Keeps P r (State.beginStart s b1) := by
  unfold State.beginStart
  exact (keeps_startRecord p_regs p_evr (keeps_kept p_time p_answer p_free p_regs p_acc p_mem p_reach p_chan p_preamp p_deep p_servo p_medium p_zone
      p_host p_stage p_memc p_evr p_weir p_sluice p_bkw p_flash p_cfl p_spin p_watch p_cal p_hsk p_cfx p_cores p_trust p_power h))

/-- `State.loadKeys` keeps. -/
theorem keeps_loadKeys {P : Part → Prop} {r s : State} (p_regs : P .regs) (p_trust : P .trust) (h : Keeps P r s) : Keeps P r (State.loadKeys s) := by
  unfold State.loadKeys
  refine Keeps.foldl ?_ fun y1 y2 h3 => ?_
  · exact h
  · exact (keeps_fitKey p_regs p_trust (keeps_wr p_regs h3))

/-- `State.loadPatch` keeps. -/
theorem keeps_loadPatch {P : Part → Prop} {r s : State} {b1 : ℕ} {b2 : ℕ} {b3 : Fin 4} (p_regs : P .regs) (p_reach : P .reach) (h : Keeps P r s) : Keeps P r (State.loadPatch
    s b1 b2 b3) := by
  unfold State.loadPatch
  extract_lets +onlyGivenNames x1
  clear_value x1
  extract_lets +onlyGivenNames x2
  clear_value x2
  extract_lets +onlyGivenNames x3
  clear_value x3
  extract_lets +onlyGivenNames x4
  have h5 : Keeps P r x4 := (keeps_wrs p_regs h)
  clear_value x4
  extract_lets +onlyGivenNames x6
  refine Keeps.step (P := P) (r := r) (x := x6) ?_ ?_
  · unfold x6
    refine Keeps.foldl ?_ fun y8 y9 h10 => ?_
    · exact h5
    · exact (keeps_wr p_regs h10)
  intro h7
  clear_value x6
  exact (keeps_updEng p_reach h7)

/-- `State.loadPackage` keeps. -/
theorem keeps_loadPackage {P : Part → Prop} {r s : State} {b1 : ℕ} (p_free : P .free) (p_regs : P .regs) (p_reach : P .reach) (p_trust : P .trust) (h : Keeps P r s) : Keeps P
    r (State.loadPackage s b1) := by
  unfold State.loadPackage
  refine keeps_tookFree p_free ?_
  refine keeps_truPut p_trust ?_
  refine Keeps.foldl ?_ fun y1 y2 h3 => ?_
  · exact h
  · exact (keeps_loadPatch p_regs p_reach h3)

/-- `State.patchRejected` keeps. -/
theorem keeps_patchRejected {P : Part → Prop} {r s : State} {b1 : ℕ} {b2 : ℕ} (p_evr : P .evr) (h : Keeps P r s) : Keeps P r (State.patchRejected s b1 b2) := by
  unfold State.patchRejected
  exact (keeps_raise p_evr h)

/-- `State.patchLoad` keeps. -/
theorem keeps_patchLoad {P : Part → Prop} {r s : State} {b1 : ℕ → ℕ} {b2 : List ℕ} (p_free : P .free) (p_regs : P .regs) (p_reach : P .reach) (p_evr : P .evr) (p_trust : P
    .trust) (h : Keeps P r s) : Keeps P r (State.patchLoad s b1 b2) := by
  induction b2 generalizing s b1
  · simp only [State.patchLoad]
    exact (keeps_raise p_evr h)
  · rename_i a1 a2 ih
    simp only [State.patchLoad]
    refine Keeps.elim ?_ fun y3 => ?_
    · exact (keeps_loadPackage p_free p_regs p_reach p_trust h)
    · exact (ih (keeps_patchRejected p_evr h))

/-- `State.bootImage` keeps. -/
theorem keeps_bootImage {P : Part → Prop} {r s : State} {b1 : ℕ} {b2 : ℕ → ℕ} (p_free : P .free) (p_regs : P .regs) (p_reach : P .reach) (p_evr : P .evr) (p_cal : P .cal)
    (p_cores : P .cores) (p_trust : P .trust) (h : Keeps P r s) : Keeps P r (State.bootImage s b1 b2) := by
  unfold State.bootImage
  extract_lets +onlyGivenNames x1
  clear_value x1
  extract_lets +onlyGivenNames x2
  have h3 : Keeps P r x2 := (keeps_wrs p_regs (keeps_setBits p_regs h))
  clear_value x2
  extract_lets +onlyGivenNames x4
  refine Keeps.step (P := P) (r := r) (x := x4) ?_ ?_
  · unfold x4
    refine Keeps.foldl ?_ fun y6 y7 h8 => ?_
    · exact h3
    · exact (keeps_wr p_regs h8)
  intro h5
  clear_value x4
  extract_lets +onlyGivenNames x9
  have h10 : Keeps P r x9 := (keeps_loadKeys p_regs p_trust (keeps_patchLoad p_free p_regs p_reach p_evr p_trust (keeps_truPut p_trust h5)))
  clear_value x9
  extract_lets +onlyGivenNames x11
  refine Keeps.step (P := P) (r := r) (x := x11) ?_ ?_
  · unfold x11
    refine Keeps.foldl ?_ fun y13 y14 h15 => ?_
    · exact h10
    · exact (keeps_boot p_regs p_cores h15)
  intro h12
  clear_value x11
  exact (keeps_wr p_regs (keeps_calPut p_cal h12))

/-- `State.clearAccumulators` keeps. -/
theorem keeps_clearAccumulators {P : Part → Prop} {r s : State} (p_acc : P .acc) (p_host : P .host) (p_cal : P .cal) (p_hsk : P .hsk) (p_cfx : P .cfx) (h : Keeps P r s) : Keeps P r
    (State.clearAccumulators s) := by
  unfold State.clearAccumulators
  extract_lets +onlyGivenNames x1
  have h2 : Keeps P r x1 := (keeps_calPut p_cal (keeps_hskPut p_hsk h))
  clear_value x1
  extract_lets +onlyGivenNames x3
  have h4 : Keeps P r x3 := (keeps_hput p_host h2)
  clear_value x3
  exact Keeps.mkAll h4 le_rfl id id id (fun _ => rfl) id

/-- `State.clearUcode` keeps. -/
theorem keeps_clearUcode {P : Part → Prop} {r s : State} {b1 : Fin 4} (p_regs : P .regs) (p_reach : P .reach) (h : Keeps P r s) : Keeps P r (State.clearUcode s b1) := by
  unfold State.clearUcode
  extract_lets +onlyGivenNames x1
  clear_value x1
  extract_lets +onlyGivenNames x2
  have h3 : Keeps P r x2 := (Keeps.ite (keeps_wr p_regs h) h)
  clear_value x2
  extract_lets +onlyGivenNames x4
  have h5 : Keeps P r x4 := (keeps_wrs p_regs h3)
  clear_value x4
  extract_lets +onlyGivenNames x6
  refine Keeps.step (P := P) (r := r) (x := x6) ?_ ?_
  · unfold x6
    refine Keeps.foldl ?_ fun y8 y9 h10 => ?_
    · exact h5
    · exact (keeps_wr p_regs h10)
  intro h7
  clear_value x6
  exact (keeps_toWork p_regs (keeps_updEng p_reach h7))

/-- `State.cutWrite` keeps. -/
theorem keeps_cutWrite {P : Part → Prop} {r s : State} {b1 : Fin 4} {b2 : Bool} (p_regs : P .regs) (p_acc : P .acc) (p_mem : P .mem) (p_reach : P .reach) (p_chan : P .chan)
    (p_medium : P .medium) (p_zone : P .zone) (p_stage : P .stage) (p_memc : P .memc) (p_evr : P .evr) (h : Keeps P r s) : Keeps P r (State.cutWrite
    s b1 b2) := by
  unfold State.cutWrite
  split
  · exact (keeps_idlePair p_regs p_chan h)
  · extract_lets +onlyGivenNames x1
    have h2 : Keeps P r x1 := (keeps_dropBegun p_reach (keeps_idlePair p_regs p_chan h))
    clear_value x1
    exact (Keeps.ite (keeps_jIssues p_regs p_acc p_mem p_zone p_stage p_memc p_evr (keeps_updSector p_medium h2)) h2)

/-- `State.lossRetract` keeps. -/
theorem keeps_lossRetract {P : Part → Prop} {r s : State} {b1 : ℕ} {b2 : Fin 4} (p_free : P .free) (p_regs : P .regs) (p_acc : P .acc) (p_mem : P .mem) (p_reach : P .reach)
    (p_chan : P .chan) (p_deep : P .deep) (p_servo : P .servo) (p_medium : P .medium) (p_zone : P .zone) (p_host : P .host) (p_stage : P .stage)
    (p_memc : P .memc) (p_evr : P .evr) (p_trust : P .trust) (h : Keeps P r s) : Keeps P r (State.lossRetract s b1 b2) := by
  unfold State.lossRetract
  extract_lets +onlyGivenNames x1
  have h2 : Keeps P r x1 := (keeps_endOps p_free p_regs p_acc p_mem p_reach p_chan p_deep p_servo p_zone p_host p_stage p_memc p_evr p_trust
      (keeps_cutWrite p_regs p_acc p_mem p_reach p_chan p_medium p_zone p_stage p_memc p_evr (keeps_markOps p_reach h)))
  clear_value x1
  exact (Keeps.ite h2 (keeps_updSv p_servo (keeps_wr p_regs (keeps_wr p_regs h2))))

/-- `State.lossSpindle` keeps. -/
theorem keeps_lossSpindle {P : Part → Prop} {r s : State} (p_regs : P .regs) (p_spin : P .spin) (p_cfx : P .cfx) (h : Keeps P r s) : Keeps P r (State.lossSpindle s) := by
  unfold State.lossSpindle
  exact (Keeps.ite (keeps_spinUpd p_spin (keeps_spnRelease p_regs p_cfx (keeps_wr p_regs (keeps_setSpn p_regs h)))) h)

/-- `State.declare` keeps. -/
theorem keeps_declare {P : Part → Prop} {r s : State} {b1 : ℕ} {b2 : ℕ} {b3 : ℕ} (p_free : P .free) (p_regs : P .regs) (p_acc : P .acc) (p_mem : P .mem) (p_reach : P
    .reach) (p_chan : P .chan) (p_deep : P .deep) (p_servo : P .servo) (p_medium : P .medium) (p_zone : P .zone) (p_host : P .host) (p_stage : P
    .stage) (p_memc : P .memc) (p_evr : P .evr) (p_flash : P .flash) (p_cfl : P .cfl) (p_spin : P .spin) (p_watch : P .watch) (p_cfx : P .cfx)
    (p_trust : P .trust) (h : Keeps P r s) : Keeps P r (State.declare s b1 b2 b3) := by
  unfold State.declare
  extract_lets +onlyGivenNames x1
  clear_value x1
  extract_lets +onlyGivenNames x2
  have h3 : Keeps P r x2 := (keeps_watchUpd p_watch (keeps_wrs p_regs h))
  clear_value x2
  extract_lets +onlyGivenNames x4
  have h5 : Keeps P r x4 := (keeps_cflCut p_free p_regs p_acc p_evr p_flash p_cfl (keeps_cflCut p_free p_regs p_acc p_evr p_flash p_cfl (keeps_raise
      p_evr h3)))
  clear_value x4
  extract_lets +onlyGivenNames x6
  refine Keeps.step (P := P) (r := r) (x := x6) ?_ ?_
  · unfold x6
    refine Keeps.foldl ?_ fun y8 y9 h10 => ?_
    · exact h5
    · exact (keeps_lossRetract p_free p_regs p_acc p_mem p_reach p_chan p_deep p_servo p_medium p_zone p_host p_stage p_memc p_evr p_trust h10)
  intro h7
  clear_value x6
  exact (keeps_settleParked p_regs (keeps_settleVoids p_regs (keeps_lossSpindle p_regs p_spin p_cfx h7)))

/-- `State.enterP4` keeps. -/
theorem keeps_enterP4 {P : Part → Prop} {r s : State} (p_regs : P .regs) (p_watch : P .watch) (p_cores : P .cores) (p_power : P .power) (h : Keeps P r s) : Keeps P r
    (State.enterP4 s) := by
  unfold State.enterP4
  extract_lets +onlyGivenNames x1
  clear_value x1
  extract_lets +onlyGivenNames x2
  clear_value x2
  extract_lets +onlyGivenNames x3
  clear_value x3
  extract_lets +onlyGivenNames x4
  have h5 : Keeps P r x4 := (Keeps.put h)
  clear_value x4
  exact (keeps_wr p_regs (keeps_watchUpd p_watch h5))

/-- `State.killAll` keeps. -/
theorem keeps_killAll {P : Part → Prop} {r s : State} {b1 : Fin 4} (p_free : P .free) (p_regs : P .regs) (p_acc : P .acc) (p_mem : P .mem) (p_reach : P .reach) (p_chan : P
    .chan) (p_deep : P .deep) (p_servo : P .servo) (p_zone : P .zone) (p_host : P .host) (p_stage : P .stage) (p_memc : P .memc) (p_evr : P .evr)
    (p_trust : P .trust) (h : Keeps P r s) : Keeps P r (State.killAll s b1) := by
  unfold State.killAll
  refine Keeps.foldl ?_ fun y1 y2 h3 => ?_
  · exact h
  · exact (keeps_stopKill p_free p_regs p_acc p_mem p_reach p_chan p_deep p_servo p_zone p_host p_stage p_memc p_evr p_trust h3)

/-- `State.loadCounters` keeps. -/
theorem keeps_loadCounters {P : Part → Prop} {r s : State} (p_regs : P .regs) (p_evr : P .evr) (h : Keeps P r s) : Keeps P r (State.loadCounters s).1 := by
  unfold State.loadCounters
  extract_lets +onlyGivenNames x1
  clear_value x1
  extract_lets +onlyGivenNames x2
  clear_value x2
  split
  · refine Keeps.fst_mk ?_
    exact (keeps_wr p_regs (keeps_wr p_regs h))
  · refine Keeps.fst_mk ?_
    exact (keeps_raise p_evr (keeps_wr p_regs h))
  · refine Keeps.fst_mk ?_
    exact (keeps_raise p_evr (keeps_wr p_regs h))

/-- `State.releaseForwarded` keeps. -/
theorem keeps_releaseForwarded {P : Part → Prop} {r s : State} (p_free : P .free) (p_regs : P .regs) (p_acc : P .acc) (p_mem : P .mem) (p_reach : P .reach) (p_chan : P .chan)
    (p_deep : P .deep) (p_servo : P .servo) (p_zone : P .zone) (p_host : P .host) (p_stage : P .stage) (p_memc : P .memc) (p_evr : P .evr) (p_cfx : P
    .cfx) (p_trust : P .trust) (h : Keeps P r s) : Keeps P r (State.releaseForwarded s) := by
  unfold State.releaseForwarded
  refine keeps_withdrawDue p_free p_regs p_acc p_mem p_reach p_chan p_deep p_servo p_zone p_host p_stage p_memc p_evr p_trust ?_
  refine Keeps.foldl ?_ fun y1 y2 h3 => ?_
  · exact h
  · exact (keeps_releaseCmd p_free p_regs p_acc p_mem p_reach p_chan p_deep p_servo p_zone p_host p_stage p_memc p_evr p_cfx p_trust h3)

/-- `State.restartCtrl` keeps. -/
theorem keeps_restartCtrl {P : Part → Prop} {r s : State} {b1 : Fin 2} (p_free : P .free) (p_regs : P .regs) (p_acc : P .acc) (p_mem : P .mem) (p_reach : P .reach) (p_chan : P
    .chan) (p_deep : P .deep) (p_servo : P .servo) (p_zone : P .zone) (p_host : P .host) (p_stage : P .stage) (p_memc : P .memc) (p_evr : P .evr)
    (p_cfx : P .cfx) (p_trust : P .trust) (h : Keeps P r s) : Keeps P r (State.restartCtrl s b1) := by
  unfold State.restartCtrl
  extract_lets +onlyGivenNames x1
  clear_value x1
  exact (keeps_ctrlUpd p_host (keeps_ctrlReset p_free p_regs p_acc p_mem p_reach p_chan p_deep p_servo p_zone p_host p_stage p_memc p_evr p_cfx
      p_trust h))

/-- `State.restartSteps` keeps. -/
theorem keeps_restartSteps {P : Part → Prop} {r s : State} (p_free : P .free) (p_regs : P .regs) (p_acc : P .acc) (p_mem : P .mem) (p_reach : P .reach) (p_chan : P .chan)
    (p_deep : P .deep) (p_servo : P .servo) (p_zone : P .zone) (p_host : P .host) (p_stage : P .stage) (p_memc : P .memc) (p_evr : P .evr) (p_cfx : P
    .cfx) (p_trust : P .trust) (h : Keeps P r s) : Keeps P r (State.restartSteps s) := by
  unfold State.restartSteps
  extract_lets +onlyGivenNames x1
  have h2 : Keeps P r x1 := (keeps_releaseForwarded p_free p_regs p_acc p_mem p_reach p_chan p_deep p_servo p_zone p_host p_stage p_memc p_evr p_cfx
      p_trust (keeps_restartCtrl p_free p_regs p_acc p_mem p_reach p_chan p_deep p_servo p_zone p_host p_stage p_memc p_evr p_cfx p_trust
      (keeps_restartCtrl p_free p_regs p_acc p_mem p_reach p_chan p_deep p_servo p_zone p_host p_stage p_memc p_evr p_cfx p_trust (keeps_wr p_regs
      h))))
  clear_value x1
  refine keeps_retractAll p_free p_regs p_acc p_mem p_reach p_chan p_deep p_servo p_zone p_host p_stage p_memc p_evr p_trust ?_
  refine Keeps.foldl ?_ fun y3 y4 h5 => ?_
  · exact h2
  · exact (keeps_killAll p_free p_regs p_acc p_mem p_reach p_chan p_deep p_servo p_zone p_host p_stage p_memc p_evr p_trust h5)

/-- `State.resumeP4` keeps. -/
theorem keeps_resumeP4 {P : Part → Prop} {r s : State} {b1 : ℕ} (p_regs : P .regs) (p_acc : P .acc) (p_mem : P .mem) (p_reach : P .reach) (p_zone : P .zone) (p_host : P
    .host) (p_stage : P .stage) (p_memc : P .memc) (p_evr : P .evr) (p_watch : P .watch) (p_cal : P .cal) (p_hsk : P .hsk) (p_cfx : P .cfx) (p_cores
    : P .cores) (p_power : P .power) (h : Keeps P r s) : Keeps P r (State.resumeP4 s b1) := by
  unfold State.resumeP4
  extract_lets +onlyGivenNames x1
  have h2 : Keeps P r x1 := (keeps_wrs p_regs (keeps_watchUpd p_watch (keeps_recovery p_evr (keeps_raise p_evr h))))
  clear_value x1
  extract_lets +onlyGivenNames x3
  have h4 : Keeps P r x3 := (keeps_evrPut p_evr (keeps_runsEnd p_regs p_acc p_mem p_zone p_stage p_memc p_evr h2))
  clear_value x3
  extract_lets +onlyGivenNames x5
  refine Keeps.step (P := P) (r := r) (x := x5) ?_ ?_
  · unfold x5
    refine keeps_clearAccumulators p_acc p_host p_cal p_hsk p_cfx ?_
    refine Keeps.foldl ?_ fun y7 y8 h9 => ?_
    · exact h4
    · exact (keeps_clearUcode p_regs p_reach h9)
  intro h6
  clear_value x5
  exact (keeps_enterP4 p_regs p_watch p_cores p_power (keeps_startRecord p_regs p_evr h6))

/-- `State.restartOn` keeps. -/
theorem keeps_restartOn {P : Part → Prop} {r s : State} {b1 : ℕ} (p_free : P .free) (p_regs : P .regs) (p_acc : P .acc) (p_mem : P .mem) (p_reach : P .reach) (p_chan : P
    .chan) (p_deep : P .deep) (p_servo : P .servo) (p_zone : P .zone) (p_host : P .host) (p_stage : P .stage) (p_memc : P .memc) (p_evr : P .evr)
    (p_watch : P .watch) (p_cal : P .cal) (p_hsk : P .hsk) (p_cfx : P .cfx) (p_cores : P .cores) (p_trust : P .trust) (p_power : P .power) (h : Keeps
    P r s) : Keeps P r (State.restartOn s b1) := by
  unfold State.restartOn
  extract_lets +onlyGivenNames x1
  have h2 : Keeps P r x1 := (keeps_restartSteps p_free p_regs p_acc p_mem p_reach p_chan p_deep p_servo p_zone p_host p_stage p_memc p_evr p_cfx
      p_trust h)
  clear_value x1
  exact (Keeps.ite (keeps_resumeP4 p_regs p_acc p_mem p_reach p_zone p_host p_stage p_memc p_evr p_watch p_cal p_hsk p_cfx p_cores p_power h2)
      (keeps_watchUpd p_watch h2))

/-- `State.tryImages` keeps. -/
theorem keeps_tryImages {P : Part → Prop} {r s : State} {b1 : ℕ → ℕ} {b2 : ℕ → ℕ} {b3 : List ℕ} (p_free : P .free) (p_regs : P .regs) (p_reach : P .reach) (p_evr : P .evr)
    (p_cal : P .cal) (p_cores : P .cores) (p_trust : P .trust) (h : Keeps P r s) : Keeps P r (State.tryImages s b1 b2 b3) := by
  induction b3 generalizing s b1 b2
  · simp only [State.tryImages]
    exact (keeps_raise p_evr h)
  · rename_i a1 a2 ih
    simp only [State.tryImages]
    refine Keeps.elim ?_ fun y3 => ?_
    · exact (keeps_bootImage p_free p_regs p_reach p_evr p_cal p_cores p_trust h)
    · exact (ih (keeps_raise p_evr h))

/-- `execBootRomStage` keeps. -/
theorem keeps_execBootRomStage {P : Part → Prop} {r s : State} {b0 : Fin 8} {b1 : Fin 8} {b2 : Fin 8} {b3 : Fin 8} {b4 : Bool} (p_free : P .free) (p_regs : P .regs) (p_reach : P
    .reach) (p_evr : P .evr) (p_cal : P .cal) (p_cores : P .cores) (p_trust : P .trust) (p_power : P .power) (h : Keeps P r s) : KeepsO P r
    (execBootRomStage b0 b1 b2 b3 b4 s) := by
  unfold execBootRomStage
  split
  · exact KeepsO.of_next h
  · extract_lets +onlyGivenNames x1
    clear_value x1
    extract_lets +onlyGivenNames x2
    have h3 : Keeps P r x2 := (keeps_wr p_regs (Keeps.put h))
    clear_value x2
    extract_lets +onlyGivenNames x4
    have h5 : Keeps P r x4 := (Keeps.ite h3 (keeps_wr p_regs h3))
    clear_value x4
    split
    · exact KeepsO.of_next h5
    · split
      · exact KeepsO.of_next (keeps_raise p_evr h5)
      · split
        · rename_i y6 y7 y8 y9 y10 y11 y12
          have h13 : Keeps P r y10 := Keeps.fst y12 (keeps_loadCounters p_regs p_evr h5)
          extract_lets +onlyGivenNames x14
          clear_value x14
          exact KeepsO.of_next (Keeps.ite (keeps_tryImages p_free p_regs p_reach p_evr p_cal p_cores p_trust h13) h13)

/-- `execControllerRestart` keeps. -/
theorem keeps_execControllerRestart {P : Part → Prop} {r s : State} (p_free : P .free) (p_regs : P .regs) (p_acc : P .acc) (p_mem : P .mem) (p_reach : P .reach) (p_chan : P .chan)
    (p_deep : P .deep) (p_servo : P .servo) (p_zone : P .zone) (p_host : P .host) (p_stage : P .stage) (p_memc : P .memc) (p_evr : P .evr) (p_watch :
    P .watch) (p_cal : P .cal) (p_hsk : P .hsk) (p_cfx : P .cfx) (p_cores : P .cores) (p_trust : P .trust) (p_power : P .power) (h : Keeps P r s) :
    KeepsO P r (execControllerRestart s) := by
  unfold execControllerRestart
  split
  · exact KeepsO.of_next h
  · exact KeepsO.of_next (keeps_restartOn p_free p_regs p_acc p_mem p_reach p_chan p_deep p_servo p_zone p_host p_stage p_memc p_evr p_watch p_cal
      p_hsk p_cfx p_cores p_trust p_power h)

/-- `execDipRestart` keeps. -/
theorem keeps_execDipRestart {P : Part → Prop} {r s : State} (p_free : P .free) (p_regs : P .regs) (p_acc : P .acc) (p_mem : P .mem) (p_reach : P .reach) (p_chan : P .chan)
    (p_deep : P .deep) (p_servo : P .servo) (p_zone : P .zone) (p_host : P .host) (p_stage : P .stage) (p_memc : P .memc) (p_evr : P .evr) (p_watch :
    P .watch) (p_cal : P .cal) (p_hsk : P .hsk) (p_cfx : P .cfx) (p_cores : P .cores) (p_trust : P .trust) (p_power : P .power) (h : Keeps P r s) :
    KeepsO P r (execDipRestart s) := by
  unfold execDipRestart
  split
  · exact KeepsO.of_next h
  · extract_lets +onlyGivenNames x1
    have h2 : Keeps P r x1 := (keeps_wr p_regs h)
    clear_value x1
    split
    · exact KeepsO.of_next (keeps_restartOn p_free p_regs p_acc p_mem p_reach p_chan p_deep p_servo p_zone p_host p_stage p_memc p_evr p_watch p_cal
        p_hsk p_cfx p_cores p_trust p_power h2)
    · refine KeepsO.of_next ?_
      extract_lets +onlyGivenNames x3
      have h4 : Keeps P r x3 := (keeps_hput p_host h2)
      clear_value x3
      exact (Keeps.put h4)

/-- `execMemoryFill` keeps. -/
theorem keeps_execMemoryFill {P : Part → Prop} {r s : State} {b0 : Option (Fin 5)} (p_regs : P .regs) (p_mem : P .mem) (p_memc : P .memc) (p_evr : P .evr) (p_watch : P .watch)
    (p_cores : P .cores) (p_power : P .power) (h : Keeps P r s) : KeepsO P r (execMemoryFill b0 s) := by
  unfold execMemoryFill
  split
  · exact KeepsO.of_next h
  · extract_lets +onlyGivenNames x1
    clear_value x1
    extract_lets +onlyGivenNames x2
    refine Keeps.step (P := P) (r := r) (x := x2) ?_ ?_
    · unfold x2
      refine keeps_syncLog p_mem ?_
      exact Keeps.mkAll h le_rfl (fun _ => rfl) id id id id
    intro h3
    clear_value x2
    extract_lets +onlyGivenNames x4
    have h5 : Keeps P r x4 := (keeps_wr p_regs h3)
    clear_value x4
    extract_lets +onlyGivenNames x6
    refine Keeps.step (P := P) (r := r) (x := x6) ?_ ?_
    · unfold x6
      split
      · exact (keeps_wr p_regs h5)
      · exact (keeps_raise p_evr (keeps_wr p_regs (keeps_wr p_regs h5)))
    intro h7
    clear_value x6
    exact KeepsO.of_next (keeps_enterP4 p_regs p_watch p_cores p_power h7)

/-- `execP1Sample` keeps. -/
theorem keeps_execP1Sample {P : Part → Prop} {r s : State} {b0 : Bool} {b1 : Bool} {b2 : Bool} {b3 : Fin 16} {b4 : Fin 4} {b5 : Fin 4} {b6 : Bool} (p_time : P .time) (p_regs :
    P .regs) (p_memc : P .memc) (p_watch : P .watch) (h : Keeps P r s) : KeepsO P r (execP1Sample b0 b1 b2 b3 b4 b5 b6 s) := by
  unfold execP1Sample
  split
  · exact KeepsO.of_next h
  · extract_lets +onlyGivenNames x1
    refine Keeps.step (P := P) (r := r) (x := x1) ?_ ?_
    · unfold x1
      refine Keeps.foldl ?_ fun y3 y4 h5 => ?_
      · exact h
      · exact (keeps_toWork p_regs h5)
    intro h2
    clear_value x1
    extract_lets +onlyGivenNames x6
    have h7 : Keeps P r x6 := (keeps_wrs p_regs h2)
    clear_value x6
    extract_lets +onlyGivenNames x8
    have h9 : Keeps P r x8 := (Keeps.ite (keeps_wr p_regs h7) h7)
    clear_value x8
    refine KeepsO.of_next ?_
    refine keeps_watchUpd p_watch ?_
    exact Keeps.mkAll h9 le_rfl id id id id (fun _ => by decide)

/-- `execP2Lock` keeps. -/
theorem keeps_execP2Lock {P : Part → Prop} {r s : State} (p_regs : P .regs) (p_cfl : P .cfl) (p_hsk : P .hsk) (h : Keeps P r s) : KeepsO P r (execP2Lock s) := by
  unfold execP2Lock
  split
  · exact KeepsO.of_next h
  · extract_lets +onlyGivenNames x1
    have h2 : Keeps P r x1 := (keeps_cflPut p_cfl (keeps_hskPut p_hsk h))
    clear_value x1
    exact KeepsO.of_next (keeps_wrs p_regs h2)

/-- `execPowerLossDeclare` keeps. -/
theorem keeps_execPowerLossDeclare {P : Part → Prop} {r s : State} {b0 : Fin 3} {b1 : BitVec 16} {b2 : Fin 24} {b3 : BitVec 4} (p_free : P .free) (p_regs : P .regs) (p_acc : P .acc)
    (p_mem : P .mem) (p_reach : P .reach) (p_chan : P .chan) (p_deep : P .deep) (p_servo : P .servo) (p_medium : P .medium) (p_zone : P .zone)
    (p_host : P .host) (p_stage : P .stage) (p_memc : P .memc) (p_evr : P .evr) (p_flash : P .flash) (p_cfl : P .cfl) (p_spin : P .spin) (p_watch : P
    .watch) (p_cfx : P .cfx) (p_trust : P .trust) (h : Keeps P r s) : KeepsO P r (execPowerLossDeclare b0 b1 b2 b3 s) := by
  unfold execPowerLossDeclare
  extract_lets +onlyGivenNames x1
  clear_value x1
  split
  · exact KeepsO.of_next (keeps_declare p_free p_regs p_acc p_mem p_reach p_chan p_deep p_servo p_medium p_zone p_host p_stage p_memc p_evr p_flash
      p_cfl p_spin p_watch p_cfx p_trust h)
  · exact KeepsO.of_next h

/-- `execPowerOn` keeps. -/
theorem keeps_execPowerOn {P : Part → Prop} {r s : State} (p_time : P .time) (p_answer : P .answer) (p_free : P .free) (p_regs : P .regs) (p_acc : P .acc) (p_mem : P .mem)
    (p_reach : P .reach) (p_chan : P .chan) (p_preamp : P .preamp) (p_deep : P .deep) (p_servo : P .servo) (p_medium : P .medium) (p_zone : P .zone)
    (p_host : P .host) (p_stage : P .stage) (p_memc : P .memc) (p_evr : P .evr) (p_weir : P .weir) (p_sluice : P .sluice) (p_bkw : P .bkw) (p_flash :
    P .flash) (p_cfl : P .cfl) (p_spin : P .spin) (p_watch : P .watch) (p_cal : P .cal) (p_hsk : P .hsk) (p_cfx : P .cfx) (p_cores : P .cores)
    (p_trust : P .trust) (p_power : P .power) (h : Keeps P r s) : KeepsO P r (execPowerOn s) := by
  unfold execPowerOn
  split
  · exact KeepsO.of_next h
  · split
    · exact KeepsO.of_next (Keeps.put h)
    · exact KeepsO.of_next (keeps_beginStart p_time p_answer p_free p_regs p_acc p_mem p_reach p_chan p_preamp p_deep p_servo p_medium p_zone p_host
        p_stage p_memc p_evr p_weir p_sluice p_bkw p_flash p_cfl p_spin p_watch p_cal p_hsk p_cfx p_cores p_trust p_power h)

/-- `execRailOutOfRange` keeps. -/
theorem keeps_execRailOutOfRange {P : Part → Prop} {r s : State} {b0 : Fin 24} (p_free : P .free) (p_regs : P .regs) (p_acc : P .acc) (p_mem : P .mem) (p_reach : P .reach) (p_chan :
    P .chan) (p_deep : P .deep) (p_servo : P .servo) (p_medium : P .medium) (p_zone : P .zone) (p_host : P .host) (p_stage : P .stage) (p_memc : P
    .memc) (p_evr : P .evr) (p_flash : P .flash) (p_cfl : P .cfl) (p_spin : P .spin) (p_watch : P .watch) (p_cfx : P .cfx) (p_trust : P .trust)
    (p_power : P .power) (h : Keeps P r s) : KeepsO P r (execRailOutOfRange b0 s) := by
  unfold execRailOutOfRange
  split
  · exact KeepsO.of_next h
  · extract_lets +onlyGivenNames x1
    clear_value x1
    extract_lets +onlyGivenNames x2
    have h3 : Keeps P r x2 := (Keeps.put h)
    clear_value x2
    extract_lets +onlyGivenNames x4
    have h5 : Keeps P r x4 := (Keeps.ite (keeps_declare p_free p_regs p_acc p_mem p_reach p_chan p_deep p_servo p_medium p_zone p_host p_stage p_memc
        p_evr p_flash p_cfl p_spin p_watch p_cfx p_trust (keeps_tookFree p_free h3)) h3)
    clear_value x4
    refine KeepsO.of_next ?_
    refine Keeps.foldl ?_ fun y6 y7 h8 => ?_
    · exact h5
    · exact (keeps_setUnit p_regs h8)

/-- `execSysRstLow` keeps. -/
theorem keeps_execSysRstLow {P : Part → Prop} {r s : State} (p_free : P .free) (p_regs : P .regs) (p_acc : P .acc) (p_mem : P .mem) (p_reach : P .reach) (p_chan : P .chan)
    (p_deep : P .deep) (p_servo : P .servo) (p_medium : P .medium) (p_zone : P .zone) (p_host : P .host) (p_stage : P .stage) (p_memc : P .memc)
    (p_evr : P .evr) (p_flash : P .flash) (p_cfl : P .cfl) (p_spin : P .spin) (p_watch : P .watch) (p_cfx : P .cfx) (p_trust : P .trust) (p_power : P
    .power) (h : Keeps P r s) : KeepsO P r (execSysRstLow s) := by
  unfold execSysRstLow
  extract_lets +onlyGivenNames x1
  clear_value x1
  extract_lets +onlyGivenNames x2
  have h3 : Keeps P r x2 := (Keeps.put h)
  clear_value x2
  split
  · exact KeepsO.of_next (keeps_declare p_free p_regs p_acc p_mem p_reach p_chan p_deep p_servo p_medium p_zone p_host p_stage p_memc p_evr p_flash
      p_cfl p_spin p_watch p_cfx p_trust (keeps_tookFree p_free h3))
  · exact KeepsO.of_next h3

/-- `execSysRstRelease` keeps. -/
theorem keeps_execSysRstRelease {P : Part → Prop} {r s : State} (p_time : P .time) (p_answer : P .answer) (p_free : P .free) (p_regs : P .regs) (p_acc : P .acc) (p_mem : P .mem)
    (p_reach : P .reach) (p_chan : P .chan) (p_preamp : P .preamp) (p_deep : P .deep) (p_servo : P .servo) (p_medium : P .medium) (p_zone : P .zone)
    (p_host : P .host) (p_stage : P .stage) (p_memc : P .memc) (p_evr : P .evr) (p_weir : P .weir) (p_sluice : P .sluice) (p_bkw : P .bkw) (p_flash :
    P .flash) (p_cfl : P .cfl) (p_spin : P .spin) (p_watch : P .watch) (p_cal : P .cal) (p_hsk : P .hsk) (p_cfx : P .cfx) (p_cores : P .cores)
    (p_trust : P .trust) (p_power : P .power) (h : Keeps P r s) : KeepsO P r (execSysRstRelease s) := by
  unfold execSysRstRelease
  split
  · exact KeepsO.of_next h
  · extract_lets +onlyGivenNames x1
    clear_value x1
    extract_lets +onlyGivenNames x2
    have h3 : Keeps P r x2 := (Keeps.put h)
    clear_value x2
    split
    · split
      · exact KeepsO.of_next (keeps_beginStart p_time p_answer p_free p_regs p_acc p_mem p_reach p_chan p_preamp p_deep p_servo p_medium p_zone
          p_host p_stage p_memc p_evr p_weir p_sluice p_bkw p_flash p_cfl p_spin p_watch p_cal p_hsk p_cfx p_cores p_trust p_power h3)
      · exact KeepsO.of_next h3
    · split
      · exact KeepsO.of_next (keeps_beginStart p_time p_answer p_free p_regs p_acc p_mem p_reach p_chan p_preamp p_deep p_servo p_medium p_zone
          p_host p_stage p_memc p_evr p_weir p_sluice p_bkw p_flash p_cfl p_spin p_watch p_cal p_hsk p_cfx p_cores p_trust p_power h3)
      · exact KeepsO.of_next h3

/-- `execVmotArmed` keeps. -/
theorem keeps_execVmotArmed {P : Part → Prop} {r s : State} (p_regs : P .regs) (h : Keeps P r s) : KeepsO P r (execVmotArmed s) := by
  unfold execVmotArmed
  split
  · exact KeepsO.of_next h
  · exact KeepsO.of_next (keeps_wr p_regs h)

end Sys2Proof.Machine
end

