-- ==== Sys2Proof/Laws/KeepsDispatch.lean ====
section
/-! SUPPORT. What the operations of Machine/Dispatch.lean keep. -/

namespace Sys2Proof.Machine

set_option Elab.async false

variable {α : Type} {l : List α}

theorem in0 {a  : α} : a ∈ a :: l := by simp
theorem in1 {a b0 : α} : a ∈ b0 :: a :: l := by simp
theorem in2 {a b0 b1 : α} : a ∈ b0 :: b1 :: a :: l := by simp
theorem in3 {a b0 b1 b2 : α} : a ∈ b0 :: b1 :: b2 :: a :: l := by simp
theorem in4 {a b0 b1 b2 b3 : α} : a ∈ b0 :: b1 :: b2 :: b3 :: a :: l := by simp
theorem in5 {a b0 b1 b2 b3 b4 : α} : a ∈ b0 :: b1 :: b2 :: b3 :: b4 :: a :: l := by simp
theorem in6 {a b0 b1 b2 b3 b4 b5 : α} : a ∈ b0 :: b1 :: b2 :: b3 :: b4 :: b5 :: a :: l := by simp
theorem in7 {a b0 b1 b2 b3 b4 b5 b6 : α} : a ∈ b0 :: b1 :: b2 :: b3 :: b4 :: b5 :: b6 :: a :: l := by simp
theorem in8 {a b0 b1 b2 b3 b4 b5 b6 b7 : α} : a ∈ b0 :: b1 :: b2 :: b3 :: b4 :: b5 :: b6 :: b7 :: a :: l := by simp
theorem in9 {a b0 b1 b2 b3 b4 b5 b6 b7 b8 : α} : a ∈ b0 :: b1 :: b2 :: b3 :: b4 :: b5 :: b6 :: b7 :: b8 :: a :: l := by simp
theorem in10 {a b0 b1 b2 b3 b4 b5 b6 b7 b8 b9 : α} : a ∈ b0 :: b1 :: b2 :: b3 :: b4 :: b5 :: b6 :: b7 :: b8 :: b9 :: a :: l := by simp
theorem in11 {a b0 b1 b2 b3 b4 b5 b6 b7 b8 b9 b10 : α} : a ∈ b0 :: b1 :: b2 :: b3 :: b4 :: b5 :: b6 :: b7 :: b8 :: b9 :: b10 :: a :: l := by simp
theorem in12 {a b0 b1 b2 b3 b4 b5 b6 b7 b8 b9 b10 b11 : α} : a ∈ b0 :: b1 :: b2 :: b3 :: b4 :: b5 :: b6 :: b7 :: b8 :: b9 :: b10 :: b11 :: a :: l := by simp
theorem in13 {a b0 b1 b2 b3 b4 b5 b6 b7 b8 b9 b10 b11 b12 : α} : a ∈ b0 :: b1 :: b2 :: b3 :: b4 :: b5 :: b6 :: b7 :: b8 :: b9 :: b10 :: b11 :: b12 :: a :: l := by simp
theorem in14 {a b0 b1 b2 b3 b4 b5 b6 b7 b8 b9 b10 b11 b12 b13 : α} : a ∈ b0 :: b1 :: b2 :: b3 :: b4 :: b5 :: b6 :: b7 :: b8 :: b9 :: b10 :: b11 :: b12 :: b13 :: a :: l := by simp
theorem in15 {a b0 b1 b2 b3 b4 b5 b6 b7 b8 b9 b10 b11 b12 b13 b14 : α} : a ∈ b0 :: b1 :: b2 :: b3 :: b4 :: b5 :: b6 :: b7 :: b8 :: b9 :: b10 :: b11 :: b12 :: b13 :: b14 :: a :: l := by simp
theorem in16 {a b0 b1 b2 b3 b4 b5 b6 b7 b8 b9 b10 b11 b12 b13 b14 b15 : α} : a ∈ b0 :: b1 :: b2 :: b3 :: b4 :: b5 :: b6 :: b7 :: b8 :: b9 :: b10 :: b11 :: b12 :: b13 :: b14 :: b15 :: a :: l := by simp
theorem in17 {a b0 b1 b2 b3 b4 b5 b6 b7 b8 b9 b10 b11 b12 b13 b14 b15 b16 : α} : a ∈ b0 :: b1 :: b2 :: b3 :: b4 :: b5 :: b6 :: b7 :: b8 :: b9 :: b10 :: b11 :: b12 :: b13 :: b14 :: b15 :: b16 :: a :: l := by simp
theorem in18 {a b0 b1 b2 b3 b4 b5 b6 b7 b8 b9 b10 b11 b12 b13 b14 b15 b16 b17 : α} : a ∈ b0 :: b1 :: b2 :: b3 :: b4 :: b5 :: b6 :: b7 :: b8 :: b9 :: b10 :: b11 :: b12 :: b13 :: b14 :: b15 :: b16 :: b17 :: a :: l := by simp
theorem in19 {a b0 b1 b2 b3 b4 b5 b6 b7 b8 b9 b10 b11 b12 b13 b14 b15 b16 b17 b18 : α} : a ∈ b0 :: b1 :: b2 :: b3 :: b4 :: b5 :: b6 :: b7 :: b8 :: b9 :: b10 :: b11 :: b12 :: b13 :: b14 :: b15 :: b16 :: b17 :: b18 :: a :: l := by simp
theorem in20 {a b0 b1 b2 b3 b4 b5 b6 b7 b8 b9 b10 b11 b12 b13 b14 b15 b16 b17 b18 b19 : α} : a ∈ b0 :: b1 :: b2 :: b3 :: b4 :: b5 :: b6 :: b7 :: b8 :: b9 :: b10 :: b11 :: b12 :: b13 :: b14 :: b15 :: b16 :: b17 :: b18 :: b19 :: a :: l := by simp
theorem in21 {a b0 b1 b2 b3 b4 b5 b6 b7 b8 b9 b10 b11 b12 b13 b14 b15 b16 b17 b18 b19 b20 : α} : a ∈ b0 :: b1 :: b2 :: b3 :: b4 :: b5 :: b6 :: b7 :: b8 :: b9 :: b10 :: b11 :: b12 :: b13 :: b14 :: b15 :: b16 :: b17 :: b18 :: b19 :: b20 :: a :: l := by simp
theorem in22 {a b0 b1 b2 b3 b4 b5 b6 b7 b8 b9 b10 b11 b12 b13 b14 b15 b16 b17 b18 b19 b20 b21 : α} : a ∈ b0 :: b1 :: b2 :: b3 :: b4 :: b5 :: b6 :: b7 :: b8 :: b9 :: b10 :: b11 :: b12 :: b13 :: b14 :: b15 :: b16 :: b17 :: b18 :: b19 :: b20 :: b21 :: a :: l := by simp
theorem in23 {a b0 b1 b2 b3 b4 b5 b6 b7 b8 b9 b10 b11 b12 b13 b14 b15 b16 b17 b18 b19 b20 b21 b22 : α} : a ∈ b0 :: b1 :: b2 :: b3 :: b4 :: b5 :: b6 :: b7 :: b8 :: b9 :: b10 :: b11 :: b12 :: b13 :: b14 :: b15 :: b16 :: b17 :: b18 :: b19 :: b20 :: b21 :: b22 :: a :: l := by simp
theorem in24 {a b0 b1 b2 b3 b4 b5 b6 b7 b8 b9 b10 b11 b12 b13 b14 b15 b16 b17 b18 b19 b20 b21 b22 b23 : α} : a ∈ b0 :: b1 :: b2 :: b3 :: b4 :: b5 :: b6 :: b7 :: b8 :: b9 :: b10 :: b11 :: b12 :: b13 :: b14 :: b15 :: b16 :: b17 :: b18 :: b19 :: b20 :: b21 :: b22 :: b23 :: a :: l := by simp
theorem in25 {a b0 b1 b2 b3 b4 b5 b6 b7 b8 b9 b10 b11 b12 b13 b14 b15 b16 b17 b18 b19 b20 b21 b22 b23 b24 : α} : a ∈ b0 :: b1 :: b2 :: b3 :: b4 :: b5 :: b6 :: b7 :: b8 :: b9 :: b10 :: b11 :: b12 :: b13 :: b14 :: b15 :: b16 :: b17 :: b18 :: b19 :: b20 :: b21 :: b22 :: b23 :: b24 :: a :: l := by simp
theorem in26 {a b0 b1 b2 b3 b4 b5 b6 b7 b8 b9 b10 b11 b12 b13 b14 b15 b16 b17 b18 b19 b20 b21 b22 b23 b24 b25 : α} : a ∈ b0 :: b1 :: b2 :: b3 :: b4 :: b5 :: b6 :: b7 :: b8 :: b9 :: b10 :: b11 :: b12 :: b13 :: b14 :: b15 :: b16 :: b17 :: b18 :: b19 :: b20 :: b21 :: b22 :: b23 :: b24 :: b25 :: a :: l := by simp
theorem in27 {a b0 b1 b2 b3 b4 b5 b6 b7 b8 b9 b10 b11 b12 b13 b14 b15 b16 b17 b18 b19 b20 b21 b22 b23 b24 b25 b26 : α} : a ∈ b0 :: b1 :: b2 :: b3 :: b4 :: b5 :: b6 :: b7 :: b8 :: b9 :: b10 :: b11 :: b12 :: b13 :: b14 :: b15 :: b16 :: b17 :: b18 :: b19 :: b20 :: b21 :: b22 :: b23 :: b24 :: b25 :: b26 :: a :: l := by simp
theorem in28 {a b0 b1 b2 b3 b4 b5 b6 b7 b8 b9 b10 b11 b12 b13 b14 b15 b16 b17 b18 b19 b20 b21 b22 b23 b24 b25 b26 b27 : α} : a ∈ b0 :: b1 :: b2 :: b3 :: b4 :: b5 :: b6 :: b7 :: b8 :: b9 :: b10 :: b11 :: b12 :: b13 :: b14 :: b15 :: b16 :: b17 :: b18 :: b19 :: b20 :: b21 :: b22 :: b23 :: b24 :: b25 :: b26 :: b27 :: a :: l := by simp
theorem in29 {a b0 b1 b2 b3 b4 b5 b6 b7 b8 b9 b10 b11 b12 b13 b14 b15 b16 b17 b18 b19 b20 b21 b22 b23 b24 b25 b26 b27 b28 : α} : a ∈ b0 :: b1 :: b2 :: b3 :: b4 :: b5 :: b6 :: b7 :: b8 :: b9 :: b10 :: b11 :: b12 :: b13 :: b14 :: b15 :: b16 :: b17 :: b18 :: b19 :: b20 :: b21 :: b22 :: b23 :: b24 :: b25 :: b26 :: b27 :: b28 :: a :: l := by simp
theorem in30 {a b0 b1 b2 b3 b4 b5 b6 b7 b8 b9 b10 b11 b12 b13 b14 b15 b16 b17 b18 b19 b20 b21 b22 b23 b24 b25 b26 b27 b28 b29 : α} : a ∈ b0 :: b1 :: b2 :: b3 :: b4 :: b5 :: b6 :: b7 :: b8 :: b9 :: b10 :: b11 :: b12 :: b13 :: b14 :: b15 :: b16 :: b17 :: b18 :: b19 :: b20 :: b21 :: b22 :: b23 :: b24 :: b25 :: b26 :: b27 :: b28 :: b29 :: a :: l := by simp

set_option maxRecDepth 2000 in
/-- Every command keeps, changing only the parts of the state named for it: where `exec` answers a next state, that state is kept. -/
theorem keeps_exec {P : Part → Prop} {r s : State} (h : Keeps P r s) (c : Instr) (hP : ∀ p ∈ touched c, P p) : KeepsO P r (exec c s) := by
  cases c
  · exact keeps_execRegisterWrite (hP _ in0) (hP _ in1) (hP _ in2) (hP _ in3) (hP _ in4) (hP _ in5) (hP _ in6) (hP _ in7) (hP _ in8) (hP _ in9) (hP _
      in10) (hP _ in11) (hP _ in12) (hP _ in13) (hP _ in14) (hP _ in15) (hP _ in16) (hP _ in17) (hP _ in18) (hP _ in19) (hP _ in20) (hP _ in21) (hP _
      in22) (hP _ in23) (hP _ in24) (hP _ in25) (hP _ in26) h
  · exact keeps_execSlotQuiesce (hP _ in0) (hP _ in1) (hP _ in2) (hP _ in3) (hP _ in4) (hP _ in5) (hP _ in6) (hP _ in7) (hP _ in8) (hP _ in9) (hP _
      in10) (hP _ in11) (hP _ in12) (hP _ in13) h
  · exact keeps_execSlotReset (hP _ in0) (hP _ in1) (hP _ in2) (hP _ in3) (hP _ in4) (hP _ in5) (hP _ in6) (hP _ in7) (hP _ in8) (hP _ in9) (hP _
      in10) (hP _ in11) (hP _ in12) (hP _ in13) (hP _ in14) (hP _ in15) (hP _ in16) (hP _ in17) (hP _ in18) (hP _ in19) h
  · exact keeps_execSlotDegrade (hP _ in0) (hP _ in1) h
  · exact keeps_execUnitResetEnd (hP _ in0) (hP _ in1) (hP _ in2) (hP _ in3) (hP _ in4) (hP _ in5) (hP _ in6) (hP _ in7) (hP _ in8) (hP _ in9) (hP _
      in10) (hP _ in11) (hP _ in12) (hP _ in13) (hP _ in14) (hP _ in15) (hP _ in16) (hP _ in17) (hP _ in18) (hP _ in19) (hP _ in20) (hP _ in21) (hP _
      in22) (hP _ in23) (hP _ in24) (hP _ in25) (hP _ in26) h
  · exact keeps_execResetAccessTimeout (hP _ in0) (hP _ in1) (hP _ in2) (hP _ in3) (hP _ in4) (hP _ in5) (hP _ in6) (hP _ in7) (hP _ in8) (hP _ in9)
      (hP _ in10) (hP _ in11) (hP _ in12) (hP _ in13) (hP _ in14) (hP _ in15) (hP _ in16) (hP _ in17) (hP _ in18) (hP _ in19) (hP _ in20) (hP _ in21)
      (hP _ in22) (hP _ in23) (hP _ in24) (hP _ in25) (hP _ in26) h
  · exact keeps_execCrossingBufferFault (hP _ in0) (hP _ in1) (hP _ in2) (hP _ in3) (hP _ in4) (hP _ in5) (hP _ in6) (hP _ in7) (hP _ in8) (hP _ in9)
      (hP _ in10) (hP _ in11) (hP _ in12) (hP _ in13) (hP _ in14) (hP _ in15) h
  · exact keeps_execIndexField (hP _ in0) (hP _ in1) (hP _ in2) (hP _ in3) (hP _ in4) (hP _ in5) (hP _ in6) (hP _ in7) (hP _ in8) (hP _ in9) (hP _
      in10) (hP _ in11) (hP _ in12) (hP _ in13) h
  · exact keeps_execIndexFieldMissed (hP _ in0) (hP _ in1) (hP _ in2) (hP _ in3) (hP _ in4) (hP _ in5) (hP _ in6) (hP _ in7) (hP _ in8) (hP _ in9)
      (hP _ in10) (hP _ in11) (hP _ in12) (hP _ in13) h
  · exact keeps_execBankWord (hP _ in0) (hP _ in1) (hP _ in2) (hP _ in3) (hP _ in4) (hP _ in5) (hP _ in6) (hP _ in7) (hP _ in8) (hP _ in9) (hP _
      in10) (hP _ in11) (hP _ in12) (hP _ in13) h
  · exact keeps_execRegionLoad (hP _ in0) (hP _ in1) (hP _ in2) (hP _ in3) (hP _ in4) (hP _ in5) (hP _ in6) (hP _ in7) (hP _ in8) (hP _ in9) (hP _
      in10) (hP _ in11) (hP _ in12) (hP _ in13) h
  · exact keeps_execRegionTableStore (hP _ in0) (hP _ in1) (hP _ in2) (hP _ in3) (hP _ in4) (hP _ in5) (hP _ in6) (hP _ in7) (hP _ in8) (hP _ in9)
      (hP _ in10) (hP _ in11) (hP _ in12) (hP _ in13) h
  · exact keeps_execHalt (hP _ in0) (hP _ in1) (hP _ in2) (hP _ in3) (hP _ in4) (hP _ in5) (hP _ in6) (hP _ in7) (hP _ in8) (hP _ in9) (hP _ in10)
      (hP _ in11) (hP _ in12) (hP _ in13) h
  · exact keeps_execB (hP _ in0) (hP _ in1) (hP _ in2) (hP _ in3) (hP _ in4) (hP _ in5) (hP _ in6) (hP _ in7) (hP _ in8) (hP _ in9) (hP _ in10) (hP _
      in11) (hP _ in12) (hP _ in13) h
  · exact keeps_execBr (hP _ in0) (hP _ in1) (hP _ in2) (hP _ in3) (hP _ in4) (hP _ in5) (hP _ in6) (hP _ in7) (hP _ in8) (hP _ in9) (hP _ in10) (hP
      _ in11) (hP _ in12) (hP _ in13) h
  · exact keeps_execCall (hP _ in0) (hP _ in1) (hP _ in2) (hP _ in3) (hP _ in4) (hP _ in5) (hP _ in6) (hP _ in7) (hP _ in8) (hP _ in9) (hP _ in10)
      (hP _ in11) (hP _ in12) (hP _ in13) h
  · exact keeps_execRet (hP _ in0) (hP _ in1) (hP _ in2) (hP _ in3) (hP _ in4) (hP _ in5) (hP _ in6) (hP _ in7) (hP _ in8) (hP _ in9) (hP _ in10) (hP
      _ in11) (hP _ in12) (hP _ in13) h
  · exact keeps_execWait (hP _ in0) (hP _ in1) (hP _ in2) (hP _ in3) (hP _ in4) (hP _ in5) (hP _ in6) (hP _ in7) (hP _ in8) (hP _ in9) (hP _ in10)
      (hP _ in11) (hP _ in12) (hP _ in13) h
  · exact keeps_execWaitTimeout (hP _ in0) (hP _ in1) (hP _ in2) (hP _ in3) (hP _ in4) (hP _ in5) (hP _ in6) (hP _ in7) (hP _ in8) (hP _ in9) (hP _
      in10) (hP _ in11) (hP _ in12) (hP _ in13) h
  · exact keeps_execTrap (hP _ in0) (hP _ in1) (hP _ in2) (hP _ in3) (hP _ in4) (hP _ in5) (hP _ in6) (hP _ in7) (hP _ in8) (hP _ in9) (hP _ in10)
      (hP _ in11) (hP _ in12) (hP _ in13) h
  · exact keeps_execAdd (hP _ in0) (hP _ in1) (hP _ in2) (hP _ in3) (hP _ in4) (hP _ in5) (hP _ in6) (hP _ in7) (hP _ in8) (hP _ in9) (hP _ in10) (hP
      _ in11) (hP _ in12) (hP _ in13) h
  · exact keeps_execSub (hP _ in0) (hP _ in1) (hP _ in2) (hP _ in3) (hP _ in4) (hP _ in5) (hP _ in6) (hP _ in7) (hP _ in8) (hP _ in9) (hP _ in10) (hP
      _ in11) (hP _ in12) (hP _ in13) h
  · exact keeps_execAnd (hP _ in0) (hP _ in1) (hP _ in2) (hP _ in3) (hP _ in4) (hP _ in5) (hP _ in6) (hP _ in7) (hP _ in8) (hP _ in9) (hP _ in10) (hP
      _ in11) (hP _ in12) (hP _ in13) h
  · exact keeps_execOr (hP _ in0) (hP _ in1) (hP _ in2) (hP _ in3) (hP _ in4) (hP _ in5) (hP _ in6) (hP _ in7) (hP _ in8) (hP _ in9) (hP _ in10) (hP
      _ in11) (hP _ in12) (hP _ in13) h
  · exact keeps_execXor (hP _ in0) (hP _ in1) (hP _ in2) (hP _ in3) (hP _ in4) (hP _ in5) (hP _ in6) (hP _ in7) (hP _ in8) (hP _ in9) (hP _ in10) (hP
      _ in11) (hP _ in12) (hP _ in13) h
  · exact keeps_execShl (hP _ in0) (hP _ in1) (hP _ in2) (hP _ in3) (hP _ in4) (hP _ in5) (hP _ in6) (hP _ in7) (hP _ in8) (hP _ in9) (hP _ in10) (hP
      _ in11) (hP _ in12) (hP _ in13) h
  · exact keeps_execShr (hP _ in0) (hP _ in1) (hP _ in2) (hP _ in3) (hP _ in4) (hP _ in5) (hP _ in6) (hP _ in7) (hP _ in8) (hP _ in9) (hP _ in10) (hP
      _ in11) (hP _ in12) (hP _ in13) h
  · exact keeps_execCmp (hP _ in0) (hP _ in1) (hP _ in2) (hP _ in3) (hP _ in4) (hP _ in5) (hP _ in6) (hP _ in7) (hP _ in8) (hP _ in9) (hP _ in10) (hP
      _ in11) (hP _ in12) (hP _ in13) h
  · exact keeps_execMov (hP _ in0) (hP _ in1) (hP _ in2) (hP _ in3) (hP _ in4) (hP _ in5) (hP _ in6) (hP _ in7) (hP _ in8) (hP _ in9) (hP _ in10) (hP
      _ in11) (hP _ in12) (hP _ in13) h
  · exact keeps_execLdi (hP _ in0) (hP _ in1) (hP _ in2) (hP _ in3) (hP _ in4) (hP _ in5) (hP _ in6) (hP _ in7) (hP _ in8) (hP _ in9) (hP _ in10) (hP
      _ in11) (hP _ in12) (hP _ in13) h
  · exact keeps_execLdh (hP _ in0) (hP _ in1) (hP _ in2) (hP _ in3) (hP _ in4) (hP _ in5) (hP _ in6) (hP _ in7) (hP _ in8) (hP _ in9) (hP _ in10) (hP
      _ in11) (hP _ in12) (hP _ in13) h
  · exact keeps_execLd (hP _ in0) (hP _ in1) (hP _ in2) (hP _ in3) (hP _ in4) (hP _ in5) (hP _ in6) (hP _ in7) (hP _ in8) (hP _ in9) (hP _ in10) (hP
      _ in11) (hP _ in12) (hP _ in13) h
  · exact keeps_execSt (hP _ in0) (hP _ in1) (hP _ in2) (hP _ in3) (hP _ in4) (hP _ in5) (hP _ in6) (hP _ in7) (hP _ in8) (hP _ in9) (hP _ in10) (hP
      _ in11) (hP _ in12) (hP _ in13) h
  · exact keeps_execSeek (hP _ in0) (hP _ in1) (hP _ in2) (hP _ in3) (hP _ in4) (hP _ in5) (hP _ in6) (hP _ in7) (hP _ in8) (hP _ in9) (hP _ in10)
      (hP _ in11) (hP _ in12) (hP _ in13) h
  · exact keeps_execFollow (hP _ in0) (hP _ in1) (hP _ in2) (hP _ in3) (hP _ in4) (hP _ in5) (hP _ in6) (hP _ in7) (hP _ in8) (hP _ in9) (hP _ in10)
      (hP _ in11) (hP _ in12) (hP _ in13) h
  · exact keeps_execOffset (hP _ in0) (hP _ in1) (hP _ in2) (hP _ in3) (hP _ in4) (hP _ in5) (hP _ in6) (hP _ in7) (hP _ in8) (hP _ in9) (hP _ in10)
      (hP _ in11) (hP _ in12) (hP _ in13) h
  · exact keeps_execSettle (b3 := 0) (hP _ in0) (hP _ in1) (hP _ in2) (hP _ in3) (hP _ in4) (hP _ in5) (hP _ in6) (hP _ in7) (hP _ in8) (hP _ in9)
      (hP _ in10) (hP _ in11) (hP _ in12) (hP _ in13) h
  · exact keeps_execHead (hP _ in0) (hP _ in1) (hP _ in2) (hP _ in3) (hP _ in4) (hP _ in5) (hP _ in6) (hP _ in7) (hP _ in8) (hP _ in9) (hP _ in10)
      (hP _ in11) (hP _ in12) (hP _ in13) h
  · exact keeps_execRds (hP _ in0) (hP _ in1) (hP _ in2) (hP _ in3) (hP _ in4) (hP _ in5) (hP _ in6) (hP _ in7) (hP _ in8) (hP _ in9) (hP _ in10) (hP
      _ in11) (hP _ in12) (hP _ in13) h
  · exact keeps_execWrs (hP _ in0) (hP _ in1) (hP _ in2) (hP _ in3) (hP _ in4) (hP _ in5) (hP _ in6) (hP _ in7) (hP _ in8) (hP _ in9) (hP _ in10) (hP
      _ in11) (hP _ in12) (hP _ in13) h
  · exact keeps_execVfy (hP _ in0) (hP _ in1) (hP _ in2) (hP _ in3) (hP _ in4) (hP _ in5) (hP _ in6) (hP _ in7) (hP _ in8) (hP _ in9) (hP _ in10) (hP
      _ in11) (hP _ in12) (hP _ in13) h
  · exact keeps_execSkipto (hP _ in0) (hP _ in1) (hP _ in2) (hP _ in3) (hP _ in4) (hP _ in5) (hP _ in6) (hP _ in7) (hP _ in8) (hP _ in9) (hP _ in10)
      (hP _ in11) (hP _ in12) (hP _ in13) h
  · exact keeps_execScan (hP _ in0) (hP _ in1) (hP _ in2) (hP _ in3) (hP _ in4) (hP _ in5) (hP _ in6) (hP _ in7) (hP _ in8) (hP _ in9) (hP _ in10)
      (hP _ in11) (hP _ in12) (hP _ in13) h
  · exact keeps_execRaw (hP _ in0) (hP _ in1) (hP _ in2) (hP _ in3) (hP _ in4) (hP _ in5) (hP _ in6) (hP _ in7) (hP _ in8) (hP _ in9) (hP _ in10) (hP
      _ in11) (hP _ in12) (hP _ in13) h
  · exact keeps_execAsp (hP _ in0) (hP _ in1) (hP _ in2) (hP _ in3) (hP _ in4) (hP _ in5) (hP _ in6) (hP _ in7) (hP _ in8) (hP _ in9) (hP _ in10) (hP
      _ in11) (hP _ in12) (hP _ in13) h
  · exact keeps_execHtr (hP _ in0) (hP _ in1) (hP _ in2) (hP _ in3) (hP _ in4) (hP _ in5) (hP _ in6) (hP _ in7) (hP _ in8) (hP _ in9) (hP _ in10) (hP
      _ in11) (hP _ in12) (hP _ in13) h
  · exact keeps_execBuf (hP _ in0) (hP _ in1) (hP _ in2) (hP _ in3) (hP _ in4) (hP _ in5) (hP _ in6) (hP _ in7) (hP _ in8) (hP _ in9) (hP _ in10) (hP
      _ in11) (hP _ in12) (hP _ in13) h
  · exact keeps_execSlu (hP _ in0) (hP _ in1) (hP _ in2) (hP _ in3) (hP _ in4) (hP _ in5) (hP _ in6) (hP _ in7) (hP _ in8) (hP _ in9) (hP _ in10) (hP
      _ in11) (hP _ in12) (hP _ in13) (hP _ in14) h
  · exact keeps_execFence (hP _ in0) (hP _ in1) (hP _ in2) (hP _ in3) (hP _ in4) (hP _ in5) (hP _ in6) (hP _ in7) (hP _ in8) (hP _ in9) (hP _ in10)
      (hP _ in11) (hP _ in12) (hP _ in13) h
  · exact keeps_execPost (hP _ in0) (hP _ in1) (hP _ in2) (hP _ in3) (hP _ in4) (hP _ in5) (hP _ in6) (hP _ in7) (hP _ in8) (hP _ in9) (hP _ in10)
      (hP _ in11) (hP _ in12) (hP _ in13) h
  · exact keeps_execSig (hP _ in0) (hP _ in1) (hP _ in2) (hP _ in3) (hP _ in4) (hP _ in5) (hP _ in6) (hP _ in7) (hP _ in8) (hP _ in9) (hP _ in10) (hP
      _ in11) (hP _ in12) (hP _ in13) h
  · exact keeps_execJoin (hP _ in0) (hP _ in1) (hP _ in2) (hP _ in3) (hP _ in4) (hP _ in5) (hP _ in6) (hP _ in7) (hP _ in8) (hP _ in9) (hP _ in10)
      (hP _ in11) (hP _ in12) (hP _ in13) h
  · exact keeps_execCkpt (hP _ in0) (hP _ in1) (hP _ in2) (hP _ in3) (hP _ in4) (hP _ in5) (hP _ in6) (hP _ in7) (hP _ in8) (hP _ in9) (hP _ in10)
      (hP _ in11) (hP _ in12) (hP _ in13) h
  · exact keeps_execIllegalInstruction (hP _ in0) (hP _ in1) (hP _ in2) (hP _ in3) (hP _ in4) (hP _ in5) (hP _ in6) (hP _ in7) (hP _ in8) (hP _ in9)
      (hP _ in10) (hP _ in11) (hP _ in12) (hP _ in13) h
  · exact keeps_execSlotWake (hP _ in0) (hP _ in1) (hP _ in2) (hP _ in3) (hP _ in4) (hP _ in5) (hP _ in6) (hP _ in7) (hP _ in8) (hP _ in9) (hP _
      in10) (hP _ in11) (hP _ in12) (hP _ in13) h
  · exact keeps_execSlotDisplaced (hP _ in0) (hP _ in1) (hP _ in2) (hP _ in3) (hP _ in4) (hP _ in5) (hP _ in6) (hP _ in7) (hP _ in8) (hP _ in9) (hP _
      in10) (hP _ in11) (hP _ in12) (hP _ in13) h
  · exact keeps_execMotionLimitExpiry (hP _ in0) (hP _ in1) (hP _ in2) (hP _ in3) (hP _ in4) (hP _ in5) (hP _ in6) (hP _ in7) (hP _ in8) (hP _ in9)
      (hP _ in10) (hP _ in11) (hP _ in12) (hP _ in13) h
  · exact keeps_execSectorStart (hP _ in0) (hP _ in1) (hP _ in2) (hP _ in3) (hP _ in4) (hP _ in5) (hP _ in6) (hP _ in7) (hP _ in8) (hP _ in9) (hP _
      in10) (hP _ in11) (hP _ in12) (hP _ in13) (hP _ in14) h
  · exact keeps_execReadBehindDecided (hP _ in0) (hP _ in1) (hP _ in2) (hP _ in3) (hP _ in4) (hP _ in5) (hP _ in6) (hP _ in7) (hP _ in8) (hP _ in9)
      (hP _ in10) (hP _ in11) (hP _ in12) (hP _ in13) (hP _ in14) h
  · exact keeps_execSlotStart (hP _ in0) (hP _ in1) (hP _ in2) (hP _ in3) (hP _ in4) (hP _ in5) (hP _ in6) (hP _ in7) (hP _ in8) (hP _ in9) (hP _
      in10) (hP _ in11) (hP _ in12) (hP _ in13) h
  · exact keeps_execSlotResume (hP _ in0) (hP _ in1) (hP _ in2) (hP _ in3) (hP _ in4) (hP _ in5) (hP _ in6) (hP _ in7) (hP _ in8) (hP _ in9) (hP _
      in10) (hP _ in11) (hP _ in12) (hP _ in13) h
  · exact keeps_execSlotStop (hP _ in0) (hP _ in1) (hP _ in2) (hP _ in3) (hP _ in4) (hP _ in5) (hP _ in6) (hP _ in7) (hP _ in8) (hP _ in9) (hP _
      in10) (hP _ in11) (hP _ in12) (hP _ in13) h
  · exact keeps_execSlotRestart (hP _ in0) (hP _ in1) (hP _ in2) (hP _ in3) (hP _ in4) (hP _ in5) (hP _ in6) (hP _ in7) (hP _ in8) (hP _ in9) (hP _
      in10) (hP _ in11) (hP _ in12) (hP _ in13) h
  · exact keeps_execSlotKill (hP _ in0) (hP _ in1) (hP _ in2) (hP _ in3) (hP _ in4) (hP _ in5) (hP _ in6) (hP _ in7) (hP _ in8) (hP _ in9) (hP _
      in10) (hP _ in11) (hP _ in12) (hP _ in13) h
  · exact keeps_execSlotRestartDone (hP _ in0) (hP _ in1) (hP _ in2) (hP _ in3) (hP _ in4) (hP _ in5) (hP _ in6) (hP _ in7) (hP _ in8) (hP _ in9) (hP
      _ in10) (hP _ in11) (hP _ in12) (hP _ in13) h
  · exact keeps_execSlotAppend (hP _ in0) (hP _ in1) (hP _ in2) (hP _ in3) (hP _ in4) (hP _ in5) (hP _ in6) h
  · exact keeps_execRchEnable (hP _ in0) (hP _ in1) (hP _ in2) (hP _ in3) (hP _ in4) (hP _ in5) (hP _ in6) (hP _ in7) (hP _ in8) (hP _ in9) (hP _
      in10) (hP _ in11) (hP _ in12) (hP _ in13) h
  · exact keeps_execSignalsSet (hP _ in0) h
  · exact keeps_execMachineCheck (hP _ in0) (hP _ in1) (hP _ in2) (hP _ in3) (hP _ in4) (hP _ in5) (hP _ in6) (hP _ in7) (hP _ in8) (hP _ in9) (hP _
      in10) (hP _ in11) (hP _ in12) (hP _ in13) (hP _ in14) (hP _ in15) (hP _ in16) (hP _ in17) (hP _ in18) (hP _ in19) (hP _ in20) (hP _ in21) h
  · exact keeps_execSliceWindowEnd (hP _ in0) (hP _ in1) (hP _ in2) (hP _ in3) (hP _ in4) h
  · exact keeps_execBlkLock (hP _ in0) (hP _ in1) (hP _ in2) (hP _ in3) (hP _ in4) (hP _ in5) (hP _ in6) (hP _ in7) (hP _ in8) (hP _ in9) (hP _ in10)
      (hP _ in11) (hP _ in12) (hP _ in13) h
  · exact keeps_execBlkLoss (hP _ in0) (hP _ in1) (hP _ in2) (hP _ in3) (hP _ in4) (hP _ in5) (hP _ in6) (hP _ in7) (hP _ in8) (hP _ in9) (hP _ in10)
      (hP _ in11) (hP _ in12) (hP _ in13) h
  · exact keeps_execHopHoldExpiry (hP _ in0) (hP _ in1) (hP _ in2) (hP _ in3) (hP _ in4) (hP _ in5) (hP _ in6) (hP _ in7) (hP _ in8) (hP _ in9) (hP _
      in10) (hP _ in11) (hP _ in12) (hP _ in13) h
  · exact keeps_execTaDetect (hP _ in0) (hP _ in1) (hP _ in2) (hP _ in3) (hP _ in4) (hP _ in5) (hP _ in6) (hP _ in7) (hP _ in8) (hP _ in9) (hP _
      in10) (hP _ in11) (hP _ in12) (hP _ in13) (hP _ in14) h
  · exact keeps_execDecodeAttemptDone (hP _ in0) (hP _ in1) (hP _ in2) (hP _ in3) (hP _ in4) (hP _ in5) (hP _ in6) (hP _ in7) (hP _ in8) (hP _ in9)
      (hP _ in10) (hP _ in11) (hP _ in12) (hP _ in13) (hP _ in14) h
  · exact keeps_execInlineDeadline (hP _ in0) (hP _ in1) (hP _ in2) (hP _ in3) (hP _ in4) (hP _ in5) (hP _ in6) (hP _ in7) (hP _ in8) (hP _ in9) (hP
      _ in10) (hP _ in11) (hP _ in12) (hP _ in13) (hP _ in14) h
  · exact keeps_execUnsampledSector (hP _ in0) (hP _ in1) (hP _ in2) (hP _ in3) (hP _ in4) (hP _ in5) (hP _ in6) (hP _ in7) (hP _ in8) (hP _ in9) (hP
      _ in10) (hP _ in11) (hP _ in12) (hP _ in13) (hP _ in14) h
  · exact keeps_execBlkNotRegained (hP _ in0) (hP _ in1) (hP _ in2) (hP _ in3) (hP _ in4) (hP _ in5) (hP _ in6) (hP _ in7) (hP _ in8) (hP _ in9) (hP
      _ in10) (hP _ in11) (hP _ in12) (hP _ in13) h
  · exact keeps_execAveragingPass (hP _ in0) (hP _ in1) (hP _ in2) (hP _ in3) (hP _ in4) (hP _ in5) (hP _ in6) (hP _ in7) (hP _ in8) (hP _ in9) (hP _
      in10) (hP _ in11) (hP _ in12) (hP _ in13) (hP _ in14) h
  · exact keeps_execDeepRequestTake (hP _ in0) h
  · exact keeps_execDeepDecodeDone (hP _ in0) (hP _ in1) (hP _ in2) (hP _ in3) (hP _ in4) (hP _ in5) (hP _ in6) (hP _ in7) (hP _ in8) (hP _ in9) (hP
      _ in10) (hP _ in11) (hP _ in12) (hP _ in13) (hP _ in14) h
  · exact keeps_execTrackParityReconstruct (hP _ in0) (hP _ in1) (hP _ in2) (hP _ in3) (hP _ in4) (hP _ in5) (hP _ in6) (hP _ in7) (hP _ in8) (hP _
      in9) (hP _ in10) (hP _ in11) (hP _ in12) (hP _ in13) (hP _ in14) h
  · exact keeps_execWmodeArm (hP _ in0) (hP _ in1) (hP _ in2) (hP _ in3) (hP _ in4) (hP _ in5) (hP _ in6) (hP _ in7) (hP _ in8) (hP _ in9) (hP _
      in10) (hP _ in11) (hP _ in12) (hP _ in13) (hP _ in14) h
  · exact keeps_execRunEndIdle (hP _ in0) (hP _ in1) (hP _ in2) (hP _ in3) h
  · exact keeps_execAssistTailEnd (hP _ in0) h
  · exact keeps_execAloopWindowEnd (hP _ in0) (hP _ in1) (hP _ in2) (hP _ in3) (hP _ in4) (hP _ in5) (hP _ in6) (hP _ in7) h
  · exact keeps_execTouchdownSample (hP _ in0) (hP _ in1) (hP _ in2) h
  · exact keeps_execArmPeriod (hP _ in0) (hP _ in1) h
  · exact keeps_execArmTd (hP _ in0) (hP _ in1) (hP _ in2) h
  · exact keeps_execArmRd (hP _ in0) (hP _ in1) (hP _ in2) h
  · exact keeps_execArmWr (hP _ in0) (hP _ in1) h
  · exact keeps_execArmResponse (hP _ in0) (hP _ in1) (hP _ in2) (hP _ in3) (hP _ in4) (hP _ in5) (hP _ in6) (hP _ in7) (hP _ in8) (hP _ in9) (hP _
      in10) (hP _ in11) (hP _ in12) (hP _ in13) h
  · exact keeps_execPreampTdTimeout (hP _ in0) h
  · exact keeps_execPreampAttention (hP _ in0) (hP _ in1) (hP _ in2) (hP _ in3) (hP _ in4) (hP _ in5) (hP _ in6) (hP _ in7) (hP _ in8) (hP _ in9) (hP
      _ in10) (hP _ in11) (hP _ in12) (hP _ in13) (hP _ in14) h
  · exact keeps_execArmReqGo (hP _ in0) (hP _ in1) h
  · exact keeps_execArmLinkReset (hP _ in0) h
  · exact keeps_execPesSample (hP _ in0) (hP _ in1) (hP _ in2) (hP _ in3) (hP _ in4) (hP _ in5) (hP _ in6) (hP _ in7) (hP _ in8) (hP _ in9) (hP _
      in10) (hP _ in11) (hP _ in12) (hP _ in13) h
  · exact keeps_execServoPeriod (hP _ in0) (hP _ in1) (hP _ in2) (hP _ in3) (hP _ in4) (hP _ in5) (hP _ in6) (hP _ in7) (hP _ in8) (hP _ in9) (hP _
      in10) (hP _ in11) (hP _ in12) (hP _ in13) h
  · exact keeps_execHopComplete (hP _ in0) (hP _ in1) (hP _ in2) (hP _ in3) (hP _ in4) (hP _ in5) (hP _ in6) (hP _ in7) (hP _ in8) (hP _ in9) (hP _
      in10) (hP _ in11) (hP _ in12) (hP _ in13) h
  · exact keeps_execBankCrossing (hP _ in0) (hP _ in1) h
  · exact keeps_execSeekTravelEnd (hP _ in0) (hP _ in1) h
  · exact keeps_execSeekCaptureTimeout (hP _ in0) (hP _ in1) (hP _ in2) (hP _ in3) (hP _ in4) (hP _ in5) (hP _ in6) (hP _ in7) (hP _ in8) (hP _ in9)
      (hP _ in10) (hP _ in11) (hP _ in12) (hP _ in13) h
  · exact keeps_execPrimaryResume (hP _ in0) (hP _ in1) h
  · exact keeps_execStbyRst (hP _ in0) (hP _ in1) h
  · exact keeps_execCswap (hP _ in0) h
  · exact keeps_execFfSwap (hP _ in0) h
  · exact keeps_execShockInput (hP _ in0) (hP _ in1) (hP _ in2) (hP _ in3) (hP _ in4) (hP _ in5) (hP _ in6) (hP _ in7) (hP _ in8) (hP _ in9) (hP _
      in10) (hP _ in11) (hP _ in12) (hP _ in13) h
  · exact keeps_execShockHoldEnd (hP _ in0) (hP _ in1) h
  · exact keeps_execLoad (hP _ in0) (hP _ in1) h
  · exact keeps_execLoadTimeout (hP _ in0) (hP _ in1) (hP _ in2) h
  · exact keeps_execUnload (hP _ in0) (hP _ in1) (hP _ in2) (hP _ in3) h
  · exact keeps_execEret (hP _ in0) (hP _ in1) (hP _ in2) (hP _ in3) (hP _ in4) (hP _ in5) (hP _ in6) (hP _ in7) (hP _ in8) (hP _ in9) (hP _ in10)
      (hP _ in11) (hP _ in12) (hP _ in13) h
  · exact keeps_execRampDetect (hP _ in0) h
  · exact keeps_execParkComplete (hP _ in0) (hP _ in1) h
  · exact keeps_execZoneLoad (hP _ in0) (hP _ in1) (hP _ in2) h
  · exact keeps_execZoneRecovWrite (hP _ in0) h
  · exact keeps_execZoneQuery (hP _ in0) h
  · exact keeps_execZflagClrvfy (hP _ in0) (hP _ in1) (hP _ in2) (hP _ in3) (hP _ in4) (hP _ in5) (hP _ in6) h
  · exact keeps_execZflagSetrzr (hP _ in0) (hP _ in1) (hP _ in2) (hP _ in3) (hP _ in4) (hP _ in5) (hP _ in6) h
  · exact keeps_execJournalEnable (hP _ in0) (hP _ in1) (hP _ in2) (hP _ in3) (hP _ in4) (hP _ in5) (hP _ in6) h
  · exact keeps_execJournalRecordIssue (hP _ in0) (hP _ in1) (hP _ in2) (hP _ in3) (hP _ in4) (hP _ in5) (hP _ in6) h
  · exact keeps_execJournalRecordDurable (hP _ in0) (hP _ in1) (hP _ in2) (hP _ in3) (hP _ in4) (hP _ in5) (hP _ in6) (hP _ in7) (hP _ in8) h
  · exact keeps_execJournalFold (hP _ in0) (hP _ in1) (hP _ in2) (hP _ in3) (hP _ in4) (hP _ in5) (hP _ in6) (hP _ in7) h
  · exact keeps_execZoneAppendPlace (hP _ in0) (hP _ in1) (hP _ in2) (hP _ in3) (hP _ in4) (hP _ in5) (hP _ in6) (hP _ in7) h
  · exact keeps_execPlacementWithdraw (hP _ in0) (hP _ in1) (hP _ in2) (hP _ in3) (hP _ in4) (hP _ in5) (hP _ in6) (hP _ in7) (hP _ in8) (hP _ in9)
      (hP _ in10) (hP _ in11) (hP _ in12) (hP _ in13) h
  · exact keeps_execZoneActionEffect (hP _ in0) (hP _ in1) (hP _ in2) (hP _ in3) (hP _ in4) (hP _ in5) (hP _ in6) (hP _ in7) h
  · exact keeps_execSqDoorbell (hP _ in0) h
  · exact keeps_execSqFetch (hP _ in0) (hP _ in1) (hP _ in2) (hP _ in3) (hP _ in4) h
  · exact keeps_execContextAdmit (hP _ in0) (hP _ in1) (hP _ in2) (hP _ in3) (hP _ in4) h
  · exact keeps_execContextBind (hP _ in0) (hP _ in1) h
  · exact keeps_execClassLimitExpiry (hP _ in0) (hP _ in1) (hP _ in2) (hP _ in3) (hP _ in4) (hP _ in5) (hP _ in6) (hP _ in7) (hP _ in8) (hP _ in9)
      (hP _ in10) (hP _ in11) (hP _ in12) (hP _ in13) h
  · exact keeps_execCompletionPost (hP _ in0) (hP _ in1) (hP _ in2) (hP _ in3) (hP _ in4) (hP _ in5) (hP _ in6) (hP _ in7) (hP _ in8) (hP _ in9) (hP
      _ in10) (hP _ in11) (hP _ in12) (hP _ in13) (hP _ in14) h
  · exact keeps_execNsreadyWrite (hP _ in0) (hP _ in1) (hP _ in2) (hP _ in3) (hP _ in4) (hP _ in5) (hP _ in6) (hP _ in7) (hP _ in8) h
  · exact keeps_execIntakeEnable (hP _ in0) (hP _ in1) h
  · exact keeps_execRead (hP _ in0) (hP _ in1) (hP _ in2) (hP _ in3) (hP _ in4) (hP _ in5) (hP _ in6) h
  · exact keeps_execWrite (hP _ in0) (hP _ in1) (hP _ in2) (hP _ in3) (hP _ in4) (hP _ in5) (hP _ in6) (hP _ in7) (hP _ in8) h
  · exact keeps_execWriteZeroes (hP _ in0) (hP _ in1) (hP _ in2) (hP _ in3) (hP _ in4) (hP _ in5) (hP _ in6) (hP _ in7) h
  · exact keeps_execVerify (hP _ in0) (hP _ in1) (hP _ in2) (hP _ in3) (hP _ in4) (hP _ in5) (hP _ in6) h
  · exact keeps_execFlush (hP _ in0) (hP _ in1) h
  · exact keeps_execZoneAppend (hP _ in0) (hP _ in1) (hP _ in2) (hP _ in3) (hP _ in4) (hP _ in5) (hP _ in6) (hP _ in7) (hP _ in8) h
  · exact keeps_execZoneOpen (hP _ in0) (hP _ in1) (hP _ in2) (hP _ in3) (hP _ in4) (hP _ in5) (hP _ in6) (hP _ in7) h
  · exact keeps_execZoneClose (hP _ in0) (hP _ in1) h
  · exact keeps_execZoneFinish (hP _ in0) (hP _ in1) h
  · exact keeps_execZoneReset (hP _ in0) (hP _ in1) h
  · exact keeps_execZoneOffline (hP _ in0) (hP _ in1) h
  · exact keeps_execReportZones (hP _ in0) (hP _ in1) (hP _ in2) h
  · exact keeps_execOrderingFence (hP _ in0) (hP _ in1) h
  · exact keeps_execCreateIoSq (hP _ in0) (hP _ in1) h
  · exact keeps_execCreateIoCq (hP _ in0) (hP _ in1) h
  · exact keeps_execDeleteIoSq (hP _ in0) (hP _ in1) (hP _ in2) (hP _ in3) (hP _ in4) (hP _ in5) (hP _ in6) (hP _ in7) (hP _ in8) (hP _ in9) (hP _
      in10) (hP _ in11) (hP _ in12) (hP _ in13) (hP _ in14) h
  · exact keeps_execDeleteIoCq (hP _ in0) (hP _ in1) h
  · exact keeps_execGetLogPage (hP _ in0) (hP _ in1) (hP _ in2) (hP _ in3) (hP _ in4) (hP _ in5) h
  · exact keeps_execIdentify (hP _ in0) (hP _ in1) (hP _ in2) (hP _ in3) h
  · exact keeps_execAbort (hP _ in0) (hP _ in1) (hP _ in2) (hP _ in3) (hP _ in4) (hP _ in5) (hP _ in6) (hP _ in7) (hP _ in8) (hP _ in9) (hP _ in10)
      (hP _ in11) (hP _ in12) (hP _ in13) (hP _ in14) h
  · exact keeps_execSetFeatures (hP _ in0) (hP _ in1) (hP _ in2) (hP _ in3) (hP _ in4) (hP _ in5) (hP _ in6) (hP _ in7) h
  · exact keeps_execGetFeatures (hP _ in0) (hP _ in1) (hP _ in2) h
  · exact keeps_execAsyncEventRequest (hP _ in0) (hP _ in1) h
  · exact keeps_execFirmwareImageDownload (hP _ in0) (hP _ in1) h
  · exact keeps_execFirmwareCommit (hP _ in0) (hP _ in1) (hP _ in2) (hP _ in3) h
  · exact keeps_execFirmwareActivate (hP _ in0) (hP _ in1) (hP _ in2) (hP _ in3) (hP _ in4) (hP _ in5) (hP _ in6) (hP _ in7) (hP _ in8) (hP _ in9)
      (hP _ in10) (hP _ in11) (hP _ in12) (hP _ in13) (hP _ in14) h
  · exact keeps_execActivationEnd (hP _ in0) (hP _ in1) (hP _ in2) (hP _ in3) (hP _ in4) (hP _ in5) (hP _ in6) (hP _ in7) (hP _ in8) (hP _ in9) (hP _
      in10) (hP _ in11) (hP _ in12) (hP _ in13) h
  · exact keeps_execFormatNvm (hP _ in0) (hP _ in1) (hP _ in2) (hP _ in3) h
  · exact keeps_execSanitize (hP _ in0) (hP _ in1) (hP _ in2) (hP _ in3) h
  · exact keeps_execSecuritySend (hP _ in0) (hP _ in1) (hP _ in2) (hP _ in3) h
  · exact keeps_execSecurityReceive (hP _ in0) (hP _ in1) (hP _ in2) (hP _ in3) h
  · exact keeps_execCcEnSet (hP _ in0) h
  · exact keeps_execControllerReset (hP _ in0) (hP _ in1) (hP _ in2) (hP _ in3) (hP _ in4) (hP _ in5) (hP _ in6) (hP _ in7) (hP _ in8) (hP _ in9) (hP
      _ in10) (hP _ in11) (hP _ in12) (hP _ in13) (hP _ in14) h
  · exact keeps_execShutdownNormal (hP _ in0) h
  · exact keeps_execShutdownAbrupt (hP _ in0) (hP _ in1) (hP _ in2) (hP _ in3) (hP _ in4) (hP _ in5) (hP _ in6) (hP _ in7) (hP _ in8) (hP _ in9) (hP
      _ in10) (hP _ in11) (hP _ in12) (hP _ in13) (hP _ in14) h
  · exact keeps_execPortLinkDown (hP _ in0) (hP _ in1) (hP _ in2) (hP _ in3) (hP _ in4) (hP _ in5) (hP _ in6) (hP _ in7) (hP _ in8) (hP _ in9) (hP _
      in10) (hP _ in11) (hP _ in12) (hP _ in13) (hP _ in14) h
  · exact keeps_execPortLinkUp (hP _ in0) (hP _ in1) h
  · exact keeps_execLinkHoldExpiry (hP _ in0) (hP _ in1) (hP _ in2) (hP _ in3) (hP _ in4) (hP _ in5) (hP _ in6) (hP _ in7) (hP _ in8) (hP _ in9) (hP
      _ in10) (hP _ in11) (hP _ in12) (hP _ in13) (hP _ in14) h
  · exact keeps_execPerstAssert (hP _ in0) (hP _ in1) (hP _ in2) (hP _ in3) (hP _ in4) (hP _ in5) (hP _ in6) (hP _ in7) (hP _ in8) (hP _ in9) (hP _
      in10) (hP _ in11) (hP _ in12) (hP _ in13) (hP _ in14) (hP _ in15) h
  · exact keeps_execApstTransition (hP _ in0) (hP _ in1) (hP _ in2) (hP _ in3) (hP _ in4) h
  · exact keeps_execStageRequest (hP _ in0) (hP _ in1) (hP _ in2) (hP _ in3) (hP _ in4) (hP _ in5) (hP _ in6) h
  · exact keeps_execStageFillDone (hP _ in0) (hP _ in1) (hP _ in2) (hP _ in3) (hP _ in4) (hP _ in5) (hP _ in6) h
  · exact keeps_execWritebackIssue (hP _ in0) (hP _ in1) (hP _ in2) (hP _ in3) (hP _ in4) (hP _ in5) (hP _ in6) h
  · exact keeps_execStageDisable (hP _ in0) (hP _ in1) h
  · exact keeps_execStageDrained (hP _ in0) (hP _ in1) (hP _ in2) (hP _ in3) (hP _ in4) (hP _ in5) (hP _ in6) h
  · exact keeps_execStageEnable (hP _ in0) (hP _ in1) h
  · exact keeps_execMemWrite (hP _ in0) (hP _ in1) (hP _ in2) (hP _ in3) (hP _ in4) (hP _ in5) (hP _ in6) (hP _ in7) (hP _ in8) (hP _ in9) (hP _
      in10) (hP _ in11) (hP _ in12) (hP _ in13) (hP _ in14) h
  · exact keeps_execMemRead (hP _ in0) (hP _ in1) (hP _ in2) (hP _ in3) (hP _ in4) (hP _ in5) h
  · exact keeps_execBucketLeak (hP _ in0) (hP _ in1) h
  · exact keeps_execScrubStep (hP _ in0) (hP _ in1) (hP _ in2) (hP _ in3) (hP _ in4) h
  · exact keeps_execMemoryFill (hP _ in0) (hP _ in1) (hP _ in2) (hP _ in3) (hP _ in4) (hP _ in5) (hP _ in6) h
  · exact keeps_execMemInjArm (hP _ in0) h
  · exact keeps_execWeirPacket (hP _ in0) (hP _ in1) (hP _ in2) (hP _ in3) (hP _ in4) h
  · exact keeps_execWeirStall (hP _ in0) (hP _ in1) (hP _ in2) (hP _ in3) (hP _ in4) (hP _ in5) (hP _ in6) (hP _ in7) (hP _ in8) (hP _ in9) (hP _
      in10) (hP _ in11) (hP _ in12) (hP _ in13) (hP _ in14) (hP _ in15) (hP _ in16) (hP _ in17) (hP _ in18) (hP _ in19) (hP _ in20) (hP _ in21) h
  · exact keeps_execWeirSync (hP _ in0) (hP _ in1) h
  · exact keeps_execWeirSyncDone (hP _ in0) (hP _ in1) h
  · exact keeps_execSluiceGo (hP _ in0) (hP _ in1) h
  · exact keeps_execSluiceStop (hP _ in0) h
  · exact keeps_execSluiceResume (hP _ in0) h
  · exact keeps_execSluiceDescFetch (hP _ in0) (hP _ in1) (hP _ in2) (hP _ in3) (hP _ in4) (hP _ in5) (hP _ in6) h
  · exact keeps_execSluiceAccess (hP _ in0) (hP _ in1) (hP _ in2) (hP _ in3) (hP _ in4) (hP _ in5) (hP _ in6) (hP _ in7) (hP _ in8) (hP _ in9) (hP _
      in10) (hP _ in11) (hP _ in12) (hP _ in13) (hP _ in14) (hP _ in15) (hP _ in16) (hP _ in17) (hP _ in18) (hP _ in19) (hP _ in20) (hP _ in21) (hP _
      in22) (hP _ in23) (hP _ in24) (hP _ in25) (hP _ in26) h
  · exact keeps_execSluiceDescDone (hP _ in0) (hP _ in1) (hP _ in2) (hP _ in3) (hP _ in4) (hP _ in5) (hP _ in6) (hP _ in7) (hP _ in8) h
  · exact keeps_execSluiceSectorXfer (hP _ in0) (hP _ in1) (hP _ in2) (hP _ in3) (hP _ in4) (hP _ in5) (hP _ in6) (hP _ in7) (hP _ in8) (hP _ in9)
      (hP _ in10) (hP _ in11) (hP _ in12) (hP _ in13) (hP _ in14) h
  · exact keeps_execBkwPush (hP _ in0) h
  · exact keeps_execBkwPushl (hP _ in0) (hP _ in1) (hP _ in2) (hP _ in3) (hP _ in4) (hP _ in5) (hP _ in6) h
  · exact keeps_execBkwPop (hP _ in0) (hP _ in1) (hP _ in2) (hP _ in3) (hP _ in4) (hP _ in5) (hP _ in6) (hP _ in7) h
  · exact keeps_execBkwFlush (hP _ in0) h
  · exact keeps_execBkwSpill (hP _ in0) (hP _ in1) (hP _ in2) (hP _ in3) (hP _ in4) (hP _ in5) (hP _ in6) h
  · exact keeps_execBkwRefill (hP _ in0) (hP _ in1) (hP _ in2) (hP _ in3) (hP _ in4) (hP _ in5) (hP _ in6) h
  · exact keeps_execCflRead (hP _ in0) (hP _ in1) (hP _ in2) (hP _ in3) (hP _ in4) (hP _ in5) h
  · exact keeps_execCflProgram (hP _ in0) (hP _ in1) h
  · exact keeps_execCflErase (hP _ in0) (hP _ in1) h
  · exact keeps_execCflOpDone (hP _ in0) (hP _ in1) (hP _ in2) (hP _ in3) (hP _ in4) (hP _ in5) h
  · exact keeps_execCflRetireCopy (hP _ in0) (hP _ in1) h
  · exact keeps_execCflSuspend (hP _ in0) (hP _ in1) h
  · exact keeps_execCflResume (hP _ in0) h
  · exact keeps_execCflLockWrite (hP _ in0) h
  · exact keeps_execSpinDmdPeriod (hP _ in0) (hP _ in1) h
  · exact keeps_execSpinDmdTimeout (hP _ in0) h
  · exact keeps_execCurveApply (hP _ in0) (hP _ in1) h
  · exact keeps_execTargetChange (hP _ in0) (hP _ in1) (hP _ in2) (hP _ in3) h
  · exact keeps_execHeldTargetRelease (hP _ in0) (hP _ in1) (hP _ in2) (hP _ in3) h
  · exact keeps_execAtspdRise (hP _ in0) (hP _ in1) h
  · exact keeps_execAtspdLoss (hP _ in0) h
  · exact keeps_execSpinStart (hP _ in0) (hP _ in1) h
  · exact keeps_execListenEnd (hP _ in0) (hP _ in1) (hP _ in2) (hP _ in3) (hP _ in4) h
  · exact keeps_execCatchMotor (hP _ in0) (hP _ in1) (hP _ in2) h
  · exact keeps_execWarmupEnd (hP _ in0) (hP _ in1) (hP _ in2) (hP _ in3) (hP _ in4) h
  · exact keeps_execTokenGrant (hP _ in0) (hP _ in1) (hP _ in2) h
  · exact keeps_execAlignEnd (hP _ in0) h
  · exact keeps_execObserverHandover (hP _ in0) (hP _ in1) (hP _ in2) (hP _ in3) (hP _ in4) (hP _ in5) (hP _ in6) (hP _ in7) (hP _ in8) (hP _ in9)
      (hP _ in10) (hP _ in11) (hP _ in12) (hP _ in13) (hP _ in14) (hP _ in15) h
  · exact keeps_execSpinupTimeout (hP _ in0) (hP _ in1) (hP _ in2) (hP _ in3) (hP _ in4) h
  · exact keeps_execLossOfSync (hP _ in0) (hP _ in1) (hP _ in2) (hP _ in3) (hP _ in4) (hP _ in5) (hP _ in6) (hP _ in7) (hP _ in8) (hP _ in9) (hP _
      in10) (hP _ in11) (hP _ in12) (hP _ in13) (hP _ in14) (hP _ in15) h
  · exact keeps_execBrakeRest (hP _ in0) (hP _ in1) h
  · exact keeps_execBrakeTimeout (hP _ in0) (hP _ in1) h
  · exact keeps_execVmotThreshold (hP _ in0) (hP _ in1) (hP _ in2) h
  · exact keeps_execOvpRelease (hP _ in0) (hP _ in1) h
  · exact keeps_execPwmPeriod (hP _ in0) (hP _ in1) (hP _ in2) h
  · exact keeps_execSpnClear (hP _ in0) (hP _ in1) h
  · exact keeps_execSpindleResetTakeover (hP _ in0) (hP _ in1) h
  · exact keeps_execElementExpiry (hP _ in0) (hP _ in1) (hP _ in2) (hP _ in3) (hP _ in4) (hP _ in5) (hP _ in6) (hP _ in7) (hP _ in8) (hP _ in9) (hP _
      in10) (hP _ in11) (hP _ in12) (hP _ in13) (hP _ in14) (hP _ in15) (hP _ in16) (hP _ in17) (hP _ in18) (hP _ in19) (hP _ in20) (hP _ in21) h
  · exact keeps_execUnitExpiry (hP _ in0) (hP _ in1) (hP _ in2) (hP _ in3) (hP _ in4) (hP _ in5) (hP _ in6) (hP _ in7) (hP _ in8) (hP _ in9) (hP _
      in10) (hP _ in11) (hP _ in12) (hP _ in13) (hP _ in14) (hP _ in15) (hP _ in16) (hP _ in17) (hP _ in18) (hP _ in19) (hP _ in20) (hP _ in21) h
  · exact keeps_execDomainExpiry (hP _ in0) (hP _ in1) (hP _ in2) (hP _ in3) (hP _ in4) (hP _ in5) (hP _ in6) (hP _ in7) (hP _ in8) (hP _ in9) (hP _
      in10) (hP _ in11) (hP _ in12) (hP _ in13) (hP _ in14) (hP _ in15) (hP _ in16) (hP _ in17) (hP _ in18) (hP _ in19) (hP _ in20) (hP _ in21) h
  · exact keeps_execWatchdogExpiry (hP _ in0) (hP _ in1) (hP _ in2) h
  · exact keeps_execLockstepMismatch (hP _ in0) (hP _ in1) (hP _ in2) h
  · exact keeps_execDomainRestartEnd (hP _ in0) (hP _ in1) (hP _ in2) h
  · exact keeps_execWatchRestartEnd (hP _ in0) (hP _ in1) (hP _ in2) (hP _ in3) (hP _ in4) (hP _ in5) (hP _ in6) (hP _ in7) (hP _ in8) (hP _ in9) (hP
      _ in10) (hP _ in11) (hP _ in12) (hP _ in13) (hP _ in14) (hP _ in15) (hP _ in16) (hP _ in17) (hP _ in18) (hP _ in19) (hP _ in20) (hP _ in21) h
  · exact keeps_execWdogKick (hP _ in0) h
  · exact keeps_execDomainRestartReq (hP _ in0) (hP _ in1) (hP _ in2) (hP _ in3) (hP _ in4) (hP _ in5) (hP _ in6) (hP _ in7) (hP _ in8) (hP _ in9)
      (hP _ in10) (hP _ in11) (hP _ in12) (hP _ in13) (hP _ in14) (hP _ in15) (hP _ in16) (hP _ in17) (hP _ in18) (hP _ in19) (hP _ in20) h
  · exact keeps_execControllerRestart (hP _ in0) (hP _ in1) (hP _ in2) (hP _ in3) (hP _ in4) (hP _ in5) (hP _ in6) (hP _ in7) (hP _ in8) (hP _ in9)
      (hP _ in10) (hP _ in11) (hP _ in12) (hP _ in13) (hP _ in14) (hP _ in15) (hP _ in16) (hP _ in17) (hP _ in18) (hP _ in19) h
  · exact keeps_execExpiryWindow (hP _ in0) (hP _ in1) h
  · exact keeps_execCalGo (hP _ in0) h
  · exact keeps_execCalPassStart (hP _ in0) (hP _ in1) (hP _ in2) h
  · exact keeps_execCalItemDone (hP _ in0) (hP _ in1) (hP _ in2) (hP _ in3) (hP _ in4) h
  · exact keeps_execCalSwap (hP _ in0) h
  · exact keeps_execCalPassEnd (hP _ in0) (hP _ in1) h
  · exact keeps_execCalClaim (hP _ in0) h
  · exact keeps_execHskRound (hP _ in0) h
  · exact keeps_execHskRoundPublish (hP _ in0) (hP _ in1) (hP _ in2) (hP _ in3) (hP _ in4) (hP _ in5) (hP _ in6) (hP _ in7) (hP _ in8) (hP _ in9) (hP
      _ in10) (hP _ in11) (hP _ in12) (hP _ in13) (hP _ in14) (hP _ in15) h
  · exact keeps_execSensclr (hP _ in0) h
  · exact keeps_execRefclkLoss (hP _ in0) (hP _ in1) (hP _ in2) h
  · exact keeps_execRefclkReturn (hP _ in0) h
  · exact keeps_execEvrRecord (hP _ in0) (hP _ in1) (hP _ in2) h
  · exact keeps_execEvrRaise (hP _ in0) (hP _ in1) h
  · exact keeps_execEvf (hP _ in0) (hP _ in1) h
  · exact keeps_execEvfDone (hP _ in0) (hP _ in1) h
  · exact keeps_execRateWindowClose (hP _ in0) (hP _ in1) (hP _ in2) h
  · exact keeps_execEvrFlashAppend (hP _ in0) (hP _ in1) (hP _ in2) h
  · exact keeps_execEvrRebuild (hP _ in0) (hP _ in1) (hP _ in2) h
  · exact keeps_execEvrClear (hP _ in0) (hP _ in1) (hP _ in2) h
  · exact keeps_execEvrAuthTimeout (hP _ in0) h
  · exact keeps_execCfxLinkTrain (hP _ in0) (hP _ in1) h
  · exact keeps_execHbSend (hP _ in0) (hP _ in1) (hP _ in2) (hP _ in3) (hP _ in4) (hP _ in5) h
  · exact keeps_execHb (hP _ in0) (hP _ in1) (hP _ in2) (hP _ in3) (hP _ in4) (hP _ in5) h
  · exact keeps_execPeerLost (hP _ in0) (hP _ in1) (hP _ in2) (hP _ in3) (hP _ in4) (hP _ in5) (hP _ in6) (hP _ in7) (hP _ in8) (hP _ in9) (hP _
      in10) (hP _ in11) (hP _ in12) (hP _ in13) (hP _ in14) h
  · exact keeps_execPeerHeardAgain (hP _ in0) (hP _ in1) (hP _ in2) (hP _ in3) (hP _ in4) h
  · exact keeps_execFwd (b2 := 0) (hP _ in0) (hP _ in1) (hP _ in2) (hP _ in3) (hP _ in4) (hP _ in5) h
  · exact keeps_execWdata (hP _ in0) (hP _ in1) (hP _ in2) (hP _ in3) (hP _ in4) (hP _ in5) (hP _ in6) (hP _ in7) h
  · exact keeps_execRdata (hP _ in0) (hP _ in1) (hP _ in2) (hP _ in3) (hP _ in4) (hP _ in5) (hP _ in6) (hP _ in7) h
  · exact keeps_execCpl (hP _ in0) (hP _ in1) (hP _ in2) (hP _ in3) (hP _ in4) h
  · exact keeps_execCfxAbortMsg (hP _ in0) (hP _ in1) (hP _ in2) (hP _ in3) (hP _ in4) (hP _ in5) (hP _ in6) (hP _ in7) (hP _ in8) (hP _ in9) (hP _
      in10) (hP _ in11) (hP _ in12) (hP _ in13) (hP _ in14) h
  · exact keeps_execAres (hP _ in0) (hP _ in1) (hP _ in2) (hP _ in3) (hP _ in4) h
  · exact keeps_execAdm (hP _ in0) (hP _ in1) (hP _ in2) (hP _ in3) (hP _ in4) h
  · exact keeps_execAack (hP _ in0) (hP _ in1) (hP _ in2) (hP _ in3) (hP _ in4) h
  · exact keeps_execCfxFenceMsg (hP _ in0) (hP _ in1) (hP _ in2) (hP _ in3) (hP _ in4) h
  · exact keeps_execFack (hP _ in0) (hP _ in1) (hP _ in2) (hP _ in3) (hP _ in4) h
  · exact keeps_execTreq (hP _ in0) (hP _ in1) (hP _ in2) (hP _ in3) (hP _ in4) h
  · exact keeps_execTgnt (hP _ in0) (hP _ in1) h
  · exact keeps_execTrel (hP _ in0) (hP _ in1) (hP _ in2) (hP _ in3) (hP _ in4) h
  · exact keeps_execSoloToken (hP _ in0) (hP _ in1) h
  · exact keeps_execCfxFenceGo (hP _ in0) (hP _ in1) h
  · exact keeps_execBadMessageType (b0 := 0) (hP _ in0) (hP _ in1) h
  · exact keeps_execClaimRead (hP _ in0) (hP _ in1) (hP _ in2) h
  · exact keeps_execClaimComplete (hP _ in0) (hP _ in1) h
  · exact keeps_execIrqRaise (hP _ in0) h
  · exact keeps_execTimerInterrupt (hP _ in0) h
  · exact keeps_execMsipWrite (hP _ in0) (hP _ in1) h
  · exact keeps_execFbootRun (hP _ in0) (hP _ in1) h
  · exact keeps_execAccessFault (hP _ in0) h
  · exact keeps_execVloopEnable (hP _ in0) (hP _ in1) (hP _ in2) h
  · exact keeps_execVoltageUpdate (hP _ in0) (hP _ in1) (hP _ in2) (hP _ in3) h
  · exact keeps_execIrootCommit (hP _ in0) (hP _ in1) h
  · exact keeps_execArbAdvanceFw (hP _ in0) (hP _ in1) h
  · exact keeps_execArbAdvanceUc (hP _ in0) (hP _ in1) h
  · exact keeps_execGenkey (hP _ in0) (hP _ in1) h
  · exact keeps_execRangeLockWrite (hP _ in0) (hP _ in1) h
  · exact keeps_execRangeGeometryWrite (hP _ in0) (hP _ in1) h
  · exact keeps_execAuthreq (hP _ in0) (hP _ in1) (hP _ in2) h
  · exact keeps_execNonceRead (hP _ in0) (hP _ in1) (hP _ in2) (hP _ in3) h
  · exact keeps_execNonceExpiry (hP _ in0) h
  · exact keeps_execBootRomStage (hP _ in0) (hP _ in1) (hP _ in2) (hP _ in3) (hP _ in4) (hP _ in5) (hP _ in6) (hP _ in7) h
  · exact keeps_execPowerOn (hP _ in0) (hP _ in1) (hP _ in2) (hP _ in3) (hP _ in4) (hP _ in5) (hP _ in6) (hP _ in7) (hP _ in8) (hP _ in9) (hP _ in10)
      (hP _ in11) (hP _ in12) (hP _ in13) (hP _ in14) (hP _ in15) (hP _ in16) (hP _ in17) (hP _ in18) (hP _ in19) (hP _ in20) (hP _ in21) (hP _ in22)
      (hP _ in23) (hP _ in24) (hP _ in25) (hP _ in26) (hP _ in27) (hP _ in28) (hP _ in29) h
  · exact keeps_execRailOutOfRange (hP _ in0) (hP _ in1) (hP _ in2) (hP _ in3) (hP _ in4) (hP _ in5) (hP _ in6) (hP _ in7) (hP _ in8) (hP _ in9) (hP
      _ in10) (hP _ in11) (hP _ in12) (hP _ in13) (hP _ in14) (hP _ in15) (hP _ in16) (hP _ in17) (hP _ in18) (hP _ in19) (hP _ in20) h
  · exact keeps_execSysRstLow (hP _ in0) (hP _ in1) (hP _ in2) (hP _ in3) (hP _ in4) (hP _ in5) (hP _ in6) (hP _ in7) (hP _ in8) (hP _ in9) (hP _
      in10) (hP _ in11) (hP _ in12) (hP _ in13) (hP _ in14) (hP _ in15) (hP _ in16) (hP _ in17) (hP _ in18) (hP _ in19) (hP _ in20) h
  · exact keeps_execSysRstRelease (hP _ in0) (hP _ in1) (hP _ in2) (hP _ in3) (hP _ in4) (hP _ in5) (hP _ in6) (hP _ in7) (hP _ in8) (hP _ in9) (hP _
      in10) (hP _ in11) (hP _ in12) (hP _ in13) (hP _ in14) (hP _ in15) (hP _ in16) (hP _ in17) (hP _ in18) (hP _ in19) (hP _ in20) (hP _ in21) (hP _
      in22) (hP _ in23) (hP _ in24) (hP _ in25) (hP _ in26) (hP _ in27) (hP _ in28) (hP _ in29) h
  · exact keeps_execP1Sample (hP _ in0) (hP _ in1) (hP _ in2) (hP _ in3) h
  · exact keeps_execP2Lock (hP _ in0) (hP _ in1) (hP _ in2) h
  · exact keeps_execVmotArmed (hP _ in0) h
  · exact keeps_execPowerLossDeclare (hP _ in0) (hP _ in1) (hP _ in2) (hP _ in3) (hP _ in4) (hP _ in5) (hP _ in6) (hP _ in7) (hP _ in8) (hP _ in9)
      (hP _ in10) (hP _ in11) (hP _ in12) (hP _ in13) (hP _ in14) (hP _ in15) (hP _ in16) (hP _ in17) (hP _ in18) (hP _ in19) h
  · exact keeps_execDipRestart (hP _ in0) (hP _ in1) (hP _ in2) (hP _ in3) (hP _ in4) (hP _ in5) (hP _ in6) (hP _ in7) (hP _ in8) (hP _ in9) (hP _
      in10) (hP _ in11) (hP _ in12) (hP _ in13) (hP _ in14) (hP _ in15) (hP _ in16) (hP _ in17) (hP _ in18) (hP _ in19) h
  · exact keeps_execPerstRelease (hP _ in0) h
  · exact keeps_execCfxLinkDown (hP _ in0) h
  · exact keeps_execShockInputRelease (hP _ in0) h
  · exact keeps_execSettleTimeout (hP _ in0) (hP _ in1) (hP _ in2) (hP _ in3) (hP _ in4) (hP _ in5) (hP _ in6) (hP _ in7) (hP _ in8) (hP _ in9) (hP _
      in10) (hP _ in11) (hP _ in12) (hP _ in13) h
  · exact keeps_execHopHoldRelease (hP _ in0) h
  · exact keeps_execCalClaimEnd (hP _ in0) h
  · exact keeps_execRegisterReadClear (hP _ in0) (hP _ in1) (hP _ in2) (hP _ in3) (hP _ in4) (hP _ in5) (hP _ in6) (hP _ in7) (hP _ in8) (hP _ in9)
      (hP _ in10) (hP _ in11) (hP _ in12) (hP _ in13) (hP _ in14) (hP _ in15) (hP _ in16) (hP _ in17) (hP _ in18) (hP _ in19) (hP _ in20) (hP _ in21)
      (hP _ in22) (hP _ in23) (hP _ in24) (hP _ in25) (hP _ in26) h

end Sys2Proof.Machine
end

