-- ==== Sys2Proof/Laws/State.lean ====
section
/-! SUPPORT. What each basic update of the state leaves in each field, and what the register file and the units' accessors read after it. -/

namespace Sys2Proof.Machine

set_option Elab.async false

variable (s : State)

/-! `State.wr` -/

@[simp] theorem wr_pending (f : Fld) (v : Nat) : (s.wr f v).pending = s.pending := rfl
@[simp] theorem wr_time (f : Fld) (v : Nat) : (s.wr f v).time = s.time := rfl
@[simp] theorem wr_answer (f : Fld) (v : Nat) : (s.wr f v).answer = s.answer := rfl
@[simp] theorem wr_free (f : Fld) (v : Nat) : (s.wr f v).free = s.free := rfl
@[simp] theorem wr_regs (f : Fld) (v : Nat) : (s.wr f v).regs = tset 0 s.regs f.key ((v % 2 ^ f.width) ^^^ f.reset) := rfl
@[simp] theorem wr_acc (f : Fld) (v : Nat) : (s.wr f v).acc = s.acc := rfl
@[simp] theorem wr_mem (f : Fld) (v : Nat) : (s.wr f v).mem = s.mem := rfl
@[simp] theorem wr_reach (f : Fld) (v : Nat) : (s.wr f v).reach = s.reach := rfl
@[simp] theorem wr_chan (f : Fld) (v : Nat) : (s.wr f v).chan = s.chan := rfl
@[simp] theorem wr_preamp (f : Fld) (v : Nat) : (s.wr f v).preamp = s.preamp := rfl
@[simp] theorem wr_deep (f : Fld) (v : Nat) : (s.wr f v).deep = s.deep := rfl
@[simp] theorem wr_servo (f : Fld) (v : Nat) : (s.wr f v).servo = s.servo := rfl
@[simp] theorem wr_medium (f : Fld) (v : Nat) : (s.wr f v).medium = s.medium := rfl
@[simp] theorem wr_zone (f : Fld) (v : Nat) : (s.wr f v).zone = s.zone := rfl
@[simp] theorem wr_host (f : Fld) (v : Nat) : (s.wr f v).host = s.host := rfl
@[simp] theorem wr_stage (f : Fld) (v : Nat) : (s.wr f v).stage = s.stage := rfl
@[simp] theorem wr_memc (f : Fld) (v : Nat) : (s.wr f v).memc = s.memc := rfl
@[simp] theorem wr_evr (f : Fld) (v : Nat) : (s.wr f v).evr = s.evr := rfl
@[simp] theorem wr_weir (f : Fld) (v : Nat) : (s.wr f v).weir = s.weir := rfl
@[simp] theorem wr_sluice (f : Fld) (v : Nat) : (s.wr f v).sluice = s.sluice := rfl
@[simp] theorem wr_bkw (f : Fld) (v : Nat) : (s.wr f v).bkw = s.bkw := rfl
@[simp] theorem wr_flash (f : Fld) (v : Nat) : (s.wr f v).flash = s.flash := rfl
@[simp] theorem wr_cfl (f : Fld) (v : Nat) : (s.wr f v).cfl = s.cfl := rfl
@[simp] theorem wr_spin (f : Fld) (v : Nat) : (s.wr f v).spin = s.spin := rfl
@[simp] theorem wr_watch (f : Fld) (v : Nat) : (s.wr f v).watch = s.watch := rfl
@[simp] theorem wr_cal (f : Fld) (v : Nat) : (s.wr f v).cal = s.cal := rfl
@[simp] theorem wr_hsk (f : Fld) (v : Nat) : (s.wr f v).hsk = s.hsk := rfl
@[simp] theorem wr_cfx (f : Fld) (v : Nat) : (s.wr f v).cfx = s.cfx := rfl
@[simp] theorem wr_cores (f : Fld) (v : Nat) : (s.wr f v).cores = s.cores := rfl
@[simp] theorem wr_trust (f : Fld) (v : Nat) : (s.wr f v).trust = s.trust := rfl
@[simp] theorem wr_power (f : Fld) (v : Nat) : (s.wr f v).power = s.power := rfl
@[simp] theorem wr_sv (f : Fld) (v : Nat) (m : Fin 4) : (s.wr f v).sv m = s.sv m := rfl
@[simp] theorem wr_ch (f : Fld) (v : Nat) (m : Fin 4) : (s.wr f v).ch m = s.ch m := rfl
@[simp] theorem wr_eng (f : Fld) (v : Nat) (m : Fin 4) : (s.wr f v).eng m = s.eng m := rfl

/-! `State.tookFree` -/

@[simp] theorem tookFree_pending : (s.tookFree).pending = s.pending := rfl
@[simp] theorem tookFree_time : (s.tookFree).time = s.time := rfl
@[simp] theorem tookFree_answer : (s.tookFree).answer = s.answer := rfl
@[simp] theorem tookFree_free : (s.tookFree).free = s.free + 1 := rfl
@[simp] theorem tookFree_regs : (s.tookFree).regs = s.regs := rfl
@[simp] theorem tookFree_acc : (s.tookFree).acc = s.acc := rfl
@[simp] theorem tookFree_mem : (s.tookFree).mem = s.mem := rfl
@[simp] theorem tookFree_reach : (s.tookFree).reach = s.reach := rfl
@[simp] theorem tookFree_chan : (s.tookFree).chan = s.chan := rfl
@[simp] theorem tookFree_preamp : (s.tookFree).preamp = s.preamp := rfl
@[simp] theorem tookFree_deep : (s.tookFree).deep = s.deep := rfl
@[simp] theorem tookFree_servo : (s.tookFree).servo = s.servo := rfl
@[simp] theorem tookFree_medium : (s.tookFree).medium = s.medium := rfl
@[simp] theorem tookFree_zone : (s.tookFree).zone = s.zone := rfl
@[simp] theorem tookFree_host : (s.tookFree).host = s.host := rfl
@[simp] theorem tookFree_stage : (s.tookFree).stage = s.stage := rfl
@[simp] theorem tookFree_memc : (s.tookFree).memc = s.memc := rfl
@[simp] theorem tookFree_evr : (s.tookFree).evr = s.evr := rfl
@[simp] theorem tookFree_weir : (s.tookFree).weir = s.weir := rfl
@[simp] theorem tookFree_sluice : (s.tookFree).sluice = s.sluice := rfl
@[simp] theorem tookFree_bkw : (s.tookFree).bkw = s.bkw := rfl
@[simp] theorem tookFree_flash : (s.tookFree).flash = s.flash := rfl
@[simp] theorem tookFree_cfl : (s.tookFree).cfl = s.cfl := rfl
@[simp] theorem tookFree_spin : (s.tookFree).spin = s.spin := rfl
@[simp] theorem tookFree_watch : (s.tookFree).watch = s.watch := rfl
@[simp] theorem tookFree_cal : (s.tookFree).cal = s.cal := rfl
@[simp] theorem tookFree_hsk : (s.tookFree).hsk = s.hsk := rfl
@[simp] theorem tookFree_cfx : (s.tookFree).cfx = s.cfx := rfl
@[simp] theorem tookFree_cores : (s.tookFree).cores = s.cores := rfl
@[simp] theorem tookFree_trust : (s.tookFree).trust = s.trust := rfl
@[simp] theorem tookFree_power : (s.tookFree).power = s.power := rfl
@[simp] theorem tookFree_rd (y : Fld) : (s.tookFree).rd y = s.rd y := rfl
@[simp] theorem tookFree_on (y : Fld) : (s.tookFree).on y = s.on y := rfl
@[simp] theorem tookFree_rdBit (y : Fld) (j : Nat) : (s.tookFree).rdBit y j = s.rdBit y j := rfl
@[simp] theorem tookFree_unit (u : UnitRef) : (s.tookFree).unit u = s.unit u := rfl
@[simp] theorem tookFree_sv (m : Fin 4) : (s.tookFree).sv m = s.sv m := rfl
@[simp] theorem tookFree_ch (m : Fin 4) : (s.tookFree).ch m = s.ch m := rfl
@[simp] theorem tookFree_eng (m : Fin 4) : (s.tookFree).eng m = s.eng m := rfl

/-! `State.reply` -/

@[simp] theorem reply_pending (v : Nat) : (s.reply v).pending = s.pending := rfl
@[simp] theorem reply_time (v : Nat) : (s.reply v).time = s.time := rfl
@[simp] theorem reply_answer (v : Nat) : (s.reply v).answer = [⟨false, v⟩] := rfl
@[simp] theorem reply_free (v : Nat) : (s.reply v).free = s.free := rfl
@[simp] theorem reply_regs (v : Nat) : (s.reply v).regs = s.regs := rfl
@[simp] theorem reply_acc (v : Nat) : (s.reply v).acc = s.acc := rfl
@[simp] theorem reply_mem (v : Nat) : (s.reply v).mem = s.mem := rfl
@[simp] theorem reply_reach (v : Nat) : (s.reply v).reach = s.reach := rfl
@[simp] theorem reply_chan (v : Nat) : (s.reply v).chan = s.chan := rfl
@[simp] theorem reply_preamp (v : Nat) : (s.reply v).preamp = s.preamp := rfl
@[simp] theorem reply_deep (v : Nat) : (s.reply v).deep = s.deep := rfl
@[simp] theorem reply_servo (v : Nat) : (s.reply v).servo = s.servo := rfl
@[simp] theorem reply_medium (v : Nat) : (s.reply v).medium = s.medium := rfl
@[simp] theorem reply_zone (v : Nat) : (s.reply v).zone = s.zone := rfl
@[simp] theorem reply_host (v : Nat) : (s.reply v).host = s.host := rfl
@[simp] theorem reply_stage (v : Nat) : (s.reply v).stage = s.stage := rfl
@[simp] theorem reply_memc (v : Nat) : (s.reply v).memc = s.memc := rfl
@[simp] theorem reply_evr (v : Nat) : (s.reply v).evr = s.evr := rfl
@[simp] theorem reply_weir (v : Nat) : (s.reply v).weir = s.weir := rfl
@[simp] theorem reply_sluice (v : Nat) : (s.reply v).sluice = s.sluice := rfl
@[simp] theorem reply_bkw (v : Nat) : (s.reply v).bkw = s.bkw := rfl
@[simp] theorem reply_flash (v : Nat) : (s.reply v).flash = s.flash := rfl
@[simp] theorem reply_cfl (v : Nat) : (s.reply v).cfl = s.cfl := rfl
@[simp] theorem reply_spin (v : Nat) : (s.reply v).spin = s.spin := rfl
@[simp] theorem reply_watch (v : Nat) : (s.reply v).watch = s.watch := rfl
@[simp] theorem reply_cal (v : Nat) : (s.reply v).cal = s.cal := rfl
@[simp] theorem reply_hsk (v : Nat) : (s.reply v).hsk = s.hsk := rfl
@[simp] theorem reply_cfx (v : Nat) : (s.reply v).cfx = s.cfx := rfl
@[simp] theorem reply_cores (v : Nat) : (s.reply v).cores = s.cores := rfl
@[simp] theorem reply_trust (v : Nat) : (s.reply v).trust = s.trust := rfl
@[simp] theorem reply_power (v : Nat) : (s.reply v).power = s.power := rfl
@[simp] theorem reply_rd (v : Nat) (y : Fld) : (s.reply v).rd y = s.rd y := rfl
@[simp] theorem reply_on (v : Nat) (y : Fld) : (s.reply v).on y = s.on y := rfl
@[simp] theorem reply_rdBit (v : Nat) (y : Fld) (j : Nat) : (s.reply v).rdBit y j = s.rdBit y j := rfl
@[simp] theorem reply_unit (v : Nat) (u : UnitRef) : (s.reply v).unit u = s.unit u := rfl
@[simp] theorem reply_sv (v : Nat) (m : Fin 4) : (s.reply v).sv m = s.sv m := rfl
@[simp] theorem reply_ch (v : Nat) (m : Fin 4) : (s.reply v).ch m = s.ch m := rfl
@[simp] theorem reply_eng (v : Nat) (m : Fin 4) : (s.reply v).eng m = s.eng m := rfl

/-! `State.busError` -/

@[simp] theorem busError_pending : (s.busError).pending = s.pending := rfl
@[simp] theorem busError_time : (s.busError).time = s.time := rfl
@[simp] theorem busError_answer : (s.busError).answer = [⟨true, 0⟩] := rfl
@[simp] theorem busError_free : (s.busError).free = s.free := rfl
@[simp] theorem busError_regs : (s.busError).regs = s.regs := rfl
@[simp] theorem busError_acc : (s.busError).acc = s.acc := rfl
@[simp] theorem busError_mem : (s.busError).mem = s.mem := rfl
@[simp] theorem busError_reach : (s.busError).reach = s.reach := rfl
@[simp] theorem busError_chan : (s.busError).chan = s.chan := rfl
@[simp] theorem busError_preamp : (s.busError).preamp = s.preamp := rfl
@[simp] theorem busError_deep : (s.busError).deep = s.deep := rfl
@[simp] theorem busError_servo : (s.busError).servo = s.servo := rfl
@[simp] theorem busError_medium : (s.busError).medium = s.medium := rfl
@[simp] theorem busError_zone : (s.busError).zone = s.zone := rfl
@[simp] theorem busError_host : (s.busError).host = s.host := rfl
@[simp] theorem busError_stage : (s.busError).stage = s.stage := rfl
@[simp] theorem busError_memc : (s.busError).memc = s.memc := rfl
@[simp] theorem busError_evr : (s.busError).evr = s.evr := rfl
@[simp] theorem busError_weir : (s.busError).weir = s.weir := rfl
@[simp] theorem busError_sluice : (s.busError).sluice = s.sluice := rfl
@[simp] theorem busError_bkw : (s.busError).bkw = s.bkw := rfl
@[simp] theorem busError_flash : (s.busError).flash = s.flash := rfl
@[simp] theorem busError_cfl : (s.busError).cfl = s.cfl := rfl
@[simp] theorem busError_spin : (s.busError).spin = s.spin := rfl
@[simp] theorem busError_watch : (s.busError).watch = s.watch := rfl
@[simp] theorem busError_cal : (s.busError).cal = s.cal := rfl
@[simp] theorem busError_hsk : (s.busError).hsk = s.hsk := rfl
@[simp] theorem busError_cfx : (s.busError).cfx = s.cfx := rfl
@[simp] theorem busError_cores : (s.busError).cores = s.cores := rfl
@[simp] theorem busError_trust : (s.busError).trust = s.trust := rfl
@[simp] theorem busError_power : (s.busError).power = s.power := rfl
@[simp] theorem busError_rd (y : Fld) : (s.busError).rd y = s.rd y := rfl
@[simp] theorem busError_on (y : Fld) : (s.busError).on y = s.on y := rfl
@[simp] theorem busError_rdBit (y : Fld) (j : Nat) : (s.busError).rdBit y j = s.rdBit y j := rfl
@[simp] theorem busError_unit (u : UnitRef) : (s.busError).unit u = s.unit u := rfl
@[simp] theorem busError_sv (m : Fin 4) : (s.busError).sv m = s.sv m := rfl
@[simp] theorem busError_ch (m : Fin 4) : (s.busError).ch m = s.ch m := rfl
@[simp] theorem busError_eng (m : Fin 4) : (s.busError).eng m = s.eng m := rfl

/-! `State.answerLoad` -/

@[simp] theorem answerLoad_pending (l : Option (List Nat)) : (s.answerLoad l).pending = s.pending := rfl
@[simp] theorem answerLoad_time (l : Option (List Nat)) : (s.answerLoad l).time = s.time := rfl
@[simp] theorem answerLoad_free (l : Option (List Nat)) : (s.answerLoad l).free = s.free := rfl
@[simp] theorem answerLoad_regs (l : Option (List Nat)) : (s.answerLoad l).regs = s.regs := rfl
@[simp] theorem answerLoad_acc (l : Option (List Nat)) : (s.answerLoad l).acc = s.acc := rfl
@[simp] theorem answerLoad_mem (l : Option (List Nat)) : (s.answerLoad l).mem = s.mem := rfl
@[simp] theorem answerLoad_reach (l : Option (List Nat)) : (s.answerLoad l).reach = s.reach := rfl
@[simp] theorem answerLoad_chan (l : Option (List Nat)) : (s.answerLoad l).chan = s.chan := rfl
@[simp] theorem answerLoad_preamp (l : Option (List Nat)) : (s.answerLoad l).preamp = s.preamp := rfl
@[simp] theorem answerLoad_deep (l : Option (List Nat)) : (s.answerLoad l).deep = s.deep := rfl
@[simp] theorem answerLoad_servo (l : Option (List Nat)) : (s.answerLoad l).servo = s.servo := rfl
@[simp] theorem answerLoad_medium (l : Option (List Nat)) : (s.answerLoad l).medium = s.medium := rfl
@[simp] theorem answerLoad_zone (l : Option (List Nat)) : (s.answerLoad l).zone = s.zone := rfl
@[simp] theorem answerLoad_host (l : Option (List Nat)) : (s.answerLoad l).host = s.host := rfl
@[simp] theorem answerLoad_stage (l : Option (List Nat)) : (s.answerLoad l).stage = s.stage := rfl
@[simp] theorem answerLoad_memc (l : Option (List Nat)) : (s.answerLoad l).memc = s.memc := rfl
@[simp] theorem answerLoad_evr (l : Option (List Nat)) : (s.answerLoad l).evr = s.evr := rfl
@[simp] theorem answerLoad_weir (l : Option (List Nat)) : (s.answerLoad l).weir = s.weir := rfl
@[simp] theorem answerLoad_sluice (l : Option (List Nat)) : (s.answerLoad l).sluice = s.sluice := rfl
@[simp] theorem answerLoad_bkw (l : Option (List Nat)) : (s.answerLoad l).bkw = s.bkw := rfl
@[simp] theorem answerLoad_flash (l : Option (List Nat)) : (s.answerLoad l).flash = s.flash := rfl
@[simp] theorem answerLoad_cfl (l : Option (List Nat)) : (s.answerLoad l).cfl = s.cfl := rfl
@[simp] theorem answerLoad_spin (l : Option (List Nat)) : (s.answerLoad l).spin = s.spin := rfl
@[simp] theorem answerLoad_watch (l : Option (List Nat)) : (s.answerLoad l).watch = s.watch := rfl
@[simp] theorem answerLoad_cal (l : Option (List Nat)) : (s.answerLoad l).cal = s.cal := rfl
@[simp] theorem answerLoad_hsk (l : Option (List Nat)) : (s.answerLoad l).hsk = s.hsk := rfl
@[simp] theorem answerLoad_cfx (l : Option (List Nat)) : (s.answerLoad l).cfx = s.cfx := rfl
@[simp] theorem answerLoad_cores (l : Option (List Nat)) : (s.answerLoad l).cores = s.cores := rfl
@[simp] theorem answerLoad_trust (l : Option (List Nat)) : (s.answerLoad l).trust = s.trust := rfl
@[simp] theorem answerLoad_power (l : Option (List Nat)) : (s.answerLoad l).power = s.power := rfl
@[simp] theorem answerLoad_rd (l : Option (List Nat)) (y : Fld) : (s.answerLoad l).rd y = s.rd y := rfl
@[simp] theorem answerLoad_on (l : Option (List Nat)) (y : Fld) : (s.answerLoad l).on y = s.on y := rfl
@[simp] theorem answerLoad_rdBit (l : Option (List Nat)) (y : Fld) (j : Nat) : (s.answerLoad l).rdBit y j = s.rdBit y j := rfl
@[simp] theorem answerLoad_unit (l : Option (List Nat)) (u : UnitRef) : (s.answerLoad l).unit u = s.unit u := rfl
@[simp] theorem answerLoad_sv (l : Option (List Nat)) (m : Fin 4) : (s.answerLoad l).sv m = s.sv m := rfl
@[simp] theorem answerLoad_ch (l : Option (List Nat)) (m : Fin 4) : (s.answerLoad l).ch m = s.ch m := rfl
@[simp] theorem answerLoad_eng (l : Option (List Nat)) (m : Fin 4) : (s.answerLoad l).eng m = s.eng m := rfl

/-! `State.raiseAs` -/

@[simp] theorem raiseAs_pending (typ inst code sev : Nat) (p : List Nat) : (s.raiseAs typ inst code sev p).pending = s.pending := rfl
@[simp] theorem raiseAs_time (typ inst code sev : Nat) (p : List Nat) : (s.raiseAs typ inst code sev p).time = s.time := rfl
@[simp] theorem raiseAs_answer (typ inst code sev : Nat) (p : List Nat) : (s.raiseAs typ inst code sev p).answer = s.answer := rfl
@[simp] theorem raiseAs_free (typ inst code sev : Nat) (p : List Nat) : (s.raiseAs typ inst code sev p).free = s.free := rfl
@[simp] theorem raiseAs_regs (typ inst code sev : Nat) (p : List Nat) : (s.raiseAs typ inst code sev p).regs = s.regs := rfl
@[simp] theorem raiseAs_acc (typ inst code sev : Nat) (p : List Nat) : (s.raiseAs typ inst code sev p).acc = s.acc := rfl
@[simp] theorem raiseAs_mem (typ inst code sev : Nat) (p : List Nat) : (s.raiseAs typ inst code sev p).mem = s.mem := rfl
@[simp] theorem raiseAs_reach (typ inst code sev : Nat) (p : List Nat) : (s.raiseAs typ inst code sev p).reach = s.reach := rfl
@[simp] theorem raiseAs_chan (typ inst code sev : Nat) (p : List Nat) : (s.raiseAs typ inst code sev p).chan = s.chan := rfl
@[simp] theorem raiseAs_preamp (typ inst code sev : Nat) (p : List Nat) : (s.raiseAs typ inst code sev p).preamp = s.preamp := rfl
@[simp] theorem raiseAs_deep (typ inst code sev : Nat) (p : List Nat) : (s.raiseAs typ inst code sev p).deep = s.deep := rfl
@[simp] theorem raiseAs_servo (typ inst code sev : Nat) (p : List Nat) : (s.raiseAs typ inst code sev p).servo = s.servo := rfl
@[simp] theorem raiseAs_medium (typ inst code sev : Nat) (p : List Nat) : (s.raiseAs typ inst code sev p).medium = s.medium := rfl
@[simp] theorem raiseAs_zone (typ inst code sev : Nat) (p : List Nat) : (s.raiseAs typ inst code sev p).zone = s.zone := rfl
@[simp] theorem raiseAs_host (typ inst code sev : Nat) (p : List Nat) : (s.raiseAs typ inst code sev p).host = s.host := rfl
@[simp] theorem raiseAs_stage (typ inst code sev : Nat) (p : List Nat) : (s.raiseAs typ inst code sev p).stage = s.stage := rfl
@[simp] theorem raiseAs_memc (typ inst code sev : Nat) (p : List Nat) : (s.raiseAs typ inst code sev p).memc = s.memc := rfl
@[simp] theorem raiseAs_evr (typ inst code sev : Nat) (p : List Nat) : (s.raiseAs typ inst code sev p).evr = { s.evr with raised := s.evr.raised ++ [⟨s.time, code, sev, inst, typ, paramBytes p, none, false⟩] } := rfl
@[simp] theorem raiseAs_weir (typ inst code sev : Nat) (p : List Nat) : (s.raiseAs typ inst code sev p).weir = s.weir := rfl
@[simp] theorem raiseAs_sluice (typ inst code sev : Nat) (p : List Nat) : (s.raiseAs typ inst code sev p).sluice = s.sluice := rfl
@[simp] theorem raiseAs_bkw (typ inst code sev : Nat) (p : List Nat) : (s.raiseAs typ inst code sev p).bkw = s.bkw := rfl
@[simp] theorem raiseAs_flash (typ inst code sev : Nat) (p : List Nat) : (s.raiseAs typ inst code sev p).flash = s.flash := rfl
@[simp] theorem raiseAs_cfl (typ inst code sev : Nat) (p : List Nat) : (s.raiseAs typ inst code sev p).cfl = s.cfl := rfl
@[simp] theorem raiseAs_spin (typ inst code sev : Nat) (p : List Nat) : (s.raiseAs typ inst code sev p).spin = s.spin := rfl
@[simp] theorem raiseAs_watch (typ inst code sev : Nat) (p : List Nat) : (s.raiseAs typ inst code sev p).watch = s.watch := rfl
@[simp] theorem raiseAs_cal (typ inst code sev : Nat) (p : List Nat) : (s.raiseAs typ inst code sev p).cal = s.cal := rfl
@[simp] theorem raiseAs_hsk (typ inst code sev : Nat) (p : List Nat) : (s.raiseAs typ inst code sev p).hsk = s.hsk := rfl
@[simp] theorem raiseAs_cfx (typ inst code sev : Nat) (p : List Nat) : (s.raiseAs typ inst code sev p).cfx = s.cfx := rfl
@[simp] theorem raiseAs_cores (typ inst code sev : Nat) (p : List Nat) : (s.raiseAs typ inst code sev p).cores = s.cores := rfl
@[simp] theorem raiseAs_trust (typ inst code sev : Nat) (p : List Nat) : (s.raiseAs typ inst code sev p).trust = s.trust := rfl
@[simp] theorem raiseAs_power (typ inst code sev : Nat) (p : List Nat) : (s.raiseAs typ inst code sev p).power = s.power := rfl
@[simp] theorem raiseAs_rd (typ inst code sev : Nat) (p : List Nat) (y : Fld) : (s.raiseAs typ inst code sev p).rd y = s.rd y := rfl
@[simp] theorem raiseAs_on (typ inst code sev : Nat) (p : List Nat) (y : Fld) : (s.raiseAs typ inst code sev p).on y = s.on y := rfl
@[simp] theorem raiseAs_rdBit (typ inst code sev : Nat) (p : List Nat) (y : Fld) (j : Nat) : (s.raiseAs typ inst code sev p).rdBit y j = s.rdBit y j := rfl
@[simp] theorem raiseAs_unit (typ inst code sev : Nat) (p : List Nat) (u : UnitRef) : (s.raiseAs typ inst code sev p).unit u = s.unit u := rfl
@[simp] theorem raiseAs_sv (typ inst code sev : Nat) (p : List Nat) (m : Fin 4) : (s.raiseAs typ inst code sev p).sv m = s.sv m := rfl
@[simp] theorem raiseAs_ch (typ inst code sev : Nat) (p : List Nat) (m : Fin 4) : (s.raiseAs typ inst code sev p).ch m = s.ch m := rfl
@[simp] theorem raiseAs_eng (typ inst code sev : Nat) (p : List Nat) (m : Fin 4) : (s.raiseAs typ inst code sev p).eng m = s.eng m := rfl

/-! `State.recovery` -/

@[simp] theorem recovery_pending : (s.recovery).pending = s.pending := rfl
@[simp] theorem recovery_time : (s.recovery).time = s.time := rfl
@[simp] theorem recovery_answer : (s.recovery).answer = s.answer := rfl
@[simp] theorem recovery_free : (s.recovery).free = s.free := rfl
@[simp] theorem recovery_regs : (s.recovery).regs = s.regs := rfl
@[simp] theorem recovery_acc : (s.recovery).acc = s.acc := rfl
@[simp] theorem recovery_mem : (s.recovery).mem = s.mem := rfl
@[simp] theorem recovery_reach : (s.recovery).reach = s.reach := rfl
@[simp] theorem recovery_chan : (s.recovery).chan = s.chan := rfl
@[simp] theorem recovery_preamp : (s.recovery).preamp = s.preamp := rfl
@[simp] theorem recovery_deep : (s.recovery).deep = s.deep := rfl
@[simp] theorem recovery_servo : (s.recovery).servo = s.servo := rfl
@[simp] theorem recovery_medium : (s.recovery).medium = s.medium := rfl
@[simp] theorem recovery_zone : (s.recovery).zone = s.zone := rfl
@[simp] theorem recovery_host : (s.recovery).host = s.host := rfl
@[simp] theorem recovery_stage : (s.recovery).stage = s.stage := rfl
@[simp] theorem recovery_memc : (s.recovery).memc = s.memc := rfl
@[simp] theorem recovery_weir : (s.recovery).weir = s.weir := rfl
@[simp] theorem recovery_sluice : (s.recovery).sluice = s.sluice := rfl
@[simp] theorem recovery_bkw : (s.recovery).bkw = s.bkw := rfl
@[simp] theorem recovery_flash : (s.recovery).flash = s.flash := rfl
@[simp] theorem recovery_cfl : (s.recovery).cfl = s.cfl := rfl
@[simp] theorem recovery_spin : (s.recovery).spin = s.spin := rfl
@[simp] theorem recovery_watch : (s.recovery).watch = s.watch := rfl
@[simp] theorem recovery_cal : (s.recovery).cal = s.cal := rfl
@[simp] theorem recovery_hsk : (s.recovery).hsk = s.hsk := rfl
@[simp] theorem recovery_cfx : (s.recovery).cfx = s.cfx := rfl
@[simp] theorem recovery_cores : (s.recovery).cores = s.cores := rfl
@[simp] theorem recovery_trust : (s.recovery).trust = s.trust := rfl
@[simp] theorem recovery_power : (s.recovery).power = s.power := rfl
@[simp] theorem recovery_rd (y : Fld) : (s.recovery).rd y = s.rd y := rfl
@[simp] theorem recovery_on (y : Fld) : (s.recovery).on y = s.on y := rfl
@[simp] theorem recovery_rdBit (y : Fld) (j : Nat) : (s.recovery).rdBit y j = s.rdBit y j := rfl
@[simp] theorem recovery_unit (u : UnitRef) : (s.recovery).unit u = s.unit u := rfl
@[simp] theorem recovery_sv (m : Fin 4) : (s.recovery).sv m = s.sv m := rfl
@[simp] theorem recovery_ch (m : Fin 4) : (s.recovery).ch m = s.ch m := rfl
@[simp] theorem recovery_eng (m : Fin 4) : (s.recovery).eng m = s.eng m := rfl

/-! `State.evrPut` -/

@[simp] theorem evrPut_pending (g : Recorder → Recorder) : (s.evrPut g).pending = s.pending := rfl
@[simp] theorem evrPut_time (g : Recorder → Recorder) : (s.evrPut g).time = s.time := rfl
@[simp] theorem evrPut_answer (g : Recorder → Recorder) : (s.evrPut g).answer = s.answer := rfl
@[simp] theorem evrPut_free (g : Recorder → Recorder) : (s.evrPut g).free = s.free := rfl
@[simp] theorem evrPut_regs (g : Recorder → Recorder) : (s.evrPut g).regs = s.regs := rfl
@[simp] theorem evrPut_acc (g : Recorder → Recorder) : (s.evrPut g).acc = s.acc := rfl
@[simp] theorem evrPut_mem (g : Recorder → Recorder) : (s.evrPut g).mem = s.mem := rfl
@[simp] theorem evrPut_reach (g : Recorder → Recorder) : (s.evrPut g).reach = s.reach := rfl
@[simp] theorem evrPut_chan (g : Recorder → Recorder) : (s.evrPut g).chan = s.chan := rfl
@[simp] theorem evrPut_preamp (g : Recorder → Recorder) : (s.evrPut g).preamp = s.preamp := rfl
@[simp] theorem evrPut_deep (g : Recorder → Recorder) : (s.evrPut g).deep = s.deep := rfl
@[simp] theorem evrPut_servo (g : Recorder → Recorder) : (s.evrPut g).servo = s.servo := rfl
@[simp] theorem evrPut_medium (g : Recorder → Recorder) : (s.evrPut g).medium = s.medium := rfl
@[simp] theorem evrPut_zone (g : Recorder → Recorder) : (s.evrPut g).zone = s.zone := rfl
@[simp] theorem evrPut_host (g : Recorder → Recorder) : (s.evrPut g).host = s.host := rfl
@[simp] theorem evrPut_stage (g : Recorder → Recorder) : (s.evrPut g).stage = s.stage := rfl
@[simp] theorem evrPut_memc (g : Recorder → Recorder) : (s.evrPut g).memc = s.memc := rfl
@[simp] theorem evrPut_evr (g : Recorder → Recorder) : (s.evrPut g).evr = g s.evr := rfl
@[simp] theorem evrPut_weir (g : Recorder → Recorder) : (s.evrPut g).weir = s.weir := rfl
@[simp] theorem evrPut_sluice (g : Recorder → Recorder) : (s.evrPut g).sluice = s.sluice := rfl
@[simp] theorem evrPut_bkw (g : Recorder → Recorder) : (s.evrPut g).bkw = s.bkw := rfl
@[simp] theorem evrPut_flash (g : Recorder → Recorder) : (s.evrPut g).flash = s.flash := rfl
@[simp] theorem evrPut_cfl (g : Recorder → Recorder) : (s.evrPut g).cfl = s.cfl := rfl
@[simp] theorem evrPut_spin (g : Recorder → Recorder) : (s.evrPut g).spin = s.spin := rfl
@[simp] theorem evrPut_watch (g : Recorder → Recorder) : (s.evrPut g).watch = s.watch := rfl
@[simp] theorem evrPut_cal (g : Recorder → Recorder) : (s.evrPut g).cal = s.cal := rfl
@[simp] theorem evrPut_hsk (g : Recorder → Recorder) : (s.evrPut g).hsk = s.hsk := rfl
@[simp] theorem evrPut_cfx (g : Recorder → Recorder) : (s.evrPut g).cfx = s.cfx := rfl
@[simp] theorem evrPut_cores (g : Recorder → Recorder) : (s.evrPut g).cores = s.cores := rfl
@[simp] theorem evrPut_trust (g : Recorder → Recorder) : (s.evrPut g).trust = s.trust := rfl
@[simp] theorem evrPut_power (g : Recorder → Recorder) : (s.evrPut g).power = s.power := rfl
@[simp] theorem evrPut_rd (g : Recorder → Recorder) (y : Fld) : (s.evrPut g).rd y = s.rd y := rfl
@[simp] theorem evrPut_on (g : Recorder → Recorder) (y : Fld) : (s.evrPut g).on y = s.on y := rfl
@[simp] theorem evrPut_rdBit (g : Recorder → Recorder) (y : Fld) (j : Nat) : (s.evrPut g).rdBit y j = s.rdBit y j := rfl
@[simp] theorem evrPut_unit (g : Recorder → Recorder) (u : UnitRef) : (s.evrPut g).unit u = s.unit u := rfl
@[simp] theorem evrPut_sv (g : Recorder → Recorder) (m : Fin 4) : (s.evrPut g).sv m = s.sv m := rfl
@[simp] theorem evrPut_ch (g : Recorder → Recorder) (m : Fin 4) : (s.evrPut g).ch m = s.ch m := rfl
@[simp] theorem evrPut_eng (g : Recorder → Recorder) (m : Fin 4) : (s.evrPut g).eng m = s.eng m := rfl

/-! `State.putWord` -/

@[simp] theorem putWord_pending (w v : Nat) : (s.putWord w v).pending = s.pending := rfl
@[simp] theorem putWord_time (w v : Nat) : (s.putWord w v).time = s.time := rfl
@[simp] theorem putWord_answer (w v : Nat) : (s.putWord w v).answer = s.answer := rfl
@[simp] theorem putWord_free (w v : Nat) : (s.putWord w v).free = s.free := rfl
@[simp] theorem putWord_regs (w v : Nat) : (s.putWord w v).regs = s.regs := rfl
@[simp] theorem putWord_acc (w v : Nat) : (s.putWord w v).acc = s.acc := rfl
@[simp] theorem putWord_mem (w v : Nat) : (s.putWord w v).mem = memPutBytes s.mem (8 * w) (leBytes 8 v) := rfl
@[simp] theorem putWord_reach (w v : Nat) : (s.putWord w v).reach = s.reach := rfl
@[simp] theorem putWord_chan (w v : Nat) : (s.putWord w v).chan = s.chan := rfl
@[simp] theorem putWord_preamp (w v : Nat) : (s.putWord w v).preamp = s.preamp := rfl
@[simp] theorem putWord_deep (w v : Nat) : (s.putWord w v).deep = s.deep := rfl
@[simp] theorem putWord_servo (w v : Nat) : (s.putWord w v).servo = s.servo := rfl
@[simp] theorem putWord_medium (w v : Nat) : (s.putWord w v).medium = s.medium := rfl
@[simp] theorem putWord_zone (w v : Nat) : (s.putWord w v).zone = s.zone := rfl
@[simp] theorem putWord_host (w v : Nat) : (s.putWord w v).host = s.host := rfl
@[simp] theorem putWord_stage (w v : Nat) : (s.putWord w v).stage = s.stage := rfl
@[simp] theorem putWord_memc (w v : Nat) : (s.putWord w v).memc = s.memc := rfl
@[simp] theorem putWord_evr (w v : Nat) : (s.putWord w v).evr = s.evr := rfl
@[simp] theorem putWord_weir (w v : Nat) : (s.putWord w v).weir = s.weir := rfl
@[simp] theorem putWord_sluice (w v : Nat) : (s.putWord w v).sluice = s.sluice := rfl
@[simp] theorem putWord_bkw (w v : Nat) : (s.putWord w v).bkw = s.bkw := rfl
@[simp] theorem putWord_flash (w v : Nat) : (s.putWord w v).flash = s.flash := rfl
@[simp] theorem putWord_cfl (w v : Nat) : (s.putWord w v).cfl = s.cfl := rfl
@[simp] theorem putWord_spin (w v : Nat) : (s.putWord w v).spin = s.spin := rfl
@[simp] theorem putWord_watch (w v : Nat) : (s.putWord w v).watch = s.watch := rfl
@[simp] theorem putWord_cal (w v : Nat) : (s.putWord w v).cal = s.cal := rfl
@[simp] theorem putWord_hsk (w v : Nat) : (s.putWord w v).hsk = s.hsk := rfl
@[simp] theorem putWord_cfx (w v : Nat) : (s.putWord w v).cfx = s.cfx := rfl
@[simp] theorem putWord_cores (w v : Nat) : (s.putWord w v).cores = s.cores := rfl
@[simp] theorem putWord_trust (w v : Nat) : (s.putWord w v).trust = s.trust := rfl
@[simp] theorem putWord_power (w v : Nat) : (s.putWord w v).power = s.power := rfl
@[simp] theorem putWord_rd (w v : Nat) (y : Fld) : (s.putWord w v).rd y = s.rd y := rfl
@[simp] theorem putWord_on (w v : Nat) (y : Fld) : (s.putWord w v).on y = s.on y := rfl
@[simp] theorem putWord_rdBit (w v : Nat) (y : Fld) (j : Nat) : (s.putWord w v).rdBit y j = s.rdBit y j := rfl
@[simp] theorem putWord_unit (w v : Nat) (u : UnitRef) : (s.putWord w v).unit u = s.unit u := rfl
@[simp] theorem putWord_sv (w v : Nat) (m : Fin 4) : (s.putWord w v).sv m = s.sv m := rfl
@[simp] theorem putWord_ch (w v : Nat) (m : Fin 4) : (s.putWord w v).ch m = s.ch m := rfl
@[simp] theorem putWord_eng (w v : Nat) (m : Fin 4) : (s.putWord w v).eng m = s.eng m := rfl

/-! `State.setErr` -/

@[simp] theorem setErr_pending (w e : Nat) : (s.setErr w e).pending = s.pending := rfl
@[simp] theorem setErr_time (w e : Nat) : (s.setErr w e).time = s.time := rfl
@[simp] theorem setErr_answer (w e : Nat) : (s.setErr w e).answer = s.answer := rfl
@[simp] theorem setErr_free (w e : Nat) : (s.setErr w e).free = s.free := rfl
@[simp] theorem setErr_regs (w e : Nat) : (s.setErr w e).regs = s.regs := rfl
@[simp] theorem setErr_acc (w e : Nat) : (s.setErr w e).acc = s.acc := rfl
@[simp] theorem setErr_mem (w e : Nat) : (s.setErr w e).mem = s.mem := rfl
@[simp] theorem setErr_reach (w e : Nat) : (s.setErr w e).reach = s.reach := rfl
@[simp] theorem setErr_chan (w e : Nat) : (s.setErr w e).chan = s.chan := rfl
@[simp] theorem setErr_preamp (w e : Nat) : (s.setErr w e).preamp = s.preamp := rfl
@[simp] theorem setErr_deep (w e : Nat) : (s.setErr w e).deep = s.deep := rfl
@[simp] theorem setErr_servo (w e : Nat) : (s.setErr w e).servo = s.servo := rfl
@[simp] theorem setErr_medium (w e : Nat) : (s.setErr w e).medium = s.medium := rfl
@[simp] theorem setErr_zone (w e : Nat) : (s.setErr w e).zone = s.zone := rfl
@[simp] theorem setErr_host (w e : Nat) : (s.setErr w e).host = s.host := rfl
@[simp] theorem setErr_stage (w e : Nat) : (s.setErr w e).stage = s.stage := rfl
@[simp] theorem setErr_memc (w e : Nat) : (s.setErr w e).memc = { s.memc with errs := tset 0 s.memc.errs w (e % 2 ^ 80) } := rfl
@[simp] theorem setErr_evr (w e : Nat) : (s.setErr w e).evr = s.evr := rfl
@[simp] theorem setErr_weir (w e : Nat) : (s.setErr w e).weir = s.weir := rfl
@[simp] theorem setErr_sluice (w e : Nat) : (s.setErr w e).sluice = s.sluice := rfl
@[simp] theorem setErr_bkw (w e : Nat) : (s.setErr w e).bkw = s.bkw := rfl
@[simp] theorem setErr_flash (w e : Nat) : (s.setErr w e).flash = s.flash := rfl
@[simp] theorem setErr_cfl (w e : Nat) : (s.setErr w e).cfl = s.cfl := rfl
@[simp] theorem setErr_spin (w e : Nat) : (s.setErr w e).spin = s.spin := rfl
@[simp] theorem setErr_watch (w e : Nat) : (s.setErr w e).watch = s.watch := rfl
@[simp] theorem setErr_cal (w e : Nat) : (s.setErr w e).cal = s.cal := rfl
@[simp] theorem setErr_hsk (w e : Nat) : (s.setErr w e).hsk = s.hsk := rfl
@[simp] theorem setErr_cfx (w e : Nat) : (s.setErr w e).cfx = s.cfx := rfl
@[simp] theorem setErr_cores (w e : Nat) : (s.setErr w e).cores = s.cores := rfl
@[simp] theorem setErr_trust (w e : Nat) : (s.setErr w e).trust = s.trust := rfl
@[simp] theorem setErr_power (w e : Nat) : (s.setErr w e).power = s.power := rfl
@[simp] theorem setErr_rd (w e : Nat) (y : Fld) : (s.setErr w e).rd y = s.rd y := rfl
@[simp] theorem setErr_on (w e : Nat) (y : Fld) : (s.setErr w e).on y = s.on y := rfl
@[simp] theorem setErr_rdBit (w e : Nat) (y : Fld) (j : Nat) : (s.setErr w e).rdBit y j = s.rdBit y j := rfl
@[simp] theorem setErr_unit (w e : Nat) (u : UnitRef) : (s.setErr w e).unit u = s.unit u := rfl
@[simp] theorem setErr_sv (w e : Nat) (m : Fin 4) : (s.setErr w e).sv m = s.sv m := rfl
@[simp] theorem setErr_ch (w e : Nat) (m : Fin 4) : (s.setErr w e).ch m = s.ch m := rfl
@[simp] theorem setErr_eng (w e : Nat) (m : Fin 4) : (s.setErr w e).eng m = s.eng m := rfl

/-! `State.ctxSync` -/

@[simp] theorem ctxSync_pending (c : Nat) : (s.ctxSync c).pending = s.pending := rfl
@[simp] theorem ctxSync_time (c : Nat) : (s.ctxSync c).time = s.time := rfl
@[simp] theorem ctxSync_answer (c : Nat) : (s.ctxSync c).answer = s.answer := rfl
@[simp] theorem ctxSync_free (c : Nat) : (s.ctxSync c).free = s.free := rfl
@[simp] theorem ctxSync_regs (c : Nat) : (s.ctxSync c).regs = s.regs := rfl
@[simp] theorem ctxSync_acc (c : Nat) : (s.ctxSync c).acc = s.acc := rfl
@[simp] theorem ctxSync_reach (c : Nat) : (s.ctxSync c).reach = s.reach := rfl
@[simp] theorem ctxSync_chan (c : Nat) : (s.ctxSync c).chan = s.chan := rfl
@[simp] theorem ctxSync_preamp (c : Nat) : (s.ctxSync c).preamp = s.preamp := rfl
@[simp] theorem ctxSync_deep (c : Nat) : (s.ctxSync c).deep = s.deep := rfl
@[simp] theorem ctxSync_servo (c : Nat) : (s.ctxSync c).servo = s.servo := rfl
@[simp] theorem ctxSync_medium (c : Nat) : (s.ctxSync c).medium = s.medium := rfl
@[simp] theorem ctxSync_zone (c : Nat) : (s.ctxSync c).zone = s.zone := rfl
@[simp] theorem ctxSync_host (c : Nat) : (s.ctxSync c).host = s.host := rfl
@[simp] theorem ctxSync_stage (c : Nat) : (s.ctxSync c).stage = s.stage := rfl
@[simp] theorem ctxSync_memc (c : Nat) : (s.ctxSync c).memc = s.memc := rfl
@[simp] theorem ctxSync_evr (c : Nat) : (s.ctxSync c).evr = s.evr := rfl
@[simp] theorem ctxSync_weir (c : Nat) : (s.ctxSync c).weir = s.weir := rfl
@[simp] theorem ctxSync_sluice (c : Nat) : (s.ctxSync c).sluice = s.sluice := rfl
@[simp] theorem ctxSync_bkw (c : Nat) : (s.ctxSync c).bkw = s.bkw := rfl
@[simp] theorem ctxSync_flash (c : Nat) : (s.ctxSync c).flash = s.flash := rfl
@[simp] theorem ctxSync_cfl (c : Nat) : (s.ctxSync c).cfl = s.cfl := rfl
@[simp] theorem ctxSync_spin (c : Nat) : (s.ctxSync c).spin = s.spin := rfl
@[simp] theorem ctxSync_watch (c : Nat) : (s.ctxSync c).watch = s.watch := rfl
@[simp] theorem ctxSync_cal (c : Nat) : (s.ctxSync c).cal = s.cal := rfl
@[simp] theorem ctxSync_hsk (c : Nat) : (s.ctxSync c).hsk = s.hsk := rfl
@[simp] theorem ctxSync_cfx (c : Nat) : (s.ctxSync c).cfx = s.cfx := rfl
@[simp] theorem ctxSync_cores (c : Nat) : (s.ctxSync c).cores = s.cores := rfl
@[simp] theorem ctxSync_trust (c : Nat) : (s.ctxSync c).trust = s.trust := rfl
@[simp] theorem ctxSync_power (c : Nat) : (s.ctxSync c).power = s.power := rfl
@[simp] theorem ctxSync_rd (c : Nat) (y : Fld) : (s.ctxSync c).rd y = s.rd y := rfl
@[simp] theorem ctxSync_on (c : Nat) (y : Fld) : (s.ctxSync c).on y = s.on y := rfl
@[simp] theorem ctxSync_rdBit (c : Nat) (y : Fld) (j : Nat) : (s.ctxSync c).rdBit y j = s.rdBit y j := rfl
@[simp] theorem ctxSync_unit (c : Nat) (u : UnitRef) : (s.ctxSync c).unit u = s.unit u := rfl
@[simp] theorem ctxSync_sv (c : Nat) (m : Fin 4) : (s.ctxSync c).sv m = s.sv m := rfl
@[simp] theorem ctxSync_ch (c : Nat) (m : Fin 4) : (s.ctxSync c).ch m = s.ch m := rfl
@[simp] theorem ctxSync_eng (c : Nat) (m : Fin 4) : (s.ctxSync c).eng m = s.eng m := rfl

/-! `State.tookFrees` -/

@[simp] theorem tookFrees_pending (k : Nat) : (s.tookFrees k).pending = s.pending := rfl
@[simp] theorem tookFrees_time (k : Nat) : (s.tookFrees k).time = s.time := rfl
@[simp] theorem tookFrees_answer (k : Nat) : (s.tookFrees k).answer = s.answer := rfl
@[simp] theorem tookFrees_free (k : Nat) : (s.tookFrees k).free = s.free + k := rfl
@[simp] theorem tookFrees_regs (k : Nat) : (s.tookFrees k).regs = s.regs := rfl
@[simp] theorem tookFrees_acc (k : Nat) : (s.tookFrees k).acc = s.acc := rfl
@[simp] theorem tookFrees_mem (k : Nat) : (s.tookFrees k).mem = s.mem := rfl
@[simp] theorem tookFrees_reach (k : Nat) : (s.tookFrees k).reach = s.reach := rfl
@[simp] theorem tookFrees_chan (k : Nat) : (s.tookFrees k).chan = s.chan := rfl
@[simp] theorem tookFrees_preamp (k : Nat) : (s.tookFrees k).preamp = s.preamp := rfl
@[simp] theorem tookFrees_deep (k : Nat) : (s.tookFrees k).deep = s.deep := rfl
@[simp] theorem tookFrees_servo (k : Nat) : (s.tookFrees k).servo = s.servo := rfl
@[simp] theorem tookFrees_medium (k : Nat) : (s.tookFrees k).medium = s.medium := rfl
@[simp] theorem tookFrees_zone (k : Nat) : (s.tookFrees k).zone = s.zone := rfl
@[simp] theorem tookFrees_host (k : Nat) : (s.tookFrees k).host = s.host := rfl
@[simp] theorem tookFrees_stage (k : Nat) : (s.tookFrees k).stage = s.stage := rfl
@[simp] theorem tookFrees_memc (k : Nat) : (s.tookFrees k).memc = s.memc := rfl
@[simp] theorem tookFrees_evr (k : Nat) : (s.tookFrees k).evr = s.evr := rfl
@[simp] theorem tookFrees_weir (k : Nat) : (s.tookFrees k).weir = s.weir := rfl
@[simp] theorem tookFrees_sluice (k : Nat) : (s.tookFrees k).sluice = s.sluice := rfl
@[simp] theorem tookFrees_bkw (k : Nat) : (s.tookFrees k).bkw = s.bkw := rfl
@[simp] theorem tookFrees_flash (k : Nat) : (s.tookFrees k).flash = s.flash := rfl
@[simp] theorem tookFrees_cfl (k : Nat) : (s.tookFrees k).cfl = s.cfl := rfl
@[simp] theorem tookFrees_spin (k : Nat) : (s.tookFrees k).spin = s.spin := rfl
@[simp] theorem tookFrees_watch (k : Nat) : (s.tookFrees k).watch = s.watch := rfl
@[simp] theorem tookFrees_cal (k : Nat) : (s.tookFrees k).cal = s.cal := rfl
@[simp] theorem tookFrees_hsk (k : Nat) : (s.tookFrees k).hsk = s.hsk := rfl
@[simp] theorem tookFrees_cfx (k : Nat) : (s.tookFrees k).cfx = s.cfx := rfl
@[simp] theorem tookFrees_cores (k : Nat) : (s.tookFrees k).cores = s.cores := rfl
@[simp] theorem tookFrees_trust (k : Nat) : (s.tookFrees k).trust = s.trust := rfl
@[simp] theorem tookFrees_power (k : Nat) : (s.tookFrees k).power = s.power := rfl
@[simp] theorem tookFrees_rd (k : Nat) (y : Fld) : (s.tookFrees k).rd y = s.rd y := rfl
@[simp] theorem tookFrees_on (k : Nat) (y : Fld) : (s.tookFrees k).on y = s.on y := rfl
@[simp] theorem tookFrees_rdBit (k : Nat) (y : Fld) (j : Nat) : (s.tookFrees k).rdBit y j = s.rdBit y j := rfl
@[simp] theorem tookFrees_unit (k : Nat) (u : UnitRef) : (s.tookFrees k).unit u = s.unit u := rfl
@[simp] theorem tookFrees_sv (k : Nat) (m : Fin 4) : (s.tookFrees k).sv m = s.sv m := rfl
@[simp] theorem tookFrees_ch (k : Nat) (m : Fin 4) : (s.tookFrees k).ch m = s.ch m := rfl
@[simp] theorem tookFrees_eng (k : Nat) (m : Fin 4) : (s.tookFrees k).eng m = s.eng m := rfl

/-! `State.hput` -/

@[simp] theorem hput_pending (g : HostSide → HostSide) : (s.hput g).pending = s.pending := rfl
@[simp] theorem hput_time (g : HostSide → HostSide) : (s.hput g).time = s.time := rfl
@[simp] theorem hput_answer (g : HostSide → HostSide) : (s.hput g).answer = s.answer := rfl
@[simp] theorem hput_free (g : HostSide → HostSide) : (s.hput g).free = s.free := rfl
@[simp] theorem hput_regs (g : HostSide → HostSide) : (s.hput g).regs = s.regs := rfl
@[simp] theorem hput_acc (g : HostSide → HostSide) : (s.hput g).acc = s.acc := rfl
@[simp] theorem hput_mem (g : HostSide → HostSide) : (s.hput g).mem = s.mem := rfl
@[simp] theorem hput_reach (g : HostSide → HostSide) : (s.hput g).reach = s.reach := rfl
@[simp] theorem hput_chan (g : HostSide → HostSide) : (s.hput g).chan = s.chan := rfl
@[simp] theorem hput_preamp (g : HostSide → HostSide) : (s.hput g).preamp = s.preamp := rfl
@[simp] theorem hput_deep (g : HostSide → HostSide) : (s.hput g).deep = s.deep := rfl
@[simp] theorem hput_servo (g : HostSide → HostSide) : (s.hput g).servo = s.servo := rfl
@[simp] theorem hput_medium (g : HostSide → HostSide) : (s.hput g).medium = s.medium := rfl
@[simp] theorem hput_zone (g : HostSide → HostSide) : (s.hput g).zone = s.zone := rfl
@[simp] theorem hput_host (g : HostSide → HostSide) : (s.hput g).host = g s.host := rfl
@[simp] theorem hput_stage (g : HostSide → HostSide) : (s.hput g).stage = s.stage := rfl
@[simp] theorem hput_memc (g : HostSide → HostSide) : (s.hput g).memc = s.memc := rfl
@[simp] theorem hput_evr (g : HostSide → HostSide) : (s.hput g).evr = s.evr := rfl
@[simp] theorem hput_weir (g : HostSide → HostSide) : (s.hput g).weir = s.weir := rfl
@[simp] theorem hput_sluice (g : HostSide → HostSide) : (s.hput g).sluice = s.sluice := rfl
@[simp] theorem hput_bkw (g : HostSide → HostSide) : (s.hput g).bkw = s.bkw := rfl
@[simp] theorem hput_flash (g : HostSide → HostSide) : (s.hput g).flash = s.flash := rfl
@[simp] theorem hput_cfl (g : HostSide → HostSide) : (s.hput g).cfl = s.cfl := rfl
@[simp] theorem hput_spin (g : HostSide → HostSide) : (s.hput g).spin = s.spin := rfl
@[simp] theorem hput_watch (g : HostSide → HostSide) : (s.hput g).watch = s.watch := rfl
@[simp] theorem hput_cal (g : HostSide → HostSide) : (s.hput g).cal = s.cal := rfl
@[simp] theorem hput_hsk (g : HostSide → HostSide) : (s.hput g).hsk = s.hsk := rfl
@[simp] theorem hput_cfx (g : HostSide → HostSide) : (s.hput g).cfx = s.cfx := rfl
@[simp] theorem hput_cores (g : HostSide → HostSide) : (s.hput g).cores = s.cores := rfl
@[simp] theorem hput_trust (g : HostSide → HostSide) : (s.hput g).trust = s.trust := rfl
@[simp] theorem hput_power (g : HostSide → HostSide) : (s.hput g).power = s.power := rfl
@[simp] theorem hput_rd (g : HostSide → HostSide) (y : Fld) : (s.hput g).rd y = s.rd y := rfl
@[simp] theorem hput_on (g : HostSide → HostSide) (y : Fld) : (s.hput g).on y = s.on y := rfl
@[simp] theorem hput_rdBit (g : HostSide → HostSide) (y : Fld) (j : Nat) : (s.hput g).rdBit y j = s.rdBit y j := rfl
@[simp] theorem hput_unit (g : HostSide → HostSide) (u : UnitRef) : (s.hput g).unit u = s.unit u := rfl
@[simp] theorem hput_sv (g : HostSide → HostSide) (m : Fin 4) : (s.hput g).sv m = s.sv m := rfl
@[simp] theorem hput_ch (g : HostSide → HostSide) (m : Fin 4) : (s.hput g).ch m = s.ch m := rfl
@[simp] theorem hput_eng (g : HostSide → HostSide) (m : Fin 4) : (s.hput g).eng m = s.eng m := rfl

/-! `State.updEng` -/

@[simp] theorem updEng_pending (n : Fin 4) (g : Reach → Reach) : (s.updEng n g).pending = s.pending := rfl
@[simp] theorem updEng_time (n : Fin 4) (g : Reach → Reach) : (s.updEng n g).time = s.time := rfl
@[simp] theorem updEng_answer (n : Fin 4) (g : Reach → Reach) : (s.updEng n g).answer = s.answer := rfl
@[simp] theorem updEng_free (n : Fin 4) (g : Reach → Reach) : (s.updEng n g).free = s.free := rfl
@[simp] theorem updEng_regs (n : Fin 4) (g : Reach → Reach) : (s.updEng n g).regs = s.regs := rfl
@[simp] theorem updEng_acc (n : Fin 4) (g : Reach → Reach) : (s.updEng n g).acc = s.acc := rfl
@[simp] theorem updEng_mem (n : Fin 4) (g : Reach → Reach) : (s.updEng n g).mem = s.mem := rfl
@[simp] theorem updEng_reach (n : Fin 4) (g : Reach → Reach) : (s.updEng n g).reach = s.reach.upd n g := rfl
@[simp] theorem updEng_chan (n : Fin 4) (g : Reach → Reach) : (s.updEng n g).chan = s.chan := rfl
@[simp] theorem updEng_preamp (n : Fin 4) (g : Reach → Reach) : (s.updEng n g).preamp = s.preamp := rfl
@[simp] theorem updEng_deep (n : Fin 4) (g : Reach → Reach) : (s.updEng n g).deep = s.deep := rfl
@[simp] theorem updEng_servo (n : Fin 4) (g : Reach → Reach) : (s.updEng n g).servo = s.servo := rfl
@[simp] theorem updEng_medium (n : Fin 4) (g : Reach → Reach) : (s.updEng n g).medium = s.medium := rfl
@[simp] theorem updEng_zone (n : Fin 4) (g : Reach → Reach) : (s.updEng n g).zone = s.zone := rfl
@[simp] theorem updEng_host (n : Fin 4) (g : Reach → Reach) : (s.updEng n g).host = s.host := rfl
@[simp] theorem updEng_stage (n : Fin 4) (g : Reach → Reach) : (s.updEng n g).stage = s.stage := rfl
@[simp] theorem updEng_memc (n : Fin 4) (g : Reach → Reach) : (s.updEng n g).memc = s.memc := rfl
@[simp] theorem updEng_evr (n : Fin 4) (g : Reach → Reach) : (s.updEng n g).evr = s.evr := rfl
@[simp] theorem updEng_weir (n : Fin 4) (g : Reach → Reach) : (s.updEng n g).weir = s.weir := rfl
@[simp] theorem updEng_sluice (n : Fin 4) (g : Reach → Reach) : (s.updEng n g).sluice = s.sluice := rfl
@[simp] theorem updEng_bkw (n : Fin 4) (g : Reach → Reach) : (s.updEng n g).bkw = s.bkw := rfl
@[simp] theorem updEng_flash (n : Fin 4) (g : Reach → Reach) : (s.updEng n g).flash = s.flash := rfl
@[simp] theorem updEng_cfl (n : Fin 4) (g : Reach → Reach) : (s.updEng n g).cfl = s.cfl := rfl
@[simp] theorem updEng_spin (n : Fin 4) (g : Reach → Reach) : (s.updEng n g).spin = s.spin := rfl
@[simp] theorem updEng_watch (n : Fin 4) (g : Reach → Reach) : (s.updEng n g).watch = s.watch := rfl
@[simp] theorem updEng_cal (n : Fin 4) (g : Reach → Reach) : (s.updEng n g).cal = s.cal := rfl
@[simp] theorem updEng_hsk (n : Fin 4) (g : Reach → Reach) : (s.updEng n g).hsk = s.hsk := rfl
@[simp] theorem updEng_cfx (n : Fin 4) (g : Reach → Reach) : (s.updEng n g).cfx = s.cfx := rfl
@[simp] theorem updEng_cores (n : Fin 4) (g : Reach → Reach) : (s.updEng n g).cores = s.cores := rfl
@[simp] theorem updEng_trust (n : Fin 4) (g : Reach → Reach) : (s.updEng n g).trust = s.trust := rfl
@[simp] theorem updEng_power (n : Fin 4) (g : Reach → Reach) : (s.updEng n g).power = s.power := rfl
@[simp] theorem updEng_rd (n : Fin 4) (g : Reach → Reach) (y : Fld) : (s.updEng n g).rd y = s.rd y := rfl
@[simp] theorem updEng_on (n : Fin 4) (g : Reach → Reach) (y : Fld) : (s.updEng n g).on y = s.on y := rfl
@[simp] theorem updEng_rdBit (n : Fin 4) (g : Reach → Reach) (y : Fld) (j : Nat) : (s.updEng n g).rdBit y j = s.rdBit y j := rfl
@[simp] theorem updEng_unit (n : Fin 4) (g : Reach → Reach) (u : UnitRef) : (s.updEng n g).unit u = s.unit u := rfl
@[simp] theorem updEng_sv (n : Fin 4) (g : Reach → Reach) (m : Fin 4) : (s.updEng n g).sv m = s.sv m := rfl
@[simp] theorem updEng_ch (n : Fin 4) (g : Reach → Reach) (m : Fin 4) : (s.updEng n g).ch m = s.ch m := rfl

/-! `State.updCh` -/

@[simp] theorem updCh_pending (n : Fin 4) (g : Chan → Chan) : (s.updCh n g).pending = s.pending := rfl
@[simp] theorem updCh_time (n : Fin 4) (g : Chan → Chan) : (s.updCh n g).time = s.time := rfl
@[simp] theorem updCh_answer (n : Fin 4) (g : Chan → Chan) : (s.updCh n g).answer = s.answer := rfl
@[simp] theorem updCh_free (n : Fin 4) (g : Chan → Chan) : (s.updCh n g).free = s.free := rfl
@[simp] theorem updCh_regs (n : Fin 4) (g : Chan → Chan) : (s.updCh n g).regs = s.regs := rfl
@[simp] theorem updCh_acc (n : Fin 4) (g : Chan → Chan) : (s.updCh n g).acc = s.acc := rfl
@[simp] theorem updCh_mem (n : Fin 4) (g : Chan → Chan) : (s.updCh n g).mem = s.mem := rfl
@[simp] theorem updCh_reach (n : Fin 4) (g : Chan → Chan) : (s.updCh n g).reach = s.reach := rfl
@[simp] theorem updCh_chan (n : Fin 4) (g : Chan → Chan) : (s.updCh n g).chan = s.chan.upd n g := rfl
@[simp] theorem updCh_preamp (n : Fin 4) (g : Chan → Chan) : (s.updCh n g).preamp = s.preamp := rfl
@[simp] theorem updCh_deep (n : Fin 4) (g : Chan → Chan) : (s.updCh n g).deep = s.deep := rfl
@[simp] theorem updCh_servo (n : Fin 4) (g : Chan → Chan) : (s.updCh n g).servo = s.servo := rfl
@[simp] theorem updCh_medium (n : Fin 4) (g : Chan → Chan) : (s.updCh n g).medium = s.medium := rfl
@[simp] theorem updCh_zone (n : Fin 4) (g : Chan → Chan) : (s.updCh n g).zone = s.zone := rfl
@[simp] theorem updCh_host (n : Fin 4) (g : Chan → Chan) : (s.updCh n g).host = s.host := rfl
@[simp] theorem updCh_stage (n : Fin 4) (g : Chan → Chan) : (s.updCh n g).stage = s.stage := rfl
@[simp] theorem updCh_memc (n : Fin 4) (g : Chan → Chan) : (s.updCh n g).memc = s.memc := rfl
@[simp] theorem updCh_evr (n : Fin 4) (g : Chan → Chan) : (s.updCh n g).evr = s.evr := rfl
@[simp] theorem updCh_weir (n : Fin 4) (g : Chan → Chan) : (s.updCh n g).weir = s.weir := rfl
@[simp] theorem updCh_sluice (n : Fin 4) (g : Chan → Chan) : (s.updCh n g).sluice = s.sluice := rfl
@[simp] theorem updCh_bkw (n : Fin 4) (g : Chan → Chan) : (s.updCh n g).bkw = s.bkw := rfl
@[simp] theorem updCh_flash (n : Fin 4) (g : Chan → Chan) : (s.updCh n g).flash = s.flash := rfl
@[simp] theorem updCh_cfl (n : Fin 4) (g : Chan → Chan) : (s.updCh n g).cfl = s.cfl := rfl
@[simp] theorem updCh_spin (n : Fin 4) (g : Chan → Chan) : (s.updCh n g).spin = s.spin := rfl
@[simp] theorem updCh_watch (n : Fin 4) (g : Chan → Chan) : (s.updCh n g).watch = s.watch := rfl
@[simp] theorem updCh_cal (n : Fin 4) (g : Chan → Chan) : (s.updCh n g).cal = s.cal := rfl
@[simp] theorem updCh_hsk (n : Fin 4) (g : Chan → Chan) : (s.updCh n g).hsk = s.hsk := rfl
@[simp] theorem updCh_cfx (n : Fin 4) (g : Chan → Chan) : (s.updCh n g).cfx = s.cfx := rfl
@[simp] theorem updCh_cores (n : Fin 4) (g : Chan → Chan) : (s.updCh n g).cores = s.cores := rfl
@[simp] theorem updCh_trust (n : Fin 4) (g : Chan → Chan) : (s.updCh n g).trust = s.trust := rfl
@[simp] theorem updCh_power (n : Fin 4) (g : Chan → Chan) : (s.updCh n g).power = s.power := rfl
@[simp] theorem updCh_rd (n : Fin 4) (g : Chan → Chan) (y : Fld) : (s.updCh n g).rd y = s.rd y := rfl
@[simp] theorem updCh_on (n : Fin 4) (g : Chan → Chan) (y : Fld) : (s.updCh n g).on y = s.on y := rfl
@[simp] theorem updCh_rdBit (n : Fin 4) (g : Chan → Chan) (y : Fld) (j : Nat) : (s.updCh n g).rdBit y j = s.rdBit y j := rfl
@[simp] theorem updCh_unit (n : Fin 4) (g : Chan → Chan) (u : UnitRef) : (s.updCh n g).unit u = s.unit u := rfl
@[simp] theorem updCh_sv (n : Fin 4) (g : Chan → Chan) (m : Fin 4) : (s.updCh n g).sv m = s.sv m := rfl
@[simp] theorem updCh_eng (n : Fin 4) (g : Chan → Chan) (m : Fin 4) : (s.updCh n g).eng m = s.eng m := rfl

/-! `State.updPreamp` -/

@[simp] theorem updPreamp_pending (n : Fin 4) (g : Preamp → Preamp) : (s.updPreamp n g).pending = s.pending := rfl
@[simp] theorem updPreamp_time (n : Fin 4) (g : Preamp → Preamp) : (s.updPreamp n g).time = s.time := rfl
@[simp] theorem updPreamp_answer (n : Fin 4) (g : Preamp → Preamp) : (s.updPreamp n g).answer = s.answer := rfl
@[simp] theorem updPreamp_free (n : Fin 4) (g : Preamp → Preamp) : (s.updPreamp n g).free = s.free := rfl
@[simp] theorem updPreamp_regs (n : Fin 4) (g : Preamp → Preamp) : (s.updPreamp n g).regs = s.regs := rfl
@[simp] theorem updPreamp_acc (n : Fin 4) (g : Preamp → Preamp) : (s.updPreamp n g).acc = s.acc := rfl
@[simp] theorem updPreamp_mem (n : Fin 4) (g : Preamp → Preamp) : (s.updPreamp n g).mem = s.mem := rfl
@[simp] theorem updPreamp_reach (n : Fin 4) (g : Preamp → Preamp) : (s.updPreamp n g).reach = s.reach := rfl
@[simp] theorem updPreamp_chan (n : Fin 4) (g : Preamp → Preamp) : (s.updPreamp n g).chan = s.chan := rfl
@[simp] theorem updPreamp_preamp (n : Fin 4) (g : Preamp → Preamp) : (s.updPreamp n g).preamp = s.preamp.upd n g := rfl
@[simp] theorem updPreamp_deep (n : Fin 4) (g : Preamp → Preamp) : (s.updPreamp n g).deep = s.deep := rfl
@[simp] theorem updPreamp_servo (n : Fin 4) (g : Preamp → Preamp) : (s.updPreamp n g).servo = s.servo := rfl
@[simp] theorem updPreamp_medium (n : Fin 4) (g : Preamp → Preamp) : (s.updPreamp n g).medium = s.medium := rfl
@[simp] theorem updPreamp_zone (n : Fin 4) (g : Preamp → Preamp) : (s.updPreamp n g).zone = s.zone := rfl
@[simp] theorem updPreamp_host (n : Fin 4) (g : Preamp → Preamp) : (s.updPreamp n g).host = s.host := rfl
@[simp] theorem updPreamp_stage (n : Fin 4) (g : Preamp → Preamp) : (s.updPreamp n g).stage = s.stage := rfl
@[simp] theorem updPreamp_memc (n : Fin 4) (g : Preamp → Preamp) : (s.updPreamp n g).memc = s.memc := rfl
@[simp] theorem updPreamp_evr (n : Fin 4) (g : Preamp → Preamp) : (s.updPreamp n g).evr = s.evr := rfl
@[simp] theorem updPreamp_weir (n : Fin 4) (g : Preamp → Preamp) : (s.updPreamp n g).weir = s.weir := rfl
@[simp] theorem updPreamp_sluice (n : Fin 4) (g : Preamp → Preamp) : (s.updPreamp n g).sluice = s.sluice := rfl
@[simp] theorem updPreamp_bkw (n : Fin 4) (g : Preamp → Preamp) : (s.updPreamp n g).bkw = s.bkw := rfl
@[simp] theorem updPreamp_flash (n : Fin 4) (g : Preamp → Preamp) : (s.updPreamp n g).flash = s.flash := rfl
@[simp] theorem updPreamp_cfl (n : Fin 4) (g : Preamp → Preamp) : (s.updPreamp n g).cfl = s.cfl := rfl
@[simp] theorem updPreamp_spin (n : Fin 4) (g : Preamp → Preamp) : (s.updPreamp n g).spin = s.spin := rfl
@[simp] theorem updPreamp_watch (n : Fin 4) (g : Preamp → Preamp) : (s.updPreamp n g).watch = s.watch := rfl
@[simp] theorem updPreamp_cal (n : Fin 4) (g : Preamp → Preamp) : (s.updPreamp n g).cal = s.cal := rfl
@[simp] theorem updPreamp_hsk (n : Fin 4) (g : Preamp → Preamp) : (s.updPreamp n g).hsk = s.hsk := rfl
@[simp] theorem updPreamp_cfx (n : Fin 4) (g : Preamp → Preamp) : (s.updPreamp n g).cfx = s.cfx := rfl
@[simp] theorem updPreamp_cores (n : Fin 4) (g : Preamp → Preamp) : (s.updPreamp n g).cores = s.cores := rfl
@[simp] theorem updPreamp_trust (n : Fin 4) (g : Preamp → Preamp) : (s.updPreamp n g).trust = s.trust := rfl
@[simp] theorem updPreamp_power (n : Fin 4) (g : Preamp → Preamp) : (s.updPreamp n g).power = s.power := rfl
@[simp] theorem updPreamp_rd (n : Fin 4) (g : Preamp → Preamp) (y : Fld) : (s.updPreamp n g).rd y = s.rd y := rfl
@[simp] theorem updPreamp_on (n : Fin 4) (g : Preamp → Preamp) (y : Fld) : (s.updPreamp n g).on y = s.on y := rfl
@[simp] theorem updPreamp_rdBit (n : Fin 4) (g : Preamp → Preamp) (y : Fld) (j : Nat) : (s.updPreamp n g).rdBit y j = s.rdBit y j := rfl
@[simp] theorem updPreamp_unit (n : Fin 4) (g : Preamp → Preamp) (u : UnitRef) : (s.updPreamp n g).unit u = s.unit u := rfl
@[simp] theorem updPreamp_sv (n : Fin 4) (g : Preamp → Preamp) (m : Fin 4) : (s.updPreamp n g).sv m = s.sv m := rfl
@[simp] theorem updPreamp_ch (n : Fin 4) (g : Preamp → Preamp) (m : Fin 4) : (s.updPreamp n g).ch m = s.ch m := rfl
@[simp] theorem updPreamp_eng (n : Fin 4) (g : Preamp → Preamp) (m : Fin 4) : (s.updPreamp n g).eng m = s.eng m := rfl

/-! `State.updSv` -/

@[simp] theorem updSv_pending (n : Fin 4) (g : Servo → Servo) : (s.updSv n g).pending = s.pending := rfl
@[simp] theorem updSv_time (n : Fin 4) (g : Servo → Servo) : (s.updSv n g).time = s.time := rfl
@[simp] theorem updSv_answer (n : Fin 4) (g : Servo → Servo) : (s.updSv n g).answer = s.answer := rfl
@[simp] theorem updSv_free (n : Fin 4) (g : Servo → Servo) : (s.updSv n g).free = s.free := rfl
@[simp] theorem updSv_regs (n : Fin 4) (g : Servo → Servo) : (s.updSv n g).regs = s.regs := rfl
@[simp] theorem updSv_acc (n : Fin 4) (g : Servo → Servo) : (s.updSv n g).acc = s.acc := rfl
@[simp] theorem updSv_mem (n : Fin 4) (g : Servo → Servo) : (s.updSv n g).mem = s.mem := rfl
@[simp] theorem updSv_reach (n : Fin 4) (g : Servo → Servo) : (s.updSv n g).reach = s.reach := rfl
@[simp] theorem updSv_chan (n : Fin 4) (g : Servo → Servo) : (s.updSv n g).chan = s.chan := rfl
@[simp] theorem updSv_preamp (n : Fin 4) (g : Servo → Servo) : (s.updSv n g).preamp = s.preamp := rfl
@[simp] theorem updSv_deep (n : Fin 4) (g : Servo → Servo) : (s.updSv n g).deep = s.deep := rfl
@[simp] theorem updSv_servo (n : Fin 4) (g : Servo → Servo) : (s.updSv n g).servo = s.servo.upd n g := rfl
@[simp] theorem updSv_medium (n : Fin 4) (g : Servo → Servo) : (s.updSv n g).medium = s.medium := rfl
@[simp] theorem updSv_zone (n : Fin 4) (g : Servo → Servo) : (s.updSv n g).zone = s.zone := rfl
@[simp] theorem updSv_host (n : Fin 4) (g : Servo → Servo) : (s.updSv n g).host = s.host := rfl
@[simp] theorem updSv_stage (n : Fin 4) (g : Servo → Servo) : (s.updSv n g).stage = s.stage := rfl
@[simp] theorem updSv_memc (n : Fin 4) (g : Servo → Servo) : (s.updSv n g).memc = s.memc := rfl
@[simp] theorem updSv_evr (n : Fin 4) (g : Servo → Servo) : (s.updSv n g).evr = s.evr := rfl
@[simp] theorem updSv_weir (n : Fin 4) (g : Servo → Servo) : (s.updSv n g).weir = s.weir := rfl
@[simp] theorem updSv_sluice (n : Fin 4) (g : Servo → Servo) : (s.updSv n g).sluice = s.sluice := rfl
@[simp] theorem updSv_bkw (n : Fin 4) (g : Servo → Servo) : (s.updSv n g).bkw = s.bkw := rfl
@[simp] theorem updSv_flash (n : Fin 4) (g : Servo → Servo) : (s.updSv n g).flash = s.flash := rfl
@[simp] theorem updSv_cfl (n : Fin 4) (g : Servo → Servo) : (s.updSv n g).cfl = s.cfl := rfl
@[simp] theorem updSv_spin (n : Fin 4) (g : Servo → Servo) : (s.updSv n g).spin = s.spin := rfl
@[simp] theorem updSv_watch (n : Fin 4) (g : Servo → Servo) : (s.updSv n g).watch = s.watch := rfl
@[simp] theorem updSv_cal (n : Fin 4) (g : Servo → Servo) : (s.updSv n g).cal = s.cal := rfl
@[simp] theorem updSv_hsk (n : Fin 4) (g : Servo → Servo) : (s.updSv n g).hsk = s.hsk := rfl
@[simp] theorem updSv_cfx (n : Fin 4) (g : Servo → Servo) : (s.updSv n g).cfx = s.cfx := rfl
@[simp] theorem updSv_cores (n : Fin 4) (g : Servo → Servo) : (s.updSv n g).cores = s.cores := rfl
@[simp] theorem updSv_trust (n : Fin 4) (g : Servo → Servo) : (s.updSv n g).trust = s.trust := rfl
@[simp] theorem updSv_power (n : Fin 4) (g : Servo → Servo) : (s.updSv n g).power = s.power := rfl
@[simp] theorem updSv_rd (n : Fin 4) (g : Servo → Servo) (y : Fld) : (s.updSv n g).rd y = s.rd y := rfl
@[simp] theorem updSv_on (n : Fin 4) (g : Servo → Servo) (y : Fld) : (s.updSv n g).on y = s.on y := rfl
@[simp] theorem updSv_rdBit (n : Fin 4) (g : Servo → Servo) (y : Fld) (j : Nat) : (s.updSv n g).rdBit y j = s.rdBit y j := rfl
@[simp] theorem updSv_unit (n : Fin 4) (g : Servo → Servo) (u : UnitRef) : (s.updSv n g).unit u = s.unit u := rfl
@[simp] theorem updSv_ch (n : Fin 4) (g : Servo → Servo) (m : Fin 4) : (s.updSv n g).ch m = s.ch m := rfl
@[simp] theorem updSv_eng (n : Fin 4) (g : Servo → Servo) (m : Fin 4) : (s.updSv n g).eng m = s.eng m := rfl

/-! `State.updMedium` -/

@[simp] theorem updMedium_pending (n : Fin 4) (g : Medium → Medium) : (s.updMedium n g).pending = s.pending := rfl
@[simp] theorem updMedium_time (n : Fin 4) (g : Medium → Medium) : (s.updMedium n g).time = s.time := rfl
@[simp] theorem updMedium_answer (n : Fin 4) (g : Medium → Medium) : (s.updMedium n g).answer = s.answer := rfl
@[simp] theorem updMedium_free (n : Fin 4) (g : Medium → Medium) : (s.updMedium n g).free = s.free := rfl
@[simp] theorem updMedium_regs (n : Fin 4) (g : Medium → Medium) : (s.updMedium n g).regs = s.regs := rfl
@[simp] theorem updMedium_acc (n : Fin 4) (g : Medium → Medium) : (s.updMedium n g).acc = s.acc := rfl
@[simp] theorem updMedium_mem (n : Fin 4) (g : Medium → Medium) : (s.updMedium n g).mem = s.mem := rfl
@[simp] theorem updMedium_reach (n : Fin 4) (g : Medium → Medium) : (s.updMedium n g).reach = s.reach := rfl
@[simp] theorem updMedium_chan (n : Fin 4) (g : Medium → Medium) : (s.updMedium n g).chan = s.chan := rfl
@[simp] theorem updMedium_preamp (n : Fin 4) (g : Medium → Medium) : (s.updMedium n g).preamp = s.preamp := rfl
@[simp] theorem updMedium_deep (n : Fin 4) (g : Medium → Medium) : (s.updMedium n g).deep = s.deep := rfl
@[simp] theorem updMedium_servo (n : Fin 4) (g : Medium → Medium) : (s.updMedium n g).servo = s.servo := rfl
@[simp] theorem updMedium_medium (n : Fin 4) (g : Medium → Medium) : (s.updMedium n g).medium = s.medium.upd n g := rfl
@[simp] theorem updMedium_zone (n : Fin 4) (g : Medium → Medium) : (s.updMedium n g).zone = s.zone := rfl
@[simp] theorem updMedium_host (n : Fin 4) (g : Medium → Medium) : (s.updMedium n g).host = s.host := rfl
@[simp] theorem updMedium_stage (n : Fin 4) (g : Medium → Medium) : (s.updMedium n g).stage = s.stage := rfl
@[simp] theorem updMedium_memc (n : Fin 4) (g : Medium → Medium) : (s.updMedium n g).memc = s.memc := rfl
@[simp] theorem updMedium_evr (n : Fin 4) (g : Medium → Medium) : (s.updMedium n g).evr = s.evr := rfl
@[simp] theorem updMedium_weir (n : Fin 4) (g : Medium → Medium) : (s.updMedium n g).weir = s.weir := rfl
@[simp] theorem updMedium_sluice (n : Fin 4) (g : Medium → Medium) : (s.updMedium n g).sluice = s.sluice := rfl
@[simp] theorem updMedium_bkw (n : Fin 4) (g : Medium → Medium) : (s.updMedium n g).bkw = s.bkw := rfl
@[simp] theorem updMedium_flash (n : Fin 4) (g : Medium → Medium) : (s.updMedium n g).flash = s.flash := rfl
@[simp] theorem updMedium_cfl (n : Fin 4) (g : Medium → Medium) : (s.updMedium n g).cfl = s.cfl := rfl
@[simp] theorem updMedium_spin (n : Fin 4) (g : Medium → Medium) : (s.updMedium n g).spin = s.spin := rfl
@[simp] theorem updMedium_watch (n : Fin 4) (g : Medium → Medium) : (s.updMedium n g).watch = s.watch := rfl
@[simp] theorem updMedium_cal (n : Fin 4) (g : Medium → Medium) : (s.updMedium n g).cal = s.cal := rfl
@[simp] theorem updMedium_hsk (n : Fin 4) (g : Medium → Medium) : (s.updMedium n g).hsk = s.hsk := rfl
@[simp] theorem updMedium_cfx (n : Fin 4) (g : Medium → Medium) : (s.updMedium n g).cfx = s.cfx := rfl
@[simp] theorem updMedium_cores (n : Fin 4) (g : Medium → Medium) : (s.updMedium n g).cores = s.cores := rfl
@[simp] theorem updMedium_trust (n : Fin 4) (g : Medium → Medium) : (s.updMedium n g).trust = s.trust := rfl
@[simp] theorem updMedium_power (n : Fin 4) (g : Medium → Medium) : (s.updMedium n g).power = s.power := rfl
@[simp] theorem updMedium_rd (n : Fin 4) (g : Medium → Medium) (y : Fld) : (s.updMedium n g).rd y = s.rd y := rfl
@[simp] theorem updMedium_on (n : Fin 4) (g : Medium → Medium) (y : Fld) : (s.updMedium n g).on y = s.on y := rfl
@[simp] theorem updMedium_rdBit (n : Fin 4) (g : Medium → Medium) (y : Fld) (j : Nat) : (s.updMedium n g).rdBit y j = s.rdBit y j := rfl
@[simp] theorem updMedium_unit (n : Fin 4) (g : Medium → Medium) (u : UnitRef) : (s.updMedium n g).unit u = s.unit u := rfl
@[simp] theorem updMedium_sv (n : Fin 4) (g : Medium → Medium) (m : Fin 4) : (s.updMedium n g).sv m = s.sv m := rfl
@[simp] theorem updMedium_ch (n : Fin 4) (g : Medium → Medium) (m : Fin 4) : (s.updMedium n g).ch m = s.ch m := rfl
@[simp] theorem updMedium_eng (n : Fin 4) (g : Medium → Medium) (m : Fin 4) : (s.updMedium n g).eng m = s.eng m := rfl

/-! `State.zput` -/

@[simp] theorem zput_pending (g : ZoneUnit → ZoneUnit) : (s.zput g).pending = s.pending := rfl
@[simp] theorem zput_time (g : ZoneUnit → ZoneUnit) : (s.zput g).time = s.time := rfl
@[simp] theorem zput_answer (g : ZoneUnit → ZoneUnit) : (s.zput g).answer = s.answer := rfl
@[simp] theorem zput_free (g : ZoneUnit → ZoneUnit) : (s.zput g).free = s.free := rfl
@[simp] theorem zput_regs (g : ZoneUnit → ZoneUnit) : (s.zput g).regs = s.regs := rfl
@[simp] theorem zput_acc (g : ZoneUnit → ZoneUnit) : (s.zput g).acc = s.acc := rfl
@[simp] theorem zput_mem (g : ZoneUnit → ZoneUnit) : (s.zput g).mem = s.mem := rfl
@[simp] theorem zput_reach (g : ZoneUnit → ZoneUnit) : (s.zput g).reach = s.reach := rfl
@[simp] theorem zput_chan (g : ZoneUnit → ZoneUnit) : (s.zput g).chan = s.chan := rfl
@[simp] theorem zput_preamp (g : ZoneUnit → ZoneUnit) : (s.zput g).preamp = s.preamp := rfl
@[simp] theorem zput_deep (g : ZoneUnit → ZoneUnit) : (s.zput g).deep = s.deep := rfl
@[simp] theorem zput_servo (g : ZoneUnit → ZoneUnit) : (s.zput g).servo = s.servo := rfl
@[simp] theorem zput_medium (g : ZoneUnit → ZoneUnit) : (s.zput g).medium = s.medium := rfl
@[simp] theorem zput_zone (g : ZoneUnit → ZoneUnit) : (s.zput g).zone = g s.zone := rfl
@[simp] theorem zput_host (g : ZoneUnit → ZoneUnit) : (s.zput g).host = s.host := rfl
@[simp] theorem zput_stage (g : ZoneUnit → ZoneUnit) : (s.zput g).stage = s.stage := rfl
@[simp] theorem zput_memc (g : ZoneUnit → ZoneUnit) : (s.zput g).memc = s.memc := rfl
@[simp] theorem zput_evr (g : ZoneUnit → ZoneUnit) : (s.zput g).evr = s.evr := rfl
@[simp] theorem zput_weir (g : ZoneUnit → ZoneUnit) : (s.zput g).weir = s.weir := rfl
@[simp] theorem zput_sluice (g : ZoneUnit → ZoneUnit) : (s.zput g).sluice = s.sluice := rfl
@[simp] theorem zput_bkw (g : ZoneUnit → ZoneUnit) : (s.zput g).bkw = s.bkw := rfl
@[simp] theorem zput_flash (g : ZoneUnit → ZoneUnit) : (s.zput g).flash = s.flash := rfl
@[simp] theorem zput_cfl (g : ZoneUnit → ZoneUnit) : (s.zput g).cfl = s.cfl := rfl
@[simp] theorem zput_spin (g : ZoneUnit → ZoneUnit) : (s.zput g).spin = s.spin := rfl
@[simp] theorem zput_watch (g : ZoneUnit → ZoneUnit) : (s.zput g).watch = s.watch := rfl
@[simp] theorem zput_cal (g : ZoneUnit → ZoneUnit) : (s.zput g).cal = s.cal := rfl
@[simp] theorem zput_hsk (g : ZoneUnit → ZoneUnit) : (s.zput g).hsk = s.hsk := rfl
@[simp] theorem zput_cfx (g : ZoneUnit → ZoneUnit) : (s.zput g).cfx = s.cfx := rfl
@[simp] theorem zput_cores (g : ZoneUnit → ZoneUnit) : (s.zput g).cores = s.cores := rfl
@[simp] theorem zput_trust (g : ZoneUnit → ZoneUnit) : (s.zput g).trust = s.trust := rfl
@[simp] theorem zput_power (g : ZoneUnit → ZoneUnit) : (s.zput g).power = s.power := rfl
@[simp] theorem zput_rd (g : ZoneUnit → ZoneUnit) (y : Fld) : (s.zput g).rd y = s.rd y := rfl
@[simp] theorem zput_on (g : ZoneUnit → ZoneUnit) (y : Fld) : (s.zput g).on y = s.on y := rfl
@[simp] theorem zput_rdBit (g : ZoneUnit → ZoneUnit) (y : Fld) (j : Nat) : (s.zput g).rdBit y j = s.rdBit y j := rfl
@[simp] theorem zput_unit (g : ZoneUnit → ZoneUnit) (u : UnitRef) : (s.zput g).unit u = s.unit u := rfl
@[simp] theorem zput_sv (g : ZoneUnit → ZoneUnit) (m : Fin 4) : (s.zput g).sv m = s.sv m := rfl
@[simp] theorem zput_ch (g : ZoneUnit → ZoneUnit) (m : Fin 4) : (s.zput g).ch m = s.ch m := rfl
@[simp] theorem zput_eng (g : ZoneUnit → ZoneUnit) (m : Fin 4) : (s.zput g).eng m = s.eng m := rfl

/-! `State.putSet` -/

@[simp] theorem putSet_pending (i : Nat) (t : StgSet) : (s.putSet i t).pending = s.pending := rfl
@[simp] theorem putSet_time (i : Nat) (t : StgSet) : (s.putSet i t).time = s.time := rfl
@[simp] theorem putSet_answer (i : Nat) (t : StgSet) : (s.putSet i t).answer = s.answer := rfl
@[simp] theorem putSet_free (i : Nat) (t : StgSet) : (s.putSet i t).free = s.free := rfl
@[simp] theorem putSet_regs (i : Nat) (t : StgSet) : (s.putSet i t).regs = s.regs := rfl
@[simp] theorem putSet_acc (i : Nat) (t : StgSet) : (s.putSet i t).acc = s.acc := rfl
@[simp] theorem putSet_mem (i : Nat) (t : StgSet) : (s.putSet i t).mem = s.mem := rfl
@[simp] theorem putSet_reach (i : Nat) (t : StgSet) : (s.putSet i t).reach = s.reach := rfl
@[simp] theorem putSet_chan (i : Nat) (t : StgSet) : (s.putSet i t).chan = s.chan := rfl
@[simp] theorem putSet_preamp (i : Nat) (t : StgSet) : (s.putSet i t).preamp = s.preamp := rfl
@[simp] theorem putSet_deep (i : Nat) (t : StgSet) : (s.putSet i t).deep = s.deep := rfl
@[simp] theorem putSet_servo (i : Nat) (t : StgSet) : (s.putSet i t).servo = s.servo := rfl
@[simp] theorem putSet_medium (i : Nat) (t : StgSet) : (s.putSet i t).medium = s.medium := rfl
@[simp] theorem putSet_zone (i : Nat) (t : StgSet) : (s.putSet i t).zone = s.zone := rfl
@[simp] theorem putSet_host (i : Nat) (t : StgSet) : (s.putSet i t).host = s.host := rfl
@[simp] theorem putSet_stage (i : Nat) (t : StgSet) : (s.putSet i t).stage = { s.stage with sets := tset StgSet.empty s.stage.sets i t } := rfl
@[simp] theorem putSet_memc (i : Nat) (t : StgSet) : (s.putSet i t).memc = s.memc := rfl
@[simp] theorem putSet_evr (i : Nat) (t : StgSet) : (s.putSet i t).evr = s.evr := rfl
@[simp] theorem putSet_weir (i : Nat) (t : StgSet) : (s.putSet i t).weir = s.weir := rfl
@[simp] theorem putSet_sluice (i : Nat) (t : StgSet) : (s.putSet i t).sluice = s.sluice := rfl
@[simp] theorem putSet_bkw (i : Nat) (t : StgSet) : (s.putSet i t).bkw = s.bkw := rfl
@[simp] theorem putSet_flash (i : Nat) (t : StgSet) : (s.putSet i t).flash = s.flash := rfl
@[simp] theorem putSet_cfl (i : Nat) (t : StgSet) : (s.putSet i t).cfl = s.cfl := rfl
@[simp] theorem putSet_spin (i : Nat) (t : StgSet) : (s.putSet i t).spin = s.spin := rfl
@[simp] theorem putSet_watch (i : Nat) (t : StgSet) : (s.putSet i t).watch = s.watch := rfl
@[simp] theorem putSet_cal (i : Nat) (t : StgSet) : (s.putSet i t).cal = s.cal := rfl
@[simp] theorem putSet_hsk (i : Nat) (t : StgSet) : (s.putSet i t).hsk = s.hsk := rfl
@[simp] theorem putSet_cfx (i : Nat) (t : StgSet) : (s.putSet i t).cfx = s.cfx := rfl
@[simp] theorem putSet_cores (i : Nat) (t : StgSet) : (s.putSet i t).cores = s.cores := rfl
@[simp] theorem putSet_trust (i : Nat) (t : StgSet) : (s.putSet i t).trust = s.trust := rfl
@[simp] theorem putSet_power (i : Nat) (t : StgSet) : (s.putSet i t).power = s.power := rfl
@[simp] theorem putSet_rd (i : Nat) (t : StgSet) (y : Fld) : (s.putSet i t).rd y = s.rd y := rfl
@[simp] theorem putSet_on (i : Nat) (t : StgSet) (y : Fld) : (s.putSet i t).on y = s.on y := rfl
@[simp] theorem putSet_rdBit (i : Nat) (t : StgSet) (y : Fld) (j : Nat) : (s.putSet i t).rdBit y j = s.rdBit y j := rfl
@[simp] theorem putSet_unit (i : Nat) (t : StgSet) (u : UnitRef) : (s.putSet i t).unit u = s.unit u := rfl
@[simp] theorem putSet_sv (i : Nat) (t : StgSet) (m : Fin 4) : (s.putSet i t).sv m = s.sv m := rfl
@[simp] theorem putSet_ch (i : Nat) (t : StgSet) (m : Fin 4) : (s.putSet i t).ch m = s.ch m := rfl
@[simp] theorem putSet_eng (i : Nat) (t : StgSet) (m : Fin 4) : (s.putSet i t).eng m = s.eng m := rfl

/-! `State.updSlu` -/

@[simp] theorem updSlu_pending (c : Nat) (g : SluChan → SluChan) : (s.updSlu c g).pending = s.pending := rfl
@[simp] theorem updSlu_time (c : Nat) (g : SluChan → SluChan) : (s.updSlu c g).time = s.time := rfl
@[simp] theorem updSlu_answer (c : Nat) (g : SluChan → SluChan) : (s.updSlu c g).answer = s.answer := rfl
@[simp] theorem updSlu_free (c : Nat) (g : SluChan → SluChan) : (s.updSlu c g).free = s.free := rfl
@[simp] theorem updSlu_regs (c : Nat) (g : SluChan → SluChan) : (s.updSlu c g).regs = s.regs := rfl
@[simp] theorem updSlu_acc (c : Nat) (g : SluChan → SluChan) : (s.updSlu c g).acc = s.acc := rfl
@[simp] theorem updSlu_mem (c : Nat) (g : SluChan → SluChan) : (s.updSlu c g).mem = s.mem := rfl
@[simp] theorem updSlu_reach (c : Nat) (g : SluChan → SluChan) : (s.updSlu c g).reach = s.reach := rfl
@[simp] theorem updSlu_chan (c : Nat) (g : SluChan → SluChan) : (s.updSlu c g).chan = s.chan := rfl
@[simp] theorem updSlu_preamp (c : Nat) (g : SluChan → SluChan) : (s.updSlu c g).preamp = s.preamp := rfl
@[simp] theorem updSlu_deep (c : Nat) (g : SluChan → SluChan) : (s.updSlu c g).deep = s.deep := rfl
@[simp] theorem updSlu_servo (c : Nat) (g : SluChan → SluChan) : (s.updSlu c g).servo = s.servo := rfl
@[simp] theorem updSlu_medium (c : Nat) (g : SluChan → SluChan) : (s.updSlu c g).medium = s.medium := rfl
@[simp] theorem updSlu_zone (c : Nat) (g : SluChan → SluChan) : (s.updSlu c g).zone = s.zone := rfl
@[simp] theorem updSlu_host (c : Nat) (g : SluChan → SluChan) : (s.updSlu c g).host = s.host := rfl
@[simp] theorem updSlu_stage (c : Nat) (g : SluChan → SluChan) : (s.updSlu c g).stage = s.stage := rfl
@[simp] theorem updSlu_memc (c : Nat) (g : SluChan → SluChan) : (s.updSlu c g).memc = s.memc := rfl
@[simp] theorem updSlu_evr (c : Nat) (g : SluChan → SluChan) : (s.updSlu c g).evr = s.evr := rfl
@[simp] theorem updSlu_weir (c : Nat) (g : SluChan → SluChan) : (s.updSlu c g).weir = s.weir := rfl
@[simp] theorem updSlu_sluice (c : Nat) (g : SluChan → SluChan) : (s.updSlu c g).sluice = { s.sluice with chans := tset SluChan.reset s.sluice.chans c (g (s.slu c)) } := rfl
@[simp] theorem updSlu_bkw (c : Nat) (g : SluChan → SluChan) : (s.updSlu c g).bkw = s.bkw := rfl
@[simp] theorem updSlu_flash (c : Nat) (g : SluChan → SluChan) : (s.updSlu c g).flash = s.flash := rfl
@[simp] theorem updSlu_cfl (c : Nat) (g : SluChan → SluChan) : (s.updSlu c g).cfl = s.cfl := rfl
@[simp] theorem updSlu_spin (c : Nat) (g : SluChan → SluChan) : (s.updSlu c g).spin = s.spin := rfl
@[simp] theorem updSlu_watch (c : Nat) (g : SluChan → SluChan) : (s.updSlu c g).watch = s.watch := rfl
@[simp] theorem updSlu_cal (c : Nat) (g : SluChan → SluChan) : (s.updSlu c g).cal = s.cal := rfl
@[simp] theorem updSlu_hsk (c : Nat) (g : SluChan → SluChan) : (s.updSlu c g).hsk = s.hsk := rfl
@[simp] theorem updSlu_cfx (c : Nat) (g : SluChan → SluChan) : (s.updSlu c g).cfx = s.cfx := rfl
@[simp] theorem updSlu_cores (c : Nat) (g : SluChan → SluChan) : (s.updSlu c g).cores = s.cores := rfl
@[simp] theorem updSlu_trust (c : Nat) (g : SluChan → SluChan) : (s.updSlu c g).trust = s.trust := rfl
@[simp] theorem updSlu_power (c : Nat) (g : SluChan → SluChan) : (s.updSlu c g).power = s.power := rfl
@[simp] theorem updSlu_rd (c : Nat) (g : SluChan → SluChan) (y : Fld) : (s.updSlu c g).rd y = s.rd y := rfl
@[simp] theorem updSlu_on (c : Nat) (g : SluChan → SluChan) (y : Fld) : (s.updSlu c g).on y = s.on y := rfl
@[simp] theorem updSlu_rdBit (c : Nat) (g : SluChan → SluChan) (y : Fld) (j : Nat) : (s.updSlu c g).rdBit y j = s.rdBit y j := rfl
@[simp] theorem updSlu_unit (c : Nat) (g : SluChan → SluChan) (u : UnitRef) : (s.updSlu c g).unit u = s.unit u := rfl
@[simp] theorem updSlu_sv (c : Nat) (g : SluChan → SluChan) (m : Fin 4) : (s.updSlu c g).sv m = s.sv m := rfl
@[simp] theorem updSlu_ch (c : Nat) (g : SluChan → SluChan) (m : Fin 4) : (s.updSlu c g).ch m = s.ch m := rfl
@[simp] theorem updSlu_eng (c : Nat) (g : SluChan → SluChan) (m : Fin 4) : (s.updSlu c g).eng m = s.eng m := rfl

/-! `State.putQueue` -/

@[simp] theorem putQueue_pending (q : Nat) (x : BQueue) : (s.putQueue q x).pending = s.pending := rfl
@[simp] theorem putQueue_time (q : Nat) (x : BQueue) : (s.putQueue q x).time = s.time := rfl
@[simp] theorem putQueue_answer (q : Nat) (x : BQueue) : (s.putQueue q x).answer = s.answer := rfl
@[simp] theorem putQueue_free (q : Nat) (x : BQueue) : (s.putQueue q x).free = s.free := rfl
@[simp] theorem putQueue_regs (q : Nat) (x : BQueue) : (s.putQueue q x).regs = s.regs := rfl
@[simp] theorem putQueue_acc (q : Nat) (x : BQueue) : (s.putQueue q x).acc = s.acc := rfl
@[simp] theorem putQueue_mem (q : Nat) (x : BQueue) : (s.putQueue q x).mem = s.mem := rfl
@[simp] theorem putQueue_reach (q : Nat) (x : BQueue) : (s.putQueue q x).reach = s.reach := rfl
@[simp] theorem putQueue_chan (q : Nat) (x : BQueue) : (s.putQueue q x).chan = s.chan := rfl
@[simp] theorem putQueue_preamp (q : Nat) (x : BQueue) : (s.putQueue q x).preamp = s.preamp := rfl
@[simp] theorem putQueue_deep (q : Nat) (x : BQueue) : (s.putQueue q x).deep = s.deep := rfl
@[simp] theorem putQueue_servo (q : Nat) (x : BQueue) : (s.putQueue q x).servo = s.servo := rfl
@[simp] theorem putQueue_medium (q : Nat) (x : BQueue) : (s.putQueue q x).medium = s.medium := rfl
@[simp] theorem putQueue_zone (q : Nat) (x : BQueue) : (s.putQueue q x).zone = s.zone := rfl
@[simp] theorem putQueue_host (q : Nat) (x : BQueue) : (s.putQueue q x).host = s.host := rfl
@[simp] theorem putQueue_stage (q : Nat) (x : BQueue) : (s.putQueue q x).stage = s.stage := rfl
@[simp] theorem putQueue_memc (q : Nat) (x : BQueue) : (s.putQueue q x).memc = s.memc := rfl
@[simp] theorem putQueue_evr (q : Nat) (x : BQueue) : (s.putQueue q x).evr = s.evr := rfl
@[simp] theorem putQueue_weir (q : Nat) (x : BQueue) : (s.putQueue q x).weir = s.weir := rfl
@[simp] theorem putQueue_sluice (q : Nat) (x : BQueue) : (s.putQueue q x).sluice = s.sluice := rfl
@[simp] theorem putQueue_bkw (q : Nat) (x : BQueue) : (s.putQueue q x).bkw = tset BQueue.empty s.bkw q x := rfl
@[simp] theorem putQueue_flash (q : Nat) (x : BQueue) : (s.putQueue q x).flash = s.flash := rfl
@[simp] theorem putQueue_cfl (q : Nat) (x : BQueue) : (s.putQueue q x).cfl = s.cfl := rfl
@[simp] theorem putQueue_spin (q : Nat) (x : BQueue) : (s.putQueue q x).spin = s.spin := rfl
@[simp] theorem putQueue_watch (q : Nat) (x : BQueue) : (s.putQueue q x).watch = s.watch := rfl
@[simp] theorem putQueue_cal (q : Nat) (x : BQueue) : (s.putQueue q x).cal = s.cal := rfl
@[simp] theorem putQueue_hsk (q : Nat) (x : BQueue) : (s.putQueue q x).hsk = s.hsk := rfl
@[simp] theorem putQueue_cfx (q : Nat) (x : BQueue) : (s.putQueue q x).cfx = s.cfx := rfl
@[simp] theorem putQueue_cores (q : Nat) (x : BQueue) : (s.putQueue q x).cores = s.cores := rfl
@[simp] theorem putQueue_trust (q : Nat) (x : BQueue) : (s.putQueue q x).trust = s.trust := rfl
@[simp] theorem putQueue_power (q : Nat) (x : BQueue) : (s.putQueue q x).power = s.power := rfl
@[simp] theorem putQueue_rd (q : Nat) (x : BQueue) (y : Fld) : (s.putQueue q x).rd y = s.rd y := rfl
@[simp] theorem putQueue_on (q : Nat) (x : BQueue) (y : Fld) : (s.putQueue q x).on y = s.on y := rfl
@[simp] theorem putQueue_rdBit (q : Nat) (x : BQueue) (y : Fld) (j : Nat) : (s.putQueue q x).rdBit y j = s.rdBit y j := rfl
@[simp] theorem putQueue_unit (q : Nat) (x : BQueue) (u : UnitRef) : (s.putQueue q x).unit u = s.unit u := rfl
@[simp] theorem putQueue_sv (q : Nat) (x : BQueue) (m : Fin 4) : (s.putQueue q x).sv m = s.sv m := rfl
@[simp] theorem putQueue_ch (q : Nat) (x : BQueue) (m : Fin 4) : (s.putQueue q x).ch m = s.ch m := rfl
@[simp] theorem putQueue_eng (q : Nat) (x : BQueue) (m : Fin 4) : (s.putQueue q x).eng m = s.eng m := rfl

/-! `State.weirPut` -/

@[simp] theorem weirPut_pending (g : WeirUnit → WeirUnit) : (s.weirPut g).pending = s.pending := rfl
@[simp] theorem weirPut_time (g : WeirUnit → WeirUnit) : (s.weirPut g).time = s.time := rfl
@[simp] theorem weirPut_answer (g : WeirUnit → WeirUnit) : (s.weirPut g).answer = s.answer := rfl
@[simp] theorem weirPut_free (g : WeirUnit → WeirUnit) : (s.weirPut g).free = s.free := rfl
@[simp] theorem weirPut_regs (g : WeirUnit → WeirUnit) : (s.weirPut g).regs = s.regs := rfl
@[simp] theorem weirPut_acc (g : WeirUnit → WeirUnit) : (s.weirPut g).acc = s.acc := rfl
@[simp] theorem weirPut_mem (g : WeirUnit → WeirUnit) : (s.weirPut g).mem = s.mem := rfl
@[simp] theorem weirPut_reach (g : WeirUnit → WeirUnit) : (s.weirPut g).reach = s.reach := rfl
@[simp] theorem weirPut_chan (g : WeirUnit → WeirUnit) : (s.weirPut g).chan = s.chan := rfl
@[simp] theorem weirPut_preamp (g : WeirUnit → WeirUnit) : (s.weirPut g).preamp = s.preamp := rfl
@[simp] theorem weirPut_deep (g : WeirUnit → WeirUnit) : (s.weirPut g).deep = s.deep := rfl
@[simp] theorem weirPut_servo (g : WeirUnit → WeirUnit) : (s.weirPut g).servo = s.servo := rfl
@[simp] theorem weirPut_medium (g : WeirUnit → WeirUnit) : (s.weirPut g).medium = s.medium := rfl
@[simp] theorem weirPut_zone (g : WeirUnit → WeirUnit) : (s.weirPut g).zone = s.zone := rfl
@[simp] theorem weirPut_host (g : WeirUnit → WeirUnit) : (s.weirPut g).host = s.host := rfl
@[simp] theorem weirPut_stage (g : WeirUnit → WeirUnit) : (s.weirPut g).stage = s.stage := rfl
@[simp] theorem weirPut_memc (g : WeirUnit → WeirUnit) : (s.weirPut g).memc = s.memc := rfl
@[simp] theorem weirPut_evr (g : WeirUnit → WeirUnit) : (s.weirPut g).evr = s.evr := rfl
@[simp] theorem weirPut_weir (g : WeirUnit → WeirUnit) : (s.weirPut g).weir = g s.weir := rfl
@[simp] theorem weirPut_sluice (g : WeirUnit → WeirUnit) : (s.weirPut g).sluice = s.sluice := rfl
@[simp] theorem weirPut_bkw (g : WeirUnit → WeirUnit) : (s.weirPut g).bkw = s.bkw := rfl
@[simp] theorem weirPut_flash (g : WeirUnit → WeirUnit) : (s.weirPut g).flash = s.flash := rfl
@[simp] theorem weirPut_cfl (g : WeirUnit → WeirUnit) : (s.weirPut g).cfl = s.cfl := rfl
@[simp] theorem weirPut_spin (g : WeirUnit → WeirUnit) : (s.weirPut g).spin = s.spin := rfl
@[simp] theorem weirPut_watch (g : WeirUnit → WeirUnit) : (s.weirPut g).watch = s.watch := rfl
@[simp] theorem weirPut_cal (g : WeirUnit → WeirUnit) : (s.weirPut g).cal = s.cal := rfl
@[simp] theorem weirPut_hsk (g : WeirUnit → WeirUnit) : (s.weirPut g).hsk = s.hsk := rfl
@[simp] theorem weirPut_cfx (g : WeirUnit → WeirUnit) : (s.weirPut g).cfx = s.cfx := rfl
@[simp] theorem weirPut_cores (g : WeirUnit → WeirUnit) : (s.weirPut g).cores = s.cores := rfl
@[simp] theorem weirPut_trust (g : WeirUnit → WeirUnit) : (s.weirPut g).trust = s.trust := rfl
@[simp] theorem weirPut_power (g : WeirUnit → WeirUnit) : (s.weirPut g).power = s.power := rfl
@[simp] theorem weirPut_rd (g : WeirUnit → WeirUnit) (y : Fld) : (s.weirPut g).rd y = s.rd y := rfl
@[simp] theorem weirPut_on (g : WeirUnit → WeirUnit) (y : Fld) : (s.weirPut g).on y = s.on y := rfl
@[simp] theorem weirPut_rdBit (g : WeirUnit → WeirUnit) (y : Fld) (j : Nat) : (s.weirPut g).rdBit y j = s.rdBit y j := rfl
@[simp] theorem weirPut_unit (g : WeirUnit → WeirUnit) (u : UnitRef) : (s.weirPut g).unit u = s.unit u := rfl
@[simp] theorem weirPut_sv (g : WeirUnit → WeirUnit) (m : Fin 4) : (s.weirPut g).sv m = s.sv m := rfl
@[simp] theorem weirPut_ch (g : WeirUnit → WeirUnit) (m : Fin 4) : (s.weirPut g).ch m = s.ch m := rfl
@[simp] theorem weirPut_eng (g : WeirUnit → WeirUnit) (m : Fin 4) : (s.weirPut g).eng m = s.eng m := rfl

/-! `State.cflPut` -/

@[simp] theorem cflPut_pending (g : FlashUnit → FlashUnit) : (s.cflPut g).pending = s.pending := rfl
@[simp] theorem cflPut_time (g : FlashUnit → FlashUnit) : (s.cflPut g).time = s.time := rfl
@[simp] theorem cflPut_answer (g : FlashUnit → FlashUnit) : (s.cflPut g).answer = s.answer := rfl
@[simp] theorem cflPut_free (g : FlashUnit → FlashUnit) : (s.cflPut g).free = s.free := rfl
@[simp] theorem cflPut_regs (g : FlashUnit → FlashUnit) : (s.cflPut g).regs = s.regs := rfl
@[simp] theorem cflPut_acc (g : FlashUnit → FlashUnit) : (s.cflPut g).acc = s.acc := rfl
@[simp] theorem cflPut_mem (g : FlashUnit → FlashUnit) : (s.cflPut g).mem = s.mem := rfl
@[simp] theorem cflPut_reach (g : FlashUnit → FlashUnit) : (s.cflPut g).reach = s.reach := rfl
@[simp] theorem cflPut_chan (g : FlashUnit → FlashUnit) : (s.cflPut g).chan = s.chan := rfl
@[simp] theorem cflPut_preamp (g : FlashUnit → FlashUnit) : (s.cflPut g).preamp = s.preamp := rfl
@[simp] theorem cflPut_deep (g : FlashUnit → FlashUnit) : (s.cflPut g).deep = s.deep := rfl
@[simp] theorem cflPut_servo (g : FlashUnit → FlashUnit) : (s.cflPut g).servo = s.servo := rfl
@[simp] theorem cflPut_medium (g : FlashUnit → FlashUnit) : (s.cflPut g).medium = s.medium := rfl
@[simp] theorem cflPut_zone (g : FlashUnit → FlashUnit) : (s.cflPut g).zone = s.zone := rfl
@[simp] theorem cflPut_host (g : FlashUnit → FlashUnit) : (s.cflPut g).host = s.host := rfl
@[simp] theorem cflPut_stage (g : FlashUnit → FlashUnit) : (s.cflPut g).stage = s.stage := rfl
@[simp] theorem cflPut_memc (g : FlashUnit → FlashUnit) : (s.cflPut g).memc = s.memc := rfl
@[simp] theorem cflPut_evr (g : FlashUnit → FlashUnit) : (s.cflPut g).evr = s.evr := rfl
@[simp] theorem cflPut_weir (g : FlashUnit → FlashUnit) : (s.cflPut g).weir = s.weir := rfl
@[simp] theorem cflPut_sluice (g : FlashUnit → FlashUnit) : (s.cflPut g).sluice = s.sluice := rfl
@[simp] theorem cflPut_bkw (g : FlashUnit → FlashUnit) : (s.cflPut g).bkw = s.bkw := rfl
@[simp] theorem cflPut_flash (g : FlashUnit → FlashUnit) : (s.cflPut g).flash = s.flash := rfl
@[simp] theorem cflPut_cfl (g : FlashUnit → FlashUnit) : (s.cflPut g).cfl = g s.cfl := rfl
@[simp] theorem cflPut_spin (g : FlashUnit → FlashUnit) : (s.cflPut g).spin = s.spin := rfl
@[simp] theorem cflPut_watch (g : FlashUnit → FlashUnit) : (s.cflPut g).watch = s.watch := rfl
@[simp] theorem cflPut_cal (g : FlashUnit → FlashUnit) : (s.cflPut g).cal = s.cal := rfl
@[simp] theorem cflPut_hsk (g : FlashUnit → FlashUnit) : (s.cflPut g).hsk = s.hsk := rfl
@[simp] theorem cflPut_cfx (g : FlashUnit → FlashUnit) : (s.cflPut g).cfx = s.cfx := rfl
@[simp] theorem cflPut_cores (g : FlashUnit → FlashUnit) : (s.cflPut g).cores = s.cores := rfl
@[simp] theorem cflPut_trust (g : FlashUnit → FlashUnit) : (s.cflPut g).trust = s.trust := rfl
@[simp] theorem cflPut_power (g : FlashUnit → FlashUnit) : (s.cflPut g).power = s.power := rfl
@[simp] theorem cflPut_rd (g : FlashUnit → FlashUnit) (y : Fld) : (s.cflPut g).rd y = s.rd y := rfl
@[simp] theorem cflPut_on (g : FlashUnit → FlashUnit) (y : Fld) : (s.cflPut g).on y = s.on y := rfl
@[simp] theorem cflPut_rdBit (g : FlashUnit → FlashUnit) (y : Fld) (j : Nat) : (s.cflPut g).rdBit y j = s.rdBit y j := rfl
@[simp] theorem cflPut_unit (g : FlashUnit → FlashUnit) (u : UnitRef) : (s.cflPut g).unit u = s.unit u := rfl
@[simp] theorem cflPut_sv (g : FlashUnit → FlashUnit) (m : Fin 4) : (s.cflPut g).sv m = s.sv m := rfl
@[simp] theorem cflPut_ch (g : FlashUnit → FlashUnit) (m : Fin 4) : (s.cflPut g).ch m = s.ch m := rfl
@[simp] theorem cflPut_eng (g : FlashUnit → FlashUnit) (m : Fin 4) : (s.cflPut g).eng m = s.eng m := rfl

/-! `State.spinUpd` -/

@[simp] theorem spinUpd_pending (g : SpinUnit → SpinUnit) : (s.spinUpd g).pending = s.pending := rfl
@[simp] theorem spinUpd_time (g : SpinUnit → SpinUnit) : (s.spinUpd g).time = s.time := rfl
@[simp] theorem spinUpd_answer (g : SpinUnit → SpinUnit) : (s.spinUpd g).answer = s.answer := rfl
@[simp] theorem spinUpd_free (g : SpinUnit → SpinUnit) : (s.spinUpd g).free = s.free := rfl
@[simp] theorem spinUpd_regs (g : SpinUnit → SpinUnit) : (s.spinUpd g).regs = s.regs := rfl
@[simp] theorem spinUpd_acc (g : SpinUnit → SpinUnit) : (s.spinUpd g).acc = s.acc := rfl
@[simp] theorem spinUpd_mem (g : SpinUnit → SpinUnit) : (s.spinUpd g).mem = s.mem := rfl
@[simp] theorem spinUpd_reach (g : SpinUnit → SpinUnit) : (s.spinUpd g).reach = s.reach := rfl
@[simp] theorem spinUpd_chan (g : SpinUnit → SpinUnit) : (s.spinUpd g).chan = s.chan := rfl
@[simp] theorem spinUpd_preamp (g : SpinUnit → SpinUnit) : (s.spinUpd g).preamp = s.preamp := rfl
@[simp] theorem spinUpd_deep (g : SpinUnit → SpinUnit) : (s.spinUpd g).deep = s.deep := rfl
@[simp] theorem spinUpd_servo (g : SpinUnit → SpinUnit) : (s.spinUpd g).servo = s.servo := rfl
@[simp] theorem spinUpd_medium (g : SpinUnit → SpinUnit) : (s.spinUpd g).medium = s.medium := rfl
@[simp] theorem spinUpd_zone (g : SpinUnit → SpinUnit) : (s.spinUpd g).zone = s.zone := rfl
@[simp] theorem spinUpd_host (g : SpinUnit → SpinUnit) : (s.spinUpd g).host = s.host := rfl
@[simp] theorem spinUpd_stage (g : SpinUnit → SpinUnit) : (s.spinUpd g).stage = s.stage := rfl
@[simp] theorem spinUpd_memc (g : SpinUnit → SpinUnit) : (s.spinUpd g).memc = s.memc := rfl
@[simp] theorem spinUpd_evr (g : SpinUnit → SpinUnit) : (s.spinUpd g).evr = s.evr := rfl
@[simp] theorem spinUpd_weir (g : SpinUnit → SpinUnit) : (s.spinUpd g).weir = s.weir := rfl
@[simp] theorem spinUpd_sluice (g : SpinUnit → SpinUnit) : (s.spinUpd g).sluice = s.sluice := rfl
@[simp] theorem spinUpd_bkw (g : SpinUnit → SpinUnit) : (s.spinUpd g).bkw = s.bkw := rfl
@[simp] theorem spinUpd_flash (g : SpinUnit → SpinUnit) : (s.spinUpd g).flash = s.flash := rfl
@[simp] theorem spinUpd_cfl (g : SpinUnit → SpinUnit) : (s.spinUpd g).cfl = s.cfl := rfl
@[simp] theorem spinUpd_spin (g : SpinUnit → SpinUnit) : (s.spinUpd g).spin = g s.spin := rfl
@[simp] theorem spinUpd_watch (g : SpinUnit → SpinUnit) : (s.spinUpd g).watch = s.watch := rfl
@[simp] theorem spinUpd_cal (g : SpinUnit → SpinUnit) : (s.spinUpd g).cal = s.cal := rfl
@[simp] theorem spinUpd_hsk (g : SpinUnit → SpinUnit) : (s.spinUpd g).hsk = s.hsk := rfl
@[simp] theorem spinUpd_cfx (g : SpinUnit → SpinUnit) : (s.spinUpd g).cfx = s.cfx := rfl
@[simp] theorem spinUpd_cores (g : SpinUnit → SpinUnit) : (s.spinUpd g).cores = s.cores := rfl
@[simp] theorem spinUpd_trust (g : SpinUnit → SpinUnit) : (s.spinUpd g).trust = s.trust := rfl
@[simp] theorem spinUpd_power (g : SpinUnit → SpinUnit) : (s.spinUpd g).power = s.power := rfl
@[simp] theorem spinUpd_rd (g : SpinUnit → SpinUnit) (y : Fld) : (s.spinUpd g).rd y = s.rd y := rfl
@[simp] theorem spinUpd_on (g : SpinUnit → SpinUnit) (y : Fld) : (s.spinUpd g).on y = s.on y := rfl
@[simp] theorem spinUpd_rdBit (g : SpinUnit → SpinUnit) (y : Fld) (j : Nat) : (s.spinUpd g).rdBit y j = s.rdBit y j := rfl
@[simp] theorem spinUpd_unit (g : SpinUnit → SpinUnit) (u : UnitRef) : (s.spinUpd g).unit u = s.unit u := rfl
@[simp] theorem spinUpd_sv (g : SpinUnit → SpinUnit) (m : Fin 4) : (s.spinUpd g).sv m = s.sv m := rfl
@[simp] theorem spinUpd_ch (g : SpinUnit → SpinUnit) (m : Fin 4) : (s.spinUpd g).ch m = s.ch m := rfl
@[simp] theorem spinUpd_eng (g : SpinUnit → SpinUnit) (m : Fin 4) : (s.spinUpd g).eng m = s.eng m := rfl

/-! `State.watchUpd` -/

@[simp] theorem watchUpd_pending (g : WatchUnit → WatchUnit) : (s.watchUpd g).pending = s.pending := rfl
@[simp] theorem watchUpd_time (g : WatchUnit → WatchUnit) : (s.watchUpd g).time = s.time := rfl
@[simp] theorem watchUpd_answer (g : WatchUnit → WatchUnit) : (s.watchUpd g).answer = s.answer := rfl
@[simp] theorem watchUpd_free (g : WatchUnit → WatchUnit) : (s.watchUpd g).free = s.free := rfl
@[simp] theorem watchUpd_regs (g : WatchUnit → WatchUnit) : (s.watchUpd g).regs = s.regs := rfl
@[simp] theorem watchUpd_acc (g : WatchUnit → WatchUnit) : (s.watchUpd g).acc = s.acc := rfl
@[simp] theorem watchUpd_mem (g : WatchUnit → WatchUnit) : (s.watchUpd g).mem = s.mem := rfl
@[simp] theorem watchUpd_reach (g : WatchUnit → WatchUnit) : (s.watchUpd g).reach = s.reach := rfl
@[simp] theorem watchUpd_chan (g : WatchUnit → WatchUnit) : (s.watchUpd g).chan = s.chan := rfl
@[simp] theorem watchUpd_preamp (g : WatchUnit → WatchUnit) : (s.watchUpd g).preamp = s.preamp := rfl
@[simp] theorem watchUpd_deep (g : WatchUnit → WatchUnit) : (s.watchUpd g).deep = s.deep := rfl
@[simp] theorem watchUpd_servo (g : WatchUnit → WatchUnit) : (s.watchUpd g).servo = s.servo := rfl
@[simp] theorem watchUpd_medium (g : WatchUnit → WatchUnit) : (s.watchUpd g).medium = s.medium := rfl
@[simp] theorem watchUpd_zone (g : WatchUnit → WatchUnit) : (s.watchUpd g).zone = s.zone := rfl
@[simp] theorem watchUpd_host (g : WatchUnit → WatchUnit) : (s.watchUpd g).host = s.host := rfl
@[simp] theorem watchUpd_stage (g : WatchUnit → WatchUnit) : (s.watchUpd g).stage = s.stage := rfl
@[simp] theorem watchUpd_memc (g : WatchUnit → WatchUnit) : (s.watchUpd g).memc = s.memc := rfl
@[simp] theorem watchUpd_evr (g : WatchUnit → WatchUnit) : (s.watchUpd g).evr = s.evr := rfl
@[simp] theorem watchUpd_weir (g : WatchUnit → WatchUnit) : (s.watchUpd g).weir = s.weir := rfl
@[simp] theorem watchUpd_sluice (g : WatchUnit → WatchUnit) : (s.watchUpd g).sluice = s.sluice := rfl
@[simp] theorem watchUpd_bkw (g : WatchUnit → WatchUnit) : (s.watchUpd g).bkw = s.bkw := rfl
@[simp] theorem watchUpd_flash (g : WatchUnit → WatchUnit) : (s.watchUpd g).flash = s.flash := rfl
@[simp] theorem watchUpd_cfl (g : WatchUnit → WatchUnit) : (s.watchUpd g).cfl = s.cfl := rfl
@[simp] theorem watchUpd_spin (g : WatchUnit → WatchUnit) : (s.watchUpd g).spin = s.spin := rfl
@[simp] theorem watchUpd_watch (g : WatchUnit → WatchUnit) : (s.watchUpd g).watch = g s.watch := rfl
@[simp] theorem watchUpd_cal (g : WatchUnit → WatchUnit) : (s.watchUpd g).cal = s.cal := rfl
@[simp] theorem watchUpd_hsk (g : WatchUnit → WatchUnit) : (s.watchUpd g).hsk = s.hsk := rfl
@[simp] theorem watchUpd_cfx (g : WatchUnit → WatchUnit) : (s.watchUpd g).cfx = s.cfx := rfl
@[simp] theorem watchUpd_cores (g : WatchUnit → WatchUnit) : (s.watchUpd g).cores = s.cores := rfl
@[simp] theorem watchUpd_trust (g : WatchUnit → WatchUnit) : (s.watchUpd g).trust = s.trust := rfl
@[simp] theorem watchUpd_power (g : WatchUnit → WatchUnit) : (s.watchUpd g).power = s.power := rfl
@[simp] theorem watchUpd_rd (g : WatchUnit → WatchUnit) (y : Fld) : (s.watchUpd g).rd y = s.rd y := rfl
@[simp] theorem watchUpd_on (g : WatchUnit → WatchUnit) (y : Fld) : (s.watchUpd g).on y = s.on y := rfl
@[simp] theorem watchUpd_rdBit (g : WatchUnit → WatchUnit) (y : Fld) (j : Nat) : (s.watchUpd g).rdBit y j = s.rdBit y j := rfl
@[simp] theorem watchUpd_unit (g : WatchUnit → WatchUnit) (u : UnitRef) : (s.watchUpd g).unit u = s.unit u := rfl
@[simp] theorem watchUpd_sv (g : WatchUnit → WatchUnit) (m : Fin 4) : (s.watchUpd g).sv m = s.sv m := rfl
@[simp] theorem watchUpd_ch (g : WatchUnit → WatchUnit) (m : Fin 4) : (s.watchUpd g).ch m = s.ch m := rfl
@[simp] theorem watchUpd_eng (g : WatchUnit → WatchUnit) (m : Fin 4) : (s.watchUpd g).eng m = s.eng m := rfl

/-! `State.calPut` -/

@[simp] theorem calPut_pending (g : CalUnit → CalUnit) : (s.calPut g).pending = s.pending := rfl
@[simp] theorem calPut_time (g : CalUnit → CalUnit) : (s.calPut g).time = s.time := rfl
@[simp] theorem calPut_answer (g : CalUnit → CalUnit) : (s.calPut g).answer = s.answer := rfl
@[simp] theorem calPut_free (g : CalUnit → CalUnit) : (s.calPut g).free = s.free := rfl
@[simp] theorem calPut_regs (g : CalUnit → CalUnit) : (s.calPut g).regs = s.regs := rfl
@[simp] theorem calPut_acc (g : CalUnit → CalUnit) : (s.calPut g).acc = s.acc := rfl
@[simp] theorem calPut_mem (g : CalUnit → CalUnit) : (s.calPut g).mem = s.mem := rfl
@[simp] theorem calPut_reach (g : CalUnit → CalUnit) : (s.calPut g).reach = s.reach := rfl
@[simp] theorem calPut_chan (g : CalUnit → CalUnit) : (s.calPut g).chan = s.chan := rfl
@[simp] theorem calPut_preamp (g : CalUnit → CalUnit) : (s.calPut g).preamp = s.preamp := rfl
@[simp] theorem calPut_deep (g : CalUnit → CalUnit) : (s.calPut g).deep = s.deep := rfl
@[simp] theorem calPut_servo (g : CalUnit → CalUnit) : (s.calPut g).servo = s.servo := rfl
@[simp] theorem calPut_medium (g : CalUnit → CalUnit) : (s.calPut g).medium = s.medium := rfl
@[simp] theorem calPut_zone (g : CalUnit → CalUnit) : (s.calPut g).zone = s.zone := rfl
@[simp] theorem calPut_host (g : CalUnit → CalUnit) : (s.calPut g).host = s.host := rfl
@[simp] theorem calPut_stage (g : CalUnit → CalUnit) : (s.calPut g).stage = s.stage := rfl
@[simp] theorem calPut_memc (g : CalUnit → CalUnit) : (s.calPut g).memc = s.memc := rfl
@[simp] theorem calPut_evr (g : CalUnit → CalUnit) : (s.calPut g).evr = s.evr := rfl
@[simp] theorem calPut_weir (g : CalUnit → CalUnit) : (s.calPut g).weir = s.weir := rfl
@[simp] theorem calPut_sluice (g : CalUnit → CalUnit) : (s.calPut g).sluice = s.sluice := rfl
@[simp] theorem calPut_bkw (g : CalUnit → CalUnit) : (s.calPut g).bkw = s.bkw := rfl
@[simp] theorem calPut_flash (g : CalUnit → CalUnit) : (s.calPut g).flash = s.flash := rfl
@[simp] theorem calPut_cfl (g : CalUnit → CalUnit) : (s.calPut g).cfl = s.cfl := rfl
@[simp] theorem calPut_spin (g : CalUnit → CalUnit) : (s.calPut g).spin = s.spin := rfl
@[simp] theorem calPut_watch (g : CalUnit → CalUnit) : (s.calPut g).watch = s.watch := rfl
@[simp] theorem calPut_cal (g : CalUnit → CalUnit) : (s.calPut g).cal = g s.cal := rfl
@[simp] theorem calPut_hsk (g : CalUnit → CalUnit) : (s.calPut g).hsk = s.hsk := rfl
@[simp] theorem calPut_cfx (g : CalUnit → CalUnit) : (s.calPut g).cfx = s.cfx := rfl
@[simp] theorem calPut_cores (g : CalUnit → CalUnit) : (s.calPut g).cores = s.cores := rfl
@[simp] theorem calPut_trust (g : CalUnit → CalUnit) : (s.calPut g).trust = s.trust := rfl
@[simp] theorem calPut_power (g : CalUnit → CalUnit) : (s.calPut g).power = s.power := rfl
@[simp] theorem calPut_rd (g : CalUnit → CalUnit) (y : Fld) : (s.calPut g).rd y = s.rd y := rfl
@[simp] theorem calPut_on (g : CalUnit → CalUnit) (y : Fld) : (s.calPut g).on y = s.on y := rfl
@[simp] theorem calPut_rdBit (g : CalUnit → CalUnit) (y : Fld) (j : Nat) : (s.calPut g).rdBit y j = s.rdBit y j := rfl
@[simp] theorem calPut_unit (g : CalUnit → CalUnit) (u : UnitRef) : (s.calPut g).unit u = s.unit u := rfl
@[simp] theorem calPut_sv (g : CalUnit → CalUnit) (m : Fin 4) : (s.calPut g).sv m = s.sv m := rfl
@[simp] theorem calPut_ch (g : CalUnit → CalUnit) (m : Fin 4) : (s.calPut g).ch m = s.ch m := rfl
@[simp] theorem calPut_eng (g : CalUnit → CalUnit) (m : Fin 4) : (s.calPut g).eng m = s.eng m := rfl

/-! `State.hskPut` -/

@[simp] theorem hskPut_pending (g : HskUnit → HskUnit) : (s.hskPut g).pending = s.pending := rfl
@[simp] theorem hskPut_time (g : HskUnit → HskUnit) : (s.hskPut g).time = s.time := rfl
@[simp] theorem hskPut_answer (g : HskUnit → HskUnit) : (s.hskPut g).answer = s.answer := rfl
@[simp] theorem hskPut_free (g : HskUnit → HskUnit) : (s.hskPut g).free = s.free := rfl
@[simp] theorem hskPut_regs (g : HskUnit → HskUnit) : (s.hskPut g).regs = s.regs := rfl
@[simp] theorem hskPut_acc (g : HskUnit → HskUnit) : (s.hskPut g).acc = s.acc := rfl
@[simp] theorem hskPut_mem (g : HskUnit → HskUnit) : (s.hskPut g).mem = s.mem := rfl
@[simp] theorem hskPut_reach (g : HskUnit → HskUnit) : (s.hskPut g).reach = s.reach := rfl
@[simp] theorem hskPut_chan (g : HskUnit → HskUnit) : (s.hskPut g).chan = s.chan := rfl
@[simp] theorem hskPut_preamp (g : HskUnit → HskUnit) : (s.hskPut g).preamp = s.preamp := rfl
@[simp] theorem hskPut_deep (g : HskUnit → HskUnit) : (s.hskPut g).deep = s.deep := rfl
@[simp] theorem hskPut_servo (g : HskUnit → HskUnit) : (s.hskPut g).servo = s.servo := rfl
@[simp] theorem hskPut_medium (g : HskUnit → HskUnit) : (s.hskPut g).medium = s.medium := rfl
@[simp] theorem hskPut_zone (g : HskUnit → HskUnit) : (s.hskPut g).zone = s.zone := rfl
@[simp] theorem hskPut_host (g : HskUnit → HskUnit) : (s.hskPut g).host = s.host := rfl
@[simp] theorem hskPut_stage (g : HskUnit → HskUnit) : (s.hskPut g).stage = s.stage := rfl
@[simp] theorem hskPut_memc (g : HskUnit → HskUnit) : (s.hskPut g).memc = s.memc := rfl
@[simp] theorem hskPut_evr (g : HskUnit → HskUnit) : (s.hskPut g).evr = s.evr := rfl
@[simp] theorem hskPut_weir (g : HskUnit → HskUnit) : (s.hskPut g).weir = s.weir := rfl
@[simp] theorem hskPut_sluice (g : HskUnit → HskUnit) : (s.hskPut g).sluice = s.sluice := rfl
@[simp] theorem hskPut_bkw (g : HskUnit → HskUnit) : (s.hskPut g).bkw = s.bkw := rfl
@[simp] theorem hskPut_flash (g : HskUnit → HskUnit) : (s.hskPut g).flash = s.flash := rfl
@[simp] theorem hskPut_cfl (g : HskUnit → HskUnit) : (s.hskPut g).cfl = s.cfl := rfl
@[simp] theorem hskPut_spin (g : HskUnit → HskUnit) : (s.hskPut g).spin = s.spin := rfl
@[simp] theorem hskPut_watch (g : HskUnit → HskUnit) : (s.hskPut g).watch = s.watch := rfl
@[simp] theorem hskPut_cal (g : HskUnit → HskUnit) : (s.hskPut g).cal = s.cal := rfl
@[simp] theorem hskPut_hsk (g : HskUnit → HskUnit) : (s.hskPut g).hsk = g s.hsk := rfl
@[simp] theorem hskPut_cfx (g : HskUnit → HskUnit) : (s.hskPut g).cfx = s.cfx := rfl
@[simp] theorem hskPut_cores (g : HskUnit → HskUnit) : (s.hskPut g).cores = s.cores := rfl
@[simp] theorem hskPut_trust (g : HskUnit → HskUnit) : (s.hskPut g).trust = s.trust := rfl
@[simp] theorem hskPut_power (g : HskUnit → HskUnit) : (s.hskPut g).power = s.power := rfl
@[simp] theorem hskPut_rd (g : HskUnit → HskUnit) (y : Fld) : (s.hskPut g).rd y = s.rd y := rfl
@[simp] theorem hskPut_on (g : HskUnit → HskUnit) (y : Fld) : (s.hskPut g).on y = s.on y := rfl
@[simp] theorem hskPut_rdBit (g : HskUnit → HskUnit) (y : Fld) (j : Nat) : (s.hskPut g).rdBit y j = s.rdBit y j := rfl
@[simp] theorem hskPut_unit (g : HskUnit → HskUnit) (u : UnitRef) : (s.hskPut g).unit u = s.unit u := rfl
@[simp] theorem hskPut_sv (g : HskUnit → HskUnit) (m : Fin 4) : (s.hskPut g).sv m = s.sv m := rfl
@[simp] theorem hskPut_ch (g : HskUnit → HskUnit) (m : Fin 4) : (s.hskPut g).ch m = s.ch m := rfl
@[simp] theorem hskPut_eng (g : HskUnit → HskUnit) (m : Fin 4) : (s.hskPut g).eng m = s.eng m := rfl

/-! `State.cfxUpd` -/

@[simp] theorem cfxUpd_pending (g : CfxUnit → CfxUnit) : (s.cfxUpd g).pending = s.pending := rfl
@[simp] theorem cfxUpd_time (g : CfxUnit → CfxUnit) : (s.cfxUpd g).time = s.time := rfl
@[simp] theorem cfxUpd_answer (g : CfxUnit → CfxUnit) : (s.cfxUpd g).answer = s.answer := rfl
@[simp] theorem cfxUpd_free (g : CfxUnit → CfxUnit) : (s.cfxUpd g).free = s.free := rfl
@[simp] theorem cfxUpd_regs (g : CfxUnit → CfxUnit) : (s.cfxUpd g).regs = s.regs := rfl
@[simp] theorem cfxUpd_acc (g : CfxUnit → CfxUnit) : (s.cfxUpd g).acc = s.acc := rfl
@[simp] theorem cfxUpd_mem (g : CfxUnit → CfxUnit) : (s.cfxUpd g).mem = s.mem := rfl
@[simp] theorem cfxUpd_reach (g : CfxUnit → CfxUnit) : (s.cfxUpd g).reach = s.reach := rfl
@[simp] theorem cfxUpd_chan (g : CfxUnit → CfxUnit) : (s.cfxUpd g).chan = s.chan := rfl
@[simp] theorem cfxUpd_preamp (g : CfxUnit → CfxUnit) : (s.cfxUpd g).preamp = s.preamp := rfl
@[simp] theorem cfxUpd_deep (g : CfxUnit → CfxUnit) : (s.cfxUpd g).deep = s.deep := rfl
@[simp] theorem cfxUpd_servo (g : CfxUnit → CfxUnit) : (s.cfxUpd g).servo = s.servo := rfl
@[simp] theorem cfxUpd_medium (g : CfxUnit → CfxUnit) : (s.cfxUpd g).medium = s.medium := rfl
@[simp] theorem cfxUpd_zone (g : CfxUnit → CfxUnit) : (s.cfxUpd g).zone = s.zone := rfl
@[simp] theorem cfxUpd_host (g : CfxUnit → CfxUnit) : (s.cfxUpd g).host = s.host := rfl
@[simp] theorem cfxUpd_stage (g : CfxUnit → CfxUnit) : (s.cfxUpd g).stage = s.stage := rfl
@[simp] theorem cfxUpd_memc (g : CfxUnit → CfxUnit) : (s.cfxUpd g).memc = s.memc := rfl
@[simp] theorem cfxUpd_evr (g : CfxUnit → CfxUnit) : (s.cfxUpd g).evr = s.evr := rfl
@[simp] theorem cfxUpd_weir (g : CfxUnit → CfxUnit) : (s.cfxUpd g).weir = s.weir := rfl
@[simp] theorem cfxUpd_sluice (g : CfxUnit → CfxUnit) : (s.cfxUpd g).sluice = s.sluice := rfl
@[simp] theorem cfxUpd_bkw (g : CfxUnit → CfxUnit) : (s.cfxUpd g).bkw = s.bkw := rfl
@[simp] theorem cfxUpd_flash (g : CfxUnit → CfxUnit) : (s.cfxUpd g).flash = s.flash := rfl
@[simp] theorem cfxUpd_cfl (g : CfxUnit → CfxUnit) : (s.cfxUpd g).cfl = s.cfl := rfl
@[simp] theorem cfxUpd_spin (g : CfxUnit → CfxUnit) : (s.cfxUpd g).spin = s.spin := rfl
@[simp] theorem cfxUpd_watch (g : CfxUnit → CfxUnit) : (s.cfxUpd g).watch = s.watch := rfl
@[simp] theorem cfxUpd_cal (g : CfxUnit → CfxUnit) : (s.cfxUpd g).cal = s.cal := rfl
@[simp] theorem cfxUpd_hsk (g : CfxUnit → CfxUnit) : (s.cfxUpd g).hsk = s.hsk := rfl
@[simp] theorem cfxUpd_cfx (g : CfxUnit → CfxUnit) : (s.cfxUpd g).cfx = g s.cfx := rfl
@[simp] theorem cfxUpd_cores (g : CfxUnit → CfxUnit) : (s.cfxUpd g).cores = s.cores := rfl
@[simp] theorem cfxUpd_trust (g : CfxUnit → CfxUnit) : (s.cfxUpd g).trust = s.trust := rfl
@[simp] theorem cfxUpd_power (g : CfxUnit → CfxUnit) : (s.cfxUpd g).power = s.power := rfl
@[simp] theorem cfxUpd_rd (g : CfxUnit → CfxUnit) (y : Fld) : (s.cfxUpd g).rd y = s.rd y := rfl
@[simp] theorem cfxUpd_on (g : CfxUnit → CfxUnit) (y : Fld) : (s.cfxUpd g).on y = s.on y := rfl
@[simp] theorem cfxUpd_rdBit (g : CfxUnit → CfxUnit) (y : Fld) (j : Nat) : (s.cfxUpd g).rdBit y j = s.rdBit y j := rfl
@[simp] theorem cfxUpd_unit (g : CfxUnit → CfxUnit) (u : UnitRef) : (s.cfxUpd g).unit u = s.unit u := rfl
@[simp] theorem cfxUpd_sv (g : CfxUnit → CfxUnit) (m : Fin 4) : (s.cfxUpd g).sv m = s.sv m := rfl
@[simp] theorem cfxUpd_ch (g : CfxUnit → CfxUnit) (m : Fin 4) : (s.cfxUpd g).ch m = s.ch m := rfl
@[simp] theorem cfxUpd_eng (g : CfxUnit → CfxUnit) (m : Fin 4) : (s.cfxUpd g).eng m = s.eng m := rfl

/-! `State.setCore` -/

@[simp] theorem setCore_pending (k : Nat) (c : CoreUnit) : (s.setCore k c).pending = s.pending := rfl
@[simp] theorem setCore_time (k : Nat) (c : CoreUnit) : (s.setCore k c).time = s.time := rfl
@[simp] theorem setCore_answer (k : Nat) (c : CoreUnit) : (s.setCore k c).answer = s.answer := rfl
@[simp] theorem setCore_free (k : Nat) (c : CoreUnit) : (s.setCore k c).free = s.free := rfl
@[simp] theorem setCore_regs (k : Nat) (c : CoreUnit) : (s.setCore k c).regs = s.regs := rfl
@[simp] theorem setCore_acc (k : Nat) (c : CoreUnit) : (s.setCore k c).acc = s.acc := rfl
@[simp] theorem setCore_mem (k : Nat) (c : CoreUnit) : (s.setCore k c).mem = s.mem := rfl
@[simp] theorem setCore_reach (k : Nat) (c : CoreUnit) : (s.setCore k c).reach = s.reach := rfl
@[simp] theorem setCore_chan (k : Nat) (c : CoreUnit) : (s.setCore k c).chan = s.chan := rfl
@[simp] theorem setCore_preamp (k : Nat) (c : CoreUnit) : (s.setCore k c).preamp = s.preamp := rfl
@[simp] theorem setCore_deep (k : Nat) (c : CoreUnit) : (s.setCore k c).deep = s.deep := rfl
@[simp] theorem setCore_servo (k : Nat) (c : CoreUnit) : (s.setCore k c).servo = s.servo := rfl
@[simp] theorem setCore_medium (k : Nat) (c : CoreUnit) : (s.setCore k c).medium = s.medium := rfl
@[simp] theorem setCore_zone (k : Nat) (c : CoreUnit) : (s.setCore k c).zone = s.zone := rfl
@[simp] theorem setCore_host (k : Nat) (c : CoreUnit) : (s.setCore k c).host = s.host := rfl
@[simp] theorem setCore_stage (k : Nat) (c : CoreUnit) : (s.setCore k c).stage = s.stage := rfl
@[simp] theorem setCore_memc (k : Nat) (c : CoreUnit) : (s.setCore k c).memc = s.memc := rfl
@[simp] theorem setCore_evr (k : Nat) (c : CoreUnit) : (s.setCore k c).evr = s.evr := rfl
@[simp] theorem setCore_weir (k : Nat) (c : CoreUnit) : (s.setCore k c).weir = s.weir := rfl
@[simp] theorem setCore_sluice (k : Nat) (c : CoreUnit) : (s.setCore k c).sluice = s.sluice := rfl
@[simp] theorem setCore_bkw (k : Nat) (c : CoreUnit) : (s.setCore k c).bkw = s.bkw := rfl
@[simp] theorem setCore_flash (k : Nat) (c : CoreUnit) : (s.setCore k c).flash = s.flash := rfl
@[simp] theorem setCore_cfl (k : Nat) (c : CoreUnit) : (s.setCore k c).cfl = s.cfl := rfl
@[simp] theorem setCore_spin (k : Nat) (c : CoreUnit) : (s.setCore k c).spin = s.spin := rfl
@[simp] theorem setCore_watch (k : Nat) (c : CoreUnit) : (s.setCore k c).watch = s.watch := rfl
@[simp] theorem setCore_cal (k : Nat) (c : CoreUnit) : (s.setCore k c).cal = s.cal := rfl
@[simp] theorem setCore_hsk (k : Nat) (c : CoreUnit) : (s.setCore k c).hsk = s.hsk := rfl
@[simp] theorem setCore_cfx (k : Nat) (c : CoreUnit) : (s.setCore k c).cfx = s.cfx := rfl
@[simp] theorem setCore_trust (k : Nat) (c : CoreUnit) : (s.setCore k c).trust = s.trust := rfl
@[simp] theorem setCore_power (k : Nat) (c : CoreUnit) : (s.setCore k c).power = s.power := rfl
@[simp] theorem setCore_rd (k : Nat) (c : CoreUnit) (y : Fld) : (s.setCore k c).rd y = s.rd y := rfl
@[simp] theorem setCore_on (k : Nat) (c : CoreUnit) (y : Fld) : (s.setCore k c).on y = s.on y := rfl
@[simp] theorem setCore_rdBit (k : Nat) (c : CoreUnit) (y : Fld) (j : Nat) : (s.setCore k c).rdBit y j = s.rdBit y j := rfl
@[simp] theorem setCore_unit (k : Nat) (c : CoreUnit) (u : UnitRef) : (s.setCore k c).unit u = s.unit u := rfl
@[simp] theorem setCore_sv (k : Nat) (c : CoreUnit) (m : Fin 4) : (s.setCore k c).sv m = s.sv m := rfl
@[simp] theorem setCore_ch (k : Nat) (c : CoreUnit) (m : Fin 4) : (s.setCore k c).ch m = s.ch m := rfl
@[simp] theorem setCore_eng (k : Nat) (c : CoreUnit) (m : Fin 4) : (s.setCore k c).eng m = s.eng m := rfl

/-! `State.truPut` -/

@[simp] theorem truPut_pending (g : TrustUnit → TrustUnit) : (s.truPut g).pending = s.pending := rfl
@[simp] theorem truPut_time (g : TrustUnit → TrustUnit) : (s.truPut g).time = s.time := rfl
@[simp] theorem truPut_answer (g : TrustUnit → TrustUnit) : (s.truPut g).answer = s.answer := rfl
@[simp] theorem truPut_free (g : TrustUnit → TrustUnit) : (s.truPut g).free = s.free := rfl
@[simp] theorem truPut_regs (g : TrustUnit → TrustUnit) : (s.truPut g).regs = s.regs := rfl
@[simp] theorem truPut_acc (g : TrustUnit → TrustUnit) : (s.truPut g).acc = s.acc := rfl
@[simp] theorem truPut_mem (g : TrustUnit → TrustUnit) : (s.truPut g).mem = s.mem := rfl
@[simp] theorem truPut_reach (g : TrustUnit → TrustUnit) : (s.truPut g).reach = s.reach := rfl
@[simp] theorem truPut_chan (g : TrustUnit → TrustUnit) : (s.truPut g).chan = s.chan := rfl
@[simp] theorem truPut_preamp (g : TrustUnit → TrustUnit) : (s.truPut g).preamp = s.preamp := rfl
@[simp] theorem truPut_deep (g : TrustUnit → TrustUnit) : (s.truPut g).deep = s.deep := rfl
@[simp] theorem truPut_servo (g : TrustUnit → TrustUnit) : (s.truPut g).servo = s.servo := rfl
@[simp] theorem truPut_medium (g : TrustUnit → TrustUnit) : (s.truPut g).medium = s.medium := rfl
@[simp] theorem truPut_zone (g : TrustUnit → TrustUnit) : (s.truPut g).zone = s.zone := rfl
@[simp] theorem truPut_host (g : TrustUnit → TrustUnit) : (s.truPut g).host = s.host := rfl
@[simp] theorem truPut_stage (g : TrustUnit → TrustUnit) : (s.truPut g).stage = s.stage := rfl
@[simp] theorem truPut_memc (g : TrustUnit → TrustUnit) : (s.truPut g).memc = s.memc := rfl
@[simp] theorem truPut_evr (g : TrustUnit → TrustUnit) : (s.truPut g).evr = s.evr := rfl
@[simp] theorem truPut_weir (g : TrustUnit → TrustUnit) : (s.truPut g).weir = s.weir := rfl
@[simp] theorem truPut_sluice (g : TrustUnit → TrustUnit) : (s.truPut g).sluice = s.sluice := rfl
@[simp] theorem truPut_bkw (g : TrustUnit → TrustUnit) : (s.truPut g).bkw = s.bkw := rfl
@[simp] theorem truPut_flash (g : TrustUnit → TrustUnit) : (s.truPut g).flash = s.flash := rfl
@[simp] theorem truPut_cfl (g : TrustUnit → TrustUnit) : (s.truPut g).cfl = s.cfl := rfl
@[simp] theorem truPut_spin (g : TrustUnit → TrustUnit) : (s.truPut g).spin = s.spin := rfl
@[simp] theorem truPut_watch (g : TrustUnit → TrustUnit) : (s.truPut g).watch = s.watch := rfl
@[simp] theorem truPut_cal (g : TrustUnit → TrustUnit) : (s.truPut g).cal = s.cal := rfl
@[simp] theorem truPut_hsk (g : TrustUnit → TrustUnit) : (s.truPut g).hsk = s.hsk := rfl
@[simp] theorem truPut_cfx (g : TrustUnit → TrustUnit) : (s.truPut g).cfx = s.cfx := rfl
@[simp] theorem truPut_cores (g : TrustUnit → TrustUnit) : (s.truPut g).cores = s.cores := rfl
@[simp] theorem truPut_trust (g : TrustUnit → TrustUnit) : (s.truPut g).trust = g s.trust := rfl
@[simp] theorem truPut_power (g : TrustUnit → TrustUnit) : (s.truPut g).power = s.power := rfl
@[simp] theorem truPut_rd (g : TrustUnit → TrustUnit) (y : Fld) : (s.truPut g).rd y = s.rd y := rfl
@[simp] theorem truPut_on (g : TrustUnit → TrustUnit) (y : Fld) : (s.truPut g).on y = s.on y := rfl
@[simp] theorem truPut_rdBit (g : TrustUnit → TrustUnit) (y : Fld) (j : Nat) : (s.truPut g).rdBit y j = s.rdBit y j := rfl
@[simp] theorem truPut_unit (g : TrustUnit → TrustUnit) (u : UnitRef) : (s.truPut g).unit u = s.unit u := rfl
@[simp] theorem truPut_sv (g : TrustUnit → TrustUnit) (m : Fin 4) : (s.truPut g).sv m = s.sv m := rfl
@[simp] theorem truPut_ch (g : TrustUnit → TrustUnit) (m : Fin 4) : (s.truPut g).ch m = s.ch m := rfl
@[simp] theorem truPut_eng (g : TrustUnit → TrustUnit) (m : Fin 4) : (s.truPut g).eng m = s.eng m := rfl

end Sys2Proof.Machine
end

