-- ==== Sys2Proof/Laws/Ops.lean ====
section
/-! SUPPORT. What a register field reads after each shared operation, and the laws of four like things. -/

namespace Sys2Proof

set_option Elab.async false

variable {α : Type}

/-- Item `j` of four with item `i` replaced. -/
@[simp] theorem Four.get_set (f : Four α) (i j : Fin 4) (a : α) : (f.set i a).get j = if j = i then a else f.get j := by
  fin_cases i <;> fin_cases j <;> rfl

/-- The last of two writes to one place stands. -/
@[simp] theorem Four.set_set (f : Four α) (i : Fin 4) (a b : α) : (f.set i a).set i b = f.set i b := by
  fin_cases i <;> rfl

/-- Item `j` of four with item `i` changed. -/
@[simp] theorem Four.get_upd (f : Four α) (i j : Fin 4) (g : α → α) : (f.upd i g).get j = if j = i then g (f.get i) else f.get j := by
  simp [Four.upd]

end Sys2Proof

namespace Sys2Proof.Machine

set_option Elab.async false

variable (s : State)

/-- A field holds what was written, cut to its width, and every other field what it held (R10). -/
theorem wr_rd (f g : Fld) (v : Nat) (h : g.key = f.key → g = f) :
    (s.wr f v).rd g = if g.key = f.key then v % 2 ^ f.width else s.rd g := by
  simp only [State.rd, wr_regs, tget_tset]
  split
  · next e => rw [h e, Nat.xor_assoc, Nat.xor_self, Nat.xor_zero]
  · rfl

/-- A field holds what was written to it, cut to its width. -/
@[simp] theorem wr_rd_same (f : Fld) (v : Nat) : (s.wr f v).rd f = v % 2 ^ f.width := by
  rw [wr_rd s f f v fun _ => rfl, if_pos rfl]

/-- A field with another key holds what it held. -/
theorem wr_rd_other {f g : Fld} (v : Nat) (h : g.key ≠ f.key) : (s.wr f v).rd g = s.rd g := by
  simp [State.rd, tget_tset, h]

/-- The servo of an actuator after a change of one. -/
@[simp] theorem updSv_sv (n m : Fin 4) (g : Servo → Servo) : (s.updSv n g).sv m = if m = n then g (s.sv n) else s.sv m := by
  simp [State.sv]

/-- The channel of an actuator after a change of one. -/
@[simp] theorem updCh_ch (n m : Fin 4) (g : Chan → Chan) : (s.updCh n g).ch m = if m = n then g (s.ch n) else s.ch m := by
  simp [State.ch]

/-- The engine of an actuator after a change of one. -/
@[simp] theorem updEng_eng (n m : Fin 4) (g : Reach → Reach) : (s.updEng n g).eng m = if m = n then g (s.eng n) else s.eng m := by
  simp [State.eng]

/-- A unit's state after a write of one. -/
theorem setUnit_unit (u : UnitRef) (v : Nat) :
    (s.setUnit u v).unit u = v % 2 ^ (Fd.SLOT_STATE_STATE u.win u.slot).width := by
  simp [State.setUnit, State.unit]

/-- A counter's field after it counts (R366). -/
theorem count_rd_same (f : Fld) (n : Nat) : (s.count f n).rd f = satAdd (2 ^ f.width - 1) (s.rd f) n % 2 ^ f.width := wr_rd_same s f _

/-- A record raised is the newest of the raised records. -/
@[simp] theorem raise_rd (u : UnitRef) (c v : Nat) (p : List Nat) (f : Fld) : (s.raise u c v p).rd f = s.rd f := rfl

/-- Memory after bytes are put at an address: those bytes there, and elsewhere as before. -/
theorem memPutBytes_get (m : List Host.Cell) (a x : Nat) (l : List Nat) :
    tget (0 : Byte) (memPutBytes m a l) x = if a ≤ x ∧ x < a + l.length then BitVec.ofNat 8 (l.getD (x - a) 0) else tget (0 : Byte) m x := by
  induction l generalizing m a with
  | nil => simp only [memPutBytes, List.length_nil]; rw [if_neg (by omega)]
  | cons b l ih =>
    simp only [memPutBytes, ih, tget_tset, List.length_cons]
    by_cases e : x = a
    · subst e
      rw [if_neg (by omega), if_pos rfl, if_pos (by omega)]
      simp
    · by_cases f : a + 1 ≤ x ∧ x < a + 1 + l.length
      · rw [if_pos f, if_pos (by omega)]
        obtain ⟨k, rfl⟩ : ∃ k, x = a + 1 + k := ⟨x - (a + 1), by omega⟩
        have h1 : a + 1 + k - (a + 1) = k := by omega
        have h2 : a + 1 + k - a = k + 1 := by omega
        rw [h1, h2, List.getD_cons_succ]
      · rw [if_neg f, if_neg e, if_neg (by omega)]

end Sys2Proof.Machine
end

