-- ==== Sys2Proof/Laws/Memory.lean ====
section
/-! SUPPORT. Bytes of a value and of memory, and what memory holds after the memory controller writes a word. -/

namespace Sys2Proof.Machine

set_option Elab.async false

/-- Byte `i` of a merged word is that of the word its enable chooses. -/
theorem bits_merge (old new be : Nat) (i : Nat) (hi : i < 8) :
    bits (mergeWord old new be 8) (8 * i) 8 = bits (if bit be i then new else old) (8 * i) 8 := by
  have hb : ∀ j, bits (if bit be j then new else old) (8 * j) 8 < 256 := fun j => Nat.mod_lt _ (by decide)
  simp only [mergeWord]
  generalize h0 : bits (if bit be 0 then new else old) (8 * 0) 8 = a0
  generalize h1 : bits (if bit be 1 then new else old) (8 * 1) 8 = a1
  generalize h2 : bits (if bit be 2 then new else old) (8 * 2) 8 = a2
  generalize h3 : bits (if bit be 3 then new else old) (8 * 3) 8 = a3
  generalize h4 : bits (if bit be 4 then new else old) (8 * 4) 8 = a4
  generalize h5 : bits (if bit be 5 then new else old) (8 * 5) 8 = a5
  generalize h6 : bits (if bit be 6 then new else old) (8 * 6) 8 = a6
  generalize h7 : bits (if bit be 7 then new else old) (8 * 7) 8 = a7
  have b0 := hb 0; have b1 := hb 1; have b2 := hb 2; have b3 := hb 3; have b4 := hb 4; have b5 := hb 5; have b6 := hb 6; have b7 := hb 7
  rw [h0] at b0; rw [h1] at b1; rw [h2] at b2; rw [h3] at b3; rw [h4] at b4; rw [h5] at b5; rw [h6] at b6; rw [h7] at b7
  interval_cases i
  all_goals simp only [bits] at *
  all_goals (norm_num at *; omega)

/-- Byte `i` of the bytes of a value. -/
theorem leBytes_getD (n v i : Nat) (h : i < n) : (leBytes n v).getD i 0 = bits v (8 * i) 8 := by
  induction n generalizing v i with
  | zero => omega
  | succ n ih =>
    simp only [leBytes]
    cases i with
    | zero => simp [bits]
    | succ i =>
      rw [List.getD_cons_succ, ih _ _ (by omega)]
      simp only [bits, Nat.div_div_eq_div_mul]
      congr 2
      rw [show 8 * (i + 1) = 8 + 8 * i by omega, Nat.pow_add]

/-- A value of `n` bytes has `n`. -/
theorem leBytes_len (n v : Nat) : (leBytes n v).length = n := by
  induction n generalizing v with
  | zero => rfl
  | succ n ih => simp [leBytes, ih]

/-- Byte `i` of the value of bytes. -/
theorem leValue_bits (l : List Nat) (hl : ∀ x ∈ l, x < 256) (i : Nat) (h : i < l.length) : bits (leValue l) (8 * i) 8 = l.getD i 0 := by
  induction l generalizing i with
  | nil => simp at h
  | cons b l ih =>
    have hb := hl b (List.mem_cons_self)
    simp only [leValue]
    cases i with
    | zero => simp [bits]; omega
    | succ i =>
      rw [List.getD_cons_succ, ← ih (fun x hx => hl x (List.mem_cons_of_mem _ hx)) i (by simpa using h)]
      simp only [bits]
      congr 1
      rw [show 8 * (i + 1) = 8 + 8 * i by omega, Nat.pow_add, ← Nat.div_div_eq_div_mul]
      congr 1
      omega

/-- An injection leaves memory. -/
theorem inject_mem (s : State) (w : Nat) : (s.inject w).mem = s.mem := by
  unfold State.inject; split <;> rfl

/-- A correction leaves memory, which holds what was written. -/
theorem corrected_mem (s : State) (w c : Nat) (b : Bool) : (s.corrected w c b).mem = s.mem :=
  ((keeps_corrected (P := fun p => p ≠ .mem) (r := s) (by simp) (by simp) (by simp) (by simp) (Keeps.refl s)).part .mem).resolve_left (by simp) 

/-- Byte `i` of the bytes read at an address. -/
theorem bytes_getD (s : State) (a n i : Nat) (h : i < n) : (s.bytes a n).getD i 0 = (tget (0 : Byte) s.mem (a + i)).toNat := by
  induction n generalizing a i with
  | zero => omega
  | succ n ih =>
    simp only [State.bytes]
    cases i with
    | zero => simp
    | succ i => rw [List.getD_cons_succ, ih _ _ (by omega), Nat.add_assoc, Nat.add_comm 1 i]

/-- A byte read is one. -/
theorem bytes_lt (s : State) (a n : Nat) : ∀ x ∈ s.bytes a n, x < 256 := by
  induction n generalizing a with
  | zero => simp [State.bytes]
  | succ n ih =>
    intro x hx
    simp only [State.bytes, List.mem_cons] at hx
    rcases hx with rfl | h
    · exact (tget (0 : Byte) s.mem a).isLt
    · exact ih _ x h

/-- As many bytes are read as were asked for. -/
theorem bytes_len (s : State) (a n : Nat) : (s.bytes a n).length = n := by
  induction n generalizing a with
  | zero => rfl
  | succ n ih => simp [State.bytes, ih]

/-- Memory after a word is put. -/
theorem putWord_get (s : State) (w v a : Nat) : tget (0 : Byte) (s.putWord w v).mem a =
    if 8 * w ≤ a ∧ a < 8 * w + 8 then BitVec.ofNat 8 (bits v (8 * (a - 8 * w)) 8) else tget (0 : Byte) s.mem a := by
  simp only [State.putWord, memPutBytes_get, leBytes_len]
  split
  · rw [leBytes_getD _ _ _ (by omega)]
  · rfl

/-- Byte `i` of the word read at an address. -/
theorem word_bits (s : State) (w i : Nat) (h : i < 8) : bits (s.word w) (8 * i) 8 = (tget (0 : Byte) s.mem (8 * w + i)).toNat := by
  rw [State.word, leValue_bits _ (bytes_lt _ _ _) _ (by rw [bytes_len]; exact h), bytes_getD _ _ _ _ h]

/-- Memory after the controller writes a word whose codeword has no error beyond correction: the enabled bytes of the value, and elsewhere as before. -/
theorem memPut_mem (s : State) (w v be : Nat) (hbe : be < 256) (he : symCount (s.err w) 0 20 ≤ 1 ∨ popCount (s.err w) 0 80 ≤ 2) (a : Nat) :
    tget (0 : Byte) (s.memPut w v be).mem a = if 8 * w ≤ a ∧ a < 8 * w + 8 ∧ bit be (a - 8 * w) = true then
      BitVec.ofNat 8 (bits v (8 * (a - 8 * w)) 8) else tget (0 : Byte) s.mem a := by
  unfold State.memPut
  simp only [Nat.mod_eq_of_lt hbe]
  by_cases h0 : be = 0
  · subst h0; simp [bit]
  · rw [if_neg h0]
    by_cases h1 : be = 255
    · subst h1
      rw [if_pos rfl, inject_mem]
      show tget (0 : Byte) (s.putWord w v).mem a = _
      rw [putWord_get]
      by_cases c : 8 * w ≤ a ∧ a < 8 * w + 8
      · have : bit 255 (a - 8 * w) = true := by
          have : a - 8 * w < 8 := by omega
          generalize a - 8 * w = i at this; interval_cases i <;> rfl
        rw [if_pos c, if_pos ⟨c.1, c.2, this⟩]
      · rw [if_neg c, if_neg fun h => c ⟨h.1, h.2.1⟩]
    · rw [if_neg h1]
      have e : q80 (s.err w) = .ok 0 := by unfold q80; rw [if_pos he]
      simp only [e]
      rw [inject_mem]
      show tget (0 : Byte) (State.putWord _ w _).mem a = _
      rw [putWord_get]
      simp only [Nat.zero_mod, Nat.xor_zero]
      have hm : (if s.err w = 0 then s else s.corrected w (s.err w) false).mem = s.mem := by
        split
        · rfl
        · exact corrected_mem _ _ _ _
      rw [hm]
      clear hm e he
      by_cases c : 8 * w ≤ a ∧ a < 8 * w + 8
      · have hi : a - 8 * w < 8 := by omega
        rw [if_pos c, bits_merge _ _ _ _ hi]
        by_cases d : bit be (a - 8 * w) = true
        · rw [if_pos d, if_pos ⟨c.1, c.2, d⟩]
        · rw [if_neg d, if_neg fun h => d h.2.2, word_bits _ _ _ hi, show 8 * w + (a - 8 * w) = a by omega]
          rw [BitVec.ofNat_toNat, BitVec.setWidth_eq]
      · rw [if_neg c, if_neg fun h => c ⟨h.1, h.2.1⟩]

end Sys2Proof.Machine
end

