-- ==== Sys2Proof/Laws/Registers.lean ====
section
/-! SUPPORT. What storing a written value in a register's fields leaves, and the fields of two registers. -/

namespace Sys2Proof.Machine

set_option Elab.async false

/-- A field stored leaves every field with another key. -/
theorem storeField_other (s : State) (w off v : Nat) (x : FieldAt) (f : Fld) (h : x.fd.key ≠ f.key) :
    (s.storeField w off v x).rd f = s.rd f := by
  unfold State.storeField
  split
  · rfl
  · split <;> first | exact wr_rd_other _ _ (Ne.symm h) | rfl

/-- Fields stored leave every field with another key. -/
theorem storeFields_other (s : State) (w off v : Nat) (l : List FieldAt) (f : Fld) (h : ∀ x ∈ l, x.fd.key ≠ f.key) :
    (s.storeFields w off v l).rd f = s.rd f := by
  induction l generalizing s with
  | nil => rfl
  | cons x l ih =>
    simp only [State.storeFields]
    rw [ih _ (fun y hy => h y (List.mem_cons_of_mem _ hy)), storeField_other _ _ _ _ _ _ (h x (List.mem_cons_self))]

/-- A field of distinct ones stored is stored from what it held. -/
theorem storeFields_mem (s : State) (w off v : Nat) (l : List FieldAt) (hl : l.Pairwise (fun x y => x.fd.key ≠ y.fd.key))
    (x : FieldAt) (hx : x ∈ l) :
    ∃ t : State, t.rd x.fd = s.rd x.fd ∧ (s.storeFields w off v l).rd x.fd = (t.storeField w off v x).rd x.fd := by
  induction l generalizing s with
  | nil => simp at hx
  | cons y l ih =>
    rw [List.pairwise_cons] at hl
    simp only [State.storeFields]
    rcases List.mem_cons.mp hx with rfl | hm
    · exact ⟨s, rfl, storeFields_other _ _ _ _ _ _ fun z hz => Ne.symm (hl.1 z hz)⟩
    · obtain ⟨t, h1, h2⟩ := ih (s.storeField w off v y) hl.2 hm
      exact ⟨t, h1.trans (storeField_other _ _ _ _ _ _ (hl.1 x hm)), h2⟩

/-- A read's clearing leaves every field with another key. -/
theorem clearRc_other (s : State) (l : List FieldAt) (f : Fld) (h : ∀ x ∈ l, x.fd.key ≠ f.key) :
    (s.clearRc l).rd f = s.rd f := by
  induction l generalizing s with
  | nil => rfl
  | cons x l ih =>
    simp only [State.clearRc]
    rw [ih _ (fun y hy => h y (List.mem_cons_of_mem _ hy))]
    split
    · exact wr_rd_other _ _ (Ne.symm (h x (List.mem_cons_self)))
    · rfl

set_option maxRecDepth 20000 in
/-- The fields of STG.CTL (Table 11.6). -/
theorem registerAt_stgCtl : registerAt 6 0 =
    [⟨Fd.STG_CTL_EN, 32, .rw, .any, true⟩, ⟨Fd.STG_CTL_MODE, 32, .rw, .special, false⟩, ⟨Fd.STG_CTL_STATE, 32, .ro, .any, false⟩] := by rfl

set_option maxRecDepth 20000 in
/-- The field of CHN.WINH (Table 05.10). -/
theorem registerAt_winh (n : Fin 4) : registerAt (20 + n.val) 0x208 = [⟨Fd.CHN_WINH_OT_LIM n.val, 32, .rw, .special, false⟩] := by
  fin_cases n <;> rfl

end Sys2Proof.Machine
end

