-- ==== Sys2Proof/Laws/Slots.lean ====
section
/-! SUPPORT. What the engine's shared operations do where one slot runs alone. -/

namespace Sys2Proof.Machine

set_option Elab.async false

variable {s : State} {n k : Fin 4}

/-- A program slot after a change of one. -/
@[simp] theorem updSlot_pslot (s : State) (n k m j : Fin 4) (g : Slot → Slot) :
    (s.updSlot n k g).pslot m j = if m = n ∧ j = k then g (s.pslot n k) else s.pslot m j := by
  by_cases h : m = n
  · subst h
    by_cases e : j = k <;> simp [State.updSlot, State.pslot, e]
  · simp [State.updSlot, State.pslot, h]

/-- Two changes of one slot are one. -/
theorem updSlot_updSlot (s : State) (n k : Fin 4) (f g : Slot → Slot) :
    (s.updSlot n k f).updSlot n k g = s.updSlot n k fun x => g (f x) := by
  simp [State.updSlot, State.updEng, Four.upd]

/-- Where no kill waits, the engine does not quiesce and no slot is inside an instruction, nothing follows a change. -/
theorem dispatch_calm (hq : (s.eng n).quiesce = false) (hs : ∀ j, (s.pslot n j).op = none ∧ (s.pslot n j).killReq = false) :
    s.dispatch n = s := by
  have hk : s.killStopped n four = s := by
    simp [State.killStopped, four, (hs _).2]
  have hp : s.pass n = s := by
    unfold State.pass
    split
    · rfl
    · simp [(hs _).1]
  unfold State.dispatch
  rw [hk, State.quiesced, hq]
  simpa using hp

/-- An engine that takes up slots does not quiesce. -/
theorem engRuns_quiesce (h : s.engRuns n = true) : (s.eng n).quiesce = false := by
  simp only [State.engRuns, Bool.and_eq_true, Bool.not_eq_true'] at h
  exact h.1.2

/-- The instruction of the slot that runs alone acts. -/
theorem instr_sole (h : s.sole n k) (f : Slot → State) : s.instr n k f = .next (f (s.pslot n k)) := by
  have h1 : ¬ (s.pslot n k).arch.pc < 0x14000 := by have := h.2.1; omega
  simp [State.instr, h.1.1, (h.2.2 k).1, h1]

/-- What follows a change of the slot that runs alone is nothing, where the change leaves it outside an instruction and no kill waiting. -/
theorem dispatch_updSlot (h : s.sole n k) {g : Slot → Slot} (ho : (g (s.pslot n k)).op = none) (hk : (g (s.pslot n k)).killReq = false) :
    (s.updSlot n k g).dispatch n = s.updSlot n k g := by
  refine dispatch_calm ?_ fun j => ?_
  · simpa [State.updSlot] using engRuns_quiesce h.1.2
  · by_cases e : j = k
    · subst e; simp [ho, hk]
    · simpa [e] using h.2.2 j

/-- Only what a change makes of the slot as it is counts. -/
theorem updSlot_congr {g g' : Slot → Slot} (h : g (s.pslot n k) = g' (s.pslot n k)) : s.updSlot n k g = s.updSlot n k g' := by
  simp only [State.updSlot, State.updEng, Four.upd]
  rw [show g ((s.reach.get n).slots.get k) = g' ((s.reach.get n).slots.get k) from h]

/-- An instruction of the slot that runs alone ends: the slot's new state, PC at the next instruction, and all else as it was. -/
theorem complete_sole (h : s.sole n k) (g : Arch → Arch) : s.complete n k g = s.slotAt n k (g (s.pslot n k).arch).onward := by
  unfold State.complete
  rw [dispatch_updSlot h rfl (h.2.2 k).2]
  apply updSlot_congr
  simp only [(h.2.2 k).1.symm]
  rfl

/-- A jump of the slot that runs alone. -/
theorem jump_sole (h : s.sole n k) (p : Nat) (g : Arch → Arch) :
    s.jump n k p g = s.slotAt n k { g (s.pslot n k).arch with pc := p } := by
  unfold State.jump
  rw [dispatch_updSlot h rfl (h.2.2 k).2]
  apply updSlot_congr
  simp only [(h.2.2 k).1.symm]

/-- A program slot after a register write. -/
@[simp] theorem wr_pslot (s : State) (f : Fld) (v : Nat) (m j : Fin 4) : (s.wr f v).pslot m j = s.pslot m j := rfl

/-- A trap of the slot that runs alone. -/
theorem trapSlot_sole (h : s.sole n k) (c : Nat) :
    s.trapSlot n k c = (s.updSlot n k fun x => { x with st := .trapped, trap := c, stopReq := false }).setB (Fd.RCH_INT_TRAP n) k.val := by
  unfold State.trapSlot
  rw [dispatch_calm]
  · congr 1
    apply updSlot_congr
    simp only [(h.2.2 k).1.symm]
  · simpa [State.setB, State.updSlot] using engRuns_quiesce h.1.2
  · intro j
    by_cases e : j = k
    · subst e; simpa [State.setB] using (h.2.2 j).2
    · simpa [State.setB, e] using h.2.2 j

/-- The slot that runs alone enters an instruction that lasts and yields. -/
theorem enter_yield (h : s.sole n k) (o : Op) : s.enter n k o .yielding = s.updSlot n k fun x => { x with op := some o, st := .yielding } := by
  have hq : ((s.updSlot n k fun x => { x with op := some o, st := .yielding }).eng n).quiesce = false := by
    simpa [State.updSlot] using engRuns_quiesce h.1.2
  simp only [State.enter, reduceCtorEq, if_false]
  generalize hu : (s.updSlot n k fun x => { x with op := some o, st := SlotSt.yielding }) = u at hq
  have hs : ∀ j, u.pslot n j = if j = k then { s.pslot n k with op := some o, st := .yielding } else s.pslot n j := by
    intro j; subst hu; by_cases e : j = k <;> simp [e]
  have hk : u.killStopped n four = u := by
    have : ∀ j, (u.pslot n j).killReq = false := by
      intro j; rw [hs]; split <;> [exact (h.2.2 k).2; exact (h.2.2 j).2]
    simp [State.killStopped, four, this]
  have hp : u.pass n = u := by
    unfold State.pass
    split
    · rfl
    · next m e =>
      have : ¬ ((u.pslot n m).st = .ready ∧ (u.pslot n m).op.isSome = true) := by
        rw [hs]; split
        · simp
        · simp [(h.2.2 m).1]
      simp only [this, if_false]
  unfold State.dispatch
  rw [hk, State.quiesced, hq]
  simpa using hp

/-- The slot that runs alone enters an instruction that keeps the engine. -/
theorem enter_running (o : Op) : s.enter n k o .running = s.updSlot n k fun x => { x with op := some o, st := .running } := by
  simp [State.enter]

end Sys2Proof.Machine
end

