-- ==== Sys2Proof/Laws/Step.lean ====
section
/-! SUPPORT. What the tick of an idle block keeps, and what a step does. -/

namespace Sys2Proof.Machine

set_option Elab.async false

/-- A tick keeps. -/
theorem keeps_tick {P : Part → Prop} {r s : State} (hP : ∀ p, P p) (h : Keeps P r s) : Keeps P r s.tick := by
  unfold State.tick
  refine keeps_settleShutdown (hP _) (hP _) (hP _) (hP _) (hP _) (keeps_settleShutdown (hP _) (hP _) (hP _) (hP _) (hP _) ?_)
  exact Keeps.mkAll (k_time := .inl (hP _)) (k_host := .inl (hP _)) h le_rfl id id id id fun _ => Nat.mod_lt _ (by decide)

/-- A step with a command at the front of the queue. -/
theorem step_cons {s : State} {c : Instr} {l : List Instr} (h : s.pending = c :: l) : step s = exec c { s with pending := l } := by
  simp only [step, h]

/-- A step with nothing waiting. -/
theorem step_nil {s : State} (h : s.pending = []) : step s = .next s.tick := by
  simp only [step, h]

end Sys2Proof.Machine
end

