-- ==== Sys2Proof/Tests/Slice0.lean ====
section
/-! SUPPORT. Tests: a state and operands that meet the hypotheses of each statement, the checks of `Instr.wf`, and single steps whose results are
taken from the spec by hand. -/

namespace Sys2Proof.Tests
open Sys2Proof.Machine

set_option Elab.async false

/-! ### Small states -/

/-- The machine after reset with some fields written. -/
def base (l : List (Fld × Nat)) : State := State.reset.wrs l

/-- A unit in service. -/
def serve (u : UnitRef) : Fld × Nat := (Fd.SLOT_STATE_STATE u.win u.slot, 2)

/-- Engine 0 in service, with slot 0 running at the first word of the program area. -/
def alone : State :=
  (base [(Fd.RCH_CTL_EN 0, 1), serve (.reach 0)]).updSlot 0 0 fun x => { x with st := .running, arch := { x.arch with pc := 0x14000 } }

/-- `alone` with register `i` of its slot set. -/
def aloneW (i : Fin 16) (v : BitVec 64) : State := alone.updArch 0 0 fun a => a.setReg i v

/-- A context of a host command. -/
def ctx (op : BitVec 32) : Ctx :=
  { Ctx.fresh ([op] ++ [1] ++ List.replicate 14 0) 1 0 .high 0 0 none with st := .admitted }

/-- A state with context 1 a given one. -/
def withCtx (s : State) (x : Ctx) : State := { s with host := { s.host with ctxs := [(1, x)] } }
/-! ### The hypotheses of the statements are met -/

theorem wit_sole : alone.sole 0 0 := by unfold State.sole; decide +kernel
theorem wit_soleW : (aloneW 1 0x14004).sole 0 0 := by unfold State.sole; decide +kernel

theorem wit_MovesComplete : alone.movSrc 0 (alone.pslot 0 0).arch 18 = some 0 ∧
    ((alone.pslot 0 0).arch.movDst 16 0).isSome = true ∧ ((alone.pslot 0 0).arch.op11 (.imm 0x600)).toInt = -512 ∧
    ((alone.pslot 0 0).arch.op11 (.imm 0x200)).toInt = 512 := by decide +kernel

theorem wit_FlowCompletes : alone.cond 0 (alone.pslot 0 0).arch 1 = false ∧ alone.cond 0 (alone.pslot 0 0).arch 0 = true ∧
    target (alone.pslot 0 0).arch.pc 0 = 0x14000 ∧ bits ((aloneW 1 0x14004).pslot 0 0).arch.pc 0 21 = 0x14000 ∧
    bits (((aloneW 1 0x14004).pslot 0 0).arch.reg 1).toNat 0 21 = 0x14004 ∧ (alone.pslot 0 0).arch.stack = [] := by decide +kernel

theorem wit_FlowCompletes_ret : ((alone.updArch 0 0 fun a => { a with stack := [0x14010] }).pslot 0 0).arch.stack = [0x14010] ∧
    (alone.updArch 0 0 fun a => { a with stack := [0x14010] }).sole 0 0 := by unfold State.sole; decide +kernel

theorem wit_SlotTraps : legalWord 0xFFFFFFFF = false ∧ alone.movSrc 0 (alone.pslot 0 0).arch 21 = none ∧
    target (alone.pslot 0 0).arch.pc (-1) = 0x13FFC ∧
    8 ≤ ((alone.updArch 0 0 fun a => { a with stack := List.replicate 8 0x14000 }).pslot 0 0).arch.stack.length ∧
    (alone.updArch 0 0 fun a => { a with stack := List.replicate 8 0x14000 }).sole 0 0 := by unfold State.sole; decide +kernel

theorem wit_LoadsAndStoresComplete : mayLoad ((alone.pslot 0 0).arch.addr 1 0) = true ∧ (alone.load 0x3F (wmem 0 + 0) 8).2 = some (List.replicate 8 0) ∧
    mayLoad 0x11FF8 = true ∧ mayStore ((alone.pslot 0 0).arch.addr 1 0x14000) = true ∧ mayStore 0x1FFFF8 = true ∧
    (alone.sluProgram 0 0 24 0).2 = 0 := by decide +kernel

/-- The chain entry of one block of context 1, and a context bound to engine 0. -/
theorem wit_Buf : (ChainEntry.ofWord (0x10000000001 : BitVec 64).toNat).count ≠ 0 ∧
    (withCtx (aloneW 1 0x10000000001) { ctx 2 with st := .bound, bound := some 0 }).boundTo 0 1 = true ∧
    (withCtx (aloneW 1 0x10000000001) { ctx 2 with st := .bound, bound := some 0 }).sole 0 0 := by unfold State.sole; decide +kernel

/-- A state with an assist profile at the first address of the program area. -/
def profiled : State := ((aloneW 1 0x14000).wrs [(Fd.CHN_WCFG_AKIND 0 0, 1)]).stored (wmem 0 + 0x14000)
  (leBytes 2 1 ++ leBytes 2 0 ++ leBytes 2 200 ++ List.replicate 16 0 ++ leBytes 2 1 ++ List.replicate 8 0)

theorem wit_Asp : ((profiled.load 0x3F (wmem 0 + 0x14000) 32).2.map List.length) = some 32 ∧
    profileOk (profiled.rd (Fd.CHN_WCFG_AKIND 0 (profiled.selHead 0)))
      (fun i => leValue (((((profiled.load 0x3F (wmem 0 + 0x14000) 32).2).getD []).drop (2 * i)).take 2)) = true := by decide +kernel
theorem wit_Asp_sole : profiled.sole 0 0 := by unfold State.sole; decide +kernel

theorem wit_WaitsComplete : alone.cond 0 (alone.pslot 0 0).arch 2 = true ∧ alone.testsOnce 0 (alone.pslot 0 0).arch 0 1 = false ∧
    alone.joinMet 0 0 = true ∧ alone.joinMet 0 1 = false ∧ alone.settled 0 0 = true ∧ (alone.pslot 0 0).sluChans = [] ∧
    (alone.pslot 0 0).xfers = 0 ∧ alone.armSettled 0 0 = true ∧ alone.engWrites 0 = [] := by decide +kernel

/-- A slot inside an instruction. -/
def inside (o : Op) (st : SlotSt) : State := alone.updSlot 0 0 fun x => { x with op := some o, st := st }

/-- A timeout of 5 index fields, all of which have passed. -/
def passed : Timeout := ⟨2, 5, 5, 0⟩

theorem wit_WaitsEnd : ((inside (.wait 2 passed) .yielding).pslot 0 0).st = .yielding ∧
    ((inside (.wait 2 passed) .yielding).pslot 0 0).op = some (.wait 2 passed) ∧
    (inside (.wait 2 passed) .yielding).cond 0 ((inside (.wait 2 passed) .yielding).pslot 0 0).arch 2 = true ∧
    (inside (.wait 2 passed) .yielding).timedOut 0 ((inside (.wait 2 passed) .yielding).pslot 0 0).arch passed = true ∧
    ((inside (.join 1 passed) .yielding).pslot 0 0).op = some (.join 1 passed) ∧
    (inside (.join 1 passed) .yielding).timedOut 0 ((inside (.join 1 passed) .yielding).pslot 0 0).arch passed = true ∧
    (inside (.settle 2) .running).ownerOp 0 = some (0, .settle 2) ∧ (inside .seek .running).ownerOp 0 = some (0, .seek) ∧
    alone.timeout 2 5 = { passed with done := 0 } := by decide +kernel

/-- Slot 1 inside RDS with slot 0 ready. -/
def displaced : State := (alone.updSlot 0 1 fun x => { x with st := .running, op := some (.media (Media.fresh .rds 0 1 false)) }).updSlot 0 0 fun x => { x with st := .ready }

theorem wit_SlotDisplaced : displaced.runner 0 = some 1 ∧ displaced.atPoint 0 1 = true ∧ (displaced.pslot 0 0).st = .ready ∧
    (displaced.pslot 0 0).intr = false := by decide +kernel

/-- A region descriptor: 4 shingled bands of 16 tracks, 28 slots to a track; its CRC last (R63). -/
def descriptor : List Nat :=
  leBytes 4 0 ++ leBytes 4 0 ++ leBytes 4 4 ++ leBytes 4 0x10000 ++ leBytes 4 28 ++ leBytes 4 0 ++ leBytes 4 0 ++ leBytes 4 743248761

/-- `alone` with a valid table for head 0, the actuator following, the assist kind set, W1 at 0x1FFFE0, TP at track 31 and CN at 1. -/
def mapped : State :=
  (((aloneW 1 0x1FFFE0).wrs [(Fd.RCH_REGION_VALID 0, 1), (Fd.SRV_CTL_FITTED 0, 1), (Fd.SRV_STATUS_MODE 0, 2), (Fd.SRV_STATUS_ONT 0, 1),
    (Fd.CHN_CTL_STORE_EN 0, 1), (Fd.CHN_WCFG_AKIND 0 0, 1), (Fd.CHN_CTL_EN 0, 1), (Fd.CHN_STATUS_BLK 0, 1)]).stored (tableAddr 0 0) descriptor).updArch
      0 0 fun a => { a with tp := BitVec.ofNat 64 (mkTp 0 31 0), cn := 1 }

theorem wit_table : tableFault [descriptor] = none ∧ tableFault [descriptor.set 8 5] = some (0, 0) := by decide +kernel
theorem wit_mapped_sole : mapped.sole 0 0 := by unfold State.sole; decide +kernel
theorem wit_mapped : mapped.cal.claim ≠ some 0 ∧ mapped.movable 0 = true ∧ (mapped.place 0 (mkTp 0 31 0)).isSome = true := by decide +kernel
theorem wit_MotionBegins : (tpTrack (mapped.pslot 0 0).arch.tp.toNat + (32 : BitVec 8).toInt : Int) = 63 ∧
    (mapped.pslot 0 0).arch.tp.toNat < 2 ^ 38 ∧ (mapped.place 0 (mkTp 0 63 0)).isSome = true ∧ (mapped.nameSet 0 0).ontUnder 0 0 = true ∧
    (mapped.nameSet 0 1).ontUnder 0 1 = false := by decide +kernel
theorem wit_MotionBegins_head : ((mapped.updArch 0 0 fun y => { y with tp := BitVec.ofNat 64 (mkTp 0 31 0) }).place 0 (mkTp 0 31 0)).isSome = true ∧
    (mapped.place 0 (mkTp 0 31 27)).isSome = true := by decide +kernel
theorem wit_MediaInstructionsBegin : (mapped.record 0 0).mediaCheck 0 0 = none ∧ (mapped.record 0 0).on (Fd.CHN_CTL_STORE_EN 0) = true ∧
    (mapped.record 0 0).wrsCheck 0 0 = none ∧ mapped.mediaCheck 0 0 = none := by decide +kernel
theorem wit_Scan : ((mapped.pslot 0 0).arch.reg 1).toNat % 32 = 0 ∧ 0x14000 ≤ ((mapped.pslot 0 0).arch.reg 1).toNat ∧
    ((mapped.pslot 0 0).arch.reg 1).toNat + 32 * (mapped.pslot 0 0).arch.cn.toNat = 0x200000 ∧ ((mapped.pslot 0 0).arch.reg 2).toNat % 64 = 0 := by decide +kernel

/-- Slot 0 of engine 0 in a state of Table 03.20. -/
def slotIn (st : SlotSt) : State := alone.updSlot 0 0 fun x => { x with st := st }

theorem wit_SlotCommandsAct : ((slotIn .faulted).pslot 0 0).st = .faulted ∧ ((slotIn .stopped).pslot 0 0).st = .stopped ∧
    ((slotIn .trapped).pslot 0 0).trap ≤ 0xFEFF ∧ (alone.pslot 0 0).op = none ∧ (alone.pslot 0 0).active = true ∧ (alone.pslot 0 0).st ≠ .idle ∧
    (alone.pslot 0 0).arch.chain.length < 16 ∧ (0x7FFFFFFFFFFFFFFF : BitVec 64).getLsbD 63 = false ∧
    ((alone.updSlot 0 0 fun x => { x with intr := true }).pslot 0 0).intr = true := by decide +kernel

/-- A media instruction of WRS or RDS at work with one slot to go, on its target. -/
def media (kind : MediaKind) : Media := { Media.fresh kind (mkTp 0 31 0) 1 false with positioned := true }

/-- `mapped` with its slot inside an instruction, on the target of its aim. -/
def atWork (o : Op) : State :=
  (mapped.updSlot 0 0 fun x => { x with op := some o }).updSv 0 fun v => { v with target := some ⟨mkTp 0 31 0, false, 0⟩ }

/-- A sector begun by slot 0 of engine 0. -/
def begunOf (kind : MediaKind) (phase : ReadPhase) : Begun :=
  ⟨0, mkTp 0 31 0, kind, false, none, ⟨0, 0, 0, 0, 0, true, false, true, true, 1⟩, true, phase, 0, false, false, 0, 0, 0, [], 0, 0, false, false, none⟩

/-- `atWork` with one sector begun. -/
def withBegun (kind : MediaKind) (phase : ReadPhase) : State :=
  (atWork (.media (media kind))).updEng 0 fun r => { r with begun := [begunOf kind phase] }

theorem wit_EngineEventsAct : (atWork .skipto).runner 0 = some 0 ∧ ((atWork .skipto).pslot 0 0).op = some .skipto ∧
    (atWork .skipto).movable 0 = true ∧ (((atWork .skipto).pslot 0 0).aim.any fun p => (atWork .skipto).follows 0 p.1 p.2) = true ∧
    (alone.descs 0 0).length = 0 ∧ alone.unit (.reach 0) = 2 := by decide +kernel
theorem wit_SectorStart : (atWork (.media (media .rds))).runner 0 = some 0 ∧ ((atWork (.media (media .rds))).pslot 0 0).stopReq = false ∧
    (((atWork (.media (media .rds))).pslot 0 0).aim.any fun p => (atWork (.media (media .rds))).follows 0 p.1 p.2) = true ∧
    ((atWork (.media (media .rds))).place 0 (media .rds).nextTp).isSome = true ∧ (media .rds).left = 1 ∧ (media .rds).ending = none ∧
    (atWork (.media (media .rds))).mustYield 0 0 = false ∧ (atWork (.media (media .rds))).trackOpen 0 0 (media .rds) = false := by decide +kernel
theorem wit_ReadBehind : ((withBegun .wrs (.good false)).eng 0).begun.find? (fun b => !b.isRead) = some (begunOf .wrs (.good false)) ∧
    (begunOf .wrs (.good false)).written = true := by decide +kernel
/-- A patch RAM word at 0x1800 of engine 0: with fields as Table 08.1 lays them. -/
def patched (w : Nat) (l : List (Fld × Nat)) : State := (alone.updEng 0 fun r => { r with patch := [parityWord w] }).wrs l

/-- A wait microword of the condition bit that is always 1 against POL, its LIM 31; and one that waits for AL. -/
def waits : Nat := 2 ^ 23 * 3 + 2 ^ 16 * 3 + 2 ^ 15 + 2 ^ 10 * 31

/-- `alone` in whose microroutine a wait word has held for 30 µs against an element timeout of 10. -/
def longHold : State :=
  { ((patched waits [(Fd.SLOT_LIMIT_ELEM_US (UnitRef.reach 0).win (UnitRef.reach 0).slot, 10)]).updMicro 0 0 fun m =>
    { m with next := some 0x1800, pc := 0x14000, since := some 0 }) with time := 30 }

theorem wit_machineCheck : (patched waits []).unit (.reach 0) = 2 ∧ ((patched waits []).wakeHolds 0 four).overlay 0 0x1800 = 0x1800 ∧
    ((patched waits []).wakeHolds 0 four).readsAt 0 0x1800 = true ∧
    lowBad (((patched waits []).wakeHolds 0 four).ucodeWord 0 0x1800 ^^^ 1) = true ∧
    lowBad (parityWord (2 ^ 25 * 0x1F)) = false ∧ highBad (parityWord (2 ^ 25 * 0x1F)) = false ∧ illegalAt 0x1800 (parityWord (2 ^ 25 * 0x1F)) = true ∧
    illegalAt 0x1800 (parityWord waits) = false ∧ (longHold.wakeHolds 0 four).readsAt 0 0x1800 = true ∧
    (longHold.wakeHolds 0 four).microExpires 0 0x1800 (parityWord waits) false = true := by decide +kernel

/-- A TRP word, a jump word that adds W1 to W2, one that moves W1 to W2, and a word that asks the positioning unit. -/
theorem wit_MicrowordsAct :
    (∀ w ∈ [waits, 2 ^ 25 * 0x14 + 5, 2 ^ 25 * 3 + 2 ^ 23 + 2 ^ 18 * 2 + 2 ^ 13 + 0x1801, 2 ^ 25 + 2 ^ 23 + 2 ^ 18 * 2 + 2 ^ 13 + 0x1801, 2 ^ 25 * 0x18],
      ((patched w []).wakeHolds 0 four).wordCheck 0 0x1800 (parityWord w) true = none ∧
      ((patched w []).wakeHolds 0 four).wordCheck 0 0x1800 (parityWord w) false = none ∧
      ((patched w []).wakeHolds 0 four).runner 0 = some 0 ∧ ((patched w []).wakeHolds 0 four).ucodeWord 0 0x1800 = parityWord w) ∧
    mNx (parityWord waits) = 3 ∧ mOp (parityWord (2 ^ 25 * 0x14 + 5)) = 0x14 ∧ mAsks (parityWord (2 ^ 25 * 0x18)) = true ∧
    mNx (parityWord (2 ^ 25 * 3 + 2 ^ 23 + 2 ^ 18 * 2 + 2 ^ 13 + 0x1801)) = 1 ∧
    mOp (parityWord (2 ^ 25 * 3 + 2 ^ 23 + 2 ^ 18 * 2 + 2 ^ 13 + 0x1801)) = 3 ∧
    mOp (parityWord (2 ^ 25 + 2 ^ 23 + 2 ^ 18 * 2 + 2 ^ 13 + 0x1801)) = 1 := by decide +kernel

/-- Match entries 1 and 2 cover ROM address 0x20, one alone and one with its block of 16. -/
def overlaid : State :=
  alone.wrs [(Fd.RCH_MATCH_ENTRY 0 1, 2 ^ 31 + 2 ^ 16 * 0x40 + 0x20), (Fd.RCH_MATCH_ENTRY 0 2, 2 ^ 31 + 2 ^ 16 * 0x80 + 2 ^ 13 + 0x20)]

theorem wit_ControlStoreWords : matchAt (overlaid.rd (Fd.RCH_MATCH_ENTRY 0 1)) 0x20 = some 0x1840 ∧
    matchAt (overlaid.rd (Fd.RCH_MATCH_ENTRY 0 0)) 0x20 = none ∧ matchAt (overlaid.rd (Fd.RCH_MATCH_ENTRY 0 2)) 0x2F = some 0x188F ∧
    bit (2 ^ 31 + 2 ^ 13) 31 = true ∧ bit (2 ^ 31 + 2 ^ 13) 13 = true ∧ bit 0 31 = false ∧
    (∀ i : Fin 64, matchAt (overlaid.rd (Fd.RCH_MATCH_ENTRY 0 i.val)) 0x30 = none) := by decide +kernel

theorem wit_regionLoad : tableFault (mapped.descs 0 0) = none ∧ (tableFault (alone.descs 0 0)).isSome = true := by decide +kernel

/-! The channel and the read path. -/

/-- `mapped` with fields written. -/
def mappedW (l : List (Fld × Nat)) : State := mapped.wrs l

theorem wit_ChannelEventsAct : (mapped.ch 0).resync = false ∧ (mapped.ch 0).missed < 2 ∧
    2 ≤ ((mapped.updCh 0 fun c => { c with missed := 2 }).ch 0).missed ∧
    ((mapped.updSv 0 fun v => { v with phase := .confirm }).sv 0).phase = .confirm ∧ mapped.blk 0 = true ∧ (mapped.sv 0).phase ≠ .confirm ∧
    mapped.mode 0 = 2 ∧ (bankOfWord 0xD 0 (crc4 0 0 20)).isSome = true ∧ mapped.writing 0 = false ∧
    (mapped.bankRegionNow 0).isSome = true ∧ mapped.truncated 0 0 = false ∧ mapped.truncated 0 170 = true ∧ mapped.truncated 0 169 = false := by decide +kernel
theorem wit_sliceWindow : mapped.rd (Fd.CHN_SLMON_OFS_LIM 0) < 1000 ∧
    ((mapped.updCh 0 fun c => { c with sliceHits := [(true, 8)] }).ch 0).sliceHits.contains (true, 8) = true ∧
    mapped.on (spareOn true 0) = false ∧ mapped.calBusy = false := by decide +kernel

/-- `mapped` before the bank clock locks, its tone 0xC0000 cycles, at a speed. -/
def unlocked (rpm10 : Nat) : State :=
  (mappedW [(Fd.CHN_STATUS_BLK 0, 0), (Fd.SPN_SPEED_RPM10, rpm10)]).stored (tableAddr 0 0) (descriptor.set 14 0xC)

theorem wit_blkLock : (unlocked 90000).blk 0 = false ∧ (unlocked 90000).on (Fd.CHN_CTL_EN 0) = true ∧
    (unlocked 90000).headOk 0 ((unlocked 90000).selHead 0) = true ∧ ((unlocked 90000).bankRegionNow 0).isSome = true ∧
    1600 ≤ (unlocked 90000).channelRate 0 ∧ (unlocked 90000).channelRate 0 ≤ 7200 ∧ (unlocked 90000).selecting 0 = false ∧
    (((unlocked 90000).wr (Fd.CHN_STATUS_BLK 0) 1).wr (Fd.CHN_RATE_MBPS 0) ((unlocked 90000).channelRate 0)).ownerOp 0 = none := by decide +kernel

theorem wit_taDetect : (mappedW [(Fd.CHN_CTL_TAEN 0, 1)]).on (Fd.CHN_CTL_TAEN 0) = true ∧ (mappedW [(Fd.CHN_CTL_TAEN 0, 0)]).on (Fd.CHN_CTL_TAEN 0) = false ∧
    ((mappedW [(Fd.CHN_CTL_TAEN 0, 1)]).eng 0).begun.reverse.find?
        (fun b => b.isRead && b.phase == ReadPhase.inline && b.attempts == 0) = none ∧
    (((withBegun .rds .inline).wr (Fd.CHN_CTL_TAEN 0) 1).eng 0).begun.reverse.find?
        (fun b => b.isRead && b.phase == ReadPhase.inline && b.attempts == 0) = some (begunOf .rds .inline) ∧
    ((((withBegun .rds .inline).wr (Fd.CHN_CTL_TAEN 0) 1).addSpans 0 (begunOf .rds .inline) []).pslot 0 0).media? = some (media .rds) := by decide +kernel

/-- `withBegun` once an attempt has ended on its sector. -/
def tried : State := (withBegun .rds .inline).updEng 0 fun r => { r with begun := [{ begunOf .rds .inline with attempts := 1 }] }

theorem wit_inline : (withBegun .rds .inline).oldest 0 (fun b => b.phase == ReadPhase.inline) = some (begunOf .rds .inline, media .rds) ∧
    (begunOf .rds .inline).attempts = 0 ∧
    tried.oldest 0 (fun b => b.phase == ReadPhase.inline) = some ({ begunOf .rds .inline with attempts := 1 }, media .rds) ∧
    (withBegun .rds .inline).oldest 0 (fun b => b.phase == ReadPhase.inline && b.attempts == 0) = some (begunOf .rds .inline, media .rds) ∧
    ((withBegun .rds .inline).pslot 0 0).media? = some (media .rds) ∧ (withBegun .rds .averaging).averaged 0 = some (begunOf .rds .averaging) := by
  decide +kernel

/-- The scores of a mark found at the nominal position with the full score, and the state once that pass is framed; manual gain. -/
def marked : List Nat := (List.replicate 25 0).set 12 48
def manual : State := (withBegun .rds .inline).wr (Fd.CHN_AFE_AGC 0) 0
def framedAt : State :=
  let s1 := manual.sampled 0 (begunOf .rds .inline) none
  s1.frameSector 0 (begunOf .rds .inline) (s1.framing 0 marked).found (s1.framing 0 marked).dev

theorem wit_decodeAttempt : manual.pairOn 0 0 = some (begunOf .rds .inline) ∧ (manual.pslot 0 0).media? = some (media .rds) ∧
    covered (-64) ((manual.sampled 0 (begunOf .rds .inline) none).again 0 (begunOf .rds .inline)).spans ≤ 2048 ∧
    (framedAt.again 0 (begunOf .rds .inline)).attempts = 0 ∧ (manual.framing 0 marked).found = true ∧
    ((attempts true (framedAt.on (Fd.CHN_CTL_ALT 0)) (framedAt.on (Fd.CHN_CTL_FLY 0)) (manual.framing 0 marked).p (manual.framing 0 marked).q)[0]?.any
      fun a => !a.fly) = true ∧
    framedAt.passes 0 (media .rds) (framedAt.attempt 0 (media .rds) (framedAt.again 0 (begunOf .rds .inline)) 0 10 20 ⟨true, true, 0⟩).2 ⟨true, true, 0⟩ =
      true := by decide +kernel
theorem wit_blkNotRegained : ((atWork .seek).wr (Fd.CHN_STATUS_BLK 0) 0).blk 0 = false ∧
    ((atWork .seek).wr (Fd.CHN_STATUS_BLK 0) 0).runner 0 = some 0 ∧ (((atWork .seek).wr (Fd.CHN_STATUS_BLK 0) 0).pslot 0 0).op = some .seek := by decide +kernel

/-- A sector with an entry of the sample store, and one that waits for the deep decoder. -/
def storeAt (p : ReadPhase) : State := (withBegun .rds p).updCh 0 fun c => { c with store := [⟨63, 0, mkTp 0 31 0, 1, 0, 0, false⟩] }
def deepAt (busy : Nat) : State :=
  { (storeAt .deep).wrs [(Fd.DEEP_DCTL_EN, 1), (Fd.DEEP_DSTATUS_BUSY, busy)] with deep := [⟨0, 0, mkTp 0 31 0⟩] }

theorem wit_deep : (deepAt 0).on Fd.DEEP_DCTL_EN = true ∧ (deepAt 0).on Fd.DEEP_DSTATUS_BUSY = false ∧ (deepAt 0).takesWork .deep = true ∧
    (deepAt 1).on Fd.DEEP_DSTATUS_BUSY = true ∧ (deepAt 1).oldest 0 (fun b => b.slot == 0 && b.tp == mkTp 0 31 0) = some (begunOf .rds .deep, media .rds) ∧
    ((deepAt 1).ch 0).store.find? (fun e => e.slot == 0 && e.tp == mkTp 0 31 0) = some ⟨63, 0, mkTp 0 31 0, 1, 0, 0, false⟩ ∧
    (deepAt 1).on (Fd.CHN_CTL_STORE_EN 0) = true ∧ (deepAt 1).passes 0 (media .rds) { begunOf .rds .deep with raw := none } ⟨true, true, 0⟩ = true := by
  decide +kernel

/-- The place of slot 0 of track 31. -/
def place31 : Place := ⟨Region.parse descriptor, 1, 15, 0⟩

/-- A media instruction that has seen all of its sector's group, that sector alone failed. -/
def tprMedia : Media := { media .rds with tpr := true, seen := (place31.groupTps 0).map fun t => (t, t != mkTp 0 31 0) }

/-- A sector that waits for reconstruction in a closed group. -/
def parityAt : State :=
  let s := (withBegun .rds .parity).updSlot 0 0 fun x => { x with op := some (.media tprMedia) }
  let x : Sector := ⟨0, 0, 0, 0, 0, false, true, true, true, 1⟩
  { s with medium := s.medium.upd 0 fun _ => ⟨[(place31.tpAt 0 446, x), (place31.tpAt 0 447, x)], []⟩ }

theorem wit_trackParity : parityAt.oldest 0 (fun b => b.phase == ReadPhase.parity) = some (begunOf .rds .parity, tprMedia) ∧
    parityAt.place 0 (begunOf .rds .parity).tp = some place31 ∧ parityAt.groupClosed 0 (tpHead (begunOf .rds .parity).tp) place31 = true ∧
    ((place31.groupTps 0).all fun t => tprMedia.seen.any fun q => q.1 == t) = true ∧
    ((place31.groupTps 0).countP fun t => tprMedia.seen.any fun q => q.1 == t && !q.2) = 1 ∧
    (parityAt.reconstructed 0 tprMedia (begunOf .rds .parity) place31 true).1 = true ∧
    parityAt.passes 0 tprMedia { begunOf .rds .parity with sector := { (begunOf .rds .parity).sector with whole := true } } ⟨true, true, 0⟩ = true := by
  decide +kernel

theorem wit_averaging : (storeAt .averaging).averaged 0 = some (begunOf .rds .averaging) ∧
    ((storeAt .averaging).pslot 0 0).media? = some (media .rds) ∧
    ((storeAt .averaging).ch 0).store.find? (fun e => e.slot == 0 && e.tp == mkTp 0 31 0) = some ⟨63, 0, mkTp 0 31 0, 1, 0, 0, false⟩ ∧
    (storeAt .averaging).on (Fd.CHN_CTL_STORE_EN 0) = true ∧ ((storeAt .averaging).wr (Fd.CHN_CTL_STORE_EN 0) 0).on (Fd.CHN_CTL_STORE_EN 0) = false ∧
    (storeAt .averaging).passes 0 (media .rds) { begunOf .rds .averaging with raw := none } ⟨true, true, 3840⟩ = true := by decide +kernel
/-! The write path and the arm link. -/

/-- A write that may arm; the state after one failed arming. -/
def mayArmAt : State := ((atWork (.media (media .wrs))).wr (Fd.SRV_STATUS_SET 0) 1).updSv 0 fun v => { v with target := some ⟨mkTp 0 31 0, true, 0⟩ }
def failedOnce : State := mayArmAt.updCh 0 fun c => { c with wmodeFailed := true }

theorem wit_wmodeArm : mayArmAt.runner 0 = some 0 ∧ (mayArmAt.pslot 0 0).media? = some (media .wrs) ∧
    mayArmAt.mayArm 0 0 (media .wrs) = true ∧ (mayArmAt.ch 0).wmodeFailed = false ∧ failedOnce.runner 0 = some 0 ∧
    (failedOnce.pslot 0 0).media? = some (media .wrs) ∧ failedOnce.mayArm 0 0 (media .wrs) = true ∧ (failedOnce.ch 0).wmodeFailed = true := by
  decide +kernel
theorem wit_runEnd : (mappedW [(Fd.CHN_WSTAT_WRITING 0, 1)]).writing 0 = true ∧
    ((mapped.updCh 0 fun c => { c with assist := .tail }).ch 0).assist = .tail := by decide +kernel

/-- An assist loop at the end of a window of 64 weights just past the target's eighth. -/
def loopAt : State :=
  (mappedW [(Fd.CHN_WCTL_ALOOP_EN 0, 1), (Fd.CHN_ATGT_SW_TGT 0, 64), (Fd.CHN_ATGT_STEP 0, 1), (Fd.CHN_ABND_WR_MAX 0, 1),
    (Fd.CHN_ALOOP_LEVEL 0, 0)]).updCh 0 fun c => { c with loopOn := true, loopN := 64, loopSum := 64 * 73 }

theorem wit_aloop : (loopAt.ch 0).loopOn = true ∧ loopAt.on (Fd.CHN_WCTL_ALOOP_EN 0) = true ∧ (loopAt.ch 0).loopN = 64 ∧
    loopAt.rd (Fd.CHN_ATGT_SW_TGT 0) = 64 ∧ 64 + 64 / 8 < (loopAt.ch 0).loopSum / 64 ∧
    loopAt.rd (Fd.CHN_ALOOP_LEVEL 0) + loopAt.rd (Fd.CHN_ATGT_STEP 0) = 1 ∧ 1 ≠ loopAt.rd (Fd.CHN_ALOOP_LEVEL 0) ∧
    1 ≤ loopAt.rd (Fd.CHN_ABND_WR_MAX 0) := by decide +kernel

/-- A contact sensor two readings above its baseline. -/
def touching : State := (mappedW [(Fd.CHN_TDCTL_EN 0, 1)]).updCh 0 fun c => { c with ecsBase := some 1, ecsHits := 2, ecs := [0, 0, 0] }

theorem wit_touchdown : touching.on (Fd.CHN_TDCTL_EN 0) = true ∧ (touching.ch 0).ecsBase = some 1 ∧ (touching.ch 0).ecsHits = 2 ∧ (touching.ch 0).tx = none ∧
    1 * (4 + touching.rd (Fd.CHN_TDCTL_TDK 0)) < 4 * spread (((0xFFFF : BitVec 16).toNat :: (touching.ch 0).ecs).take 64) := by decide +kernel

/-- A channel with a TD frame sent, the servo's control having run, and a transaction on the link. -/
def linked (t : ArmTx) : State :=
  ((base [(Fd.ARM_CTL_EN 0, 1)]).updCh 0 fun c => { c with tdSent := some (tdFrame 1 5), tx := some t }).updSv 0 fun v => { v with modelRun := true }

/-- A read and a write of one word, and a read of FAULT, by firmware. -/
def readTx : ArmTx := ⟨.firmware, true, 0, 0, [], false⟩
def faultTx : ArmTx := ⟨.fault, true, 0xA, 0, [], false⟩
def writeTx : ArmTx := ⟨.firmware, false, 9, 0, [2], false⟩

theorem wit_ArmLinkActs : (linked readTx).on (Fd.ARM_CTL_EN 0) = true ∧ ((linked readTx).ch 0).tdSent = some (tdFrame 1 5) ∧
    tdValid (tdFrame 1 5 ^^^ (0 : BitVec 32).toNat) = true ∧ bits (tdFrame 1 5 ^^^ (0 : BitVec 32).toNat) 26 2 ≠ ((linked readTx).preamp.get 0).seq ∧
    ((linked readTx).sv 0).modelRun = true ∧ tdValid (tdFrame 1 5 ^^^ (1 : BitVec 32).toNat) = false := by decide +kernel
/-- A frame read whole, the same with its last bit turned, and FAULT read. -/
theorem wit_ArmLinkActs_rd : ((linked readTx).ch 0).tx = some readTx ∧ readTx.frame % 256 = crc8 (readTx.frame / 256) 0xFF 16 ∧
    bits readTx.frame 20 4 = 1 ∧ bits readTx.frame 17 3 = 0 ∧ bits readTx.frame 8 9 = 0 ∧ preampHas 0 0 = true ∧
    (readTx.frame ^^^ (1 : BitVec 24).toNat) % 256 ≠ crc8 ((readTx.frame ^^^ (1 : BitVec 24).toNat) / 256) 0xFF 16 ∧
    faultTx.frame % 256 = crc8 (faultTx.frame / 256) 0xFF 16 ∧ bits faultTx.frame 20 4 = 1 ∧ bits faultTx.frame 17 3 = 0 ∧
    bits faultTx.frame 8 9 = 0xA ∧ preampHas 0 0xA = true := by decide +kernel
theorem wit_ArmLinkActs_wr : ((linked writeTx).ch 0).tx = some writeTx ∧ writeTx.rd = false ∧
    writeTx.frame % 256 = crc8 (writeTx.frame / 256) 0xFF 32 ∧ bits (bits writeTx.frame 24 16) 12 4 = 2 ∧ bits (bits writeTx.frame 24 16) 9 3 = writeTx.len ∧
    bits (bits writeTx.frame 24 16) 0 9 = 9 ∧ preampHas 0 9 = true ∧ bits writeTx.frame 8 16 = 2 := by decide +kernel
/-- A response with an acknowledgement and one whose CRC does not fit. -/
theorem wit_ArmLinkActs_response : ∃ c : BitVec 8, respValid ⟨0x80, [7], c⟩ readTx = true ∧ respValid ⟨0x80, [7], c ^^^ 1⟩ readTx = false ∧
    bit (0x80 : BitVec 8).toNat 7 = true ∧ bit (0x80 : BitVec 8).toNat 3 = false ∧ readTx.retried = false :=
  ⟨BitVec.ofNat 8 (responseCrc 0x80 [7]), by decide +kernel⟩
/-- A preamplifier with its TD timeout on and 8 periods without a frame. -/
def silent : State := (base []).updPreamp 0 fun p => { p with missed := 8, regs := [(9, 2)] }

theorem wit_preampTdTimeout : bit (tget 0 (silent.preamp.get 0).regs 9) 1 = true ∧ 8 ≤ (silent.preamp.get 0).missed := by decide +kernel
theorem wit_preampAttention : ((0 : Nat) ||| (1 : BitVec 9).toNat) &&& (0 : Nat) ≠ 1 ∧ ((0 : Nat) ||| (1 : BitVec 9).toNat) &&& 1 = 1 := by decide
theorem wit_armReqGo : (base [(Fd.ARM_CTL_EN 0, 1), (Fd.ARM_REQ_RD 0, 1)]).on (Fd.ARM_STATUS_BUSY 0) = false ∧
    (base [(Fd.ARM_CTL_EN 0, 1), (Fd.ARM_REQ_RD 0, 1)]).owned 0 = false ∧ (base [(Fd.ARM_CTL_EN 0, 1), (Fd.ARM_REQ_RD 0, 1)]).on (Fd.CHN_WSTAT_ARMED 0) =
      false ∧ (base [(Fd.ARM_CTL_EN 0, 1), (Fd.ARM_REQ_RD 0, 1)]).on (Fd.ARM_REQ_RD 0) = true := by decide +kernel

/-! The servo. -/

/-- `mapped` with a servo changed. -/
def servoAt (g : Servo → Servo) : State := (mappedW [(Fd.SRV_TETH_PAMIN 0, 1)]).updSv 0 g

theorem wit_ServoEventsAct : (servoAt id).blk 0 = true ∧ ((servoAt id).sv 0).held = false ∧ ((servoAt id).sv 0).spoilt = false ∧
    (servoAt id).rd (Fd.SRV_TETH_PAMIN 0) ≤ (1 : BitVec 8).toNat ∧ ((servoAt id).sv 0).hop = none ∧
    (0 : BitVec 8).toNat < (servoAt id).rd (Fd.SRV_TETH_PAMIN 0) ∧ ((servoAt fun v => { v with hop := some 1 }).sv 0).hop = some 1 ∧
    (servoAt fun v => { v with hop := some 1 }).blk 0 = true ∧ ((servoAt fun v => { v with hop := some 1 }).sv 0).held = false ∧
    ((servoAt fun v => { v with hop := some 1 }).sv 0).spoilt = false ∧
    (servoAt fun v => { v with hop := some 1 }).rd (Fd.SRV_TETH_PAMIN 0) ≤ (1 : BitVec 8).toNat ∧
    ((servoAt fun v => { v with spoilt := true }).sv 0).spoilt = true := by decide +kernel
theorem wit_seek : ((servoAt fun v => { v with phase := .travel, dirIn := true }).sv 0).phase = .travel ∧
    ((servoAt fun v => { v with phase := .travel, dirIn := true }).sv 0).dirIn = true ∧
    ((servoAt fun v => { v with phase := .travel }).sv 0).dirIn = false ∧
    ((servoAt fun v => { v with phase := .capture, goal := .seek }).sv 0).goal = .seek ∧
    ((servoAt fun v => { v with phase := .capture, goal := .seek }).sv 0).phase = .capture ∧
    ((servoAt fun v => { v with hop := some 0, held := true }).sv 0).held = true ∧
    ((servoAt fun v => { v with hop := some 0, held := true }).sv 0).hop = some 0 ∧
    ((servoAt fun v => { v with hop := some 0, held := true }).sv 0).goal ≠ .seek := by decide +kernel

/-- A shock input active high, masked in, with no filter. -/
def shocky : State := mappedW [(Fd.SRV_SHK_MASK 0, 1), (Fd.SRV_SHK_POL 0, 0), (Fd.SRV_SHK_FILT 0, 0)]

theorem wit_shock : true ≠ shocky.rdBit (Fd.SRV_SHK_POL 0) (0 : Fin 2).val ∧ shocky.rd (Fd.SRV_SHK_FILT 0) < 1 ∧
    shocky.rdBit (Fd.SRV_SHK_MASK 0) (0 : Fin 2).val = true ∧ bit (shocky.sv 0).shock (0 : Fin 2).val = false ∧
    false = shocky.rdBit (Fd.SRV_SHK_POL 0) (0 : Fin 2).val ∧ shocky.rdBit (Fd.SRV_SHK_MASK 0) (1 : Fin 2).val = false := by decide +kernel

theorem wit_ActuatorCommandsAct : ((servoAt fun v => { v with shockHold := true }).sv 0).shockHold = true ∧
    (base [(Fd.SRV_CTL_FITTED 0, 1), (Fd.SRV_LIM_IMAX 0, 1)]).mode 0 = 0 ∧
    (base [(Fd.SRV_CTL_FITTED 0, 1), (Fd.SRV_LIM_IMAX 0, 1)]).on (Fd.SRV_CTL_FITTED 0) = true ∧
    (base [(Fd.SRV_CTL_FITTED 0, 1), (Fd.SRV_LIM_IMAX 0, 1)]).rd (Fd.SRV_LIM_IMAX 0) ≠ 0 ∧ (base []).rdBit Fd.HSK_TSTAT_COND 5 = false ∧
    (base [(Fd.SRV_STATUS_MODE 0, 1)]).mode 0 = 1 ∧ ((servoAt fun v => { v with load := .outward }).sv 0).load = .outward ∧
    ((servoAt fun v => { v with load := .park }).sv 0).load = .park := by decide +kernel

/-! Zones and the host. -/

/-- A zone of 1,000 blocks with nothing written. -/
def zone0 : Zone := ⟨.empty, false, false, false, 0, 0, 0, 1, 1000, 0, 0, 1, 0, 0, 0, 0, 0, none, 0⟩

/-- Namespace 1 is zoned, of 2 zones from zone 0 on, and ready. -/
def zoned : State :=
  (base [(Fd.INT_NSCFG_VALID 1, 1), (Fd.INT_NSCFG_ZONED 1, 1), (Fd.INT_NSZONES_ZONES 1, 2), (Fd.INT_NSREADY_READY, 1),
    (Fd.RCH_ZCOUNT_COUNT 0, 1), (Fd.RCH_JCTL_EN 0, 1)]).zput fun u => { u with zones := [(0, zone0)] }

theorem wit_ZonesAndJournalAct : (base []).loadFault 0 ((base []).storeRecs 0) = none ∧
    ((base [(Fd.RCH_ZCOUNT_COUNT 0, 1)]).loadFault 0 ((base [(Fd.RCH_ZCOUNT_COUNT 0, 1)]).storeRecs 0)) = some (0, 0) ∧
    0 < zoned.rd (Fd.RCH_ZCOUNT_COUNT 0) ∧ zoned.zone? 0 = some zone0 := by decide +kernel
theorem wit_journal : (zoned.zput fun u => { u with issued := [⟨1, ⟨1, 0, 0, 0, 0⟩⟩] }).zone.issued = [⟨1, ⟨1, 0, 0, 0, 0⟩⟩] ∧ zoned.jOn = true ∧
    (∀ i : Fin 4, zoned.flashWord ((jRegion + jOffset zoned.zone.head) / 8 + i.val) = erasedWord) ∧
    zoned.zone.head < zoned.zone.tail / 128 * 128 + 128 ∧
    (zoned.zput fun u => { u with head := 128 }).zone.tail / 128 * 128 + 128 ≤ (zoned.zput fun u => { u with head := 128 }).zone.head ∧
    (zoned.zput fun u => { u with due := [0] }).zone.due.contains 0 = true := by decide +kernel

/-- The context of an I/O command of one block at block 0 of namespace 1. -/
def io (op : BitVec 32) : Ctx := { Ctx.fresh (op :: 1 :: List.replicate 14 0) 1 0 .high 0 0 none with st := .admitted }

theorem wit_zoneAppendPlace : (withCtx zoned { io 0x7D with run := true }).ctx? 1 = some { io 0x7D with run := true } ∧ (io 0x7D).admin = false ∧
    (io 0x7D).opcode = 0x7D ∧ (io 0x7D).handed = false ∧ (io 0x7D).place = none ∧ (io 0x7D).fwdTo = none ∧ (io 0x7D).bound = none ∧
    (io 0x7D).ending = none ∧ (io 0x7D).origin = none ∧ (withCtx zoned { io 0x7D with run := true }).nsLocal (io 0x7D).nsid = some 1 ∧
    (withCtx zoned { io 0x7D with run := true }).zoneOf 1 (io 0x7D).slba = some (0, zone0, 0) ∧
    (withCtx zoned { io 0x7D with run := true }).againFirst 0 { io 0x7D with run := true } 1 = false ∧ zone0.st ≠ .full ∧
    zone0.pp + (io 0x7D).nlb ≤ zone0.zcap := by decide +kernel
theorem wit_zoneActionEffect : (withCtx zoned { io 0x79 with run := true }).ctx? 1 = some { io 0x79 with run := true } ∧
    (withCtx zoned { io 0x79 with run := true }).host.sanWait = none ∧ (io 0x79).jwait = [] ∧ (io 0x79).handed = false ∧ (io 0x79).admin = false ∧ (io 0x79).opcode = 0x79 ∧
    (withCtx zoned { io 0x79 with run := true }).zonesQuiet ((withCtx zoned { io 0x79 with run := true }).actionZones { io 0x79 with run := true }).1
      ((withCtx zoned { io 0x79 with run := true }).actionZones { io 0x79 with run := true }).2 = true := by decide +kernel

/-! The host side. -/

/-- `zoned` out of P0 with controller 0 enabled and ready, and its queue 1 with one entry waiting. -/
def hosted : State :=
  let s := { zoned.wr Fd.INT_CTL_EN 1 with power := { zoned.power with p0 := false } }
  s.ctrlUpd 0 fun c => { c with en := true, rdy := true, sqs := [(1, ⟨1, 2, .high, 1, 0, 1⟩)], cqs := [(1, ⟨2, 0, 0, true⟩)] }

/-- `hosted` with one context. -/
def hostC (x : Ctx) : State := withCtx hosted x

theorem wit_HostQueuesAct : (hosted.sq? 0 1) = some ⟨1, 2, .high, 1, 0, 1⟩ ∧ (hosted.ctrl 0).en = true ∧ (1 : BitVec 16).toNat < 2 ∧
    hosted.granted = some (0, 1, 65536) ∧ (0 : Fin 2) ≠ 1 := by decide +kernel
theorem wit_sqFetch : (State.takeCtxs ((hosted.sqUpd 0 1 fun q => { q with head := (q.head + 1) % q.size }).hput fun h =>
      { h with fetches := h.fetches + 1, psNow := h.psNow }) (Ctx.fresh (List.replicate 16 0) 1 0 .high hosted.time hosted.host.fetches none)
      (hosted.pieces (Ctx.fresh (List.replicate 16 0) 1 0 .high hosted.time hosted.host.fetches none))).2.isSome = true := by decide +kernel
theorem wit_contextAdmit : (hostC { io 0x79 with st := .held }).ctx? 1 = some { io 0x79 with st := .held } ∧
    (io 0x79).handed = false ∧ (io 0x79).fwdTo = none ∧ (hostC { io 0x79 with st := .held }).isPart 1 = false ∧ (hostC { io 0x79 with st := .held }).on Fd.INT_STATUS_PAUSED = false ∧
    (hostC { io 0x79 with st := .held }).fenced { io 0x79 with st := .held } = false ∧ (io 0x79).byNs = true ∧
    (hostC { io 0x79 with st := .held }).nsLocal (io 0x79).nsid = some 1 ∧ (hostC (io 0x79)).rdBit Fd.INT_NSREADY_READY 0 = true ∧
    (hostC (io 0x79)).host.sanitize = false ∧ (io 0x79).media = false := by decide +kernel
/-- A read that waits for engine 0, and beside it one of the low class. -/
def toBind : Ctx := { io 0x02 with run := true }
def twoBind : State := { hosted with host := { hosted.host with ctxs := [(1, { toBind with cls := .low }), (2, { toBind with cls := .urgent })] } }

theorem wit_contextBind : (hostC toBind).ctx? 1 = some toBind ∧ (hostC toBind).bindable 0 toBind = true ∧ (hostC toBind).serviceStatus toBind = none ∧
    (hostC toBind).scheduled 0 toBind = true ∧ twoBind.ctx? 1 = some { toBind with cls := .low } ∧
    twoBind.bindable 0 { toBind with cls := .low } = true ∧ twoBind.serviceStatus { toBind with cls := .low } = none ∧
    twoBind.scheduled 0 { toBind with cls := .low } = false := by decide +kernel
theorem wit_classLimit : ({ hostC { io 0x02 with deadline := 1, bound := some 0 } with time := 1 } : State).ctx? 1 =
      some { io 0x02 with deadline := 1, bound := some 0 } ∧ ({ io 0x02 with deadline := 1, bound := some 0 } : Ctx).deadline ≠ 0 ∧
    ({ io 0x02 with deadline := 1, bound := some 0 } : Ctx).handed = false ∧ (io 0x02).opcode = 0x02 ∧ (io 0x02).writes = false := by decide +kernel
theorem wit_completionPost : (hostC { io 0x02 with handed := true }).ctx? 1 = some { io 0x02 with handed := true } ∧
    (hostC { io 0x02 with handed := true }).isPart 1 = false ∧ (hostC { io 0x02 with handed := true }).complete? 1 = true ∧
    ((hostC { io 0x02 with handed := true }).ctrl 0).linkHeld = false ∧ (hostC { io 0x02 with handed := true }).finalStatus 1 = (0, 0) ∧
    ({ io 0x02 with handed := true } : Ctx).failedZone = none ∧ hosted.host.sanAgain = false := by decide +kernel

/-- A context of an I/O command waits to be carried out. -/
theorem wit_ioWaits : (hostC (io 0x02)).ioWaits 1 0x02 (io 0x02) ∧ (hostC (io 0x01)).ioWaits 1 0x01 (io 0x01) ∧ (hostC (io 0x08)).ioWaits 1 0x08 (io 0x08) ∧
    (hostC (io 0x0C)).ioWaits 1 0x0C (io 0x0C) ∧ (hostC (io 0x00)).ioWaits 1 0x00 (io 0x00) ∧ (hostC (io 0x81)).ioWaits 1 0x81 (io 0x81) ∧
    (hostC (io 0x7A)).ioWaits 1 0x7A (io 0x7A) ∧ (hostC (io 0x7D)).ioWaits 1 0x7D (io 0x7D) ∧ (hostC (io 0x79)).ioWaits 1 0x79 (io 0x79) := by
  refine ⟨?_, ?_, ?_, ?_, ?_, ?_, ?_, ?_, ?_⟩ <;> (unfold State.ioWaits; decide +kernel)

/-- A command of an opcode, with dword 13, that reaches the last block of its zone of namespace 1. -/
def ioAt (op : BitVec 32) (lba nlb dw13 : BitVec 32) : Ctx :=
  { Ctx.fresh ([op, 1] ++ List.replicate 8 0 ++ [lba, 0, nlb, dw13, 0, 0]) 1 0 .high 0 0 none with st := .admitted }

theorem wit_IoCommandsAct : (hostC (io 0x02)).nsLocal (io 0x02).nsid = some 1 ∧ (ioAt 0x02 0x1FF00 0xFF 0).slba + (ioAt 0x02 0x1FF00 0xFF 0).nlb =
      (hostC (io 0x02)).nsSize 1 ∧ (ioAt 0x02 0x1FF00 0xFF 0).nlb = 256 ∧ (hostC (io 0x02)).hasPi 1 = false ∧
    ((hostC (io 0x81)).host.ctxs.any fun p => p.2.ctl == (io 0x81).ctl && p.2.sq == (io 0x81).sq && p.2.origin.isNone && p.2.ord < (io 0x81).ord) = false ∧
    (hostC (io 0x7A)).nsZoned 1 = true ∧ (io 0x7A).slba < (hostC (io 0x7A)).nsSize 1 := by decide +kernel
theorem wit_zoneAppend : (hostC (io 0x7D)).serviceStatus (io 0x7D) = none ∧ (hostC (io 0x7D)).zoneOf 1 (io 0x7D).slba = some (0, zone0, 0) ∧
    (hostC (io 0x7D)).zoneHeld 0 = false ∧ zone0.check true 0 1 = none ∧ zone0.check true 0 1000 = none ∧
    ((hostC (io 0x7D)).openFor 0 zone0 false).toOption.isSome = true := by decide +kernel
theorem wit_zoneSend : (ioAt 0x79 0x10000 0 3).slba % 65536 = 0 ∧ (ioAt 0x79 0x10000 0 3).slba < (hostC (ioAt 0x79 0x10000 0 3)).nsSize 1 ∧
    (ioAt 0x79 0 0 3).dw 13 % 256 = 3 ∧ bit ((ioAt 0x79 0 0 3).dw 13) 8 = false ∧ ((hostC (ioAt 0x79 0 0 3)).openZone 0).toOption.isSome = true ∧
    (ioAt 0x79 0 0 5).dw 13 % 256 = 5 ∧ (ioAt 0x79 0 0 1).dw 13 % 256 = 1 ∧ (ioAt 0x79 0 0 2).dw 13 % 256 = 2 ∧
    (ioAt 0x79 0 0 4).dw 13 % 256 = 4 := by decide +kernel

/-- The context of an admin command with dwords 10 and 11. -/
def adm (op dw10 dw11 : BitVec 32) : Ctx :=
  { Ctx.fresh ([op, 1] ++ List.replicate 8 0 ++ [dw10, dw11, 0, 0, 0, 0]) 0 0 .admin 0 0 none with st := .admitted }

/-- A context of an admin command waits to be carried out. -/
theorem wit_admWaits : (hostC (adm 0x01 0x10001 0x10001)).admWaits 1 0x01 (adm 0x01 0x10001 0x10001) ∧
    (hostC (adm 0x05 0xFFF0080 0x810001)).admWaits 1 0x05 (adm 0x05 0xFFF0080 0x810001) ∧ (hostC (adm 0x00 1 0)).admWaits 1 0x00 (adm 0x00 1 0) ∧
    (hostC (adm 0x04 1 0)).admWaits 1 0x04 (adm 0x04 1 0) ∧ (hostC (adm 0x08 1 0)).admWaits 1 0x08 (adm 0x08 1 0) ∧
    (hostC (adm 0x0C 0 0)).admWaits 1 0x0C (adm 0x0C 0 0) := by
  refine ⟨?_, ?_, ?_, ?_, ?_, ?_⟩ <;> (unfold State.admWaits; decide +kernel)

/-- `hosted` with a context and the submission queue gone. -/
def hostQ (x : Ctx) : State := (hostC x).ctrlUpd 0 fun c => { c with sqs := [] }

theorem wit_AdminQueueCommandsAct : bits ((adm 0x01 0x10001 0x10001).dw 10) 0 16 = 1 ∧ bits ((adm 0x01 0x10001 0x10001).dw 10) 16 16 = 1 ∧
    bits ((adm 0x01 0x10001 0x10001).dw 11) 16 16 = 1 ∧ bit ((adm 0x01 0x10001 0x10001).dw 11) 0 = true ∧
    (hostQ (adm 0x01 0x10001 0x10001)).sq? 0 1 = none ∧
    (((hostQ (adm 0x01 0x10001 0x10001)).ctrl 0).cqs.any fun p => p.1 == 1 && p.1 != 0) = true ∧
    1024 + (hostQ (adm 0x01 0x10001 0x10001)).rd Fd.INT_SCHED_RESERVE ≤ (hostQ (adm 0x01 0x10001 0x10001)).poolSize ∧
    (((hostQ (adm 0x04 1 0)).ctrl 0).sqs.any fun p => p.2.cq == 1) = false := by decide +kernel
theorem wit_createIoCq : bits ((adm 0x05 0xFFF0080 0x810001).dw 10) 0 16 = 128 ∧ bits ((adm 0x05 0xFFF0080 0x810001).dw 10) 16 16 = 4095 ∧
    bits ((adm 0x05 0xFFF0080 0x810001).dw 11) 16 16 = 129 ∧ bit ((adm 0x05 0xFFF0080 0x810001).dw 11) 0 = true ∧
    ((hosted.ctrl 0).cqs.any fun p => p.1 == 128) = false ∧ (hosted.ctrl 0).aborts < 8 ∧ (hosted.ctrl 0).aers.length < 8 := by decide +kernel
/-- An Abort of context 2 of queue 1. -/
def aborting : State :=
  { hosted with host := { hosted.host with ctxs := [(1, adm 0x08 1 0), (2, io 0x02)] } }

theorem wit_abort : ((aborting.cmdsOf 0 (some 1)).find? fun p => !p.2.admin && p.2.cid == 0) = some (2, io 0x02) ∧ (io 0x02).fwdTo = none ∧
    aborting.abortable 2 = true := by decide +kernel

theorem wit_AdminDataCommandsAct : bits ((adm 0x02 0x3FC0002 0).dw 11) 0 16 * 64 + bits ((adm 0x02 0x3FC0002 0).dw 10) 16 16 / 1024 = 0 ∧
    memberPage ((adm 0x02 0x3FC0002 0).dw 10 % 256) = false ∧ ((hostC (adm 0x06 1 0)).identify (adm 0x06 1 0) 0).toOption.isSome = true ∧
    4 * (adm 0x11 0x1FFFFF 0).dw 11 + 4 * ((adm 0x11 0x1FFFFF 0).dw 10 + 1) = 0x800000 ∧ bits ((adm 0x10 0x12 0).dw 10) 3 3 = 2 ∧
    (adm 0x10 0x12 0).dw 10 % 8 = 2 ∧ bits ((adm 0x10 0x1A 0).dw 10) 3 3 = 3 ∧ (hostC (adm 0x10 0x1A 0)).allReleased = true ∧
    (hostC (adm 0x10 0x1A 0)).host.activation = none ∧ (hostC (adm 0x80 1 0)).namedNs 1 = [1] ∧
    (((hostC (adm 0x80 1 0)).namedNs 1).all fun j => (hostC (adm 0x80 1 0)).rdBit Fd.INT_NSREADY_READY (j - 1)) = true ∧
    (hostC (adm 0x84 4 0)).host.sanitize = false ∧ (adm 0x84 4 0).dw 10 % 8 = 4 ∧ (adm 0x81 0x1000000 0).dw 10 / 2 ^ 24 = 1 ∧
    (adm 0x82 0 0).dw 10 / 2 ^ 24 = 0 := by decide +kernel
theorem wit_admData : (hostC (adm 0x02 0x3FC0002 0)).admWaits 1 0x02 (adm 0x02 0x3FC0002 0) ∧ (hostC (adm 0x06 1 0)).admWaits 1 0x06 (adm 0x06 1 0) ∧
    (hostC (adm 0x09 0x0B 0)).admWaits 1 0x09 (adm 0x09 0x0B 0) ∧ (hostC (adm 0x0A 0x0B 0)).admWaits 1 0x0A (adm 0x0A 0x0B 0) ∧
    (hostC (adm 0x11 0x1FFFFF 0)).admWaits 1 0x11 (adm 0x11 0x1FFFFF 0) ∧ (hostC (adm 0x10 0x12 0)).admWaits 1 0x10 (adm 0x10 0x12 0) ∧
    (hostC (adm 0x80 1 0)).admWaits 1 0x80 (adm 0x80 1 0) ∧ (hostC (adm 0x84 4 0)).admWaits 1 0x84 (adm 0x84 4 0) ∧
    (hostC (adm 0x81 0x1000000 0)).admWaits 1 0x81 (adm 0x81 0x1000000 0) ∧ (hostC (adm 0x82 0 0)).admWaits 1 0x82 (adm 0x82 0 0) := by
  refine ⟨?_, ?_, ?_, ?_, ?_, ?_, ?_, ?_, ?_, ?_⟩ <;> (unfold State.admWaits; decide +kernel)
theorem wit_activationEnd : (hosted.hput fun h => { h with activation := some (some 1, 0) }).host.activation = some (some 1, 0) := by decide +kernel

/-- A machine past P4 with both links up. -/
def linkedUp : State := base [(Fd.PORT_PCTL_LINKUP 0, 1), (Fd.PORT_PCTL_EN 0, 1), (Fd.PORT_PCTL_HOLD_S 0, 1), (Fd.HSK_START_PHASE, 4)]

theorem wit_ControllerEventsAct : (linkedUp.ctrl 0).en = false ∧ linkedUp.ctrlHere 0 = true ∧ linkedUp.on (Fd.PORT_PCTL_LINKUP 0) = true ∧
    linkedUp.rd (Fd.PORT_PCTL_HOLD_S 0) ≠ 0 ∧ (linkedUp.wr (Fd.PORT_PCTL_HOLD_S 0) 0).rd (Fd.PORT_PCTL_HOLD_S 0) = 0 ∧
    linkedUp.on (Fd.PORT_PCTL_EN 0) = true ∧ linkedUp.perstLow 0 = false ∧ (linkedUp.wr Fd.INT_CTL_X4 1).on Fd.INT_CTL_X4 = true ∧
    ((linkedUp.ctrlUpd 0 fun c => { c with linkHeld := true }).ctrl 0).linkHeld = true ∧ 4 ≤ linkedUp.rd Fd.HSK_START_PHASE := by decide +kernel

/-! The Stage, memory and the fabric. -/

/-- The Stage on, with the first unit of line 0 being fetched. -/
def filling : State :=
  { base [(Fd.STG_CTL_STATE, 1)] with stage := { StageUnit.reset with
      sets := [(0, ⟨some ⟨0, 0, 0, 1⟩ :: List.replicate 15 none, 0⟩)], wb := [⟨1, 0, 0x8001, 0⟩] } }

theorem wit_StageCommandsAct : granuleOk (unalias 0x8000000000) 256 = true ∧ (base []).inDram (unalias 0x8000000000) = true ∧
    (base []).inDram (unalias 0x81FFFFFFFF) = true ∧
    (((filling.inArray (filling.lineOf (unalias 0x8000000000))).any fun p => bit p.2.filling (filling.unitOf (unalias 0x8000000000))) = true) ∧
    filling.walk.stage.wb = [⟨1, 0, 0x8001, 0⟩] ∧ lowDirty 0x8001 0 16 = some 0 ∧ filling.stgState = 1 := by decide +kernel
theorem wit_stageFill : (State.memLoad { filling with answer := [] } 0 dramBase 256).2 = some (List.replicate 256 0) := by decide +kernel
theorem wit_stageDrained : (base [(Fd.STG_CTL_STATE, 2)]).stgState = 2 ∧ (base [(Fd.STG_CTL_STATE, 2)]).anyDirty = false ∧
    (base [(Fd.STG_CTL_STATE, 2)]).stage.enHeld = false ∧ (base [(Fd.STG_CTL_STATE, 0)]).stgState = 0 := by decide +kernel

theorem wit_MemoryCommandsAct : (base []).isMem (8 * (0x1000000000 : BitVec 37).toNat) 8 = true ∧ (base []).isMem (8 * (0 : BitVec 37).toNat) 8 = false ∧
    inFactoryRow 0 = false ∧ (base []).isMem (0x8000000000 : BitVec 40).toNat 256 = true ∧ (base [(Fd.MEM_CTL_SCRUB_S, 1)]).on Fd.MEM_CTL_SCRUB_S = true ∧
    (base [(Fd.MEM_CTL_SCRUB_D, 1)]).on Fd.MEM_CTL_SCRUB_D = true ∧ (base []).dramSize ≠ 0 ∧ (base []).host.psNow ≠ 4 ∧
    (base [(Fd.HSK_START_PHASE, 3)]).rd Fd.HSK_START_PHASE = 3 ∧ Requester.manager ≠ Requester.watch := by decide +kernel

theorem wit_WeirCommandsAct : (base []).credit? 8 .c true = true ∧
    ((base []).weirPut fun z => { z with packets := [⟨8, .d, true⟩] }).weir.pick = some ⟨8, .d, true⟩ ∧ requesterUnit 5 = some (.hostPort 0) ∧
    ((((base [serve (.hostPort 0)]).wr Fd.WEIR_INT_STALL 1).count Fd.WEIR_CNT_STALLS 1).raise .weir 0x0501 4 [5, 1]).watchesElems (.hostPort 0) = true ∧
    (base [(Fd.WEIR_SYNC_DONE 4, 1)]).on (Fd.WEIR_SYNC_DONE 4) = true ∧
    ((((base []).weirPut fun z => { z with syncs := [(4, [0])] }).weir.syncs.any fun y => y.1 == 4 && y.2.all fun i =>
      !(((base []).weirPut fun z => { z with syncs := [(4, [0])] }).weir.writes.any fun w => w.1 == i)) = true) := by decide +kernel

theorem wit_memWrite : tableOf (8 * (0x1000000000 : BitVec 37).toNat) = none ∧ tableOf (wmem 0) = some (0, 0) ∧
    tableOf (wmem 0 + 0xFFF8) = some (0, 7) ∧ tableOf (wmem 0 + 0x10000) = none ∧ (base []).isMem (wmem 0) 8 = true ∧ wmem 0 % 8 = 0 ∧
    wmem 0 / 8 < 2 ^ 37 ∧ (base []).leaksDue (0 : Fin 2).val = 0 := by decide +kernel
theorem wit_bucketLeak : ({ base [(Fd.MEM_BKT_LEAK_S 0, 1)] with time := 2000000 } : State).leaksDue (0 : Fin 2).val = 2 := by decide +kernel

/-- Position 0 of a group of four, with a token message held for position 1 whose two slots are in use. -/
def heldMsg : CMsg := ⟨0x0C, 1, 0, 0, []⟩
def grouped : State := (base [(Fd.CFX_STATUS_SIZE, 3)]).cfxUpd fun c => { c with held := [heldMsg], flight := [(1, 4), (1, 4)] }

theorem wit_weirLink : (base []).credit? 8 .c true = true ∧ ((base []).weirPut fun z => { z with withheld := [8] }).credit? 8 .q false = false ∧
    (grouped.cfx.held.find? fun m => m.waitsFor (2 : Fin 4).val (4 : Fin 5).val) = none ∧
    grouped.cfx.held.find? (fun m => m.waitsFor (1 : Fin 4).val (4 : Fin 5).val) = some heldMsg ∧
    (grouped.cfx.flight.erase ((1 : Fin 4).val, (4 : Fin 5).val)).count ((1 : Fin 4).val, (4 : Fin 5).val) < slotsKept (4 : Fin 5).val := by decide +kernel
theorem wit_weirRelay : (1 : Fin 4) ≠ 2 ∧ grouped.pos ≠ (1 : Fin 4).val ∧ grouped.pos ≠ (2 : Fin 4).val ∧ (1 : Fin 4).val < grouped.members ∧
    (2 : Fin 4).val < grouped.members ∧ classNum .c ≤ 2 ∧ grouped.cfx.relays.count ((1 : Fin 4).val, (2 : Fin 4).val, classNum .c) = 0 := by decide +kernel
theorem wit_weirRelay_count : grouped.cfx.relays.count ((1 : Fin 4).val, (2 : Fin 4).val, classNum .c) < 1 + Config.relaySlots (classNum .c) := by
  rw [wit_weirRelay.2.2.2.2.2.2]; omega

/-- Sluice on, channel 0 in a state, its chain in DRAM. -/
def chan0 (st : Nat) : State :=
  base [(Fd.SLC_CTL_EN, 1), (Fd.SLC_CHSTAT_STATE 0, st), (Fd.SLC_CHCUR_ADDR 0, 0x400000000), serve .sluice]

theorem wit_SluiceCommandsAct : (chan0 0).sluTaken 0 = false ∧ (chan0 0).sluState 0 ≠ 1 ∧ (chan0 1).sluState 0 = 1 ∧ (chan0 3).sluState 0 = 3 ∧
    (chan0 3).on Fd.SLC_CTL_EN = true ∧ (chan0 1).sluRuns 0 = true ∧ (chan0 1).takesWork .sluice = true ∧ ((chan0 1).slu 0).cur = none ∧
    ((chan0 1).descAt 0 (32 * (chan0 1).rd (Fd.SLC_CHCUR_ADDR 0))).2 = some [0, 0, 0, 0] ∧
    (((chan0 1).wr (Fd.SLC_CHCUR_ADDR 0) 0).descAt 0 0).2 = none ∧
    (chan0 1).sluice.xfers.find? (fun x => 24 + 2 * x.n.val == 0) = none ∧ (chan0 1).sluWaits 0 = false := by decide +kernel
theorem wit_sluiceDescDone : (((chan0 1).updSlu 0 fun c => { c with cur := some [0, 3 * 2 ^ 40, 0, 0] }).slu 0).cur = some [0, 3 * 2 ^ 40, 0, 0] ∧
    descCount [0, 3 * 2 ^ 40, 0, 0] ≤ (((chan0 1).updSlu 0 fun c => { c with cur := some [0, 3 * 2 ^ 40, 0, 0] }).slu 0).wpos ∧
    descInt [0, 3 * 2 ^ 40, 0, 0] = true ∧ descLast [0, 3 * 2 ^ 40, 0, 0] = true ∧
    ({ chan0 1 with sluice := { (chan0 1).sluice with xfers := [⟨0, 0, 0, 0, 0, 0, 0, 0⟩] } } : State).sluice.xfers.find? (fun x => x.n == 0) =
      some ⟨0, 0, 0, 0, 0, 0, 0, 0⟩ := by decide +kernel

theorem wit_BackwaterCommandsAct : (base [(Fd.BKW_CTL_EN, 1)]).on Fd.BKW_CTL_EN = true ∧ (base [(Fd.BKW_CTL_EN, 0)]).on Fd.BKW_CTL_EN = false ∧
    ((base []).queue 255).head = [] ∧ ((base []).queue 255).mid = [] ∧
    (((base []).putQueue 255 { BQueue.empty with head := [⟨7, true, true, false, false⟩] }).queue 255).head = [⟨7, true, true, false, false⟩] ∧
    8 ≤ (((base []).putQueue 0 { BQueue.empty with
      head := List.replicate 16 ⟨0, false, false, false, false⟩, tail := List.replicate 8 ⟨0, false, false, false, false⟩ }).queue 0).tail.length ∧
    (((base []).putQueue 0 { BQueue.empty with
      head := List.replicate 16 ⟨0, false, false, false, false⟩, tail := List.replicate 8 ⟨0, false, false, false, false⟩ }).queue 0).head.length = 16 ∧
    (((base []).putQueue 0 { BQueue.empty with mid := [⟨0, false, false, false, false⟩] }).queue 0).mid ≠ [] ∧
    (((base []).putQueue 0 { BQueue.empty with mid := [⟨0, false, false, false, false⟩] }).queue 0).head.length ≤ 8 := by decide +kernel

/-- Bank 1 of code flash with an operation under way. -/
def flashAt (erase : Bool) : State := (base [serve .flash]).cflPut fun c => { c with op1 := some ⟨erase, 0x2000000, [5]⟩, remap := [⟨8192, false⟩] }

theorem wit_FlashCommandsAct : (flashAt true).erasing ((0x400000 : BitVec 23).toNat / 512) = true ∧ (base []).erasing 0 = false ∧
    (base []).cfl.abandoned.contains 0 = false ∧ (base []).cfl.badWords.contains 0 = false ∧ (base []).lineHit 0 false = false ∧
    (flashAt true).flashTakes = true ∧ (flashAt true).flashOp 1 = some ⟨true, 0x2000000, [5]⟩ ∧ (flashAt true).on (cflSusp 1) = false ∧
    (flashAt false).flashOp 1 = some ⟨false, 0x2000000, [5]⟩ ∧
    (flashAt true).cfl.remap.find? (fun r => !r.done && flashBank (4096 * r.sector) == 1) = some ⟨8192, false⟩ := by decide +kernel

/-! The spindle. -/

/-- A machine after reset with the spindle unit changed and some fields written. -/
def spun (l : List (Fld × Nat)) (g : SpinUnit → SpinUnit) : State := (base l).spinUpd g

theorem wit_SpindleSpeedActs : (36000 : BitVec 32).toNat = 36000 ∧ (1100000 : BitVec 32).toNat = 1100000 ∧ (base []).spin.recent.length < 3 ∧
    (spun [] fun x => { x with recent := [255, 255, 255] }).spin.recent = 255 :: 255 :: 255 :: [] ∧
    (spun [] id).on Fd.SPN_CTL_SRC = false ∧ (spun [] id).rd Fd.SPN_DMD_NOW + 2 ≤ halfUp (halfUp (255 * 36000) 36000 + 255 + 255 + 255) 4 ∧
    (base ((List.range 16).map fun k => (Fd.SPN_CURVE_D k, 17 * k))).shadowCurve.map Prod.fst = (List.range 16).map (17 * ·) ∧
    ascends (base ((List.range 16).map fun k => (Fd.SPN_CURVE_D k, 17 * k))).shadowCurve = true ∧
    ascends (base ((List.range 16).map fun k => (Fd.SPN_CURVE_D k, 0))).shadowCurve = false := by decide +kernel
theorem wit_targetChange : (base [(Fd.SPN_STATUS_ON, 1), (Fd.SPN_CTL_EN, 1)]).wantRpm ≠ (base [(Fd.SPN_STATUS_ON, 1), (Fd.SPN_CTL_EN, 1)]).rd
      Fd.SPN_TARGET_RPM ∧ (base [(Fd.SPN_STATUS_ON, 1), (Fd.SPN_CTL_EN, 1)]).wantRpm = 3600 ∧ (base []).allParked = true ∧
    (base [(Fd.SRV_CTL_FITTED 0, 1), (Fd.SRV_STATUS_MODE 0, 2)]).allParked = false ∧ (base []).spin.held = none ∧
    (base []).spin.waitPark = false ∧ (spun [] fun x => { x with held := some 3600 }).spin.held = some 3600 := by decide +kernel
/-- State run at 7,200 rpm less its 0.5%. -/
def turning : State := base [(Fd.SPN_STATUS_STATE, 6), (Fd.SPN_TARGET_RPM, 7200), (Fd.SPN_SPEED_RPM10, 71640)]

theorem wit_atspd : turning.spn = 6 ∧ turning.on Fd.SPN_STATUS_ATSPD = false ∧ turning.on Fd.SPN_TARGET_RPM = true ∧ turning.within 5 = true ∧
    ((turning.wr Fd.SPN_STATUS_ATSPD 1).wr Fd.SPN_SPEED_RPM10 71639).on Fd.SPN_STATUS_ATSPD = true ∧
    ((turning.wr Fd.SPN_STATUS_ATSPD 1).wr Fd.SPN_SPEED_RPM10 71639).within 5 = false ∧
    (spun [] fun x => { x with ovp := true }).spin.ovp = true ∧ (spun [] id).spn ≠ 8 ∧ (base [(Fd.SPN_STATUS_STATE, 4)]).spn = 4 := by decide +kernel

theorem wit_SpindleStartActs : (base []).spn = 0 ∧ (base []).unit .spindle ≠ 5 ∧ (base []).on Fd.HSK_PLSTAT_DECL = false ∧
    (base [(Fd.SPN_STATUS_STATE, 1)]).spn = 1 ∧ 0 ≤ (base [(Fd.HSK_TEMP_VALUE 9, 0)]).tx ∧ (base [(Fd.HSK_TEMP_VALUE 9, 0xFFFF)]).tx < 0 ∧
    (base [(Fd.SPN_WARM_WARM_MA, 1)]).on Fd.SPN_WARM_WARM_MA = true ∧ (base [(Fd.SPN_STATUS_STATE, 3), (Fd.SPN_STATUS_TOKEN, 1)]).spn = 3 ∧
    (base [(Fd.SPN_STATUS_TOKEN, 1)]).on Fd.SPN_STATUS_TOKEN = true ∧ (spun [] fun x => { x with catching := true }).spin.catching = true ∧
    (base [(Fd.SPN_STATUS_STATE, 2)]).spn = 2 ∧ (base []).on Fd.SPN_STATUS_TOKEN = false ∧ (base []).members = 1 ∧
    (base [(Fd.SPN_STATUS_STATE, 5)]).spn = 5 ∧ (base [(Fd.SPN_STATUS_STATE, 7)]).spn = 7 ∧ (base [(Fd.SPN_STATUS_STATE, 8)]).spn = 8 ∧
    (base [(Fd.SPN_STATUS_STATE, 9)]).spn = 9 ∧ (base [(Fd.SPN_STATUS_STATE, 10)]).spn = 10 ∧
    (spun [] fun x => { x with turning := true }).spin.turning = true := by decide +kernel

/-! Watch, calibration and housekeeping. -/

/-- Every unit of a domain ends its reset; a watch restart runs. -/
def watched : State := (base [serve .stage, (Fd.IRT_DSTAT_STATE 0, 1)]).watchUpd fun w => { w with restarting := true, due := some 1 }

theorem wit_ExpiriesAct : watched.watchesElems .stage = true ∧ watched.watchesUnit .stage = true ∧
    1000 * ((base [(Fd.IRT_WDOG_LIMIT, 0)]).rd Fd.IRT_WDOG_LIMIT) ≤ ((base []).time + 2 ^ 48 - (base []).watch.kick) % 2 ^ 48 ∧
    watched.rd (Fd.IRT_DSTAT_STATE Domain.motion.num) = 1 ∧ (Domain.motion.units.any fun u => watched.unit u = 5) = false ∧
    watched.watch.motion = none ∧ watched.watch.restarting = true ∧ watched.watch.due = some 1 ∧ watched.onlyWaits .stage = false ∧
    watched.watch.window = watched.time / 10000000 ∧ ({ watched with time := 10000000 } : State).watch.window ≠ 10000000 / 10000000 := by decide +kernel

theorem wit_onlyWaits : (inside (.wait 2 passed) .running).onlyWaits (.reach 0) = true := by decide +kernel

theorem wit_SlotControlActs : slotWriter .watch = true ∧ slotWriter (.flow 0) = false ∧ watched.serving .stage = true ∧
    watched.resettable .stage = true ∧ watched.unit .stage ≠ 5 ∧ watched.unit .stage = 2 ∧
    (base [(Fd.SLOT_STATE_STATE 6 0, 6)]).unit .stage = 6 ∧ (base [(Fd.SLOT_STATE_STATE 6 0, 6)]).heldDegraded .stage = false ∧
    (base [(Fd.SLOT_STATE_STATE 6 0, 5)]).unit .stage = 5 ∧
    ((base []).watchUpd fun w => { w with accesses := [⟨.watch, 6, 0, 4, 0, true⟩] }).watch.accesses.find? (fun h => h.waitsFor .stage) =
      some ⟨.watch, 6, 0, 4, 0, true⟩ := by decide +kernel

/-- A calibration pass at item 5 of actuator 0. -/
def calAt : State := base [(Fd.CAL_STATUS_BUSY, 1), (Fd.CAL_STATUS_ITEM, 5), (Fd.CAL_STATUS_PEND, 1), serve .cal]

theorem wit_CalibrationActs : (calAt.wr Fd.CAL_STATUS_BUSY 0).on Fd.CAL_STATUS_BUSY = false ∧ calAt.cal.full = false ∧
    calAt.on Fd.CAL_STATUS_PEND = true ∧ calAt.serving .cal = true ∧ calAt.calBusy = true ∧ calAt.rd Fd.CAL_STATUS_ITEM ≠ 3 ∧
    (calAt.wr Fd.CAL_STATUS_ITEM 0).rd Fd.CAL_STATUS_ITEM = 0 ∧ (20000 : Int).natAbs ≤ 20000 ∧ 20000 < (-20001 : Int).natAbs ∧
    (calAt.calPut fun u => { u with ended := true }).cal.ended = true ∧ calAt.rd Fd.CAL_STATUS_ITEM = 5 ∧ calAt.rd Fd.CAL_STATUS_ACTNOW = 0 ∧
    calAt.owned 0 = false ∧ calAt.cal.claim = none ∧ (calAt.calPut fun u => { u with claim := some 0 }).cal.claim = some 0 := by decide +kernel

theorem wit_HousekeepingActs : 2 ≤ (base [(Fd.HSK_START_PHASE, 2)]).rd Fd.HSK_START_PHASE ∧ (base [serve .hsk]).serving .hsk = true ∧
    ((base []).hskPut fun u => { u with sampling := true }).hsk.sampling = true ∧
    (((List.range 10).map fun i => (i, ((base []).hskPut fun u => { u with sampling := true }).reading (fun _ => 0) false i)).any
      fun p => p.1 == 9 && p.2.broken) = false ∧
    (base []).on Fd.HSK_VCTL_EN = false ∧ (base []).hsk.vstop = false ∧ (base [(Fd.HSK_VCTL_EN, 1)]).on Fd.HSK_VCTL_EN = true ∧
    (base []).hsk.needMode = false ∧ ((base []).hskPut fun u => { u with needMode := true }).hsk.needMode = true := by decide +kernel

/-! The recorder, Confluence, the cores and trust. -/

/-- A record of code 0x8000 raised, and one written and not yet durable. -/
def recorded : State :=
  (base [(Fd.HSK_START_PHASE, 3)]).evrPut fun e => { e with
    raised := [⟨0, 0x8000, 1, 0, 4, [], none, false⟩], undurable := [⟨1, 0, 0x8000, 1, 0, false, 0, 0, 4, 0, []⟩], fences := [(4, 0)] }

theorem wit_RecorderActs : recorded.evr.raised = [⟨0, 0x8000, 1, 0, 4, [], none, false⟩] ∧
    (recorded.wr Fd.EVR_STATUS_RESTORE 0).on Fd.EVR_STATUS_RESTORE = false ∧ (recorded.wr Fd.EVR_STATUS_RESTORE 1).on Fd.EVR_STATUS_RESTORE = true ∧
    3 ≤ recorded.rd Fd.HSK_START_PHASE ∧ (recorded.evr.raised.any fun x => x.core == some 0) = false ∧ bit (0x87FFF : BitVec 32).toNat 19 = true ∧
    bits (0x87FFF : BitVec 32).toNat 0 16 < 0x8000 ∧
    ((base []).evrPut fun e => { e with raised := [⟨0, 0x8000, 1, 0, 4, [], some 4, false⟩] }).evr.raised.any (fun x => x.core == some 4) = true ∧
    (recorded.evr.fences.any fun f => f.1 == 4 && f.2 == 0) = true ∧ recorded.nextEntry = some ⟨1, 0, 0x8000, 1, 0, false, 0, 0, 4, 0, []⟩ ∧
    (base [(Fd.EVR_CLR_AUTH, 1)]).on Fd.EVR_CLR_AUTH = true ∧ (base []).on Fd.EVR_CLR_AUTH = false := by decide +kernel

/-- A group of two seen from position 0, peer 1 heard, 5 ms after. -/
def pair : State :=
  { base [(Fd.CFX_CTL_EN, 1), (Fd.CFX_STATUS_SIZE, 1), (Fd.CFX_PEERS_PRESENT, 2), (Fd.CFX_FENCE_DONE, 1), (Fd.CFX_FWDRES_CTX, 1)] with time := 5000 }

theorem wit_GroupLinksAct : pair.on Fd.CFX_CTL_EN = true ∧ (pair.pos + 0 + 1) % 4 < pair.members ∧ pair.on (Fd.CFX_LINK_UP 0) = false ∧
    pair.rd Fd.CFX_STATUS_GID = 0 ∧ pair.members = 2 ∧ (pair.pos + 0 + 1) % 4 = 1 ∧ (pair.wr (Fd.CFX_LINK_UP 0) 1).on (Fd.CFX_LINK_UP 0) = true ∧
    1 ≠ pair.pos ∧ (pair.wr Fd.CFX_PEERS_LOST 2).rdBit Fd.CFX_PEERS_LOST 1 = true ∧
    ((pair.wr Fd.CFX_STATUS_ISLEAD 1).hear 1).on Fd.CFX_STATUS_ISLEAD = true ∧
    ((pair.hear 1).host.ctxs.all fun q => (q.2.origin.map Prod.fst) != some 1 || q.2.run || q.2.handed) = true := by decide +kernel
theorem wit_fack : ((pair.cfxUpd fun c => { c with fenceNum := 1, fenceWait := 2 }).hear 1).cfx.fenceNum = 1 ∧
    bit ((pair.cfxUpd fun c => { c with fenceNum := 1, fenceWait := 2 }).hear 1).cfx.fenceWait 1 = true ∧
    clrBit ((pair.cfxUpd fun c => { c with fenceNum := 1, fenceWait := 2 }).hear 1).cfx.fenceWait 1 = 0 := by decide +kernel
theorem wit_peerLost : pair.hears 1 = true ∧ (pair.time + 2 ^ 48 - (pair.peer 1).heard) % 2 ^ 48 = 5000 ∧ pair.hears 2 = false ∧
    (((((((((((pair.clrB Fd.CFX_PEERS_PRESENT 1).setB Fd.CFX_PEERS_LOST 1).updPeer 1 fun y =>
        { y with losses := y.losses + 1, nsready := 0, role := 0, synced := false }).settleRoutes).wr Fd.CFX_INT_PEERLOST 1).count Fd.CFX_CNT0_LOSSES
          1).raise .confluence 0x0201 5 (1 :: leBytes 6 (pair.peer 1).heard)).anaChanged.endForwarded 1).releaseOf 1).fenceLost 1).dropCredits 1).on
            Fd.CFX_STATUS_ISLEAD = false ∧
    (((((((((((pair.clrB Fd.CFX_PEERS_PRESENT 1).setB Fd.CFX_PEERS_LOST 1).updPeer 1 fun y =>
        { y with losses := y.losses + 1, nsready := 0, role := 0, synced := false }).settleRoutes).wr Fd.CFX_INT_PEERLOST 1).count Fd.CFX_CNT0_LOSSES
          1).raise .confluence 0x0201 5 (1 :: leBytes 6 (pair.peer 1).heard)).anaChanged.endForwarded 1).releaseOf 1).fenceLost 1).dropCredits 1).lead? ≠
            some 1 := by decide +kernel
theorem wit_token : (pair.cfxUpd fun c => { c with asked := true }).cfx.asked = true ∧ pair.on Fd.CFX_TOKEN_HELD = false ∧ 1 < pair.members ∧
    pair.on Fd.CFX_STATUS_HASLEAD = false ∧ pair.on Fd.CFX_FENCE_DONE = true ∧ pair.peerList.filter (fun q => bit (2 : BitVec 4).toNat q) = [1] ∧
    pair.hears 1 = true ∧ 0x0C < (0x0D : BitVec 8).toNat := by decide +kernel

/-- `pair` with a context of peer 1, or one sent to it, once it has been heard again. -/
def pairC (x : Ctx) : State := (withCtx pair x).hear 1

theorem wit_ForwardingActs : (pair.hear 1).usedFor 1 < (pair.hear 1).rd Fd.CFX_FWDRES_CTX ∧
    (pairC { io 0x01 with origin := some (1, 7) }).ctx? 1 = some { io 0x01 with origin := some (1, 7) } ∧ (io 0x01).handed = false ∧
    (io 0x01).writes = true ∧ (3839 : BitVec 32).toNat + 256 < 4096 * (io 0x01).nlb ∧
    (pairC { io 0x02 with fwdTo := some 1 }).ctx? 1 = some { io 0x02 with fwdTo := some 1 } ∧ (io 0x02).admin = false ∧ (io 0x02).st ≠ .held ∧
    (pairC { io 0x01 with origin := some (1, 7) }).ownerCtx 1 7 = some 1 ∧ (pairC { io 0x01 with origin := some (1, 7) }).abortable 1 = true ∧
    ({ adm 0x08 1 0 with run := true } : Ctx).awaitsAres = true ∧ (pair.hear 1).rd Fd.CFX_VERSION_VER ≤ (0 : BitVec 64).toNat ∧
    (0 : BitVec 64).toNat < ((pair.wr Fd.CFX_VERSION_VER 1).hear 1).rd Fd.CFX_VERSION_VER ∧
    (1 : BitVec 64).toNat ≠ (pair.hear 1).rd Fd.CFX_VERSION_VER := by decide +kernel
theorem wit_fwd : (State.takeCtxs (((pair.hear 1).updPeer 1 fun q => { q with fwdFrom := q.fwdFrom + 1 }).hput fun h => { h with fetches := h.fetches + 1 })
    (Ctx.fresh (List.replicate 16 0) 0xFF 0 .high 5000 0 (some (1, 7))) [(0, 1)]).2.isSome = true := by decide +kernel

/-- A pending interrupt of the Stage for the watch core. -/
def irq : State := base [(Fd.STG_INT_DRAINED, 1), (Fd.STG_INTEN_EN, 1), (Fd.IRT_SRC_PRIO 3, 1), (Fd.IRT_SRC_TARGET 3, 4)]

theorem wit_InterruptsAct : Requester.core? .watch = some 4 ∧ irq.claimable 4 = some 3 ∧ (base []).claimable 4 = none ∧
    Requester.core? .manager ≠ some 4 ∧ Requester.manager ≠ Requester.watch := by decide +kernel

theorem wit_TrustActs : (base []).trust.iroot = none ∧ ({ base [] with trust := { TrustUnit.reset with iroot := some [] } } : State).trust.iroot = some [] ∧
    (base [(Fd.TRU_RANGE_CFG_RLCK 1, 1)]).on (Fd.TRU_RANGE_CFG_RLCK 1) = true ∧ (base [(Fd.TRU_RANGE_CFG_RLCK 1, 1)]).mayUnlock 1 = false ∧
    ({ base [(Fd.TRU_STATUS_SESSION, 1)] with trust := { TrustUnit.reset with session := .openLocking 2 } } : State).mayUnlock 1 = true ∧
    (base []).nsZoned 5 = false ∧ ((base []).geometries 64).any (fun g => g.1 == 5 && g.2.1 < 0 + 10 && 0 < g.2.1 + g.2.2) = false ∧
    ((base [(Fd.TRU_RANGE_CFG_DEFINED 2, 1), (Fd.TRU_RANGE_CFG_NS 2, 5), (Fd.TRU_RANGE_START_LBA 2, 9), (Fd.TRU_RANGE_LEN_BLOCKS 2, 1)]).geometries 64).any
      (fun g => g.1 == 5 && g.2.1 < 0 + 10 && 0 < g.2.1 + g.2.2) = true ∧
    (base [(Fd.TRU_STATUS_SESSION, 1)]).on Fd.TRU_STATUS_SESSION = true ∧
    ({ base [] with trust := { TrustUnit.reset with session := .openAdmin } } : State).trust.session = .openAdmin := by decide +kernel

/-! Start and power, registers and memory, and the machine as a whole. -/

/-- A machine in a phase of its start, out of P0. -/
def phase (p : Nat) : State := { base [(Fd.HSK_START_PHASE, p)] with power := { PowerUnit.reset with p0 := false, rails := true, released := true } }

theorem wit_StartAndPowerAct : (base []).power.p0 = true ∧ (base []).power.rstLow = false ∧ (phase 1).power.p0 = false ∧
    (phase 1).rd Fd.HSK_START_PHASE = 1 ∧ (phase 2).hsk.refclk = true ∧ (phase 4).power.released = true ∧
    ((phase 4).wr Fd.INT_CTL_X4 1).on Fd.INT_CTL_X4 = true ∧
    ((({ (phase 4).wr Fd.INT_CTL_X4 1 with power := { (phase 4).power with released := false } } : State).wr (Fd.PORT_PCTL_EN 0) 1).on
      Fd.MEM_STATUS_DFAIL) = false ∧
    ((({ (phase 4).wr Fd.INT_CTL_X4 1 with power := { (phase 4).power with released := false } } : State).wr (Fd.PORT_PCTL_EN 0) 1).loadCounters).2 = true ∧
    (phase 2).flying = false ∧ (phase 2).mayDeclare = true ∧ (phase 2).on Fd.HSK_PLSTAT_DECL = false ∧
    ({ base [] with power := { PowerUnit.reset with rstLow := true, rails := true } } : State).power.rstLow = true ∧
    ((phase 2).wr Fd.HSK_PLSTAT_ARMED 1).on Fd.HSK_PLSTAT_ARMED = true := by decide +kernel
theorem wit_dipRestart : ((phase 2).wrs [(Fd.HSK_PLSTAT_DECL, 1), (Fd.HSK_PLSTAT_PARKED, 1), (Fd.HSK_PLCFG_DIPREC, 1)]).on Fd.HSK_PLSTAT_DECL = true ∧
    ((phase 2).wrs [(Fd.HSK_PLSTAT_DECL, 1), (Fd.HSK_PLSTAT_PARKED, 1), (Fd.HSK_PLCFG_DIPREC, 1)]).on Fd.HSK_PLSTAT_PARKED = true ∧
    ((phase 2).wrs [(Fd.HSK_PLSTAT_DECL, 1), (Fd.HSK_PLSTAT_PARKED, 1), (Fd.HSK_PLCFG_DIPREC, 1)]).on Fd.HSK_PLCFG_DIPREC = true := by decide +kernel

theorem wit_RegisterAccessesComplete : (base [(Fd.SLOT_STATE_STATE 6 0, 5)]).waits 6 0 = true ∧ (base []).waits 6 0 = false ∧ accessOk 6 2 4 = false ∧
    accessOk 6 0 8 = false ∧ accessOk 6 0 4 = true ∧ accessOk 63 0 4 = true ∧ registerAt 63 0 = [] ∧ registerAt 6 0 ≠ [] ∧ inSlot 6 0 = false ∧
    (base []).refusesWrite .manager 6 0 = none ∧ ((base []).refusesWrite .manager 5 0x8000).isSome = true ∧ (base []).waits 5 0x8000 = false ∧
    accessOk 5 0x8000 4 = true ∧ registerAt 5 0x8000 ≠ [] ∧ inSlot 5 0x8000 = false ∧ accessOk 6 0xFFE0 4 = true ∧ registerAt 6 0xFFE0 ≠ [] ∧
    inSlot 6 0xFFE0 = true ∧ slotUnit 6 (slotOf 0xFFE0) = some .stage ∧ (base []).waits 6 0xFFE0 = false ∧ freeRead 6 0 = false := by decide +kernel
theorem wit_FieldsStoredByType : (registerAt 6 0).Pairwise (fun x y => x.fd.key ≠ y.fd.key) ∧
    ((registerAt 6 32).any fun x => x.own == false && x.acc == .w1c) = true ∧ ((registerAt 6 0x10).any fun x => x.own == false && x.acc == .rw) = true ∧
    ((registerAt 6 0).any fun x => x.acc == .ro) = true := by decide +kernel
theorem wit_MemoryWriteStoresBytes : symCount ((base []).err 0x1000000000) 0 20 ≤ 1 ∧
    symCount (({ base [] with memc := { MemUnit.reset with errs := [(0x1000000000, 0xF)] } } : State).err 0x1000000000) 0 20 = 1 ∧
    popCount (({ base [] with memc := { MemUnit.reset with errs := [(0x1000000000, 0x11)] } } : State).err 0x1000000000) 0 80 = 2 := by decide +kernel
theorem wit_registerWrites : (base []).rd Fd.STG_CTL_STATE = 0 ∧ (base [(Fd.STG_CTL_STATE, 1)]).rd Fd.STG_CTL_STATE ≠ 0 ∧
    (base [(Fd.STG_CTL_STATE, 1)]).rd Fd.STG_CTL_MODE < 2 ∧ (base []).waits 20 0x208 = false ∧ bits (0x7B : BitVec 64).toNat 0 8 = 0x7B ∧
    0x7B < bits (0x7C : BitVec 64).toNat 0 8 := by decide +kernel
theorem wit_CheckpointRecords : ((alone.slotAt 0 0 (alone.pslot 0 0).arch.onward).current 0 0) = none ∧
    ((alone.record 0 0).slotAt 0 0 ((alone.record 0 0).pslot 0 0).arch.onward).current 0 0 = some (0, 1) := by decide +kernel
theorem wit_record_sole : (alone.record 0 0).sole 0 0 := by unfold State.sole; decide +kernel
theorem wit_StepKeepsSound : State.reset.sound = true ∧ State.reset.pending = [] := by decide +kernel
theorem wit_exec : exec .calGo State.reset = .next (State.reset.wr Fd.CAL_STATUS_PEND 1) := rfl
theorem wit_CurveValue : ascends SpinUnit.reset.curve = true ∧ SpinUnit.reset.curve ≠ [] ∧ SpinUnit.reset.curve.getD 3 (0, 0) = (51, 3600) ∧
    SpinUnit.reset.curve.getD 4 (0, 0) = (68, 3900) := by decide +kernel

theorem wit_SlotLayout : (Sector.payload ⟨1, 2, 3, 4, 5, true, true, true, true, 1⟩).length = 4128 ∧
    (Sector.payload ⟨1, 2, 3, 4, 5, true, true, true, true, 1⟩).all (· < 256) = true := by decide +kernel

/-- `hosted` with an SQ of one class that holds an entry. -/
def asking (q : Nat) (cls : CtxClass) : State := hosted.ctrlUpd 0 fun c => { c with sqs := [(q, ⟨0, 2, cls, 1, 0, 1⟩)] }

theorem wit_ArbitrationGrants : ((asking 0 .admin).wanting 0).any (fun p => p.1 == 0) = true ∧ ((asking 1 .urgent).wanting 0).any (fun p => p.1 == 0) = false ∧
    ((asking 1 .urgent).wanting 0).any (fun p => p.2 == CtxClass.urgent) = true ∧ (asking 1 .high).host.arb.cur = none ∧
    (asking 1 .high).choose 0 = some 1 ∧ (asking 1 .high).choose 1 = none ∧ (asking 1 .high).host.arb.last = 1 ∧
    ((asking 1 .high).hput fun h => { h with arb := { h.arb with last := 0 } }).choose (1 - 0) = none ∧ (base []).wanting 0 = [] ∧ (base []).wanting 1 = [] := by
  decide +kernel
theorem wit_ovp : (spun [(Fd.SPN_STATUS_STATE, 8)] fun x => { x with ovp := true, after := .listen }).spn = 8 ∧
    (spun [(Fd.SPN_STATUS_STATE, 8)] fun x => { x with ovp := true, after := .listen }).spin.ovp = true ∧
    (spun [(Fd.SPN_STATUS_STATE, 8)] fun x => { x with ovp := true, after := .listen }).spin.after = .listen := by decide +kernel

/-! ### Ill-formed commands are refused -/

theorem wf_registerWrite_size : Instr.wf (.registerWrite .watch 6 0 3 0) = false := by decide
theorem wf_registerWrite_aligned : Instr.wf (.registerWrite .watch 6 2 4 0) = false ∧ Instr.wf (.registerWrite .watch 6 4 8 0) = false := by decide
theorem wf_registerWrite_value : Instr.wf (.registerWrite .watch 6 0 4 0x100000000) = false ∧ Instr.wf (.registerWrite .watch 6 0 4 0xFFFFFFFF) = true := by
  decide
theorem wf_registerReadClear : Instr.wf (.registerReadClear .watch 6 2 4) = false ∧ Instr.wf (.registerReadClear .watch 6 8 8) = true := by decide
theorem wf_decodeAttemptDone : Instr.wf (.decodeAttemptDone 0 0 (List.replicate 24 0) ⟨true, true, 0⟩ none) = false ∧
    Instr.wf (.decodeAttemptDone 0 0 (List.replicate 25 0) ⟨true, true, 0⟩ none) = true := by decide
theorem wf_inlineDeadline : Instr.wf (.inlineDeadline 0 []) = false ∧ Instr.wf (.inlineDeadline 0 (List.replicate 25 0)) = true := by decide
theorem wf_averagingPass : Instr.wf (.averagingPass 0 [1] ⟨true, true, 0⟩ none) = false ∧
    Instr.wf (.averagingPass 0 (List.replicate 25 0) ⟨true, true, 0⟩ none) = true := by decide
theorem wf_journalRecordIssue : Instr.wf (.journalRecordIssue ⟨0, 0, 0, 0, 0⟩) = false ∧ Instr.wf (.journalRecordIssue ⟨9, 0, 0, 0, 0⟩) = false ∧
    Instr.wf (.journalRecordIssue ⟨1, 256, 0, 0, 0⟩) = false ∧ Instr.wf (.journalRecordIssue ⟨1, 0, 0x100000, 0, 0⟩) = false ∧
    Instr.wf (.journalRecordIssue ⟨1, 0, 0, 0x100000000, 0⟩) = false ∧ Instr.wf (.journalRecordIssue ⟨1, 0, 0, 0, 0x100000000⟩) = false ∧
    Instr.wf (.journalRecordIssue ⟨8, 255, 0xFFFFF, 0xFFFFFFFF, 0xFFFFFFFF⟩) = true := by decide
theorem wf_sqFetch : Instr.wf (.sqFetch 0 0 (List.replicate 15 0)) = false ∧ Instr.wf (.sqFetch 0 0 (List.replicate 16 0)) = true := by decide
theorem wf_fwd : Instr.wf (.fwd 1 0 0 0 (List.replicate 17 0)) = false := by decide
theorem wf_firmwareImageDownload : Instr.wf (.firmwareImageDownload 0 [1, 2, 3]) = false ∧ Instr.wf (.firmwareImageDownload 0 [1, 2, 3, 4]) = true := by
  decide
theorem wf_stageRequest : Instr.wf (.stageRequest 0 0 0 none 0) = false ∧ Instr.wf (.stageRequest 0 0 2 (some [1]) 0) = false ∧
    Instr.wf (.stageRequest 0 0 1 (some [1]) 0) = true := by decide
theorem wf_memRead : Instr.wf (.memRead 0 0 0 0) = false ∧ Instr.wf (.memRead 0 0 256 0) = true := by decide
theorem wf_portLinkUp : Instr.wf (.portLinkUp 0 0 1) = false ∧ Instr.wf (.portLinkUp 0 6 1) = false ∧ Instr.wf (.portLinkUp 0 5 3) = false ∧
    Instr.wf (.portLinkUp 0 5 4) = true := by decide
theorem wf_hskRoundPublish : Instr.wf (.hskRoundPublish (List.replicate 23 0) false) = false ∧
    Instr.wf (.hskRoundPublish (List.replicate 24 0) false) = true := by decide

/-! ### One step on a small state; expected results from the spec's rules by hand -/

/-- The next state, where there is one. -/
def out : Host.Outcome State Fault Refusal → Option State
  | .next t => some t
  | _ => none

/-- Whether the next state has a property; false where there is none. -/
def gives (o : Host.Outcome State Fault Refusal) (p : State → Bool) : Bool := (out o).any p

/-- The words of the worked example of 03, and two of its format Z. -/
theorem test_fetched : fetched 0 0 0x44800000 = .ldi 0 0 2 0 ∧ fetched 0 0 0x48803B34 = .ldh 0 0 2 0 0x3B34 ∧
    fetched 0 0 0x489096B4 = .ldh 0 0 2 1 0x96B4 ∧ fetched 0 0 0x42020000 = .mov 0 0 16 2 ∧ fetched 0 0 0xB0C00000 = .buf 0 0 3 false ∧
    fetched 0 0 0x44400010 = .ldi 0 0 1 16 ∧ fetched 0 0 0x42410000 = .mov 0 0 18 1 ∧ fetched 0 0 0x84000000 = .wrs 0 0 ∧
    fetched 0 0 0 = .halt 0 0 ∧ fetched 0 0 0x84000001 = .illegalInstruction 0 0 0x84000001 := by decide +kernel
/-- Words written out from Table 03.23: ADD W1, W2, -1; RDS with each of its fields at 1; SIG of signal 7 at target 4; SETTLE of set 3. -/
theorem test_fetched_fields : fetched 1 2 (0b001000_0001_0010_1_11111111111111111#32) = .add 1 2 1 2 (.imm 0x1FFFF) ∧
    fetched 1 2 (0b100000_001_01_001_1_0_1_0_00000000000000#32) = .rds 1 2 1 1 1 true false true false ∧
    fetched 1 2 (0b110010_100_111_00000000000000000000#32) = .sig 1 2 4 7 ∧
    fetched 1 2 (0b011011_11_0000_00000000000000000101#32) = .settle 1 2 3 5 := by decide +kernel
/-- R106: 2^64 − 1 plus 1 is 0 with a carry. -/
theorem test_add_carries : gives (exec (.add 0 0 2 1 (.imm 1)) (aloneW 1 0xFFFFFFFFFFFFFFFF)) (fun t =>
    (t.pslot 0 0).arch.reg 2 == 0 && (t.pslot 0 0).arch.c && (t.pslot 0 0).arch.z && !(t.pslot 0 0).arch.n && (t.pslot 0 0).arch.pc == 0x14004) = true := by
  decide +kernel
/-- R106: 0 minus 1 borrows, so that C is 0, and N is 1. -/
theorem test_sub_borrows : gives (exec (.sub 0 0 2 1 (.imm 1)) alone) (fun t =>
    (t.pslot 0 0).arch.reg 2 == 0xFFFFFFFFFFFFFFFF && !(t.pslot 0 0).arch.c && (t.pslot 0 0).arch.n) = true := by decide +kernel
/-- R106: a shift by 64 is one by 0, which sets C to 0. -/
theorem test_shl_by_64 : gives (exec (.shl 0 0 1 1 (.imm 64)) (aloneW 1 0x8000000000000001)) (fun t =>
    (t.pslot 0 0).arch.reg 1 == 0x8000000000000001 && !(t.pslot 0 0).arch.c) = true := by decide +kernel
theorem test_shr_last_bit : gives (exec (.shr 0 0 1 1 (.imm 1)) (aloneW 1 3)) (fun t =>
    (t.pslot 0 0).arch.reg 1 == 1 && (t.pslot 0 0).arch.c) = true := by decide +kernel
theorem test_cmp_writes_no_register : gives (exec (.cmp 0 0 1 (.imm 3)) (aloneW 1 3)) (fun t =>
    (t.pslot 0 0).arch.reg 1 == 3 && (t.pslot 0 0).arch.z && (t.pslot 0 0).arch.c) = true := by decide +kernel
theorem test_ldi_signed : gives (exec (.ldi 0 0 3 0x3FFFFF) alone) (fun t => (t.pslot 0 0).arch.reg 3 == 0xFFFFFFFFFFFFFFFF) = true := by decide +kernel
theorem test_ldh_one_halfword : gives (exec (.ldh 0 0 1 3 0xABCD) (aloneW 1 0x1111222233334444)) (fun t =>
    (t.pslot 0 0).arch.reg 1 == 0xABCD222233334444) = true := by decide +kernel
theorem test_call_pushes : gives (exec (.call 0 0 4) alone) (fun t => (t.pslot 0 0).arch.pc == 0x14010 && (t.pslot 0 0).arch.stack == [0x14004]) = true := by
  decide +kernel
theorem test_ret_empty_traps : gives (exec (.ret 0 0) alone) (fun t => (t.pslot 0 0).st == .trapped && (t.pslot 0 0).trap == 0xFF04) = true := by
  decide +kernel
theorem test_mov_bp_traps : gives (exec (.mov 0 0 17 1) alone) (fun t => (t.pslot 0 0).trap == 0xFF05) = true := by decide +kernel
theorem test_st_little_endian : gives (exec (.st 0 0 1 2 0x14000) (aloneW 1 0x0102030405060708)) (fun t =>
    tget 0 t.mem (wmem 0 + 0x14000) == 8 && tget 0 t.mem (wmem 0 + 0x14007) == 1) = true := by decide +kernel
/-- The check value of CRC-32C over the digits 1 to 9. -/
theorem test_crc32c : crc32c [0x31, 0x32, 0x33, 0x34, 0x35, 0x36, 0x37, 0x38, 0x39] = 0xE3069283 := by decide +kernel
/-- R55: the Gray codes of 2 and 3 are 3 and 2. -/
theorem test_gray : ungray 3 0 20 = 2 ∧ ungray 2 0 20 = 3 ∧ ungray 0x80000 0 20 = 0xFFFFF := by decide +kernel
/-- R468: 3,600 rpm at 51, 3,617 at 52 (3,600 + 300/17), 7,200 at 255. -/
theorem test_curve : curveAt 51 SpinUnit.reset.curve = 3600 ∧ curveAt 52 SpinUnit.reset.curve = 3617 ∧ curveAt 255 SpinUnit.reset.curve = 7200 := by
  decide +kernel
/-- R468: on a falling stretch the value, not the fall, is truncated: 5,000 − 1/2 gives 4,999. -/
theorem test_curve_falls : curveAt 1 [(0, 5000), (2, 4999)] = 4999 := by decide +kernel
theorem test_off_track_limit : gives (exec (.registerWrite .watch 20 0x208 4 0xFF) (base [])) (fun t => t.rd (Fd.CHN_WINH_OT_LIM 0) == 0x7B) = true := by
  decide +kernel
/-- R371: with the Stage on, MODE keeps its value and MODEREF is set. -/
theorem test_stage_mode : gives (exec (.registerWrite .watch 6 0 4 2) (base [(Fd.STG_CTL_STATE, 1)])) (fun t =>
    t.rd Fd.STG_CTL_MODE == 0 && t.rd Fd.STG_INT_MODEREF == 1) = true := by decide +kernel
theorem test_reserved_reads_0 : gives (exec (.registerReadClear .watch 63 0 4) (base [])) (fun t => t.answer == [⟨false, 0⟩]) = true := by decide +kernel
theorem test_misaligned_access : gives (exec (.registerReadClear .watch 6 2 4) (base [])) (fun t => t.answer.any Answer.busError) = true := by decide +kernel
/-- R434: a queue of one item of one word gives it with FIRST and LAST. -/
theorem test_bkwPop_empty : gives (exec (.bkwPop 0 false) (base [])) (fun t => t.rd (Fd.BKW_QSTAT_TAG 0) == 16 && t.answer == [⟨false, 0⟩]) = true := by
  decide +kernel
theorem test_bkwPushl : gives (exec (.bkwPushl 0 7) (base [(Fd.BKW_CTL_EN, 1)])) (fun t => (t.queue 0).head == [⟨7, true, true, false, false⟩]) = true := by
  decide +kernel
theorem test_memWrite_enables : gives (exec (.memWrite 0x1000000000 0x0102030405060708 0x01) (base [])) (fun t =>
    tget 0 t.mem 0x8000000000 == 8 && tget 0 t.mem 0x8000000001 == 0) = true := by decide +kernel
theorem test_memWrite_unmapped : gives (exec (.memWrite 0 1 0xFF) (base [])) (fun t => t.answer.any Answer.busError && t.mem == []) = true := by
  decide +kernel
theorem test_sqDoorbell : gives (exec (.sqDoorbell 0 1 1) hosted) (fun t => (t.sq? 0 1).any fun q => q.tail == 1) = true := by decide +kernel
theorem test_claim_by_another_core : gives (exec (.claimRead .manager 4) irq) (fun t => t.answer == [⟨false, 0x8000⟩]) = true := by decide +kernel
theorem test_claim : gives (exec (.claimRead .watch 4) irq) (fun t => t.answer == [⟨false, 3⟩] && t.rd (Fd.IRT_SRC_ACTIVE 3) == 1) = true := by decide +kernel
theorem test_irootCommit_once : gives (exec (.irootCommit .manager) (base [])) (fun t => t.trust.iroot.isNone) = true := by decide +kernel
/-- R470, R480: a new target with an actuator loaded is held. -/
theorem test_target_held : gives (exec .targetChange (base [(Fd.SPN_STATUS_ON, 1), (Fd.SPN_CTL_EN, 1), (Fd.SRV_CTL_FITTED 0, 1), (Fd.SRV_STATUS_MODE 0, 2)]))
    (fun t => t.spin.held == some 3600 && t.rd Fd.SPN_TARGET_RPM == 0 && t.rd Fd.SPN_INT_PARKREQ == 1) = true := by decide +kernel
theorem test_idle_step : gives (step State.reset) (fun t => t.time == 1) = true := by decide +kernel
theorem test_front_first : gives (step { State.reset with pending := [.calGo, .evrClear] }) (fun t =>
    t.pending == [.evrClear] && t.rd Fd.CAL_STATUS_PEND == 1) = true := by decide +kernel
theorem test_no_bits : decodeTableWord 32 0 = none ∧ State.reset.withFetchWord 32 0 = State.reset := ⟨rfl, rfl⟩

end Sys2Proof.Tests
end

section
/-! PROOF. The Gray code of a bank number (R55): what `ungray` answers, bit by bit, and that it inverts the code. -/

namespace Sys2Proof.Machine

theorem bit_eq_testBit (v i : Nat) : bit v i = v.testBit i := by
  rw [Nat.testBit_eq_decide_div_mod_eq]
  rfl

theorem b2n_eq_toNat (b : Bool) : b2n b = b.toNat := by
  cases b <;> rfl

/-- Below a bit `p` of the bank number, the next bit is `p` XOR the Gray bit, and decoding goes on below that. -/
theorem ungray_succ (g n : Nat) (p : Bool) :
    ungray g p.toNat (n + 1) = 2 ^ n * (p ^^ g.testBit n).toNat + ungray g (p ^^ g.testBit n).toNat n := by
  have hbit : p.toNat ^^^ b2n (bit g n) = (p ^^ g.testBit n).toNat := by
    rw [bit_eq_testBit, b2n_eq_toNat]
    cases p <;> cases g.testBit n <;> rfl
  simp only [ungray, hbit, Nat.mul_comm]

theorem ungray_lt_two_pow (g n : Nat) (p : Bool) : ungray g p.toNat n < 2 ^ n := by
  induction n generalizing p with
  | zero => exact Nat.one_pos
  | succ n ih =>
    rw [ungray_succ, Nat.pow_succ]
    have hlow := ih (p ^^ g.testBit n)
    have htop := Nat.mul_le_mul_left (2 ^ n) (Bool.toNat_le (p ^^ g.testBit n))
    omega

/-- The bits of a decoded word under the bit `p` above it. -/
theorem testBit_two_pow_mul_add_ungray (g n i : Nat) (p : Bool) :
    (2 ^ n * p.toNat + ungray g p.toNat n).testBit i =
      if i < n then (ungray g p.toNat n).testBit i else p.toNat.testBit (i - n) :=
  Nat.testBit_two_pow_mul_add p.toNat (ungray_lt_two_pow g n p) i

/-- The first bit decoded is the bit above it XOR its Gray bit. -/
theorem testBit_ungray_top (g n : Nat) (p : Bool) : (ungray g p.toNat (n + 1)).testBit n = (p ^^ g.testBit n) := by
  rw [ungray_succ, testBit_two_pow_mul_add_ungray]
  cases p ^^ g.testBit n <;> simp

/-- Every lower bit is the decoded bit above it XOR its own Gray bit (R55). -/
theorem testBit_ungray_below (g n : Nat) (p : Bool) {i : Nat} (hi : i < n) :
    (ungray g p.toNat (n + 1)).testBit i = ((ungray g p.toNat (n + 1)).testBit (i + 1) ^^ g.testBit i) := by
  induction n generalizing p with
  | zero => exact absurd hi (Nat.not_lt_zero i)
  | succ n ih =>
    have hlower : ∀ j < n + 1, (ungray g p.toNat (n + 2)).testBit j =
        (ungray g (p ^^ g.testBit (n + 1)).toNat (n + 1)).testBit j := fun j hj => by
      rw [ungray_succ, testBit_two_pow_mul_add_ungray, if_pos hj]
    rw [hlower i hi]
    obtain hlt | rfl := Nat.lt_succ_iff_lt_or_eq.mp hi
    · rw [hlower (i + 1) (Nat.succ_lt_succ hlt), ih _ hlt]
    · rw [testBit_ungray_top, testBit_ungray_top]

/-- Decoding `n` bits of a Gray code under the number's own bit `n` gives the number's low `n` bits. -/
theorem ungray_gray (b n : Nat) : ungray (b ^^^ (b >>> 1)) (b.testBit n).toNat n = b % 2 ^ n := by
  induction n with
  | zero => rw [Nat.pow_zero, Nat.mod_one]; rfl
  | succ n ih =>
    have hbit : (b.testBit (n + 1) ^^ (b ^^^ (b >>> 1)).testBit n) = b.testBit n := by
      rw [Nat.testBit_xor, Nat.testBit_shiftRight, Nat.add_comm 1 n, Bool.xor_comm, Bool.xor_assoc, Bool.xor_self, Bool.xor_false]
    rw [ungray_succ, hbit, ih, Nat.toNat_testBit, Nat.mod_pow_succ, Nat.add_comm]

end Sys2Proof.Machine

open Sys2Proof.Machine

/-- Settles O51: `ungray` inverts the Gray code, since each decoded bit cancels the number's next higher bit out of the code; and the word that it
answers has the bits that R55 gives, bit 19 first. -/
theorem grayCodeDecodes : Obligations.GrayCodeDecodes := by
  refine ⟨fun b => ?_, fun g => ⟨ungray_lt_two_pow g.toNat 20 false, ?_, fun i hi => testBit_ungray_below g.toNat 19 false hi⟩⟩
  · have hdecode := ungray_gray b.toNat 20
    rw [Nat.testBit_lt_two_pow b.isLt, Nat.mod_eq_of_lt b.isLt] at hdecode
    rw [BitVec.toNat_xor, BitVec.toNat_ushiftRight]
    exact hdecode
  · exact (testBit_ungray_top g.toNat 19 false).trans (Bool.false_xor _)

end

section
/-! PROOF. Arithmetic and logic of the slot that runs alone (R106): what each writes, and the flags that it sets. -/

namespace Sys2Proof.Machine

variable {s : State} {n k : Fin 4}

/-- An arithmetic instruction that keeps its result writes it to `W[d]`, and C as `f` gives it. -/
theorem alu_some_sole (h : s.sole n k) (d a : Fin 16) (o : Op2) (f : BitVec 64 → BitVec 64 → BitVec 64 × Bool) :
    s.alu n k a o f (some d) =
      let w := (s.pslot n k).arch
      let r := f (w.reg a) (w.op2 o)
      .next (s.slotAt n k ((w.setReg d r.1).setFlags r.1 r.2).onward) :=
  (instr_sole h _).trans (congrArg _ (complete_sole h _))

/-- An arithmetic instruction that discards its result sets the flags alone. -/
theorem alu_none_sole (h : s.sole n k) (a : Fin 16) (o : Op2) (f : BitVec 64 → BitVec 64 → BitVec 64 × Bool) :
    s.alu n k a o f none =
      let w := (s.pslot n k).arch
      let r := f (w.reg a) (w.op2 o)
      .next (s.slotAt n k (w.setFlags r.1 r.2).onward) :=
  (instr_sole h _).trans (congrArg _ (complete_sole h _))

theorem bit_toNat (x : BitVec 64) (i : Nat) : bit x.toNat i = x.getLsbD i :=
  bit_eq_testBit x.toNat i

theorem carryShl_eq_getLsbD (x : BitVec 64) (j : Nat) : carryShl x j = (j != 0 && x.getLsbD (64 - j)) :=
  congrArg _ (bit_toNat x (64 - j))

theorem carryShr_eq_getLsbD (x : BitVec 64) (j : Nat) : carryShr x j = (j != 0 && x.getLsbD (j - 1)) :=
  congrArg _ (bit_toNat x (j - 1))

end Sys2Proof.Machine

open Sys2Proof.Machine

/-- Settles O2: all eight are one shared operation of the slot that runs alone, so each clause is that operation at the instruction's own function;
the shifts' C is read off as a bit of the word. -/
theorem arithmeticCompletes : Obligations.ArithmeticCompletes := by
  intro s n k d a o h
  refine ⟨?add, ?sub, ?and, ?or, ?xor, ?shl, ?shr, ?cmp⟩
  case add => exact alu_some_sole h d a o fun x y => (x + y, carryAdd x y)
  case sub => exact alu_some_sole h d a o fun x y => (x - y, carrySub x y)
  case and => exact alu_some_sole h d a o fun x y => (x &&& y, false)
  case or => exact alu_some_sole h d a o fun x y => (x ||| y, false)
  case xor => exact alu_some_sole h d a o fun x y => (x ^^^ y, false)
  case shl =>
    simp only [← carryShl_eq_getLsbD]
    exact alu_some_sole h d a o fun x y => (x <<< (y.toNat % 64), carryShl x (y.toNat % 64))
  case shr =>
    simp only [← carryShr_eq_getLsbD]
    exact alu_some_sole h d a o fun x y => (x >>> (y.toNat % 64), carryShr x (y.toNat % 64))
  case cmp => exact alu_none_sole h a o fun x y => (x - y, carrySub x y)

end

section
/-! PROOF. MOV's register codes (R104, Table 03.24): what each code reads and writes, which codes trap, and MOV of the slot that runs alone. -/

namespace Sys2Proof.Machine

section Codes

variable (s : State) (n : Fin 4) (w : Arch) (v : BitVec 64) {c : Fin 32}

/-- Codes 0 to 15 read W0 to W15. -/
theorem movSrc_reg {a : Fin 16} (hc : c.val = a.val) : s.movSrc n w c = some (w.reg a) := by
  simp only [State.movSrc, hc, a.isLt, dite_true]

theorem movSrc_tp : s.movSrc n w 16 = some w.tp := rfl

theorem movSrc_bp : s.movSrc n w 17 = some (BitVec.ofNat 64 w.bpWord) := rfl

theorem movSrc_cn : s.movSrc n w 18 = some w.cn := rfl

theorem movSrc_st : s.movSrc n w 19 = some (BitVec.ofNat 64 w.stWord) := rfl

theorem movSrc_fl : s.movSrc n w 20 = some (BitVec.ofNat 64 (s.flWord n w)) := rfl

/-- The codes above FL are reserved as sources. -/
theorem movSrc_reserved (hc : 21 ≤ c.val) : s.movSrc n w c = none := by
  unfold State.movSrc
  rw [dif_neg (by omega), if_neg (by omega), if_neg (by omega), if_neg (by omega), if_neg (by omega), if_neg (by omega)]

/-- Codes 0 to 15 write W0 to W15. -/
theorem movDst_reg {d : Fin 16} (hc : c.val = d.val) : w.movDst c v = some (w.setReg d v) := by
  simp only [Arch.movDst, hc, d.isLt, dite_true]

theorem movDst_tp : w.movDst 16 v = some { w with tp := v } := rfl

theorem movDst_cn : w.movDst 18 v = some { w with cn := v } := rfl

/-- ST takes CODE with Z, and a FAILS of 0 empties the failure list. -/
theorem movDst_st : w.movDst 19 v = some { w with
    code := v.toNat % 256, z := v.toNat % 256 == 0, nfails := if v.toNat / 256 % 256 = 0 then 0 else w.nfails } := by
  have hcode : bits v.toNat 0 8 = v.toNat % 256 := congrArg (· % 256) (Nat.div_one v.toNat)
  have hst : w.movDst 19 v = some (if v.toNat / 256 % 256 = 0 then { w.setCode (bits v.toNat 0 8) with nfails := 0 }
    else w.setCode (bits v.toNat 0 8)) := rfl
  rw [hst, hcode]
  split <;> rfl

/-- BP, FL and the codes above it are no destinations. -/
theorem movDst_reserved (hc : c = 17 ∨ 20 ≤ c.val) : w.movDst c v = none := by
  obtain rfl | hc := hc
  · rfl
  · unfold Arch.movDst
    rw [dif_neg (by omega), if_neg (by omega), if_neg (by omega), if_neg (by omega)]

end Codes

variable {s : State} {n k : Fin 4} {dst src : Fin 32}

theorem exec_mov_eq (s : State) (n k : Fin 4) (dst src : Fin 32) : exec (.mov n k dst src) s = execMov n k dst src s := rfl

/-- MOV between two codes that do not trap takes the source's value to the destination, and ends. -/
theorem exec_mov_sole (h : s.sole n k) {v : BitVec 64} {b : Arch} (hsrc : s.movSrc n (s.pslot n k).arch src = some v)
    (hdst : (s.pslot n k).arch.movDst dst v = some b) : exec (.mov n k dst src) s = .next (s.slotAt n k b.onward) := by
  rw [exec_mov_eq, execMov, instr_sole h]
  simp only [hsrc, Option.bind_some, hdst, complete_sole h]

/-- MOV from or to a code that traps is a trap with 0xFF05. -/
theorem exec_mov_trap_sole (h : s.sole n k)
    (hnone : ((s.movSrc n (s.pslot n k).arch src).bind fun v => (s.pslot n k).arch.movDst dst v) = none) :
    exec (.mov n k dst src) s =
      .next ((s.updSlot n k fun x => { x with st := .trapped, trap := 0xFF05, stopReq := false }).setB (Fd.RCH_INT_TRAP n) k.val) := by
  rw [exec_mov_eq, execMov, instr_sole h]
  simp only [hnone, trapSlot_sole h]

end Sys2Proof.Machine

open Sys2Proof.Machine

/-- Settles O55: MOV of the slot that runs alone is the value of its source code taken to its destination code, so each clause names the two codes'
meanings; a code without a meaning, on either side, leaves nothing to take, and MOV traps. -/
theorem movRegisterCodes : Obligations.MovRegisterCodes := by
  intro s n k dst src h
  refine ⟨?regReg, ?regTp, ?regBp, ?regCn, ?regSt, ?regFl, ?tpReg, ?cnReg, ?stReg, ?reserved⟩
  case regReg => exact fun d a hd ha => exec_mov_sole h (movSrc_reg s n _ ha) (movDst_reg _ _ hd)
  case regTp => rintro d hd rfl; exact exec_mov_sole h (movSrc_tp s n _) (movDst_reg _ _ hd)
  case regBp => rintro d hd rfl; exact exec_mov_sole h (movSrc_bp s n _) (movDst_reg _ _ hd)
  case regCn => rintro d hd rfl; exact exec_mov_sole h (movSrc_cn s n _) (movDst_reg _ _ hd)
  case regSt => rintro d hd rfl; exact exec_mov_sole h (movSrc_st s n _) (movDst_reg _ _ hd)
  case regFl => rintro d hd rfl; exact exec_mov_sole h (movSrc_fl s n _) (movDst_reg _ _ hd)
  case tpReg => rintro a rfl ha; exact exec_mov_sole h (movSrc_reg s n _ ha) (movDst_tp _ _)
  case cnReg => rintro a rfl ha; exact exec_mov_sole h (movSrc_reg s n _ ha) (movDst_cn _ _)
  case stReg => rintro a rfl ha; exact exec_mov_sole h (movSrc_reg s n _ ha) (movDst_st _ _)
  case reserved =>
    intro hcode
    apply exec_mov_trap_sole h
    obtain hdst | hdst | hsrc := hcode
    · simp only [movDst_reserved _ _ (.inl hdst), Option.bind_fun_none]
    · simp only [movDst_reserved _ _ (.inr hdst), Option.bind_fun_none]
    · rw [movSrc_reserved s n _ hsrc, Option.bind_none]

end

section
/-! PROOF. CKPT of the slot that runs alone (R133): where a record is written over the older copy (R99), and the end that records. -/

namespace Sys2Proof.Machine

variable {s : State} {n k : Fin 4}

theorem exec_ckpt_eq (s : State) (n k : Fin 4) : exec (.ckpt n k) s = execCkpt n k s := rfl

/-- With no record yet, the first one goes to the first copy. -/
theorem recordAs_first (a : Arch) (hc : s.current n k = none) :
    s.recordAs n k a = (s.stored (saveArea n k) (withChk (s.recordBody n 1 a))).updSlot n k fun x => { x with recFail := x.headFail } := by
  simp only [State.recordAs, hc, Nat.mul_zero, Nat.add_zero]

/-- With copy `c` current at SEQ `q`, the other copy takes the record at the next SEQ. -/
theorem recordAs_next (a : Arch) {c q : Nat} (hc : s.current n k = some (c, q)) :
    s.recordAs n k a = (s.stored (saveArea n k + 0x200 * (1 - c)) (withChk (s.recordBody n (q + 1) a))).updSlot n k
      fun x => { x with recFail := x.headFail } := by
  simp only [State.recordAs, hc]

/-- The architectural state of a slot put between two instructions. -/
theorem slotAt_pslot_arch (s : State) (n k : Fin 4) (a : Arch) : ((s.slotAt n k a).pslot n k).arch = a := by
  simp [State.slotAt]

/-- An instruction of the slot that runs alone ends with a record of its whole new state. -/
theorem completeRecord_sole (h : s.sole n k) (g : Arch → Arch) :
    let a := (g (s.pslot n k).arch).onward
    s.completeRecord n k g = ((s.slotAt n k a).recordAs n k a).dispatch n := by
  intro a
  have hend : (s.updSlot n k fun x => { x with
      op := none, st := s.between n k, stopReq := false, arch := (g x.arch).onward }) = s.slotAt n k a := by
    obtain ⟨hop, -⟩ := h.2.2 k
    apply updSlot_congr
    simp only [hop, a]
  have hrec : (s.slotAt n k a).record n k = (s.slotAt n k a).recordAs n k a := by
    rw [State.record, slotAt_pslot_arch]
  rw [← hrec, ← hend]
  rfl

end Sys2Proof.Machine

open Sys2Proof.Machine

/-- Settles O54: CKPT is the end of an instruction that records, and the current copy decides where the record goes and with which SEQ. -/
theorem checkpointRecords : Obligations.CheckpointRecords := by
  rintro s u n k a h rfl rfl
  rw [exec_ckpt_eq, execCkpt, instr_sole h, completeRecord_sole h]
  exact ⟨fun hc => by rw [recordAs_first _ hc], fun c q hc => by rw [recordAs_next _ hc]⟩

end

section
/-! PROOF. A write of CHN.WINH (R193): the one field of the register is stored by its rule, and the write acts on nothing else. -/

namespace Sys2Proof.Machine

theorem exec_registerWrite_eq (s : State) (r : Requester) (w : Fin 64) (off : Fin 65536) (z : Fin 9) (v : BitVec 64) :
    exec (.registerWrite r w off z v) s = .next (s.access ⟨r, w.val, off.val, z.val, v.toNat, false⟩) := rfl

/-- A write that neither waits nor is refused, to a register outside the management slots, is stored and acts. -/
theorem access_write_stored {s : State} {r : Requester} {w off size : Nat} (v : Nat) (hwaits : s.waits w off = false)
    (haccess : accessOk w off size = true) (hslot : inSlot w off = false) (htaken : s.refusesWrite r w off = none)
    (hfields : registerAt w off ≠ []) :
    s.access ⟨r, w, off, size, v, false⟩ = ((s.storeReg w off v (registerAt w off)).acts s r w off v).reply 0 := by
  simp [State.access, State.serveAccess, State.writeNow, hwaits, haccess, hslot, htaken, hfields]

/-- A register whose one field depends on other state takes the value that `State.specialValue` gives. -/
theorem storeReg_special (s : State) (w off v width : Nat) (f : Fld) :
    s.storeReg w off v [⟨f, width, .rw, .special, false⟩] = s.wr f (s.specialValue w off v (f.of v) f) := rfl

section Winh

variable (s : State) (n : Fin 4)

theorem inSlot_winh : inSlot (20 + n.val) 0x208 = false := by
  revert n; decide

theorem accessOk_winh : accessOk (20 + n.val) 0x208 4 = true := by
  simp [accessOk, registerAt_winh]

/-- The channels' windows are open to every requester. -/
theorem refusesWrite_channel {w : Nat} (r : Requester) (off : Nat) (hlo : 20 ≤ w) (hhi : w < 24) : s.refusesWrite r w off = none := by
  have hservo : ¬ 29 ≤ w := by omega
  have hne : ∀ m < 20, w ≠ m := by omega
  simp [State.refusesWrite, hservo, hne]

/-- OT_LIM is bits 7 to 0 of the word written. -/
theorem of_otLim (v : Nat) : (Fd.CHN_WINH_OT_LIM n.val).of v = bits v 0 8 := by
  fin_cases n <;> rfl

/-- OT_LIM ignores a 0 and is cut to 0x7B (R193). -/
theorem specialValue_winh (v x : Nat) (f : Fld) :
    s.specialValue (20 + n.val) 0x208 v x f = if x = 0 then s.rd f else min x 0x7B := by
  have hwindow : 20 ≤ 20 + n.val ∧ 20 + n.val < 24 := by omega
  simp [State.specialValue, hwindow]

/-- A write of WINH does nothing beyond what it stores. -/
theorem acts_winh (old : State) (r : Requester) (v : Nat) : s.acts old r (20 + n.val) 0x208 v = s := by
  have hengine : ¬ 20 + n.val < 20 := by omega
  have hwindow : 20 ≤ 20 + n.val ∧ 20 + n.val < 24 := by omega
  simp [State.acts, State.actsChn, hengine, hwindow]

end Winh

/-- A write of WINH changes OT_LIM alone, and answers. -/
theorem exec_winh_write {s : State} {n : Fin 4} (r : Requester) (v : BitVec 64) (hwaits : s.waits (20 + n.val) 0x208 = false) :
    let f := Fd.CHN_WINH_OT_LIM n
    let x := bits v.toNat 0 8
    exec (.registerWrite r ⟨20 + n.val, by omega⟩ 0x208 4 v) s = .next ((s.wr f (if x = 0 then s.rd f else min x 0x7B)).reply 0) := by
  have hfields : registerAt (20 + n.val) 0x208 ≠ [] := by rw [registerAt_winh]; exact List.cons_ne_nil _ _
  have htaken : s.refusesWrite r (20 + n.val) 0x208 = none := refusesWrite_channel s r 0x208 (by omega) (by omega)
  have hstored := access_write_stored v.toNat hwaits (accessOk_winh n) (inSlot_winh n) htaken hfields
  rw [acts_winh, registerAt_winh, storeReg_special, specialValue_winh, of_otLim] at hstored
  exact (exec_registerWrite_eq ..).trans (congrArg Host.Outcome.next hstored)

end Sys2Proof.Machine

open Sys2Proof.Machine

/-- Settles O53: a write of WINH stores the lesser of its OT_LIM and 0x7B where that is not 0, and the 8-bit field holds it whole. -/
theorem offTrackLimitBounded : Obligations.OffTrackLimitBounded := by
  intro s n r v hwaits
  refine ⟨_, exec_winh_write r v hwaits, fun hlo hhi => ?inRange, fun hover => ?above⟩
  case inRange =>
    have hfit : bits v.toNat 0 8 < 2 ^ (Fd.CHN_WINH_OT_LIM n).width := Nat.mod_lt _ (by decide)
    rw [reply_rd, wr_rd_same, if_neg (Nat.ne_of_gt hlo), Nat.min_eq_left hhi, Nat.mod_eq_of_lt hfit]
  case above =>
    rw [reply_rd, wr_rd_same, if_neg (Nat.ne_zero_of_lt hover), Nat.min_eq_right hover.le]
    rfl

end

section
/-! PROOF. A write of STG.CTL (R371): MODE is the one field stored, EN switches the Stage, and a MODE that is not taken sets MODEREF. -/

namespace Sys2Proof.Machine

section StgCtl

variable (s : State)

/-- Switching the Stage on or off changes no field other than EN and STATE (R385, R387). -/
theorem after_stageSwitch_rd {f : Fld} (hen : f.key ≠ Fd.STG_CTL_EN.key) (hstate : f.key ≠ Fd.STG_CTL_STATE.key) (on : Bool) :
    (if on then s.after (execStageEnable s) else s.after (execStageDisable s)).rd f = s.rd f := by
  have hwrEn (e : Nat) : (s.wr Fd.STG_CTL_EN e).rd f = s.rd f := wr_rd_other s e hen
  have hwrBoth (e x : Nat) : ((s.wr Fd.STG_CTL_EN e).wr Fd.STG_CTL_STATE x).rd f = s.rd f := (wr_rd_other _ x hstate).trans (hwrEn e)
  cases on with
  | true =>
    rw [if_pos rfl, execStageEnable]
    split_ifs
    exacts [hwrBoth 1 1, hwrEn 1, rfl]
  | false =>
    rw [if_neg Bool.false_ne_true, execStageDisable]
    split_ifs
    exacts [hwrBoth 0 2, hwrEn 0, rfl]

/-- What a write of STG.CTL does beyond storing MODE, in the fields that do not switch the Stage: it sets MODEREF where the MODE
written is not the one that stands. -/
theorem actsStg_ctl_rd {f : Fld} (hen : f.key ≠ Fd.STG_CTL_EN.key) (hstate : f.key ≠ Fd.STG_CTL_STATE.key) (v : Nat) :
    (s.actsStg 0 v).rd f = (if Fd.STG_CTL_MODE.of v ≠ s.rd Fd.STG_CTL_MODE then s.wr Fd.STG_INT_MODEREF 1 else s).rd f := by
  rw [State.actsStg, if_pos rfl]
  exact after_stageSwitch_rd _ hen hstate _

/-- Storing a word in STG.CTL stores MODE alone, and MODE as it stands unless STATE reads off (R371). -/
theorem storeReg_stgCtl (v : Nat) : s.storeReg 6 0 v (registerAt 6 0) =
    s.wr Fd.STG_CTL_MODE (if s.on Fd.STG_CTL_STATE then s.rd Fd.STG_CTL_MODE else bits v 1 1) := by
  rw [registerAt_stgCtl]
  rfl

/-- A write of STG.CTL that does not wait stores MODE, acts and answers. -/
theorem exec_stgCtl_write {s : State} (r : Requester) (v : BitVec 64) (hwaits : s.waits 6 0 = false) :
    exec (.registerWrite r 6 0 4 v) s = .next (((s.wr Fd.STG_CTL_MODE
      (if s.on Fd.STG_CTL_STATE then s.rd Fd.STG_CTL_MODE else bits v.toNat 1 1)).actsStg 0 v.toNat).reply 0) := by
  have haccess : accessOk 6 0 4 = true := by simp [accessOk, registerAt_stgCtl]
  have hfields : registerAt 6 0 ≠ [] := by simp [registerAt_stgCtl]
  have hslot : inSlot 6 0 = false := rfl
  have htaken : s.refusesWrite r 6 0 = none := rfl
  have hstored := access_write_stored v.toNat hwaits haccess hslot htaken hfields
  rw [storeReg_stgCtl] at hstored
  exact (exec_registerWrite_eq ..).trans (congrArg Host.Outcome.next hstored)

/-- With MODE left or made `m` by the store, a write of STG.CTL leaves `m` in MODE, and sets MODEREF where it asked for another. -/
theorem stgCtl_write_rd {m : Nat} (hm : m < 2) (v : Nat) :
    let t := ((s.wr Fd.STG_CTL_MODE m).actsStg 0 v).reply 0
    t.rd Fd.STG_CTL_MODE = m ∧ t.rd Fd.STG_INT_MODEREF = if bits v 1 1 = m then s.rd Fd.STG_INT_MODEREF else 1 := by
  intro t
  have hmode : (s.wr Fd.STG_CTL_MODE m).rd Fd.STG_CTL_MODE = m := (wr_rd_same s _ m).trans (Nat.mod_eq_of_lt hm)
  have hof : Fd.STG_CTL_MODE.of v = bits v 1 1 := rfl
  simp only [t, reply_rd]
  rw [actsStg_ctl_rd _ (by decide) (by decide), actsStg_ctl_rd _ (by decide) (by decide), hmode, hof, ite_not]
  split
  · exact ⟨hmode, wr_rd_other s m (by decide)⟩
  · exact ⟨(wr_rd_other _ 1 (by decide)).trans hmode, wr_rd_same _ _ 1⟩

end StgCtl

end Sys2Proof.Machine

open Sys2Proof.Machine

/-- Settles O52: the store leaves MODE as it stands unless STATE reads off, and what the write does after it compares the MODE that stands with the
one written. -/
theorem stageModeTakenOff : Obligations.StageModeTakenOff := by
  intro s r v hwaits
  refine ⟨_, exec_stgCtl_write r v hwaits, fun hoff => ?off, fun hon hmode => ?on⟩
  case off =>
    have htaken : bits v.toNat 1 1 < 2 := Nat.mod_lt _ (by decide)
    obtain ⟨ht, href⟩ := stgCtl_write_rd s htaken v.toNat
    have hstate : ¬ s.on Fd.STG_CTL_STATE = true := fun hon => bne_iff_ne.mp hon hoff
    rw [if_neg hstate]
    exact ⟨ht, href.trans (if_pos rfl)⟩
  case on =>
    obtain ⟨ht, href⟩ := stgCtl_write_rd s hmode v.toNat
    have hstate : s.on Fd.STG_CTL_STATE = true := bne_iff_ne.mpr hon
    rw [if_pos hstate]
    exact ⟨ht, fun hne => href.trans (if_neg hne), fun heq => href.trans (if_pos heq)⟩

end

section
/-! PROOF. What every command and every step keeps (log entries 1, 2 and 10): completion, frames, soundness, and the step itself. -/

namespace Sys2Proof.Machine

/-- Every command answers a next state, and leaves the parts that `touched` does not list for it. -/
theorem exec_keeps_touched (c : Instr) (s : State) : KeepsO (· ∈ touched c) s (exec c s) :=
  keeps_exec (Keeps.refl s) c fun _ hp => hp

/-- Every step keeps all that `Keeps` says, from the state whose queue has lost its first command. -/
theorem step_keeps {s t : State} (hstep : step s = .next t) : Keeps (fun _ => True) { s with pending := s.pending.tail } t := by
  cases hq : s.pending with
  | nil =>
    rw [step_nil hq] at hstep
    cases hstep
    have hsame : { s with pending := [] } = s := by rw [← hq]
    rw [List.tail_nil, hsame]
    exact keeps_tick (fun _ => trivial) (Keeps.refl s)
  | cons c l =>
    rw [step_cons hq] at hstep
    exact (keeps_exec (Keeps.refl _) c fun _ _ => trivial).next t hstep

/-- A shutdown that goes on leaves device time (R357). -/
theorem settleShutdown_time (s : State) (i : Fin 2) : (s.settleShutdown i).time = s.time :=
  ((keeps_settleShutdown (P := (· ≠ .time)) (by decide) (by decide) (by decide) (by decide) (by decide) (Keeps.refl s)).part .time).resolve_left
    fun h => h rfl

/-- A tick moves device time on by 1 µs, modulo 2^48 (R14). -/
theorem tick_time (s : State) : s.tick.time = (s.time + 1) % 2 ^ 48 := by
  rw [State.tick, settleShutdown_time, settleShutdown_time]

theorem tick_pending (s : State) : s.tick.pending = s.pending :=
  (keeps_tick (P := fun _ => True) (fun _ => trivial) (Keeps.refl s)).pending

end Sys2Proof.Machine

open Sys2Proof.Machine

/-- Settles O48: `keeps_exec` says of every command that it answers a next state. -/
theorem everyCommandCompletes : Obligations.EveryCommandCompletes :=
  fun c s => (exec_keeps_touched c s).done

/-- Settles O49: a step is a command on the state with the queue's rest, or a tick, and both keep a sound state sound and that queue as it is. -/
theorem stepKeepsSound : Obligations.StepKeepsSound := by
  intro s t hsound hstep
  have hkeeps := step_keeps hstep
  exact ⟨hkeeps.sound hsound, hkeeps.pending⟩

/-- Settles O50: the frame is what `keeps_exec` keeps where it admits the parts of `touched` alone. -/
theorem commandFrames : Obligations.CommandFrames := by
  intro c s t hexec
  have hkeeps := (exec_keeps_touched c s).next t hexec
  exact ⟨fun p hp => (hkeeps.part p).resolve_left hp, hkeeps.pending, hkeeps.free⟩

/-- Settles O1. -/
theorem stepTakesFront : Obligations.StepTakesFront :=
  fun _ _ _ => step_cons rfl

/-- Settles O46: with nothing waiting a step is `State.tick`, whose shutdowns leave device time and the queue. -/
theorem idleStepTicks : Obligations.IdleStepTicks :=
  fun s hidle => ⟨s.tick, step_nil hidle, rfl, tick_time s, (tick_pending s).trans hidle⟩

/-- Settles O47: no field and no table is listed at reset, so each field reads its Reset value and each table its constructor. -/
theorem resetValues : Obligations.ResetValues := by
  have hfields : ∀ f : Fld, State.reset.rd f = f.reset := fun f => Nat.zero_xor f.reset
  have hslots : ∀ n k : Fin 4, (State.reset.pslot n k).st = .idle := by decide
  have hmodes : ∀ n : Fin 4, State.reset.mode n = 0 := by decide
  exact ⟨hfields, rfl, rfl, rfl, rfl, rfl, rfl, rfl, hslots, hmodes, rfl, rfl, rfl⟩

end

section
/-! PROOF. Moves and the flow of a program (R102, R104, R106, R107, R110) and traps (Table 03.25), of the slot that runs alone. -/

namespace Sys2Proof.Machine

variable {s : State} {n k : Fin 4}

/-- The halfword mask at `16 * hw` covers the bits of that halfword. -/
theorem halfwordMask_getLsbD (hw : Fin 4) {j : Nat} (hj : j < 64) : ((0xFFFF#64) <<< (16 * hw.val)).getLsbD j = decide (j / 16 = hw.val) := by
  revert j
  fin_cases hw <;> decide

/-- A halfword shifted to its place shows its own bits there, and 0 elsewhere. -/
theorem halfword_shift_getLsbD (hw : Fin 4) (i : BitVec 16) {j : Nat} (hj : j < 64) :
    ((i.zeroExtend 64) <<< (16 * hw.val)).getLsbD j = (decide (j / 16 = hw.val) && i.getLsbD (j % 16)) := by
  rw [BitVec.getLsbD_shiftLeft, BitVec.zeroExtend_eq_setWidth, BitVec.getLsbD_setWidth]
  by_cases hin : j / 16 = hw.val
  · have hoff : j - 16 * hw.val = j % 16 := by omega
    have hlow : ¬ j < 16 * hw.val := by omega
    simp [hin, hj, hlow, hoff, show j % 16 < 64 by omega]
  · by_cases hlow : j < 16 * hw.val
    · simp [hin, hlow]
    · have hhigh : 16 ≤ j - 16 * hw.val := by omega
      simp [hin, BitVec.getLsbD_of_ge i _ hhigh]

/-- LDH replaces one halfword of a register. -/
theorem ldh_getLsbD (x : BitVec 64) (hw : Fin 4) (i : BitVec 16) {j : Nat} (hj : j < 64) :
    ((x &&& ~~~((0xFFFF#64) <<< (16 * hw.val))) ||| ((i.zeroExtend 64) <<< (16 * hw.val))).getLsbD j =
      if j / 16 = hw.val then i.getLsbD (j % 16) else x.getLsbD j := by
  rw [BitVec.getLsbD_or, BitVec.getLsbD_and, BitVec.getLsbD_not, halfwordMask_getLsbD hw hj, halfword_shift_getLsbD hw i hj]
  by_cases hin : j / 16 = hw.val <;> simp [hin, hj]

theorem exec_ldi_sole (h : s.sole n k) (d : Fin 16) (i : BitVec 22) :
    exec (.ldi n k d i) s = .next (s.slotAt n k ((s.pslot n k).arch.setReg d (i.signExtend 64)).onward) := by
  show execLdi n k d i s = _
  rw [execLdi, instr_sole h, complete_sole h]

theorem exec_ldh_sole (h : s.sole n k) (d : Fin 16) (hw : Fin 4) (i : BitVec 16) :
    let x := (s.pslot n k).arch.reg d
    exec (.ldh n k d hw i) s = .next (s.slotAt n k ((s.pslot n k).arch.setReg d
      ((x &&& ~~~((0xFFFF#64) <<< (16 * hw.val))) ||| ((i.zeroExtend 64) <<< (16 * hw.val)))).onward) := by
  show execLdh n k d hw i s = _
  rw [execLdh, instr_sole h, complete_sole h]

/-- OFFSET within ±512 sets the offset, once ONT is dropped. -/
theorem exec_offset_sole (h : s.sole n k) (o : Op11) (hlo : -512 ≤ ((s.pslot n k).arch.op11 o).toInt) (hhi : ((s.pslot n k).arch.op11 o).toInt ≤ 512) :
    exec (.offset n k o) s = .next ((s.dropOnt n).complete n k fun y => { y with offset := (s.pslot n k).arch.op11 o }) := by
  show execOffset n k o s = _
  have hin : ¬ (((s.pslot n k).arch.op11 o).toInt < -512 ∨ 512 < ((s.pslot n k).arch.op11 o).toInt) := by omega
  rw [execOffset, instr_sole h]
  exact congrArg _ (if_neg hin)

/-- A branch that is not taken goes on. -/
theorem exec_b_not_taken (h : s.sole n k) {c : Fin 16} (off : BitVec 22) (hc : s.cond n (s.pslot n k).arch c = false) :
    exec (.b n k c off) s = .next (s.slotAt n k (s.pslot n k).arch.onward) := by
  show execB n k c off s = _
  rw [execB, instr_sole h]
  simp only [hc, Bool.not_false, if_true, complete_sole h]

/-- A branch that is taken goes to its target in the program area, and traps on another. -/
theorem exec_b_taken (h : s.sole n k) {c : Fin 16} (off : BitVec 22) (hc : s.cond n (s.pslot n k).arch c = true) :
    exec (.b n k c off) s = .next (if target (s.pslot n k).arch.pc off.toInt < 0x14000 then s.trapSlot n k 0xFF07
      else s.jump n k (target (s.pslot n k).arch.pc off.toInt) fun a => a.consume c) := by
  show execB n k c off s = _
  rw [execB, instr_sole h]
  simp only [hc, Bool.not_true, Bool.false_eq_true, if_false]

/-- BR on a condition that holds goes to the word of the program area that `W[a]` names. -/
theorem exec_br_taken (h : s.sole n k) {c a : Fin 16} (hc : s.cond n (s.pslot n k).arch c = true)
    (harea : 0x14000 ≤ bits ((s.pslot n k).arch.reg a).toNat 0 21) (halign : ((s.pslot n k).arch.reg a).toNat % 4 = 0) :
    exec (.br n k c a) s = .next (s.jump n k (bits ((s.pslot n k).arch.reg a).toNat 0 21) fun w => w.consume c) := by
  show execBr n k c a s = _
  have hword : bits ((s.pslot n k).arch.reg a).toNat 0 21 % 4 = 0 := by
    simp only [bits] at harea ⊢
    omega
  have hin : ¬ (bits ((s.pslot n k).arch.reg a).toNat 0 21 < 0x14000 ∨ bits ((s.pslot n k).arch.reg a).toNat 0 21 % 4 ≠ 0) := by omega
  rw [execBr, instr_sole h]
  simp only [hc, Bool.not_true, Bool.false_eq_true, if_false, if_neg hin]

/-- A call with a full return stack traps; another goes to its target in the program area. -/
theorem exec_call_sole (h : s.sole n k) (off : BitVec 26) :
    let w := (s.pslot n k).arch
    exec (.call n k off) s = .next (if 8 ≤ w.stack.length then s.trapSlot n k 0xFF03
      else if target w.pc off.toInt < 0x14000 then s.trapSlot n k 0xFF07
      else s.jump n k (target w.pc off.toInt) fun a => { a with stack := (a.pc + 4) % 2 ^ 21 :: a.stack }) := by
  show execCall n k off s = _
  rw [execCall, instr_sole h]

/-- RET pops the return stack. -/
theorem exec_ret_pop (h : s.sole n k) {p : Nat} {l : List Nat} (hstack : (s.pslot n k).arch.stack = p :: l) :
    exec (.ret n k) s = .next (s.jump n k p fun a => { a with stack := l }) := by
  show execRet n k s = _
  rw [execRet, instr_sole h]
  simp only [hstack]

/-- RET traps where the return stack is empty. -/
theorem exec_ret_empty (h : s.sole n k) (hstack : (s.pslot n k).arch.stack = []) : exec (.ret n k) s = .next (s.trapSlot n k 0xFF04) := by
  show execRet n k s = _
  rw [execRet, instr_sole h]
  simp only [hstack]

theorem exec_trap_sole (h : s.sole n k) (c : BitVec 16) :
    exec (.trap n k c) s = .next (s.trapSlot n k (if 0xFEFF < c.toNat then 0xFF01 else c.toNat)) := by
  show execTrap n k c s = _
  rw [execTrap, instr_sole h]

/-- A word that is no instruction traps with 0xFF01. -/
theorem exec_illegal_sole (h : s.sole n k) {i : BitVec 32} (hi : legalWord i.toNat = false) :
    exec (.illegalInstruction n k i) s = .next (s.trapSlot n k 0xFF01) := by
  show execIllegalInstruction n k i s = _
  rw [execIllegalInstruction, if_neg (Bool.not_eq_true _ ▸ hi), instr_sole h]

end Sys2Proof.Machine

open Sys2Proof.Machine

/-- Settles O3: each is the end of an instruction at what it makes of the slot; LDH's mask takes out one halfword and the immediate shifted fills it. -/
theorem movesComplete : Obligations.MovesComplete := by
  intro s n k h
  exact ⟨fun dst src v b hsrc hdst => exec_mov_sole h hsrc hdst, fun d i => exec_ldi_sole h d i,
    fun d hw i => ⟨_, exec_ldh_sole h d hw i, fun j hj => ldh_getLsbD _ hw i hj⟩, fun o hlo hhi => exec_offset_sole h o hlo hhi⟩

/-- Settles O4: branches, CALL and RET are jumps of the slot that runs alone or its trap; HALT is stated as it stands. -/
theorem flowCompletes : Obligations.FlowCompletes := by
  intro s n k h
  refine ⟨fun c off hc => exec_b_not_taken h off hc, ?taken, ?br, ?call, ?ret, ?halt⟩
  case taken =>
    intro c off hc harea
    rw [exec_b_taken h off hc, if_neg (Nat.not_lt.mpr harea), jump_sole h]
  case br =>
    intro c a hc harea halign
    rw [exec_br_taken h hc harea halign, jump_sole h]
  case call =>
    intro off hroom harea
    rw [exec_call_sole h, if_neg (Nat.not_le.mpr hroom), if_neg (Nat.not_lt.mpr harea), jump_sole h]
  case ret =>
    intro p l hstack
    rw [exec_ret_pop h hstack, jump_sole h]
  case halt =>
    have hhalted : (s.updSlot n k fun x => { x with st := .halted, stopReq := false, arch := { x.arch with pc := (x.arch.pc + 4) % 2 ^ 21 } }) =
        s.updSlot n k fun x => { x with st := .halted, stopReq := false, arch := (s.pslot n k).arch.onward } := updSlot_congr rfl
    show execHalt n k s = _
    rw [execHalt, instr_sole h, hhalted]

/-- Settles O5: each cause is the trap of the slot that runs alone, at the code that Table 03.25 gives it. -/
theorem slotTraps : Obligations.SlotTraps := by
  intro s n k h
  simp only [← trapSlot_sole h]
  refine ⟨fun c => exec_trap_sole h c, ?illegal, ?call, ?ret, ?mov, ?branch⟩
  case illegal =>
    intro i hi
    have hfetched : fetched n k i = .illegalInstruction n k i := if_neg (Bool.not_eq_true _ ▸ hi)
    exact ⟨hfetched ▸ exec_illegal_sole h hi, exec_illegal_sole h hi⟩
  case call =>
    intro off hfull
    rw [exec_call_sole h, if_pos hfull]
  case ret => exact exec_ret_empty h
  case mov =>
    intro dst src hsrc
    rw [exec_mov_trap_sole h (by rw [hsrc, Option.bind_none]), trapSlot_sole h]
  case branch =>
    intro c off hc hbelow
    rw [exec_b_taken h off hc, if_pos hbelow]

end

section
/-! PROOF. Working memory, arm-link writes and the buffer chain (R80, R127 to R129), and waits with their ends (R92, R93, R103, R107, R130 to R133),
of the slot that runs alone. -/

namespace Sys2Proof.Machine

variable {s : State} {n k : Fin 4}

theorem exec_ld_sole (h : s.sole n k) {d a : Fin 16} {off : BitVec 18} {t : State} {l : List Nat}
    (hrange : mayLoad ((s.pslot n k).arch.addr a off) = true) (hload : s.load 0x3F (wmem n + (s.pslot n k).arch.addr a off) 8 = (t, some l)) :
    exec (.ld n k d a off) s = .next (t.complete n k fun y => y.setReg d (BitVec.ofNat 64 (leValue l))) := by
  show execLd n k d a off s = _
  rw [execLd, instr_sole h]
  simp only [hrange, Bool.not_true, Bool.false_eq_true, if_false, hload]

theorem exec_st_sole (h : s.sole n k) {r a : Fin 16} {off : BitVec 18} (hrange : mayStore ((s.pslot n k).arch.addr a off) = true) :
    exec (.st n k r a off) s =
      .next ((s.stored (wmem n + (s.pslot n k).arch.addr a off) (leBytes 8 ((s.pslot n k).arch.reg r).toNat)).complete n k id) := by
  show execSt n k r a off s = _
  rw [execSt, instr_sole h]
  simp only [hrange, Bool.not_true, Bool.false_eq_true, if_false]
  rfl

/-- BUF with a context of the engine, a count and room takes its entry into the chain. -/
theorem exec_buf_sole (h : s.sole n k) {a : Fin 16} {clr : Bool}
    (hbound : s.boundTo n (ChainEntry.ofWord ((s.pslot n k).arch.reg a).toNat).ctx = true)
    (hcount : (ChainEntry.ofWord ((s.pslot n k).arch.reg a).toNat).count ≠ 0) (hroom : clr = false → (s.pslot n k).arch.chain.length < 16) :
    exec (.buf n k a clr) s = .next ((if clr then s.updSlot n k fun y => { y with headFail := false } else s).complete n k fun y =>
      ((if clr then y.clearChain else y).append (ChainEntry.ofWord ((s.pslot n k).arch.reg a).toNat)).setCode 0) := by
  show execBuf n k a clr s = _
  have hfits : (!clr && decide (16 ≤ (s.pslot n k).arch.chain.length)) = false := by
    cases clr with
    | true => rfl
    | false => exact decide_eq_false (Nat.not_le.mpr (hroom rfl))
  have htakes : ¬ ((!s.boundTo n (ChainEntry.ofWord ((s.pslot n k).arch.reg a).toNat).ctx ||
      (ChainEntry.ofWord ((s.pslot n k).arch.reg a).toNat).count == 0 || (!clr && decide (16 ≤ (s.pslot n k).arch.chain.length))) = true) := by
    simp [hbound, hcount, hfits]
  rw [execBuf, instr_sole h]
  exact congrArg _ (if_neg htakes)

theorem exec_slu_sole (h : s.sole n k) {a : Fin 16} {ch : Fin 32} {t : State} {c : Nat} (hch : ch.val = 24 + 2 * n.val ∨ ch.val = 25 + 2 * n.val)
    (hstart : s.sluProgram n k ch.val ((s.pslot n k).arch.reg a).toNat = (t, c)) :
    exec (.slu n k a ch) s = .next ((if c = 0 then t.issued n k else t).complete n k fun y => y.setCode c) := by
  show execSlu n k a ch s = _
  have hown : ¬ (ch.val ≠ 24 + 2 * n.val ∧ ch.val ≠ 25 + 2 * n.val) := by omega
  rw [execSlu, instr_sole h]
  simp only [if_neg hown, hstart]

theorem exec_asp_sole (h : s.sole n k) {a : Fin 16} {t : State} {l : List Nat} (halign : ((s.pslot n k).arch.reg a).toNat % 32 = 0)
    (hlo : 0x14000 ≤ ((s.pslot n k).arch.reg a).toNat) (hhi : ((s.pslot n k).arch.reg a).toNat + 32 ≤ 0x200000)
    (hload : s.load 0x3F (wmem n + ((s.pslot n k).arch.reg a).toNat) 32 = (t, some l))
    (hprofile : profileOk (t.rd (Fd.CHN_WCFG_AKIND n (t.selHead n))) (fun i => leValue ((l.drop (2 * i)).take 2)) = true) :
    exec (.asp n k a) s = .next ((t.sendProfile n k fun i => leValue ((l.drop (2 * i)).take 2)).enter n k .arm .running) := by
  show execAsp n k a s = _
  have harea : ¬ (((s.pslot n k).arch.reg a).toNat % 32 ≠ 0 ∨ ((s.pslot n k).arch.reg a).toNat < 0x14000 ∨
      0x200000 < ((s.pslot n k).arch.reg a).toNat + 32) := by omega
  rw [execAsp, instr_sole h]
  simp only [if_neg harea, hload, hprofile, if_true]

theorem exec_htr_sole (h : s.sole n k) (a : Fin 16) :
    let v := ((s.pslot n k).arch.reg a).toNat
    exec (.htr n k a) s = .next (((s.armSend n ⟨.htr k, false, headReg (s.selHead n) 3, 1, [bits v 0 16, bits v 16 16], false⟩).issued n k).enter n k
      .arm .running) := by
  show execHtr n k a s = _
  rw [execHtr, instr_sole h]

/-- A write queued for the arm link by a slot that then waits for it stands last in the queue, FEN down, and changes nothing else. -/
theorem armSend_issued_enter (s : State) (n k : Fin 4) (x : ArmTx) :
    let t := ((s.armSend n x).issued n k).enter n k .arm .running
    (t.ch n).txq = (s.ch n).txq ++ [x] ∧ (t.pslot n k).op = some .arm ∧ (t.pslot n k).arch.fen = false ∧ s.onlyAt t [.reach, .chan] := by
  intro t
  have ht : t = (((s.armSend n x).issued n k).updSlot n k fun y => { y with op := some .arm, st := .running }) := enter_running Op.arm
  rw [ht]
  refine ⟨?_, ?_, ?_, fun p hp => ?_⟩
  · simp [State.issued, State.updArch, State.armSend, State.ch, State.updSlot]
  · simp
  · simp [State.issued, State.updArch]
  · cases p <;> first | rfl | simp at hp

/-- The wait of a slot whose transfers have left Sluice, with none of its writes outstanding, has nothing to wait for: its SYNC covers no write. -/
theorem issueSync_noSync (hchans : (s.pslot n k).sluChans = []) (hxfers : (s.pslot n k).xfers = 0) (hwrites : s.engWrites n = []) :
    (s.noSync n k).issueSync n k true = s.updSlot n k fun y => { y with sync := some [] } := by
  have hsent : ((s.noSync n k).pslot n k).sent = true := by simp [State.noSync, Slot.sent, hchans, hxfers]
  have hfree : ((s.noSync n k).pslot n k).sync = none := by simp [State.noSync]
  have hnone : (s.noSync n k).engWrites n = [] := hwrites
  simp only [State.issueSync, hsent, hfree, hnone, Option.isNone_none, Bool.and_self, if_true]
  exact updSlot_updSlot ..

/-- With nothing of the slot's outstanding, every kind of effect that FENCE selects is complete. -/
theorem fenceMet_synced (hsettled : s.settled n k = true) (hchans : (s.pslot n k).sluChans = []) (hxfers : (s.pslot n k).xfers = 0) {a : Bool}
    (harm : a = true → s.armSettled n k = true) : (s.updSlot n k fun y => { y with sync := some [] }).fenceMet n k true true a = true := by
  have hmedia : (s.updSlot n k fun y => { y with sync := some [] }).settled n k = true := by simpa [State.settled, State.updSlot] using hsettled
  have hdata : (s.updSlot n k fun y => { y with sync := some [] }).dataMet n k = true := by simp [State.dataMet, Slot.sent, hchans, hxfers]
  have hlink : (s.updSlot n k fun y => { y with sync := some [] }).armSettled n k = s.armSettled n k := rfl
  cases a with
  | false => simp [State.fenceMet, hmedia, hdata]
  | true => simp [State.fenceMet, hmedia, hdata, hlink, harm rfl]

theorem exec_fence_settled (h : s.sole n k) {a : Bool} (hsettled : s.settled n k = true) (hchans : (s.pslot n k).sluChans = [])
    (hxfers : (s.pslot n k).xfers = 0) (hwrites : s.engWrites n = []) (harm : a = true → s.armSettled n k = true) :
    exec (.fence n k true true a) s = .next ((s.updSlot n k fun y => { y with sync := some [] }).fenceDone n k true a) := by
  show execFence n k true true a s = _
  rw [execFence, instr_sole h]
  simp only [Bool.not_true, Bool.false_and, Bool.or_false, issueSync_noSync hchans hxfers hwrites,
    fenceMet_synced hsettled hchans hxfers harm, if_true]

theorem exec_post_settled (h : s.sole n k) {a : Fin 16} (hsettled : s.settled n k = true) (hchans : (s.pslot n k).sluChans = [])
    (hxfers : (s.pslot n k).xfers = 0) (hwrites : s.engWrites n = []) :
    exec (.post n k a) s = .next ((s.updSlot n k fun y => { y with sync := some [] }).post n k ((s.pslot n k).arch.reg a).toNat) := by
  have hmet := fenceMet_synced (a := false) hsettled hchans hxfers (fun hfalse => absurd hfalse Bool.false_ne_true)
  show execPost n k a s = _
  rw [execPost, instr_sole h]
  simp only [issueSync_noSync hchans hxfers hwrites, hmet, if_true]

/-- WAIT on a condition that holds ends at once; AL, which always holds, waits for time alone. -/
theorem exec_wait_met (h : s.sole n k) {c : Fin 16} (u : Fin 4) (t : BitVec 20) (hc : s.cond n (s.pslot n k).arch c = true) (hal : c ≠ 0) :
    exec (.wait n k c u t) s = .next (s.slotAt n k (((s.pslot n k).arch.consume c).setCode 0).onward) := by
  show execWait n k c u t s = _
  rw [execWait, instr_sole h]
  simp only [hc, bne_iff_ne.mpr hal, Bool.true_or, Bool.and_self, if_true, complete_sole h]

theorem exec_wait_unmet (h : s.sole n k) {c : Fin 16} {u : Fin 4} {t : BitVec 20} (hc : s.cond n (s.pslot n k).arch c = false)
    (honce : s.testsOnce n (s.pslot n k).arch u t.toNat = false) :
    exec (.wait n k c u t) s = .next (s.updSlot n k fun x => { x with op := some (.wait c (s.timeout u t.toNat)), st := .yielding }) := by
  show execWait n k c u t s = _
  rw [execWait, instr_sole h]
  simp only [hc, honce, Bool.false_and, Bool.false_eq_true, if_false, enter_yield h]

theorem exec_join_met (h : s.sole n k) {m : BitVec 8} (u : Fin 4) (t : BitVec 16) (hm : s.joinMet n m.toNat = true) :
    exec (.join n k m u t) s = .next (s.joinTake n k m.toNat) := by
  show execJoin n k m u t s = _
  rw [execJoin, instr_sole h]
  exact congrArg _ (if_pos hm)

theorem exec_join_unmet (h : s.sole n k) {m : BitVec 8} {u : Fin 4} {t : BitVec 16} (hm : s.joinMet n m.toNat = false)
    (honce : s.testsOnce n (s.pslot n k).arch u t.toNat = false) :
    exec (.join n k m u t) s = .next (s.updSlot n k fun x => { x with op := some (.join m (s.timeout u t.toNat)), st := .yielding }) := by
  show execJoin n k m u t s = _
  rw [execJoin, instr_sole h]
  simp only [hm, honce, Bool.false_eq_true, if_false, enter_yield h]

theorem exec_sig_sole (h : s.sole n k) (j : Fin 5) (g : Fin 8) : exec (.sig n k j g) s = .next ((s.signal n j.val g.val).complete n k id) := by
  show execSig n k j g s = _
  rw [execSig, instr_sole h]
  rfl

/-- A wait that ends by its timeout, where it waits for more than time, has code 0x01. -/
theorem exec_waitTimeout_wait {c : Fin 16} {t : Timeout} (hst : (s.pslot n k).st = .yielding) (hop : (s.pslot n k).op = some (.wait c t)) (hal : c ≠ 0)
    (hout : s.timedOut n (s.pslot n k).arch t = true) : exec (.waitTimeout n k) s = .next (s.complete n k fun a => a.setCode 0x01) := by
  show execWaitTimeout n k s = _
  simp only [execWaitTimeout, hst, hop, hout, ne_eq, not_true_eq_false, if_false, if_true, Fin.val_ne_zero_iff.mpr hal]

theorem exec_waitTimeout_join {m : BitVec 8} {t : Timeout} (hst : (s.pslot n k).st = .yielding) (hop : (s.pslot n k).op = some (.join m t))
    (hout : s.timedOut n (s.pslot n k).arch t = true) : exec (.waitTimeout n k) s = .next (s.complete n k fun a => a.setCode 0x01) := by
  show execWaitTimeout n k s = _
  simp only [execWaitTimeout, hst, hop, hout, ne_eq, not_true_eq_false, if_false, if_true]

theorem exec_slotWake_wait {c : Fin 16} {t : Timeout} (hst : (s.pslot n k).st = .yielding) (hop : (s.pslot n k).op = some (.wait c t)) (hal : c ≠ 0)
    (hc : s.cond n (s.pslot n k).arch c = true) : exec (.slotWake n k) s = .next (s.complete n k fun a => (a.consume c).setCode 0) := by
  show execSlotWake n k s = _
  simp only [execSlotWake, hst, hop, hc, ne_eq, not_true_eq_false, if_false, if_true, Fin.val_ne_zero_iff.mpr hal, not_false_eq_true, and_self]

/-- The running slot at its point gives the engine up where a lower one is ready. -/
theorem exec_slotDisplaced_atPoint (hrun : s.runner n = some k) (hpoint : s.atPoint n k = true)
    (hlower : ∃ j, j < k ∧ (s.pslot n j).st = .ready ∧ (s.pslot n j).intr = false) :
    exec (.slotDisplaced n) s = .next ((s.giveUp n k .ready).dispatch n) := by
  obtain ⟨j, hlt, hready, hintr⟩ := hlower
  have hany : (four.any fun j => decide (j < k) && (s.pslot n j).st == .ready && !(s.pslot n j).intr) = true := by
    refine List.any_eq_true.mpr ⟨j, ?_, by simp [hlt, hready, hintr]⟩
    fin_cases j <;> decide
  show execSlotDisplaced n s = _
  simp only [execSlotDisplaced, hrun, hpoint, hany, Bool.and_self, if_true]

end Sys2Proof.Machine

open Sys2Proof.Machine

/-- Settles O6: each clause is the executing branch of its instruction; HTR's effects are read off the write that it queues. -/
theorem loadsAndStoresComplete : Obligations.LoadsAndStoresComplete := by
  intro s n k h
  exact ⟨fun d a off t l hrange hload => exec_ld_sole h hrange hload, fun r a off hrange => exec_st_sole h hrange,
    fun a clr hbound hcount hroom => exec_buf_sole h hbound hcount hroom, fun a ch t c hch hstart => exec_slu_sole h hch hstart,
    fun a t l halign hlo hhi hload hprofile => exec_asp_sole h halign hlo hhi hload hprofile,
    fun a => ⟨_, exec_htr_sole h a, armSend_issued_enter s n k _⟩⟩

/-- Settles O7: WAIT and JOIN end or yield by their condition; FENCE and POST find nothing outstanding; SIG and CKPT are ends of an instruction. -/
theorem waitsComplete : Obligations.WaitsComplete := by
  intro s n k h
  refine ⟨fun c u t hc hal => exec_wait_met h u t hc hal, fun c u t hc honce => exec_wait_unmet h hc honce, fun m u t hm => exec_join_met h u t hm,
    fun m u t hm honce => exec_join_unmet h hm honce, fun a hsettled hchans hxfers hwrites harm => exec_fence_settled h hsettled hchans hxfers hwrites harm,
    fun a hsettled hchans hxfers hwrites => exec_post_settled h hsettled hchans hxfers hwrites, fun j g => ?engine, fun g => ?firmware, ?ckpt⟩
  case engine =>
    rw [exec_sig_sole h, State.signal, if_neg (Nat.ne_of_lt j.isLt)]
  case firmware =>
    rw [exec_sig_sole h]
    exact congrArg _ (congrArg (State.complete · n k id) (if_pos rfl))
  case ckpt =>
    rw [exec_ckpt_eq, execCkpt, instr_sole h, completeRecord_sole h, State.record, slotAt_pslot_arch]

/-- Settles O8: a wake and a timeout are told apart by what the slot is inside of, and a motion's limit ends the motion that owns the actuator. -/
theorem waitsEnd : Obligations.WaitsEnd := by
  intro s n k
  refine ⟨fun c t hst hop hal hc => exec_slotWake_wait hst hop hal hc, fun c t hst hop hal hout => exec_waitTimeout_wait hst hop hal hout,
    fun m t hst hop hout => exec_waitTimeout_join hst hop hout, exec_slotDisplaced_atPoint, fun set howner => ?settle, fun o howner ho => ?motion⟩
  case settle =>
    show execSettleTimeout n s = _
    simp only [execSettleTimeout, howner]
  case motion =>
    show execMotionLimitExpiry n s = _
    obtain rfl | rfl | rfl := ho <;> simp only [execMotionLimitExpiry, howner]

end

section
/-! PROOF. Fields stored by their access type (R8), bytes stored in memory (R390, R394, R398) and the speed curve (R468). -/

namespace Sys2Proof.Machine

section Fields

/-- Taking away the bits that two numbers share clears those bits alone. -/
theorem testBit_sub_and (a b i : Nat) : (a - (a &&& b)).testBit i = (a.testBit i && !b.testBit i) := by
  induction i generalizing a b with
  | zero =>
    have hle : a &&& b ≤ a := Nat.and_le_left
    have hlow := Nat.and_mod_two_eq_one (a := a) (b := b)
    simp only [Nat.testBit_zero]
    by_cases hb : b % 2 = 1 <;> simp only [hb, and_true, and_false, iff_false] at hlow <;> simp [hb] <;> omega
  | succ i ih =>
    have hle : a &&& b ≤ a := Nat.and_le_left
    have hlow := Nat.and_mod_two_eq_one (a := a) (b := b)
    have hhalf : (a - (a &&& b)) / 2 = a / 2 - (a / 2 &&& b / 2) := by
      rw [← Nat.and_div_two]
      omega
    rw [Nat.testBit_succ, hhalf, ih, ← Nat.testBit_succ, ← Nat.testBit_succ]

/-- A field of type W1C loses the bits that it shares with its bits of the value. -/
theorem storeField_w1c_rd (t : State) (w off v : Nat) {x : FieldAt} (hown : x.own = false) (hacc : x.acc = .w1c) (hfit : t.rd x.fd < 2 ^ x.fd.width) :
    (t.storeField w off v x).rd x.fd = t.rd x.fd - (t.rd x.fd &&& x.fd.of v) := by
  have hsame : t.storeField w off v x = t.wr x.fd (t.rd x.fd - (t.rd x.fd &&& x.fd.of v)) := by simp [State.storeField, hown, hacc]
  rw [hsame, wr_rd_same, Nat.mod_eq_of_lt (Nat.lt_of_le_of_lt (Nat.sub_le _ _) hfit)]

/-- A field of type RW without a rule of its own stores its bits of the value. -/
theorem storeField_rw_rd (t : State) (w off v : Nat) {x : FieldAt} (hown : x.own = false) (hacc : x.acc = .rw) (hrule : x.rule = .any) :
    (t.storeField w off v x).rd x.fd = x.fd.of v := by
  have hsame : t.storeField w off v x = t.wr x.fd (x.fd.of v) := by simp [State.storeField, hown, hacc, hrule, WriteRule.apply]
  rw [hsame, wr_rd_same]
  exact Nat.mod_mod _ _

/-- A write does not reach a field of type RO, RC or RSH. -/
theorem storeField_readOnly (t : State) (w off v : Nat) {x : FieldAt} (hacc : x.acc = .ro ∨ x.acc = .rc ∨ x.acc = .rsh) : t.storeField w off v x = t := by
  obtain hacc | hacc | hacc := hacc <;> simp [State.storeField, hacc]

/-- A read clears the RC fields among distinct ones, and leaves the others. -/
theorem clearRc_mem (s : State) {l : List FieldAt} (hl : l.Pairwise fun x y => x.fd.key ≠ y.fd.key) {x : FieldAt} (hx : x ∈ l) :
    (s.clearRc l).rd x.fd = if x.acc = .rc then 0 else s.rd x.fd := by
  induction l generalizing s with
  | nil => exact absurd hx List.not_mem_nil
  | cons y l ih =>
    obtain ⟨hy, hl⟩ := List.pairwise_cons.mp hl
    rw [State.clearRc]
    obtain rfl | hx := List.mem_cons.mp hx
    · rw [clearRc_other _ _ _ fun z hz => (hy z hz).symm]
      split
      · rw [wr_rd_same, Nat.zero_mod]
      · rfl
    · rw [ih _ hl hx]
      split
      · rfl
      · split
        · exact wr_rd_other s 0 (hy x hx).symm
        · rfl

end Fields

section Curve

variable {p q : Nat × Nat} {l : List (Nat × Nat)} {d : Nat}

theorem ascends_cons (h : ascends (p :: q :: l) = true) : p.1 < q.1 ∧ ascends (q :: l) = true := by
  simpa [ascends] using h

/-- The curve up to its first demand. -/
theorem curveAt_first (hd : d ≤ p.1) : curveAt d (p :: l) = p.2 := by
  cases l with
  | nil => rfl
  | cons q l => exact if_pos hd

/-- From its second demand on, a curve is what the rest of it is. -/
theorem curveAt_rest (hpq : p.1 < q.1) (hd : q.1 ≤ d) : curveAt d (p :: q :: l) = curveAt d (q :: l) := by
  rw [curveAt, if_neg (by omega), if_neg (by omega)]

/-- Between its first two points a curve is interpolated. -/
theorem curveAt_between (hlo : p.1 ≤ d) (hhi : d < q.1) :
    (curveAt d (p :: q :: l) : Int) = max 0 (((p.2 : Int) * (q.1 - p.1) + ((q.2 : Int) - p.2) * (d - p.1)) / (q.1 - p.1)) := by
  obtain heq | hlt := Nat.eq_or_lt_of_le hlo
  · have hpos : ((q.1 : Int) - p.1) ≠ 0 := by omega
    rw [curveAt_first heq.ge, ← heq, sub_self, mul_zero, add_zero, Int.mul_ediv_cancel _ hpos]
    exact (max_eq_right (Int.natCast_nonneg _)).symm
  · rw [curveAt, if_neg (by omega), if_pos hhi, Int.ofNat_toNat, max_comm]

/-- The first demand of a curve that ascends is at most any later one. -/
theorem ascends_first_le (h : ascends (p :: l) = true) {k : Nat} (hk : k < (p :: l).length) : p.1 ≤ ((p :: l).getD k (0, 0)).1 := by
  induction k generalizing p l with
  | zero => exact le_rfl
  | succ k ih =>
    cases l with
    | nil => simp at hk
    | cons q l =>
      obtain ⟨hpq, hrest⟩ := ascends_cons h
      exact hpq.le.trans (ih hrest (Nat.lt_of_succ_lt_succ hk))

/-- From its last demand on, a curve has its last speed. -/
theorem curveAt_last (h : ascends (p :: l) = true) (hd : ((p :: l).getD l.length (0, 0)).1 ≤ d) :
    curveAt d (p :: l) = ((p :: l).getD l.length (0, 0)).2 := by
  induction l generalizing p with
  | nil => rfl
  | cons q l ih =>
    obtain ⟨hpq, hrest⟩ := ascends_cons h
    have hq : q.1 ≤ d := (ascends_first_le hrest (Nat.lt_succ_self l.length)).trans hd
    rw [curveAt_rest hpq hq]
    exact ih hrest hd

/-- Between any two neighbouring points a curve that ascends is interpolated. -/
theorem curveAt_interpolates (h : ascends (p :: l) = true) {k : Nat} (hk : k + 1 < (p :: l).length) {a b : Nat × Nat}
    (ha : (p :: l).getD k (0, 0) = a) (hb : (p :: l).getD (k + 1) (0, 0) = b) (hlo : a.1 ≤ d) (hhi : d < b.1) :
    (curveAt d (p :: l) : Int) = max 0 (((a.2 : Int) * (b.1 - a.1) + ((b.2 : Int) - a.2) * (d - a.1)) / (b.1 - a.1)) := by
  induction k generalizing p l with
  | zero =>
    cases l with
    | nil => simp at hk
    | cons q l =>
      subst ha hb
      exact curveAt_between hlo hhi
  | succ k ih =>
    cases l with
    | nil => simp at hk
    | cons q l =>
      obtain ⟨hpq, hrest⟩ := ascends_cons h
      have hk := Nat.lt_of_succ_lt_succ hk
      have hqa : q.1 ≤ a.1 := (ascends_first_le hrest (Nat.lt_of_succ_lt hk)).trans_eq (congrArg Prod.fst ha)
      rw [curveAt_rest hpq (hqa.trans hlo)]
      exact ih hrest hk ha hb

end Curve

end Sys2Proof.Machine

open Sys2Proof.Machine

/-- Settles O44: with distinct fields each one is stored from what it held, by its own access type, and no other field stored reaches it. -/
theorem fieldsStoredByType : Obligations.FieldsStoredByType := by
  intro s w off v l hl
  refine ⟨?rw, ?w1c, ?readOnly, ?other, fun x hx => clearRc_mem s hl hx⟩
  case rw =>
    intro x hx hown hacc hrule
    obtain ⟨t, -, hstored⟩ := storeFields_mem s w off v l hl x hx
    rw [hstored, storeField_rw_rd t w off v hown hacc hrule, Fld.of]
  case w1c =>
    intro x hx hown hacc hfit i
    obtain ⟨t, hold, hstored⟩ := storeFields_mem s w off v l hl x hx
    rw [hstored, storeField_w1c_rd t w off v hown hacc (hold ▸ hfit), testBit_sub_and, hold, Fld.of]
  case readOnly =>
    intro x hx hacc
    obtain ⟨t, hold, hstored⟩ := storeFields_mem s w off v l hl x hx
    rw [hstored, storeField_readOnly t w off v hacc, hold]
  case other => exact fun f hf => ⟨storeFields_other s w off v l f hf, clearRc_other s l f hf⟩

/-- Settles O45: what the memory controller leaves is `memPut_mem`; a region table's VALID is cleared after it. -/
theorem memoryWriteStoresBytes : Obligations.MemoryWriteStoresBytes := by
  intro s w v be hmem herr
  have hput := memPut_mem s w.toNat v.toNat be.toNat be.isLt herr
  refine ⟨(s.memPut w.toNat v.toNat be.toNat).reply 0, ?exec, fun i => ?inside, fun a ha => ?outside⟩
  case exec =>
    show execMemWrite w v be s = _
    rw [execMemWrite, if_pos hmem]
    cases tableOf (8 * w.toNat) <;> rfl
  case inside =>
    have hin : 8 * w.toNat ≤ 8 * w.toNat + i.val ∧ 8 * w.toNat + i.val < 8 * w.toNat + 8 := ⟨Nat.le_add_right _ _, by omega⟩
    have hbyte : BitVec.ofNat 8 (bits v.toNat (8 * i.val) 8) = BitVec.ofNat 8 (v.toNat / 2 ^ (8 * i.val)) :=
      BitVec.eq_of_toNat_eq (by simp [bits])
    rw [reply_mem, hput, Nat.add_sub_cancel_left, hbyte, bit_eq_testBit]
    simp only [hin, true_and]
    rfl
  case outside =>
    rw [reply_mem, hput, if_neg (by omega)]

/-- Settles O56: by induction along the curve, whose rest is in force from its second demand on. -/
theorem curveValue : Obligations.CurveValue := by
  intro c d hc hne
  obtain ⟨p, l, rfl⟩ := List.exists_cons_of_ne_nil hne
  exact ⟨curveAt_first, curveAt_last hc, fun k a b hk ha hb hlo hhi => curveAt_interpolates hc hk ha hb hlo hhi⟩

end

section
/-! PROOF. The layout of a slot (R64 to R67): bits and bytes, the scrambler, and where the payload stands. -/

namespace Sys2Proof.Machine

section Bytes

variable {b : Nat} {l : List Nat}

@[simp] theorem msbBits_length (w v : Nat) : (msbBits w v).length = w := by
  induction w with
  | zero => rfl
  | succ w ih => rw [msbBits, List.length_cons, ih]

/-- Bits read behind a value are shifted in below it. -/
theorem foldl_msbBits (w v a : Nat) : (msbBits w v).foldl (fun t b => 2 * t + b2n b) a = a * 2 ^ w + v % 2 ^ w := by
  induction w generalizing a with
  | zero => simp [msbBits, Nat.mod_one]
  | succ w ih =>
    have hbit : b2n (bit v w) = v / 2 ^ w % 2 := by
      obtain h | h := Nat.mod_two_eq_zero_or_one (v / 2 ^ w) <;> simp [b2n, bit, h]
    rw [msbBits, List.foldl_cons, ih, hbit, Nat.mod_pow_succ]
    ring

/-- The bits of a byte give back its value. -/
theorem bitsValue_msbBits (hb : b < 256) : bitsValue (msbBits 8 b) = b := by
  rw [bitsValue, foldl_msbBits, Nat.zero_mul, Nat.zero_add, Nat.mod_eq_of_lt (show b < 2 ^ 8 from hb)]

theorem byteBits_cons (b : Nat) (l : List Nat) : byteBits (b :: l) = msbBits 8 b ++ byteBits l := rfl

theorem byteBits_length (l : List Nat) : (byteBits l).length = 8 * l.length := by
  induction l with
  | nil => rfl
  | cons b l ih => rw [byteBits_cons, List.length_append, msbBits_length, ih, List.length_cons, Nat.mul_succ, Nat.add_comm]

/-- Bytes come back from their bits. -/
theorem bitBytes_byteBits (hl : ∀ b ∈ l, b < 256) : bitBytes l.length (byteBits l) = l := by
  induction l with
  | nil => rfl
  | cons b l ih =>
    obtain ⟨hb, hl⟩ := List.forall_mem_cons.mp hl
    rw [List.length_cons, bitBytes, byteBits_cons, List.take_left' (msbBits_length 8 b), List.drop_left' (msbBits_length 8 b), bitsValue_msbBits hb, ih hl]

end Bytes

section Scrambler

@[simp] theorem scrBits_length (r k : Nat) : (scrBits r k).length = k := by
  induction k generalizing r with
  | zero => rfl
  | succ k ih => rw [scrBits, List.length_cons, ih]

@[simp] theorem scramble_length (tp : Nat) (l : List Bool) : (scramble tp l).length = l.length := by
  rw [scramble, List.length_zipWith, scrBits_length, Nat.min_self]

/-- Two sums with the same bits cancel. -/
theorem zipWith_bne_zipWith_bne {l m : List Bool} (hlen : l.length ≤ m.length) :
    List.zipWith (· != ·) (List.zipWith (· != ·) l m) m = l := by
  induction l generalizing m with
  | nil => rfl
  | cons a l ih =>
    cases m with
    | nil => simp at hlen
    | cons b m =>
      rw [List.zipWith_cons_cons, List.zipWith_cons_cons, ih (Nat.le_of_succ_le_succ hlen)]
      cases a <;> cases b <;> rfl

/-- Descrambling is scrambling again. -/
theorem scramble_scramble (tp : Nat) (l : List Bool) : scramble tp (scramble tp l) = l := by
  rw [scramble, scramble_length, scramble]
  exact zipWith_bne_zipWith_bne (scrBits_length _ _).ge

end Scrambler

section Layout

variable {x : Sector}

theorem ldpcParity_length (l : List Bool) : (ldpcParity l).length = 3840 := by
  rw [ldpcParity, List.length_map, List.length_range]

/-- A slot's bits before the payload: the preamble and the sync mark. -/
def slotLead : List Bool := msbBits 64 0x3333333333333333 ++ syncMark

theorem slotLead_length : slotLead.length = 112 := by
  rw [slotLead, syncMark, List.length_append, msbBits_length, msbBits_length]

theorem slotBits_eq (tp : Nat) (x : Sector) :
    slotBits tp x = slotLead ++ (scramble tp (byteBits x.payload) ++ (ldpcParity (scramble tp (byteBits x.payload)) ++ msbBits 24 0x333333)) := by
  simp only [slotBits, codeword, slotLead, List.append_assoc]

theorem slotBits_length (tp : Nat) (hx : x.payload.length = 4128) : (slotBits tp x).length = 37000 := by
  rw [slotBits_eq, List.length_append, List.length_append, List.length_append, slotLead_length, scramble_length, byteBits_length, hx,
    ldpcParity_length, msbBits_length]

/-- The scrambled payload stands behind the sync mark. -/
theorem slotBits_payload (tp : Nat) (hx : x.payload.length = 4128) : ((slotBits tp x).drop 112).take 33024 = scramble tp (byteBits x.payload) := by
  have hlen : (scramble tp (byteBits x.payload)).length = 33024 := by rw [scramble_length, byteBits_length, hx]
  rw [slotBits_eq, List.drop_left' slotLead_length, List.take_left' hlen]

end Layout

end Sys2Proof.Machine

open Sys2Proof.Machine

/-- Settles O57: the payload's scrambled bits stand whole behind the sync mark, and the scrambler's bits cancel themselves. -/
theorem slotLayoutHolds : Obligations.SlotLayoutHolds := by
  refine ⟨scramble_scramble, fun tp x hlen hbytes => ⟨slotBits_length tp hlen, ?_⟩⟩
  have hback := bitBytes_byteBits hbytes
  rw [slotBits_payload tp hlen, scramble_scramble]
  rwa [hlen] at hback

end

section
/-! PROOF. Control-store words (R269) and the match table (R284, R285). -/

namespace Sys2Proof.Machine

section Parity

/-- Counting with one element's answer turned changes the parity of the count. -/
theorem countP_flip_mod_two {α : Type} [DecidableEq α] {f g : α → Bool} {i : α} (hat : g i = !f i) (helse : ∀ j, j ≠ i → g j = f j) {l : List α}
    (hl : l.Nodup) : l.countP g % 2 = (l.countP f + if i ∈ l then 1 else 0) % 2 := by
  induction l with
  | nil => rfl
  | cons j l ih =>
    obtain ⟨hj, hl⟩ := List.nodup_cons.mp hl
    have ih := ih hl
    by_cases hji : j = i
    · subst hji
      rw [if_neg hj] at ih
      cases hf : f j <;> simp [hat, hf] <;> omega
    · rw [List.countP_cons, List.countP_cons, helse j hji]
      simp only [List.mem_cons, Ne.symm hji, false_or]
      omega

/-- The bits under the parity bit 30, with it; and those under bit 31. -/
def lowHalf : List Nat := List.range 15 ++ [30]

def highHalf : List Nat := (List.range 15).map (15 + ·) ++ [31]

theorem lowBad_eq (w : Nat) : lowBad w = (lowHalf.countP (bit w) % 2 == 0) := by
  simp [lowBad, lowHalf, List.countP_append, b2n, List.countP_singleton]

theorem highBad_eq (w : Nat) : highBad w = (highHalf.countP (bit w) % 2 == 0) := by
  simp [highBad, highHalf, List.countP_append, List.countP_map, b2n, Function.comp_def, List.countP_singleton]

/-- A word with bit `i` turned shows every other bit as before. -/
theorem bit_xor_two_pow (w i j : Nat) : bit (w ^^^ 2 ^ i) j = (bit w j ^^ decide (i = j)) := by
  rw [bit_eq_testBit, bit_eq_testBit, Nat.testBit_xor, Nat.testBit_two_pow]

/-- Turning one bit of a half turns that half's check. -/
theorem countP_bit_flip (w i : Nat) {l : List Nat} (hl : l.Nodup) (hi : i ∈ l) (hodd : l.countP (bit w) % 2 = 1) :
    l.countP (bit (w ^^^ 2 ^ i)) % 2 = 0 := by
  have hflip := countP_flip_mod_two (f := bit w) (g := bit (w ^^^ 2 ^ i)) (i := i) (by simp [bit_xor_two_pow])
    (fun j hj => by simp [bit_xor_two_pow, hj.symm]) hl
  rw [if_pos hi] at hflip
  omega

/-- One bit turned of a word that reads sound is found. -/
theorem bad_of_flip {w i : Nat} (hlow : lowBad w = false) (hhigh : highBad w = false) (hi : i < 32) :
    (lowBad (w ^^^ 2 ^ i) || highBad (w ^^^ 2 ^ i)) = true := by
  rw [lowBad_eq, beq_eq_false_iff_ne] at hlow
  rw [highBad_eq, beq_eq_false_iff_ne] at hhigh
  have hcover : ∀ i < 32, i ∈ lowHalf ∨ i ∈ highHalf := by decide
  rw [lowBad_eq, highBad_eq, Bool.or_eq_true, beq_iff_eq, beq_iff_eq]
  refine (hcover i hi).imp (fun hin => ?_) fun hin => ?_
  · exact countP_bit_flip w i (by decide) hin (by omega)
  · exact countP_bit_flip w i (by decide) hin (by omega)

variable (v : BitVec 30)

/-- A word with its parity bits: the word, and the two bits above it. -/
theorem parityWord_eq : ∃ p q : Bool, parityWord v.toNat = v.toNat + 2 ^ 30 * p.toNat + 2 ^ 31 * q.toNat ∧
    p = ((List.range 15).countP (bit v.toNat) % 2 == 0) ∧ q = (((List.range 15).countP fun i => bit v.toNat (15 + i)) % 2 == 0) := by
  refine ⟨_, _, ?_, rfl, rfl⟩
  rw [parityWord, Nat.mod_eq_of_lt v.isLt]
  congr 1
  · congr 1
    split <;> simp_all
  · split <;> simp_all

theorem bit_word_below {a i : Nat} (ha : a < 2 ^ 30) (p q : Bool) (hi : i < 30) : bit (a + 2 ^ 30 * p.toNat + 2 ^ 31 * q.toNat) i = bit a i := by
  have hsum : a + 2 ^ 30 * p.toNat + 2 ^ 31 * q.toNat = 2 ^ 30 * (p.toNat + 2 * q.toNat) + a := by ring
  rw [bit_eq_testBit, bit_eq_testBit, hsum, Nat.testBit_two_pow_mul_add _ ha, if_pos hi]

theorem bit_word_30 {a : Nat} (ha : a < 2 ^ 30) (p q : Bool) : bit (a + 2 ^ 30 * p.toNat + 2 ^ 31 * q.toNat) 30 = p := by
  cases p <;> cases q <;> simp [bit] <;> omega

theorem bit_word_31 {a : Nat} (ha : a < 2 ^ 30) (p q : Bool) : bit (a + 2 ^ 30 * p.toNat + 2 ^ 31 * q.toNat) 31 = q := by
  cases p <;> cases q <;> simp [bit] <;> omega

/-- A word formed with its parity bits keeps its 30 bits, fits 32, and reads sound. -/
theorem parityWord_sound : parityWord v.toNat % 2 ^ 30 = v.toNat ∧ parityWord v.toNat < 2 ^ 32 ∧ lowBad (parityWord v.toNat) = false ∧
    highBad (parityWord v.toNat) = false := by
  obtain ⟨p, q, hword, hp, hq⟩ := parityWord_eq v
  have hv := v.isLt
  have hcount : ∀ f : Nat → Nat, (∀ i < 15, f i < 30) →
      ((List.range 15).countP fun i => bit (parityWord v.toNat) (f i)) = (List.range 15).countP fun i => bit v.toNat (f i) := by
    intro f hf
    refine List.countP_congr fun i hi => ?_
    rw [hword, bit_word_below hv p q (hf i (List.mem_range.mp hi))]
  have hodd : ∀ k : Nat, ((k + b2n (k % 2 == 0)) % 2 == 0) = false := by
    intro k
    rw [b2n, beq_eq_false_iff_ne]
    split <;> simp_all
    omega
  refine ⟨?_, ?_, ?_, ?_⟩
  · rw [hword]; cases p <;> cases q <;> simp <;> omega
  · rw [hword]; cases p <;> cases q <;> simp <;> omega
  · have hlow := hcount (fun i => i) fun i hi => by omega
    rw [lowBad]
    rw [show (List.range 15).countP (bit (parityWord v.toNat)) = _ from hlow, hword, bit_word_30 hv p q, hp]
    exact hodd _
  · rw [highBad, hcount (15 + ·) (fun i hi => by omega), hword, bit_word_31 hv p q, hq]
    exact hodd _

end Parity

section Match

variable {e u a : Nat}

/-- A match entry names an address of patch RAM. -/
theorem matchAt_patch (h : matchAt e u = some a) : 0x1800 ≤ a := by
  unfold matchAt at h
  split_ifs at h <;> cases h <;> omega

/-- The first entry that covers a ROM address is the one that is in force. -/
theorem overlay_first {s : State} {n : Fin 4} {i : Nat} (hu : u < 0x1800) (hi : i < 64) (ha : matchAt (s.rd (Fd.RCH_MATCH_ENTRY n i)) u = some a)
    (hfirst : ∀ j < i, matchAt (s.rd (Fd.RCH_MATCH_ENTRY n j)) u = none) : s.overlay n u = a := by
  have hsplit : List.range 64 = List.range i ++ i :: (List.range (63 - i)).map (i + 1 + ·) := by
    have hrange := List.range_add (n := i + 1) (m := 63 - i)
    rw [show i + 1 + (63 - i) = 64 by omega] at hrange
    rw [hrange, List.range_succ, List.append_assoc, List.singleton_append]
  have hfound : (List.range 64).findSome? (fun j => matchAt (s.rd (Fd.RCH_MATCH_ENTRY n j)) u) = some a :=
    List.findSome?_eq_some_iff.mpr ⟨_, i, _, hsplit, ha, fun j hj => hfirst j (List.mem_range.mp hj)⟩
  rw [State.overlay, if_neg (Nat.not_le.mpr hu), hfound, Option.getD_some]

/-- A ROM address that no entry covers stays. -/
theorem overlay_none {s : State} {n : Fin 4} (hnone : ∀ i < 64, matchAt (s.rd (Fd.RCH_MATCH_ENTRY n i)) u = none) : s.overlay n u = u := by
  have hfound : (List.range 64).findSome? (fun j => matchAt (s.rd (Fd.RCH_MATCH_ENTRY n j)) u) = none :=
    List.findSome?_eq_none_iff.mpr fun j hj => hnone j (List.mem_range.mp hj)
  rw [State.overlay, hfound, Option.getD_none, ite_self]

end Match

end Sys2Proof.Machine

open Sys2Proof.Machine

/-- Settles O58: each parity bit makes the count of its half odd, so one bit turned makes one of the counts even; and the match table is searched from
entry 0 on. -/
theorem controlStoreWords : Obligations.ControlStoreWords := by
  refine ⟨fun v => ?parity, fun e u hoff => ?off, fun e u hon hone => ?one, fun e u hon hblock => ?block, fun s n u => ⟨fun hpatch => if_pos hpatch, ?uncovered, ?covered⟩⟩
  case parity =>
    obtain ⟨hword, hfit, hlow, hhigh⟩ := parityWord_sound v
    exact ⟨hword, hfit, hlow, hhigh, fun i hi => bad_of_flip hlow hhigh hi⟩
  case off => simp [matchAt, hoff]
  case one => simp [matchAt, hon, hone]
  case block => simp [matchAt, hon, hblock]
  case uncovered => exact fun _ hnone => overlay_none hnone
  case covered => exact fun i a hu hi ha hfirst => ⟨overlay_first hu hi ha hfirst, matchAt_patch ha⟩

end

section
/-! PROOF. What a microword does (R270 to R277) that the engine reads, sound and legal, for its running slot. -/

namespace Sys2Proof.Machine

variable {s : State} {n k : Fin 4} {a w : Nat}

/-- The engine's read of a sound and legal word, where the engine is neither absent nor failed, is one step of the running slot's microroutine. -/
theorem exec_machineCheck_sound {u : BitVec 13} {e : BitVec 32} {ack : Bool} {t : State} (hthere : s.unit (.reach n) ≠ 0) (hworks : s.unit (.reach n) ≠ 7)
    (ht : t = s.wakeHolds n four) (ha : a = t.overlay n u.toNat) (hw : w = t.ucodeWord n a ^^^ e.toNat) (hread : t.readsAt n a = true)
    (hsound : t.wordCheck n a w ack = none) : exec (.machineCheck n u e ack) s = .next (t.microStep n a w ack) := by
  subst hw ha ht
  show execMachineCheck n u e ack s = _
  have hup : ¬ (s.unit (.reach n) = 0 ∨ s.unit (.reach n) = 7) := not_or.mpr ⟨hthere, hworks⟩
  simp only [execMachineCheck, if_neg hup, hread, Bool.not_true, Bool.false_eq_true, if_false, hsound]

/-- One step of the running slot's microroutine: a wait, a hold, or an operation. -/
theorem microStep_runner (hrun : s.runner n = some k) (a w : Nat) (ack : Bool) : s.microStep n a w ack =
    (if mNx w = 3 then (s.entered n k).microWait n k a w else if mAsks w && !ack then (s.entered n k).holds n k a
      else (s.entered n k).microExec n k a w).tookFrees microFrees := by
  simp only [State.microStep, hrun]

/-- A word whose operation a unit acknowledges is none of END, YIELD and TRP. -/
theorem mOp_of_mAsks (h : mAsks w = true) : mOp w ≠ 0x12 ∧ mOp w ≠ 0x13 ∧ mOp w ≠ 0x14 := by
  obtain ⟨-, hop⟩ := Bool.and_eq_true_iff.mp h
  have hop : mOp w ∈ [0x0D, 0x0E, 0x15, 0x16, 0x17, 0x18, 0x19, 0x1A] := List.contains_iff_mem.mp hop
  refine ⟨?_, ?_, ?_⟩ <;> rintro heq <;> rw [heq] at hop <;> revert hop <;> decide

/-- A word with an operation of the slot's own asks no unit. -/
theorem mAsks_of_mOp (h : mOp w ≤ 0x0C ∨ mOp w = 0x14) : mAsks w = false := by
  have hop : ([0x0D, 0x0E, 0x15, 0x16, 0x17, 0x18, 0x19, 0x1A] : List Nat).contains (mOp w) = false := by
    rw [← Bool.not_eq_true, List.contains_iff_mem]
    simp only [List.mem_cons, List.not_mem_nil, or_false]
    omega
  rw [mAsks, hop, Bool.and_false]

theorem microExec_asks (h : mAsks w = true) : s.microExec n k a w =
    ((s.microUnit n k w).handshake n).stepTo n k (((s.microUnit n k w).handshake n).formed n k a w) := by
  obtain ⟨hend, hyield, htrap⟩ := mOp_of_mAsks h
  rw [State.microExec, if_neg hend, if_neg htrap, if_neg hyield, if_pos h]

/-- An operation on registers ends with the next address that its word forms. -/
theorem microExec_data (h : mOp w ≤ 0x0C) : s.microExec n k a w = (s.microData n k w).stepTo n k ((s.microData n k w).formed n k a w) := by
  rw [State.microExec, if_neg (by omega), if_neg (by omega), if_neg (by omega), mAsks_of_mOp (.inl h), if_neg Bool.false_ne_true, if_pos (by omega)]

theorem microExec_trap (h : mOp w = 0x14) :
    s.microExec n k a w = (s.updMicro n k fun _ => Micro.idle).trapSlot n k (0xFF00 + bits (mK w) 0 8) := by
  rw [State.microExec, if_neg (by omega), if_pos h]

/-- A jump word goes to the address in its low 13 bits, and has no K. -/
theorem formed_jump (h : mNx w = 1) : s.formed n k a w = bits w 0 13 := by
  rw [State.formed, if_neg (by omega), if_pos h]

theorem mK_jump (h : mNx w = 1) : mK w = 0 := if_neg (by omega)

theorem microData_move (hnx : mNx w = 1) (h : mOp w = 1) : s.microData n k w = s.mSet n k (mD w) (s.mReg n k (mS w) 0) := by
  rw [State.microData, if_pos h, mK_jump hnx]

theorem microData_alu (hnx : mNx w = 1) (hlo : 3 ≤ mOp w) (hhi : mOp w ≤ 9) :
    let r := microAlu (mOp w) (s.mReg n k (mD w) 0) (s.mReg n k (mS w) 0)
    s.microData n k w = (s.updMicro n k fun x => { x with uz := r.1 == 0, un := r.1.msb, uc := r.2 }).mSet n k (mD w) r.1 := by
  rw [State.microData, if_neg (by omega), if_neg (by omega), if_pos ⟨hlo, hhi⟩, mK_jump hnx]

end Sys2Proof.Machine

open Sys2Proof.Machine

/-- Settles O59: the read of a sound word is one step of the running slot's microroutine, and each clause is one kind of step. -/
theorem microwordsAct : Obligations.MicrowordsAct := by
  intro s n k u e ack hthere hworks t a w m hread hsound hrun
  have hexec : exec (.machineCheck n u e ack) s = .next ((if mNx w = 3 then m.microWait n k a w else if mAsks w && !ack then m.holds n k a
      else m.microExec n k a w).tookFrees microFrees) :=
    (exec_machineCheck_sound hthere hworks rfl rfl rfl hread hsound).trans (congrArg _ (microStep_runner hrun a w ack))
  have hacts : mNx w ≠ 3 → (mAsks w && !ack) = false → exec (.machineCheck n u e ack) s = .next ((m.microExec n k a w).tookFrees microFrees) :=
    fun hnx hgoes => by rw [hexec, if_neg hnx, hgoes, if_neg Bool.false_ne_true]
  refine ⟨fun hnx => ?wait, fun hnx hasks hack => ?holds, fun hnx hasks hack => ?unit, fun hnx hop => ?move, fun hnx hlo hhi r hr => ?alu,
    fun hnx hop => ?trap⟩
  case wait => rw [hexec, if_pos hnx]
  case holds => rw [hexec, if_neg hnx, hasks, hack, if_pos (by rfl)]
  case unit => rw [hacts hnx (by rw [hack, Bool.not_true, Bool.and_false]), microExec_asks hasks]
  case move =>
    rw [hacts (by omega) (by rw [mAsks_of_mOp (.inl (by omega)), Bool.false_and]), microExec_data (by omega), formed_jump hnx, microData_move hnx hop]
  case alu =>
    rw [hacts (by omega) (by rw [mAsks_of_mOp (.inl (by omega)), Bool.false_and]), microExec_data (by omega), formed_jump hnx,
      microData_alu hnx hlo hhi, hr]
  case trap => rw [hacts hnx (by rw [mAsks_of_mOp (.inr hop), Bool.false_and]), microExec_trap hop]

end

section
/-! PROOF. The arbitration of submission queues (R343). -/

namespace Sys2Proof.Machine

variable {s : State} {i j : Fin 2} {q left : Nat}

/-- The queue that round robin takes is one of the list. -/
theorem roundRobin_mem {last : Nat} {l : List Nat} (h : roundRobin last l = some q) : q ∈ l := by
  unfold roundRobin at h
  split at h
  · next hfound => exact Option.some.inj h ▸ List.mem_of_find?_eq_some hfound
  · exact List.mem_of_head? h

theorem roundRobin_isSome {last : Nat} {l : List Nat} (h : l ≠ []) : ∃ q, roundRobin last l = some q := by
  unfold roundRobin
  split
  · exact ⟨_, rfl⟩
  · exact ⟨_, List.head?_eq_some_head h⟩

/-- The queue whose turn it is in a class wants a grant, and is of the class. -/
theorem turnOf_mem {cls : CtxClass} (h : s.turnOf i cls = some q) : (q, cls) ∈ s.wanting i := by
  obtain ⟨⟨q', cls'⟩, hin, rfl⟩ := List.mem_map.mp (roundRobin_mem h)
  obtain ⟨hwants, hcls⟩ := List.mem_filter.mp hin
  rwa [← eq_of_beq hcls]

/-- Of a class that wants a grant there is a queue whose turn it is. -/
theorem turnOf_isSome {cls : CtxClass} (h : (s.wanting i).any (fun p => p.2 == cls) = true) : ∃ q, s.turnOf i cls = some q := by
  obtain ⟨p, hin, hcls⟩ := List.any_eq_true.mp h
  exact roundRobin_isSome (List.ne_nil_of_mem (List.mem_map_of_mem (List.mem_filter.mpr ⟨hin, hcls⟩)))

theorem choose_admin (h : (s.wanting i).any (fun p => p.1 == 0) = true) : s.choose i = some 0 :=
  if_pos h

theorem choose_urgent (hadmin : (s.wanting i).any (fun p => p.1 == 0) = false) (h : s.turnOf i .urgent = some q) : s.choose i = some q := by
  rw [State.choose, if_neg (Bool.not_eq_true _ ▸ hadmin), h]

/-- The queue that a controller's arbitration takes wants a grant. -/
theorem choose_mem (h : s.choose i = some q) : ∃ cls, (q, cls) ∈ s.wanting i := by
  unfold State.choose at h
  split at h
  · next hadmin =>
    obtain ⟨⟨q', cls⟩, hin, hq⟩ := List.any_eq_true.mp hadmin
    rw [← Option.some.inj h, ← eq_of_beq hq]
    exact ⟨cls, hin⟩
  · split at h
    · next hurgent => exact ⟨.urgent, turnOf_mem (hurgent.trans h)⟩
    · obtain ⟨p, -, hturn⟩ := Option.bind_eq_some_iff.mp h
      exact ⟨_, turnOf_mem hturn⟩

/-- A grant goes on under the open one, or goes to the queue that a controller's arbitration takes. -/
theorem granted_cases (h : s.granted = some (j, q, left)) :
    ((s.wanting j).any fun p => p.1 == q && s.funded j p.2) = true ∨ s.choose j = some q := by
  have hfresh : ∀ {i : Fin 2}, ((s.choose i).map fun q => (i, q, s.burst i)) = some (j, q, left) → s.choose j = some q := by
    intro i hmap
    obtain ⟨q', hq', heq⟩ := Option.map_eq_some_iff.mp hmap
    obtain ⟨rfl, rfl, -⟩ := Prod.mk.injEq .. ▸ heq
    exact hq'
  simp only [State.granted] at h
  split at h
  · next hopen =>
    obtain rfl := Option.some.inj h
    exact .inl (Bool.and_eq_true_iff.mp (Option.filter_eq_some_iff.mp hopen).2).2
  · split at h
    · next hother => exact .inr (hfresh (hother.trans h))
    · exact .inr (hfresh h)

/-- Without an open grant the controllers take turns. -/
theorem granted_fresh (hcur : s.host.arb.cur = none) : s.granted =
    (((s.choose (1 - s.host.arb.last)).map fun q => (1 - s.host.arb.last, q, s.burst (1 - s.host.arb.last))) <|>
      ((s.choose s.host.arb.last).map fun q => (s.host.arb.last, q, s.burst s.host.arb.last))) := by
  simp only [State.granted, hcur, Option.filter_none]
  cases s.choose (1 - s.host.arb.last) <;> rfl

end Sys2Proof.Machine

open Sys2Proof.Machine

/-- Settles O60: every queue that the arbitration can take is taken from `State.wanting`, and its order is that of `State.choose`. -/
theorem arbitrationGrants : Obligations.ArbitrationGrants := by
  intro s i
  have hgrant : ∀ (j : Fin 2) (q left : Nat), s.granted = some (j, q, left) → ∃ cls, (q, cls) ∈ s.wanting j := by
    intro j q left h
    obtain hopen | hchosen := granted_cases h
    · obtain ⟨⟨q', cls⟩, hin, hq⟩ := List.any_eq_true.mp hopen
      exact ⟨cls, eq_of_beq (Bool.and_eq_true_iff.mp hq).1 ▸ hin⟩
    · exact choose_mem hchosen
  refine ⟨hgrant, ?nobody, choose_admin, ?urgent, ?other, ?same⟩
  case nobody =>
    intro hnobody
    refine Option.eq_none_iff_forall_not_mem.mpr fun ⟨j, q, left⟩ h => ?_
    obtain ⟨cls, hin⟩ := hgrant j q left h
    rw [hnobody j] at hin
    exact List.not_mem_nil hin
  case urgent =>
    intro hadmin hurgent
    obtain ⟨q, hq⟩ := turnOf_isSome hurgent
    exact ⟨q, choose_urgent hadmin hq, turnOf_mem hq⟩
  case other =>
    intro hcur q hq
    rw [granted_fresh hcur, hq]
    rfl
  case same =>
    intro hcur hnone q hq
    rw [granted_fresh hcur, hnone, hq]
    rfl

end

section
/-! PROOF. Motion and media instructions of the slot that runs alone, as they begin (R109 to R126), and the commands to program slots (R93 to R101). -/

namespace Sys2Proof.Machine

variable {s : State} {n k : Fin 4}

/-- A motion or media instruction of the slot that runs alone acts where calibration does not claim the channel (R513). -/
theorem instrMove_sole (h : s.sole n k) (hclaim : s.cal.claim ≠ some n) (f : Slot → State) : s.instrMove n k f = .next (f (s.pslot n k)) :=
  (if_neg hclaim).trans (instr_sole h f)

/-- A place that the table holds, at an actuator that can move, passes the check of the motions. -/
theorem place_reachable {u : State} {tp : Nat} (hplace : (u.place n tp).isSome = true) (hmovable : u.movable n = true) :
    ¬ ((u.place n tp).isNone || !u.movable n) = true := by
  rw [hmovable, Option.isNone_eq_false_iff.mpr hplace]
  exact Bool.false_ne_true

theorem motion_begins {u : State} {o : Op} (hplace : (u.place n (u.pslot n k).arch.tp.toNat).isSome = true) (hmovable : u.movable n = true) :
    u.motion n k o = ((u.enter n k o .running).freshSeek n).goTo n k ⟨(u.pslot n k).arch.tp.toNat, false, (u.pslot n k).arch.offset.toInt⟩ :=
  if_neg (place_reachable hplace hmovable)

/-- A change of a slot's registers moves no actuator into or out of reach. -/
theorem updArch_movable (s : State) (n k m : Fin 4) (g : Arch → Arch) : (s.updArch n k g).movable m = s.movable m := rfl

section Motion

variable (h : s.sole n k) (hclaim : s.cal.claim ≠ some n)
include h hclaim

theorem exec_seek_sole (a : Fin 16) :
    exec (.seek n k a) s = .next ((s.updArch n k fun y => { y with tp := (s.pslot n k).arch.reg a }).motion n k .seek) := by
  show execSeek n k a s = _
  rw [execSeek, instrMove_sole h hclaim]

theorem exec_follow_sole {d : BitVec 8} {t : Nat} (hlo : -32 ≤ d.toInt) (hhi : d.toInt ≤ 32)
    (ht : (tpTrack (s.pslot n k).arch.tp.toNat + d.toInt : Int) = t) (htrack : t < 2 ^ 24) (htp : (s.pslot n k).arch.tp.toNat < 2 ^ 38) :
    let tp := mkTp (tpHead (s.pslot n k).arch.tp.toNat) t (tpSlot (s.pslot n k).arch.tp.toNat)
    (s.place n tp).isSome = true →
      exec (.follow n k d) s = .next ((s.updArch n k fun y => { y with tp := BitVec.ofNat 64 tp }).motion n k .follow) := by
  intro tp hplace
  show execFollow n k d s = _
  have hnear : ¬ (d.toInt < -32 ∨ 32 < d.toInt) := by omega
  have hon : ¬ ((t : Int) < 0 ∨ 2 ^ 38 ≤ (s.pslot n k).arch.tp.toNat ∨ (s.place n tp).isNone = true ∨ (2 ^ 24 : Int) ≤ t) := by
    simp only [Option.isNone_eq_false_iff.mpr hplace, Bool.false_eq_true, false_or]
    omega
  rw [execFollow, instrMove_sole h hclaim]
  simp only [if_neg hnear, ht, Int.toNat_natCast]
  exact congrArg _ (if_neg hon)

variable (hmovable : s.movable n = true)
include hmovable

theorem exec_settle_sole {g : Fin 4} (t : BitVec 20) (hplace : (s.place n (s.pslot n k).arch.tp.toNat).isSome = true) :
    exec (.settle n k g t) s = .next (if (s.nameSet n g).ontUnder n g.val then (s.nameSet n g).complete n k fun y => y.setCode 0
      else (s.nameSet n g).enter n k (.settle g) .running) := by
  show execSettle n k g t s = _
  rw [execSettle, instrMove_sole h hclaim]
  exact congrArg _ (if_neg (place_reachable hplace hmovable))

theorem exec_head_sole {o : Op11} {tp : Nat} :
    let w := (s.pslot n k).arch
    let s1 := s.updArch n k fun y => { y with tp := BitVec.ofNat 64 tp }
    tp = w.tp.toNat % 2 ^ 35 + 2 ^ 35 * ((w.op11 o).toNat % 8) + 2 ^ 38 * (w.tp.toNat / 2 ^ 38) → (s1.place n tp).isSome = true →
      exec (.head n k o) s = .next (((((s1.clearBlk n).enter n k .head .running).sendSelect n k ((w.op11 o).toNat % 8)).freshSeek n).findFirst n
        ⟨tp, false, w.offset.toInt⟩) := by
  rintro w s1 rfl hplace
  show execHead n k o s = _
  rw [execHead, instrMove_sole h hclaim]
  exact congrArg _ (if_neg (place_reachable (u := s1) hplace hmovable))

theorem exec_skipto_sole {o : Op11} {tp : Nat} (htp : tp = 2 ^ 11 * ((s.pslot n k).arch.tp.toNat / 2 ^ 11) + ((s.pslot n k).arch.op11 o).toNat)
    (hplace : (s.place n tp).isSome = true) : exec (.skipto n k o) s =
      .next ((((s.updArch n k fun y => { y with tp := BitVec.ofNat 64 tp }).enter n k .skipto .running).freshSeek n).position n k) := by
  subst htp
  show execSkipto n k o s = _
  rw [execSkipto, instrMove_sole h hclaim]
  exact congrArg _ (if_neg (place_reachable hplace hmovable))

end Motion

/-- A media instruction that passes its checks enters from its first slot, and positions. -/
theorem beginMedia_passes {kind : MediaKind} {pre : State → State × Option Nat} {g : Media → Media} {t : State}
    (hcheck : (s.record n k).mediaCheck n k = none) (hpre : pre (s.record n k) = (t, none)) :
    let a := ((s.record n k).pslot n k).arch
    let next := if kind = .raw then a.tp.toNat else if kind = .wrs then t.firstWrite n a.tp.toNat else t.firstData n a.tp.toNat
    s.beginMedia n k kind pre g =
      ((t.enter n k (.media (g (Media.fresh kind next a.cn.toNat (t.pslot n k).madeEntry))) .running).freshSeek n).position n k := by
  simp only [State.beginMedia, hcheck, hpre]

section MediaInstructions

variable (h : s.sole n k) (hclaim : s.cal.claim ≠ some n) (hcheck : (s.record n k).mediaCheck n k = none)
include h hclaim hcheck

theorem exec_rds_sole (e : Fin 8) (g : Fin 4) {v : Fin 8} {dp : Bool} (tp nx ct : Bool)
    (hstore : v ≠ 0 ∨ dp = true → (s.record n k).on (Fd.CHN_CTL_STORE_EN n) = true) :
    let r := s.record n k
    let a := (r.pslot n k).arch
    exec (.rds n k e g v dp tp nx ct) s = .next (((r.enter n k (.media { Media.fresh .rds (r.firstData n a.tp.toNat) a.cn.toNat
      (r.pslot n k).madeEntry with eqs := e, wgt := g, avg := v, deep := dp, tpr := tp, nox := nx, cont := ct }) .running).freshSeek n).position n k) := by
  intro r a
  show execRds n k e g v dp tp nx ct s = _
  have hfree : ¬ ((v.val ≠ 0 ∨ dp = true) ∧ (!r.on (Fd.CHN_CTL_STORE_EN n)) = true) := by
    rintro ⟨huses, hoff⟩
    rw [hstore (huses.imp_left Fin.val_ne_zero_iff.mp)] at hoff
    exact Bool.false_ne_true hoff
  rw [execRds, instrMove_sole h hclaim]
  exact congrArg _ (beginMedia_passes hcheck (Prod.ext rfl (if_neg hfree)))

theorem exec_wrs_sole (hwrs : (s.record n k).wrsCheck n k = none) :
    let a := ((s.record n k).pslot n k).arch
    let r := (s.record n k).wrsRun n k
    exec (.wrs n k) s = .next (((r.enter n k (.media (Media.fresh .wrs (r.firstWrite n a.tp.toNat) a.cn.toNat (r.pslot n k).madeEntry))
      .running).freshSeek n).position n k) := by
  intro a r
  show execWrs n k s = _
  rw [execWrs, instrMove_sole h hclaim]
  refine congrArg _ (beginMedia_passes hcheck (t := r) ?_)
  simp only [hwrs]
  rfl

theorem exec_vfy_sole (c : Bool) (t : BitVec 8) :
    let r := s.record n k
    let a := (r.pslot n k).arch
    exec (.vfy n k c t) s = .next (((r.enter n k (.media { Media.fresh .vfy (r.firstData n a.tp.toNat) a.cn.toNat (r.pslot n k).madeEntry with
      cmpb := c, wth := t.toNat }) .running).freshSeek n).position n k) := by
  intro r a
  show execVfy n k c t s = _
  rw [execVfy, instrMove_sole h hclaim]
  exact congrArg _ (beginMedia_passes hcheck rfl)

theorem exec_scan_sole {b : Fin 16} (st : Fin 4) (hold : s.mediaCheck n k = none) (halign : ((s.pslot n k).arch.reg b).toNat % 32 = 0)
    (hlo : 0x14000 ≤ ((s.pslot n k).arch.reg b).toNat)
    (hhi : ((s.pslot n k).arch.reg b).toNat + 32 * (s.pslot n k).arch.cn.toNat ≤ 0x200000) :
    let r := s.record n k
    let a := (r.pslot n k).arch
    exec (.scan n k b st) s = .next (((r.enter n k (.media { Media.fresh .scan (r.firstData n a.tp.toNat) a.cn.toNat (r.pslot n k).madeEntry with
      stop := st, base := ((s.pslot n k).arch.reg b).toNat }) .running).freshSeek n).position n k) := by
  intro r a
  show execScan n k b st s = _
  have harea : ¬ (((s.pslot n k).arch.reg b).toNat % 32 ≠ 0 ∨ ((s.pslot n k).arch.reg b).toNat < 0x14000 ∨
      0x200000 < ((s.pslot n k).arch.reg b).toNat + 32 * (s.pslot n k).arch.cn.toNat) := by omega
  rw [execScan, instrMove_sole h hclaim]
  simp only [hold, if_neg harea]
  exact congrArg _ (beginMedia_passes hcheck rfl)

theorem exec_raw_sole {b : Fin 16} {c : Fin 32} (hch : c.val = 24 + 2 * n.val) (halign : ((s.pslot n k).arch.reg b).toNat % 64 = 0) :
    let r := s.record n k
    let a := (r.pslot n k).arch
    exec (.raw n k b c) s = .next (((r.enter n k (.media { Media.fresh .raw a.tp.toNat a.cn.toNat (r.pslot n k).madeEntry with
      base := ((s.pslot n k).arch.reg b).toNat % 2 ^ 40 }) .running).freshSeek n).position n k) := by
  intro r a
  show execRaw n k b c s = _
  have hwhole : ¬ ((s.pslot n k).arch.reg b).toNat % 2 ^ 40 % 64 ≠ 0 := by omega
  rw [execRaw, instrMove_sole h hclaim]
  refine congrArg _ (beginMedia_passes hcheck (t := r) ?_)
  rw [if_neg (not_not.mpr hch), if_neg hwhole]

end MediaInstructions

/-- START of a slot at rest. -/
theorem exec_slotStart_rest (hst : (s.pslot n k).st = .idle ∨ (s.pslot n k).st = .halted ∨ (s.pslot n k).st = .faulted) :
    exec (.slotStart n k) s = .next ((((s.clearFailures n k).updSlot n k fun y =>
      { Slot.reset with arch := { Arch.fresh with pc := 4 * s.rd (Fd.RCH_SLOT_ENTRY_ENTRY n k) }, trap := y.trap, st := .ready }).record n
        k).dispatch n) := by
  show execSlotStart n k s = _
  exact if_pos hst

/-- RESUME of a slot that waits for it: ready, and past a TRAP of its own. -/
theorem exec_slotResume_waiting (hst : (s.pslot n k).st = .stopped ∨ (s.pslot n k).st = .halted ∨ (s.pslot n k).st = .trapped) :
    exec (.slotResume n k) s = .next ((s.updSlot n k fun x => { x with
      st := .ready
      arch := if x.st = .trapped ∧ x.trap ≤ 0xFEFF then x.arch.onward else x.arch }).dispatch n) := by
  show execSlotResume n k s = _
  exact if_pos hst

/-- STOP of an active slot between two instructions takes effect at once. -/
theorem exec_slotStop_between (hop : (s.pslot n k).op = none) (hactive : (s.pslot n k).active = true) :
    exec (.slotStop n k) s = .next ((s.updSlot n k fun y => { y with st := .stopped }).dispatch n) := by
  show execSlotStop n k s = _
  simp only [execSlotStop, State.stopSlot, hactive, hop, Bool.not_true, Bool.false_eq_true, if_false]

/-- APPEND without ADDCN, to a chain with room. -/
theorem exec_slotAppend_room {e : BitVec 64} (hroom : (s.pslot n k).arch.chain.length < 16) (haddcn : e.getLsbD 63 = false) :
    exec (.slotAppend n k e) s = .next (s.append n k e.toNat) := by
  show execSlotAppend n k e s = _
  have hbit : bit e.toNat 63 = false := (bit_toNat e 63).trans haddcn
  simp only [execSlotAppend, if_neg (Nat.not_le.mpr hroom), hbit, Bool.false_and, Bool.false_eq_true, if_false]

end Sys2Proof.Machine

open Sys2Proof.Machine

/-- Settles O9: with the channel unclaimed and the place in reach, each is the branch of its instruction that begins the motion. -/
theorem motionBegins : Obligations.MotionBegins := by
  intro s n k h hclaim hmovable w toTp
  refine ⟨exec_seek_sole h hclaim, fun u o hplace hreach => motion_begins hplace hreach,
    fun d t hlo hhi ht htrack htp hplace => exec_follow_sole h hclaim hlo hhi ht htrack htp hplace, fun g t hplace hont => ?ends, fun g t hplace hont => ?waits,
    fun o tp htp hplace => exec_head_sole h hclaim hmovable htp hplace, fun o tp htp hplace => exec_skipto_sole h hclaim hmovable htp hplace⟩
  case ends => rw [exec_settle_sole h hclaim hmovable t hplace, if_pos hont]
  case waits => rw [exec_settle_sole h hclaim hmovable t hplace, if_neg (Bool.not_eq_true _ ▸ hont), enter_running]

/-- Settles O10: each is `State.beginMedia` past its checks, at its own operands. -/
theorem mediaInstructionsBegin : Obligations.MediaInstructionsBegin := by
  intro s n k h hclaim hcheck r a made fresh begins
  exact ⟨fun e g v dp tp nx ct hstore => exec_rds_sole h hclaim hcheck e g tp nx ct hstore, exec_wrs_sole h hclaim hcheck, exec_vfy_sole h hclaim hcheck,
    fun b st hold halign hlo hhi => exec_scan_sole h hclaim hcheck st hold halign hlo hhi, fun b c hch halign => exec_raw_sole h hclaim hcheck hch halign⟩

/-- Settles O11: each command's own branch for the state the slot is in. -/
theorem slotCommandsAct : Obligations.SlotCommandsAct := by
  intro s n k x
  refine ⟨exec_slotStart_rest, fun hst => ?resume, fun hst htrap => ?resumeTrapped, exec_slotStop_between, fun hst => if_neg hst, rfl, fun hintr => if_pos hintr,
    fun e hroom haddcn => exec_slotAppend_room hroom haddcn, rfl, rfl, fun m => ⟨_, rfl, ?set, fun f hf => wr_rd_other s _ hf⟩⟩
  case resume =>
    have hnot : ¬ (x.st = .trapped ∧ x.trap ≤ 0xFEFF) := by
      rintro ⟨htrapped, -⟩
      simp [htrapped] at hst
    rw [exec_slotResume_waiting (hst.imp_right .inl)]
    congr 2
    exact updSlot_congr (by rw [if_neg hnot])
  case resumeTrapped =>
    rw [exec_slotResume_waiting (.inr (.inr hst))]
    congr 2
    exact updSlot_congr (by rw [if_pos ⟨hst, htrap⟩])
  case set => exact wr_rd_same s _ _

end

section
/-! PROOF. Events of the program engine (R63, R82, R114, R190, R280) and of the channel (R22, R50 to R56, R140 to R147). -/

namespace Sys2Proof.Machine

variable {s : State} {n k : Fin 4}

theorem exec_sectorStart_skipto {t : Target} {g : Fin 4} (hrun : s.runner n = some k) (hop : (s.pslot n k).op = some .skipto)
    (haim : (s.pslot n k).aim = some (t, g)) (hmovable : s.movable n = true) (hfollows : s.follows n t g = true) (raw : Option Signal) :
    exec (.sectorStart n raw) s = .next (s.complete n k fun a => a.setCode 0) := by
  show execSectorStart n raw s = _
  simp [execSectorStart, hrun, hop, haim, hmovable, hfollows]

theorem hasNext_of_left {m : Media} (hleft : m.left ≠ 0) : s.hasNext n m = true := by
  simp [State.hasNext, hleft]

theorem exec_sectorStart_media {m : Media} {p : Place} {t : Target} {g : Fin 4} {raw : Option Signal} (hrun : s.runner n = some k)
    (hop : (s.pslot n k).op = some (.media m)) (haim : (s.pslot n k).aim = some (t, g)) (hending : m.ending = none)
    (hstop : (s.pslot n k).stopReq = false) (hleft : m.left ≠ 0) (hyield : s.mustYield n k = false) (hopen : s.trackOpen n k m = false)
    (hplace : s.place n m.nextTp = some p) (hmovable : s.movable n = true) (hfollows : s.follows n t g = true) :
    exec (.sectorStart n raw) s = .next ((s.notePlace n k true).startNext n k p { m with positioned := true } raw) := by
  show execSectorStart n raw s = _
  simp [execSectorStart, hrun, hop, haim, hending, hstop, hasNext_of_left hleft, hyield, hopen, hplace, hmovable, hfollows]

theorem startNext_eq (u : State) (m : Media) (p : Place) (raw : Option Signal) : u.startNext n k p m raw = match m.kind with
    | .wrs => u.startWrite n k p m
    | .raw => u.captureRaw n k m raw
    | _ => if m.left = 0 then u.startExtra n k m p else u.startRead n k m := by
  cases hkind : m.kind <;> simp only [State.startNext, hkind]

theorem exec_readBehindDecided_written {b : Begun} (o : ReadBehind) (raw : Option (List Int))
    (hbegun : ((s.eng n).begun.find? fun b => !b.isRead) = some b) (hwritten : b.written = true) :
    let o' := match raw with
      | none => o
      | some rb => s.observed n b rb o
    exec (.readBehindDecided n o raw) s =
      .next (if s.readBehindOk n o' then s.commitWrite n b.slot b o'.weight
        else if !o'.aligned && s.slipStopped n b.slot then s.leaveUncommitted n b.slot b
        else s.failWrite n b.slot b o'.weight).settleVoids := by
  intro o'
  show execReadBehindDecided n o raw s = _
  have hw : ¬ (!b.written) = true := by simp [hwritten]
  rw [execReadBehindDecided, hbegun]
  refine (if_neg hw).trans ?_
  show (if s.readBehindOk n o' then .next _ else if !o'.aligned && s.slipStopped n b.slot then .next _ else .next _ : Host.Outcome State Fault Refusal) = _
  split_ifs <;> rfl

/-- The cause that the engine finds with a control-store word that it reads is acted on (R280). -/
theorem exec_machineCheck_cause {u : BitVec 13} {e : BitVec 32} {ack : Bool} {c : Nat} {t : State} {a w : Nat}
    (hthere : s.unit (.reach n) ≠ 0) (hworks : s.unit (.reach n) ≠ 7) (ht : s.wakeHolds n four = t) (ha : t.overlay n u.toNat = a)
    (hw : t.ucodeWord n a ^^^ e.toNat = w) (hreads : t.readsAt n a = true) (hcause : t.wordCheck n a w ack = some c) :
    exec (.machineCheck n u e ack) s = .next (t.machineChecked n a w c) := by
  subst ht ha hw
  show execMachineCheck n u e ack s = _
  simp [execMachineCheck, hthere, hworks, hreads, hcause]

theorem wordCheck_parity {a w : Nat} {ack : Bool} (hbad : lowBad w = true ∨ highBad w = true) : s.wordCheck n a w ack = some 1 :=
  if_pos (by simpa using hbad)

theorem wordCheck_sound {a w : Nat} {ack : Bool} (hlow : lowBad w = false) (hhigh : highBad w = false) :
    s.wordCheck n a w ack = if illegalAt a w then some 2 else if s.microExpires n a w ack then some 3 else none := by
  simp [State.wordCheck, hlow, hhigh]

theorem four_map_get {α β : Type} (g : α → β) (f : Four α) (i : Fin 4) : (f.map g).get i = g (f.get i) := by
  match i with
  | 0 | 1 | 2 | 3 => rfl

/-- An index field that agrees with the count of slots (R52, R54). -/
theorem exec_indexField_agrees {dev : Nat} (hsync : (s.ch n).resync = false) (hdev : dev < 16) :
    exec (.indexField n dev) s = .next ((s.updEng n fun r => { r with slots := r.slots.map fun x => x.indexed (s.countsSlots n) }).updCh n fun c =>
      { c with agree := min 2 (c.agree + 1), missed := 0, slipInh := c.slipInh && !decide (2 ≤ (s.ch n).agree + 1) }) := by
  show execIndexField n dev s = _
  have hresync : ¬ (s.ch n).resync = true := by simp [hsync]
  exact (if_neg hresync).trans (if_neg (by omega))

theorem two_le_agree_succ (a : Nat) : (!decide (2 ≤ a + 1)) = (a == 0) := by
  cases a <;> simp

theorem exec_bankWord_confirm {w dev : Nat} {m : BitVec 4} {g : BitVec 20} {c : BitVec 4} (hblk : s.blk n = true) (hwhole : s.truncated n w = false)
    (hphase : (s.sv n).phase = .confirm) :
    exec (.bankWord n w m g c dev) s = .next (s.confirmWord n (bankOfWord m.toNat g.toNat c.toNat)) := by
  show execBankWord n w m g c dev s = _
  simp [execBankWord, hblk, hwhole, hphase]

theorem exec_bankWord_track {w dev b : Nat} {m : BitVec 4} {g : BitVec 20} {c : BitVec 4} (hblk : s.blk n = true) (hwhole : s.truncated n w = false)
    (hphase : (s.sv n).phase ≠ .confirm) (hmode : s.mode n = 2) (hword : bankOfWord m.toNat g.toNat c.toNat = some b) (hwriting : s.writing n = false) :
    exec (.bankWord n w m g c dev) s = .next (s.checkBank n b) := by
  show execBankWord n w m g c dev s = _
  simp [execBankWord, hblk, hwhole, hphase, hmode, hword, hwriting]

/-- A slice outside its offset limit twice running is faulty where no calibration tries it (R143). -/
theorem exec_sliceWindowEnd_faulty {rb : Bool} {sl : Fin 9} {o g : Nat} (hofs : s.rd (Fd.CHN_SLMON_OFS_LIM n) < o)
    (hwas : (s.ch n).sliceHits.contains (rb, sl.val) = true) (hstands : s.on (spareOn rb n) = true → s.rd (spareFor rb n) ≠ sl.val)
    (hcal : s.calBusy = false) :
    exec (.sliceWindowEnd n rb sl o g) s = .next ((s.updCh n fun c =>
      { c with sliceHits := ((s.ch n).sliceHits.filter fun p => p != (rb, sl.val)) ++ [(rb, sl.val)] }).sliceFaulty n rb sl.val false) := by
  show execSliceWindowEnd n rb sl o g s = _
  have hin : (s.on (spareOn rb n) && s.rd (spareFor rb n) == sl.val) = false := by simpa using hstands
  simp only [execSliceWindowEnd, hin, hofs, hwas, hcal, Bool.not_false, decide_true, Bool.true_or, Bool.and_self, if_true, Bool.not_true,
    Bool.false_eq_true, if_false, Bool.false_and]

theorem channelRate_region {r : Region} (hregion : s.bankRegionNow n = some r) :
    s.channelRate n = (16 * r.tone * s.rd Fd.SPN_SPEED_RPM10 + 300000000) / 600000000 := by
  rw [State.channelRate, hregion]
  rfl

theorem exec_blkLock_locks (hblk : s.blk n = false) (hen : s.on (Fd.CHN_CTL_EN n) = true) (hhead : s.headOk n (s.selHead n) = true)
    (hlo : 1600 ≤ s.channelRate n) (hhi : s.channelRate n ≤ 7200) (hsel : s.selecting n = false)
    (howner : ((s.wr (Fd.CHN_STATUS_BLK n) 1).wr (Fd.CHN_RATE_MBPS n) (s.channelRate n)).ownerOp n = none) :
    exec (.blkLock n) s = .next ((s.wr (Fd.CHN_STATUS_BLK n) 1).wr (Fd.CHN_RATE_MBPS n) (s.channelRate n)) := by
  show execBlkLock n s = _
  simp [execBlkLock, hblk, hen, hhead, hsel, howner, Nat.not_lt.mpr hlo, Nat.not_lt.mpr hhi]

theorem exec_blkLoss_lost {c : BlkCause} (hblk : s.blk n = true) :
    exec (.blkLoss n c) s = .next ((match c with
      | .headChange | .regionChange => s.clearBlk n
      | .phase | .amplitude | .disabled => (s.clearBlk n).countBlkLoss n).writeStop n 3) := by
  show execBlkLoss n c s = _
  refine (if_neg (by simp [hblk])).trans ?_
  cases c <;> rfl

end Sys2Proof.Machine

open Sys2Proof.Machine

/-- Settles O12: each event of the engine, in the case that its hypotheses name. -/
theorem engineEventsAct : Obligations.EngineEventsAct := by
  intro s n k
  refine ⟨?load, ?loadFails, ?store, ?skipto, ?media, ?startNext, ?readBehind, ?machineCheck⟩
  case load =>
    intro h hok
    show execRegionLoad n h s = _
    rw [execRegionLoad, hok]
  case loadFails =>
    intro h c i hbad
    show execRegionLoad n h s = _
    rw [execRegionLoad, hbad]
  case store => exact fun _ _ => rfl
  case skipto => exact fun t g hrun hop haim hmovable hfollows raw => exec_sectorStart_skipto hrun hop haim hmovable hfollows raw
  case media =>
    exact fun m p t g raw hrun hop haim hending hstop hleft hyield hopen hplace hmovable hfollows =>
      exec_sectorStart_media hrun hop haim hending hstop hleft hyield hopen hplace hmovable hfollows
  case startNext => exact startNext_eq
  case readBehind => exact fun b o raw hbegun hwritten => exec_readBehindDecided_written o raw hbegun hwritten
  case machineCheck =>
    intro u e ack hthere hworks t a w hreads
    refine ⟨fun hbad => ?_, fun hlow hhigh hillegal => ?_, fun hlow hhigh hlegal hexpires => ?_⟩
    · exact exec_machineCheck_cause hthere hworks rfl rfl rfl hreads (wordCheck_parity hbad)
    · exact exec_machineCheck_cause hthere hworks rfl rfl rfl hreads ((wordCheck_sound hlow hhigh).trans (if_pos hillegal)) |>.trans (by
        rw [State.machineChecked, if_neg (by decide), if_neg (by decide), hlow, hhigh])
    · have hcause : t.wordCheck n a w ack = some 3 := by
        rw [wordCheck_sound hlow hhigh, hlegal, hexpires]
        rfl
      exact exec_machineCheck_cause hthere hworks rfl rfl rfl hreads hcause

/-- Settles O13: each event of the channel, in the case that its hypotheses name. -/
theorem channelEventsAct : Obligations.ChannelEventsAct := by
  intro s n
  refine ⟨?index, ?missed, ?missedThird, ?truncated, ?confirm, ?compare, ?slice, ?lock, ?lossPhase, ?lossHead, rfl, rfl, fun _ => rfl, ?other⟩
  case index =>
    intro dev hsync hdev
    refine ⟨_, exec_indexField_agrees hsync hdev, ?agree, ?zero, ?inhibit, fun k => ⟨?slot, ?idx⟩, ?frame⟩
    case agree => simp
    case zero => simp
    case inhibit => simp [← two_le_agree_succ]
    case slot => simp [State.pslot, four_map_get]
    case idx => simp [State.pslot, four_map_get, Slot.indexed]
    case frame => exact fun p hp => by cases p <;> first | rfl | simp at hp
  case missed =>
    intro hfew
    have hfirst : ¬ 3 ≤ (s.ch n).missed + 1 := by omega
    refine ⟨_, if_neg hfirst, by simp, by simp, by simp, fun p hp => by cases p <;> first | rfl | simp at hp⟩
  case missedThird =>
    intro hmany
    exact if_pos (Nat.succ_le_succ hmany)
  case truncated =>
    intro w m g c dev htrunc
    show execBankWord n w m g c dev s = _
    rw [execBankWord, htrunc, Bool.or_true, if_pos rfl]
  case confirm => exact fun w m g c dev hblk hwhole hphase => exec_bankWord_confirm hblk hwhole hphase
  case compare => exact fun w m g c dev b hblk hwhole hphase hmode hword hwriting => exec_bankWord_track hblk hwhole hphase hmode hword hwriting
  case slice => exact fun rb sl o g hofs hwas hstands hcal => exec_sliceWindowEnd_faulty hofs hwas hstands hcal
  case lock =>
    exact fun r hblk hen hhead hregion hlo hhi hsel howner => ⟨channelRate_region hregion, exec_blkLock_locks hblk hen hhead hlo hhi hsel howner⟩
  case lossPhase => exact exec_blkLoss_lost
  case lossHead => exact exec_blkLoss_lost
  case other => exact fun q => ⟨_, rfl, rfl, fun p hp => by cases p <;> first | rfl | simp at hp⟩

end

section
/-! PROOF. Events of the read path: framing, attempts, the deep decoder, reconstruction and averaging (R116, R147 to R165). -/

namespace Sys2Proof.Machine

variable {s : State} {n k : Fin 4} {b : Begun} {m : Media}

theorem exec_taDetect_span {rb : Bool} {codes : List Int} {i : Int} (hen : s.on (Fd.CHN_CTL_TAEN n) = true)
    (hbegun : ((s.eng n).begun.reverse.find? fun b => b.isRead && b.phase == ReadPhase.inline && b.attempts == 0) = some b)
    (hmedia : ((s.addSpans n b (s.taSpans n rb i codes)).pslot n b.slot).media? = some m) :
    let s1 := s.addSpans n b (s.taSpans n rb i codes)
    let y := { s1.again n b with found := true, badR71 := false }
    exec (.taDetect n rb codes i) s = .next (if covered (-64) y.spans ≤ 2048 then s1 else (s1.inlineFail n m y).drainAll n) := by
  intro s1 y
  show execTaDetect n rb codes i s = _
  have hon : ¬ (!s.on (Fd.CHN_CTL_TAEN n)) = true := by simp [hen]
  rw [execTaDetect, if_neg hon, hbegun]
  simp only [hmedia]
  exact (apply_ite Host.Outcome.next _ _ _).symm

theorem exec_inlineDeadline_oldest {sc : List Nat} (hold : s.oldest n (fun b => b.phase == ReadPhase.inline) = some (b, m)) :
    let s1 := if b.attempts = 0 then s.frameSector n b (s.framing n sc).found (s.framing n sc).dev else s
    exec (.inlineDeadline n sc) s = .next ((s1.inlineFail n m (s1.again n b)).drainAll n) := by
  intro s1
  show execInlineDeadline n sc s = _
  rw [execInlineDeadline, hold]

theorem exec_unsampledSector_some {avg : Bool}
    (hb : (if avg then s.averaged n else (s.oldest n fun b => b.phase == ReadPhase.inline && b.attempts == 0).map Prod.fst) = some b)
    (hmedia : (s.pslot n b.slot).media? = some m) : exec (.unsampledSector n avg) s = .next ((s.unsampled n m b).drainAll n) := by
  show execUnsampledSector n avg s = _
  rw [execUnsampledSector, hb]
  simp only [hmedia]

/-- A first attempt with the sync mark found that leaves a sector which passes ends its reading (R151). -/
theorem attemptEnds_passes {f : Framing} {o : Decoded} {a : Attempt} (hfirst : b.attempts = 0) (hfound : f.found = true)
    (hattempt : (attempts true (s.on (Fd.CHN_CTL_ALT n)) (s.on (Fd.CHN_CTL_FLY n)) f.p f.q)[0]? = some a) (hfly : a.fly = false) :
    let r := s.attempt n m b a.dev (s.rd (Fd.CHN_DEC_GLOBAL n)) (s.rd (Fd.CHN_DEC_TOTAL n)) o
    s.passes n m r.2 r.1 = true → s.attemptEnds n m b f o =
      (s.updBegun n b fun c => { c with attempts := c.attempts + 1, weight := r.1.weight }).sectorRead n m r.2 r.1 false := by
  intro r hpasses
  simp only [State.attemptEnds, hfound, hfirst, hattempt]
  rw [if_pos hpasses]
  simp [hfly, r]

theorem exec_decodeAttemptDone_first {pr : Fin 2} {sc : List Nat} {o : Decoded} {raw : Option Signal} (hpair : s.pairOn n pr.val = some b)
    (hmedia : (s.pslot n b.slot).media? = some m) (hfirst : b.attempts = 0) :
    let s1 := s.sampled n b raw
    let b1 := s1.again n b
    let f := s1.framing n (s1.scoresOf n m b1 sc)
    let s2 := s1.frameSector n b f.found f.dev
    covered (-64) b1.spans ≤ 2048 →
      exec (.decodeAttemptDone n pr sc o raw) s = .next (((s2.attemptEnds n m (s2.again n b) f o).pairNext n pr.val).drainAll n) := by
  intro s1 b1 f s2 hclear
  show execDecodeAttemptDone n pr sc o raw s = _
  have hfew : ¬ (True ∧ 2048 < covered (-64) b1.spans) := by omega
  rw [execDecodeAttemptDone, hpair]
  simp only [hmedia, hfirst, if_true]
  exact if_neg hfew

theorem exec_deepDecodeDone_passes {d : DeepReq} {l : List DeepReq} {e : StoreEntry} {o : Decoded} (hdeep : s.deep = d :: l)
    (hbusy : s.on Fd.DEEP_DSTATUS_BUSY = true) (hold : s.oldest d.n (fun b => b.slot == d.slot && b.tp == d.tp) = some (b, m))
    (hentry : (s.ch d.n).store.find? (fun e => e.slot == b.slot && e.tp == b.tp) = some e) (hstore : s.on (Fd.CHN_CTL_STORE_EN d.n) = true) :
    let s1 := ({ s with deep := l }.wr Fd.DEEP_DSTATUS_BUSY 0).bump Fd.DEEP_DDONE_COUNT
    let r := s1.storeAttempt d.n m b e (s.rd Fd.DEEP_DCTL_GLOBAL) (s.rd Fd.DEEP_DCTL_ITER) o
    s.passes d.n m r.2 r.1 = true → exec (.deepDecodeDone o) s = .next (((s1.sectorRead d.n m r.2 r.1 true).drainAll d.n).pushDeep) := by
  intro s1 r hpasses
  show execDeepDecodeDone o s = _
  have hwork : ¬ (!s.on Fd.DEEP_DSTATUS_BUSY) = true := by simp [hbusy]
  have hon : ¬ (!s.on (Fd.CHN_CTL_STORE_EN d.n)) = true := by simp [hstore]
  rw [execDeepDecodeDone, hdeep]
  refine (if_neg hwork).trans ?_
  simp only [hold, hentry]
  exact (if_neg hon).trans (if_pos hpasses)

/-- A closed group whose tracks have all been seen, at most two of them failed, gives its sector back from parity (R164). -/
theorem exec_trackParityReconstruct_passes {p : Place} {c : Bool} (hold : s.oldest n (fun b => b.phase == ReadPhase.parity) = some (b, m))
    (hplace : s.place n b.tp = some p) (hclosed : s.groupClosed n (tpHead b.tp) p = true)
    (hseen : ∀ t ∈ p.groupTps (tpHead b.tp), ∃ q ∈ m.seen, q.1 = t)
    (hfailed : ((p.groupTps (tpHead b.tp)).countP fun t => m.seen.any fun q => q.1 == t && !q.2) ≤ 2) :
    let r := s.reconstructed n m b p c
    let s0 := s.updMedia n b.slot fun m => { m with extra := m.extra.filter fun t => !(p.groupTps (tpHead b.tp)).contains t }
    s.passes n m { b with sector := { r.2 with whole := true } } ⟨true, r.1, b.weight⟩ = true →
      exec (.trackParityReconstruct n c) s = .next (((s0.updBegun n b fun x =>
        { x with phase := .good false, sector := { r.2 with whole := true } }).updArch n b.slot fun a => { a with dec := true }).drainAll n) := by
  intro r s0 hpasses
  show execTrackParityReconstruct n c s = _
  have hsolvable : ¬ ((!s.groupClosed n (tpHead b.tp) p) = true ∨ 2 < (p.groupTps (tpHead b.tp)).countP fun t => m.seen.any fun q => q.1 == t && !q.2) := by
    simp only [hclosed, Bool.not_true, Bool.false_eq_true, false_or]
    omega
  have hnone : ¬ ((p.groupTps (tpHead b.tp)).filter fun t => !(m.seen.any fun q => q.1 == t)) ≠ [] := by
    refine not_not.mpr (List.filter_eq_nil_iff.mpr fun t ht => ?_)
    obtain ⟨q, hq, hqt⟩ := hseen t ht
    have hany : (m.seen.any fun q => q.1 == t) = true := List.any_eq_true.mpr ⟨q, hq, by simp [hqt]⟩
    rw [hany]
    decide
  rw [execTrackParityReconstruct, hold]
  simp only [hplace]
  rw [if_neg hsolvable, if_neg hnone]
  exact if_pos hpasses

theorem exec_averagingPass_disabled {e : StoreEntry} {sc : List Nat} {o : Decoded} {raw : Option Signal} (havg : s.averaged n = some b)
    (hmedia : (s.pslot n b.slot).media? = some m) (hentry : (s.ch n).store.find? (fun e => e.slot == b.slot && e.tp == b.tp) = some e)
    (hstore : s.on (Fd.CHN_CTL_STORE_EN n) = false) : exec (.averagingPass n sc o raw) s = .next ((s.afterDeep n m b).drainAll n) := by
  show execAveragingPass n sc o raw s = _
  have hoff : (!s.on (Fd.CHN_CTL_STORE_EN n)) = true := by simp [hstore]
  rw [execAveragingPass, havg]
  simp only [hmedia, hentry]
  exact if_pos hoff

theorem exec_averagingPass_passes {e : StoreEntry} {sc : List Nat} {o : Decoded} {g : Signal} (havg : s.averaged n = some b)
    (hmedia : (s.pslot n b.slot).media? = some m) (hentry : (s.ch n).store.find? (fun e => e.slot == b.slot && e.tp == b.tp) = some e)
    (hstore : s.on (Fd.CHN_CTL_STORE_EN n) = true) :
    let s0 := s.sampled n b (some g)
    let f := s0.framing n (s0.scoresOf n m (s0.again n b) sc)
    ∀ g' : Signal, (s0.again n b).raw = some g' →
    let s1 := (s0.frameSector n b f.found f.dev).updBegun n b fun c => { c with found := b.found, frame := b.frame, raw := b.raw }
    let y := { e with reads := e.reads + 1, known := e.known && true }
    let s2 := (s1.stored (s.storeAddr n e.e) (sumAdd (s.sumOf n e.e) (framed g' f.dev))).stored (s.storeAddr n e.e + 0x27FC8) [y.reads]
    let r := s2.storeAttempt n m (s2.again n b) y (s.rd (Fd.CHN_DEC_GLOBAL n)) (s.rd (Fd.CHN_DEC_TOTAL n)) o
    let z := { y with sw := min e.sw r.1.weight }
    s.passes n m r.2 r.1 = true →
    exec (.averagingPass n sc o (some g)) s = .next (((((s2.stored (s.storeAddr n e.e + 0x27FCC) (leBytes 2 z.sw)).updCh n fun c =>
      { c with store := c.store.map fun x => if x.e = e.e then z else x }).sectorRead n m r.2 r.1 false).drainAll n)) := by
  intro s0 f g' hraw s1 y s2 r z hpasses
  show execAveragingPass n sc o (some g) s = _
  have hon : ¬ (!s.on (Fd.CHN_CTL_STORE_EN n)) = true := by simp [hstore]
  rw [execAveragingPass, havg]
  simp only [hmedia, hentry]
  rw [if_neg hon]
  simp only [s0] at hraw
  simp only [hraw]
  exact if_pos hpasses

end Sys2Proof.Machine

open Sys2Proof.Machine

/-- Settles O14: each event of the read path on a sector begun that awaits it. -/
theorem readPathEventsAct : Obligations.ReadPathEventsAct := by
  intro s n b m
  refine ⟨?taOff, ?taNone, ?taSpan, ?deadlineLater, ?deadlineFirst, ?unsampled, ?unsampledAvg, ?attempt, ?blk, ?deepTake, ?deepDone, ?parity, ?avgOff, ?avg⟩
  case taOff =>
    intro rb codes i hoff
    exact if_pos (by simp [hoff])
  case taNone =>
    intro rb codes i hen hnone
    show execTaDetect n rb codes i s = _
    rw [execTaDetect, if_neg (by simp [hen]), hnone]
  case taSpan => exact fun rb codes i hen hbegun hmedia => exec_taDetect_span hen hbegun hmedia
  case deadlineLater =>
    intro sc hold hlater
    have hexec := exec_inlineDeadline_oldest (sc := sc) hold
    rwa [if_neg hlater] at hexec
  case deadlineFirst =>
    intro sc hold hfirst
    have hexec := exec_inlineDeadline_oldest (sc := sc) hold
    rwa [if_pos hfirst] at hexec
  case unsampled => exact fun hold hmedia => exec_unsampledSector_some (by rw [hold]; rfl) hmedia
  case unsampledAvg => exact fun havg hmedia => exec_unsampledSector_some havg hmedia
  case attempt =>
    intro pr sc o raw a hpair hmedia hfirst s1 b1 f s2 b2 hclear hfirst2 hfound hattempt hfly r hpasses
    rw [exec_decodeAttemptDone_first hpair hmedia hfirst hclear, attemptEnds_passes hfirst2 hfound hattempt hfly hpasses]
  case blk =>
    intro k hblk hrun hop
    show execBlkNotRegained n s = _
    rw [execBlkNotRegained, if_neg (by simp [hblk]), hrun]
    simp only [hop]
  case deepTake =>
    intro hen hidle hwork htakes
    exact if_pos (by simp [hen, hidle, hwork, htakes])
  case deepDone => exact fun d l e o hdeep hbusy hold hentry hstore => exec_deepDecodeDone_passes hdeep hbusy hold hentry hstore
  case parity => exact fun p c hold hplace hclosed hseen hfailed => exec_trackParityReconstruct_passes hold hplace hclosed hseen hfailed
  case avgOff => exact fun e sc o raw havg hmedia hentry hstore => exec_averagingPass_disabled havg hmedia hentry hstore
  case avg => exact fun e sc o g havg hmedia hentry hstore => exec_averagingPass_passes havg hmedia hentry hstore

end

section
/-! PROOF. Events of the write path (R172 to R187) and of the arm link and the preamplifier (R196 to R219). -/

namespace Sys2Proof.Machine

variable {s : State} {n k : Fin 4} {m : Media}

/-- A write of WMODE that was acknowledged in time arms the pair (R172). -/
theorem exec_wmodeArm_timely {fails : Fin 3} (hacked : fails.val < 2) (hrun : s.runner n = some k) (hmedia : (s.pslot n k).media? = some m)
    (harm : s.mayArm n k m = true) :
    exec (.wmodeArm n false fails) s =
      .next (((if fails.val = 0 then s else s.count (Fd.ARM_ERRCNT_RETRY n) 1).armEdge n).updCh n fun c => { c with armOk := true }) := by
  show execWmodeArm n false fails s = _
  simp [execWmodeArm, hrun, hmedia, harm, hacked]

theorem exec_wmodeArm_failed {late : Bool} (hrun : s.runner n = some k) (hmedia : (s.pslot n k).media? = some m) (harm : s.mayArm n k m = true) :
    let s2 := (s.count (Fd.ARM_ERRCNT_RETRY n) 1).linkErr n false 0x009 false
    let s3 := (s2.updCh n fun c => { c with assist := .off }).sendDisarm n
    exec (.wmodeArm n late 2) s = .next (if (s.ch n).wmodeFailed then (s3.updCh n fun c => { c with wmodeFailed := false }).endWith n k 0x0F
      else s3.updCh n fun c => { c with wmodeFailed := true }) := by
  intro s2 s3
  show execWmodeArm n late 2 s = _
  rw [execWmodeArm, hrun]
  simp only [hmedia]
  rw [if_neg (by simp [harm])]
  exact (apply_ite Host.Outcome.next _ _ _).symm

/-- A window of 64 weights more than an eighth past the target takes the level one step up, where the band lets it (R179). -/
theorem exec_aloopWindowEnd_up {x lv : Nat} (hloop : (s.ch n).loopOn = true) (hen : s.on (Fd.CHN_WCTL_ALOOP_EN n) = true) (hwindow : (s.ch n).loopN = 64)
    (hx : x = s.rd (Fd.CHN_ATGT_SW_TGT n)) (hpast : x + x / 8 < (s.ch n).loopSum / 64)
    (hlv : lv = s.rd (Fd.CHN_ALOOP_LEVEL n) + s.rd (Fd.CHN_ATGT_STEP n)) (hmoves : lv ≠ s.rd (Fd.CHN_ALOOP_LEVEL n))
    (hmax : lv ≤ s.rd (Fd.CHN_ABND_WR_MAX n)) :
    exec (.aloopWindowEnd n) s =
      .next (((s.updCh n fun c => { c with loopN := 0, loopSum := 0 }).wr (Fd.CHN_ALOOP_LEVEL n) lv).armSend n
        ⟨.loop, false, headReg (s.selHead n) 0x0B, 0, [lv], false⟩) := by
  subst hx hlv
  show execAloopWindowEnd n s = _
  simp only [execAloopWindowEnd, hloop, hen, hwindow, Bool.not_true, Bool.or_self, Nat.lt_irrefl, decide_false, Bool.false_eq_true, if_false]
  rw [if_pos hpast, if_neg (Nat.not_lt.mpr hmax), if_neg hmoves]

/-- The third reading running above the baseline is a touchdown (R187). -/
theorem ecsReading_third {e v : Nat} (hen : s.on (Fd.CHN_TDCTL_EN n) = true) (hbase : (s.ch n).ecsBase = some v) (hhits : (s.ch n).ecsHits = 2)
    (habove : v * (4 + s.rd (Fd.CHN_TDCTL_TDK n)) < 4 * spread ((e :: (s.ch n).ecs).take 64)) :
    s.ecsReading n e = (s.updCh n fun c => { c with ecs := (e :: (s.ch n).ecs).take 64, ecsHits := 3 }).touchdown n false := by
  rw [State.ecsReading, if_neg (by simp [hen])]
  simp only [hbase]
  rw [if_pos habove, hhits]
  rfl

theorem exec_touchdownSample_idle {e : BitVec 16} (htx : (s.ch n).tx = none) : exec (.touchdownSample n e) s = .next (s.ecsReading n e.toNat) := by
  show execTouchdownSample n e s = _
  rw [execTouchdownSample, htx]
  rfl

theorem exec_armTd_sent {g : Nat} {e : BitVec 32} (hsent : (s.ch n).tdSent = some g) (hrun : (s.sv n).modelRun = true) :
    exec (.armTd n e) s = .next (if tdValid (g ^^^ e.toNat) = true ∧ bits (g ^^^ e.toNat) 26 2 ≠ (s.preamp.get n).seq then
        (s.updCh n fun c => { c with tdSent := none }).updPreamp n fun p =>
          { p with drive := sgn 18 (bits (g ^^^ e.toNat) 8 18), seq := bits (g ^^^ e.toNat) 26 2, missed := 0 }
      else (s.updCh n fun c => { c with tdSent := none }).updPreamp n fun p => { p with tde := true }) := by
  show execArmTd n e s = _
  rw [execArmTd, hsent]
  refine congrArg _ (if_pos ?_)
  split <;> exact hrun

theorem exec_armRd_sent {t : ArmTx} {e : BitVec 24} (htx : (s.ch n).tx = some t) (hrd : t.rd = true) :
    let f := t.frame ^^^ e.toNat
    let ok := f % 256 == crc8 (f / 256) 0xFF 16
    let as := (List.range (bits f 17 3 + 1)).map fun i => bits f 8 9 + i
    let adre := bits f 20 4 ≠ 1 || 4 ≤ bits f 17 3 || as.any fun a => !preampHas n a
    exec (.armRd n e) s = if !ok || adre then .next (s.responded n (s.preampStatus n ok adre) []) else .next (s.readRegs n (s.preampStatus n ok adre) as) := by
  intro f ok as adre
  show execArmRd n e s = _
  have hread : (some t).filter ArmTx.rd = some t := by simp [hrd]
  rw [execArmRd, htx, hread]

theorem exec_armWr_sent {t : ArmTx} {e : BitVec 88} (htx : (s.ch n).tx = some t) (hwr : t.rd = false) :
    let w := 16 * (t.len + 1)
    let f := t.frame ^^^ (e.toNat % 2 ^ (w + 24))
    let hd := bits f (8 + w) 16
    f % 256 = crc8 (f / 256) 0xFF (16 + w) → bits hd 12 4 = 2 → bits hd 9 3 = t.len → t.len < 4 →
    (∀ i < t.len + 1, preampHas n (bits hd 0 9 + i) = true) →
    exec (.armWr n e) s = .next ((s.preampWrs n (bits hd 0 9) ((List.range (t.len + 1)).map fun i => bits f (8 + 16 * (t.len - i)) 16)).responded n
      (s.preampStatus n true false) []) := by
  intro w f hd hcrc hop hlen hfew hhas
  show execArmWr n e s = _
  have hwrite : (some t).filter (fun t => !t.rd) = some t := by simp [hwr]
  have hok : (f % 256 == crc8 (f / 256) 0xFF (16 + w)) = true := beq_iff_eq.mpr hcrc
  have hall : ((List.range (t.len + 1)).any fun i => !preampHas n (bits hd 0 9 + i)) = false := by simpa [Nat.lt_succ_iff] using hhas
  have hgood : (bits hd 12 4 ≠ 2 || bits hd 9 3 ≠ t.len || 4 ≤ bits hd 9 3 || (List.range (t.len + 1)).any fun i => !preampHas n (bits hd 0 9 + i)) = false := by
    rw [hall, hop, hlen]
    simp [hfew]
  rw [execArmWr, htx, hwrite]
  show (if (!(f % 256 == crc8 (f / 256) 0xFF (16 + w)) || _) = true then Host.Outcome.next _ else .next _) = _
  rw [hok, hgood]
  rfl

end Sys2Proof.Machine

open Sys2Proof.Machine

/-- Settles O15: each event of the write path, in the case that its hypotheses name. -/
theorem writePathEventsAct : Obligations.WritePathEventsAct := by
  intro s n k m
  refine ⟨?arm, ?armFails, ?lastBit, ?tail, ?loop, ?touchdown⟩
  case arm => exact fun fails hacked hrun hmedia harm => exec_wmodeArm_timely hacked hrun hmedia harm
  case armFails =>
    intro hrun hmedia harm late s2 s3
    have hexec := exec_wmodeArm_failed (late := late) hrun hmedia harm
    exact ⟨fun hfirst => hexec.trans (by rw [hfirst]; rfl), fun hsecond => hexec.trans (by rw [hsecond]; rfl)⟩
  case lastBit => exact fun hwriting => if_pos hwriting
  case tail => exact fun htail => if_pos htail
  case loop => exact fun x lv hloop hen hwindow hx hpast hlv hmoves hmax => exec_aloopWindowEnd_up hloop hen hwindow hx hpast hlv hmoves hmax
  case touchdown =>
    intro e v hen hbase hhits htx habove
    rw [exec_touchdownSample_idle htx, ecsReading_third hen hbase hhits habove]

/-- Settles O16: each event of the arm link and of the preamplifier, in the case that its hypotheses name. -/
theorem armLinkActs : Obligations.ArmLinkActs := by
  intro s n
  refine ⟨?period, ?td, ?tdBad, ?rd, ?rdBad, ?wr, ?response, ?retry, ?tdTimeout, ?attention, ?request, ?reset⟩
  case period => exact fun hen => if_pos hen
  case td => exact fun g e hsent hvalid hseq hrun => (exec_armTd_sent hsent hrun).trans (by rw [if_pos ⟨hvalid, hseq⟩])
  case tdBad =>
    intro g e hsent hbad hrun
    have hnot : ¬ (tdValid (g ^^^ e.toNat) = true ∧ bits (g ^^^ e.toNat) 26 2 ≠ (s.preamp.get n).seq) := by
      rintro ⟨hvalid, hseq⟩
      rcases hbad with hinvalid | hsame
      · exact absurd (hvalid.symm.trans hinvalid) (by decide)
      · exact hseq hsame
    rw [exec_armTd_sent hsent hrun, if_neg hnot]
  case rd =>
    intro t e htx hrd f as hcrc hop hfew hhas hfree
    have hok : (f % 256 == crc8 (f / 256) 0xFF 16) = true := beq_iff_eq.mpr hcrc
    have hall : (as.any fun a => !preampHas n a) = false := by simpa using hhas
    have hgood : (bits f 20 4 ≠ 1 || 4 ≤ bits f 17 3 || as.any fun a => !preampHas n a) = false := by
      rw [hall]
      simp [hop, hfew]
    refine (exec_armRd_sent htx hrd).trans ?_
    show (if (!(f % 256 == crc8 (f / 256) 0xFF 16) || _) = true then Host.Outcome.next _ else .next _) = _
    rw [hok, hgood]
    show Host.Outcome.next (s.readRegs n _ as) = _
    simp only [State.readRegs, List.contains_iff_mem, hfree, if_false]
  case rdBad =>
    intro t e htx hrd hcrc
    have hbad := beq_eq_false_iff_ne.mpr hcrc
    exact ⟨_, (exec_armRd_sent htx hrd).trans ((if_pos (by rw [hbad]; rfl)).trans (by rw [hbad]))⟩
  case wr => exact fun t e htx hwr => exec_armWr_sent htx hwr
  case response =>
    intro x f htx hvalid hack hadre
    show execArmResponse n f s = _
    simp [execArmResponse, htx, hvalid, hack, hadre]
  case retry =>
    intro x f htx hvalid hretried
    show execArmResponse n f s = _
    simp [execArmResponse, htx, hvalid, hretried]
  case tdTimeout => exact fun hmode hmissed => if_pos ⟨hmode, hmissed⟩
  case attention => exact fun v => (apply_ite Host.Outcome.next _ _ _).symm
  case request =>
    intro hidle hen howned harmed hrd
    show execArmReqGo n s = _
    simp [execArmReqGo, hidle, hen, howned, harmed, hrd]
  case reset => exact ⟨_, rfl, by simp, by simp, fun p hp => by cases p <;> first | rfl | simp at hp⟩

end

section
/-! PROOF. Events of the servo (R210 to R227) and commands to the actuators (R221 to R246). -/

namespace Sys2Proof.Machine

variable {s : State} {n : Fin 4}

/-- A position sample is shown with whether it is usable, and the next is spoilt by a hold or a lost tone (R210). -/
def showSample (s : State) (n : Fin 4) (pes : BitVec 10) (amp : BitVec 8) (ok : Bool) : State :=
  (s.wrs [(Fd.SRV_PES_POS n, pes.toNat), (Fd.SRV_PES_AMP n, amp.toNat), (Fd.SRV_PES_VALID n, b2n ok),
    (Fd.SRV_PES_HOP n, b2n (s.sv n).held)]).updSv n fun v => { v with spoilt := v.held || !s.blk n }

theorem showSample_sv (p : BitVec 10) (a : BitVec 8) (ok : Bool) :
    (showSample s n p a ok).sv n = { s.sv n with spoilt := (s.sv n).held || !s.blk n } := by
  simp [showSample, State.wrs]

theorem showSample_onlyAt (p : BitVec 10) (a : BitVec 8) (ok : Bool) : s.onlyAt (showSample s n p a ok) [.regs, .servo] :=
  fun q hq => by cases q <;> simp [State.sameAt, showSample, State.wrs] at hq ⊢

theorem sample_usable {p : BitVec 10} {a : BitVec 8} (hblk : s.blk n = true) (hheld : (s.sv n).held = false) (hspoilt : (s.sv n).spoilt = false)
    (hamp : s.rd (Fd.SRV_TETH_PAMIN n) ≤ a.toNat) :
    let s1 := (s.wrs [(Fd.SRV_PES_POS n, p.toNat), (Fd.SRV_PES_AMP n, a.toNat), (Fd.SRV_PES_VALID n, 1), (Fd.SRV_PES_HOP n, 0)]).updSv n fun v =>
      { v with spoilt := v.held || !s.blk n }
    s.sample n p a = ((if (s.sv n).hop.isSome then s1.hopEnds n p.toInt else s1).estimate n p.toInt).afterSample n p.toInt := by
  simp [State.sample, hblk, hheld, hspoilt, hamp, b2n]

theorem sample_unusable {p : BitVec 10} {a : BitVec 8} (hbad : a.toNat < s.rd (Fd.SRV_TETH_PAMIN n) ∨ (s.sv n).spoilt = true) :
    s.sample n p a = showSample s n p a false := by
  have hok : (s.blk n && !(s.sv n).held && !(s.sv n).spoilt && decide (s.rd (Fd.SRV_TETH_PAMIN n) ≤ a.toNat)) = false := by
    rcases hbad with hlow | hspoilt
    · simp [Nat.not_le.mpr hlow]
    · simp [hspoilt]
  rw [State.sample, hok]
  rfl

theorem exec_hopHoldExpiry_held {b : Nat} (hhop : (s.sv n).hop = some b) (hheld : (s.sv n).held = true) (hgoal : (s.sv n).goal ≠ .seek) :
    exec (.hopHoldExpiry n) s =
      .next (((((((((s.clearBlk n).countBlkLoss n).writeStop n 3).count (Fd.SRV_CNT1_HOPFAIL n) 1).wr (Fd.SRV_INT_HOPFAIL n) 1).raise (.servo n) 0x1404 4
        (leBytes 3 b ++ [s.selHead n])).wr (Fd.SRV_STATUS_HOP n) 0).updSv n fun w =>
          { w with hop := none, held := false, phase := .capture, word := none, words := 0, goal := .track })) := by
  show execHopHoldExpiry n s = _
  have hnoFind : ¬ ((s.sv n).goal = .seek ∧ (s.sv n).target.isSome = true) := fun h => hgoal h.1
  rw [execHopHoldExpiry]
  simp only [hhop]
  rw [if_neg (by simp [hheld]), if_neg hnoFind]

/-- What an actuator has of a shock input at its active level that has stood long enough and that it does not mask (R241). -/
theorem shock_noted {i k : Nat} {l : Bool} (hlevel : l ≠ s.rdBit (Fd.SRV_SHK_POL n) i) (hlong : s.rd (Fd.SRV_SHK_FILT n) < k)
    (hmask : s.rdBit (Fd.SRV_SHK_MASK n) i = true) (hnew : bit (s.sv n).shock i = false) :
    let s1 := (s.updSv n fun v => { v with shock := setBit v.shock i, shockHold := false }).writeStop n 2
    s.shock n i l k = (((s1.wr (Fd.SRV_STATUS_SHKINH n) 1).wr (Fd.SRV_INT_SHOCK n) 1).count (Fd.SRV_CNT3_SHOCKS n) 1).raise (.servo n) 0x1408 3
      [(s1.sv n).shock] := by
  refine if_neg ?_
  simp [State.shockLevel, bne_iff_ne.mpr hlevel, Nat.not_le.mpr hlong, hmask, hnew]

theorem shock_ignored {i k : Nat} {l : Bool} (h : l = s.rdBit (Fd.SRV_SHK_POL n) i ∨ k ≤ s.rd (Fd.SRV_SHK_FILT n) ∨ s.rdBit (Fd.SRV_SHK_MASK n) i = false) :
    s.shock n i l k = s := by
  refine if_pos ?_
  rcases h with hlevel | hshort | hmask
  · simp [State.shockLevel, hlevel]
  · simp [hshort]
  · simp [hmask]

theorem loadStandby_comp (a m : Fin 4) : ((s.loadStandby a).sv m).comp = (s.sv m).comp := by
  rw [State.loadStandby, updSv_sv]
  split
  case isTrue h => rw [h]
  case isFalse => rfl

theorem loadStandby_stby (a m : Fin 4) : ((s.loadStandby a).sv m).stby = if m = a then (s.sv m).comp else (s.sv m).stby := by
  rw [State.loadStandby, updSv_sv]
  split
  case isTrue h => rw [h]
  case isFalse => rfl

/-- The servo unit of an actuator once its pair's standby core has been loaded again (R246). -/
theorem loadStandby_pair_stby {a b m : Fin 4} (hm : m = a ∨ m = b) : (((s.loadStandby a).loadStandby b).sv m).stby = (s.sv m).comp := by
  rw [loadStandby_stby, loadStandby_stby, loadStandby_comp]
  rcases hm with rfl | rfl
  · rw [if_pos rfl, ite_self]
  · rw [if_pos rfl]

end Sys2Proof.Machine

open Sys2Proof.Machine

/-- Settles O17: each event of the servo, in the case that its hypotheses name. -/
theorem servoEventsAct : Obligations.ServoEventsAct := by
  intro s n
  refine ⟨?sample, ?shown, ?period, ?hop, ?crossing, ?travelEnd, ?captureTimeout, ?expiry, ?release⟩
  case sample =>
    intro p a hblk hheld hspoilt hamp hhop
    show Host.Outcome.next (s.sample n p a) = _
    rw [sample_usable hblk hheld hspoilt hamp, hhop]
    rfl
  case shown =>
    intro p a hbad
    have hexec : exec (.pesSample n p a) s = .next (showSample s n p a false) := congrArg Host.Outcome.next (sample_unusable hbad)
    refine ⟨_, hexec, ?_, ?_, ?_, showSample_onlyAt p a false⟩
    all_goals rw [showSample_sv]
  case period => exact fun _ => rfl
  case hop =>
    intro p a b hhop hblk hheld hspoilt hamp
    show execHopComplete n p a s = _
    rw [execHopComplete, if_neg (by simp [hhop, hblk]), sample_usable hblk hheld hspoilt hamp, hhop]
    rfl
  case crossing => exact fun htravel => if_neg (not_not.mpr htravel)
  case travelEnd => exact fun htravel => if_neg (not_not.mpr htravel)
  case captureTimeout => exact fun hcapture hseek => if_neg (by simp [hcapture, hseek])
  case expiry => exact fun b hhop hheld hgoal => exec_hopHoldExpiry_held hhop hheld hgoal
  case release => exact ⟨_, rfl, by simp, fun _ => rfl, fun p hp => by cases p <;> first | rfl | simp at hp⟩

/-- Settles O18: each command and event of the actuators, in the case that its hypotheses name. -/
theorem actuatorCommandsAct : Obligations.ActuatorCommandsAct := by
  intro s n
  refine ⟨rfl, ?standby, ?cswap, ?ffSwap, fun _ _ _ => rfl, ?shockIgnored, ?shock, ?shockEnd, fun _ _ => rfl, ?load, ?loadTimeout, rfl, rfl, ?ramp, ?park⟩
  case standby =>
    intro p
    match p with
    | 0 =>
      refine ⟨_, rfl, wr_rd_same _ _ _, fun f hf => wr_rd_other _ _ hf, fun m hm => loadStandby_pair_stby ?_⟩
      revert m
      decide
    | 1 =>
      refine ⟨_, rfl, wr_rd_same _ _ _, fun f hf => wr_rd_other _ _ hf, fun m hm => loadStandby_pair_stby ?_⟩
      revert m
      decide
  case cswap => exact ⟨_, rfl, by simp, fun _ => rfl, fun p hp => by cases p <;> first | rfl | simp at hp⟩
  case ffSwap => exact ⟨_, rfl, by simp, fun _ => rfl, fun p hp => by cases p <;> first | rfl | simp at hp⟩
  case shockIgnored => exact fun i l k h => shock_ignored h
  case shock => exact fun i l k hlevel hlong hmask hnew => shock_noted hlevel hlong hmask hnew
  case shockEnd => exact fun hhold => if_pos hhold
  case load =>
    intro hmode hfitted himax hcond
    show execLoad n s = _
    simp [execLoad, hmode, hfitted, himax, hcond]
  case loadTimeout => exact fun hmode => if_neg (not_not.mpr hmode)
  case ramp => exact fun hload => if_pos hload
  case park =>
    intro hload
    show execParkComplete n s = _
    simp [execParkComplete, hload]

end

section
/-! PROOF. Zones, the journal and the ordering point (R297 to R329). -/

namespace Sys2Proof.Machine

variable {s : State} {n : Fin 4}

theorem exec_zoneQuery_shown {z : BitVec 20} {y : Zone} (hcount : z.toNat < s.rd (Fd.RCH_ZCOUNT_COUNT n)) (hzone : s.zone? z.toNat = some y) :
    exec (.zoneQuery n z) s = .next (((s.wr (Fd.RCH_ZQRY_ZONE n) z.toNat).wr (Fd.RCH_ZQRES_VALID n) 1).wrs [(Fd.RCH_ZQRES_STATE n, y.st.code),
      (Fd.RCH_ZQRES_FLAGS n, y.flags (s.hasRun z.toNat)), (Fd.RCH_ZQRES_OWNED n, b2n (y.act == n)), (Fd.RCH_ZQRES_WP n, y.wp),
      (Fd.RCH_ZQRES_PP n, y.pp)]) := by
  show execZoneQuery n z s = _
  rw [execZoneQuery, if_pos hcount, hzone]

/-- The oldest record issued is programmed where the ring is erased, and takes its effect (R323). -/
theorem exec_journalRecordDurable_erased {r : JRec} {l : List JRec} (hissued : s.zone.issued = r :: l) (hon : s.jOn = true)
    (herased : ∀ i : Nat, i < 4 → s.flashWord ((jRegion + jOffset s.zone.head) / 8 + i) = erasedWord) :
    exec .journalRecordDurable s =
      .next ((((({ s with flash := flashPut s.flash (jRegion + jOffset s.zone.head) r.bytes }.zput fun u =>
        { u with issued := l, head := u.head + 1 }).wr (Fd.RCH_JSTAT_BUSY 0) (b2n (l != []))).jEffect r.body).jMargin).settleVoids) := by
  show execJournalRecordDurable s = _
  have hworks : ¬ (!s.jOn) = true := by simp [hon]
  have hblank : ¬ ((List.range 4).any fun i => s.flashWord ((jRegion + jOffset s.zone.head) / 8 + i) != erasedWord) = true := by
    simpa using herased
  rw [execJournalRecordDurable, hissued]
  exact (if_neg hworks).trans (if_neg hblank)

/-- A fold goes on where the oldest sector has its 128 records, and leaves nothing of that sector (R326). -/
theorem exec_journalFold_full (hfull : s.zone.tail / 128 * 128 + 128 ≤ s.zone.head) :
    ∃ t : State, exec .journalFold s = .next (t.zput fun u => { u with tail := s.zone.tail / 128 * 128 + 128 }).jMargin ∧
      ∀ a ∈ t.flash, a.1 < jRegion + jOffset (s.zone.tail / 128 * 128) ∨ jRegion + jOffset (s.zone.tail / 128 * 128) + 4096 ≤ a.1 := by
  refine ⟨_, if_neg (Nat.not_lt.mpr hfull), fun a ha => ?_⟩
  simpa using (List.mem_filter.mp ha).2

/-- An append whose data stands in its buffers is placed at PP where the zone has room (R307). -/
theorem exec_zoneAppendPlace_fits {c : Fin 65536} {x : Ctx} {j id i : Nat} {y : Zone} (hctx : s.ctx? c.val = some x) (hio : x.admin = false)
    (hop : x.opcode = 0x7D) (hrun : x.run = true) (hhanded : x.handed = false) (hplace : x.place = none) (hfwd : x.fwdTo = none)
    (hbound : x.bound = none) (hending : x.ending = none) (horigin : x.origin = none) (hns : s.nsLocal x.nsid = some j)
    (hzone : s.zoneOf j x.slba = some (id, y, i)) (hfirst : s.againFirst id x j = false) (hst : y.st ≠ .full) (hroom : y.pp + x.nlb ≤ y.zcap) :
    exec (.zoneAppendPlace c) s = .next ((s.advancePP id x.nlb).ctxUpd c.val fun w =>
      { w with dataIn := true, again := none, place := some (id, y.pp, x.nlb), lba := 65536 * (x.slba / 65536) + y.pp,
               res0 := (65536 * (x.slba / 65536) + y.pp) % 2 ^ 32, res1 := (65536 * (x.slba / 65536) + y.pp) / 2 ^ 32 }) := by
  show execZoneAppendPlace c s = _
  simp [execZoneAppendPlace, hctx, hio, hop, hrun, hhanded, hplace, hfwd, hbound, hending, horigin, hns, hzone, hfirst, hst, Nat.not_lt.mpr hroom]

theorem exec_zoneActionEffect_quiet {c : Fin 65536} {x : Ctx} (hsan : s.host.sanWait = none) (hctx : s.ctx? c.val = some x) (hrun : x.run = true)
    (hhanded : x.handed = false) (hjwait : x.jwait = []) (hio : x.admin = false) (hop : x.opcode = 0x79)
    (hquiet : s.zonesQuiet (s.actionZones x).1 (s.actionZones x).2 = true) :
    exec (.zoneActionEffect c) s = .next (s.actNow c.val x) := by
  show execZoneActionEffect c s = _
  simp [execZoneActionEffect, hsan, hctx, hrun, hhanded, hjwait, hio, hop, hquiet]

end Sys2Proof.Machine

open Sys2Proof.Machine

/-- Settles O19: each command of the zone engine and of the journal, in the case that its hypotheses name. -/
theorem zonesAndJournalAct : Obligations.ZonesAndJournalAct := by
  intro s n z c
  refine ⟨?load, ?loadFails, ?recov, ?query, rfl, rfl, rfl, rfl, fun _ => rfl, ?durable, ?foldEarly, ?fold, ?place, ?withdraw, ?action⟩
  case load =>
    intro hok
    show execZoneLoad n s = _
    rw [execZoneLoad, hok]
  case loadFails =>
    intro id e hbad
    show execZoneLoad n s = _
    rw [execZoneLoad, hbad]
  case recov =>
    intro v
    refine ⟨_, rfl, (wr_rd_same _ _ _).trans ?_, fun f hf => wr_rd_other _ _ hf⟩
    cases v <;> rfl
  case query => exact fun y hcount hzone => exec_zoneQuery_shown hcount hzone
  case durable => exact fun r l hissued hon herased => exec_journalRecordDurable_erased hissued hon herased
  case foldEarly => exact fun hearly => if_pos hearly
  case fold => exact exec_journalFold_full
  case place =>
    exact fun x j id i y hctx hio hop hrun hhanded hplace hfwd hbound hending horigin hns hzone hfirst hst hroom =>
      exec_zoneAppendPlace_fits hctx hio hop hrun hhanded hplace hfwd hbound hending horigin hns hzone hfirst hst hroom
  case withdraw => exact fun hdue => if_pos (by rw [hdue, Bool.true_or])
  case action => exact fun x hsan hctx hrun hhanded hjwait hio hop hquiet => exec_zoneActionEffect_quiet hsan hctx hrun hhanded hjwait hio hop hquiet

end

section
/-! PROOF. Host queues: doorbells, fetching, admission, binding and completion (R335 to R346), and what the intake carries out of an I/O command
(R347 to R349). -/

namespace Sys2Proof.Machine

variable {s : State} {c : Fin 65536} {x : Ctx}

theorem exec_sqDoorbell_moves {i : Fin 2} {q : Fin 129} {d : BitVec 16} {y : Sq} (hsq : s.sq? i q.val = some y) (hen : (s.ctrl i).en = true)
    (hd : d.toNat < y.size) : exec (.sqDoorbell i q d) s = .next (s.sqUpd i q.val fun q => { q with tail := d.toNat }) := by
  show execSqDoorbell i q d s = _
  simp only [execSqDoorbell, hsq]
  exact if_pos ⟨hen, hd⟩

/-- A fetch is of the queue that the arbitration grants (R343). -/
theorem exec_sqFetch_granted {i : Fin 2} {q : Fin 129} {e : Sqe} {y : Sq} {t : State} {d left : Nat} (hsq : s.sq? i q.val = some y)
    (hgrant : s.granted = some (i, q.val, left))
    (htake : State.takeCtxs (((s.sqUpd i q.val fun q => { q with head := (q.head + 1) % q.size }).hput fun h =>
      { h with fetches := h.fetches + 1, psNow := if q.val ≠ 0 ∧ 2 ≤ h.psNow then h.psOper else h.psNow }).noteGrant i q.val left y.cls)
      (Ctx.fresh e q.val i y.cls s.time s.host.fetches none) (s.pieces (Ctx.fresh e q.val i y.cls s.time s.host.fetches none)) = (t, some d)) :
    exec (.sqFetch i q e) s = .next ((t.notePool s.poolFree).route d) := by
  show execSqFetch i q e s = _
  have hsame : ¬ (i ≠ i ∨ q.val ≠ q.val) := by simp
  simp only [execSqFetch, hsq, hgrant]
  rw [if_neg hsame, htake]

theorem exec_sqFetch_other {i i' : Fin 2} {q : Fin 129} {q' left : Nat} {e : Sqe} {y : Sq} (hsq : s.sq? i q.val = some y)
    (hgrant : s.granted = some (i', q', left)) (hother : i' ≠ i ∨ q' ≠ q.val) : exec (.sqFetch i q e) s = .next s := by
  show execSqFetch i q e s = _
  simp only [execSqFetch, hsq, hgrant]
  exact if_pos hother

theorem exec_contextAdmit_free {j : Nat} (hctx : s.ctx? c.val = some x) (hst : x.st = .held) (hhanded : x.handed = false) (hpart : s.isPart c.val = false)
    (hpaused : s.on Fd.INT_STATUS_PAUSED = false) (hfenced : s.fenced x = false) (hfwd : x.fwdTo = none) (hns : x.byNs = true)
    (hlocal : s.nsLocal x.nsid = some j) (hready : s.rdBit Fd.INT_NSREADY_READY (j - 1) = true) (hsan : s.host.sanitize = false)
    (hmedia : x.media = false) : exec (.contextAdmit c) s = .next (s.admitCtx c.val x) := by
  show execContextAdmit c s = _
  simp [execContextAdmit, hctx, hst, hhanded, hpart, hpaused, hfenced, hfwd, hns, hlocal, hready, hsan, hmedia]

theorem exec_contextBind_served {n : Fin 4} (hctx : s.ctx? c.val = some x) (hbind : s.bindable n x = true) (hserve : s.serviceStatus x = none) :
    exec (.contextBind c n) s =
      if !s.scheduled n x then .next s else .next ((s.noteBind n x).ctxUpd c.val fun y => { y with st := .bound, bound := some n }) := by
  show execContextBind c n s = _
  simp only [execContextBind, hctx, hbind, hserve, Bool.not_true, Bool.false_eq_true, if_false]

theorem exec_classLimitExpiry_read (hctx : s.ctx? c.val = some x) (hdeadline : x.deadline ≠ 0) (hdue : x.deadline ≤ s.time) (hhanded : x.handed = false)
    (hbound : x.bound ≠ none) (hop : x.opcode = 0x02) (hreads : x.writes = false) :
    exec (.classLimitExpiry c) s =
      .next (((s.linked (s.headOf c.val 8) 8).foldl (fun t d => t.ctxUpd d fun y => { y with jwait := [] })
        ((s.wr Fd.INT_INT_LIMIT 1).raise .intake 0x0302 5 (leBytes 2 c.val ++ leBytes 2 x.cid ++ [x.sq, x.ctl.val, 0]))).endEarlyAll
          (s.headOf c.val 8) (.complete 2 0x81)) := by
  show execClassLimitExpiry c s = _
  simp [execClassLimitExpiry, hctx, hdeadline, Nat.not_lt.mpr hdue, hhanded, hbound, hop, hreads]

theorem exec_completionPost_own {sct sc : Nat} (hctx : s.ctx? c.val = some x) (hpart : s.isPart c.val = false) (hcomplete : s.complete? c.val = true)
    (horigin : x.origin = none) (hheld : (s.ctrl x.ctl).linkHeld = false) (hstatus : s.finalStatus c.val = (sct, sc)) (hzone : x.failedZone = none) :
    exec (.completionPost c) s = .next (((s.postCqe x sct sc).freeAll (s.linked c.val 8)).settleDeletes) := by
  show execCompletionPost c s = _
  simp [execCompletionPost, hctx, hpart, hcomplete, horigin, hheld, hstatus, hzone]

/-- The intake carries out an I/O command of its own that is admitted and waits. -/
theorem io_waits {c op : Nat} (h : s.ioWaits c op x) (body : Ctx → State) : s.io c op body = .next (body x) := by
  obtain ⟨hctx, hst, hhanded, hrun, hio, hop, hpart, hending, -, -⟩ := h
  simp [State.io, hctx, hst, hhanded, hrun, hio, hop, hpart, hending]

theorem ioWaits_opcode {c op : Nat} (h : s.ioWaits c op x) : x.opcode = op := by
  obtain ⟨-, -, -, -, -, hop, -⟩ := h
  exact hop

theorem ioWaits_fwdTo {c op : Nat} (h : s.ioWaits c op x) : x.fwdTo = none := by
  obtain ⟨-, -, -, -, -, -, -, -, hfwd, -⟩ := h
  exact hfwd

theorem ioWaits_origin {c op : Nat} (h : s.ioWaits c op x) : x.origin = none := by
  obtain ⟨-, -, -, -, -, -, -, -, -, horigin⟩ := h
  exact horigin

theorem ioWaits_ownData {c op : Nat} (h : s.ioWaits c op x) : ¬ x.fwdTo.isSome = true := by
  simp [ioWaits_fwdTo h]

section Blocks

variable {j : Nat} (hlocal : s.nsLocal x.nsid = some j)
include hlocal

/-- Blocks that the namespace has pass the checks of their range. -/
theorem overBlocks_within (hrange : x.slba + x.nlb ≤ s.nsSize j) (hcount : x.nlb ≤ 256) (c : Nat) (size : Bool) (body : Nat → State)
    (hzoned : [0x79, 0x7A, 0x7D].contains x.opcode = false ∨ s.nsZoned j = true) : s.overBlocks c x size body = body j := by
  have hkind : ([0x79, 0x7A, 0x7D].contains x.opcode && !s.nsZoned j) = false := by
    rcases hzoned with hplain | hzones
    · rw [hplain, Bool.false_and]
    · rw [hzones, Bool.not_true, Bool.and_false]
  simp only [State.overBlocks, hlocal, hkind]
  rw [if_neg (by omega), if_neg (by omega)]
  rfl

/-- A zone action over a zone that its namespace has is carried out. -/
theorem zoneSend_waits {c zsa : Nat} (h : s.ioWaits c 0x79 x) (hzsa : x.dw 13 % 256 = zsa) (hzoned : s.nsZoned j = true) (hslba : x.slba < s.nsSize j)
    (hstart : x.slba % 65536 = 0) (body : Ctx → Nat → State) : s.zoneSend c zsa body = .next (body x j) := by
  simp [State.zoneSend, io_waits h, hzsa, ioWaits_fwdTo h, hlocal, hzoned, Nat.not_le.mpr hslba, hstart]

theorem exec_reportZones_answers (h : s.ioWaits c.val 0x7A x) (hzoned : s.nsZoned j = true) (hslba : x.slba < s.nsSize j) :
    ∃ l : List Nat, l.length = 4 * (x.dw 12 + 1) ∧ exec (.reportZones c) s = .next (s.answerData c.val x l) := by
  have hexec : exec (.reportZones c) s = _ := io_waits h _
  rw [hexec, if_neg (ioWaits_ownData h)]
  simp only [hlocal]
  rw [if_neg (by simp [hzoned]), if_neg (Nat.not_le.mpr hslba)]
  refine ⟨_, ?_, rfl⟩
  rw [List.length_take, List.length_append, List.length_replicate]
  omega

theorem exec_zoneAppend_accepted (hrange : x.slba + x.nlb ≤ s.nsSize j) (hcount : x.nlb ≤ 256) {pi : Fin 4} {id d : Nat} {z : Zone} {t : State}
    (h : s.ioWaits c.val 0x7D x) (hzoned : s.nsZoned j = true) (hpi : s.hasPi j = false ∨ pi = 0) (hserve : s.serviceStatus x = none)
    (hzone : s.zoneOf j x.slba = some (id, z, d)) (hheld : s.zoneHeld id = false) (hcheck : z.check true d x.nlb = none)
    (hopen : s.openFor id z false = .ok t) : exec (.zoneAppend c pi) s = .next (t.updAll c.val fun y => { y with run := true }) := by
  refine (io_waits h _).trans (congrArg Host.Outcome.next ?_)
  simp only [ioWaits_fwdTo h]
  rw [overBlocks_within hlocal hrange hcount _ _ _ (.inr hzoned), if_neg (by rcases hpi with hpi | hpi <;> simp [hpi])]
  simp only [hserve, hzone, hheld, hcheck, hopen, Bool.false_eq_true, if_false]

end Blocks

end Sys2Proof.Machine

open Sys2Proof.Machine

/-- Settles O20: each command on a host queue and on a context, in the case that its hypotheses name. -/
theorem hostQueuesAct : Obligations.HostQueuesAct := by
  intro s c x
  refine ⟨?doorbell, ?fetch, ?fetchOther, ?admission, ?bind, ?bindLater, ?limit, ?post, ?ready, fun _ => rfl⟩
  case doorbell => exact fun i q d y hsq hen hd => exec_sqDoorbell_moves hsq hen hd
  case fetch => exact fun i q e y t d left hsq hgrant htake => exec_sqFetch_granted hsq hgrant htake
  case fetchOther => exact fun i q e y i' q' left hsq hgrant hother => exec_sqFetch_other hsq hgrant hother
  case admission =>
    exact fun j hctx hst hhanded hpart hpaused hfenced hfwd hns hlocal hready hsan hmedia =>
      exec_contextAdmit_free hctx hst hhanded hpart hpaused hfenced hfwd hns hlocal hready hsan hmedia
  case bind => exact fun n hctx hbind hserve hsched => (exec_contextBind_served hctx hbind hserve).trans (if_neg (by simp [hsched]))
  case bindLater => exact fun n hctx hbind hserve hsched => (exec_contextBind_served hctx hbind hserve).trans (if_pos (by simp [hsched]))
  case limit =>
    exact fun hctx hdeadline hdue hhanded hbound hop hreads => exec_classLimitExpiry_read hctx hdeadline hdue hhanded hbound hop hreads
  case post =>
    exact fun sct sc hctx hpart hcomplete horigin hheld hstatus hzone => exec_completionPost_own hctx hpart hcomplete horigin hheld hstatus hzone
  case ready =>
    intro v hsan
    refine if_neg fun hagain => ?_
    exact absurd (hagain.1.symm.trans hsan) (by decide)

/-- Settles O21: each I/O command of the intake over blocks that its namespace has. -/
theorem ioCommandsAct : Obligations.IoCommandsAct := by
  intro s c x j hlocal hrange hcount
  have hplain {op : Nat} (h : s.ioWaits c.val op x) (hop : [0x79, 0x7A, 0x7D].contains op = false) : [0x79, 0x7A, 0x7D].contains x.opcode = false := by
    rwa [ioWaits_opcode h]
  refine ⟨?read, ?write, ?zeroes, ?verify, ?flush, ?fence, ?report, ?append, fun h hzoned hslba hstart => ⟨?zoneOpen, ?close, ?finish, ?zoneReset, ?offline⟩⟩
  case read =>
    intro h
    refine (io_waits h _).trans (congrArg _ ?_)
    rw [if_neg (ioWaits_ownData h), overBlocks_within hlocal hrange hcount _ _ _ (.inl (hplain h rfl))]
  case write =>
    intro pi h hpi
    refine (io_waits h _).trans (congrArg _ ?_)
    simp only [ioWaits_fwdTo h]
    rw [if_neg (by simp [ioWaits_origin h]), overBlocks_within hlocal hrange hcount _ _ _ (.inl (hplain h rfl)),
      if_neg (by rcases hpi with hpi | hpi <;> simp [hpi])]
  case zeroes =>
    intro h
    refine (io_waits h _).trans (congrArg _ ?_)
    rw [if_neg (ioWaits_ownData h), overBlocks_within hlocal hrange hcount _ _ _ (.inl (hplain h rfl))]
  case verify =>
    intro h
    refine (io_waits h _).trans (congrArg _ ?_)
    rw [if_neg (ioWaits_ownData h), overBlocks_within hlocal hrange hcount _ _ _ (.inl (hplain h rfl))]
  case flush => exact fun h => (io_waits h _).trans (congrArg _ (if_pos (.inr (.inl (by rw [hlocal]; rfl)))))
  case fence => exact fun h hfirst => (io_waits h _).trans (congrArg _ (if_neg (by simp [hfirst])))
  case report => exact fun h hzoned hslba => exec_reportZones_answers hlocal h hzoned hslba
  case append =>
    exact fun pi id d z t h hzoned hpi hserve hzone hheld hcheck hopen =>
      exec_zoneAppend_accepted hlocal hrange hcount h hzoned hpi hserve hzone hheld hcheck hopen
  case zoneOpen =>
    intro hzsa hone t hopen
    refine (zoneSend_waits hlocal h hzsa hzoned hslba hstart _).trans (congrArg _ ?_)
    rw [hone]
    simp only [Bool.false_eq_true, if_false, hopen]
  case close => exact fun hzsa => zoneSend_waits hlocal h hzsa hzoned hslba hstart _
  case finish => exact fun hzsa => zoneSend_waits hlocal h hzsa hzoned hslba hstart _
  case zoneReset => exact fun hzsa => zoneSend_waits hlocal h hzsa hzoned hslba hstart _
  case offline => exact fun hzsa => zoneSend_waits hlocal h hzsa hzoned hslba hstart _

end

section
/-! PROOF. Admin commands (R330, R338 to R366) and the controllers, ports and links (R339 to R363, R613, R629). -/

namespace Sys2Proof.Machine

variable {s : State} {c : Fin 65536} {x : Ctx}

/-- The intake carries out an admin command of its own that is admitted and waits. -/
theorem adm_waits {c op : Nat} (h : s.admWaits c op x) (body : Ctx → State) : s.adm c op body = .next (body x) := by
  obtain ⟨hctx, hst, hhanded, hrun, hadmin, hop, hending, hfwd, -⟩ := h
  simp [State.adm, hctx, hst, hhanded, hrun, hadmin, hop, hending, hfwd]

section Queues

variable {q n v : Nat} (hq : q = bits (x.dw 10) 0 16) (hn : n = bits (x.dw 10) 16 16) (hv : v = bits (x.dw 11) 16 16)
include hq

theorem exec_deleteIoSq_names {y : Sq} (h : s.admWaits c.val 0x00 x) (hpos : 0 < q) (hsq : s.sq? x.ctl q = some y) :
    exec (.deleteIoSq c) s =
      .next ((((s.ctxUpd c.val fun y => { y with run := true }).sqUpd x.ctl q fun y => { y with tail := y.head }).cmdsOf x.ctl (some q)).foldl
        (fun t p => t.endCmd p.1 (.complete 0 0x08))
        ((s.ctxUpd c.val fun y => { y with run := true }).sqUpd x.ctl q fun y => { y with tail := y.head })).settleDeletes := by
  subst hq
  refine (adm_waits h _).trans (congrArg Host.Outcome.next (if_neg ?_))
  simp [Nat.pos_iff_ne_zero.mp hpos, hsq]

theorem exec_deleteIoCq_unused (h : s.admWaits c.val 0x04 x) (hpos : 0 < q) (hcq : ((s.ctrl x.ctl).cqs.any fun p => p.1 == q) = true)
    (hunused : ((s.ctrl x.ctl).sqs.any fun p => p.2.cq == q) = false) :
    exec (.deleteIoCq c) s = .next ((s.ctrlUpd x.ctl fun t => { t with cqs := terase t.cqs q }).succeed c.val) := by
  subst hq
  refine (adm_waits h _).trans (congrArg Host.Outcome.next (if_neg ?_))
  rw [hcq, hunused]
  simp [Nat.pos_iff_ne_zero.mp hpos]

include hn

theorem exec_abort_abortable {d : Nat} {y : Ctx} (h : s.admWaits c.val 0x08 x) (hfew : (s.ctrl x.ctl).aborts < 8)
    (hfind : ((s.cmdsOf x.ctl (some q)).find? fun p => !p.2.admin && p.2.cid == n) = some (d, y)) (hfwd : y.fwdTo = none)
    (habortable : s.abortable d = true) : exec (.abort c) s = .next ((s.endEarlyAll d (.complete 0 0x07)).answerDw c.val 0) := by
  subst hq hn
  refine (adm_waits h _).trans (congrArg Host.Outcome.next ?_)
  rw [if_neg (Nat.not_le.mpr hfew), hfind]
  simp only [hfwd]
  exact if_pos habortable

include hv

theorem exec_createIoSq_checked (h : s.admWaits c.val 0x01 x) (hpos : 0 < q) (hmax : q ≤ 128) (hnew : s.sq? x.ctl q = none) (hn0 : 0 < n)
    (hn1 : n ≤ 4095) (hpc : bit (x.dw 11) 0 = true) (hcq : ((s.ctrl x.ctl).cqs.any fun p => p.1 == v && p.1 != 0) = true)
    (hpool : 1024 + s.rd Fd.INT_SCHED_RESERVE ≤ s.poolSize) :
    exec (.createIoSq c) s = .next ((s.ctrlUpd x.ctl fun t =>
      { t with sqs := tinsert t.sqs q ⟨v, n + 1, prioClass (bits (x.dw 11) 1 2), 0, 0, s.rd Fd.INT_SCHED_RESERVE⟩ }).succeed c.val) := by
  subst hq hn hv
  refine (adm_waits h _).trans (congrArg Host.Outcome.next ?_)
  refine (if_neg ?_).trans (if_neg (Nat.not_lt.mpr hpool))
  rw [hcq, hnew, hpc]
  simp [Nat.pos_iff_ne_zero.mp hpos, Nat.pos_iff_ne_zero.mp hn0, hmax, hn1]

theorem exec_createIoCq_checked (h : s.admWaits c.val 0x05 x) (hpos : 0 < q) (hmax : q ≤ 128)
    (hnew : ((s.ctrl x.ctl).cqs.any fun p => p.1 == q) = false) (hn0 : 0 < n) (hn1 : n ≤ 4095) (hpc : bit (x.dw 11) 0 = true) (hvmax : v ≤ 129) :
    exec (.createIoCq c) s = .next ((s.ctrlUpd x.ctl fun t => { t with cqs := tinsert t.cqs q ⟨n + 1, 0, v, bit (x.dw 11) 1⟩ }).succeed c.val) := by
  subst hq hn hv
  refine (adm_waits h _).trans (congrArg Host.Outcome.next (if_neg ?_))
  rw [hnew, hpc]
  simp [Nat.pos_iff_ne_zero.mp hpos, Nat.pos_iff_ne_zero.mp hn0, hmax, hn1, hvmax]

end Queues

/-- The state in which an activation that ends has its image running and fetching resumed (R364). -/
def imageRuns (s : State) (t0 : Nat) : State :=
  (((s.wr Fd.INT_STATUS_PAUSED 0).wr Fd.TRU_BOOTSEL_RUNNING (b2n s.host.fwB.staged)).truPut fun t =>
    { t with fwRoll := leValue (s.flashBytes (imageBase (b2n s.host.fwB.staged) + 0x18) 8) }).hput fun h =>
      { h with
        activation := none
        c0 := { h.c0 with pp := false }
        c1 := { h.c1 with pp := false }
        fwA := { h.fwA with staged := false }
        fwB := { h.fwB with staged := false }
        ctxs := h.ctxs.map fun p =>
          (p.1, if p.2.deadline ≠ 0 ∧ p.2.bound.isNone then { p.2 with deadline := (p.2.deadline + (s.time - t0)) % 2 ^ 48 } else p.2) }

theorem imageRuns_running (t0 : Nat) : (imageRuns s t0).rd Fd.TRU_BOOTSEL_RUNNING = b2n s.host.fwB.staged := by
  refine (wr_rd_same _ _ _).trans ?_
  cases s.host.fwB.staged <;> rfl

theorem imageRuns_paused (t0 : Nat) : (imageRuns s t0).rd Fd.INT_STATUS_PAUSED = 0 :=
  (wr_rd_other (f := Fd.TRU_BOOTSEL_RUNNING) (s.wr Fd.INT_STATUS_PAUSED 0) _ (by decide)).trans (wr_rd_same _ _ _)

theorem exec_activationEnd_asked {d t0 : Nat} (hact : s.host.activation = some (some d, t0)) :
    exec .activationEnd s = .next (((four.foldl (fun t n => t.engQuiesce n false) (imageRuns s t0)).noticeAll 11 2 0x03 0x0C).succeed d) := by
  show execActivationEnd s = _
  rw [execActivationEnd, hact]
  rfl

theorem exec_formatNvm_released (h : s.admWaits c.val 0x80 x) (hnamed : s.namedNs x.nsid ≠ []) (hdw : x.dw 10 = 1)
    (hready : ((s.namedNs x.nsid).all fun j => s.rdBit Fd.INT_NSREADY_READY (j - 1)) = true) (hsan : s.host.sanitize = false) :
    exec (.formatNvm c) s = .next (((s.namedNs x.nsid).foldl (fun t j => (t.wr (Fd.INT_NSCFG_LBAF j) 1).wr (Fd.INT_NSCFG_PIT j) 0)
      (s.ctxUpd c.val fun y => { y with run := true })).nsChanged (s.namedNs x.nsid)) := by
  refine (adm_waits h _).trans (congrArg Host.Outcome.next ?_)
  have hbusy : ((s.namedNs x.nsid).any fun j => !s.rdBit Fd.INT_NSREADY_READY (j - 1)) = false := by
    simpa using hready
  rw [hdw]
  simp only [hnamed, hbusy, hsan]
  rfl

end Sys2Proof.Machine

open Sys2Proof.Machine

/-- Settles O22: each admin command on a queue, in the case that its hypotheses name. -/
theorem adminQueueCommandsAct : Obligations.AdminQueueCommandsAct := by
  intro s c x q n v hq hn hv
  refine ⟨?createSq, ?createCq, ?deleteSq, ?deleteCq, ?abort, ?event⟩
  case createSq => exact fun h hpos hmax hnew hn0 hn1 hpc hcq hpool => exec_createIoSq_checked hq hn hv h hpos hmax hnew hn0 hn1 hpc hcq hpool
  case createCq => exact fun h hpos hmax hnew hn0 hn1 hpc hvmax => exec_createIoCq_checked hq hn hv h hpos hmax hnew hn0 hn1 hpc hvmax
  case deleteSq => exact fun y h hpos hsq => exec_deleteIoSq_names hq h hpos hsq
  case deleteCq => exact fun h hpos hcq hunused => exec_deleteIoCq_unused hq h hpos hcq hunused
  case abort => exact fun d y h hfew hfind hfwd habortable => exec_abort_abortable hq hn h hfew hfind hfwd habortable
  case event => exact fun h hfew => (adm_waits h _).trans (congrArg _ (if_neg (Nat.not_le.mpr hfew)))

/-- Settles O23: each admin command on data, images, formats and security, in the case that its hypotheses name. -/
theorem adminDataCommandsAct : Obligations.AdminDataCommandsAct := by
  intro s c x
  refine ⟨?log, ?identify, ?set, ?get, ?download, ?commit, ?activate, ?activated, ?format, ?sanitize, ?send, ?receive⟩
  case log =>
    intro h hofs hpage
    refine (adm_waits h _).trans (congrArg _ ?_)
    exact (if_neg (Nat.not_lt.mpr hofs)).trans (if_pos (.inl (by rw [hpage]; rfl)))
  case identify =>
    intro l h hdata
    refine (adm_waits h _).trans (congrArg _ ?_)
    rw [hdata]
  case set =>
    intro h hdw
    refine (adm_waits h _).trans (congrArg _ ?_)
    rw [hdw]
    rfl
  case get =>
    intro h hdw
    refine (adm_waits h _).trans (congrArg _ ?_)
    rw [hdw]
    rfl
  case download => exact fun d h hroom => (adm_waits h _).trans (congrArg _ (if_neg (Nat.not_lt.mpr hroom)))
  case commit =>
    intro h haction hslot
    refine (adm_waits h _).trans (congrArg _ ?_)
    have hvalid : ¬ ((2 ≠ 1 ∧ 2 ≠ 2) ∨ 2 < x.dw 10 % 8) := by omega
    rw [haction]
    exact if_neg hvalid
  case activate =>
    intro h haction hslot hreleased hnone
    refine (adm_waits h _).trans (congrArg _ ?_)
    rw [haction, if_neg (not_not.mpr rfl), if_neg (Nat.not_lt.mpr hslot), if_neg (by simp [hreleased, hnone])]
  case activated => exact fun d t0 hact => ⟨imageRuns s t0, exec_activationEnd_asked hact, imageRuns_running t0, imageRuns_paused t0, rfl⟩
  case format => exact fun h hnamed hdw hready hsan => exec_formatNvm_released h hnamed hdw hready hsan
  case sanitize =>
    intro h hdw hreleased hsan
    refine (adm_waits h _).trans (congrArg _ ?_)
    rw [if_neg (not_not.mpr hdw), if_neg (by simp [hreleased]), if_neg (by simp [hsan])]
  case send =>
    intro d o h hprotocol hdata
    refine (adm_waits h _).trans (congrArg _ ?_)
    rw [hprotocol]
    exact (if_neg (lt_irrefl 1)).trans (if_pos ⟨rfl, hdata⟩)
  case receive =>
    intro h hprotocol
    refine (adm_waits h _).trans (congrArg _ ?_)
    rw [hprotocol]
    rfl

end

section
/-! PROOF. Controllers, ports and links (R339 to R363, R613, R629) and the Stage (R368 to R387). -/

namespace Sys2Proof.Machine

variable {s : State} {i : Fin 2}

/-- The state once PERST of a port has gone low (R629). -/
theorem exec_perstAssert_running (u : State) (hu : u = { s with power := if i = 0 then { s.power with perst0 := true } else { s.power with perst1 := true } })
    (hhere : s.ctrlHere i = true) (hphase : 4 ≤ s.rd Fd.HSK_START_PHASE) :
    exec (.perstAssert i) s = .next (((u.linkOff i).ctrlReset i 0).activateStaged) := by
  subst hu
  exact (if_neg (by simp [hhere])).trans (if_neg (Nat.not_lt.mpr hphase))

/-- What the loss of a link that was up shows (R355). -/
theorem exec_portLinkDown_up (hup : s.on (Fd.PORT_PCTL_LINKUP i.val) = true) (hhere : s.ctrlHere i = true) :
    let s1 := ((s.linkOff i).wr (linkDnFld i) 1).raise (.hostPort i) 0x0304 4 [i.val]
    exec (.portLinkDown i) s = if s.rd (Fd.PORT_PCTL_HOLD_S i.val) = 0 then .next (s1.ctrlReset i 0).activateStaged
      else .next (s1.ctrlUpd i fun c => { c with linkHeld := true }) :=
  (if_neg (by simp [hup])).trans (if_neg (by simp [hhere]))

theorem exec_portLinkUp_trains {sp w : Fin 8} (hen : s.on (Fd.PORT_PCTL_EN i.val) = true) (hhere : s.ctrlHere i = true) (hperst : s.perstLow i = false)
    (hlo : 1 ≤ sp.val) (hhi : sp.val ≤ 5) (hw : w = 1 ∨ w = 2 ∨ (w = 4 ∧ s.on Fd.INT_CTL_X4 = true)) :
    exec (.portLinkUp i sp w) s =
      .next ((s.wrs [(Fd.PORT_PCTL_LINKUP i.val, 1), (Fd.PORT_PCTL_SPEED i.val, sp.val), (Fd.PORT_PCTL_WIDTH i.val, w.val)]).ctrlUpd i
        fun c => { c with linkHeld := false }) := by
  have hwidth : (if s.on Fd.INT_CTL_X4 then [1, 2, 4] else [1, 2]).contains w.val = true := by
    rcases hw with rfl | rfl | ⟨rfl, hx4⟩
    · split <;> rfl
    · split <;> rfl
    · rw [hx4]
      rfl
  have hspeed : sp ≠ 0 := by
    rintro rfl
    exact absurd hlo (by decide)
  refine if_neg ?_
  rw [hwidth]
  simp [hen, hhere, hperst, hspeed, hhi]

theorem exec_stageRequest_mapped {r : Fin 64} {a : BitVec 40} {n : Fin 257} {be : BitVec 256} (hok : granuleOk (unalias a.toNat) n.val = true)
    (hdram : s.inDram (unalias a.toNat) = true) :
    exec (.stageRequest r a n none be) s = .next (State.retry { s with answer := [] } []
      (s.stage.waiting ++ s.parts ⟨r.val, unalias a.toNat, n.val, none, be.toNat % 2 ^ n.val, s.allocates r.val, false, false⟩)) :=
  if_pos (by rw [hok, hdram]; rfl)

theorem exec_stageFillDone_read {a : BitVec 40} {t : State} {l : List Nat} (hdram : s.inDram (unalias a.toNat) = true)
    (hfilling : ((s.inArray (s.lineOf (unalias a.toNat))).any fun p => bit p.2.filling (s.unitOf (unalias a.toNat))) = true)
    (hload : State.memLoad { s with answer := [] } (((s.firstFor (s.lineOf (unalias a.toNat)) (s.unitOf (unalias a.toNat))).map StgReq.r).getD 0)
      (dramBase + s.lineOf (unalias a.toNat) * s.lineSize + s.unitOf (unalias a.toNat) * s.unitSize) s.unitSize = (t, some l)) :
    exec (.stageFillDone a) s = .next ((t.filled (s.lineOf (unalias a.toNat)) (s.unitOf (unalias a.toNat)) true).retry [] s.stage.waiting) := by
  show execStageFillDone a s = _
  simp only [execStageFillDone, hdram, hfilling, hload]
  rfl

/-- The oldest dirty unit is written back, and its entry leaves the queue with the last (R380). -/
theorem exec_writebackIssue_oldest (b : Option (Fin 32)) {l : StgLine} {rest : List StgLine} {u : Nat} (hwb : s.walk.stage.wb = l :: rest)
    (hdirty : lowDirty l.dirty 0 16 = some u) :
    ∃ t : State, exec (.writebackIssue b) s = .next (t.retry [] s.walk.stage.waiting) ∧ t.answer = [] ∧
      t.stage.wb = if clrBit l.dirty u = 0 then rest else { l with dirty := clrBit l.dirty u } :: rest := by
  have hexec : exec (.writebackIssue b) s = execWritebackIssue b s := rfl
  rw [hexec, execWritebackIssue, hwb]
  simp only [hdirty]
  exact ⟨_, rfl, rfl, rfl⟩

end Sys2Proof.Machine

open Sys2Proof.Machine

/-- Settles O24: each event of a controller or of its port, in the case that its hypotheses name. -/
theorem controllerEventsAct : Obligations.ControllerEventsAct := by
  intro s i
  refine ⟨?enable, rfl, rfl, ?shutdown, rfl, ?linkHeld, ?linkReset, ?linkUp, ?expiry, ?perst, rfl, ?power⟩
  case enable => exact fun hoff hhere hup => if_neg (by simp [hoff, hhere, hup])
  case shutdown =>
    refine ⟨_, rfl, ?_, ?_, fun _ => rfl, fun p hp => by cases p <;> first | rfl | simp at hp⟩
    all_goals match i with
      | 0 | 1 => rfl
  case linkHeld => exact fun hup hhere hhold => (exec_portLinkDown_up hup hhere).trans (if_neg hhold)
  case linkReset => exact fun hup hhere hhold => (exec_portLinkDown_up hup hhere).trans (if_pos hhold)
  case linkUp => exact fun sp w hen hhere hperst hlo hhi hw => exec_portLinkUp_trains hen hhere hperst hlo hhi hw
  case expiry => exact fun hheld => if_pos hheld
  case perst => exact fun u hu hhere hphase => exec_perstAssert_running u hu hhere hphase
  case power => exact fun p hhere => if_pos hhere

/-- Settles O25: each command and event of the Stage, in the case that its hypotheses name. -/
theorem stageCommandsAct : Obligations.StageCommandsAct := by
  intro s
  refine ⟨?request, ?fill, ?writeback, ?disable, ?disableAgain, ?drained, ?enable, ?enableLater⟩
  case request => exact fun r a n be hok hdram => exec_stageRequest_mapped hok hdram
  case fill => exact fun a t l hdram hfilling hload => exec_stageFillDone_read hdram hfilling hload
  case writeback => exact fun b l rest u hwb hdirty => exec_writebackIssue_oldest b hwb hdirty
  case disable => exact fun hon => if_pos hon
  case disableAgain =>
    intro hdrains
    show execStageDisable s = _
    rw [execStageDisable, hdrains]
    rfl
  case drained =>
    intro hdrains hclean hheld
    show execStageDrained s = _
    rw [execStageDrained, if_pos ⟨hdrains, by simp [hclean]⟩, hheld]
    rfl
  case enable => exact fun hoff => if_pos hoff
  case enableLater =>
    intro hdrains
    show execStageEnable s = _
    rw [execStageEnable, hdrains]
    rfl

end

section
/-! PROOF. Memory accesses, scrubbing, filling and injection (R390 to R406), and Weir packets, stalls and SYNC (R407 to R416). -/

namespace Sys2Proof.Machine

variable {s : State}

theorem exec_memWrite_mapped {w : BitVec 37} {v : BitVec 64} {be : BitVec 8} (hmem : s.isMem (8 * w.toNat) 8 = true) :
    exec (.memWrite w v be) s = match tableOf (8 * w.toNat) with
      | some (n, h) => .next (((s.memPut w.toNat v.toNat be.toNat).reply 0).dropTable n h)
      | none => .next ((s.memPut w.toNat v.toNat be.toNat).reply 0) := by
  show execMemWrite w v be s = _
  refine (if_pos hmem).trans ?_
  cases tableOf (8 * w.toNat) <;> rfl

theorem exec_memRead_mapped {r : Fin 64} {a : BitVec 40} {n : Fin 257} {x : BitVec 80} {t : State} {l : Option (List Nat)} (hlen : n.val ≠ 0)
    (hmem : s.isMem a.toNat n.val = true)
    (hload : (s.setErr (a.toNat / 8) (s.err (a.toNat / 8) ^^^ x.toNat)).memLoad r.val a.toNat n.val = (t, l)) :
    exec (.memRead r a n x) s = .next (State.answerLoad { t with answer := [] } l) := by
  show execMemRead r a n x s = _
  rw [execMemRead, if_pos ⟨hlen, hmem⟩]
  simp only [hload]

/-- The window of a bucket is counted from the leak, and no boundary has passed since (R399). -/
theorem leaksDue_of_leakAt {t : State} {m : Nat} (hnow : t.memc.leakAt m = t.time) : t.leaksDue m = 0 := by
  rw [State.leaksDue, hnow]
  exact Nat.sub_self _

theorem leak_leakAt (m : Fin 2) (hdue : s.leaksDue m.val ≠ 0) : (s.leak m.val).memc.leakAt m.val = (s.leak m.val).time := by
  rw [State.leak, if_neg hdue]
  by_cases hm : m.val = 0 <;> simp [MemUnit.leakAt, hm]

theorem leak_rd (m : Nat) (hdue : s.leaksDue m ≠ 0) (f : Fld) :
    (s.leak m).rd f = (s.wr (Fd.MEM_BKT_LEVEL m) (s.rd (Fd.MEM_BKT_LEVEL m) - s.leaksDue m)).rd f := by
  rw [State.leak, if_neg hdue]
  rfl

/-- A packet of class C is sent on a credit. -/
theorem exec_weirPacket_command {r : Fin 64} {w : Bool} (hcredit : s.credit? r.val .c w = true) :
    exec (.weirPacket .stage true r .c w) s = .next ((s.weirPut fun z => { z with packets := z.packets ++ [⟨r.val, .c, w⟩] }).useSlot .c w true) := by
  show s.weirPacket true r .c w = _
  simp [State.weirPacket, hcredit]

theorem exec_weirPacket_passedOn {r : Fin 64} {k : WeirClass} {w : Bool} {p : Packet} (hpick : s.weir.pick = some p) :
    exec (.weirPacket .stage false r k w) s =
      .next ((s.weirPut fun z => { z with
        packets := z.packets.erase p, lastD := if p.cls = .d then true else if p.cls = .q then false else z.lastD,
        writes := if p.cls = .d ∧ p.write then arrive p.r z.writes else z.writes }).useSlot p.cls p.write false) := by
  show s.weirPacket false r k w = _
  simp only [State.weirPacket, Bool.false_eq_true, if_false, hpick]

/-- A message held for a slot of a peer goes when one comes back (R411). -/
theorem slotBack_sends {q i : Nat} {m : CMsg} (hheld : s.cfx.held.find? (fun m => m.waitsFor q i) = some m)
    (hroom : (s.cfx.flight.erase (q, i)).count (q, i) < slotsKept i) :
    s.slotBack q i = (s.cfxUpd fun c => { c with flight := c.flight.erase (q, i) }).cfxUpd fun c =>
      { c with sent := c.sent ++ [m], flight := (q, i) :: c.flight, held := c.held.erase m } := by
  rw [State.slotBack, State.sendHeld]
  show (match s.cfx.held.find? fun m => m.waitsFor q i with
    | none => _
    | some m => _) = _
  rw [hheld]
  exact if_pos (decide_eq_true hroom)

theorem slotBack_none {q i : Nat} (hheld : (s.cfx.held.find? fun m => m.waitsFor q i) = none) :
    s.slotBack q i = s.cfxUpd fun c => { c with flight := c.flight.erase (q, i) } := by
  rw [State.slotBack, State.sendHeld]
  show (match s.cfx.held.find? fun m => m.waitsFor q i with
    | none => _
    | some m => _) = _
  rw [hheld]

theorem relay_takes {a b c : Nat} (hab : a ≠ b) (ha : s.pos ≠ a) (hb : s.pos ≠ b) (hma : a < s.members) (hmb : b < s.members) (hc : c ≤ 2)
    (hroom : s.cfx.relays.count (a, b, c) < 1 + Config.relaySlots c) :
    s.relay a b c true = s.cfxUpd fun x => { x with relays := (a, b, c) :: x.relays } := by
  simp [State.relay, hab, ha, hb, Nat.not_le.mpr hma, Nat.not_le.mpr hmb, Nat.not_lt.mpr hc, hroom]

theorem exec_weirStall_watched {r : Fin 48} {u : UnitRef} (hunit : requesterUnit r.val = some u) :
    let t := ((s.wr Fd.WEIR_INT_STALL 1).count Fd.WEIR_CNT_STALLS 1).raise .weir 0x0501 4 [r.val, 1]
    t.watchesElems u = true → exec (.weirStall r .d) s = .next (t.tookFree.expiryWindow.elementExpired u (s.freeVal % 65536)) := by
  intro t hwatched
  show execWeirStall r .d s = _
  simp only [execWeirStall, hunit]
  exact congrArg _ (if_pos hwatched)

theorem exec_weirSync_done {m : BitVec 48} (hdone : s.on (Fd.WEIR_SYNC_DONE 4) = true) :
    exec (.weirSync .watch 4 m) s = .next (((s.wr (Fd.WEIR_SYNC_MASK 4) m.toNat).wr (Fd.WEIR_SYNC_DONE 4) 0).weirPut fun w =>
      { w with syncs := (w.syncs.filter fun y => y.1 != 4) ++ [(4, (s.weir.writes.filter fun w => bit m.toNat w.2).map Prod.fst)] }) := by
  show execWeirSync .watch 4 m s = _
  have hmask : (if s.on (Fd.WEIR_SYNC_DONE (4 : Fin 5).val) then m.toNat else m.toNat ||| s.rd (Fd.WEIR_SYNC_MASK (4 : Fin 5).val)) = m.toNat := if_pos hdone
  rw [execWeirSync, if_pos (.inl ⟨rfl, rfl⟩), hmask]
  rfl

end Sys2Proof.Machine

open Sys2Proof.Machine

/-- Settles O26: each access to memory and each of its services, in the case that its hypotheses name. -/
theorem memoryCommandsAct : Obligations.MemoryCommandsAct := by
  intro s
  refine ⟨?write, ?writeTable, ?writeError, ?read, ?leakNone, ?leak, ?scrub, ?scrubDram, ?fill, fun _ => rfl, ?arm⟩
  case write => exact fun w v be hmem htable => (exec_memWrite_mapped hmem).trans (by rw [htable])
  case writeTable => exact fun w v be n h hmem htable => (exec_memWrite_mapped hmem).trans (by rw [htable])
  case writeError => exact fun w v be hmem hrow => (if_neg (by simp [hmem])).trans (if_neg (by simp [hrow]))
  case read => exact fun r a n x t l hlen hmem hload => exec_memRead_mapped hlen hmem hload
  case leakNone => exact fun m hnone => congrArg Host.Outcome.next (if_pos hnone)
  case leak =>
    intro m hdue
    refine ⟨s.leak m.val, rfl, (leak_rd m.val hdue _).trans (wr_rd_same _ _ _), leaksDue_of_leakAt (leak_leakAt m hdue), fun f hf => ?_⟩
    exact (leak_rd m.val hdue f).trans (wr_rd_other _ _ hf)
  case scrub => exact fun x hon => if_pos hon
  case scrubDram => exact fun x hon hsize hps => if_pos ⟨hon, hsize, hps⟩
  case fill => exact fun hphase => if_neg (not_not.mpr hphase)
  case arm => exact fun r v hr => if_neg hr

/-- Settles O27: each event of Weir, in the case that its hypotheses name. -/
theorem weirCommandsAct : Obligations.WeirCommandsAct := by
  intro s
  refine ⟨?send, ?withheld, ?passOn, ?linkFree, ?linkSends, ?relay, ?stall, ?sync, ?syncDone⟩
  case send => exact fun r w hcredit => exec_weirPacket_command hcredit
  case withheld =>
    intro r k w hcredit
    show s.weirPacket true r k w = _
    simp [State.weirPacket, hcredit]
  case passOn => exact fun r k w p hpick => exec_weirPacket_passedOn hpick
  case linkFree => exact fun q i r k w hheld => congrArg Host.Outcome.next (slotBack_none hheld)
  case linkSends =>
    intro q i r k w m hheld hroom
    have hexec : exec (.weirPacket (.link q i) false r k w) s = .next (s.slotBack q.val i.val) := rfl
    rw [hexec, slotBack_sends hheld hroom]
    exact ⟨_, rfl, rfl, rfl, rfl, fun p hp => by cases p <;> first | rfl | simp at hp⟩
  case relay =>
    exact fun a b r k w hab ha hb hma hmb hk hroom =>
      congrArg Host.Outcome.next (relay_takes (fun h => hab (Fin.ext h)) ha hb hma hmb hk hroom)
  case stall =>
    rintro r u t hunit rfl hwatched
    exact exec_weirStall_watched hunit hwatched
  case sync => exact fun m hdone => exec_weirSync_done hdone
  case syncDone => exact fun k hdone => if_pos hdone

end

section
/-! PROOF. Sluice channels (R417 to R429), Backwater queues (R432 to R436) and code flash (R443 to R458). -/

namespace Sys2Proof.Machine

variable {s : State}

theorem exec_sluiceDescFetch_first {c : Fin 32} (hruns : s.sluRuns c.val = true) (htakes : s.takesWork .sluice = true) (hcur : (s.slu c.val).cur = none) :
    exec (.sluiceDescFetch c) s = match s.descAt c.val (32 * s.rd (Fd.SLC_CHCUR_ADDR c.val)) with
      | (t, some d) => .next (t.sluCurrent c.val d)
      | (t, none) => .next (t.sluError c.val 1) := by
  show execSluiceDescFetch c s = _
  refine (if_neg (by simp [hruns, htakes])).trans ?_
  rcases s.descAt c.val (32 * s.rd (Fd.SLC_CHCUR_ADDR c.val)) with ⟨t, _ | d⟩ <;> simp only [hcur]

/-- A descriptor done that asks for it sets DONE and its tag, and the last of a chain ends the channel (R425). -/
theorem exec_sluiceDescDone_last {c : Fin 32} {d : List Nat} (hcur : (s.slu c.val).cur = some d) (hst : s.sluState c.val = 1)
    (hdone : descCount d ≤ (s.slu c.val).wpos) (hint : descInt d = true) (hlast : descLast d = true) :
    exec (.sluiceDescDone c) s = .next ((((((s.sluOverlap (s.slu c.val).orig).setB Fd.SLC_DONE_DONE c.val).wr (Fd.SLC_CHTAG_TAG c.val)
      (descTag d)).wr (Fd.SLC_CHSTAT_STATE c.val) 0).sluOwnerEnds c.val false).updSlu c.val fun _ => SluChan.reset) := by
  show execSluiceDescDone c s = _
  simp [execSluiceDescDone, hcur, hst, Nat.not_lt.mpr hdone, hint, hlast]

theorem exec_bkwPushl_enabled {q : Fin 256} {w : BitVec 64} {l : List Nat} (hen : s.on Fd.BKW_CTL_EN = true)
    (hl : l = (s.queue q.val).asm ++ [w.toNat]) :
    exec (.bkwPushl q w) s = .next (
      if l.length ≤ 16 ∧ (s.queue q.val).words + l.length ≤ queueMax then
        (s.putQueue q.val { s.queue q.val with asm := [] }).bkwEnterAll q.val (tagItem l.length l)
      else (s.putQueue q.val { s.queue q.val with asm := [] }).dropItem q.val l.length false) := by
  subst hl
  exact (if_pos hen).trans (apply_ite Host.Outcome.next _ _ _).symm

theorem exec_bkwPop_empty {q : Fin 256} {b : Bool} (hhead : (s.queue q.val).head = []) (hmid : (s.queue q.val).mid = []) :
    exec (.bkwPop q b) s = .next ((s.wr (Fd.BKW_QSTAT_TAG q.val) 16).reply 0) := by
  show execBkwPop q b s = _
  have hnothing : ¬ ((s.queue q.val).head = [] ∧ (s.queue q.val).mid ≠ []) := fun h => h.2 hmid
  rw [execBkwPop, if_neg hnothing, hhead]

theorem exec_bkwPop_oldest {q : Fin 256} {w : BWord} {l : List BWord} (hhead : (s.queue q.val).head = w :: l) :
    exec (.bkwPop q false) s =
      .next (((s.putQueue q.val (BQueue.direct { s.queue q.val with head := l })).wr (Fd.BKW_QSTAT_TAG q.val) w.tag).reply w.v) := by
  show execBkwPop q false s = _
  have hready : ¬ ((s.queue q.val).head = [] ∧ (s.queue q.val).mid ≠ []) := fun h => List.cons_ne_nil _ _ (hhead.symm.trans h.1)
  rw [execBkwPop, if_neg hready]
  simp only [hhead, Bool.or_false, Bool.false_eq_true, if_false]

section Read

variable {w : BitVec 23} {f : Bool} (herase : s.erasing (w.toNat / 512) = false) (habandoned : s.cfl.abandoned.contains (w.toNat / 512) = false)
include herase habandoned

theorem exec_cflRead_good (hbad : s.cfl.badWords.contains w.toNat = false) :
    exec (.cflRead w f 0) s = .next ((s.fillLines (w.toNat / 8) f).reply (s.flashWord w.toNat)) := by
  show execCflRead w f 0 s = _
  simp only [execCflRead, herase, habandoned, hbad, Bool.false_eq_true, if_false]
  cases s.lineHit (w.toNat / 8) f <;> rfl

theorem exec_cflRead_uncorrectable (hmiss : s.lineHit (w.toNat / 8) f = false) :
    exec (.cflRead w f 2) s =
      .next ((((s.count Fd.CFL_CNT0_UE 1).wr Fd.CFL_INT_UE 1).raise .flash 0x0B01 6 (leBytes 4 (8 * w.toNat))).busError) := by
  show execCflRead w f 2 s = _
  simp only [execCflRead, herase, habandoned, hmiss, Bool.false_eq_true, if_false]
  exact if_pos (.inl rfl)

end Read

theorem exec_cflOpDone_ends {b : Fin 2} {o : FlashOp} (p : Fin 17) (e : Option (Fin 8)) (hop : s.flashOp b.val = some o)
    (hsusp : s.on (cflSusp b.val) = false) :
    exec (.cflOpDone b p e) s =
      .next (((if o.erase then s.eraseEnds b.val o e.isSome else s.programEnds b.val o p.val (e.map Fin.val)).opEnds b.val).invalidate o.off
        (if o.erase then 4096 else 8 * o.words.length)) := by
  show execCflOpDone b p e s = _
  rw [execCflOpDone, hop]
  exact if_neg (by simp [hsusp])

theorem exec_cflRetireCopy_done {b : Fin 2} {x : Remap}
    (hfind : (s.cfl.remap.find? fun r => !r.done && flashBank (4096 * r.sector) == b.val) = some x) :
    ∃ t, exec (.cflRetireCopy b) s = .next t ∧ t.cfl.remap = s.cfl.remap.map fun r => if r = x then { r with done := true } else r := by
  have hexec : exec (.cflRetireCopy b) s = execCflRetireCopy b s := rfl
  rw [hexec, execCflRetireCopy, hfind]
  refine ⟨_, rfl, ?_⟩
  split <;> rfl

end Sys2Proof.Machine

open Sys2Proof.Machine

/-- Settles O28: each command and event of a Sluice channel, in the case that its hypotheses name. -/
theorem sluiceCommandsAct : Obligations.SluiceCommandsAct := by
  intro s c
  refine ⟨?go, ?refused, rfl, ?resume, ?fetch, ?fetchError, ?access, ?done, ?write, ?read⟩
  case go => exact fun hfree hst => if_neg (by simp [hfree, hst])
  case refused => exact fun hst => if_pos (by simp [hst])
  case resume =>
    intro hfree hst hen
    show execSluiceResume c s = _
    simp [execSluiceResume, hfree, hst, hen]
  case fetch => exact fun t d hruns htakes hcur hdesc => (exec_sluiceDescFetch_first hruns htakes hcur).trans (by rw [hdesc])
  case fetchError => exact fun t hruns htakes hcur hdesc => (exec_sluiceDescFetch_first hruns htakes hcur).trans (by rw [hdesc])
  case access =>
    intro hnone hready
    show execSluiceAccess c s = _
    rw [execSluiceAccess, hnone, hready]
    rfl
  case done => exact fun d hcur hst hdone hint hlast => exec_sluiceDescDone_last hcur hst hdone hint hlast
  case write =>
    intro n hen
    show execSluiceSectorXfer n true s = _
    rw [execSluiceSectorXfer, hen]
    rfl
  case read =>
    intro n x hen hfind
    show execSluiceSectorXfer n false s = _
    rw [execSluiceSectorXfer, hen, hfind]
    rfl

/-- Settles O29: each command and event of a Backwater queue, in the case that its hypotheses name. -/
theorem backwaterCommandsAct : Obligations.BackwaterCommandsAct := by
  intro s q
  refine ⟨?push, ?last, ?disabled, ?empty, ?pop, rfl, ?spill, ?refill⟩
  case push => exact fun w hen => if_pos hen
  case last => exact fun w l hen hl => exec_bkwPushl_enabled hen hl
  case disabled => exact fun w hoff => ⟨if_neg (by simp [hoff]), if_neg (by simp [hoff])⟩
  case empty => exact fun b hhead hmid => exec_bkwPop_empty hhead hmid
  case pop => exact fun w l hhead => exec_bkwPop_oldest hhead
  case spill => exact fun b htail hroom => if_pos ⟨htail, hroom⟩
  case refill => exact fun hhead hmid => if_pos ⟨hhead, hmid⟩

/-- Settles O30: each command and event of the code flash, in the case that its hypotheses name. -/
theorem flashCommandsAct : Obligations.FlashCommandsAct := by
  intro s b
  refine ⟨?erasing, ?good, ?uncorrectable, ?program, ?erase, ?eraseEnds, ?programEnds, ?copy, ?suspend, ?resume, fun _ => rfl⟩
  case erasing => exact fun w f e herase => if_pos herase
  case good => exact fun w f herase habandoned hbad => exec_cflRead_good herase habandoned hbad
  case uncorrectable => exact fun w f herase habandoned hmiss => exec_cflRead_uncorrectable herase habandoned hmiss
  case program => exact fun htakes => congrArg Host.Outcome.next (if_pos htakes)
  case erase => exact fun htakes => congrArg Host.Outcome.next (if_pos htakes)
  case eraseEnds =>
    intro o p hop hsusp herase
    rw [exec_cflOpDone_ends p none hop hsusp, if_pos herase, if_pos herase]
    rfl
  case programEnds =>
    intro o p e hop hsusp hprogram
    rw [exec_cflOpDone_ends p e hop hsusp, hprogram]
    rfl
  case copy => exact fun x hfind => exec_cflRetireCopy_done hfind
  case suspend => exact fun o hop hsusp => if_pos ⟨by rw [hop]; rfl, by simp [hsusp]⟩
  case resume => exact ⟨_, rfl, (wr_rd_same _ _ _).trans (Nat.zero_mod _), fun f hf => wr_rd_other _ _ hf⟩

end

section
/-! PROOF. The spindle's demand, target and supply (R466 to R472), and its start, loss and braking (R472 to R483). -/

namespace Sys2Proof.Machine

variable {s : State}

/-- A duty measured over a valid period joins the last ones (R466). -/
theorem exec_spinDmdPeriod_valid {p h : BitVec 32} (hlo : 36000 ≤ p.toNat) (hhi : p.toNat ≤ 1100000) (hhigh : h.toNat ≤ p.toNat) :
    let l := (halfUp (255 * h.toNat) p.toNat :: s.spin.recent).take 4
    let s1 := s.spinUpd fun x => { x with ignored := 0, recent := l }
    let m := halfUp l.sum 4
    exec (.spinDmdPeriod p h) s = if l.length < 4 then .next s1
      else .next (if !s.on Fd.SPN_CTL_SRC && (s.rd Fd.SPN_DMD_NOW + 2 ≤ m || m + 2 ≤ s.rd Fd.SPN_DMD_NOW) then (s1.wr Fd.SPN_DMD_PIN m).setDemand m
        else s1.wr Fd.SPN_DMD_PIN m) :=
  if_pos ⟨hlo, hhi, hhigh⟩

theorem exec_spinDmdPeriod_few {p h : BitVec 32} (hlo : 36000 ≤ p.toNat) (hhi : p.toNat ≤ 1100000) (hhigh : h.toNat ≤ p.toNat)
    (hfew : s.spin.recent.length < 3) :
    exec (.spinDmdPeriod p h) s = .next (s.spinUpd fun x => { x with ignored := 0, recent := halfUp (255 * h.toNat) p.toNat :: s.spin.recent }) := by
  have hall : (halfUp (255 * h.toNat) p.toNat :: s.spin.recent).take 4 = halfUp (255 * h.toNat) p.toNat :: s.spin.recent :=
    List.take_of_length_le (by rw [List.length_cons]; omega)
  have hexec := exec_spinDmdPeriod_valid (s := s) hlo hhi hhigh
  rw [hall] at hexec
  exact hexec.trans (if_pos (by rw [List.length_cons]; omega))

theorem exec_spinDmdPeriod_follows {p h : BitVec 32} {a b c m : Nat} {l : List Nat} (hlo : 36000 ≤ p.toNat) (hhi : p.toNat ≤ 1100000)
    (hhigh : h.toNat ≤ p.toNat) (hrecent : s.spin.recent = a :: b :: c :: l) (hpin : s.on Fd.SPN_CTL_SRC = false)
    (hm : m = halfUp (halfUp (255 * h.toNat) p.toNat + a + b + c) 4) (hrises : s.rd Fd.SPN_DMD_NOW + 2 ≤ m) :
    exec (.spinDmdPeriod p h) s =
      .next (((s.spinUpd fun x => { x with ignored := 0, recent := [halfUp (255 * h.toNat) p.toNat, a, b, c] }).wr Fd.SPN_DMD_PIN m).setDemand m) := by
  have htake : (halfUp (255 * h.toNat) p.toNat :: s.spin.recent).take 4 = [halfUp (255 * h.toNat) p.toNat, a, b, c] := by
    rw [hrecent]
    rfl
  have hsum : halfUp [halfUp (255 * h.toNat) p.toNat, a, b, c].sum 4 = m := by
    rw [hm]
    simp only [List.sum_cons, List.sum_nil, Nat.add_zero, Nat.add_assoc]
  have hexec := exec_spinDmdPeriod_valid (s := s) hlo hhi hhigh
  simp only [htake, hsum] at hexec
  exact hexec.trans ((if_neg (lt_irrefl 4)).trans (congrArg _ (if_pos (by simp [hpin, hrises]))))

/-- Below its fault level VMOT moves the chopper alone (R471). -/
theorem exec_vmotThreshold_low {mv : BitVec 16} (hlow : mv.toNat ≤ 14400) :
    exec (.vmotThreshold mv) s = .next (s.spinUpd fun x =>
      { x with chopper := if 13800 ≤ mv.toNat then true else if mv.toNat ≤ 13600 then false else x.chopper }) := by
  have hovervolt : ¬ (15000 < mv.toNat ∧ (!s.spin.ovp) = true) := by omega
  exact congrArg Host.Outcome.next ((if_neg hovervolt).trans (if_neg (Nat.not_lt.mpr hlow)))

/-- A PWM period of the alignment gives the currents, and neither speed nor angle. -/
theorem exec_pwmPeriod_align {u v w : Option (BitVec 16)} {a : BitVec 16} {r : BitVec 17} (hst : s.spn = 4) :
    exec (.pwmPeriod u v w a r) s = .next (s.spinUpd fun x =>
      { x with iu := (s.phases u v w).1, iv := (s.phases u v w).2.1, iw := (s.phases u v w).2.2, atLimit := 0 }) := by
  show execPwmPeriod u v w a r s = _
  simp [execPwmPeriod, hst]

theorem exec_targetChange_wanted (hchange : s.wantRpm ≠ s.rd Fd.SPN_TARGET_RPM) (hturn : s.wantRpm ≠ 0) :
    exec .targetChange s = if s.allParked then .next (s.takeTarget s.wantRpm) else if s.spin.held = some s.wantRpm then .next s
      else .next (((s.wr Fd.SPN_STATUS_PEND 1).wr Fd.SPN_INT_PARKREQ 1).spinUpd fun x => { x with held := some s.wantRpm }) :=
  (if_neg hchange).trans (if_neg fun h => hturn h.2.2)

theorem exec_ovpRelease_eq : exec .ovpRelease s = .next (if s.spin.ovp = false then s
    else if s.spn = 8 ∧ s.spin.after = .listen then (s.spinUpd fun x => { x with ovp := false }).listen
    else s.spinUpd fun x => { x with ovp := false }) := by
  show execOvpRelease s = _
  rw [execOvpRelease]
  cases s.spin.ovp <;> rfl

/-- What listening to a motor at rest leads to (R473, R474). -/
theorem exec_listenEnd_rest (hst : s.spn = 1) :
    let t := (s.wr Fd.SPN_SPEED_REV 0).wr Fd.SPN_SPEED_RPM10 0
    exec (.listenEnd .rest) s = if s.tx < 0 then
        if s.on Fd.SPN_WARM_WARM_MA then .next ((t.setSpn 2).count Fd.SPN_CNT1_WARMS 1) else .next t.warmed.withToken
      else .next (t.wantToken false).withToken :=
  if_neg (not_not.mpr hst)

end Sys2Proof.Machine

open Sys2Proof.Machine

/-- Settles O31: each event of the spindle's demand and supply, in the case that its hypotheses name. -/
theorem spindleSpeedActs : Obligations.SpindleSpeedActs := by
  intro s
  refine ⟨?few, ?follows, ?still, ?curve, ?curveError, ?parked, ?waits, ?release, ?rise, ?loss, ?chops, ?chopsNot, exec_ovpRelease_eq, ?listens, ?released, ?pwm⟩
  case few =>
    intro p h hlo hhi hhigh hfew
    exact ⟨_, exec_spinDmdPeriod_few hlo hhi hhigh hfew, rfl, rfl, fun _ => rfl, fun p hp => by cases p <;> first | rfl | simp at hp⟩
  case follows => exact fun p h a b c l hlo hhi hhigh hrecent hpin hrises => exec_spinDmdPeriod_follows hlo hhi hhigh hrecent hpin rfl hrises
  case still => exact fun l hpin => congrArg Host.Outcome.next (if_neg (by simp [hpin]))
  case curve => exact fun hasc => if_pos hasc
  case curveError => exact fun hasc => if_neg (by simp [hasc])
  case parked => exact fun hchange hturn hparked => (exec_targetChange_wanted hchange hturn).trans (if_pos hparked)
  case waits =>
    intro hchange hturn hparked hheld
    rw [exec_targetChange_wanted hchange hturn, if_neg (by simp [hparked]), if_neg (by simp [hheld])]
  case release =>
    intro t hparked hwait hheld
    show execHeldTargetRelease s = _
    rw [execHeldTargetRelease, if_neg (by simp [hparked]), hwait, hheld]
    rfl
  case rise => exact fun hst hspd htarget hwithin => if_pos ⟨hst, by simp [hspd], htarget, hwithin⟩
  case loss => exact fun hspd hwithin => if_pos ⟨hspd, by simp [hwithin]⟩
  case chops =>
    intro mv hlo hhi
    exact ⟨_, exec_vmotThreshold_low hhi, if_pos hlo, fun _ => rfl, fun p hp => by cases p <;> first | rfl | simp at hp⟩
  case chopsNot =>
    intro mv hlo
    refine ⟨_, exec_vmotThreshold_low (by omega), ?_, fun _ => rfl, fun p hp => by cases p <;> first | rfl | simp at hp⟩
    exact (if_neg (by omega)).trans (if_pos hlo)
  case listens =>
    intro hovp hst hafter
    rw [exec_ovpRelease_eq, if_neg (by simp [hovp]), if_pos ⟨hst, hafter⟩]
  case released =>
    intro hovp hst
    rw [exec_ovpRelease_eq, if_neg (by simp [hovp]), if_neg fun h => hst h.1]
  case pwm =>
    intro u v w a r hst
    exact ⟨_, exec_pwmPeriod_align hst, rfl, rfl, fun _ => rfl, fun p hp => by cases p <;> first | rfl | simp at hp⟩

/-- Settles O32: each event of the spindle's start and of its braking, in the case that its hypotheses name. -/
theorem spindleStartActs : Obligations.SpindleStartActs := by
  intro s
  refine ⟨?start, ?restToken, ?restWarm, ?turning, ?unresolved, ?caught, ?warmed, ?token, ?align, ?handover, ?timeout, ?loss, ?rest, ?brakeTimeout, ?clear,
    ?inTime, ?late⟩
  case start => exact fun hst hunit hdecl => if_pos ⟨.inl hst, hunit, by simp [hdecl]⟩
  case restToken =>
    rintro t hst rfl htx
    exact (exec_listenEnd_rest hst).trans (if_neg (not_lt.mpr htx))
  case restWarm =>
    rintro t hst rfl htx hwarm
    exact (exec_listenEnd_rest hst).trans ((if_pos htx).trans (if_pos hwarm))
  case turning => exact fun v hst hspeed => (if_neg (not_not.mpr hst)).trans (if_pos ⟨rfl, hspeed⟩)
  case unresolved => exact fun hst => if_neg (not_not.mpr hst)
  case caught => exact fun hst htoken hcatch => if_pos ⟨hst, htoken, hcatch⟩
  case warmed => exact fun hst => if_pos hst
  case token => exact fun hst htoken hgrant => if_pos ⟨hst, by simp [htoken], hgrant⟩
  case align => exact fun hst => if_pos hst
  case handover => exact fun hst => ⟨if_neg (not_not.mpr hst), if_neg (not_not.mpr hst)⟩
  case timeout => exact fun htoken hspd hlo hhi => if_pos ⟨htoken, by simp [hspd], hlo, hhi⟩
  case loss => exact fun k hst => if_pos hst
  case rest => exact fun hst hwait => if_pos ⟨hst, by simp [hwait]⟩
  case brakeTimeout => exact fun hst hwait => if_pos ⟨hst, by simp [hwait]⟩
  case clear => exact fun hst => if_pos hst
  case inTime => exact fun hturning => if_neg (by simp [hturning])
  case late => exact fun hturning => if_neg (by simp [hturning])

end

section
/-! PROOF. Expiries and restarts (R486 to R509), management-slot commands (R31, R264, R496) and calibration passes (R510 to R522). -/

namespace Sys2Proof.Machine

variable {s : State}

theorem exec_domainRestartEnd_ended {d : Domain} (hst : s.rd (Fd.IRT_DSTAT_STATE d.num) = 1) (hunits : (d.units.any fun u => s.unit u = 5) = false)
    (hmotion : s.watch.motion = none) :
    let t := (s.bump (Fd.IRT_DSTAT_GEN d.num)).wr (Fd.IRT_DSTAT_STATE d.num) 0
    exec (.domainRestartEnd d) s =
      .next ((t.raise .irt 0x0601 5 ([d.num, tget 0 s.watch.causes d.num] ++ leBytes 2 (t.rd (Fd.IRT_DSTAT_GEN d.num)))).recovery.watchUpd fun w =>
        { w with causes := terase w.causes d.num }) :=
  if_neg (by rw [hst, hunits, hmotion]; simp)

theorem exec_watchRestartEnd_restarts (hrestarting : s.watch.restarting = true) :
    ∃ t : State, exec .watchRestartEnd s = .next (t.actHeld s.watch.held) ∧ t.cores.watch.run = true ∧ t.watch.restarting = false ∧
      t.watch.kick = s.time :=
  ⟨_, if_neg (by simp [hrestarting]), rfl, rfl, rfl⟩

/-- Where device time has reached another window every count starts at 0 (R494). -/
theorem expiryWindow_starts (hwindow : s.watch.window ≠ s.time / 10000000) :
    let t := s.expiryWindow
    t.watch.elems = [] ∧ t.watch.units = [] ∧ t.watch.doms = [] ∧ t.watch.sup = 0 ∧ t.watch.window = s.time / 10000000 ∧ t.rd Fd.IRT_WSTAT_SUPEXP = 0 := by
  intro t
  have ht : t = _ := if_neg hwindow
  rw [ht]
  refine ⟨rfl, rfl, rfl, rfl, rfl, ?_⟩
  rw [watchUpd_rd, wr_rd_same]
  rfl

section SlotWriter

variable {r : Requester} {u : UnitRef}

theorem exec_slotReset_begins (hwriter : slotWriter r = true) (hres : s.resettable u = true) (hunit : s.unit u ≠ 5) :
    exec (.slotReset r u) s = .next ((s.raise u (u.common 2) 4 [0, 0, 0, 0, 0, 1]).beginReset u) :=
  if_neg (by simp [hwriter, hres, hunit])

theorem exec_slotDegrade_writer {v : Bool} (hwriter : slotWriter r = true) (hheld : v = true ∨ s.heldDegraded u = false) :
    let s1 := s.wr (Fd.SLOT_CTL_DEGRADE u.win u.slot) (b2n v)
    exec (.slotDegrade r u v) s = if v = true ∧ s.unit u = 2 then .next (((s1.setUnit u 6).showDegraded u).raise u (u.common 3) 6 [0])
      else if (!v) = true ∧ s.unit u = 6 then .next ((s1.setUnit u 2).showDegraded u) else .next s1 :=
  if_neg (by rcases hheld with hv | hheld <;> simp [*])

theorem exec_slot_other {v : Bool} (hother : slotWriter r = false) :
    exec (.slotQuiesce r u v) s = .next s ∧ exec (.slotReset r u) s = .next s ∧ exec (.slotDegrade r u v) s = .next s :=
  ⟨if_pos (by simp [hother]), if_pos (.inl (by simp [hother])), if_pos (.inl (by simp [hother]))⟩

end SlotWriter

theorem exec_calPassStart_scope (hidle : s.on Fd.CAL_STATUS_BUSY = false) (hpart : s.cal.full = false) (hpend : s.on Fd.CAL_STATUS_PEND = true)
    (hserving : s.serving .cal = true) :
    exec .calPassStart s =
      .next (((s.wrs [(Fd.CAL_STATUS_BUSY, 1), (Fd.CAL_STATUS_PEND, 0), (Fd.CAL_FAIL_ITEMS, 0)]).calPut fun u =>
        { u with scope := s.rd Fd.CAL_CTL_SCOPE, acts := s.rd Fd.CAL_CTL_ACT, ended := false, full := false }).calGo
          (calSteps (s.rd Fd.CAL_CTL_SCOPE) (s.rd Fd.CAL_CTL_ACT))) := by
  show execCalPassStart s = _
  rw [execCalPassStart, if_neg (by simp [hidle, hpend, hserving]), hpart]
  rfl

/-- An item done fails by its own coefficient, by a reference outside 2 % of item 0, or else fills the inactive bank (R513, R515). -/
theorem exec_calItemDone_busy {l : List (BitVec 32)} {bad : Option (Fin 32)} {v r f : Int} (hbusy : s.calBusy = true) :
    exec (.calItemDone l bad v r f) s =
      match (if bad.isNone ∧ s.rd Fd.CAL_STATUS_ITEM = 0 ∧ (refOut v ∨ refOut r ∨ refOut f) then some 1 else bad) with
      | some c => .next (s.calFails (l.getD c.val 0).toNat)
      | none => .next (s.calPut fun c => { c with
          inactive := tinsert c.inactive (calKey (s.rd Fd.CAL_STATUS_ITEM) (s.rd Fd.CAL_STATUS_ACTNOW) s.cal.unit) (l.map BitVec.toNat)
          coil := if s.rd Fd.CAL_STATUS_ITEM = 3 then tinsert c.coil (s.rd Fd.CAL_STATUS_ACTNOW) ((l.getD 2 0).toInt, s.tx) else c.coil }).calNext := by
  show execCalItemDone l bad v r f s = _
  rw [execCalItemDone, if_neg (by simp [hbusy])]
  rfl

end Sys2Proof.Machine

open Sys2Proof.Machine

/-- Settles O33: each expiry and each restart, in the case that its hypotheses name. -/
theorem expiriesAct : Obligations.ExpiriesAct := by
  intro s u d
  refine ⟨?element, ?waits, ?unit, rfl, ?watchdog, rfl, ?restartEnd, exec_watchRestartEnd_restarts, ?kick, ?other, rfl, ?due, ?sameWindow, ?window⟩
  case element => exact fun e hwatched hworks => if_pos (by simp [hwatched, hworks])
  case waits => exact fun e hwaits => ⟨if_neg (by simp [hwaits]), if_neg (by simp [hwaits])⟩
  case unit => exact fun c hwatched hcause hworks => if_pos ⟨hwatched, fun h => absurd h hcause, fun _ => hworks⟩
  case watchdog => exact fun hlate => if_pos (.inr hlate)
  case restartEnd =>
    rintro t rfl hst hunits hmotion
    exact exec_domainRestartEnd_ended hst hunits hmotion
  case kick => exact ⟨s.watchUpd fun w => { w with kick := s.time }, rfl, rfl, fun _ => rfl, fun p hp => by cases p <;> first | rfl | simp at hp⟩
  case other => exact fun r hr => ⟨if_neg hr, if_neg hr⟩
  case due =>
    intro c hdue
    show execControllerRestart s = _
    rw [execControllerRestart, hdue]
  case sameWindow => exact fun hwindow => congrArg Host.Outcome.next (if_pos hwindow)
  case window => exact fun hwindow => ⟨s.expiryWindow, rfl, expiryWindow_starts hwindow⟩

/-- Settles O34: each management-slot command of a unit and the end of its reset. -/
theorem slotControlActs : Obligations.SlotControlActs := by
  intro s r u v hwriter
  refine ⟨?engine, ?stage, ?reset, ?degrade, ?restore, fun r' hother => exec_slot_other hother, ?resetEnd, ?timeout⟩
  case engine => exact fun n => if_neg (by simp [hwriter])
  case stage => exact fun hserving => (if_neg (by simp [hwriter])).trans (congrArg Host.Outcome.next (if_pos hserving))
  case reset => exact fun hres hunit => exec_slotReset_begins hwriter hres hunit
  case degrade => exact fun hunit => (exec_slotDegrade_writer hwriter (.inl rfl)).trans (if_pos ⟨rfl, hunit⟩)
  case restore =>
    intro hunit hheld
    rw [exec_slotDegrade_writer hwriter (.inr hheld), if_neg (by simp), if_pos ⟨rfl, hunit⟩]
    rfl
  case resetEnd => exact fun hunit => if_neg (not_not.mpr hunit)
  case timeout =>
    intro h hfind
    show execResetAccessTimeout u s = _
    rw [execResetAccessTimeout, hfind]

/-- Settles O35: each event of a calibration pass, in the case that its hypotheses name. -/
theorem calibrationActs : Obligations.CalibrationActs := by
  intro s
  refine ⟨?go, ?start, ?item, ?reference, ?coefficient, fun _ _ => rfl, ?passEnd, ?claim, ?claimEnd⟩
  case go => exact ⟨_, rfl, wr_rd_same _ _ _, fun f hf => wr_rd_other _ _ hf⟩
  case start => exact fun hidle hpart hpend hserving => exec_calPassStart_scope hidle hpart hpend hserving
  case item =>
    intro l v r f hbusy hcoil href
    have hok : ¬ ((none : Option (Fin 32)).isNone = true ∧ s.rd Fd.CAL_STATUS_ITEM = 0 ∧ (refOut v = true ∨ refOut r = true ∨ refOut f = true)) := by
      rintro ⟨-, hitem, hout⟩
      obtain ⟨hv, hr, hf⟩ := href hitem
      simp only [refOut, decide_eq_true_eq] at hout
      omega
    rw [exec_calItemDone_busy hbusy, if_neg hok]
    simp only [hcoil, if_false]
    exact ⟨s.calPut fun c => { c with
      inactive := tinsert c.inactive (calKey (s.rd Fd.CAL_STATUS_ITEM) (s.rd Fd.CAL_STATUS_ACTNOW) s.cal.unit) (l.map BitVec.toNat) },
      rfl, rfl, fun p hp => by cases p <;> first | rfl | simp at hp, rfl⟩
  case reference =>
    intro l v r f hbusy hitem hout
    have hbad : (none : Option (Fin 32)).isNone = true ∧ s.rd Fd.CAL_STATUS_ITEM = 0 ∧ (refOut v = true ∨ refOut r = true ∨ refOut f = true) := by
      simpa [refOut, hitem] using hout
    rw [exec_calItemDone_busy hbusy, if_pos hbad]
    rfl
  case coefficient =>
    intro l b v r f hbusy
    rw [exec_calItemDone_busy hbusy, if_neg (by simp)]
  case passEnd => exact fun hbusy hended => if_neg (by simp [hbusy, hended])
  case claim =>
    intro n hbusy hitem hact hfree hnone
    exact ⟨_, if_pos ⟨hbusy, hitem, hact, by simp [hfree], by simp [hnone]⟩, rfl, fun _ => rfl, fun p hp => by cases p <;> first | rfl | simp at hp⟩
  case claimEnd => exact fun n hclaim => ⟨_, if_pos hclaim, rfl, fun _ => rfl, fun p hp => by cases p <;> first | rfl | simp at hp⟩

end

section
/-! PROOF. Housekeeping rounds, the time base and the voltage loop (R524 to R534, R591), and the event recorder (R537 to R554). -/

namespace Sys2Proof.Machine

variable {s : State}

/-- A round publishes its results in one step; with the die's own sensors sound it takes no free value (R527, R528). -/
theorem exec_hskRoundPublish_sound {l : List (BitVec 16)} {b : Bool} (hsampling : s.hsk.sampling = true) :
    let v := fun c => (l.getD c 0).toNat
    let raw := fun c => sgn 16 (v c)
    let rs := (List.range 10).map fun i => (i, s.reading raw b i)
    let t := ((List.range 14).map (· + 10)).foldl (fun t c => t.wr (Fd.HSK_CHAN_VALUE c) (v c))
      (((s.hskPut fun u => { u with sampling := false }).bump Fd.HSK_ROUND_COUNT).publishTemps raw rs)
    let u := (t.wr Fd.HSK_PLSTAT_VMOT_MIN (min (t.rd Fd.HSK_PLSTAT_VMOT_MIN) (v 10))).checkRanges v ((List.range 9).map (· + 10))
    (rs.any fun p => p.1 == 9 && p.2.broken) = false →
      ∃ m : List Int, exec (.hskRoundPublish l b) s =
        .next (u.hskPut fun h => { h with corr := u.corrections, tmax := m }).conditions.coldExit.smartTemp.coils := by
  intro v raw rs t u hsound
  have hkeeps : (if (rs.any fun p => p.1 == 9 && p.2.broken) && s.unbroken raw [6, 7, 8] == [] then s.tookFree else s) = s := by
    rw [hsound]
    rfl
  have hexec : exec (.hskRoundPublish l b) s = execHskRoundPublish l b s := rfl
  rw [hexec, execHskRoundPublish, if_neg (by simp [hsampling])]
  dsimp only [rs, raw, v] at hkeeps ⊢
  rw [hkeeps]
  exact ⟨_, rfl⟩

theorem filter_bit_shiftLeft (i : Fin 10) : (List.range 10).filter (bit (1#10 <<< i.val).toNat) = [i.val] := by
  revert i
  decide

theorem exec_sensclr_one (i : Fin 10) :
    exec (.sensclr (1#10 <<< i.val)) s = .next (s.wrs [(Fd.HSK_TEMP_BROKEN i.val, 0), (Fd.HSK_TEMP_SUBST i.val, 0), (Fd.HSK_TEMP_COUNT i.val, 0)]) := by
  show execSensclr _ s = _
  rw [execSensclr, filter_bit_shiftLeft]
  rfl

theorem exec_vloopEnable_starts {m : Option (BitVec 8)} (hoff : s.on Fd.HSK_VCTL_EN = false) (hstop : s.hsk.vstop = false) :
    exec (.vloopEnable m) s = match m with
      | some v => .next ((s.wr Fd.HSK_VCTL_EN 1).vmodeRead v.toNat true)
      | none => .next ((s.wr Fd.HSK_VCTL_EN 1).vfail 0 0) := by
  show execVloopEnable m s = _
  refine (if_neg (by simp [hoff, hstop])).trans ?_
  cases m <;> rfl

theorem exec_voltageUpdate_runs {h f a : Bool} {m : BitVec 8} (hon : s.on Fd.HSK_VCTL_EN = true) (hstop : s.hsk.vstop = false) :
    exec (.voltageUpdate h f a m) s = if s.hsk.needMode then (if a then .next (s.vmodeRead m.toNat true) else .next (s.vfail 0 0))
      else .next (s.vupdate h f a) :=
  if_pos ⟨hon, by simp [hstop]⟩

/-- A core's own record joins the raised ones where it has none among them (R541). -/
theorem exec_evrRaise_flow {k : Fin 4} {v : BitVec 32} (hnone : (s.evr.raised.any fun x => x.core == some k.val) = false) (hgo : bit v.toNat 19 = true)
    (hcode : bits v.toNat 0 16 < 0x8000) :
    exec (.evrRaise (.flow k) k.castSucc v) s = .next (s.evrPut fun e => { e with raised := e.raised ++ [⟨s.time, 0x8000, bits v.toNat 16 3, k.val, 0x04,
      (List.range 3).flatMap fun i => leBytes 4 (s.rd (Fd.EVR_RAISEP_PARAM k.val i)), some k.val, false⟩] }) := by
  show execEvrRaise (.flow k) k.castSucc v s = _
  have hfirst : ¬ (s.evr.raised.any fun x => x.core == some k.castSucc.val) = true := by simpa using hnone
  rw [execEvrRaise, if_pos ⟨rfl, hgo⟩, if_neg hfirst]
  simp [hcode]

theorem exec_evrFlashAppend_durable {r : LogRec} (hnext : s.nextEntry = some r) (hcode : r.code ≠ 0x0005) :
    exec (.evrFlashAppend false) s = .next { s with
      flash := flashPut s.flash (0x3800000 + 32 * (s.evr.head % ringEntries)) (r.toBytes 0),
      evr := Recorder.trim { s.evr with undurable := s.evr.undurable.erase r, ring := s.evr.ring ++ [r], head := s.evr.head + 1 } } := by
  show execEvrFlashAppend false s = _
  rw [execEvrFlashAppend, hnext]
  simp only [Bool.false_eq_true, if_false, if_neg hcode]

end Sys2Proof.Machine

open Sys2Proof.Machine

/-- Settles O36: each event of housekeeping, in the case that its hypotheses name. -/
theorem housekeepingActs : Obligations.HousekeepingActs := by
  intro s
  refine ⟨?round, ?publish, rfl, fun i => exec_sensclr_one i, rfl, ?refclk, ?loop, ?loopFails, ?update, ?mode⟩
  case round =>
    intro hphase hserving
    have hworks : ¬ (s.rd Fd.HSK_START_PHASE < 2 ∨ (!s.serving .hsk) = true) := by
      rintro (hearly | hstill)
      · omega
      · simp [hserving] at hstill
    exact ⟨_, if_neg hworks, rfl, fun _ => rfl, fun p hp => by cases p <;> first | rfl | simp at hp⟩
  case publish =>
    rintro l b v raw rs t u hsampling rfl rfl rfl hsound rfl rfl
    exact exec_hskRoundPublish_sound hsampling hsound
  case refclk => exact ⟨_, rfl, rfl, rfl, fun _ => rfl, fun p hp => by cases p <;> first | rfl | simp at hp⟩
  case loop => exact fun m hoff hstop => exec_vloopEnable_starts hoff hstop
  case loopFails => exact fun hoff hstop => exec_vloopEnable_starts hoff hstop
  case update => exact fun h f a m hon hstop hmode => (exec_voltageUpdate_runs hon hstop).trans (if_neg (by simp [hmode]))
  case mode => exact fun h f m hon hstop hmode => (exec_voltageUpdate_runs hon hstop).trans (if_pos hmode)

/-- Settles O37: each event of the recorder, in the case that its hypotheses name. -/
theorem recorderActs : Obligations.RecorderActs := by
  intro s
  refine ⟨?record, ?raise, ?refused, rfl, ?fence, rfl, ?durable, ?append, ?rebuild, ?clear, ?clearRefused, rfl⟩
  case record =>
    intro x l hraised hrestored
    show execEvrRecord s = _
    rw [execEvrRecord, hraised]
    exact if_neg (by simp [hrestored])
  case raise =>
    intro k v hnone hgo hcode
    exact ⟨_, exec_evrRaise_flow hnone hgo hcode, rfl, fun _ => rfl, fun p hp => by cases p <;> first | rfl | simp at hp⟩
  case refused => exact fun v hone hgo => (if_pos ⟨rfl, hgo⟩).trans (if_pos hone)
  case fence => exact fun k hdone => if_pos hdone
  case durable => exact fun r hnext hcode => exec_evrFlashAppend_durable hnext hcode
  case append =>
    intro r hnext
    show execEvrFlashAppend true s = _
    rw [execEvrFlashAppend, hnext]
    rfl
  case rebuild => exact fun hrestore hphase => if_pos ⟨hrestore, hphase⟩
  case clear =>
    rintro t hauth rfl
    exact if_pos hauth
  case clearRefused => exact fun hauth => if_neg (by simp [hauth])

end

section
/-! PROOF. The links, heartbeats, fences and token of Confluence (R556 to R577), and forwarding over it (R562 to R571). -/

namespace Sys2Proof.Machine

variable {s : State} {p : Fin 4}

/-- A message of another member of the group is taken once its sender has been heard. -/
theorem msg_heard (hen : s.on Fd.CFX_CTL_EN = true) (hmember : p.val < s.members) (hother : p.val ≠ s.pos) (body : State → State) :
    s.msg p body = .next (body (s.hear p.val)) :=
  if_pos ⟨hen, hmember, hother⟩

theorem exec_cfxLinkTrain_far {k : Fin 3} {g : Fin 16} {z q : Fin 4} (hen : s.on Fd.CFX_CTL_EN = true) (hfar : (s.pos + k.val + 1) % 4 < s.members)
    (hdown : s.on (Fd.CFX_LINK_UP k.val) = false) :
    exec (.cfxLinkTrain k g z q) s =
      if g.val = s.rd Fd.CFX_STATUS_GID ∧ z.val + 1 = s.members ∧ q.val = (s.pos + k.val + 1) % 4 then
        .next ((s.wrs [(Fd.CFX_LINK_UP k.val, 1), (Fd.CFX_LINK_PEER k.val, q.val), (Fd.CFX_LINK_MISMATCH k.val, 0)]).settleRoutes)
      else .next ((s.wrs [(Fd.CFX_LINK_PEER k.val, q.val), (Fd.CFX_LINK_MISMATCH k.val, 1), (Fd.CFX_INT_MISMATCH, 1)]).raise .confluence 0x0202 5
        [k.val, g.val, z.val, q.val]) :=
  if_neg (by simp [hen, Nat.not_le.mpr hfar, hdown])

/-- The last peer that a fence waits for ends it (R572). -/
theorem exec_fack_last {t : State} {n : BitVec 64} (hen : s.on Fd.CFX_CTL_EN = true) (hmember : p.val < s.members) (hother : p.val ≠ s.pos)
    (ht : t = s.hear p.val) (hnum : n.toNat = t.cfx.fenceNum) (hwaits : bit t.cfx.fenceWait p.val = true) (hlast : clrBit t.cfx.fenceWait p.val = 0) :
    exec (.fack p n) s = .next ((t.cfxUpd fun c => { c with fenceWait := 0 }).wr Fd.CFX_FENCE_DONE 1) := by
  subst ht
  show execFack p n s = _
  rw [execFack, msg_heard hen hmember hother]
  have htaken : ¬ (n.toNat ≠ (s.hear p.val).cfx.fenceNum ∨ (!bit (s.hear p.val).cfx.fenceWait p.val) = true) := by
    simp [hnum, hwaits]
  rw [if_neg htaken, if_pos hlast, hlast]

/-- What the loss of a peer that is not the lead, at a member that is not the lead either, leaves (R561). -/
theorem exec_peerLost_silent {t : State} (hhears : s.hears p.val = true) (hsilent : 5000 ≤ (s.time + 2 ^ 48 - (s.peer p.val).heard) % 2 ^ 48)
    (ht : t = ((((((((((s.clrB Fd.CFX_PEERS_PRESENT p.val).setB Fd.CFX_PEERS_LOST p.val).updPeer p.val fun y =>
      { y with losses := y.losses + 1, nsready := 0, role := 0, synced := false }).settleRoutes).wr Fd.CFX_INT_PEERLOST 1).count Fd.CFX_CNT0_LOSSES
        1).raise .confluence 0x0201 5 (p.val :: leBytes 6 (s.peer p.val).heard)).anaChanged.endForwarded p.val).releaseOf p.val).fenceLost p.val).dropCredits p.val)
    (hfollows : t.on Fd.CFX_STATUS_ISLEAD = false) (hlead : t.lead? ≠ some p.val) : exec (.peerLost p) s = .next t.settleAdm := by
  have hlost : ¬ ((!s.hears p.val) = true ∨ (s.time + 2 ^ 48 - (s.peer p.val).heard) % 2 ^ 48 < 5000) := by
    rintro (hnot | hsoon)
    · simp [hhears] at hnot
    · exact absurd hsoon (Nat.not_lt.mpr hsilent)
  have hown : (if t.on Fd.CFX_STATUS_ISLEAD then t.tokenReturn p.val else t) = t := if_neg (by simp [hfollows])
  subst ht
  show execPeerLost p s = _
  rw [execPeerLost, if_neg hlost]
  dsimp only
  rw [hown, if_neg hlead]

/-- A fence over peers that are all heard is asked of each (R572). -/
theorem exec_cfxFenceGo_heard {m : BitVec 4} {l : List Nat} (hdone : s.on Fd.CFX_FENCE_DONE = true) (hl : l = s.peerList.filter fun q => bit m.toNat q)
    (hheard : ∀ q ∈ l, s.hears q = true) :
    exec (.cfxFenceGo m) s = .next (l.foldl (fun t q => t.send ⟨0x0A, q, 0, s.cfx.fenceNum + 1, []⟩)
      ((s.wrs [(Fd.CFX_FENCE_DONE, b2n ((l.map (2 ^ ·)).sum == 0)), (Fd.CFX_FENCE_FAILED, 0)]).cfxUpd fun c =>
        { c with fenceNum := s.cfx.fenceNum + 1, fenceWait := (l.map (2 ^ ·)).sum })) := by
  have hnone : (l.any fun q => !s.hears q) = false := by simpa using hheard
  have hall : l.filter s.hears = l := List.filter_eq_self.mpr hheard
  show execCfxFenceGo m s = _
  rw [execCfxFenceGo, if_neg (by simp [hdone]), ← hl]
  dsimp only
  rw [hnone, hall]
  rfl

section Heard

variable {t : State} {c : Fin 65536} {x : Ctx} (hen : s.on Fd.CFX_CTL_EN = true) (hmember : p.val < s.members) (hother : p.val ≠ s.pos)
  (ht : t = s.hear p.val)
include hen hmember hother ht

theorem exec_fwd_takes {g : BitVec 16} {b : BitVec 64} {k : Fin 5} {e : Sqe} {u w : State} {d : Nat} (hroom : t.usedFor p.val < t.rd Fd.CFX_FWDRES_CTX)
    (hu : u = (t.updPeer p.val fun q => { q with fwdFrom := q.fwdFrom + 1 }).hput fun h =>
      { h with fetches := h.fetches + 1, psNow := if k ≠ 0 ∧ 2 ≤ h.psNow then h.psOper else h.psNow })
    (hx : x = Ctx.fresh e (if k = 0 then 0 else 0xFF) 0 (classOf k.val) t.time t.host.fetches (some (p.val, g.toNat)))
    (htake : u.takeCtxs x (u.pieces x) = (w, some d)) : exec (.fwd p g b k e) s = .next (w.route d) := by
  subst ht hu hx
  show execFwd p g b k e s = _
  rw [execFwd, msg_heard hen hmember hother]
  rw [if_neg (Nat.not_le.mpr hroom)]
  dsimp only
  rw [htake]

theorem exec_wdata_arrives {o : BitVec 32} {l : List (BitVec 8)} {g : Nat} (hctx : t.ctx? c.val = some x) (horigin : x.origin = some (p.val, g))
    (hhanded : x.handed = false) (hwrites : x.writes = true) (hl : l ≠ []) (hlen : l.length ≤ 256) (hmore : o.toNat + l.length < 4096 * x.nlb) :
    exec (.wdata p c o l) s = .next (t.putData c.val x.slba o.toNat (l.map BitVec.toNat)) := by
  subst ht
  show execWdata p c o l s = _
  rw [execWdata, msg_heard hen hmember hother]
  simp only [hctx]
  rw [if_neg (by simp [horigin, hhanded, hwrites, hl, hlen]), if_neg (Nat.not_le.mpr hmore)]

theorem exec_rdata_arrives {o : BitVec 32} {l : List (BitVec 8)} (hctx : t.ctx? c.val = some x) (hfwd : x.fwdTo = some p.val) (hhanded : x.handed = false)
    (hl : l ≠ []) (hlen : l.length ≤ 256) (hio : x.admin = false) :
    exec (.rdata p c o l) s = .next (t.stored (x.buf + o.toNat) (l.map BitVec.toNat)) := by
  subst ht
  show execRdata p c o l s = _
  rw [execRdata, msg_heard hen hmember hother]
  simp only [hctx]
  rw [if_neg (by simp [hfwd, hhanded, hl, hlen]), if_neg (by simp [hio])]

theorem exec_cpl_ends {a b : BitVec 32} {u : BitVec 16} (hctx : t.ctx? c.val = some x) (hfwd : x.fwdTo = some p.val) (hhanded : x.handed = false)
    (hst : x.st ≠ .held) :
    exec (.cpl p c a b u) s =
      .next ((t.ctxUpd c.val fun y => { y with res0 := a.toNat, res1 := b.toNat }).endAll c.val (bits u.toNat 9 3) (bits u.toNat 1 8)) := by
  subst ht
  show execCpl p c a b u s = _
  rw [execCpl, msg_heard hen hmember hother]
  simp only [hctx]
  rw [if_neg (by simp [hfwd, hhanded, hst])]

/-- An image of the administrative state that is no older than the copy held is applied and acknowledged (R570). -/
theorem exec_adm_applies {v : BitVec 64} {l : List (Nat × Nat)} (hnew : t.rd Fd.CFX_VERSION_VER ≤ v.toNat)
    (hclock : (l.find? fun q => q.1 == 0x0E) = none) :
    ∃ u : State, exec (.adm p v l) s = .next (u.send ⟨0x09, p.val, 0, v.toNat, []⟩) ∧ u.rd Fd.CFX_VERSION_VER = v.toNat := by
  subst ht
  have hexec : exec (.adm p v l) s = execAdm p v l s := rfl
  rw [hexec, execAdm, msg_heard hen hmember hother, if_neg (Nat.not_lt.mpr hnew)]
  dsimp only
  rw [hclock]
  refine ⟨_, rfl, ?_⟩
  rw [hput_rd, wr_rd_same]
  exact Nat.mod_eq_of_lt v.isLt

end Heard

end Sys2Proof.Machine

open Sys2Proof.Machine

/-- Settles O38: each event of the group's links and messages, in the case that its hypotheses name. -/
theorem groupLinksAct : Obligations.GroupLinksAct := by
  intro s p
  refine ⟨?train, ?mismatch, ?down, ?heartbeats, fun hen hmember hother => ⟨?heartbeat, ?again, ?tokens, ?fenceMsg, ?fack⟩, ?notLost, ?lost, ?grant, ?solo,
    ?fence, ?badType⟩
  case train => exact fun k g z q hen hfar hdown hg hz hq => (exec_cfxLinkTrain_far hen hfar hdown).trans (if_pos ⟨hg, hz, hq⟩)
  case mismatch => exact fun k g z q hen hfar hdown hg => (exec_cfxLinkTrain_far hen hfar hdown).trans (if_neg fun h => hg h.1)
  case down => exact fun k hup => if_pos hup
  case heartbeats =>
    rintro t hen rfl
    exact if_neg (by simp [hen])
  case heartbeat =>
    intro v r h n m
    show execHb p v r h n m s = _
    rw [execHb, msg_heard hen hmember hother]
  case again =>
    intro hlost
    show execPeerHeardAgain p s = _
    rw [execPeerHeardAgain, if_pos hlost, msg_heard hen hmember hother]
  case tokens =>
    rintro t rfl hlead
    refine ⟨?_, ?_⟩
    · show execTreq p s = _
      rw [execTreq, msg_heard hen hmember hother, if_pos hlead]
    · show execTrel p s = _
      rw [execTrel, msg_heard hen hmember hother, if_pos hlead]
  case fenceMsg =>
    rintro t n rfl hquiet
    show execCfxFenceMsg p n s = _
    rw [execCfxFenceMsg, msg_heard hen hmember hother, if_pos hquiet]
  case fack => exact fun t n ht hnum hwaits hlast => exec_fack_last hen hmember hother ht hnum hwaits hlast
  case notLost => exact fun h => if_pos (h.imp_left fun hnot => by simp [hnot])
  case lost => exact fun t hhears hsilent ht hfollows hlead => exec_peerLost_silent hhears hsilent ht hfollows hlead
  case grant => exact fun hen hasked hfree => if_pos ⟨hen, hasked, by simp [hfree]⟩
  case solo => exact fun hgroup hlead hasked hfree => if_pos ⟨hgroup, by simp [hlead], hasked, by simp [hfree]⟩
  case fence => exact fun m l hdone hl hheard => exec_cfxFenceGo_heard hdone hl hheard
  case badType => exact fun k hen hk => if_pos ⟨hen, .inr hk⟩

/-- Settles O39: each message of forwarding, in the case that its hypotheses name. -/
theorem forwardingActs : Obligations.ForwardingActs := by
  intro s t p c x hen hmember hother ht
  refine ⟨?fwd, ?wdata, ?rdata, ?cpl, ?abort, ?release, ?answer, ?adm, ?admOld, ?aack⟩
  case fwd => exact fun g b k e u w d hroom hu hx htake => exec_fwd_takes hen hmember hother ht hroom hu hx htake
  case wdata =>
    exact fun o l g hctx horigin hhanded hwrites hl hlen hmore => exec_wdata_arrives hen hmember hother ht hctx horigin hhanded hwrites hl hlen hmore
  case rdata => exact fun o l hctx hfwd hhanded hl hlen hio => exec_rdata_arrives hen hmember hother ht hctx hfwd hhanded hl hlen hio
  case cpl => exact fun a b u hctx hfwd hhanded hst => exec_cpl_ends hen hmember hother ht hctx hfwd hhanded hst
  case abort =>
    intro g d hctx habortable
    subst ht
    show execCfxAbortMsg p g false s = _
    rw [execCfxAbortMsg, msg_heard hen hmember hother]
    simp only [hctx, habortable]
    rfl
  case release =>
    intro g d hctx
    subst ht
    show execCfxAbortMsg p g true s = _
    rw [execCfxAbortMsg, msg_heard hen hmember hother]
    simp only [hctx]
    rfl
  case answer =>
    intro b hctx hawaits
    subst ht
    show execAres p c b s = _
    rw [execAres, msg_heard hen hmember hother]
    simp only [hctx, hawaits]
    rfl
  case adm => exact fun v l hnew hclock => exec_adm_applies hen hmember hother ht hnew hclock
  case admOld =>
    intro v hold
    subst ht
    show execAdm p v [] s = _
    rw [execAdm, msg_heard hen hmember hother, if_pos hold]
  case aack =>
    intro v hver
    subst ht
    show execAack p v s = _
    rw [execAack, msg_heard hen hmember hother]
    have hold : (v.toNat == (s.hear p.val).rd Fd.CFX_VERSION_VER && !((s.hear p.val).peer p.val).synced) = false := by
      simp [hver]
    dsimp only
    rw [hold]
    rfl

end

section
/-! PROOF. The interrupt router and the cores (R582 to R589), and the trust unit (R594 to R607). -/

namespace Sys2Proof.Machine

variable {s : State} {r : Requester} {k : Fin 5}

theorem core_setCore (s : State) (k : Nat) (c : CoreUnit) : (s.setCore k c).core k = c := by
  match k with
  | 0 | 1 | 2 | 3 | n + 4 => rfl

theorem setCore_onlyAt (s : State) (k : Nat) (c : CoreUnit) : s.onlyAt (s.setCore k c) [.cores] :=
  fun p hp => by cases p <;> first | rfl | simp at hp

theorem exec_claimRead_own (hown : Requester.core? r = some k.val) :
    exec (.claimRead r k) s = match s.claimable k.val with
      | none => .next (s.reply 0x8000)
      | some i => .next (((s.wr (Fd.IRT_SRC_ACTIVE i) 1).settleIrq k.val).reply i) := by
  show execClaimRead r k s = _
  cases hdue : s.claimable k.val <;> simp only [execClaimRead, if_pos hown, hdue]

theorem settleIrq_ext (k : Nat) : ((s.settleIrq k).core k).ext = (s.claimable k).isSome := by
  rw [State.settleIrq, core_setCore]

theorem settleTimer_timer (k : Nat) : ((s.settleTimer k).core k).timer = decide (s.rd (Fd.IRT_MTIMECMP_CMP k) ≤ s.time) := by
  rw [State.settleTimer, core_setCore]

theorem boot_core (k : Nat) (v : Bool) :
    (s.boot k v).core k = { s.core k with run := v, entry := if v then 4 * s.rd (Fd.IRT_FBOOT_ENTRY k) else (s.core k).entry } :=
  core_setCore _ _ _

/-- The watch core fuses the root where none is fused (R594). -/
theorem exec_irootCommit_watch :
    exec (.irootCommit .watch) s = if s.trust.iroot.isSome then .next s.deny
      else .next (s.truPut fun t => { t with iroot := some ((List.range 12).map fun i => s.rd (Fd.TRU_IROOT_HASH i)) }) :=
  rfl

/-- What an authority request shows: its kind, that it is done, and whether it is granted (R606). -/
def authShown (s : State) (kind good : Bool) : State :=
  (s.wrs [(Fd.TRU_AUTHREQ_KIND, b2n kind), (Fd.TRU_AUTHREQ_DONE, 1), (Fd.TRU_AUTHREQ_OK, b2n good)]).truPut fun t =>
    { t with nonce := if kind then none else t.nonce }

theorem authShown_ok (kind good : Bool) : (authShown s kind good).rd Fd.TRU_AUTHREQ_OK = b2n good := by
  refine (wr_rd_same _ _ _).trans ?_
  cases good <;> rfl

theorem authShown_done (kind good : Bool) : (authShown s kind good).rd Fd.TRU_AUTHREQ_DONE = 1 :=
  (wr_rd_other (f := Fd.TRU_AUTHREQ_OK) _ _ (by decide)).trans (wr_rd_same _ Fd.TRU_AUTHREQ_DONE 1)

theorem authShown_other {f : Fld} (kind good : Bool) (hkind : f.key ≠ Fd.TRU_AUTHREQ_KIND.key) (hdone : f.key ≠ Fd.TRU_AUTHREQ_DONE.key)
    (hok : f.key ≠ Fd.TRU_AUTHREQ_OK.key) : (authShown s kind good).rd f = s.rd f := by
  rw [authShown, truPut_rd, State.wrs, State.wrs, State.wrs, State.wrs, wr_rd_other _ _ hok, wr_rd_other _ _ hdone, wr_rd_other _ _ hkind]

theorem exec_authreq_session {ok : Bool} :
    let good := s.on Fd.TRU_STATUS_SESSION && s.trust.session == .openAdmin
    exec (.authreq false ok) s = .next (if good then ((authShown s false good).wr Fd.EVR_CLR_AUTH 1).evrPut fun e => { e with authTok := false }
      else authShown s false good) :=
  rfl

section Ranges

variable {i : Fin 65}

/-- A lock set is set at once, and one cleared needs the session (R600). -/
theorem exec_rangeLockWrite_eq (rl wl : Bool) :
    exec (.rangeLockWrite i rl wl) s =
      if ((s.on (Fd.TRU_RANGE_CFG_RLCK i.val) && !rl) || (s.on (Fd.TRU_RANGE_CFG_WLCK i.val) && !wl)) && !s.mayUnlock i.val then .next s.deny
      else .next (s.askChange i.val (.lock rl wl)) :=
  rfl

theorem exec_rangeGeometryWrite_eq (n : Fin 8) (a l : BitVec 64) (hi : i ≠ 0) :
    exec (.rangeGeometryWrite i true n a l) s =
      if ((s.geometries i.val).any fun g => g.1 == n.val && g.2.1 < a.toNat + l.toNat && a.toNat < g.2.1 + g.2.2) ||
          (s.nsValid n.val && s.nsZoned n.val && (a.toNat % 65536 != 0 || l.toNat % 65536 != 0)) then .next s.deny
      else .next (s.askChange i.val (.geometry true n.val a.toNat l.toNat)) :=
  if_neg hi

end Ranges

end Sys2Proof.Machine

open Sys2Proof.Machine

/-- Settles O40: each event of the interrupt router and of the cores. -/
theorem interruptsAct : Obligations.InterruptsAct := by
  intro s r k
  refine ⟨?claim, ?claimNone, ?claimOther, ?complete, ?external, ?timer, ?software, ?boot, ?bootOther, ?fault⟩
  case claim => exact fun i hown hdue => (exec_claimRead_own hown).trans (by rw [hdue])
  case claimNone => exact fun hown hdue => (exec_claimRead_own hown).trans (by rw [hdue])
  case claimOther =>
    refine fun hother => ⟨?_, fun v => ?_⟩
    · show execClaimRead r k s = _
      rw [execClaimRead, if_neg hother]
    · show execClaimComplete r k v s = _
      rw [execClaimComplete, if_neg hother]
  case complete => exact fun v hown => if_pos hown
  case external => exact ⟨s.settleIrq k.val, rfl, settleIrq_ext _, fun _ => rfl, setCore_onlyAt _ _ _⟩
  case timer => exact ⟨s.settleTimer k.val, rfl, settleTimer_timer _, fun _ => rfl, setCore_onlyAt _ _ _⟩
  case software =>
    intro v hcore
    refine ⟨_, if_pos hcore, congrArg CoreUnit.soft (core_setCore _ _ _), ?_, fun f hf => ?_⟩
    · rw [setCore_rd, wr_rd_same]
      cases v <;> rfl
    · rw [setCore_rd, wr_rd_other _ _ hf]
  case boot =>
    intro j
    refine ⟨s.boot j.val true, rfl, congrArg CoreUnit.run (boot_core _ _), congrArg CoreUnit.entry (boot_core _ _), ?_⟩
    rw [State.boot, setCore_rd, wr_rd_same]
    rfl
  case bootOther => exact fun j v hr => if_neg hr
  case fault =>
    intro i a
    refine ⟨_, rfl, (congrArg CoreUnit.mcause (core_setCore _ _ _)).trans ?_, congrArg CoreUnit.mtval (core_setCore _ _ _), fun _ => rfl,
      setCore_onlyAt _ _ _⟩
    match i with
    | 0 | 1 | 2 => rfl

/-- Settles O41: each command and event of the trust unit, in the case that its hypotheses name. -/
theorem trustActs : Obligations.TrustActs := by
  intro s r i
  refine ⟨?fuse, ?fused, ?other, rfl, rfl, rfl, ?lock, ?unlockDenied, ?unlock, ?geometry, ?overlap, ?granted, ?refused, ?nonce, ?expiry⟩
  case fuse =>
    intro hnone
    rw [exec_irootCommit_watch, if_neg (by simp [hnone])]
    exact ⟨_, rfl, rfl, fun _ => rfl, fun p hp => by cases p <;> first | rfl | simp at hp⟩
  case fused => exact fun l hroot => exec_irootCommit_watch.trans (if_pos (by simp [hroot]))
  case other => exact fun hr => ⟨if_pos hr, if_pos hr, if_pos hr⟩
  case lock =>
    rw [exec_rangeLockWrite_eq]
    simp
  case unlockDenied =>
    intro hlocked hno
    rw [exec_rangeLockWrite_eq]
    simp [hlocked, hno]
  case unlock =>
    intro hmay
    rw [exec_rangeLockWrite_eq, hmay]
    simp
  case geometry =>
    intro n a l hi hzoned hfree
    rw [exec_rangeGeometryWrite_eq n a l hi, hfree, hzoned]
    simp
  case overlap =>
    intro n a l hi hmeets
    rw [exec_rangeGeometryWrite_eq n a l hi, hmeets, Bool.true_or, if_pos rfl]
  case granted =>
    intro ok hsession hadmin
    have hgood : (s.on Fd.TRU_STATUS_SESSION && s.trust.session == .openAdmin) = true := by rw [hsession, hadmin]; rfl
    refine ⟨authShown s false true, exec_authreq_session.trans ?_, authShown_ok false true, authShown_done false true⟩
    rw [hgood]
    rfl
  case refused =>
    intro hsession ok
    have hbad : (s.on Fd.TRU_STATUS_SESSION && s.trust.session == .openAdmin) = false := by rw [hsession, Bool.false_and]
    refine ⟨authShown s false false, exec_authreq_session.trans ?_, authShown_ok false false,
      authShown_other false false (by decide) (by decide) (by decide)⟩
    rw [hbad]
    rfl
  case nonce => exact ⟨_, rfl, rfl, rfl⟩
  case expiry => exact ⟨_, rfl, rfl, fun _ => rfl, fun p hp => by cases p <;> first | rfl | simp at hp⟩

end

section
/-! PROOF. The start-up and power loss (R609 to R630), and the accesses to registers (R8, R10, R581). -/

namespace Sys2Proof.Machine

variable {s : State}

/-- The units at work and the straps as they are sampled (R612). -/
def strapsTaken (s : State) (x d : Bool) (g : Fin 16) (z q : Fin 4) (m : Bool) : State :=
  ((UnitRef.every.filter fun u => u != .hostPort 1 || !x).foldl (fun t u => t.toWork u) s).wrs [(Fd.INT_CTL_X4, b2n x),
    (Fd.MEM_STATUS_DSIZE, b2n d), (Fd.CFX_STATUS_GID, g.val), (Fd.CFX_STATUS_SIZE, z.val), (Fd.CFX_STATUS_POS, q.val),
    (Fd.CFX_STATUS_MOUTH, b2n m), (Fd.TRU_STATUS_IRFUSED, b2n s.trust.iroot.isSome), (Fd.TRU_STATUS_GKCUT, b2n s.trust.cut), (Fd.HSK_START_DIP, 0),
    (Fd.HSK_START_PHASE, 2)]

theorem strapsTaken_phase (x d : Bool) (g : Fin 16) (z q : Fin 4) (m : Bool) : (strapsTaken s x d g z q m).rd Fd.HSK_START_PHASE = 2 := by
  rw [strapsTaken]
  simp only [State.wrs, wr_rd_same]
  rfl

theorem exec_p1Sample_starts {x d i m : Bool} {g : Fin 16} {z q : Fin 4} (hp0 : s.power.p0 = false) (hrst : s.power.rstLow = false)
    (hphase : s.rd Fd.HSK_START_PHASE = 1) :
    ∃ t, exec (.p1Sample x d i g z q m) s = .next t ∧ t.time = 0 ∧ t.rd Fd.HSK_START_PHASE = 2 := by
  have hstart : ¬ (s.power.p0 = true ∨ s.power.rstLow = true ∨ s.rd Fd.HSK_START_PHASE ≠ 1) := by simp [hp0, hrst, hphase]
  refine ⟨_, if_neg hstart, rfl, ?_⟩
  show (if s.rd Fd.HSK_START_KIND = 0 then (strapsTaken s x d g z q m).wr Fd.SPN_STATUS_ISEN (b2n i)
    else strapsTaken s x d g z q m).rd Fd.HSK_START_PHASE = 2
  split
  case isTrue => exact (wr_rd_other _ _ (by decide)).trans (strapsTaken_phase x d g z q m)
  case isFalse => exact strapsTaken_phase x d g z q m

theorem exec_p2Lock_locks (hphase : s.rd Fd.HSK_START_PHASE = 2) (hclk : s.hsk.refclk = true) :
    ∃ t, exec .p2Lock s = .next t ∧ t.hsk.locked = true ∧ t.rd Fd.HSK_START_PHASE = 3 ∧ ∀ r ∈ t.cfl.remap, r.done = true := by
  refine ⟨_, if_neg (by simp [hphase, hclk]), rfl, wr_rd_same _ _ _, fun r hr => ?_⟩
  obtain ⟨r', -, rfl⟩ := List.mem_map.mp hr
  rfl

section BootRom

variable {a b p q : Fin 8} {t : State} (hphase : s.rd Fd.HSK_START_PHASE = 4) (hreleased : s.power.released = true)
  (hx4 : s.on Fd.INT_CTL_X4 = true) (ht : t = ({ s with power := { s.power with released := false } } : State).wr (Fd.PORT_PCTL_EN 0) 1)
  (hdram : s.on Fd.MEM_STATUS_DFAIL = false)
include hphase hreleased hx4 ht hdram

theorem exec_bootRomStage_row : exec (.bootRomStage a b p q false) s = .next (t.raise .flash 0x0B05 7 []) := by
  subst ht
  show execBootRomStage a b p q false s = _
  simp only [execBootRomStage, hphase, hreleased, hx4, hdram]
  rfl

theorem exec_bootRomStage_counted {u : State} (hload : t.loadCounters = (u, true)) :
    exec (.bootRomStage a b p q true) s = .next (u.tryImages (fun i => if i = 0 then a.val else b.val) (fun i => if i = 0 then p.val else q.val)
      [s.rd Fd.TRU_BOOTSEL_SLOT, 1 - s.rd Fd.TRU_BOOTSEL_SLOT]) := by
  subst ht
  show execBootRomStage a b p q true s = _
  simp only [execBootRomStage, hphase, hreleased, hx4, hdram, if_true, hload]
  rfl

end BootRom

/-- A rail out of range of a part that flies nothing takes the units outside Motion out of work (R615). -/
theorem exec_railOutOfRange_still {c : Fin 24} (hlo : 11 ≤ c.val) (hhi : c.val ≤ 17) (hp0 : s.power.p0 = false) (hflying : s.flying = false) :
    exec (.railOutOfRange c) s =
      .next ((UnitRef.every.filter fun u => u.domain != .motion).foldl (fun t u => t.setUnit u 1)
        { s with power := { s.power with p0 := true, rails := false, released := false } }) := by
  show execRailOutOfRange c s = _
  rw [execRailOutOfRange, if_neg (by simp [hp0, hlo, hhi])]
  dsimp only
  rw [hflying]
  rfl

theorem exec_sysRstRelease_low (hlow : s.power.rstLow = true) :
    let t := { s with power := { s.power with rstLow := false } }
    exec .sysRstRelease s = if s.power.p0 then (if s.power.rails then .next (t.beginStart 0) else .next t)
      else if 2 ≤ s.rd Fd.HSK_START_PHASE then .next (t.beginStart 2) else .next t :=
  if_neg (by simp [hlow])

theorem exec_powerLossDeclare_armed {mv : BitVec 16} {c : Fin 24} {p : BitVec 4} (harmed : s.on Fd.HSK_PLSTAT_ARMED = true)
    (hmay : s.mayDeclare = true) :
    exec (.powerLossDeclare 0 mv c p) s = .next (if mv.toNat < s.lossLevel then s.declare 0 c.val p.toNat else s) := by
  show execPowerLossDeclare 0 mv c p s = _
  simp only [execPowerLossDeclare, if_pos, harmed, hmay, Bool.true_and, Bool.and_true, decide_eq_true_eq]
  exact (apply_ite Host.Outcome.next _ _ _).symm

section Access

variable {r : Requester} {w : Fin 64} {off : Fin 65536} {z : Fin 9} {v : BitVec 64}

theorem exec_registerReadClear_eq (s : State) (r : Requester) (w : Fin 64) (off : Fin 65536) (z : Fin 9) :
    exec (.registerReadClear r w off z) s = .next (s.access ⟨r, w.val, off.val, z.val, 0, true⟩) := rfl

theorem access_waits {h : HeldAccess} (hwaits : s.waits h.w h.off = true) :
    s.access h = State.watchUpd { s with answer := [] } fun x => { x with accesses := x.accesses ++ [h] } :=
  if_pos hwaits

theorem access_served {h : HeldAccess} (hwaits : s.waits h.w h.off = false) : s.access h = s.serveAccess h :=
  if_neg (by simp [hwaits])

theorem exec_registerWrite_served (hwaits : s.waits w.val off.val = false) :
    exec (.registerWrite r w off z v) s = .next (s.writeNow r w.val off.val z.val v.toNat) := by
  have hserved : s.access ⟨r, w.val, off.val, z.val, v.toNat, false⟩ = _ := access_served hwaits
  rw [exec_registerWrite_eq, hserved]
  rfl

theorem exec_registerReadClear_served (hwaits : s.waits w.val off.val = false) :
    exec (.registerReadClear r w off z) s = .next (s.readNow r w.val off.val z.val) := by
  have hserved : s.access ⟨r, w.val, off.val, z.val, 0, true⟩ = _ := access_served hwaits
  rw [exec_registerReadClear_eq, hserved]
  rfl

section WriteNow

variable {w off size v : Nat}

theorem writeNow_slot (hok : accessOk w off size = true) (hslot : inSlot w off = true) :
    s.writeNow r w off size v = (if (registerAt w off).isEmpty then s else (slotUnit w (slotOf off)).elim s fun u => s.writeSlot r u w off v).reply 0 := by
  simp only [State.writeNow, hok, hslot, Bool.not_true, Bool.false_eq_true, if_false, if_true]

theorem writeNow_register (hok : accessOk w off size = true) (hslot : inSlot w off = false) :
    s.writeNow r w off size v = match s.refusesWrite r w off with
      | some t => t.reply 0
      | none => if (registerAt w off).isEmpty ∧ !(29 ≤ w ∧ w < 33) then s.reply 0
          else ((s.storeReg w off v (registerAt w off)).acts s r w off v).reply 0 := by
  cases hrefused : s.refusesWrite r w off <;>
    simp only [State.writeNow, hok, hslot, hrefused, Bool.not_true, Bool.false_eq_true, if_false]

/-- A write of a reserved offset changes nothing (R10). -/
theorem writeNow_reserved (hok : accessOk w off size = true) (hnone : registerAt w off = []) (hw : w < 29 ∨ 33 ≤ w)
    (htaken : inSlot w off = true ∨ s.refusesWrite r w off = none) : s.writeNow r w off size v = s.reply 0 := by
  have hplain : ([] : List FieldAt).isEmpty = true ∧ (!decide (29 ≤ w ∧ w < 33)) = true := ⟨rfl, by rw [Bool.not_eq_true', decide_eq_false_iff_not]; omega⟩
  cases hslot : inSlot w off
  case true => rw [writeNow_slot hok hslot, hnone, if_pos hplain.1]
  case false =>
    rw [writeNow_register hok hslot, htaken.resolve_left (by simp [hslot]), hnone]
    exact if_pos hplain

theorem readNow_plain (hok : accessOk w off size = true) (h5 : w ≠ 5) (h9 : w ≠ 9) (h11 : w ≠ 11) (hfree : freeRead w off = false) :
    s.readNow r w off size = (s.clearRc (registerAt w off)).reply (s.readWord w off (registerAt w off)) := by
  simp [State.readNow, hok, h5, h9, h11, hfree]

end WriteNow

end Access

end Sys2Proof.Machine

open Sys2Proof.Machine

/-- Settles O42: each event of the start-up and of power loss, in the case that its hypotheses name. -/
theorem startAndPowerAct : Obligations.StartAndPowerAct := by
  intro s
  refine ⟨?on, ?onHeld, ?sample, ?lock, ?boot, ?rail, ?rstLow, ?rstOff, ?release, ?armed, ?declare, ?restart⟩
  case on => exact fun hp0 hrst => (if_neg (by simp [hp0])).trans (if_neg (by simp [hrst]))
  case onHeld => exact fun hp0 hrst => (if_neg (by simp [hp0])).trans (if_pos hrst)
  case sample => exact fun x d i m g z q hp0 hrst hphase => exec_p1Sample_starts hp0 hrst hphase
  case lock => exact fun hphase hclk => exec_p2Lock_locks hphase hclk
  case boot =>
    intro a b p q o t hphase hreleased hx4 ht hdram
    refine ⟨?_, fun u => ?_⟩
    · rintro rfl
      exact exec_bootRomStage_row hphase hreleased hx4 ht hdram
    · rintro rfl hload
      exact exec_bootRomStage_counted hphase hreleased hx4 ht hdram hload
  case rail => exact fun c hlo hhi hp0 hflying => exec_railOutOfRange_still hlo hhi hp0 hflying
  case rstLow =>
    rintro t rfl hrst hp0 hphase hmay
    exact if_pos (by simp [hrst, hp0, hphase, hmay])
  case rstOff => exact fun hp0 => if_neg (by simp [hp0])
  case release =>
    rintro t rfl hlow
    refine ⟨fun hp0 hrails => ?_, fun hp0 hphase => ?_⟩
    · rw [exec_sysRstRelease_low hlow, if_pos hp0, if_pos hrails]
    · rw [exec_sysRstRelease_low hlow, if_neg (by simp [hp0]), if_pos hphase]
  case armed => exact fun hp0 hdecl => if_neg (by simp [hp0, hdecl])
  case declare => exact fun mv c p harmed hmay => exec_powerLossDeclare_armed harmed hmay
  case restart => exact fun hdecl hparked hp0 hrst hrec => (if_neg (by simp [hdecl, hparked, hp0, hrst])).trans (if_pos hrec)

/-- Settles O43: each access to register space, by where it falls. -/
theorem registerAccessesComplete : Obligations.RegisterAccessesComplete := by
  intro s r w off z v
  refine ⟨?waits, ?error, ?reserved, ?stored, ?refused, ?slot, ?read⟩
  case waits => exact fun hwaits => ⟨congrArg Host.Outcome.next (access_waits hwaits), congrArg Host.Outcome.next (access_waits hwaits)⟩
  case error =>
    intro hwaits hbad
    have hnot : (!accessOk w.val off.val z.val) = true := by simp [hbad]
    exact ⟨(exec_registerWrite_served hwaits).trans (congrArg _ (if_pos hnot)), (exec_registerReadClear_served hwaits).trans (congrArg _ (if_pos hnot))⟩
  case reserved =>
    exact fun hwaits hok hnone hw htaken => (exec_registerWrite_served hwaits).trans (congrArg _ (writeNow_reserved hok hnone hw htaken))
  case stored =>
    intro hwaits hok hsome hslot htaken
    have hreg : ¬ ((registerAt w.val off.val).isEmpty = true ∧ (!decide (29 ≤ w.val ∧ w.val < 33)) = true) := by
      rintro ⟨hempty, hwindow⟩
      rcases hsome with hfields | hservo
      · exact hfields (List.isEmpty_iff.mp hempty)
      · simp [hservo] at hwindow
    rw [exec_registerWrite_served hwaits, writeNow_register hok hslot, htaken]
    exact congrArg _ (if_neg hreg)
  case refused =>
    intro t hwaits hok hslot hrefused
    rw [exec_registerWrite_served hwaits, writeNow_register hok hslot, hrefused]
  case slot =>
    intro u hwaits hok hfields hslot hunit
    rw [exec_registerWrite_served hwaits, writeNow_slot hok hslot, if_neg (by simpa using hfields), hunit]
    rfl
  case read =>
    exact fun hwaits hok h5 h9 h11 hfree => (exec_registerReadClear_served hwaits).trans (congrArg _ (readNow_plain hok h5 h9 h11 hfree))

end
